-- ==== Sys2Proof/Word.lean ====
section
/-!
DEFINITION. The machine words of the C32 and the plainest arithmetic on them: bytes, the 32-bit
register word (R11), the 64-bit double word, and the two byte orders of R10.
-/

namespace Sys2Proof

/-- A byte. -/
abbrev Byte := BitVec 8

/-- A 32-bit register or memory word (R11). -/
abbrev Word := BitVec 32

/-- A 64-bit word: Tide64 values (R8), FP64 encodings, ECC words (R158). -/
abbrev Dword := BitVec 64

/-- A map with natural keys, held as pairs in strictly rising key order. (DESIGN CHOICE, log 5) -/
abbrev SMap (α : Type) := List (Nat × α)

end Sys2Proof
end

