-- ==== Sys2Proof/Syntax.lean ====
section
/-!
DEFINITION. The commands of the C32 block: one constructor of `Instr` per row of the table of
operations and events, with the operands the row's rules name. The table gives no operand bits, so
the shapes are the model's own (log entry 8).
-/

namespace Sys2Proof

/-- Host port A or B (R430). -/
inductive Port | a | b
  deriving DecidableEq, Repr

/-- A host's address as R604 records it. -/
structure HostAddr where
  mac : BitVec 48
  v6 : Bool
  ip : BitVec 128
  udp : BitVec 16
  deriving DecidableEq, Repr

/-- The header of a received SQP message (R439), with the facts of its arrival: the port, the UDP
payload's length, whether CRC-32C is right, and the source (R604). -/
structure SqpHdr where
  port : Port
  udpLen : Nat
  crcOk : Bool
  version : Byte
  ackReq : Bool
  retry : Bool
  resync : Bool
  adopt : Bool
  both : Bool
  client : Fin 8
  oPort : Port
  seq : Word
  number : BitVec 16
  gen : BitVec 16
  length : BitVec 16
  ack : Word
  src : HostAddr
  deriving DecidableEq, Repr

/-- The interface that carries a register access: SQP or the service SPI (R582). -/
inductive RegSrc
  | sqp (h : SqpHdr)
  | spi
  deriving DecidableEq, Repr

/-- The payload of a SUBMIT (R448). -/
structure SubmitBody where
  tag : Word
  zero : Word
  deadline : Dword
  paramLen : Word
  warmLen : Word
  params : List Byte
  warm : List Byte
  deriving DecidableEq, Repr

/-- The fields of an operation descriptor (R181) that do not select its class and variant.
`subExtra` holds the SUBOP bits the class does not list (R185: they must be 0), shifted to their place. -/
structure Desc where
  rm : BitVec 3 := 0
  dpmode : BitVec 5 := 0
  slotwise : Bool := false
  stw : Bool := false
  rsv0 : BitVec 12 := 0
  subExtra : BitVec 6 := 0
  predMask : BitVec 16 := 0
  predVal : BitVec 16 := 0
  fmtA : BitVec 16 := 0
  fmtB : BitVec 16 := 0
  fmtC : BitVec 16 := 0
  fmtD : BitVec 16 := 0
  addrA : Word := 0
  addrB : Word := 0
  addrC : Word := 0
  addrD : Word := 0
  m : BitVec 16 := 0
  n : BitVec 16 := 0
  k : BitVec 16 := 0
  rsv9 : BitVec 16 := 0
  lda : BitVec 16 := 0
  ldb : BitVec 16 := 0
  ldc : BitVec 16 := 0
  ldd : BitVec 16 := 0
  relA : Bool := false
  relB : Bool := false
  relC : Bool := false
  relD : Bool := false
  rsv12 : BitVec 4 := 0
  slotStride : BitVec 24 := 0
  scofsA : BitVec 16 := 0
  scofsB : BitVec 16 := 0
  scofsD : BitVec 16 := 0
  statusIdx : BitVec 16 := 0
  imm : Word := 0
  deriving DecidableEq, Repr

/-- The fields of a JUMP or an END, and the PAN bit of its SUBOP (R185, R195). -/
structure Branch where
  desc : Desc
  pan : Bool
  deriving DecidableEq, Repr

/-- A supply rail, in the order of HEALTH_SUPPLY.BROWN_RAIL (R592). -/
inductive Rail | core | sram | iod | phy | aphy | hb | io
  deriving DecidableEq, Repr

/-- The Follow_Up of a two-step Sync (R477): its originTimestamp in ns, its correctionField in units of 2^-16 ns, its bytes as they are forwarded,
and the bytes of its frame. -/
structure FollowUp where
  origin : Nat
  corr : Int
  body : List Byte
  bytes : Nat := 128
  deriving DecidableEq, Repr

/-- A Sync message with its Follow_Up where it is two-step (R477), as it arrives on bridge port `p`.
`origin` is originTimestamp in ns, `corr` correctionField in units of 2^-16 ns; `pcp` and `bytes` are the priority and the size of its frame. (DEDUCED, log 26) -/
structure SyncMsg where
  p : Fin 18
  gm : Dword
  domain : Byte
  origin : Nat
  corr : Int
  logInterval : Int
  pcp : BitVec 3 := 7
  bytes : Nat := 128
  follow : Option FollowUp := none
  deriving DecidableEq, Repr

/-- Other PTP messages (R488). -/
inductive PtpKind | followUp | announce | signaling | pdelayReq | pdelayResp | pdelayRespFollowUp
  deriving DecidableEq, Repr

/-- A UDP datagram in a received frame (R434, R435). -/
structure Datagram where
  src : HostAddr
  dstPort : BitVec 16
  badIp : Bool          -- IPv4 fragment or options, or an IPv6 Fragment header
  cksumOk : Bool
  payload : List Byte
  deriving DecidableEq, Repr

/-- The IP header and ports of a frame that carries an IP packet (R434, R437): an IPv4 address lies in the low 32 bits, and the ports are 0 where the
protocol has none. -/
structure IpHdr where
  v6 : Bool
  src : BitVec 128
  dst : BitVec 128
  dscp : BitVec 6
  proto : Byte
  srcPort : BitVec 16
  dstPort : BitVec 16
  deriving DecidableEq, Repr

/-- What a received Ethernet frame carries. `turnaround` is t3 − t2 of a Pdelay_Resp with its Follow_Up, in 0.25 ns, and `body` a message's bytes;
`target` is the address that an ARP request or a Neighbour Solicitation asks for; `badIp` says that the packet is an IPv4 fragment or has options,
or has an IPv6 Fragment header (R434). -/
inductive FrameKind
  | sync (m : SyncMsg)
  | ptp (k : PtpKind) (domain : Byte) (turnaround : Nat) (body : List Byte := [])
  | arp (target : Word)
  | neighbour (target : BitVec 128)
  | echo (badIp : Bool := false)
  | udp (d : Datagram)
  | other
  deriving DecidableEq, Repr

/-- A received Ethernet frame on bridge port `p` (R433). -/
structure Frame where
  p : Fin 18
  ipBytes : Nat
  tags : Nat
  fcsOk : Bool
  dstMac : BitVec 48
  vid : BitVec 12
  pcp : BitVec 3
  ip : Option IpHdr
  kind : FrameKind
  deriving DecidableEq, Repr

/-- The precincts (JXS) or lines (RAW) whose bytes a packet carries: the first and the last of them, whether the packet begins at the first
byte of the first, and whether it ends at the last byte of the last. -/
structure RtpSpan where
  first : Nat
  last : Nat
  opens : Bool
  closes : Bool
  deriving DecidableEq, Repr

/-- An RTP packet (R375) with what its payload carries; none where the payload's header is in error. -/
structure RtpPkt where
  ssrc : Word
  seq : BitVec 16
  ts : Word
  marker : Bool
  span : Option RtpSpan
  payload : List Byte
  deriving DecidableEq, Repr

/-- The end of a copy to a spare (R141, R513): the region, and which lines read uncorrectable while they were copied. -/
structure CopyEnd where
  region : Fin 4
  bad : List Nat
  deriving DecidableEq, Repr

/-- One salinometer's reading (R520). -/
structure SalReading where
  roCount : Nat
  slack : Int
  vminMv : Nat
  deriving DecidableEq, Repr

/-- Hardware faults seen while an operation ran (R158, R159, R498, R511). -/
structure OpFaults where
  corrected : List Nat := []       -- word addresses with a corrected single-bit error
  uncorrectable : List Nat := []   -- word addresses that read uncorrectable
  residue : Option (Nat × Nat) := none   -- cell, column with a residue mismatch
  seqParity : Bool := false
  deriving DecidableEq, Repr

/-- Which error log (R500). -/
inductive LogId
  | core (n : Fin 32)
  | region (r : Fin 4)
  | chip
  deriving DecidableEq, Repr

/-- The registers of HPORT_CFG_WRITE (R471). -/
inductive HportReg | cfg | macHi | macLo | ipv4 | ipv6 (k : Fin 4) | net
  deriving DecidableEq, Repr

/-- A finding of the harrow in a 64-bit word of a line (R161). -/
structure HarrowWord where
  word : Nat
  uncorrectable : Bool
  syndrome : BitVec 16
  deriving DecidableEq, Repr

/-- A sluice bucket (R414). -/
inductive Bucket | rmem | fabric | hbus | host
  deriving DecidableEq, Repr

/-- The commands of the C32, one per row of the table of operations and events, in its order. (DESIGN CHOICE, log 8) -/
inductive Instr
  | porstNAssert (ns : Nat) (acts : Bool)
  | porstNRelease (puf : BitVec 3570) (entropy : BitVec 262)
  | sysrstN (ns : Nat) (acts : Bool)
  | pwrSag (lowNs : Nat)
  | vddIoLow (mv : Nat)
  | vddCoreLow (mv : Nat)
  | ledgerWriteResume
  | brownOut (rail : Rail) (mv ns : Nat)
  | brownOutExit
  | pllUnlock
  | pllRelockExit
  | thermalSample (temps : List Int)
  | thermTrip (celsius : Int)
  | linkUp (p : Fin 18) (speed : BitVec 2) (master : Bool)
  | linkDown (p : Fin 18)
  | frameReceive (f : Frame)
  | regRead (h : SqpHdr) (addr : Word) (count : BitVec 16)
  | regWrite (h : SqpHdr) (addr : Word) (count : BitVec 16) (vals : List Word)
  | sqpFragment (h : SqpHdr) (type : Byte) (total ofs : Word) (data : List Byte)
  | reassemblyTimeout (port : Port) (s0 : Word)
  | queueOpen (h : SqpHdr)
  | queueAdopt (h : SqpHdr)
  | queueClose (h : SqpHdr)
  | queueCloseAck (q : BitVec 16)
  | submit (h : SqpHdr) (b : SubmitBody)
  | cancel (h : SqpHdr) (tag : Word)
  | windowOpen (h : SqpHdr) (region : Byte) (ofs len : Word)
  | windowClose (h : SqpHdr)
  | windowWrite (h : SqpHdr) (ofs : Word) (data : List Byte)
  | windowWriteApply (w : BitVec 16)
  | windowRead (h : SqpHdr) (ofs len : Word)
  | semAcquire (h : SqpHdr) (leaseMs : Word)
  | semRelease (h : SqpHdr)
  | semStatus (h : SqpHdr)
  | semLeaseExpiry (n : Fin 64)
  | imageBegin (h : SqpHdr) (kind slot refId : Byte) (total : Word)
  | imageData (h : SqpHdr) (ofs : Word) (data : List Byte)
  | imageEnd (h : SqpHdr)
  | containerVerification (x : Fin 4)
  | supervisorStart
  | referenceDecodeDone (x : Fin 4)
  | attestReq (h : SqpHdr) (nonce : BitVec 256)
  | hostAck (h : SqpHdr)
  | resendTimer (port : Port) (seq : Word)
  | svcRead (cmd : Byte) (addr : Word) (complete : Bool)
  | svcWrite (cmd : Byte) (addr val : Word) (complete : Bool)
  | counterOvfClear (src : RegSrc) (addr : Word)
  | glbModeWrite (src : RegSrc) (val : Word)
  | vuCtrlWrite (src : RegSrc) (core : Fin 32) (val : Word)
  | logClear (src : RegSrc) (log : LogId)
  | hbusCfgWrite (src : RegSrc) (ch : Fin 16) (val : Word)
  | hbusTrainingDone (ch : Fin 16) (pass : Bool)
  | hportCfgWrite (src : RegSrc) (n : Port) (r : HportReg) (val : Word)
  | load (src : RegSrc) (pan : Fin 16) (ctx : Fin 8) (catalog : BitVec 5)
  | loadDone (pan : Fin 16) (ctx : Fin 8)
  | unload (src : RegSrc) (pan : Fin 16) (ctx : Fin 8)
  | preempt (src : RegSrc) (pan : Fin 16)
  | pause (src : RegSrc) (pan : Fin 16) (on : Bool)
  | waitSumLoRead (src : RegSrc) (client : Fin 8)
  | tideNowNsRead (src : RegSrc)
  | tideAddendWrite (src : RegSrc) (val : Word)
  | step (src : RegSrc)
  | set (src : RegSrc)
  | rearm (src : RegSrc)
  | syncReceive (m : SyncMsg)
  | holdoverTimeout
  | bestMasterChange (gm : Dword) (logInterval : Int)
  | pdelayReq (p : Fin 18) (domain : Byte)
  | pdelayTimer (p : Fin 18)
  | pdelayResp (p : Fin 18) (domain : Byte) (turnaround : Nat)
  | ppsInEdge
  | ppsOutEdge
  | avsAppliedWrite (src : RegSrc) (val : Word)
  | avsStep
  | avsLateTimeout
  | salinometerSample (readings : List SalReading)
  | wearRecord (shutdown : Bool)
  | hoursRecord (shutdown : Bool)
  | ledgerRecordCommit (readBackOk : Bool)
  | format (src : RegSrc)
  | ledgerRdDataRead (src : RegSrc)
  | shutdownReq (src : RegSrc)
  | shutdownBistDone (fail : BitVec 96) (columns : List Byte)
  | startSelfTestDone (fail : BitVec 96) (columns : List Byte)
  | apply (src : RegSrc)
  | applyComplete
  | discard (src : RegSrc)
  | enrol (src : RegSrc)
  | secStoreCfgWrite (src : RegSrc) (val : Word)
  | secModelDel (src : RegSrc) (index : BitVec 6)
  | activate (src : RegSrc) (sel : Bool)
  | clear (src : RegSrc) (sel : Bool)
  | en (src : RegSrc) (loop : Fin 2048) (on : Bool)
  | feClr (src : RegSrc) (loop : Fin 2048)
  | loopHostTargetWrite (src : RegSrc) (loop : Fin 2048) (ff : Bool) (mant : BitVec 24)
  | loopTraceTrig (src : RegSrc) (mask : BitVec 16)
  | loopTraceCtrlWrite (src : RegSrc) (trace : Fin 16) (val : Word)
  | loopTick
  | sampleLatch (slot : Fin 153)
  | updateIssue (pair : Fin 4)
  | updateCompare (pair : Fin 4) (agree : Bool)
  | lockstepKatDone (pair : Fin 4) (pass0 pass1 : Bool)
  | setpointFrameSend
  | tracePageSpill (trace : Fin 16)
  | tracePageSend (trace : Fin 16)
  | measFrame (stream : Fin 32) (payload : List Byte)
  | fieldTimeout (field : Fin 1024)
  | rtpPacket (stream : Fin 32) (pkt : RtpPkt)
  | precinctDecode (stream : Fin 32)
  | decodeBudgetExpiry (stream : Fin 32)
  | videoFrameComplete (stream : Fin 32)
  | parameterSetHandover (binding : Fin 64)
  | deadlineHarvest
  | notStartedThreshold
  | sliceEntryStart (pan : Fin 16)
  | sliceEntryEnd (pan : Fin 16)
  | stepBoundary (pan : Fin 16) (ctx : Fin 8)
  | stepBudgetEnd (pan : Fin 16) (ctx : Fin 8)
  | copy (core : Fin 32) (d : Desc)
  | fill (core : Fin 32) (d : Desc)
  | feRead (core : Fin 32) (d : Desc)
  | feWrite (core : Fin 32) (d : Desc)
  | pageLoad (core : Fin 32) (d : Desc)
  | pageStore (core : Fin 32) (d : Desc)
  | gemm (core : Fin 32) (d : Desc) (cin transA transB pank : Bool)
  | add (core : Fin 32) (d : Desc)
  | sub (core : Fin 32) (d : Desc)
  | mul (core : Fin 32) (d : Desc)
  | fma (core : Fin 32) (d : Desc)
  | max (core : Fin 32) (d : Desc)
  | min (core : Fin 32) (d : Desc)
  | abs (core : Fin 32) (d : Desc)
  | neg (core : Fin 32) (d : Desc)
  | idiv (core : Fin 32) (d : Desc)
  | irem (core : Fin 32) (d : Desc)
  | shl (core : Fin 32) (d : Desc)
  | shr (core : Fin 32) (d : Desc)
  | and (core : Fin 32) (d : Desc)
  | or (core : Fin 32) (d : Desc)
  | xor (core : Fin 32) (d : Desc)
  | twosum (core : Fin 32) (d : Desc)
  | twoprod (core : Fin 32) (d : Desc)
  | padd (core : Fin 32) (d : Desc)
  | pmul (core : Fin 32) (d : Desc)
  | test (core : Fin 32) (d : Desc)
  | setstate (core : Fin 32) (d : Desc)
  | reduceSum (core : Fin 32) (d : Desc) (axis pan : Bool)
  | reduceMax (core : Fin 32) (d : Desc) (axis pan : Bool)
  | reduceMin (core : Fin 32) (d : Desc) (axis pan : Bool)
  | normInf (core : Fin 32) (d : Desc) (axis pan : Bool)
  | sumsq (core : Fin 32) (d : Desc) (axis pan : Bool)
  | ldltDense (core : Fin 32) (d : Desc)
  | ldltStaged (core : Fin 32) (d : Desc)
  | trsolveForward (core : Fin 32) (d : Desc)
  | trsolveDiag (core : Fin 32) (d : Desc)
  | trsolveBackward (core : Fin 32) (d : Desc)
  | trsolveFull (core : Fin 32) (d : Desc)
  | div (core : Fin 32) (d : Desc)
  | sqrt (core : Fin 32) (d : Desc)
  | recip (core : Fin 32) (d : Desc)
  | rsqrt (core : Fin 32) (d : Desc)
  | certOptimality (core : Fin 32) (d : Desc) (cls : BitVec 2)
  | certPrimalInfeasibility (core : Fin 32) (d : Desc) (cls : BitVec 2)
  | certDualInfeasibility (core : Fin 32) (d : Desc) (cls : BitVec 2)
  | certEkf (core : Fin 32) (d : Desc)
  | conv (core : Fin 32) (d : Desc)
  | barrier (core : Fin 32) (d : Desc)
  | barrierRelease (pan : Fin 16) (ctx : Fin 8)
  | barrierTimeout (core : Fin 32)
  | fence (core : Fin 32) (d : Desc)
  | commit (core : Fin 32) (d : Desc)
  | stepEnd (core : Fin 32) (d : Branch)
  | jump (core : Fin 32) (d : Branch)
  | ifAny (core : Fin 32) (d : Desc) (pan : Bool)
  | ifAll (core : Fin 32) (d : Desc) (pan : Bool)
  | ifNone (core : Fin 32) (d : Desc) (pan : Bool)
  | fbar (core : Fin 32) (d : Desc)
  | operationComplete (core : Fin 32) (f : OpFaults)
  | trapDelivery (core : Fin 32)
  | slotTimeout (core : Fin 32)
  | bufferFlush (core : Fin 32) (cell : Fin 16)
  | remoteAccessComplete (core : Fin 32)
  | hbusPageTransfer (ch : Fin 16) (crcErrors : Nat)
  | sluiceTokenGrant (pan : Fin 16) (b : Bucket)
  | harrowScrub (line : Word) (words : List HarrowWord)
  | harrowRewrite
  | bankCopyDone (r : CopyEnd)
  | coreCopyDone (r : CopyEnd)
  | logRecord (l : LogId)
  | bypass
  | idcode
  | samplePreload
  | extest
  | extestPulse
  | extestTrain
  | gateControlListEntry (p : Fin 18)
  | frameTransmit (p : Fin 18)
  | hbusLost (ch : Fin 16)
  | ledgerEraseDone
  deriving DecidableEq, Repr

end Sys2Proof
end

