-- ==== Sys2Proof/Decode.lean ====
section
/-!
DEFINITION. The command that a word spells. The table of operations and events gives no row any bits: a command is an event of the
block's pins, ports and engines, not a word, so no word spells one.
-/

namespace Sys2Proof

/-- The command of a word by the table's bits: none, since no row gives bits. (DESIGN CHOICE, log 8) -/
def decodeTableWord (_nbits _w : Nat) : Option Instr := none

end Sys2Proof
end

