-- ==== Sys2Proof/Machine/Image.lean ====
section
/-!
DEFINITION. The contents of a structure image (R396) and of a model pack (R293, R294) as the
C32 reads them, and of the bundle's tables the C32 uses (R542). Their byte layouts are Avnus's and Drernapel's
own (R396, R542), so the model names the contents and leaves the parsing to `Config`.
-/

namespace Sys2Proof.Machine

/-- One core's step program: the header of R174 with its reserved fields, its 64-byte descriptors as words (R181), and the offset
in the core's scratchpad share of the descriptor area that a load copies it to (R176: its place is Avnus's). -/
structure StepProg where
  magic : Nat := 0x53505247
  version : Nat := 1
  descCount : Nat := 1
  slots : Nat := 1
  slotBase : Nat := 0x0C000000
  slotSize : Nat := 4096
  persOfs : Nat := 0
  persLen : Nat := 0
  vuCtrl : Word := 0
  barrierWait : Nat := 1
  maxIssue : Nat := 1
  statusBase : Nat := 0x0C000000
  rsv0A : Nat := 0
  rsv2C : List Byte := []
  descs : List (List Word) := []
  descOfs : Nat := 0
  deriving DecidableEq, Repr

/-- The instance attributes a catalogue entry fixes: what the queue manager writes into an instance
header (R214) and where its areas lie. Offsets are slot offsets. -/
structure Template where
  cls : Nat := 0
  method : Nat := 0
  form : Nat := 0
  dim0 : Nat := 1
  dim1 : Nat := 0
  dim2 : Nat := 0
  dim3 : Nat := 0
  iterCap : Nat := 1
  refine : Nat := 0
  pfmt : Nat := 0
  rangePolicy : Nat := 0
  delta0 : Word := 0
  deltaMin : Word := 0
  kpoint : Nat := 0
  rpoint : Nat := 0
  estPoint : Nat := 0
  rhoEvery : Nat := 0
  xpoint : Nat := 0
  spoint : Nat := 0
  zpoint : Nat := 0
  wMax : Word := 0
  tolOfs : Nat := 0x80
  certOfs : Nat := 0
  iterOfs : Nat := 0
  paramOfs : Nat := 0xC0
  arrays : List Word := []       -- the sixteen ARRAYS entries of R214
  arrayElems : List Nat := []    -- elements of each array, CONSTANT ones included
  generated : List Nat := []     -- the entries of ARRAYS that a model's generated arrays take (R290)
  xElems : Nat := 0              -- elements of x, y and of the class result area (R286)
  yElems : Nat := 0
  extraElems : Nat := 0
  extraOfs : Nat := 0
  deriving DecidableEq, Repr

/-- A share of one region's memory (R399). -/
structure RegionShare where
  region : Nat
  ofs : Nat
  len : Nat
  deriving DecidableEq, Repr

/-- An entry of a pan's context catalogue (R396, R398-R401). -/
structure CatEntry where
  width : Nat := 1
  spanning : Bool := false             -- a pan-spanning context (R211, R259)
  shareBase : Nat := 0                 -- scratchpad share per core: offset and length (R399)
  shareLen : Nat := 0x400000
  regions : List RegionShare := []
  stepBudget : Nat := 0                -- ACLK cycles (R409, R425)
  boundaryBudget : Nat := 0
  streamOk : Bool := false
  static : Option (List Nat) := none   -- logical core of each rank (R401)
  progs : List StepProg := []          -- one per rank
  constBytes : Nat := 0
  consts : List (Nat × Byte) := []     -- CONSTANT arrays, at offsets of every core's scratchpad share
  regionInitBytes : Nat := 0
  regionInit : List (Nat × Byte) := [] -- initial contents of its region-memory share, at memory addresses
  constPages : List Nat := []          -- the pages of the image's body that hold both
  weightOfs : Nat := 0                 -- offset in the scratchpad share of the resident weights (R311)
  stageOfs : Nat := 0                  -- offset in the scratchpad share of the staging area (R316)
  packs : List (BitVec 256) := []
  group : Nat := 1
  admitMax : Nat := 1
  tmpl : Template := {}
  deriving DecidableEq, Repr

/-- A slice-table entry (R406). -/
structure SliceEntry where
  mask : BitVec 8
  lengthUs : Nat
  deriving DecidableEq, Repr

/-- RATE in MB/s and DEPTH in KiB of a sluice bucket (R414). -/
structure BucketCfg where
  rate : Nat := 0
  depth : Nat := 0
  deriving DecidableEq, Repr

/-- A degraded placement of a pan (R516): the loss it is compiled for, its stated speed, the contexts it unloads, and the catalogue entries as they are
compiled for it, each with the core of every rank and its own budgets. (DESIGN CHOICE, log 53) -/
structure Degraded where
  lost : Nat                    -- physical units lost: a core's pan needs this many spare cores
  speedPct : Nat
  none : List Nat := []         -- catalogue entries the placement marks NONE
  entries : List (Nat × CatEntry) := []   -- catalogue entry → the entry compiled for the placement
  deriving DecidableEq, Repr

/-- A pan of the pan map (R397). -/
structure PanCfg where
  cores : List Nat := []
  rt : Bool := false
  catalog : List CatEntry := []
  slices : List SliceEntry := []
  rmem : BucketCfg := {}
  fabric : BucketCfg := {}
  hbus : BucketCfg := {}
  host : BucketCfg := {}
  degraded : List Degraded := []
  deriving DecidableEq, Repr

/-- Fields a loop binding may name (R347). -/
inductive LoopField | target | ffExt | vmax | amax | jmax | outLo | outHi
  deriving DecidableEq, Repr

/-- One entry of a loop binding (R347). -/
structure BindEntry where
  element : Nat
  loop : Nat
  field : LoopField
  deriving DecidableEq, Repr

/-- A queue's entry in the queue map (R255, R238). -/
structure QueueCfg where
  pan : Nat := 0
  catalog : Nat := 0
  qdepth : Nat := 1
  minSolve : Nat := 0
  guard : Nat := 0
  inputPolicy : Nat := 0
  resultSel : BitVec 3 := 0
  handoffMin : Nat := 0
  loopBind : List BindEntry := []
  chained : Bool := false
  tol : List Dword := []
  reserved : List Nat := []      -- its reserved global slots (R270)
  deriving DecidableEq, Repr

/-- A BX24 mantissa or coefficient of the loop wiring. -/
abbrev Mant := Int

/-- A loop wiring record (R326). -/
structure LoopCfg where
  pipe : Nat := 0
  slot : Nat := 0
  mult : Nat := 1
  phase : Nat := 0
  source : Option Nat := none
  actCh : Nat := 0
  group : Nat := 1
  comp3 : Bool := false
  notch : Bool := false
  track : Bool := false
  spHost : Bool := false
  timeout : Nat := 1
  feLimit : Mant := 0
  feTime : Nat := 1
  feAct : Nat := 0
  safeOut : Mant := 0
  initOut : Mant := 0
  exp : List Nat := []
  cexp : List Nat := []
  alpha : Mant := 0
  lo : Mant := 0
  hi : Mant := 0
  rate : Mant := 0
  h : Mant := 0
  invH : Mant := 0
  snap : Mant := 0
  b : List Mant := []
  a : List Mant := []
  nn : List Mant := []
  nd : List Mant := []
  kv : Mant := 0
  ka : Mant := 0
  target : Mant := 0
  vmax : Mant := 0
  amax : Mant := 0
  jmax : Mant := 0
  outLo : Mant := 0
  outHi : Mant := 0
  deriving DecidableEq, Repr

/-- KIND of a stream binding (R360). -/
inductive StreamKind | meas | jxs | raw
  deriving DecidableEq, Repr

/-- A stream binding (R360). Times in ns. -/
structure StreamCfg where
  kind : StreamKind := .meas
  port : Nat := 0
  udpPort : Nat := 1
  ssrc : Word := 0
  ssrcCheck : Bool := false
  width : Nat := 1
  height : Nat := 1
  sampling : Nat := 0
  depth : Nat := 8
  decoder : Nat := 0
  share : Nat := 1
  budget : Nat := 1000
  maxAge : Nat := 1000
  rxbuf : Nat := 65536
  refId : Option Nat := none
  tileW : Nat := 1
  findThresh : Word := 0x3F800000
  roiMargin : Nat := 0
  concealMax : Nat := 0
  firstField : Nat := 0
  fieldCount : Nat := 1
  deriving DecidableEq, Repr

/-- A measurement field's conditioner constants, FP64 (R370). -/
structure FieldCfg where
  lo : Dword
  hi : Dword
  reject : Bool
  rate : Dword
  alpha : Dword
  timeoutNs : Nat
  deriving DecidableEq, Repr

/-- Source of a parameter-set item (R389). -/
inductive ItemSrc
  | fields (first count : Nat)
  | tiles (stream : Nat)
  deriving DecidableEq, Repr

/-- An item of a parameter-set binding: its source, the ARRAYS entry and the element offset (R389). -/
structure PsetItem where
  src : ItemSrc
  array : Nat
  elem : Nat
  deriving DecidableEq, Repr

/-- A parameter-set binding (R389). -/
structure PsetCfg where
  queue : Nat
  trigger : Nat
  deadlineOfs : Nat
  items : List PsetItem
  deriving DecidableEq, Repr

/-- A destination of the egress table (R393). -/
structure DestCfg where
  port : Nat
  vid : BitVec 12
  pcp : BitVec 3
  addr : HostAddr
  deriving DecidableEq, Repr

/-- IP stream identification of IEEE 802.1CB (R437): a source address, a DSCP or ports that are none match any, and a protocol of 0 matches any. (PRESUMED, log 67) -/
structure IpIdent where
  v6 : Bool
  src : Option (BitVec 128) := none
  dst : BitVec 128
  dscp : Option (BitVec 6) := none
  proto : Byte := 0
  ports : Option (BitVec 16 × BitVec 16) := none
  deriving DecidableEq, Repr

/-- A flow meter (R437): CIR and EIR in bit/s, CBS and EBS in bytes. (PRESUMED, log 67) -/
structure FlowMeter where
  cir : Nat
  cbs : Nat
  eir : Nat
  ebs : Nat
  deriving DecidableEq, Repr

/-- An 802.1Qci stream filter (R437): its stream by destination MAC address and VLAN, and by IP stream identification where it has one; the largest
SDU; a stream gate as entries (open, ns), none of them where it has no gate; and its flow meter. -/
structure QciFilter where
  mac : BitVec 48
  vid : BitVec 12
  ip : Option IpIdent := none
  maxSdu : Nat
  gate : List (Bool × Nat) := []
  meter : Option FlowMeter := none
  deriving DecidableEq, Repr

/-- A field port's schedule record (R431, R434, R436, R437); an address of 0 is none. -/
structure PortSched where
  enabled : Bool := false
  speed : BitVec 2 := 0
  role : BitVec 2 := 0
  mac : BitVec 48 := 0
  ipv4 : Word := 0
  ipv6 : BitVec 128 := 0
  gates : List (BitVec 8 × Nat) := []    -- gate control list: open classes, ns
  filters : List QciFilter := []
  deriving DecidableEq, Repr

/-- A static forwarding entry (R435). -/
structure FwdEntry where
  vid : BitVec 12
  mac : BitVec 48
  ports : List Nat
  deriving DecidableEq, Repr

/-- A slot table: the owner of each slot, 0 NONE, 1 HRW, others the requesters (R129). -/
structure SlotTable where
  kind : Nat       -- 0 cell bank, 1 core remote port, 2 region ring, 3 chip fabric
  owners : List Nat
  deriving DecidableEq, Repr

/-- The slot positions compiled for one spare remap (R396, R514): the region, its logical core, and the slot tables that then apply. -/
structure Alternate where
  region : Nat
  core : Nat
  tables : List SlotTable
  deriving DecidableEq, Repr

/-- A verified structure image (R396). -/
structure StructImage where
  pans : List (Nat × PanCfg) := []
  queues : List (Nat × QueueCfg) := []
  loops : List (Nat × LoopCfg) := []
  streams : List (Nat × StreamCfg) := []
  fields : List (Nat × FieldCfg) := []
  psets : List (Nat × PsetCfg) := []
  dests : List (Nat × DestCfg) := []
  actDest : List (Nat × Nat) := []       -- actuator channel → destination
  ports : List (Nat × PortSched) := []
  fwd : List FwdEntry := []
  ptpMask : List Nat := []
  slotTables : List SlotTable := []
  alternates : List Alternate := []
  formatDefaults : List (BitVec 16) := []
  instKib : Nat := 0
  refPages : Nat := 0                    -- reference area per job slot, in 4 KiB pages
  refScale : List (Nat × Nat) := []      -- REF_ID → scale 1 or 2 (R382)
  tracePages : Nat := 0                  -- HyperRAM trace ring (R356): its pages and its address
  traceBase : Nat := 0x40000000
  refBase : Nat := 0x40000000            -- reference area: job slot 0's pages, then slot 1's (R382)
  hyperAreas : List (Nat × Nat) := []    -- HyperRAM areas it allocates: address, length (R547)
  meas : BitVec 256 := 0
  owner : BitVec 128 := 0
  pages : Nat := 0                       -- store pages the container's body occupies
  held : List Nat := []                  -- those pages, in the body's order (R544)
  deriving DecidableEq, Repr

/-- A layer record (R294). -/
structure LayerRec where
  op : Nat
  act : Nat
  src : Nat
  flags : Nat
  inW : Nat
  outW : Nat
  wFmt : BitVec 16
  start : Nat
  wOfs : Nat
  wBytes : Nat
  bOfs : Nat
  param : Word
  deriving DecidableEq, Repr

/-- A model pack's header (R293) and layer table. -/
structure ModelPack where
  meas : BitVec 256
  magic : Nat
  version : Nat
  inDim : Nat
  outDim : Nat
  tangents : Nat
  kslices : Nat
  actFmt : BitVec 16
  tanFmt : BitVec 16
  weightOfs : Nat := 0
  weightBytes : Nat
  boundOfs : Nat := 0
  bounds : List (Word × Word) := []      -- VAL_BOUND and JAC_BOUND of each output
  layers : List LayerRec
  pages : Nat
  held : List Nat := []                  -- the store pages of its bytes, in order (R544)
  deleting : Bool := false
  deriving DecidableEq, Repr

/-- What the C32 uses of an accepted supervisor bundle (R542): its measurement, the revoked
certificate serials, the BIST_REF measurement, the wear exponents in thousandths, and the code, tables and unit firmware that it loads. -/
structure Bundle where
  meas : BitVec 256
  revoked : List Dword
  bistRef : BitVec 256
  wearExp : List Nat
  code : List Byte := []
  tables : List Byte := []
  firmware : List (List Byte) := []
  deriving DecidableEq, Repr

end Sys2Proof.Machine
end

