-- ==== Sys2Proof/Machine/Maps.lean ====
section
/-!
DEFINITION. Keyed maps and byte memories: lists of pairs in strictly rising key order, with no entry for what an unlisted
key reads as. Byte orders (R10) and CRC-32C over bytes stand here too.
-/

namespace Sys2Proof

/-- The value at a key. -/
def SMap.get {α : Type} : SMap α → Nat → Option α
  | [], _ => none
  | (a, x) :: r, k => if a = k then some x else SMap.get r k

/-- The value at a key, with what an unlisted key reads as. -/
def SMap.getD {α : Type} (m : SMap α) (k : Nat) (d : α) : α := (m.get k).getD d

/-- The map with a key set. -/
def SMap.put {α : Type} : SMap α → Nat → α → SMap α
  | [], k, v => [(k, v)]
  | (a, x) :: r, k, v => if k < a then (k, v) :: (a, x) :: r else if k = a then (k, v) :: r else (a, x) :: SMap.put r k v

/-- The map without a key. -/
def SMap.del {α : Type} (m : SMap α) (k : Nat) : SMap α := m.filter (fun x => x.1 ≠ k)

/-- A value changed in place, from what an unlisted key reads as. -/
def SMap.modify {α : Type} (m : SMap α) (k : Nat) (d : α) (f : α → α) : SMap α := m.put k (f (m.getD k d))

/-- Keys strictly rising, from a lower bound on. -/
def SMap.sortedFrom {α : Type} : Nat → SMap α → Bool
  | _, [] => true
  | b, (a, _) :: r => b ≤ a && SMap.sortedFrom (a + 1) r

/-- A set of numbers: a strictly rising list. (DESIGN CHOICE, log 5) -/
abbrev NSet := List Nat

/-- A number put into a set. -/
def NSet.ins : NSet → Nat → NSet
  | [], k => [k]
  | a :: r, k => if k < a then k :: a :: r else if k = a then a :: r else a :: NSet.ins r k

/-- A number taken out of a set. -/
def NSet.del (m : NSet) (k : Nat) : NSet := m.filter (fun a => a ≠ k)

/-- Whether a set holds a number. -/
def NSet.has (m : NSet) (k : Nat) : Bool := m.elem k

/-- Strictly rising, from a lower bound on. -/
def NSet.sortedFrom : Nat → NSet → Bool
  | _, [] => true
  | b, a :: r => b ≤ a && NSet.sortedFrom (a + 1) r

/-- A byte memory. -/
abbrev Bytes := List (Nat × Byte)

/-- The byte at an address; unlisted addresses read `d`. (DESIGN CHOICE, log 3) -/
def Bytes.read (d : Byte) : Bytes → Nat → Byte
  | [], _ => d
  | (a, x) :: r, k => if a = k then x else Bytes.read d r k

/-- The memory with a byte written; writing what an unlisted address reads as removes the entry. -/
def Bytes.write (d : Byte) : Bytes → Nat → Byte → Bytes
  | [], k, v => if v = d then [] else [(k, v)]
  | (a, x) :: r, k, v =>
    if k < a then (if v = d then (a, x) :: r else (k, v) :: (a, x) :: r)
    else if k = a then (if v = d then r else (k, v) :: r)
    else (a, x) :: Bytes.write d r k v

/-- The canonical form: addresses strictly rising from a bound on, and no entry equal to what an unlisted address reads as. -/
def Bytes.wfFrom (d : Byte) : Nat → Bytes → Bool
  | _, [] => true
  | b, (a, x) :: r => b ≤ a && x != d && Bytes.wfFrom d (a + 1) r

/-- Consecutive bytes read from an address on. -/
def Bytes.readN (d : Byte) (m : Bytes) (a : Nat) : Nat → List Byte
  | 0 => []
  | n + 1 => m.read d a :: Bytes.readN d m (a + 1) n

/-- Consecutive bytes written from an address on, lowest first. -/
def Bytes.writeN (d : Byte) : Bytes → Nat → List Byte → Bytes
  | m, _, [] => m
  | m, a, b :: r => Bytes.writeN d (m.write d a b) (a + 1) r

/-- The bytes of a number, most significant first (the wire, R10). -/
def beBytes : Nat → Nat → List Byte
  | 0, _ => []
  | k + 1, n => BitVec.ofNat 8 (n / 2 ^ (8 * k)) :: beBytes k n

/-- The number that bytes hold, most significant first. -/
def beNat : List Byte → Nat
  | [] => 0
  | b :: r => b.toNat * 2 ^ (8 * r.length) + beNat r

/-- The bytes of a number, least significant first (device memories, R10). -/
def leBytes : Nat → Nat → List Byte
  | 0, _ => []
  | k + 1, n => BitVec.ofNat 8 n :: leBytes k (n / 256)

/-- The number that bytes hold, least significant first. -/
def leNat : List Byte → Nat
  | [] => 0
  | b :: r => b.toNat + 256 * leNat r

/-- One bit of the CRC-32C register, polynomial 0x1EDC6F41 reflected. -/
def crcBit (c : Word) : Word := if c.getLsbD 0 then (c >>> 1) ^^^ 0x82F63B78 else c >>> 1

/-- One byte into the CRC-32C register. -/
def crcByte (c : Word) (b : Byte) : Word :=
  crcBit (crcBit (crcBit (crcBit (crcBit (crcBit (crcBit (crcBit (c ^^^ b.setWidth 32))))))))

/-- CRC-32C of bytes. -/
def crc32c (bs : List Byte) : Word := bs.foldl crcByte 0xFFFFFFFF ^^^ 0xFFFFFFFF

end Sys2Proof
end

