-- ==== Sys2Proof/Machine/Descriptor.lean ====
section
/-!
DEFINITION. Step programs as bytes (R174, R181, R185): the header's layout, a descriptor's sixteen words, and which
command each CLASS and SUBOP name.
-/

namespace Sys2Proof.Machine

/-- CLASS, and the SUBOP bits that the class lists (R185). -/
structure OpCode where
  cls : Nat
  sub : Nat := 0
  deriving DecidableEq, Repr

/-- The SUBOP bits a class lists (R185). -/
def subMask : Nat → Nat
  | 0x0 => 7 | 0x1 => 15 | 0x2 => 63 | 0x3 => 31 | 0x4 => 3 | 0x5 => 3 | 0x6 => 3 | 0x7 => 3 | 0x9 => 1 | 0xB => 0x27 | _ => 0

/-- Whether a CLASS and its SUBOP bits name an operation, and are not reserved (R183, R185, R187-R189). -/
def OpCode.known (k : OpCode) : Bool :=
  match k.cls with
  | 0x0 => k.sub < 6
  | 0x2 => k.sub < 0xF || (0x10 ≤ k.sub && k.sub < 0x14) || k.sub = 0x18 || k.sub = 0x19
  | 0x3 => k.sub % 8 < 5
  | 0x4 => k.sub < 2
  | 0xB => k.sub % 8 < 5
  | c => c < 0xD

/-- A bit as a number. -/
def bitN (b : Bool) : Nat := if b then 1 else 0

/-- The sixteen words of a descriptor (R181). -/
def descWords (k : OpCode) (d : Desc) : List Nat :=
  [k.cls * 2 ^ 28 + (k.sub ||| d.subExtra.toNat) * 2 ^ 22 + d.rm.toNat * 2 ^ 19 + d.dpmode.toNat * 2 ^ 14 + bitN d.slotwise * 2 ^ 13
      + bitN d.stw * 2 ^ 12 + d.rsv0.toNat,
    d.predMask.toNat * 65536 + d.predVal.toNat, d.fmtA.toNat * 65536 + d.fmtB.toNat, d.fmtC.toNat * 65536 + d.fmtD.toNat,
    d.addrA.toNat, d.addrB.toNat, d.addrC.toNat, d.addrD.toNat,
    d.m.toNat * 65536 + d.n.toNat, d.k.toNat * 65536 + d.rsv9.toNat, d.lda.toNat * 65536 + d.ldb.toNat, d.ldc.toNat * 65536 + d.ldd.toNat,
    (bitN d.relA * 8 + bitN d.relB * 4 + bitN d.relC * 2 + bitN d.relD) * 2 ^ 28 + d.rsv12.toNat * 2 ^ 24 + d.slotStride.toNat,
    d.scofsA.toNat * 65536 + d.scofsB.toNat, d.scofsD.toNat * 65536 + d.statusIdx.toNat, d.imm.toNat]

/-- A descriptor's operation and fields from its sixteen words (R181, R185). (DEDUCED, log 59) -/
def descOf (ws : List Nat) : OpCode × Desc :=
  let w (i : Nat) : Nat := ws.getD i 0
  let f (i hi lo : Nat) : Nat := w i / 2 ^ lo % 2 ^ (hi - lo + 1)
  let b (i k : Nat) : Bool := w i / 2 ^ k % 2 = 1
  let cls := f 0 31 28
  let sub := f 0 27 22
  ({ cls := cls, sub := sub &&& subMask cls },
   { rm := BitVec.ofNat 3 (f 0 21 19), dpmode := BitVec.ofNat 5 (f 0 18 14), slotwise := b 0 13, stw := b 0 12,
     rsv0 := BitVec.ofNat 12 (f 0 11 0), subExtra := BitVec.ofNat 6 (sub &&& (63 - subMask cls)),
     predMask := BitVec.ofNat 16 (f 1 31 16), predVal := BitVec.ofNat 16 (f 1 15 0),
     fmtA := BitVec.ofNat 16 (f 2 31 16), fmtB := BitVec.ofNat 16 (f 2 15 0),
     fmtC := BitVec.ofNat 16 (f 3 31 16), fmtD := BitVec.ofNat 16 (f 3 15 0),
     addrA := BitVec.ofNat 32 (w 4), addrB := BitVec.ofNat 32 (w 5), addrC := BitVec.ofNat 32 (w 6), addrD := BitVec.ofNat 32 (w 7),
     m := BitVec.ofNat 16 (f 8 31 16), n := BitVec.ofNat 16 (f 8 15 0), k := BitVec.ofNat 16 (f 9 31 16),
     rsv9 := BitVec.ofNat 16 (f 9 15 0), lda := BitVec.ofNat 16 (f 10 31 16), ldb := BitVec.ofNat 16 (f 10 15 0),
     ldc := BitVec.ofNat 16 (f 11 31 16), ldd := BitVec.ofNat 16 (f 11 15 0),
     relA := b 12 31, relB := b 12 30, relC := b 12 29, relD := b 12 28, rsv12 := BitVec.ofNat 4 (f 12 27 24),
     slotStride := BitVec.ofNat 24 (f 12 23 0), scofsA := BitVec.ofNat 16 (f 13 31 16), scofsB := BitVec.ofNat 16 (f 13 15 0),
     scofsD := BitVec.ofNat 16 (f 14 31 16), statusIdx := BitVec.ofNat 16 (f 14 15 0), imm := BitVec.ofNat 32 (w 15) })

/-- The words that bytes hold, little-endian (R10). -/
def wordsOf (bs : List Byte) : List Nat := (List.range (bs.length / 4)).map (fun i => leNat ((bs.drop (4 * i)).take 4))

/-- The 64 bytes of a program header (R174). -/
def StepProg.headerBytes (h : StepProg) : List Byte :=
  leBytes 4 h.magic ++ leBytes 2 h.version ++ leBytes 2 h.descCount ++ leBytes 2 h.slots ++ leBytes 2 h.rsv0A
    ++ leBytes 4 h.slotBase ++ leBytes 4 h.slotSize ++ leBytes 4 h.persOfs ++ leBytes 4 h.persLen ++ leBytes 4 h.vuCtrl.toNat
    ++ leBytes 4 h.barrierWait ++ leBytes 4 h.maxIssue ++ leBytes 4 h.statusBase
    ++ (List.range 20).map (fun i => h.rsv2C.getD i 0)

/-- The header that 64 bytes hold (R174); its descriptors and their area are not in it. -/
def StepProg.ofHeader (bs : List Byte) : StepProg :=
  let f (o n : Nat) : Nat := leNat ((bs.drop o).take n)
  { magic := f 0x00 4, version := f 0x04 2, descCount := f 0x06 2, slots := f 0x08 2, rsv0A := f 0x0A 2, slotBase := f 0x0C 4,
    slotSize := f 0x10 4, persOfs := f 0x14 4, persLen := f 0x18 4, vuCtrl := BitVec.ofNat 32 (f 0x1C 4), barrierWait := f 0x20 4,
    maxIssue := f 0x24 4, statusBase := f 0x28 4, rsv2C := (bs.drop 0x2C).take 20 }

/-- A program's bytes as a load copies them (R174, R176): the header, then every descriptor. -/
def StepProg.image (h : StepProg) : List Byte := h.headerBytes ++ h.descs.flatMap (fun d => (List.range 16).flatMap (fun i =>
  leBytes 4 (d.getD i 0).toNat))

end Sys2Proof.Machine
end

