-- ==== Sys2Proof/Machine/Flags.lean ====
section
/-!
DEFINITION. The flags an operation reports (R66-R68, R82, R118): how they combine, and the bits they take in
CORE_n_VU_FLAGS and in a status record.
-/

namespace Sys2Proof.Machine

/-- The flags of an arithmetic result: invalid, division by zero, overflow, underflow, inexact, and
BLK_UNDERFLOW of a block-scaled operand (R82). -/
structure Fl where
  nv : Bool := false
  dz : Bool := false
  ovf : Bool := false
  unf : Bool := false
  nx : Bool := false
  blk : Bool := false
  deriving DecidableEq, Repr, Inhabited

/-- Flags are sticky: they are ORed (R118). -/
def Fl.or (a b : Fl) : Fl :=
  { nv := a.nv || b.nv, dz := a.dz || b.dz, ovf := a.ovf || b.ovf,
    unf := a.unf || b.unf, nx := a.nx || b.nx, blk := a.blk || b.blk }

/-- No flag. -/
def Fl.none : Fl := {}

/-- The flags of many results, ORed (R118: across lanes). -/
def Fl.orAll : List Fl → Fl
  | [] => Fl.none
  | f :: r => f.or (Fl.orAll r)

/-- A flag's bit at a place. -/
def flagBit (b : Bool) (k : Nat) : Word := if b then (1 : Word) <<< k else 0

/-- The vector-unit and DSU bits of CORE_n_VU_FLAGS, [4:0] (R118). -/
def Fl.vuBits (f : Fl) : Word :=
  flagBit f.nv 4 ||| flagBit f.dz 3 ||| flagBit f.ovf 2 ||| flagBit f.unf 1 ||| flagBit f.nx 0

/-- The tensor array's bits of CORE_n_VU_FLAGS, [12:8] (R118). -/
def Fl.taBits (f : Fl) : Word :=
  flagBit f.nv 12 ||| flagBit f.blk 11 ||| flagBit f.ovf 10 ||| flagBit f.unf 9 ||| flagBit f.nx 8

/-- The enabled flags of an operation, in the bit order of CORE_n_VU_CTRL[4:0] (R120). -/
def Fl.enabled (f : Fl) (vuCtrl : Word) : BitVec 5 :=
  (f.vuBits &&& vuCtrl).setWidth 5

end Sys2Proof.Machine
end

