-- ==== Sys2Proof/Machine/Num.lean ====
section
/-!
DEFINITION. The fifteen number formats (R47-R64): what an encoding means as an exact value, and every
conversion of a value into an encoding with its flags (R65-R74). Values are exact: m × 2^e.
-/

namespace Sys2Proof.Machine

/-- The format codes of R47 (0xF is reserved). -/
inductive Fmt
  | fp64 | fp32 | fp16 | e8m7 | e5m2 | e4m3 | e3m4 | e2m1 | e8m0
  | s8 | s16 | s32 | fx32 | fx64 | bx24
  deriving DecidableEq, Repr

/-- The format a code names (R47). -/
def Fmt.ofCode : Nat → Option Fmt
  | 0x0 => some .fp64 | 0x1 => some .fp32 | 0x2 => some .fp16 | 0x3 => some .e8m7
  | 0x4 => some .e5m2 | 0x5 => some .e4m3 | 0x6 => some .e3m4 | 0x7 => some .e2m1
  | 0x8 => some .e8m0 | 0x9 => some .s8 | 0xA => some .s16 | 0xB => some .s32
  | 0xC => some .fx32 | 0xD => some .fx64 | 0xE => some .bx24 | _ => none

/-- The width of an element in memory, in bits; a BX24 mantissa takes a 32-bit word (R47, R52). -/
def Fmt.bits : Fmt → Nat
  | .fp64 | .fx64 => 64
  | .fp32 | .s32 | .fx32 | .bx24 => 32
  | .fp16 | .e8m7 | .s16 => 16
  | .e5m2 | .e4m3 | .e3m4 | .e8m0 | .s8 => 8
  | .e2m1 => 4

/-- The integer formats. -/
def Fmt.isInt : Fmt → Bool
  | .s8 | .s16 | .s32 => true
  | _ => false

/-- The integer and fixed-point formats, which hold k × 2^−p. -/
def Fmt.isFixed : Fmt → Bool
  | .s8 | .s16 | .s32 | .fx32 | .fx64 => true
  | _ => false

/-- The block-scaled element formats (R75). -/
def Fmt.isBlockElem : Fmt → Bool
  | .fp16 | .e8m7 | .e5m2 | .e4m3 | .e3m4 | .e2m1 | .s8 | .s16 => true
  | _ => false

/-- The formats the tensor array accepts as operands (R48). -/
def Fmt.taOperand : Fmt → Bool
  | .fp64 | .fx64 | .e8m0 | .bx24 => false
  | _ => true

/-- The formats of vector-unit arithmetic (R48, R102). -/
def Fmt.vuArith : Fmt → Bool
  | .fp64 | .fp32 | .fp16 | .fx32 | .fx64 | .s8 | .s16 | .s32 => true
  | _ => false

/-- The formats of the divide/square-root unit (R113). -/
def Fmt.dsu : Fmt → Bool
  | .fx32 | .fp32 | .fx64 | .fp64 => true
  | _ => false

/-- The operand format specifier of R49. -/
structure FSpec where
  fmt : Fmt
  point : Nat := 0
  sat : Bool := false
  blkDir : Bool := false
  blk : Nat := 0
  deriving DecidableEq, Repr

/-- The specifier a 16-bit word holds; none where R51 makes it a descriptor fault. POINT, SATFINITE and BLK_DIR
are dropped where R50 ignores them. -/
def FSpec.ofBits (w : BitVec 16) : Option FSpec :=
  match Fmt.ofCode (w.toNat / 4096) with
  | none => none
  | some f =>
    let blk := w.toNat % 16
    let pt := if f = .fx32 ∨ f = .fx64 then w.toNat / 64 % 64 else 0
    let sat := (f = .e8m7 ∨ f = .e5m2) && w.getLsbD 5
    if blk ≥ 10 then none
    else if blk ≠ 0 ∧ !(f.isBlockElem || f = .bx24) then none
    else if blk = 0 ∧ f = .bx24 then none
    else some { fmt := f, point := pt, sat := sat, blkDir := blk ≠ 0 && w.getLsbD 4, blk := blk }

/-- The block size of a specifier: 2^(BLK−1) (R49). -/
def FSpec.blockSize (f : FSpec) : Nat := 2 ^ (f.blk - 1)

/-- Whether an operand carries block scales or block exponents. -/
def FSpec.blocked (f : FSpec) : Bool := f.blk ≠ 0

/-- The format in which results on their way to an operand are rounded one by one: the operand's own, or FP32 where it is block scaled, since its
scales are chosen from the results (R77). (DESIGN CHOICE, log 65) -/
def FSpec.inner (f : FSpec) : FSpec := if f.blocked then { fmt := .fp32 } else f

/-- An exact value: ±m × 2^e, an infinity, or a NaN with its payload, the 51 bits below the quiet bit of FP64 (R70). -/
inductive Val
  | fin (neg : Bool) (m : Nat) (e : Int)
  | inf (neg : Bool)
  | nan (neg sig : Bool) (pay : Nat)
  deriving DecidableEq, Repr, Inhabited

/-- Positive zero. -/
def Val.zero : Val := .fin false 0 0

/-- The default NaN (R56): positive, quiet, without payload. -/
def Val.dnan : Val := .nan false false 0

/-- An integer times a power of two. -/
def Val.ofInt (k : Int) (e : Int := 0) : Val := .fin (k < 0) k.natAbs e

def Val.isNan : Val → Bool
  | .nan .. => true
  | _ => false

def Val.isInf : Val → Bool
  | .inf _ => true
  | _ => false

def Val.isSNan : Val → Bool
  | .nan _ s _ => s
  | _ => false

/-- Finite and zero. -/
def Val.isZero : Val → Bool
  | .fin _ m _ => m = 0
  | _ => false

/-- The sign bit. -/
def Val.neg : Val → Bool
  | .fin n _ _ | .inf n | .nan n _ _ => n

/-- A NaN quieted (R104). -/
def Val.quiet : Val → Val
  | .nan n _ p => .nan n false p
  | v => v

/-- A finite value as a rational. -/
def ratOf : Val → Rat
  | .fin n m e => let x : Rat := m * pow2r e; if n then -x else x
  | _ => 0
where pow2r (e : Int) : Rat := if 0 ≤ e then ((2 ^ e.toNat : Nat) : Rat) else 1 / ((2 ^ (-e).toNat : Nat) : Rat)

/-- ⌊log₂⌋ of the magnitude m × 2^e, m ≠ 0. -/
def log2Of (m : Nat) (e : Int) : Int := (Nat.log2 m : Int) + e

/-- Mantissa bits, exponent bits and bias of a floating format (R47). -/
def Fmt.flt : Fmt → Option (Nat × Nat × Int)
  | .fp64 => some (52, 11, 1023) | .fp32 => some (23, 8, 127) | .fp16 => some (10, 5, 15)
  | .e8m7 => some (7, 8, 127) | .e5m2 => some (2, 5, 15) | .e4m3 => some (3, 4, 7)
  | .e3m4 => some (4, 3, 3) | .e2m1 => some (1, 2, 1) | _ => none

/-- The formats with infinities and NaN payloads. -/
def Fmt.ieeeLike : Fmt → Bool
  | .fp64 | .fp32 | .fp16 | .e8m7 | .e5m2 => true
  | _ => false

/-- The magnitude bits of a floating format's largest finite value (R55). -/
def Fmt.maxBits : Fmt → Nat
  | .fp64 => 0x7FEFFFFFFFFFFFFF | .fp32 => 0x7F7FFFFF | .fp16 => 0x7BFF | .e8m7 => 0x7F7F
  | .e5m2 => 0x7B | .e4m3 => 0x7E | .e3m4 => 0x6F | .e2m1 => 0x7 | _ => 0

/-- A two's complement reading of w bits. -/
def sgn (w n : Nat) : Int := if n % 2 ^ w < 2 ^ (w - 1) then ((n % 2 ^ w : Nat) : Int) else ((n % 2 ^ w : Nat) : Int) - 2 ^ w

/-- The w low bits of an integer in two's complement. -/
def unsgn (w : Nat) (k : Int) : Nat := (k % 2 ^ w).toNat

/-- The value of a floating encoding (R53, R54, R55, R56). -/
def decodeFlt (f : Fmt) (mb eb : Nat) (bias : Int) (n : Nat) : Val :=
  let neg := n / 2 ^ (mb + eb) % 2 = 1
  let ex := n / 2 ^ mb % 2 ^ eb
  let fr := n % 2 ^ mb
  if ex = 0 then .fin neg fr (1 - bias - mb)
  else if ex = 2 ^ eb - 1 ∧ f.ieeeLike then
    if fr = 0 then .inf neg
    else .nan neg (fr / 2 ^ (mb - 1) = 0) (fr % 2 ^ (mb - 1) * 2 ^ (52 - mb))
  else if ex = 2 ^ eb - 1 ∧ f = .e4m3 ∧ fr = 7 then .nan neg false 0
  else if ex = 2 ^ eb - 1 ∧ f = .e3m4 then .nan neg false 0
  else .fin neg (fr + 2 ^ mb) (ex - bias - mb)

/-- The value of an element's bits (R53-R60, R74); `point` is the specifier's POINT. BX24 mantissas are read by
`decodeBx`. (DEDUCED, log 58) -/
def decode (f : Fmt) (point : Nat) (n : Nat) : Val :=
  match f with
  | .e8m0 => if n % 256 = 255 then Val.dnan else .fin false 1 ((n % 256 : Nat) - 127)
  | .s8 => Val.ofInt (sgn 8 n)
  | .s16 => Val.ofInt (sgn 16 n)
  | .s32 => Val.ofInt (sgn 32 n)
  | .fx32 => Val.ofInt (sgn 32 n) (-(point : Int))
  | .fx64 => Val.ofInt (sgn 64 n) (-(point : Int))
  | .bx24 => Val.ofInt (sgn 24 n)
  | f =>
    match f.flt with
    | some (mb, eb, b) => decodeFlt f mb eb b n
    | none => Val.zero

/-- The value of a BX24 mantissa under a block exponent (R61). -/
def decodeBx (n E : Nat) : Val := Val.ofInt (sgn 24 n) ((E : Int) - 149)

/-- The rounding-direction attributes (R103). -/
inductive RM | rte | rtz | rtp | rtn | rta
  deriving DecidableEq, Repr

/-- The attribute of an RM code; none for the reserved codes and for 0b111, the dynamic one (R103). -/
def RM.ofCode : Nat → Option RM
  | 0 => some .rte | 1 => some .rtz | 2 => some .rtp | 3 => some .rtn | 4 => some .rta | _ => none

/-- The magnitude m × 2^e rounded to a multiple of 2^q: the multiple, and whether it was inexact. (DEDUCED, log 58) -/
def roundAt (rm : RM) (neg : Bool) (m : Nat) (e q : Int) : Nat × Bool :=
  if q ≤ e then (m <<< (e - q).toNat, false)
  else
    let k := (q - e).toNat
    let n := m >>> k
    let r := m - (n <<< k)
    if r = 0 then (n, false)
    else
      let half := 2 ^ (k - 1)
      let up := match rm with
        | .rte => r > half || (r = half && n % 2 = 1)
        | .rta => r ≥ half
        | .rtz => false
        | .rtp => !neg
        | .rtn => neg
      (if up then n + 1 else n, true)

/-- Whether overflow under an attribute goes to infinity (IEEE 754-2019, R68). -/
def RM.toInf (rm : RM) (neg : Bool) : Bool :=
  match rm with
  | .rte | .rta => true
  | .rtz => false
  | .rtp => !neg
  | .rtn => neg

/-- A convex QP with a point of it (R211, R237): P and A by rows. -/
structure QpData where
  p : List (List Val) := []
  q : List Val := []
  a : List (List Val) := []
  l : List Val := []
  u : List Val := []
  x : List Val := []
  y : List Val := []
  deriving DecidableEq, Repr, Inhabited

/-- One stage of an MPC or MHE problem (R214, R224): the cost of its state and input (or noise), its constraints with their bounds, and
the dynamics into the next stage; and the stage's parts of x and y, with the multipliers of its dynamics. -/
structure Stage where
  qm : List (List Val) := []
  rm : List (List Val) := []
  sm : List (List Val) := []
  qv : List Val := []
  rv : List Val := []
  cm : List (List Val) := []
  dm : List (List Val) := []
  l : List Val := []
  u : List Val := []
  am : List (List Val) := []
  bm : List (List Val) := []
  cv : List Val := []
  x : List Val := []
  inp : List Val := []
  y : List Val := []
  dyn : List Val := []
  deriving DecidableEq, Repr, Inhabited

/-- The stages of a problem, with the terminal one, whose input and dynamics are empty: `init` is x₀ or x̄₀; `free` says that the initial state is one of
the unknowns, as in MHE, with its arrival cost Π⁻¹ in `arrival` (R247); and `initY` are the multipliers of the rows that fix it otherwise. -/
structure Stages where
  init : List Val := []
  free : Bool := false
  arrival : List (List Val) := []
  initY : List Val := []
  list : List Stage := []
  deriving DecidableEq, Repr, Inhabited

/-- The model of an EKF at its prediction (R249): F and H by rows, and h(x⁻). -/
structure EkfLin where
  f : List (List Val) := []
  h : List (List Val) := []
  pred : List Val := []
  deriving DecidableEq, Repr, Inhabited

/-- Magnitude comparison m₁ × 2^e₁ < m₂ × 2^e₂. -/
def magLt (m1 : Nat) (e1 : Int) (m2 : Nat) (e2 : Int) : Bool :=
  if e1 ≤ e2 then m1 < m2 <<< (e2 - e1).toNat else m1 <<< (e1 - e2).toNat < m2

/-- The bits of a NaN of a floating format (R56, R70): quiet, with the payload bits that fit. -/
def nanBits (f : Fmt) (mb eb : Nat) (neg : Bool) (pay : Nat) : Nat :=
  let s := if neg then 2 ^ (mb + eb) else 0
  match f with
  | .e4m3 | .e3m4 => s + 0x7F
  | _ => s + ((2 ^ eb - 1) <<< mb) + 2 ^ (mb - 1) + pay / 2 ^ (52 - mb)

/-- A finite non-zero magnitude encoded in a floating format (R65-R68). -/
def encodeMag (f : Fmt) (mb eb : Nat) (bias : Int) (sat : Bool) (rm : RM) (neg : Bool) (m : Nat) (e : Int) :
    Nat × Fl :=
  let s := if neg then 2 ^ (mb + eb) else 0
  let l := log2Of m e
  let q := max l (1 - bias) - mb
  let (n, inx) := roundAt rm neg m e q
  let enc := ((q + mb + bias - 1).toNat <<< mb) + n
  if enc > f.maxBits then
    let toInf := f.ieeeLike && !(sat && (f = .e8m7 || f = .e5m2)) && rm.toInf neg
    (s + (if toInf then f.maxBits + 1 else f.maxBits), { ovf := true, nx := true })
  else
    let qu := l - mb
    let (nu, _) := roundAt rm neg m e qu
    let tiny := magLt nu qu 1 (1 - bias)
    (s + enc, { nx := inx, unf := inx && tiny })

/-- A value encoded in a floating format (R66-R71). `sat` is SATFINITE, which governs finite sources only (R69). -/
def encodeFlt (f : Fmt) (mb eb : Nat) (bias : Int) (sat : Bool) (rm : RM) (v : Val) : Nat × Fl :=
  match v with
  | .fin neg 0 _ => (if neg then 2 ^ (mb + eb) else 0, {})
  | .fin neg m e => encodeMag f mb eb bias sat rm neg m e
  | .inf neg =>
    let s := if neg then 2 ^ (mb + eb) else 0
    if f.ieeeLike then (s + f.maxBits + 1, {}) else (s + f.maxBits, { ovf := true })
  | .nan neg sig pay =>
    if f = .e2m1 then (0, { nv := true }) else (nanBits f mb eb neg pay, { nv := sig })

/-- A value encoded as a w-bit integer with binary point p (R66, R68, R72). (DESIGN CHOICE, log 65) -/
def encodeFix (w : Nat) (p : Nat) (rm : RM) (v : Val) : Nat × Fl :=
  let hi : Int := 2 ^ (w - 1) - 1
  let lo : Int := -(2 ^ (w - 1))
  match v with
  | .fin neg m e =>
    let (n, inx) := roundAt rm neg m e (-(p : Int))
    let k : Int := if neg then -(n : Int) else n
    if k > hi then (unsgn w hi, { ovf := true, nx := inx })
    else if k < lo then (unsgn w lo, { ovf := true, nx := inx })
    else (unsgn w k, { nx := inx })
  | .inf neg => (unsgn w (if neg then lo else hi), { ovf := true, nv := true })
  | .nan .. => (0, { nv := true })

/-- A value encoded as an E8M0 byte (R73). (DESIGN CHOICE, log 65) -/
def encodeE8m0 (v : Val) : Nat × Fl :=
  match v with
  | .fin _ 0 _ => (0, { unf := true })
  | .fin _ m e =>
    let l := log2Of m e
    let pow2 := m = 2 ^ Nat.log2 m
    if l ≥ 128 then (0xFE, { ovf := true })
    else if l < -127 then (0, { unf := true })
    else ((l + 127).toNat, { nx := !pow2 })
  | .inf _ => (0xFE, { ovf := true })
  | .nan _ sig _ => (0xFF, { nv := sig })

/-- A value encoded in a format other than BX24 (R65-R74). (DEDUCED, log 58) -/
def encode (f : Fmt) (point : Nat) (sat : Bool) (rm : RM) (v : Val) : Nat × Fl :=
  match f with
  | .e8m0 => encodeE8m0 v
  | .s8 => encodeFix 8 0 rm v
  | .s16 => encodeFix 16 0 rm v
  | .s32 => encodeFix 32 0 rm v
  | .fx32 => encodeFix 32 point rm v
  | .fx64 => encodeFix 64 point rm v
  | .bx24 => encodeFix 24 0 rm v
  | f =>
    match f.flt with
    | some (mb, eb, b) => encodeFlt f mb eb b sat rm v
    | none => (0, {})

/-- Encoding by a specifier without blocks. -/
def FSpec.encode (f : FSpec) (rm : RM) (v : Val) : Nat × Fl := Machine.encode f.fmt f.point f.sat rm v

/-- Decoding by a specifier without blocks. -/
def FSpec.decode (f : FSpec) (n : Nat) : Val := Machine.decode f.fmt f.point n

/-- A BX24 mantissa of a value at block exponent E (R62, R63), by round to nearest, ties to even. (DESIGN CHOICE, log 65) -/
def encodeBx (E : Nat) (v : Val) : Int × Fl :=
  match v with
  | .fin neg m e =>
    let (n, _) := roundAt .rte neg m e ((E : Int) - 149)
    if n > 2 ^ 23 - 1 then (if neg then -(2 ^ 23 - 1) else 2 ^ 23 - 1, { ovf := true })
    else (if neg then -(n : Int) else n, { unf := m ≠ 0 && n = 0 })
  | .inf neg => (if neg then -(2 ^ 23 - 1) else 2 ^ 23 - 1, { ovf := true })
  | .nan .. => (0, { nv := true })

/-- ⌊log₂⌋ of the largest finite non-zero magnitude of a list, if there is one. -/
def topLog : List Val → Option Int
  | [] => none
  | v :: r =>
    match v, topLog r with
    | .fin _ 0 _, t => t
    | .fin _ m e, none => some (log2Of m e)
    | .fin _ m e, some t => some (max (log2Of m e) t)
    | _, t => t

/-- The exponent byte of a BX24 block (R62). -/
def bxExp (vs : List Val) : Nat :=
  match topLog vs with
  | some f => (max 0 (min 255 (f + 128))).toNat
  | none => if vs.any Val.isInf then 255 else 0

/-- A block encoded into BX24 (R62, R63): its exponent, and its mantissa words as R52 stores them, each with its flags. -/
def encodeBxBlock (vs : List Val) : Nat × List (Nat × Fl) :=
  let E := bxExp vs
  (E, vs.map (fun v => let r := encodeBx E v; (unsgn 32 r.1, r.2)))

/-- emax of a block-scaled element format (R77). -/
def Fmt.emax : Fmt → Int
  | .fp16 => 15 | .e8m7 => 127 | .e5m2 => 15 | .e4m3 => 8 | .e3m4 => 3 | .e2m1 => 2
  | .s8 => 6 | .s16 => 14 | _ => 0

/-- The bits of a format's largest finite value with a sign (R55, R77): in S8 and S16 the value is 127 and 32,767
with the sign of the source. -/
def Fmt.satBits (f : Fmt) (neg : Bool) : Nat :=
  match f with
  | .s8 => if neg then 0x81 else 0x7F
  | .s16 => if neg then 0x8001 else 0x7FFF
  | f => (if neg then 2 ^ (f.bits - 1) else 0) + f.maxBits

/-- A block-scaled element format's largest finite value (R55, R77). -/
def Fmt.maxMag (f : Fmt) : Nat × Int :=
  match f with
  | .s8 => (127, 0)
  | .s16 => (32767, 0)
  | f => match Machine.decode f 0 f.maxBits with
    | .fin _ m e => (m, e)
    | _ => (0, 0)

/-- Whether encoded bits are a zero or a subnormal of a block-scaled element format (R79). -/
def Fmt.smallBits (f : Fmt) (n : Nat) : Bool :=
  match f.flt with
  | some (mb, eb, _) => n / 2 ^ mb % 2 ^ eb = 0
  | none => n = 0

/-- One element of a block being encoded at scale byte s (R77, R79, R80). `top` says the scale was clamped at 0xFE. (DESIGN CHOICE, log 65) -/
def encodeScaled (f : Fmt) (s : Nat) (top : Bool) (v : Val) : Nat × Fl :=
  match v with
  | .fin neg m e =>
    let q := e - ((s : Int) - 127)
    let (n, fl) := Machine.encode f 0 false .rte (.fin neg m q)
    if magLt f.maxMag.1 f.maxMag.2 m q then (f.satBits neg, { nx := true, ovf := top })
    else (n, { fl with blk := m ≠ 0 && f.smallBits n })
  | .inf neg =>
    if f.ieeeLike then (Machine.encode f 0 false .rte v).1 |> fun n => (n, {})
    else (f.satBits neg, { ovf := true })
  | .nan .. => let r := Machine.encode f 0 false .rte v; (r.1, r.2)

/-- A block encoded with a shared scale (R77-R80): the scale byte, and the element bits, each with its flags. (DESIGN CHOICE, log 65) -/
def encodeScaledBlock (f : Fmt) (vs : List Val) : Nat × List (Nat × Fl) :=
  let noNan := f = .e2m1 ∨ f = .s8 ∨ f = .s16
  if noNan ∧ vs.any Val.isNan then (0xFF, vs.map (fun v => (0, { nv := v.isNan })))
  else if vs.all Val.isZero then (0, vs.map (fun _ => (0, {})))
  else
    let raw := match topLog vs with
      | some t => t - f.emax + 127
      | none => 1
    let s := (max 1 (min 0xFE raw)).toNat
    let top : Bool := raw > 0xFE
    (s, vs.map (encodeScaled f s top))

/-- An element read under its block's scale byte (R75, R81): its value and the flags of the read. -/
def decodeScaled (f : Fmt) (s n : Nat) : Val × Fl :=
  if s = 0xFF then (Val.dnan, { nv := true })
  else if s = 0 then
    let mag := if f.isInt then n else n % 2 ^ (f.bits - 1)
    (Val.zero, { blk := mag ≠ 0 })
  else
    match Machine.decode f 0 n with
    | .fin neg m e => (.fin neg m (e + ((s : Int) - 127)), {})
    | v => (v, {})

end Sys2Proof.Machine
end

