-- ==== Sys2Proof/Machine/Video.lean ====
section
/-!
DEFINITION. What a decoder of the ingest unit delivers (R373-R381): regions of a frame, what its headers declare, and decoded positions.
-/

namespace Sys2Proof.Machine

/-- A rectangle of sample positions (R379). -/
structure Rect where
  line : Nat
  lines : Nat
  pos : Nat
  cols : Nat
  deriving DecidableEq, Repr

/-- A decoded position (R381): its line and first position, its weight, 4 for a decimated position and 1 otherwise, and its
components. -/
structure Spot where
  line : Nat
  pos : Nat
  weight : Nat
  comps : List Int
  deriving DecidableEq, Repr

/-- What the headers of a frame declare (R373, R374): the profile or sampling in the encoding of SAMPLING (R360), the depth, the positions of
its longest line, its lines, and whether it is interlaced. -/
structure Declared where
  sampling : Nat
  depth : Nat
  width : Nat
  height : Nat
  interlaced : Bool
  deriving DecidableEq, Repr, Inhabited

/-- What decoding a precinct or a line answers: a codestream in error, or positions. -/
inductive DecodeOut
  | syntaxError
  | spots (l : List Spot)
  deriving DecidableEq, Repr, Inhabited

end Sys2Proof.Machine
end

