-- ==== Sys2Proof/Config.lean ====
section
/-!
DEFINITION. What the spec leaves to an implementation, to another standard or to Drernapel's and Avnus's own
layouts: constants and functions with no body, of which nothing can be proved but that they are fixed.
-/

namespace Sys2Proof.Config

open Sys2Proof.Machine

/-- The order code is CLB32-X (R1, R595). (DESIGN CHOICE, log 22) -/
opaque gradeX : Bool

/-- The hash of the Drernapel root public key in the boot ROM (R540). (DESIGN CHOICE, log 22) -/
opaque bootRootHash : BitVec 256

/-- What the decoder of a BCH(255,131) block answers for a word with more than 18 errors (R534: not given). (PRESUMED, log 69) -/
opaque bchBeyond : Nat → BitVec 131

/-- The contents of a structure image's body (R396: the layout is Avnus's own); none for a body it does not accept. (DESIGN CHOICE, log 22) -/
opaque parseStruct : List Byte → Option StructImage

/-- What the C32 uses of a bundle's body (R542: the layout is Drernapel's own); none for one it does not accept. (DESIGN CHOICE, log 22) -/
opaque parseBundle : List Byte → Option Bundle

/-- PHY latency in 0.25 ns, by speed and direction (receive true) (R487). (DESIGN CHOICE, log 22) -/
opaque phyLatency : BitVec 2 → Bool → Int

/-- The lowest VDD_CORE in mV at which every replica of a domain meets 1.1 GHz, of its readings at an applied voltage
(R520: the spec gives no voltage for a delay step). (DESIGN CHOICE, log 21) -/
opaque vReq : (appliedMv : Nat) → List SalReading → Nat

/-- The Arrhenius factor of a wear domain relative to 85 °C, of the readings of the 64 thermal sensors (R521: neither the activation energy nor
which sensors count is given). (DESIGN CHOICE, log 12) -/
opaque arrhenius : (domain : Nat) → List Int → Rat

/-- The value of the n-th result the spec leaves open, for a result of n bits. (DESIGN CHOICE, log 2) -/
opaque freeValue : Nat → (w : Nat) → BitVec w

/-- What an integer, shift or logical operation makes of operands for which the spec states no result (R107, R108): ELEM SUBOP, the
specifiers of A and B, and the values. (DESIGN CHOICE, log 2) -/
opaque elemOpen : Nat → FSpec → FSpec → List Val → Val

/-- An inner product of a factorisation or of a FP64 solve as the engine rounds it in a format: the addend plus the sum of
products (R220, R224: the spec gives neither the order nor the roundings). (DESIGN CHOICE, log 23) -/
opaque solverDot : FSpec → (addend : Val) → List (Val × Val) → Val × Fl

/-- A TRSOLVE with a STAGED factor (R223: what the solution is made of is not given): SUBOP, D's format, the rounding direction of its
scalings, A's elements, B's elements; D's rows, and the flags of the tensor array and of the vector unit. (DESIGN CHOICE, log 23) -/
opaque stagedSolve : Nat → FSpec → RM → List (List Val) → List (List Val) → List (List Val) × Fl × Fl

/-- Where an element of a convex QP spread over a pan stands (R214: the arrays' layout per core is Avnus's): dimensions; 0 to 4 the arrays P, q, A, l, u, 5
x, 6 y; the element; its rank, and its place in that rank's part. (DESIGN CHOICE, log 23) -/
opaque spreadPlace : List Nat → Nat → Nat → Nat × Nat

/-- The stages of a MHE instance taken out of its arrays, x and y (R214: it names the first two arrays, and of the others only that they are measurements
and weights): dimensions, submitted arrays, x and y. (DESIGN CHOICE, log 23) -/
opaque mheStages : List Nat → List (List Val) → List Val → List Val → List Stage

/-- The model of an EKF instance (R249: f, h and their Jacobians are the catalogue entry's): its dimensions and submitted arrays. (DESIGN CHOICE, log 23) -/
opaque ekfLin : (cat : Nat) → List Nat → List (List Val) → EkfLin

/-- The byte at a place of a layer's slice (R294, R308: the order of the weights and scales in a pack is not given): the layer's record, the
first K index and one past the last, the layer's weights and scales, and the place. (DESIGN CHOICE, log 66) -/
opaque sliceByte : LayerRec → (lo hi : Nat) → List Byte → Nat → Byte

/-- The pages of a pack that hold the weights and scales of a layer's slice (R308, R317), by its first K index and one past the last. (DESIGN CHOICE, log 66) -/
opaque slicePages : ModelPack → LayerRec → (lo hi : Nat) → List Nat

/-- The CRC-64 over a slot's dirty persistent lines and its deferred-move data (R281: its polynomial is not given). (DESIGN CHOICE, log 22) -/
opaque crc64 : List Byte → Dword

/-- The precincts or lines an RTP payload carries (R373, R374: the payload headers of RFC 9134 and RFC 4175); none where its header is in
error. (DESIGN CHOICE, log 22) -/
opaque rtpSpan : StreamCfg → List Byte → Option RtpSpan

/-- What the headers among a frame's payloads received so far declare (R373, R374); none before they have come. (DESIGN CHOICE, log 22) -/
opaque declared : StreamCfg → List (Nat × List Byte) → Option Declared

/-- Whether a precinct of JPEG XS or a line of RFC 4175 is in error (R373, R374): stream, the frame's payloads received so far with their first
units, and the unit. (DESIGN CHOICE, log 22) -/
opaque unitError : StreamCfg → List (Nat × List Byte) → Nat → Bool

/-- A component of a decoded position (R373, R374, R381): stream, payloads as for `unitError`, the unit, the position's line and place in it, its
weight, 4 for a decimated one, and the component's number. (DESIGN CHOICE, log 22) -/
opaque decoded : StreamCfg → List (Nat × List Byte) → (unit line pos weight comp : Nat) → Nat

/-- Sample positions of a precinct column of a JPEG XS frame (R387); its last column holds the remainder. (DESIGN CHOICE, log 22) -/
opaque precinctWidth : StreamCfg → Nat

/-- What a reference raster's codestream declares (R373, R382); none for a codestream in error. (DESIGN CHOICE, log 22) -/
opaque refDeclared : StreamCfg → List Byte → Option Declared

/-- A component of a reference raster at a scale, at its stream's depth (R382): stream, scale, codestream, the stored row and position, and the
component's number. (DESIGN CHOICE, log 22) -/
opaque refSample : StreamCfg → Nat → List Byte → (row pos comp : Nat) → Rat

/-- The source UDP port of the set-point frames (R394: not given). (DESIGN CHOICE, log 47) -/
opaque setpointPort : BitVec 16

/-- Where in its NCLK cycle the time-stamp point of a frame passes, in 0.25 ns (R487): port, whether it is received, and the cycle.
(DEDUCED, log 29) -/
opaque withinCycle : Nat → Bool → Nat → BitVec 3

end Sys2Proof.Config
end

