-- ==== Sys2Proof/Machine/Reg.lean ====
section
/-!
DEFINITION. The register address map (R593-R601, R607): every register by name, the block and offset it lies at,
its reset value, and which of its fields a write stores and which encodings are reserved (R13-R18).
-/

namespace Sys2Proof.Machine

/-- Every event counter: OVF [31] W1C over COUNT [30:0], or a count of 16 bits (R36, R37). -/
inductive Ctr
  | crcDrop (n : Nat) | dup (n : Nat) | retry (n : Nat) | reasmDrop (n : Nat)
  | bridgeDrop (p : Nat) | qciDrop (p : Nat)
  | semExpired | tideRefused | winClosed | qstale | notStarted | harvest | inputInvalid | barredCommit
  | preempt (n : Nat) | lateReply (n : Nat) | detbreak
  | clientWait (c : Nat) | clientPreempt (c : Nat)
  | seqKills (n : Nat)
  | loopMismatch | loopLate | traceLost
  | psetDrop | fieldReject | refPoison
  | stale (n : Nat) | late (n : Nat) | damage (n : Nat) | drop (n : Nat)
  | reproFail | torn
  deriving DecidableEq, Repr

/-- Every register (R595, R598-R601). `bitternTime` k is BITTERN_FIRST_LO, FIRST_HI, LAST_LO, LAST_HI for k 0-3. -/
inductive Reg
  | glbId | glbMode | glbStatus | glbRsvdAddr | glbReady | glbCoreReady
  | hportCfg (n : Nat) | hportStatus (n : Nat) | hportMacHi (n : Nat) | hportMacLo (n : Nat)
  | hportIpv4 (n : Nat) | hportIpv6 (n k : Nat) | hportNet (n : Nat) | hportRetry (n : Nat) | clientPerm (c : Nat)
  | bridgeStatus (p : Nat) | semState (k : Nat)
  | tideCfg | tideCtrl | tideStatus | tideAddend | tideJumpLimit | tideLockThresh | tideStepLo | tideStepHi
  | tideNowNs | tideSecLo | tideSecHi | tideFrac | tideOffset | tideGmHi | tideGmLo
  | tidePpsNs | tidePpsSec | tidePpsOut | tideAdj (p : Nat) | tideLinkDelay (p : Nat)
  | panCores (n : Nat) | panCtrl (n : Nat) | panStatus (n : Nat) | panCtxCmd (n : Nat) | panCtxState (n : Nat)
  | panSluice (n b : Nat) | shortInfo | shortBytes | waitSumLo (c : Nat) | waitSumHi (c : Nat) | waitMax (c : Nat)
  | slotWait (n : Nat) | memStatus (n : Nat)
  | logStatus (l : LogId) | bitternCount (l : LogId) | bitternTime (l : LogId) (k : Nat) | logWord (l : LogId) (k w : Nat)
  | vuFlags (n : Nat) | vuCtrl (n : Nat) | trapInfo (n : Nat) | trapLanes (n : Nat) | seqStatus (n : Nat)
  | loopStatus | traceTrig | traceCtrl (n : Nat) | traceNodes (n : Nat)
  | loopCtrl (n : Nat) | loopSts (n : Nat) | loopFe (n : Nat) | loopHostTarget (n : Nat) | loopHostFf (n : Nat)
  | loopOut (n : Nat) | loopPv (n : Nat)
  | jobCtrl | jobStatus | ingestStatus (n : Nat) | latComp (n : Nat) | fieldStatus (k : Nat)
  | hbusCfg (n : Nat) | hbusStatus (n : Nat)
  | coreMap (r : Nat) | regionSpare (r : Nat) | guardCfg | wear (d : Nat) | avs | avsApplied | shutdown
  | supply | alert | therm | thermCfg | harrowCtrl
  | secStatus | secCtrl | secStoreCfg | secModelDel | ownerLock (k : Nat) | deviceId (k : Nat) | modelStatus (n : Nat)
  | ledgerStatus | ledgerCtrl | ledgerRdAddr | ledgerRdData
  | counter (c : Ctr)
  deriving DecidableEq, Repr

/-- The register blocks (R593). -/
inductive Block
  | glb | hport | bridge | tide | qmgr | sem | pan | region (n : Nat) | core (n : Nat) | loop | ingest | hbus
  | health | sec | ledger
  deriving DecidableEq, Repr

/-- The block whose span holds an address (R607). -/
def Block.ofAddr (a : Nat) : Option Block :=
  if a < 0x10000 then some .glb
  else if a < 0x20000 then some .hport
  else if a < 0x30000 then some .bridge
  else if a < 0x40000 then some .tide
  else if a < 0x50000 then some .qmgr
  else if a < 0x60000 then some .sem
  else if a < 0x70000 then some .pan
  else if a < 0x100000 then none
  else if a < 0x140000 then some (.region ((a - 0x100000) / 0x10000))
  else if a < 0x200000 then none
  else if a < 0x220000 then some (.core ((a - 0x200000) / 0x1000))
  else if a < 0x300000 then none
  else if a < 0x340000 then some .loop
  else if a < 0x360000 then some .ingest
  else if a < 0x380000 then some .hbus
  else if a < 0x3A0000 then some .health
  else if a < 0x3C0000 then some .sec
  else if a < 0x3E0000 then some .ledger
  else none

/-- The base address of a block (R593). -/
def Block.base : Block → Nat
  | .glb => 0 | .hport => 0x10000 | .bridge => 0x20000 | .tide => 0x30000 | .qmgr => 0x40000 | .sem => 0x50000
  | .pan => 0x60000 | .region n => 0x100000 + n * 0x10000 | .core n => 0x200000 + n * 0x1000
  | .loop => 0x300000 | .ingest => 0x340000 | .hbus => 0x360000 | .health => 0x380000 | .sec => 0x3A0000
  | .ledger => 0x3C0000

/-- The semaphore whose lock covers a whole block (R463, R593); LOOP and INGEST lock named registers only. -/
def Block.lock : Block → Option Nat
  | .tide => some 1
  | .glb | .hport | .bridge | .pan | .hbus | .sec | .ledger => some 0
  | _ => none

/-- Whether a block answers SQP before GLB_READY.SUP is set (R529, R593). -/
def Block.sqpEarly : Block → Bool
  | .glb | .hport | .bridge | .tide | .sem | .hbus | .sec | .ledger => true
  | _ => false

/-- Whether a block answers the service SPI before GLB_READY.SUP is set (R583, R593). -/
def Block.spiEarly : Block → Bool
  | .glb | .hport | .tide | .hbus | .health | .sec | .ledger => true
  | _ => false

/-- The HPORT registers by offset. -/
def hportReg (o : Nat) : Option Reg :=
  if 0x800 ≤ o ∧ o < 0x820 then some (.clientPerm ((o - 0x800) / 4))
  else if o ≥ 0x200 then none
  else
    let n := o / 0x100
    match o % 0x100 with
    | 0x00 => some (.hportCfg n) | 0x04 => some (.hportStatus n) | 0x08 => some (.hportMacHi n)
    | 0x0C => some (.hportMacLo n) | 0x10 => some (.hportIpv4 n) | 0x14 => some (.hportIpv6 n 0)
    | 0x18 => some (.hportIpv6 n 1) | 0x1C => some (.hportIpv6 n 2) | 0x20 => some (.hportIpv6 n 3)
    | 0x24 => some (.hportNet n) | 0x28 => some (.hportRetry n)
    | 0x30 => some (.counter (.crcDrop n)) | 0x34 => some (.counter (.dup n))
    | 0x38 => some (.counter (.retry n)) | 0x3C => some (.counter (.reasmDrop n))
    | _ => none

/-- The TIDE registers by offset. -/
def tideReg (o : Nat) : Option Reg :=
  if 0x100 ≤ o ∧ o < 0x148 then some (.tideAdj ((o - 0x100) / 4))
  else if 0x200 ≤ o ∧ o < 0x248 then some (.tideLinkDelay ((o - 0x200) / 4))
  else match o with
    | 0x00 => some .tideCfg | 0x04 => some .tideCtrl | 0x08 => some .tideStatus | 0x0C => some .tideAddend
    | 0x10 => some .tideJumpLimit | 0x14 => some .tideLockThresh | 0x18 => some .tideStepLo
    | 0x1C => some .tideStepHi | 0x20 => some .tideNowNs | 0x24 => some .tideSecLo | 0x28 => some .tideSecHi
    | 0x2C => some .tideFrac | 0x30 => some .tideOffset | 0x34 => some .tideGmHi | 0x38 => some .tideGmLo
    | 0x40 => some .tidePpsNs | 0x44 => some .tidePpsSec | 0x48 => some .tidePpsOut
    | 0x4C => some (.counter .tideRefused)
    | _ => none

/-- The PAN registers by offset. -/
def panReg (o : Nat) : Option Reg :=
  if o < 0x400 then
    let n := o / 0x40
    match o % 0x40 with
    | 0x00 => some (.panCores n) | 0x04 => some (.panCtrl n) | 0x08 => some (.panStatus n)
    | 0x0C => some (.panCtxCmd n) | 0x10 => some (.panCtxState n)
    | 0x14 => some (.counter (.preempt n)) | 0x18 => some (.counter (.lateReply n))
    | 0x20 => some (.panSluice n 0) | 0x24 => some (.panSluice n 1) | 0x28 => some (.panSluice n 2)
    | 0x2C => some (.panSluice n 3)
    | _ => none
  else if 0xA00 ≤ o ∧ o < 0xB00 then
    let c := (o - 0xA00) / 0x20
    match o % 0x20 with
    | 0x00 => some (.waitSumLo c) | 0x04 => some (.waitSumHi c) | 0x08 => some (.waitMax c)
    | 0x0C => some (.counter (.clientWait c)) | 0x10 => some (.counter (.clientPreempt c))
    | _ => none
  else match o with
    | 0x900 => some .shortInfo | 0x904 => some .shortBytes | 0x908 => some (.counter .detbreak)
    | _ => none

/-- The QMGR registers by offset. -/
def qmgrReg (o : Nat) : Option Reg :=
  match o with
  | 0x800 => some (.counter .winClosed) | 0x804 => some (.counter .qstale)
  | 0x810 => some (.counter .notStarted) | 0x814 => some (.counter .harvest)
  | 0x818 => some (.counter .inputInvalid) | 0x81C => some (.counter .barredCommit)
  | _ => none

/-- The REGION registers by offset. -/
def regionReg (n o : Nat) : Option Reg :=
  if h : n < 4 then
    let l := LogId.region ⟨n, h⟩
    if 0x400 ≤ o ∧ o < 0x800 then some (.logWord l ((o - 0x400) / 16) (o % 16 / 4))
    else match o with
      | 0x40 => some (.slotWait n) | 0x44 => some (.memStatus n) | 0x48 => some (.logStatus l)
      | 0x50 => some (.bitternCount l) | 0x54 => some (.bitternTime l 0) | 0x58 => some (.bitternTime l 1)
      | 0x5C => some (.bitternTime l 2) | 0x60 => some (.bitternTime l 3)
      | _ => none
  else none

/-- The CORE registers by offset. -/
def coreReg (n o : Nat) : Option Reg :=
  if h : n < 32 then
    let l := LogId.core ⟨n, h⟩
    if 0x200 ≤ o ∧ o < 0x400 then some (.logWord l ((o - 0x200) / 16) (o % 16 / 4))
    else match o with
      | 0x100 => some (.vuFlags n) | 0x104 => some (.vuCtrl n) | 0x108 => some (.trapInfo n)
      | 0x10C => some (.trapLanes n) | 0x110 => some (.seqStatus n) | 0x114 => some (.counter (.seqKills n))
      | 0x118 => some (.logStatus l) | 0x120 => some (.bitternCount l)
      | 0x124 => some (.bitternTime l 0) | 0x128 => some (.bitternTime l 1)
      | 0x12C => some (.bitternTime l 2) | 0x130 => some (.bitternTime l 3)
      | _ => none
  else none

/-- The LOOP registers by offset. -/
def loopReg (o : Nat) : Option Reg :=
  if 0x10000 ≤ o ∧ o < 0x20000 then
    let n := (o - 0x10000) / 0x20
    match o % 0x20 with
    | 0x00 => some (.loopCtrl n) | 0x04 => some (.loopSts n) | 0x08 => some (.loopFe n)
    | 0x0C => some (.loopHostTarget n) | 0x10 => some (.loopHostFf n) | 0x14 => some (.loopOut n)
    | 0x18 => some (.loopPv n)
    | _ => none
  else if 0x100 ≤ o ∧ o < 0x200 then
    match o % 0x10 with
    | 0x00 => some (.traceCtrl ((o - 0x100) / 0x10)) | 0x04 => some (.traceNodes ((o - 0x100) / 0x10))
    | _ => none
  else match o with
    | 0x04 => some .loopStatus | 0x10 => some (.counter .loopMismatch) | 0x14 => some (.counter .loopLate)
    | 0x18 => some (.counter .traceLost) | 0x20 => some .traceTrig
    | _ => none

/-- The INGEST registers by offset. -/
def ingestReg (o : Nat) : Option Reg :=
  if 0x10000 ≤ o ∧ o < 0x11000 then
    if o % 4 = 0 then some (.fieldStatus ((o - 0x10000) / 4)) else none
  else if 0x1000 ≤ o ∧ o < 0x1800 then
    let n := (o - 0x1000) / 0x40
    match o % 0x40 with
    | 0x00 => some (.ingestStatus n) | 0x04 => some (.latComp n)
    | 0x10 => some (.counter (.stale n)) | 0x14 => some (.counter (.late n))
    | 0x18 => some (.counter (.damage n)) | 0x1C => some (.counter (.drop n))
    | _ => none
  else match o with
    | 0x00 => some .jobCtrl | 0x04 => some .jobStatus | 0x10 => some (.counter .psetDrop)
    | 0x14 => some (.counter .fieldReject) | 0x18 => some (.counter .refPoison)
    | _ => none

/-- The HEALTH registers by offset. -/
def healthReg (o : Nat) : Option Reg :=
  if 0x1000 ≤ o ∧ o < 0x2000 then some (.logWord .chip ((o - 0x1000) / 16) (o % 16 / 4))
  else if 0x100 ≤ o ∧ o < 0x110 then some (.coreMap ((o - 0x100) / 4))
  else if 0x110 ≤ o ∧ o < 0x120 then some (.regionSpare ((o - 0x110) / 4))
  else if 0x200 ≤ o ∧ o < 0x214 then some (.wear ((o - 0x200) / 4))
  else match o with
    | 0x00 => some (.logStatus .chip) | 0x10 => some (.bitternCount .chip)
    | 0x14 => some (.bitternTime .chip 0) | 0x18 => some (.bitternTime .chip 1)
    | 0x1C => some (.bitternTime .chip 2) | 0x20 => some (.bitternTime .chip 3)
    | 0x120 => some .guardCfg | 0x130 => some (.counter .reproFail) | 0x220 => some .avs
    | 0x224 => some .avsApplied | 0x240 => some .shutdown | 0x300 => some .supply | 0x304 => some .alert
    | 0x310 => some .therm | 0x314 => some .thermCfg | 0x800 => some .harrowCtrl
    | _ => none

/-- The SEC registers by offset. -/
def secReg (o : Nat) : Option Reg :=
  if 0x20 ≤ o ∧ o < 0x30 then some (.ownerLock ((o - 0x20) / 4))
  else if 0x40 ≤ o ∧ o < 0x60 then some (.deviceId ((o - 0x40) / 4))
  else if 0x100 ≤ o ∧ o < 0x200 then some (.modelStatus ((o - 0x100) / 4))
  else match o with
    | 0x00 => some .secStatus | 0x04 => some .secCtrl | 0x08 => some .secStoreCfg | 0x10 => some .secModelDel
    | _ => none

/-- The register an address holds (R593-R601); none where the address holds no register. -/
def Reg.ofAddr (a : Nat) : Option Reg :=
  if a % 4 ≠ 0 then none
  else match Block.ofAddr a with
    | none => none
    | some b =>
      let o := a - b.base
      match b with
      | .glb => match o with
        | 0x00 => some .glbId | 0x10 => some .glbMode | 0x14 => some .glbStatus | 0x18 => some .glbRsvdAddr
        | 0x20 => some .glbReady | 0x24 => some .glbCoreReady | _ => none
      | .hport => hportReg o
      | .bridge =>
        if o < 0x240 then
          match o % 0x20 with
          | 0x00 => some (.bridgeStatus (o / 0x20)) | 0x04 => some (.counter (.bridgeDrop (o / 0x20)))
          | 0x08 => some (.counter (.qciDrop (o / 0x20))) | _ => none
        else none
      | .tide => tideReg o
      | .qmgr => qmgrReg o
      | .sem =>
        if o < 0x100 then some (.semState (o / 4))
        else if o = 0x100 then some (.counter .semExpired) else none
      | .pan => panReg o
      | .region n => regionReg n o
      | .core n => coreReg n o
      | .loop => loopReg o
      | .ingest => ingestReg o
      | .hbus =>
        if o < 0x1000 then
          match o % 0x100 with
          | 0x00 => some (.hbusCfg (o / 0x100)) | 0x04 => some (.hbusStatus (o / 0x100)) | _ => none
        else none
      | .health => healthReg o
      | .sec => secReg o
      | .ledger => match o with
        | 0x00 => some .ledgerStatus | 0x04 => some .ledgerCtrl | 0x08 => some .ledgerRdAddr
        | 0x0C => some .ledgerRdData | 0x10 => some (.counter .torn) | _ => none

/-- The base of a log's block, and the offsets of its STATUS, BITTERN_COUNT and first entry. -/
def logOffsets : LogId → Nat × Nat × Nat × Nat
  | .core n => (0x200000 + n.val * 0x1000, 0x118, 0x120, 0x200)
  | .region r => (0x100000 + r.val * 0x10000, 0x48, 0x50, 0x400)
  | .chip => (0x380000, 0, 0x10, 0x1000)

/-- The address of a counter. -/
def Ctr.addr : Ctr → Nat
  | .crcDrop n => 0x10030 + n * 0x100 | .dup n => 0x10034 + n * 0x100
  | .retry n => 0x10038 + n * 0x100 | .reasmDrop n => 0x1003C + n * 0x100
  | .bridgeDrop p => 0x20004 + p * 0x20 | .qciDrop p => 0x20008 + p * 0x20
  | .semExpired => 0x50100 | .tideRefused => 0x3004C
  | .winClosed => 0x40800 | .qstale => 0x40804 | .notStarted => 0x40810 | .harvest => 0x40814
  | .inputInvalid => 0x40818 | .barredCommit => 0x4081C
  | .preempt n => 0x60014 + n * 0x40 | .lateReply n => 0x60018 + n * 0x40 | .detbreak => 0x60908
  | .clientWait c => 0x60A0C + c * 0x20 | .clientPreempt c => 0x60A10 + c * 0x20
  | .seqKills n => 0x200114 + n * 0x1000
  | .loopMismatch => 0x300010 | .loopLate => 0x300014 | .traceLost => 0x300018
  | .psetDrop => 0x340010 | .fieldReject => 0x340014 | .refPoison => 0x340018
  | .stale n => 0x341010 + n * 0x40 | .late n => 0x341014 + n * 0x40
  | .damage n => 0x341018 + n * 0x40 | .drop n => 0x34101C + n * 0x40
  | .reproFail => 0x380130 | .torn => 0x3C0010

/-- The address of a register (R593-R601). -/
def Reg.addr : Reg → Nat
  | .glbId => 0x00 | .glbMode => 0x10 | .glbStatus => 0x14 | .glbRsvdAddr => 0x18 | .glbReady => 0x20
  | .glbCoreReady => 0x24
  | .hportCfg n => 0x10000 + n * 0x100 | .hportStatus n => 0x10004 + n * 0x100
  | .hportMacHi n => 0x10008 + n * 0x100 | .hportMacLo n => 0x1000C + n * 0x100
  | .hportIpv4 n => 0x10010 + n * 0x100 | .hportIpv6 n k => 0x10014 + 4 * k + n * 0x100
  | .hportNet n => 0x10024 + n * 0x100 | .hportRetry n => 0x10028 + n * 0x100
  | .clientPerm c => 0x10800 + 4 * c
  | .bridgeStatus p => 0x20000 + p * 0x20 | .semState k => 0x50000 + 4 * k
  | .tideCfg => 0x30000 | .tideCtrl => 0x30004 | .tideStatus => 0x30008 | .tideAddend => 0x3000C
  | .tideJumpLimit => 0x30010 | .tideLockThresh => 0x30014 | .tideStepLo => 0x30018 | .tideStepHi => 0x3001C
  | .tideNowNs => 0x30020 | .tideSecLo => 0x30024 | .tideSecHi => 0x30028 | .tideFrac => 0x3002C
  | .tideOffset => 0x30030 | .tideGmHi => 0x30034 | .tideGmLo => 0x30038 | .tidePpsNs => 0x30040
  | .tidePpsSec => 0x30044 | .tidePpsOut => 0x30048 | .tideAdj p => 0x30100 + 4 * p
  | .tideLinkDelay p => 0x30200 + 4 * p
  | .panCores n => 0x60000 + n * 0x40 | .panCtrl n => 0x60004 + n * 0x40 | .panStatus n => 0x60008 + n * 0x40
  | .panCtxCmd n => 0x6000C + n * 0x40 | .panCtxState n => 0x60010 + n * 0x40
  | .panSluice n b => 0x60020 + 4 * b + n * 0x40 | .shortInfo => 0x60900 | .shortBytes => 0x60904
  | .waitSumLo c => 0x60A00 + c * 0x20 | .waitSumHi c => 0x60A04 + c * 0x20 | .waitMax c => 0x60A08 + c * 0x20
  | .slotWait n => 0x100040 + n * 0x10000 | .memStatus n => 0x100044 + n * 0x10000
  | .logStatus l => (logOffsets l).1 + (logOffsets l).2.1
  | .bitternCount l => (logOffsets l).1 + (logOffsets l).2.2.1
  | .bitternTime l k => (logOffsets l).1 + (logOffsets l).2.2.1 + 4 + 4 * k
  | .logWord l k w => (logOffsets l).1 + (logOffsets l).2.2.2 + 16 * k + 4 * w
  | .vuFlags n => 0x200100 + n * 0x1000 | .vuCtrl n => 0x200104 + n * 0x1000
  | .trapInfo n => 0x200108 + n * 0x1000 | .trapLanes n => 0x20010C + n * 0x1000
  | .seqStatus n => 0x200110 + n * 0x1000
  | .loopStatus => 0x300004 | .traceTrig => 0x300020 | .traceCtrl n => 0x300100 + n * 0x10
  | .traceNodes n => 0x300104 + n * 0x10 | .loopCtrl n => 0x310000 + n * 0x20 | .loopSts n => 0x310004 + n * 0x20
  | .loopFe n => 0x310008 + n * 0x20 | .loopHostTarget n => 0x31000C + n * 0x20
  | .loopHostFf n => 0x310010 + n * 0x20 | .loopOut n => 0x310014 + n * 0x20 | .loopPv n => 0x310018 + n * 0x20
  | .jobCtrl => 0x340000 | .jobStatus => 0x340004 | .ingestStatus n => 0x341000 + n * 0x40
  | .latComp n => 0x341004 + n * 0x40 | .fieldStatus k => 0x350000 + 4 * k
  | .hbusCfg n => 0x360000 + n * 0x100 | .hbusStatus n => 0x360004 + n * 0x100
  | .coreMap r => 0x380100 + 4 * r | .regionSpare r => 0x380110 + 4 * r | .guardCfg => 0x380120
  | .wear d => 0x380200 + 4 * d | .avs => 0x380220 | .avsApplied => 0x380224 | .shutdown => 0x380240
  | .supply => 0x380300 | .alert => 0x380304 | .therm => 0x380310 | .thermCfg => 0x380314 | .harrowCtrl => 0x380800
  | .secStatus => 0x3A0000 | .secCtrl => 0x3A0004 | .secStoreCfg => 0x3A0008 | .secModelDel => 0x3A0010
  | .ownerLock k => 0x3A0020 + 4 * k | .deviceId k => 0x3A0040 + 4 * k | .modelStatus n => 0x3A0100 + 4 * n
  | .ledgerStatus => 0x3C0000 | .ledgerCtrl => 0x3C0004 | .ledgerRdAddr => 0x3C0008 | .ledgerRdData => 0x3C000C
  | .counter c => c.addr

/-- The reset value of a register's stored (RW) fields; registers without any answer 0 here and are computed
when read (R595, R598-R601). (DESIGN CHOICE, log 5) -/
def Reg.resetWord : Reg → Word
  | .hportCfg _ => 0x820005DC
  | .hportMacHi _ => 0x00000253
  | .hportMacLo n => if n = 0 then 0x5150000A else 0x5150000B
  | .hportIpv4 n => if n = 0 then 0xA9FE000A else 0xA9FE000B
  | .hportNet _ => 0xC0D00001
  | .hportRetry _ => 0x080003E8
  | .clientPerm c => if c = 0 then 0x1F else 0x07
  | .tideCfg => 0x00000300
  | .tideAddend => 0x745D1746
  | .tideJumpLimit => 0x000186A0
  | .tideLockThresh => 0x000003E8
  | .tidePpsOut => 0x00000064
  | .slotWait _ => 0x00001000
  | .hbusCfg _ => 0x00000731
  | .guardCfg => 0x00000403
  | .avs => 0x00001900
  | .avsApplied => 0x0000026C
  | .alert => 0x00000F00
  | .thermCfg => 0x0000005F
  | .harrowCtrl => 0x00000064
  | .secStoreCfg => 0x00004020
  | _ => 0

/-- A stored field: its top and bottom bit, and the encodings that are not reserved. -/
structure RwField where
  hi : Nat
  lo : Nat
  ok : Nat → Bool

/-- A field every encoding of which is allowed. -/
def RwField.any (hi lo : Nat) : RwField := ⟨hi, lo, fun _ => true⟩

/-- The stored fields of a register (the RW fields of its map, R163, R173, R359, R395, R429, R471, R494, R528, R559,
R592, R595). (DEDUCED, log 14) -/
def Reg.rwFields : Reg → List RwField
  | .glbMode => [.any 0 0]
  | .hportCfg _ => [.any 31 31, .any 30 29, ⟨28, 27, fun v => v ≠ 3⟩, .any 26 26, .any 25 25, .any 24 24, .any 23 21,
      ⟨13, 0, fun v => 1500 ≤ v ∧ v ≤ 9000⟩]
  | .hportMacHi _ => [.any 15 0]
  | .hportMacLo _ => [.any 31 0]
  | .hportIpv4 _ | .hportIpv6 _ _ => [.any 31 0]
  | .hportNet _ => [⟨31, 16, fun v => v ≠ 0⟩, ⟨11, 0, fun v => v ≠ 0 ∧ v ≠ 0xFFF⟩]
  | .hportRetry _ => [⟨31, 24, fun v => v ≠ 0⟩, ⟨23, 0, fun v => 50 ≤ v ∧ v ≤ 1000000⟩]
  | .clientPerm _ => [.any 4 0]
  | .tideCfg => [⟨31, 30, fun v => v ≠ 3⟩, .any 29 29, .any 23 16, ⟨15, 8, fun v => v ≠ 0⟩]
  | .tideAddend | .tideJumpLimit | .tideLockThresh | .tideStepLo | .tideStepHi => [.any 31 0]
  | .tidePpsOut => [.any 31 31, ⟨9, 0, fun v => 1 ≤ v ∧ v ≤ 999⟩]
  | .tideAdj _ => [.any 31 16, .any 15 0]
  | .panCtrl _ => [.any 0 0]
  | .slotWait _ => [.any 15 0]
  | .vuCtrl _ => [⟨10, 8, fun v => v ≤ 4⟩, .any 4 0]
  | .traceCtrl _ => [.any 31 31, ⟨30, 29, fun v => v ≠ 3⟩, .any 26 16, .any 15 0]
  | .traceNodes _ => [.any 15 0]
  | .loopCtrl _ => [.any 0 0]
  | .loopHostTarget _ | .loopHostFf _ => [.any 23 0]
  | .jobCtrl => [.any 0 0]
  | .latComp _ => [.any 31 0]
  | .hbusCfg _ => [.any 15 15, .any 12 12, .any 11 11, ⟨10, 8, fun v => 3 ≤ v⟩, .any 5 4, ⟨1, 0, fun v => v ≤ 1⟩]
  | .guardCfg => [⟨15, 8, fun v => v ≠ 0⟩, ⟨3, 0, fun v => 2 ≤ v⟩]
  | .avs => [⟨15, 8, fun v => 10 ≤ v ∧ v ≤ 60⟩]
  | .avsApplied => [⟨9, 0, fun v => 550 ≤ v ∧ v ≤ 780⟩]
  | .alert => [.any 11 8]
  | .thermCfg => [⟨7, 0, fun v => 60 ≤ v ∧ v ≤ 101⟩]
  | .harrowCtrl => [⟨15, 0, fun v => 10 ≤ v ∧ v ≤ 10000⟩]
  | .secStoreCfg => [⟨15, 8, fun v => 8 ≤ v⟩, .any 7 0]
  | .ownerLock _ => [.any 31 0]
  | .ledgerRdAddr => [.any 22 2]
  | _ => []

/-- A bit field of a word, as a number. -/
def fieldOf (w : Word) (hi lo : Nat) : Nat := w.toNat / 2 ^ lo % 2 ^ (hi + 1 - lo)

/-- A word with a bit field replaced. -/
def withField (w : Word) (hi lo v : Nat) : Word :=
  BitVec.ofNat 32 (w.toNat - fieldOf w hi lo * 2 ^ lo + v % 2 ^ (hi + 1 - lo) * 2 ^ lo)

/-- A write to the stored fields: each takes the written value, but a reserved encoding leaves its field (R15, R16).
Answers the new word and whether a reserved encoding was met. -/
def storeFields (old new : Word) : List RwField → Word × Bool
  | [] => (old, false)
  | f :: r =>
    let v := fieldOf new f.hi f.lo
    if f.ok v then storeFields (withField old f.hi f.lo v) new r
    else ((storeFields old new r).1, true)

/-- The bits of a register that are W1C (or RWS, which 0 clears: HEALTH_SUPPLY is handled by its own write). -/
def Reg.w1cMask : Reg → Word
  | .glbStatus => 0x1
  | .tideStatus => 0xFF
  | .shortInfo => 0x80000000
  | .waitSumHi _ | .waitMax _ => 0x80000000
  | .bitternCount _ => 0x80000000
  | .vuFlags _ => 0x1F1F
  | .trapInfo _ | .seqStatus _ => 0x80000000
  | .loopStatus => 0x1
  | .loopSts _ => 0x7FFF00FF
  | .ingestStatus _ => 0x14000000
  | .fieldStatus _ => 0x60000000
  | .hbusStatus _ => 0x80000000
  | .alert => 0x3
  | .supply => 0x04000000
  | .secStatus => 0x10000000
  | .counter _ => 0x80000000
  | _ => 0

end Sys2Proof.Machine
end

