-- ==== Sys2Proof/Machine/Parts1.lean ====
section
/-!
DEFINITION. The parts of the machine's state that belong to power and reset, Tide, the logs and spares, host ports,
bridge, queues, windows, semaphores, images and the ledger. Every record's defaults are its values at reset.
-/

namespace Sys2Proof.Machine

/-- SQP reason codes (R470). -/
inductive Reason
  | ok | badVersion | badLength | noPermission | queueClosed | staleGeneration | windowClosed | windowRange
  | queueFull | busy | imageRejected | signatureInvalid | notReady | addressInvalid | rateLimited
  | strictForbidden | resources
  deriving DecidableEq, Repr

/-- Resets, supplies and pins (R571-R578, R592). `booted`: the boot ROM has run since PORST_N. `brown`, `pll` and `therm` are
the causes of an internal reset in force; `therm` is also THERM_TRIP_N (R591). While ledger and trace writes
are `held`, `heldSince` is the NCLK count at which the last sag or low-rail condition ended (R572). -/
structure Power where
  porst : Bool := false
  booted : Bool := false
  brown : Bool := false
  pll : Bool := false
  therm : Bool := false
  sagPin : Bool := false
  ioLow : Bool := false
  coreLow : Bool := false
  held : Bool := false
  heldSince : Nat := 0
  brownout : Bool := false
  pllUnlock : Bool := false
  brownRail : BitVec 3 := 0
  avsLate : Bool := false
  supplyAlert : Bool := false
  tempWarn : Bool := false
  deriving DecidableEq, Repr

/-- The thermal sensors' result (R589, R590). -/
structure Thermal where
  tj : Int := 0
  hot : Nat := 0
  temps : List Int := []
  throttled : Bool := false
  deriving DecidableEq, Repr

/-- States of TIDE_STATUS.STATE (R482). -/
inductive TideState | unset | acquiring | locked | holdover
  deriving DecidableEq, Repr

/-- Tide (R472-R493, R603). `integ` is the servo's integrator I in ppb. -/
structure Tide where
  sec : Dword := 0
  ns : Nat := 0
  frac : Nat := 0
  residence : Nat := 0
  latchSec : Dword := 0
  latchFrac : Nat := 0
  state : TideState := .unset
  isSet : Bool := false
  sticky : Word := 0
  offset : Int := 0
  gm : Dword := 0
  logInterval : Int := 0
  measured : Bool := false
  lastMeas : Nat := 0
  good : Nat := 0
  integ : Rat := 0
  hold : Option Word := none
  addends : List Word := []
  holdA : Word := 0
  ppsNs : Word := 0
  ppsSec : Word := 0
  ppsAt : Option Nat := none
  ppsOut : Bool := false
  ppsEnd : Nat := 0
  delay : SMap Word := []
  pdelayT1 : SMap Int := []
  pdelayAt : SMap Nat := []
  carried : Bool := false
  deriving DecidableEq, Repr

/-- A counter: its count and overflow bit (R36). -/
structure Count where
  n : Nat := 0
  ovf : Bool := false
  deriving DecidableEq, Repr

/-- An error report on its way to a log (R498, R499). `event` says that recording it sends the ERROR EVENT. -/
structure Report where
  time : Dword
  w2 : Word
  w3 : Word
  event : Bool
  deriving DecidableEq, Repr

/-- An error log with its input buffer and its lost-report summary (R500, R501). `late` holds the reports that have met a full log at the NCLK
cycle `lateAt`: a clear in that cycle keeps them (R503). -/
structure ErrLog where
  entries : List Report := []
  buf : List Report := []
  late : List Report := []
  lateAt : Nat := 0
  lost : Count := {}
  classes : BitVec 4 := 0
  first : Dword := 0
  last : Dword := 0
  deriving DecidableEq, Repr

/-- The spares of a region (R513-R517) and of its memory banks (R140, R141). `map` gives the physical core of each of its
eight logical cores; `copyCore` the logical core being copied into the spare, `failed` the physical core declared failed last and
`downs` all of them; `bankBad` says that the spare bank has failed its self-test. -/
structure RegionSt where
  map : List Nat := [0, 1, 2, 3, 4, 5, 6, 7]
  failed : Option Nat := none
  downs : List Nat := []
  spareUsed : Bool := false
  spareBad : Bool := false
  degraded : Bool := false
  copyCore : Option Nat := none
  copyPtr : Nat := 0
  copyEnded : Bool := false
  bankCopy : Option Nat := none
  bankPtr : Nat := 0
  replaced : Option Nat := none
  bankBad : Bool := false
  lost : Bool := false
  deriving DecidableEq, Repr

/-- A wear domain's values (R520-R522). Voltages in mV; t_eff, in hours, and A in FP64 encodings. `at'` is the NCLK count of its last sample, and
`hist` gives the t_eff of its samples of the last 30 days by their NCLK counts. -/
structure WearDom where
  vReq : Nat := 0
  sram : Nat := 0
  teff : Dword := 0
  fitA : Dword := 0
  base : Nat := 0
  at' : Nat := 0
  hist : List (Nat × Dword) := []
  remain : Nat := 0
  level : Nat := 0
  told : Nat := 0
  reported : Option Nat := none
  deriving DecidableEq, Repr

/-- Self-test results (R525-R527). Bitmaps number units as R556 does. `pass` and `fail` are of the last self-test, or at start of
the valid record of the last shutdown; `good` holds the units that are ready to be used, and `before` those that failed the last self-test
before this start. -/
structure Bist where
  good : BitVec 96 := 0
  shutBusy : Bool := false
  shutEnded : Bool := false
  shutDone : Bool := false
  shutPass : Bool := false
  shutRecorded : Bool := false
  pass : BitVec 96 := 0
  fail : BitVec 96 := 0
  retired : BitVec 96 := 0
  before : BitVec 96 := 0
  columns : List Byte := []
  startDone : Bool := false
  others : BitVec 9 := 0
  spared : List (Nat × Nat) := []
  deriving DecidableEq, Repr

/-- Events attributed to physical cores (R510), SEQ_PARITY reports, residue mismatches (core, cell, column), columns to be spared
at the next boundary (core, cell, column), and ECC_CORR words of each bank (bank, word) (R510-R512); with their NCLK counts. A physical
core is named by region × 16 + its number. -/
structure Attrib where
  events : List (Nat × Nat) := []
  parity : List (Nat × Nat) := []
  residue : List (Nat × Nat × Nat × Nat) := []
  sparing : List (Nat × Nat × Nat) := []
  ecc : List (Nat × Nat × Nat) := []
  deriving DecidableEq, Repr

/-- A frame the C32 sends in SQP (R439). -/
structure OutFrame where
  type : Byte
  ackReq : Bool := false
  frag : Bool := false
  retry : Bool := false
  client : Fin 8 := 0
  port : Port
  seq : Word
  number : BitVec 16 := 0
  gen : BitVec 16 := 0
  ack : Word := 0
  stamp : Dword
  payload : List Byte
  dest : HostAddr
  msg : Nat
  deriving DecidableEq, Repr

/-- The answer kept for a processed SEQ (R441). (DEDUCED, log 25) -/
inductive Answer
  | sent (frames : List OutFrame)
  | pending
  | same (seq : Word)
  | none
  | again
  deriving DecidableEq, Repr

/-- A reassembly in progress (R443). -/
structure Reasm where
  hdr : SqpHdr
  type : Byte
  total : Nat
  d : Nat
  parts : List (Nat × List Byte)
  at' : Nat
  deriving DecidableEq, Repr

/-- A frame awaiting acknowledgement (R453). -/
structure Unacked where
  frame : OutFrame
  resends : Nat := 0
  since : Nat := 0
  deriving DecidableEq, Repr

/-- A frame that waits for HOST tokens of a pan before it goes to its port (R414): its place among the transfers asked of the bucket, and whether it
is a resend. -/
structure Paced where
  frame : OutFrame
  again : Bool
  pan : Nat
  place : Nat
  deriving DecidableEq, Repr

/-- A host port (R440-R454, R604). -/
structure HPort where
  unresponsive : Bool := false
  nextSeq : Word := 0
  fresh : Bool := true
  high : Word := 0
  recs : List (Word × Answer) := []
  reasm : List Reasm := []
  unacked : List Unacked := []
  waiting : List OutFrame := []
  paced : List Paced := []
  clientAddr : SMap HostAddr := []
  portAddr : Option HostAddr := none
  lastWinSeq : Option Word := none
  deriving DecidableEq, Repr

/-- A write of HPORT_n_CFG or of an address register that takes effect once its REG_RESP has been sent (R471): the port and SEQ of
that answer, the register's address and the word written. -/
structure HcfgPend where
  port : Port
  seq : Word
  addr : Nat
  val : Word
  deriving DecidableEq, Repr

/-- A REG_READ of LEDGER_RD_DATA that waits for the operation in progress to end (R559). -/
structure HeldRead where
  hdr : SqpHdr
  addr : Nat
  count : Nat
  deriving DecidableEq, Repr

/-- What a frame in a port's transmit queue carries. -/
inductive TxBody
  | sqp (f : OutFrame)
  | setpoint (dest : Nat) (apply : Nat) (payload : List Byte)
  | pdelayReq
  | pdelayResp (t2 : Int)
  | pdelayRespFollowUp (t3 : Int)
  | sync (m : SyncMsg) (resIn : Nat) (delay : Nat)
  | ptp (k : PtpKind) (domain : Byte) (body : List Byte)
  | reply (echo : Bool)
  | fwd (f : Frame)
  deriving DecidableEq, Repr

/-- A frame waiting in a traffic class (R436, R438): the priority and VLAN of its tag, where a frame of the C32's own has one, and its UDP header,
where it is a datagram (R434). -/
structure TxFrame where
  cls : Nat
  len : Nat
  body : TxBody
  tag : Option (BitVec 3 × BitVec 12) := none
  udp : List Byte := []
  deriving DecidableEq, Repr

/-- A port of the bridge (R431, R435-R438). `last` is the frame sent last with its egress time-stamp in 0.25 ns, and
`rxAt` the time-stamp of the frame received last (R487); `meters` holds for each
stream filter the bytes in the two buckets of its flow meter, and the NCLK count of their last fill. -/
structure BPort where
  link : Bool := false
  speed : BitVec 2 := 0
  master : Bool := false
  enabled : Bool := false
  waiting : List TxFrame := []
  cur : Option TxFrame := none
  gcl : Nat := 0
  last : Option (TxFrame × Int) := none
  rxAt : Option Int := none
  meters : SMap (Rat × Rat × Nat) := []
  deriving DecidableEq, Repr

/-- States of a queue (R467). -/
inductive QState | closed | opened | closing
  deriving DecidableEq, Repr

/-- A queue (R464-R467) with the client that opened it (R421, R451) and the request of a close in progress. -/
structure QueueSt where
  state : QState := .closed
  opener : Fin 8 := 0
  gen : BitVec 16 := 0
  port : Port := .a
  client : Fin 8 := 0
  both : Bool := false
  closeReq : Option SqpHdr := none
  deriving DecidableEq, Repr

/-- A window (R149-R156, R467). -/
structure WinSt where
  isOpen : Bool := false
  gen : BitVec 16 := 0
  region : Nat := 0
  ofs : Nat := 0
  len : Nat := 0
  deriving DecidableEq, Repr

/-- A staged window write or read (R152, R153). -/
inductive StagedBody
  | write (data : List Byte)
  | read (len : Nat)
  deriving DecidableEq, Repr

structure Staged where
  win : Nat
  region : Nat
  base : Nat
  len : Nat
  winOfs : Word
  hdr : SqpHdr
  body : StagedBody
  deriving DecidableEq, Repr

/-- A held semaphore (R458). `since` is the NCLK count of the last acquisition. -/
structure SemSt where
  port : Port
  client : Fin 8
  leaseMs : Nat
  since : Nat
  deriving DecidableEq, Repr

/-- An image transfer (R447): the bytes written so far, and the pages of the image store that its body is written into (R541, R544). -/
structure Transfer where
  kind : Nat
  slot : Nat
  refId : Nat
  total : Nat
  data : List (Nat × Byte) := []
  held : List Nat := []
  ended : Option SqpHdr := none
  deriving DecidableEq, Repr

/-- A completion held or unacknowledged in the instance area (R452). `onA`, `onB`: sent on that port and not yet freed; `moved`: the
port it was held or unacknowledged on when its queue was adopted, `held`: it has found no usable port (R455); `everSent`: all its frames have been
handed to a port (R277); `paid`: its frames that have their HOST tokens (R414). `reserved`: the bytes
that were reserved for it when its instance was accepted (R452, R605). -/
structure CompRec where
  id : Nat
  queue : Nat
  gen : BitVec 16
  payload : List Byte
  reserved : Nat
  onA : Bool := false
  onB : Bool := false
  everSent : Bool := false
  held : Bool := false
  moved : Option Port := none
  paid : Nat := 0
  deriving DecidableEq, Repr

/-- Supervisor memory by its ranges (R542), and the unit firmware loaded into the PHYs and the decoders. -/
structure SupMem where
  code : List Byte := []
  data : List Byte := []
  tables : List Byte := []
  wear : List Byte := []
  staging : List Byte := []
  firmware : List (List Byte) := []
  deriving DecidableEq, Repr

/-- Identity, bundle and images (R529-R550). `puf` is the 16 KiB PUF array, whose unlisted bytes are 0; `applyImg` the image that an apply
installs. -/
structure Sec where
  puf : List (Nat × Byte) := []
  keyPair : Option (List Byte × List Byte) := none
  idReady : Bool := false
  idFail : Bool := false
  enrolled : Bool := false
  applyRefused : Bool := false
  applying : Bool := false
  pendingImg : Option StructImage := none
  applyImg : Option StructImage := none
  image : Option StructImage := none
  models : SMap ModelPack := []
  store : Option (List Nat) := none
  bundle : Option Bundle := none
  supMem : SupMem := {}
  started : Bool := false
  enrolReq : Bool := false
  deriving DecidableEq, Repr

/-- LEDGER_STATUS.STATE (R559). -/
inductive LedgerState | absent | foreign | ready
  deriving DecidableEq, Repr

/-- A journal record to be written (R553): its TYPE and payload. -/
structure LedgerRec where
  type : Byte
  payload : List Byte
  deriving DecidableEq, Repr

/-- An erase in progress in the ledger flash (R552, R555). -/
inductive LedgerErase
  | all
  | sector (k : Nat)
  deriving DecidableEq, Repr

/-- The ledger (R551-R558). Flash bytes that are not listed read 0xFF. `job` is the record whose first phase is
programmed, at its address with its SEQ. -/
structure Ledger where
  present : Bool := true
  size : Nat := 0x800000
  erase4k : Bool := true
  flash : List (Nat × Byte) := []
  state : LedgerState := .absent
  erase : Option LedgerErase := none
  job : Option (LedgerRec × Nat × Nat) := none
  waiting : List LedgerRec := []
  head : Nat := 0
  lastSeq : Nat := 0
  newest : SMap Nat := []
  seqEnd : Bool := false
  hours : Nat := 0
  starts : Nat := 0
  startsBare : Nat := 0
  shutTests : Nat := 0
  hourAt : Nat := 0
  wearAt : Nat := 0
  deriving DecidableEq, Repr

/-- AVS (R523, R567, R568). `first` is the supervisor's first target, `reached` that APPLIED_MV has been at it. -/
structure Avs where
  target : Nat := 620
  goal : Nat := 620
  changedAt : Nat := 0
  steppedAt : Option Nat := none
  first : Option Nat := none
  reached : Bool := false
  needs : List (Nat × Nat) := []
  deriving DecidableEq, Repr

/-- The TAP (R585): the instruction last loaded, its data register's value, and boundary-scan control of the pins. -/
inductive TapInstr | bypass | idcode | samplePreload | extest | extestPulse | extestTrain
  deriving DecidableEq, Repr

structure Tap where
  instr : TapInstr := .idcode
  dr : Word := 0x10C324C7
  control : Bool := false
  deriving DecidableEq, Repr

/-- The service SPI's last response: status byte and value (R582). -/
structure SvcResp where
  status : Byte := 0
  value : Word := 0
  driven : Bool := false
  deriving DecidableEq, Repr

end Sys2Proof.Machine
end

