-- ==== Sys2Proof/Machine/Parts2.lean ====
section
/-!
DEFINITION. The parts of the machine's state that belong to memory, the cores' sequencers, batch slots, contexts and pans.
Every record's defaults are its values at reset.
-/

namespace Sys2Proof.Machine

/-- An entry of a coalescing buffer (R132): its line's address, the bytes written with their offsets, the words whose result
is poisoned, the NCLK count of its allocation, and the line as a bank read has filled it (R134), with the words that were poisoned there;
nothing where it has not been filled. -/
structure BufEntry where
  line : Nat
  data : List (Nat × Byte) := []
  bad : NSet := []
  since : Nat
  fill : List Byte := []
  fillBad : NSet := []
  deriving DecidableEq, Repr

/-- A MOVE recorded to be performed at the commit (R186): its rank, the slot index of a SLOTWISE move, its SUBOP, and its descriptor with the index. -/
structure Deferred where
  rank : Nat
  slot : Option Nat
  kind : Nat
  desc : Desc
  index : Nat
  deriving DecidableEq, Repr

/-- Bytes that an operation writes at a resolved address: their offset in the row they belong to, whether they are poisoned in themselves, and
for a copy the span their row was read from (R159). -/
structure OutWrite where
  addr : Nat
  bytes : List Byte
  ofs : Nat := 0
  bad : Bool := false
  src : List (Nat × Nat) := []
  deriving DecidableEq, Repr

/-- What an operation does for one slot, or as a whole, when it completes: the spans its results are computed from, bytes written, whether
all its results are poisoned, the flags of the vector unit or DSU and of the tensor array, BLK_UNDERFLOW per operand (bit 0 A to
bit 3 D), the flags its slot records, and the state bits it sets and clears. -/
structure SlotRes where
  slot : Option Nat := none
  reads : List (Nat × Nat) := []
  writes : List OutWrite := []
  bad : Bool := false
  vu : Fl := {}
  ta : Fl := {}
  blk : BitVec 4 := 0
  slotVu : Fl := {}
  set : BitVec 16 := 0
  clr : BitVec 16 := 0
  lanes : BitVec 16 := 0
  deriving DecidableEq, Repr

/-- An outstanding operation (R179): the spans it reads and writes, the pieces of lines it reads, the lines of its accesses outside its
core's scratchpad (R136), its results, which stand when it completes, and the last transfer it asked each bucket for (R414). `rank` is the rank whose
descriptor it is. (DEDUCED, log 35) -/
structure OutOp where
  id : Nat
  rank : Nat := 0
  desc : Nat
  reads : List (Nat × Nat) := []
  writes : List (Nat × Nat) := []
  pieces : List (Nat × Nat) := []
  far : List Nat := []
  res : List SlotRes := []
  status : Option Nat := none
  run : Nat := 1
  narrow : Bool := true
  slotwise : Bool := false
  toks : List (Nat × Nat) := []
  deriving DecidableEq, Repr

/-- A trap raised and not yet delivered (R120): descriptor, enabled flags, lanes. -/
structure TrapRec where
  desc : Nat
  flags : BitVec 5
  lanes : BitVec 16
  deriving DecidableEq, Repr

/-- What a core waits for inside a step (R145, R190, R195, R203): a barrier number, a BRANCH (with its SUBOP), REDUCE or GEMM that acts
as a barrier, or a full/empty access with the rows still to come (slot, source and destination address, resolved). -/
inductive Wait
  | barrier (n : Nat)
  | branch (kind target : Nat) (mask val : BitVec 16)
  | reduce (d : Desc) (sub : Nat) (axis : Bool) (index : Nat)
  | gemm (d : Desc) (cin transA transB : Bool) (index : Nat)
  | fullEmpty (write : Bool) (items : List (Option Nat × Nat × Nat)) (bad : List (Option Nat)) (op : OutOp)
  deriving DecidableEq, Repr

/-- A streamed layer whose pages are coming (R317): its rank, its number in the step, the pages still to come, and whether one came poisoned. -/
structure StagePart where
  rank : Nat := 0
  k : Nat
  left : Nat
  bad : Bool := false
  deriving DecidableEq, Repr

/-- Where a rank stands in its step while another rank of its context has the core, where a degraded placement runs them in turn (R516). -/
structure Turn where
  rank : Nat
  ended : Bool := false
  next : Nat := 0
  issued : Nat := 0
  wait : Option (Wait × Nat) := none
  waitRec : Option (Nat × Nat × Bool) := none
  stage : Option Nat := none
  asked : Nat := 0
  deriving DecidableEq, Repr

/-- A logical core: its registers (R118-R120, R209) and its step sequencer (R177-R180). `run` is the context whose step it
runs or ran last, with its rank; VU_CTRL written by the host waits in `vuPend` for the next boundary (R119). `waitRec` is the status record that the
descriptor it waits at writes when it completes: its address, SLOTS_RUN and POISON (R184). While the throttle holds the core idle, it starts no step
before `idleUntil` (R29). `stage` is the streamed layer of the step that it reads, `asked` how many it has asked for, and `parts` those whose
pages are still coming (R317). `turns` are the ranks that wait for their turn on the core (R516). -/
structure Core where
  vuFlags : Word := 0
  vuCtrl : Word := 0
  vuPend : Option Word := none
  trapInfo : Word := 0
  trapLanes : Word := 0
  seqValid : Bool := false
  seqFault : Nat := 0
  seqDesc : Nat := 0
  run : Option (Nat × Nat) := none
  rank : Nat := 0
  stepping : Bool := false
  next : Nat := 0
  issued : Nat := 0
  wait : Option (Wait × Nat) := none
  waitRec : Option (Nat × Nat × Bool) := none
  ops : List OutOp := []
  opId : Nat := 0
  traps : List TrapRec := []
  buf : List BufEntry := []
  moves : List Deferred := []
  idleUntil : Nat := 0
  stage : Option Nat := none
  asked : Nat := 0
  parts : List StagePart := []
  turns : List Turn := []
  deriving DecidableEq, Repr

/-- A batch slot (R191): its state word and sticky flag word, with their values at the start of the step (R200). -/
structure SlotSt where
  state : BitVec 16 := 0
  flags : BitVec 16 := 0
  state0 : BitVec 16 := 0
  flags0 : BitVec 16 := 0
  deriving DecidableEq, Repr

/-- States of a context index (R429). -/
inductive CtxState | empty | loading | resident | halted | loadFail | unloading
  deriving DecidableEq, Repr

/-- A context index of a pan (R398-R411). `slots` holds the batch slots by rank × 256 + slot index. `live` is a step
running since `startedAt`; `boundary` says that its last step ended and its step boundary is due; `resume` that it must run a
resume boundary before its next step (R410). `refault` counts consecutive faults that re-run (R207); the reports of those
faults (core, code, descriptor) are `owed` until their outcome is known (R497). `te` is T_E of the last step (R261). `parked`: it
waits for its next slice entry (R420); `away`: an entry that does not name it has started since its last step (R411). The step that
runs starts `startNclk` cycles of NCLK after reset and the last one ended at `endNclk`, as strict mode times them (R425). A load in progress ends `loadEnd` NCLK counts after reset (R403); `streamed`: it holds streamed layers,
behind its first `resident` DENSE ones (R316). `degraded` is the pan's degraded placement that it was loaded under (R516). -/
structure Ctx where
  st : CtxState := .empty
  cat : Nat := 0
  degraded : Option Nat := none
  ranks : List Nat := []
  slots : SMap SlotSt := []
  tag : BitVec 4 := 0
  live : Bool := false
  boundary : Bool := false
  killed : Option Nat := none
  resume : Bool := true
  budgetEnd : Bool := false
  startedAt : Nat := 0
  startNclk : Nat := 0
  te : Nat := 0
  endNclk : Nat := 0
  away : Bool := false
  refault : Nat := 0
  owed : List (Nat × Nat × Nat) := []
  haltFault : Nat := 0
  speedPct : Nat := 100
  parked : Bool := false
  loadEnd : Nat := 0
  streamed : Bool := false
  resident : Nat := 0
  deriving DecidableEq, Repr

/-- Weights of a pack in a core's scratchpad, which the contexts of a pan share (R312): the pack, its group size, the logical core, the group rank
whose slices they are, the layers, from `lo` to one before `hi` of the pack's DENSE ones, those before `hi` standing in earlier copies, and where
they lie. -/
structure WeightCopy where
  meas : BitVec 256
  group : Nat
  core : Nat
  part : Nat
  lo : Nat
  hi : Nat
  ofs : Nat
  len : Nat
  deriving DecidableEq, Repr

/-- A pan (R397, R406-R420): its slice entry, whether one is in progress (`entryOn`) or has run (`ran`), the NCLK count
at which it started and the Tide64 its LENGTH counts from, its contexts, sluice levels in bytes with the moment
of their last fill, the transfers that wait for tokens, and by bucket how many transfers it has been asked for (R414), the degraded placement in
force (R516), and the copies of weights that its resident contexts share (R312). -/
structure Pan where
  entry : Nat := 0
  entryAt : Nat := 0
  entryTide : Nat := 0
  entryOn : Bool := false
  ran : Bool := false
  ctxs : SMap Ctx := []
  paused : Bool := false
  levels : SMap (Nat × Nat) := []
  waitingTok : List (Nat × Nat) := []
  asked : SMap Nat := []
  degraded : Option Nat := none
  copies : List WeightCopy := []
  deriving DecidableEq, Repr

/-- What a transaction is part of: an operation of a core, a streamed layer of a rank's step (R317), or the load of a context (R403). -/
inductive XactUse
  | operation
  | stream (rank k : Nat)
  | load
  deriving DecidableEq, Repr

/-- A transaction outside a core's scratchpad (R418): a remote access, or a page of a HyperBus channel (`page`), with its place among the
transfers asked of the pan's HBUS bucket (R414), and which of its operation's results it belongs to. -/
structure Xact where
  core : Nat
  pan : Nat
  ctx : Nat
  tag : BitVec 4
  op : Nat
  chan : Option Nat
  page : Nat := 0
  use : XactUse := .operation
  tok : Nat := 0
  res : Nat := 0
  deriving DecidableEq, Repr

/-- A HyperBus channel (R165-R173). `ready` is its READY bit: trained, and its MIRROR bit that of its partner (R169). `line` is the
16-page group whose check line is cached, and `check` the CRCs of its pages that are not yet written back to the check area (R167). -/
structure Hbus where
  ready : Bool := false
  trained : Bool := false
  training : Bool := false
  fail : Bool := false
  lost : Bool := false
  crcErr : Count := {}
  line : Option Nat := none
  check : SMap Word := []
  deriving DecidableEq, Repr

/-- Waits of the instances of a client (R421, R422): the sum of 63 bits, its overflow, the latched HI word, and the maximum. -/
structure ClientWait where
  sum : Nat := 0
  ovf : Bool := false
  latch : Option Word := none
  max : Nat := 0
  maxOvf : Bool := false
  deriving DecidableEq, Repr

end Sys2Proof.Machine
end

