-- ==== Sys2Proof/Machine/Parts3.lean ====
section
/-!
DEFINITION. The parts of the machine's state that belong to the queue manager's instances, to refused loads, and to the loop
engine. Every record's defaults are its values at reset.
-/

namespace Sys2Proof.Machine

/-- States of an accepted instance (R258); a DONE instance is no longer held. -/
inductive JobState | waiting | live | harvested
  deriving DecidableEq, Repr

/-- A barred run of an iteration (R505, R506, R510): its CRC, whether POISON barred it, and the physical core that ran it, as region × 16 + core. -/
structure BarredRun where
  crc : Dword
  poison : Bool
  unit : Nat := 0
  deriving DecidableEq, Repr

/-- An instance (R255-R287). `quality` is 0 CLEAN, 1 CONCEALED, 2 CORRUPT (R274). `slots` are its global slots in context
`ctx` of pan `pan`; `pair` says that it still runs as a G2 pair, whose slots' previous run of this iteration is `prev`: for
each slot, its CRC when it would have committed. `leave` is a cancel (false) or close (true) with its moment. `spoiled` says that
poison was found in its committed copy, header, tolerance block or parameters (R504). -/
structure Job where
  id : Nat
  queue : Nat
  gen : BitVec 16
  tag : Word
  client : Fin 8
  deadline : Nat
  tArr : Nat
  tAdmit : Nat := 0
  quality : Nat := 0
  params : List Byte := []
  warm : List Byte := []
  st : JobState := .waiting
  ctx : Nat := 0
  slots : List Nat := []
  pair : Bool := false
  prev : Option (Option Dword × Option Dword) := none
  leave : Option (Bool × Nat) := none
  reruns : Nat := 0
  runs : List BarredRun := []
  mismatch : Bool := false
  spoiled : Bool := false
  deriving DecidableEq, Repr

/-- PAN_SHORTFALL_INFO and PAN_SHORTFALL_BYTES (R314). -/
structure Shortfall where
  valid : Bool := false
  memory : Nat := 0
  pan : Nat := 0
  rank : Nat := 0
  ctx : Nat := 0
  bytes : Nat := 0
  deriving DecidableEq, Repr

/-- A value on its way to a loop (R348-R350): the moment it was built or written, the NCLK count and queue of its completion, its
field and mantissa, and whether it saturated. -/
structure Hoff where
  at' : Nat
  cyc : Nat := 0
  queue : Nat := 0
  field : LoopField
  mant : Int
  sat : Bool := false
  deriving DecidableEq, Repr

/-- A loop (R326-R354): its control and status registers, pending hand-offs and host writes, and its states. Stage 1's p, v and a
are mantissas at EXP[1] with 24 more bits. `en` is the Tide64 of the write that set EN, `on` says that the loop has started, and
`clr` is the Tide64 of the FE_CLR still to act. `f` is the exact feed-forward part of the last update, `out` the last applied output
at the leader's EXP[7]. `lat`, `flags` and `ran` are the last update's latched input, its flags and its group's T_s; `hold` says
that the group repeats its output this period (R354). -/
structure LoopSt where
  en : Option Nat := none
  on : Bool := false
  clr : Option Nat := none
  status : Word := 0
  feCnt : Nat := 0
  winner : Nat := 0
  stale : Nat := 0
  lastCap : Option Nat := none
  hoff : List Hoff := []
  target : Int := 0
  ff : Int := 0
  vmax : Int := 0
  amax : Int := 0
  jmax : Int := 0
  outLo : Int := 0
  outHi : Int := 0
  lat : Int := 0
  xi : Int := 0
  xc : Int := 0
  p : Int := 0
  v : Int := 0
  a : Int := 0
  e : List Int := [0, 0, 0]
  u : List Int := [0, 0, 0]
  nIn : List Int := [0, 0]
  nOut : List Int := [0, 0]
  uc : Int := 0
  un : Int := 0
  uf : Int := 0
  f : Rat := 0
  s : Int := 0
  out : Int := 0
  flags : Word := 0
  ran : Option Nat := none
  hold : Bool := false
  poison : Bool := false
  deriving DecidableEq, Repr

/-- An update due on a pipeline pair (R322, R323): the loop, its group's leader and T_s, the NCLK count of its latch, the latched
FP64 value with whether it is new, the hand-offs and host writes that take effect, whether the loop starts or restarts, and
the disagreements met (R351, R352). -/
structure Update where
  loop : Nat
  leader : Nat
  ts : Nat
  at' : Nat
  x : Option Dword := none
  isNew : Bool := false
  hoffs : List Hoff := []
  start : Bool := false
  restart : Bool := false
  tries : Nat := 0
  deriving DecidableEq, Repr

/-- A pipeline pair (R323, R351, R352): updates due, updates in flight with the NCLK counts of their issue, the NCLK count
of the last issue, and the updates kept with the start of a known-answer test in progress. -/
structure PairSt where
  due : List Update := []
  flight : List (Update × Nat) := []
  issuedAt : Option Nat := none
  kat : Option (List Update × Nat) := none
  simplex : Bool := false
  halted : Bool := false
  deriving DecidableEq, Repr

/-- A trace (R355-R357): the port and client that last wrote its CTRL, whether its trigger came, the records kept before it, the page being
filled with its number of records, and the full pages that wait to spill, each with its number of records and its loop. -/
structure TraceSt where
  owner : Option (Port × Fin 8) := none
  trig : Bool := false
  pre : List (List Byte) := []
  page : List Byte := []
  recs : Nat := 0
  pages : List (List Byte × Nat × Nat) := []
  deriving DecidableEq, Repr

/-- A page in the HyperRAM trace ring (R356, R357): its trace, its loop, its place in the ring and its number of records. -/
structure RingPage where
  trace : Nat
  loop : Nat
  index : Nat
  recs : Nat
  deriving DecidableEq, Repr

/-- An entry of a set-point frame to be sent (R394): its slot's T_s, apply time, actuator channel, state and FP32 value. -/
structure Setpoint where
  ts : Nat
  apply : Nat
  ch : Nat
  state : Nat
  value : Word
  deriving DecidableEq, Repr

/-- The loop engine's own state: the tick in progress, the last tick run or passed over by a step of Tide, the slots of the tick in
progress latched, TIME_STEP, the set-point entries to be sent, and the trace ring. -/
structure LoopEng where
  tick : Option Nat := none
  last : Option Nat := none
  latched : NSet := []
  timeStep : Bool := false
  egress : List Setpoint := []
  ring : List RingPage := []
  ringNext : Nat := 0
  deriving DecidableEq, Repr

end Sys2Proof.Machine
end

