-- ==== Sys2Proof/Machine/Parts4.lean ====
section
/-!
DEFINITION. The parts of the machine's state that belong to the ingest unit. Every record's defaults are its values at reset.
-/

namespace Sys2Proof.Machine

/-- A measurement field (R369-R372): timed out, the last accepted capture time, the conditioner's xr and xf in FP64, the newest
conditioned values with their capture times and the moments they become readable, newest first, and the sticky flags. -/
structure FieldSt where
  tmo : Bool := true
  last : Option Nat := none
  xr : Dword := 0
  xf : Dword := 0
  hist : List (Dword × Nat × Nat) := []
  rej : Bool := false
  sat : Bool := false
  deriving DecidableEq, Repr

/-- A frame of a video stream (R375-R386): its RTP timestamp, capture time, the payloads received with their first units, the
unit that follows the last packet's bytes, whether the marker came; the NCLK count of its decode start and the next unit to decode; the cause
of each damaged unit; its reference (raster and serial number of its load) and regions of interest; the sums and
weights of its tiles and finding blocks, per component; its reference pages found poisoned; and the components of its positions, by line ×
WIDTH + position. -/
structure VFrame where
  ts : Word
  capture : Nat
  chunks : List (Nat × List Byte) := []
  last : Nat := 0
  ended : Bool := false
  started : Option Nat := none
  next : Nat := 0
  damage : SMap Nat := []
  ref : Option (Nat × Nat) := none
  roi : List Rect := []
  tiles : SMap (Rat × Nat) := []
  blocks : SMap (Rat × Nat) := []
  badPages : NSet := []
  pic : SMap (List Int) := []
  deriving DecidableEq, Repr

/-- A stream (R360-R391): of a MEAS stream the capture time last accepted; of a video stream its frames, oldest first, the RTP
timestamp and sequence number received last, whether that timestamp's frame still takes packets, the unit that follows the last packet's
bytes, the NCLK count until which its slots decode, and of its last completed frame the components of its positions, the tile means in FP32,
the concealed per mille, NO_REF, the reference and the regions of interest it left; `done` counts completed frames. -/
structure StreamSt where
  lastCapture : Option Nat := none
  frames : List VFrame := []
  ts : Option Word := none
  takes : Bool := false
  seq : Option (BitVec 16) := none
  unit : Nat := 0
  busy : Nat := 0
  pic : SMap (List Int) := []
  means : List Word := []
  conceal : Nat := 0
  noRef : Bool := false
  ref : Option (Nat × Nat) := none
  roi : List Rect := []
  done : Nat := 0
  future : Bool := false
  unsupported : Bool := false
  deriving DecidableEq, Repr

/-- A reference raster in a job slot (R382): its pages in the slot's area, its rows and bytes of a row, the serial number of its load, and
whether it is stored. -/
structure RefSt where
  pages : List Nat
  rows : Nat
  row : Nat
  gen : Nat
  ready : Bool := false
  deriving DecidableEq, Repr

/-- A parameter set built and not yet handed over (R390): its binding, the firing, its parameters, quality, deadline and TAG. -/
structure PsetSt where
  binding : Nat
  firing : Nat
  params : List Byte
  quality : Nat
  deadline : Nat
  tag : Word
  deriving DecidableEq, Repr

/-- The ingest unit (R360-R395). `refs` holds the rasters by job slot × 8 + REF_ID, `fired` for each binding the frames its
streams had completed when it last fired. -/
structure Ingest where
  fields : SMap FieldSt := []
  streams : SMap StreamSt := []
  refs : SMap RefSt := []
  refGen : Nat := 0
  active : Option Nat := none
  fired : SMap (SMap Nat) := []
  firing : Nat := 0
  psets : List PsetSt := []
  deriving DecidableEq, Repr

end Sys2Proof.Machine
end

