-- ==== Sys2Proof/Machine/State.lean ====
section
/-!
DEFINITION. The machine's state: plain data, every piece of state the spec gives the C32, and the queue of commands
waiting. Also why a step may stop, and the state right after reset.
-/

namespace Sys2Proof.Machine

/-- The whole machine. `sets` notes, by register address, what the hardware has set or counted in the present cycle of NCLK (R14, R37). -/
structure State where
  pending : List Instr := []
  nclk : Nat := 0
  free : Nat := 0
  power : Power := {}
  thermal : Thermal := {}
  avs : Avs := {}
  tide : Tide := {}
  ready : Word := 0
  coreReady : Word := 0
  rsvdWrite : Bool := false
  rsvdSrc : BitVec 2 := 0
  rsvdAddr : Word := 0
  regs : SMap Word := []
  counts : SMap Count := []
  logs : SMap ErrLog := []
  regions : SMap RegionSt := []
  wear : SMap WearDom := []
  bist : Bist := {}
  attrib : Attrib := {}
  hportA : HPort := {}
  hportB : HPort := {}
  hcfg : List HcfgPend := []
  heldReads : List HeldRead := []
  bports : SMap BPort := []
  queues : SMap QueueSt := []
  windows : SMap WinSt := []
  staged : List Staged := []
  sems : SMap SemSt := []
  transfers : SMap Transfer := []
  comps : List CompRec := []
  nextComp : Nat := 1
  sec : Sec := {}
  ledger : Ledger := {}
  tap : Tap := {}
  mem : Bytes := []
  poison : NSet := []
  corrected : NSet := []
  full : NSet := []
  dirty : NSet := []
  sel : NSet := []
  cores : SMap Core := []
  pans : SMap Pan := []
  xacts : List Xact := []
  hbus : SMap Hbus := []
  pageCrc : SMap Word := []
  waits : SMap ClientWait := []
  svc : SvcResp := {}
  jobs : List Job := []
  nextJob : Nat := 0
  priors : SMap (List Byte) := []
  shortfall : Shortfall := {}
  loops : SMap LoopSt := []
  pairs : SMap PairSt := []
  traces : SMap TraceSt := []
  loopEng : LoopEng := {}
  ingest : Ingest := {}
  sets : SMap Nat := []
  deriving DecidableEq, Repr

/-- Why a step would stop with a fault. No command of the table is given no effect by the spec, so none is raised. -/
inductive Fault
  /-- Raised by no command: the step never faults. Safe. -/
  | none
  deriving DecidableEq, Repr

/-- Why a step would be refused. -/
inductive Refusal
  /-- Raised by Dispatch for a command that has no meaning yet. Safe: nothing is claimed of it. -/
  | notModelled (mnemonic : String)
  deriving DecidableEq, Repr

/-- The machine as PORST_N is released (R18): every field at the value the spec gives, or the log's. (DESIGN CHOICE, log 6; DESIGN CHOICE, log 10) -/
def State.reset : State := {}

end Sys2Proof.Machine
end

