-- ==== Sys2Proof/Machine/Ops.lean ====
section
/-!
DEFINITION. The named operations every command shares: time, stored registers, readiness, messages to the hosts, EVENTs,
answers, counters and error reports.
-/

namespace Sys2Proof.Machine

/-! ### Time -/

/-- Tide64 (R42). -/
def State.tide64 (s : State) : Nat := (s.tide.sec.toNat * 1000000000 + s.tide.ns) % 2 ^ 64

/-- Tide64 as a double word. -/
def State.now (s : State) : Dword := BitVec.ofNat 64 s.tide64

/-- Whether `ns` nanoseconds have passed since an NCLK count (R28: 20 ÷ 11 ns each). (DESIGN CHOICE, log 9) -/
def State.passed (s : State) (since ns : Nat) : Bool := ns * 11 ≤ (s.nclk - since) * 20

/-- Nanoseconds since an NCLK count. (DESIGN CHOICE, log 9) -/
def State.nsSince (s : State) (since : Nat) : Nat := (s.nclk - since) * 20 / 11

/-- The free value of a result of w bits the spec leaves open, and the state with the counter advanced. (DESIGN CHOICE, log 2) -/
def State.takeFree (s : State) (w : Nat) : BitVec w × State :=
  (Config.freeValue s.free w, { s with free := s.free + 1 })

/-! ### Stored registers -/

/-- The stored word of a register: the last written, or its reset value (R13, R18). (DESIGN CHOICE, log 5) -/
def State.rw (s : State) (r : Reg) : Word := s.regs.getD r.addr r.resetWord

/-- A register's stored word set. -/
def State.setRw (s : State) (r : Reg) (w : Word) : State := { s with regs := s.regs.put r.addr w }

/-- A field of a stored register. -/
def State.rwField (s : State) (r : Reg) (hi lo : Nat) : Nat := fieldOf (s.rw r) hi lo

/-- GLB_MODE.STRICT (R45). -/
def State.strict (s : State) : Bool := s.rwField .glbMode 0 0 = 1

/-- What the hardware has set in a register, or counted there, in the present cycle of NCLK: a host clear of that cycle leaves it standing
(R14, R37). (DEDUCED, log 61) -/
def State.noted (s : State) (r : Reg) : Nat := s.sets.getD r.addr 0

/-- Bits that the hardware sets in a register, or an amount it counts there, noted (R14, R37). (DEDUCED, log 61) -/
def State.note (s : State) (r : Reg) (f : Nat → Nat) : State := { s with sets := s.sets.put r.addr (f (s.noted r)) }

/-- The reserved-write flag with its record (R596). (DEDUCED, log 19) -/
def State.setRsvd (s : State) (addr : Word) (src : BitVec 2) : State :=
  let s := s.note .glbStatus (· ||| 1)
  if s.rsvdWrite then s else { s with rsvdWrite := true, rsvdAddr := addr, rsvdSrc := src }

/-! ### Ports -/

/-- A port's index: 0 for A, 1 for B. -/
def portIx : Port → Nat
  | .a => 0
  | .b => 1

/-- A port's bridge number (R435). -/
def portBridge : Port → Nat
  | .a => 16
  | .b => 17

/-- The other port. -/
def otherPort : Port → Port
  | .a => .b
  | .b => .a

/-- A host port. -/
def State.hport (s : State) : Port → HPort
  | .a => s.hportA
  | .b => s.hportB

/-- A host port changed. -/
def State.onHport (s : State) (p : Port) (f : HPort → HPort) : State :=
  match p with
  | .a => { s with hportA := f s.hportA }
  | .b => { s with hportB := f s.hportB }

/-- Whether a port's READY bit is set (R33). -/
def State.portReady (s : State) : Port → Bool
  | .a => s.ready.getLsbD 0
  | .b => s.ready.getLsbD 1

/-- A bridge port. -/
def State.bport (s : State) (p : Nat) : BPort := s.bports.getD p {}

/-- The applied schedule record of a field port. -/
def State.portSched (s : State) (p : Nat) : Option PortSched :=
  match s.sec.image with
  | none => none
  | some im => SMap.get im.ports p

/-- The gate control list of a port; empty where every gate stays open (R436). -/
def State.gates (s : State) (p : Nat) : List (BitVec 8 × Nat) :=
  match s.portSched p with
  | none => []
  | some r => r.gates

/-- Nanoseconds a list of gate entries keeps a class open from its start on; none where it never closes. -/
def gateOpenFor (cls : Nat) : List (BitVec 8 × Nat) → Nat × Bool
  | [] => (0, true)
  | (m, ns) :: r =>
    if m.getLsbD cls then let (t, all) := gateOpenFor cls r; (ns + t, all) else (0, false)

/-- The cycle of a gate control list. -/
def gateCycle (l : List (BitVec 8 × Nat)) : Nat := (l.map Prod.snd).sum

/-- Nanoseconds a frame of `len` bytes takes on the wire at a port's speed. (DEDUCED, log 49) -/
def wireNs (speed : BitVec 2) (len : Nat) : Nat :=
  if speed = 1 then (len * 32 + 9) / 10 else if speed = 2 then (len * 16 + 9) / 10 else (len * 8 + 9) / 10

/-- Whether a frame may start: its class's gate is open and its last bit leaves before the gate closes (R436). (DEDUCED, log 27) -/
def gateAdmits (gates : List (BitVec 8 × Nat)) (gcl now : Nat) (speed : BitVec 2) (f : TxFrame) : Bool :=
  if gates = [] then true
  else
    let i := gcl % gates.length
    let rot := gates.drop i ++ gates.take i
    let (t, all) := gateOpenFor f.cls rot
    if all then true
    else
      let start := gateCycle (gates.take i)
      let into := (now + gateCycle gates - start) % gateCycle gates
      wireNs speed f.len + into ≤ t

/-- The first waiting frame of a class. -/
def headOf (cls : Nat) : List TxFrame → Option TxFrame
  | [] => none
  | f :: r => if f.cls = cls then some f else headOf cls r

/-- The list without its first frame of a class. -/
def dropHead (cls : Nat) : List TxFrame → List TxFrame
  | [] => []
  | f :: r => if f.cls = cls then r else f :: dropHead cls r

/-- The frame that starts on an idle port: of the classes whose head may start, the highest (R436). -/
def pickFrame (ok : TxFrame → Bool) (waiting : List TxFrame) : List Nat → Option TxFrame
  | [] => none
  | c :: r =>
    match headOf c waiting with
    | some f => if ok f then some f else pickFrame ok waiting r
    | none => pickFrame ok waiting r

/-- An idle port with a link starts its next frame, if one may start. -/
def State.kick (s : State) (p : Nat) : State :=
  let b := s.bport p
  if b.cur.isSome || !b.link then s
  else
    match pickFrame (gateAdmits (s.gates p) b.gcl s.tide64 b.speed) b.waiting [7, 6, 5, 4, 3, 2, 1, 0] with
    | none => s
    | some f => { s with bports := s.bports.put p { b with cur := some f, waiting := dropHead f.cls b.waiting } }

/-- The MAC address of a host port (R471). (DEDUCED, log 26) -/
def State.hostMac (s : State) (n : Nat) : BitVec 48 :=
  BitVec.ofNat 48 (s.rwField (.hportMacHi n) 15 0 * 2 ^ 32 + (s.rw (.hportMacLo n)).toNat)

/-- The MAC address of a port (R434, R471); a field port that the image gives none has none. -/
def State.portMac (s : State) (p : Nat) : Option (BitVec 48) :=
  if p < 16 then (s.portSched p).map PortSched.mac else some (s.hostMac (p - 16))

/-- The IPv6 link-local address that a MAC address gives by the modified EUI-64 rule (R434). (DEDUCED, log 26) -/
def linkLocal (mac : BitVec 48) : BitVec 128 :=
  BitVec.ofNat 128 (0xFE80 * 2 ^ 112 + ((mac.toNat / 2 ^ 24) ^^^ 0x020000) * 2 ^ 40 + 0xFFFE * 2 ^ 24 + mac.toNat % 2 ^ 24)

/-- The IPv4 address of a port (R434, R471). -/
def State.portIpv4 (s : State) (p : Nat) : Word :=
  if p < 16 then ((s.portSched p).map PortSched.ipv4).getD 0 else s.rw (.hportIpv4 (p - 16))

/-- The global IPv6 address of a port (R434, R471); 0 where it has none. -/
def State.portIpv6 (s : State) (p : Nat) : BitVec 128 :=
  if p < 16 then ((s.portSched p).map PortSched.ipv6).getD 0
  else BitVec.ofNat 128 (beNat (([0, 1, 2, 3] : List Nat).flatMap (fun k => beBytes 4 (s.rw (.hportIpv6 (p - 16) k)).toNat)))

/-- The address that a port sends from: to a link-local address, or without a global one, its link-local address. (DEDUCED, log 26) -/
def State.srcIp (s : State) (p : Nat) (v6 : Bool) (dst : BitVec 128) : BitVec 128 :=
  let mine := linkLocal ((s.portMac p).getD 0)
  if !v6 then (s.portIpv4 p).setWidth 128
  else if dst.toNat / 2 ^ 118 = 0x3FA || s.portIpv6 p = 0 then mine else s.portIpv6 p

/-- The 16-bit words of a byte string summed. -/
def sum16 : List Byte → Nat
  | [] => 0
  | [a] => a.toNat * 256
  | a :: b :: r => a.toNat * 256 + b.toNat + sum16 r

/-- A UDP header with its checksum over pseudo-header, header and payload (R434): the ones' complement of the ones' complement sum, all ones in place
of 0. -/
def udpHeader (v6 : Bool) (src dst : BitVec 128) (sport dport : BitVec 16) (pl : List Byte) : List Byte :=
  let len := 8 + pl.length
  let head := beBytes 2 sport.toNat ++ beBytes 2 dport.toNat ++ beBytes 2 len
  let pseudo := if v6 then beBytes 16 src.toNat ++ beBytes 16 dst.toNat ++ beBytes 4 len ++ beBytes 4 17
    else beBytes 4 src.toNat ++ beBytes 4 dst.toNat ++ beBytes 2 17 ++ beBytes 2 len
  let c := 65535 - sum16 (pseudo ++ head ++ pl) % 65535
  head ++ beBytes 2 c

/-- The tag of the frames that a port sends of its own (R471): a host port's, where VLAN is set. -/
def State.hostTag (s : State) (p : Nat) : Option (BitVec 3 × BitVec 12) :=
  if p < 16 || s.rwField (.hportCfg (p - 16)) 24 24 = 0 then none
  else some (BitVec.ofNat 3 (s.rwField (.hportCfg (p - 16)) 23 21), BitVec.ofNat 12 (s.rwField (.hportNet (p - 16)) 11 0))

/-- A frame of the C32's own for a port (R436, R471): a host port's has the class of CFG.PCP, and a tag where VLAN is set; `cls` is the class on a
field port, and `len` the length without a tag. (DEDUCED, log 26) -/
def State.ownFrame (s : State) (p cls len : Nat) (body : TxBody) : TxFrame :=
  { cls := if p < 16 then cls else s.rwField (.hportCfg (p - 16)) 23 21, len := len + (if (s.hostTag p).isSome then 4 else 0), body := body,
    tag := s.hostTag p }

/-- A frame of the C32's own put into its class of a port; it is never dropped (R438). -/
def State.enqueue (s : State) (p : Nat) (f : TxFrame) : State :=
  let b := s.bport p
  ({ s with bports := s.bports.put p { b with waiting := b.waiting ++ [f] } }).kick p

/-! ### Messages to the hosts -/

/-- The code of a reason (R470). -/
def Reason.code : Reason → Nat
  | .ok => 0 | .badVersion => 1 | .badLength => 2 | .noPermission => 3 | .queueClosed => 4 | .staleGeneration => 5
  | .windowClosed => 6 | .windowRange => 7 | .queueFull => 8 | .busy => 9 | .imageRejected => 10
  | .signatureInvalid => 11 | .notReady => 12 | .addressInvalid => 13 | .rateLimited => 14 | .strictForbidden => 15
  | .resources => 16

/-- The payload limit P of a host port (R442). -/
def State.payLimit (s : State) (p : Port) (v6 : Bool) : Nat :=
  s.rwField (.hportCfg (portIx p)) 13 0 - (if v6 then 80 else 60)

/-- The payloads of a message's fragments (R442); `n` bounds their number. -/
def fragPays (total d : Nat) : Nat → Nat → List Byte → List (List Byte)
  | 0, _, _ => []
  | n + 1, ofs, pl =>
    if pl.isEmpty then []
    else (beBytes 4 total ++ beBytes 4 ofs ++ pl.take d) :: fragPays total d n (ofs + d) (pl.drop d)

/-- A message's frame payloads: itself when it fits P, its fragments otherwise (R442). -/
def framePays (P : Nat) (pl : List Byte) : List (List Byte) :=
  if pl.length ≤ P then [pl] else fragPays pl.length (P - 8) pl.length 0 pl

/-- A message of the C32's before it is numbered. `msg` names the completion it carries, 0 for none. -/
structure OutMsg where
  type : Byte
  reliable : Bool := false
  retry : Bool := false
  client : Fin 8 := 0
  number : BitVec 16 := 0
  gen : BitVec 16 := 0
  ack : Word := 0
  payload : List Byte
  dest : HostAddr
  msg : Nat := 0

/-- A message's frames with consecutive SEQ values (R440, R442). -/
def numberFrames (m : OutMsg) (p : Port) (ackReq frag : Bool) (stamp : Dword) : Word → List (List Byte) → List OutFrame
  | _, [] => []
  | q, pl :: r =>
    { type := m.type, ackReq := ackReq, frag := frag, retry := m.retry, client := m.client, port := p, seq := q,
      number := m.number, gen := m.gen, ack := m.ack, stamp := stamp, payload := pl, dest := m.dest, msg := m.msg }
      :: numberFrames m p ackReq frag stamp (q + 1) r

/-- The UDP payload of an SQP frame that the C32 sends (R439): the header, big-endian, its CRC taken with CRC 0, and the payload. RESYNC, ADOPT and
BOTH are a host's. -/
def OutFrame.bytes (f : OutFrame) : List Byte :=
  let flags := (if f.ackReq then 1 else 0) + (if f.frag then 2 else 0) + (if f.retry then 4 else 0)
  let head := beBytes 1 1 ++ [f.type] ++ beBytes 1 flags ++ beBytes 1 (f.client.val * 32 + portIx f.port * 16) ++ beBytes 4 f.seq.toNat
    ++ beBytes 2 f.number.toNat ++ beBytes 2 f.gen.toNat ++ beBytes 2 f.payload.length ++ beBytes 2 0 ++ beBytes 4 f.ack.toNat
    ++ beBytes 8 f.stamp.toNat
  head ++ beBytes 4 (crc32c (head ++ beBytes 4 0 ++ f.payload)).toNat ++ f.payload

/-- The bytes an SQP frame takes on the wire without a tag: preamble, Ethernet, IP and UDP headers, the UDP payload, FCS and gap. -/
def sqpWireLen (f : OutFrame) : Nat := f.bytes.length + 8 + (if f.dest.v6 then 40 else 20) + 38

/-- An SQP frame put into the port's class, with its UDP header (R434, R436, R438): its source port is the port's own. (DEDUCED, log 62) -/
def State.transmit (s : State) (f : OutFrame) : State :=
  let p := portBridge f.port
  s.enqueue p { s.ownFrame p 0 (sqpWireLen f) (.sqp f) with
    udp := udpHeader f.dest.v6 (s.srcIp p f.dest.v6 f.dest.ip) f.dest.ip
      (BitVec.ofNat 16 (s.rwField (.hportNet (portIx f.port)) 31 16)) f.dest.udp f.bytes }

/-- A frame that goes to the port now, for the first time (R439): its STAMP is this moment's, and one that carries ACK_REQ is kept until it is
acknowledged (R453). (DEDUCED, log 62) -/
def State.handNow (s : State) (f : OutFrame) : State :=
  let f := { f with stamp := s.now }
  (if f.ackReq then s.onHport f.port (fun h => { h with unacked := h.unacked ++ [{ frame := f, since := s.nclk }] }) else s).transmit f

/-- A frame handed over: one that carries ACK_REQ takes a place of the 64, or waits for one (R453). (DEDUCED, log 62) -/
def State.handFrame (s : State) (f : OutFrame) : State :=
  if f.ackReq then
    let hp := s.hport f.port
    if hp.unacked.length < 64 ∧ hp.waiting = [] then s.handNow f
    else s.onHport f.port (fun h => { h with waiting := h.waiting ++ [f] })
  else s.handNow f

/-- The frames of a message for a port, numbered (R440, R442, R453). COMPLETION and EVENT are `reliable`. -/
def State.numberMsg (s : State) (p : Port) (m : OutMsg) : List OutFrame × State :=
  let pays := framePays (s.payLimit p m.dest.v6) m.payload
  let ackReq := m.reliable && s.rwField (.hportCfg (portIx p)) 26 26 = 1
  (numberFrames m p ackReq (1 < pays.length) s.now (s.hport p).nextSeq pays,
    s.onHport p (fun h => { h with nextSeq := h.nextSeq + BitVec.ofNat 32 pays.length }))

/-- A message sent on a port: its frames and the state (R440, R442, R453). (DEDUCED, log 62) -/
def State.sendMsg (s : State) (p : Port) (m : OutMsg) : List OutFrame × State :=
  let x := s.numberMsg p m
  (x.1, x.1.foldl State.handFrame x.2)

/-- The payload of an EVENT (R450). -/
def eventPay (kind subject : Nat) (time : Dword) (body : List Byte) : List Byte :=
  beBytes 2 kind ++ [0, 0] ++ beBytes 4 subject ++ beBytes 8 time.toNat ++ body

/-- An EVENT on one port: sent when the port is READY and an address is recorded (R450, R604). (DEDUCED, log 62) -/
def State.eventOn (s : State) (p : Port) (kind subject : Nat) (body : List Byte) : State :=
  if s.portReady p then
    match (s.hport p).portAddr with
    | some a => (s.sendMsg p { type := 0x50, reliable := true, payload := eventPay kind subject s.now body, dest := a }).2
    | none => s
  else s

/-- An EVENT on both host ports (R450). -/
def State.event (s : State) (kind subject : Nat) (body : List Byte) : State :=
  (s.eventOn .a kind subject body).eventOn .b kind subject body

/-! ### Counters -/

/-- The reading of a counter. -/
def State.count (s : State) (c : Ctr) : Count := s.counts.getD c.addr {}

/-- A count advanced by one toward a maximum (R36). -/
def Count.inc (max : Nat) (c : Count) : Count :=
  if c.ovf then c else if c.n + 1 ≥ max then { n := max, ovf := true } else { c with n := c.n + 1 }

/-- An event counted: the one that brings the count to its maximum sets OVF and sends one EVENT (R36). (DEDUCED, log 61) -/
def State.bump (s : State) (c : Ctr) : State :=
  let old := s.count c
  let new := old.inc (2 ^ 31 - 1)
  let s := { s with counts := s.counts.put c.addr new }.note (.counter c) (· + 1)
  if new.ovf && !old.ovf then s.event 2 c.addr [] else s

/-! ### Readiness -/

/-- A bit of a word set or cleared. -/
def putBit (w : Word) (k : Nat) (v : Bool) : Word := if v then w ||| ((1 : Word) <<< k) else w &&& ~~~((1 : Word) <<< k)

/-- A bit of GLB_READY; a transition sends a READY EVENT (R32). -/
def State.setReady (s : State) (k : Nat) (v : Bool) : State :=
  if s.ready.getLsbD k = v then s
  else ({ s with ready := putBit s.ready k v }).event 1 k (beBytes 4 (if v then 1 else 0))

/-- A bit of GLB_CORE_READY; a transition sends a READY EVENT (R32). -/
def State.setCoreReady (s : State) (n : Nat) (v : Bool) : State :=
  if s.coreReady.getLsbD n = v then s
  else ({ s with coreReady := putBit s.coreReady n v }).event 1 (32 + n) (beBytes 4 (if v then 1 else 0))

/-- GLB_READY.SUP. -/
def State.sup (s : State) : Bool := s.ready.getLsbD 8

/-- GLB_READY.QMGR. -/
def State.qmgrReady (s : State) : Bool := s.ready.getLsbD 4

/-- GLB_READY.HBUS. -/
def State.hbusReady (s : State) : Bool := s.ready.getLsbD 3

/-- GLB_READY.LOOP. -/
def State.loopReady (s : State) : Bool := s.ready.getLsbD 5

/-- GLB_READY.INGEST. -/
def State.ingestReady (s : State) : Bool := s.ready.getLsbD 6

/-- GLB_READY.BRIDGE. -/
def State.bridgeReady (s : State) : Bool := s.ready.getLsbD 7

/-- GLB_READY.REGION[k]. -/
def State.regionReady (s : State) (k : Nat) : Bool := s.ready.getLsbD (16 + k)

/-- Whether the machine is held in a reset (R573-R578). (DESIGN CHOICE, log 4) -/
def State.inReset (s : State) : Bool := s.power.porst || s.power.brown || s.power.pll || s.power.therm

/-! ### Answers -/

/-- The payload of a NAK (R445). -/
def nakPay (r : Reason) (detail : Nat) : List Byte := beBytes 2 r.code ++ [0, 0] ++ beBytes 4 detail

/-- The answer kept for a SEQ, written into the port's record (R441). -/
def setRec (recs : List (Word × Answer)) (q : Word) (a : Answer) : List (Word × Answer) :=
  (q, a) :: recs.filter (fun r => r.1 != q)

/-- A message that answers a request: with its CLIENT, NUMBER and its SEQ as ACK (R444). -/
def answerTo (h : SqpHdr) (type : Byte) (gen : BitVec 16) (payload : List Byte) : OutMsg :=
  { type := type, client := h.client, number := h.number, gen := gen, ack := h.seq, payload := payload, dest := h.src }

/-- An answer sent on the port of arrival (R444), kept for duplicates unless `keep` is false (R441). -/
def State.answerMsg (s : State) (h : SqpHdr) (type : Byte) (gen : BitVec 16) (payload : List Byte) (keep : Bool) : State :=
  let (frames, s) := s.sendMsg h.port (answerTo h type gen payload)
  if keep then s.onHport h.port (fun p => { p with recs := setRec p.recs h.seq (.sent frames) }) else s

/-- A NAK kept as the answer of a processed message. -/
def State.nak (s : State) (h : SqpHdr) (r : Reason) (detail : Nat := 0) : State :=
  s.answerMsg h 0x7F h.gen (nakPay r detail) true

/-- A NAK to a message that was not processed (R444 checks 2 to 4, R443). -/
def State.nakUnkept (s : State) (h : SqpHdr) (r : Reason) : State :=
  s.answerMsg h 0x7F h.gen (nakPay r 0) false

/-- A NAK OK that carries a generation of its own (R445: QUEUE_OPEN, WINDOW_OPEN). -/
def State.okGen (s : State) (h : SqpHdr) (gen : BitVec 16) : State :=
  s.answerMsg h 0x7F gen (nakPay .ok 0) true

/-- An answer that is still to come (R441). -/
def State.deferAnswer (s : State) (h : SqpHdr) : State :=
  s.onHport h.port (fun p => { p with recs := setRec p.recs h.seq .pending })

/-- A message whose duplicate is processed again (R441: WINDOW_READ, ATTEST_REQ). (DEDUCED, log 25) -/
def State.againAnswer (s : State) (h : SqpHdr) : State :=
  s.onHport h.port (fun p => { p with recs := setRec p.recs h.seq .again })

/-! ### Error reports -/

/-- The classes of R496. -/
inductive EClass | ce | ucm | ucu | fatal
  deriving DecidableEq, Repr

def EClass.code : EClass → Nat
  | .ce => 0 | .ucm => 1 | .ucu => 2 | .fatal => 3

/-- A log's key in the state. -/
def logKey : LogId → Nat
  | .core n => n.val
  | .region r => 32 + r.val
  | .chip => 36

/-- A log's capacity (R500). -/
def logCap : LogId → Nat
  | .core _ => 32
  | .region _ => 64
  | .chip => 256

/-- A log. -/
def State.log (s : State) (l : LogId) : ErrLog := s.logs.getD (logKey l) {}

/-- SUBJECT of an ERROR EVENT (R502). -/
def logSubject (l : LogId) (bittern : Bool) (entry : Nat) : Nat :=
  let (lv, n) := match l with
    | .core n => (1, n.val)
    | .region r => (2, r.val)
    | .chip => (3, 0)
  (if bittern then 2 ^ 18 else 0) + lv * 2 ^ 16 + n * 2 ^ 8 + entry

/-- A 16-bit count with its classes, in the layout of BITTERN_COUNT (R528). -/
def bitternWord (l : ErrLog) : Nat :=
  (if l.lost.ovf then 2 ^ 31 else 0) + l.classes.toNat * 2 ^ 16 + l.lost.n

/-- Whether a report that reaches a log finds room (R500). -/
def ErrLog.room (cap : Nat) (l : ErrLog) : Bool := l.buf.length < 4 && l.entries.length < cap

/-- A report lost into the bittern record (R501, R502): the first loss after a clear sends an ERROR EVENT, and the one that
saturates COUNT a COUNTER EVENT (R36). -/
def State.lose (s : State) (l : LogId) (r : Report) : State :=
  let g := s.log l
  let n := g.lost.inc (2 ^ 16 - 1)
  let firstLoss := g.lost.n = 0
  let g' := { g with lost := n, classes := g.classes ||| ((1 : BitVec 4) <<< (fieldOf r.w2 31 30)),
                     first := if firstLoss then r.time else g.first, last := r.time }
  let s' := { s with logs := s.logs.put (logKey l) g' }.note (.bitternCount l) (· + 1)
  let s' := if n.ovf && !g.lost.ovf then s'.event 2 (Reg.bitternCount l).addr [] else s'
  if firstLoss then
    s'.event 0xB (logSubject l true 0) (beBytes 4 (bitternWord g') ++ beBytes 4 0 ++ beBytes 8 g'.first.toNat)
  else s'

/-- A report that has met a full log remembered for its NCLK cycle, up to what the buffer holds (R500, R503). (DEDUCED, log 41) -/
def ErrLog.missed (g : ErrLog) (now : Nat) (r : Report) : ErrLog :=
  let late := if g.lateAt = now then g.late else []
  { g with late := if late.length < 4 then late ++ [r] else late, lateAt := now }

/-- A report put into a log's buffer, or lost. (DEDUCED, log 41) -/
def State.toLog (s : State) (l : LogId) (r : Report) : State :=
  let g := s.log l
  if g.room (logCap l) then { s with logs := s.logs.put (logKey l) { g with buf := g.buf ++ [r] } }
  else if g.buf.length < 4 then ({ s with logs := s.logs.put (logKey l) (g.missed s.nclk r) }).lose l r
  else s.lose l r

/-- Word W2 of an entry (R499). -/
def reportW2 (cls : EClass) (source unit info : Nat) : Word :=
  BitVec.ofNat 32 (cls.code * 2 ^ 30 + source * 2 ^ 24 + unit % 256 * 2 ^ 16 + info % 2 ^ 16)

/-- The logical core's physical core within its region (R513, R528). -/
def State.physCore (s : State) (n : Nat) : Nat :=
  ((s.regions.getD (n / 8) {}).map.getD (n % 8) (n % 8))

/-- UNIT of a report's copy in the chip log: the region and the physical core, the bank, or 0xF (R498). -/
def State.copyUnit (s : State) (l : LogId) (unit : Nat) : Nat :=
  match l with
  | .core n => n.val / 8 * 16 + s.physCore n.val
  | .region r => r.val * 16 + (if unit / 16 % 16 ≠ 15 then unit / 16 % 16 else unit % 16)
  | .chip => unit

/-- An error report (R498-R502). Reports of class UCU or FATAL, and of a spare put to use, are copied into the chip log; the
ERROR EVENT names the copy where the original is lost. -/
def State.report (s : State) (l : LogId) (cls : EClass) (source unit info detail : Nat) : State :=
  let ev : Bool := cls ≠ .ce
  let r : Report := { time := s.now, w2 := reportW2 cls source unit info, w3 := BitVec.ofNat 32 detail, event := ev }
  let kept := (s.log l).room (logCap l)
  let s1 := s.toLog l r
  let spare := source = 0x04 || source = 0x0A || source = 0x0C
  if l ≠ .chip && (cls = .ucu || cls = .fatal || spare) then
    s1.toLog .chip { r with w2 := reportW2 cls source (s.copyUnit l unit) info, event := ev && !kept }
  else s1

end Sys2Proof.Machine
end

