-- ==== Sys2Proof/Machine/Mem.lean ====
section
/-!
DEFINITION. Memory (R124-R172): the address map, persistent lines held twice (R196, R197), coalescing buffers (R132-R135),
poison (R159, R160), full/empty bits (R143), and HyperRAM pages with their CRCs (R166-R169).
-/

namespace Sys2Proof.Machine

/-! ### Cores, pans and programs -/

/-- A logical core. -/
def State.core (s : State) (n : Nat) : Core := s.cores.getD n {}

/-- A logical core changed. -/
def State.onCore (s : State) (n : Nat) (f : Core → Core) : State := { s with cores := s.cores.put n (f (s.core n)) }

/-- A pan. -/
def State.pan (s : State) (p : Nat) : Pan := s.pans.getD p {}

/-- A pan changed. -/
def State.onPan (s : State) (p : Nat) (f : Pan → Pan) : State := { s with pans := s.pans.put p (f (s.pan p)) }

/-- A context index of a pan. -/
def State.ctx (s : State) (p c : Nat) : Ctx := (s.pan p).ctxs.getD c {}

/-- A context index changed. -/
def State.onCtx (s : State) (p c : Nat) (f : Ctx → Ctx) : State :=
  s.onPan p (fun x => { x with ctxs := x.ctxs.put c (f (x.ctxs.getD c {})) })

/-- The pan map's entry of a pan (R397); none for a pan it does not form. -/
def State.panCfg (s : State) (p : Nat) : Option PanCfg :=
  match s.sec.image with
  | none => none
  | some im => SMap.get im.pans p

/-- A catalogue entry of a pan. -/
def State.catEntry (s : State) (p cat : Nat) : Option CatEntry :=
  match s.panCfg p with
  | none => none
  | some c => c.catalog[cat]?

/-- A catalogue entry as a degraded placement of its pan compiles it, if it does (R516). -/
def State.degradedEntry (s : State) (p : Nat) (i : Option Nat) (cat : Nat) : Option CatEntry :=
  match s.panCfg p, i with
  | some c, some i => (c.degraded[i]?).bind (fun d => SMap.get d.entries cat)
  | _, _ => none

/-- The catalogue entry a context index holds: that of the degraded placement it was loaded under, where that has one (R516). -/
def State.ctxCat (s : State) (p c : Nat) : CatEntry :=
  match s.degradedEntry p (s.ctx p c).degraded (s.ctx p c).cat with
  | some e => e
  | none => (s.catEntry p (s.ctx p c).cat).getD {}

/-- The step program of a rank of a context. -/
def State.prog (s : State) (p c rank : Nat) : Option StepProg := (s.ctxCat p c).progs[rank]?

/-- The header of the program a core runs (R196: the receiving core's header). -/
def State.header (s : State) (n : Nat) : Option StepProg :=
  match (s.core n).run with
  | none => none
  | some (p, c) => s.prog p c (s.core n).rank

/-- Whether an offset of a scratchpad lies in a program's slots (R174). -/
def StepProg.inSlots (h : StepProg) (ofs : Nat) : Bool :=
  h.slotBase % 0x400000 ≤ ofs && ofs < h.slotBase % 0x400000 + h.slots * h.slotSize

/-- The header whose slots an offset of a core's scratchpad lies in: where ranks take turns on the core, that of the rank whose slots they are
(R516), and otherwise that of the program it runs. -/
def State.headerAt (s : State) (n ofs : Nat) : Option StepProg :=
  match (s.core n).run, (s.core n).turns with
  | some (p, c), t :: r =>
    (((t :: r).filterMap (fun x => s.prog p c x.rank)).find? (fun h => h.inSlots ofs)).or (s.header n)
  | _, _ => s.header n

/-- The header under which a resolved address is a line of a slot, if it lies in a scratchpad. -/
def State.headerFor (s : State) (a : Nat) : Option StepProg :=
  if a < 0x08000000 then s.headerAt (a / 0x400000) (a % 0x400000) else none

/-! ### The address map -/

/-- Whether a HyperBus channel's data can be reached (R169: a mirror pair by either). -/
def State.chanUp (s : State) (c : Nat) : Bool :=
  (s.hbus.getD c {}).ready || (s.rwField (.hbusCfg c) 12 12 = 1 && (s.hbus.getD (c ^^^ 8) {}).ready)

/-- Data capacity of a channel in bytes (R165). -/
def State.chanBytes (s : State) (c : Nat) : Nat := 8 * 1024 * 1023 * 2 ^ s.rwField (.hbusCfg c) 5 4

/-- The ranges of R124, by row; none outside every range. -/
def rangeOf (a : Nat) : Option Nat :=
  if a < 0x08000000 then some 0
  else if a < 0x0A000000 then some 1
  else if a < 0x0C000000 then none
  else if a < 0x0C400000 then some 2
  else if a < 0x10000000 then none
  else if a < 0x18000000 then some 3
  else if a < 0x40000000 then none
  else if a < 0x80000000 then some 4
  else none

/-- A memory address with the aliases of the executing core and of pan ranks resolved (R124); none where no memory is. -/
def State.resolve (s : State) (core : Option Nat) (a : Nat) : Option Nat :=
  match rangeOf a, core with
  | some 0, _ => some a
  | some 1, _ => if a % 0x800000 < 0x600000 then some a else none
  | some 2, some n => some (n * 0x400000 + a % 0x400000)
  | some 3, some n =>
    match (s.core n).run with
    | none => none
    | some (p, c) => ((s.ctx p c).ranks[(a - 0x10000000) / 0x400000]?).map (fun k => k * 0x400000 + a % 0x400000)
  | some 4, _ =>
    let c := (a - 0x40000000) / 0x4000000
    if s.chanUp c && a % 0x4000000 < s.chanBytes c then some a else none
  | _, _ => none

/-- The channel and the page of a HyperRAM address (R124); none where no memory is. -/
def State.pageAt (s : State) (a : Nat) : Option (Nat × Nat) :=
  if a < 0x40000000 then none else (s.resolve none a).map (fun a => ((a - 0x40000000) / 0x4000000, a % 0x4000000 / 4096))

/-- The scratchpad a resolved address lies in. -/
def coreOf (a : Nat) : Option Nat := if a < 0x08000000 then some (a / 0x400000) else none

/-- The region whose ring serves a resolved address: a core's or a region memory's. -/
def regionOf (a : Nat) : Option Nat :=
  if a < 0x08000000 then some (a / 0x400000 / 8)
  else if a < 0x0A000000 then some ((a - 0x08000000) / 0x800000)
  else none

/-! ### Persistent lines -/

/-- Slot and persistent offset of a scratchpad offset (R197); `shadow` true asks for the slot's shadow area (R196). -/
def StepProg.persOf (h : StepProg) (shadow : Bool) (ofs : Nat) : Option (Nat × Nat) :=
  let base := h.slotBase % 0x400000
  if ofs < base ∨ h.slotSize = 0 then none
  else
    let k := (ofs - base) / h.slotSize
    let lo := h.persOfs + (if shadow then h.persLen else 0)
    let j := (ofs - base) % h.slotSize
    if k < h.slots ∧ lo ≤ j ∧ j < lo + h.persLen then some (k, j - lo) else none

/-- Where the committed and the shadow copy of a persistent byte stand (R196). -/
def State.copies (s : State) (h : StepProg) (a : Nat) : Nat × Nat :=
  if s.sel.has (a / 64) then (a + h.persLen, a) else (a, a + h.persLen)

/-- The byte a read of a program reaches (R196): the shadow copy of a dirty line, the committed copy of any other. -/
def State.readPhys (s : State) (h : Option StepProg) (a : Nat) : Nat :=
  match h with
  | none => a
  | some h =>
    match h.persOf false (a % 0x400000) with
    | none => a
    | some _ => if s.dirty.has (a / 64) then (s.copies h a).2 else (s.copies h a).1

/-- The committed byte of a resolved address (R202). -/
def State.committedPhys (s : State) (h : Option StepProg) (a : Nat) : Nat :=
  match h with
  | none => a
  | some h =>
    match h.persOf false (a % 0x400000) with
    | none => a
    | some _ => (s.copies h a).1

/-! ### Bytes, buffers and poison -/

/-- The buffer entry that holds a line. -/
def bufFind (line : Nat) : List BufEntry → Option BufEntry
  | [] => none
  | e :: r => if e.line = line then some e else bufFind line r

/-- The entry of a core's buffers that holds a byte's line. -/
def State.bufOf (s : State) (a : Nat) : Option BufEntry :=
  match coreOf a with
  | none => none
  | some n => bufFind (a / 64 * 64) (s.core n).buf

/-- The byte at a physical address, from the coalescing buffer where it is held there (R134). -/
def State.peek (s : State) (a : Nat) : Byte :=
  let m := s.mem.read 0 a
  match s.bufOf a with
  | none => m
  | some e => SMap.getD e.data (a % 64) (e.fill.getD (a % 64) m)

/-- Whether the byte at a physical address reads as poisoned (R159, R160): from its coalescing buffer where it is held there (R134), and
from its bank otherwise. -/
def State.badAt (s : State) (a : Nat) : Bool :=
  match s.bufOf a with
  | none => s.poison.has (a / 8)
  | some e =>
    e.bad.has (a % 64 / 8) ||
      (if (SMap.get e.data (a % 64)).isSome then false
       else if e.fill.isEmpty then s.poison.has (a / 8)
       else e.fillBad.has (a % 64 / 8))

/-- Bytes written to physical addresses past the buffers. A poisoned result poisons its words; a good write of a whole
64-bit word clears its poison, and a partial one leaves it (R160). -/
def State.poke (s : State) (a : Nat) (bs : List Byte) (bad : Bool) : State :=
  let n := bs.length
  let words := (List.range (n / 8 + 2)).map (fun i => a / 8 + i)
  let touched := words.filter (fun w => w * 8 < a + n && a < w * 8 + 8)
  let whole := words.filter (fun w => a ≤ w * 8 && w * 8 + 8 ≤ a + n)
  let p := if bad then touched.foldl NSet.ins s.poison else whole.foldl NSet.del s.poison
  { s with mem := Bytes.writeN 0 s.mem a bs, poison := p }

/-- Runs of a buffer entry's bytes written back one word at a time (R135). -/
def State.flushWord (s : State) (e : BufEntry) (w : Nat) : State :=
  let held := ([0, 1, 2, 3, 4, 5, 6, 7] : List Nat).filterMap (fun i => (SMap.get e.data (w * 8 + i)).map (fun b => (i, b)))
  let bad := e.bad.has w
  if held.length = 8 then s.poke (e.line + w * 8) (held.map Prod.snd) bad
  else held.foldl (fun s x => s.poke (e.line + w * 8 + x.1) [x.2] bad) s

/-- A buffer entry flushed to its bank (R133, R135). (DEDUCED, log 36) -/
def State.flushEntry (s : State) (n : Nat) (e : BufEntry) : State :=
  let s := s.onCore n (fun c => { c with buf := c.buf.filter (fun x => x.line ≠ e.line) })
  ([0, 1, 2, 3, 4, 5, 6, 7] : List Nat).foldl (fun s w => s.flushWord e w) s

/-- The entry of a line flushed, if a buffer holds one (R133). (DEDUCED, log 36) -/
def State.flushLine (s : State) (line : Nat) : State :=
  match coreOf line, s.bufOf line with
  | some n, some e => s.flushEntry n e
  | _, _ => s

/-- Every entry of a core flushed (R133: FBAR, COMMIT, the end of the step). -/
def State.flushCore (s : State) (n : Nat) : State := (s.core n).buf.foldl (fun s e => s.flushEntry n e) s

/-- The cell a scratchpad line lies in (R125). -/
def cellOf (line : Nat) : Nat := line % 0x400000 / 0x40000

/-- Room made for a line in a core's coalescing buffers (R133): the ninth line of a cell flushes its oldest entry first. (DEDUCED, log 36) -/
def State.bufRoom (s : State) (n line : Nat) : State :=
  match bufFind line (s.core n).buf, (s.core n).buf.filter (fun e => cellOf e.line = cellOf line) with
  | none, o :: r => if r.length ≥ 7 then s.flushEntry n o else s
  | _, _ => s

/-- An entry put among a core's, in the place of the one of its line; a new one is the youngest. -/
def putEntry (e : BufEntry) : List BufEntry → List BufEntry
  | [] => [e]
  | x :: r => if x.line = e.line then e :: r else x :: putEntry e r

/-- Bytes of one line put into a core's coalescing buffer (R132, R133): a complete line is flushed. (DEDUCED, log 36) -/
def State.bufPut (s : State) (n a : Nat) (bs : List Byte) (bad : Bool) : State :=
  let line := a / 64 * 64
  let s := s.bufRoom n line
  let e := (bufFind line (s.core n).buf).getD { line := line, since := s.nclk }
  let data := ((List.range bs.length).zip bs).foldl (fun m x => SMap.put m (a % 64 + x.1) x.2) e.data
  let words := (List.range 8).filter (fun w => w * 8 < a % 64 + bs.length && a % 64 < w * 8 + 8)
  let whole := words.filter (fun w => a % 64 ≤ w * 8 && w * 8 + 8 ≤ a % 64 + bs.length)
  let e' := { e with data := data, bad := if bad then words.foldl NSet.ins e.bad else whole.foldl NSet.del e.bad }
  let s := s.onCore n (fun c => { c with buf := putEntry e' c.buf })
  if data.length = 64 then s.flushEntry n e' else s

/-- A narrow read of bytes of one line of its core's scratchpad (R132, R134): served where the entry holds them all, and otherwise by a read
of the line's bank, which fills the entry. (DEDUCED, log 36) -/
def State.bufRead (s : State) (n a len : Nat) : State :=
  let line := a / 64 * 64
  let s := s.bufRoom n line
  let e := (bufFind line (s.core n).buf).getD { line := line, since := s.nclk }
  if !e.fill.isEmpty || (List.range len).all (fun i => (SMap.get e.data (a % 64 + i)).isSome) then s
  else
    s.onCore n (fun c => { c with buf := putEntry { e with
      fill := Bytes.readN 0 s.mem line 64, fillBad := (List.range 8).filter (fun w => s.poison.has (line / 8 + w)) } c.buf })

/-- A range cut at line boundaries: address and length of each piece; `n` bounds their number. -/
def linePieces : Nat → Nat → Nat → List (Nat × Nat)
  | 0, _, _ => []
  | n + 1, a, len =>
    if len = 0 then [] else
      let k := min len (64 - a % 64)
      (a, k) :: linePieces n (a + k) (len - k)

/-- Bytes written at physical addresses past buffers and selectors. -/
def State.place (s : State) (a : Nat) (bs : List Byte) (bad : Bool) : State :=
  (linePieces bs.length a bs.length).foldl (fun s p => (s.flushLine p.1).poke p.1 ((bs.drop (p.1 - a)).take p.2) bad) s

/-- A persistent line's shadow copy made ready to be written: the committed line is copied and the line marked dirty (R196). -/
def State.makeDirty (s : State) (h : StepProg) (a : Nat) : State :=
  let l := a / 64 * 64
  if s.dirty.has (a / 64) then s
  else
    let (c, d) := s.copies h l
    let s := s.flushLine c
    let s := (List.range 8).foldl (fun s i =>
      s.poke (d + 8 * i) ((List.range 8).map (fun k => s.peek (c + 8 * i + k))) (s.badAt (c + 8 * i))) s
    { s with dirty := s.dirty.ins (a / 64) }

/-- A piece of one line written by an operation: to the shadow copy of a persistent line (R196), through the buffer where a
narrow unit writes its own core's scratchpad, and past it otherwise (R132, R133). -/
def State.storePiece (s : State) (core : Nat) (narrow : Bool) (a : Nat) (bs : List Byte) (bad : Bool) : State :=
  let h := s.headerFor a
  let (s, pa) := match h with
    | none => (s, a)
    | some h =>
      match h.persOf false (a % 0x400000) with
      | none => (s, a)
      | some _ => let s := s.makeDirty h a; (s, (s.copies h a).2)
  if narrow && coreOf a = some core then s.bufPut core pa bs bad else (s.flushLine pa).poke pa bs bad

/-- Bytes written by an operation of a core at a resolved address. -/
def State.store (s : State) (core : Nat) (narrow : Bool) (a : Nat) (bs : List Byte) (bad : Bool) : State :=
  (linePieces bs.length a bs.length).foldl
    (fun s p => s.storePiece core narrow p.1 ((bs.drop (p.1 - a)).take p.2) bad) s

/-- What reading a piece of one line does to the buffers (R133, R134): a narrow unit reads its own core's scratchpad through its buffer; any
other access is granted once the line's pending entry is flushed. (DEDUCED, log 36) -/
def State.readPiece (s : State) (core : Nat) (narrow : Bool) (p : Nat × Nat) : State :=
  let a := s.readPhys (s.headerFor p.1) p.1
  if narrow && coreOf p.1 = some core then s.bufRead core a p.2 else s.flushLine (a / 64 * 64)

/-- Bytes a program reads at a resolved address, and whether any word of them is poisoned. -/
def State.loadAt (s : State) (a n : Nat) : List Byte × Bool :=
  let h := s.headerFor a
  let ps := (List.range n).map (fun i => s.readPhys h (a + i))
  (ps.map s.peek, ps.any s.badAt)

/-- Committed bytes at a resolved address under a program header (R202), and whether any is poisoned. -/
def State.loadCommitted (s : State) (h : Option StepProg) (a n : Nat) : List Byte × Bool :=
  let ps := (List.range n).map (fun i => s.committedPhys h (a + i))
  (ps.map s.peek, ps.any s.badAt)

/-! ### Full/empty bits -/

/-- Whether the line of a resolved address is full (R143). -/
def State.isFull (s : State) (a : Nat) : Bool := s.full.has (a / 64)

/-- A line marked (R144). -/
def State.mark (s : State) (a : Nat) (isFull : Bool) : State :=
  { s with full := if isFull then s.full.ins (a / 64) else s.full.del (a / 64) }

/-! ### HyperRAM pages -/

/-- A channel. -/
def State.chan (s : State) (c : Nat) : Hbus := s.hbus.getD c {}

/-- A channel changed. -/
def State.onChan (s : State) (c : Nat) (f : Hbus → Hbus) : State := { s with hbus := s.hbus.put c (f (s.chan c)) }

/-- Whether a channel is one of a mirror pair (R169). (DEDUCED, log 56) -/
def State.mirrored (s : State) (c : Nat) : Bool := s.rwField (.hbusCfg c) 12 12 = 1

/-- The ready channels that hold a page of channel `c`, the lower-numbered of a mirror pair first (R169). -/
def State.pageChans (s : State) (c : Nat) : List Nat :=
  if s.mirrored c then [min c (c ^^^ 8), max c (c ^^^ 8)].filter (fun k => (s.chan k).ready) else [c].filter (fun k => (s.chan k).ready)

/-- The address of a channel's page. -/
def pageAddr (c page : Nat) : Nat := 0x40000000 + c * 0x4000000 + page * 4096

/-- A channel's cached check line ready for a page's CRC (R167): the line of another 16-page group is written back to the check area
first. -/
def State.cacheLine (s : State) (c page : Nat) : State :=
  let h := s.chan c
  if h.line = some (page / 16) then s
  else
    ({ s with pageCrc := h.check.foldl (fun (m : SMap Word) (x : Nat × Word) => m.put (c * 65536 + x.1) x.2) s.pageCrc }).onChan c
      (fun h => { h with line := some (page / 16), check := [] })

/-- One copy of a page written with its CRC-32C, which goes into the cached check line (R167). A poisoned source stores poison. (DEDUCED, log 56) -/
def State.putPage (s : State) (c page : Nat) (bs : List Byte) (bad : Bool) : State :=
  ((s.poke (pageAddr c page) bs bad).cacheLine c page).onChan c (fun h => { h with check := h.check.put page (crc32c bs) })

/-- The CRC-32C that a channel holds of a page: in its cached check line, or in its check area (R165, R167). (DESIGN CHOICE, log 3) -/
def State.crcOf (s : State) (c page : Nat) : Word := (s.chan c).check.getD page (s.pageCrc.getD (c * 65536 + page) 0)

/-- A page written to its channel and, in a mirror pair, to its partner (R167, R169). -/
def State.writePage (s : State) (c page : Nat) (bs : List Byte) (bad : Bool) : State :=
  (s.pageChans c).foldl (fun s k => s.putPage k page bs bad) s

/-- Whether a copy of a page reads with a correct CRC and no poison (R168). (DESIGN CHOICE, log 3) -/
def State.pageGood (s : State) (c page : Nat) : Bool :=
  let bs := (List.range 4096).map (fun i => s.mem.read 0 (pageAddr c page + i))
  s.crcOf c page = crc32c bs
    && !(s.poison.any (fun w => pageAddr c page / 8 ≤ w && w < pageAddr c page / 8 + 512))

/-- A page read: its bytes, and whether they are delivered as poisoned (R168, R169). (DEDUCED, log 56) -/
def State.readPage (s : State) (c page : Nat) : List Byte × Bool :=
  let order := s.pageChans c
  let good := order.filter (fun k => s.pageGood k page)
  let k := match good, order with
    | g :: _, _ => g
    | [], o :: _ => o
    | [], [] => c
  ((List.range 4096).map (fun i => s.mem.read 0 (pageAddr k page + i)), good = [])

end Sys2Proof.Machine
end

