-- ==== Sys2Proof/Machine/Arith.lean ====
section
/-!
DEFINITION. The arithmetic of the vector unit (R102-R112), of compensated pairs and of the divide/square-root
unit (R113-R117), on exact values: every operation gives its exact or correctly sticky result, which `encode`
rounds into the destination's format.
-/

namespace Sys2Proof.Machine

/-- NV of an operation's signalling operands (R104). -/
def nvOf (vs : List Val) : Fl := { nv := vs.any Val.isSNan }

/-- The first NaN of the operands, quieted (R104). -/
def firstNan : List Val → Option Val
  | [] => none
  | v :: r => if v.isNan then some v.quiet else firstNan r

/-- Sign change. -/
def Val.negate : Val → Val
  | .fin n m e => .fin (!n) m e
  | .inf n => .inf (!n)
  | .nan n s p => .nan (!n) s p

/-- Magnitude. -/
def Val.absv : Val → Val
  | .fin _ m e => .fin false m e
  | .inf _ => .inf false
  | .nan _ s p => .nan false s p

/-- The signed integer of a finite value at unit 2^q, q not above its exponent. -/
def alignInt (neg : Bool) (m : Nat) (e q : Int) : Int :=
  let k : Int := (m <<< (e - q).toNat : Nat)
  if neg then -k else k

/-- The exact sum of two finite values; an exact zero of unlike signs takes `zneg` (IEEE 754-2019). -/
def addFin (zneg : Bool) (n1 : Bool) (m1 : Nat) (e1 : Int) (n2 : Bool) (m2 : Nat) (e2 : Int) : Val :=
  let q := min e1 e2
  let k := alignInt n1 m1 e1 q + alignInt n2 m2 e2 q
  if k = 0 then .fin (if n1 = n2 then n1 else zneg) 0 q else .fin (k < 0) k.natAbs q

/-- a + b, exact (R103, R104). -/
def addV (rm : RM) (a b : Val) : Val × Fl :=
  match firstNan [a, b] with
  | some v => (v, nvOf [a, b])
  | none =>
    match a, b with
    | .inf n1, .inf n2 => if n1 = n2 then (a, {}) else (Val.dnan, { nv := true })
    | .inf _, _ => (a, {})
    | _, .inf _ => (b, {})
    | .fin n1 m1 e1, .fin n2 m2 e2 => (addFin (rm = .rtn) n1 m1 e1 n2 m2 e2, {})
    | _, _ => (Val.dnan, {})

/-- a × b, exact. -/
def mulV (a b : Val) : Val × Fl :=
  match firstNan [a, b] with
  | some v => (v, nvOf [a, b])
  | none =>
    match a, b with
    | .fin n1 m1 e1, .fin n2 m2 e2 => (.fin (n1 != n2) (m1 * m2) (e1 + e2), {})
    | x, y =>
      if x.isZero || y.isZero then (Val.dnan, { nv := true }) else (.inf (x.neg != y.neg), {})

/-- a × b + c, exact (R105: 0 × ∞ + quiet NaN is the NaN without NV). -/
def fmaV (rm : RM) (a b c : Val) : Val × Fl :=
  match firstNan [a, b, c] with
  | some v => (v, nvOf [a, b, c])
  | none =>
    let (p, f) := mulV a b
    if f.nv then (Val.dnan, f) else addV rm p c

/-- a < b for values that are no NaN; −0 equals +0. -/
def ltV (a b : Val) : Bool :=
  match a, b with
  | .inf n1, .inf n2 => n1 && !n2
  | .inf n, _ => n
  | _, .inf n => !n
  | .fin n1 m1 e1, .fin n2 m2 e2 =>
    let q := min e1 e2
    alignInt n1 m1 e1 q < alignInt n2 m2 e2 q
  | _, _ => false

/-- Equality for values that are no NaN. -/
def eqV (a b : Val) : Bool := !a.isNan && !b.isNan && !ltV a b && !ltV b a

/-- a below b with −0 below +0 (R106). -/
def belowV (a b : Val) : Bool := ltV a b || (a.isZero && b.isZero && a.neg && !b.neg)

/-- maximumNumber or minimumNumber of IEEE 754-2019 (R106). (DEDUCED, log 58) -/
def maxMinV (isMax : Bool) (a b : Val) : Val × Fl :=
  let f := nvOf [a, b]
  if a.isNan && b.isNan then (a.quiet, f)
  else if a.isNan then (b, f)
  else if b.isNan then (a, f)
  else if (if isMax then belowV a b else belowV b a) then (b, f) else (a, f)

/-- The relation of TEST (R188): false for a NaN operand, but relation 3. -/
def relV (rel : Nat) (a b : Val) : Bool :=
  if a.isNan || b.isNan then rel = 3
  else match rel with
    | 0 => ltV a b
    | 1 => !ltV b a
    | 2 => eqV a b
    | 3 => !eqV a b
    | 4 => !ltV a b
    | _ => ltV b a

/-- Truncating signed division of w-bit integers: quotient, remainder, flags (R108). (DEDUCED, log 58) -/
def idivS (w : Nat) (a b : Int) : Int × Int × Fl :=
  let lo : Int := -(2 ^ (w - 1))
  if b = 0 then (if a ≥ 0 then 2 ^ (w - 1) - 1 else lo, a, { dz := true })
  else if a = lo ∧ b = -1 then (a, 0, { ovf := true })
  else (Int.tdiv a b, Int.tmod a b, {})

/-- Unsigned division of w-bit integers (R108). (DEDUCED, log 58) -/
def idivU (w : Nat) (a b : Nat) : Nat × Nat × Fl :=
  if b = 0 then (2 ^ w - 1, a, { dz := true }) else (a / b, a % b, {})

/-- Leading zeros of a magnitude in w bits; lz(0) is w (R109). -/
def leadZeros (w n : Nat) : Nat := if n = 0 then w else w - 1 - Nat.log2 n

/-- The cycles of a lane's integer division in open mode (R109); `w` is 32 or 64. -/
def idivCycles (w a b : Nat) : Nat :=
  if b = 0 then 6
  else
    let d : Int := (leadZeros w b : Int) - leadZeros w a + 1
    (max 6 (min 38 (6 + (d + 1) / 2))).toNat

/-- A value rounded into FP64 or FP32 and read back. -/
def rnd (f : Fmt) (rm : RM) (v : Val) : Val × Fl :=
  let (n, fl) := Machine.encode f 0 false rm v
  (Machine.decode f 0 n, fl)

/-- The rounded sum of a format. -/
def addR (f : Fmt) (rm : RM) (a b : Val) : Val × Fl :=
  let (v, f1) := addV rm a b
  let (r, f2) := rnd f rm v
  (r, f1.or f2)

/-- The rounded product of a format. -/
def mulR (f : Fmt) (rm : RM) (a b : Val) : Val × Fl :=
  let (v, f1) := mulV a b
  let (r, f2) := rnd f rm v
  (r, f1.or f2)

/-- The rounded fused multiply-add of a format. -/
def fmaR (f : Fmt) (rm : RM) (a b c : Val) : Val × Fl :=
  let (v, f1) := fmaV rm a b c
  let (r, f2) := rnd f rm v
  (r, f1.or f2)

/-- The pair of a rounded result r of an exact value v: r and v − r rounded. The pair itself is exact, so the
inexactness of r alone sets no NX (R111). -/
def pairOf (f : Fmt) (v : Val) (fv : Fl) : Val × Val × Fl :=
  let (r, fr) := rnd f .rte v
  let (d, fd) := addV .rte v r.negate
  let (e, fe) := rnd f .rte d
  (r, e, { nv := fv.nv || fr.nv || fd.nv || fe.nv, ovf := fr.ovf, nx := fr.ovf || fe.nx,
           unf := fe.unf })

/-- TWOSUM (R111). -/
def twoSum (f : Fmt) (a b : Val) : Val × Val × Fl :=
  let (v, fv) := addV .rte a b
  pairOf f v fv

/-- TWOPROD (R111). -/
def twoProd (f : Fmt) (a b : Val) : Val × Val × Fl :=
  let (v, fv) := mulV a b
  pairOf f v fv

/-- fast_twosum of R112. -/
def fastTwoSum (x y : Val) : Val × Val × Fl :=
  let (s, f1) := addR .fp64 .rte x y
  let (d, f2) := addR .fp64 .rte s x.negate
  let (e, f3) := addR .fp64 .rte y d.negate
  (s, e, (f1.or f2).or f3)

/-- The end of a pair operation: where rh is infinite or NaN, rl is +0 (R112). -/
def pairFix (r : Val × Val × Fl) : Val × Val × Fl :=
  if r.1.isInf || r.1.isNan then (r.1, .zero, r.2.2) else r

/-- PADD (R112). For a high sum that is infinite or NaN, rh follows R104 on the high parts. (DESIGN CHOICE, log 68) -/
def pAdd (ah al bh bl : Val) : Val × Val × Fl :=
  let (h, fh) := addR .fp64 .rte ah bh
  if h.isInf || h.isNan then (h, .zero, fh) else
  let (s, e, f1) := twoSum .fp64 ah bh
  let (t, f, f2) := twoSum .fp64 al bl
  let (e, f3) := addR .fp64 .rte e t
  let (s, e, f4) := fastTwoSum s e
  let (e, f5) := addR .fp64 .rte e f
  let (rh, rl, f6) := fastTwoSum s e
  pairFix (rh, rl, Fl.orAll [f1, f2, f3, f4, f5, f6])

/-- PMUL (R112). (DESIGN CHOICE, log 68) -/
def pMul (ah al bh bl : Val) : Val × Val × Fl :=
  let (h, fh) := mulR .fp64 .rte ah bh
  if h.isInf || h.isNan then (h, .zero, fh) else
  let (p, e, f1) := twoProd .fp64 ah bh
  let (e, f2) := fmaR .fp64 .rte ah bl e
  let (e, f3) := fmaR .fp64 .rte al bh e
  let (rh, rl, f4) := fastTwoSum p e
  pairFix (rh, rl, Fl.orAll [f1, f2, f3, f4])

/-- Integer square root by trial of bits from 2^(k−1) down. -/
def isqrtBits : Nat → Nat → Nat → Nat
  | 0, _, r => r
  | k + 1, n, r => let c := r + 2 ^ k; isqrtBits k n (if c * c ≤ n then c else r)

/-- ⌊√n⌋. -/
def isqrt (n : Nat) : Nat := isqrtBits (Nat.log2 n / 2 + 1) n 0

/-- A magnitude whose discarded tail is non-zero keeps a sticky bit, so that one rounding is correct. -/
def withSticky (m : Nat) (e : Int) (exact : Bool) : Nat × Int :=
  (2 * m + (if exact then 0 else 1), e - 1)

/-- The quotient of two non-zero magnitudes with more bits than any format keeps, and a sticky bit. -/
def divMag (m1 : Nat) (e1 : Int) (m2 : Nat) (e2 : Int) : Nat × Int :=
  let s1 : Int := 130 + Nat.log2 m2 - Nat.log2 m1
  let s2 : Int := 80 + e1 - e2
  let s := (max 0 (max s1 s2)).toNat
  let n := m1 <<< s
  withSticky (n / m2) (e1 - e2 - s) (n % m2 = 0)

/-- a ÷ b by the special cases of R116, and its exact quotient with sticky bit otherwise. -/
def divV (a b : Val) : Val × Fl :=
  match firstNan [a, b] with
  | some v => (v, nvOf [a, b])
  | none =>
    let n := a.neg != b.neg
    match a, b with
    | .inf _, .inf _ => (Val.dnan, { nv := true })
    | .inf _, _ => (.inf n, {})
    | _, .inf _ => (.fin n 0 0, {})
    | .fin _ 0 _, .fin _ 0 _ => (Val.dnan, { nv := true })
    | _, .fin _ 0 _ => (.inf n, { dz := true })
    | .fin _ 0 _, _ => (.fin n 0 0, {})
    | .fin _ m1 e1, .fin _ m2 e2 => let (m, e) := divMag m1 e1 m2 e2; (.fin n m e, {})
    | _, _ => (Val.dnan, {})

/-- A magnitude written with an even exponent. -/
def evenExp (m : Nat) (e : Int) : Nat × Int := if e % 2 = 0 then (m, e) else (2 * m, e - 1)

/-- √ of a non-zero magnitude with a sticky bit. -/
def sqrtMag (m : Nat) (e : Int) : Nat × Int :=
  let (m, e) := evenExp m e
  let t := 140
  let n := m <<< (2 * t)
  let r := isqrt n
  withSticky r (e / 2 - t) (r * r = n)

/-- 1 ÷ √ of a non-zero magnitude with a sticky bit. -/
def rsqrtMag (m : Nat) (e : Int) : Nat × Int :=
  let (m, e) := evenExp m e
  let t := 140 + Nat.log2 m
  let r := isqrt (2 ^ (2 * t) / m)
  withSticky r (-(e / 2) - t) (r * r * m = 2 ^ (2 * t))

/-- √a (R116). -/
def sqrtV (a : Val) : Val × Fl :=
  match a with
  | .nan .. => (a.quiet, nvOf [a])
  | .fin n 0 e => (.fin n 0 e, {})
  | .fin true _ _ | .inf true => (Val.dnan, { nv := true })
  | .inf false => (a, {})
  | .fin false m e => let (r, x) := sqrtMag m e; (.fin false r x, {})

/-- 1 ÷ √a (R116). -/
def rsqrtV (a : Val) : Val × Fl :=
  match a with
  | .nan .. => (a.quiet, nvOf [a])
  | .fin n 0 _ => (.inf n, { dz := true })
  | .fin true _ _ | .inf true => (Val.dnan, { nv := true })
  | .inf false => (.fin false 0 0, {})
  | .fin false m e => let (r, x) := rsqrtMag m e; (.fin false r x, {})

/-- The DSU operations (R113). -/
inductive DsuOp | div | sqrt | recip | rsqrt
  deriving DecidableEq, Repr

/-- The most positive (or most negative) value of a fixed-point format (R117). -/
def Fmt.fixEnd (f : Fmt) (neg : Bool) : Nat :=
  if neg then 2 ^ (f.bits - 1) else 2 ^ (f.bits - 1) - 1

/-- A DSU result in its output format (R116, R117): bits and flags. (DEDUCED, log 58) -/
def dsu (op : DsuOp) (rm : RM) (d : FSpec) (a b : Val) : Nat × Fl :=
  let one : Val := .fin false 1 0
  let num := if op = .div then a else one
  let den := if op = .div then b else a
  if d.fmt.isFixed && (op = .div || op = .recip) && den.isZero then
    (d.fmt.fixEnd (num.neg && !num.isZero), { dz := true })
  else if d.fmt.isFixed && (op = .sqrt || op = .rsqrt) && a.neg && !a.isZero && !a.isNan then
    (0, { nv := true })
  else if d.fmt.isFixed && op = .rsqrt && a.isZero then (d.fmt.fixEnd false, { dz := true })
  else
    let (v, f1) := match op with
      | .div => divV a b
      | .sqrt => sqrtV a
      | .recip => divV one a
      | .rsqrt => rsqrtV a
    let (n, f2) := d.encode rm v
    (n, f1.or f2)

end Sys2Proof.Machine
end

