-- ==== Sys2Proof/Machine/Tensor.lean ====
section
/-!
DEFINITION. The tensor array's dot-product pipeline (R86-R99): exact products, groups of 16 in an aligned window,
truncating FP32 accumulation in fixed trees, the 80-bit integer path, and the one rounding at write-back.
-/

namespace Sys2Proof.Machine

/-- One level of a fixed tree: entries 2i and 2i + 1 are combined, an unpaired last entry passes up (R94, R190). -/
def treeLevel {α : Type} (f : α → α → α) : List α → List α
  | a :: b :: r => f a b :: treeLevel f r
  | l => l

/-- A fixed binary tree by index (R94, R190); `n` bounds the levels. -/
def treeN {α : Type} (f : α → α → α) : Nat → List α → List α
  | 0, l => l
  | n + 1, l => if l.length ≤ 1 then l else treeN f n (treeLevel f l)

/-- The result of a tree over a list; none for an empty one. -/
def treeOf {α : Type} (f : α → α → α) (l : List α) : Option α := (treeN f l.length l).head?

/-- A list cut into pieces of k, in order. -/
def chunk {α : Type} (k : Nat) : Nat → List α → List (List α)
  | 0, _ => []
  | n + 1, l => if l.isEmpty then [] else l.take k :: chunk k n (l.drop k)

/-- The dot-product mode of DPMODE (R90): the bits of the window below its top bit. -/
def dpWindow (dpmode : Nat) : Option Nat :=
  if dpmode = 0 then some 63
  else if dpmode ≥ 18 ∧ dpmode < 32 then some (23 + (dpmode - 16 + 1))
  else none

/-- A magnitude truncated into FP32 (R93): the value and TA_OF, TA_UF. -/
def truncF32 (neg : Bool) (m : Nat) (e : Int) : Val × Fl :=
  if m = 0 then (.fin neg 0 0, {}) else
  let q := max (log2Of m e) (-126) - 23
  let (n, inx) := roundAt .rtz neg m e q
  if q + 23 ≥ 128 then (.fin neg (2 ^ 24 - 1) 104, { ovf := true })
  else (.fin neg n q, { unf := inx && n < 2 ^ 23 })

/-- The sum of finite values at a common unit, truncated to that unit (R89, R91). (DEDUCED, log 58) -/
def alignSum (q : Int) : List Val → Int
  | [] => 0
  | .fin neg m e :: r =>
    let (n, _) := roundAt .rtz neg m e q
    (if neg then -(n : Int) else n) + alignSum q r
  | _ :: r => alignSum q r

/-- Special values in a sum (R96): the default NaN with TA_NV, or an infinity. -/
def specialSum (vs : List Val) : Option (Val × Fl) :=
  if vs.any Val.isNan then some (Val.dnan, { nv := true })
  else
    match vs.any (fun v => v.isInf && !v.neg), vs.any (fun v => v.isInf && v.neg) with
    | true, true => some (Val.dnan, { nv := true })
    | true, false => some (.inf false, {})
    | false, true => some (.inf true, {})
    | false, false => none

/-- A group sum in FP32 (R88-R93, R95): `w` is the number of window bits below 2^E_g. A short group is padded with +0. (DEDUCED, log 58) -/
def groupSum (w : Nat) (ps : List Val) : Val × Fl :=
  match specialSum ps with
  | some r => r
  | none =>
    match topLog ps with
    | none => (.fin (ps.length = 16 && ps.all Val.neg) 0 0, {})
    | some eg =>
      let q := eg - w
      let k := alignSum q ps
      if k = 0 then (Val.zero, {}) else truncF32 (k < 0) k.natAbs q

/-- An FP32 addition rounded toward zero (R94, R95, R96). (DEDUCED, log 58) -/
def addRtz (a b : Val × Fl) : Val × Fl :=
  let f := a.2.or b.2
  match specialSum [a.1, b.1] with
  | some (v, g) => (v, f.or g)
  | none =>
    match a.1, b.1 with
    | .fin n1 m1 e1, .fin n2 m2 e2 =>
      match addFin false n1 m1 e1 n2 m2 e2 with
      | .fin n m e => let (v, g) := truncF32 n m e; (v, f.or g)
      | v => (v, f)
    | _, _ => (Val.dnan, f)

/-- One core's part of an output element on the floating path: groups of 16, then the tree (R94 stage 1). -/
def dotF (w : Nat) (a b : List Val) : Val × Fl :=
  let ps := List.zipWith (fun x y => (mulV x y).1) a b
  let gs := (chunk 16 ps.length ps).map (groupSum w)
  (treeOf addRtz gs).getD (Val.zero, {})

/-- A saturating addition of the 80-bit accumulator (R97). -/
def satAcc (k : Int) : Int × Fl :=
  if k > 2 ^ 79 - 1 then (2 ^ 79 - 1, { ovf := true })
  else if k < -(2 ^ 79) then (-(2 ^ 79), { ovf := true })
  else (k, {})

/-- Two accumulator values combined (R97). -/
def addAcc (a b : Int × Fl) : Int × Fl :=
  let (k, f) := satAcc (a.1 + b.1)
  (k, (a.2.or b.2).or f)

/-- The integer a fixed-point value holds at binary point p. -/
def intAt (p : Nat) : Val → Int
  | .fin neg m e => alignInt neg m e (-(p : Int))
  | _ => 0

/-- One core's part of an output element on the integer path, at binary point pa + pb (R97). -/
def dotI (pa pb : Nat) (a b : List Val) : Int × Fl :=
  let ps := List.zipWith (fun x y => (intAt pa x * intAt pb y, Fl.none)) a b
  let gs := (chunk 16 ps.length ps).map (fun g => g.foldl addAcc (0, {}))
  (treeOf addAcc gs).getD (0, {})

/-- A partial output element of a GEMM: FP32 on the floating path, an 80-bit integer on the integer path. -/
inductive Part
  | flt (v : Val) (fl : Fl)
  | int (k : Int) (fl : Fl)
  deriving DecidableEq, Repr

/-- The flags a part's own products and sums raised. -/
def Part.fl : Part → Fl
  | .flt _ f | .int _ f => f

/-- A part without its flags, which the core that formed it reports (R118). -/
def Part.quiet : Part → Part
  | .flt v _ => .flt v {}
  | .int k _ => .int k {}

/-- Parts combined by core rank (R94 stage 2). -/
def Part.add : Part → Part → Part
  | .flt a fa, .flt b fb => let (v, g) := addRtz (a, fa) (b, fb); .flt v g
  | .int a fa, .int b fb => let (v, g) := addAcc (a, fa) (b, fb); .int v g
  | p, _ => p

/-- C_in added to an integer accumulator at point p exactly, saturating at the accumulator's ends (R97). -/
def addCInt (p : Nat) (k : Int) (c : Val) : Val × Fl :=
  match c with
  | .fin n m e =>
    let s := addFin false (k < 0) k.natAbs (-(p : Int)) n m e
    let hi : Val := .fin false (2 ^ 79 - 1) (-(p : Int))
    let lo : Val := .fin true (2 ^ 79) (-(p : Int))
    if ltV hi s then (hi, { ovf := true })
    else if ltV s lo then (lo, { ovf := true })
    else (s, {})
  | .inf _ => (c, {})
  | .nan .. => (Val.dnan, { nv := true })

/-- The accumulator's final value, C_in last (R94 stage 3). (DESIGN CHOICE, log 65) -/
def Part.final (p : Nat) (c : Option Val) : Part → Val × Fl
  | .flt v fl =>
    match c with
    | none => (v, fl)
    | some c => addRtz (v, fl) (c, {})
  | .int k fl =>
    match c with
    | none => (Val.ofInt k (-(p : Int)), fl)
    | some c => let (v, g) := addCInt p k c; (v, fl.or g)

end Sys2Proof.Machine
end

