-- ==== Sys2Proof/Machine/Operands.lean ====
section
/-!
DEFINITION. Operands of operation descriptors (R52, R76, R124, R181-R183): their checks, reading and writing matrices of
elements with their block scales or exponents, and the faults of a step (R207).
-/

namespace Sys2Proof.Machine

/-- The faults of R207. -/
inductive StepFault
  | descriptor | address | trap | slotTimeout | schedule | barrierTimeout | overrun | preempt
  deriving DecidableEq, Repr

/-- Fault codes (R207). -/
def StepFault.code : StepFault → Nat
  | .descriptor => 1 | .address => 2 | .trap => 3 | .slotTimeout => 4 | .schedule => 5 | .barrierTimeout => 6
  | .overrun => 7 | .preempt => 8

/-- An operand of a descriptor: its specifier, program address, shape, row stride, scale array address, and whether its
blocks run down its rows' index rather than along a row. -/
structure Opnd where
  spec : FSpec
  addr : Nat
  rows : Nat
  cols : Nat
  ld : Nat
  scale : Nat
  down : Bool := false
  deriving DecidableEq, Repr

/-- Bytes of one row. -/
def Opnd.rowBytes (o : Opnd) : Nat := (o.cols * o.spec.fmt.bits + 7) / 8

/-- Blocks of an operand: rows and columns of its scale array (R76). -/
def Opnd.scaleShape (o : Opnd) : Nat × Nat :=
  let b := o.spec.blockSize
  if o.down then ((o.rows + b - 1) / b, o.cols) else (o.rows, (o.cols + b - 1) / b)

/-- Bytes of the scale or exponent array. -/
def Opnd.scaleBytes (o : Opnd) : Nat := if o.spec.blocked then o.scaleShape.1 * o.scaleShape.2 else 0

/-- The block of an element (R76). -/
def Opnd.blockOf (o : Opnd) (i j : Nat) : Nat :=
  let b := o.spec.blockSize
  if o.down then i / b * o.cols + j else i * o.scaleShape.2 + j / b

/-! ### Checks -/

/-- Whether a resolved scratchpad line lies in a shadow area of the header its core runs under (R196). -/
def State.inShadow (s : State) (a : Nat) : Bool :=
  match s.headerFor a with
  | none => false
  | some h => (h.persOf true (a % 0x400000)).isSome

/-- One run of bytes checked: present memory (R124) outside every shadow area (R196). -/
def State.bytesOk (s : State) (core a n : Nat) : Bool :=
  (linePieces n a n).all (fun p =>
    match s.resolve (some core) p.1, s.resolve (some core) (p.1 + p.2 - 1) with
    | some x, some y => !s.inShadow x && y = x + p.2 - 1
    | _, _ => false)

/-- An address span checked (R124, R183): inside one range, or a descriptor fault; outside every range, an address fault. -/
def spanRange (a n : Nat) : Except StepFault Nat :=
  match rangeOf a, rangeOf (a + n - 1) with
  | none, _ => .error .address
  | some k, some l => if k = l then .ok k else .error .descriptor
  | some _, none => .error .descriptor

/-- Bytes an operand's elements span, first to last. -/
def Opnd.span (o : Opnd) : Nat := (o.rows - 1) * o.ld + o.rowBytes

/-- An operand checked: dimensions, ranges, presence; HyperRAM is reached by page moves only (R166). -/
def State.checkOpnd (s : State) (core : Nat) (o : Opnd) : Except StepFault Unit :=
  if o.rows = 0 ∨ o.cols = 0 then .error .descriptor
  else
    match spanRange o.addr o.span with
    | .error f => .error f
    | .ok k =>
      if k = 4 then .error .descriptor
      else
        let rows := (List.range o.rows).all (fun i => s.bytesOk core (o.addr + i * o.ld) o.rowBytes)
        if !rows then .error .address
        else if o.scaleBytes = 0 then .ok ()
        else match spanRange o.scale o.scaleBytes with
          | .error f => .error f
          | .ok k => if k = 4 then .error .descriptor
                     else if s.bytesOk core o.scale o.scaleBytes then .ok () else .error .address

/-- A range cut where one scratchpad's 4 MiB end and the next rank's begin (R124): address and length of each part; `n` bounds their number. -/
def bankParts : Nat → Nat → Nat → List (Nat × Nat)
  | 0, _, _ => []
  | n + 1, a, len =>
    if len = 0 then [] else
      let k := min len (0x400000 - a % 0x400000)
      (a, k) :: bankParts n (a + k) (len - k)

/-- The resolved spans of an operand, for the hazards of R179: elements and scale array, first to last byte, in each memory they lie in. (DEDUCED, log 35) -/
def State.spansOf (s : State) (core : Nat) (o : Opnd) : List (Nat × Nat) :=
  let f (a n : Nat) : List (Nat × Nat) :=
    (bankParts (n / 0x400000 + 2) a n).filterMap (fun p => (s.resolve (some core) p.1).map (fun x => (x, x + p.2 - 1)))
  f o.addr o.span ++ f o.scale o.scaleBytes

/-! ### Reading -/

/-- Bytes of a program address range, and whether any word is poisoned. -/
def State.fetch (s : State) (core a n : Nat) : List Byte × Bool :=
  let ps := (linePieces n a n).map (fun p =>
    match s.resolve (some core) p.1 with
    | some x => s.loadAt x p.2
    | none => (List.replicate p.2 0, false))
  (ps.flatMap Prod.fst, ps.any Prod.snd)

/-- The element bits that bytes of a row hold (R52). -/
def rowElems (f : Fmt) (cols : Nat) (bs : List Byte) : List Nat :=
  if f = .e2m1 then (List.range cols).map (fun j => (bs.getD (j / 2) 0).toNat / 16 ^ (j % 2) % 16)
  else (List.range cols).map (fun j => leNat ((bs.drop (j * (f.bits / 8))).take (f.bits / 8)))

/-- An operand read: element bits and values by row, the flags that reading each element raised (R81), and poison. -/
structure OpndVal where
  raw : List (List Nat)
  vals : List (List Val)
  each : List (List Fl)
  bad : Bool

/-- The flags of an operand's reading (R81, R82). -/
def OpndVal.fl (v : OpndVal) : Fl := Fl.orAll (v.each.map Fl.orAll)

/-- An element's value with its scale or exponent byte (R61, R75, R81). -/
def FSpec.value (f : FSpec) (s n : Nat) : Val × Fl :=
  if f.fmt = .bx24 then (decodeBx n s, {})
  else if f.blocked then decodeScaled f.fmt s n
  else (f.decode n, {})

/-- An operand read (R52, R75, R76, R81). -/
def State.readOpnd (s : State) (core : Nat) (o : Opnd) : OpndVal :=
  let rows := (List.range o.rows).map (fun i => s.fetch core (o.addr + i * o.ld) o.rowBytes)
  let (sc, sbad) := s.fetch core o.scale o.scaleBytes
  let raw := rows.map (fun r => rowElems o.spec.fmt o.cols r.1)
  let ev := (List.range o.rows).zip raw |>.map (fun (i, r) =>
    ((List.range o.cols).zip r).map (fun (j, n) => o.spec.value ((sc.getD (o.blockOf i j) 0).toNat) n))
  { raw := raw, vals := ev.map (fun r => r.map Prod.fst), each := ev.map (fun r => r.map Prod.snd),
    bad := sbad || rows.any Prod.snd }

/-! ### Writing -/

/-- A row's bytes from its element bits (R52). (DESIGN CHOICE, log 65) -/
def packRow (f : Fmt) : List Nat → List Byte
  | [] => []
  | [a] => if f = .e2m1 then [BitVec.ofNat 8 (a % 16)] else leBytes (f.bits / 8) a
  | a :: b :: r =>
    if f = .e2m1 then BitVec.ofNat 8 (a % 16 + b % 16 * 16) :: packRow f r
    else leBytes (f.bits / 8) a ++ packRow f (b :: r)

/-- A matrix transposed. -/
def transpose {α : Type} (cols : Nat) (m : List (List α)) : List (List α) :=
  (List.range cols).map (fun j => m.filterMap (fun r => r[j]?))

/-- A line of values encoded in blocks: scale bytes, and element bits with their flags (R62, R77). -/
def FSpec.encodeLine (f : FSpec) (vs : List Val) : List Nat × List (Nat × Fl) :=
  let bl := chunk f.blockSize vs.length vs
  let es := bl.map (fun b => if f.fmt = .bx24 then encodeBxBlock b else encodeScaledBlock f.fmt b)
  (es.map Prod.fst, es.flatMap Prod.snd)

/-- A destination's writes, as program addresses with bytes, and the flags of the encoding per element by row. -/
structure Encoded where
  writes : List (Nat × List Byte)
  each : List (List Fl)

/-- The flags of an encoding. -/
def Encoded.fl (e : Encoded) : Fl := Fl.orAll (e.each.map Fl.orAll)

/-- Rows of element bits as writes of an operand (R52): a row may be shorter than the operand's. -/
def Opnd.rowWrites (o : Opnd) (rows : List (List Nat)) : List (Nat × List Byte) :=
  ((List.range o.rows).zip rows).map (fun (i, r) => (o.addr + i * o.ld, packRow o.spec.fmt r))

/-- A matrix of exact values encoded into an operand under a rounding direction (R65, R77, R98). -/
def Opnd.encode (o : Opnd) (rm : RM) (m : List (List Val)) : Encoded :=
  if o.spec.blocked then
    let es := (if o.down then transpose o.cols m else m).map o.spec.encodeLine
    let el := es.map Prod.snd
    let el := if o.down then transpose o.rows el else el
    let sc := es.map Prod.fst
    let sc := if o.down then transpose o.scaleShape.1 sc else sc
    { writes := o.rowWrites (el.map (fun r => r.map Prod.fst)) ++ [(o.scale, (sc.flatten).map (BitVec.ofNat 8))],
      each := el.map (fun r => r.map Prod.snd) }
  else
    let es := m.map (fun r => r.map (fun v => o.spec.encode rm v))
    { writes := o.rowWrites (es.map (fun r => r.map Prod.fst)), each := es.map (fun r => r.map Prod.snd) }

/-- Writes of program addresses cut into pieces of one line at resolved addresses. -/
def State.resolveWrites (s : State) (core : Nat) (ws : List (Nat × List Byte)) : List OutWrite :=
  ws.flatMap (fun w => (linePieces w.2.length w.1 w.2.length).filterMap (fun p =>
    (s.resolve (some core) p.1).map (fun x => { addr := x, bytes := (w.2.drop (p.1 - w.1)).take p.2, ofs := p.1 - w.1 })))

/-- The pieces of lines of one run of bytes, resolved. -/
def State.runPieces (s : State) (core a n : Nat) : List (Nat × Nat) :=
  (linePieces n a n).filterMap (fun p => (s.resolve (some core) p.1).map (fun x => (x, p.2)))

/-- The pieces of lines that an operand's rows and scale array touch, resolved, in order: each is one access (R126, R136). -/
def State.piecesOf (s : State) (core : Nat) (o : Opnd) : List (Nat × Nat) :=
  ((List.range o.rows).flatMap (fun i => s.runPieces core (o.addr + i * o.ld) o.rowBytes)) ++ s.runPieces core o.scale o.scaleBytes

/-- The bytes of an operand's rows and scale array as spans, without the gaps between strided rows (R159). -/
def State.rowSpans (s : State) (core : Nat) (o : Opnd) : List (Nat × Nat) := (s.piecesOf core o).map (fun p => (p.1, p.1 + p.2 - 1))

/-- The lanes that raised an enabled flag (R120): operations go to the 16 lanes in row-major order, each with its `g` result elements (R102). -/
def lanesOf (en : Fl → Bool) (g : Nat) (l : List Fl) : BitVec 16 :=
  ((List.range l.length).zip l).foldl (fun w x => if en x.2 then w ||| ((1 : BitVec 16) <<< (x.1 / g % 16)) else w) 0

end Sys2Proof.Machine
end

