-- ==== Sys2Proof/Machine/Sluice.lean ====
section
/-!
DEFINITION. Sluices (R414): each pan's four token buckets, filled continuously and charged for its traffic.
-/

namespace Sys2Proof.Machine

/-- A bucket's index. -/
def bucketIx : Bucket → Nat
  | .rmem => 0 | .fabric => 1 | .hbus => 2 | .host => 3

/-- RATE and DEPTH of a pan's bucket (R414). -/
def State.bucketCfg (s : State) (p : Nat) (b : Bucket) : BucketCfg :=
  match s.panCfg p with
  | none => {}
  | some c => match b with
    | .rmem => c.rmem
    | .fabric => c.fabric
    | .hbus => c.hbus
    | .host => c.host

/-- The level of a bucket in thousandths of a byte: RATE in MB/s is that many of them per ns (R28: 20 ÷ 11 ns per cycle). -/
def State.level (s : State) (p : Nat) (b : Bucket) : Nat :=
  let cfg := s.bucketCfg p b
  let full := cfg.depth * 1024 * 1000
  match SMap.get (s.pan p).levels (bucketIx b) with
  | none => full
  | some (l, at') => min full (l + cfg.rate * (s.nclk - at') * 20 / 11)

/-- How many transfers a pan's bucket has been asked for. -/
def State.askedOf (s : State) (p : Nat) (b : Bucket) : Nat := (s.pan p).asked.getD (bucketIx b) 0

/-- The places among the transfers asked of a bucket that the next `n` take. -/
def State.nextPlaces (s : State) (p : Nat) (b : Bucket) (n : Nat) : List Nat := (List.range n).map (fun i => s.askedOf p b + i + 1)

/-- Whether the transfer asked of a pan's bucket at a place, and every one before it, has its tokens (R414). (DEDUCED, log 36) -/
def State.served (s : State) (p : Nat) (t : Nat × Nat) : Bool :=
  let waiting := ((s.pan p).waitingTok.filter (fun w => w.1 = t.1)).length
  waiting = 0 || t.2 + waiting ≤ (s.pan p).asked.getD t.1 0

/-- A transfer of `n` counted bytes: it proceeds and takes its tokens, or waits for them. A bucket the image gives no depth
meters nothing. (DEDUCED, log 36) -/
def State.charge (s : State) (p : Nat) (b : Bucket) (n : Nat) : State :=
  if (s.bucketCfg p b).depth = 0 ∨ n = 0 then s
  else
    let l := s.level p b
    let s := s.onPan p (fun x => { x with asked := x.asked.put (bucketIx b) (x.asked.getD (bucketIx b) 0 + 1) })
    if n * 1000 ≤ l ∧ !((s.pan p).waitingTok.any (fun w => w.1 = bucketIx b)) then
      s.onPan p (fun x => { x with levels := x.levels.put (bucketIx b) (l - n * 1000, s.nclk) })
    else s.onPan p (fun x => { x with waitingTok := x.waitingTok ++ [(bucketIx b, n)] })

/-- `n` counted bytes charged as single transfers of at most `k` (R415). -/
def State.chargeBy (s : State) (p : Nat) (b : Bucket) (k n : Nat) : State :=
  (List.range ((n + k - 1) / max k 1)).foldl (fun s i => s.charge p b (min k (n - i * k))) s

/-- The first waiting transfer of a bucket taken out of a list. -/
def dropFirst (k : Nat) : List (Nat × Nat) → List (Nat × Nat)
  | [] => []
  | w :: r => if w.1 = k then r else w :: dropFirst k r

/-- SLUICE_TOKEN_GRANT's effect on a bucket (R414): the transfer waiting longest proceeds once the bucket holds enough.
Answers whether one did. -/
def State.grant (s : State) (p : Nat) (b : Bucket) : State × Bool :=
  match (s.pan p).waitingTok.find? (fun w => w.1 = bucketIx b) with
  | none => (s, false)
  | some w =>
    let l := s.level p b
    if w.2 * 1000 ≤ l then
      (s.onPan p (fun x => { x with levels := x.levels.put (bucketIx b) (l - w.2 * 1000, s.nclk),
                                    waitingTok := dropFirst (bucketIx b) x.waitingTok }), true)
    else (s, false)

/-- The charges of a core's access to a span outside its scratchpad: RMEM for region memory, FABRIC for another region. -/
def State.chargeSpan (s : State) (p n : Nat) (x : Nat × Nat) : State :=
  let lines := 64 * (x.2 / 64 + 1 - x.1 / 64)
  let s := if coreOf x.1 = none && (regionOf x.1).isSome then s.chargeBy p .rmem 1024 lines else s
  match regionOf x.1 with
  | some r => if r ≠ n / 8 then s.chargeBy p .fabric 1024 lines else s
  | none => s

end Sys2Proof.Machine
end

