-- ==== Sys2Proof/Machine/Stream.lean ====
section
/-!
DEFINITION. HyperRAM pages as they are read (R168, R169, R544), the slices of a model's weights (R296, R308), and the streaming of
weights into a core's staging area (R316, R317).
-/

namespace Sys2Proof.Machine

/-! ### Pages read -/

/-- The channel that serves a read of a page, out of those read in turn (R168, R169): each is read twice, and the next one only where both reads
mismatch. `errs` of the reads mismatch on their way, whatever the channels hold. -/
def State.servedBy' (s : State) (page : Nat) : Nat → List Nat → Option Nat
  | _, [] => none
  | errs, k :: r => if errs < 2 && s.pageGood k page then some k else State.servedBy' s page (errs - 2) r

/-- A page delivered as poisoned by the channel read last, which counts it and reports it (R168, R498). (DEDUCED, log 56) -/
def State.pageBad (s : State) (ch : Nat) : State :=
  let old := (s.chan ch).crcErr
  let new := old.inc (2 ^ 16 - 1)
  let s := (s.note (.hbusStatus ch) (· + 1)).onChan ch (fun h => { h with crcErr := new })
  let s := if new.ovf && !old.ovf then s.event 2 (Reg.hbusStatus ch).addr [] else s
  s.report .chip .ucu 0x11 (ch * 16 + 15) 0 0

/-- The bytes that a channel's copy of a page holds. -/
def State.pageBytes (s : State) (k page : Nat) : List Byte := (List.range 4096).map (fun i => s.mem.read 0 (pageAddr k page + i))

/-- A page of a channel read, of whose reads `errs` mismatch on their way: its bytes and whether they are delivered as poisoned, and the state
with what the read reports (R168, R169, R498). A page that the partner of a mirror pair serves is reported too; one that no ready channel
holds reads as poisoned. (DEDUCED, log 56) -/
def State.fetchAt (s : State) (c page : Nat) (errs : Nat := 0) : (List Byte × Bool) × State :=
  match s.pageChans c with
  | [] => ((s.pageBytes c page, true), s)
  | k :: r =>
    match s.servedBy' page errs (k :: r) with
    | some j => ((s.pageBytes j page, false), if j = k then s else s.report .chip .ucm 0x11 (k * 16 + 15) 0 0)
    | none => ((s.pageBytes k page, true), s.pageBad ((k :: r).getLastD k))

/-- The page at an address read; where no memory is present (R124) it reads as a poisoned one. (DEDUCED, log 56) -/
def State.fetchPage (s : State) (a : Nat) : (List Byte × Bool) × State :=
  match s.pageAt a with
  | none => (([], true), s)
  | some (c, page) => s.fetchAt c page

/-- The channel and channel page of a page of the image store (R544). -/
def State.storePlace (s : State) (i : Nat) : Nat × Nat :=
  let l := s.sec.store.getD []
  (l.getD (i % max 1 l.length) 0, i / max 1 l.length)

/-- Pages of the image store read in order: their bytes, and whether one of them is delivered as poisoned (R404, R545). -/
def State.readStore : List Nat → State → (List Byte × Bool) × State
  | [], s => (([], false), s)
  | i :: r, s =>
    let (x, s) := s.fetchAt (s.storePlace i).1 (s.storePlace i).2
    let (y, s) := State.readStore r s
    ((x.1 ++ y.1, x.2 || y.2), s)

/-- The bytes that pages of the image store hold, as a read delivers them. -/
def State.storeBytes (s : State) (is : List Nat) : List Byte :=
  is.flatMap (fun i => (s.readPage (s.storePlace i).1 (s.storePlace i).2).1)

/-! ### Slices of a model (R308) -/

/-- ⌈log₂ n⌉ for n up to 2^k. -/
def ceilLog2 (n : Nat) : Nat → Nat
  | 0 => 0
  | k + 1 => if n ≤ 2 ^ (ceilLog2 n k) then ceilLog2 n k else k + 1

/-- L of R308 for a DENSE layer of IN inputs and S slices. -/
def sliceLen (inW S : Nat) : Nat := 16 * 2 ^ ceilLog2 ((inW + 16 * S - 1) / (16 * S)) 12

/-- The K indices, first and one past the last, that group rank j of G holds of a DENSE layer (R308). -/
def sliceRange (m : ModelPack) (l : LayerRec) (G j : Nat) : Nat × Nat :=
  let S := 2 ^ m.kslices
  let L := sliceLen l.inW S
  (min l.inW (j * S / G * L), min l.inW ((j + 1) * S / G * L))

/-- Bytes of weights and scales of a DENSE layer's slices that group rank j of G holds (R308): its blocks run along K or down the rows (R76). -/
def denseBytes (m : ModelPack) (l : LayerRec) (G j : Nat) : Nat :=
  match FSpec.ofBits l.wFmt with
  | none => 0
  | some f =>
    let k := (sliceRange m l G j).2 - (sliceRange m l G j).1
    let up (n : Nat) : Nat := (n + f.blockSize - 1) / f.blockSize
    l.outW * ((k * f.fmt.bits + 7) / 8) + (if f.blocked then (if f.blkDir then up l.outW * k else l.outW * up k) else 0)

/-- Bytes every core of the group holds of a layer: bias, and γ and β of NORM (R294, R308). -/
def plainBytes (l : LayerRec) : Nat :=
  (if l.flags % 2 = 1 then 4 * l.outW else 0) + (if l.op = 4 then 8 * l.outW else 0)

/-- The packs a catalogue entry names, from the model store (R296); none where one is missing. -/
def State.packsOf (s : State) (e : CatEntry) : Option (List ModelPack) :=
  e.packs.mapM (fun m => (s.sec.models.map Prod.snd).find? (fun k => k.meas = m && !k.deleting))

/-- The DENSE layers of packs with their pack, in evaluation order. -/
def denseLayers (ms : List ModelPack) : List (ModelPack × LayerRec) :=
  ms.flatMap (fun m => (m.layers.filter (fun l => l.op = 1)).map (fun l => (m, l)))

/-- The bytes of a DENSE layer's slices that group rank j of G holds, out of a pack's bytes (R293, R294, R308). (DESIGN CHOICE, log 66) -/
def denseData (m : ModelPack) (l : LayerRec) (G j : Nat) (body : List Byte) : List Byte :=
  let x := sliceRange m l G j
  let w := (body.drop (m.weightOfs + l.wOfs)).take l.wBytes
  (List.range (denseBytes m l G j)).map (Config.sliceByte l x.1 x.2 w)

/-- The bytes of a layer that every core of the group holds: its bias, or γ then β (R294, R308). -/
def plainData (l : LayerRec) (body : List Byte) : List Byte := (body.drop l.bOfs).take (plainBytes l)

/-! ### Streamed weights (R316, R317) -/

/-- The packs of a context that is resident, whether or not one has been marked DELETING since (R548). -/
def State.heldPacks (s : State) (e : CatEntry) : List ModelPack :=
  e.packs.filterMap (fun m => (s.sec.models.map Prod.snd).find? (fun k => k.meas = m))

/-- The layers that a context streams, in order: those behind its resident ones (R316). -/
def State.streamLayers (s : State) (p c : Nat) : List (ModelPack × LayerRec) :=
  if (s.ctx p c).streamed then (denseLayers (s.heldPacks (s.ctxCat p c))).drop (s.ctx p c).resident else []

/-- The bytes of one half of a rank's staging area: its largest streamed slice (R316). -/
def State.stageHalf (s : State) (p c rank : Nat) : Nat :=
  let G := max (s.ctxCat p c).group 1
  ((s.streamLayers p c).map (fun x => denseBytes x.1 x.2 G (rank % G))).foldl max 0

/-- Where a rank's staging area begins in its core's scratchpad, and the bytes of one of its two halves (R316); ranks that share a core have theirs
one behind the other. (DESIGN CHOICE, log 66) -/
def State.stageArea (s : State) (p c rank n : Nat) : Nat × Nat :=
  let e := s.ctxCat p c
  let before := (List.range rank).filter (fun r => (s.ctx p c).ranks[r]? = some n)
  (n * 0x400000 + e.shareBase + e.stageOfs + (before.map (fun r => 2 * s.stageHalf p c r)).sum, s.stageHalf p c rank)

/-- A streamed layer whose pages have all come put into its half of a rank's staging area; a page that came poisoned poisons it (R317). `k` counts
the streamed layers of the step. (DESIGN CHOICE, log 66) -/
def State.stageLayer (s : State) (p c n rank k : Nat) (bad : Bool) : State :=
  let ls := s.streamLayers p c
  let G := max (s.ctxCat p c).group 1
  match ls[k % max 1 ls.length]? with
  | none => s
  | some (m, l) =>
    let (base, half) := s.stageArea p c rank n
    s.place (base + k % 2 * half) (denseData m l G (rank % G) (s.storeBytes m.held)) bad

/-- A page of a streamed layer has come (R317). -/
def State.pageCame (s : State) (p c n rank k : Nat) (bad : Bool) : State :=
  match (s.core n).parts.find? (fun x => x.rank = rank ∧ x.k = k) with
  | none => s
  | some x =>
    let rest := (s.core n).parts.filter (fun x => !(x.rank = rank && x.k = k))
    if x.left ≤ 1 then (s.onCore n (fun q => { q with parts := rest })).stageLayer p c n rank k (x.bad || bad)
    else s.onCore n (fun q => { q with parts := rest ++ [{ rank := rank, k := k, left := x.left - 1, bad := x.bad || bad }] })

/-- The pages of a streamed layer asked for, charged to the pan's HBUS bucket (R414, R418). (DESIGN CHOICE, log 66) -/
def State.askLayer (s : State) (p c n k : Nat) : State :=
  let ls := s.streamLayers p c
  let G := max (s.ctxCat p c).group 1
  match ls[k % max 1 ls.length]? with
  | none => s
  | some (m, l) =>
    let rank := (s.core n).rank
    let x := sliceRange m l G (rank % G)
    let pages := (Config.slicePages m l x.1 x.2).filterMap (fun i => m.held[i]?)
    let toks := s.nextPlaces p .hbus pages.length
    let s := s.chargeBy p .hbus 4096 (pages.length * 4096)
    let s := s.onCore n (fun q => { q with asked := k + 1, parts := q.parts ++ [{ rank := rank, k := k, left := pages.length }] })
    let s := { s with xacts := s.xacts ++ (pages.zip toks).map (fun i =>
      { core := n, pan := p, ctx := c, tag := (s.ctx p c).tag, op := 0, chan := some (s.storePlace i.1).1,
        page := (s.storePlace i.1).2, use := .stream rank k, tok := i.2 }) }
    if pages.isEmpty then s.pageCame p c n rank k false else s

/-- Streamed layers asked for up to the one after layer `k` of the step, where there is one (R317). (DESIGN CHOICE, log 66) -/
def State.askTo (s : State) (p c n k : Nat) : State :=
  let s := if (s.core n).asked ≤ k then s.askLayer p c n k else s
  if (s.core n).asked ≤ k + 1 && k + 1 < (s.streamLayers p c).length then s.askLayer p c n (k + 1) else s

/-- Whether pages of the streamed layers that a core has turned to are still to come: an operation that reads them cannot start before (R317). (DESIGN CHOICE, log 66) -/
def State.layerDue (s : State) (n : Nat) : Bool :=
  let k := s.core n
  k.stage.any (fun l => k.parts.any (fun x => x.rank = k.rank && x.k ≤ l))

/-- An operation reads half `h` of the staging area: the first does so for the step's first streamed layer, and one that turns to the other
half for the next layer (R317). (DESIGN CHOICE, log 66) -/
def State.touchHalf (s : State) (p c n h : Nat) : State :=
  let k := match (s.core n).stage with
    | none => 0
    | some k => if k % 2 = h || (s.streamLayers p c).length ≤ 1 then k else k + 1
  (s.onCore n (fun q => { q with stage := some k })).askTo p c n k

/-- What an operation that reads some spans does to the streaming of weights (R317). -/
def State.streamTouch (s : State) (p c n : Nat) (rds : List (Nat × Nat)) : State :=
  if (s.streamLayers p c).isEmpty then s
  else
    let (base, half) := s.stageArea p c (s.core n).rank n
    let hits (h : Nat) : Bool := rds.any (fun x => x.1 < base + (h + 1) * half && base + h * half ≤ x.2)
    let s := if hits 0 then s.touchHalf p c n 0 else s
    if hits 1 then s.touchHalf p c n 1 else s

end Sys2Proof.Machine
end

