-- ==== Sys2Proof/Machine/Seq.lean ====
section
/-!
DEFINITION. The step sequencer (R177-R180, R184, R191-R193, R198, R200, R203-R208): issuing descriptors, outstanding
operations and their completion, traps, the end of a step on a core, and the kill of a step.
-/

namespace Sys2Proof.Machine

/-- The ranks of a context with their cores. -/
def rankCores (cores : List Nat) : List (Nat × Nat) := cores.zip (List.range cores.length)

/-! ### Slots -/

/-- A batch slot of a rank. -/
def State.slot (s : State) (p c rank k : Nat) : SlotSt := (s.ctx p c).slots.getD (rank * 256 + k) {}

/-- A batch slot changed. -/
def State.onSlot (s : State) (p c rank k : Nat) (f : SlotSt → SlotSt) : State :=
  s.onCtx p c (fun x => { x with slots := x.slots.put (rank * 256 + k) (f (x.slots.getD (rank * 256 + k) {})) })

/-- Whether a slot is LIVE (R191). -/
def SlotSt.live (t : SlotSt) : Bool := t.state.getLsbD 0

/-- Whether a predicate selects a slot (R192). -/
def SlotSt.selected (t : SlotSt) (mask val : BitVec 16) : Bool := t.live && t.state &&& mask = val

/-- The slots of a rank a SLOTWISE operation selects, ascending (R192). -/
def State.selectedSlots (s : State) (p c rank : Nat) (mask val : BitVec 16) : List Nat :=
  match s.prog p c rank with
  | none => []
  | some h => (List.range h.slots).filter (fun k => (s.slot p c rank k).selected mask val)

/-! ### Kill -/

/-- Whether an address lies in a context's shares (R399). -/
def State.inShare (s : State) (p c a : Nat) : Bool :=
  let e := s.ctxCat p c
  match coreOf a with
  | some n => (s.ctx p c).ranks.elem n && e.shareBase ≤ a % 0x400000 && a % 0x400000 < e.shareBase + e.shareLen
  | none =>
    e.regions.any (fun r => 0x08000000 + r.region * 0x800000 + r.ofs ≤ a
      && a < 0x08000000 + r.region * 0x800000 + r.ofs + r.len)

/-- Every line of a context's shares marked empty (R146). -/
def State.emptyShare (s : State) (p c : Nat) : State := { s with full := s.full.filter (fun l => !s.inShare p c (l * 64)) }

/-- Every dirty line of a context discarded (R200). -/
def State.dropDirty (s : State) (p c : Nat) : State := { s with dirty := s.dirty.filter (fun l => !s.inShare p c (l * 64)) }

/-- A core's sequencer stopped: buffers flushed, nothing outstanding, and every rank's step on it ended. -/
def State.stopCore (s : State) (n : Nat) : State :=
  (s.flushCore n).onCore n (fun k => { k with
    stepping := false, wait := none, waitRec := none, ops := [], traps := [], moves := [],
    turns := k.turns.map (fun (t : Turn) => { t with ended := true, wait := none, waitRec := none }) })

/-- The fault record of SEQ_STATUS: the first one while VALID is clear (R207). -/
def Core.record (k : Core) (f : StepFault) (desc : Nat) : Core :=
  if k.seqValid then k else { k with seqValid := true, seqFault := f.code, seqDesc := desc }

/-- SUBJECT of a CONTEXT or MODE EVENT (R450). -/
def ctxSubject (p c : Nat) : Nat := p * 65536 + c

/-- Codes of PAN_n_CTX_STATE (R429). -/
def CtxState.code : CtxState → Nat
  | .empty => 0 | .loading => 1 | .resident => 2 | .halted => 3 | .loadFail => 4 | .unloading => 5

/-- A CONTEXT EVENT (R450). -/
def State.ctxEvent (s : State) (p c fault : Nat) : State :=
  s.event 3 (ctxSubject p c) (beBytes 1 (s.ctx p c).st.code ++ beBytes 1 fault ++ [0, 0])

/-- A SEQ_FAULT report in a core's log (R498). -/
def State.seqReport (s : State) (n : Nat) (cls : EClass) (code desc : Nat) : State :=
  if h : n < 32 then s.report (.core ⟨n, h⟩) cls 0x06 0xFF code desc else s

/-- The reports a context owes, now that their outcome is known (R497). (DEDUCED, log 59) -/
def State.payOwed (s : State) (p c : Nat) (cls : EClass) : State :=
  let owed := (s.ctx p c).owed
  owed.foldl (fun s r => s.seqReport r.1 cls r.2.1 r.2.2) (s.onCtx p c (fun x => { x with owed := [] }))

/-- A context halted by a fault (R208). (DEDUCED, log 59) -/
def State.halt (s : State) (p c n : Nat) (f : StepFault) (desc : Nat) : State :=
  let s := s.onCtx p c (fun x => { x with st := .halted, haltFault := f.code, refault := 0 })
  ((s.payOwed p c .ucu).seqReport n .ucu f.code desc).ctxEvent p c f.code

/-- Whether a remap of a core is in progress (R515). -/
def State.remapping (s : State) (n : Nat) : Bool :=
  (s.regions.getD (n / 8) {}).copyCore = some (n % 8)

/-- Whether a wait is at a barrier or at a descriptor that acts as one. -/
def Wait.barred : Option (Wait × Nat) → Bool
  | some (.fullEmpty .., _) => false
  | some _ => true
  | none => false

/-- What the ranks of a core wait for, each with the descriptor that it goes on at. -/
def Core.waits (k : Core) : List ((Wait × Nat) × Nat) :=
  (k.wait.map (fun w => (w, k.next))).toList ++ k.turns.filterMap (fun t => t.wait.map (fun w => (w, t.next)))

/-- Whether a core waits at a barrier or at a descriptor that acts as one, with any of its ranks. -/
def Core.atBarrier (k : Core) : Bool := k.waits.any (fun w => Wait.barred (some w.1))

/-- A core that waits in vain at a barrier faults so (R206). -/
def StepFault.ofWait (f : StepFault) : Bool := f = .barrierTimeout || f = .schedule

/-- While a core of a context is remapped, a fault that it raises, or a barrier timeout on its account, does not count toward the halt
(R515). (DEDUCED, log 59) -/
def State.excused (s : State) (p c n : Nat) (f : StepFault) : Bool :=
  f ≠ .preempt && (s.remapping n
    || (f.ofWait && (s.ctx p c).ranks.any (fun k => s.remapping k && !(s.core k).atBarrier)))

/-- Transactions of a context that carry the generation a kill advances to (R418): their replies are waited for, discarded and counted. -/
def State.dropReplies (s : State) (p c : Nat) (tag : BitVec 4) : State :=
  let mine (t : Xact) : Bool := t.pan = p && t.ctx = c && t.tag = tag
  (s.xacts.filter mine).foldl (fun s _ => s.bump (.lateReply p)) { s with xacts := s.xacts.filter (fun t => !mine t) }

/-- STEP_KILL (R200, R201, R207, R418): the step of a context killed on every core by a fault that `n` raised. (DEDUCED, log 59) -/
def State.kill (s : State) (p c n : Nat) (f : StepFault) (desc : Nat) : State :=
  let x := s.ctx p c
  if !x.live then s
  else
    let excused := s.excused p c n f
    let s := x.ranks.dedup.foldl (fun s k => (s.stopCore k).bump (.seqKills k)) s
    let s := (s.note (.seqStatus n) (· ||| 2 ^ 31)).onCore n (fun k => k.record f desc)
    let s := (s.dropDirty p c).emptyShare p c
    let tag := x.tag + 1
    let s := s.dropReplies p c tag
    let s := s.onCtx p c (fun x => { x with
      live := false, boundary := true, killed := some f.code, te := s.tide64, endNclk := s.nclk, tag := tag,
      slots := x.slots.map (fun e => (e.1, { e.2 with state := e.2.state0, flags := e.2.flags0 })) })
    if excused then s.onCtx p c (fun x => { x with owed := x.owed ++ [(n, f.code, desc)] })
    else match f with
    | .descriptor | .address | .trap | .overrun => s.halt p c n f desc
    | .preempt => s.seqReport n .ce f.code desc
    | .slotTimeout | .schedule | .barrierTimeout =>
      if x.refault ≥ 1 then s.halt p c n f desc
      else s.onCtx p c (fun x => { x with refault := x.refault + 1, owed := x.owed ++ [(n, f.code, desc)] })

/-- A fault raised by a core in its step. (DEDUCED, log 59) -/
def State.fault (s : State) (n : Nat) (f : StepFault) (desc : Nat) : State :=
  match (s.core n).run with
  | some (p, c) => s.kill p c n f desc
  | none => s

/-! ### Completion -/

/-- The bits of an operation's flags in CORE_n_VU_FLAGS (R118). -/
def SlotRes.flagBits (r : SlotRes) : Word := r.vu.vuBits ||| r.ta.taBits

/-- The bits of an operation's flags in its slot's flag word (R191, R283). -/
def SlotRes.slotBits (r : SlotRes) (bad : Bool) : BitVec 16 :=
  (r.slotVu.vuBits ||| r.ta.taBits).setWidth 16 ||| (if r.blk ≠ 0 then 0x2000 else 0) ||| (if bad then 0x4000 else 0)

/-- Whether a result of a target is poisoned (R159). -/
def SlotRes.poisoned (r : SlotRes) : Bool := r.bad || r.writes.any OutWrite.bad

/-- Whether a word that reads uncorrectable lies in one of some spans, by the line that a program's read of the span reaches (R196). -/
def State.hitBy (s : State) (spans : List (Nat × Nat)) (a : Nat) : Bool :=
  spans.any (fun x => (linePieces (x.2 + 1 - x.1) x.1 (x.2 + 1 - x.1)).any (fun p =>
    let y := s.readPhys ((coreOf p.1).bind s.header) p.1
    y / 8 ≤ a / 8 && a / 8 ≤ (y + p.2 - 1) / 8))

/-- A target's results where some words read uncorrectable, or every product is suspect (R159, R511): what was computed from them is
poisoned, row by row for a copy. (DEDUCED, log 35) -/
def SlotRes.spoil (s : State) (all : Bool) (words : List Nat) (r : SlotRes) : SlotRes :=
  { r with bad := r.bad || all || words.any (s.hitBy r.reads),
           writes := r.writes.map (fun w => { w with bad := w.bad || words.any (s.hitBy w.src) }) }

/-- The rank of a context on a core whose slots an offset of its scratchpad lies in; its first rank there where none has it (R174, R516). -/
def State.rankFor (s : State) (p c n ofs : Nat) : Nat :=
  let rs := (List.range (s.ctx p c).ranks.length).filter (fun r => (s.ctx p c).ranks[r]? = some n)
  (rs.find? (fun r => (s.prog p c r).any (fun h => h.inSlots ofs))).getD (rs.headD 0)

/-- The slot of the workspace that a resolved scratchpad address lies in, with its context and rank (R174). -/
def State.workspaceAt (s : State) (a : Nat) : Option (Nat × Nat × Nat × Nat) :=
  match coreOf a with
  | none => none
  | some m =>
    match (s.core m).run with
    | none => none
    | some (p, c) =>
      let r := s.rankFor p c m (a % 0x400000)
      match s.prog p c r with
      | some h =>
        if h.inSlots (a % 0x400000) then some (p, c, r, (a % 0x400000 - h.slotBase % 0x400000) / h.slotSize) else none
      | none => none

/-- Poisoned results of an operation that is not SLOTWISE bar the commit of every instance in whose workspace they lie (R159). (DEDUCED, log 35) -/
def State.barTouched (s : State) (r : SlotRes) : State :=
  (r.writes.filter (fun w => r.bad || w.bad)).foldl (fun s w => match s.workspaceAt w.addr with
    | some (p, c, k, i) => s.onSlot p c k i (fun t => { t with state := t.state ||| 0x0100 })
    | none => s) s

/-- One target's results made to stand: its bytes, state bits, POISON and sticky flags (R159, R191, R193). -/
def State.applyRes (s : State) (n : Nat) (op : OutOp) (r : SlotRes) : State :=
  let s := r.writes.foldl (fun s w => s.store n op.narrow w.addr w.bytes (r.bad || w.bad)) s
  let s := (s.note (.vuFlags n) (· ||| r.flagBits.toNat)).onCore n (fun k => { k with vuFlags := k.vuFlags ||| r.flagBits })
  match r.slot, (s.core n).run with
  | some k, some (p, c) =>
    s.onSlot p c op.rank k (fun t =>
      { t with state := (t.state &&& ~~~r.clr ||| r.set) ||| (if r.poisoned then 0x0100 else 0),
               flags := t.flags ||| r.slotBits r.poisoned })
  | _, _ => s.barTouched r

/-- The status record of an operation (R184). -/
def OutOp.record (op : OutOp) : List Byte :=
  let fl := op.res.foldl (fun w r => w ||| r.flagBits) (0 : Word)
  let blk := op.res.foldl (fun w r => w ||| r.blk) (0 : BitVec 4)
  leBytes 4 (blk.toNat * 65536 + (if op.res.any SlotRes.poisoned then 32768 else 0) + fl.toNat % 8192) ++ leBytes 4 op.run

/-- The traps an operation raises (R120): the enabled flags of the vector unit and DSU, and the lanes that raised them. -/
def OutOp.trapOf (op : OutOp) (vuCtrl : Word) : List TrapRec :=
  let fl := (Fl.orAll (op.res.map SlotRes.vu)).enabled vuCtrl
  if fl = 0 then [] else [{ desc := op.desc, flags := fl, lanes := op.res.foldl (fun w r => w ||| r.lanes) 0 }]

/-- An operation completes (R184): results, flags, status record, and traps raised. -/
def State.completeOp (s : State) (n : Nat) (op : OutOp) : State :=
  let s := op.res.foldl (fun s r => s.applyRes n op r) s
  let s := match op.status with
    | some a => s.store n true a op.record false
    | none => s
  let s := s.onCore n (fun k => { k with traps := k.traps ++ op.trapOf k.vuCtrl })
  { s with xacts := s.xacts.filter (fun t => !(t.core = n && t.op = op.id && t.chan = none && some (t.pan, t.ctx) = (s.core n).run
      && t.tag = (s.ctx t.pan t.ctx).tag)) }

/-- The oldest outstanding operation of a core completes: `words` read uncorrectable while it ran, and `all` its products met a residue
mismatch (R159, R511). (DEDUCED, log 35) -/
def State.completeOldest (s : State) (n : Nat) (all : Bool) (words : List Nat) : State :=
  match (s.core n).ops with
  | [] => s
  | op :: r => (s.onCore n (fun k => { k with ops := r })).completeOp n { op with res := op.res.map (SlotRes.spoil s all words) }

/-- The oldest operation of a core has pages still to come (R168). -/
def State.pagesDue (s : State) (n : Nat) : Bool :=
  match (s.core n).ops, (s.core n).run with
  | op :: _, some (p, c) =>
    s.xacts.any (fun t => t.core = n && t.op = op.id && t.use = .operation && t.chan.isSome && t.pan = p && t.ctx = c && t.tag = (s.ctx p c).tag)
  | _, _ => false

/-- The oldest operation of a core waits for tokens of its pan's RMEM or FABRIC bucket (R414); in strict mode the wait falls within the step's
budget, which alone ends it (R416). (DEDUCED, log 36) -/
def State.tokensDue (s : State) (n : Nat) : Bool :=
  match (s.core n).ops, (s.core n).run with
  | op :: _, some (p, _) => !s.strict && op.toks.any (fun t => !s.served p t)
  | _, _ => false

/-- Whether the oldest operation of a core cannot complete yet: its pages or its tokens have not come (R168, R414). -/
def State.opDue (s : State) (n : Nat) : Bool := s.pagesDue n || s.tokensDue n

/-- The oldest operation of a core completes where it can. -/
def State.completeReady (s : State) (n : Nat) : State := if s.opDue n then s else s.completeOldest n false []

/-- Every outstanding operation of a core completes, up to one that cannot yet. (DEDUCED, log 35) -/
def State.drain (s : State) (n : Nat) : State := (s.core n).ops.foldl (fun s _ => s.completeReady n) s

/-- Two spans overlap, judged over whole lines (R179). -/
def overlap (a b : Nat × Nat) : Bool := a.1 / 64 ≤ b.2 / 64 && b.1 / 64 ≤ a.2 / 64

/-- Whether a descriptor that reads `r` and writes `w` must wait for an operation (R179). -/
def OutOp.blocks (op : OutOp) (r w : List (Nat × Nat)) : Bool :=
  op.writes.any (fun x => r.any (overlap x) || w.any (overlap x)) || op.reads.any (fun x => w.any (overlap x))

/-- Whether a descriptor that reads `r` and writes `w` is held (R179): by a hazard, or by eight operations outstanding. -/
def State.heldBy (s : State) (n : Nat) (r w : List (Nat × Nat)) : Bool :=
  let ops := (s.core n).ops
  ops.length ≥ 8 || ops.any (fun o => o.blocks r w)

/-- Operations completed, as far as they can, until a descriptor may issue (R179). -/
def State.hold (s : State) (n : Nat) (r w : List (Nat × Nat)) : State :=
  (s.core n).ops.foldl (fun s _ => if s.heldBy n r w then s.completeReady n else s) s

/-- TRAP_DELIVERY's effect (R120, R207): the trap is recorded and ends the step; while TRAP_INFO.VALID is set, it has set its flags and
does no more. -/
def State.deliverTrap (s : State) (n : Nat) : State :=
  match (s.core n).traps with
  | [] => s
  | t :: r =>
    if (s.core n).trapInfo.getLsbD 31 then s.onCore n (fun k => { k with traps := r })
    else
      ((s.note (.trapInfo n) (· ||| 2 ^ 31)).onCore n (fun k => { k with
        traps := r, trapInfo := BitVec.ofNat 32 (2 ^ 31 + t.flags.toNat * 2 ^ 24 + t.desc % 65536),
        trapLanes := t.lanes.setWidth 32 })).fault n .trap t.desc

/-- Every trap of a core delivered, oldest first, until one ends its step (R120-R122). -/
def State.deliverTraps (s : State) (n : Nat) : State :=
  (s.core n).traps.foldl (fun s _ => if (s.core n).stepping then s.deliverTrap n else s) s

/-! ### The end of a step -/

/-- NCLK cycles that a number of ACLK cycles takes (R28: two of them to one). -/
def nclkOf (aclk : Nat) : Nat := (aclk + 1) / 2

/-- Tide64 as it is, was or will be at an NCLK count, from what it is now (R28: 20 ÷ 11 ns per cycle). (DEDUCED, log 39) -/
def State.tideAt (s : State) (n : Nat) : Nat :=
  if s.nclk ≤ n then s.tide64 + (n - s.nclk) * 20 / 11 else s.tide64 - (s.nclk - n) * 20 / 11

/-- The NCLK count at which a context's running step ends in strict mode (R425). -/
def State.budgetNclk (s : State) (p c : Nat) : Nat := (s.ctx p c).startNclk + nclkOf (s.ctxCat p c).stepBudget

/-- The pan's step ends once every core has ended it (R177, R261); in strict mode at its STEP_BUDGET, whose moment is T_E (R425, R428). -/
def State.checkPanEnd (s : State) (p c : Nat) : State :=
  let x := s.ctx p c
  if x.live && x.ranks.all (fun k => !(s.core k).stepping) && (!s.strict || x.budgetEnd) then
    let e := if s.strict then s.budgetNclk p c else s.nclk
    (s.onCtx p c (fun x => { x with live := false, boundary := true, killed := none, te := s.tideAt e, endNclk := e, refault := 0 })).payOwed p c .ucm
  else s

/-- The fault of a core that waits in vain (R206). -/
def State.waitFault (s : State) : StepFault := if s.strict then .schedule else .barrierTimeout

/-- A core's current rank put aside, and another rank's turn begun (R516). (DESIGN CHOICE, log 53) -/
def State.turnTo (s : State) (n rank : Nat) : State :=
  match (s.core n).turns.find? (fun t => t.rank = rank) with
  | none => s
  | some t => s.onCore n (fun k =>
      let old : Turn := { rank := k.rank, ended := !k.stepping, next := k.next, issued := k.issued, wait := k.wait, waitRec := k.waitRec,
                          stage := k.stage, asked := k.asked }
      { k with rank := t.rank, stepping := !t.ended, next := t.next, issued := t.issued, wait := t.wait, waitRec := t.waitRec,
               stage := t.stage, asked := t.asked, turns := k.turns.filter (fun u => u.rank ≠ rank) ++ [old] })

/-- The next rank that can go on takes the core, where the current one cannot: one that waits for nothing before one that waits (R516). (DESIGN CHOICE, log 53) -/
def State.passTurn (s : State) (n : Nat) : State :=
  let k := s.core n
  if k.stepping && k.wait = none then s
  else match k.turns.find? (fun t => !t.ended && t.wait = none) with
    | some t => s.turnTo n t.rank
    | none =>
      if k.stepping then s
      else match k.turns.find? (fun t => !t.ended) with
        | some t => s.turnTo n t.rank
        | none => s

/-- A core ends its rank's step (R177): operations and traps of its own first, then its buffers (R133). A core of the context that
waits at a barrier faults (R206). Where ranks take turns on the core, the next one goes on (R516). -/
def State.endCore (s : State) (n : Nat) : State :=
  let s := (s.drain n).deliverTraps n
  if !(s.core n).stepping then s
  else
    match (s.core n).run with
    | none => s
    | some (p, c) =>
      let s := ((s.flushCore n).onCore n (fun k => { k with stepping := false })).passTurn n
      match (s.ctx p c).ranks.find? (fun k => (s.core k).stepping && (s.core k).atBarrier) with
      | some k => s.kill p c k s.waitFault ((s.core k).next - 1)
      | none => s.checkPanEnd p c

/-- A core whose execution has passed its last descriptor ends its step once nothing is outstanding (R177). -/
def State.passEnd (s : State) (n : Nat) : State :=
  let k := s.core n
  match s.header n with
  | none => s
  | some h => if k.stepping && k.wait = none && k.ops = [] && h.descCount ≤ k.next then s.endCore n else s

/-! ### Issue -/

/-- The context, rank and program header of a core that can issue a descriptor: inside a step that has begun (R425), and waiting for nothing. -/
def State.issuing (s : State) (n : Nat) : Option (Nat × Nat × Nat × StepProg) :=
  let k := s.core n
  if s.inReset || !k.stepping || k.wait ≠ none || k.run.any (fun x => s.nclk < (s.ctx x.1 x.2).startNclk) then none
  else match k.run, s.header n with
    | some (p, c), some h => if k.next < h.descCount then some (p, c, k.rank, h) else none
    | _, _ => none

/-- The descriptor that a core's sequencer fetches at an index (R176, R181): from the descriptor area of its share, behind the header, with
whether a word of it is poisoned. (DEDUCED, log 35) -/
def State.fetchDesc (s : State) (n i : Nat) : (OpCode × Desc) × Bool :=
  match (s.core n).run, s.header n with
  | some (p, c), some h =>
    let r := s.fetch n (0x0C000000 + (s.ctxCat p c).shareBase + h.descOfs + 64 + 64 * i) 64
    (descOf (wordsOf r.1), r.2)
  | _, _ => (descOf [], false)

/-- What becomes of a descriptor that the sequencer takes up: it issues, or it is held (R179), by an operation whose pages or tokens have not come
(R168, R414) or for a streamed layer (R317), and issues when the command comes again. -/
inductive Issue
  | done (s : State)
  | held (s : State)

/-- A fault at issue (R207): the operations before it complete first, so that what they wrote stands (R178); while one cannot yet, so does
the fault. (DEDUCED, log 35) -/
def State.faultAt (s : State) (n : Nat) (f : StepFault) (i : Nat) : State :=
  let s := s.drain n
  if (s.core n).ops = [] then s.fault n f i else s

/-- The sequencer reads its descriptor through the coalescing buffers (R126, R132, R134). (DEDUCED, log 36) -/
def State.readDesc (s : State) (n i : Nat) : State :=
  match (s.core n).run, s.header n with
  | some (p, c), some h =>
    (s.runPieces n (0x0C000000 + (s.ctxCat p c).shareBase + h.descOfs + 64 + 64 * i) 64).foldl (fun s x => s.readPiece n true x) s
  | _, _ => s

/-- The sequencer takes its next descriptor up (R176, R179, R180): past MAX_ISSUE it is a STEP_OVERRUN; a reserved CLASS or SUBOP is a
descriptor fault (R183); another descriptor than the command's is not this command; and a fault of its own kills the step (R207). (DEDUCED, log 35) -/
def State.issue (s : State) (n : Nat) (k : OpCode) (d : Desc) (go : State → Nat → Except StepFault Issue) : State :=
  match s.issuing n with
  | none => s
  | some (_, _, _, h) =>
    let i := (s.core n).next
    let f := (s.fetchDesc n i).1
    if h.maxIssue ≤ (s.core n).issued then s.faultAt n .overrun i
    else if !f.1.known then s.faultAt n .descriptor i
    else if f ≠ (k, d) then s
    else
      match go ((s.readDesc n i).onCore n (fun k => { k with next := i + 1, issued := k.issued + 1 })) i with
      | .error f => s.faultAt n f i
      | .ok (.held t) => t.onCore n (fun k => { k with next := i, issued := (s.core n).issued, stage := (s.core n).stage })
      | .ok (.done t) => t.passEnd n

/-- What an operation descriptor is to the sequencer: its CLASS and SUBOP, whether its unit writes through the coalescing buffers (R126,
R132), whether it uses DPMODE and K (R181), and whether it waits for everything earlier. -/
structure OpForm where
  code : OpCode
  narrow : Bool := true
  dp : Bool := false
  useK : Bool := false
  alone : Bool := false
  deriving DecidableEq, Repr

/-- Reserved fields of a descriptor (R103, R181, R183): every one is 0, RM is no reserved code, DPMODE is 0 outside GEMM, K is 0 where
the class has none, and SLOT_STRIDE is a multiple of 64. (DEDUCED, log 59) -/
def descPlain (d : Desc) (dp useK : Bool) : Bool :=
  d.rsv0 = 0 && d.subExtra = 0 && d.rsv9 = 0 && d.rsv12 = 0 && d.rm ≠ 5 && d.rm ≠ 6 && (dp || d.dpmode = 0) && (useK || d.k = 0)
    && d.slotStride.toNat % 64 = 0

/-- The rounding direction of a descriptor (R103); none for a reserved code. -/
def State.rmOf (s : State) (n : Nat) (d : Desc) : Option RM :=
  RM.ofCode (if d.rm = 7 then fieldOf (s.core n).vuCtrl 10 8 else d.rm.toNat)

/-- Where an operation runs: for each selected slot, or once (R192, R193). -/
def State.targets (s : State) (p c rank : Nat) (d : Desc) : List (Option Nat) :=
  if d.slotwise then (s.selectedSlots p c rank d.predMask d.predVal).map some else [none]

/-- A slot-relative address (R182). -/
def slotAddr (d : Desc) (base : Word) (rel : Bool) (slot : Option Nat) : Nat :=
  base.toNat + (if rel then (slot.getD 0) * d.slotStride.toNat else 0)

/-- The status record's address, resolved (R184). -/
def State.statusAt (s : State) (n : Nat) (h : StepProg) (d : Desc) : Except StepFault (Option Nat) :=
  if d.stw then
    let a := h.statusBase + 8 * d.statusIdx.toNat
    if s.bytesOk n a 8 then .ok (s.resolve (some n) a) else .error .address
  else .ok none

/-- The span of a status record, among what its operation writes. -/
def statusSpan (st : Option Nat) : List (Nat × Nat) := (st.map (fun a => (a, a + 7))).toList

/-- The transactions of an operation outside its core's scratchpad (R136, R418): one per line. (DEDUCED, log 36) -/
def State.addXacts (s : State) (n p c id : Nat) (lines : List Nat) : State :=
  { s with xacts := s.xacts ++ lines.map (fun _ =>
      { core := n, pan := p, ctx := c, tag := (s.ctx p c).tag, op := id, chan := none }) }

/-- The reads of an operation's operands pass the buffers (R132-R134). (DEDUCED, log 36) -/
def State.readAll (s : State) (n : Nat) (op : OutOp) : State := op.pieces.foldl (fun s x => s.readPiece n op.narrow x) s

/-- The tokens that a pan's operations have asked for between two states, of its RMEM and FABRIC buckets (R414). -/
def State.newToks (s t : State) (p : Nat) : List (Nat × Nat) :=
  ([.rmem, .fabric] : List Bucket).filterMap (fun b => if t.askedOf p b = s.askedOf p b then none else some (bucketIx b, t.askedOf p b))

/-- An operation put among the outstanding ones: its accesses outside the scratchpad are counted and under way. (DEDUCED, log 35) -/
def State.push (s : State) (n p c : Nat) (op : OutOp) : State :=
  let id := (s.core n).opId
  let s := s.addXacts n p c id op.far
  let t := op.far.foldl (fun s l => s.chargeSpan p n (l, l + 63)) s
  t.onCore n (fun k => { k with ops := k.ops ++ [{ op with id := id, toks := s.newToks t p }], opId := id + 1 })

/-- The lines of some operands outside a core's scratchpad (R136). -/
def State.farLines (s : State) (n : Nat) (os : List Opnd) : List Nat :=
  ((os.flatMap (s.piecesOf n)).map (fun p => p.1 / 64 * 64)).filter (fun l => coreOf l ≠ some n)

/-- An operation's operands checked for every target. (DEDUCED, log 59) -/
def State.checkTargets (s : State) (n : Nat) (ts : List (Option Nat))
    (opnds : Option Nat → Except StepFault (List Opnd × List Opnd)) : Except StepFault (List (List Opnd × List Opnd)) := do
  let _ ← opnds none
  let os ← ts.mapM opnds
  let _ ← os.mapM (fun o => (o.1 ++ o.2).mapM (fun x => s.checkOpnd n x))
  .ok os

/-- The results of an operation for its targets, in ascending slot order: each sees what the earlier ones wrote (R178, R192). `bad`: the
descriptor itself read poisoned (R159). (DEDUCED, log 35) -/
def State.runTargets (s : State) (n : Nat) (shell : OutOp) (bad : Bool) (run : State → Option Nat → SlotRes) :
    List (Option Nat × List (Nat × Nat)) → List SlotRes
  | [] => []
  | t :: r =>
    let x := run s t.1
    let x := { x with slot := t.1, reads := t.2, bad := x.bad || bad }
    x :: State.runTargets (s.applyRes n shell x) n shell bad run r

/-- Whether a descriptor issues with nothing outstanding (R178, R179): where it stands alone, or where it selects slots by state bits that an
earlier operation may set: a SLOTWISE one, or by poisoning its results any one (R159). -/
def State.wantsClear (s : State) (n : Nat) (alone : Bool) (d : Desc) : Bool :=
  alone || (d.slotwise && d.predMask ≠ 0 && ((s.core n).ops.any OutOp.slotwise || (d.predMask.getLsbD 8 && (s.core n).ops ≠ [])))

/-- The operations before such a descriptor completed, as far as they can. -/
def State.clearWay (s : State) (n : Nat) (alone : Bool) (d : Desc) : State := if s.wantsClear n alone d then s.drain n else s

/-- What a descriptor reads of staged weights (R317): its own reads, or, on a core none of whose slots it selects while it selects one of the
pan's, those it would make there. `base` is the operands' place. (DESIGN CHOICE, log 66) -/
def State.stagedReads (s : State) (n p c : Nat) (d : Desc) (reads : List (Nat × Nat)) (base : List Opnd) : List (Nat × Nat) :=
  if reads.isEmpty && (List.range (s.ctx p c).ranks.length).any (fun r => !(s.selectedSlots p c r d.predMask d.predVal).isEmpty) then
    base.flatMap (s.spansOf n)
  else reads

/-- The last of what an operation waits for before it issues (R179, R317): hazards, and the streamed weights it reads, where they stand in
`base`; then its reads pass the buffers. (DEDUCED, log 35) -/
def State.readyToIssue (s : State) (n p c : Nat) (d : Desc) (op : OutOp) (base : List Opnd) : Issue :=
  let s := (s.hold n op.reads op.writes).streamTouch p c n (s.stagedReads n p c d op.reads base)
  if s.heldBy n op.reads op.writes || s.layerDue n then .held s else .done (s.readAll n op)

/-- An operation's shape: what it reads and writes for its targets, with the status record. `far` are the operands whose lines outside the
scratchpad are remote accesses. -/
def State.opOf (s : State) (n i : Nat) (d : Desc) (narrow : Bool) (st : Option Nat) (run : Nat) (os : List (List Opnd × List Opnd)) (far : Opnd → Bool) :
    OutOp :=
  { id := 0, rank := (s.core n).rank, desc := i, reads := os.flatMap (fun o => o.1.flatMap (s.spansOf n)),
    writes := statusSpan st ++ os.flatMap (fun o => o.2.flatMap (s.spansOf n)), status := st, run := run,
    pieces := os.flatMap (fun o => (o.1.filter far).flatMap (s.piecesOf n)),
    far := s.farLines n ((os.flatMap (fun o => o.1 ++ o.2)).filter far), narrow := narrow, slotwise := d.slotwise }

/-- The operands a descriptor reads where it selects no slot. -/
def baseOpnds (r : Except StepFault (List Opnd × List Opnd)) : List Opnd :=
  match r with
  | .ok o => o.1
  | .error _ => []

/-- The common course of an operation descriptor: its operands' checks for every slot it runs for, the hazards of R179, the
selection of slots, and each slot's results. `opnds` gives the operands read and the destinations; `run` the results. (DEDUCED, log 35) -/
def State.operate (s : State) (n : Nat) (f : OpForm) (d : Desc)
    (opnds : State → Option Nat → Except StepFault (List Opnd × List Opnd))
    (run : State → Option Nat → SlotRes) : State :=
  s.issue n f.code d (fun s i =>
    match (s.core n).run with
    | none => .ok (.done s)
    | some (p, c) =>
      let rank := (s.core n).rank
      if !descPlain d f.dp f.useK then .error .descriptor
      else do
        let st ← s.statusAt n ((s.prog p c rank).getD {}) d
        let s := s.clearWay n f.alone d
        if s.wantsClear n f.alone d && (s.core n).ops ≠ [] then .ok (.held s)
        else
          let ts := s.targets p c rank d
          let os ← s.checkTargets n ts (opnds s)
          let op := s.opOf n i d f.narrow st ts.length os (fun _ => true)
          match s.readyToIssue n p c d op (baseOpnds (opnds s none)) with
          | .held s => .ok (.held s)
          | .done s =>
            let rows := os.map (fun o => o.1.flatMap (s.rowSpans n))
            .ok (.done (s.push n p c { op with res := s.runTargets n op (s.fetchDesc n i).2 run (ts.zip rows) })))

end Sys2Proof.Machine
end

