-- ==== Sys2Proof/Machine/Elem.lean ====
section
/-!
DEFINITION. The vector unit's and the DSU's operations (R102-R117, R185-R190): ELEM, REDUCE within a core, DIVSQRT and CONV.
-/

namespace Sys2Proof.Machine

/-! ### Operands -/

/-- An operand built from a descriptor's fields (R49, R51, R182, R183): a reserved specifier, or a format the place does not
take (R48), is a descriptor fault, and so is a dimension of 0. -/
def opndOf (ok : Fmt → Bool) (fmt : BitVec 16) (a rows cols ld scofs : Nat) (down : FSpec → Bool) : Except StepFault Opnd :=
  match FSpec.ofBits fmt with
  | none => .error .descriptor
  | some f =>
    if ok f.fmt ∧ 0 < rows ∧ 0 < cols then
      .ok { spec := f, addr := a, rows := rows, cols := cols, ld := ld, scale := a + 64 * scofs, down := down f }
    else .error .descriptor

/-- Outside a GEMM, BLK_DIR 0 runs along a row and 1 down the rows. -/
def FSpec.downRows (f : FSpec) : Bool := f.blkDir

/-- Operand A of a vector operation, `w` elements to a column. -/
def opA (d : Desc) (ok : Fmt → Bool) (t : Option Nat) (rows cols : Nat) : Except StepFault Opnd :=
  opndOf ok d.fmtA (slotAddr d d.addrA d.relA t) rows cols d.lda.toNat d.scofsA.toNat FSpec.downRows

/-- Operand B. -/
def opB (d : Desc) (ok : Fmt → Bool) (t : Option Nat) (rows cols : Nat) : Except StepFault Opnd :=
  opndOf ok d.fmtB (slotAddr d d.addrB d.relB t) rows cols d.ldb.toNat d.scofsB.toNat FSpec.downRows

/-- Operand C: its scale array takes SCOFS_D (R182). -/
def opC (d : Desc) (ok : Fmt → Bool) (t : Option Nat) (rows cols : Nat) : Except StepFault Opnd :=
  opndOf ok d.fmtC (slotAddr d d.addrC d.relC t) rows cols d.ldc.toNat d.scofsD.toNat FSpec.downRows

/-- Operand D, the destination. -/
def opD (d : Desc) (ok : Fmt → Bool) (t : Option Nat) (rows cols : Nat) : Except StepFault Opnd :=
  opndOf ok d.fmtD (slotAddr d d.addrD d.relD t) rows cols d.ldd.toNat d.scofsD.toNat FSpec.downRows

/-- An element of a matrix. -/
def elemAt {α : Type} (m : List (List α)) (i j : Nat) : Option α := (m.getD i [])[j]?

/-- The elements of an operand at a column of `g` adjacent elements (R187). -/
def groupAt {α : Type} (g : Nat) (m : List (List α)) (i j : Nat) : List α := ((m.getD i []).drop (g * j)).take g

/-- The BLK_UNDERFLOW bits of operands A to D (R82, R184). -/
def blkBits (a b c d : Bool) : BitVec 4 :=
  (if a then 1 else 0) ||| (if b then 2 else 0) ||| (if c then 4 else 0) ||| (if d then 8 else 0)

/-- What a vector or DSU operation reports (R82, R118, R120): the flags of its result elements, those that reading its operands raised
among them, the flags of writing them, BLK_UNDERFLOW by operand, and the lanes that raised an enabled flag, where a lane makes `g` result
elements at a time. (DESIGN CHOICE, log 68) -/
def State.vecReport (s : State) (n g : Nat) (ins : List OpndVal) (els wr : List Fl) : SlotRes :=
  let fl := (Fl.orAll els).or (Fl.orAll wr)
  { bad := ins.any OpndVal.bad, vu := fl, slotVu := fl,
    blk := blkBits ((ins[0]?).any (fun x => x.fl.blk)) ((ins[1]?).any (fun x => x.fl.blk)) ((ins[2]?).any (fun x => x.fl.blk))
      (Fl.orAll wr).blk,
    lanes := lanesOf (fun f => f.enabled (s.core n).vuCtrl ≠ 0) g (List.zipWith Fl.or els wr) }

/-- A slot's results from a matrix of result elements with their flags: encoded into D (R65), with what the operation reports. -/
def State.vecRes (s : State) (n g : Nat) (rm : RM) (o : Opnd) (ins : List OpndVal) (m : List (List (Val × Fl))) : SlotRes :=
  let e := o.encode rm (m.map (fun r => r.map Prod.fst))
  { s.vecReport n g ins (m.flatMap (fun r => r.map Prod.snd)) e.each.flatten with writes := s.resolveWrites n e.writes }

/-! ### ELEM -/

/-- What an ELEM operation makes of one element, of the values of its operands. -/
abbrev ElemFn := List (List Val) → List (Val × Fl)

/-- The shape of an ELEM operation: how many operands it reads, elements per column of an operand and of D, and whether the
formats are right. -/
structure ElemShape where
  ins : Nat
  gIn : Nat := 1
  gOut : Nat := 1
  fmtOk : Fmt → Bool := Fmt.vuArith

/-- The operands of an ELEM operation (R183, R187). (DESIGN CHOICE, log 65) -/
def elemOpnds (sh : ElemShape) (d : Desc) (t : Option Nat) : Except StepFault (List Opnd × List Opnd) := do
  let r := d.m.toNat
  let k := d.n.toNat * sh.gIn
  let a ← opA d sh.fmtOk t r k
  let b ← if sh.ins ≥ 2 then (opB d sh.fmtOk t r k).map (fun x => [x]) else .ok []
  let c ← if sh.ins ≥ 3 then (opC d sh.fmtOk t r k).map (fun x => [x]) else .ok []
  let o ← opD d sh.fmtOk t r (d.n.toNat * sh.gOut)
  .ok ([a] ++ b ++ c, [o])

/-- The flags that reading a column's elements raised (R81). -/
def readFlags (g : Nat) (vs : List OpndVal) (i j : Nat) : Fl := Fl.orAll (vs.map (fun v => Fl.orAll (groupAt g v.each i j)))

/-- One slot of an ELEM operation. -/
def State.elemRun (s : State) (n : Nat) (sh : ElemShape) (d : Desc) (rm : RM) (fn : FSpec → FSpec → ElemFn) (t : Option Nat) : SlotRes :=
  match elemOpnds sh d t with
  | .ok (a :: ins, o :: _) =>
    let vs := (a :: ins).map (s.readOpnd n)
    s.vecRes n sh.gOut rm o vs ((List.range d.m.toNat).map (fun i => (List.range d.n.toNat).flatMap (fun j =>
      (fn a.spec o.spec (vs.map (fun v => groupAt sh.gIn v.vals i j))).map (fun x => (x.1, x.2.or (readFlags sh.gIn vs i j))))))
  | _ => {}

/-- A descriptor whose rounding direction is a reserved code is a descriptor fault (R103). -/
def State.rounded (s : State) (n : Nat) (k : OpCode) (d : Desc) (go : RM → State) : State :=
  match s.rmOf n d with
  | none => s.issue n k d (fun _ _ => .error .descriptor)
  | some rm => go rm

/-- An element-wise operation (R102, R103, R185). -/
def State.mapElems (s : State) (n : Nat) (k : OpCode) (sh : ElemShape) (d : Desc) (fn : RM → FSpec → FSpec → ElemFn) : State :=
  s.rounded n k d (fun rm =>
    s.operate n { code := k } d (fun _ => elemOpnds sh d) (fun s t => s.elemRun n sh d rm (fn rm) t))

/-- An ELEM operation. -/
def State.elem (s : State) (n sub : Nat) (sh : ElemShape) (d : Desc) (fn : RM → FSpec → FSpec → ElemFn) : State :=
  s.mapElems n ⟨2, sub⟩ sh d fn

/-- The first value of the operands' groups. -/
def v0 (vs : List (List Val)) (k : Nat) : Val := ((vs.getD k [])[0]?).getD Val.zero

/-- The second value, the low part of a pair. -/
def v1 (vs : List (List Val)) (k : Nat) : Val := ((vs.getD k [])[1]?).getD Val.zero

/-- A binary operation on values. -/
def fn2 (f : Val → Val → Val × Fl) : ElemFn := fun vs => [f (v0 vs 0) (v0 vs 1)]

/-- A compensated pair as two elements, high part first (R187). -/
def pairEls (r : Val × Val × Fl) : List (Val × Fl) := [(r.1, r.2.2), (r.2.1, r.2.2)]

/-! ### Operations on elements as integers and as bits -/

/-- What an integer, shift or logical operation makes of one element: the two operands' specifiers, their element bits as stored, and
their values; the result's bits in A's format, or none where the spec states no result. -/
abbrev BitFn := FSpec → FSpec → Nat → Nat → Option (Nat × Fl)

/-- The stored integer of an element of a two's complement format (R107: FX64 is read with POINT 0). (DESIGN CHOICE, log 68) -/
def FSpec.stored (f : FSpec) (k : Nat) : Int := sgn f.fmt.bits k

/-- IDIV and IREM (R108): the operands as integers of their own formats; the format of the cases is A's, the dividend's. A block scale or
a floating format leaves an operand no integer, and the spec states no result. (DESIGN CHOICE, log 2; DESIGN CHOICE, log 68) -/
def idivFn (rem : Bool) : BitFn := fun a b x y =>
  if a.fmt.isFixed && b.fmt.isFixed && !a.blocked && !b.blocked then
    let (q, r, fl) := idivS a.fmt.bits (a.stored x) (b.stored y)
    some (unsgn a.fmt.bits (if rem then r else q), fl)
  else none

/-- SHL and arithmetic SHR by B (R107): the spec states no result for a count that is negative, no integer or not below the width, nor
for an operand that is no integer. (DESIGN CHOICE, log 2; DESIGN CHOICE, log 68) -/
def shiftFn (left : Bool) : BitFn := fun a b x y =>
  let w := a.fmt.bits
  let c := if b.fmt.isFixed && !b.blocked then intAt 0 (b.decode y) else -1
  if a.fmt.isFixed && !a.blocked && 0 ≤ c && c < w then
    let k := a.stored x
    some (unsgn w (if left then k * 2 ^ c.toNat else k / 2 ^ c.toNat), {})
  else none

/-- AND, OR and XOR of the element bits (R107): of two operands of one format without block scales, which are more than bits (R75); the
spec states no result for others. (DESIGN CHOICE, log 2) -/
def logicFn (f : Nat → Nat → Nat) : BitFn := fun a b x y =>
  if a.fmt = b.fmt && !a.blocked && !b.blocked then some (f x y % 2 ^ a.fmt.bits, {}) else none

/-- One slot of an integer, shift or logical ELEM operation: results in A's format are written as they are where D takes that format, and
converted otherwise. `silent`: writing them sets no flag (R107). -/
def State.bitRun (s : State) (n sub : Nat) (silent : Bool) (d : Desc) (rm : RM) (fn : BitFn) (t : Option Nat) : SlotRes :=
  match elemOpnds { ins := 2 } d t with
  | .ok ([a, b], [o]) =>
    let vs := [a, b].map (s.readOpnd n)
    let el (i j : Nat) : Option (Nat × Fl) × Val :=
      let bits (k : Nat) : Nat := ((vs[k]?).bind (fun v => elemAt v.raw i j)).getD 0
      let val (k : Nat) : Val := ((vs[k]?).bind (fun v => elemAt v.vals i j)).getD Val.zero
      match fn a.spec b.spec (bits 0) (bits 1) with
      | some r => (some r, a.spec.decode r.1)
      | none => (none, Config.elemOpen sub a.spec b.spec [val 0, val 1])
    let m := (List.range d.m.toNat).map (fun i => (List.range d.n.toNat).map (el i))
    let fls := (List.range d.m.toNat).flatMap (fun i => (List.range d.n.toNat).map (fun j =>
      ((el i j).1.elim {} Prod.snd).or (readFlags 1 vs i j)))
    let e := o.encode rm (m.map (fun r => r.map Prod.snd))
    let same := !o.spec.blocked && o.spec.fmt = a.spec.fmt && o.spec.point = a.spec.point
    let raw := m.map (fun r => r.map (fun x => match x.1 with
      | some k => k.1
      | none => (o.spec.encode rm x.2).1))
    let wr := if silent then e.each.flatten.map (fun _ => {}) else if same then m.flatten.zip e.each.flatten |>.map (fun x =>
      if x.1.1.isSome then {} else x.2) else e.each.flatten
    { s.vecReport n 1 vs fls wr with writes := s.resolveWrites n (if same then o.rowWrites raw else e.writes) }
  | _ => {}

/-- An integer, shift or logical ELEM operation (R107, R108). -/
def State.bitElem (s : State) (n sub : Nat) (silent : Bool) (d : Desc) (fn : BitFn) : State :=
  s.rounded n ⟨2, sub⟩ d (fun rm =>
    s.operate n { code := ⟨2, sub⟩ } d (fun _ => elemOpnds { ins := 2 } d) (fun s t => s.bitRun n sub silent d rm fn t))

/-- The formats of compensated pairs (R111, R112). -/
def pairFmt : Fmt → Bool
  | .fp64 | .fp32 => true
  | _ => false

def fp64Only : Fmt → Bool
  | .fp64 => true
  | _ => false

/-- ADD (R103, R107). -/
def execAdd (n : Fin 32) (d : Desc) (s : State) : Host.Outcome State Fault Refusal :=
  .next (s.elem n 0x00 { ins := 2 } d (fun rm _ _ => fn2 (addV rm)))

/-- SUB (R103, R107). -/
def execSub (n : Fin 32) (d : Desc) (s : State) : Host.Outcome State Fault Refusal :=
  .next (s.elem n 0x01 { ins := 2 } d (fun rm _ _ => fn2 (fun a b => addV rm a (if b.isNan then b else b.negate))))

/-- MUL (R103, R107). -/
def execMul (n : Fin 32) (d : Desc) (s : State) : Host.Outcome State Fault Refusal :=
  .next (s.elem n 0x02 { ins := 2 } d (fun _ _ _ => fn2 mulV))

/-- FMA (R103, R105). -/
def execFma (n : Fin 32) (d : Desc) (s : State) : Host.Outcome State Fault Refusal :=
  .next (s.elem n 0x03 { ins := 3 } d (fun rm _ _ => fun vs => [fmaV rm (v0 vs 0) (v0 vs 1) (v0 vs 2)]))

/-- MAX (R106). -/
def execMax (n : Fin 32) (d : Desc) (s : State) : Host.Outcome State Fault Refusal :=
  .next (s.elem n 0x04 { ins := 2 } d (fun _ _ _ => fn2 (maxMinV true)))

/-- MIN (R106). -/
def execMin (n : Fin 32) (d : Desc) (s : State) : Host.Outcome State Fault Refusal :=
  .next (s.elem n 0x05 { ins := 2 } d (fun _ _ _ => fn2 (maxMinV false)))

/-- ABS (R103): the sign cleared, of a NaN too, which R104 quiets. (DESIGN CHOICE, log 68) -/
def execAbs (n : Fin 32) (d : Desc) (s : State) : Host.Outcome State Fault Refusal :=
  .next (s.elem n 0x06 { ins := 1 } d (fun _ _ _ => fun vs => [((v0 vs 0).absv, {})]))

/-- NEG (R103): the sign changed, of a NaN too, which R104 quiets. (DESIGN CHOICE, log 68) -/
def execNeg (n : Fin 32) (d : Desc) (s : State) : Host.Outcome State Fault Refusal :=
  .next (s.elem n 0x07 { ins := 1 } d (fun _ _ _ => fun vs => [((v0 vs 0).negate, {})]))

/-- IDIV (R108). -/
def execIdiv (n : Fin 32) (d : Desc) (s : State) : Host.Outcome State Fault Refusal :=
  .next (s.bitElem n 0x08 false d (idivFn false))

/-- IREM (R108). -/
def execIrem (n : Fin 32) (d : Desc) (s : State) : Host.Outcome State Fault Refusal :=
  .next (s.bitElem n 0x09 false d (idivFn true))

/-- SHL (R107). -/
def execShl (n : Fin 32) (d : Desc) (s : State) : Host.Outcome State Fault Refusal :=
  .next (s.bitElem n 0x0A true d (shiftFn true))

/-- SHR, arithmetic (R107). -/
def execShr (n : Fin 32) (d : Desc) (s : State) : Host.Outcome State Fault Refusal :=
  .next (s.bitElem n 0x0B true d (shiftFn false))

/-- AND (R107). -/
def execAnd (n : Fin 32) (d : Desc) (s : State) : Host.Outcome State Fault Refusal :=
  .next (s.bitElem n 0x0C true d (logicFn (· &&& ·)))

/-- OR (R107). -/
def execOr (n : Fin 32) (d : Desc) (s : State) : Host.Outcome State Fault Refusal :=
  .next (s.bitElem n 0x0D true d (logicFn (· ||| ·)))

/-- XOR (R107). -/
def execXor (n : Fin 32) (d : Desc) (s : State) : Host.Outcome State Fault Refusal :=
  .next (s.bitElem n 0x0E true d (logicFn (· ^^^ ·)))

/-- TWOSUM (R111): always to nearest, ties to even. (DESIGN CHOICE, log 68) -/
def execTwosum (n : Fin 32) (d : Desc) (s : State) : Host.Outcome State Fault Refusal :=
  .next (s.elem n 0x10 { ins := 2, gOut := 2, fmtOk := pairFmt } d
    (fun _ a _ => fun vs => pairEls (twoSum a.fmt (v0 vs 0) (v0 vs 1))))

/-- TWOPROD (R111). (DESIGN CHOICE, log 68) -/
def execTwoprod (n : Fin 32) (d : Desc) (s : State) : Host.Outcome State Fault Refusal :=
  .next (s.elem n 0x11 { ins := 2, gOut := 2, fmtOk := pairFmt } d
    (fun _ a _ => fun vs => pairEls (twoProd a.fmt (v0 vs 0) (v0 vs 1))))

/-- PADD (R112). -/
def execPadd (n : Fin 32) (d : Desc) (s : State) : Host.Outcome State Fault Refusal :=
  .next (s.elem n 0x12 { ins := 2, gIn := 2, gOut := 2, fmtOk := fp64Only } d
    (fun _ _ _ => fun vs => pairEls (pAdd (v0 vs 0) (v1 vs 0) (v0 vs 1) (v1 vs 1))))

/-- PMUL (R112). -/
def execPmul (n : Fin 32) (d : Desc) (s : State) : Host.Outcome State Fault Refusal :=
  .next (s.elem n 0x13 { ins := 2, gIn := 2, gOut := 2, fmtOk := fp64Only } d
    (fun _ _ _ => fun vs => pairEls (pMul (v0 vs 0) (v1 vs 0) (v0 vs 1) (v1 vs 1))))

/-! ### TEST and SETSTATE -/

/-- A USR bit's place in the state word (R191). -/
def usrBit (k : Nat) : BitVec 16 := (1 : BitVec 16) <<< (12 + k)

/-- The operands of TEST: element 0 of A and of B (R188); its class uses M and N (R183). -/
def testOpnds (d : Desc) (t : Option Nat) : Except StepFault (List Opnd × List Opnd) :=
  if d.m = 0 ∨ d.n = 0 ∨ 6 ≤ d.imm.toNat % 8 then .error .descriptor
  else do
    let a ← opA d Fmt.vuArith t 1 1
    let b ← opB d Fmt.vuArith t 1 1
    .ok ([a, b], [])

/-- TEST for one slot (R188). -/
def State.testRun (s : State) (n : Nat) (d : Desc) (t : Option Nat) : SlotRes :=
  match testOpnds d t with
  | .ok ([a, b], _) =>
    let x := s.readOpnd n a
    let y := s.readOpnd n b
    let vx := (elemAt x.vals 0 0).getD Val.zero
    let vy := (elemAt y.vals 0 0).getD Val.zero
    let bit := usrBit (fieldOf d.imm 5 4)
    { s.vecReport n 1 [x, y] [((nvOf [vx, vy]).or x.fl).or y.fl] [{}] with
      set := if relV (d.imm.toNat % 8) vx vy then bit else 0, clr := bit }
  | _ => {}

/-- TEST (R188). -/
def execTest (n : Fin 32) (d : Desc) (s : State) : Host.Outcome State Fault Refusal :=
  .next (s.rounded n ⟨2, 0x18⟩ d (fun _ =>
    s.operate n { code := ⟨2, 0x18⟩ } d (fun _ => testOpnds d) (fun s t => s.testRun n d t)))

/-- The USR bits that a 4-bit mask names. -/
def usrMask (k : Nat) : BitVec 16 := BitVec.ofNat 16 (k % 16 * 4096)

/-- SETSTATE (R189): IMM[3:0] sets, IMM[7:4] clears, and setting wins. -/
def execSetstate (n : Fin 32) (d : Desc) (s : State) : Host.Outcome State Fault Refusal :=
  .next (s.rounded n ⟨2, 0x19⟩ d (fun _ =>
    s.operate n { code := ⟨2, 0x19⟩ } d (fun _ _ => if d.m = 0 ∨ d.n = 0 then .error .descriptor else .ok ([], []))
      (fun _ _ => { set := usrMask (fieldOf d.imm 3 0), clr := usrMask (fieldOf d.imm 7 4) })))

/-! ### REDUCE -/

/-- A value rounded into a destination's format by RM, as each addition of a REDUCE is (R190). (DESIGN CHOICE, log 65) -/
def FSpec.round (f : FSpec) (rm : RM) (x : Val × Fl) : Val × Fl :=
  let (n, fl) := f.inner.encode rm x.1
  (f.inner.decode n, x.2.or fl)

/-- How a REDUCE combines two results (R190). (DESIGN CHOICE, log 65) -/
def reduceOp (f : FSpec) (rm : RM) (sub : Nat) (a b : Val × Fl) : Val × Fl :=
  let fl := a.2.or b.2
  match sub with
  | 0 | 4 => let (v, g) := addV rm a.1 b.1; f.round rm (v, fl.or g)
  | 2 => let (v, g) := maxMinV false a.1 b.1; (v, fl.or g)
  | _ => let (v, g) := maxMinV true a.1 b.1; (v, fl.or g)

/-- What a REDUCE takes of an element and the flags of its reading: |x| for NORM_INF, x² for SUMSQ. -/
def reduceIn (f : FSpec) (rm : RM) (sub : Nat) (x : Val × Fl) : Val × Fl :=
  match sub with
  | 3 => (x.1.absv, x.2)
  | 4 => let (v, fl) := f.round rm (mulV x.1 x.1); (v, fl.or x.2)
  | _ => x

/-- One core's results of a REDUCE: a column of rows (AXIS 0) or a row of columns (AXIS 1). -/
def reduceLocal (f : FSpec) (rm : RM) (sub : Nat) (axis : Bool) (cols : Nat) (x : OpndVal) : List (Val × Fl) :=
  let m := List.zipWith List.zip x.vals x.each
  (if axis then transpose cols m else m).map (fun r =>
    (treeOf (reduceOp f rm sub) (r.map (reduceIn f rm sub))).getD (Val.zero, {}))

/-- The operands of a REDUCE: A is M × N, D is M × 1 or 1 × N. -/
def reduceOpnds (d : Desc) (axis : Bool) (t : Option Nat) : Except StepFault (List Opnd × List Opnd) := do
  let a ← opA d Fmt.vuArith t d.m.toNat d.n.toNat
  let o ← if axis then opD d Fmt.vuArith t 1 d.n.toNat else opD d Fmt.vuArith t d.m.toNat 1
  .ok ([a], [o])

/-- A REDUCE's results as D's matrix. -/
def reduceMat (axis : Bool) (l : List (Val × Fl)) : List (List (Val × Fl)) := if axis then [l] else l.map (fun x => [x])

/-- A REDUCE within one core for one slot. -/
def State.reduceRun (s : State) (n : Nat) (d : Desc) (rm : RM) (sub : Nat) (axis : Bool) (t : Option Nat) : SlotRes :=
  match reduceOpnds d axis t with
  | .ok ([a], [o]) =>
    let x := s.readOpnd n a
    s.vecRes n 1 rm o [x] (reduceMat axis (reduceLocal o.spec rm sub axis d.n.toNat x))
  | _ => {}

/-- A core waits inside its step (R203), and another rank that it runs in turn goes on (R516). `rc` is the status record that the descriptor writes
when it completes (R184). -/
def State.waitFor (s : State) (n : Nat) (w : Wait) (rc : Option (Nat × Nat × Bool)) : State :=
  (s.onCore n (fun k => { k with wait := some (w, s.nclk), waitRec := rc })).passTurn n

/-- Where a descriptor of a core runs (R192, R193). -/
def State.coreTargets (s : State) (n : Nat) (d : Desc) : List (Option Nat) :=
  match (s.core n).run with
  | some (p, c) => s.targets p c (s.core n).rank d
  | none => []

/-- A descriptor that acts as a barrier and combines its operands over the pan (R94, R190): its checks on its own core, and its wait. -/
def State.gather (s : State) (n : Nat) (k : OpCode) (d : Desc) (dp useK : Bool)
    (opnds : Option Nat → Except StepFault (List Opnd × List Opnd)) (w : Nat → Wait) : State :=
  s.issue n k d (fun s i =>
    match (s.core n).run with
    | none => .ok (.done s)
    | some (p, c) =>
      if !descPlain d dp useK then .error .descriptor
      else do
        let _ ← s.statusAt n ((s.header n).getD {}) d
        let s := s.drain n
        if (s.core n).ops ≠ [] then .ok (.held s)
        else
          let os ← s.checkTargets n (s.coreTargets n d) opnds
          let reads := os.flatMap (fun o => o.1.flatMap (s.spansOf n))
          let s := s.streamTouch p c n (s.stagedReads n p c d reads (baseOpnds (opnds none)))
          if s.layerDue n then .ok (.held s) else .ok (.done (s.waitFor n (w i) none)))

/-- A REDUCE (R190): within the core, or with PAN as a barrier. -/
def State.reduce (s : State) (n : Nat) (d : Desc) (sub : Nat) (axis pan : Bool) : State :=
  let k : OpCode := ⟨3, sub + 8 * bitN axis + 16 * bitN pan⟩
  s.rounded n k d (fun rm =>
    if pan then s.gather n k d false false (reduceOpnds d axis) (.reduce d sub axis)
    else s.operate n { code := k } d (fun _ => reduceOpnds d axis) (fun s t => s.reduceRun n d rm sub axis t))

/-- REDUCE SUM (R190). -/
def execReduceSum (n : Fin 32) (d : Desc) (axis pan : Bool) (s : State) : Host.Outcome State Fault Refusal :=
  .next (s.reduce n d 0 axis pan)

/-- REDUCE MAX (R106, R190). -/
def execReduceMax (n : Fin 32) (d : Desc) (axis pan : Bool) (s : State) : Host.Outcome State Fault Refusal :=
  .next (s.reduce n d 1 axis pan)

/-- REDUCE MIN (R106, R190). -/
def execReduceMin (n : Fin 32) (d : Desc) (axis pan : Bool) (s : State) : Host.Outcome State Fault Refusal :=
  .next (s.reduce n d 2 axis pan)

/-- REDUCE NORM_INF (R190). -/
def execNormInf (n : Fin 32) (d : Desc) (axis pan : Bool) (s : State) : Host.Outcome State Fault Refusal :=
  .next (s.reduce n d 3 axis pan)

/-- REDUCE SUMSQ (R190). -/
def execSumsq (n : Fin 32) (d : Desc) (axis pan : Bool) (s : State) : Host.Outcome State Fault Refusal :=
  .next (s.reduce n d 4 axis pan)

/-! ### DIVSQRT and CONV -/

/-- SUBOP of a DIVSQRT (R185). -/
def DsuOp.sub : DsuOp → Nat
  | .div => 0 | .sqrt => 1 | .recip => 2 | .rsqrt => 3

/-- The shape of a DSU operation: only DIV reads B. -/
def DsuOp.shape (op : DsuOp) : ElemShape := { ins := if op = .div then 2 else 1, fmtOk := Fmt.dsu }

/-- What a DSU operation makes of one element (R113-R117): the quotient, root or reciprocal in D's format. -/
def dsuFn (op : DsuOp) (rm : RM) (o : FSpec) : ElemFn := fun vs =>
  let (k, fl) := dsu op rm o (v0 vs 0) (v0 vs 1)
  [(o.decode k, fl)]

/-- A DSU operation (R113-R117). -/
def State.divsqrt (s : State) (n : Nat) (op : DsuOp) (d : Desc) : State :=
  s.mapElems n ⟨6, op.sub⟩ op.shape d (fun rm _ o => dsuFn op rm o)

/-- DIVSQRT DIV. -/
def execDiv (n : Fin 32) (d : Desc) (s : State) : Host.Outcome State Fault Refusal := .next (s.divsqrt n .div d)

/-- DIVSQRT SQRT. -/
def execSqrt (n : Fin 32) (d : Desc) (s : State) : Host.Outcome State Fault Refusal := .next (s.divsqrt n .sqrt d)

/-- DIVSQRT RECIP. -/
def execRecip (n : Fin 32) (d : Desc) (s : State) : Host.Outcome State Fault Refusal := .next (s.divsqrt n .recip d)

/-- DIVSQRT RSQRT. -/
def execRsqrt (n : Fin 32) (d : Desc) (s : State) : Host.Outcome State Fault Refusal := .next (s.divsqrt n .rsqrt d)

/-- CONV (R65-R82): every format converts into every other; a signalling NaN sets NV (R71). -/
def execConv (n : Fin 32) (d : Desc) (s : State) : Host.Outcome State Fault Refusal :=
  .next (s.mapElems n ⟨8, 0⟩ { ins := 1, fmtOk := fun _ => true } d (fun _ _ _ => fun vs => [(v0 vs 0, {})]))

end Sys2Proof.Machine
end

