-- ==== Sys2Proof/Machine/Move.lean ====
section
/-!
DEFINITION. MOVE (R143-R145, R166, R185, R186): copies, fills, full/empty accesses, pages, and deferred moves.
-/

namespace Sys2Proof.Machine

/-- Rows of bytes as an operand. -/
def byteOpnd (a rows cols ld : Nat) : Opnd :=
  { spec := { fmt := .s8 }, addr := a, rows := rows, cols := cols, ld := ld, scale := 0 }

/-- Source and destination of a COPY or FILL. -/
def moveOpnds (d : Desc) (fill : Bool) (t : Option Nat) : Opnd × Opnd :=
  (byteOpnd (slotAddr d d.addrA d.relA t) (if fill then 1 else d.m.toNat) (if fill then 1 else d.n.toNat) d.lda.toNat,
   byteOpnd (slotAddr d d.addrD d.relD t) d.m.toNat d.n.toNat d.ldd.toNat)

/-- Whether a range of a channel's pages is present, whole and aligned (R166). -/
def State.pagesOk (s : State) (a n : Nat) : Except StepFault Unit :=
  if n = 0 ∨ a % 4096 ≠ 0 then .error .descriptor
  else match spanRange a (n * 4096) with
    | .error f => .error f
    | .ok k =>
      if k ≠ 4 then .error .descriptor
      else match s.resolve none a, s.resolve none (a + n * 4096 - 1) with
        | some x, some y => if x / 0x4000000 = y / 0x4000000 then .ok () else .error .address
        | _, _ => .error .address

/-- Bytes of one row read for a move, from memory or from HyperRAM pages (R168). -/
def State.moveRow (s : State) (core a n : Nat) : List Byte × Bool :=
  if rangeOf a = some 4 then
    let ps := (List.range (n / 4096)).map (fun i =>
      s.readPage ((a - 0x40000000) / 0x4000000) (a % 0x4000000 / 4096 + i))
    (ps.flatMap Prod.fst, ps.any Prod.snd)
  else s.fetch core a n

/-- The bytes a FILL repeats (R185). -/
def fillRow (imm : Word) (n : Nat) : List Byte :=
  (List.range n).map (fun i => BitVec.ofNat 8 (imm.toNat / 256 ^ (i % 4)))

/-- The rows a COPY, FILL or page move writes: source and destination program addresses, bytes, poison. Kinds are the SUBOPs of MOVE. -/
def State.moveRows (s : State) (core kind : Nat) (d : Desc) (t : Option Nat) : List (Nat × Nat × List Byte × Bool) :=
  let a := slotAddr d d.addrA d.relA t
  let o := slotAddr d d.addrD d.relD t
  let n := if kind ≥ 4 then 4096 else d.n.toNat
  let la := if kind ≥ 4 then 4096 else d.lda.toNat
  let ld := if kind ≥ 4 then 4096 else d.ldd.toNat
  (List.range d.m.toNat).map (fun i =>
    if kind = 1 then (a, o + i * ld, fillRow d.imm n, false)
    else let (b, bad) := s.moveRow core (a + i * la) n; (a + i * la, o + i * ld, b, bad))

/-- One row of a move written: HyperRAM takes whole pages (R166, R167). -/
def State.moveWrite (s : State) (core : Nat) (w : Nat × List Byte × Bool) : State :=
  if rangeOf w.1 = some 4 then
    (List.range (w.2.1.length / 4096)).foldl (fun s i =>
      s.writePage ((w.1 - 0x40000000) / 0x4000000) (w.1 % 0x4000000 / 4096 + i) ((w.2.1.drop (4096 * i)).take 4096) w.2.2) s
  else (s.resolveWrites core [(w.1, w.2.1)]).foldl (fun s x => s.store core false x.1 x.2 w.2.2) s

/-- The bytes in HyperRAM pages of a move, for the HBUS bucket (R414). -/
def hyperBytes (d : Desc) : Nat := d.m.toNat * 4096

/-- The rows of a deferred move as its source stands at the end of the step (R186). -/
def State.deferredRows (s : State) (core : Nat) (m : Deferred) : List (Nat × List Byte × Bool) :=
  (s.moveRows core m.kind m.desc m.slot).map Prod.snd

/-- A deferred move performed at the commit with the rows read (R186, R199), and charged to the buckets that count it (R414). -/
def State.doDeferred (s : State) (p core : Nat) (m : Deferred) (rows : List (Nat × List Byte × Bool)) : State :=
  let o := byteOpnd (slotAddr m.desc m.desc.addrD m.desc.relD m.slot) m.desc.m.toNat m.desc.n.toNat m.desc.ldd.toNat
  let s := if rangeOf o.addr = some 4 then s.chargeBy p .hbus 4096 (hyperBytes m.desc)
           else (s.farLines core [o]).foldl (fun s l => s.chargeSpan p core (l, l + 63)) s
  rows.foldl (fun s w => s.moveWrite core w) s

/-- Whether a MOVE's destination is region memory or HyperRAM (R186). -/
def deferredDest (a : Nat) : Bool := rangeOf a = some 1 || rangeOf a = some 4

/-- A specifier that the class uses is none of R51. -/
def specOk (w : BitVec 16) : Bool := (FSpec.ofBits w).isSome

/-- The fields of a MOVE that are right whatever slots it runs for (R51, R166, R183): M, and for rows of bytes N; the specifiers of the
operands it uses, D alone for FILL; HyperRAM is reached by page moves only (R24), and by whole pages. -/
def moveFields (kind : Nat) (d : Desc) : Bool :=
  d.m ≠ 0 && (kind ≥ 4 || d.n ≠ 0) && (kind = 1 || specOk d.fmtA) && specOk d.fmtD
    && (kind ≥ 4 || (rangeOf d.addrD.toNat ≠ some 4 && (kind = 1 || rangeOf d.addrA.toNat ≠ some 4)))
    && (kind ≠ 4 || d.relA || d.addrA.toNat % 4096 = 0) && (kind ≠ 5 || d.relD || d.addrD.toNat % 4096 = 0)

/-- The checks of a move for a target: both sides. -/
def State.checkMove (s : State) (core kind : Nat) (d : Desc) (t : Option Nat) : Except StepFault Unit := do
  let a := slotAddr d d.addrA d.relA t
  let o := slotAddr d d.addrD d.relD t
  if kind = 4 then
    let _ ← s.pagesOk a d.m.toNat
    if rangeOf o = some 4 ∨ rangeOf o = some 1 then .error .descriptor
    else s.checkOpnd core (byteOpnd o d.m.toNat 4096 4096)
  else if kind = 5 then
    let _ ← s.pagesOk o d.m.toNat
    if rangeOf a = some 4 ∨ rangeOf a = some 1 then .error .descriptor
    else s.checkOpnd core (byteOpnd a d.m.toNat 4096 4096)
  else
    let (x, y) := moveOpnds d (kind = 1) t
    let _ ← if kind = 1 then .ok () else s.checkOpnd core x
    s.checkOpnd core y

/-- Source and destination of a move as rows of bytes: a page move's rows are its pages. A FILL has no source. -/
def moveSides (kind : Nat) (d : Desc) (t : Option Nat) : List Opnd × List Opnd :=
  let (x, y) := if kind ≥ 4 then
      (byteOpnd (slotAddr d d.addrA d.relA t) d.m.toNat 4096 4096, byteOpnd (slotAddr d d.addrD d.relD t) d.m.toNat 4096 4096)
    else moveOpnds d (kind = 1) t
  (if kind = 1 then [] else [x], [y])

/-- Page transfers of a PAGE_LOAD, one transaction per page on its channel (R418), each with its place for HBUS tokens (R414) and the operation's
result that it is part of. -/
def State.addPages (s : State) (n p c id res a pages : Nat) : State :=
  let toks := s.nextPlaces p .hbus pages
  let s := s.chargeBy p .hbus 4096 (pages * 4096)
  { s with xacts := s.xacts ++ ((List.range pages).zip toks).map (fun i =>
      { core := n, pan := p, ctx := c, tag := (s.ctx p c).tag, op := id, chan := some ((a - 0x40000000) / 0x4000000),
        page := a % 0x4000000 / 4096 + i.1, tok := i.2, res := res }) }

/-- A side of a move whose lines are accesses of a memory; pages of HyperRAM are transactions of their channel instead (R418). -/
def Opnd.lined (o : Opnd) : Bool := rangeOf o.addr ≠ some 4

/-- Where a move runs, with everything checked: its fields for every target, and its sides. -/
def State.moveTargets (s : State) (n p c kind : Nat) (d : Desc) : Except StepFault (List (Option Nat)) := do
  let ts := s.targets p c (s.core n).rank d
  let _ ← if moveFields kind d then .ok () else .error .descriptor
  let _ ← ts.mapM (s.checkMove n kind d)
  .ok ts

/-- Whether a MOVE is deferred for a target (R186). -/
def deferredFor (d : Desc) (t : Option Nat) : Bool := deferredDest (slotAddr d d.addrD d.relD t)

/-- A MOVE recorded to be performed at the commit (R186): nothing is read at issue. Its part in the operation's results, poisoned where its
descriptor is, stands when the operation completes. (DESIGN CHOICE, log 68) -/
def State.defer (s : State) (n i kind : Nat) (d : Desc) (ts : List (Option Nat)) : State × List SlotRes :=
  (s.onCore n (fun k => { k with moves := k.moves ++ ts.map (fun t => { rank := (s.core n).rank, slot := t, kind := kind, desc := d, index := i }) }),
   ts.map (fun t => { slot := t, bad := (s.fetchDesc n i).2 }))

/-- Whether a core's step has no room for as many more deferred moves (R186). -/
def State.movesFull (s : State) (n k : Nat) : Bool := 16 < (s.core n).moves.length + k

/-- One target's results of a move that runs at once: each row with the span it was read from (R159). -/
def State.moveRun (s : State) (n kind : Nat) (d : Desc) (t : Option Nat) : SlotRes :=
  { writes := (s.moveRows n kind d t).flatMap (fun r =>
      (s.resolveWrites n [(r.2.1, r.2.2.1)]).map (fun w =>
        { w with bad := r.2.2.2, src := if kind = 1 then [] else s.spansOf n (byteOpnd r.1 1 r.2.2.1.length 0) })) }

/-- A COPY, FILL, PAGE_LOAD or PAGE_STORE (R185, R186). -/
def State.move (s : State) (n kind : Nat) (d : Desc) : State :=
  s.issue n ⟨0, kind⟩ d (fun s i =>
    match (s.core n).run with
    | none => .ok (.done s)
    | some (p, c) =>
      if !descPlain d false false then .error .descriptor
      else do
        let st ← s.statusAt n ((s.header n).getD {}) d
        let s := s.clearWay n false d
        if s.wantsClear n false d && (s.core n).ops ≠ [] then .ok (.held s)
        else
          let ts ← s.moveTargets n p c kind d
          let late := ts.filter (deferredFor d)
          let now := ts.filter (fun t => !deferredFor d t)
          if s.movesFull n late.length then .error .descriptor
          else
            let op := s.opOf n i d false st ts.length (now.map (moveSides kind d)) Opnd.lined
            match s.readyToIssue n p c d op (moveSides kind d none).1 with
            | .held s => .ok (.held s)
            | .done s =>
              let rs := s.runTargets n op (s.fetchDesc n i).2 (fun s t => s.moveRun n kind d t) (now.map (fun t => (t, [])))
              let (s, ls) := s.defer n i kind d late
              let id := (s.core n).opId
              let s := s.push n p c { op with res := rs ++ ls }
              .ok (.done (if kind = 4 then ((List.range now.length).zip now).foldl (fun s t =>
                s.addPages n p c id t.1 (slotAddr d d.addrA d.relA t.2) d.m.toNat) s else s)))

/-- MOVE COPY. -/
def execCopy (n : Fin 32) (d : Desc) (s : State) : Host.Outcome State Fault Refusal := .next (s.move n 0 d)

/-- MOVE FILL. -/
def execFill (n : Fin 32) (d : Desc) (s : State) : Host.Outcome State Fault Refusal := .next (s.move n 1 d)

/-- MOVE PAGE_LOAD (R166, R168). -/
def execPageLoad (n : Fin 32) (d : Desc) (s : State) : Host.Outcome State Fault Refusal := .next (s.move n 4 d)

/-- MOVE PAGE_STORE (R166, R186): a deferred move. -/
def execPageStore (n : Fin 32) (d : Desc) (s : State) : Host.Outcome State Fault Refusal := .next (s.move n 5 d)

/-! ### Full/empty accesses -/

/-- Full/empty rows granted one after another (R144): the first line in the wrong state stops them. Answers the state, the
rows still to come, and the targets that met poison. (DEDUCED, log 37) -/
def State.feRows (s : State) (n : Nat) (write : Bool) :
    List (Option Nat × Nat × Nat) → List (Option Nat) → State × List (Option Nat × Nat × Nat) × List (Option Nat)
  | [], bad => (s, [], bad)
  | (t, a, o) :: r, bad =>
    let line := if write then o else a
    if s.isFull line = write then (s, (t, a, o) :: r, bad)
    else
      let s := s.flushLine (s.readPhys (s.headerFor line) line)
      let (bs, isBad) := s.loadAt a 64
      let s := (s.store n false o bs isBad).mark line write
      s.feRows n write r (if isBad then bad ++ [t] else bad)

/-- The results of a finished full/empty operation. -/
def feOp (op : OutOp) (bad : List (Option Nat)) : OutOp :=
  { op with res := op.res.map (fun r => { r with bad := r.bad || bad.contains r.slot }) }

/-- The wait limit of a full/empty access of a core, in ACLK cycles (R145, R147). -/
def State.slotWait (s : State) (n : Nat) : Nat := s.rwField (.slotWait (n / 8)) 15 0

/-- A core's full/empty rows tried: they finish or wait (R145). (DEDUCED, log 37) -/
def State.feTry (s : State) (n p c : Nat) (write : Bool) (items : List (Option Nat × Nat × Nat)) (bad : List (Option Nat))
    (op : OutOp) (since : Nat) : State :=
  let (s, rest, bad) := s.feRows n write items bad
  if rest = [] then
    ((s.onCore n (fun k => { k with wait := none })).push n p c (feOp op bad))
  else s.onCore n (fun k => { k with wait := some (.fullEmpty write rest bad op, since) })

/-- A core's rank that waits on a full/empty line, and whose limit has not passed, tries again (R145; two ACLK cycles to one of NCLK). (DEDUCED, log 37) -/
def State.feAgain (s : State) (k : Nat) : State :=
  match (s.core k).wait, (s.core k).run with
  | some (.fullEmpty w items bad op, t), some (p, c) =>
    if 2 * (s.nclk - t) ≤ s.slotWait k then (s.feTry k p c w items bad op t).passEnd k else s
  | _, _ => s

/-- Every core that waits on a full/empty line tries again, with each of its ranks that does (R145, R516). (DEDUCED, log 37) -/
def State.feRetry (s : State) : State :=
  (List.range 32).foldl (fun s k =>
    ((s.core k).turns.filter (fun t => t.wait.isSome && !Wait.barred t.wait)).foldl (fun s t => ((s.turnTo k t.rank).feAgain k).passTurn k)
      (s.feAgain k)) s

/-- The form of a full/empty access (R51, R143): whole aligned lines, one per row. -/
def feFields (write : Bool) (d : Desc) : Bool :=
  let base := if write then d.addrD else d.addrA
  let ld := if write then d.ldd else d.lda
  d.m ≠ 0 && d.n = 64 && base.toNat % 64 = 0 && (ld.toNat % 64 = 0 || d.m = 1) && specOk d.fmtA && specOk d.fmtD

/-- The rows of a full/empty access: slot, and resolved source and destination. -/
def State.feItems (s : State) (n : Nat) (d : Desc) (ts : List (Option Nat)) : List (Option Nat × Nat × Nat) :=
  ts.flatMap (fun t => (List.range d.m.toNat).filterMap (fun r =>
    match s.resolve (some n) (slotAddr d d.addrA d.relA t + r * d.lda.toNat),
          s.resolve (some n) (slotAddr d d.addrD d.relD t + r * d.ldd.toNat) with
    | some a, some o => some (t, a, o)
    | _, _ => none))

/-- FE_READ or FE_WRITE (R143-R145): any other form than whole aligned lines is a descriptor fault. A row that finds its line in the wrong
state faults at once in strict mode, and in open mode where SLOT_WAIT is 0 (R147); the rows granted before it stand. One into region memory is
deferred (R186). (DEDUCED, log 37) -/
def State.feMove (s : State) (n : Nat) (write : Bool) (d : Desc) : State :=
  let kind := if write then 3 else 2
  let s := s.issue n ⟨0, kind⟩ d (fun s i =>
    match (s.core n).run with
    | none => .ok (.done s)
    | some (p, c) =>
      if !descPlain d false false || !feFields write d then .error .descriptor
      else do
        let st ← s.statusAt n ((s.header n).getD {}) d
        let s := s.drain n
        if (s.core n).ops ≠ [] then .ok (.held s)
        else
          let ts := s.targets p c (s.core n).rank d
          let _ ← ts.mapM (fun t => do
            let (x, y) := moveOpnds d false t
            let _ ← s.checkOpnd n x
            s.checkOpnd n y)
          let late := ts.filter (deferredFor d)
          let now := ts.filter (fun t => !deferredFor d t)
          if s.movesFull n late.length then .error .descriptor
          else
            let sides := now.flatMap (fun t => [(moveOpnds d false t).1, (moveOpnds d false t).2])
            let (s, ls) := s.defer n i kind d late
            let op : OutOp := { id := 0, rank := (s.core n).rank, desc := i, status := st, run := ts.length, narrow := false, slotwise := d.slotwise,
                                writes := statusSpan st, far := s.farLines n sides,
                                res := now.map (fun t => { slot := t, bad := (s.fetchDesc n i).2 }) ++ ls }
            let s := s.feTry n p c write (s.feItems n d now) [] op s.nclk
            if (s.core n).wait = none then .ok (.done s)
            else if s.strict then .ok (.done (s.fault n .schedule i))
            else if s.slotWait n = 0 then .ok (.done (s.fault n .slotTimeout i))
            else .ok (.done (s.passTurn n)))
  s.feRetry

/-- MOVE FE_READ (R144). -/
def execFeRead (n : Fin 32) (d : Desc) (s : State) : Host.Outcome State Fault Refusal := .next (s.feMove n false d)

/-- MOVE FE_WRITE (R144). -/
def execFeWrite (n : Fin 32) (d : Desc) (s : State) : Host.Outcome State Fault Refusal := .next (s.feMove n true d)

/-- SLOT_TIMEOUT (R145): a full/empty access that has waited SLOT_WAIT cycles of ACLK (two to a cycle of NCLK). (DEDUCED, log 37) -/
def execSlotTimeout (n : Fin 32) (s : State) : Host.Outcome State Fault Refusal :=
  .next (
    if s.inReset then s
    else match (s.core n).waits.findSome? (fun w => match w.1.1 with
        | .fullEmpty _ _ _ op => if s.slotWait n ≤ 2 * (s.nclk - w.1.2) then some op.desc else none
        | _ => none) with
      | some i => s.fault n .slotTimeout i
      | none => s)

end Sys2Proof.Machine
end

