-- ==== Sys2Proof/Machine/Gemm.lean ====
section
/-!
DEFINITION. GEMM on the tensor array (R83-R98, R185): paths, operands, and a product split along K over a pan.
-/

namespace Sys2Proof.Machine

/-- Whether an operand takes the integer path (R86). -/
def FSpec.taInt (f : FSpec) : Bool := !f.blocked && (f.fmt.isInt || f.fmt = .fx32)

/-- The formats of D and C (R98): every format but E8M0 and BX24. (DESIGN CHOICE, log 65) -/
def taOut : Fmt → Bool
  | .e8m0 | .bx24 => false
  | _ => true

/-- Whether two specifiers may be paired (R86): S32 and FX32 pair with the integer path only. -/
def taPair (a b : FSpec) : Bool :=
  (a.taInt && b.taInt) || !(a.fmt = .s32 || a.fmt = .fx32 || b.fmt = .s32 || b.fmt = .fx32)

/-- The operands of a GEMM: A, B and, with CIN, C; then D (R83, R185). BLK_DIR 0 runs along K for A and B. (DESIGN CHOICE, log 65) -/
def gemmOpnds (d : Desc) (cin ta tb : Bool) (t : Option Nat) : Except StepFault (List Opnd × List Opnd) := do
  let m := d.m.toNat
  let n := d.n.toNat
  let k := d.k.toNat
  let a ← opndOf Fmt.taOperand d.fmtA (slotAddr d d.addrA d.relA t) (if ta then k else m) (if ta then m else k)
    d.lda.toNat d.scofsA.toNat (fun f => f.blkDir != ta)
  let b ← opndOf Fmt.taOperand d.fmtB (slotAddr d d.addrB d.relB t) (if tb then n else k) (if tb then k else n)
    d.ldb.toNat d.scofsB.toNat (fun f => f.blkDir == tb)
  let o ← opD d taOut t m n
  let c ← if cin then (opC d taOut t m n).map (fun x => [x]) else .ok []
  if taPair a.spec b.spec ∧ (dpWindow d.dpmode.toNat).isSome then .ok ([a, b] ++ c, [o]) else .error .descriptor

/-- One core's parts of the output elements (R94 stage 1), with the operands read. -/
def State.gemmParts (s : State) (n : Nat) (d : Desc) (ta tb : Bool) (a b : Opnd) : List (List Part) × List OpndVal :=
  let x := s.readOpnd n a
  let y := s.readOpnd n b
  let rows := if ta then transpose d.m.toNat x.vals else x.vals
  let cols := if tb then y.vals else transpose d.n.toNat y.vals
  let part (r c : List Val) : Part :=
    if a.spec.taInt && b.spec.taInt then let (k, fl) := dotI a.spec.point b.spec.point r c; .int k fl
    else let (v, fl) := dotF ((dpWindow d.dpmode.toNat).getD 63) r c; .flt v fl
  (rows.map (fun r => cols.map (part r)), [x, y])

/-- An element of the addend. -/
def addendAt (c : Option OpndVal) (i j : Nat) : Option Val :=
  match c with
  | none => none
  | some v => some ((elemAt v.vals i j).getD Val.zero)

/-- What one core's tensor array reports of the operands it read and the products it formed (R82, R118, R159). -/
def partReport (ins : List OpndVal) (fl : List Fl) : SlotRes :=
  { bad := ins.any OpndVal.bad, ta := (Fl.orAll fl).or (Fl.orAll (ins.map OpndVal.fl)),
    blk := blkBits ((ins[0]?).any (fun x => x.fl.blk)) ((ins[1]?).any (fun x => x.fl.blk)) ((ins[2]?).any (fun x => x.fl.blk)) false }

/-- The output elements written back (R94 stage 3, R98): C_in added last, one rounding to nearest. `ins` are A and B as this core read
them. -/
def State.gemmOut (s : State) (n : Nat) (a b : Opnd) (o : Opnd) (c : Option Opnd) (parts : List (List Part))
    (ins : List OpndVal) : SlotRes :=
  let cv : Option OpndVal := c.map (s.readOpnd n)
  let p := a.spec.point + b.spec.point
  let m := ((List.range o.rows).zip parts).map (fun (i, r) =>
    ((List.range o.cols).zip r).map (fun (j, x) => Part.final p (addendAt cv i j) x))
  let e := o.encode .rte (m.map (fun r => r.map Prod.fst))
  let r := partReport (ins ++ cv.toList) (e.fl :: m.flatMap (fun r => r.map Prod.snd))
  { r with writes := s.resolveWrites n e.writes, blk := r.blk ||| blkBits false false false e.fl.blk }

/-- A GEMM within one core for one slot. (DEDUCED, log 58) -/
def State.gemmRun (s : State) (n : Nat) (d : Desc) (cin ta tb : Bool) (t : Option Nat) : SlotRes :=
  match gemmOpnds d cin ta tb t with
  | .ok (a :: b :: c, [o]) =>
    let (parts, ins) := s.gemmParts n d ta tb a b
    s.gemmOut n a b o c.head? parts ins
  | _ => {}

/-- CLASS and SUBOP of a GEMM (R185). -/
def gemmCode (cin ta tb pank : Bool) : OpCode := ⟨1, bitN cin + 2 * bitN ta + 4 * bitN tb + 8 * bitN pank⟩

/-- GEMM (R83, R185): on one core, or with PANK split along K over the pan, which waits for every core (R94 stage 2). -/
def execGemm (n : Fin 32) (d : Desc) (cin transA transB pank : Bool) (s : State) : Host.Outcome State Fault Refusal :=
  .next (
    if pank then
      s.gather n (gemmCode cin transA transB pank) d true true (gemmOpnds d cin transA transB) (.gemm d cin transA transB)
    else s.operate n { code := gemmCode cin transA transB pank, narrow := false, dp := true, useK := true } d
      (fun _ => gemmOpnds d cin transA transB) (fun s t => s.gemmRun n d cin transA transB t))

end Sys2Proof.Machine
end

