-- ==== Sys2Proof/Machine/Solver.lean ====
section
/-!
DEFINITION. FACTOR and TRSOLVE (R218-R224): LDLᵀ factors with their pivot cases, the stage-wise recursion, and triangular
solves.
-/

namespace Sys2Proof.Machine

/-! ### LDLᵀ -/

/-- The formats of a factor (R219). -/
def factorFmt : Fmt → Bool
  | .fx32 | .fp32 | .fp64 => true
  | _ => false

/-- The formats of the other operands of FACTOR and TRSOLVE (R48): those that one of their units, the tensor array and the vector unit,
accepts. -/
def solverFmt (f : Fmt) : Bool := f.taOperand || f.vuArith

/-- A factor in the making: for each finished column its pivot and its entries by row (0 on and above the diagonal), the
stored reciprocals, flags, flags that count in the slot's flag word, and the pivot cases met (R221). -/
structure Ldlt where
  cols : List (Val × List Val) := []
  recips : List Val := []
  fl : Fl := {}
  slotFl : Fl := {}
  zero : Bool := false
  sat : Bool := false

/-- An entry of the factored matrix less what earlier columns take from it (R220): nothing in the first column. -/
def Ldlt.update (f : FSpec) (acc : Ldlt) (a : Val) (i j : Nat) : Val × Fl :=
  if acc.cols.isEmpty then (a, {})
  else Config.solverDot f a (acc.cols.map (fun c => ((mulV c.1 (c.2.getD i Val.zero)).1.negate, c.2.getD j Val.zero)))

/-- What R221 makes of a pivot: the pivot used, whether it was replaced (ZERO_PIVOT), and whether its reciprocal is recorded as saturated
(PIVOT_SAT). `floor` is δ_min; none leaves every pivot as it is (R250). -/
def pivotCase (floor : Option Val) (pos : Bool) (d : Val) : Val × Bool × Bool :=
  match floor with
  | none => (d, false, false)
  | some dmin =>
    if d.isZero || (!d.isNan && d.neg == pos) then (if pos then dmin else dmin.negate, true, false)
    else (d, false, ltV d.absv dmin)

/-- Column j of a factorisation (R220, R221): `pos` is the pivot's expected sign, `floor` the pivot floor. -/
def Ldlt.column (fa fd : FSpec) (rm : RM) (pos : Bool) (floor : Option Val) (m : List (List Val)) (size j : Nat) (acc : Ldlt) : Ldlt :=
  let at' (i : Nat) : Val := (elemAt m i j).getD Val.zero
  let (d0, f0) := acc.update fa (at' j) j j
  let (d, fix, sat) := pivotCase floor pos d0
  let (rb, fr) := dsu .recip rm fd d Val.zero
  let r := fd.decode rb
  let below := (List.range size).map (fun i =>
    if i ≤ j then (Val.zero, ({} : Fl))
    else
      let (c, f1) := acc.update fa (at' i) i j
      let (p, f2) := mulV c r
      let (b, f3) := fd.encode rm p
      (fd.decode b, (f1.or f2).or f3))
  let f := (f0.or (Fl.orAll (below.map Prod.snd)))
  { cols := acc.cols ++ [(d, below.map Prod.fst)], recips := acc.recips ++ [r], fl := (acc.fl.or f).or fr,
    slotFl := (acc.slotFl.or f).or (if sat then { fr with ovf := false } else fr),
    zero := acc.zero || fix, sat := acc.sat || sat }

/-- The factorisation of the symmetric matrix whose lower triangle is `m`, regularised already: the first `pcount` pivots are
expected positive. (DESIGN CHOICE, log 23) -/
def ldlt (fa fd : FSpec) (rm : RM) (pcount : Nat) (floor : Option Val) (m : List (List Val)) (size : Nat) : Ldlt :=
  (List.range size).foldl (fun acc j => acc.column fa fd rm (j < pcount) floor m size j) {}

/-- Row i of a factor as D holds it (R219): L below the diagonal, the pivot's reciprocal on it. -/
def Ldlt.row (f : Ldlt) (i : Nat) : List Val :=
  (f.cols.take i).map (fun c => c.2.getD i Val.zero) ++ [f.recips.getD i Val.zero]

/-- δ added to a diagonal (R220): +δ to the first `pcount` entries, −δ to the rest, rounded into the matrix's format. -/
def regularise (f : FSpec) (rm : RM) (delta : Val) (pcount : Nat) (m : List (List Val)) : List (List Val) × Fl :=
  let rows := ((List.range m.length).zip m).map (fun (i, r) => ((List.range r.length).zip r).map (fun (j, v) =>
    if i = j then
      let (x, f1) := addV rm v (if i < pcount then delta else delta.negate)
      let (b, f2) := f.encode rm x
      (f.decode b, f1.or f2)
    else (v, {})))
  (rows.map (fun r => r.map Prod.fst), Fl.orAll (rows.map (fun r => Fl.orAll (r.map Prod.snd))))

/-- The operands of FACTOR LDLT_DENSE (R219): A, the parameter line B, read in A's format whatever specifier but a reserved one FMT_B holds
(R51), and D. (DESIGN CHOICE, log 65) -/
def factorOpnds (d : Desc) (t : Option Nat) : Except StepFault (List Opnd × List Opnd) := do
  let m := d.m.toNat
  let a ← opA d factorFmt t m m
  let o ← opD d factorFmt t m m
  let b := { a with addr := slotAddr d d.addrB d.relB t, rows := 1, cols := 2, ld := d.ldb.toNat }
  if !specOk d.fmtB ∨ d.m ≠ d.n ∨ a.spec.fmt ≠ o.spec.fmt ∨ 65536 ≤ d.imm.toNat then .error .descriptor else .ok ([a, b], [o])

/-- The lower triangle of a matrix operand, row by row. -/
def State.readLower (s : State) (n : Nat) (o : Opnd) : List OpndVal :=
  (List.range o.rows).map (fun i => s.readOpnd n { o with addr := o.addr + i * o.ld, rows := 1, cols := i + 1 })

/-- A matrix of values whose rows may be shorter than the operand's, converted into its format (R66, R68). -/
def Opnd.encodeRows (o : Opnd) (rm : RM) (m : List (List Val)) : Encoded :=
  let es := m.map (fun r => r.map (fun v => o.spec.encode rm v))
  { writes := o.rowWrites (es.map (fun r => r.map Prod.fst)), each := es.map (fun r => r.map Prod.snd) }

/-- State bits of a factorisation (R191, R221). -/
def Ldlt.bits (f : Ldlt) : BitVec 16 := (if f.zero then 0x0040 else 0) ||| (if f.sat then 0x0080 else 0)

/-- FACTOR LDLT_DENSE for one slot (R219-R221). -/
def State.ldltRun (s : State) (n : Nat) (d : Desc) (rm : RM) (t : Option Nat) : SlotRes :=
  match factorOpnds d t with
  | .ok ([a, b], [o]) =>
    let rows := s.readLower n a
    let par := s.readOpnd n b
    let delta := (elemAt par.vals 0 0).getD Val.zero
    let dmin := (elemAt par.vals 0 1).getD Val.zero
    let (m, fr) := regularise a.spec rm delta (d.imm.toNat % 65536) (rows.map (fun r => r.vals.getD 0 []))
    let f := ldlt a.spec o.spec rm (d.imm.toNat % 65536) (some dmin) m o.rows
    let e := o.encodeRows rm ((List.range o.rows).map f.row)
    { s.vecReport n 1 (par :: rows) [f.fl.or fr] [e.fl] with
      writes := s.resolveWrites n e.writes, slotVu := (f.slotFl.or fr).or e.fl, set := f.bits, blk := 0 }
  | _ => {}

/-- FACTOR LDLT_DENSE (R219-R222). -/
def execLdltDense (n : Fin 32) (d : Desc) (s : State) : Host.Outcome State Fault Refusal :=
  .next (
    s.rounded n ⟨4, 0⟩ d (fun rm =>
      s.operate n { code := ⟨4, 0⟩, narrow := false } d (fun _ => factorOpnds d) (fun s t => s.ldltRun n d rm t)))

/-! ### Stage-wise factorisation -/

/-- A matrix product added to a matrix: C + A × B, each element rounded as the engine does. -/
def mulAdd (f : FSpec) (c a b : List (List Val)) (rows cols : Nat) : List (List Val) × Fl :=
  let bt := transpose cols b
  let m := (List.range rows).map (fun i => (List.range cols).map (fun j =>
    Config.solverDot f ((elemAt c i j).getD Val.zero) ((a.getD i []).zip (bt.getD j []))))
  (m.map (fun r => r.map Prod.fst), Fl.orAll (m.map (fun r => Fl.orAll (r.map Prod.snd))))

/-- Forward substitution: L y = b. -/
def forwardSub (dot : Val → List (Val × Val) → Val × Fl) (l : Nat → Nat → Val) (b : List Val) : List Val × Fl :=
  ((List.range b.length).zip b).foldl (fun acc x =>
    let (v, f) := dot x.2 (((List.range x.1).zip acc.1).map (fun e => ((l x.1 e.1).negate, e.2)))
    (acc.1 ++ [v], acc.2.or f)) ([], {})

/-- Backward substitution: Lᵀ x = y, from the last element up. -/
def backwardSub (dot : Val → List (Val × Val) → Val × Fl) (l : Nat → Nat → Val) (y : List Val) : List Val × Fl :=
  ((List.range y.length).zip y).foldr (fun x acc =>
    let (v, f) := dot x.2 (((List.range acc.1.length).zip acc.1).map (fun e => ((l (x.1 + 1 + e.1) x.1).negate, e.2)))
    (v :: acc.1, acc.2.or f)) ([], {})

/-- One stage of R224: its P, the factor of R̄ and the gain K, with the flags. -/
def stage (fa fd : FSpec) (rm : RM) (delta dmin : Val) (nx nu : Nat) (q r sh ak bk p : List (List Val)) :
    List (List Val) × Ldlt × List (List Val) × Fl :=
  let (pb, f1) := mulAdd fa [] p bk nx nu
  let (pa, f2) := mulAdd fa [] p ak nx nx
  let (rb0, f3) := mulAdd fa r (transpose nu bk) pb nu nu
  let (rb, f4) := regularise fa rm delta nu rb0
  let (sb, f5) := mulAdd fa sh (transpose nx ak) pb nx nu
  let f := ldlt fa fd rm nu (some dmin) rb nu
  let dot := Config.solverDot fd
  let l (i j : Nat) : Val := (f.cols.getD j (Val.zero, [])).2.getD i Val.zero
  let cols := (List.range nx).map (fun c =>
    let (y, g1) := forwardSub dot l (sb.getD c [])
    let z := (y.zip f.recips).map (fun e => fd.round rm (mulV e.1 e.2))
    let (x, g2) := backwardSub dot l (z.map Prod.fst)
    (x.map Val.negate, (g1.or g2).or (Fl.orAll (z.map Prod.snd))))
  let k := transpose nu (cols.map Prod.fst)
  let (p1, f6) := mulAdd fa q (transpose nx ak) pa nx nx
  let (p2, f7) := mulAdd fa p1 sb k nx nx
  let p3 := (List.range nx).map (fun i => (List.range nx).map (fun j =>
    let (v, g) := addV rm ((elemAt p2 i j).getD Val.zero) ((elemAt p2 j i).getD Val.zero)
    fa.round rm ((mulV v (.fin false 1 (-1))).1, g)))
  (p3.map (fun r => r.map Prod.fst), f, k,
    Fl.orAll ([f1, f2, f3, f4, f5, f6, f7] ++ cols.map Prod.snd ++ p3.map (fun r => Fl.orAll (r.map Prod.snd))))

/-- Rows and widest row of an operand of a stage-wise factorisation: blocks stacked in the order R224 names them. -/
def stagedShape (d : Desc) : (Nat × Nat) × (Nat × Nat) × (Nat × Nat) :=
  let n := d.m.toNat
  let nx := d.n.toNat
  let nu := d.k.toNat
  let w := max nx nu
  let mhe := if d.imm.getLsbD 0 then nx else 0
  ((n * (2 * nx + nu) + nx + mhe, w), (n * (2 * nx), w), (n * (nx + 2 * nu) + mhe, w))

/-- The operands of FACTOR LDLT_STAGED (R224): A, the parameter line, C, and D. (DESIGN CHOICE, log 65) -/
def stagedOpnds (d : Desc) (t : Option Nat) : Except StepFault (List Opnd × List Opnd) := do
  let (sa, sc, sd) := stagedShape d
  let a ← opA d factorFmt t sa.1 sa.2
  let c ← opC d solverFmt t sc.1 sc.2
  let o ← opD d factorFmt t sd.1 sd.2
  let b := { a with addr := slotAddr d d.addrB d.relB t, rows := 1, cols := 2, ld := d.ldb.toNat }
  if !specOk d.fmtB ∨ d.k = 0 ∨ a.spec.fmt ≠ o.spec.fmt ∨ 2 ≤ d.imm.toNat then .error .descriptor else .ok ([a, b, c], [o])

/-- A block of `r` rows and `c` columns of a matrix, from row `i` on. -/
def blockAt (m : List (List Val)) (i r c : Nat) : List (List Val) := ((m.drop i).take r).map (List.take c)

/-- FACTOR LDLT_STAGED for one slot (R221, R224). (DESIGN CHOICE, log 65) -/
def State.stagedRun (s : State) (n : Nat) (d : Desc) (rm : RM) (t : Option Nat) : SlotRes :=
  match stagedOpnds d t with
  | .ok ([a, b, c], [o]) =>
    let va := s.readOpnd n a
    let vc := s.readOpnd n c
    let par := s.readOpnd n b
    let delta := (elemAt par.vals 0 0).getD Val.zero
    let dmin := (elemAt par.vals 0 1).getD Val.zero
    let nst := d.m.toNat
    let nx := d.n.toNat
    let nu := d.k.toNat
    let h := 2 * nx + nu
    let run := (List.range nst).foldr (fun k (acc : List (List Val) × List (List (List Val)) × Fl × Fl × BitVec 16) =>
      let (p, f, g, fl) := stage a.spec o.spec rm delta dmin nx nu (blockAt va.vals (k * h) nx nx)
        (blockAt va.vals (k * h + nx) nu nu) (blockAt va.vals (k * h + nx + nu) nx nu)
        (blockAt vc.vals (k * 2 * nx) nx nx) (blockAt vc.vals (k * 2 * nx + nx) nx nu) acc.1
      (p, (p ++ (List.range nu).map f.row ++ g) :: acc.2.1, (acc.2.2.1.or fl).or f.fl, (acc.2.2.2.1.or fl).or f.slotFl,
        acc.2.2.2.2 ||| f.bits)) (blockAt va.vals (nst * h) nx nx, [], {}, {}, 0)
    let last : List (List Val) × Fl × Fl × BitVec 16 :=
      if d.imm.getLsbD 0 then
        let (m, f0) := mulAdd a.spec run.1 (blockAt va.vals (nst * h + nx) nx nx)
          ((List.range nx).map (fun i => (List.range nx).map (fun j => if i = j then .fin false 1 0 else Val.zero))) nx nx
        let f := ldlt a.spec o.spec rm nx (some dmin) m nx
        ((List.range nx).map f.row, f.fl.or f0, f.slotFl.or f0, f.bits)
      else ([], {}, {}, 0)
    let e := o.encodeRows rm (run.2.1.flatten ++ last.1)
    let wr := e.fl.or vc.fl
    { s.vecReport n 1 [va, par, vc] [run.2.2.1.or last.2.1] [wr] with
      writes := s.resolveWrites n e.writes, slotVu := (run.2.2.2.1.or last.2.2.1).or wr, set := run.2.2.2.2 ||| last.2.2.2,
      blk := blkBits false false vc.fl.blk false }
  | _ => {}

/-- FACTOR LDLT_STAGED (R224). -/
def execLdltStaged (n : Fin 32) (d : Desc) (s : State) : Host.Outcome State Fault Refusal :=
  .next (
    s.rounded n ⟨4, 1⟩ d (fun rm =>
      s.operate n { code := ⟨4, 1⟩, narrow := false, useK := true } d (fun _ => stagedOpnds d) (fun s t => s.stagedRun n d rm t)))

/-! ### TRSOLVE -/

/-- Whether the dot products of a solve can be formed (R223): the factor with the solution, which the tensor array pairs by R86; a 64-bit
format, which it does not take (R48), leaves them to the engine. -/
def trPair (a o : FSpec) : Bool := !a.fmt.taOperand || !o.fmt.taOperand || taPair a o

/-- The operands of TRSOLVE (R223): the factor, M × M, or for a STAGED factor M × N; B and D, M × K. -/
def trsolveOpnds (d : Desc) (t : Option Nat) : Except StepFault (List Opnd × List Opnd) := do
  let m := d.m.toNat
  let k := d.k.toNat
  let a ← opA d factorFmt t m (if d.imm.getLsbD 16 then d.n.toNat else m)
  let b ← opB d solverFmt t m k
  let o ← opD d solverFmt t m k
  if (d.imm &&& ~~~(0x10000 : Word)) ≠ 0 ∨ !trPair a.spec o.spec then .error .descriptor else .ok ([a, b], [o])

/-- A dot product of a solve (R223): in the tensor array by R83-R99, its result rounded to nearest into D's format; FP64, which
the tensor array does not take (R48), as the engine rounds it. (DESIGN CHOICE, log 65) -/
def trDot (fa fd : FSpec) (b : Val) (ps : List (Val × Val)) : Val × Fl :=
  if !fa.fmt.taOperand ∨ !fd.fmt.taOperand then
    if ps.isEmpty then fd.round .rte (b, {}) else Config.solverDot fd.inner b ps
  else
    let part : Part :=
      if fa.taInt && fd.taInt then
        let (k, fl) := dotI fa.point fd.point (ps.map Prod.fst) (ps.map Prod.snd)
        .int k fl
      else let (v, fl) := dotF 63 (ps.map Prod.fst) (ps.map Prod.snd); .flt v fl
    fd.round .rte (part.final (fa.point + fd.point) (some b))

/-- One right-hand side solved: its solution, the flags of the tensor array and of the vector unit. SUBOPs: 0 FORWARD, 1 DIAG,
2 BACKWARD, 3 FULL. -/
def solveColumn (fa fd : FSpec) (rm : RM) (sub : Nat) (a : List (List Val)) (b : List Val) : List Val × Fl × Fl :=
  let l (i j : Nat) : Val := (elemAt a i j).getD Val.zero
  let (y, f1) := if sub = 0 ∨ sub = 3 then forwardSub (trDot fa fd) l b else (b, {})
  let scaled := ((List.range y.length).zip y).map (fun (i, v) =>
    fd.round rm (mulV v (l i i)))
  let (z, f2) := if sub = 1 ∨ sub = 3 then (scaled.map Prod.fst, Fl.orAll (scaled.map Prod.snd)) else (y, {})
  let (x, f3) := if sub = 2 ∨ sub = 3 then backwardSub (trDot fa fd) l z else (z, {})
  (x, f1.or f3, f2)

/-- TRSOLVE for one slot (R223). -/
def State.trsolveRun (s : State) (n : Nat) (d : Desc) (rm : RM) (sub : Nat) (t : Option Nat) : SlotRes :=
  match trsolveOpnds d t with
  | .ok ([a, b], [o]) =>
    let va := s.readOpnd n a
    let vb := s.readOpnd n b
    let res := (transpose b.cols vb.vals).map (solveColumn a.spec o.spec rm sub va.vals)
    let (m, ta, vu) :=
      if d.imm.getLsbD 16 then
        let (m, f, g) := Config.stagedSolve sub o.spec rm va.vals vb.vals
        ((List.range o.rows).map (fun i => (List.range o.cols).map (fun j => (elemAt m i j).getD Val.zero)), f, g)
      else (transpose o.rows (res.map (fun r => r.1)), Fl.orAll (res.map (fun r => r.2.1)), Fl.orAll (res.map (fun r => r.2.2)))
    let e := o.encode rm m
    { s.vecReport n 1 [va, vb] [vu.or vb.fl] [e.fl] with writes := s.resolveWrites n e.writes, ta := ta }
  | _ => {}

/-- A TRSOLVE descriptor. -/
def State.trsolve (s : State) (n : Nat) (d : Desc) (sub : Nat) : State :=
  s.rounded n ⟨5, sub⟩ d (fun rm =>
    s.operate n { code := ⟨5, sub⟩, narrow := false, useK := true } d (fun _ => trsolveOpnds d) (fun s t => s.trsolveRun n d rm sub t))

/-- TRSOLVE FORWARD: L⁻¹. -/
def execTrsolveForward (n : Fin 32) (d : Desc) (s : State) : Host.Outcome State Fault Refusal := .next (s.trsolve n d 0)

/-- TRSOLVE DIAG: the stored reciprocals. -/
def execTrsolveDiag (n : Fin 32) (d : Desc) (s : State) : Host.Outcome State Fault Refusal := .next (s.trsolve n d 1)

/-- TRSOLVE BACKWARD: L⁻ᵀ. -/
def execTrsolveBackward (n : Fin 32) (d : Desc) (s : State) : Host.Outcome State Fault Refusal := .next (s.trsolve n d 2)

/-- TRSOLVE FULL: all three. -/
def execTrsolveFull (n : Fin 32) (d : Desc) (s : State) : Host.Outcome State Fault Refusal := .next (s.trsolve n d 3)

end Sys2Proof.Machine
end

