-- ==== Sys2Proof/Machine/Cert.lean ====
section
/-!
DEFINITION. CERT (R228, R235-R244, R250): the FP64 certificate of an iterate, its tests and its status, the infeasibility
tests, and the EKF certificate.
-/

namespace Sys2Proof.Machine

/-! ### FP64 values with their flags -/

/-- An FP64 value with the flags raised on the way to it. -/
abbrev F64 := Val × Fl

/-- a + b rounded to nearest. -/
def add64 (a b : F64) : F64 :=
  let (v, f) := addR .fp64 .rte a.1 b.1
  (v, (a.2.or b.2).or f)

/-- a × b rounded to nearest. -/
def mul64 (a b : F64) : F64 :=
  let (v, f) := mulR .fp64 .rte a.1 b.1
  (v, (a.2.or b.2).or f)

/-- a ÷ b rounded to nearest. -/
def div64 (a b : F64) : F64 :=
  let (v, f) := divV a.1 b.1
  let (r, g) := rnd .fp64 .rte v
  (r, ((a.2.or b.2).or f).or g)

/-- a − b rounded to nearest. -/
def sub64 (a b : F64) : F64 := add64 a (b.1.negate, b.2)

/-- |a|. -/
def abs64 (a : F64) : F64 := (a.1.absv, a.2)

/-- An inner product (R231, R237): TWOPROD, PADD in a tree by index, and one rounding of the pair. (DEDUCED, log 60) -/
def dot64 (xs ys : List Val) : F64 :=
  let ps := List.zipWith (twoProd .fp64) xs ys
  let add (p q : Val × Val × Fl) : Val × Val × Fl :=
    let (h, l, f) := pAdd p.1 p.2.1 q.1 q.2.1
    (h, l, (p.2.2.or q.2.2).or f)
  match treeOf add ps with
  | none => (Val.zero, {})
  | some (h, l, f) => let (v, g) := addR .fp64 .rte h l; (v, f.or g)

/-- The larger of two FP64 values; a NaN prevails. -/
def max64 (a b : F64) : F64 :=
  (if a.1.isNan then a.1 else if b.1.isNan then b.1 else if ltV a.1 b.1 then b.1 else a.1, a.2.or b.2)

/-- ‖·‖∞ of a vector. (DEDUCED, log 60) -/
def norm64 (v : List F64) : F64 := (v.map abs64).foldl max64 (Val.zero, {})

/-- Flags of a vector. -/
def fls (v : List F64) : Fl := Fl.orAll (v.map Prod.snd)

/-- Values of a vector. -/
def vals64 (v : List F64) : List Val := v.map Prod.fst

/-- The FP64 bits of a value. -/
def bits64 (v : Val) : Nat := (Machine.encode .fp64 0 false .rte v).1

/-- a ≤ b, false with a NaN. -/
def leV (a b : Val) : Bool := !a.isNan && !b.isNan && !ltV b a

/-! ### Bounds -/

/-- Whether a bound limits nothing (R237). -/
def infBound (big b : Val) : Bool := leV big b.absv

/-- clamp(a, l, u) over finite bounds (R237). -/
def clampV (big a l u : Val) : Val :=
  let b := if !infBound big l && ltV a l then l else a
  if !infBound big u && ltV u b then u else b

/-- The projection of a multiplier (R237). -/
def projV (big l u y : Val) : Val :=
  let lo := infBound big l
  let hi := infBound big u
  if lo && hi then Val.zero
  else if hi then (if ltV Val.zero y then Val.zero else y)
  else if lo then (if ltV y Val.zero then Val.zero else y)
  else y

/-- A vector of multipliers projected. -/
def projAll (big : Val) (d : QpData) (y : List Val) : List Val :=
  ((d.l.zip d.u).zip y).map (fun x => projV big x.1.1 x.1.2 x.2)

/-- Σ (u_i max(y_i, 0) + l_i min(y_i, 0)) over finite terms (R237, R244). -/
def boundSum (big : Val) (d : QpData) (y : List Val) : F64 :=
  let all := ((d.l.zip d.u).zip y).flatMap (fun x =>
    (if infBound big x.1.2 then [] else [(x.1.2, if leV x.2 Val.zero then Val.zero else x.2)])
      ++ (if infBound big x.1.1 then [] else [(x.1.1, if leV Val.zero x.2 then Val.zero else x.2)]))
  dot64 (all.map Prod.fst) (all.map Prod.snd)

/-! ### The instance -/

/-- The fields of an instance header that CERT reads (R214). -/
structure Inst where
  cls : Nat
  guard : Nat
  dims : List Nat
  iterCap : Nat
  pfmt : Nat
  rangePolicy : Nat
  estPoint : Nat
  tolOfs : Nat
  arrays : List Nat
  deriving DecidableEq, Repr

/-- A little-endian field of a list of bytes. -/
def leAt (bs : List Byte) (ofs n : Nat) : Nat := leNat ((bs.drop ofs).take n)

/-- The instance header of a slot (R214). -/
def instOf (bs : List Byte) : Inst :=
  { cls := leAt bs 0 1, guard := leAt bs 3 1, dims := [leAt bs 4 2, leAt bs 6 2, leAt bs 8 2, leAt bs 10 2],
    iterCap := leAt bs 0x0C 1, pfmt := leAt bs 0x0E 1, rangePolicy := leAt bs 0x0F 1, estPoint := leAt bs 0x1A 1,
    tolOfs := leAt bs 0x30 4, arrays := (List.range 16).map (fun i => leAt bs (0x40 + 4 * i) 4) }

/-- Elements of a submitted array (R214): for a QP of its dimensions, else of the catalogue entry. -/
def Inst.elems (h : Inst) (e : CatEntry) (spread : Bool) (i : Nat) : Nat :=
  let n := h.dims.getD 0 0
  let m := h.dims.getD 1 0
  if h.cls = 0 && !spread then ([n * n, n, m * n, m, m] : List Nat).getD i 0 else e.tmpl.arrayElems.getD i 0

/-- The format of submitted parameters (R214). -/
def Inst.fmt (h : Inst) : Fmt := if h.pfmt = 1 then .fp32 else .fp64

/-- A submitted array's values and poison: `base` is the slot's address, `shared` the shared area's (R213, R214). -/
def State.readArray (s : State) (n : Nat) (h : Inst) (base shared i count : Nat) : List Val × Bool :=
  let w := h.arrays.getD i 0
  let a := (if 2 ^ 31 ≤ w then shared else base) + w % 2 ^ 31
  let (bs, bad) := s.fetch n a (count * (h.fmt.bits / 8))
  ((rowElems h.fmt count bs).map (Machine.decode h.fmt 0), bad)

/-- Rows of a matrix stored by rows. -/
def rowsOf (cols : Nat) (l : List Val) : List (List Val) := chunk cols l.length l

/-- The same address on another rank of the context (R124). -/
def rankAddr (r a : Nat) : Nat := if rangeOf a = some 2 then 0x10000000 + r * 0x400000 + a % 0x400000 else a

/-! ### Structured problems -/

/-- A matrix row over blocks of variables of some widths: the vectors named by block number, zeros elsewhere. -/
def blockRow (widths : List Nat) (at' : List (Nat × List Val)) : List Val :=
  ((List.range widths.length).zip widths).flatMap (fun (b, w) =>
    match at'.find? (fun e => e.1 = b) with
    | some e => (List.range w).map (fun i => e.2.getD i Val.zero)
    | none => List.replicate w Val.zero)

/-- Row i of an identity, times a sign. -/
def unitRow (w i : Nat) (neg : Bool) : List Val := (List.range w).map (fun j => if i = j then .fin neg 1 0 else Val.zero)

/-- The widths of the variable blocks: each stage's state and its input. -/
def Stages.widths (p : Stages) : List Nat := p.list.flatMap (fun s => [s.x.length, s.inp.length])

/-- The sum of two matrices of one shape, exact; a missing one adds nothing. -/
def addMat (a b : List (List Val)) : List (List Val) :=
  if b = [] then a else List.zipWith (List.zipWith (fun x y => (addV .rte x y).1)) a b

/-- −Π⁻¹ x̄₀, the arrival cost's linear part (R247), each element rounded once. -/
def Stages.arrivalLin (p : Stages) : List Val := p.arrival.map (fun r => (dot64 r p.init).1.negate)

/-- The rows of a stage's dynamics as equalities (R237): x_{k+1} − A x_k − B u_k = c. -/
def Stages.dynRows (p : Stages) (k : Nat) (s : Stage) : List (List Val) :=
  ((List.range s.am.length).zip (s.am.zip s.bm)).map (fun (i, r) => blockRow p.widths
    [(2 * k, r.1.map Val.negate), (2 * k + 1, r.2.map Val.negate), (2 * k + 2, unitRow s.am.length i false)])

/-- The QP that the stages stand for (R211, R237, R247): the variables are each stage's state and input in order; P holds each stage's
[Q, S; Sᵀ, R], and in MHE Π⁻¹ is added for the free initial state; A holds each stage's constraints, the dynamics as equalities, and in MPC
the initial state as an equality. -/
def Stages.qp (p : Stages) : QpData :=
  let ks := (List.range p.list.length).zip p.list
  let w := p.widths
  let first (k : Nat) : Bool := k = 0
  let qs := ks.flatMap (fun (k, s) =>
    (if first k && p.free then List.zipWith (fun a b => (addV .rte a b).1) s.qv p.arrivalLin else s.qv) ++ s.rv)
  let ps := ks.flatMap (fun (k, s) =>
    let qm := if first k && p.free then addMat s.qm p.arrival else s.qm
    ((qm.zip (if s.inp = [] then qm.map (fun _ => []) else s.sm)).map (fun r => blockRow w [(2 * k, r.1), (2 * k + 1, r.2)]))
      ++ (((transpose s.inp.length s.sm).zip s.rm).map (fun r => blockRow w [(2 * k, r.1), (2 * k + 1, r.2)])))
  let cons := ks.flatMap (fun (k, s) => ((List.range s.cm.length).map (fun i =>
    blockRow w [(2 * k, s.cm.getD i []), (2 * k + 1, s.dm.getD i [])])))
  let dyn := ks.flatMap (fun (k, s) => p.dynRows k s)
  let ini := if !p.free then (List.range p.init.length).map (fun i => blockRow w [(0, unitRow p.init.length i false)]) else []
  let eqs := (p.list.flatMap Stage.cv) ++ (if p.free then [] else p.init)
  { p := ps, q := qs, a := cons ++ dyn ++ ini, l := p.list.flatMap Stage.l ++ eqs, u := p.list.flatMap Stage.u ++ eqs,
    x := p.list.flatMap (fun s => s.x ++ s.inp),
    y := p.list.flatMap Stage.y ++ p.list.flatMap Stage.dyn ++ (if p.free then [] else p.initY) }

/-- A stage's part of an array that holds `size` elements for each stage (R214); nothing where the array ends before it. -/
def stagePart (arr : List Val) (size k : Nat) : List Val := (arr.drop (k * size)).take size

/-- The stages of an MPC instance (R214): x₀, then Q, R, S, q, r, C, D, l, u and the dynamics A_k, B_k, c_k, each one array over all stages, a stage's
matrix by rows. x holds every stage's state and input in turn; y the multipliers of every stage's constraints, then of the dynamics, then of
x₀. (DESIGN CHOICE, log 23) -/
def mpcStages (dims : List Nat) (arrs : List (List Val)) (x y : List Val) : Stages :=
  let N := dims.getD 0 0
  let nx := dims.getD 1 0
  let nu := dims.getD 2 0
  let nc := dims.getD 3 0
  let part (i size k : Nat) : List Val := stagePart (arrs.getD i []) size k
  let cons := (arrs.getD 8 []).length
  { init := arrs.getD 0 [], initY := y.drop (cons + N * nx),
    list := (List.range (N + 1)).map (fun k =>
      let last : Bool := k = N
      { qm := rowsOf nx (part 1 (nx * nx) k), rm := if last then [] else rowsOf nu (part 2 (nu * nu) k),
        sm := if last then [] else rowsOf nu (part 3 (nx * nu) k), qv := part 4 nx k, rv := if last then [] else part 5 nu k,
        cm := rowsOf nx (part 6 (nc * nx) k), dm := if last then [] else rowsOf nu (part 7 (nc * nu) k), l := part 8 nc k, u := part 9 nc k,
        am := if last then [] else rowsOf nx (part 10 (nx * nx) k), bm := if last then [] else rowsOf nu (part 11 (nx * nu) k),
        cv := if last then [] else part 12 nx k, x := (x.drop (k * (nx + nu))).take nx,
        inp := if last then [] else (x.drop (k * (nx + nu) + nx)).take nu, y := (y.drop (k * nc)).take (part 8 nc k).length,
        dyn := if last then [] else (y.drop (cons + k * nx)).take nx }) }

/-- The stages of an MPC or MHE instance (R211, R214, R247): of MHE, x̄₀ and Π⁻¹ are its first two arrays, and its initial state is free. -/
def stagesOf (cls : Nat) (dims : List Nat) (arrs : List (List Val)) (x y : List Val) : Stages :=
  if cls = 2 then
    { init := arrs.getD 0 [], free := true, arrival := rowsOf (dims.getD 1 0) (arrs.getD 1 []), list := Config.mheStages dims arrs x y }
  else mpcStages dims arrs x y

/-- The QP of an instance spread over a pan (R211, R214, R237): every element of P, q, A, l, u, x and y where it stands among the ranks' parts. -/
def spreadQp (dims : List Nat) (parts : List (List (List Val))) (xs ys : List (List Val)) : QpData :=
  let n := dims.getD 0 0
  let m := dims.getD 1 0
  let get (i k : Nat) : Val :=
    let (r, j) := Config.spreadPlace dims i k
    (if i = 5 then xs.getD r [] else if i = 6 then ys.getD r [] else (parts.getD r []).getD i []).getD j Val.zero
  let vec (i len : Nat) : List Val := (List.range len).map (get i)
  { p := rowsOf n (vec 0 (n * n)), q := vec 1 n, a := rowsOf n (vec 2 (m * n)), l := vec 3 m, u := vec 4 m, x := vec 5 n, y := vec 6 m }

/-- The problem a slot holds with the vectors given to CERT, and poison met reading it (R214, R237). -/
def State.qpOf (s : State) (n : Nat) (e : CatEntry) (ranks : Nat) (h : Inst) (base : Nat) (x y : List Val)
    (other : Nat → List Val × List Val) : QpData × Bool :=
  let shared := 0x0C000000 + e.shareBase
  let arrs (b sh : Nat) (spread : Bool) : List (List Val × Bool) := (List.range 16).map (fun i => s.readArray n h b sh i (h.elems e spread i))
  if e.spanning then
    let rs := List.range ranks
    let parts := rs.map (fun r => arrs (rankAddr r base) (rankAddr r shared) true)
    (spreadQp h.dims (parts.map (fun l => l.map Prod.fst)) (rs.map (fun r => (other r).1)) (rs.map (fun r => (other r).2)),
      parts.any (fun l => l.any Prod.snd))
  else if h.cls = 0 then
    let a := arrs base shared false
    let v (i : Nat) : List Val := (a.getD i ([], false)).1
    ({ p := rowsOf (h.dims.getD 0 0) (v 0), q := v 1, a := rowsOf (h.dims.getD 0 0) (v 2), l := v 3, u := v 4, x := x, y := y },
      a.any Prod.snd)
  else
    let a := arrs base shared true
    ((stagesOf h.cls h.dims (a.map Prod.fst) x y).qp, a.any Prod.snd)

/-! ### Optimality -/

/-- The quantities of R237. -/
structure Quant where
  rPrim : F64
  rDual : F64
  obj : F64
  gap : F64
  tauP : F64
  tauD : F64
  tauG : F64
  merit : F64

/-- A matrix's product with a vector, each element an inner product. -/
def mulVec (m : List (List Val)) (x : List Val) : List F64 := m.map (fun r => dot64 r x)

/-- EPS_ABS + EPS_REL × m. -/
def tau (epsAbs epsRel : Val) (m : F64) : F64 := add64 (epsAbs, {}) (mul64 (epsRel, {}) m)

/-- The certificate quantities of a point (R237); the tolerance block's values by their order in R238. (DEDUCED, log 60) -/
def quantities (tol : List Val) (d : QpData) : Quant :=
  let t (i : Nat) : Val := tol.getD i Val.zero
  let big := t 7
  let ax := mulVec d.a d.x
  let z := ((d.l.zip d.u).zip ax).map (fun e => (clampV big e.2.1 e.1.1 e.1.2, ({} : Fl)))
  let yh := projAll big d d.y
  let px := mulVec d.p d.x
  let aty := mulVec (transpose d.q.length d.a) yh
  let rp := norm64 (List.zipWith sub64 ax z)
  let rd := norm64 (List.zipWith add64 (List.zipWith (fun a q => add64 a (q, {})) px d.q) aty)
  let xpx := dot64 d.x (vals64 px)
  let qx := dot64 d.q d.x
  let bs := boundSum big d yh
  let gap := abs64 (add64 (add64 xpx qx) bs)
  let tp := tau (t 0) (t 1) (max64 (norm64 ax) (norm64 z))
  let td := tau (t 0) (t 1) (max64 (max64 (norm64 px) (norm64 aty)) (norm64 (d.q.map (fun v => (v, {})))))
  let tg := tau (t 0) (t 1) (max64 (max64 (abs64 xpx) (abs64 qx)) (abs64 bs))
  { rPrim := rp, rDual := rd, obj := add64 (mul64 (.fin false 1 (-1), {}) xpx) qx, gap := gap, tauP := tp, tauD := td, tauG := tg,
    merit := max64 (max64 (div64 rp tp) (div64 rd td)) (div64 gap tg) }

/-- Whether a quantity is infinite or NaN (R240). -/
def Quant.nonfinite (q : Quant) : Bool :=
  [q.rPrim, q.rDual, q.obj, q.gap, q.tauP, q.tauD, q.tauG, q.merit].any (fun x => x.1.isInf || x.1.isNan)

/-- The flags CERT's arithmetic raised. -/
def Quant.fl (q : Quant) : Fl := fls [q.rPrim, q.rDual, q.obj, q.gap, q.tauP, q.tauD, q.tauG, q.merit]

/-- One side of the estimate test (R240): it fails. -/
def estFails (tol : List Val) (est : Val) (r : Val) : Bool :=
  let d := abs64 (sub64 (est, {}) (r, {}))
  let lim := add64 (tol.getD 5 Val.zero, {}) (mul64 (tol.getD 6 Val.zero, {}) (r, {}))
  ltV lim.1 d.1

/-- What optimality mode makes of a certificate block (R228, R235, R240, R241, R243): the new bytes 0x00 to 0x2D, the state bits
it sets. `committed` is the committed MERIT; `fl` the slot's flag word, `st` its state word. (DEDUCED, log 60) -/
def certOpt (h : Inst) (tol : List Val) (q : Quant) (old : List Byte) (committed : Val) (fl st : BitVec 16) :
    List Byte × BitVec 16 :=
  let first := st.getLsbD 1
  let nv := fl.getLsbD 4
  let ovf := fl.getLsbD 2 || fl.getLsbD 10
  let oldCheck := leAt old 0x2B 1
  let reject := first && (nv || (fl.getLsbD 2 && h.rangePolicy = 0))
  let range := oldCheck / 4 % 2 = 1 || (ovf && !(first && h.rangePolicy = 0 && fl.getLsbD 2))
  let tests := !first && !range
  let growth := tests && ltV (mul64 (tol.getD 3 Val.zero, {}) (committed, {})).1 q.merit.1
  let est (o : Nat) : Val := Machine.decode .fx32 h.estPoint (leAt old o 4)
  let estimate := tests && (estFails tol (est 0x30) q.rPrim.1 || estFails tol (est 0x34) q.rDual.1)
  let non := q.nonfinite
  let fails := growth || estimate
  let iter := if first then leAt old 0x28 2 else leAt old 0x28 2 + 1
  let relaxed := leV q.merit.1 (tol.getD 2 Val.zero)
  let solved := leV q.merit.1 (.fin false 1 0)
  let (status, leave) :=
    if reject then (9, true)
    else if non then (7, true)
    else if solved then (0, true)
    else if h.iterCap ≤ iter && relaxed then (1, true)
    else if h.iterCap ≤ iter then (4, true)
    else if relaxed then (1, false)
    else if leV q.rPrim.1 (mul64 (tol.getD 2 Val.zero, {}) q.tauP).1 then (2, false)
    else (3, false)
  let check := oldCheck ||| (if st.getLsbD 6 then 16 else 0) ||| (if non then 8 else 0) ||| (if range then 4 else 0)
    ||| (if estimate then 2 else 0) ||| (if growth then 1 else 0)
  let sat := st.getLsbD 7
  let satRun := if sat then leAt old 0x2C 1 else 0
  let dexp := if sat then leAt old 0x2D 1 else leAt old 0x2D 1 - 1
  (leBytes 8 (bits64 q.rPrim.1) ++ leBytes 8 (bits64 q.rDual.1) ++ leBytes 8 (bits64 q.gap.1) ++ leBytes 8 (bits64 q.obj.1)
    ++ leBytes 8 (bits64 q.merit.1) ++ leBytes 2 iter ++ leBytes 1 ((if leave then 128 else 0) + status) ++ leBytes 1 check
    ++ leBytes 1 satRun ++ leBytes 1 dexp,
   if fails then (if !non ∧ (h.guard = 1 ∨ h.guard = 2) then 0x0020 else 0) else if solved then 0x0010 else 0)

/-! ### Infeasibility -/

/-- The infeasibility tests (R244): the fields R_PRIM, R_DUAL and GAP of a verified one, and the flags raised. (DEDUCED, log 60) -/
def certInfeasible (mode : Nat) (tol : List Val) (d : QpData) : Option (List F64) × Fl :=
  let big := tol.getD 7 Val.zero
  let eps := (tol.getD 4 Val.zero, ({} : Fl))
  if mode = 1 then
    let dy := projAll big d d.y
    let nrm := norm64 (dy.map (fun v => (v, {})))
    let aty := norm64 (mulVec (transpose d.q.length d.a) dy)
    let bs := boundSum big d dy
    let e := mul64 eps nrm
    let ok := !nrm.1.isZero && leV aty.1 e.1 && ltV bs.1 e.1.negate
    (if ok then some [div64 aty nrm, div64 bs nrm, nrm] else none, fls [aty, bs, e])
  else
    let nrm := norm64 (d.x.map (fun v => (v, {})))
    let px := norm64 (mulVec d.p d.x)
    let qx := dot64 d.q d.x
    let ax := mulVec d.a d.x
    let e := mul64 eps nrm
    let rows := ((d.l.zip d.u).zip ax).all (fun r =>
      (infBound big r.1.2 || leV r.2.1 e.1) && (infBound big r.1.1 || leV e.1.negate r.2.1))
    let ok := !nrm.1.isZero && leV px.1 e.1 && ltV qx.1 e.1.negate && rows
    (if ok then some [div64 px nrm, div64 qx nrm, nrm] else none, fls ([px, qx, e] ++ ax))

/-! ### EKF -/

/-- A matrix product in FP64, each element an inner product; `cols` columns. (DEDUCED, log 60) -/
def prod64 (cols : Nat) (a b : List (List Val)) : List (List Val) := a.map (fun r => (transpose cols b).map (fun c => (dot64 r c).1))

/-- A sum of two matrices in FP64. -/
def sum64 (a b : List (List Val)) : List (List Val) := List.zipWith (List.zipWith (fun x y => (add64 (x, {}) (y, {})).1)) a b

/-- M⁻¹ v in FP64, by the LDLᵀ factors of M (R249). (DESIGN CHOICE, log 23) -/
def solve64 (m : List (List Val)) (v : List Val) : List Val :=
  let f := ldlt { fmt := .fp64 } { fmt := .fp64 } .rte v.length none m v.length
  let dot := Config.solverDot { fmt := .fp64 }
  let l (i j : Nat) : Val := (f.cols.getD j (Val.zero, [])).2.getD i Val.zero
  let y := (forwardSub dot l v).1
  (backwardSub dot l ((y.zip f.recips).map (fun e => (mul64 (e.1, {}) (e.2, {})).1))).1

/-- The normalised innovation νᵀ S⁻¹ ν with ν = y − h(x⁻) (R249, R250), of the submitted P, y, Q and R: P⁻ = F P Fᵀ + Q and S = H P⁻ Hᵀ + R.
(DESIGN CHOICE, log 23; DEDUCED, log 60) -/
def innovation (m : EkfLin) (nx ny : Nat) (arrs : List (List Val)) : F64 :=
  let a (i : Nat) : List Val := arrs.getD i []
  let pred := sum64 (prod64 nx (prod64 nx m.f (rowsOf nx (a 1))) (transpose nx m.f)) (rowsOf nx (a 4))
  let s := sum64 (prod64 ny (prod64 nx m.h pred) (transpose nx m.h)) (rowsOf ny (a 5))
  let nu := List.zipWith (fun y h => (sub64 (y, {}) (h, {})).1) (a 3) m.pred
  dot64 nu (solve64 s nu)

/-- The EKF certificate (R250): the fields in order, and whether it is SOLVED. `gap` is the normalised innovation, `pivFix` says that S needed
a pivot fix. The pivots of P are taken as they come. -/
def certEkfOf (epsAbs : Val) (p : List (List Val)) (gap : F64) (pivFix : Bool) : List F64 × Bool :=
  let nx := p.length
  let at' (i j : Nat) : Val := (elemAt p i j).getD Val.zero
  let asym := norm64 ((List.range nx).flatMap (fun i => (List.range nx).map (fun j => sub64 (at' i j, {}) (at' j i, {}))))
  let f := ldlt { fmt := .fp64 } { fmt := .fp64 } .rte nx none p nx
  let piv := f.cols.map Prod.fst
  let low := piv.foldl (fun a b => if a.isNan || ltV b a then b else a) (piv.getD 0 Val.zero)
  let trace := (List.range nx).foldl (fun a i => add64 a (at' i i, {})) (Val.zero, {})
  let ok := leV asym.1 epsAbs && piv.all (fun v => ltV Val.zero v) && !pivFix
  ([asym, (low, f.fl), gap, trace, div64 asym (epsAbs, {})], ok)

/-- The certificate block's bytes 0x00 to 0x2B of an EKF certificate (R242, R250): ITER as it stands, STATUS with LEAVE, and CHECK with PIVOT_FIX where S
needed a pivot fix, NONFINITE where a field is infinite or NaN, and RANGE where OF stands in the flag word (R236). (DEDUCED, log 60) -/
def ekfBlock (old : List Byte) (fs : List F64) (ok pivFix ovf : Bool) : List Byte :=
  let non := fs.any (fun f => f.1.isInf || f.1.isNan)
  fs.flatMap (fun f => leBytes 8 (bits64 f.1)) ++ (old.drop 0x28).take 2 ++ leBytes 1 (128 + if ok then 0 else 7)
    ++ leBytes 1 (leAt old 0x2B 1 ||| (if pivFix then 16 else 0) ||| (if non then 8 else 0) ||| (if ovf then 4 else 0))

/-! ### The operation -/

/-- Operands of CERT (R239): x and y, which it converts (R237) and which therefore take every format that the conversion column of R48
admits; the slot base, and the certificate block, whose specifiers are none of R51. -/
def certOpnds (d : Desc) (t : Option Nat) : Except StepFault (List Opnd × List Opnd) := do
  let a ← opA d (fun _ => true) t 1 d.m.toNat
  let b ← opB d (fun _ => true) t 1 d.n.toNat
  if specOk d.fmtC ∧ specOk d.fmtD then
    .ok ([a, b, byteOf (slotAddr d d.addrC d.relC t) 128], [byteOf (slotAddr d d.addrD d.relD t) 64])
  else .error .descriptor
where
  /-- A row of bytes as an operand. -/
  byteOf (a n : Nat) : Opnd := { spec := { fmt := .s8 }, addr := a, rows := 1, cols := n, ld := n, scale := 0 }

/-- Whether an infeasibility test of this step may write (R244): no LEAVE that optimality mode wrote stands, but one of an earlier
infeasibility test does not bar it. (DEDUCED, log 60) -/
def mayDeclare (old : List Byte) : Bool := leAt old 0x2A 1 < 128 || leAt old 0x2A 1 % 16 = 5 || leAt old 0x2A 1 % 16 = 6

/-- What CERT works on in a slot (R239): its header, tolerance values, x and y as read, the certificate block as it stands and the committed
MERIT, and whether poison was met. -/
structure CertIn where
  h : Inst
  tol : List Val
  x : OpndVal
  y : OpndVal
  old : List Byte
  merit : Val
  bad : Bool

/-- What CERT reads of a slot besides the problem's data. -/
def State.certIn (s : State) (n : Nat) (a b c o : Opnd) : CertIn :=
  let (hb, hbad) := s.fetch n c.addr 128
  let h := instOf hb
  let (tb, tbad) := s.fetch n (c.addr + h.tolOfs) 64
  let x := s.readOpnd n a
  let y := s.readOpnd n b
  let (old, obad) := s.fetch n o.addr 64
  { h := h, tol := (List.range 8).map (fun i => Machine.decode .fp64 0 (leAt tb (8 * i) 8)), x := x, y := y, old := old,
    merit := match s.resolve (some n) (o.addr + 0x20) with
      | some r => Machine.decode .fp64 0 (leNat (s.loadCommitted (s.header n) r 8).1)
      | none => Val.zero,
    bad := hbad || tbad || x.bad || y.bad || obad }

/-- A CERT's results: bytes written into the certificate block, flags, among them those that reading x and y raised (R81, R82). -/
def State.certRes (s : State) (n : Nat) (o : Opnd) (i : CertIn) (bad : Bool) (ws : List (Nat × List Byte)) (fl : Fl) (set : BitVec 16) : SlotRes :=
  { s.vecReport n 1 [i.x, i.y] [(fl.or i.x.fl).or i.y.fl] [{}] with
    writes := s.resolveWrites n (ws.map (fun w => (o.addr + w.1, w.2))), bad := i.bad || bad, set := set }

/-- CERT for one slot of a rank (R237-R244, R250). (DESIGN CHOICE, log 23; DEDUCED, log 60) -/
def State.certRun (s : State) (n : Nat) (d : Desc) (mode cls : Nat) (t : Option Nat) : SlotRes :=
  match certOpnds d t, (s.core n).run with
  | .ok ([a, b, c], [o]), some (p, x) =>
    let e := s.ctxCat p x
    let slot := s.slot p x (s.core n).rank (t.getD 0)
    let i := s.certIn n a b c o
    let xs := i.x.vals.getD 0 []
    if cls = 3 then
      let nx := i.h.dims.getD 0 0
      let (pb, pbad) := s.fetch n (c.addr + e.tmpl.extraOfs) (4 * nx * nx)
      let arrs := (List.range 16).map (fun k => s.readArray n i.h c.addr (0x0C000000 + e.shareBase) k (i.h.elems e true k))
      let gap := innovation (Config.ekfLin (s.ctx p x).cat i.h.dims (arrs.map Prod.fst)) nx (i.h.dims.getD 1 0) (arrs.map Prod.fst)
      let pivFix := slot.state.getLsbD 6
      let (fs, ok) := certEkfOf (i.tol.getD 0 Val.zero) (rowsOf nx ((rowElems .fp32 (nx * nx) pb).map (Machine.decode .fp32 0))) gap pivFix
      s.certRes n o i (pbad || arrs.any Prod.snd) [(0, ekfBlock i.old fs ok pivFix (slot.flags.getLsbD 2 || slot.flags.getLsbD 10))] (fls fs) 0
    else
      let other (r : Nat) : List Val × List Val :=
        ((s.readOpnd n { a with addr := rankAddr r a.addr }).vals.getD 0 [], (s.readOpnd n { b with addr := rankAddr r b.addr }).vals.getD 0 [])
      let (q, qbad) := s.qpOf n e (s.ctx p x).ranks.length i.h c.addr xs (i.y.vals.getD 0 []) other
      if mode = 0 then
        let qs := quantities i.tol q
        let (bs, set) := certOpt i.h i.tol qs i.old i.merit slot.flags slot.state
        s.certRes n o i qbad [(0, bs)] qs.fl set
      else
        let (r, fl) := certInfeasible mode i.tol q
        match r, mayDeclare i.old with
        | some fs, true =>
          s.certRes n o i qbad [(0, fs.flatMap (fun f => leBytes 8 (bits64 f.1))), (0x2A, leBytes 1 (128 + if mode = 1 then 5 else 6))] fl 0
        | _, _ => s.certRes n o i qbad [] fl 0
  | _, _ => {}

/-- CERT's conditions (R239): SLOTWISE, a mode in IMM, and SUBOP naming the class of every selected slot's header. -/
def State.certOk (s : State) (n : Nat) (d : Desc) (cls : Nat) (t : Option Nat) : Bool :=
  d.slotwise && d.imm.toNat < 3 &&
    (match t with
     | none => true
     | some _ => leNat (s.fetch n (slotAddr d d.addrC d.relC t) 1).1 = cls)

/-- A CERT descriptor in a mode, which another mode in IMM is not (R239). It takes the flags of everything earlier in its slot, so those
operations are complete. (DESIGN CHOICE, log 23) -/
def State.cert (s : State) (n : Nat) (d : Desc) (mode cls : Nat) : State :=
  if d.imm.toNat < 3 ∧ d.imm.toNat ≠ mode then s
  else s.operate n { code := ⟨7, cls⟩, alone := true } d
      (fun s t => if s.certOk n d cls t then certOpnds d t else .error .descriptor)
      (fun s t => s.certRun n d mode cls t)

/-- CERT in optimality mode (R237-R243). -/
def execCertOptimality (n : Fin 32) (d : Desc) (cls : BitVec 2) (s : State) : Host.Outcome State Fault Refusal :=
  .next (s.cert n d 0 cls.toNat)

/-- CERT of a primal infeasibility direction (R244). -/
def execCertPrimalInfeasibility (n : Fin 32) (d : Desc) (cls : BitVec 2) (s : State) : Host.Outcome State Fault Refusal :=
  .next (s.cert n d 1 cls.toNat)

/-- CERT of a dual infeasibility direction (R244). -/
def execCertDualInfeasibility (n : Fin 32) (d : Desc) (cls : BitVec 2) (s : State) : Host.Outcome State Fault Refusal :=
  .next (s.cert n d 2 cls.toNat)

/-- CERT in EKF mode (R250). -/
def execCertEkf (n : Fin 32) (d : Desc) (s : State) : Host.Outcome State Fault Refusal :=
  .next (s.cert n d 0 3)

end Sys2Proof.Machine
end

