-- ==== Sys2Proof/Machine/Jobs.lean ====
section
/-!
DEFINITION. Instances (R255-R289): their queues, committed results, completions and how they are sent or held (R451-R455,
R468), hand-offs to the loop engine (R287, R348), waits (R421), and acceptance (R256, R605).
-/

namespace Sys2Proof.Machine

/-! ### Queues and contexts -/

/-- The queue map's entry of a queue (R255). -/
def State.queueCfg (s : State) (q : Nat) : Option QueueCfg :=
  match s.sec.image with
  | none => none
  | some im => SMap.get im.queues q

/-- A queue's state. -/
def State.queue (s : State) (q : Nat) : QueueSt := s.queues.getD q {}

/-- The catalogue entry that defines a queue's context (R255). -/
def State.queueCat (s : State) (c : QueueCfg) : CatEntry := (s.catEntry c.pan c.catalog).getD {}

/-- Whether a context index holds its context (R402). -/
def Ctx.holds (x : Ctx) : Bool := x.st = .resident || x.st = .halted

/-- The context index that serves a queue: the lowest that holds its catalogue entry (R255). -/
def State.servedBy (s : State) (c : QueueCfg) : Option Nat :=
  (List.range 8).find? (fun i => (s.ctx c.pan i).holds && (s.ctx c.pan i).cat = c.catalog)

/-- An instance changed. -/
def State.onJob (s : State) (id : Nat) (f : Job → Job) : State :=
  { s with jobs := s.jobs.map (fun j => if j.id = id then f j else j) }

/-- An instance done (R258). -/
def State.dropJob (s : State) (id : Nat) : State := { s with jobs := s.jobs.filter (fun j => j.id ≠ id) }

/-- The instances in a context's slots. -/
def State.jobsOf (s : State) (p c : Nat) : List Job :=
  s.jobs.filter (fun j => j.st ≠ .waiting && j.ctx = c && ((s.queueCfg j.queue).map QueueCfg.pan) = some p)

/-- The rank and slot index of a global slot (R259); a pan-spanning context has the slot on every rank. -/
def slotsOf (e : CatEntry) (width g : Nat) : List (Nat × Nat) :=
  if e.spanning then (List.range width).map (fun r => (r, g)) else [(g % max width 1, g / max width 1)]

/-! ### Committed results -/

/-- The memory address of a slot's workspace on a rank. -/
def State.slotAt (s : State) (p c rank k : Nat) : Nat :=
  let h := (s.prog p c rank).getD {}
  ((s.ctx p c).ranks.getD rank 0) * 0x400000 + h.slotBase % 0x400000 + k * h.slotSize

/-- Committed bytes of a slot at an offset (R202). -/
def State.slotBytes (s : State) (p c rank k ofs n : Nat) : List Byte :=
  (s.loadCommitted (s.prog p c rank) (s.slotAt p c rank k + ofs) n).1

/-- The committed certificate block of a global slot (R242): its first rank's. -/
def State.certOf (s : State) (p c g : Nat) : List Byte :=
  let e := s.ctxCat p c
  match slotsOf e (s.ctx p c).ranks.length g with
  | (r, k) :: _ => s.slotBytes p c r k e.tmpl.certOfs 64
  | [] => []

/-- The sticky flag word of a global slot, and its state word, ORed over its ranks. -/
def State.slotWord (s : State) (p c g : Nat) (f : SlotSt → BitVec 16) : BitVec 16 :=
  (slotsOf (s.ctxCat p c) (s.ctx p c).ranks.length g).foldl (fun w x => w ||| f (s.slot p c x.1 x.2)) 0

/-- FX32 elements at a POINT. -/
def fxElems (point n : Nat) (bs : List Byte) : List Val := (rowElems .fx32 n bs).map (Machine.decode .fx32 point)

/-- The format of submitted parameters of a catalogue entry (R214). -/
def Template.fmt (t : Template) : Fmt := if t.pfmt = 1 then .fp32 else .fp64

/-- The committed iterate x of a rank's slot (R215). -/
def State.partX (s : State) (p c r k : Nat) : List Val :=
  let t := (s.ctxCat p c).tmpl
  fxElems t.xpoint t.xElems (s.slotBytes p c r k t.iterOfs (4 * t.xElems))

/-- The committed multipliers y of a rank's slot (R215, R286): ADMM's y, or z_u − z_l of an interior-point iterate. -/
def State.partY (s : State) (p c r k : Nat) : List Val :=
  let t := (s.ctxCat p c).tmpl
  let m := t.yElems
  let at' (i : Nat) : List Val := fxElems t.zpoint m (s.slotBytes p c r k (t.iterOfs + 4 * (t.xElems + i * m)) (4 * m))
  if t.method = 1 then at' 1
  else (at' 3).zip (at' 2) |>.map (fun x => (addV .rte x.1 x.2.negate).1)

/-- The class result area of a rank's slot (R286): P of an EKF in FP32, a prior or a direction in PFMT. -/
def State.partExtra (s : State) (p c r k : Nat) : List Val :=
  let t := (s.ctxCat p c).tmpl
  let f : Fmt := if t.cls = 3 then .fp32 else t.fmt
  (rowElems f t.extraElems (s.slotBytes p c r k t.extraOfs (t.extraElems * (f.bits / 8)))).map (Machine.decode f 0)

/-- The result data of a slot: the parts RESULT_SEL names, in FP64 (R286). -/
def State.resultOf (s : State) (p c g : Nat) (sel : BitVec 3) : List Byte :=
  let rk := slotsOf (s.ctxCat p c) (s.ctx p c).ranks.length g
  let out (on : Bool) (f : Nat → Nat → List Val) : List Byte :=
    if on then rk.flatMap (fun x => (f x.1 x.2).flatMap (fun v => beBytes 8 (bits64 v))) else []
  out (sel.getLsbD 0) (s.partX p c) ++ out (sel.getLsbD 1) (s.partY p c) ++ out (sel.getLsbD 2) (s.partExtra p c)

/-- The result elements of the committed iterate x over all ranks, for a loop binding (R347). -/
def State.resultX (s : State) (p c g : Nat) : List Val :=
  (slotsOf (s.ctxCat p c) (s.ctx p c).ranks.length g).flatMap (fun x => s.partX p c x.1 x.2)

/-- Bytes of a completion's result data (R286). -/
def resultLen (e : CatEntry) (sel : BitVec 3) : Nat :=
  let w := if e.spanning then e.width else 1
  8 * w * ((if sel.getLsbD 0 then e.tmpl.xElems else 0) + (if sel.getLsbD 1 then e.tmpl.yElems else 0)
    + (if sel.getLsbD 2 then e.tmpl.extraElems else 0))

/-! ### Sending completions -/

/-- Whether a port may carry completions (R452). -/
def State.portUsable (s : State) (p : Port) : Bool := s.portReady p && !(s.hport p).unresponsive

/-- The ports a completion of a queue may be sent on now (R451), with the address recorded for the owner (R604). -/
def State.compPorts (s : State) (q : QueueSt) : List (Port × HostAddr) :=
  (if q.both then [.a, .b] else [q.port]).filterMap (fun p =>
    if s.portUsable p then ((s.hport p).clientAddr.get q.client.val).map (fun a => (p, a)) else none)

/-- UDP payload bytes of a message's frames (R414). -/
def udpBytes (pays : List (List Byte)) : List Nat := pays.map (fun l => l.length + 32)

/-- A completion's COMPLETION message sent on one port (R451, R455): with RETRY where it has been sent before, or was held on the other: held under
BOTH counts as held on the owner's port. (DEDUCED, log 40) -/
def State.sendComp (s : State) (c : CompRec) (q : QueueSt) (x : Port × HostAddr) : State :=
  let retry := c.everSent || c.moved.any (fun p => p ≠ x.1) || (c.held && x.1 ≠ q.port)
  (s.sendMsg x.1 { type := 0x14, reliable := true, retry := retry, client := q.client,
                   number := BitVec.ofNat 16 c.queue, gen := c.gen, payload := c.payload, dest := x.2, msg := c.id }).2

/-! ### Frames that a pan's HOST bucket meters -/

/-- A frame that has its tokens goes to its port: a resend as it was, if it still waits for its acknowledgement (R414, R453). -/
def State.giveFrame (s : State) (f : OutFrame) (again : Bool) : State :=
  if !again then s.handFrame f
  else if (s.hport f.port).unacked.any (fun u => u.frame.seq = f.seq) then s.transmit { f with retry := true }
  else s

/-- A frame charged to a pan's HOST bucket (R414): it goes to its port, or waits until it has its tokens. A frame of no pan goes at once.
(DEDUCED, log 36; DEDUCED, log 40) -/
def State.paceFrame (s : State) (pan : Option Nat) (f : OutFrame) (again : Bool) : State :=
  match pan with
  | none => s.giveFrame f again
  | some p =>
    let s := s.charge p .host (f.payload.length + 32)
    let place := s.askedOf p .host
    if s.served p (bucketIx .host, place) then s.giveFrame f again
    else s.onHport f.port (fun h => { h with paced := h.paced ++ [{ frame := f, again := again, pan := p, place := place }] })

/-- The frames of a port that have got their tokens go to it (R414). -/
def State.releaseOn (s : State) (p : Port) : State :=
  let (go, rest) := (s.hport p).paced.partition (fun x => s.served x.pan (bucketIx .host, x.place))
  go.foldl (fun s x => s.giveFrame x.frame x.again) (s.onHport p (fun h => { h with paced := rest }))

/-- The frames that have got their HOST tokens go to their ports. -/
def State.releasePaced (s : State) : State := (s.releaseOn .a).releaseOn .b

/-- A message whose frames a pan's HOST bucket meters (R414). -/
def State.sendPaced (s : State) (pan : Option Nat) (p : Port) (m : OutMsg) : State :=
  let x := s.numberMsg p m
  x.1.foldl (fun s f => s.paceFrame pan f false) x.2

/-- Whether a completion is out on a port and waits for its acknowledgement. -/
def CompRec.out (c : CompRec) : Bool := c.onA || c.onB

/-- The bytes each frame of a completion takes of its pan's HOST bucket when it is sent on these ports (R414). (DEDUCED, log 40) -/
def State.compFrames (s : State) (c : CompRec) (ps : List (Port × HostAddr)) : List Nat :=
  ps.flatMap (fun x => udpBytes (framePays (s.payLimit x.1 x.2.v6) c.payload))

/-- The HOST tokens of a completion's frames taken one frame after the other, until the bucket is short of one: that one waits, before
all that come later. Answers how many have their tokens. (DEDUCED, log 40) -/
def State.payFrames (p : Nat) : List Nat → State → Nat × State
  | [], s => (0, s)
  | n :: r, s =>
    if s.level p .host < n * 1000 then (0, s.onPan p (fun x => { x with waitingTok := x.waitingTok ++ [(4, n)] }))
    else
      let (k, s) := State.payFrames p r (s.charge p .host n)
      (k + 1, s)

/-- Whether a transfer waits for a pan's HOST tokens. -/
def State.hostWaits (s : State) (p : Nat) : Bool := (s.pan p).waitingTok.any (fun w => w.1 = 3 || w.1 = 4)

/-- A completion's frames taken off a port. -/
def HPort.dropMsg (h : HPort) (id : Nat) : HPort :=
  { h with unacked := h.unacked.filter (fun u => u.frame.msg ≠ id), waiting := h.waiting.filter (fun f => f.msg ≠ id) }

/-- A completion and its frames dropped. -/
def State.dropComp (s : State) (id : Nat) : State :=
  let s := { s with comps := s.comps.filter (fun c => c.id ≠ id) }
  ((s.onHport .a (fun h => h.dropMsg id)).onHport .b (fun h => h.dropMsg id))

/-- A frame of a completion whose GEN is no longer its queue's (R468). -/
def State.staleFrame (s : State) (f : OutFrame) : Bool := f.msg ≠ 0 && f.gen ≠ (s.queue f.number.toNat).gen

/-- Completions all of whose frames have been handed to a port (R277). -/
def State.markSent (s : State) (p : Port) (id : Nat) : State :=
  if id = 0 || (s.hport p).waiting.any (fun f => f.msg = id) then s
  else { s with comps := s.comps.map (fun c => if c.id = id then { c with everSent := true } else c) }

/-- Frames that wait for a place go out while fewer than 64 are unacknowledged (R453); a completion of an old generation is discarded and counted
(R468). `n` bounds their number. (DEDUCED, log 62) -/
def State.pumpN (p : Port) : Nat → State → State
  | 0, s => s
  | n + 1, s =>
    match (s.hport p).waiting with
    | [] => s
    | f :: r =>
      if 64 ≤ (s.hport p).unacked.length then s
      else if s.staleFrame f then State.pumpN p n ((s.dropComp f.msg).bump .qstale)
      else State.pumpN p n (((s.onHport p (fun h => { h with waiting := r })).handNow { f with port := p }).markSent p f.msg)

/-- The frames that wait for a place on a port (R453). (DEDUCED, log 62) -/
def State.pumpWaiting (s : State) (p : Port) : State := s.pumpN p (2 * (s.hport p).waiting.length)

/-- A completion freed (R451, R452): a copy not delivered on the other port is dropped, and what waited for its place follows (R453). (DEDUCED, log 40) -/
def State.freeComp (s : State) (id : Nat) : State := ((s.dropComp id).pumpWaiting .a).pumpWaiting .b

/-- A completion sent if it can be (R414, R415, R451, R452, R468): it is freed once sent on a port without ACK_MODE, and held
where no port is usable or its pan's HOST tokens are short. (DEDUCED, log 25; DEDUCED, log 40) -/
def State.tryComp (s : State) (c : CompRec) : State :=
  let q := s.queue c.queue
  if c.out then s
  else if c.gen ≠ q.gen then ({ s with comps := s.comps.filter (fun x => x.id ≠ c.id) }).bump .qstale
  else
    let ps := s.compPorts q
    if ps.isEmpty then { s with comps := s.comps.map (fun x => if x.id = c.id then { x with held := true } else x) }
    else
      let pan := ((s.queueCfg c.queue).map QueueCfg.pan).getD 0
      let fs := (s.compFrames c ps).drop c.paid
      let metered : Bool := (s.bucketCfg pan .host).depth ≠ 0
      if metered && s.hostWaits pan then s
      else
        let (k, s) := if metered then State.payFrames pan fs s else (fs.length, s)
        if k < fs.length then { s with comps := s.comps.map (fun x => if x.id = c.id then { x with paid := c.paid + k } else x) }
        else
          let s := ps.foldl (fun s x => s.sendComp c q x) s
          let acked (p : Port) : Bool := s.rwField (.hportCfg (portIx p)) 26 26 = 1
          if ps.all (fun x => acked x.1) then
            let s := { s with comps := s.comps.map (fun x => if x.id = c.id then
                { x with onA := ps.any (fun y => y.1 = .a), onB := ps.any (fun y => y.1 = .b), paid := 0 } else x) }
            ps.foldl (fun s x => s.markSent x.1 c.id) s
          else s.freeComp c.id

/-- Every held completion tried in build order (R452, R454). (DEDUCED, log 40) -/
def State.flushComps (s : State) : State := s.comps.foldl (fun s c => s.tryComp c) s

/-- Bytes of an instance's completion (R283, R452). (DEDUCED, log 40) -/
def State.compBytes (s : State) (q : Nat) : Nat :=
  match s.queueCfg q with
  | none => 96
  | some c => 96 + resultLen (s.queueCat c) c.resultSel

/-- A completion put among those to be sent, in the space reserved for it (R452). -/
def State.putComp (s : State) (queue : Nat) (gen : BitVec 16) (payload : List Byte) : State :=
  let c : CompRec := { id := s.nextComp, queue := queue, gen := gen, payload := payload, reserved := s.compBytes queue }
  ({ s with comps := s.comps ++ [c], nextComp := s.nextComp + 1 }).tryComp c

/-! ### Hand-offs -/

/-- A loop's state. -/
def State.loop (s : State) (n : Nat) : LoopSt := s.loops.getD n {}

/-- A loop's state changed. -/
def State.onLoop (s : State) (n : Nat) (f : LoopSt → LoopSt) : State := { s with loops := s.loops.put n (f (s.loop n)) }

/-- Bits of LOOP_n_STATUS set (R359). -/
def State.loopSet (s : State) (n : Nat) (w : Word) : State :=
  (s.note (.loopSts n) (· ||| w.toNat)).onLoop n (fun l => { l with status := l.status ||| w })

/-- A loop's wiring record (R326). -/
def State.loopCfg (s : State) (n : Nat) : Option LoopCfg :=
  match s.sec.image with
  | none => none
  | some im => SMap.get im.loops n

/-- The stage whose exponent a bound field takes (R328, R348, R350). -/
def LoopField.stage : LoopField → Nat
  | .target | .vmax | .amax | .jmax => 1
  | .ffExt => 5
  | .outLo | .outHi => 7

/-- Fields that must not be negative (R348). -/
def LoopField.limit : LoopField → Bool
  | .vmax | .amax | .jmax => true
  | _ => false

/-- A value in BX24 at an exponent, as a hand-off takes it (R348). -/
def hoffOf (at' cyc queue : Nat) (E : Nat) (f : LoopField) (v : Val) : Hoff :=
  let (m, fl) := encodeBx E (rnd .fp64 .rte v).1
  { at' := at', cyc := cyc, queue := queue, field := f, mant := if f.limit && m < 0 then 0 else m, sat := fl.ovf }

/-- A hand-off put in its place: in the order of building, and within one NCLK cycle in ascending queue number (R349). (DEDUCED, log 42) -/
def addHoff (h : Hoff) : List Hoff → List Hoff
  | [] => [h]
  | x :: r => if h.cyc = x.cyc ∧ h.queue < x.queue then h :: x :: r else x :: addHoff h r

/-- The committed result of a completion handed to the loop engine (R287, R347-R349). -/
def State.handoff (s : State) (queue : Nat) (c : QueueCfg) (x : List Val) : State :=
  c.loopBind.foldl (fun s b =>
    match s.loopCfg b.loop with
    | none => s
    | some w =>
      let h := hoffOf s.tide64 s.nclk queue (w.exp.getD b.field.stage 0) b.field (x.getD b.element Val.zero)
      let s := s.onLoop b.loop (fun l => { l with hoff := addHoff h l.hoff })
      if h.sat then s.loopSet b.loop 0x10000000 else s) s

/-! ### Waits -/

/-- A wait charged to a client (R421, R422). -/
def State.addWait (s : State) (client : Fin 8) (ns : Nat) : State :=
  let f (w : ClientWait) : ClientWait :=
    let full := 2 ^ 63 - 1 ≤ w.sum + ns
    { w with sum := if w.ovf then w.sum else if full then 2 ^ 63 - 1 else w.sum + ns, ovf := w.ovf || full,
             max := min (2 ^ 31 - 1) (max w.max ns), maxOvf := w.maxOvf || 2 ^ 31 ≤ ns }
  let old := s.waits.getD client.val {}
  let s := ({ s with waits := s.waits.put client.val (f old) }).bump (.clientWait client.val)
  let s := (s.note (.waitSumHi client.val) (· + ns)).note (.waitMax client.val) (max ns)
  if (f old).ovf && !old.ovf then s.event 2 (Reg.waitSumHi client.val).addr [] else s

/-! ### Completions -/

/-- What a completion reports of a slot: its global slot, and the flag word. -/
structure Result where
  g : Nat
  flags : BitVec 16
  deriving DecidableEq, Repr

/-- The completion record's bytes (R283-R285). `blk` is the certificate block, empty for an instance never admitted. -/
def completionBytes (j : Job) (guard : Nat) (status how : Nat) (halted : Bool) (input : Nat) (blk : List Byte) (flags : BitVec 16)
    (done : Nat) (sel : BitVec 3) (data : List Byte) : List Byte :=
  let inf := beBytes 8 0x7FF0000000000000
  let fp (o : Nat) : List Byte := if blk.isEmpty then inf else beBytes 8 (leAt blk o 8)
  let at' (o n : Nat) : Nat := if blk.isEmpty then 0 else leAt blk o n
  beBytes 4 j.tag.toNat ++ beBytes 2 j.queue ++ beBytes 2 j.gen.toNat ++ beBytes 1 (how * 16 + status)
    ++ beBytes 1 (at' 0x2B 1) ++ beBytes 1 ((if halted then 128 else 0) + input)
    ++ beBytes 1 (guard * 64 + (if blk.isEmpty then 0 else min 63 j.reruns)) ++ beBytes 2 (at' 0x28 2)
    ++ beBytes 2 (if blk.isEmpty then 0 else flags.toNat % 32768)
    ++ beBytes 8 j.deadline ++ beBytes 8 j.tArr ++ beBytes 8 j.tAdmit ++ beBytes 8 done
    ++ fp 0 ++ fp 8 ++ fp 0x10 ++ fp 0x18 ++ fp 0x20 ++ beBytes 1 (at' 0x2D 1) ++ beBytes 1 (at' 0x2C 1)
    ++ beBytes 2 (if data.isEmpty then 0 else sel.toNat) ++ beBytes 4 data.length ++ data

/-- Counters of a completion (R289). -/
def State.countComp (s : State) (status how : Nat) : State :=
  let s := if status = 8 then s.bump .notStarted else s
  let s := if how = 1 then s.bump .harvest else s
  if status = 9 then s.bump .inputInvalid else s

/-- A core log's report about a slot (R498, R499), with the unit it names. -/
def State.slotReport (s : State) (core source : Nat) (cls : EClass) (j : Job) (g : Nat) (unit : Nat := 0xFF) : State :=
  if h : core < 32 then s.report (.core ⟨core, h⟩) cls source unit j.queue (g * 65536 + j.gen.toNat) else s

/-- A logical core's physical core, as region × 16 + core. -/
def State.physKey (s : State) (n : Nat) : Nat := n / 8 * 16 + s.physCore n

/-- The logical core of a global slot. -/
def State.slotCore (s : State) (p c g : Nat) : Nat :=
  match slotsOf (s.ctxCat p c) (s.ctx p c).ranks.length g with
  | (r, _) :: _ => (s.ctx p c).ranks.getD r 0
  | [] => 0

/-- An event attributed to a physical core, that of a slot when it ran there (R510). (DEDUCED, log 41) -/
def State.attribute (s : State) (unit : Nat) : State :=
  { s with attrib := { s.attrib with events := s.attrib.events ++ [(unit, s.nclk)] } }

/-- One CERT_BAR report for each barred run of an instance, each an attributed event of the core that ran it (R510, R606). (DEDUCED, log 41) -/
def State.certBars (s : State) (core : Nat) (j : Job) (g : Nat) (cls : EClass) : State :=
  j.runs.foldl (fun s r => (s.slotReport core 0x07 cls j g).attribute r.unit) s

/-- The reports of an episode that has ended, now that its outcome is known (R497): the CERT_BAR reports of R606, or for a pair the G2_MISMATCH that no
run has resolved. (DEDUCED, log 41) -/
def State.endEpisode (s : State) (p : Nat) (j : Job) (cls : EClass) : State :=
  match j.slots with
  | [] => s
  | g :: _ =>
    let core := s.slotCore p j.ctx g
    let s := if !j.pair then s.certBars core j g cls else if j.mismatch then s.slotReport core 0x08 cls j g else s
    s.onJob j.id (fun k => { k with runs := [], mismatch := false })

/-- A WAITING instance completes (R258, R269, R276, R277, R285). Status and HOW: 8, 2 NOT_STARTED; 10 ABORTED with 3 or 4. -/
def State.completeWaiting (s : State) (j : Job) (status how : Nat) : State :=
  let guard := ((s.queueCfg j.queue).map QueueCfg.guard).getD 0
  let now := s.tide64
  let bytes := completionBytes j guard status how false 0 [] 0 now 0 []
  (((s.addWait j.client (now - j.tArr)).countComp status how).dropJob j.id).putComp j.queue j.gen bytes

/-- What an instance leaves with (R252, R286, R347): its certificate block, its result data and its iterate x. -/
structure Leaving where
  blk : List Byte
  data : List Byte
  x : List Val

/-- What an instance leaves with, read from its committed copy. -/
def State.leavesWith (s : State) (c : QueueCfg) (j : Job) : Leaving :=
  let g := j.slots.headD 0
  { blk := s.certOf c.pan j.ctx g, data := s.resultOf c.pan j.ctx g c.resultSel, x := s.resultX c.pan j.ctx g }

/-- The next prior of a chained queue kept from the result area of an instance that committed with LEAVE set (R248). -/
def State.keepPrior (s : State) (c : QueueCfg) (j : Job) (committed : Bool) : State :=
  let e := s.ctxCat c.pan j.ctx
  let g := j.slots.headD 0
  if committed && c.chained && e.tmpl.cls = 2 && 128 ≤ leAt (s.certOf c.pan j.ctx g) 0x2A 1 then
    match slotsOf e (s.ctx c.pan j.ctx).ranks.length g with
    | (r, k) :: _ =>
      let prior := s.slotBytes c.pan j.ctx r k e.tmpl.extraOfs (e.tmpl.extraElems * (e.tmpl.fmt.bits / 8))
      { s with priors := s.priors.put j.queue prior }
    | [] => s
  else s

/-- An admitted instance's completion (R257, R283-R287, R271): the record sent or held, and the result handed off. -/
def State.completeFrom (s : State) (c : QueueCfg) (j : Job) (out : Leaving) (status how : Nat) (flags : BitVec 16) : State :=
  match j.slots with
  | [] => s
  | g :: _ =>
    let st := s.slotWord c.pan j.ctx g SlotSt.state
    let input := (if st.getLsbD 2 then 2 else 0) + (if st.getLsbD 3 then 1 else 0)
    let bytes := completionBytes j c.guard status how ((s.ctx c.pan j.ctx).st = .halted) input out.blk flags s.tide64 c.resultSel out.data
    let s := (s.countComp status how).putComp j.queue j.gen bytes
    if !c.loopBind.isEmpty && status ≤ c.handoffMin then s.handoff j.queue c out.x else s

/-- The committed STATUS of a global slot (R242). -/
def State.statusOf (s : State) (p c g : Nat) : Nat := leAt (s.certOf p c g) 0x2A 1 % 16

/-! ### Acceptance -/

/-- Bytes of the instance area (R605). -/
def State.instBytes (s : State) : Nat :=
  match s.sec.image with
  | none => 0
  | some im => im.instKib * 1024

/-- Bytes in use in the instance area (R605): stored parameters and warm starts of WAITING instances, and the reservation of
every completion that is not freed. (DEDUCED, log 40) -/
def State.instUsed (s : State) : Nat :=
  (s.jobs.map (fun j => (if j.st = .waiting then j.params.length + j.warm.length else 0)
      + (if j.st = .harvested then 0 else s.compBytes j.queue))).sum
    + (s.comps.map CompRec.reserved).sum

/-- Slots an instance of a queue takes (R267, R280). -/
def QueueCfg.slotsPer (c : QueueCfg) : Nat := if c.guard = 2 then 2 else 1

/-- The checks 1 to 3 of R256 on a new instance of a queue: the reason it is refused for, if any. -/
def State.refuseJob (s : State) (q : Nat) (c : QueueCfg) (bytes : Nat) : Option Reason :=
  let mine := s.jobs.filter (fun j => j.queue = q)
  if c.qdepth ≤ (mine.filter (fun j => j.st = .waiting)).length then some .queueFull
  else if s.strict && !c.reserved.isEmpty && c.reserved.length < c.slotsPer * (mine.length + 1) then some .rateLimited
  else if s.instBytes < s.instUsed + bytes + s.compBytes q then some .resources
  else none

/-- The instance refused (R256 checks 1 to 3) or accepted; `late` says that it completes at once (check 4). -/
def State.newJob (s : State) (q : Nat) (c : QueueCfg) (client : Fin 8) (tag : Word) (deadline tArr quality : Nat)
    (params warm : List Byte) : State :=
  let j : Job := { id := s.nextJob, queue := q, gen := (s.queue q).gen, tag := tag, client := client, deadline := deadline,
                   tArr := tArr, quality := quality, params := params, warm := warm }
  let s := { s with jobs := s.jobs ++ [j], nextJob := s.nextJob + 1 }
  if deadline < tArr + 20000 ∨ deadline < tArr + c.minSolve then s.completeWaiting j 8 2 else s

end Sys2Proof.Machine
end

