-- ==== Sys2Proof/Machine/Window.lean ====
section
/-!
DEFINITION. Window writes and reads as they are applied (R152-R154).
-/

namespace Sys2Proof.Machine

/-- Whether a resident context of a pan has region memory in a range of a region (R152). (DEDUCED, log 54) -/
def State.panTouches (s : State) (p region ofs len : Nat) : Bool :=
  (List.range 8).any (fun c =>
    let x := s.ctx p c
    x.holds && (s.ctxCat p c).regions.any (fun r => r.region = region && r.ofs < ofs + len && ofs < r.ofs + r.len))

/-- The pans concerned with a window's whole range (R152). (DEDUCED, log 54) -/
def State.concerned (s : State) (x : Staged) : List Nat := (List.range 16).filter (fun p => s.panTouches p x.region x.base x.len)

/-- The address of the first byte a staged access names. -/
def Staged.addr (x : Staged) : Nat := 0x08000000 + x.region * 0x800000 + x.base + x.winOfs.toNat

/-- A staged write carried out (R152): it lands whole, and is answered where ACK_REQ asked for it. -/
def State.applyWrite (s : State) (x : Staged) : State :=
  match x.body with
  | .write d =>
    let s := s.poke x.addr d false
    let s := s.onHport x.hdr.port (fun h => { h with lastWinSeq := some x.hdr.seq })
    if x.hdr.ackReq then s.okGen x.hdr x.hdr.gen
    else s.onHport x.hdr.port (fun h => { h with recs := setRec h.recs x.hdr.seq .none })
  | .read _ => s

/-- A staged read answered with WINDOW_DATA (R153), which its pan's HOST bucket counts (R414). The message has no mark of poison: a poisoned word's
bytes go out as they are stored. (DESIGN CHOICE, log 68) -/
def State.applyRead (s : State) (x : Staged) : State :=
  match x.body with
  | .write _ => s
  | .read n =>
    let payload := beBytes 4 x.winOfs.toNat ++ (List.range n).map (fun i => s.peek (x.addr + i))
    s.sendPaced (s.concerned x).head? x.hdr.port (answerTo x.hdr 0x24 x.hdr.gen payload)

/-- Staged accesses carried out at one point, in the order in which they were accepted: one that may not be carried out yet holds every later
one (R154). The writes come first, and then the reads with the contents after all of them (R152, R153). (DEDUCED, log 54) -/
def State.applyAll (s : State) (ok : Staged → Bool) : State :=
  let now := s.staged.takeWhile ok
  let s := now.foldl State.applyWrite { s with staged := s.staged.dropWhile ok }
  now.foldl State.applyRead s

/-- B3 of a boundary of a pan: every staged access whose window concerns that pan, or none (R152). (DEDUCED, log 54) -/
def State.windowPhase (s : State) (p : Nat) : State :=
  s.applyAll (fun x => let l := s.concerned x; l.isEmpty || l.contains p)

/-- WINDOW_WRITE_APPLY (R152): the staged accesses of a window that no pan is concerned with. (DEDUCED, log 54) -/
def execWindowWriteApply (w : BitVec 16) (s : State) : Host.Outcome State Fault Refusal :=
  .next (
    if s.inReset then s
    else s.applyAll (fun x => x.win = w.toNat && (s.concerned x).isEmpty))

end Sys2Proof.Machine
end

