-- ==== Sys2Proof/Machine/Phases.lean ====
section
/-!
DEFINITION. The phases of a step boundary (R261-R270, R278-R281, R505-R508): the leaving set, the commit, window writes,
completions, admission and the start of the next step.
-/

namespace Sys2Proof.Machine

/-! ### Commit conditions -/

/-- The slots of a global slot. -/
def State.places (s : State) (p c g : Nat) : List (Nat × Nat) := slotsOf (s.ctxCat p c) (s.ctx p c).ranks.length g

/-- Whether the context's last step ended normally (R199). -/
def Ctx.normal (x : Ctx) : Bool := x.boundary && x.killed = none

/-- Whether a slot's commit passes R199: COMMIT_REQ set, neither POISON nor CERT_FAIL. -/
def State.wouldCommit (s : State) (p c g : Nat) : Bool :=
  (s.ctx p c).normal && (s.places p c g).all (fun x =>
    let t := (s.slot p c x.1 x.2).state
    t.getLsbD 9 && !t.getLsbD 8 && !t.getLsbD 5)

/-- Whether POISON bars a slot's commit. -/
def State.slotPoison (s : State) (p c g : Nat) : Bool := (s.slotWord p c g SlotSt.state).getLsbD 8

/-- Whether POISON or CERT_FAIL bars a slot's commit (R279). (DEDUCED, log 41) -/
def State.barred (s : State) (p c g : Nat) : Bool :=
  (s.ctx p c).normal && (s.slotPoison p c g || (s.slotWord p c g SlotSt.state).getLsbD 5)

/-- The own addresses of a slot's persistent lines (R196). -/
def State.persLines (s : State) (p c rank k : Nat) : List Nat :=
  let h := (s.prog p c rank).getD {}
  (List.range (h.persLen / 64)).map (fun i => s.slotAt p c rank k + h.persOfs + 64 * i)

/-- A rank's dirty persistent lines of a slot, in address order, as a run left them (R196, R281). -/
def State.dirtyBytes (s : State) (p c : Nat) (x : Nat × Nat) : List Byte :=
  let h := (s.prog p c x.1).getD {}
  ((s.persLines p c x.1 x.2).filter (fun a => s.dirty.has (a / 64))).flatMap (fun a => (List.range 64).map (fun i => s.peek ((s.copies h a).2 + i)))

/-- The CRC-64 of a slot's dirty persistent lines alone (R506). -/
def State.lineCrc (s : State) (p c g : Nat) : Dword := Config.crc64 ((s.places p c g).flatMap (s.dirtyBytes p c))

/-- The CRC-64 of a slot of a pair: its dirty persistent lines with its deferred-move data (R281). -/
def State.slotCrc (s : State) (p c g : Nat) : Dword :=
  Config.crc64 ((s.places p c g).flatMap (fun x =>
    let core := (s.ctx p c).ranks.getD x.1 0
    s.dirtyBytes p c x
      ++ ((s.core core).moves.filter (fun m => m.rank = x.1 && m.slot = some x.2)).flatMap (fun m =>
          (s.deferredRows core m).flatMap (fun r => r.2.1))))

/-- The shadow certificate block's status byte has LEAVE set (R263 row 5): what a commit would leave. -/
def State.shadowLeave (s : State) (p c g : Nat) : Bool :=
  match s.places p c g with
  | (r, k) :: _ =>
    let a := s.slotAt p c r k + (s.ctxCat p c).tmpl.certOfs + 0x2A
    (s.peek (s.readPhys (s.prog p c r) a)).getLsbD 7
  | [] => false

/-! ### Fates -/

/-- BAR_MAX (R505). -/
def State.barMax (s : State) : Nat := s.rwField .guardCfg 3 0

/-- What a boundary does with an instance: the slots that commit, whether the run counts as barred, the completion it leaves
with (status, none for the committed one, and HOW), the slot that leaves a broken pair, and the pair's record of this run. -/
structure Fate where
  job : Job
  commits : List Nat := []
  barred : Bool := false
  leaves : Option (Option Nat × Nat) := none
  gone : Bool := false
  guardFail : Bool := false
  broken : Option Nat := none
  prev : Option (Option Dword × Option Dword) := none
  mismatch : Bool := false
  resolved : Bool := false
  deriving DecidableEq, Repr

/-- The commit of a single slot, or of a G2 pair by R281 and R507, before the leaving set is looked at. -/
def State.fateCommit (s : State) (p : Nat) (j : Job) : Fate :=
  let c := j.ctx
  match j.pair, j.slots with
  | true, [g, h] =>
    let w1 := s.wouldCommit p c g
    let w2 := s.wouldCommit p c h
    let k1 := if w1 then some (s.slotCrc p c g) else none
    let k2 := if w2 then some (s.slotCrc p c h) else none
    let same (now old : Option Dword) : Bool := now.isSome && now = old
    if w1 && w2 && k1 = k2 then { job := j, commits := [g, h], resolved := j.mismatch }
    else
      let r1 := j.prev.any (fun q => same k1 q.1)
      let r2 := j.prev.any (fun q => same k2 q.2)
      let bar := w1 || w2 || s.barred p c g || s.barred p c h
      let mm := w1 && w2
      if r1 && !r2 then { job := j, commits := [g], broken := some h, mismatch := mm }
      else if r2 && !r1 then { job := j, commits := [h], broken := some g, mismatch := mm }
      else { job := j, barred := bar, prev := if bar then some (k1, k2) else j.prev, mismatch := mm }
  | _, g :: _ =>
    if s.wouldCommit p c g then { job := j, commits := [g] } else { job := j, barred := s.barred p c g }
  | _, [] => { job := j }

/-- An instance's fate at a boundary by the rows of R263; a harvested one has its only completion already (R257). (DEDUCED, log 38) -/
def State.fate (s : State) (p te : Nat) (j : Job) : Fate :=
  let f := s.fateCommit p j
  let keep : Fate := { job := j }
  let g := j.slots.headD 0
  if j.st = .harvested then { keep with gone := true }
  else if (s.slotWord p j.ctx g SlotSt.state).getLsbD 3 then { keep with leaves := some (some 9, 0) }
  else if j.leave.any (fun l => l.2 < te) then
    { keep with leaves := some (some 10, if j.leave.any Prod.fst then 4 else 3) }
  else if j.spoiled || (f.barred && s.barMax ≤ j.runs.length + 1) then
    { keep with leaves := some (some 11, 0), barred := f.barred, guardFail := true, mismatch := f.mismatch }
  else if !f.commits.isEmpty && s.shadowLeave p j.ctx (f.commits.headD 0) then { f with leaves := some (none, 0) }
  else if j.deadline ≤ te then { f with leaves := some (none, 1) }
  else f

/-- The global slot that serves an instance's completion once its fate is done (R280, R508). -/
def Fate.serves (f : Fate) : List Nat :=
  match f.broken with
  | some g => f.job.slots.filter (fun h => h ≠ g)
  | none => f.job.slots

/-! ### B2: commit -/

/-- A slot's dirty lines committed (R196, R199). -/
def State.commitLines (s : State) (p c : Nat) (x : Nat × Nat) : State :=
  (s.persLines p c x.1 x.2).foldl (fun s a =>
    let l := a / 64
    if s.dirty.has l then { s with dirty := s.dirty.del l, sel := if s.sel.has l then s.sel.del l else s.sel.ins l } else s) s

/-- State bits cleared at every boundary (R191). -/
def boundaryBits : BitVec 16 := 0x03B0

/-- A slot's state word after the commit phase (R191, R199). What it holds then is what it starts from again, so that a resume boundary,
which commits nothing (R410), undoes nothing. -/
def SlotSt.afterCommit (t : SlotSt) (committed : Bool) : SlotSt :=
  let kept := t.state &&& ~~~boundaryBits
  let w := if committed then kept &&& ~~~(0x0002 : BitVec 16)
           else kept &&& ~~~(0xF040 : BitVec 16) ||| t.state0 &&& (0xF040 : BitVec 16)
  { t with state := w, state0 := w, flags0 := t.flags }

/-- The deferred moves of a core that a commit performs (R199): those of the slots that commit, and after a step that ended normally those
that are not SLOTWISE; each with the rows its source holds at the end of the step (R186). -/
def State.deferredDue (s : State) (normal : Bool) (done : List (Nat × Nat)) (n : Nat) : List (Deferred × List (Nat × List Byte × Bool)) :=
  ((s.core n).moves.filter (fun m => match m.slot with
    | none => normal
    | some k => done.contains (m.rank, k))).map (fun m => (m, s.deferredRows n m))

/-- The commit phase of a context (R199, R200): lines, deferred moves, state words, and the full/empty reset of R146. -/
def State.commitPhase (s : State) (p c : Nat) (commits : List Nat) : State :=
  let x := s.ctx p c
  let done := commits.flatMap (s.places p c)
  let due := x.ranks.dedup.map (fun n => (n, s.deferredDue x.normal done n))
  let s := due.foldl (fun s e =>
    (e.2.foldl (fun s m => s.doDeferred p e.1 m.1 m.2) s).onCore e.1 (fun k => { k with moves := [] })) s
  let s := done.foldl (fun s y => s.commitLines p c y) s
  let s := (s.dropDirty p c).emptyShare p c
  s.onCtx p c (fun x => { x with slots := x.slots.map (fun e =>
    (e.1, e.2.afterCommit (done.contains (e.1 / 256, e.1 % 256)))) })

/-! ### B1 to B4 -/

/-- What a fate leaves in an instance's record and in the logs (R279, R505-R508, R606). (DEDUCED, log 38) -/
def State.applyFate (s : State) (p : Nat) (f : Fate) : State :=
  let j := f.job
  let guard := ((s.queueCfg j.queue).map QueueCfg.guard).getD 0
  let g := j.slots.headD 0
  let core := s.slotCore p j.ctx g
  let run : BarredRun := { crc := s.lineCrc p j.ctx g, poison := j.slots.any (fun h => s.slotPoison p j.ctx h), unit := s.physKey core }
  let j' := if f.barred then { j with runs := j.runs ++ [run], reruns := j.reruns + 1 } else j
  let s := if f.barred && guard ≠ 0 then s.bump .barredCommit else s
  let s := s.onJob j.id (fun _ => { j' with prev := f.prev, mismatch := f.mismatch || (j.mismatch && f.commits.isEmpty) })
  let open' := (j.mismatch || f.mismatch) && !f.resolved && f.broken.isNone
  if f.guardFail then
    if j.pair then
      let s := if j.mismatch || f.mismatch then s else s.certBars core j' g .ucu
      s.endEpisode p { j' with mismatch := j.mismatch || f.mismatch } .ucu
    else if !j.spoiled && !j'.runs.any BarredRun.poison && j'.runs.all (fun r => r.crc = run.crc) then
      (s.bump .reproFail).onJob j.id (fun k => { k with runs := [] })
    else s.endEpisode p j' .ucu
  else
    let s := match f.broken with
      | some b =>
        let bc := s.slotCore p j.ctx b
        (s.slotReport bc 0x08 .ucm j b (s.physKey bc)).attribute (s.physKey bc)
      | none => if f.resolved then s.slotReport core 0x08 .ucm j g else s
    let ended := !f.commits.isEmpty || f.leaves.isSome
    if ended then (s.endEpisode p { j' with mismatch := open' } .ucm).onJob j.id (fun k => { k with prev := none }) else s

/-- A slot vacated (R262 B4). -/
def State.vacate (s : State) (p c g : Nat) : State :=
  (s.places p c g).foldl (fun s x => s.onSlot p c x.1 x.2 (fun _ => {})) s

/-- B4 for one instance: its completion, hand-off and vacated slots. `old` is the state before the commit, from which an instance that leaves
with INPUT_INVALID returns its iterate and certificate as admitted (R252). -/
def State.leavePhase (s : State) (p : Nat) (old : State) (f : Fate) : State :=
  match s.queueCfg f.job.queue, s.jobs.find? (fun j => j.id = f.job.id) with
  | some qc, some j =>
    let j := { j with slots := f.serves }
    let s := match f.broken with
      | some b => (s.vacate p j.ctx b).onJob j.id (fun k => { k with slots := f.serves, pair := false })
      | none => s
    let g := j.slots.headD 0
    match f.leaves with
    | some (st, how) =>
      let status := st.getD (s.statusOf p j.ctx g)
      let out := (if status = 9 then old else s).leavesWith qc j
      let s := (s.keepPrior qc j !f.commits.isEmpty).completeFrom qc j out status how (s.slotWord p j.ctx g SlotSt.flags)
      (j.slots.foldl (fun s g => s.vacate p j.ctx g) s).dropJob j.id
    | none => if f.gone then (j.slots.foldl (fun s g => s.vacate p j.ctx g) s).dropJob j.id else s
  | _, _ => s

/-- Insertion into a list kept in order by `le`. -/
def insertBy {α : Type} (le : α → α → Bool) (x : α) : List α → List α
  | [] => [x]
  | y :: r => if le x y then x :: y :: r else y :: insertBy le x r

/-- A list put in order; equal elements keep theirs. -/
def sortBy {α : Type} (le : α → α → Bool) (l : List α) : List α := l.foldr (insertBy le) []

/-- The cores of a context held idle after its step for as long as the step lasted, while the throttle lasts (R29, R426). (DEDUCED, log 39) -/
def State.idle (s : State) (p c : Nat) : State :=
  let x := s.ctx p c
  if s.thermal.throttled && x.boundary then
    x.ranks.foldl (fun s n => s.onCore n (fun k => { k with idleUntil := x.endNclk + (x.endNclk - x.startNclk) })) s
  else s

/-- The deferred full/empty accesses of a context's step, each with its core, in the order of their cores and of issue (R186). -/
def State.lateFe (s : State) (p c : Nat) : List (Nat × Deferred) :=
  (s.ctx p c).ranks.dedup.flatMap (fun n => ((s.core n).moves.filter (fun m => m.kind = 2 || m.kind = 3)).map (fun m => (n, m)))

/-- The rows of a full/empty access granted at the end of the step, each marked as it is (R144); none where a line is in the wrong state. -/
def State.grantRows (s : State) (write : Bool) : List (Option Nat × Nat × Nat) → Option State
  | [] => some s
  | (_, a, o) :: r =>
    let line := if write then o else a
    if s.isFull line = write then none else (s.mark line write).grantRows write r

/-- The deferred full/empty accesses of a step that ended normally, tested where they read: at its end (R144, R186). One that meets its line in the wrong
state waits in vain, since no other access of the step is to come, and ends the step by its fault (R145). (DEDUCED, log 37) -/
def State.endFe (s : State) (p c : Nat) : State :=
  if (s.ctx p c).normal then
    match (s.lateFe p c).foldlM (fun (s : State) x => match s.grantRows (x.2.kind = 3) (s.feItems x.1 x.2.desc [x.2.slot]) with
      | some t => Except.ok t
      | none => Except.error (x.1, x.2.index)) s with
    | .ok t => t
    | .error (n, i) => (s.onCtx p c (fun x => { x with live := true })).kill p c n (if s.strict then .schedule else .slotTimeout) i
  else s

/-- Phases B1 to B4 of a boundary with its T_E (R262, R263), the leaving instances in the order of the slots that serve them. The full/empty bits then
reset let accesses of other steps go on (R145). (DEDUCED, log 38) -/
def State.boundary (s : State) (p c te : Nat) : State :=
  let s := s.endFe p c
  let js := sortBy (fun a b => a.slots.headD 0 ≤ b.slots.headD 0) (s.jobsOf p c)
  let fs := js.map (s.fate p te)
  let s := fs.foldl (fun s f => s.applyFate p f) s
  let old := s
  let s := s.commitPhase p c (fs.flatMap Fate.commits)
  let s := s.windowPhase p
  let out := sortBy (fun a b => a.serves.headD 0 ≤ b.serves.headD 0) fs
  let s := (out.foldl (fun s f => s.leavePhase p old f) s).idle p c
  (s.onCtx p c (fun x => { x with boundary := false, killed := none, resume := true })).feRetry

/-! ### B5: admission -/

/-- The waiting instances a context serves, in the order of R266. -/
def State.candidates (s : State) (p c : Nat) : List Job :=
  let mine := s.jobs.filter (fun j => j.st = .waiting && (match s.queueCfg j.queue with
    | some q => q.pan = p && s.servedBy q = some c
    | none => false))
  sortBy (fun a b => a.deadline < b.deadline || (a.deadline = b.deadline && (a.queue < b.queue || (a.queue = b.queue
    && (a.tArr < b.tArr || (a.tArr = b.tArr && a.id ≤ b.id)))))) mine

/-- The global slots of a context (R259). -/
def State.globalSlots (s : State) (p c : Nat) : List Nat :=
  let h := (s.prog p c 0).getD {}
  List.range (if (s.ctxCat p c).spanning then h.slots else h.slots * (s.ctx p c).ranks.length)

/-- The free slots reserved to a queue, and the free slots reserved to none, which it may take once its reserved ones are full (R267, R270). -/
def State.openSlots (s : State) (p c : Nat) (q : QueueCfg) : List Nat × List Nat :=
  let used := (s.jobsOf p c).flatMap Job.slots
  let freeSlots := (s.globalSlots p c).filter (fun g => !used.contains g)
  let all : List Nat := match s.sec.image with
    | none => []
    | some im => (im.queues.filter (fun x => x.2.pan = p && x.2.catalog = q.catalog)).flatMap (fun x => x.2.reserved)
  (freeSlots.filter (fun g => q.reserved.contains g),
   if s.strict && !q.reserved.isEmpty then [] else freeSlots.filter (fun g => !all.contains g))

/-- The first two of a list that a relation admits together, in the list's order. -/
def firstPair (rel : Nat → Nat → Bool) : List Nat → Option (Nat × Nat)
  | [] => none
  | g :: r => match r.find? (rel g) with
    | some h => some (g, h)
    | none => firstPair rel r

/-- The slots one instance takes (R267, R270): below ADMIT_MAX on each core, its queue's reserved slots before any other, and for G2 two on
different cores. `taken` lists the ranks of this boundary's admissions. -/
def State.chooseSlots (s : State) (p c : Nat) (q : QueueCfg) (taken : List Nat) : Option (List Nat) :=
  let e := s.ctxCat p c
  let rankOf (g : Nat) : List Nat := (s.places p c g).map Prod.fst
  let room (g : Nat) : Bool := (rankOf g).all (fun r => (taken.filter (fun t => t = r)).length < e.admitMax)
  let (own, rest) := s.openSlots p c q
  if q.guard = 2 then
    let apart (g h : Nat) : Bool := rankOf h ≠ rankOf g
    let pick := match own with
      | [] => firstPair apart (rest.filter room)
      | [g] => if room g then ((rest.filter room).find? (apart g)).map (fun h => (g, h)) else none
      | _ => firstPair apart (own.filter room)
    pick.map (fun x => [min x.1 x.2, max x.1 x.2])
  else ((if own.isEmpty then rest else own).find? room).map (fun g => [g])

/-- The instance header (R214). -/
def headerBytes (t : Template) (q : QueueCfg) (j : Job) : List Byte :=
  leBytes 1 t.cls ++ leBytes 1 t.method ++ leBytes 1 t.form ++ leBytes 1 q.guard ++ leBytes 2 t.dim0 ++ leBytes 2 t.dim1
    ++ leBytes 2 t.dim2 ++ leBytes 2 t.dim3 ++ leBytes 1 t.iterCap ++ leBytes 1 t.refine ++ leBytes 1 t.pfmt
    ++ leBytes 1 t.rangePolicy ++ leBytes 4 t.delta0.toNat ++ leBytes 4 t.deltaMin.toNat ++ leBytes 1 t.kpoint
    ++ leBytes 1 t.rpoint ++ leBytes 1 t.estPoint ++ leBytes 1 t.rhoEvery ++ leBytes 1 t.xpoint ++ leBytes 1 t.spoint
    ++ leBytes 1 t.zpoint ++ leBytes 1 0 ++ leBytes 8 j.deadline ++ leBytes 2 j.queue ++ leBytes 2 j.gen.toNat
    ++ leBytes 4 t.wMax.toNat ++ leBytes 4 t.tolOfs ++ leBytes 4 t.certOfs ++ leBytes 8 0
    ++ t.arrays.flatMap (fun w => leBytes 4 w.toNat)

/-- Big-endian elements stored little-endian (R448). -/
def swapElems (w : Nat) (bs : List Byte) : List Byte := (chunk w bs.length bs).flatMap List.reverse

/-- The ARRAYS entries of the arrays that a SUBMIT carries, with their elements: neither CONSTANT nor generated by a model (R214, R290). -/
def Template.submitted (t : Template) : List (Word × Nat) :=
  (((List.range 16).zip (t.arrays.zip t.arrayElems)).filter (fun x => !x.2.1.getLsbD 31 && !t.generated.contains x.1)).map Prod.snd

/-- The submitted arrays cut out of a SUBMIT's parameters: offset in the slot, bytes (R213, R214, R448). -/
def paramWrites (t : Template) : List (Word × Nat) → List Byte → List (Nat × List Byte)
  | [], _ => []
  | (w, n) :: r, bs =>
    let b := n * (t.fmt.bits / 8)
    (w.toNat, swapElems (t.fmt.bits / 8) (bs.take b)) :: paramWrites t r (bs.drop b)

/-- The ARRAYS entries of a class's l and u (R214); none where the class has no bounds of that kind. -/
def boundArrays (cls : Nat) : Option (Nat × Nat) := if cls = 0 then some (3, 4) else if cls = 1 then some (8, 9) else none

/-- Whether a bound of an admitted instance is infinite (R216, R237): `up` for u. A row behind those that the array bounds is an equality of
the dynamics, and its bounds are finite. -/
def boundInf (big : Val) (t : Template) (get : Nat → Nat → List Byte) (up : Bool) (i : Nat) : Bool :=
  match boundArrays t.cls with
  | none => false
  | some (l, u) =>
    let k := if up then u else l
    let b := t.fmt.bits / 8
    i < t.arrayElems.getD k 0 && infBound big (Machine.decode t.fmt 0 (leNat (get k (i * b) |>.take b)))

/-- The iterate of a warm start in FX32 (R215, R216): x, then s_l, s_u, z_l, z_u, or zc and y of ADMM; the slack and dual of an
infinite bound are 0. -/
def warmBytes (t : Template) (inf : Bool → Nat → Bool) (warm : List Byte) : List Byte :=
  let vals := (chunk 8 warm.length warm).map (fun b => Machine.decode .fp64 0 (beNat b))
  let fx (p : Nat) (v : Val) : List Byte := leBytes 4 (encodeFix 32 p .rte v).1
  let n := t.xElems
  let m := t.yElems
  ((List.range vals.length).zip vals).flatMap (fun (i, v) =>
    if i < n then fx t.xpoint v
    else
      let part := (i - n) / max m 1
      let k := (i - n) % max m 1
      if t.method = 1 then fx (if part = 0 then t.spoint else t.zpoint) v
      else if inf (part % 2 = 1) k then leBytes 4 0
      else fx (if part < 2 then t.spoint else t.zpoint) v)

/-- The certificate block at admission (R216, R275). -/
def certInit (corrupt : Bool) : List Byte :=
  let inf := leBytes 8 0x7FF0000000000000
  inf ++ inf ++ inf ++ inf ++ inf ++ leBytes 2 0 ++ leBytes 1 (if corrupt then 0x89 else 3) ++ leBytes 21 0

/-- Bytes written at an address past buffers and selectors (R265). -/
def State.plain (s : State) (a : Nat) (bs : List Byte) : State :=
  s.place a bs false

/-- An instance written into one slot (R216, R268, R275). The kept prior of its queue replaces the submitted one, unless its predecessor has not left
(R248). -/
def State.fillSlot (s : State) (p c rank k : Nat) (q : QueueCfg) (j : Job) (corrupt : Bool) : State :=
  let e := s.ctxCat p c
  let t := e.tmpl
  let h := (s.prog p c rank).getD {}
  let a := s.slotAt p c rank k
  let lines := (s.persLines p c rank k).map (fun x => x / 64)
  let s := { s with sel := s.sel.filter (fun l => !lines.contains l), dirty := s.dirty.filter (fun l => !lines.contains l) }
  let s := (s.plain a (headerBytes t q j)).plain (a + t.tolOfs) (q.tol.flatMap (fun v => leBytes 8 v.toNat))
  let s := (paramWrites t t.submitted j.params).foldl (fun s w => s.plain (a + w.1) w.2) s
  let free := s.jobs.all (fun k => k.queue ≠ j.queue || k.st = .waiting)
  let s := match (if q.chained && free then s.priors.get j.queue else none), t.arrays, t.arrayElems with
    | some pr, w0 :: w1 :: _, n0 :: _ =>
      let b := n0 * (t.fmt.bits / 8)
      (s.plain (a + w0.toNat % 2 ^ 31) (pr.take b)).plain (a + w1.toNat % 2 ^ 31) (pr.drop b)
    | _, _, _ => s
  let s := s.plain (a + h.persOfs) (List.replicate h.persLen 0)
  let shared := (s.ctx p c).ranks.getD rank 0 * 0x400000 + e.shareBase % 0x400000
  let get (i ofs : Nat) : List Byte :=
    let w := (t.arrays.getD i 0)
    (List.range 8).map (fun b => s.peek ((if w.getLsbD 31 then shared else a) + w.toNat % 2 ^ 31 + ofs + b))
  let big := Machine.decode .fp64 0 (q.tol.getD 7 0).toNat
  let s := if j.warm.isEmpty then s else s.plain (a + t.iterOfs) (warmBytes t (boundInf big t get) j.warm)
  let s := s.plain (a + t.certOfs) (certInit corrupt)
  s.onSlot p c rank k (fun _ =>
    let st : BitVec 16 := 0x0003 ||| (if corrupt then 0x0008 else 0) ||| (if !corrupt && j.quality = 1 then 0x0004 else 0)
    { state := st, flags := 0, state0 := st, flags0 := 0 })

/-- Whether an instance is admitted with CORRUPT (R274). -/
def corruptAt (q : QueueCfg) (j : Job) : Bool := if q.inputPolicy = 0 then j.quality ≠ 0 else j.quality = 2

/-- An instance admitted (R268, R421). -/
def State.admitOne (s : State) (p c te : Nat) (q : QueueCfg) (j : Job) (gs : List Nat) : State :=
  let s := gs.foldl (fun s g => (s.places p c g).foldl (fun s x => s.fillSlot p c x.1 x.2 q j (corruptAt q j)) s) s
  let s := if q.chained then { s with priors := s.priors.del j.queue } else s
  (s.addWait j.client (te - j.tArr)).onJob j.id (fun k =>
    { k with st := .live, tAdmit := te, ctx := c, slots := gs, pair := gs.length = 2, params := [], warm := [] })

/-- B5 (R266-R270): the candidates in order. -/
def State.admitAll (p c te : Nat) : List Job → List Nat → State → State
  | [], _, s => s
  | j :: r, taken, s =>
    match s.queueCfg j.queue with
    | none => State.admitAll p c te r taken s
    | some q =>
      if j.deadline ≤ te + q.minSolve then State.admitAll p c te r taken (s.completeWaiting j 8 2)
      else match s.chooseSlots p c q taken with
        | none => State.admitAll p c te r taken s
        | some gs => State.admitAll p c te r (taken ++ (gs.flatMap (s.places p c)).map Prod.fst) (s.admitOne p c te q j gs)

/-! ### B6: start -/

/-- VU_CTRL as a program header's word sets it (R119): its fields alone, and a reserved RM code leaves the attribute as it was (R16). -/
def loadVuCtrl (old w : Word) : Word :=
  let rm := if fieldOf w 10 8 ≤ 4 then fieldOf w 10 8 else fieldOf old 10 8
  BitVec.ofNat 32 (rm * 256 + fieldOf w 4 0)

/-- A core starts the step of its rank at descriptor 0 (R119, R177, R411), with the other ranks that take turns on it (R516). `fresh`: other contexts
have had the pan since. -/
def State.startCore (s : State) (p c rank n : Nat) (fresh : Bool) (others : List Nat) : State :=
  let h := (s.prog p c rank).getD {}
  s.onCore n (fun k => { k with
    vuCtrl := if fresh || k.run ≠ some (p, c) then loadVuCtrl k.vuCtrl h.vuCtrl else k.vuPend.getD k.vuCtrl, vuPend := none,
    run := some (p, c), rank := rank, stepping := true, next := 0, issued := 0, wait := none, waitRec := none, ops := [], traps := [], moves := [],
    stage := none, asked := 0, parts := [], turns := others.map (fun r => { rank := r }) })

/-- The ranks of a context on a core, ascending. -/
def ranksOn (cores : List Nat) (n : Nat) : List Nat := (List.range cores.length).filter (fun r => cores[r]? = some n)

/-- The NCLK count at which a step starts whose boundary began at `at'`: in strict mode once BOUNDARY_BUDGET has passed (R425). (DEDUCED, log 39) -/
def State.startAt (s : State) (p c at' : Nat) : Nat := if s.strict then at' + nclkOf (s.ctxCat p c).boundaryBudget else s.nclk

/-- Phases B5 and B6 (R262) of a boundary that began at `at'`: admission, and the next step of the context on every core. -/
def State.startStep (s : State) (p c te at' : Nat) : State :=
  let s := State.admitAll p c te (s.candidates p c) [] s
  let fresh := (s.ctx p c).away
  let s := s.onCtx p c (fun x => { x with
    live := true, boundary := false, killed := none, resume := false, parked := false, budgetEnd := false, away := false,
    startedAt := s.tideAt (s.startAt p c at'), startNclk := s.startAt p c at',
    slots := x.slots.map (fun e => (e.1, { e.2 with state0 := e.2.state, flags0 := e.2.flags })) })
  let ranks := (s.ctx p c).ranks
  ranks.dedup.foldl (fun s n => s.startCore p c ((ranksOn ranks n).headD 0) n fresh (ranksOn ranks n).tail) s

end Sys2Proof.Machine
end

