-- ==== Sys2Proof/Machine/Pan.lean ====
section
/-!
DEFINITION. Pans (R296, R307-R318, R398-R420): the checks and placement of a load, its end, unloading, pre-emption, pause, and
slice entries.
-/

namespace Sys2Proof.Machine

/-! ### What a context needs (R308, R314, R316) -/

/-- Bytes of a step program (R174). -/
def StepProg.bytes (h : StepProg) : Nat := 64 + 64 * h.descCount

/-- STATUS_IDX of a descriptor with STW, from its words (R181). -/
def statusIdxOf (ws : List Word) : Option Nat :=
  if (ws.getD 0 0).getLsbD 12 then some (fieldOf (ws.getD 14 0) 15 0) else none

/-- Bytes of a program's status area (R184). -/
def StepProg.statusBytes (h : StepProg) : Nat := 8 * ((h.descs.filterMap statusIdxOf).map (fun k => k + 1)).foldl max 0

/-- Bytes of the weights one rank holds when the first `t` DENSE layers are resident (R308), and of its staging area (R316). -/
def rankWeightBytes (e : CatEntry) (ms : List ModelPack) (t rank : Nat) : Nat × Nat :=
  let G := max e.group 1
  let ds := (denseLayers ms).map (fun x => denseBytes x.1 x.2 G (rank % G))
  ((ds.take t).sum + (ms.map (fun m => (m.layers.map plainBytes).sum)).sum, 2 * (ds.drop t).foldl max 0)

/-- Bytes one rank needs when the first `t` DENSE layers are resident and the others streamed (R314, R316). -/
def rankBytes (e : CatEntry) (ms : List ModelPack) (t rank : Nat) : Nat :=
  let w := rankWeightBytes e ms t rank
  let h := e.progs.getD rank {}
  w.1 + w.2 + h.bytes + h.statusBytes + h.slotSize

/-- Bytes by which a rank exceeds its share (R314): by what it needs, or where its weights or its staging area would run past the share's end
(R399). -/
def rankOver (e : CatEntry) (ms : List ModelPack) (t rank : Nat) : Nat :=
  let w := rankWeightBytes e ms t rank
  let past (ofs len : Nat) : Nat := if len = 0 then 0 else ofs + len - e.shareLen
  max (rankBytes e ms t rank - e.shareLen) (max (past e.weightOfs w.1) (past e.stageOfs w.2))

/-- The rank of largest shortfall with its bytes; none where every rank fits its share (R314). -/
def rankShort (e : CatEntry) (ms : List ModelPack) (t : Nat) : Option (Nat × Nat) :=
  let l := (List.range e.width).map (fun r => (r, rankOver e ms t r))
  l.foldl (fun b x => match b with
    | none => if x.2 = 0 then none else some x
    | some y => if y.2 < x.2 then some x else some y) none

/-- How many DENSE layers are resident: all, or with streaming those before the first that does not fit (R316). The load stands only if every core then
has its slot. -/
def residentLayers (e : CatEntry) (ms : List ModelPack) (stream : Bool) : Option Nat :=
  let n := (denseLayers ms).length
  if rankShort e ms n = none then some n
  else if stream then
    let t := ((List.range n).takeWhile (fun i => rankShort e ms (i + 1) = none)).length
    if rankShort e ms t = none then some t else none
  else none

/-- The DENSE layers of a pack. -/
def ModelPack.dense (m : ModelPack) : List LayerRec := m.layers.filter (fun l => l.op = 1)

/-- The packs of a context, each with how many of its DENSE layers are resident where the first `t` of all are (R316). -/
def residentPacks : List ModelPack → Nat → List (ModelPack × Nat)
  | [], _ => []
  | m :: r, t => (m, min t m.dense.length) :: residentPacks r (t - m.dense.length)

/-- What a core still lacks of a pack's weights that a group rank holds with its first `t` DENSE layers (R312): the layers from the first one that no
copy on the core has, and whether the biases and NORM parameters are lacking too. -/
def State.lacking (s : State) (p G : Nat) (m : ModelPack) (core part t : Nat) : Nat × Bool :=
  let mine := (s.pan p).copies.filter (fun w => w.meas = m.meas && w.group = G && w.core = core && w.part = part)
  (min t ((mine.map WeightCopy.hi).foldl max 0), mine.isEmpty)

/-- Bytes of the weights that a load copies to one rank (R312, R313). -/
def State.copyBytes (s : State) (p : Nat) (e : CatEntry) (ms : List ModelPack) (t rank core : Nat) : Nat :=
  let G := max e.group 1
  ((residentPacks ms t).map (fun x =>
    let y := s.lacking p G x.1 core (rank % G) x.2
    (((x.1.dense.take x.2).drop y.1).map (fun l => denseBytes x.1 l G (rank % G))).sum
      + (if y.2 then (x.1.layers.map plainBytes).sum else 0))).sum

/-- Bytes a load writes (R313, R403): resident weights that its cores lack, programs, CONSTANT arrays and region contents, once per copy. -/
def State.loadBytes (s : State) (p : Nat) (e : CatEntry) (ms : List ModelPack) (t : Nat) (ranks : List Nat) : Nat :=
  ((List.range e.width).map (fun r =>
      s.copyBytes p e ms t r (ranks.getD r 0) + (e.progs.getD r {}).bytes + e.constBytes)).sum + e.regionInitBytes

/-! ### Placement (R400, R401) -/

/-- Whether a context index keeps shares (R399). -/
def Ctx.kept (x : Ctx) : Bool := x.st = .loading || x.st = .resident || x.st = .halted

/-- The context indexes of a pan that keep shares. -/
def State.keptCtxs (s : State) (p : Nat) : List Nat := (List.range 8).filter (fun c => (s.ctx p c).kept)

/-- Whether two context indexes of a pan share a slice-table entry. -/
def sharesEntry (cfg : PanCfg) (a b : Nat) : Bool := cfg.slices.any (fun e => e.mask.getLsbD a && e.mask.getLsbD b)

/-- The spans of a core's scratchpad that a context to be loaded must leave alone (R399): the shares of the contexts of its pan, and the copies of
weights that outlive the context they were loaded for, but for those that it shares itself (R312). (DEDUCED, log 34) -/
def State.heldOn (s : State) (p n : Nat) (e : CatEntry) : List (Nat × Nat) :=
  let shares := ((s.keptCtxs p).filter (fun k => (s.ctx p k).ranks.contains n)).map (fun k =>
    ((s.ctxCat p k).shareBase, (s.ctxCat p k).shareLen))
  let copies := (s.pan p).copies.filter (fun w => w.core = n && !(e.packs.contains w.meas && w.group = max e.group 1)
    && !shares.any (fun y => y.1 ≤ w.ofs && w.ofs + w.len ≤ y.1 + y.2))
  shares ++ copies.map (fun w => (w.ofs, w.len))

/-- Whether a core is free for a context (R400): enough of its scratchpad is unused, and no context of a common slice-table entry occupies it. (DEDUCED, log 34) -/
def State.coreFree (s : State) (cfg : PanCfg) (p c : Nat) (e : CatEntry) (n : Nat) : Bool :=
  ((s.heldOn p n e).map Prod.snd).sum + e.shareLen ≤ 0x400000
    && (s.keptCtxs p).all (fun k => !(s.ctx p k).ranks.contains n || !sharesEntry cfg c k)

/-- Whether a logical core is lost: its physical core is declared failed, and no spare has taken its place (R496, R516). -/
def State.coreLost (s : State) (n : Nat) : Bool :=
  let x := s.regions.getD (n / 8) {}
  x.downs.contains (s.physCore n) && x.copyCore ≠ some (n % 8)

/-- The logical core of each rank (R400, R401, R516): as a degraded placement in force says (`placed`), by the static placement, or the first free
cores; none where fewer than W cores are free, or a core of the static placement is lost. (DEDUCED, log 34) -/
def State.placement (s : State) (cfg : PanCfg) (p c : Nat) (e : CatEntry) (placed : Bool) : Option (List Nat) :=
  if placed then e.static
  else if s.strict then e.static.bind (fun l => if l.any s.coreLost then none else some l)
  else
    let l := (sortBy (fun a b => decide (a ≤ b)) cfg.cores).filter (fun n => s.coreFree cfg p c e n && !s.coreLost n)
    if l.length < e.width then none else some (l.take e.width)

/-- The first rank whose core's scratchpad holds something where the context's share is to lie (R399: a share is never lent), with the bytes
that meet. (DEDUCED, log 34) -/
def State.shareMeets (s : State) (p : Nat) (e : CatEntry) (ranks : List Nat) : Option (Nat × Nat) :=
  let meet (n : Nat) : Nat := ((s.heldOn p n e).map (fun x => min (x.1 + x.2) (e.shareBase + e.shareLen) - max x.1 e.shareBase)).sum
  ((List.range ranks.length).map (fun r => (r, meet (ranks.getD r 0)))).find? (fun x => x.2 ≠ 0)

/-- Bytes by which a region's memory cannot hold a context's shares (R314): a share outside the region's 6 MiB or in a region that is lost (R517), or one
that a resident context holds already. -/
def State.regionShort (s : State) (e : CatEntry) : Nat :=
  let held := (List.range 16).flatMap (fun p => (s.keptCtxs p).flatMap (fun c => (s.ctxCat p c).regions))
  (e.regions.map (fun r =>
    (if (s.regions.getD r.region {}).lost then r.len else r.ofs + r.len - 0x600000)
      + ((held.filter (fun x => x.region = r.region)).map (fun x => min (x.ofs + x.len) (r.ofs + r.len) - max x.ofs r.ofs)).sum)).sum

/-- Bytes of the step programs that resident contexts hold (R605). -/
def State.progBytes (s : State) : Nat :=
  ((List.range 16).map (fun p => ((s.keptCtxs p).map (fun c => ((s.ctxCat p c).progs.map StepProg.bytes).sum)).sum)).sum

/-- Bytes by which the rest of the queue/descriptor store cannot hold one more context's step programs (R605). -/
def State.storeShort (s : State) (e : CatEntry) : Nat :=
  s.progBytes + (e.progs.map StepProg.bytes).sum - (4096 * 1024 - 512 * 1024 - s.instBytes)

/-- What an accepted load does: the core of each rank, the bytes it writes, how many DENSE layers are resident and whether the others are
streamed, and the pages of the image store it reads. -/
structure LoadPlan where
  ranks : List Nat
  bytes : Nat
  streamed : Bool
  resident : Nat
  pages : List Nat
  deriving DecidableEq, Repr

/-- Whether some core of a load lacks some of a pack's weights, of which `t` DENSE layers are to be resident (R312). -/
def State.packLacking (s : State) (p : Nat) (e : CatEntry) (ranks : List Nat) (x : ModelPack × Nat) : Bool :=
  let G := max e.group 1
  (rankCores ranks).any (fun r =>
    let y := s.lacking p G x.1 r.1 (r.2 % G) x.2
    y.2 || y.1 < x.2)

/-- The pages of the image store that a load reads (R24, R404): those of the packs that it copies, and those of the image that hold the context's
CONSTANT arrays and region contents. -/
def State.pagesOfLoad (s : State) (e : CatEntry) (fresh : List ModelPack) : List Nat :=
  let im := (s.sec.image.map StructImage.held).getD []
  fresh.flatMap ModelPack.held ++ e.constPages.filterMap (fun i => im[i]?)

/-- A shortfall to be recorded (R314). -/
def shortOf (memory p rank c bytes : Nat) : Shortfall :=
  { valid := true, memory := memory, pan := p, rank := rank, ctx := c, bytes := min bytes 0xFFFFFFFF }

/-- The catalogue entry that a LOAD takes: as the degraded placement in force compiles it, where it does (R516). -/
def State.loadEntry (s : State) (p cat : Nat) : Option CatEntry := (s.degradedEntry p (s.pan p).degraded cat).or (s.catEntry p cat)

/-- The checks of a LOAD (R296, R307, R314-R316, R399-R402). (DEDUCED, log 34) -/
def State.loadPlan (s : State) (p c cat : Nat) : Except (Reason × Option Shortfall) LoadPlan :=
  if (s.ctx p c).st ≠ .empty ∧ (s.ctx p c).st ≠ .loadFail then .error (.busy, none)
  else match s.panCfg p, s.loadEntry p cat with
    | some cfg, some e =>
      match s.packsOf e with
      | none => .error (.imageRejected, none)
      | some ms =>
        if !ms.all (fun m => max e.group 1 ≤ 2 ^ m.kslices) then .error (.imageRejected, none)
        else if s.strict ∧ e.static = none then .error (.strictForbidden, none)
        else if ((s.pan p).degraded.bind (fun k => cfg.degraded[k]?)).any (fun d => d.none.contains cat) then
          .error (.resources, some (shortOf 0 p 0 c e.shareLen))
        else
          let n := (denseLayers ms).length
          match residentLayers e ms (!s.strict && e.streamOk) with
          | none =>
            let (r, b) := (rankShort e ms n).getD (0, 0)
            .error (.resources, some (shortOf 0 p r c b))
          | some t =>
            if s.regionShort e ≠ 0 then .error (.resources, some (shortOf 1 p 0 c (s.regionShort e)))
            else if s.storeShort e ≠ 0 then .error (.resources, some (shortOf 2 p 0 c (s.storeShort e)))
            else match s.placement cfg p c e (s.degradedEntry p (s.pan p).degraded cat).isSome with
              | none => .error (.resources, some (shortOf 0 p 0 c e.shareLen))
              | some ranks =>
                match s.shareMeets p e ranks with
                | some (r, b) => .error (.resources, some (shortOf 0 p r c b))
                | none =>
                  let fresh := ((residentPacks ms t).filter (s.packLacking p e ranks)).map Prod.fst
                  .ok { ranks := ranks, bytes := s.loadBytes p e ms t ranks, streamed := t < n, resident := t, pages := s.pagesOfLoad e fresh }
    | _, _ => .error (.imageRejected, none)

/-- NCLK cycles a load of B bytes takes at the pan's HBUS rate (R403). (DEDUCED, log 34) -/
def loadCycles (rate bytes : Nat) : Nat := ((500000 + bytes * 1000 / max rate 1) * 11 + 19) / 20

/-- An accepted LOAD: the index is LOADING (R402), and the pages that it reads are asked for (R404, R414). Its cores load the program
header's VU_CTRL when they next start (R119). (DEDUCED, log 34) -/
def State.startLoad (s : State) (p c cat : Nat) (l : LoadPlan) : State :=
  let s := l.ranks.foldl (fun s n => s.onCore n (fun k => if k.run = some (p, c) then { k with run := none } else k)) s
  let toks := s.nextPlaces p .hbus l.pages.length
  let s := s.chargeBy p .hbus 4096 (l.pages.length * 4096)
  let s := { s with xacts := s.xacts ++ (l.pages.zip toks).map (fun i : Nat × Nat =>
    ({ core := 0, pan := p, ctx := c, tag := (s.ctx p c).tag, op := 0, chan := some (s.storePlace i.1).1, page := (s.storePlace i.1).2,
       use := .load, tok := i.2 } : Xact)) }
  let placed := (s.pan p).degraded.filter (fun k => (s.degradedEntry p (some k) cat).isSome)
  s.onCtx p c (fun x => { st := .loading, cat := cat, degraded := placed, ranks := l.ranks, tag := x.tag, streamed := l.streamed, resident := l.resident,
                          loadEnd := s.nclk + loadCycles (s.bucketCfg p .hbus).rate l.bytes })

/-- A LOAD (R402): the reason it is refused for, with the shortfall recorded, or the index LOADING. (DEDUCED, log 34) -/
def State.load (s : State) (p c cat : Nat) : Option Reason × State :=
  match s.loadPlan p c cat with
  | .ok l => (none, s.startLoad p c cat l)
  | .error (r, none) => (some r, s)
  | .error (r, some f) => (some r, { s with shortfall := f }.note .shortInfo (· ||| 2 ^ 31))

/-- Bytes that a load writes: words that it writes lose any poison (R160). -/
def State.loadPlace (s : State) (a : Nat) (bs : List Byte) : State := s.place a bs false

/-- The memory address of an offset in a rank's scratchpad share (R399). -/
def shareAt (e : CatEntry) (n ofs : Nat) : Nat := n * 0x400000 + e.shareBase + ofs

/-- Bytes at single addresses put together where one address follows another. -/
def runsOf : List (Nat × Byte) → List (Nat × List Byte)
  | [] => []
  | (a, b) :: r => match runsOf r with
    | [] => [(a, [b])]
    | (k, l) :: t => if k = a + 1 then (a, b :: l) :: t else (a, [b]) :: (k, l) :: t

/-- A step program copied into its descriptor area (R176), and the CONSTANT arrays into the share (R213, R403), for a rank's core. -/
def State.writeRank (s : State) (e : CatEntry) (rank n : Nat) : State :=
  let h := e.progs.getD rank {}
  let s := s.loadPlace (shareAt e n h.descOfs) h.image
  (runsOf (e.consts.filter (fun k => k.1 < e.shareLen))).foldl (fun s k => s.loadPlace (shareAt e n k.1) k.2) s

/-- The contents of a context's region-memory share (R399, R403); a byte outside it is none of them. -/
def State.writeRegions (s : State) (p c : Nat) : State :=
  let e := s.ctxCat p c
  (runsOf (e.regionInit.filter (fun k => coreOf k.1 = none && s.inShare p c k.1))).foldl (fun s k => s.loadPlace k.1 k.2) s

/-- The weights of a pack that a group rank holds of its DENSE layers from `lo` to one before `hi`, counted from `i`, with the biases and NORM
parameters of all layers where `plain` says so, in layer order (R308, R311). (DESIGN CHOICE, log 66) -/
def rankWeights (m : ModelPack) (G j lo hi : Nat) (plain : Bool) (body : List Byte) : Nat → List LayerRec → List Byte
  | _, [] => []
  | i, l :: r =>
    (if l.op = 1 && lo ≤ i && i < hi then denseData m l G j body else []) ++ (if plain then plainData l body else [])
      ++ rankWeights m G j lo hi plain body (if l.op = 1 then i + 1 else i) r

/-- One rank's part of a pack copied from the model store into its core's share behind what the load has put there (R311), as far as the core lacks
it (R312), and entered among the pan's copies. `ofs` is where the core's weights go on. (DESIGN CHOICE, log 66) -/
def State.writePart (s : State) (p : Nat) (e : CatEntry) (x : ModelPack × Nat) (core rank ofs : Nat) : State × Nat :=
  let G := max e.group 1
  let y := s.lacking p G x.1 core (rank % G) x.2
  if !y.2 && x.2 ≤ y.1 then (s, ofs)
  else
    let data := rankWeights x.1 G (rank % G) y.1 x.2 y.2 (s.storeBytes x.1.held) 0 x.1.layers
    let w : WeightCopy := { meas := x.1.meas, group := G, core := core, part := rank % G, lo := y.1, hi := x.2,
                            ofs := e.shareBase + e.weightOfs + ofs, len := data.length }
    ((s.onPan p (fun q => { q with copies := q.copies ++ [w] })).loadPlace (shareAt e core (e.weightOfs + ofs)) data, ofs + data.length)

/-- Packs copied to a core for its ranks, one after another. -/
def State.writeCore (p : Nat) (e : CatEntry) (core : Nat) : List (ModelPack × Nat × Nat) → Nat → State → State
  | [], _, s => s
  | (m, t, rank) :: r, ofs, s =>
    let x := s.writePart p e (m, t) core rank ofs
    State.writeCore p e core r x.2 x.1

/-- The packs of a context with `t` resident DENSE layers copied into the shares of its cores (R311). (DESIGN CHOICE, log 66) -/
def State.writePacks (s : State) (p : Nat) (e : CatEntry) (ranks : List Nat) (ms : List ModelPack) (t : Nat) : State :=
  ranks.dedup.foldl (fun s n => State.writeCore p e n
    ((ranksOn ranks n).flatMap (fun r => (residentPacks ms t).map (fun x => (x.1, x.2, r)))) 0 s) s

/-- What a load writes (R176, R311, R399, R403). (DEDUCED, log 34) -/
def State.writeLoad (s : State) (p c : Nat) : State :=
  let x := s.ctx p c
  let e := s.ctxCat p c
  let s := (List.range x.ranks.length).foldl (fun s r => s.writeRank e r (x.ranks.getD r 0)) s
  (s.writeRegions p c).writePacks p e x.ranks (s.heldPacks e) x.resident

/-- A context's lines taken from the persistent and full/empty records, as its shares start out or are freed. -/
def State.clearShare (s : State) (p c : Nat) : State :=
  let s := (s.dropDirty p c).emptyShare p c
  ({ s with sel := s.sel.filter (fun l => !s.inShare p c (l * 64)) } : State).feRetry

/-- The pages that a load still waits for. (DEDUCED, log 34) -/
def State.loadDue (s : State) (p c : Nat) (t : Xact) : Bool := t.use = .load && t.pan = p && t.ctx = c && t.tag = (s.ctx p c).tag

/-- The copies of weights that no context of a pan uses any more removed (R312). -/
def State.sweepCopies (s : State) (p : Nat) : State :=
  let used (w : WeightCopy) : Bool := (s.keptCtxs p).any (fun k => (s.ctx p k).ranks.contains w.core && (s.ctxCat p k).packs.contains w.meas
    && max (s.ctxCat p k).group 1 = w.group)
  s.onPan p (fun x => { x with copies := x.copies.filter used })

/-- Whether a resident context names a pack (R548). -/
def State.namesPack (s : State) (m : ModelPack) : Bool :=
  (List.range 16).any (fun p => (s.keptCtxs p).any (fun c => (s.ctxCat p c).packs.contains m.meas))

/-- The DELETING packs that no resident context names freed (R548). -/
def State.sweepModels (s : State) : State :=
  { s with sec := { s.sec with models := s.sec.models.filter (fun m => !m.2.deleting || s.namesPack m.2) } }

/-- A load ended by a page that arrived poisoned (R404): the shares are free, and the index is LOAD_FAIL. -/
def State.failLoad (s : State) (p c : Nat) : State :=
  if (s.ctx p c).st ≠ .loading then s
  else
    let s := { s with xacts := s.xacts.filter (fun t => !s.loadDue p c t) }
    ((((s.clearShare p c).onCtx p c (fun x => { st := .loadFail, cat := x.cat, tag := x.tag })).sweepCopies p).ctxEvent p c 0).sweepModels

/-- LOAD_DONE (R402, R403): the load's time has passed and its last page has come; it ends as RESIDENT with its contents written. A poisoned page has
ended it before (R404). (DEDUCED, log 34) -/
def execLoadDone (p : Fin 16) (c : Fin 8) (s : State) : Host.Outcome State Fault Refusal :=
  .next (
    let x := s.ctx p c
    if s.inReset || x.st ≠ .loading || s.nclk < x.loadEnd || s.xacts.any (s.loadDue p c) then s
    else (((s.clearShare p c).writeLoad p c).onCtx p c (fun x => { x with st := .resident, resume := true })).ctxEvent p c 0)

/-! ### Pre-emption (R417) and unloading (R405) -/

/-- The running step of a context pre-empted: the kill, its counts, and phases B1 to B4 (R410, R417, R421). -/
def State.preemptCtx (s : State) (p c : Nat) : State :=
  let x := s.ctx p c
  if !x.live then s
  else
    let s := ((s.jobsOf p c).filter (fun j => j.st = .live)).foldl (fun s j => s.bump (.clientPreempt j.client.val)) s
    let n := x.ranks.headD 0
    let s := (s.kill p c n .preempt ((s.core n).next - 1)).bump (.preempt p)
    s.boundary p c (s.ctx p c).te

/-- B1 to B4 of a context whose step has ended (R410). -/
def State.settle (s : State) (p c : Nat) : State := if (s.ctx p c).boundary then s.boundary p c (s.ctx p c).te else s

/-- The current entry ended: its contexts stop, with a running step pre-empted (R408-R410, R417). -/
def State.endEntry (s : State) (p : Nat) : State :=
  let s := (List.range 8).foldl (fun s c => (s.preemptCtx p c).settle p c) s
  s.onPan p (fun x => { x with entryOn := false })

/-- The LIVE instances of a context completed from their committed copies (R405); harvested ones only leave. -/
def State.releaseJobs (s : State) (p c : Nat) : State :=
  (s.jobsOf p c).foldl (fun s j =>
    match s.queueCfg j.queue with
    | some qc =>
      if j.st = .live then
        let g := j.slots.headD 0
        ((s.endEpisode p j .ucm).completeFrom qc j (s.leavesWith qc j) (s.statusOf p c g) 1 (s.slotWord p c g SlotSt.flags)).dropJob j.id
      else s.dropJob j.id
    | none => s.dropJob j.id) s

/-- An UNLOAD (R405). -/
def State.unload (s : State) (p c : Nat) : State :=
  let x := s.ctx p c
  if x.st = .loadFail then s.onCtx p c (fun x => { tag := x.tag })
  else if !x.holds then s
  else
    let s := ((s.preemptCtx p c).settle p c).releaseJobs p c
    let s := ((s.clearShare p c).payOwed p c .ucu).onCtx p c (fun x => { tag := x.tag })
    ((s.sweepCopies p).ctxEvent p c 0).sweepModels

/-- Whether a pan is RT and reserved (R412). -/
def PanCfg.reserved (c : PanCfg) : Bool := c.rt && c.cores.length ≤ 4

/-- PAN_n_CTRL.PAUSE written (R420): clearing it leaves each context to its next slice entry. (DEDUCED, log 39) -/
def State.pausePan (s : State) (p : Nat) (on : Bool) : State :=
  match s.panCfg p with
  | none => s
  | some _ =>
    if (s.pan p).paused = on then s
    else s.onPan p (fun x => { x with
      paused := on, ctxs := if on then x.ctxs else x.ctxs.map (fun e => (e.1, { e.2 with parked := true })) })

/-- Whether a context runs a step or a boundary (R429). -/
def Ctx.running (x : Ctx) : Bool := x.live || x.boundary

/-- PAN_n_STATUS.PAUSED (R420). -/
def State.panPaused (s : State) (p : Nat) : Bool := (s.pan p).paused && (List.range 8).all (fun c => !(s.ctx p c).running)

/-- Whether every pan the pan map forms is PAUSED. -/
def State.allPaused (s : State) : Bool :=
  match s.sec.image with
  | none => true
  | some im => im.pans.all (fun x => s.panPaused x.1)

/-! ### Slice entries (R406-R409) -/

/-- The slice table of a pan. -/
def State.slices (s : State) (p : Nat) : List SliceEntry :=
  match s.panCfg p with
  | none => []
  | some c => c.slices

/-- LENGTH of an entry in ns. -/
def SliceEntry.ns (e : SliceEntry) : Nat := e.lengthUs * 1000

/-- The entry that a moment of the slice cycle falls in: its index, the time since its start and the time to its end (R407). (DEDUCED, log 39) -/
def entryAt : List SliceEntry → Nat → Nat → Option (Nat × Nat × Nat)
  | [], _, _ => none
  | e :: r, i, t => if t < e.ns then some (i, t, e.ns - t) else entryAt r (i + 1) (t - e.ns)

/-- The strict-mode entry at the present Tide64 (R407). (DEDUCED, log 39) -/
def State.tideEntry (s : State) (p : Nat) : Option (Nat × Nat × Nat) :=
  let l := s.slices p
  entryAt l 0 (s.tide64 % max 1 ((l.map SliceEntry.ns).sum))

/-- Elevenths of a nanosecond left in the current entry of a pan: of its LENGTH in open mode, where a cycle of NCLK is 20 ÷ 11 ns (R28, R408), and to its
end by Tide64 in strict mode (R407). (DEDUCED, log 39) -/
def State.entryLeft (s : State) (p : Nat) : Nat :=
  let x := s.pan p
  if !x.entryOn then 0
  else if s.strict then
    match s.tideEntry p with
    | some (i, _, left) => if i = x.entry then left * 11 else 0
    | none => 0
  else ((s.slices p)[x.entry]?.map SliceEntry.ns).getD 0 * 11 - (s.nclk - x.entryAt) * 20

/-- Whether the current entry of a pan names a context. -/
def State.inEntry (s : State) (p c : Nat) : Bool :=
  (s.pan p).entryOn && ((s.slices p)[(s.pan p).entry]?.any (fun e => e.mask.getLsbD c))

/-- Whether a context's step and boundary fit in the rest of the entry (R409): budgets are ACLK cycles of 10 ÷ 11 ns. -/
def State.fits (s : State) (p c : Nat) : Bool :=
  let e := s.ctxCat p c
  (e.stepBudget + e.boundaryBudget) * 10 ≤ s.entryLeft p

/-- Whether a context may start a step now (R29, R406, R409, R420). (DEDUCED, log 39) -/
def State.canStart (s : State) (p c : Nat) : Bool :=
  let x := s.ctx p c
  x.st = .resident && !x.live && !x.boundary && !x.parked && !(s.pan p).paused && s.inEntry p c && s.fits p c
    && x.ranks.all (fun n => !(s.core n).stepping && (s.core n).idleUntil ≤ s.nclk)

/-- Whether a context has a LIVE or WAITING instance (R408). -/
def State.hasWork (s : State) (p c : Nat) : Bool :=
  (s.jobsOf p c).any (fun j => j.st = .live) || !(s.candidates p c).isEmpty

/-- In open mode an entry none of whose contexts has a LIVE or WAITING instance ends at a step boundary (R408). -/
def State.idleEntry (s : State) (p : Nat) : Bool :=
  (s.pan p).entryOn && !s.strict && (List.range 8).all (fun c => !(s.inEntry p c && s.hasWork p c))

/-- The index of the next entry and whether it may start now: in table order in open mode (R408), at its Tide64 in strict mode
(R407; Tide64 advances by less than 2 ns a cycle). -/
def State.nextEntry (s : State) (p : Nat) : Option Nat :=
  let x := s.pan p
  let n := (s.slices p).length
  if x.entryOn || n = 0 then none
  else if s.strict then
    match s.tideEntry p with
    | some (i, since, _) => if since < 2 then some i else none
    | none => none
  else some (if x.ran then (x.entry + 1) % n else 0)

end Sys2Proof.Machine
end

