-- ==== Sys2Proof/Machine/Spare.lean ====
section
/-!
DEFINITION. Spares (R140, R141, R510-R517): declaring cores and banks failed, remaps, spare columns, and degraded placements.
-/

namespace Sys2Proof.Machine

/-- A region's spares. -/
def State.region (s : State) (r : Nat) : RegionSt := s.regions.getD r {}

/-- A region's spares changed. -/
def State.onRegion (s : State) (r : Nat) (f : RegionSt → RegionSt) : State := { s with regions := s.regions.put r (f (s.region r)) }

/-- A report in a core's log (R498). -/
def State.coreReport (s : State) (n : Nat) (cls : EClass) (source unit info detail : Nat) : State :=
  if h : n < 32 then s.report (.core ⟨n, h⟩) cls source unit info detail else s

/-- A report in a region's log (R498). -/
def State.regionReport (s : State) (r : Nat) (cls : EClass) (source unit info detail : Nat) : State :=
  if h : r < 4 then s.report (.region ⟨r, h⟩) cls source unit info detail else s

/-! ### Degraded placements (R516, R517) -/

/-- The degraded placement of a pan for a loss: a number of cores, or 256 + a region. (DESIGN CHOICE, log 53) -/
def findDegraded (lost : Nat) : Nat → List Degraded → Option (Nat × Degraded)
  | _, [] => none
  | i, d :: r => if d.lost = lost then some (i, d) else findDegraded lost (i + 1) r

/-- A context unloaded and loaded again (R405, R402, R504, R516). -/
def State.reload (s : State) (p c : Nat) : State :=
  let cat := (s.ctx p c).cat
  ((s.unload p c).load p c cat).2

/-- A pan placed by the degraded placement compiled for a loss: the affected contexts are reloaded, the loss reported with the
placement's speed, 0 where none is compiled. (DESIGN CHOICE, log 53) -/
def State.degradePan (s : State) (p region lost : Nat) (affected : Nat → Bool) : State :=
  let cfg := (s.panCfg p).getD {}
  let found := findDegraded lost 0 cfg.degraded
  let cs := (s.keptCtxs p).filter affected
  let s := s.onPan p (fun x => { x with degraded := match found with
    | some (i, _) => some i
    | none => x.degraded })
  let s := s.report .chip .fatal 0x0B (region * 16 + 15) (p * 256 + ((found.map (fun d => d.2.speedPct)).getD 0) % 256) 0
  let s := s.onRegion region (fun r => { r with degraded := true })
  cs.foldl (fun s c => if found.isNone then s.unload p c else s.reload p c) s

/-- The pans that hold a logical core. -/
def State.pansOf (s : State) (n : Nat) : List Nat :=
  match s.sec.image with
  | none => []
  | some im => (im.pans.filter (fun x => x.2.cores.contains n)).map Prod.fst

/-! ### Cores (R510, R513-R516) -/

/-- The logical core of a region that a physical core holds. -/
def RegionSt.logical (r : RegionSt) (phys : Nat) : Option Nat := (List.range 8).find? (fun i => r.map.getD i i = phys)

/-- Physical cores of a region that are declared failed and hold logical cores of a pan. -/
def State.lostCores (s : State) (cores : List Nat) : Nat :=
  (cores.filter (fun n => (s.region (n / 8)).downs.contains (s.physCore n))).length

/-- A core with no spare left: its READY bit clears and its pan is degraded (R496, R516). (DESIGN CHOICE, log 53) -/
def State.loseCore (s : State) (r i : Nat) : State :=
  let n := r * 8 + i
  let s := s.setCoreReady n false
  (s.pansOf n).foldl (fun s p =>
    s.degradePan p r (s.lostCores ((s.panCfg p).getD {}).cores) (fun c => (s.ctx p c).ranks.contains n)) s

/-- A physical core declared failed (R510): reported, and remapped to the region's spare where it is free and good (R513). (DESIGN CHOICE, log 53) -/
def State.coreFailed (s : State) (r phys : Nat) : State :=
  let x := s.region r
  if x.downs.contains phys then s
  else
    let s := (s.onRegion r (fun x => { x with failed := some phys, downs := x.downs ++ [phys] })).regionReport r .ucm 0x09 (phys * 16 + 15) 0 0
    match x.logical phys with
    | none => s.onRegion r (fun x => { x with spareBad := true })
    | some i =>
      if !x.spareUsed && !x.spareBad && x.copyCore = none && phys ≠ 8 then
        s.onRegion r (fun x => { x with copyCore := some i, copyPtr := 0, copyEnded := false })
      else s.loseCore r i

/-- The remap of a region's copied core (R513 step 3, R514). (DESIGN CHOICE, log 53) -/
def State.moveCore (s : State) (r : Nat) : State :=
  let x := s.region r
  match x.copyCore with
  | some i =>
    if x.copyEnded then
      let phys := x.map.getD i i
      let s := s.onRegion r (fun x => { x with map := x.map.set i 8, spareUsed := true, copyCore := none, copyEnded := false })
      s.regionReport r .ucm 0x0A (phys * 16 + 15) 0 0
    else s
  | none => s

/-- The words of a line of a logical core's scratchpad. -/
def coreWords (n line : Nat) : List Nat := (List.range 8).map (fun w => (n * 0x400000 + 64 * line) / 8 + w)

/-- CORE_COPY_DONE (R513): the pointer has passed the last line; the lines that read uncorrectable during the copy are poisoned, and a core in no
pan moves at once. (DESIGN CHOICE, log 53) -/
def execCoreCopyDone (r : CopyEnd) (s : State) : Host.Outcome State Fault Refusal :=
  .next (
    match (s.region r.region.val).copyCore with
    | none => s
    | some i =>
      if s.inReset then s
      else
        let s := s.onRegion r.region.val (fun x => { x with copyEnded := true, copyPtr := 65535 })
        let s := { s with poison := ((r.bad.filter (fun l => l < 65536)).flatMap (coreWords (r.region.val * 8 + i))).foldl NSet.ins s.poison }
        if (s.pansOf (r.region.val * 8 + i)).isEmpty then s.moveCore r.region.val else s)

/-! ### Events attributed to cores (R510, R511) -/

/-- The cores whose attributed events of the last second reach FAIL_THRESH are declared failed (R510). (DEDUCED, log 41) -/
def State.checkEvents (s : State) : State :=
  let now := s.attrib.events.filter (fun e => !s.passed e.2 1000000000)
  let s := { s with attrib := { s.attrib with events := now } }
  let th := s.rwField .guardCfg 15 8
  (now.map Prod.fst).foldl (fun s k =>
    if th ≤ (now.filter (fun e => e.1 = k)).length then s.coreFailed (k / 16) (k % 16) else s) s

/-- A residue mismatch of a column (R511): the second within 1 s switches the spare in at the next boundary, or fails the core where
the cell's spare is taken (R510). -/
def State.residue (s : State) (n cell col : Nat) : State :=
  let key := s.physKey n
  let s := s.coreReport n .ucm 0x03 (cell * 16 + col % 16) 0 0
  let again := s.attrib.residue.any (fun e => e.1 = key && e.2.1 = cell && e.2.2.1 = col && !s.passed e.2.2.2 1000000000)
  let s := { s with attrib := { s.attrib with residue :=
    (s.attrib.residue.filter (fun e => !s.passed e.2.2.2 1000000000)) ++ [(key, cell, col, s.nclk)] } }
  if !again then s
  else if s.attrib.sparing.contains (n, cell, col) then s
  else if s.bist.spared.any (fun e => e.1 = key * 16 + cell) || s.attrib.sparing.any (fun e => e.1 = n && e.2.1 = cell) then
    s.coreFailed (n / 8) (s.physCore n)
  else { s with attrib := { s.attrib with sparing := s.attrib.sparing ++ [(n, cell, col)] } }

/-- The columns of cores switched at a boundary of theirs (R511). -/
def State.spareColumns (s : State) (cores : List Nat) : State :=
  let mine := s.attrib.sparing.filter (fun e => cores.contains e.1)
  let s := { s with attrib := { s.attrib with sparing := s.attrib.sparing.filter (fun e => !cores.contains e.1) } }
  mine.foldl (fun s e =>
    let s := { s with bist := { s.bist with spared := s.bist.spared ++ [(s.physKey e.1 * 16 + e.2.1, e.2.2)] } }
    s.coreReport e.1 .ucm 0x04 (e.2.1 * 16 + e.2.2 % 16) 0 0) s

/-- A sequencer parity error (R510): two within 1 s fail the core. -/
def State.seqParity (s : State) (n : Nat) : State :=
  let key := s.physKey n
  let s := s.coreReport n .ucm 0x05 0xFF 0 (((s.core n).next - 1) % 65536)
  let again := s.attrib.parity.any (fun e => e.1 = key && !s.passed e.2 1000000000)
  let s := { s with attrib := { s.attrib with parity := (s.attrib.parity.filter (fun e => !s.passed e.2 1000000000)) ++ [(key, s.nclk)] } }
  if again then s.coreFailed (n / 8) (s.physCore n) else s

/-- What happens to units at a boundary of a pan's contexts on some cores: columns of those cores switched (R511), and copied cores of the pan
moved (R513). -/
def State.atBoundary (s : State) (p : Nat) (on : List Nat) : State :=
  if on.isEmpty then s
  else
    let cores := ((s.panCfg p).getD {}).cores
    ((([0, 1, 2, 3] : List Nat).foldl (fun s r =>
      match (s.region r).copyCore with
      | some i => if cores.contains (r * 8 + i) then s.moveCore r else s
      | none => s) (s.spareColumns on))).checkEvents

/-- The cores of a context whose step runs or whose boundary is due: they have a boundary where the context stops (R410). -/
def State.dueCores (s : State) (p c : Nat) : List Nat := if (s.ctx p c).live || (s.ctx p c).boundary then (s.ctx p c).ranks else []

/-- The current entry ended, with its contexts' boundaries (R408-R410, R417). -/
def State.closeEntry (s : State) (p : Nat) : State := (s.endEntry p).atBoundary p ((List.range 8).flatMap (s.dueCores p))

/-- PAN_n_CTRL.PREEMPT written (R412, R417). -/
def State.preemptPan (s : State) (p : Nat) : Option Reason × State :=
  match s.panCfg p with
  | none => (none, s)
  | some c => if c.reserved then (some .noPermission, s) else (none, s.closeEntry p)

/-- A context unloaded (R405), with the boundary that a pre-emption is. -/
def State.unloadCtx (s : State) (p c : Nat) : State := (s.unload p c).atBoundary p (s.dueCores p c)

/-! ### Banks (R140, R141, R512, R517) -/

/-- The region-memory bank of an address (R139). -/
def bankOf (a : Nat) : Nat := a % 0x800000 / 64 % 8

/-- A region lost (R517): its READY bit clears, and the pans with a share there are degraded. (DESIGN CHOICE, log 53) -/
def State.loseRegion (s : State) (r : Nat) : State :=
  if (s.region r).lost then s
  else
    let s := s.onRegion r (fun x => { x with lost := true })
    let s := (s.report .chip .fatal 0x0D (r * 16 + 15) 0 0).setReady (16 + r) false
    (List.range 16).foldl (fun s p =>
      let hit (c : Nat) : Bool := (s.ctxCat p c).regions.any (fun x => x.region = r)
      let has : Bool := ((s.panCfg p).getD {}).catalog.any (fun e => e.regions.any (fun x => x.region = r))
      if has || (s.keptCtxs p).any hit then s.degradePan p r (256 + r) hit else s) s

/-- The copy of a region's failing bank has gone on: the spec gives it no pace, so by a free number of the lines of 768 KiB that still wait,
and never past the last (R139, R140). (DESIGN CHOICE, log 2; DESIGN CHOICE, log 53) -/
def State.bankAdvance (s : State) (r : Nat) : State :=
  if (s.region r).bankCopy.isSome then
    let (f, s) := s.takeFree 16
    s.onRegion r (fun x => { x with bankPtr := x.bankPtr + f.toNat % (12288 - x.bankPtr) })
  else s

/-- The copy of a region's failing core has gone on, by a free number of lines (R513, R514). (DESIGN CHOICE, log 2; DESIGN CHOICE, log 53) -/
def State.coreAdvance (s : State) (r : Nat) : State :=
  if (s.region r).copyCore.isSome && !(s.region r).copyEnded then
    let (f, s) := s.takeFree 16
    s.onRegion r (fun x => { x with copyPtr := x.copyPtr + f.toNat % (65536 - x.copyPtr) })
  else s

/-- A region-memory bank meets R512. -/
def State.bankFailed (s : State) (r b : Nat) : State :=
  let x := s.region r
  if x.bankCopy = some b then s
  else if x.bankCopy = none && x.replaced = none && !x.bankBad then s.onRegion r (fun x => { x with bankCopy := some b, bankPtr := 0 })
  else s.loseRegion r

/-- The words of a line of a region's logical bank (R139). -/
def bankWords (r b line : Nat) : List Nat := (List.range 8).map (fun w => (0x08000000 + r * 0x800000 + (line * 8 + b) * 64) / 8 + w)

/-- BANK_COPY_DONE (R141): the spare bank has replaced the failing one; the lines of it that read uncorrectable while they were copied are
poisoned. (DESIGN CHOICE, log 53) -/
def execBankCopyDone (r : CopyEnd) (s : State) : Host.Outcome State Fault Refusal :=
  .next (
    match (s.region r.region.val).bankCopy with
    | none => s
    | some b =>
      if s.inReset then s
      else
        let key := 65536 + r.region.val * 8 + b
        let s := { s with attrib := { s.attrib with ecc := s.attrib.ecc.filter (fun e => e.1 ≠ key) },
                          poison := ((r.bad.filter (fun l => l < 12288)).flatMap (bankWords r.region.val b)).foldl NSet.ins s.poison }
        (s.onRegion r.region.val (fun x => { x with bankCopy := none, replaced := some b, bankPtr := 0 })).regionReport r.region.val .ucm 0x0C
          (0xF0 + b) 0 0)

/-- A bank's key: a physical core's cell bank, or a region's bank. -/
def State.bankKey (s : State) (a : Nat) : Nat :=
  match coreOf a with
  | some n => s.physKey n * 16 + a % 0x400000 / 0x40000
  | none => 65536 + (a - 0x08000000) / 0x800000 * 8 + bankOf a

/-- A bank meets the criterion of R512. -/
def State.bankMeets (s : State) (a : Nat) : State :=
  match coreOf a with
  | some n => s.coreFailed (n / 8) (s.physCore n)
  | none => if a < 0x0A000000 then s.bankFailed ((a - 0x08000000) / 0x800000) (bankOf a) else s

/-- The physical bank that holds an address of region memory: the spare for a replaced bank, and for the lines that a copy has passed
(R140, R141). (DESIGN CHOICE, log 53) -/
def State.physBank (s : State) (a : Nat) : Nat :=
  let x := s.region ((a - 0x08000000) / 0x800000)
  if x.replaced = some (bankOf a) || (x.bankCopy = some (bankOf a) && a % 0x800000 / 512 < x.bankPtr) then 8 else bankOf a

/-- UNIT of an ECC report: the cell of a scratchpad, or the physical bank of a region (R498). -/
def State.eccUnit (s : State) (a : Nat) : Nat :=
  match coreOf a with
  | some _ => a % 0x400000 / 0x40000 * 16 + 15
  | none => 0xF0 + s.physBank a

/-- An ECC report to the owner of a word's memory (R498): its core, its region, or the chip. -/
def State.eccReport (s : State) (a : Nat) (cls : EClass) (source syndrome : Nat) : State :=
  match coreOf a with
  | some n => s.coreReport n cls source (s.eccUnit a) syndrome a
  | none =>
    if a < 0x0A000000 then
      let s := s.bankAdvance ((a - 0x08000000) / 0x800000)
      s.regionReport ((a - 0x08000000) / 0x800000) cls source (s.eccUnit a) syndrome a
    else s.report .chip cls source 0xFF syndrome a

/-- A corrected single-bit error (R158, R512): reported, and the sixteenth distinct word of a bank within 24 h fails the bank. -/
def State.eccCorrected (s : State) (a syndrome : Nat) : State :=
  let s := s.eccReport a .ce 0x01 syndrome
  let key := s.bankKey a
  let day := s.attrib.ecc.filter (fun e => !s.passed e.2.2 86400000000000 && !(e.1 = key && e.2.1 = a / 8))
  let s : State := { s with attrib := { s.attrib with ecc := day ++ [(key, a / 8, s.nclk)] } }
  if 16 ≤ (s.attrib.ecc.filter (fun e => e.1 = key)).length then s.bankMeets a else s

end Sys2Proof.Machine
end

