-- ==== Sys2Proof/Machine/Batch.lean ====
section
/-!
DEFINITION. Batches in time (R256-R277, R406-R410, R425): step boundaries, slice entries, the rake, and what SUBMIT, CANCEL and
QUEUE_CLOSE do to instances.
-/

namespace Sys2Proof.Machine

/-- A resume boundary and the step after it (R410), where the context may start. -/
def State.resumeCtx (s : State) (p c : Nat) : State :=
  if (s.ctx p c).resume && s.canStart p c then
    let te := s.tide64
    ((s.boundary p c te).atBoundary p (s.ctx p c).ranks).startStep p c te s.nclk
  else s

/-- STEP_BOUNDARY (R262): the boundary of a context's last step, or its resume boundary (R410), and its next step where it may
start (R408, R409). -/
def execStepBoundary (p : Fin 16) (c : Fin 8) (s : State) : Host.Outcome State Fault Refusal :=
  .next (
    let x := s.ctx p c
    if s.inReset then s
    else if x.boundary then
      let s := (s.boundary p c x.te).atBoundary p x.ranks
      if s.idleEntry p then s.closeEntry p
      else if s.canStart p c then s.startStep p c x.te x.endNclk else s
    else s.resumeCtx p c)

/-- STEP_BUDGET_END (R425): in strict mode a step ends once its STEP_BUDGET of ACLK cycles, two to a cycle of NCLK, has passed. (DEDUCED, log 39) -/
def execStepBudgetEnd (p : Fin 16) (c : Fin 8) (s : State) : Host.Outcome State Fault Refusal :=
  .next (
    let x := s.ctx p c
    if s.inReset || !s.strict || !x.live || !x.ranks.all (fun k => !(s.core k).stepping)
        || s.nclk < s.budgetNclk p c then s
    else (s.onCtx p c (fun x => { x with budgetEnd := true })).checkPanEnd p c)

/-- SLICE_ENTRY_START (R406-R408, R410, R420): the next entry starts, with the resume boundaries and first steps of its contexts. (DEDUCED, log 39) -/
def execSliceEntryStart (p : Fin 16) (s : State) : Host.Outcome State Fault Refusal :=
  .next (
    match s.nextEntry p with
    | none => s
    | some i =>
      if s.inReset then s
      else
        let since := match s.tideEntry p with
          | some (_, t, _) => if s.strict then t else 0
          | none => 0
        let s := s.onPan p (fun x => { x with entry := i, entryOn := true, ran := true, entryAt := s.nclk,
                                               entryTide := s.tide64 - since })
        let mine := (List.range 8).filter (fun c => s.inEntry p c)
        let s := (List.range 8).foldl (fun s c => s.onCtx p c (fun x =>
          if x.st = .empty then x else if mine.contains c then { x with parked := false } else { x with away := true })) s
        let go := mine.filter (fun c => s.canStart p c)
        let on := go.flatMap (fun c => (s.ctx p c).ranks)
        let s := (go.foldl (fun s c => s.boundary p c s.tide64) s).atBoundary p on
        if s.idleEntry p then s.closeEntry p
        else go.foldl (fun s c => if s.canStart p c then s.startStep p c s.tide64 s.nclk else s) s)

/-- Whether the LENGTH of the current entry has passed (R407, R408). (DEDUCED, log 39) -/
def State.entryOver (s : State) (p : Nat) : Bool :=
  let x := s.pan p
  let len := ((s.slices p)[x.entry]?.map SliceEntry.ns).getD 0
  if s.strict then x.entryTide + len ≤ s.tide64 || (match s.tideEntry p with
    | some (i, _, _) => i ≠ x.entry
    | none => true)
  else s.passed x.entryAt len

/-- SLICE_ENTRY_END (R408-R410): in open mode a step that still runs is pre-empted. (DEDUCED, log 39) -/
def execSliceEntryEnd (p : Fin 16) (s : State) : Host.Outcome State Fault Refusal :=
  .next (
    if s.inReset || !(s.pan p).entryOn || !s.entryOver p then s
    else if s.strict then
      let on := ((List.range 8).filter (fun c => (s.ctx p c).boundary)).flatMap (fun c => (s.ctx p c).ranks)
      let s := ((List.range 8).foldl (fun s c => s.settle p c) s).atBoundary p on
      s.onPan p (fun x => { x with entryOn := false })
    else s.closeEntry p)

/-! ### The rake -/

/-- An instance harvested (R271, R273): its completion from the committed copy and the flag word of the start of the step. -/
def State.harvest (s : State) (j : Job) : State :=
  match s.queueCfg j.queue with
  | none => s
  | some qc =>
    let p := qc.pan
    let g := j.slots.headD 0
    let flags := s.slotWord p j.ctx g (if (s.ctx p j.ctx).live then SlotSt.flags0 else SlotSt.flags)
    let s := ((s.endEpisode p j .ucm).completeFrom qc j (s.leavesWith qc j) (s.statusOf p j.ctx g) 1 flags)
    s.onJob j.id (fun k => { k with st := .harvested })

/-- Whether the rake harvests an instance now (R271): its deadline is reached, and no boundary of its context is due. -/
def State.harvestDue (s : State) (j : Job) : Bool :=
  j.st = .live && j.deadline ≤ s.tide64 && (match s.queueCfg j.queue with
    | some qc => !(s.ctx qc.pan j.ctx).boundary
    | none => false)

/-- DEADLINE_HARVEST (R271, R273): every instance whose deadline is reached. (DEDUCED, log 38) -/
def execDeadlineHarvest (s : State) : Host.Outcome State Fault Refusal :=
  .next (if s.inReset then s else ((s.jobs.filter s.harvestDue).foldl State.harvest s).checkEvents)

/-- Whether a WAITING instance is at deadline − MIN_SOLVE (R269). -/
def State.lateDue (s : State) (j : Job) : Bool :=
  j.st = .waiting && (match s.queueCfg j.queue with
    | some qc => j.deadline ≤ s.tide64 + qc.minSolve
    | none => false)

/-- NOT_STARTED_THRESHOLD (R269): every WAITING instance at deadline − MIN_SOLVE. -/
def execNotStartedThreshold (s : State) : Host.Outcome State Fault Refusal :=
  .next (if s.inReset then s else (s.jobs.filter s.lateDue).foldl (fun s j => s.completeWaiting j 8 2) s)

/-! ### SUBMIT, CANCEL, QUEUE_CLOSE on instances -/

/-- Bytes of the submitted parameters of a catalogue entry (R448). -/
def Template.paramBytes (t : Template) : Nat :=
  (t.submitted.map (fun x => x.2 * (t.fmt.bits / 8))).sum

/-- Bytes of a warm start in FP64 (R215, R448). -/
def Template.warmLen (t : Template) : Nat := 8 * (t.xElems + (if t.method = 1 then 2 else 4) * t.yElems)

/-- An instance that its queue will no longer serve (R276, R277): `close` tells a close from a CANCEL. (DEDUCED, log 38) -/
def State.leaveJob (s : State) (close : Bool) (j : Job) : State :=
  let how := if close then 4 else 3
  match j.st with
  | .waiting => s.completeWaiting j 10 how
  | .harvested => s
  | .live =>
    match s.queueCfg j.queue with
    | none => s
    | some qc =>
      if close && (s.ctx qc.pan j.ctx).st = .halted then
        let g := j.slots.headD 0
        let (status, how) := if (s.slotWord qc.pan j.ctx g SlotSt.state).getLsbD 3 then (9, 0) else (10, how)
        ((s.endEpisode qc.pan j .ucm).completeFrom qc j (s.leavesWith qc j) status how (s.slotWord qc.pan j.ctx g SlotSt.flags)).onJob j.id
          (fun k => { k with st := .harvested })
      else s.onJob j.id (fun k => if k.leave.isSome then k else { k with leave := some (close, s.tide64) })

/-- A CANCEL accepted (R276, R449). -/
def State.cancelTag (s : State) (q : Nat) (tag : Word) : State :=
  (s.jobs.filter (fun j => j.queue = q && j.tag = tag)).foldl (fun s j => s.leaveJob false j) s

/-- A close's effect on a queue's instances (R277). -/
def State.closeJobs (s : State) (q : Nat) : State := (s.jobs.filter (fun j => j.queue = q)).foldl (fun s j => s.leaveJob true j) s

/-- Whether the last completion of a closing queue has been handed to a port (R277). -/
def State.closeDone (s : State) (q : Nat) : Bool :=
  (s.queue q).state = .closing && s.jobs.all (fun j => j.queue ≠ q || j.st = .harvested)
    && s.comps.all (fun c => c.queue ≠ q || c.gen ≠ (s.queue q).gen || c.everSent)

/-- QUEUE_CLOSE_ACK (R277): the queue is closed and the close answered OK. -/
def execQueueCloseAck (q : BitVec 16) (s : State) : Host.Outcome State Fault Refusal :=
  .next (
    if s.inReset || !s.closeDone q.toNat then s
    else
      let x := s.queue q.toNat
      let s := { s with queues := s.queues.put q.toNat { x with state := .closed, closeReq := none } }
      match x.closeReq with
      | some h => s.nak h .ok
      | none => s)

end Sys2Proof.Machine
end

