-- ==== Sys2Proof/Machine/Sqp.lean ====
section
/-!
DEFINITION. The SQP endpoint (R439-R444, R453-R455, R462, R604): the checks every message passes, duplicates, acknowledgements and
resends.
-/

namespace Sys2Proof.Machine

/-- Which of two SEQ values is newer, by how much (R440): none where the first is not newer. -/
def newer (s h : Word) : Bool := 1 ≤ (s - h).toNat && (s - h).toNat < 2 ^ 31

/-- The queue that a frame sent serves, which its pan's HOST bucket counts (R414): a COMPLETION's, or the SUBJECT of a QUEUE EVENT. -/
def OutFrame.queue (f : OutFrame) : Option Nat :=
  if f.type = 0x14 then some f.number.toNat
  else if f.type = 0x50 && beNat (f.payload.take 2) = 0xA then some (beNat ((f.payload.drop 4).take 4))
  else none

/-- The pan whose HOST bucket counts a queue's frames (R414). -/
def State.queuePan (s : State) (q : Nat) : Option Nat := (s.queueCfg q).map QueueCfg.pan

/-- An unacknowledged frame sent again (R453), and counted again in its pan's HOST bucket, for whose tokens it waits (R414). -/
def State.resendFrame (s : State) (f : OutFrame) : State :=
  (s.bump (.retry (portIx f.port))).paceFrame (f.queue.bind s.queuePan) f true

/-- UNRESPONSIVE cleared (R454): every unacknowledged frame is resent, its timer and count restart, and held messages follow. -/
def State.revive (s : State) (p : Port) : State :=
  if (s.hport p).unresponsive then
    let s := s.onHport p (fun h => { h with unresponsive := false,
                                            unacked := h.unacked.map (fun u => { u with resends := 0, since := s.nclk }) })
    let s := (s.hport p).unacked.foldl (fun s u => s.resendFrame u.frame) s
    (s.pumpWaiting p).flushComps
  else s

/-- The source of a message recorded for its client and for the port (R604). -/
def State.recordAddr (s : State) (h : SqpHdr) : State :=
  (s.onHport h.port (fun p => { p with clientAddr := p.clientAddr.put h.client.val h.src, portAddr := some h.src })).flushComps

/-- The answer kept for a SEQ; a fragment's SEQ stands for its message's (R443). (DEDUCED, log 25) -/
def answerOf (recs : List (Word × Answer)) (q : Word) : Option Answer :=
  match recs.find? (fun r => r.1 = q) with
  | some (_, .same m) => (recs.find? (fun r => r.1 = m)).map Prod.snd
  | some (_, a) => some a
  | none => none

/-- A duplicate (R441): counted, its stored answer resent; answers whether it is to be processed again. (DEDUCED, log 25) -/
def State.duplicate (s : State) (h : SqpHdr) (a : Answer) : Bool × State :=
  let s := s.bump (.dup (portIx h.port))
  match a with
  | .sent fs => (false, fs.foldl (fun s f => s.transmit { f with retry := true }) s)
  | .again => (true, s)
  | _ => (false, s)

/-- H moved to a newer SEQ: records more than 63 behind it are forgotten (R441), but for the answer of a message one of whose
fragments is still recorded (R443). -/
def HPort.advance (p : HPort) (q : Word) : HPort :=
  let near (r : Word × Answer) : Bool := (q - r.1).toNat ≤ 63
  { p with high := q, recs := p.recs.filter (fun r => near r || p.recs.any (fun x => near x && x.2 = .same r.1)) }

/-- Check 5 (R441): whether the message is processed. `mark` records it as processed. (DEDUCED, log 24) -/
def State.sequence (s : State) (h : SqpHdr) (mark : Bool) : Bool × State :=
  let hp := s.hport h.port
  let done (p : HPort) : HPort := if mark then { p with recs := setRec p.recs h.seq .none } else p
  if h.resync || hp.fresh then
    (true, s.onHport h.port (fun p => done { p with high := h.seq, recs := [], fresh := false }))
  else if newer h.seq hp.high then (true, s.onHport h.port (fun p => done (p.advance h.seq)))
  else if (hp.high - h.seq).toNat ≤ 63 then
    match answerOf hp.recs h.seq with
    | some a => s.duplicate h a
    | none => (true, s.onHport h.port done)
  else (false, s.bump (.dup (portIx h.port)))

/-- Checks 1 to 5 of R444: whether the message goes on. `known` says that a host may send its TYPE. (DEDUCED, log 24) -/
def State.accept (s : State) (h : SqpHdr) (known mark : Bool) : Bool × State :=
  if h.udpLen < 32 || !h.crcOk then (false, s.bump (.crcDrop (portIx h.port)))
  else
    let s := s.revive h.port
    if h.udpLen ≠ 32 + h.length.toNat then (false, s.nakUnkept h .badLength)
    else if h.version ≠ 1 || !known then (false, s.nakUnkept h .badVersion)
    else if h.oPort ≠ h.port then (false, s.nakUnkept h .noPermission)
    else (s.recordAddr h).sequence h mark

/-- Rights of R462, as bits of HPORT_CLIENT_c_PERM. -/
inductive Right | sem | window | queue | regWrite | image
  deriving DecidableEq, Repr

def Right.bit : Right → Nat
  | .sem => 0 | .window => 1 | .queue => 2 | .regWrite => 3 | .image => 4

/-- Whether a client has a right; none is needed where none is named. -/
def State.hasRight (s : State) (c : Fin 8) : Option Right → Bool
  | none => true
  | some r => (s.rw (.clientPerm c.val)).getLsbD r.bit

/-- Whether a port and client hold a semaphore (R458). -/
def State.holdsSem (s : State) (n : Nat) (p : Port) (c : Fin 8) : Bool :=
  match s.sems.get n with
  | some x => x.port = p && x.client = c
  | none => false

/-- Whether the sender of a message holds a semaphore. -/
def State.senderHolds (s : State) (n : Nat) (h : SqpHdr) : Bool := s.holdsSem n h.port h.client

/-- Checks 7 to 9 of R444 on a whole message: rights and the lock the message needs, readiness, the payload's length, then the type's own. -/
def State.lateChecks (s : State) (h : SqpHdr) (right : Option Right) (lock ready lenOk : Bool) (body : State → State) : State :=
  if !s.hasRight h.client right || !lock then s.nak h .noPermission
  else if !ready then s.nak h .notReady
  else if !lenOk then s.nak h .badLength
  else body s

/-- A message received whole, up to check 5 (R444): it reaches a port that is READY (R432). -/
def State.received (s : State) (h : SqpHdr) (go : State → State) : State :=
  if s.inReset || !s.portReady h.port then s
  else match s.accept h true true with
    | (false, s) => s
    | (true, s) => go s

/-- A message received whole (R444) that needs a lock. -/
def State.lockedMessage (s : State) (h : SqpHdr) (right : Option Right) (lock ready : State → Bool) (lenOk : Bool)
    (body : State → State) : State :=
  s.received h (fun s => s.lateChecks h right (lock s) (ready s) lenOk body)

/-- A message received whole that needs no lock. -/
def State.message (s : State) (h : SqpHdr) (right : Option Right) (ready : State → Bool) (lenOk : Bool) (body : State → State) : State :=
  s.lockedMessage h right (fun _ => true) ready lenOk body

/-- The header's LENGTH is that of the type's payload (R445). -/
def lenIs (h : SqpHdr) (n : Nat) : Bool := h.length.toNat = n

/-! ### Acknowledgements -/

/-- A QUEUE EVENT (R450, R604): on every READY port that has an address for the owner. -/
def State.queueEvent (s : State) (q cause : Nat) : State :=
  let x := s.queue q
  let body := beBytes 1 cause ++ beBytes 1 (portIx x.port) ++ beBytes 1 x.client.val ++ [0]
  ([.a, .b] : List Port).foldl (fun s p =>
    if s.portReady p then
      match (s.hport p).clientAddr.get x.client.val with
      | some a =>
        let pay := eventPay 0xA q s.now body
        s.sendPaced (s.queuePan q) p { type := 0x50, reliable := true, payload := pay, dest := a }
      | none => s
    else s) s

/-- A completion taken back from a port, to be held (R452); what waited for its place follows (R453). -/
def State.holdComp (s : State) (p : Port) (id : Nat) : State :=
  let s := (s.onHport p (fun h => h.dropMsg id)).pumpWaiting p
  { s with comps := s.comps.map (fun c => if c.id = id then
      { c with onA := if p = .a then false else c.onA, onB := if p = .b then false else c.onB } else c) }

/-- HOST_ACK's effect (R453): the frame is acknowledged; the last one of a message frees it. -/
def State.hostAck (s : State) (p : Port) (ack : Word) : State :=
  match (s.hport p).unacked.find? (fun u => u.frame.seq = ack) with
  | none => s
  | some u =>
    let s := s.onHport p (fun h => { h with unacked := h.unacked.filter (fun v => v.frame.seq ≠ ack) })
    let id := u.frame.msg
    let hp := s.hport p
    let rest := hp.unacked.any (fun v => v.frame.msg = id) || hp.waiting.any (fun f => f.msg = id)
    let s := if id ≠ 0 && !rest then s.freeComp id else s
    (s.pumpWaiting p).flushComps

/-- HOST_ACK (R453): a NAK of reason OK from the host. -/
def execHostAck (h : SqpHdr) (s : State) : Host.Outcome State Fault Refusal :=
  .next (s.message h none (fun _ => true) (lenIs h 8) (fun s => s.hostAck h.port h.ack))

/-- The queues a port owns: those open or closing. -/
def State.ownedQueues (s : State) (p : Port) : List Nat :=
  (s.queues.filter (fun x => x.2.port = p && x.2.state ≠ .closed)).map Prod.fst

/-- RESEND_TIMER (R453, R454): one RETRY.US interval has passed for an unacknowledged frame. On a port that is not READY a completion
is held, and other frames keep waiting. -/
def execResendTimer (p : Port) (seq : Word) (s : State) : Host.Outcome State Fault Refusal :=
  .next (
    match (s.hport p).unacked.find? (fun u => u.frame.seq = seq) with
    | none => s
    | some u =>
      let cfg := Reg.hportRetry (portIx p)
      if s.inReset || (s.hport p).unresponsive || !s.passed u.since (s.rwField cfg 23 0 * 1000) then s
      else if !s.portReady p then
        if u.frame.msg ≠ 0 then (s.holdComp p u.frame.msg).flushComps else s
      else if u.resends < s.rwField cfg 31 24 then
        (s.onHport p (fun h => { h with unacked := h.unacked.map (fun v =>
          if v.frame.seq = seq then { v with resends := v.resends + 1, since := s.nclk } else v) })).resendFrame u.frame
      else
        let s := s.onHport p (fun h => { h with unresponsive := true })
        (s.ownedQueues p).foldl (fun s q => s.queueEvent q 1) s)

/-- REASSEMBLY_TIMEOUT (R443): not complete 1 ms after the first fragment. -/
def execReassemblyTimeout (p : Port) (s0 : Word) (s : State) : Host.Outcome State Fault Refusal :=
  .next (
    match (s.hport p).reasm.find? (fun r => r.hdr.seq = s0) with
    | none => s
    | some r =>
      if s.inReset || !s.passed r.at' 1000000 then s
      else (s.onHport p (fun h => { h with reasm := h.reasm.filter (fun x => x.hdr.seq ≠ s0) })).bump (.reasmDrop (portIx p)))

end Sys2Proof.Machine
end

