-- ==== Sys2Proof/Machine/Guard.lean ====
section
/-!
DEFINITION. Faults as they are found (R158-R169, R184, R418, R496-R504, R511, R512): operations completing, transactions, the harrow,
HyperBus channels, and the logs.
-/

namespace Sys2Proof.Machine

/-! ### Poison (R504) -/

/-- What a poisoned word lies in (R504). -/
inductive PoisonAt
  | transient
  | slot (job : Nat)
  | shared (pan ctx : Nat)
  | unused
  deriving DecidableEq, Repr

/-- The context that has an address in its shares, if any (R399). -/
def State.ownerCtx (s : State) (a : Nat) : Option (Nat × Nat) :=
  ((List.range 16).flatMap (fun p => (s.keptCtxs p).map (fun c => (p, c)))).find? (fun x => s.inShare x.1 x.2 a)

/-- Whether an offset of a slot lies in its header, tolerance block or submitted parameters (R213, R214). -/
def Template.fixedAt (t : Template) (j : Nat) : Bool :=
  j < 0x80 || (t.tolOfs ≤ j && j < t.tolOfs + 64)
    || t.submitted.any (fun x => x.1.toNat ≤ j && j < x.1.toNat + x.2 * (t.fmt.bits / 8))

/-- Whether an address of a slot is its committed copy of a persistent line (R196). -/
def State.isCommitted (s : State) (h : StepProg) (a : Nat) : Bool :=
  match h.persOf false (a % 0x400000), h.persOf true (a % 0x400000) with
  | some _, _ => !s.sel.has (a / 64)
  | none, some _ => s.sel.has ((a - h.persLen) / 64)
  | none, none => false

/-- The instance in a slot of a rank. -/
def State.jobIn (s : State) (p c rank k : Nat) : Option Job :=
  (s.jobsOf p c).find? (fun j => j.slots.any (fun g => (s.places p c g).contains (rank, k)))

/-- What a word holds, by R197 and the shares of R399. -/
def State.poisonAt (s : State) (a : Nat) : PoisonAt :=
  match s.ownerCtx a with
  | none => .unused
  | some (p, c) =>
    let e := s.ctxCat p c
    match coreOf a with
    | none => if e.regionInit.any (fun k => k.1 / 8 = a / 8) then .shared p c else .unused
    | some n =>
      let ofs := a % 0x400000
      let rank := s.rankFor p c n ofs
      let h := (s.prog p c rank).getD {}
      let base := h.slotBase % 0x400000
      if base ≤ ofs && ofs < base + h.slots * h.slotSize then
        let k := (ofs - base) / h.slotSize
        match s.jobIn p c rank k with
        | none => .unused
        | some j =>
          if e.tmpl.fixedAt ((ofs - base) % h.slotSize) || s.isCommitted h a then .slot j.id else .transient
      else if h.statusBase % 0x400000 ≤ ofs && ofs < h.statusBase % 0x400000 + h.statusBytes then .transient
      else .shared p c

/-- Poison found in a word (R504): the report, and its outcome. A word with an uncorrectable error also meets R512. -/
def State.poisonFound (s : State) (a syndrome : Nat) : State :=
  let s := { s with poison := s.poison.ins (a / 8) }
  let s := match s.poisonAt a with
    | .transient | .unused => s.eccReport a .ucm 0x02 syndrome
    | .slot j => (s.eccReport a .ucu 0x02 syndrome).onJob j (fun k => { k with spoiled := true })
    | .shared p c => ((s.eccReport a .ucu 0x02 syndrome).reload p c).atBoundary p (s.dueCores p c)
  s.bankMeets a

/-! ### Operations and transactions -/

/-- OPERATION_COMPLETE (R158, R159, R184, R414, R504, R511): the oldest outstanding operation of a core, with the faults met. The syndrome
of an error met on a read is not given: a free value. (DEDUCED, log 35) -/
def execOperationComplete (n : Fin 32) (f : OpFaults) (s : State) : Host.Outcome State Fault Refusal :=
  .next (
    let m := n.val
    if s.inReset || (s.core m).ops = [] || s.opDue m then s
    else
      let s := s.completeOldest m f.residue.isSome f.uncorrectable
      let s := f.corrected.foldl (fun s a =>
        let (y, s) := s.takeFree 16
        ({ s with corrected := s.corrected.ins (a / 8) }).eccCorrected a y.toNat) s
      let s := f.uncorrectable.foldl (fun s a => let (y, s) := s.takeFree 16; s.poisonFound a y.toNat) s
      let s := match f.residue with
        | some (cell, col) => s.residue m cell col
        | none => s
      let s := if f.seqParity then s.seqParity m else s
      s.passEnd m)

/-- The first transaction of a list that satisfies a condition, and the list without it. (DEDUCED, log 36) -/
def takeXact (f : Xact → Bool) : List Xact → Option (Xact × List Xact)
  | [] => none
  | t :: r => if f t then some (t, r) else (takeXact f r).map (fun x => (x.1, t :: x.2))

/-- A reply with an old generation discarded and counted (R418); answers whether the reply is current. -/
def State.reply (s : State) (t : Xact) (rest : List Xact) : Bool × State :=
  let s := { s with xacts := rest }
  if t.tag = (s.ctx t.pan t.ctx).tag then (true, s) else (false, s.bump (.lateReply t.pan))

/-- REMOTE_ACCESS_COMPLETE (R137, R418): the oldest remote access of a core; the data of a current one stand with its operation. -/
def execRemoteAccessComplete (n : Fin 32) (s : State) : Host.Outcome State Fault Refusal :=
  .next (
    match takeXact (fun t => t.core = n.val && t.chan = none) s.xacts with
    | none => s
    | some (t, rest) => if s.inReset then s else (s.reply t rest).2)

/-- What a PAGE_LOAD writes for one target once a page has come: the page's bytes as they were delivered, poisoned or not (R159, R168, R169). -/
def OutWrite.fromPage (a : Nat) (bs : List Byte) (bad : Bool) (w : OutWrite) : OutWrite :=
  if w.src = [(a, a + 4095)] then { w with bytes := (bs.drop w.ofs).take w.bytes.length, bad := w.bad || bad } else w

/-- A page that has come put into the result of its outstanding operation that asked for it (R168, R191): no other slot's. -/
def State.pageIn (s : State) (t : Xact) (bs : List Byte) (bad : Bool) : State :=
  let a := pageAddr (t.chan.getD 0) t.page
  s.onCore t.core (fun k => { k with ops := k.ops.map (fun o =>
    if o.id = t.op then { o with res := ((List.range o.res.length).zip o.res).map (fun r =>
      if r.1 = t.res then { r.2 with writes := r.2.writes.map (OutWrite.fromPage a bs bad) } else r.2) } else o) })

/-- A page that has come, to what it was read for: an operation, a streamed layer (R317), or a load, which a poisoned page ends (R404). -/
def State.pageArrives (s : State) (t : Xact) (bs : List Byte) (bad : Bool) : State :=
  match t.use with
  | .operation => s.pageIn t bs bad
  | .stream r k => s.pageCame t.pan t.ctx t.core r k bad
  | .load => if bad then s.failLoad t.pan t.ctx else s

/-- Whether a page read is due on a channel: it is read there, and has its tokens (R169, R414). One that no ready channel holds is due on its own,
where it is delivered as poisoned. -/
def State.pageDueOn (s : State) (ch : Nat) (t : Xact) : Bool :=
  t.chan.any (fun c => (s.pageChans c).headD c = ch) && s.served t.pan (bucketIx .hbus, t.tok)

/-- HBUS_PAGE_TRANSFER (R168, R169, R404, R414, R418): the oldest page read due on a channel ends after as many CRC mismatches; two mean that the
mismatch persisted there, and four that it did on the partner of a mirror pair as well. A page of a mirror pair is read on its lower channel
while that is ready. (DEDUCED, log 36; DEDUCED, log 56) -/
def execHbusPageTransfer (ch : Fin 16) (crcErrors : Nat) (s : State) : Host.Outcome State Fault Refusal :=
  .next (
    if s.inReset then s
    else
      match takeXact (s.pageDueOn ch.val) s.xacts with
      | none => s
      | some (t, rest) =>
        match s.reply t rest with
        | (false, s) => s
        | (true, s) =>
          let (pg, s) := s.fetchAt (t.chan.getD 0) t.page crcErrors
          s.pageArrives t pg.1 pg.2)

/-- Whether a transfer waits for a bucket: a completion's frame is marked apart from the other HOST transfers. -/
def waitsFor (b : Bucket) (w : Nat × Nat) : Bool := w.1 = bucketIx b || (b = .host && w.1 = 4)

/-- SLUICE_TOKEN_GRANT (R414, R415): the transfer that waits longest for a bucket proceeds once the bucket holds enough; a grant of HOST
tokens sends the frames and the completions that wait, in order. -/
def execSluiceTokenGrant (p : Fin 16) (b : Bucket) (s : State) : Host.Outcome State Fault Refusal :=
  .next (
    match (s.pan p.val).waitingTok.find? (waitsFor b) with
    | none => s
    | some w =>
      if s.inReset || s.level p.val b < w.2 * 1000 then s
      else if w.1 = 4 then (s.onPan p.val (fun x => { x with waitingTok := dropFirst 4 x.waitingTok })).flushComps
      else if b = .host then (s.grant p.val b).1.releasePaced.flushComps
      else (s.grant p.val b).1)

/-! ### The harrow -/

/-- Whether a line lies in an SRAM of the address map (R124, R161). (DEDUCED, log 57) -/
def sramLine (a : Nat) : Bool := a < 0x08000000 || (a < 0x0A000000 && 0x08000000 ≤ a && a % 0x800000 < 0x600000)

/-- HARROW_SCRUB's effect on a line of the address map (R161). -/
def State.scrub (s : State) (line : Nat) (words : List HarrowWord) : State :=
  words.foldl (fun s w =>
    let a := line + 8 * (w.word % 8)
    if w.uncorrectable then s.poisonFound a w.syndrome.toNat
    else ({ s with corrected := s.corrected.del (a / 8) }).eccCorrected a w.syndrome.toNat) s

/-- HARROW_REWRITE (R162): the next word that a read corrected is rewritten with the value it holds. -/
def execHarrowRewrite (s : State) : Host.Outcome State Fault Refusal :=
  .next (if s.inReset then s else { s with corrected := s.corrected.drop 1 })

/-! ### HyperBus channels -/

/-- READY of the channels of a pair, and of HBUS (R32, R169, R173). -/
def State.refreshHbus (s : State) (c : Nat) : State :=
  let agree := s.mirrored c = s.mirrored (c ^^^ 8)
  let s := ([c, c ^^^ 8] : List Nat).foldl (fun s k => s.onChan k (fun h => { h with ready := h.trained && agree })) s
  s.setReady 3 ((List.range 16).any (fun k => (s.chan k).ready))

/-- An HBUS_n_CFG write while READY is clear (R173): ENABLE starts training. (DEDUCED, log 56) -/
def State.configHbus (s : State) (c : Nat) : State :=
  let en := s.rwField (.hbusCfg c) 15 15 = 1
  (s.onChan c (fun h => { h with trained := false, training := en, fail := false, line := none, check := [] })).refreshHbus c

/-- HBUS_TRAINING_DONE (R173). (DEDUCED, log 56) -/
def execHbusTrainingDone (ch : Fin 16) (pass : Bool) (s : State) : Host.Outcome State Fault Refusal :=
  .next (
    if s.inReset || !(s.chan ch.val).training then s
    else (s.onChan ch.val (fun h => { h with training := false, trained := pass, fail := !pass, lost := h.lost && !pass })).refreshHbus ch.val)

/-- HBUS_LOST (R32, R498, R545): a READY channel stops being usable. (DEDUCED, log 56) -/
def execHbusLost (ch : Fin 16) (s : State) : Host.Outcome State Fault Refusal :=
  .next (
    if s.inReset || !(s.chan ch.val).ready then s
    else
      let t := (s.onChan ch.val (fun h => { h with trained := false, lost := true, line := none, check := [] })).refreshHbus ch.val
      t.report .chip (if s.mirrored ch.val then .ucm else .fatal) 0x12 (ch.val * 16 + 15) 0 0)

/-! ### Logs -/

/-- The words of a log entry (R499). -/
def Report.words (r : Report) : List Word := [r.time.setWidth 32, (r.time >>> 32).setWidth 32, r.w2, r.w3]

/-- Whether a report is the copy in the chip log of another that sends the ERROR EVENT of both (R498, R502): all but UNIT agree. -/
def Report.copyOf (c r : Report) : Bool := c.time = r.time && c.w3 = r.w3 && (c.w2 ^^^ r.w2) &&& 0xFF00FFFF = 0 && !c.event

/-- The ERROR EVENT of a report recorded in a log (R502). -/
def State.errorEvent (s : State) (l : LogId) (index : Nat) (r : Report) : State :=
  s.event 0xB (logSubject l false index) (r.words.flatMap (fun w => beBytes 4 w.toNat))

/-- A report that is lost after its copy has gone to the chip log: the EVENT names the copy, once it is recorded (R502). (DEDUCED, log 41) -/
def State.eventByCopy (s : State) (r : Report) : State :=
  let g := s.log .chip
  if g.buf.any (fun c => c.copyOf r) then
    { s with logs := s.logs.put (logKey .chip) { g with buf := g.buf.map (fun c => if c.copyOf r then { c with event := true } else c) } }
  else match ((List.range g.entries.length).zip g.entries).find? (fun c => c.2.copyOf r) with
    | some (i, c) => s.errorEvent .chip i c
    | none => s

/-- LOG_RECORD (R500, R502): the report at the front of a log's buffer is recorded, with its ERROR EVENT; in a log that has become full it is
lost. (DEDUCED, log 41) -/
def execLogRecord (l : LogId) (s : State) : Host.Outcome State Fault Refusal :=
  .next (
    let g := s.log l
    match g.buf with
    | [] => s
    | r :: rest =>
      if s.inReset then s
      else if logCap l ≤ g.entries.length then
        let s := ({ s with logs := s.logs.put (logKey l) ({ g with buf := rest }.missed s.nclk r) }).lose l r
        if r.event && l ≠ .chip then s.eventByCopy r else s
      else
        let s := { s with logs := s.logs.put (logKey l) { g with buf := rest, entries := g.entries ++ [r] } }
        if r.event then s.errorEvent l g.entries.length r else s)

/-- LOG_STATUS.CLEAR (R503): the log is emptied and its bittern record zeroed. Reports in the buffer are kept, and so are those that have met the
full log in this NCLK cycle, as far as the buffer takes them. (DEDUCED, log 41) -/
def State.clearLog (s : State) (l : LogId) : State :=
  let g := s.log l
  { s with logs := s.logs.put (logKey l) { buf := (g.buf ++ (if g.lateAt = s.nclk then g.late else [])).take 4 } }

end Sys2Proof.Machine
end

