-- ==== Sys2Proof/Machine/Tide.lean ====
section
/-!
DEFINITION. The time base (R472-R493, R603): the counter, corrections, the servo, states, time-stamps, the transparent
clock and PPS.
-/

namespace Sys2Proof.Machine

/-- The nominal addend, and the ends of its range (R475). -/
def addendNom : Nat := 0x745D1746
def addendMin : Nat := 1950305604
def addendMax : Nat := 1954210120

/-- One NCLK cycle of the counter (R472): NS and its 30-bit fraction advance by ADDEND × 2⁻³⁰ ns, and 10⁹ ns carry into SEC; `carried` says
that NS passed 0 in this cycle (R492). (DESIGN CHOICE, log 1) -/
def Tide.tick (t : Tide) (addend : Nat) : Tide :=
  let q := t.ns * 2 ^ 30 + t.frac + addend
  let ns := q / 2 ^ 30
  let carry := ns ≥ 1000000000
  { t with frac := q % 2 ^ 30, ns := if carry then ns - 1000000000 else ns, sec := if carry then t.sec + 1 else t.sec,
           carried := carry, residence := t.residence + addend }

/-- TIDE_ADDEND's value. -/
def State.addend (s : State) : Nat := (s.rw .tideAddend).toNat

/-- One NCLK cycle of the machine (R28, R472, R490). (DESIGN CHOICE, log 1) -/
def State.tick (s : State) : State :=
  { s with nclk := s.nclk + 1, tide := s.tide.tick s.addend, sets := [] }

/-- TIDE_CFG.SOURCE (R476). -/
inductive TideSource | ptp | pps | free
  deriving DecidableEq, Repr

def State.tideSource (s : State) : TideSource :=
  match s.rwField .tideCfg 31 30 with
  | 1 => .pps
  | 2 => .free
  | _ => .ptp

/-- TIDE_CFG.SERVO is 1: the host corrects Tide (R478). -/
def State.hostServo (s : State) : Bool := s.rwField .tideCfg 29 29 = 1

def TideState.code : TideState → Nat
  | .unset => 0 | .acquiring => 1 | .locked => 2 | .holdover => 3

/-- A 64-bit value of a signed number. -/
def dword (k : Int) : Nat := unsgn64 k
where unsgn64 (k : Int) : Nat := (k % 2 ^ 64).toNat

/-- A TIME EVENT (R493). -/
def State.timeEvent (s : State) (cause : Nat) (value : Int) : State :=
  let gm := if s.tideSource = .ptp then s.tide.gm.toNat else 0
  s.event 0xC 0 (beBytes 2 cause ++ beBytes 1 s.tide.state.code ++ [0] ++ beBytes 4 0 ++ beBytes 8 (dword value) ++ beBytes 8 gm)

/-- A sticky flag of TIDE_STATUS. -/
def State.tideFlag (s : State) (k : Nat) : State :=
  { s with tide := { s.tide with sticky := putBit s.tide.sticky k true } }.note .tideStatus (· ||| 2 ^ k)

/-- STATE moved (R482), after the event of what moved it (`cause` 0 for none); a change sends a TIME EVENT of cause 4, and the
first LOCKED sets GLB_READY.TIDE (R483). -/
def State.tideGo (s : State) (st : TideState) (cause : Nat) (value : Int) : State :=
  let moved : Bool := s.tide.state ≠ st
  let s := { s with tide := { s.tide with state := st, good := if st = .acquiring then 0 else s.tide.good } }
  let s := if cause = 0 then s else s.timeEvent cause value
  if moved then
    let s := s.timeEvent 4 s.tide.offset
    if st = .locked then s.setReady 2 true else s
  else s

/-- Tide moved by a signed number of nanoseconds (R479 STEP). -/
def Tide.shift (t : Tide) (v : Int) : Tide :=
  let k : Int := (t.sec.toNat * 1000000000 + t.ns : Nat) + v
  { t with sec := BitVec.ofInt 64 (k / 1000000000), ns := (k % 1000000000).toNat, carried := false }

/-- Tide64 set to a value, FRAC to 0 (R479 SET). -/
def Tide.setTo (t : Tide) (v : Nat) : Tide :=
  { t with sec := BitVec.ofNat 64 (v % 2 ^ 64 / 1000000000), ns := v % 2 ^ 64 % 1000000000, frac := 0, carried := false }

/-- A pair. -/
def State.pair (s : State) (p : Nat) : PairSt := s.pairs.getD p {}

/-- The engine runs: an image is loaded, and READY is set or clear for a simplex or halted pair only (R353). -/
def State.loopRuns (s : State) : Bool :=
  !s.inReset && s.sec.image.isSome
    && (s.loopReady || ([0, 1, 2, 3] : List Nat).any (fun p => (s.pair p).simplex || (s.pair p).halted))

/-- LOOP_STATUS (R359). -/
def State.loopStatus (s : State) : Word :=
  let bits (f : PairSt → Bool) (k : Nat) : Word :=
    ([0, 1, 2, 3] : List Nat).foldl (fun w p => putBit w (k + p) (f (s.pair p))) 0
  bits PairSt.halted 8 ||| bits PairSt.simplex 4 ||| flagBit s.power.held 1 ||| flagBit s.loopEng.timeStep 0

/-- What a step of Tide from `t0` does to the loop engine (R324): a tick whose start it passed over is not run, nor is what is left of
the tick before it; TIME_STEP is set with one LOOP EVENT, whose subject the spec leaves open (log entry 2). (DEDUCED, log 42) -/
def State.loopJump (s : State) (t0 : Nat) : State :=
  let k := s.tide64 / 15625
  if s.loopRuns && s.tide64 ≠ t0 then
    let g := { s.loopEng with timeStep := true }
    let gone : Nat := match g.last with
      | none => k
      | some l => max l k
    let s := { s with loopEng := if t0 / 15625 < k then { g with tick := none, last := some gone } else g }.note .loopStatus (· ||| 1)
    let (subject, s) := s.takeFree 32
    s.event 6 subject.toNat (beBytes 4 s.loopStatus.toNat)
  else s

/-- The integrator loaded from an addend A (R603). -/
def integFrom (a : Nat) : Rat := (1 - (a : Rat) / addendNom) * 1000000000

/-- HOLDOVER left (R603): the integrator takes the addend that R485 loaded. -/
def State.leaveHoldover (s : State) : State := { s with tide := { s.tide with integ := integFrom s.tide.holdA.toNat } }

/-- An applied STEP or SET of Tide64 from `t0`: STEPPED and SET set, STATE by R482, a TIME EVENT of cause 1, and what R324 says of the
loop engine. (DEDUCED, log 42) -/
def State.stepped (s : State) (t0 : Nat) (v : Int) : State :=
  let s := ((if s.tide.state = .holdover then s.leaveHoldover else s).tideFlag 0)
  let s := { s with tide := { s.tide with isSet := true } }
  (s.tideGo (if s.tideSource = .free then .locked else .acquiring) 1 v).loopJump t0

/-- A refused STEP or SET (R479). -/
def State.stepRefused (s : State) (flag : Nat) (v : Int) : State :=
  ((s.tideFlag flag).bump .tideRefused).timeEvent 2 v

/-- STEP (R479): V in signed nanoseconds, within TIDE_JUMP_LIMIT and with SET set. -/
def State.tideStep (s : State) (v : Int) : State :=
  if v.natAbs ≤ (s.rw .tideJumpLimit).toNat ∧ s.tide.isSet then
    ({ s with tide := s.tide.shift v }).stepped s.tide64 v
  else s.stepRefused 7 v

/-- SET (R479): Tide64 := V, with SET clear. -/
def State.tideSet (s : State) (v : Nat) : State :=
  if s.tide.isSet then s.stepRefused 6 v
  else ({ s with tide := s.tide.setTo v }).stepped s.tide64 v

/-- REARM (R479, R482, R603); `stopped`: every pan PAUSED and every LOOP_n_CTRL.EN clear. -/
def State.tideRearm (s : State) (stopped : Bool) : State :=
  if stopped then
    ({ s with tide := { s.tide with isSet := false, integ := 0, addends := [], hold := none } }).tideGo .unset 6 0
  else (s.tideFlag 4).timeEvent 7 0

/-- A new addend, within the range of R475; ADDEND_REFUSED and a TIME EVENT otherwise. -/
def State.writeAddend (s : State) (v : Nat) : State :=
  if addendMin ≤ v ∧ v ≤ addendMax then s.setRw .tideAddend (BitVec.ofNat 32 v)
  else (s.tideFlag 5).timeEvent 5 v

/-- A host's TIDE_ADDEND write (R475, R478). -/
def State.hostAddend (s : State) (v : Nat) : State :=
  if s.hostServo then s.writeAddend v else (s.tideFlag 3).timeEvent 8 v

/-- V of TIDE_STEP_HI:TIDE_STEP_LO. -/
def State.tideV (s : State) : Nat := (s.rw .tideStepHi).toNat * 2 ^ 32 + (s.rw .tideStepLo).toNat

/-- V read as signed nanoseconds. -/
def State.tideVSigned (s : State) : Int := (BitVec.ofNat 64 s.tideV).toInt

/-- A host's write of TIDE_CTRL.CMD (R478, R479). -/
def State.tideCmd (s : State) (cmd : Nat) (stopped : Bool) : State :=
  match cmd with
  | 1 => if s.hostServo then s.tideStep s.tideVSigned else (s.tideFlag 3).timeEvent 8 s.tideVSigned
  | 2 => if s.hostServo then s.tideSet s.tideV else (s.tideFlag 3).timeEvent 8 s.tideV
  | 3 => s.tideRearm stopped
  | _ => s

/-! ### The servo (R481, R603) -/

/-- A rational rounded to nearest, ties to even. (DEDUCED, log 29) -/
def roundEven (q : Rat) : Int :=
  let f := q.floor
  let d := q - f
  if d < 1 / 2 then f else if 1 / 2 < d then f + 1 else if f % 2 = 0 then f else f + 1

/-- A rational limited to ±1,000,000 ppb. -/
def clampPpb (q : Rat) : Rat := if q < -1000000 then -1000000 else if 1000000 < q then 1000000 else q

/-- One measurement of the slewing servo: the integrator and the addend (R603). `o` in ns, `t` in s. (DEDUCED, log 29) -/
def servoStep (integ o t : Rat) : Rat × Int :=
  let i := clampPpb (integ + 3948 / 10000 * o * t)
  let c := clampPpb (8886 / 10000 * o + i)
  (i, roundEven (addendNom * (1 - c / 1000000000)))

/-- The addend at the end of its range that reduces |o| (R481 step 3). -/
def addendEnd (o : Rat) : Nat := if 0 < o then addendMin else addendMax

/-- The supervisor acts on an offset (R481). (DEDUCED, log 29) -/
def State.supervise (s : State) (o t : Rat) : State :=
  if !s.tide.isSet then s.tideSet (dword ((s.tide64 : Int) - o.floor))
  else
    let mag := |o|
    let slew (s : State) : State :=
      let (i, a) := servoStep s.tide.integ o t
      ({ s with tide := { s.tide with integ := i } }).writeAddend a.toNat
    match s.tide.hold with
    | some a =>
      if 20000 < mag then s.writeAddend (addendEnd o)
      else slew { s with tide := { s.tide with hold := none, integ := integFrom a.toNat } }
    | none =>
      if ((s.rw .tideJumpLimit).toNat : Rat) < mag then
        let s := s.stepRefused 7 (-o.floor)
        ({ s with tide := { s.tide with hold := some (s.rw .tideAddend) } }).writeAddend (addendEnd o)
      else if 20000 < mag then s.tideStep (-o.floor)
      else slew s

/-- The last 64 entries of a list. -/
def last64 {α : Type} (l : List α) : List α := l.drop (l.length - 64)

/-- One measurement of the reference (R477, R481, R482, R485): `o` in ns, `t` the expected interval in s. -/
def State.measure (s : State) (o t : Rat) : State :=
  let s := { s with tide := { s.tide with offset := o.floor, measured := true, lastMeas := s.nclk } }
  let thresh : Rat := (s.rw .tideLockThresh).toNat
  let s :=
    if s.tide.state = .holdover then
      let s := s.leaveHoldover.tideGo .acquiring 0 0
      { s with tide := { s.tide with good := if |o| ≤ thresh then 1 else 0 } }
    else if s.tide.state = .locked ∧ 4 * thresh < |o| then s.tideGo .acquiring 0 0
    else if s.tide.state = .acquiring then
      let good := if |o| ≤ thresh then s.tide.good + 1 else 0
      let s := { s with tide := { s.tide with good := good } }
      if 8 ≤ good then s.tideGo .locked 0 0 else s
    else s
  let s := if s.hostServo || !s.sup then s else s.supervise o t
  { s with tide := { s.tide with addends := last64 (s.tide.addends ++ [s.rw .tideAddend]) } }

/-- The mean of addends, rounded to nearest with ties to even (R485). (DEDUCED, log 29) -/
def meanAddend (l : List Word) : Nat :=
  (roundEven ((l.map BitVec.toNat).sum / (l.length : Rat))).toNat

/-- HOLDOVER entered (R482, R485). -/
def State.enterHoldover (s : State) : State :=
  let a := if s.tide.addends = [] then s.rw .tideAddend else BitVec.ofNat 32 (meanAddend s.tide.addends)
  let s := s.setRw .tideAddend a
  let s := { s with tide := { s.tide with holdA := a, hold := none } }
  (s.tideFlag 1).tideGo .holdover 0 0

/-- An interval of 2^k seconds in ns. -/
def intervalNs (k : Int) : Nat := if 0 ≤ k then 1000000000 * 2 ^ k.toNat else 1000000000 / 2 ^ (-k).toNat

/-- An interval of 2^k seconds in s. -/
def intervalS (k : Int) : Rat := if 0 ≤ k then (2 : Rat) ^ k.toNat else 1 / (2 : Rat) ^ (-k).toNat

/-! ### Time-stamps (R487) -/

/-- The Tide reading in 0.25 ns. (DEDUCED, log 29) -/
def State.tideQ (s : State) : Int := ((s.tide.sec.toNat * 1000000000 + s.tide.ns) * 4 + s.tide.frac / 2 ^ 28 : Nat)

/-- The time-stamp of a frame received now on a port, in 0.25 ns. (DEDUCED, log 29) -/
def State.rxStamp (s : State) (p : Nat) : Int :=
  s.tideQ + (Config.withinCycle p true s.nclk).toNat - Config.phyLatency (s.bport p).speed true + (BitVec.ofNat 16 (s.rwField (.tideAdj p) 31 16)).toInt

/-- The time-stamp of a frame sent now on a port, in 0.25 ns. (DEDUCED, log 29) -/
def State.txStamp (s : State) (p : Nat) : Int :=
  s.tideQ + (Config.withinCycle p false s.nclk).toNat + Config.phyLatency (s.bport p).speed false + (BitVec.ofNat 16 (s.rwField (.tideAdj p) 15 0)).toInt

/-- TIDE_p_LINK_DELAY (R488, R494). (DEDUCED, log 29) -/
def State.linkDelay (s : State) (p : Nat) : Word := s.tide.delay.getD p 0xFFFFFFFF

/-! ### Commands -/

/-- The ports of the PTP forwarding mask (R488). -/
def State.ptpPorts (s : State) : List Nat :=
  match s.sec.image with
  | some im => im.ptpMask
  | none => []

/-- Bytes of forwarded frames in a port's class buffers (R438). -/
def BPort.buffered (b : BPort) : Nat :=
  (b.waiting.map (fun f => match f.body with
    | .fwd _ | .sync .. | .ptp .. => f.len
    | _ => 0)).sum

/-- A frame passed on to a port (R438): dropped and counted where its class buffers are full. -/
def State.passOn (s : State) (q : Nat) (f : TxFrame) : State :=
  if 262144 < (s.bport q).buffered + f.len then s.bump (.bridgeDrop q) else s.enqueue q f

/-- A PTP frame passed on to every other named port (R488). (DEDUCED, log 26) -/
def State.relay (s : State) (p : Nat) (f : TxFrame) : State := (s.ptpPorts.filter (fun q => q ≠ p)).foldl (fun s q => s.passOn q f) s

/-- The time-stamp of a frame received now on a port recorded (R487). (DEDUCED, log 29) -/
def State.rxStamped (s : State) (p : Nat) : State := { s with bports := s.bports.put p { s.bport p with rxAt := some (s.rxStamp p) } }

/-- Whether a port takes part in the peer delay mechanism (R488): one that the image names, and before any image a host port, since Tide measures and
answers from the release of PORST_N (R532). (DEDUCED, log 26) -/
def State.ptpOn (s : State) (p : Nat) : Bool := if s.sec.image.isNone then 16 ≤ p else s.ptpPorts.contains p

/-- The origin timestamp, in ns, and the correction, in 2⁻¹⁶ ns, that a Sync gives (R477): of a two-step one, those of its Follow_Up, the
corrections of both added. (DEDUCED, log 26) -/
def syncTruth (m : SyncMsg) : Nat × Int :=
  match m.follow with
  | none => (m.origin, m.corr)
  | some f => (f.origin, m.corr + f.corr)

/-- The domain of TIDE_CFG. -/
def State.ptpDomain (s : State) : Byte := BitVec.ofNat 8 (s.rwField .tideCfg 23 16)

/-- A Sync on a port that the image names, and its Follow_Up, relayed to the other ones as frames of their own (R488, R489). -/
def State.relaySync (s : State) (m : SyncMsg) : State :=
  let p := m.p.val
  if !(s.ptpPorts.contains p) then s
  else
    let d := s.linkDelay p
    let s := s.relay p { cls := m.pcp.toNat, len := m.bytes, body := .sync m s.tide.residence (if d = 0xFFFFFFFF then 0 else d.toNat) }
    match m.follow with
    | none => s
    | some f => s.relay p { cls := m.pcp.toNat, len := f.bytes, body := .ptp .followUp m.domain f.body }

/-- A Sync (R477, R488, R489): relayed to the other named ports, and measured when it is the selected grandmaster's. (DEDUCED, log 29) -/
def State.sync (s : State) (m : SyncMsg) : State :=
  let p := m.p.val
  if m.domain ≠ s.ptpDomain then s.bump (.bridgeDrop p)
  else
    let d := s.linkDelay p
    let s := s.relaySync m
    if s.tideSource = .ptp ∧ m.gm = s.tide.gm ∧ d ≠ 0xFFFFFFFF then
      let o : Rat := (s.rxStamp p : Rat) / 4 - ((syncTruth m).1 + ((syncTruth m).2 : Rat) / 65536 + (d.toNat : Rat) / 4)
      s.measure o (intervalS s.tide.logInterval)
    else s

/-- SYNC_RECEIVE. -/
def execSyncReceive (m : SyncMsg) (s : State) : Host.Outcome State Fault Refusal :=
  .next (if s.inReset then s else s.sync m)

/-- HOLDOVER_TIMEOUT (R482). -/
def execHoldoverTimeout (s : State) : Host.Outcome State Fault Refusal :=
  let due := match s.tideSource with
    | .ptp => s.passed s.tide.lastMeas (s.rwField .tideCfg 15 8 * intervalNs s.tide.logInterval)
    | .pps => s.passed (s.tide.ppsAt.getD 0) 1100000000
    | .free => false
  let live : Bool := s.tide.state = .acquiring ∨ s.tide.state = .locked
  .next (if !s.inReset && due && live then s.enterHoldover else s)

/-- BEST_MASTER_CHANGE (R486). -/
def execBestMasterChange (gm : Dword) (logInterval : Int) (s : State) : Host.Outcome State Fault Refusal :=
  .next (
    if s.inReset || s.tideSource ≠ .ptp then s
    else
      let changed : Bool := s.tide.gm ≠ gm
      let s := { s with tide := { s.tide with gm := gm, logInterval := logInterval } }
      if changed then (s.tideFlag 2).timeEvent 3 0 else s)

/-- A Pdelay_Req received (R488). -/
def State.pdelayReq (s : State) (p : Nat) (domain : Byte) : State :=
  if domain ≠ s.ptpDomain then s.bump (.bridgeDrop p)
  else if s.ptpOn p then s.enqueue p (s.ownFrame p 7 128 (.pdelayResp (s.rxStamp p)))
  else s

/-- PDELAY_REQ (R488). -/
def execPdelayReq (p : Fin 18) (domain : Byte) (s : State) : Host.Outcome State Fault Refusal :=
  .next (if s.inReset then s else s.pdelayReq p.val domain)

/-- A port's next Pdelay_Req is due: none has been sent, or the last one second ago (R488). -/
def State.pdelayDue (s : State) (p : Nat) : Bool :=
  match s.tide.pdelayAt.get p with
  | none => true
  | some t => s.passed t 1000000000

/-- PDELAY_TIMER (R488): a port's own Pdelay_Req, once per second. -/
def execPdelayTimer (p : Fin 18) (s : State) : Host.Outcome State Fault Refusal :=
  .next (
    if s.inReset || !(s.ptpOn p.val) || !s.pdelayDue p.val then s
    else { s with tide := { s.tide with pdelayAt := s.tide.pdelayAt.put p.val s.nclk } }.enqueue p.val (s.ownFrame p.val 7 128 .pdelayReq))

/-- A Pdelay_Resp received (R488): `turnaround` is t3 − t2 of the responder, in 0.25 ns. -/
def State.pdelayResp (s : State) (p : Nat) (domain : Byte) (turnaround : Nat) : State :=
  if domain ≠ s.ptpDomain then s.bump (.bridgeDrop p)
  else
    match s.tide.pdelayT1.get p with
    | none => s
    | some t1 =>
      let d := (s.rxStamp p - t1 - turnaround) / 2
      let w := BitVec.ofNat 32 (min d.toNat 0xFFFFFFFE)
      { s with tide := { s.tide with delay := s.tide.delay.put p w, pdelayT1 := s.tide.pdelayT1.del p } }

/-- PDELAY_RESP (R488). -/
def execPdelayResp (p : Fin 18) (domain : Byte) (turnaround : Nat) (s : State) : Host.Outcome State Fault Refusal :=
  .next (if s.inReset then s else s.pdelayResp p.val domain turnaround)

/-- PPS_IN_EDGE (R477, R491). -/
def execPpsInEdge (s : State) : Host.Outcome State Fault Refusal :=
  let early := match s.tide.ppsAt with
    | none => false
    | some t => !s.passed t 900000000
  .next (
    if s.inReset || early then s
    else
      let s := { s with tide := { s.tide with ppsAt := some s.nclk, ppsNs := BitVec.ofNat 32 s.tide.ns,
                                               ppsSec := s.tide.sec.setWidth 32 } }
      if s.tideSource = .pps then
        s.measure (if s.tide.ns < 500000000 then (s.tide.ns : Rat) else (s.tide.ns : Rat) - 1000000000) 1
      else s)

/-- PPS_OUT_EDGE (R492): the rise in the cycle in which NS passes 0 as the counter counts, no step of Tide having moved it since, and the fall
WIDTH_MS later. -/
def execPpsOutEdge (s : State) : Host.Outcome State Fault Refusal :=
  let rise := s.rwField .tidePpsOut 31 31 = 1 && s.tide.carried
  .next (
    if s.inReset then s
    else if s.tide.ppsOut then
      if s.tide.ppsEnd ≤ s.tide64 then { s with tide := { s.tide with ppsOut := false } } else s
    else if rise then
      { s with tide := { s.tide with ppsOut := true, ppsEnd := s.tide64 + s.rwField .tidePpsOut 9 0 * 1000000 } }
    else s)

end Sys2Proof.Machine
end

