-- ==== Sys2Proof/Machine/Loop.lean ====
section
/-!
DEFINITION. The arithmetic of a loop (R326-R343): exact sums of exact products, rounded once per result to a stage's signal
exponent, the eight stages, and the outputs of a selector group.
-/

namespace Sys2Proof.Machine

/-- 2^e, exactly. -/
def pow2 (e : Int) : Rat := if 0 ≤ e then ((2 ^ e.toNat : Nat) : Rat) else 1 / ((2 ^ (-e).toNat : Nat) : Rat)

/-- The weight of a mantissa unit of stage k's signals (R328). (DEDUCED, log 48) -/
def LoopCfg.sig (w : LoopCfg) (k : Nat) : Rat := pow2 ((w.exp.getD k 0 : Int) - 149)

/-- The weight of a mantissa unit of stage k's coefficients (R328). (DEDUCED, log 48) -/
def LoopCfg.coef (w : LoopCfg) (k : Nat) : Rat := pow2 ((w.cexp.getD k 0 : Int) - 149)

/-- A bit of LOOP_n_STATUS. -/
def stBit (k : Nat) : Word := (1 : Word) <<< k

/-- A result rounded once, to nearest with ties to even, to a unit; it saturates with SAT[k], and a non-zero result that rounds
to zero sets UF[k] (R329). (DEDUCED, log 48) -/
def stageRound (k : Nat) (unit : Rat) (max : Int) (x : Rat) : Int × Word :=
  let m := roundEven (x / unit)
  if max < m then (max, stBit k)
  else if m < -max then (-max, stBit k)
  else (m, if m = 0 ∧ x ≠ 0 then stBit (16 + k) else 0)

/-- The largest mantissa of BX24, and of an extended state of stage 1. (DEDUCED, log 48) -/
def bxMax : Int := 2 ^ 23 - 1
def extMax : Int := 2 ^ 47 - 1

/-- A result of stage k at its signal exponent. -/
def LoopCfg.at' (w : LoopCfg) (k : Nat) (x : Rat) : Int × Word := stageRound k (w.sig k) bxMax x

/-- The unit of the extended states of stage 1. -/
def LoopCfg.extUnit (w : LoopCfg) : Rat := w.sig 1 / 2 ^ 24

/-- A result of stage 1 in extended precision. -/
def LoopCfg.ext (w : LoopCfg) (x : Rat) : Int × Word := stageRound 1 w.extUnit extMax x

/-- A value limited to a range, the upper end winning; SAT[k] when the limit changes it (R330). -/
def limitTo (k : Nat) (x lo hi : Rat) : Rat × Word :=
  let y := if x < lo then lo else x
  let z := if hi < y then hi else y
  (z, if z = x then 0 else stBit k)

/-- A magnitude. -/
def absRat (x : Rat) : Rat := if x < 0 then -x else x

/-- √x in units, rounded to nearest with ties to even (R334). (DEDUCED, log 48) -/
def sqrtRound (x unit : Rat) : Int :=
  let y := x / (unit * unit)
  let q : Nat := isqrt y.floor.toNat
  let mid : Rat := (q * q + q : Nat) + 1 / 4
  if mid < y ∨ (mid = y ∧ q % 2 = 1) then q + 1 else q

/-- The loop whose state a byte of the loop engine's memory belongs to: 256 bytes for each loop, and behind them the traces (R148, R354). (DEDUCED, log 57) -/
def loopAt (a : Nat) : Option Nat := if 0x80000000 ≤ a ∧ (a - 0x80000000) / 256 < 2048 then some ((a - 0x80000000) / 256) else none

/-- The update's flags grown. -/
def LoopSt.flag (l : LoopSt) (f : Word) : LoopSt := { l with flags := l.flags ||| f }

/-- A trip (R333, R341). (DEDUCED, log 43) -/
def LoopSt.trip (l : LoopSt) : LoopSt := if l.status.getLsbD 31 then l else l.flag (stBit 31)

/-- Stage 0 (R332, R333): `x` is the new sample's mantissa, if there is one. -/
def LoopSt.stage0 (w : LoopCfg) (x : Option Int) (l : LoopSt) : LoopSt :=
  let u := w.sig 0
  let stale := if x.isSome then 0 else min (l.stale + 1) w.timeout
  let times := w.timeout ≤ stale && l.stale < w.timeout
  let (x1, f1) := limitTo 0 (x.getD l.xi * u) (w.lo * u) (w.hi * u)
  let (d, f2) := limitTo 0 (x1 - l.xi * u) (-(w.rate * u)) (w.rate * u)
  let (xi, f3) := w.at' 0 (l.xi * u + d)
  let (xc, f4) := w.at' 0 (l.xc * u + w.alpha * w.coef 0 * ((xi - l.xc) * u))
  let l := { l with xi := xi, xc := xc, stale := stale }
  let l := l.flag (f1 ||| f2 ||| f3 ||| f4 ||| (if f1 = 0 then 0 else stBit 25))
  if times then (l.flag (stBit 26)).trip else l

/-- Stage 1 (R334). Each named result is rounded once to extended precision; the products in its limits are exact. -/
def LoopSt.stage1 (w : LoopCfg) (l : LoopSt) : LoopSt :=
  let u := w.extUnit
  let s := w.sig 1
  let r : Rat := l.target * s
  let h := w.h * w.coef 1
  let (d, f1) := w.ext (r - l.p * u)
  let root := sqrtRound (2 * (l.amax * s) * absRat (d * u)) u
  let (sq, f2) := w.ext (root * u)
  let (mag, f3) := if l.vmax * s < sq * u then (l.vmax * s, stBit 1) else (sq * u, 0)
  let vc : Rat := if 0 < d then mag else if d < 0 then -mag else 0
  let (ac0, f4) := limitTo 1 ((vc - l.v * u) * (w.invH * w.coef 1)) (-(l.amax * s)) (l.amax * s)
  let (ac, f5) := w.ext ac0
  let jh := l.jmax * s * h
  let (da, f6) := limitTo 1 ((ac - l.a) * u) (-jh) jh
  let (a, f7) := w.ext (l.a * u + da)
  let (v0, f8) := limitTo 1 (l.v * u + a * u * h) (-(l.vmax * s)) (l.vmax * s)
  let (v, f9) := w.ext v0
  let (p, f10) := w.ext (l.p * u + v * u * h)
  let l := l.flag (f1 ||| f2 ||| f3 ||| f4 ||| f5 ||| f6 ||| f7 ||| f8 ||| f9 ||| f10)
  if absRat (r - p * u) ≤ w.snap * s ∧ absRat (v * u) ≤ l.amax * s * h ∧ absRat (a * u) ≤ jh then
    { l with p := l.target * 2 ^ 24, v := 0, a := 0 }
  else { l with p := p, v := v, a := a }

/-- Stage 2 and the following error (R335, R341): the error, which joins the history in stage 3. -/
def LoopSt.stage2 (w : LoopCfg) (l : LoopSt) : Int × LoopSt :=
  let (e, f) := w.at' 2 (l.p * w.extUnit - l.xc * w.sig 0)
  let l := l.flag f
  if w.feLimit < (e.natAbs : Int) then
    let l := { l with feCnt := min (l.feCnt + 1) w.feTime }
    (e, if l.feCnt = w.feTime then l.trip else l)
  else (e, { l with feCnt := 0 })

/-- A sum of products of coefficients and values. -/
def sumProd (cs : List Mant) (xs : List Int) : Int := ((cs.zip xs).map (fun x => x.1 * x.2)).sum

/-- Stage 3 (R336). -/
def LoopSt.stage3 (w : LoopCfg) (e : Int) (l : LoopSt) : LoopSt :=
  let nb := if w.comp3 then 4 else 3
  let c := w.coef 3
  let (uc, f) := w.at' 3 (sumProd (w.b.take nb) (e :: l.e) * c * w.sig 2 - sumProd (w.a.take (nb - 1)) l.u * c * w.sig 3)
  ({ l with uc := uc, e := (e :: l.e).take 3 }).flag f

/-- Stage 4 (R337). -/
def LoopSt.stage4 (w : LoopCfg) (l : LoopSt) : LoopSt :=
  if w.notch then
    let c := w.coef 4
    let (un, f) := w.at' 4 (sumProd w.nn (l.uc :: l.nIn) * c * w.sig 3 - sumProd w.nd l.nOut * c * w.sig 4)
    ({ l with un := un, nIn := (l.uc :: l.nIn).take 2, nOut := (un :: l.nOut).take 2 }).flag f
  else
    let (un, f) := w.at' 4 (l.uc * w.sig 3)
    ({ l with un := un, nIn := [0, 0], nOut := [0, 0] }).flag f

/-- Stage 5 (R338). -/
def LoopSt.stage5 (w : LoopCfg) (l : LoopSt) : LoopSt :=
  let f := w.kv * w.coef 5 * (l.v * w.extUnit) + w.ka * w.coef 5 * (l.a * w.extUnit) + l.ff * w.sig 5
  let (uf, fl) := w.at' 5 (l.un * w.sig 4 + f)
  ({ l with f := f, uf := uf }).flag fl

/-- Stages 0 to 5 in order. (DEDUCED, log 43) -/
def LoopSt.stages (w : LoopCfg) (x : Option Int) (l : LoopSt) : LoopSt :=
  let l := (l.stage0 w x).stage1 w
  let (e, l) := l.stage2 w
  ((l.stage3 w e).stage4 w).stage5 w

/-- A hand-off or host write in its field (R348, R350). -/
def LoopSt.take (l : LoopSt) (h : Hoff) : LoopSt :=
  match h.field with
  | .target => { l with target := h.mant }
  | .ffExt => { l with ff := h.mant }
  | .vmax => { l with vmax := h.mant }
  | .amax => { l with amax := h.mant }
  | .jmax => { l with jmax := h.mant }
  | .outLo => { l with outLo := h.mant }
  | .outHi => { l with outHi := h.mant }

/-- p := x_c, v := 0, a := 0 (R343, R346). -/
def LoopSt.rest (w : LoopCfg) (l : LoopSt) : LoopSt :=
  let (p, f) := w.ext (l.xc * w.sig 0)
  ({ l with p := p, v := 0, a := 0 }).flag f

/-- The states at a start (R346) from the first latched sample. (DEDUCED, log 42) -/
def LoopSt.begin (w : LoopCfg) (x : Int) (l : LoopSt) : LoopSt :=
  { ({ l with xi := x, xc := x }).rest w with e := [0, 0, 0], u := [w.initOut, w.initOut, w.initOut] }

/-- The tracking value out − f of a loop (R340), of an output at the leader's exponent. -/
def LoopSt.track (w lead : LoopCfg) (out : Int) (l : LoopSt) : Int × Word := w.at' 3 (out * lead.sig 7 - l.f)

/-- The restart of a tripped loop (R343): FE_TRIP clears. -/
def LoopSt.restart (w lead : LoopCfg) (out : Int) (l : LoopSt) : LoopSt :=
  let (t, f) := l.track w lead out
  let l := (l.rest w).flag f
  { l with feCnt := 0, stale := 0, u := [t, t, t], clr := none, status := putBit l.status 31 false }

/-- The index of the lowest of the first stage-6 inputs, the lowest index on equal values (R339). -/
def lowest : List Rat → Nat
  | [] => 0
  | [_] => 0
  | x :: r => if (r.getD (lowest r) x) < x then lowest r + 1 else 0

/-- Stages 6 and 7 (R339, R342): the leader with its output, the strongest action in force, the winner, and whether the clamp
acted. (DEDUCED, log 43) -/
def groupOut (w : LoopCfg) (lead : LoopSt) (ufs : List Rat) (acts : List Nat) : LoopSt × Nat × Nat × Bool :=
  let win := lowest ufs
  let (s, f6) := w.at' 6 (ufs.getD win 0)
  let (o, fc) := limitTo 7 (s * w.sig 6) (lead.outLo * w.sig 7) (lead.outHi * w.sig 7)
  let (m, f7) := w.at' 7 o
  let act := acts.foldl max 0
  let out := if act = 2 then w.safeOut else if act = 1 then lead.out else m
  (({ lead with s := s, out := out, winner := win }).flag (f6 ||| fc ||| f7), act, win, fc ≠ 0)

end Sys2Proof.Machine
end

