-- ==== Sys2Proof/Machine/Engine.lean ====
section
/-!
DEFINITION. The loop engine (R319-R358, R394): ticks, latches, lockstep pairs, set-point frames and traces.
-/

namespace Sys2Proof.Machine

/-- A pair changed. -/
def State.onPair (s : State) (p : Nat) (f : PairSt → PairSt) : State := { s with pairs := s.pairs.put p (f (s.pairs.getD p {})) }

/-- A trace changed. -/
def State.onTrace (s : State) (n : Nat) (f : TraceSt → TraceSt) : State :=
  { s with traces := s.traces.put n (f (s.traces.getD n {})) }

/-- A trace. -/
def State.trace (s : State) (n : Nat) : TraceSt := s.traces.getD n {}

/-- A LOOP EVENT of a loop (R450). -/
def State.loopEvent (s : State) (n : Nat) : State := s.event 6 n (beBytes 4 (s.loop n).status.toNat)

/-- A LOOP EVENT of a pair. -/
def State.pairEvent (s : State) (p : Nat) : State := s.event 6 (4096 + p) (beBytes 4 s.loopStatus.toNat)

/-- The loops of a group, leader first (R327). -/
def State.group (s : State) (leader : Nat) : List Nat :=
  match s.sec.image with
  | none => []
  | some im =>
    match SMap.get im.loops leader with
    | none => []
    | some w =>
      leader :: (List.range (w.group - 1)).filterMap (fun i =>
        (im.loops.find? (fun x => x.2.pipe = w.pipe ∧ x.2.slot = w.slot + i + 1 ∧ x.2.mult = w.mult ∧ x.2.phase = w.phase
          ∧ x.2.group = 0)).map Prod.fst)

/-- The leader of a loop's group. -/
def State.leaderOf (s : State) (n : Nat) : Option Nat :=
  match s.sec.image with
  | none => none
  | some im => (im.loops.find? (fun x => x.2.group ≠ 0 ∧ (s.group x.1).contains n)).map Prod.fst

/-! ### Ticks and latches -/

/-- LOOP_TICK (R319, R324): the tick whose start Tide64 has reached runs, unless it has run or a step of Tide has passed over it. (DEDUCED, log 42) -/
def execLoopTick (s : State) : Host.Outcome State Fault Refusal :=
  let k := s.tide64 / 15625
  let runs : Bool := match s.loopEng.last with
    | none => true
    | some l => l < k
  .next (
    if s.loopRuns && runs then { s with loopEng := { s.loopEng with tick := some k, last := some k, latched := [] } } else s)

/-- The newest value of a field delivered by T_s with a capture time at or before it (R322, R371). -/
def FieldSt.at' (f : FieldSt) (ts : Nat) : Option (Dword × Nat) :=
  (((f.hist.filter (fun h => h.2.2 ≤ ts)).take 2).find? (fun h => h.2.1 ≤ ts)).map (fun h => (h.1, h.2.1))

/-- The hand-offs and host writes that take effect at T_s (R348, R350): those made at least 256 ns before. (DEDUCED, log 42) -/
def dueHoffs (ts : Nat) (l : List Hoff) : List Hoff := l.filter (fun h => h.at' + 256 ≤ ts)

/-- Whether a clear of a trip acts at T_s (R343). -/
def LoopSt.clears (l : LoopSt) (ts : Nat) : Bool := match l.clr with
  | none => false
  | some t => t + 256 ≤ ts

/-- An update among those due: they issue in order of T_s, behind the ones that run again (R323). (DEDUCED, log 42) -/
def addDue (u : Update) : List Update → List Update
  | [] => [u]
  | v :: r => if v.tries = 0 && u.ts < v.ts then u :: v :: r else v :: addDue u r

/-- A loop's latch at T_s (R322, R346): the update that becomes due on its pair. -/
def State.latch (s : State) (leader n ts : Nat) (starts : Bool) : State :=
  match s.loopCfg n with
  | none => s
  | some w =>
    let l := s.loop n
    let v := match w.source with
      | none => none
      | some f => (s.ingest.fields.getD f {}).at' ts
    let isNew : Bool := match v, l.lastCap with
      | none, _ => false
      | some _, none => true
      | some x, some c => c < x.2
    let re := l.clears ts
    let u : Update := { loop := n, leader := leader, ts := ts, at' := s.nclk, x := v.map Prod.fst, isNew := isNew,
                        hoffs := dueHoffs ts l.hoff, start := starts, restart := re }
    let s := s.onLoop n (fun l => { l with
      hoff := l.hoff.filter (fun h => ts < h.at' + 256), lastCap := if isNew then v.map Prod.snd else l.lastCap, on := true,
      clr := if re then none else l.clr })
    s.onPair w.pipe (fun p => { p with due := addDue u p.due })

/-- What takes effect at T_s in a loop that runs no update there (R343, R349). (DEDUCED, log 42; DEDUCED, log 45) -/
def State.forgo (s : State) (u : Update) : State :=
  match s.loopCfg u.loop, s.loopCfg u.leader with
  | some w, some wl =>
    let l := u.hoffs.foldl LoopSt.take (s.loop u.loop)
    s.onLoop u.loop (fun _ => if u.restart then l.restart w wl (s.loop u.leader).out else l)
  | _, _ => s

/-- A loop at its sample instant while it runs no updates (R343, R349). -/
def State.latchIdle (s : State) (leader n ts : Nat) : State :=
  let l := s.loop n
  (s.onLoop n (fun l => { l with hoff := l.hoff.filter (fun h => ts < h.at' + 256) })).forgo
    { loop := n, leader := leader, ts := ts, at' := s.nclk, hoffs := dueHoffs ts l.hoff, restart := l.clears ts }

/-- The FP32 word of a leader's output (R394). -/
def outFp32 (w : LoopCfg) (m : Int) : Word :=
  BitVec.ofNat 32 (Machine.encode .fp32 0 false .rte (Val.ofInt m ((w.exp.getD 7 0 : Int) - 149))).1

/-- An entry of a set-point frame handed to egress (R344, R394). -/
def State.egress (s : State) (leader ts state : Nat) (m : Int) : State :=
  match s.loopCfg leader with
  | none => s
  | some w =>
    let e : Setpoint := { ts := ts, apply := ts + w.mult * 15625, ch := w.actCh,
                          state := state + (if (s.pair w.pipe).simplex then 4 else 0), value := outFp32 w m }
    { s with loopEng := { s.loopEng with egress := s.loopEng.egress ++ [e] } }

/-- A group's output in a period of its halted pair (R352). (DEDUCED, log 44; DEDUCED, log 45) -/
def State.haltedOut (s : State) (leader ts : Nat) : State :=
  match s.loopCfg leader with
  | none => s
  | some w =>
    let m := if w.feAct = 2 then w.safeOut else (s.loop leader).out
    ((s.group leader).foldl (fun s n => s.onLoop n (fun l => { l with out := m })) s).egress leader ts 3 m

/-- A group's latch at its sample instant (R322, R327, R346). (DEDUCED, log 42) -/
def State.latchGroup (s : State) (leader ts : Nat) : State :=
  match s.loopCfg leader with
  | none => s
  | some w =>
    let l := s.loop leader
    let enabled : Bool := match l.en with
      | none => false
      | some t => l.on || t + 256 ≤ ts
    let ns := s.group leader
    if enabled && !(s.pair w.pipe).halted then ns.foldl (fun s n => s.latch leader n ts (!l.on)) s
    else
      let s := ns.foldl (fun s n => s.latchIdle leader n ts) s
      if enabled then s.haltedOut leader ts else s

/-- Leaders due in a slot of a tick (R320). (DEDUCED, log 42) -/
def State.dueLeaders (s : State) (k slot : Nat) : List Nat :=
  match s.sec.image with
  | none => []
  | some im => (im.loops.filter (fun x => x.2.slot = slot ∧ x.2.group ≠ 0 ∧ k % x.2.mult = x.2.phase)).map Prod.fst

/-- SAMPLE_LATCH (R319, R322): the loops due in a slot of the tick latch their inputs when Tide64 reaches T_s. (DEDUCED, log 42) -/
def execSampleLatch (slot : Fin 153) (s : State) : Host.Outcome State Fault Refusal :=
  .next (
    match s.loopEng.tick with
    | none => s
    | some k =>
      let ts := k * 15625 + 102 * slot.val
      if !s.loopRuns || s.loopEng.latched.has slot.val || s.tide64 < ts then s
      else
        let s := { s with loopEng := { s.loopEng with latched := s.loopEng.latched.ins slot.val } }
        (s.dueLeaders k slot.val).foldl (fun s n => s.latchGroup n ts) s)

/-- UPDATE_ISSUE (R323): the first update due issues at most every 56 cycles, and 16 cycles after its latch. -/
def execUpdateIssue (p : Fin 4) (s : State) : Host.Outcome State Fault Refusal :=
  .next (
    let x := s.pair p.val
    let free : Bool := match x.issuedAt with
      | none => true
      | some t => t + 56 ≤ s.nclk
    match x.due with
    | [] => s
    | u :: r =>
      if s.loopRuns && free && u.at' + 16 ≤ s.nclk && x.kat.isNone && !x.halted then
        s.onPair p.val (fun x => { x with due := r, flight := x.flight ++ [(u, s.nclk)], issuedAt := some s.nclk })
      else s)

/-! ### Updates -/

/-- A latched value at EXP[0] (R331): NV for a NaN, which is no sample. -/
def LoopCfg.sample (w : LoopCfg) (x : Dword) : Option Int × Word :=
  let (m, f) := encodeBx (w.exp.getD 0 0) (Machine.decode .fp64 0 x.toNat)
  if f.nv then (none, stBit 24) else (some m, (if f.ovf then stBit 0 else 0) ||| (if f.unf then stBit 16 else 0))

/-- The latched value of an update at EXP[0], and the flags of its conversion (R331): a loop without a source latches 0. (DEDUCED, log 42) -/
def LoopCfg.input (w : LoopCfg) (u : Update) : Option Int × Word :=
  match w.source, u.x with
  | none, _ => (some 0, 0)
  | _, none => (none, 0)
  | _, some x => w.sample x

/-- One update of a loop through stages 0 to 5 (R331-R338, R343, R346); a start without a sample takes a free value. (DEDUCED, log 42) -/
def State.runUpdate (s : State) (w wl : LoopCfg) (u : Update) : LoopSt × State :=
  let l := u.hoffs.foldl LoopSt.take { s.loop u.loop with flags := 0 }
  let (m, f) := w.input u
  let l := { l with lat := m.getD l.lat }
  let (free, s') := s.takeFree 24
  let needs := u.start && m.isNone
  let l := if u.start then l.begin w (m.getD free.toInt) else l
  let l := if u.restart then l.restart w wl (s.loop u.leader).out else l
  let fresh : Bool := w.source.isNone || u.isNew
  let l := (l.flag f).stages w (if fresh then m else none)
  (l, if needs then s' else s)

/-- The outcome of a loop's update in its status: new flags, and an EVENT when it trips (R341). -/
def State.postFlags (s : State) (n : Nat) (was : Bool) : State :=
  let s := s.loopSet n (s.loop n).flags
  if !was && (s.loop n).status.getLsbD 31 then s.loopEvent n else s

/-- An update that reads a poisoned state word (R354): its states start again, which clears its poisoned words, and its group repeats its
output. The mark stays until the group finishes; a restart due at T_s still clears the trip (R343). (DEDUCED, log 44) -/
def State.poisonUpdate (s : State) (w wl : LoopCfg) (u : Update) : State :=
  let l := u.hoffs.foldl LoopSt.take { s.loop u.loop with flags := 0 }
  let (m, f) := w.input u
  let (free, s') := s.takeFree 24
  let s := if m.isNone then s' else s
  let l := if u.restart then l.restart w wl (s.loop u.leader).out else l
  let l := (l.begin w (m.getD free.toInt)).flag f
  let s := s.onLoop u.loop (fun _ => { l with ran := some u.ts, f := 0 })
  let s := (s.loopSet u.loop (l.flags ||| stBit 30)).onLoop u.leader (fun l => { l with hold := true })
  let s := { s with poison := s.poison.filter (fun k => loopAt (8 * k) ≠ some u.loop) }
  (s.report .chip .ucu 0x10 0xFF 0 0).loopEvent u.loop

/-! ### Traces -/

/-- Records a page of a trace holds at a record length. -/
def recLen (nodes : Nat) : Nat := 8 + 4 * ((List.range 16).filter (fun j => nodes.testBit j)).length

/-- A trace's nodes. -/
def State.traceNodes (s : State) (n : Nat) : Nat := s.rwField (.traceNodes n) 15 0

/-- A BX24 node word (R355). -/
def bxNode (E : Nat) (m : Int) : Nat := E * 2 ^ 24 + unsgn 24 m

/-- A node's word (R355). Nodes 2 and 10 take their fields' exponents; 3 to 5 are rounded to 24 bits. -/
def nodeWord (w wl : LoopCfg) (l lead : LoopSt) (j : Nat) : Nat :=
  let E (w : LoopCfg) (k : Nat) : Nat := w.exp.getD k 0
  let x24 (m : Int) : Int := (w.at' 1 (m * w.extUnit)).1
  match j with
  | 0 => bxNode (E w 0) l.lat
  | 1 => bxNode (E w 0) l.xc
  | 2 => bxNode (E w 1) l.target
  | 3 => bxNode (E w 1) (x24 l.p)
  | 4 => bxNode (E w 1) (x24 l.v)
  | 5 => bxNode (E w 1) (x24 l.a)
  | 6 => bxNode (E w 2) (l.e.getD 0 0)
  | 7 => bxNode (E w 3) l.uc
  | 8 => bxNode (E w 4) l.un
  | 9 => bxNode (E w 5) l.uf
  | 10 => bxNode (E w 5) l.ff
  | 11 => bxNode (E wl 6) lead.s
  | 12 => bxNode (E wl 7) lead.out
  | 13 => bxNode (E w 3) (l.u.getD 0 0)
  | 14 => l.flags.toNat
  | _ => l.feCnt

/-- One record (R355); its byte order is that of device memories (R10). (DEDUCED, log 46) -/
def traceRec (nodes ts : Nat) (w wl : LoopCfg) (l lead : LoopSt) : List Byte :=
  leBytes 8 ts ++ ((List.range 16).filter (fun j => nodes.testBit j)).flatMap (fun j => leBytes 4 (nodeWord w wl l lead j))

/-- The page being filled closed: bytes no record fills are free values. (DEDUCED, log 46) -/
def State.closePage (s : State) (n loop : Nat) : State :=
  let t := s.trace n
  if t.recs = 0 then s
  else
    let rest := 4096 - t.page.length
    let (pad, s) := s.takeFree (8 * rest)
    s.onTrace n (fun t => { t with page := [], recs := 0, pages := t.pages ++ [(t.page ++ leBytes rest pad.toNat, t.recs, loop)] })

/-- A record written to a trace's pages, or lost when its 24 pages are full (R356, R357). (DEDUCED, log 46) -/
def State.putRec (s : State) (n loop : Nat) (r : List Byte) : State :=
  let s := if 4096 < (s.trace n).page.length + r.length then s.closePage n loop else s
  if 24 ≤ (s.trace n).pages.length then s.bump .traceLost
  else
    let s := s.onTrace n (fun t => { t with page := t.page ++ r, recs := t.recs + 1 })
    if 4096 < (s.trace n).page.length + r.length then s.closePage n loop else s

/-- Records a trace may keep before its trigger: PRE, at most what its 96 KiB hold. -/
def State.preMax (s : State) (n : Nat) : Nat := min (s.rwField (.traceCtrl n) 15 0) (24 * (4096 / recLen (s.traceNodes n)))

/-- A trace triggered (R356): the records kept before it are written. -/
def State.trigger (s : State) (n : Nat) : State :=
  let t := s.trace n
  if t.trig then s
  else
    let loop := s.rwField (.traceCtrl n) 26 16
    t.pre.foldl (fun s r => s.putRec n loop r) (s.onTrace n (fun t => { t with trig := true, pre := [] }))

/-- The record of an update in one trace (R355, R356). `tripped` says that the loop tripped in this update. (DEDUCED, log 46) -/
def State.traceUpdate (s : State) (n loop ts : Nat) (w wl : LoopCfg) (l lead : LoopSt) (tripped : Bool) : State :=
  let c := Reg.traceCtrl n
  if s.rwField c 31 31 = 1 ∧ s.rwField c 26 16 = loop then
    let mode := s.rwField c 30 29
    let s := if mode = 1 && tripped then s.trigger n else s
    let r := traceRec (s.traceNodes n) ts w wl l lead
    if mode = 0 || (s.trace n).trig then s.putRec n loop r
    else s.onTrace n (fun t => { t with pre := (t.pre ++ [r]).drop (t.pre.length + 1 - s.preMax n) })
  else s

/-! ### The end of an update -/

/-- Stages 6 and 7 once every loop of a group has run its update of T_s (R339, R340, R342, R354): the output, the histories, the flags these stages
add, egress and traces. (DEDUCED, log 43) -/
def State.finishGroup (s : State) (leader ts : Nat) : State :=
  match s.loopCfg leader with
  | none => s
  | some wl =>
    let ns := s.group leader
    let cfg (n : Nat) : LoopCfg := (s.loopCfg n).getD {}
    let lead := s.loop leader
    let trips := ns.filter (fun n => (s.loop n).flags.getLsbD 31)
    let bad := ns.filter (fun n => (s.loop n).poison)
    let acts := (ns.filter (fun n => (s.loop n).status.getLsbD 31)).map (fun n => (cfg n).feAct)
    let (lead', act, win, clamped) :=
      if lead.hold then ({ lead with hold := false }, 1, ns.length, true)
      else groupOut wl lead (ns.map (fun n => (s.loop n).uf * (cfg n).sig 5)) acts
    let s := (s.onLoop leader (fun _ => lead')).loopSet leader (lead'.flags &&& ~~~ lead.flags)
    let s := ((List.range ns.length).zip ns).foldl (fun s (i, n) =>
      let l := s.loop n
      if l.poison then s.onLoop n (fun l => { l with poison := false, out := lead'.out })
      else
        let own : Bool := !(cfg n).track || (i = win && !clamped && act = 0)
        let (h, f) := if own then (l.uc, 0) else l.track (cfg n) wl lead'.out
        let l := { l with u := (h :: l.u).take 3, out := lead'.out }.flag f
        (s.onLoop n (fun _ => l)).loopSet n f) s
    let s := if lead.en.isSome then s.egress leader ts act lead'.out else s
    (ns.filter (fun n => !bad.contains n)).foldl (fun s n => (List.range 16).foldl (fun s t =>
      s.traceUpdate t n ts (cfg n) wl (s.loop n) (s.loop leader) (trips.contains n)) s) s

/-- A passed update (R351): its states are written, and the last of its group finishes the group. (DEDUCED, log 43) -/
def State.passUpdate (s : State) (u : Update) : State :=
  match s.loopCfg u.loop, s.loopCfg u.leader with
  | some w, some wl =>
    let s := if (s.loop u.loop).poison then s.poisonUpdate w wl u
      else
        let was := (s.loop u.loop).status.getLsbD 31 && !u.restart
        let (l, s) := s.runUpdate w wl u
        (s.onLoop u.loop (fun _ => { l with ran := some u.ts })).postFlags u.loop was
    if (s.group u.leader).all (fun n => (s.loop n).ran = some u.ts) then s.finishGroup u.leader u.ts else s
  | _, _ => s

/-- A pair halted (R352) while it ran `us`: the periods of its unfinished updates go out as halted ones. (DEDUCED, log 45) -/
def State.haltPair (s : State) (p : Nat) (us : List Update) : State :=
  let x := s.pair p
  let lost := us ++ x.flight.map Prod.fst ++ x.due
  let left := lost.map (fun v => (v.ts, v.leader))
  let s := lost.foldl State.forgo s
  let s := s.onPair p (fun x => { x with halted := true, kat := none, due := [], flight := [] })
  let s := ((s.setReady 5 false).report .chip .fatal 0x0F (p * 16 + 15) 0 0).pairEvent p
  left.dedup.foldl (fun s v => if (s.loop v.2).en.isSome then s.haltedOut v.2 v.1 else s) s

/-- UPDATE_COMPARE (R351, R352): the pair compares its oldest update, 448 cycles after its issue. (DEDUCED, log 45) -/
def execUpdateCompare (p : Fin 4) (agree : Bool) (s : State) : Host.Outcome State Fault Refusal :=
  .next (
    let x := s.pair p.val
    match x.flight with
    | [] => s
    | (u, t) :: r =>
      if !s.loopRuns || s.nclk < t + 448 then s
      else
        let s := s.onPair p.val (fun x => { x with flight := r })
        if agree || x.simplex then s.passUpdate u
        else
          let s := s.bump .loopMismatch
          let s := if (s.loopCfg u.loop).isSome then s.loopSet u.loop (stBit 29) else s
          let s := s.report .chip .ucm 0x0E (p.val * 16 + 15) 0 0
          let u' := { u with tries := u.tries + 1 }
          match u.tries with
          | 0 => s.onPair p.val (fun x => { x with due := u' :: x.due })
          | 1 => s.onPair p.val (fun x => { x with kat := some (match x.kat with
              | none => ([u'], s.nclk)
              | some (us, t) => (us ++ [u'], t)) })
          | _ => s.haltPair p.val [u])

/-- LOCKSTEP_KAT_DONE (R352): the known-answer test of eight issue slots ends. (DEDUCED, log 45) -/
def execLockstepKatDone (p : Fin 4) (pass0 pass1 : Bool) (s : State) : Host.Outcome State Fault Refusal :=
  .next (
    match (s.pair p.val).kat with
    | none => s
    | some (us, t) =>
      if !s.loopRuns || s.nclk < t + 448 then s
      else if !pass0 && !pass1 then s.haltPair p.val us
      else
        let one := !(pass0 && pass1)
        let s := s.onPair p.val (fun x => { x with kat := none, due := us ++ x.due, simplex := x.simplex || one })
        let s := if one then (s.setReady 5 false).report .chip .ucm 0x0F (p.val * 16 + 15) 0 0 else s
        s.pairEvent p.val)

/-! ### Egress -/

/-- Whether a pair still has an update of a sample instant to finish. -/
def PairSt.busy (x : PairSt) (ts : Nat) : Bool :=
  x.due.any (fun u => u.ts = ts) || x.flight.any (fun u => u.1.ts = ts) || (match x.kat with
    | none => false
    | some us => us.1.any (fun u => u.ts = ts))

/-- The destination of an actuator channel (R393). -/
def State.destOf (s : State) (ch : Nat) : Option Nat :=
  match s.sec.image with
  | none => none
  | some im => SMap.get im.actDest ch

/-- The bytes of a set-point frame (R394). (DESIGN CHOICE, log 47) -/
def setpointBytes (apply : Nat) (es : List Setpoint) : List Byte :=
  let body := beBytes 4 0x44535031 ++ [1, 0] ++ beBytes 2 es.length ++ beBytes 8 apply
    ++ es.flatMap (fun e => beBytes 2 e.ch ++ beBytes 2 e.state ++ beBytes 4 e.value.toNat)
  body ++ beBytes 4 (crc32c body).toNat

/-- Entries split over consecutive frames of at most 256 (R394); `n` bounds their number. -/
def split256 : Nat → List Setpoint → List (List Setpoint)
  | 0, _ => []
  | n + 1, es => if es.isEmpty then [] else es.take 256 :: split256 n (es.drop 256)

/-- The set-point frames of one destination and apply time put into their class (R394, R436, R438). (DESIGN CHOICE, log 47) -/
def State.sendSetpoints (s : State) (d apply : Nat) (es : List Setpoint) : State :=
  match s.sec.image.bind (fun im => SMap.get im.dests d) with
  | none => s
  | some c =>
    let es := es.insertionSort (fun a b => a.ch ≤ b.ch)
    (split256 es.length es).foldl (fun s part =>
      let pl := setpointBytes apply part
      s.enqueue c.port { cls := c.pcp.toNat, len := pl.length + 8 + (if c.addr.v6 then 40 else 20) + 42, body := .setpoint d apply pl,
                         tag := some (c.pcp, c.vid),
                         udp := udpHeader c.addr.v6 (s.srcIp c.port c.addr.v6 c.addr.ip) c.addr.ip Config.setpointPort c.addr.udp pl }) s

/-- SETPOINT_FRAME_SEND (R394): the oldest sample instant that all four pairs have finished. (DESIGN CHOICE, log 47) -/
def execSetpointFrameSend (s : State) : Host.Outcome State Fault Refusal :=
  .next (
    if !s.loopRuns then s
    else
      let ready := s.loopEng.egress.filter (fun e => ([0, 1, 2, 3] : List Nat).all (fun p => !(s.pair p).busy e.ts))
      match (ready.map Setpoint.ts).min? with
      | none => s
      | some ts =>
        let mine := ready.filter (fun e => e.ts = ts)
        let s := { s with loopEng := { s.loopEng with egress := s.loopEng.egress.filter (fun e => e.ts ≠ ts) } }
        let keys := (mine.filterMap (fun e => (s.destOf e.ch).map (fun d => (d, e.apply)))).dedup
        keys.foldl (fun s k => s.sendSetpoints k.1 k.2 (mine.filter (fun e => s.destOf e.ch = some k.1 && e.apply = k.2))) s)

/-! ### Spill -/

/-- TRACE_PAGE_SPILL (R356, R358): a full page of a trace into the HyperRAM ring; a place where no memory is present takes none (R124). (DEDUCED, log 46) -/
def execTracePageSpill (n : Fin 16) (s : State) : Host.Outcome State Fault Refusal :=
  .next (
    match s.sec.image, (s.trace n.val).pages with
    | some im, (bs, recs, loop) :: r =>
      let slot := s.loopEng.ringNext % im.tracePages
      match s.pageAt (im.traceBase + slot * 4096) with
      | none => s
      | some (c, page) =>
        if !s.loopRuns || s.power.held || im.tracePages ≤ s.loopEng.ring.length then s
        else
          let s := s.writePage c page bs false
          let s := s.onTrace n.val (fun t => { t with pages := r })
          let page : RingPage := { trace := n.val, loop := loop, index := slot, recs := recs }
          { s with loopEng := { s.loopEng with ring := s.loopEng.ring ++ [page], ringNext := (slot + 1) % im.tracePages } }
    | _, _ => s)

/-- TRACE_PAGE_SEND (R357, R604): the ring's oldest page, if it is this trace's, to the client that last wrote its CTRL; a page read back
poisoned is dropped and its records are counted. (DEDUCED, log 46) -/
def execTracePageSend (n : Fin 16) (s : State) : Host.Outcome State Fault Refusal :=
  .next (
    match s.sec.image, s.loopEng.ring, (s.trace n.val).owner with
    | some im, x :: r, some (port, client) =>
      match (s.hport port).clientAddr.get client.val with
      | none => s
      | some dest =>
      if !s.loopRuns || x.trace ≠ n.val || !s.portReady port then s
      else
        let (pg, s) := s.fetchPage (im.traceBase + x.index * 4096)
        let s := { s with loopEng := { s.loopEng with ring := r } }
        if pg.2 then (List.range x.recs).foldl (fun s _ => s.bump .traceLost) s
        else
          let pay := eventPay 7 n.val s.now (beBytes 2 x.loop ++ [0, 0] ++ beBytes 4 x.index ++ pg.1)
          (s.sendMsg port { type := 0x50, reliable := true, payload := pay, dest := dest }).2
    | _, _, _ => s)

/-! ### Register effects -/

/-- EN written (R346): on a leader, setting it starts the loop at its first T_s at least 256 ns later. -/
def State.setEn (s : State) (n : Nat) (on : Bool) : State :=
  match s.loopCfg n with
  | none => s
  | some w =>
    if w.group = 0 then s
    else if !on then s.onLoop n (fun l => { l with en := none, on := false })
    else s.onLoop n (fun l => if l.en.isSome then l else { l with en := some s.tide64 })

/-- FE_CLR written (R343): an untripped loop has no trip to clear, and a clear that is still to act stays as it is. (DEDUCED, log 43) -/
def State.feClr (s : State) (n : Nat) : State :=
  if (s.loopCfg n).isSome && (s.loop n).status.getLsbD 31 then s.onLoop n (fun l => if l.clr.isSome then l else { l with clr := some s.tide64 }) else s

/-- LOOP_n_HOST_TARGET or LOOP_n_HOST_FF written (R350). -/
def State.hostLoop (s : State) (n : Nat) (ff : Bool) (mant : BitVec 24) : State :=
  match s.loopCfg n with
  | none => s
  | some w =>
    if w.spHost then
      let h : Hoff := { at' := s.tide64, cyc := s.nclk, field := if ff then .ffExt else .target, mant := mant.toInt }
      (s.setRw (if ff then .loopHostFf n else .loopHostTarget n) (mant.setWidth 32)).onLoop n (fun l => { l with hoff := addHoff h l.hoff })
    else s.loopSet n (stBit 27)

/-- LOOP_TRACE_TRIG written (R356): the named traces of MODE 2 are triggered. -/
def State.traceTrig (s : State) (mask : BitVec 16) : State :=
  (List.range 16).foldl (fun s n =>
    let c := Reg.traceCtrl n
    if mask.getLsbD n && s.rwField c 31 31 = 1 && s.rwField c 30 29 = 2 then s.trigger n else s) s

/-- The pages of a trace given up: every record left unspilled counts as lost (R357). (DEDUCED, log 46) -/
def State.dropPages (s : State) (n : Nat) : State :=
  let k := ((s.trace n).pages.map (fun x => x.2.1)).sum
  (List.range k).foldl (fun s _ => s.bump .traceLost) (s.onTrace n (fun t => { t with pages := [] }))

/-- LOOP_TRACE_n_CTRL written (R356, R357): the page in progress is closed, and the trace starts anew; what the stopped spill left unspilled is
lost. (DEDUCED, log 46) -/
def State.traceCtrl (s : State) (port : Option (Port × Fin 8)) (n : Nat) (val : Word) : State :=
  let s := s.closePage n (s.rwField (.traceCtrl n) 26 16)
  let s := if s.power.held then s.dropPages n else s
  (s.setRw (.traceCtrl n) val).onTrace n (fun t => { t with owner := port.or t.owner, trig := false, pre := [] })

/-- A loop as its wiring starts it (R326). -/
def LoopCfg.initial (w : LoopCfg) : LoopSt :=
  { target := w.target, vmax := w.vmax, amax := w.amax, jmax := w.jmax, outLo := w.outLo, outHi := w.outHi }

end Sys2Proof.Machine
end

