-- ==== Sys2Proof/Machine/Ageing.lean ====
section
/-!
DEFINITION. The wear model (R521): ΔV_REQ = A × t_eff^n fitted and extrapolated in exact arithmetic, with n in thousandths, so that no
logarithm is needed: A is the 1,000th root of ΔV^1000 ÷ t^n.
-/

namespace Sys2Proof.Machine

/-- A positive quotient as m × 2^e, with 80 bits of it and a bit that stands for what is cut off. -/
def quotVal (neg : Bool) (num den : Nat) : Val :=
  let k := 80 + Nat.log2 den
  let q := num * 2 ^ k / den
  .fin neg (2 * q + (if q * den = num * 2 ^ k then 0 else 1)) (-(k : Int) - 1)

/-- A value as a FP64 encoding, rounded to nearest, ties to even. -/
def fp64Of (v : Val) : Dword := BitVec.ofNat 64 (encode .fp64 0 false .rte v).1

/-- A rational number as a FP64 encoding. -/
def ratFp64 (x : Rat) : Dword := fp64Of (quotVal (x < 0) x.num.natAbs x.den)

/-- The number that a FP64 encoding holds. -/
def fp64Rat (d : Dword) : Rat := ratOf (decode .fp64 0 d.toNat)

/-- The largest of the numbers below 2^k above r, bit by bit, that a test admits; the test admits no number above one it refuses. -/
def largest (ok : Nat → Bool) : Nat → Nat → Nat
  | 0, r => r
  | k + 1, r => if ok (r + 2 ^ k) then largest ok k (r + 2 ^ k) else largest ok k r

/-- A of a fit through the present point (R521): ΔV ÷ t^(n ÷ 1000), as a FP64 encoding; t is positive. (DESIGN CHOICE, log 12) -/
def wearFit (n : Nat) (dv : Int) (t : Rat) : Dword :=
  let y : Rat := (dv.natAbs : Rat) ^ 1000 / t ^ n * (2 ^ 120000 : Nat)
  fp64Of (quotVal (dv < 0) (largest (fun k => (k : Rat) ^ 1000 ≤ y) 200 0) (2 ^ 120))

/-- Months until a t_eff at which ΔV_REQ has grown by a ratio, at a mean weighting (R521): 730 h a month, at most 4,095. (DESIGN CHOICE, log 12) -/
def wearMonths (n : Nat) (t weight ratio : Rat) : Nat :=
  largest (fun m => (1 + 730 * weight * m / t) ^ n ≤ ratio ^ 1000) 12 0

/-- The Arrhenius factor of a domain relative to 85 °C (R521): 1 where every sensor reads 85 °C. (DESIGN CHOICE, log 12) -/
def arrhenius (d : Nat) (temps : List Int) : Rat := if temps.all (fun t => t = 85) then 1 else Config.arrhenius d temps

/-- One domain's wear after a sample (R521): its hours weighted, A fitted, and the months until V_REQ with the guard reaches 780 mV or, given in
`sramMonths`, the margin falls to 20 mV. Before a weighted hour has passed there is no fit, and both are as `a` and `months` give. (DESIGN CHOICE, log 12) -/
def WearDom.sampled (w : WearDom) (exp d guard v m nclk : Nat) (temps : List Int) (a : Dword) (months sramMonths : Nat) : WearDom :=
  let f := arrhenius d temps
  let hours : Rat := (nclk - w.at' : Nat) / 1980000000000
  let t := fp64Rat w.teff + f * hours
  let past := w.hist.filter (fun e => (nclk - e.1) * 20 ≤ 2592000000000000 * 11)
  let weight : Rat := match past with
    | (at', t0) :: _ => if at' < nclk then (t - fp64Rat t0) / ((nclk - at' : Nat) / 1980000000000) else f
    | [] => f
  let base := if w.base = 0 then v else w.base
  let fitted := 0 < t
  let vMonths := if v ≤ base then 4095 else if fitted then wearMonths exp t weight ((780 - guard - base : Nat) / (v - base : Nat)) else months
  { w with vReq := v, sram := m, teff := ratFp64 t, fitA := if fitted then wearFit exp (v - base) t else a, base := base, at' := nclk,
           hist := past ++ [(nclk, ratFp64 t)],
           remain := if 780 ≤ v + guard ∨ m ≤ 20 then 0 else min vMonths sramMonths }

end Sys2Proof.Machine
end

