-- ==== Sys2Proof/Machine/Ledger.lean ====
section
/-!
DEFINITION. The ledger flash and its journal (R551-R558): NOR programming and erasing, records, the scan at start, the head,
and the two-phase writing of records.
-/

namespace Sys2Proof.Machine

/-- A sector of 4 KiB is blank: no byte of it is programmed. (DEDUCED, log 30) -/
def flashBlank (f : Bytes) (k : Nat) : Bool := f.all (fun c => c.1 / 4096 ≠ k)

/-- A byte of the flash; erased bytes read 0xFF. -/
def flashByte (f : Bytes) (a : Nat) : Byte := f.read 0xFF a

/-- Bytes of the flash. -/
def flashBytes (f : Bytes) (a n : Nat) : List Byte := Bytes.readN 0xFF f a n

/-- A little-endian number in the flash. -/
def flashNat (f : Bytes) (a n : Nat) : Nat := leNat (flashBytes f a n)

/-- Programming only clears bits of a NOR device. -/
def flashProg : Bytes → Nat → List Byte → Bytes
  | f, _, [] => f
  | f, a, b :: r => flashProg (f.write 0xFF a (flashByte f a &&& b)) (a + 1) r

/-- A sector erased. -/
def flashErase (f : Bytes) (k : Nat) : Bytes := f.filter (fun c => c.1 / 4096 ≠ k)

/-- The ledger header of sector 0 (R551). -/
def ledgerHeader : List Byte :=
  let b := leBytes 4 0x444C4752 ++ leBytes 2 1 ++ leBytes 2 0x0C32
  b ++ leBytes 4 (crc32c b).toNat

/-- A record of the journal as it stands in the flash (R553). -/
structure JRec where
  addr : Nat
  next : Nat
  type : Nat
  seq : Nat
  valid : Bool
  deriving DecidableEq, Repr

/-- Bytes a record takes, up to the next 16-byte boundary (R553). -/
def recSpan (len : Nat) : Nat := (20 + len + 15) / 16 * 16

/-- The record at an address; none where it is blank. A length that does not fit ends the sector. -/
def recAt (f : Bytes) (a : Nat) : Option JRec :=
  if (flashBytes f a 16).all (fun b => b = 0xFF) then none
  else
    let len := flashNat f (a + 6) 2
    let fits := len ≤ 4076 ∧ a % 4096 + recSpan len ≤ 4096
    let crcOk := flashNat f (a + 16 + len) 4 = (crc32c (flashBytes f (a + 4) (12 + len))).toNat
    some { addr := a, next := if fits then a + recSpan len else (a / 4096 + 1) * 4096,
           type := (flashByte f (a + 4)).toNat, seq := flashNat f (a + 8) 4,
           valid := fits && flashNat f a 4 = 0 && crcOk }

/-- The records of a sector from an address on; `n` bounds their number. -/
def recsFrom (f : Bytes) (k : Nat) : Nat → Nat → List JRec
  | 0, _ => []
  | n + 1, a =>
    if a / 4096 ≠ k then []
    else match recAt f a with
      | none => []
      | some r => r :: recsFrom f k n r.next

/-- The records of a sector. -/
def sectorRecs (f : Bytes) (k : Nat) : List JRec := recsFrom f k 256 (k * 4096)

/-- Sectors of the journal that hold a programmed byte, once each (the flash is in address order). -/
def usedSectors : Bytes → List Nat
  | [] => []
  | (a, _) :: r =>
    let l := usedSectors r
    let k := a / 4096
    if k < 3 ∨ 2048 ≤ k ∨ l.head? = some k then l else k :: l

/-- Every record of the journal. -/
def journal (f : Bytes) : List JRec := (usedSectors f).flatMap (sectorRecs f)

/-- The record of the highest SEQ. -/
def topSeq : List JRec → Option JRec
  | [] => none
  | r :: l => match topSeq l with
    | none => some r
    | some t => if t.seq ≤ r.seq then some r else some t

/-- The valid record with the highest SEQ of each TYPE, as TYPE → address (R555). -/
def newestOf (js : List JRec) : SMap Nat :=
  ([1, 2, 3, 4, 5, 6] : List Nat).foldl (fun m t =>
    match topSeq (js.filter (fun r => r.valid && r.type = t)) with
    | some r => m.put t r.addr
    | none => m) []

/-- Where the head stands once it has reached an address: after the journal's last sector comes its first (R555). -/
def headAt (a : Nat) : Nat := if 2048 ≤ a / 4096 then 3 * 4096 else a

/-- The journal read at start (R554, R555): newest records, head and last SEQ; other non-blank records are counted torn. (DEDUCED, log 30) -/
def Ledger.scan (l : Ledger) : Ledger × Nat :=
  let js := journal l.flash
  let torn := (js.filter (fun r => !r.valid)).length
  let numbered := js.filter (fun r => r.valid || r.seq ≠ 0xFFFFFFFF)
  match topSeq numbered with
  | none => ({ l with newest := [], head := 3 * 4096, lastSeq := 0 }, torn)
  | some t =>
    let after := js.filter (fun r => r.addr / 4096 = t.addr / 4096 && t.addr ≤ r.addr)
    let head := after.foldl (fun a r => max a r.next) t.next
    ({ l with newest := newestOf js, head := headAt head, lastSeq := t.seq,
              seqEnd := t.seq = 0xFFFFFFFF }, torn)

/-- The payload of the newest valid record of a TYPE. -/
def Ledger.payload (l : Ledger) (t : Nat) : Option (List Byte) :=
  (l.newest.get t).map (fun a => flashBytes l.flash (a + 16) (flashNat l.flash (a + 6) 2))

/-- SEQ of the newest valid record of a TYPE. -/
def Ledger.seqOf (l : Ledger) (t : Nat) : Option Nat := (l.newest.get t).map (fun a => flashNat l.flash (a + 8) 4)

/-- A record's bytes with a STATE (R553). -/
def recBytes (state : Nat) (r : LedgerRec) (seq hours : Nat) : List Byte :=
  let body := [r.type, 1] ++ leBytes 2 r.payload.length ++ leBytes 4 seq ++ leBytes 4 hours ++ r.payload
  leBytes 4 state ++ body ++ leBytes 4 (crc32c body).toNat

/-- The sector that follows in the journal (R555). -/
def nextSector (k : Nat) : Nat := if k + 1 ≥ 2048 then 3 else k + 1

/-- The newest valid records that lie in a sector, to be rewritten before its erase (R555). -/
def Ledger.keepOf (l : Ledger) (k : Nat) : List LedgerRec :=
  (l.newest.filter (fun e => e.2 / 4096 = k)).filterMap (fun e =>
    (l.payload e.1).map (fun p => LedgerRec.mk (BitVec.ofNat 8 e.1) p))

/-- The first phase of the record at the front (R554): STATE BEGUN, then the rest. (DEDUCED, log 30) -/
def Ledger.begin (l : Ledger) (r : LedgerRec) (rest : List LedgerRec) (a : Nat) : Ledger :=
  let seq := l.lastSeq + 1
  { l with flash := flashProg l.flash a (recBytes 0xFFFF0000 r seq l.hours), job := some (r, a, seq), waiting := rest,
           lastSeq := seq, head := headAt (a + recSpan r.payload.length) }

/-- The next thing the ledger does when nothing is in progress and writes are not held (R554-R556): the record at the front
begins where it fits; before a sector that is not blank is written, its newest records are rewritten and it is erased. (DEDUCED, log 30) -/
def Ledger.pump (held : Bool) (l : Ledger) : Ledger :=
  if held || l.state ≠ .ready || l.job.isSome || l.erase.isSome then l
  else match l.waiting with
    | [] => l
    | r :: rest =>
      if l.lastSeq = 0xFFFFFFFF then { l with seqEnd := true }
      else
        let k := l.head / 4096
        let fits (p : LedgerRec) : Bool := l.head % 4096 + recSpan p.payload.length ≤ 4096 && l.head / 4096 < 2048
        if fits r && (l.head % 4096 ≠ 0 || flashBlank l.flash k) then l.begin r rest l.head
        else
          let n := if l.head % 4096 = 0 && k < 2048 then k else nextSector (if l.head % 4096 = 0 then k - 1 else k)
          if flashBlank l.flash n then l.begin r rest (n * 4096)
          else
            match l.keepOf n with
            | p :: ps =>
              if fits p && l.head % 4096 ≠ 0 then l.begin p (ps ++ r :: rest) l.head
              else { l with waiting := (p :: ps).filter (fun q => !(r :: rest).contains q) ++ r :: rest, erase := some (.sector n) }
            | [] => { l with erase := some (.sector n) }

/-- The ledger's next action taken (R572: none while writes are held). -/
def State.ledgerPump (s : State) : State := { s with ledger := s.ledger.pump s.power.held }

/-- A record to be written (R553): nothing is kept of one while the ledger is not READY. (DEDUCED, log 30) -/
def State.record (s : State) (type : Byte) (payload : List Byte) : State :=
  if s.ledger.state = .ready then
    ({ s with ledger := { s.ledger with waiting := s.ledger.waiting ++ [LedgerRec.mk type payload] } }).ledgerPump
  else s

/-- Writes stopped by the supply monitors (R558): a record in progress stays BEGUN and is written again later, but a shutdown
BIST record is lost; a FORMAT stays to be done. (DEDUCED, log 30) -/
def Ledger.stop (l : Ledger) : Ledger :=
  let back := match l.job with
    | some (r, _, _) => if r.type = 5 then [] else [r]
    | none => []
  { l with job := none, erase := if l.erase = some .all then l.erase else none, waiting := back ++ l.waiting.filter (fun r => r.type ≠ 5) }

/-- The ledger device formatted: erased, with a header (R551, R552). -/
def Ledger.formatted (l : Ledger) : Ledger :=
  { l with flash := flashProg [] 0 ledgerHeader, state := .ready, newest := [], head := 3 * 4096, lastSeq := 0,
           seqEnd := false, job := none, erase := none }

/-- Counts kept by HOURS records (R556), from the newest one. -/
def Ledger.loadHours (l : Ledger) : Ledger :=
  match l.payload 3 with
  | none => l
  | some p => { l with hours := leNat (p.take 4), starts := leNat ((p.drop 4).take 4),
                       startsBare := leNat ((p.drop 8).take 4), shutTests := leNat ((p.drop 12).take 4) }

/-- Whether the device that answers, by its JESD216 table, serves as a ledger (R551): 8 MiB or more with 4 KiB erase. (DESIGN CHOICE, log 6) -/
def Ledger.usable (l : Ledger) : Bool := l.present && 0x800000 ≤ l.size && l.erase4k

/-- Whether sector 0 is a valid header (R551, R552): its 12 bytes, and 0xFF in all others. -/
def headerOk (f : Bytes) : Bool := flashBytes f 0 12 = ledgerHeader && f.all (fun c => 4096 ≤ c.1 || c.1 < 12)

/-- A count of the ledger that saturates at 32 bits (R38). (DEDUCED, log 30) -/
def satInc (n : Nat) : Nat := min (n + 1) (2 ^ 32 - 1)

/-- The ledger found at PORST_N release (R551, R552, R555): its STATE, and whether it was blank and has been formatted. (DEDUCED, log 30) -/
def Ledger.start (l : Ledger) : Ledger × Nat × Bool :=
  if !l.usable then ({ l with state := .absent }, 0, false)
  else if flashBlank l.flash 0 then (l.formatted, 0, true)
  else if headerOk l.flash then
    let (l, torn) := ({ l with state := .ready }).scan
    (l.loadHours, torn, false)
  else ({ l with state := .foreign }, 0, false)

/-- The payload of an HOURS record (R556). -/
def Ledger.hoursPay (l : Ledger) : List Byte :=
  leBytes 4 l.hours ++ leBytes 4 l.starts ++ leBytes 4 l.startsBare ++ leBytes 4 l.shutTests

/-- The payload of a WEAR record (R524, R556). -/
def State.wearPay (s : State) : List Byte :=
  ([0, 1, 2, 3, 4] : List Nat).flatMap (fun d =>
    let w := s.wear.getD d {}
    leBytes 2 w.vReq ++ leBytes 2 w.sram ++ leBytes 8 w.teff.toNat ++ leBytes 8 w.fitA.toNat)

/-- WEAR_RECORD (R524): after every 24 h of operation, and at shutdown. -/
def execWearRecord (shutdown : Bool) (s : State) : Host.Outcome State Fault Refusal :=
  .next (
    if s.inReset || !s.sup then s
    else if shutdown && s.bist.shutBusy then s.record 2 s.wearPay
    else if !shutdown && s.passed s.ledger.wearAt 86400000000000 then
      ({ s with ledger := { s.ledger with wearAt := s.nclk } }).record 2 s.wearPay
    else s)

/-- HOURS_RECORD (R556): every hour of operation, and at shutdown. -/
def execHoursRecord (shutdown : Bool) (s : State) : Host.Outcome State Fault Refusal :=
  .next (
    if s.inReset || !s.sup then s
    else if shutdown && s.bist.shutBusy then s.record 3 s.ledger.hoursPay
    else if !shutdown && s.passed s.ledger.hourAt 3600000000000 then
      let s := { s with ledger := { s.ledger with hourAt := s.nclk, hours := satInc s.ledger.hours } }
      s.record 3 s.ledger.hoursPay
    else s)

/-- The second phase (R554): COMMITTED once the record reads back correct; one that does not is written again at the head. The
last SEQ there is ends the journal (R556). (DEDUCED, log 30) -/
def Ledger.commit (readBackOk : Bool) (l : Ledger) : Ledger :=
  match l.job with
  | none => l
  | some (r, a, _) =>
    if readBackOk then
      { l with flash := flashProg l.flash a [0, 0, 0, 0], newest := l.newest.put r.type.toNat a, job := none,
               seqEnd := l.seqEnd || l.lastSeq = 0xFFFFFFFF }
    else { l with job := none, waiting := r :: l.waiting }

/-- The shutdown self-test finished (R526): DONE, RECORDED when its record committed, and an EVENT. The spec names no KIND for
that EVENT: it is a free value. -/
def State.finishShutdown (s : State) (recorded : Bool) : State :=
  let s := { s with bist := { s.bist with shutBusy := false, shutEnded := false, shutDone := true,
                                            shutPass := s.bist.fail = 0, shutRecorded := recorded } }
  let (kind, s) := s.takeFree 16
  s.event kind.toNat 0 []

/-- LEDGER_RECORD_COMMIT's effect (R554). The commit of the shutdown's BIST record ends the shutdown self-test (R526). -/
def State.recordCommit (s : State) (readBackOk : Bool) : State :=
  if s.inReset || s.power.held then s
  else
    let bistRec : Bool := match s.ledger.job with
      | some (r, _, _) => r.type = 5 && readBackOk
      | none => false
    let s := { s with ledger := s.ledger.commit readBackOk }
    let s := if bistRec && s.bist.shutEnded then s.finishShutdown true else s
    s.ledgerPump

/-- LEDGER_ERASE_DONE's effect (R552, R555, R572): an erase completes, but none while writes are held; after FORMAT's the header is written. -/
def State.eraseDone (s : State) : State :=
  if s.inReset || s.power.held then s
  else match s.ledger.erase with
    | none => s
    | some .all => ({ s with ledger := s.ledger.formatted }).ledgerPump
    | some (.sector k) =>
      ({ s with ledger := { s.ledger with flash := flashErase s.ledger.flash k, erase := none, head := k * 4096 } }).ledgerPump

end Sys2Proof.Machine
end

