-- ==== Sys2Proof/Machine/Codes.lean ====
section
/-!
DEFINITION. SHA3-256, SHAKE128 and SHAKE256 (FIPS 202; R534, R537, R539), and the codes of the PUF (R534): two BCH(255,131) blocks that correct 18
errors, each bit of them repeated 7 times. (PRESUMED, log 69)
-/

namespace Sys2Proof.Machine

/-! ### Keccak -/

/-- Rotations of the 25 lanes, lane x + 5y at place x + 5y. -/
def keccakRot : List Nat := [0, 1, 62, 28, 27, 36, 44, 6, 55, 20, 3, 10, 43, 25, 39, 41, 45, 15, 21, 8, 18, 2, 61, 56, 14]

/-- The round constants. -/
def keccakRc : List Nat :=
  [0x0000000000000001, 0x0000000000008082, 0x800000000000808A, 0x8000000080008000, 0x000000000000808B, 0x0000000080000001,
   0x8000000080008081, 0x8000000000008009, 0x000000000000008A, 0x0000000000000088, 0x0000000080008009, 0x000000008000000A,
   0x000000008000808B, 0x800000000000008B, 0x8000000000008089, 0x8000000000008003, 0x8000000000008002, 0x8000000000000080,
   0x000000000000800A, 0x800000008000000A, 0x8000000080008081, 0x8000000000008080, 0x0000000080000001, 0x8000000080008008]

/-- One round of Keccak-f[1600]. -/
def keccakRound (a : List Dword) (rc : Nat) : List Dword :=
  let at' (l : List Dword) (i : Nat) : Dword := l.getD i 0
  let c := (List.range 5).map (fun x => at' a x ^^^ at' a (x + 5) ^^^ at' a (x + 10) ^^^ at' a (x + 15) ^^^ at' a (x + 20))
  let d := (List.range 5).map (fun x => at' c ((x + 4) % 5) ^^^ (at' c ((x + 1) % 5)).rotateLeft 1)
  let r := (List.range 25).map (fun i => (at' a i ^^^ at' d (i % 5)).rotateLeft (keccakRot.getD i 0))
  let b := (List.range 25).map (fun i => at' r ((i % 5 + 3 * (i / 5)) % 5 + 5 * (i % 5)))
  (List.range 25).map (fun i =>
    let v := at' b i ^^^ (~~~(at' b (i / 5 * 5 + (i + 1) % 5)) &&& at' b (i / 5 * 5 + (i + 2) % 5))
    if i = 0 then v ^^^ BitVec.ofNat 64 rc else v)

/-- The permutation. (PRESUMED, log 69) -/
def keccak (a : List Dword) : List Dword := keccakRc.foldl keccakRound a

/-- A block of bytes taken in. -/
def keccakAbsorb (a : List Dword) (block : List Byte) : List Dword :=
  let w := (chunk 8 25 block).map (fun b => BitVec.ofNat 64 (leNat b))
  keccak ((List.range 25).map (fun i => a.getD i 0 ^^^ w.getD i 0))

/-- Bytes given out, a block at a time. -/
def keccakSqueeze (rate : Nat) : Nat → List Dword → List Byte
  | 0, _ => []
  | n + 1, a => (a.flatMap (fun w => leBytes 8 w.toNat)).take rate ++ keccakSqueeze rate n (keccak a)

/-- The sponge: rate in bytes, the suffix byte that ends a message, the message, and the number of bytes given out. (PRESUMED, log 69) -/
def sponge (rate : Nat) (suffix : Byte) (m : List Byte) (n : Nat) : List Byte :=
  let p := m ++ [suffix]
  let p := p ++ List.replicate ((rate - p.length % rate) % rate) 0
  let p := p.take (p.length - 1) ++ [p.getLastD 0 ||| 0x80]
  let a := (chunk rate (p.length / rate) p).foldl keccakAbsorb (List.replicate 25 0)
  (keccakSqueeze rate ((n + rate - 1) / rate) a).take n

/-- SHA3-256, its first byte most significant. (PRESUMED, log 69) -/
@[irreducible] def sha3 (m : List Byte) : BitVec 256 := BitVec.ofNat 256 (beNat (sponge 136 0x06 m 32))

/-- SHAKE128 and SHAKE256. (PRESUMED, log 69) -/
def shake128 (m : List Byte) (n : Nat) : List Byte := sponge 168 0x1F m n
def shake256 (m : List Byte) (n : Nat) : List Byte := sponge 136 0x1F m n

/-! ### BCH(255,131) -/

/-- A product in GF(2^8) with the polynomial x^8 + x^4 + x^3 + x^2 + 1. -/
def gfMul (a b : Nat) : Nat :=
  (List.range 8).foldr (fun i acc =>
    let acc := 2 * acc
    let acc := if 256 ≤ acc then acc ^^^ 0x11D else acc
    if b.testBit i then acc ^^^ a else acc) 0

/-- A power in GF(2^8). -/
def gfPow (a : Nat) : Nat → Nat
  | 0 => 1
  | n + 1 => gfMul a (gfPow a n)

/-- A polynomial, lowest coefficient first, at a point. -/
def gfEval (p : List Nat) (x : Nat) : Nat := p.foldr (fun c acc => c ^^^ gfMul x acc) 0

/-- A sum of polynomials. -/
def gfAdd : List Nat → List Nat → List Nat
  | [], q => q
  | p, [] => p
  | a :: p, b :: q => (a ^^^ b) :: gfAdd p q

/-- The exponents of the generator's roots: 1 to 36 and their doubles modulo 255. -/
def bchRoots : List Nat := (List.range 255).filter (fun j => (List.range 8).any (fun k => let i := j * 2 ^ k % 255; 1 ≤ i && i ≤ 36))

/-- The generator polynomial of degree 124, as a number. -/
def bchGen : Nat :=
  let g := bchRoots.foldl (fun g j => gfAdd (0 :: g) (g.map (gfMul (gfPow 2 j)))) [1]
  g.foldr (fun c acc => 2 * acc + c) 0

/-- A polynomial over GF(2) modulo the generator, by the bits from `n` − 1 + 124 down. -/
def bchRem : Nat → Nat → Nat
  | 0, v => v
  | n + 1, v => bchRem n (if v.testBit (n + 124) then v ^^^ (bchGen <<< n) else v)

/-- A systematic codeword: the message in its upper 131 bits. (PRESUMED, log 69) -/
def bchEncode (m : BitVec 131) : Nat := let v := m.toNat <<< 124; v ^^^ bchRem 131 v

/-- The state of the search for the error locator (Berlekamp and Massey). -/
structure Locator where
  c : List Nat := [1]
  b : List Nat := [1]
  l : Nat := 0
  gap : Nat := 1
  last : Nat := 1
  deriving DecidableEq, Repr

/-- One syndrome taken in. -/
def Locator.next (syn : List Nat) (x : Locator) (n : Nat) : Locator :=
  let d := (List.range (x.l + 1)).foldl (fun acc i => if i ≤ n then acc ^^^ gfMul (x.c.getD i 0) (syn.getD (n - i) 0) else acc) 0
  if d = 0 then { x with gap := x.gap + 1 }
  else
    let k := gfMul d (gfPow x.last 254)
    let c := gfAdd x.c (List.replicate x.gap 0 ++ x.b.map (gfMul k))
    if 2 * x.l ≤ n then { c := c, b := x.c, l := n + 1 - x.l, gap := 1, last := d } else { x with c := c, gap := x.gap + 1 }

/-- The message of a received word, with up to 18 errors corrected; none beyond. (PRESUMED, log 69) -/
def bchDecode (v : Nat) : Option (BitVec 131) :=
  let bits := (List.range 255).filter v.testBit
  let syn := (List.range 36).map (fun j => bits.foldl (fun acc i => acc ^^^ gfPow 2 (i * (j + 1) % 255)) 0)
  let x := (List.range 36).foldl (Locator.next syn) {}
  let wrong := (List.range 255).filter (fun i => gfEval x.c (gfPow 2 ((255 - i) % 255)) = 0)
  if x.l ≤ 18 && wrong.length = x.l then some (BitVec.ofNat 131 ((wrong.foldl (fun w i => w ^^^ 2 ^ i) v) >>> 124)) else none

/-! ### The codeword of the PUF -/

/-- r as a codeword of 3,570 bits (R534, R536): its lower 131 bits the first block; each bit of the two blocks 7 times in a row. -/
@[irreducible] def pufEncode (r : BitVec 262) : BitVec 3570 :=
  let c := bchEncode (r.setWidth 131) + bchEncode ((r >>> 131).setWidth 131) * 2 ^ 255
  BitVec.ofNat 3570 ((List.range 510).foldl (fun acc i => if c.testBit i then acc + 127 * 2 ^ (7 * i) else acc) 0)

/-- r of a noisy codeword (R534): by majority of the 7, then by the two blocks; what more than 18 errors in a block give is free. -/
@[irreducible] def pufDecode (w : BitVec 3570) : BitVec 262 :=
  let major (i : Nat) : Bool := 4 ≤ ((List.range 7).filter (fun k => w.getLsbD (7 * i + k))).length
  let block (k : Nat) : Nat := (List.range 255).foldl (fun acc i => if major (255 * k + i) then acc + 2 ^ i else acc) 0
  let msg (k : Nat) : BitVec 131 := (bchDecode (block k)).getD (Config.bchBeyond (block k))
  (msg 0).setWidth 262 ||| (msg 1).setWidth 262 <<< 131

end Sys2Proof.Machine
end

