-- ==== Sys2Proof/Machine/MlDsa.lean ====
section
/-!
DEFINITION. ML-DSA-44 (FIPS 204; R534, R535, R539, R549): q = 8380417, d = 13, k = l = 4, η = 2, τ = 39, β = 78, ω = 80, γ₁ = 2^17,
γ₂ = 95232. A polynomial is the list of its 256 coefficients modulo q. (PRESUMED, log 69)
-/

namespace Sys2Proof.Machine

/-- The modulus. -/
def dsaQ : Nat := 8380417

/-- A polynomial, lowest coefficient first. -/
abbrev Poly := List Nat

/-! ### Polynomials -/

/-- A number as the one congruent to it modulo m that lies above −m/2 and not above m/2. -/
def centered (m x : Nat) : Int := let r := x % m; if m < 2 * r then (r : Int) - m else r

/-- A number modulo q. -/
def dsaOf (x : Int) : Nat := (x % (dsaQ : Int)).toNat

/-- The bits of a byte in reverse. -/
def bitRev8 (i : Nat) : Nat := (List.range 8).foldl (fun acc k => if i.testBit k then acc + 2 ^ (7 - k) else acc) 0

/-- The points at which the transform takes a polynomial's values. -/
def nttPoints : List Nat := (List.range 256).map (fun i => 1753 ^ (2 * bitRev8 i + 1) % dsaQ)

/-- The number-theoretic transform. -/
def ntt (p : Poly) : Poly := nttPoints.map (fun x => p.foldr (fun c acc => (c + x * acc) % dsaQ) 0)

/-- The inverse transform's coefficients, from values that each step multiplies by the inverse of their point. -/
def nttBackGo (inv : List Nat) : Nat → List Nat → Poly
  | 0, _ => []
  | n + 1, v => (8347681 * v.sum) % dsaQ :: nttBackGo inv n ((v.zip inv).map (fun x => x.1 * x.2 % dsaQ))

/-- The inverse transform: 8347681 is the inverse of 256, and the inverse of ζ^e is ζ^(512 − e). -/
def nttBack (v : Poly) : Poly :=
  nttBackGo ((List.range 256).map (fun i => 1753 ^ (512 - (2 * bitRev8 i + 1)) % dsaQ)) 256 v

/-- Sums, differences and products of coefficients. -/
def polyAdd (a b : Poly) : Poly := (a.zip b).map (fun x => (x.1 + x.2) % dsaQ)
def polySub (a b : Poly) : Poly := (a.zip b).map (fun x => (x.1 + dsaQ - x.2 % dsaQ) % dsaQ)
def polyMul (a b : Poly) : Poly := (a.zip b).map (fun x => x.1 * x.2 % dsaQ)

/-- The zero polynomial. -/
def polyZero : Poly := List.replicate 256 0

/-- A matrix and a vector, both transformed, multiplied; the product is not transformed. -/
def matMul (a : List (List Poly)) (v : List Poly) : List Poly :=
  a.map (fun row => nttBack ((row.zip v).foldl (fun acc x => polyAdd acc (polyMul x.1 x.2)) polyZero))

/-- A vector times a transformed polynomial. -/
def vecMul (c : Poly) (v : List Poly) : List Poly := v.map (fun p => nttBack (polyMul c (ntt p)))

/-- Sums and differences of vectors. -/
def vecAdd (a b : List Poly) : List Poly := (a.zip b).map (fun x => polyAdd x.1 x.2)
def vecSub (a b : List Poly) : List Poly := (a.zip b).map (fun x => polySub x.1 x.2)

/-- The largest magnitude of a vector's coefficients. -/
def vecNorm (v : List Poly) : Nat := v.foldl (fun m p => p.foldl (fun m c => max m (centered dsaQ c).natAbs) m) 0

/-! ### Packing -/

/-- Numbers of so many bits each, packed into bytes. -/
def packBits (bits : Nat) (l : List Nat) : List Byte := leBytes (l.length * bits / 8) (l.foldr (fun c acc => c + 2 ^ bits * acc) 0)

/-- `n` numbers of so many bits each, unpacked from bytes. -/
def unpackBits (bits n : Nat) (b : List Byte) : List Nat := let x := leNat b; (List.range n).map (fun i => x / 2 ^ (bits * i) % 2 ^ bits)

/-- A polynomial whose coefficients lie at most `top` above zero, packed as their distances from it. -/
def packFrom (bits top : Nat) (p : Poly) : List Byte := packBits bits (p.map (fun c => ((top : Int) - centered dsaQ c).toNat))

/-- Its inverse. -/
def unpackFrom (bits top : Nat) (b : List Byte) : Poly := (unpackBits bits 256 b).map (fun z => dsaOf ((top : Int) - z))

/-- The vector whose polynomials stand one after another, `len` bytes each. -/
def unpackVec (len : Nat) (f : List Byte → Poly) (b : List Byte) : List Poly := (List.range 4).map (fun i => f ((b.drop (len * i)).take len))

/-- A hint of at most 80 ones as 84 bytes. -/
def packHint (h : List Poly) : List Byte :=
  let ones := h.map (fun p => (List.range 256).filter (fun j => p.getD j 0 ≠ 0))
  let at' := ones.flatten
  let ends := (List.range 4).map (fun i => ((ones.take (i + 1)).map List.length).sum)
  ((at' ++ List.replicate (80 - at'.length) 0) ++ ends).map (BitVec.ofNat 8)

/-- A hint of 84 bytes; none where they are not of the one form that `packHint` gives. -/
def unpackHint (b : List Byte) : Option (List Poly) :=
  let n := b.map BitVec.toNat
  let ends := n.drop 80
  let start (i : Nat) : Nat := if i = 0 then 0 else ends.getD (i - 1) 0
  let part (i : Nat) : List Nat := ((n.take 80).drop (start i)).take (ends.getD i 0 - start i)
  let rising (l : List Nat) : Bool := (l.zip l.tail).all (fun x => x.1 < x.2)
  if (List.range 4).all (fun i => start i ≤ ends.getD i 0 && ends.getD i 0 ≤ 80 && rising (part i))
      && ((n.take 80).drop (ends.getD 3 0)).all (fun x => x = 0) then
    some ((List.range 4).map (fun i => (List.range 256).map (fun j => if (part i).contains j then 1 else 0)))
  else none

/-! ### Sampling -/

/-- Triples of bytes below q, in order. -/
def rejectTriples : Nat → List Byte → List Nat
  | n + 1, a :: b :: c :: r =>
    let z := a.toNat + b.toNat * 256 + c.toNat % 128 * 65536
    if z < dsaQ then z :: rejectTriples n r else rejectTriples n r
  | _, _ => []

/-- The matrix A, transformed, of its seed; 20 blocks of the extendable output hold far more than the 256 triples a polynomial needs. -/
def expandA (rho : List Byte) : List (List Poly) :=
  (List.range 4).map (fun r => (List.range 4).map (fun s =>
    (rejectTriples 1120 (shake128 (rho ++ [BitVec.ofNat 8 s, BitVec.ofNat 8 r]) 3360)).take 256))

/-- A short polynomial of its seed: coefficients −2 to 2 of half bytes below 15; 8 blocks hold far more than it needs. -/
def shortPoly (seed : List Byte) : Poly :=
  (((shake256 seed 1088).flatMap (fun b => [b.toNat % 16, b.toNat / 16])).filter (fun z => z < 15)).take 256 |>.map (fun z => dsaOf (2 - (z % 5 : Nat)))

/-- The short vectors s1 and s2. -/
def expandS (rho : List Byte) : List Poly × List Poly :=
  let v (ofs : Nat) : List Poly := (List.range 4).map (fun r => shortPoly (rho ++ leBytes 2 (ofs + r)))
  (v 0, v 4)

/-- The masking vector y. -/
def expandMask (rho : List Byte) (kappa : Nat) : List Poly :=
  (List.range 4).map (fun r => unpackFrom 18 (2 ^ 17) (shake256 (rho ++ leBytes 2 (kappa + r)) 576))

/-- The steps of the challenge's shuffle: the place, the sign bits, and the bytes that follow. -/
def ballGo (signs : Nat) : (n : Nat) → Poly → List Byte → Poly
  | 0, c, _ => c
  | n + 1, c, b =>
    let i := 255 - n
    match b.dropWhile (fun x => i < x.toNat) with
    | [] => c
    | j :: r => ballGo signs n ((c.set i (c.getD j.toNat 0)).set j.toNat (if signs.testBit (38 - n) then dsaQ - 1 else 1)) r

/-- The challenge: 39 coefficients of 1 or −1. -/
def sampleInBall (seed : List Byte) : Poly :=
  let b := shake256 seed 1088
  ballGo (leNat (b.take 8)) 39 polyZero (b.drop 8)

/-! ### Rounding -/

/-- A coefficient's upper and lower parts by 2^13. -/
def power2Round (r : Nat) : Nat × Int := let r0 := centered 8192 r; ((((r : Int) - r0) / 8192).toNat, r0)

/-- A coefficient's high and low parts by 2γ₂. -/
def decompose (r : Nat) : Nat × Int :=
  let r0 := centered 190464 r
  if (r : Int) - r0 = (dsaQ : Int) - 1 then (0, r0 - 1) else ((((r : Int) - r0) / 190464).toNat, r0)

/-- A coefficient's high part, corrected by a hint. -/
def useHint (h r : Nat) : Nat :=
  let (r1, r0) := decompose r
  if h = 0 then r1 else if 0 < r0 then (r1 + 1) % 44 else (r1 + 43) % 44

/-- The bytes of the high parts of a vector. -/
def w1Encode (w1 : List Poly) : List Byte := w1.flatMap (packBits 6)

/-! ### Keys, signatures and their verification -/

/-- ML-DSA.KeyGen_internal (R534): the public and the private key of ξ. (PRESUMED, log 69) -/
@[irreducible] def mlDsaKeyGen (xi : BitVec 256) : List Byte × List Byte :=
  let seed := shake256 (beBytes 32 xi.toNat ++ [4, 4]) 128
  let rho := seed.take 32
  let (s1, s2) := expandS ((seed.drop 32).take 64)
  let t := vecAdd (matMul (expandA rho) (s1.map ntt)) s2
  let pk := rho ++ t.flatMap (fun p => packBits 10 (p.map (fun c => (power2Round c).1)))
  let t0 := t.map (fun p => p.map (fun c => dsaOf (power2Round c).2))
  (pk, rho ++ seed.drop 96 ++ shake256 pk 64 ++ s1.flatMap (packFrom 3 2) ++ s2.flatMap (packFrom 3 2) ++ t0.flatMap (packFrom 13 4096))

/-- The message that is signed: an empty context string, then the message (R539). -/
def dsaMessage (m : List Byte) : List Byte := [0, 0] ++ m

/-- One attempt at a signature: none where it is rejected. -/
def signTry (a : List (List Poly)) (s1 s2 t0 : List Poly) (mu rho : List Byte) (kappa : Nat) : Option (List Byte) :=
  let y := expandMask rho kappa
  let w := matMul a (y.map ntt)
  let seed := shake256 (mu ++ w1Encode (w.map (fun p => p.map (fun c => (decompose c).1)))) 32
  let c := ntt (sampleInBall seed)
  let z := vecAdd y (vecMul c s1)
  let r := vecSub w (vecMul c s2)
  let low := r.foldl (fun m p => p.foldl (fun m c => max m (decompose c).2.natAbs) m) 0
  let ct := vecMul c t0
  let u := vecAdd r ct
  let h := (u.zip r).map (fun x => (x.1.zip x.2).map (fun c => if (decompose c.1).1 = (decompose c.2).1 then 0 else 1))
  if 2 ^ 17 - 78 ≤ vecNorm z ∨ 95232 - 78 ≤ low ∨ 95232 ≤ vecNorm ct ∨ 80 < (h.map List.sum).sum then none
  else some (seed ++ z.flatMap (packFrom 18 (2 ^ 17)) ++ packHint h)

/-- Attempts until one is not rejected; each is rejected with a probability of about 3 in 4, so 1,000 stand for no end. -/
def signFrom (f : Nat → Option (List Byte)) : Nat → Nat → List Byte
  | 0, _ => []
  | n + 1, kappa =>
    match f kappa with
    | some s => s
    | none => signFrom f n (kappa + 4)

/-- ML-DSA.Sign: private key, message, and the 32 random bytes of its hedged form (R549). (PRESUMED, log 69) -/
@[irreducible] def mlDsaSign (sk m rnd : List Byte) : List Byte :=
  let at' (ofs n : Nat) : List Byte := (sk.drop ofs).take n
  let a := expandA (at' 0 32)
  let s1 := unpackVec 96 (unpackFrom 3 2) (at' 128 384)
  let s2 := unpackVec 96 (unpackFrom 3 2) (at' 512 384)
  let t0 := unpackVec 416 (unpackFrom 13 4096) (at' 896 1664)
  let mu := shake256 (at' 64 64 ++ dsaMessage m) 64
  signFrom (signTry a s1 s2 t0 mu (shake256 (at' 32 32 ++ rnd ++ mu) 64)) 1000 0

/-- ML-DSA.Verify (R539): public key, message, signature. (PRESUMED, log 69) -/
@[irreducible] def mlDsaVerify (pk m sig : List Byte) : Bool :=
  match unpackHint (sig.drop 2336) with
  | none => false
  | some h =>
    let seed := sig.take 32
    let z := unpackVec 576 (unpackFrom 18 (2 ^ 17)) ((sig.drop 32).take 2304)
    let t1 := unpackVec 320 (unpackBits 10 256) (pk.drop 32)
    let mu := shake256 (shake256 pk 64 ++ dsaMessage m) 64
    let c := ntt (sampleInBall seed)
    let w := vecSub (matMul (expandA (pk.take 32)) (z.map ntt)) (vecMul c (t1.map (fun p => p.map (fun x => x * 8192 % dsaQ))))
    let w1 := (h.zip w).map (fun x => (x.1.zip x.2).map (fun y => useHint y.1 y.2))
    pk.length = 1312 && sig.length = 2420 && vecNorm z < 2 ^ 17 - 78 && seed = shake256 (mu ++ w1Encode w1) 32

end Sys2Proof.Machine
end

