-- ==== Sys2Proof/Machine/Identity.lean ====
section
/-!
DEFINITION. Identity (R533-R536): the helper data of the ledger, recovery by the code-offset construction, enrolment, and
what the boot ROM does with what it finds.
-/

namespace Sys2Proof.Machine

/-- The PUF array at power-up (R533): the response in bits 0–3,569, bit i in byte ⌊i ÷ 8⌋; nothing reads the bits above. -/
def pufArray (w : BitVec 3570) : Bytes := ((List.range 447).zip (leBytes 447 w.toNat)).foldl (fun m x => m.write 0 x.1 x.2) []

/-- The response that the boot ROM reads in the PUF array (R533). -/
def readPuf (m : Bytes) : BitVec 3570 := BitVec.ofNat 3570 (leNat (m.readN 0 0 447))

/-- The PUF array read as the response, and written with zeros (R533). -/
def State.takePuf (s : State) : BitVec 3570 × State := (readPuf s.sec.puf, { s with sec := { s.sec with puf := [] } })

/-- The bytes of a hash, first byte first. -/
def hashBytes (h : BitVec 256) : List Byte := beBytes 32 h.toNat

/-- The hash that bytes hold. -/
def hashOf (bs : List Byte) : BitVec 256 := BitVec.ofNat 256 (beNat bs)

/-- r as the bytes that SHA3-256 takes: bit i in byte ⌊i ÷ 8⌋ bit i mod 8, as OFFSET is stored. -/
def rBytes (r : BitVec 262) : List Byte := leBytes 33 r.toNat

/-- ξ of r (R534 step 3). -/
def xiOf (r : BitVec 262) : BitVec 256 := sha3 (rBytes r ++ [0])

/-- CHECK of r (R534 step 4): the first 16 bytes of SHA3-256(r ‖ 0x01). -/
def checkOf (r : BitVec 262) : List Byte := (hashBytes (sha3 (rBytes r ++ [1]))).take 16

/-- A copy of the helper data (R536). -/
def helperBytes (offset : BitVec 3570) (check : List Byte) : List Byte :=
  let b := leBytes 4 0x44484C50 ++ leBytes 2 1 ++ leBytes 2 0 ++ leBytes 448 offset.toNat ++ check
  b ++ leBytes 4 (crc32c b).toNat

/-- Whether a copy's CRC is correct; copy A is sector 1, copy B sector 2 (R551). -/
def helperOk (f : Bytes) (k : Nat) : Bool :=
  flashNat f (k * 4096 + 0x1D8) 4 = (crc32c (flashBytes f (k * 4096) 0x1D8)).toNat

/-- OFFSET of a copy. -/
def helperOffset (f : Bytes) (k : Nat) : BitVec 3570 := BitVec.ofNat 3570 (flashNat f (k * 4096 + 8) 448)

/-- CHECK of a copy. -/
def helperCheck (f : Bytes) (k : Nat) : List Byte := flashBytes f (k * 4096 + 0x1C8) 16

/-- The identity of r: the key pair, and ID_READY (R534). -/
def Sec.derive (x : Sec) (r : BitVec 262) : Sec := { x with keyPair := some (mlDsaKeyGen (xiOf r)), idReady := true }

/-- DEVICE_ID (R534): zero while ID_READY is clear. -/
def Sec.deviceId (x : Sec) : BitVec 256 :=
  match x.keyPair with
  | some (pk, _) => if x.idReady then sha3 pk else 0
  | none => 0

/-- Enrolment (R536): r from the entropy source, OFFSET = w XOR c, both copies written, the pair derived. (DESIGN CHOICE, log 64; PRESUMED, log 69) -/
def State.enrolNow (s : State) (w : BitVec 3570) (r : BitVec 262) : State :=
  let h := helperBytes (w ^^^ pufEncode r) (checkOf r)
  let f := flashErase (flashErase s.ledger.flash 1) 2
  { s with ledger := { s.ledger with flash := flashProg (flashProg f 0x1000 h) 0x2000 h },
           sec := { (s.sec.derive r) with enrolled := true } }

/-- Recovery from a copy of the helper data (R534), and the other copy rewritten when its CRC is wrong (R536). (DESIGN CHOICE, log 64; PRESUMED, log 69) -/
def State.recover (s : State) (w : BitVec 3570) (k : Nat) : State :=
  let f := s.ledger.flash
  let r := pufDecode (w ^^^ helperOffset f k)
  let o := 3 - k
  let f' := if helperOk f o then f else flashProg (flashErase f o) (o * 4096) (flashBytes f (k * 4096) 0x1DC)
  let s := { s with ledger := { s.ledger with flash := f' } }
  if checkOf r = helperCheck f k then { s with sec := s.sec.derive r } else { s with sec := { s.sec with idFail := true } }

/-- Identity at power-up (R536): the first applicable row. (DESIGN CHOICE, log 10; DESIGN CHOICE, log 64) -/
def State.identify (s : State) (w : BitVec 3570) (entropy : BitVec 262) (formatted : Bool) : State :=
  let f := s.ledger.flash
  if s.ledger.state ≠ .ready then { s with sec := { s.sec with idFail := true } }
  else if formatted || (flashBlank f 1 && flashBlank f 2) then s.enrolNow w entropy
  else if helperOk f 1 then s.recover w 1
  else if helperOk f 2 then s.recover w 2
  else { s with sec := { s.sec with idFail := true } }

/-- The boot ROM reads the ledger (R551, R552, R555): the torn records it finds are counted (R554). (DESIGN CHOICE, log 6) -/
def State.readLedger (s : State) : State × Bool :=
  let (l, torn, formatted) := s.ledger.start
  ((List.replicate torn ()).foldl (fun s _ => s.bump .torn) { s with ledger := l }, formatted)

end Sys2Proof.Machine
end

