-- ==== Sys2Proof/Machine/Power.lean ====
section
/-!
DEFINITION. Resets, supply monitors and the thermal trip (R531, R571-R578, R589-R591), and the voltage loop and ageing
(R520-R523, R567).
-/

namespace Sys2Proof.Machine

/-! ### Resets -/

/-- What every reset keeps: the queue of commands, the model's own counter of free values, the supply conditions, the ledger
device's contents, HyperRAM and the TAP. (DESIGN CHOICE, log 3; DESIGN CHOICE, log 11) -/
def State.resetCommon (s : State) : State :=
  { State.reset with
    pending := s.pending, free := s.free, tap := s.tap,
    mem := s.mem.filter (fun c => 0x40000000 ≤ c.1), poison := s.poison.filter (fun w => 0x8000000 ≤ w && w < 0x10000000), pageCrc := s.pageCrc,
    power := { booted := s.power.booted, sagPin := s.power.sagPin, ioLow := s.power.ioLow, coreLow := s.power.coreLow,
               held := s.power.held, porst := s.power.porst, brown := s.power.brown, pll := s.power.pll,
               therm := s.power.therm },
    ledger := { present := s.ledger.present, size := s.ledger.size, erase4k := s.ledger.erase4k, flash := s.ledger.flash } }

/-- What SYSRST_N and the internal resets keep as well (R13, R531): the RWS fields with BROWN_RAIL, and identity. -/
def State.resetWarm (s : State) : State :=
  let r := s.resetCommon
  { r with power := { r.power with brownout := s.power.brownout, pllUnlock := s.power.pllUnlock,
                                     brownRail := s.power.brownRail },
           sec := { keyPair := s.sec.keyPair, idReady := s.sec.idReady, idFail := s.sec.idFail,
                    enrolled := s.sec.enrolled } }

/-- PORST_N asserted: everything else is discarded (R531), an internal reset and boundary-scan control end (R585, R591). -/
def State.resetCold (s : State) : State :=
  let r := s.resetCommon
  { r with power := { r.power with brown := false, pll := false, therm := false }, tap := { s.tap with control := false } }

/-- Groups of signals by what they do in reset (R578). -/
inductive PinGroup
  | portPairs | hbCsN | xsCsN | hbRstN | hbClockData | xsClockData | svcSdo | tdo | alertN | thermTripN | ppsOut | gp
  deriving DecidableEq, Repr

/-- States of an output pin (R578, R579, R585). -/
inductive PinState | off | high | low | highZ | released | asserted | pulledDown
  deriving DecidableEq, Repr

/-- The boot ROM after SYSRST_N or an internal reset: it reads the ledger again (R529, R555). (DESIGN CHOICE, log 10) -/
def State.reboot (s : State) : State := if s.inReset then s else s.readLedger.1

/-- Whether a pulse of a reset pin acts (R574): below 1 µs never, from 10 µs always, in between as the operand says. -/
def pulseActs (ns : Nat) (acts : Bool) : Bool := 10000 ≤ ns || (1000 ≤ ns && acts)

/-- PORST_N_ASSERT (R574). (DESIGN CHOICE, log 10) -/
def execPorstNAssert (ns : Nat) (acts : Bool) (s : State) : Host.Outcome State Fault Refusal :=
  .next (
    if pulseActs ns acts then
      let r := s.resetCold
      { r with power := { r.power with porst := true } }
    else s)

/-- PORST_N_RELEASE (R531, R533, R536, R551): the boot ROM reads the PUF and zeroes it, reads the ledger and recovers or
enrols identity. It acts while PORST_N is asserted, or on a machine whose boot ROM has not run. (DESIGN CHOICE, log 10) -/
def execPorstNRelease (puf : BitVec 3570) (entropy : BitVec 262) (s : State) : Host.Outcome State Fault Refusal :=
  .next (
    if s.power.porst || !s.power.booted then
      let r := s.resetCold
      let (w, r) := ({ r with power := { r.power with porst := false, booted := true }, sec := { r.sec with puf := pufArray puf } }).takePuf
      let (r, formatted) := r.readLedger
      r.identify w entropy formatted
    else s)

/-- SYSRST_N (R575): its assertion and release; PORST_N governs while it is asserted. (DESIGN CHOICE, log 10) -/
def execSysrstN (ns : Nat) (acts : Bool) (s : State) : Host.Outcome State Fault Refusal :=
  .next (if pulseActs ns acts && !s.power.porst then s.resetWarm.reboot else s)

/-! ### Supply monitors -/

/-- HEALTH_AVS.GUARD_MV. -/
def State.guardMv (s : State) : Nat := s.rwField .avs 15 8

/-- HEALTH_AVS_APPLIED.APPLIED_MV. -/
def State.appliedMv (s : State) : Nat := s.rwField .avsApplied 9 0

/-- The floor of VDD_CORE (R571). -/
def State.floorMv (s : State) : Nat := min s.avs.target s.appliedMv - s.guardMv

/-- Ledger and trace writes stop and the alert is set (R571, R558); a shutdown BIST record in progress is lost (R526). -/
def State.holdWrites (s : State) : State :=
  let s := { s with power := { s.power with held := true, supplyAlert := true }, ledger := s.ledger.stop }.note .alert (· ||| 1)
  if s.bist.shutEnded then s.finishShutdown false else s

/-- The end of a condition: the 10 ms of R572 count from the last one's end. (DESIGN CHOICE, log 11) -/
def State.lowEnded (s : State) : State := { s with power := { s.power with heldSince := s.nclk } }

/-- PWR_SAG's effect (R571): the pin low for `lowNs`; 0 says that it is released. (DESIGN CHOICE, log 11) -/
def State.pwrSag (s : State) (lowNs : Nat) : State :=
  if s.power.porst then s
  else if 100 ≤ lowNs then { s with power := { s.power with sagPin := true } }.holdWrites
  else if lowNs = 0 && s.power.sagPin then { s with power := { s.power with sagPin := false } }.lowEnded
  else s

/-- VDD_IO_LOW's effect (R571): VDD_IO as the monitor sees it; a reading of 1.71 V or more ends the condition. (DESIGN CHOICE, log 11) -/
def State.vddIo (s : State) (mv : Nat) : State :=
  if s.power.porst then s
  else if mv < 1710 then { s with power := { s.power with ioLow := true } }.holdWrites
  else if s.power.ioLow then { s with power := { s.power with ioLow := false } }.lowEnded
  else s

/-- VDD_CORE_LOW's effect (R571): VDD_CORE as the monitor sees it. (DESIGN CHOICE, log 11) -/
def State.vddCore (s : State) (mv : Nat) : State :=
  if s.power.porst then s
  else if mv + 40 < s.floorMv then { s with power := { s.power with coreLow := true } }.holdWrites
  else if s.power.coreLow then { s with power := { s.power with coreLow := false } }.lowEnded
  else s

/-- LEDGER_WRITE_RESUME (R572): 10 ms after the last condition ended, writes resume, an ENROL that waited for them first. -/
def execLedgerWriteResume (s : State) : Host.Outcome State Fault Refusal :=
  .next (
    let p := s.power
    if s.inReset || !p.held || p.sagPin || p.ioLow || p.coreLow || !s.passed p.heldSince 10000000 then s
    else
      let s := { s with power := { p with held := false } }
      let s := if s.sec.enrolReq then
          { s with ledger := { s.ledger with flash := flashErase (flashErase s.ledger.flash 1) 2 }, sec := { s.sec with enrolReq := false } }
        else s
      s.ledgerPump)

/-- A rail's code in BROWN_RAIL (R592). -/
def Rail.code : Rail → BitVec 3
  | .core => 0 | .sram => 1 | .iod => 2 | .phy => 3 | .aphy => 4 | .hb => 5 | .io => 6

/-- Whether a rail is below its brown-out threshold (R571). (DESIGN CHOICE, log 11) -/
def State.browns (s : State) (r : Rail) (mv : Nat) : Bool :=
  match r with
  | .core => mv + 80 < s.floorMv
  | .sram => mv < 700
  | .iod => mv < 740
  | .phy => mv < 840
  | .aphy => mv < 1660
  | .hb => mv < 1620
  | .io => mv < 1620

/-- BROWN_OUT (R573): the rail has been below its threshold for `ns`. The alert bit stands after the reset (R592). (DESIGN CHOICE, log 11) -/
def execBrownOut (rail : Rail) (mv ns : Nat) (s : State) : Host.Outcome State Fault Refusal :=
  .next (
    if s.power.porst || ns < 1000 || !s.browns rail mv then s
    else
      let r := s.resetWarm
      { r with power := { r.power with
          brown := true, supplyAlert := true, brownout := true,
          brownRail := if s.power.brownout then s.power.brownRail else Rail.code rail } })

/-- BROWN_OUT_EXIT (R573): every rail has been above its threshold for 1 ms. -/
def execBrownOutExit (s : State) : Host.Outcome State Fault Refusal :=
  .next (if s.power.brown then { s with power := { s.power with brown := false } }.reboot else s)

/-- PLL_UNLOCK (R577). -/
def execPllUnlock (s : State) : Host.Outcome State Fault Refusal :=
  .next (
    if s.power.porst then s
    else
      let r := s.resetWarm
      { r with power := { r.power with pll := true, pllUnlock := true } })

/-- PLL_RELOCK_EXIT (R577): the PLL has been locked again for 1 ms. -/
def execPllRelockExit (s : State) : Host.Outcome State Fault Refusal :=
  .next (if s.power.pll then { s with power := { s.power with pll := false } }.reboot else s)

/-! ### Temperature -/

/-- The highest reading and the first sensor that gives it (R589). -/
def hottest : Nat → List Int → Int × Nat
  | _, [] => (-128, 0)
  | i, t :: r => let (m, k) := hottest (i + 1) r; if m ≤ t then (t, i) else (m, k)

/-- HEALTH_THERM_CFG.WARN_C. -/
def State.warnC (s : State) : Nat := s.rwField .thermCfg 7 0

/-- The throttle started or ended (R590); in strict mode each sends DETERMINISM_BREAK and each start is counted (R426). -/
def State.setThrottle (s : State) (on : Bool) : State :=
  if s.thermal.throttled = on then s
  else
    let s := { s with thermal := { s.thermal with throttled := on } }
    if s.strict then
      let s := if on then s.bump .detbreak else s
      s.event 5 0 (beBytes 4 (if on then 1 else 0))
    else s

/-- THERMAL_SAMPLE (R589, R590): the 64 sensors read. -/
def execThermalSample (temps : List Int) (s : State) : Host.Outcome State Fault Refusal :=
  .next (
    if s.inReset || temps.length ≠ 64 then s
    else
      let (tj, k) := hottest 0 temps
      let s := { s with thermal := { s.thermal with tj := tj, hot := k, temps := temps },
                        power := { s.power with tempWarn := s.power.tempWarn || s.warnC ≤ tj } }
      let s := if s.warnC ≤ tj then s.note .alert (· ||| 2) else s
      if 102 ≤ tj then s.setThrottle true else if tj ≤ 98 then s.setThrottle false else s)

/-- THERM_TRIP (R591): the analogue sensor's reading. -/
def execThermTrip (celsius : Int) (s : State) : Host.Outcome State Fault Refusal :=
  .next (
    if s.power.porst || celsius < 115 then s
    else
      let r := s.resetWarm
      { r with power := { r.power with therm := true } })

/-- HEALTH_ALERT's status bits (R592). -/
def State.alertStatus (s : State) : Nat :=
  (if s.avs.target ≠ s.appliedMv then 8 else 0) + (if s.thermal.throttled then 4 else 0)
    + (if s.power.tempWarn then 2 else 0) + (if s.power.supplyAlert then 1 else 0)

/-- ALERT_N asserted (R577, R592): released in reset but after loss of lock (R578). -/
def State.alertN (s : State) : Bool :=
  if s.inReset then s.power.pll && !s.power.porst else s.alertStatus &&& s.rwField .alert 11 8 != 0

/-- THERM_TRIP_N asserted (R591): from the trip until PORST_N is asserted. -/
def State.thermTripN (s : State) : Bool := s.power.therm

/-- An open-drain output (R579). -/
def openDrain (on : Bool) : PinState := if on then .asserted else .released

/-- The pins whose state the registers and states of the machine give: all of them in reset (R578), the open-drain outputs and PPS_OUT always; the
others carry their interface's traffic. -/
def State.pin (s : State) (g : PinGroup) : Option PinState :=
  match g with
  | .alertN => some (openDrain s.alertN)
  | .thermTripN => some (openDrain s.thermTripN)
  | .ppsOut => some (if s.tide.ppsOut && !s.inReset then .high else .low)
  | .gp => some .pulledDown
  | _ =>
    if s.inReset then
      match g with
      | .portPairs => some .off
      | .hbCsN | .xsCsN => some .high
      | .svcSdo | .tdo => some .highZ
      | _ => some .low
    else none

/-! ### The voltage loop and ageing -/

/-- READY bits of cores, regions, ingest unit and loop engine from the units that passed (R527, R532). A core or region lost
since stays lost. No unit of R556 stands for the decoders, a region's ring or its barrier unit: `others` says whether they passed. (DEDUCED, log 33) -/
def State.refreshUnits (s : State) : State :=
  let good (u : Nat) : Bool := s.bist.good.getLsbD u
  let core (s : State) (n : Nat) : State :=
    let x := s.regions.getD (n / 8) {}
    let phys := s.physCore n
    s.setCoreReady n (good (9 * (n / 8) + phys) && (s.coreReady.getLsbD n || !x.downs.contains phys))
  let region (s : State) (r : Nat) : State :=
    let x := s.regions.getD r {}
    let bank (b : Nat) : Nat := if x.replaced = some b then 8 else b
    s.setReady (16 + r) (!x.lost && (List.range 8).all (fun b => good (36 + 9 * r + bank b))
      && s.bist.others.getLsbD (1 + 2 * r) && s.bist.others.getLsbD (2 + 2 * r))
  let s := (List.range 32).foldl core s
  let s := (List.range 4).foldl region s
  if s.sec.image.isNone || s.sec.applying then s
  else
    let pairsOk := s.pairs.all (fun p => !p.2.simplex && !p.2.halted)
    (s.setReady 6 (good 80 && s.bist.others.getLsbD 0)).setReady 5 (pairsOk && good 82 && (List.range 8).all (fun k => good (72 + k)))

/-- APPLIED_MV at the supervisor's first target (R568): units with a valid passing record are then ready (R527). (DESIGN CHOICE, log 20) -/
def State.avsCheck (s : State) : State :=
  match s.avs.first with
  | some g =>
    if !s.avs.reached && s.avs.target = g && s.appliedMv = g then
      let s := { s with avs := { s.avs with reached := true } }
      ({ s with bist := { s.bist with good := s.bist.pass &&& ~~~s.bist.retired } }).refreshUnits
    else s
  | none => s

/-- The target that a highest V_REQ asks for (R523), within the AVS range of 550-780 mV. (DESIGN CHOICE, log 20) -/
def State.avsGoal (s : State) (vReq : Nat) : Nat := max 550 (min 780 ((vReq + s.guardMv + 4) / 5 * 5))

/-- The highest value needed within the last 24 h (R523). (DESIGN CHOICE, log 20) -/
def State.avsFloor (s : State) : Nat :=
  ((s.avs.needs.filter (fun e => !s.passed e.1 86400000000000)).map Prod.snd).foldl max s.avs.goal

/-- A new goal; the first one is the first target of R568. The one before it was needed until now (R523). (DESIGN CHOICE, log 20) -/
def State.setGoal (s : State) (g : Nat) : State :=
  let needs := s.avs.needs.filter (fun e => !s.passed e.1 86400000000000)
  { s with avs := { s.avs with goal := g, needs := if s.avs.first.isSome && s.avs.goal ≠ g then needs ++ [(s.nclk, s.avs.goal)] else needs,
                               first := (match s.avs.first with | some f => some f | none => some g) } }.avsCheck

/-- AVS_STEP (R523, R567): the next 5 mV step, once APPLIED_MV equals TARGET_MV and 1 ms after the previous one; down only from a value that
nothing has needed for 24 h. (DESIGN CHOICE, log 20) -/
def execAvsStep (s : State) : Host.Outcome State Fault Refusal :=
  .next (
    let a := s.avs
    let ready : Bool := match a.steppedAt with
      | some t => s.passed t 1000000
      | none => true
    if s.inReset || !s.sup || a.first = none || a.target ≠ s.appliedMv || !ready then s
    else if a.target < a.goal then
      { s with avs := { a with target := a.target + 5, changedAt := s.nclk, steppedAt := some s.nclk } }
    else if (if a.reached then s.avsFloor else a.goal) < a.target then
      { s with avs := { a with target := a.target - 5, changedAt := s.nclk, steppedAt := some s.nclk } }
    else s)

/-- AVS_LATE_TIMEOUT (R567). -/
def execAvsLateTimeout (s : State) : Host.Outcome State Fault Refusal :=
  .next (
    if s.inReset || s.avs.target = s.appliedMv || !s.passed s.avs.changedAt 10000000 then s
    else { s with power := { s.power with avsLate := true } }.note .supply (· ||| 2 ^ 26))

/-- The readings of a wear domain (R520): 20 of each region, then 16 of the chip. (DESIGN CHOICE, log 21) -/
def domReadings (l : List SalReading) (d : Nat) : List SalReading := (l.drop (20 * d)).take (if d = 4 then 16 else 20)

/-- A domain's SRAM margin in mV at the nominal VDD_SRAM of R565. -/
def sramMargin (l : List SalReading) : Nat := 750 - (l.map SalReading.vminMv).foldl max 0

/-- LEVEL of the months remaining (R522). (DESIGN CHOICE, log 12) -/
def wearLevel (months : Nat) : Nat := if months = 0 then 3 else if months < 12 then 2 else if months < 36 then 1 else 0

/-- One domain sampled (R520-R522). A before there is a fit, the months until its V_REQ is too high while there is none, and those until its SRAM
margin is too low, are free values: the spec gives no law for them. LEVEL changes are reported at most once a day. (DESIGN CHOICE, log 12) -/
def State.wearSample (s : State) (l : List SalReading) (d : Nat) : State :=
  let w := s.wear.getD d {}
  let (a, s) := s.takeFree 64
  let (mon, s) := s.takeFree 12
  let (sram, s) := s.takeFree 12
  let exp := ((s.sec.bundle.map Bundle.wearExp).getD []).getD d 0
  let w := w.sampled exp d s.guardMv (Config.vReq s.appliedMv l) (sramMargin l) s.nclk s.thermal.temps a mon.toNat sram.toNat
  let lv := wearLevel w.remain
  let due : Bool := match w.reported with
    | some t => s.passed t 86400000000000
    | none => true
  let tell := lv ≠ w.told && due
  let w := { w with level := lv, told := if tell then lv else w.told, reported := if tell then some s.nclk else w.reported }
  let s := { s with wear := s.wear.put d w }
  if tell then s.report .chip .ce 0x14 (d * 16 + 15) 0 0 else s

/-- The payload of a BASELINE record (R556). (DESIGN CHOICE, log 12) -/
def State.baselinePay (s : State) : List Byte :=
  ([0, 1, 2, 3, 4] : List Nat).flatMap (fun d => leBytes 2 (s.wear.getD d {}).base)

/-- SALINOMETER_SAMPLE (R520-R523): the 96 salinometers read, reduced, and the AVS target moved. The first sample of a part
whose ledger holds no BASELINE record writes one (R521, R556). (DESIGN CHOICE, log 12) -/
def execSalinometerSample (readings : List SalReading) (s : State) : Host.Outcome State Fault Refusal :=
  .next (
    if s.inReset || !s.sup || readings.length ≠ 96 then s
    else
      let s := ([0, 1, 2, 3, 4] : List Nat).foldl (fun s d => s.wearSample (domReadings readings d) d) s
      let v := (([0, 1, 2, 3, 4] : List Nat).map (fun d => (s.wear.getD d {}).vReq)).foldl max 0
      let s := s.setGoal (s.avsGoal v)
      let queued := (s.ledger.waiting.any (fun r => r.type = 1)) || (match s.ledger.job with | some (r, _, _) => r.type = 1 | none => false)
      if s.ledger.newest.get 1 = none && !queued then s.record 1 s.baselinePay else s)

end Sys2Proof.Machine
end

