-- ==== Sys2Proof/Machine/Hosts.lean ====
section
/-!
DEFINITION. Queues, windows and semaphores as the hosts use them (R149-R156, R256, R276, R277, R445-R449, R457-R469).
-/

namespace Sys2Proof.Machine

/-! ### Queues -/

/-- A queue changed. -/
def State.onQueue (s : State) (q : Nat) (f : QueueSt → QueueSt) : State := { s with queues := s.queues.put q (f (s.queue q)) }

/-- QUEUE_OPEN without ADOPT (R464). -/
def State.queueOpen (s : State) (h : SqpHdr) : State :=
  let q := h.number.toNat
  match s.queueCfg q with
  | none => s.nak h .addressInvalid
  | some _ =>
    if (s.queue q).state ≠ .closed then s.nak h .busy
    else
      let s := s.onQueue q (fun x => { x with state := .opened, gen := x.gen + 1, port := h.port, client := h.client, both := h.both, opener := h.client })
      s.okGen h (s.queue q).gen

/-- A message's GEN differs from the queue's (R467). -/
def State.staleQueue (s : State) (h : SqpHdr) : State := (s.bump .qstale).nak h .staleGeneration

/-- A queue's completions taken back from what its owner was, to go to its new owner (R455, R465): a copy on a port that still serves the
queue for the same client stays there. (DEDUCED, log 40) -/
def State.moveComps (s : State) (q : Nat) (old : QueueSt) (h : SqpHdr) : State :=
  let serves (p : Port) : Bool := old.client = h.client && (h.both || p = h.port)
  let s := if serves old.port then s else { s with comps := s.comps.map (fun c => if c.queue = q then { c with moved := some old.port } else c) }
  (s.comps.filter (fun c => c.queue = q && c.out)).foldl (fun s c =>
    let s := if serves .a then s else s.holdComp .a c.id
    if serves .b then s else s.holdComp .b c.id) s

/-- QUEUE_OPEN with ADOPT (R465): ownership moves, and completions not yet delivered go to the new owner (R455). -/
def State.queueAdopt (s : State) (h : SqpHdr) : State :=
  let q := h.number.toNat
  let x := s.queue q
  match s.queueCfg q with
  | none => s.nak h .addressInvalid
  | some _ =>
    if x.state = .closed then s.nak h .queueClosed
    else if h.gen ≠ x.gen then s.staleQueue h
    else if x.state = .closing then s.nak h .busy
    else if s.portReady x.port && !(s.hport x.port).unresponsive && !s.senderHolds 0 h && !(x.port = h.port && x.client = h.client) then
      s.nak h .noPermission
    else
      let s := s.onQueue q (fun x => { x with port := h.port, client := h.client, both := h.both })
      let s := s.okGen h x.gen
      ((s.moveComps q x h).flushComps).queueEvent q 2

/-- QUEUE_CLOSE (R277, R466): answered once the last completion has been handed to a port. -/
def State.queueClose (s : State) (h : SqpHdr) : State :=
  let q := h.number.toNat
  let x := s.queue q
  match s.queueCfg q with
  | none => s.nak h .addressInvalid
  | some _ =>
    if x.state = .closed then s.nak h .queueClosed
    else if h.gen ≠ x.gen then s.staleQueue h
    else if !s.senderHolds 0 h && !(x.port = h.port && x.client = h.client) then s.nak h .noPermission
    else if x.state = .closing then s.nak h .busy
    else ((s.onQueue q (fun x => { x with state := .closing, closeReq := some h })).deferAnswer h).closeJobs q

/-- QUEUE_OPEN. -/
def execQueueOpen (h : SqpHdr) (s : State) : Host.Outcome State Fault Refusal :=
  .next (s.message h (some .queue) State.qmgrReady (lenIs h 0) (fun s => if h.adopt then s.queueAdopt h else s.queueOpen h))

/-- QUEUE_ADOPT: a QUEUE_OPEN with ADOPT. -/
def execQueueAdopt (h : SqpHdr) (s : State) : Host.Outcome State Fault Refusal :=
  .next (s.message h (some .queue) State.qmgrReady (lenIs h 0) (fun s => if h.adopt then s.queueAdopt h else s.queueOpen h))

/-- QUEUE_CLOSE. -/
def execQueueClose (h : SqpHdr) (s : State) : Host.Outcome State Fault Refusal :=
  .next (s.message h (some .queue) State.qmgrReady (lenIs h 0) (fun s => s.queueClose h))

/-- The checks of R467 on a SUBMIT or CANCEL: a closing queue answers as a closed one. -/
def State.onOpenQueue (s : State) (h : SqpHdr) (go : State → QueueCfg → State) : State :=
  let x := s.queue h.number.toNat
  match s.queueCfg h.number.toNat with
  | none => s.nak h .addressInvalid
  | some c =>
    if x.state ≠ .opened then s.nak h .queueClosed
    else if h.gen ≠ x.gen then s.staleQueue h
    else go s c

/-- A SUBMIT's lengths are those of its queue's context (R448). -/
def submitLensOk (e : CatEntry) (b : SubmitBody) : Bool :=
  b.zero = 0 && b.paramLen.toNat = b.params.length && b.warmLen.toNat = b.warm.length
    && b.params.length = e.tmpl.paramBytes && (b.warm.length = 0 || b.warm.length = e.tmpl.warmLen)

/-- SUBMIT (R256, R448): its answer OK, where ACK_REQ asks for one, precedes any completion. -/
def State.submit (s : State) (h : SqpHdr) (b : SubmitBody) : State :=
  s.onOpenQueue h (fun s c =>
    let q := h.number.toNat
    if !submitLensOk (s.queueCat c) b then s.nak h .badLength
    else match s.refuseJob q c (b.params.length + b.warm.length) with
      | some r => s.nak h r
      | none =>
        let s := if h.ackReq then s.nak h .ok else s
        s.newJob q c h.client b.tag b.deadline.toNat (s.rxStamp (portBridge h.port) / 4).toNat 0 b.params b.warm)

/-- SUBMIT. -/
def execSubmit (h : SqpHdr) (b : SubmitBody) (s : State) : Host.Outcome State Fault Refusal :=
  .next (s.message h none State.qmgrReady (lenIs h (24 + b.params.length + b.warm.length)) (fun s => s.submit h b))

/-- CANCEL (R276, R449): its only answer is a refusal. -/
def State.cancel (s : State) (h : SqpHdr) (tag : Word) : State := s.onOpenQueue h (fun s _ => s.cancelTag h.number.toNat tag)

/-- CANCEL. -/
def execCancel (h : SqpHdr) (tag : Word) (s : State) : Host.Outcome State Fault Refusal :=
  .next (s.message h none State.qmgrReady (lenIs h 4) (fun s => s.cancel h tag))

/-! ### Windows -/

/-- A window. -/
def State.window (s : State) (w : Nat) : WinSt := s.windows.getD w {}

/-- A window changed. -/
def State.onWindow (s : State) (w : Nat) (f : WinSt → WinSt) : State := { s with windows := s.windows.put w (f (s.window w)) }

/-- The ranges a window may cover (R149). -/
def windowRangeOk (region ofs len : Nat) : Bool := region < 4 && ofs % 64 = 0 && len % 64 = 0 && 0 < len && ofs + len ≤ 0x600000

/-- WINDOW_OPEN (R149, R469). -/
def State.windowOpen (s : State) (h : SqpHdr) (region : Byte) (ofs len : Word) : State :=
  let w := h.number.toNat
  if 256 ≤ w then s.nak h .addressInvalid
  else if (s.window w).isOpen then s.nak h .busy
  else if !windowRangeOk region.toNat ofs.toNat len.toNat then s.nak h .windowRange
  else
    let s := s.onWindow w (fun x => { isOpen := true, gen := x.gen + 1, region := region.toNat, ofs := ofs.toNat, len := len.toNat })
    s.okGen h (s.window w).gen

/-- Whether the queue manager and a window's region are READY (R31). -/
def State.windowReady (s : State) (region : Nat) : Bool := s.qmgrReady && (4 ≤ region || s.regionReady region)

/-- Whether the functions a message for an open window uses are READY. (DEDUCED, log 54) -/
def State.openWindowReady (s : State) (h : SqpHdr) : Bool :=
  let x := s.window h.number.toNat
  if x.isOpen then s.windowReady x.region else s.qmgrReady

/-- WINDOW_OPEN. -/
def execWindowOpen (h : SqpHdr) (region : Byte) (ofs len : Word) (s : State) : Host.Outcome State Fault Refusal :=
  .next (s.message h (some .window) (fun s => s.windowReady region.toNat) (lenIs h 12) (fun s => s.windowOpen h region ofs len))

/-- The checks of R467 on a message for a window; a write or read that finds it closed is counted (R150). -/
def State.onOpenWindow (s : State) (h : SqpHdr) (access : Bool) (go : State → WinSt → State) : State :=
  let w := h.number.toNat
  let x := s.window w
  if 256 ≤ w then s.nak h .addressInvalid
  else if !x.isOpen then (if access then s.bump .winClosed else s).nak h .windowClosed
  else if h.gen ≠ x.gen then s.staleQueue h
  else go s x

/-- WINDOW_CLOSE (R156): writes already accepted are still applied. -/
def State.windowClose (s : State) (h : SqpHdr) : State :=
  s.onOpenWindow h false (fun s _ => (s.onWindow h.number.toNat (fun x => { x with isOpen := false })).nak h .ok)

/-- WINDOW_CLOSE. -/
def execWindowClose (h : SqpHdr) (s : State) : Host.Outcome State Fault Refusal :=
  .next (s.message h (some .window) State.qmgrReady (lenIs h 0) (fun s => s.windowClose h))

/-- Bytes in the staging area (R155). -/
def State.stagedBytes (s : State) : Nat :=
  (s.staged.map (fun x => match x.body with
    | .write d => d.length
    | .read _ => 0)).sum

/-- An access put in its place (R154): behind those accepted before it, but before one of its port whose SEQ is newer. (DEDUCED, log 54) -/
def putStaged (x : Staged) : List Staged → List Staged
  | [] => [x]
  | y :: r => if y.hdr.port = x.hdr.port && newer y.hdr.seq x.hdr.seq then x :: y :: r else y :: putStaged x r

/-- An access staged. -/
def State.stage (s : State) (h : SqpHdr) (x : WinSt) (ofs : Word) (b : StagedBody) : State :=
  { s with staged := putStaged (Staged.mk h.number.toNat x.region x.ofs x.len ofs h b) s.staged }

/-- WINDOW_WRITE (R151, R152, R155, R457): staged, and answered when applied where ACK_REQ asks for it. -/
def State.windowWrite (s : State) (h : SqpHdr) (ofs : Word) (data : List Byte) : State :=
  s.onOpenWindow h true (fun s x =>
    if x.len < ofs.toNat + data.length then s.nak h .windowRange
    else if (s.hport h.port).lastWinSeq.any (fun q => newer q h.seq) then s.nak h .busy
    else if 512 * 1024 < s.stagedBytes + data.length then s.nak h .busy
    else
      let s := s.stage h x ofs (.write data)
      if h.ackReq then s.deferAnswer h else s)

/-- WINDOW_WRITE. -/
def execWindowWrite (h : SqpHdr) (ofs : Word) (data : List Byte) (s : State) : Host.Outcome State Fault Refusal :=
  .next (s.message h (some .window) (fun s => s.openWindowReady h) (lenIs h (4 + data.length)) (fun s => s.windowWrite h ofs data))

/-- WINDOW_READ (R151, R153, R445). -/
def State.windowRead (s : State) (h : SqpHdr) (ofs len : Word) : State :=
  s.onOpenWindow h true (fun s x =>
    if len = 0 || 1048576 < len.toNat || x.len < ofs.toNat + len.toNat then s.nak h .windowRange
    else s.stage h x ofs (.read len.toNat))

/-- Checks 7 to 9 of a WINDOW_READ and its effect: refused or not, a duplicate of it is processed again (R441). -/
def State.windowReadMsg (s : State) (h : SqpHdr) (lenOk : Bool) (ofs len : Word) : State :=
  (s.lateChecks h none true (s.openWindowReady h) lenOk (fun s => s.windowRead h ofs len)).againAnswer h

/-- WINDOW_READ. -/
def execWindowRead (h : SqpHdr) (ofs len : Word) (s : State) : Host.Outcome State Fault Refusal :=
  .next (s.received h (fun s => s.windowReadMsg h (lenIs h 8) ofs len))

/-! ### Semaphores -/

/-- SEM_n_STATE (R471): LEASE_LEFT in whole ms. (DEDUCED, log 55) -/
def State.semWord (s : State) (n : Nat) : Word :=
  match s.sems.get n with
  | none => 0
  | some x =>
    BitVec.ofNat 32 (2 ^ 31 + portIx x.port * 2 ^ 30 + x.client.val * 2 ^ 27
      + (x.leaseMs * 1000000 - s.nsSince x.since) / 1000000 % 65536)

/-- SEM_ACQUIRE (R445, R458). (DEDUCED, log 55) -/
def State.semAcquire (s : State) (h : SqpHdr) (lease : Word) : State :=
  let n := h.number.toNat
  if 64 ≤ n then s.nak h .addressInvalid
  else if lease.toNat < 10 || 60000 < lease.toNat then s.nak h .badLength
  else if (s.sems.get n).isNone || s.senderHolds n h then
    ({ s with sems := s.sems.put n { port := h.port, client := h.client, leaseMs := lease.toNat, since := s.nclk } }).nak h .ok
  else s.nak h .busy (s.semWord n).toNat

/-- SEM_ACQUIRE. -/
def execSemAcquire (h : SqpHdr) (lease : Word) (s : State) : Host.Outcome State Fault Refusal :=
  .next (s.message h (some .sem) (fun _ => true) (lenIs h 4) (fun s => s.semAcquire h lease))

/-- SEM_RELEASE (R459). -/
def State.semRelease (s : State) (h : SqpHdr) : State :=
  let n := h.number.toNat
  if 64 ≤ n then s.nak h .addressInvalid
  else if s.senderHolds n h then ({ s with sems := s.sems.del n }).nak h .ok
  else s.nak h .noPermission

/-- SEM_RELEASE. -/
def execSemRelease (h : SqpHdr) (s : State) : Host.Outcome State Fault Refusal :=
  .next (s.message h (some .sem) (fun _ => true) (lenIs h 0) (fun s => s.semRelease h))

/-- SEM_STATUS (R445). -/
def State.semStatus (s : State) (h : SqpHdr) : State :=
  if 64 ≤ h.number.toNat then s.nak h .addressInvalid
  else s.answerMsg h 0x32 h.gen (beBytes 4 (s.semWord h.number.toNat).toNat) true

/-- SEM_STATUS. -/
def execSemStatus (h : SqpHdr) (s : State) : Host.Outcome State Fault Refusal :=
  .next (s.message h none (fun _ => true) (lenIs h 0) (fun s => s.semStatus h))

/-- SEM_LEASE_EXPIRY (R460): the lease has passed, and with it the cycle in which a renewal still counts. (DEDUCED, log 61) -/
def execSemLeaseExpiry (n : Fin 64) (s : State) : Host.Outcome State Fault Refusal :=
  .next (
    match s.sems.get n.val with
    | none => s
    | some x =>
      if s.inReset || (s.nclk - x.since) * 20 ≤ x.leaseMs * 1000000 * 11 then s
      else
        let s := ({ s with sems := s.sems.del n.val }).bump .semExpired
        s.event 9 n.val (beBytes 1 (portIx x.port) ++ beBytes 1 x.client.val ++ beBytes 2 1))

end Sys2Proof.Machine
end

