-- ==== Sys2Proof/Machine/Ingest.lean ====
section
/-!
DEFINITION. The ingest unit (R360-R392): measurement frames and their conditioners, video frames with their damage, reference
comparison and findings, and parameter sets.
-/

namespace Sys2Proof.Machine

/-- The unit changed. -/
def State.onIngest (s : State) (f : Ingest → Ingest) : State := { s with ingest := f s.ingest }

/-- A field. -/
def State.field (s : State) (k : Nat) : FieldSt := s.ingest.fields.getD k {}

/-- A field changed. -/
def State.onField (s : State) (k : Nat) (f : FieldSt → FieldSt) : State :=
  s.onIngest (fun g => { g with fields := g.fields.put k (f (g.fields.getD k {})) })

/-- A stream. -/
def State.stream (s : State) (n : Nat) : StreamSt := s.ingest.streams.getD n {}

/-- A stream changed. -/
def State.onStream (s : State) (n : Nat) (f : StreamSt → StreamSt) : State :=
  s.onIngest (fun g => { g with streams := g.streams.put n (f (g.streams.getD n {})) })

/-- A stream's binding (R360). -/
def State.streamCfg (s : State) (n : Nat) : Option StreamCfg := s.sec.image.bind (fun im => SMap.get im.streams n)

/-- The unit runs. -/
def State.ingestRuns (s : State) : Bool := !s.inReset && s.ingestReady

/-! ### Field conditioners -/

/-- The FP64 value of an encoding. -/
def valOf (x : Dword) : Val := Machine.decode .fp64 0 x.toNat

/-- The encoding of an FP64 value. -/
def bitsOf (v : Val) : Dword := BitVec.ofNat 64 (bits64 v)

/-- min(max(v, lo), hi), and whether the limit acts (R370). -/
def limitV (lo hi v : Val) : Val × Bool :=
  let x := if ltV v lo then lo else v
  (if ltV hi x then hi else x, ltV v lo || ltV hi v)

/-- A field's conditioner (R370): the field after an accepted value; none for a rejected one. (DEDUCED, log 49) -/
def FieldSt.condition (c : FieldCfg) (f : FieldSt) (fresh : Bool) (v : Val) : Option FieldSt :=
  let (w, acts) := limitV (valOf c.lo) (valOf c.hi) v
  if v.isNan || (acts && c.reject) then none
  else if fresh then some { f with xr := bitsOf w, xf := bitsOf w, sat := f.sat || acts }
  else
    let rate := valOf c.rate
    let (d, lim) := limitV rate.negate rate (sub64 (w, {}) (valOf f.xr, {})).1
    let xr := (add64 (valOf f.xr, {}) (d, {})).1
    let alpha := valOf c.alpha
    let step := mul64 (alpha, {}) (sub64 (xr, {}) (valOf f.xf, {}))
    let xf := if bits64 alpha = 0x3FF0000000000000 then xr else (add64 (valOf f.xf, {}) step).1
    some { f with xr := bitsOf xr, xf := bitsOf xf, sat := f.sat || acts || lim }

/-- A field's constants. -/
def State.fieldCfg (s : State) (k : Nat) : Option FieldCfg := s.sec.image.bind (fun im => SMap.get im.fields k)

/-- Whether a field is timed out (R372): marked so, or its time is up. -/
def State.fieldOut (s : State) (k : Nat) : Bool :=
  let f := s.field k
  match f.last, s.fieldCfg k with
  | some l, some c => f.tmo || l + c.timeoutNs < s.tide64
  | _, _ => true

/-- FIELD_TIMEOUT (R372). -/
def execFieldTimeout (k : Fin 1024) (s : State) : Host.Outcome State Fault Refusal :=
  .next (if s.ingestRuns && s.fieldOut k.val then s.onField k.val (fun f => { f with tmo := true }) else s)

/-- One value of a measurement frame conditioned (R369, R370); one of a field without constants is rejected (R368). (DEDUCED, log 49) -/
def State.conditionField (s : State) (k capture : Nat) (v : Val) : Bool × State :=
  match s.fieldCfg k with
  | none => (false, s.bump .fieldReject)
  | some c =>
    match { s.field k with sat := false }.condition c (s.fieldOut k) v with
    | none => (false, ((s.bump .fieldReject).note (.fieldStatus k) (· ||| 2 ^ 30)).onField k (fun f => { f with rej := true }))
    | some f =>
      let s := if f.sat then s.note (.fieldStatus k) (· ||| 2 ^ 29) else s
      (true, s.onField k (fun g => { f with tmo := false, last := some capture, rej := g.rej, sat := g.sat || f.sat }))

/-! ### Measurement frames -/

/-- The value bytes of an entry by format (R366, R368): how many of the last bytes count; none for a rejected specifier. -/
def measWidth (sp : FSpec) : Option Nat :=
  if sp.blk ≠ 0 then none
  else match sp.fmt with
    | .fp64 => some 8
    | .fp32 | .s32 | .fx32 => some 4
    | .s16 => some 2
    | _ => none

/-- One entry (R368): its field and value; none for a rejected entry. -/
def measEntry (c : StreamCfg) (b : List Byte) : Option (Nat × Val) :=
  let k := beNat (b.take 2)
  match FSpec.ofBits (BitVec.ofNat 16 (beNat ((b.drop 2).take 2))) with
  | none => none
  | some sp =>
    match measWidth sp with
    | none => none
    | some w =>
      if c.firstField ≤ k ∧ k < c.firstField + c.fieldCount ∧ k < 1024 then
        some (k, (rnd .fp64 .rte (sp.decode (beNat ((b.drop (12 - w)).take w)))).1)
      else none

/-- Whether a payload is a measurement frame (R366, R367). (DEDUCED, log 49) -/
def measOk (pl : List Byte) : Bool :=
  let n := beNat ((pl.drop 6).take 2)
  20 ≤ pl.length && beNat (pl.take 4) = 0x444D4631 && pl.getD 4 0 = 1 && 1 ≤ n && n ≤ 256 && pl.length = 20 + 12 * n
    && beNat (pl.drop (pl.length - 4)) = (crc32c (pl.take (pl.length - 4))).toNat

/-- The entries conditioned in order; answers the fields updated (R368, R369). (DEDUCED, log 49) -/
def State.measEntries (s : State) (c : StreamCfg) (capture : Nat) : List (List Byte) → NSet × State
  | [] => ([], s)
  | b :: r =>
    match measEntry c b with
    | none => (s.bump .fieldReject).measEntries c capture r
    | some (k, v) =>
      match s.conditionField k capture v with
      | (false, s) => s.measEntries c capture r
      | (true, s) => let (ks, s) := s.measEntries c capture r; (ks.ins k, s)

/-! ### Parameter sets -/

/-- The place of an array's elements in a SUBMIT's parameters, and their number (R390, R448); none for an array not submitted. (DEDUCED, log 52) -/
def Template.place (t : Template) (i : Nat) : Option (Nat × Nat) :=
  let sent (j : Nat) : Bool := !(t.arrays.getD j 0x80000000).getLsbD 31 && !t.generated.contains j
  let n (j : Nat) : Nat := t.arrayElems.getD j 0
  if sent i then some ((((List.range i).filter sent).map (fun j => n j * (t.fmt.bits / 8))).sum, n i) else none

/-- Bytes put over a list. -/
def overlay (bs : List Byte) (at' : Nat) (x : List Byte) : List Byte := bs.take at' ++ x ++ bs.drop (at' + x.length)

/-- A field's xf as it can be read at a moment (R369). (DEDUCED, log 49) -/
def FieldSt.readable (f : FieldSt) (now : Nat) : Dword := ((f.hist.find? (fun h => h.2.2 ≤ now)).map Prod.fst).getD 0

/-- An item's values at a moment (R389): the xf of its fields or the tile means of its stream's last completed frame. (DEDUCED, log 52) -/
def State.itemVals (s : State) (now : Nat) (i : PsetItem) : List Val :=
  match i.src with
  | .fields a n => (List.range n).map (fun k => valOf ((s.field (a + k)).readable now))
  | .tiles n => (s.stream n).means.map (fun w => Machine.decode .fp32 0 w.toNat)

/-- A set's parameters at a moment (R390); elements no item covers are free values. (DEDUCED, log 52) -/
def State.psetParams (s : State) (now : Nat) (t : Template) (items : List PsetItem) : List Byte × State :=
  let n := t.paramBytes
  let w := t.fmt.bits / 8
  let (fv, s) := s.takeFree (8 * n)
  (items.foldl (fun bs i =>
    match t.place i.array with
    | none => bs
    | some (at', len) =>
      let vs := (s.itemVals now i).take (len - i.elem)
      overlay bs (at' + i.elem * w) (vs.flatMap (fun v => beBytes w (Machine.encode t.fmt 0 false .rte v).1))) (beBytes n fv.toNat), s)

/-- An item's marks (R391): corrupt, concealed. -/
def State.itemMarks (s : State) (b : Nat) (i : PsetItem) : Bool × Bool :=
  match i.src with
  | .fields a n => ((List.range n).any (fun k => s.fieldOut (a + k)), false)
  | .tiles n =>
    let x := s.stream n
    let fresh := ((s.ingest.fired.getD b []).getD n 0) < x.done
    let max := ((s.streamCfg n).getD {}).concealMax
    (!fresh || x.noRef || max < x.conceal, 0 < x.conceal)

/-- One binding fires at a moment (R390, R391). (DEDUCED, log 52) -/
def State.fire (s : State) (now b capture : Nat) (c : PsetCfg) : State :=
  let marks := c.items.map (s.itemMarks b)
  let quality := if marks.any Prod.fst then 2 else if marks.any Prod.snd then 1 else 0
  match s.queueCfg c.queue with
  | none => s.bump .psetDrop
  | some q =>
    let (ps, s) := s.psetParams now (s.queueCat q).tmpl c.items
    let x : PsetSt := { binding := b, firing := s.ingest.firing, params := ps, quality := quality,
                        deadline := (capture + c.deadlineOfs) % 2 ^ 64,
                        tag := BitVec.ofNat 32 (b % 64 * 2 ^ 26 + capture / 2 ^ 10 % 2 ^ 26) }
    let seen : SMap Nat := c.items.foldl (fun m i => match i.src with
      | .tiles n => SMap.put m n (s.stream n).done
      | .fields .. => m) []
    s.onIngest (fun g => { g with psets := g.psets ++ [x], fired := g.fired.put b seen })

/-- A stream has completed a frame at a moment: the bindings it triggers fire in ascending number (R390, R392). (DEDUCED, log 52) -/
def State.fireAll (s : State) (now n capture : Nat) : State :=
  match s.sec.image with
  | none => s
  | some im =>
    let s := s.onIngest (fun g => { g with firing := g.firing + 1 })
    (im.psets.filter (fun b => b.2.trigger = n)).foldl (fun s b => s.fire now b.1 capture b.2) s

/-- PARAMETER_SET_HANDOVER (R390, R392): a set handed to the queue manager, accepted or dropped. (DEDUCED, log 52) -/
def execParameterSetHandover (b : Fin 64) (s : State) : Host.Outcome State Fault Refusal :=
  .next (
    match s.ingest.psets.find? (fun x => x.binding = b.val) with
    | none => s
    | some x =>
      if !s.ingestRuns || s.ingest.psets.any (fun y => y.firing = x.firing && y.binding < x.binding) then s
      else
        let s := s.onIngest (fun g => { g with psets := g.psets.filter (fun y => !(y.binding = x.binding && y.firing = x.firing)) })
        match s.sec.image.bind (fun im => SMap.get im.psets x.binding) with
        | none => s.bump .psetDrop
        | some c =>
          match s.queueCfg c.queue with
          | none => s.bump .psetDrop
          | some q =>
            if !s.qmgrReady || (s.queue c.queue).state ≠ .opened || (s.refuseJob c.queue q x.params.length).isSome then s.bump .psetDrop
            else s.newJob c.queue q (s.queue c.queue).opener x.tag x.deadline s.tide64 x.quality x.params [])

/-- A measurement frame parsed (R362-R369): its time-stamp is that of the command's cycle, and its parse starts in the cycle after the last of its
`wire` bytes has passed the medium boundary (R364). Its fields are readable 400 ns later, and the bindings that it triggers fire then. (DEDUCED, log 49) -/
def State.measFrame (s : State) (n : Nat) (c : StreamCfg) (pl : List Byte) (wire : Nat) : State :=
  if !measOk pl then s.bump (.drop n)
  else
    let stamp := (s.rxStamp c.port / 4).toNat
    let given := beNat ((pl.drop 8).take 8)
    let valid := (pl.getD 5 0).getLsbD 0
    let future : Bool := valid && stamp < given
    let capture := if valid then (if future then stamp else given) else (stamp + 2 ^ 64 - (s.rw (.latComp n)).toNat) % 2 ^ 64
    let s := if future then (s.note (.ingestStatus n) (· ||| 2 ^ 28)).onStream n (fun x => { x with future := true }) else s
    let parse := stamp + wireNs (s.bport c.port).speed wire + 2
    let old : Bool := match (s.stream n).lastCapture with
      | none => false
      | some l => capture ≤ l
    if c.maxAge < parse - capture then s.bump (.stale n)
    else if old then s.bump (.drop n)
    else
      let s := s.onStream n (fun x => { x with lastCapture := some capture })
      let (ks, s) := s.measEntries c capture (chunk 12 256 ((pl.drop 16).take (pl.length - 20)))
      let ready := parse + 400
      let now := s.tide64
      let s := ks.foldl (fun s k => s.onField k (fun f =>
        { f with hist := (f.xf, capture, ready) :: f.hist.filter (fun h => now < h.2.2) ++ (f.hist.filter (fun h => h.2.2 ≤ now)).take 2 })) s
      s.fireAll ready n capture

/-- MEAS_FRAME (R366): the payload of an untagged IPv4 frame. (DEDUCED, log 49) -/
def execMeasFrame (n : Fin 32) (pl : List Byte) (s : State) : Host.Outcome State Fault Refusal :=
  .next (
    match s.streamCfg n.val with
    | none => s
    | some c => if s.ingestRuns && c.kind = .meas then s.measFrame n.val c pl (max 64 (pl.length + 46)) else s)

/-! ### Video frames -/

/-- Lines of a decoding unit: a precinct or a line (R376). (PRESUMED, log 50) -/
def StreamCfg.unitLines (c : StreamCfg) : Nat := if c.kind = .raw then 1 else 2

/-- Sample positions of a decoding unit's column: a line of a RAW stream has one (R387). -/
def StreamCfg.unitCols (c : StreamCfg) : Nat := if c.kind = .raw then c.width else min c.width (max 1 (Config.precinctWidth c))

/-- Precinct columns of a frame (R387). -/
def StreamCfg.cols (c : StreamCfg) : Nat := (c.width + c.unitCols - 1) / max 1 c.unitCols

/-- Units of a frame: row by row, and in a row column by column. (PRESUMED, log 50) -/
def StreamCfg.units (c : StreamCfg) : Nat := (c.height + c.unitLines - 1) / c.unitLines * c.cols

/-- The sample positions of a unit of a frame. -/
def StreamCfg.unitRect (c : StreamCfg) (u : Nat) : Rect :=
  let l := u / max 1 c.cols * c.unitLines
  let p := u % max 1 c.cols * c.unitCols
  { line := l, lines := min c.unitLines (c.height - l), pos := p, cols := min c.unitCols (c.width - p) }

/-- The positions of a rectangle, line by line. -/
def Rect.spots (r : Rect) : List (Nat × Nat) :=
  (List.range r.lines).flatMap (fun i => (List.range r.cols).map (fun k => (r.line + i, r.pos + k)))

/-- Component depth (R360). -/
def StreamCfg.bits (c : StreamCfg) : Nat := if c.kind = .raw then c.depth else if c.sampling = 2 then 12 else 10

/-- Units from `a` on, before `b`, marked damaged where no cause stands and they are not yet decoded. (PRESUMED, log 50) -/
def VFrame.damageRange (f : VFrame) (cause a b : Nat) : VFrame :=
  { f with damage := (List.range (b - a)).foldl (fun m i =>
      if f.next ≤ a + i && (SMap.get m (a + i)).isNone then SMap.put m (a + i) cause else m) f.damage }

/-- Damaged units at the front passed over; `n` bounds their number. -/
def VFrame.skip : Nat → VFrame → VFrame
  | 0, f => f
  | n + 1, f => if (SMap.get f.damage f.next).isSome then VFrame.skip n { f with next := f.next + 1 } else f

/-- Bytes of RXBUF a stream's frames take. -/
def StreamSt.used (x : StreamSt) : Nat :=
  (x.frames.map (fun f => ((f.chunks.filter (fun c => f.next ≤ c.1)).map (fun c => c.2.length)).sum)).sum

/-- The last frame of a stream changed. -/
def onLast (f : VFrame → VFrame) : List VFrame → List VFrame
  | [] => []
  | [x] => [f x]
  | x :: y :: r => x :: onLast f (y :: r)

/-- The unit that follows a packet's bytes. -/
def spanAfter (p : RtpSpan) : Nat := if p.closes then p.last + 1 else p.last

/-- Where a packet's whole units begin: the unit after what was lost before it. -/
def spanStop (p : RtpSpan) : Nat := if p.opens then p.first else p.first + 1

/-- A packet's bytes in the frame that takes them (R375, R385), whose next byte was to be of unit `at'`: what a sequence gap or a header in error
hides is damaged, and the content of a packet that finds RXBUF full. (PRESUMED, log 50) -/
def VFrame.take (f : VFrame) (k : RtpPkt) (at' : Nat) (gap full : Bool) : VFrame :=
  let cause := if gap then 1 else 3
  match k.span with
  | none => { f.damageRange cause at' (at' + 1) with ended := k.marker }
  | some p =>
    let f := if gap || at' < p.first then f.damageRange cause at' (spanStop p) else f
    let f := if full then f.damageRange 2 p.first (p.last + 1) else { f with chunks := f.chunks ++ [(p.first, k.payload)] }
    { f with last := spanAfter p, ended := k.marker }

/-- An RTP packet of a video stream (R375): a new timestamp begins the next frame, a sequence gap damages the units from where the
previous packet ended to where this one begins, and a packet that finds RXBUF full is discarded. A packet older than the last is discarded. (PRESUMED, log 50) -/
def State.rtpPacket (s : State) (n : Nat) (c : StreamCfg) (k : RtpPkt) : State :=
  let x := s.stream n
  let ahead : Nat := match x.seq with
    | none => 0
    | some q => (k.seq - (q + 1)).toNat
  if 0x8000 ≤ ahead then s
  else
    let gap : Bool := 0 < ahead
    let same : Bool := x.ts = some k.ts
    let at' := if same then x.unit else 0
    let unit := (k.span.map spanAfter).getD at'
    if same && !x.takes then s.onStream n (fun x => { x with seq := some k.seq, unit := unit })
    else
      let stamp := (s.rxStamp c.port / 4).toNat
      let fresh : VFrame := { ts := k.ts, capture := (stamp + 2 ^ 64 - (s.rw (.latComp n)).toNat) % 2 ^ 64 }
      let frames :=
        if same then x.frames
        else (if gap && x.takes then onLast (fun f => f.damageRange 1 x.unit c.units) x.frames else x.frames) ++ [fresh]
      let full : Bool := c.rxbuf < ({ x with frames := frames } : StreamSt).used + k.payload.length
      let frames := onLast (fun f => f.take k at' gap full) frames
      s.onStream n (fun x => { x with frames := frames, ts := some k.ts, takes := !k.marker, seq := some k.seq, unit := unit })

/-- A datagram of a video stream whose RTP header is in error (R385): the unit that was to come next is damaged. (PRESUMED, log 50) -/
def State.rtpBad (s : State) (n : Nat) : State :=
  s.onStream n (fun x => if x.takes then { x with frames := onLast (fun f => f.damageRange 3 x.unit (x.unit + 1)) x.frames } else x)

/-- RTP_PACKET (R361, R375). -/
def execRtpPacket (n : Fin 32) (k : RtpPkt) (s : State) : Host.Outcome State Fault Refusal :=
  .next (
    match s.streamCfg n.val with
    | none => s
    | some c =>
      if s.ingestRuns && c.kind ≠ .meas && (!c.ssrcCheck || k.ssrc = c.ssrc) then s.rtpPacket n.val c k else s)

/-! ### The reference -/

/-- The scale of a REF_ID (R382). -/
def State.refScale (s : State) (id : Nat) : Nat := (s.sec.image.map (fun im => SMap.getD im.refScale id 1)).getD 1

/-- The reference a stream's frames take now (R383): the raster and the serial number of its load. -/
def State.refNow (s : State) (c : StreamCfg) : Option (Nat × Nat) :=
  match s.ingest.active, c.refId with
  | some k, some id =>
    match SMap.get s.ingest.refs (k * 8 + id) with
    | none => none
    | some r => if r.ready then some (k * 8 + id, r.gen) else none
  | _, _ => none

/-- The address of a raster's byte, counted in storage order. -/
def State.refAddr (s : State) (key : Nat) (r : RefSt) (i : Nat) : Nat :=
  match s.sec.image with
  | none => 0
  | some im => im.refBase + (key / 8 * im.refPages + r.pages.getD (i / 4096) 0) * 4096 + i % 4096

/-- A byte of HyperRAM as its page holds it; 0 where no memory is, which no comparison takes (R384). (DEDUCED, log 51) -/
def State.hyperByte (s : State) (a : Nat) : Byte :=
  match s.pageAt a with
  | none => 0
  | some (c, page) => (s.readPage c page).1.getD (a % 4096) 0

/-- The components of a reference position (R382): two bytes hold Y and, of each pair of positions, Cb and Cr; three hold all. -/
def State.refComps (s : State) (key : Nat) (r : RefSt) (b row pos : Nat) : List Int :=
  let at' (i : Nat) : Int := (s.hyperByte (s.refAddr key r (row * r.row + i))).toNat
  if b = 2 then [at' (pos * 2), at' (pos / 2 * 4 + 1), at' (min (pos / 2 * 4 + 3) (r.row - 1))]
  else [at' (pos * 3), at' (pos * 3 + 1), at' (pos * 3 + 2)]

/-- The pages of a raster's row. -/
def State.rowPages (s : State) (key : Nat) (r : RefSt) (row : Nat) : List Nat :=
  let a := row * r.row
  (List.range ((a + r.row - 1) / 4096 + 1 - a / 4096)).map (fun i => s.refAddr key r (a / 4096 * 4096 + i * 4096) / 4096)

/-- Bytes per position of a raster (R382): 3 for 4:4:4, 2 otherwise. -/
def StreamCfg.refBytes (c : StreamCfg) : Nat := if c.kind = .raw then (if c.sampling = 4 then 3 else 2) else if c.sampling = 2 then 3 else 2

/-- The co-located reference of a position (R381): the mean of its samples, scaled to the component depth. -/
def State.colocated (s : State) (c : StreamCfg) (key : Nat) (r : RefSt) (sc : Nat) (x : Spot) : List Rat :=
  let b := c.refBytes
  let pts : List (Nat × Nat) :=
    if sc = 2 then [(x.line / 2, x.pos / 2)]
    else if x.weight = 4 then
      ([(x.line, x.pos), (x.line, x.pos + 1), (x.line + 1, x.pos), (x.line + 1, x.pos + 1)]).filter (fun q => q.1 < c.height ∧ q.2 < c.width)
    else [(x.line, x.pos)]
  let comps := pts.map (fun q => s.refComps key r b q.1 q.2)
  (List.range 3).map (fun i => ((comps.map (fun l => l.getD i 0)).sum : Rat) / pts.length * (2 ^ (c.bits - 8) : Nat))

/-- A weighted sum grown. -/
def addSum (m : SMap (Rat × Nat)) (k : Nat) (d : Rat) (w : Nat) : SMap (Rat × Nat) :=
  let (a, b) := SMap.getD m k (0, 0)
  SMap.put m k (a + d * w, b + w)

/-- Tiles of a line (R381). -/
def StreamCfg.tiles (c : StreamCfg) : Nat := (c.width + c.tileW - 1) / c.tileW

/-- A decoded position compared with the reference (R381): keys are tile × 4 + component, and (block row × tiles + tile) × 4 +
component. -/
def State.compareSpot (s : State) (c : StreamCfg) (key : Nat) (r : RefSt) (sc : Nat) (f : VFrame) (x : Spot) : VFrame :=
  let ref := s.colocated c key r sc x
  let tile := x.pos / c.tileW
  let block := x.line / 256 * c.tiles + tile
  (List.range 3).foldl (fun f i =>
    let d : Rat := (x.comps.getD i 0 : Rat) - ref.getD i 0
    { f with tiles := addSum f.tiles (tile * 4 + i) d x.weight, blocks := addSum f.blocks (block * 4 + i) d x.weight }) f

/-- The reference pages of a unit's lines read (R384): each found poisoned is counted once in the frame. (DEDUCED, log 51) -/
def State.readRefPages (s : State) (f : VFrame) : List Nat → VFrame × State
  | [] => (f, s)
  | p :: r =>
    let ((_, bad), s') := s.fetchPage (p * 4096)
    if !bad then s'.readRefPages f r
    else if f.badPages.has p then s.readRefPages f r
    else (s'.bump .refPoison).readRefPages { f with badPages := f.badPages.ins p } r

/-- The reference of a frame, while its raster is the one the frame started with, with its scale. -/
def State.refOf (s : State) (f : VFrame) : Option (Nat × RefSt × Nat) :=
  match f.ref with
  | none => none
  | some (key, gen) =>
    match SMap.get s.ingest.refs key with
    | none => none
    | some r => if r.gen = gen then some (key, r, s.refScale (key % 8)) else none

/-- The decoded positions of a unit in the frame's statistics (R381, R384). -/
def State.compareUnit (s : State) (c : StreamCfg) (f : VFrame) (xs : List Spot) : VFrame × State :=
  match s.refOf f with
  | none => (f, s)
  | some (key, r, sc) =>
        let rows := ((xs.flatMap (fun x => [x.line / sc, (if x.weight = 4 then x.line + 1 else x.line) / sc])).filter (fun k => k < r.rows)).dedup
        let (f, s) := s.readRefPages f (rows.flatMap (s.rowPages key r)).dedup
        let good (x : Spot) : Bool :=
          ((s.rowPages key r (x.line / sc)) ++ (if x.weight = 4 then s.rowPages key r (min (r.rows - 1) ((x.line + 1) / sc)) else [])).all (fun p => !f.badPages.has p)
        ((xs.filter good).foldl (fun f x => s.compareSpot c key r sc f x) f, s)

/-! ### Completion -/

/-- A mean in FP32 (R381). -/
def meanFp32 (q : Rat × Nat) : Word :=
  let m := if q.2 = 0 then (0 : Rat) else q.1 / q.2
  BitVec.ofNat 32 (Machine.encode .fp32 0 false .rte (divV (Val.ofInt m.num) (Val.ofInt m.den)).1).1

/-- A mean difference above FIND_THRESH (R378); none exceeds an infinite one. -/
def StreamCfg.exceeds (c : StreamCfg) (d : Rat) : Bool :=
  match Machine.decode .fp32 0 c.findThresh.toNat with
  | .fin n m e => ratOf (.fin n m e) < d
  | _ => false

/-- The largest absolute mean difference of a block (R378). -/
def VFrame.blockDev (f : VFrame) (block : Nat) : Rat :=
  (List.range 3).foldl (fun a i =>
    let (x, w) := SMap.getD f.blocks (block * 4 + i) (0, 0)
    let m := if w = 0 then (0 : Rat) else x / w
    max a (if m < 0 then -m else m)) 0

/-- Adjacent findings of a block row merged (R378): first tile, tiles, largest deviation. -/
def mergeTiles : List (Nat × Rat) → List (Nat × Nat × Rat)
  | [] => []
  | (t, d) :: r =>
    match mergeTiles r with
    | [] => [(t, 1, d)]
    | (t', n, d') :: q => if t + 1 = t' then (t, n + 1, max d d') :: q else (t, 1, d) :: (t', n, d') :: q

/-- A region enlarged, widened to even coordinates and clipped (R379). (DEDUCED, log 51) -/
def StreamCfg.enlarge (c : StreamCfg) (r : Rect) : Rect :=
  let down (x : Nat) : Nat := (x - c.roiMargin) / 2 * 2
  let up (x max : Nat) : Nat := min max ((x + c.roiMargin + 1) / 2 * 2)
  let l := down r.line
  let p := down r.pos
  { line := l, lines := up (r.line + r.lines) c.height - l, pos := p, cols := up (r.pos + r.cols) c.width - p }

/-- The regions of interest a frame leaves (R378, R379). (DEDUCED, log 51) -/
def findings (c : StreamCfg) (f : VFrame) : List Rect :=
  let rows := (c.height + 255) / 256
  let all : List (Rect × Rat) := (List.range rows).flatMap (fun r =>
    let hits := (List.range c.tiles).filterMap (fun t =>
      let d := f.blockDev (r * c.tiles + t)
      if c.exceeds d then some (t, d) else none)
    (mergeTiles hits).map (fun (t, n, d) =>
      ({ line := r * 256, lines := min 256 (c.height - r * 256), pos := t * c.tileW, cols := min (n * c.tileW) (c.width - t * c.tileW) }, d)))
  let le (a b : Rect × Rat) : Bool :=
    b.2 < a.2 || (a.2 = b.2 && (a.1.line < b.1.line || (a.1.line = b.1.line && a.1.pos ≤ b.1.pos)))
  ((sortBy le all).take 256).map (fun x => c.enlarge x.1)

/-- An extent of damage (R387): its cause, first precinct row, rows, first precinct column and columns. -/
structure Extent where
  cause : Nat
  row : Nat
  rows : Nat
  col : Nat
  cols : Nat
  deriving DecidableEq, Repr

/-- Consecutive damaged units of one cause in a row, of frames of `w` columns. -/
def rowRuns (w : Nat) : SMap Nat → List Extent
  | [] => []
  | (u, k) :: r =>
    let e : Extent := { cause := k, row := u / w, rows := 1, col := u % w, cols := 1 }
    match rowRuns w r with
    | [] => [e]
    | x :: q => if x.cause = k ∧ x.row = e.row ∧ x.col = e.col + 1 then { e with cols := x.cols + 1 } :: q else e :: x :: q

/-- Whole rows of one cause that follow one another joined. -/
def joinRows (w : Nat) : List Extent → List Extent
  | [] => []
  | e :: r =>
    match joinRows w r with
    | [] => [e]
    | x :: q => if e.cause = x.cause ∧ e.cols = w ∧ x.cols = w ∧ e.row + e.rows = x.row then { e with rows := e.rows + x.rows } :: q else e :: x :: q

/-- Consecutive damaged units of one cause merged into extents (R387). (DEDUCED, log 51) -/
def extents (w : Nat) (m : SMap Nat) : List Extent := joinRows w (rowRuns (max 1 w) m)

/-- An INGEST_DAMAGE EVENT's body (R387, R450). -/
def damageBody (c : StreamCfg) (conceal capture : Nat) (es : List Extent) : List Byte :=
  let head := [if 16 < es.length then 1 else 0, BitVec.ofNat 8 (min 16 es.length)]
  head ++ beBytes 2 conceal ++ beBytes 4 0 ++ beBytes 8 capture
    ++ (es.take 16).flatMap (fun e =>
      [BitVec.ofNat 8 e.cause, 0] ++ beBytes 2 (e.row * c.unitLines)
        ++ beBytes 2 (min (e.rows * c.unitLines) (c.height - e.row * c.unitLines)) ++ beBytes 2 e.col ++ beBytes 2 e.cols ++ [0, 0])

/-- A stream's oldest frame leaves it; packets still to come for it are discarded (R375). -/
def StreamSt.leave (x : StreamSt) : StreamSt := { x with frames := x.frames.drop 1, takes := x.takes && 1 < x.frames.length }

/-- The value of a damaged position (R386): of the reference where its line has one, else of the line above it, else the middle of the range. (DEDUCED, log 51) -/
def State.concealAt (s : State) (c : StreamCfg) (f : VFrame) (ref : Option (Nat × RefSt × Nat)) (line pos : Nat) : List Int :=
  let above := if line = 0 then none else SMap.get f.pic ((line - 1) * c.width + pos)
  let own := above.getD (List.replicate 3 (2 ^ (c.bits - 1)))
  match ref with
  | none => own
  | some (key, r, sc) =>
    if (s.rowPages key r (line / sc)).any (fun p => f.badPages.has p) then own
    else (s.refComps key r c.refBytes (line / sc) (pos / sc)).map (fun x => x * 2 ^ (c.bits - 8))

/-- One damaged unit concealed (R384, R386): the reference pages of its lines are read. (DEDUCED, log 51) -/
def State.concealUnit (s : State) (c : StreamCfg) (ref : Option (Nat × RefSt × Nat)) (f : VFrame) (u : Nat) : VFrame × State :=
  let rect := c.unitRect u
  let pages := match ref with
    | none => []
    | some (key, r, sc) => ((List.range rect.lines).flatMap (fun i => s.rowPages key r ((rect.line + i) / sc))).dedup
  let (f, s) := s.readRefPages f pages
  (rect.spots.foldl (fun f q => { f with pic := f.pic.put (q.1 * c.width + q.2) (s.concealAt c f ref q.1 q.2) }) f, s)

/-- Every damaged unit of a frame concealed, from the top (R386). -/
def State.concealAll (s : State) (c : StreamCfg) (f : VFrame) : VFrame × State :=
  f.damage.foldl (fun x d => x.2.concealUnit c (s.refOf f) x.1 d.1) (f, s)

/-- A video frame completes (R378-R391): damage concealed, means, findings, the damage report, and the bindings it triggers. (DEDUCED, log 51) -/
def State.completeFrame (s : State) (n : Nat) (c : StreamCfg) (f : VFrame) : State :=
  let (f, s) := s.concealAll c f
  let lost := (f.damage.map (fun d => (c.unitRect d.1).lines * (c.unitRect d.1).cols)).sum
  let conceal := (1000 * lost + c.width * c.height - 1) / (c.width * c.height)
  let means := if f.ref.isNone then [] else
    (List.range c.tiles).flatMap (fun t => (List.range 3).map (fun i => meanFp32 (SMap.getD f.tiles (t * 4 + i) (0, 0))))
  let roi := if f.ref.isSome && c.kind = .jxs then findings c f else []
  let s := s.onStream n (fun x => { x.leave with pic := f.pic, means := means, conceal := conceal, noRef := f.ref.isNone, ref := f.ref, roi := roi,
                                                 done := x.done + 1 })
  let es := extents c.cols f.damage
  let s := if es.isEmpty then s else
    es.foldl (fun s _ => s.bump (.damage n)) (s.event 8 n (damageBody c conceal f.capture es))
  s.fireAll s.tide64 n f.capture

/-- A frame abandoned for a cause (R373, R377): every undecoded unit is damaged, the frame is counted late and completes. (DEDUCED, log 51) -/
def State.abandon (s : State) (n : Nat) (c : StreamCfg) (f : VFrame) (cause : Nat) : State :=
  (s.bump (.late n)).completeFrame n c (f.damageRange cause f.next c.units)

/-- A position lies in a region of interest. -/
def inRoi (roi : List Rect) (line pos : Nat) : Bool :=
  roi.any (fun r => r.line ≤ line ∧ line < r.line + r.lines ∧ r.pos ≤ pos ∧ pos < r.pos + r.cols)

/-- The decoded positions of a unit (R379, R380): every position of a RAW stream and of a region of interest at full resolution, and of the rest
one of weight 4 for each 2 × 2 positions. (DEDUCED, log 51) -/
def StreamCfg.unitSpots (c : StreamCfg) (roi : List Rect) (chunks : List (Nat × List Byte)) (u : Nat) : List Spot :=
  let comps (q : Nat × Nat) (w : Nat) : List Int :=
    (List.range 3).map (fun k => (min (Config.decoded c chunks u q.1 q.2 w k) (2 ^ c.bits - 1) : Nat))
  (c.unitRect u).spots.filterMap (fun q =>
    if c.kind = .raw || inRoi roi q.1 q.2 then some { line := q.1, pos := q.2, weight := 1, comps := comps q 1 }
    else if q.1 % 2 = 0 ∧ q.2 % 2 = 0 then some { line := q.1, pos := q.2, weight := 4, comps := comps q 4 }
    else none)

/-- A unit decoded (R373, R374, R376). -/
def decodeUnit (c : StreamCfg) (roi : List Rect) (chunks : List (Nat × List Byte)) (u : Nat) : DecodeOut :=
  if Config.unitError c chunks u then .syntaxError else .spots (c.unitSpots roi chunks u)

/-- NCLK cycles a stream's slots take for a unit (R376): costs in quarters of a full-resolution position. -/
def unitCycles (c : StreamCfg) (roi : List Rect) (full : Bool) (u : Nat) : Nat :=
  let cost := ((c.unitRect u).spots.map (fun q => if full || inRoi roi q.1 q.2 then 4 else 1)).sum
  let rate := if c.kind = .raw then 8 else if c.sampling = 2 then 3 else 4
  (cost * 4 + rate * c.share - 1) / (rate * c.share)

/-- A frame's decode start (R364, R380, R383): its age checked, its reference and regions of interest fixed; none for a stale frame. -/
def State.startDecode (s : State) (n : Nat) (c : StreamCfg) (f : VFrame) : Option VFrame :=
  if f.started.isSome then some f
  else if c.maxAge < s.tide64 - f.capture then none
  else
    let x := s.stream n
    let ref := s.refNow c
    some { f with started := some s.nclk, ref := ref, roi := if ref.isSome && x.ref = ref && c.kind = .jxs then x.roi else [] }

/-- A stale frame dropped whole (R364). -/
def State.dropStale (s : State) (n : Nat) : State := (s.bump (.stale n)).onStream n StreamSt.leave

/-- The oldest frame put back. -/
def State.setFrame (s : State) (n : Nat) (f : VFrame) (busy : Nat) : State :=
  s.onStream n (fun x => { x with frames := f :: x.frames.drop 1, busy := busy })

/-- Whether what a frame's headers declare is what its stream accepts (R373, R374). -/
def StreamCfg.accepts (c : StreamCfg) (d : Declared) : Bool :=
  !d.interlaced && (if c.kind = .raw then d.sampling = c.sampling && d.depth = c.depth && d.width ≤ c.width
    else d.sampling = c.sampling && d.width = c.width && d.height = c.height)

/-- Decoded positions of a unit in the frame: a decimated one stands for 2 × 2 positions (R381). -/
def VFrame.draw (f : VFrame) (c : StreamCfg) (xs : List Spot) : VFrame :=
  { f with pic := xs.foldl (fun m x =>
      let r : Rect := { line := x.line, lines := if x.weight = 4 then min 2 (c.height - x.line) else 1, pos := x.pos,
                        cols := if x.weight = 4 then min 2 (c.width - x.pos) else 1 }
      r.spots.foldl (fun (m : SMap (List Int)) q => m.put (q.1 * c.width + q.2) x.comps) m) f.pic }

/-- Whether an NCLK count lies within a frame's decode budget (R377). (DEDUCED, log 51) -/
def VFrame.inBudget (f : VFrame) (c : StreamCfg) (t : Nat) : Bool :=
  match f.started with
  | none => true
  | some t0 => (t - t0) * 20 ≤ c.budget * 11

/-- PRECINCT_DECODE (R364, R373, R376, R381): the next unit of the stream's oldest frame, once it is received whole and its slots are
free. A unit whose decoding would outlast the frame's budget is still undecoded when the budget ends (R377). -/
def execPrecinctDecode (n : Fin 32) (s : State) : Host.Outcome State Fault Refusal :=
  .next (
    match s.streamCfg n.val, (s.stream n.val).frames with
    | some c, f0 :: _ =>
      let f := f0.skip c.units
      let u := f.next
      if !s.ingestRuns || c.units ≤ u || s.nclk < (s.stream n.val).busy || !(f.ended || u < f.last) || !f.inBudget c s.nclk then s
      else
        match s.startDecode n.val c f with
        | none => s.dropStale n.val
        | some f =>
          let busy := s.nclk + unitCycles c f.roi (c.kind = .raw) u
          if ((Config.declared c f.chunks).map c.accepts) = some false then
            ((s.note (.ingestStatus n.val) (· ||| 2 ^ 26)).onStream n.val (fun x => { x with unsupported := true })).abandon n.val c f 5
          else if !f.inBudget c busy then s.setFrame n.val f busy
          else match decodeUnit c f.roi f.chunks u with
          | .syntaxError => s.setFrame n.val { f.damageRange 3 u (u + 1) with next := u + 1 } busy
          | .spots xs => let (f, s) := s.compareUnit c f xs; s.setFrame n.val { f.draw c xs with next := u + 1 } busy
    | _, _ => s)

/-- DECODE_BUDGET_EXPIRY (R377). -/
def execDecodeBudgetExpiry (n : Fin 32) (s : State) : Host.Outcome State Fault Refusal :=
  .next (
    match s.streamCfg n.val, (s.stream n.val).frames with
    | some c, f :: _ =>
      match f.started with
      | none => s
      | some t => if s.ingestRuns && s.passed t c.budget && (f.skip c.units).next < c.units then s.abandon n.val c f 4 else s
    | _, _ => s)

/-- VIDEO_FRAME_COMPLETE (R377-R388): every unit of the oldest frame is decoded or damaged. A frame whose units are all damaged is
aged now. -/
def execVideoFrameComplete (n : Fin 32) (s : State) : Host.Outcome State Fault Refusal :=
  .next (
    match s.streamCfg n.val, (s.stream n.val).frames with
    | some c, f0 :: _ =>
      let f := f0.skip c.units
      if !s.ingestRuns || f.next < c.units || s.nclk < (s.stream n.val).busy then s
      else
        match s.startDecode n.val c f with
        | none => s.dropStale n.val
        | some f => s.completeFrame n.val c f
    | _, _ => s)

/-! ### Job slots -/

/-- INGEST_JOB_CTRL.ACTIVATE (R383). -/
def State.activateSlot (s : State) (sel : Bool) : State := s.onIngest (fun g => { g with active := some (if sel then 1 else 0) })

/-- INGEST_JOB_CTRL.CLEAR of the inactive slot (R383). -/
def State.clearSlot (s : State) (sel : Bool) : State :=
  let k := if sel then 1 else 0
  s.onIngest (fun g => { g with refs := g.refs.filter (fun r => r.1 / 8 ≠ k) })

end Sys2Proof.Machine
end

