-- ==== Sys2Proof/Machine/Pack.lean ====
section
/-!
DEFINITION. Model packs as they are pushed (R293-R295, R300): the header and layer table read from the body, and the checks that
refuse a pack.
-/

namespace Sys2Proof.Machine

/-- A little-endian field of a body. -/
def bodyNat (b : List Byte) (ofs n : Nat) : Nat := leNat ((b.drop ofs).take n)

/-- A layer record (R294). -/
def layerAt (b : List Byte) (o : Nat) : LayerRec :=
  { op := bodyNat b o 1, act := bodyNat b (o + 1) 1, src := bodyNat b (o + 2) 1, flags := bodyNat b (o + 3) 1,
    inW := bodyNat b (o + 4) 2, outW := bodyNat b (o + 6) 2, wFmt := BitVec.ofNat 16 (bodyNat b (o + 8) 2),
    start := bodyNat b (o + 10) 2, wOfs := bodyNat b (o + 12) 4, wBytes := bodyNat b (o + 16) 4, bOfs := bodyNat b (o + 20) 4,
    param := BitVec.ofNat 32 (bodyNat b (o + 24) 4) }

/-- An entry of the bound table (R293): VAL_BOUND then JAC_BOUND, each FP32. -/
def boundAt (b : List Byte) (o : Nat) : Word × Word := (BitVec.ofNat 32 (bodyNat b o 4), BitVec.ofNat 32 (bodyNat b (o + 4) 4))

/-- A model pack's header, layer table and bound table (R293, R294). -/
def parsePack (meas : BitVec 256) (b : List Byte) : ModelPack :=
  { meas := meas, magic := bodyNat b 0 4, version := bodyNat b 4 2, inDim := bodyNat b 8 2, outDim := bodyNat b 10 2,
    tangents := bodyNat b 12 1, kslices := bodyNat b 13 1, actFmt := BitVec.ofNat 16 (bodyNat b 14 2),
    tanFmt := BitVec.ofNat 16 (bodyNat b 16 2), weightOfs := bodyNat b 24 4, weightBytes := bodyNat b 28 4, boundOfs := bodyNat b 32 4,
    bounds := (List.range (bodyNat b 10 2)).map (fun i => boundAt b (bodyNat b 32 4 + 8 * i)),
    layers := (List.range (bodyNat b 6 2)).map (fun i => layerAt b (bodyNat b 20 4 + 32 * i)),
    pages := (b.length + 4095) / 4096 }

/-- A 16-bit or 8-bit floating format (R295). -/
def smallFloat (w : BitVec 16) : Bool :=
  match FSpec.ofBits w with
  | none => false
  | some f => match f.fmt with
    | .fp16 | .e8m7 | .e5m2 | .e4m3 | .e3m4 => true
    | _ => false

/-- A weight specifier DENSE may name (R295). -/
def weightFmt (w : BitVec 16) : Bool :=
  match FSpec.ofBits w with
  | none => false
  | some f => f.fmt.taOperand && f.fmt ≠ .fp32 && f.fmt ≠ .fx32 && f.fmt ≠ .s32

/-- The width of what SRC names: a layer's output or the model input (R294). -/
def srcWidth (m : ModelPack) (src : Nat) : Nat := if src = 0xFF then m.inDim else (m.layers.getD src default).outW
where default : LayerRec := { op := 0, act := 0, src := 0, flags := 0, inW := 0, outW := 0, wFmt := 0, start := 0, wOfs := 0,
                              wBytes := 0, bOfs := 0, param := 0 }

/-- A layer record's own fields (R294, R295, R300): `r31` is its reserved word. -/
def layerFieldsOk (l : LayerRec) (r31 : Nat) : Bool :=
  1 ≤ l.op && l.op ≤ 5 && l.act ≤ 7 && (l.op ≠ 5 || l.act = 0) && l.flags ≤ 1 && 1 ≤ l.inW && l.inW ≤ 4096 && 1 ≤ l.outW
    && l.outW ≤ 4096 && (if l.op = 1 then weightFmt l.wFmt else l.wFmt = 0) && (l.op = 2 || l.op = 3 || l.start = 0)
    && (l.act = 2 || l.op = 4 || l.param = 0) && r31 = 0

/-- A layer's widths and SRC among its neighbours (R295, R297). -/
def layerWidthsOk (m : ModelPack) (i : Nat) (l : LayerRec) (prev : Nat) : Bool :=
  let two := l.op = 2 || l.op = 3 || l.op = 5
  l.inW = prev && (!two || l.src = 0xFF || l.src < i)
    && (if l.op = 2 || l.op = 3 then l.outW = l.inW && l.start + l.outW ≤ srcWidth m l.src
        else if l.op = 4 then l.outW = l.inW
        else if l.op = 5 then l.outW = l.inW + srcWidth m l.src
        else true)

/-- The layers in order, each with the width before it. -/
def layersOk (m : ModelPack) (b : List Byte) : Nat → Nat → List LayerRec → Bool
  | _, prev, [] => prev = m.outDim
  | i, prev, l :: r =>
    layerFieldsOk l (bodyNat b (bodyNat b 20 4 + 32 * i + 28) 4) && layerWidthsOk m i l prev && layersOk m b (i + 1) l.outW r

/-- A pack's sections lie within it, and its layers' weights within the weight section (R293, R294). (DEDUCED, log 32) -/
def sectionsOk (m : ModelPack) (b : List Byte) : Bool :=
  bodyNat b 20 4 + 32 * m.layers.length ≤ b.length && m.weightOfs + m.weightBytes ≤ b.length && m.boundOfs + 8 * m.outDim ≤ b.length
    && m.layers.all (fun l => l.op ≠ 1 || l.wOfs + l.wBytes ≤ m.weightBytes)

/-- The checks of R295. (DEDUCED, log 32) -/
def packOk (m : ModelPack) (b : List Byte) : Bool :=
  let n := m.layers.length
  64 ≤ b.length && m.magic = 0x4D4F444C && m.version = 1 && 1 ≤ n && n ≤ 256 && 1 ≤ m.inDim && m.inDim ≤ 4096 && 1 ≤ m.outDim
    && m.outDim ≤ 4096 && m.tangents ≤ 32 && m.kslices ≤ 5 && smallFloat m.actFmt && smallFloat m.tanFmt && bodyNat b 18 2 = 0
    && bodyNat b 36 28 = 0 && sectionsOk m b && layersOk m b 0 m.inDim m.layers

end Sys2Proof.Machine
end

