-- ==== Sys2Proof/Machine/Rules.lean ====
section
/-!
DEFINITION. The rules a structure image must keep (R26, R129, R175, R212, R238, R255, R265, R282, R296, R307, R321, R326, R329, R347,
R360, R389, R393, R396 to R398, R401, R406, R412, R415, R436, R437, R547, R605), each with the reason its breach gives.
-/

namespace Sys2Proof.Machine

/-- Pairs of a list. -/
def pairsOf {α : Type} : List α → List (α × α)
  | [] => []
  | x :: r => r.map (fun y => (x, y)) ++ pairsOf r

/-! ### Pans and contexts -/

/-- No core in two pans, and logical cores only (R397). -/
def StructImage.pansOk (im : StructImage) : Bool :=
  let cores := im.pans.flatMap (fun p => p.2.cores)
  cores.Nodup && cores.all (fun c => c < 32)

/-- A slot table's length by its kind, and a slot owned by NONE or HRW (R129). -/
def slotTableOk (t : SlotTable) : Bool :=
  let n := if t.kind = 0 then 64 else if t.kind = 1 then 32 else if t.kind = 2 then 72 else 128
  t.owners.length = n && t.owners.any (fun o => o ≤ 1)

/-- A step program's header (R174, R175). -/
def StepProg.headerOk (h : StepProg) : Bool :=
  h.magic = 0x53505247 && h.version = 1 && 1 ≤ h.descCount && h.descCount ≤ 4096 && 1 ≤ h.slots && h.slots ≤ 256
    && 0 < h.slotSize && h.slotSize % 4096 = 0 && h.persOfs % 64 = 0 && h.persLen % 64 = 0 && h.persOfs + 2 * h.persLen ≤ h.slotSize

/-- Whether an area of so many bytes from an address of the executing core's scratchpad (R124) on lies in the share. -/
def CatEntry.holds (e : CatEntry) (base len : Nat) : Bool :=
  0x0C000000 + e.shareBase ≤ base && base + len ≤ 0x0C000000 + e.shareBase + e.shareLen && base + len ≤ 0x0C400000

/-- Its slot workspaces, descriptors and status area fit the share (R174, R175), none of them over another. (DEDUCED, log 32) -/
def StepProg.fitsShare (h : StepProg) (e : CatEntry) : Bool :=
  let areas := [(h.slotBase, h.slots * h.slotSize), (0x0C000000 + e.shareBase + h.descOfs, h.bytes), (h.statusBase, h.statusBytes)]
  areas.all (fun a => e.holds a.1 a.2) && (pairsOf areas).all (fun q => q.1.1 + q.1.2 ≤ q.2.1 || q.2.1 + q.2.2 ≤ q.1.1)

/-- The dimensions, method and form of a context (R211, R212). -/
def Template.limitsOk (t : Template) (spanning : Bool) : Bool :=
  let a := t.dim0
  let b := t.dim1
  match t.cls with
  | 0 => if spanning then a ≤ 2048 && b ≤ 4096 && ((t.method = 0 && t.form = 0) || (t.method = 1 && t.form = 1))
         else a ≤ 256 && b ≤ 512 && t.method ≤ 1
  | 1 => !spanning && a ≤ 64 && b ≤ 48 && t.dim2 ≤ 24 && t.dim3 ≤ 64 && t.method ≤ 1
  | 2 => !spanning && a ≤ 64 && b ≤ 48 && t.dim2 ≤ 24 && t.dim3 ≤ 64 && t.method ≤ 1
  | 3 => !spanning && a ≤ 128 && b ≤ 64 && t.method = 2
  | _ => false

/-- Bytes rounded up to whole lines. -/
def up64 (n : Nat) : Nat := (n + 63) / 64 * 64

/-- The unknowns and rows of the problem's QP form (R211): n and m of a QP, and those of its iterate in the structured classes. -/
def Template.order (t : Template) : Nat × Nat := if t.cls = 0 then (t.dim0, t.dim1) else (t.xElems, t.yElems)

/-- The arrays and the iterate of a class have the sizes that its dimensions give them (R214, R215): P, q, A, l, u, x and y of a QP, on a pan all ranks'
parts together; x₀ or x̄₀ and every stage's states and inputs of the stage-wise classes; and x, P, y and R of an EKF. -/
def Template.sizesOk (t : Template) (w : Nat) : Bool :=
  let el (i : Nat) : Nat := t.arrayElems.getD i 0
  let n := t.dim0
  let m := t.dim1
  match t.cls with
  | 0 =>
    let need := [(el 0, n * n), (el 1, n), (el 2, m * n), (el 3, m), (el 4, m), (t.xElems, n), (t.yElems, m)]
    if w = 1 then need.all (fun x => x.1 = x.2) else need.all (fun x => x.2 ≤ w * x.1)
  | 3 => el 0 = n && el 1 = n * n && el 3 = m && el 5 = m * m && t.xElems = n && t.extraElems = n * n
  | _ => el 0 = m && t.xElems = n * (m + t.dim2) + m

/-- Bytes of the KKT matrix with its factor, and the order of the system it solves, on one of `w` cores (R215): dense of order n_K and spread
evenly over the cores, in the FULL form for ADMM (R229), the blocks of every stage in the STAGED form (R224), or the S of an EKF in FP64 (R249). (DEDUCED, log 32) -/
def Template.kkt (t : Template) (w : Nat) : Nat × Nat :=
  let stage := t.dim1 * t.dim1 + t.dim2 * t.dim2 + t.dim1 * t.dim2
  if t.cls = 3 then (8 * t.dim1 * t.dim1, t.dim1)
  else if t.form = 2 && t.method ≠ 1 then (4 * (t.dim0 * stage + t.dim1 * t.dim1), t.dim0 * (t.dim1 + t.dim2) + t.dim1)
  else
    let (n, m) := t.order
    let nk := if t.form = 0 && t.method ≠ 1 then n else n + m
    ((4 * nk * nk + w - 1) / max 1 w, nk / max 1 w)

/-- Bytes of the iterate (R215): x with its slacks and duals, or with zc and y for ADMM; x and P of an EKF. -/
def Template.iterBytes (t : Template) : Nat :=
  4 * (t.xElems + (if t.method = 2 then t.extraElems else if t.method = 1 then 2 * t.yElems else 4 * t.yElems))

/-- The areas of a slot of an instance on `w` cores (R215), with its persistent part counted twice; the other classes follow the pattern of a QP. (DEDUCED, log 32) -/
def Template.slotNeed (t : Template) (w : Nat) : Nat :=
  let own := (t.submitted.map Prod.snd).sum
  let made := (t.generated.map (fun i => t.arrayElems.getD i 0)).sum
  let (kkt, nk) := t.kkt w
  let pers := up64 t.iterBytes + 64 + (if t.method = 1 then up64 kkt else 0)
  128 + 64 + up64 (t.fmt.bits / 8 * own) + up64 (t.fmt.bits / 8 * made) + up64 (4 * (own + made)) + 2 * pers
    + (if t.method = 1 then 0 else up64 kkt) + (if t.method = 2 then 0 else up64 (96 * nk + 8 * (t.xElems + 4 * t.yElems)))

/-- The places of a slot's areas (R215): on 64-byte boundaries, inside the slot, the persistent ones inside the persistent part and the tolerance
block outside it. -/
def Template.placesOk (t : Template) (h : StepProg) : Bool :=
  let pers (ofs len : Nat) : Bool := h.persOfs ≤ ofs && ofs + len ≤ h.persOfs + h.persLen
  [t.tolOfs, t.certOfs, t.iterOfs, t.paramOfs].all (fun o => o % 64 = 0)
    && 0x80 ≤ t.tolOfs && t.tolOfs + 64 ≤ h.slotSize && (t.tolOfs + 64 ≤ h.persOfs || h.persOfs + 2 * h.persLen ≤ t.tolOfs)
    && pers t.certOfs 64 && pers t.iterOfs t.iterBytes && t.submitted.all (fun x => x.1.toNat + x.2 * (t.fmt.bits / 8) ≤ h.slotSize)

/-- A context's workspace fits with one slot per core (R212, R215). -/
def CatEntry.workspaceOk (e : CatEntry) : Bool :=
  e.tmpl.sizesOk (if e.spanning then e.width else 1) && e.progs.all (fun h => h.slotSize ≤ e.shareLen && e.tmpl.slotNeed (if e.spanning then e.width else 1) ≤ h.slotSize && e.tmpl.placesOk h)

/-- The longest boundary an image must budget (R199, R265). -/
def CatEntry.boundaryMin (e : CatEntry) : Nat :=
  let param := e.tmpl.submitted.map (fun x => x.2 * (e.tmpl.fmt.bits / 8))
  let commit := (e.progs.map (fun h => (h.slots * h.persLen / 64 + 15) / 16)).foldl max 0
  let lines := (e.progs.map (fun h => 3 + (param.sum + 63) / 64 + h.persLen / 64)).foldl max 0
  64 + commit + e.admitMax * lines

/-- A shard group (R307); the packs already stored are held against it. -/
def CatEntry.groupOk (e : CatEntry) (packs : List ModelPack) : Bool :=
  [1, 2, 4, 8, 16, 32].contains e.group && e.width % e.group = 0
    && (packs.filter (fun m => e.packs.contains m.meas)).all (fun m => e.group ≤ 2 ^ m.kslices)

/-- Static placements of a slice-table entry on different cores (R401): index i of a mask names catalogue entry i. -/
def PanCfg.staticOk (p : PanCfg) : Bool :=
  p.slices.all (fun x =>
    let named := (List.range 8).filter (fun i => x.mask.getLsbD i)
    (pairsOf (named.filterMap (fun i => (p.catalog[i]?).bind CatEntry.static))).all (fun q => q.1.all (fun c => !q.2.contains c)))

/-- The catalogue entries of a pan, with those that its degraded placements compile anew (R396, R516). -/
def PanCfg.entries (p : PanCfg) : List CatEntry := p.catalog ++ p.degraded.flatMap (fun d => d.entries.map Prod.snd)

/-- The slots of ranks that take turns on a core lie apart, and so do their step programs (R174, R176, R516). (DESIGN CHOICE, log 53) -/
def CatEntry.turnsOk (e : CatEntry) : Bool :=
  (pairsOf (rankCores (e.static.getD []))).all (fun q => q.1.1 ≠ q.2.1 || (
    let a := e.progs.getD q.1.2 {}
    let b := e.progs.getD q.2.2 {}
    let apart (x n y m : Nat) : Bool := x + n ≤ y || y + m ≤ x
    apart (a.slotBase % 0x400000) (a.slots * a.slotSize) (b.slotBase % 0x400000) (b.slots * b.slotSize)
      && apart a.descOfs a.bytes b.descOfs b.bytes))

/-- Placements of a pan's contexts: a static one names W distinct cores of the pan (R397, R398, R401). A degraded one keeps the width W of its catalogue
entry, and may name a core for several ranks, which run on it in turn (R516). -/
def PanCfg.placesOk (p : PanCfg) : Bool :=
  let ok (w : Nat) (l : List Nat) : Bool := l.length = w && l.all (fun c => p.cores.contains c)
  p.catalog.all (fun e => match e.static with
    | none => true
    | some l => ok e.width l && l.Nodup)
    && p.degraded.all (fun d => d.entries.all (fun x => match p.catalog[x.1]? with
      | none => false
      | some e => x.2.width = e.width && x.2.static.any (ok e.width) && x.2.turnsOk))

/-- An RT pan of at most 4 cores (R412). -/
def PanCfg.rtOk (p : PanCfg) : Bool :=
  !p.rt || 4 < p.cores.length
    || ((p.cores.all (fun c => c / 8 = p.cores.headD 0 / 8)) && p.catalog.length = 1 && p.catalog.all (fun e => !e.streamOk)
        && p.slices.length = 1 && p.slices.all (fun x => x.mask.getLsbD 0))

/-- Bucket depths (R415). -/
def PanCfg.depthsOk (p : PanCfg) : Bool := 4 ≤ p.hbus.depth && 9 ≤ p.host.depth && 1 ≤ p.rmem.depth && 1 ≤ p.fabric.depth

/-! ### Queues -/

/-- A queue's catalogue entry. -/
def StructImage.entryOf (im : StructImage) (q : QueueCfg) : Option CatEntry := (SMap.get im.pans q.pan).bind (fun p => p.catalog[q.catalog]?)

/-- A tolerance block (R238): no NaN, no negative value, no infinity but in BIG. -/
def tolOk (t : List Dword) : Bool :=
  t.length = 8 && ((List.range 8).zip t).all (fun (i, w) =>
    let v := Machine.decode .fp64 0 w.toNat
    !v.isNan && (!v.neg || v.isZero) && (i = 7 || !v.isInf))

/-- A loop binding (R347). -/
def StructImage.bindOk (im : StructImage) (q : QueueCfg) : Bool :=
  q.loopBind.length ≤ 256 && q.loopBind.all (fun b =>
    match SMap.get im.loops b.loop with
    | none => false
    | some w => !w.spHost || (b.field ≠ .target && b.field ≠ .ffExt))

/-! ### Loops -/

/-- Loops of a pipeline. -/
def StructImage.onPipe (im : StructImage) (p : Nat) : List LoopCfg := (im.loops.filter (fun x => x.2.pipe = p)).map Prod.snd

/-- The sum of a pipeline's loop rates (R26). (DEDUCED, log 32) -/
def StructImage.ratesOk (im : StructImage) (p : Nat) : Bool :=
  decide (((im.onPipe p).map (fun w => (64000 : Rat) / w.mult)).sum ≤ 9821428)

/-- Two loops that can be due in the same slot of the same tick (R321). -/
def clash (a b : LoopCfg) : Bool := a.slot = b.slot && a.phase % Nat.gcd a.mult b.mult = b.phase % Nat.gcd a.mult b.mult

/-- A BX24 mantissa. -/
def mantOk (m : Mant) : Bool := -(2 ^ 23) ≤ m && m < 2 ^ 23

/-- A loop record's ranges (R326, R393). -/
def LoopCfg.rangesOk (w : LoopCfg) : Bool :=
  w.pipe ≤ 3 && w.slot ≤ 152 && 1 ≤ w.mult && w.mult ≤ 640 && w.phase < w.mult && (w.source.getD 0) ≤ 1023 && w.actCh ≤ 2047
    && w.group ≤ 4 && 1 ≤ w.timeout && w.timeout ≤ 65535 && 1 ≤ w.feTime && w.feTime ≤ 65535 && w.feAct ≤ 2
    && w.exp.length = 8 && w.cexp.length = 8 && (w.exp ++ w.cexp).all (fun e => e ≤ 0xFF) && w.exp.getD 7 0 ≠ 0xFF
    && ([w.feLimit, w.safeOut, w.initOut, w.alpha, w.lo, w.hi, w.rate, w.h, w.invH, w.snap, w.kv, w.ka, w.target, w.vmax, w.amax,
         w.jmax, w.outLo, w.outHi] ++ w.b ++ w.a ++ w.nn ++ w.nd).all mantOk

/-- The binary weights of the terms of each sum of the stages (R329); stage 1's are r − p, a with JMAX × H, and v or p with a or v times H (R334). -/
def LoopCfg.weights (w : LoopCfg) : List (List Int) :=
  let e (k : Nat) : Int := (w.exp.getD k 0 : Int) - 149
  let c (k : Nat) : Int := (w.cexp.getD k 0 : Int) - 149
  [[e 0, c 0 + e 0], [e 1, e 1 - 24], [e 1 - 24, e 1 + c 1], [e 1 - 24, e 1 - 24 + c 1], [e 1 - 24, e 0], [c 3 + e 2, c 3 + e 3],
   [e 4, c 5 + e 1 - 24, e 5]] ++ (if w.notch then [[c 4 + e 3, c 4 + e 4]] else [])

/-- No two weights of one sum differ by more than 2^48 (R329). (DEDUCED, log 48) -/
def LoopCfg.weightsOk (w : LoopCfg) : Bool := w.weights.all (fun l => (pairsOf l).all (fun q => (q.1 - q.2).natAbs ≤ 48))

/-- A leader's actuator channel has a destination (R393). -/
def StructImage.actOk (im : StructImage) (w : LoopCfg) : Bool :=
  w.group = 0 || (match SMap.get im.actDest w.actCh with
    | none => false
    | some d => (SMap.get im.dests d).isSome)

/-! ### Streams -/

/-- A stream binding's ranges (R360): those of WIDTH, HEIGHT, SAMPLING and DEPTH for video, those of the fields owned for MEAS. -/
def StreamCfg.rangesOk (c : StreamCfg) : Bool :=
  let th := Machine.decode .fp32 0 c.findThresh.toNat
  let video : Bool := c.kind ≠ .meas
  c.port ≤ 15 && 1 ≤ c.udpPort && c.udpPort ≤ 65535 && 1 ≤ c.share && c.share ≤ 16 && c.decoder ≤ 5
    && 1000 ≤ c.budget && c.budget ≤ 1000000000 && 1000 ≤ c.maxAge && c.maxAge ≤ 1000000000
    && 65536 ≤ c.rxbuf && c.rxbuf ≤ 6291456 && c.rxbuf % 65536 = 0 && (c.refId.getD 0) ≤ 7 && 1 ≤ c.tileW && c.tileW ≤ 256
    && !th.isNan && !th.neg && !th.isZero && c.roiMargin ≤ 255 && c.concealMax ≤ 1000
    && (!video || (1 ≤ c.width && c.width ≤ 32768 && 1 ≤ c.height && c.height ≤ 65535))
    && (c.kind ≠ .jxs || (c.sampling ≤ 2 && c.decoder ≤ 3))
    && (c.kind ≠ .raw || ((c.sampling = 3 || c.sampling = 4) && (c.depth = 8 || c.depth = 10 || c.depth = 12) && 4 ≤ c.decoder))
    && (video || (c.firstField ≤ 1023 && 1 ≤ c.fieldCount && c.fieldCount ≤ 1024))

/-- Two streams that the bridge could not tell apart (R360). -/
def sameEndpoint (a b : StreamCfg) : Bool :=
  a.port = b.port && a.udpPort = b.udpPort && (a.kind = .meas || b.kind = .meas || a.ssrc = b.ssrc)

/-- Two MEAS streams that own one field (R360). -/
def sameField (a b : StreamCfg) : Bool :=
  a.kind = .meas && b.kind = .meas && a.firstField < b.firstField + b.fieldCount && b.firstField < a.firstField + a.fieldCount

/-- The streams' rules (R360). -/
def StructImage.streamsOk (im : StructImage) : Bool :=
  let l := im.streams.map Prod.snd
  l.all StreamCfg.rangesOk && (pairsOf l).all (fun q => !sameEndpoint q.1 q.2 && !sameField q.1 q.2)
    && (l.map StreamCfg.rxbuf).sum ≤ 6291456
    && (List.range 6).all (fun d => ((l.filter (fun c => c.decoder = d)).map StreamCfg.share).sum ≤ 16)

/-! ### HyperRAM -/

/-- Pages of each of the image store's channels that the store takes (R544). -/
def storePages (mib chans : Nat) : Nat := (mib * 256 + chans - 1) / max chans 1

/-- A HyperRAM area meets the image store (R547). -/
def meetsStore (mib : Nat) (store : List Nat) (area : Nat × Nat) : Bool :=
  store.any (fun c =>
    let a := 0x40000000 + c * 0x4000000
    area.1 < a + storePages mib store.length * 4096 && a < area.1 + area.2)

/-- The HyperRAM areas an image allocates. (DEDUCED, log 32) -/
def StructImage.areas (im : StructImage) : List (Nat × Nat) :=
  im.hyperAreas ++ [(im.traceBase, im.tracePages * 4096), (im.refBase, 2 * im.refPages * 4096)]

/-- MiB of the image store. -/
def State.storeMib (s : State) : Nat := s.rwField .secStoreCfg 15 8 + s.rwField .secStoreCfg 7 0

/-! ### Counts and ranges -/

/-- A catalogue entry's scratchpad share lies within the 4 MiB of a core (R124, R399). (DEDUCED, log 32) -/
def CatEntry.shareOk (e : CatEntry) : Bool := e.shareBase + e.shareLen ≤ 0x400000

/-- A pan's counts and ranges: its cores, contexts, widths, packs and admissions (R265, R296, R396, R397, R398), and its slice
table (R406). DEDUCED, log 32: these rules give no reason of their own. (DEDUCED, log 32) -/
def PanCfg.countsOk (p : PanCfg) : Bool :=
  1 ≤ p.cores.length && p.catalog.length ≤ 32
    && p.entries.all (fun e => 1 ≤ e.width && e.width ≤ p.cores.length && e.packs.length ≤ 4 && e.shareOk
      && e.progs.all (fun h => 1 ≤ e.admitMax && e.admitMax ≤ h.slots))
    && 1 ≤ p.slices.length && p.slices.length ≤ 32 && p.slices.all (fun x => 1 ≤ x.lengthUs && x.lengthUs ≤ 65535)

/-- A parameter-set binding's ranges (R389). -/
def StructImage.psetOk (im : StructImage) (b : PsetCfg) : Bool :=
  (SMap.get im.queues b.queue).isSome && (SMap.get im.streams b.trigger).isSome
    && 20000 ≤ b.deadlineOfs && b.deadlineOfs ≤ 10000000000 && b.items.length ≤ 16

/-- A port's gate control list and stream filters with their stream gates (R436, R437). -/
def PortSched.countsOk (p : PortSched) : Bool :=
  p.gates.length ≤ 256 && p.gates.all (fun g => 16 ≤ g.2 && g.2 ≤ 1000000000)
    && (p.gates.map Prod.snd).sum ≤ 1000000000 && p.filters.length ≤ 64 && p.filters.all (fun x => x.gate.length ≤ 64)

/-- The counts and ranges of an image's tables (R360, R389, R393, R396, R397, R406, R435, R436). (DEDUCED, log 32) -/
def StructImage.countsOk (im : StructImage) : Bool :=
  im.pans.all (fun p => p.1 < 16 && p.2.countsOk) && im.streams.all (fun x => x.1 < 32)
    && im.psets.all (fun b => b.1 < 64 && im.psetOk b.2) && im.dests.length ≤ 256 && im.fwd.length ≤ 1024
    && im.ports.all (fun p => p.2.countsOk)

/-! ### All of them -/

/-- Every rule with its reason; the first that is broken gives it. A pipeline's capacity comes before its loops' own rules, so that an image beyond it is
refused with RESOURCES (R26, R321). -/
def State.imageRules (s : State) (im : StructImage) : List (Bool × Reason) :=
  let es := im.pans.flatMap (fun p => p.2.entries)
  let qs := im.queues.map Prod.snd
  let ws := im.loops.map Prod.snd
  let packs := s.sec.models.map Prod.snd
  let pipes : List Nat := [0, 1, 2, 3]
  [(im.countsOk && im.pansOk, .imageRejected),
   (im.slotTables.all slotTableOk && im.alternates.all (fun a => a.region < 4 && a.core < 8 && a.tables.all slotTableOk), .imageRejected),
   (im.formatDefaults.all (fun w => (FSpec.ofBits w).isSome), .imageRejected),
   (es.all (fun e => e.progs.all (fun h => h.headerOk && h.fitsShare e)), .imageRejected),
   (es.all (fun e => e.tmpl.limitsOk e.spanning && e.workspaceOk), .imageRejected),
   (es.all (fun e => e.boundaryMin ≤ e.boundaryBudget), .imageRejected),
   (es.all (fun e => e.groupOk packs), .imageRejected),
   (im.pans.all (fun p => p.2.placesOk && p.2.staticOk && p.2.rtOk), .imageRejected),
   (qs.all (fun q => (im.entryOf q).isSome && tolOk q.tol && im.bindOk q), .imageRejected),
   (qs.all (fun q => q.guard ≠ 2 || (match im.entryOf q with | none => false | some e => e.width ≠ 1)), .imageRejected),
   (pipes.all (fun p => (im.onPipe p).length ≤ 512 && im.ratesOk p), .resources),
   (ws.all (fun w => w.rangesOk && w.weightsOk && im.actOk w), .imageRejected),
   (pipes.all (fun p => (pairsOf (im.onPipe p)).all (fun q => !clash q.1 q.2)), .imageRejected),
   (im.streamsOk, .imageRejected),
   (im.areas.all (fun a => !meetsStore s.storeMib (s.sec.store.getD []) a), .imageRejected),
   ((im.pans.map (fun p => p.2.hbus.rate)).sum ≤ 12800, .resources),
   ((im.pans.map (fun p => p.2.host.rate)).sum ≤ 2500, .resources),
   (im.pans.all (fun p => p.2.depthsOk), .resources),
   (im.instKib + 512 ≤ 4096, .resources)]

/-- The reason of the first rule an image breaks. (DEDUCED, log 32) -/
def State.imageFault (s : State) (im : StructImage) : Option Reason := ((s.imageRules im).find? (fun r => !r.1)).map Prod.snd

end Sys2Proof.Machine
end

