-- ==== Sys2Proof/Machine/Store.lean ====
section
/-!
DEFINITION. Image transfers, containers, the image store, reference rasters and attestation (R382, R447, R537-R550).
-/

namespace Sys2Proof.Machine

/-! ### Transfers -/

/-- A transfer changed. -/
def State.putTransfer (s : State) (n : Nat) (t : Transfer) : State := { s with transfers := s.transfers.put n t }

/-- A transfer closed; its data are gone. -/
def State.dropTransfer (s : State) (n : Nat) : State := { s with transfers := s.transfers.del n }

/-- Whether the functions an image of a KIND uses are READY (R529, R541, R382): before SUP, KIND 0 only. (DEDUCED, log 32) -/
def State.kindReady (s : State) (kind : Nat) : Bool :=
  if kind = 1 ∨ kind = 2 then s.sup && s.hbusReady
  else if kind = 3 then s.sup && s.hbusReady && s.ingestReady
  else s.sup || kind = 0

/-- The channels of the image store: ready ones, a mirror pair once by its lower channel, which either of its two makes ready (R169, R544). -/
def State.storeChans (s : State) : List Nat :=
  (List.range 16).filter (fun c => s.chanUp c && !(s.mirrored c && 8 ≤ c))

/-- Whether the store fits its channels' data capacity (R544). (DEDUCED, log 32) -/
def State.storeFits (s : State) (chans : List Nat) : Bool :=
  !chans.isEmpty && chans.all (fun c => storePages s.storeMib chans.length * 4096 ≤ s.chanBytes c)

/-- The streams that take a REF_ID. -/
def State.refStreams (s : State) (id : Nat) : List StreamCfg :=
  match s.sec.image with
  | none => []
  | some im => (im.streams.filter (fun x => x.2.refId = some id)).map Prod.snd

/-- Pages, rows and bytes of a row of a REF_ID's raster (R382). -/
def State.rasterSize (s : State) (id : Nat) (c : StreamCfg) : Nat × Nat × Nat :=
  let k := s.refScale id
  let rows := (c.height + k - 1) / k
  let row := (c.width + k - 1) / k * c.refBytes
  ((rows * row + 4095) / 4096, rows, row)

/-- Pages of a job slot's area. -/
def State.refPages (s : State) : Nat := (s.sec.image.map StructImage.refPages).getD 0

/-- The other rasters of a job slot. -/
def State.otherRefs (s : State) (slot id : Nat) : List RefSt :=
  (s.ingest.refs.filter (fun r => r.1 / 8 = slot && r.1 % 8 ≠ id)).map Prod.snd

/-- The first so many pages from `at'` on, of the `n` that follow, that nothing holds. -/
def firstFree (used : List Nat) : (n at' need : Nat) → List Nat
  | _, _, 0 => []
  | 0, _, _ => []
  | n + 1, at', need + 1 =>
    if used.contains at' then firstFree used n (at' + 1) (need + 1) else at' :: firstFree used n (at' + 1) need

/-- The store pages that a container of a KIND takes for its body (R541, R544): of the structure store those that the applied image does not
hold, nor an image being applied, the pending image's last; of the model store the free ones. (DEDUCED, log 32) -/
def State.takePages (s : State) (kind total : Nat) : List Nat :=
  let need := (total - 0x2000 + 4095) / 4096
  let struct := s.rwField .secStoreCfg 15 8 * 256
  let applied := (s.sec.image.map StructImage.held).getD [] ++ (s.sec.applyImg.map StructImage.held).getD []
  let pending := (s.sec.pendingImg.map StructImage.held).getD []
  if kind = 1 then
    let a := firstFree (applied ++ pending) struct 0 need
    if need ≤ a.length then a else firstFree applied struct 0 need
  else if kind = 2 then
    firstFree (s.sec.models.flatMap (fun m => m.2.held) ++ s.transfers.flatMap (fun t => t.2.held)) (s.rwField .secStoreCfg 7 0 * 256) struct need
  else []

/-- Whether a TOTAL exceeds the space of its KIND (R382, R447, R541): a raster's is that of the smallest of its streams. -/
def State.spaceShort (s : State) (kind slot id total : Nat) : Bool :=
  let short (k : Nat) : Bool := (s.takePages k (total + 0x2000)).length < (total + 4095) / 4096
  match kind with
  | 0 => 12 * 2 ^ 20 < total
  | 1 => short 1
  | 2 => short 2 || 64 ≤ s.sec.models.length
  | _ =>
    let cs := s.refStreams id
    !cs.isEmpty && cs.all (fun c => s.refPages < (s.rasterSize id c).1 + ((s.otherRefs slot id).map (fun r => r.pages.length)).sum)

/-- A pending image whose pages a new transfer takes is freed. (DEDUCED, log 32) -/
def State.giveUp (s : State) (held : List Nat) : State :=
  if ((s.sec.pendingImg.map StructImage.held).getD []).any (fun i => held.contains i) then
    { s with sec := { s.sec with pendingImg := none } }
  else s

/-- IMAGE_BEGIN's own checks and effect (R382, R445, R447, R544). -/
def State.imageBegin (s : State) (h : SqpHdr) (kind slot id total : Nat) : State :=
  let n := h.number.toNat
  if 4 ≤ n || 3 < kind || (if kind = 3 then 1 < slot || 7 < id else slot ≠ 0 || id ≠ 0) then s.nak h .badLength
  else if (s.transfers.get n).isSome || (kind ≤ 1 && s.transfers.any (fun t => t.2.kind = kind)) then s.nak h .busy
  else if kind = 3 && s.ingest.active = some slot then s.nak h .busy
  else
    let stores := kind = 1 || kind = 2
    let chans := s.storeChans
    if s.spaceShort kind slot id total || (stores && s.sec.store.isNone && !s.storeFits chans) then s.nak h .resources
    else
      let s := if stores && s.sec.store.isNone then { s with sec := { s.sec with store := some chans } } else s
      let held := s.takePages kind total
      ((s.giveUp held).putTransfer n { kind := kind, slot := slot, refId := id, total := total, held := held }).nak h .ok

/-- Whether an IMAGE_BEGIN has the lock its KIND needs (R463). -/
def State.beginLock (s : State) (h : SqpHdr) (kind : Nat) : Bool := 2 ≤ kind || s.senderHolds 0 h

/-- IMAGE_BEGIN. -/
def execImageBegin (h : SqpHdr) (kind slot refId : Byte) (total : Word) (s : State) : Host.Outcome State Fault Refusal :=
  .next (s.lockedMessage h (some .image) (fun s => s.beginLock h kind.toNat) (fun s => s.kindReady kind.toNat) (lenIs h 8)
    (fun s => s.imageBegin h kind.toNat slot.toNat refId.toNat total.toNat))

/-- Whether the functions the addressed transfer uses are READY. -/
def State.transferReady (s : State) (h : SqpHdr) : Bool :=
  match s.transfers.get h.number.toNat with
  | none => true
  | some t => s.kindReady t.kind

/-- Bytes written into a transfer (R447). -/
def Transfer.write (t : Transfer) (ofs : Nat) (data : List Byte) : Transfer :=
  { t with data := ((List.range data.length).zip data).foldl (fun m x => SMap.put m (ofs + x.1) x.2) t.data }

/-- Bytes of a container's body written into its pages of the image store (R24, R544): bytes that the host has not written keep what the page
holds. (DEDUCED, log 32) -/
def State.writeBody (s : State) (t : Transfer) (ofs len : Nat) : State :=
  ((List.range t.held.length).zip t.held).foldl (fun s x =>
    let at' := 0x2000 + 4096 * x.1
    if at' < ofs + len && ofs < at' + 4096 then
      let (c, page) := s.storePlace x.2
      let old := (s.readPage c page).1
      s.writePage c page (((List.range 4096).zip old).map (fun y => (SMap.get t.data (at' + y.1)).getD y.2)) false
    else s) s

/-- IMAGE_DATA (R447, R541). -/
def State.imageData (s : State) (h : SqpHdr) (ofs : Nat) (data : List Byte) : State :=
  let n := h.number.toNat
  if 4 ≤ n then s.nak h .badLength
  else match s.transfers.get n with
    | none => s.nak h .windowRange
    | some t =>
      if t.ended.isSome then s.nak h .busy
      else if t.total < ofs + data.length then s.nak h .windowRange
      else
        let t := t.write ofs data
        let s := (s.putTransfer n t).writeBody t ofs data.length
        if h.ackReq then s.nak h .ok else s

/-- IMAGE_DATA. -/
def execImageData (h : SqpHdr) (ofs : Word) (data : List Byte) (s : State) : Host.Outcome State Fault Refusal :=
  .next (s.message h (some .image) (fun s => s.transferReady h) (lenIs h (4 + data.length)) (fun s => s.imageData h ofs.toNat data))

/-- IMAGE_END (R447, R540, R541): verification starts, and answers it when it ends. -/
def State.imageEnd (s : State) (h : SqpHdr) : State :=
  let n := h.number.toNat
  match if 4 ≤ n then none else s.transfers.get n with
    | none => s.nak h .badLength
    | some t =>
      if t.ended.isSome then s.nak h .busy
      else if t.data.length ≠ t.total then s.nak h .badLength
      else (s.putTransfer n { t with ended := some h }).deferAnswer h

/-- IMAGE_END. -/
def execImageEnd (h : SqpHdr) (s : State) : Host.Outcome State Fault Refusal :=
  .next (s.message h (some .image) (fun s => s.transferReady h) (lenIs h 0) (fun s => s.imageEnd h))

/-! ### Containers -/

/-- A slice of a container. -/
def part (b : List Byte) (ofs n : Nat) : List Byte := (b.drop ofs).take n

/-- Whether a slice is all zero. -/
def zeroAt (b : List Byte) (ofs n : Nat) : Bool := (part b ofs n).all (fun x => x = 0)

/-- SEC_OWNER_LOCK as the 16 bytes of OWNER_ID. -/
def State.ownerLock (s : State) : BitVec 128 :=
  BitVec.ofNat 128 (beNat (([0, 1, 2, 3] : List Nat).flatMap (fun k => beBytes 4 (s.rw (.ownerLock k)).toNat)))

/-- The hash of a byte string, as bytes. -/
def sha3Bytes (b : List Byte) : List Byte := hashBytes (sha3 b)

/-- A container as verification reads it: its header, and its body, which the image store gives back for KIND 1 and 2 (R24, R541), with
whether a page was delivered as poisoned. (DEDUCED, log 32) -/
def State.readContainer (s : State) (t : Transfer) : (List Byte × Bool) × State :=
  let all := t.data.map Prod.snd
  if t.held = [] then ((all, false), s)
  else
    let (x, s) := State.readStore t.held s
    (((all.take 0x2000) ++ x.1.take (t.total - 0x2000), x.2), s)

/-- The first check of R540 that a container fails, of checks 1 to 8. A body with a poisoned page has not the measurement it names. (DEDUCED, log 32) -/
def State.containerFault (s : State) (kind total : Nat) (b : List Byte) (bad : Bool) : Option Reason :=
  let cert := part b 0x560 3796
  let pk := part b 0x40 1312
  let role := bodyNat cert 6 1
  let checks : List (Bool × Reason) :=
    [(bodyNat b 0 4 = 0x44494D47 && bodyNat b 4 2 = 1 && bodyNat b 6 1 = kind && bodyNat b 0x10 4 + 0x2000 = total && zeroAt b 7 1
        && zeroAt b 0x0B 5 && zeroAt b 0x34 12 && zeroAt b 0x1DA8 600, .imageRejected),
     (bodyNat b 8 2 = 0x0C32 && bodyNat b 0x0A 1 = 0xB0, .imageRejected),
     (sha3 pk = Config.bootRootHash, .signatureInvalid),
     (bodyNat cert 0 4 = 0x44435254 && bodyNat cert 4 2 = 1 && role = (if kind = 0 then 0 else 1)
        && (bodyNat cert 0x20 2 = 0x0C32 || bodyNat cert 0x20 2 = 0xFFFF), .imageRejected),
     (mlDsaVerify pk (sha3Bytes (part cert 0 0x560)) (part cert 0x560 2420), .signatureInvalid),
     (kind = 0 || (!((s.sec.bundle.map Bundle.revoked).getD []).contains (BitVec.ofNat 64 (bodyNat cert 8 8))
        && (s.ownerLock = 0 || BitVec.ofNat 128 (beNat (part cert 0x10 16)) = s.ownerLock)), .signatureInvalid),
     (!bad && sha3 (b.drop 0x2000) = hashOf (part b 0x14 32), .signatureInvalid),
     (mlDsaVerify (part cert 0x40 1312) (sha3Bytes (part b 0 0x1434)) (part b 0x1434 2420), .signatureInvalid)]
  (checks.find? (fun c => !c.1)).map Prod.snd

/-- The lowest store index with no pack (R548). -/
def State.freeIndex (s : State) : Option Nat := (List.range 64).find? (fun i => (SMap.get s.sec.models i).isNone)

/-- Check 9 of R540 and what a verified container becomes (R542, R543, R546, R548): none where the check fails. (DEDUCED, log 32) -/
def State.acceptImage (s : State) (kind : Nat) (held : List Nat) (b : List Byte) : Option State :=
  let body := b.drop 0x2000
  let meas := hashOf (part b 0x14 32)
  match kind with
  | 0 =>
    match Config.parseBundle body with
    | none => none
    | some x =>
      if s.sec.bundle.isSome || 0x100000 < x.code.length || 0x40000 < x.tables.length then none
      else some { s with sec := { s.sec with bundle := some { x with meas := meas } } }
  | 1 =>
    match Config.parseStruct body with
    | none => none
    | some x =>
      let owner := BitVec.ofNat 128 (beNat (part b 0x570 16))
      some { s with sec := { s.sec with pendingImg := some { x with meas := meas, owner := owner, pages := held.length, held := held } } }
  | _ =>
    let m := { parsePack meas body with held := held }
    if !packOk m body then none
    else if s.sec.models.any (fun x => x.2.meas = meas) then some s
    else match s.freeIndex with
      | none => none
      | some i => some { s with sec := { s.sec with models := s.sec.models.put i m } }

/-- CONTAINER_VERIFICATION (R540, R541): the verification of a transfer of KIND 0, 1 or 2 ends, and answers its IMAGE_END. -/
def execContainerVerification (x : Fin 4) (s : State) : Host.Outcome State Fault Refusal :=
  .next (
    match s.transfers.get x.val with
    | none => s
    | some t =>
      match t.ended with
      | none => s
      | some h =>
        if s.inReset || t.kind = 3 then s
        else
          let (b, s) := (s.dropTransfer x.val).readContainer t
          match s.containerFault t.kind t.total b.1 b.2 with
          | some r => s.nak h r
          | none =>
            match s.acceptImage t.kind t.held b.1 with
            | none => s.nak h .imageRejected
            | some s => s.nak h .ok)

/-! ### References -/

/-- The pages of a job slot's area that a raster of so many pages takes: the lowest that no other raster holds (R382). (DEDUCED, log 51) -/
def State.freePages (s : State) (slot id pages : Nat) : List Nat :=
  firstFree ((s.otherRefs slot id).flatMap RefSt.pages) s.refPages 0 pages

/-- A raster's bytes written into its pages; a page where no memory is present takes none (R124). (DEDUCED, log 51) -/
def State.storeRaster (s : State) (key : Nat) (r : RefSt) (bs : List Byte) : State :=
  ((List.range r.pages.length).zip (chunk 4096 r.pages.length bs)).foldl (fun s x =>
    match s.pageAt (s.refAddr key r (x.1 * 4096)) with
    | none => s
    | some (c, page) => s.writePage c page (x.2 ++ List.replicate (4096 - x.2.length) 0) false) s

/-- A component at a depth stored in 8 bits, rounded half up (R382). -/
def store8 (bits : Nat) (x : Rat) : Byte := BitVec.ofNat 8 (min 255 (x / (2 ^ (bits - 8) : Nat) + 1 / 2).floor.toNat)

/-- The stored bytes of a raster, row by row (R382): of each position its components in turn, in two bytes Y and, of each pair of positions, Cb
and Cr. (DEDUCED, log 51) -/
def StreamCfg.refBody (c : StreamCfg) (scale : Nat) (b : List Byte) : List Byte :=
  let k := max 1 scale
  let byte (row pos comp : Nat) : Byte := store8 c.bits (Config.refSample c scale b row pos comp)
  (List.range ((c.height + k - 1) / k)).flatMap (fun row => (List.range ((c.width + k - 1) / k)).flatMap (fun pos =>
    if c.refBytes = 2 then [byte row pos 0, byte row pos (1 + pos % 2)] else [byte row pos 0, byte row pos 1, byte row pos 2]))

/-- A reference raster's codestream decoded for a stream (R382): what it declares and its stored bytes; none for a codestream in error. -/
def decodeReference (c : StreamCfg) (scale : Nat) (b : List Byte) : Option (Declared × List Byte) :=
  (Config.refDeclared c b).map (fun d => (d, c.refBody scale b))

/-- Whether a codestream meets R373 for a stream (R382): a RAW stream declares no profile. (DEDUCED, log 51) -/
def StreamCfg.acceptsRef (c : StreamCfg) (d : Declared) : Bool :=
  !d.interlaced && d.width = c.width && d.height = c.height && (c.kind = .raw || d.sampling = c.sampling)

/-- A raster's codestream decoded for the first stream of its REF_ID whose limits it meets (R373, R382). (DEDUCED, log 51) -/
def State.decodeRef (s : State) (id : Nat) (b : List Byte) : List StreamCfg → Option (StreamCfg × List Byte)
  | [] => none
  | c :: r =>
    match decodeReference c (s.refScale id) b with
    | some (d, bs) => if c.acceptsRef d then some (c, bs) else s.decodeRef id b r
    | none => s.decodeRef id b r

/-- REFERENCE_DECODE_DONE (R382): a raster pushed as KIND 3 is decoded, stored and ready, or refused. -/
def execReferenceDecodeDone (x : Fin 4) (s : State) : Host.Outcome State Fault Refusal :=
  .next (
    match s.transfers.get x.val with
    | none => s
    | some t =>
      match t.ended with
      | none => s
      | some h =>
        if s.inReset || t.kind ≠ 3 then s
        else
          let s := s.dropTransfer x.val
          if s.ingest.active = some t.slot then s.nak h .busy
          else
          match s.decodeRef t.refId (t.data.map Prod.snd) (s.refStreams t.refId), s.sec.image with
          | none, _ | _, none => s.nak h .imageRejected
          | some (c, bs), some _ =>
              let (need, rows, row) := s.rasterSize t.refId c
              let pages := s.freePages t.slot t.refId need
              if pages.length < need then s.nak h .resources
              else
                let r : RefSt := { pages := pages, rows := rows, row := row, gen := s.ingest.refGen, ready := true }
                let s := s.storeRaster (t.slot * 8 + t.refId) r bs
                (s.onIngest (fun g => { g with refs := g.refs.put (t.slot * 8 + t.refId) r, refGen := g.refGen + 1 })).nak h .ok)

/-! ### Attestation -/

/-- The evidence of ATTEST_RESP (R549, R550), with the random bytes of its signature. (DESIGN CHOICE, log 64) -/
def State.evidence (s : State) (nonce rnd : BitVec 256) : List Byte :=
  let signed := s.sec.idReady
  let packs := (s.sec.models.filter (fun m => !m.2.deleting)).map (fun m => m.2.meas)
  let flags := (if s.strict then 1 else 0) + (if s.sec.enrolled then 2 else 0) + (if s.sec.image.isSome then 4 else 0)
  let hours := (s.ledger.payload 3).getD []
  let (pk, sk) := s.sec.keyPair.getD ([], [])
  let body := beBytes 4 0x44415456 ++ beBytes 2 1 ++ beBytes 1 (if signed then 0 else 1) ++ beBytes 1 packs.length ++ beBytes 2 0x0C32
    ++ beBytes 1 0xB0 ++ beBytes 1 flags ++ beBytes 4 s.ready.toNat ++ beBytes 8 s.tide64 ++ beBytes 4 (leNat (hours.take 4))
    ++ beBytes 4 (leNat ((hours.drop 4).take 4)) ++ hashBytes nonce ++ hashBytes s.sec.deviceId
    ++ hashBytes ((s.sec.bundle.map Bundle.meas).getD 0) ++ hashBytes ((s.sec.image.map StructImage.meas).getD 0)
    ++ beBytes 16 ((s.sec.image.map StructImage.owner).getD 0).toNat ++ beBytes 16 0
    ++ (if signed then pk else List.replicate 1312 0) ++ packs.flatMap hashBytes
  body ++ (if signed then mlDsaSign sk (sha3Bytes body) (hashBytes rnd) else List.replicate 2420 0)

/-- ATTEST_REQ's effect (R549); the random bytes of the signature are free. (DESIGN CHOICE, log 64) -/
def State.attest (s : State) (h : SqpHdr) (nonce : BitVec 256) : State :=
  let (rnd, s) := s.takeFree 256
  s.answerMsg h 0x61 h.gen (s.evidence nonce rnd) false

/-- Checks 7 to 9 of an ATTEST_REQ and its effect: refused or not, a duplicate of it is processed again (R441). -/
def State.attestMsg (s : State) (h : SqpHdr) (lenOk : Bool) (nonce : BitVec 256) : State :=
  (s.lateChecks h none true s.sup lenOk (fun s => s.attest h nonce)).againAnswer h

/-- ATTEST_REQ (R549). -/
def execAttestReq (h : SqpHdr) (nonce : BitVec 256) (s : State) : Host.Outcome State Fault Refusal :=
  .next (s.received h (fun s => s.attestMsg h (lenIs h 32) nonce))

/-! ### Registers of the store -/

/-- Whether the store holds an image (R545). -/
def State.storeEmpty (s : State) : Bool := s.sec.image.isNone && s.sec.pendingImg.isNone && s.sec.applyImg.isNone && s.sec.models.isEmpty

/-- A pack marked DELETING; it is freed once no resident context names it (R548). -/
def State.deleteModel (s : State) (i : Nat) : State :=
  match SMap.get s.sec.models i with
  | none => s
  | some m => { s with sec := { s.sec with models := s.sec.models.put i { m with deleting := true } } }.sweepModels

/-- A pending image freed (R546). (DEDUCED, log 14) -/
def State.discardImage (s : State) : State := { s with sec := { s.sec with pendingImg := none } }

/-- Both helper copies erased (R559), once writes are not held (R558, R572); the device is touched only while READY (R552). (DEDUCED, log 33) -/
def State.enrolErase (s : State) : State :=
  if s.ledger.state ≠ .ready then s
  else if s.power.held then { s with sec := { s.sec with enrolReq := true } }
  else { s with ledger := { s.ledger with flash := flashErase (flashErase s.ledger.flash 1) 2 }, sec := { s.sec with enrolReq := false } }

end Sys2Proof.Machine
end

