-- ==== Sys2Proof/Machine/Start.lean ====
section
/-!
DEFINITION. Bring-up and shutdown: the supervisor's start, self-tests, and the apply of a structure image (R525-R532, R542-R547, R552,
R568).
-/

namespace Sys2Proof.Machine

/-! ### The supervisor's start -/

/-- A bitmap of units in 12 bytes (R556). (DEDUCED, log 63) -/
def unitBytes (b : BitVec 96) : List Byte := leBytes 12 b.toNat

/-- A bitmap read from 12 bytes. (DEDUCED, log 63) -/
def unitBits (b : List Byte) : BitVec 96 := BitVec.ofNat 96 (leNat (b.take 12))

/-- The units there are (R556). -/
def allUnits : BitVec 96 := BitVec.ofNat 96 (2 ^ 84 - 1)

/-- The newest BIST record's payload, where no start has come after it (R557). (DEDUCED, log 63) -/
def State.lastBist (s : State) : Option (List Byte) :=
  match s.ledger.payload 5, s.ledger.seqOf 5 with
  | some p, some q =>
    let older : Bool := match s.ledger.seqOf 4 with
      | none => true
      | some st => st < q
    if older then some p else none
  | _, _ => none

/-- The newest BIST record's payload, if it can give a valid passing record (R557). -/
def State.validBist (s : State) (ref : BitVec 256) : Option (List Byte) := s.lastBist.filter (fun p => p.take 32 = hashBytes ref)

/-- The units that failed the last self-test before this start, by the newer of the BIST and START records (R527, R556). (DEDUCED, log 63) -/
def State.lastFail (s : State) : BitVec 96 :=
  match s.lastBist with
  | some p => unitBits (p.drop 44)
  | none => match s.ledger.payload 4 with
    | some p => unitBits (p.drop 32)
    | none => 0

/-- One domain of a WEAR record (R524, R556). -/
def wearOf (p : List Byte) (base : Nat) (d : Nat) : WearDom :=
  let b := p.drop (20 * d)
  { vReq := bodyNat b 0 2, sram := bodyNat b 2 2, teff := BitVec.ofNat 64 (bodyNat b 4 8), fitA := BitVec.ofNat 64 (bodyNat b 12 8),
    base := base }

/-- The wear state resumed from the newest records, and the first AVS target of a part that has one (R524, R568). -/
def State.resumeWear (s : State) : State :=
  let bases := (s.ledger.payload 1).getD []
  match s.ledger.payload 2 with
  | none => s
  | some p =>
    let ds : List (Nat × WearDom) := ([0, 1, 2, 3, 4] : List Nat).map (fun d => (d, wearOf p (bodyNat bases (2 * d) 2) d))
    ({ s with wear := ds }).setGoal (s.avsGoal ((ds.map (fun d : Nat × WearDom => d.2.vReq)).foldl max 0))

/-- A failed or retired core at start taken out of service (R527): its logical core goes to the region's spare where that is good;
answers whether the logical core still has one. -/
def State.coreOut (s : State) (good : BitVec 96) (r p : Nat) : Bool × State :=
  let x := s.region r
  let s := s.onRegion r (fun x => { x with downs := if x.downs.contains p then x.downs else x.downs ++ [p], spareBad := x.spareBad || p = 8 })
  match x.logical p with
  | none => (true, s)
  | some i =>
    if p ≠ 8 && !x.spareUsed && !x.spareBad && good.getLsbD (9 * r + 8) then
      (true, s.onRegion r (fun x => { x with map := x.map.set i 8, spareUsed := true }))
    else (false, s)

/-- A failed bank at start (R140, R527): the region's spare bank replaces it, where one is left and has passed; a failed spare serves no bank. -/
def State.bankOut (s : State) (good : BitVec 96) (r b : Nat) : Bool × State :=
  let x := s.region r
  if b = 8 then (x.replaced.isNone, s.onRegion r (fun x => { x with bankBad := true }))
  else if x.replaced = some b then (true, s)
  else if x.replaced.isNone && !x.bankBad && good.getLsbD (36 + 9 * r + 8) then (true, s.onRegion r (fun x => { x with replaced := some b }))
  else (false, s)

/-- A unit that failed taken out of service; answers whether its function goes on. -/
def State.unitOut (s : State) (good : BitVec 96) (u : Nat) : Bool × State :=
  if u < 36 then s.coreOut good (u / 9) (u % 9)
  else if u < 72 then s.bankOut good ((u - 36) / 9) ((u - 36) % 9)
  else (false, s)

/-- The columns that a shutdown's self-test found failed, one of a cell at most, in cores that need no test at this start: their cells run on their
spares (R511, R527). (DEDUCED, log 63) -/
def sparedAt (pass : BitVec 96) (columns : List Byte) : List (Nat × Nat) :=
  (((List.range 576).zip columns).filter (fun x => x.2.toNat ≤ 16 && pass.getLsbD (x.1 / 16))).map (fun x =>
    ((x.1 / 16 / 9 * 16 + x.1 / 16 % 9) * 16 + x.1 % 16, x.2.toNat))

/-- The supervisor's code, tables and unit firmware loaded, and the staging areas clear (R542). -/
def Sec.loaded (x : Sec) (b : Bundle) : Sec := { x with supMem := { code := b.code, tables := b.tables, firmware := b.firmware } }

/-- SUPERVISOR_START (R527, R542, R556, R568): SUP and QMGR set, the START record is written, and retired units are out of service; of the parts
that no unit of R556 stands for, whether they passed is open. (DEDUCED, log 33) -/
def execSupervisorStart (s : State) : Host.Outcome State Fault Refusal :=
  .next (
    match s.sec.bundle with
    | none => s
    | some b =>
      if s.inReset || s.sup then s
      else
        let v := s.validBist b.bistRef
        let pass := match v with | none => 0 | some p => unitBits (p.drop 32)
        let fail := match v with | none => 0 | some p => unitBits (p.drop 44)
        let retired := match s.ledger.payload 6 with | none => 0 | some p => unitBits p
        let cols := match v with | none => [] | some p => p.drop 56
        let before := s.lastFail
        let (others, s) := s.takeFree 9
        let s := { s with sec := s.sec.loaded b,
                          bist := { s.bist with pass := pass, fail := fail, retired := retired, before := before, columns := cols, others := others,
                                                spared := sparedAt (pass &&& ~~~retired) cols } }
        let l := s.ledger
        let s := { s with ledger := { l with starts := satInc l.starts, startsBare := if v.isNone then satInc l.startsBare else l.startsBare,
                                             hourAt := s.nclk, wearAt := s.nclk } }
        let s := (List.range 72).foldl (fun s u =>
          if retired.getLsbD u then (s.unitOut (pass &&& ~~~retired) u).2 else s) s
        let s := ((s.setReady 8 true).setReady 4 true).record 4 (hashBytes b.meas ++ unitBytes 0)
        s.resumeWear)

/-! ### Self-tests -/

/-- UNIT of a BIST_FAIL report in the chip log (R498). -/
def bistUnit (u : Nat) : Nat :=
  if u < 36 then u / 9 * 16 + u % 9
  else if u < 72 then (u - 36) / 9 * 16 + (u - 36) % 9
  else if u < 80 then (u - 72) / 2 * 16 + (u - 72) % 2
  else 0xF0 + (u - 80)

/-- A unit that failed its start self-test: out of service and reported; a core is declared failed by it (R510, R527). (DEDUCED, log 33; DEDUCED, log 63) -/
def State.failUnit (good : BitVec 96) (s : State) (u : Nat) : State :=
  let (kept, s) := s.unitOut good u
  let s := if u < 36 then (s.onRegion (u / 9) (fun x => { x with failed := some (u % 9) })).regionReport (u / 9) .ucm 0x09 (u % 9 * 16 + 15) 0 0 else s
  s.report .chip (if kept then .ucm else .fatal) 0x13 (bistUnit u) 0 0

/-- A failed column of a start self-test replaced by its cell's spare (R527); where that is taken the core fails (R510). The column map is in
core-major order. (DEDUCED, log 63) -/
def State.failColumn (good : BitVec 96) (s : State) (cell col : Nat) : State :=
  let c := cell / 16
  let key := (c / 9 * 16 + c % 9) * 16 + cell % 16
  if s.bist.spared.contains (key, col) then s
  else if s.bist.spared.any (fun e => e.1 = key) then State.failUnit good s c
  else
    let s := { s with bist := { s.bist with spared := s.bist.spared ++ [(key, col)] } }
    s.report .chip .ucm 0x13 (c / 9 * 16 + c % 9) 0 0

/-- START_SELF_TEST_DONE (R527, R568): units without a valid passing record have been tested: those that passed are ready, those that
failed are out of service, and one that failed twice running is retired. Retired units whose spare has now passed are replaced, and the failures
stand in a START record. (DEDUCED, log 33; DEDUCED, log 63) -/
def execStartSelfTestDone (fail : BitVec 96) (columns : List Byte) (s : State) : Host.Outcome State Fault Refusal :=
  .next (
    if s.inReset || !s.sup || s.bist.startDone || !s.avs.reached then s
    else
      let recorded := s.bist.pass &&& ~~~s.bist.retired
      let bad := fail &&& allUnits &&& ~~~recorded &&& ~~~s.bist.retired
      let good := allUnits &&& ~~~bad &&& ~~~s.bist.retired
      let again := bad &&& s.bist.before
      let retired := s.bist.retired ||| again
      let s := { s with bist := { s.bist with startDone := true, good := good, fail := bad, retired := retired } }
      let s := (List.range 72).foldl (fun s u => if (retired &&& ~~~again).getLsbD u then (s.unitOut good u).2 else s) s
      let s := (List.range 84).foldl (fun s u => if bad.getLsbD u then State.failUnit good s u else s) s
      let cells := ((List.range 576).zip columns).filter (fun x => x.2.toNat ≤ 16 && !recorded.getLsbD (x.1 / 16))
      let s := cells.foldl (fun s x => State.failColumn good s x.1 x.2.toNat) s
      let s := if bad = 0 then s else s.record 4 (hashBytes ((s.sec.bundle.map Bundle.meas).getD 0) ++ unitBytes bad)
      let s := if again = 0 then s else s.record 6 (unitBytes retired)
      s.refreshUnits)

/-- Whether every LOOP_n_CTRL.EN is clear. -/
def State.loopsOff (s : State) : Bool := s.loops.all (fun l => l.2.en.isNone)

/-- HEALTH_SHUTDOWN.REQ written (R525): the reason it is refused for, or the self-test running. (DEDUCED, log 31) -/
def State.shutdownReq (s : State) (sem0 : Bool) : Option Reason × State :=
  if !sem0 then (some .noPermission, s)
  else if !s.allPaused || !s.loopsOff then (some .busy, s)
  else if s.bist.shutBusy then (none, s)
  else
    (none, { s with bist := { s.bist with shutBusy := true, shutEnded := false, shutDone := false, shutPass := false, shutRecorded := false },
                    ledger := { s.ledger with shutTests := satInc s.ledger.shutTests } })

/-- The payload of a BIST record (R556). (DEDUCED, log 63) -/
def State.bistPay (s : State) (pass fail : BitVec 96) (columns : List Byte) : List Byte :=
  hashBytes ((s.sec.bundle.map Bundle.bistRef).getD 0) ++ unitBytes pass ++ unitBytes fail ++ (columns ++ List.replicate 576 0xFF).take 576

/-- The contents of every SRAM that the shutdown self-test covers destroyed (R526): scratchpads and region memory, loop-engine state with its traces,
ingest frame memory, and the queue and descriptor store. Registers stand. (DESIGN CHOICE, log 3) -/
def State.destroyed (s : State) : State :=
  { s with mem := s.mem.filter (fun c => 0x40000000 ≤ c.1), poison := s.poison.filter (fun w => 0x8000000 ≤ w && w < 0x10000000),
           loops := s.loops.map (fun x : Nat × LoopSt => (x.1, { en := x.2.en, status := x.2.status })),
           traces := s.traces.map (fun x : Nat × TraceSt => (x.1, { owner := x.2.owner, trig := x.2.trig })),
           loopEng := { s.loopEng with latched := [], egress := [] },
           ingest := { s.ingest with streams := s.ingest.streams.map (fun x : Nat × StreamSt => (x.1, { x.2 with frames := [], pic := [] })),
                                     fields := s.ingest.fields.map (fun x : Nat × FieldSt => (x.1, { rej := x.2.rej, sat := x.2.sat })),
                                     psets := [] },
           jobs := [], queues := [], priors := [], staged := [] }

/-- SHUTDOWN_BIST_DONE (R526, R527): the self-test of every unit ends, having destroyed the contents of the SRAMs; a unit that failed the self-test
before it too is retired; its record is written, and DONE waits for it. (DESIGN CHOICE, log 3; DEDUCED, log 63) -/
def execShutdownBistDone (fail : BitVec 96) (columns : List Byte) (s : State) : Host.Outcome State Fault Refusal :=
  .next (
    if s.inReset || !s.bist.shutBusy || s.bist.shutEnded then s
    else
      let bad := fail &&& allUnits
      let again := bad &&& s.bist.fail &&& ~~~s.bist.retired
      let retired := s.bist.retired ||| again
      let bist := { s.bist with shutEnded := true, fail := bad, pass := allUnits &&& ~~~bad, retired := retired, columns := columns }
      let s := { s.destroyed with bist := bist }
      let s := if again = 0 then s else s.record 6 (unitBytes retired)
      if s.ledger.state ≠ .ready || s.power.held || s.ledger.lastSeq = 0xFFFFFFFF then s.finishShutdown false
      else s.record 5 (s.bistPay s.bist.pass bad columns))

/-! ### Applying a structure image -/

/-- Every queue closed as R277 closes it, and every window (R547 step 2). -/
def State.closeAll (s : State) : State :=
  let qs := (s.queues.filter (fun q => q.2.state = .opened)).map Prod.fst
  let s := qs.foldl (fun s q => (s.onQueue q (fun x => { x with state := .closing })).closeJobs q) s
  { s with windows := s.windows.map (fun w => (w.1, { w.2 with isOpen := false })) }

/-- An APPLY that is not applied (R546). -/
def State.applyNotDone (s : State) : State := { s with sec := { s.sec with applyRefused := true } }.note .secStatus (· ||| 2 ^ 28)

/-- SEC_CTRL.APPLY written (R546, R547 steps 1 to 3): the reason that refuses the write, if a rule is broken. (DEDUCED, log 32) -/
def State.applyImage (s : State) : Option Reason × State :=
  let idle := (List.range 16).all (fun p => (List.range 8).all (fun c => (s.ctx p c).st = .empty || (s.ctx p c).st = .loadFail))
  match s.sec.pendingImg with
  | none => (none, s.applyNotDone)
  | some im =>
    if !idle || !s.loopsOff || s.sec.applying then (none, s.applyNotDone)
    else
      let (x, s) := State.readStore im.held s
      match if x.2 then some Reason.imageRejected else s.imageFault im with
      | some r => (some r, s.discardImage)
      | none =>
        let s := { s with sec := { s.sec with applying := true, pendingImg := none, applyImg := some im } }
        let s := ((s.setReady 7 false).setReady 6 false).setReady 5 false
        (none, s.closeAll.onIngest (fun g => { g with refs := [] }))

/-- Field ports enabled by an image's schedules (R431): a port whose enable, SPEED or ROLE changes from those of the image before loses its link. (DESIGN CHOICE, log 28) -/
def State.enablePorts (s : State) (old : Option StructImage) (im : StructImage) : State :=
  (List.range 16).foldl (fun s p =>
    let r := (SMap.get im.ports p).getD {}
    let r0 := (old.bind (fun o => SMap.get o.ports p)).getD {}
    let b := s.bport p
    let same := b.enabled && r.enabled && r.speed = r0.speed && r.role = r0.role
    { s with bports := s.bports.put p { b with enabled := r.enabled, link := b.link && same, gcl := 0, meters := [],
                                               speed := if same then b.speed else 0, master := b.master && same } }) s

/-- The ingest unit under a new structure image: the active slot, and the W1C flags that no host has cleared, stand (R13, R395). -/
def Ingest.installed (g : Ingest) : Ingest :=
  { refGen := g.refGen, active := g.active,
    fields := g.fields.map (fun x : Nat × FieldSt => (x.1, { rej := x.2.rej, sat := x.2.sat })),
    streams := g.streams.map (fun x : Nat × StreamSt => (x.1, { future := x.2.future, unsupported := x.2.unsupported })) }

/-- APPLY_COMPLETE (R547 steps 4 to 6): every section is installed, generations are 0, and the READY bits of R532 set. PAUSE, a loop's
EN and the W1C flags stay as they are (R13), and so does an image verified during the apply, which is pending (R546). (DEDUCED, log 14; DEDUCED, log 32) -/
def execApplyComplete (s : State) : Host.Outcome State Fault Refusal :=
  .next (
    match s.sec.applyImg with
    | none => s
    | some im =>
      if s.inReset || !s.sec.applying then s
      else
        let old := s.sec.image
        let s := { s with sec := { s.sec with image := some im, applyImg := none, applying := false },
                          queues := [], windows := [], priors := [], jobs := [],
                          pans := s.pans.map (fun x : Nat × Pan => (x.1, { paused := x.2.paused })),
                          loops := im.loops.map (fun l : Nat × LoopCfg => (l.1, { l.2.initial with status := (s.loop l.1).status, en := (s.loop l.1).en })),
                          pairs := s.pairs.map (fun x : Nat × PairSt => (x.1, { simplex := x.2.simplex, halted := x.2.halted })),
                          loopEng := { s.loopEng with tick := none, last := none, latched := [], egress := [] },
                          ingest := s.ingest.installed }
        let s := s.releasePaced.enablePorts old im
        (s.setReady 7 true).refreshUnits)

/-- LEDGER_CTRL.FORMAT written (R552): refused while a pan is not PAUSED; a FOREIGN device is never erased. (DEDUCED, log 33) -/
def State.formatLedger (s : State) : Option Reason × State :=
  if !s.allPaused then (some .busy, s)
  else if s.ledger.state ≠ .ready then (none, s)
  else (none, { s with ledger := { s.ledger with job := none, erase := some .all } })

end Sys2Proof.Machine
end

