-- ==== Sys2Proof/Machine/RegRead.lean ====
section
/-!
DEFINITION. Reading a register: its value, and the side effects that R422, R473 and R559 give some reads (R594).
-/

namespace Sys2Proof.Machine

/-- A condition at a bit of a word. -/
def bitAt (k : Nat) (b : Bool) : Nat := if b then 2 ^ k else 0

/-- A word of a number. -/
def word (n : Nat) : Word := BitVec.ofNat 32 n

/-- A field of n bits, each given by its index. -/
def bitsOfFn (n : Nat) (f : Nat → Bool) : Nat := ((List.range n).map (fun k => bitAt k (f k))).sum

/-- Nibbles, the first lowest. -/
def nibbles : List Nat → Nat
  | [] => 0
  | x :: r => x % 16 + 16 * nibbles r

/-- The last word written to an address that waits for its REG_RESP (R471). (DEDUCED, log 15) -/
def pendingOf : List HcfgPend → Nat → Option Word
  | [], _ => none
  | p :: r, a => match pendingOf r a with
    | some v => some v
    | none => if p.addr = a then some p.val else none

/-- The word last written to a register, effective or not (R13). -/
def State.cur (s : State) (r : Reg) : Word :=
  match r with
  | .panCtrl n => if (s.panCfg n).isSome then word (bitAt 0 (s.pan n).paused) else 0
  | .vuCtrl n => match (s.core n).vuPend with | some v => v | none => (s.core n).vuCtrl
  | .loopCtrl n => word (bitAt 0 ((s.loopCfg n).isSome && (s.loop n).en.isSome))
  | .loopHostTarget n | .loopHostFf n => if (s.loopCfg n).isSome then s.rw r else 0
  | .latComp n => if (s.streamCfg n).isSome then s.rw r else 0
  | _ => match pendingOf s.hcfg r.addr with
    | some v => v
    | none => s.rw r

/-! ### Values by block -/

def State.glbStatusWord (s : State) : Word := word (s.rsvdSrc.toNat * 2 + bitAt 0 s.rsvdWrite)

/-- HPORT_n_STATUS (R471). -/
def State.hportStatusWord (s : State) (n : Nat) : Word :=
  let p : Port := if n = 0 then .a else .b
  let b := s.bport (16 + n)
  word (bitAt 31 b.link + b.speed.toNat * 2 ^ 29 + bitAt 28 b.master + bitAt 27 (s.hport p).unresponsive + (s.hport p).unacked.length)

/-- BRIDGE_p_STATUS (R431, R471). (DESIGN CHOICE, log 28) -/
def State.bridgeStatusWord (s : State) (p : Nat) : Word :=
  let b := s.bport p
  let en := if p < 16 then b.enabled else s.rwField (.hportCfg (p - 16)) 31 31 = 1
  word (bitAt 31 b.link + b.speed.toNat * 2 ^ 29 + bitAt 28 b.master + bitAt 27 en)

/-- TIDE_STATUS (R494). -/
def State.tideStatusWord (s : State) : Word :=
  let pps : Bool := match s.tide.ppsAt with
    | some t => !s.passed t 1100000000
    | none => false
  word (s.tide.state.code * 2 ^ 30 + bitAt 29 s.tide.isSet + bitAt 28 pps + s.tide.sticky.toNat % 256)

/-- TIDE_OFFSET (R494): limited to 32 bits. -/
def State.tideOffsetWord (s : State) : Word := BitVec.ofInt 32 (max (-2147483648) (min 2147483647 s.tide.offset))

/-- PAN_n_CORES. -/
def State.panCoresWord (s : State) (n : Nat) : Word :=
  match s.panCfg n with
  | none => 0
  | some c => word (bitsOfFn 32 (fun k => c.cores.contains k))

/-- PAN_n_STATUS. -/
def State.panStatusWord (s : State) (n : Nat) : Word :=
  match s.panCfg n with
  | none => 0
  | some c =>
    word (bitAt 31 (s.panPaused n) + bitAt 30 c.rt + bitAt 29 c.reserved + (s.pan n).entry * 2 ^ 20
      + 256 * bitsOfFn 8 (fun i => (s.ctx n i).running))

/-- PAN_n_SLUICE registers: bucket b 0 RMEM, 1 FABRIC, 2 HBUS, 3 HOST. -/
def State.panSluiceWord (s : State) (n b : Nat) : Word :=
  match s.panCfg n with
  | none => 0
  | some c =>
    let x := match b with | 0 => c.rmem | 1 => c.fabric | 2 => c.hbus | _ => c.host
    word (x.rate * 65536 + x.depth)

/-- PAN_SHORTFALL_INFO (R314). -/
def Shortfall.infoWord (x : Shortfall) : Word :=
  word (bitAt 31 x.valid + x.memory * 2 ^ 24 + x.pan * 2 ^ 16 + x.rank * 2 ^ 8 + x.ctx)

/-- WAIT_SUM_HI as it stands (R422, R429). -/
def ClientWait.hi (x : ClientWait) : Word := word (bitAt 31 x.ovf + x.sum / 2 ^ 32 % 2 ^ 31)

/-- CORE_n_SEQ_STATUS (R209). -/
def State.seqStatusWord (s : State) (n : Nat) : Word :=
  let x := s.core n
  let halted : Bool := match x.run with
    | some (p, c) => (s.ctx p c).st = .halted
    | none => false
  word (bitAt 31 x.seqValid + bitAt 30 halted + x.seqFault * 2 ^ 24 + x.seqDesc)

/-- LOOP_n_OUT (R359): the exponent is the EXP[7] of the group's leader. -/
def State.loopOutWord (s : State) (n : Nat) : Word :=
  match (s.leaderOf n).bind s.loopCfg with
  | none => 0
  | some w => word (w.exp.getD 7 0 * 2 ^ 24 + ((s.loop n).out % 2 ^ 24).toNat)

/-- LOOP_n_PV. -/
def State.loopPvWord (s : State) (n : Nat) : Word :=
  match s.loopCfg n with
  | none => 0
  | some w => word (w.exp.getD 0 0 * 2 ^ 24 + ((s.loop n).xc % 2 ^ 24).toNat)

/-- INGEST_JOB_STATUS (R395). -/
def State.jobStatusWord (s : State) : Word :=
  let g := s.ingest
  let rdy (slot j : Nat) : Bool := match SMap.get g.refs (slot * 8 + j) with | some r => r.ready | none => false
  word (bitAt 31 g.active.isSome + g.active.getD 0 * 2 ^ 24 + 256 * bitsOfFn 8 (rdy 1) + bitsOfFn 8 (rdy 0))

/-- INGEST_n_STATUS (R395). -/
def State.ingestStatusWord (s : State) (n : Nat) : Word :=
  match s.streamCfg n with
  | none => 0
  | some c =>
    let x := s.stream n
    let kind := match c.kind with | .meas => 0 | .jxs => 1 | .raw => 2
    word (bitAt 31 true + kind * 2 ^ 29 + bitAt 28 x.future + bitAt 27 x.noRef + bitAt 26 x.unsupported + x.conceal)

/-- HBUS_n_STATUS (R173). -/
def State.hbusStatusWord (s : State) (n : Nat) : Word :=
  let x := s.chan n
  word (bitAt 31 x.crcErr.ovf + bitAt 17 x.fail + bitAt 16 x.ready + x.crcErr.n)

/-- HEALTH_WEAR_d (R528): 0 until GLB_READY.SUP is set. -/
def State.wearWord (s : State) (d : Nat) : Word :=
  if !s.sup then 0
  else
    let x := s.wear.getD d {}
    word (min x.remain 4095 * 2 ^ 20 + x.vReq % 1024 * 2 ^ 10 + x.level * 256 + min x.sram 255)

/-- HEALTH_SHUTDOWN. -/
def State.shutdownWord (s : State) : Word :=
  word (bitAt 30 s.bist.shutBusy + bitAt 29 s.bist.shutDone + bitAt 28 s.bist.shutPass + bitAt 27 s.bist.shutRecorded)

/-- HEALTH_SUPPLY (R592). -/
def State.supplyWord (s : State) : Word :=
  let p := s.power
  word (bitAt 31 p.brownout + bitAt 30 p.pllUnlock + p.brownRail.toNat * 2 ^ 27 + bitAt 26 p.avsLate
    + bitAt 2 p.coreLow + bitAt 1 p.ioLow + bitAt 0 p.sagPin)

/-- HEALTH_THERM. -/
def State.thermWord (s : State) : Word :=
  word ((s.thermal.tj % 256).toNat * 2 ^ 24 + bitAt 23 s.thermal.throttled + s.thermal.hot)

/-- SEC_STATUS (R559). -/
def State.secStatusWord (s : State) : Word :=
  let x := s.sec
  word (bitAt 31 x.idReady + bitAt 30 x.idFail + bitAt 29 x.enrolled + bitAt 28 x.applyRefused + bitAt 27 x.applying
    + bitAt 26 x.pendingImg.isSome + bitAt 25 x.image.isSome)

/-- SEC_MODEL_n_STATUS. -/
def State.modelStatusWord (s : State) (n : Nat) : Word :=
  match SMap.get s.sec.models n with
  | none => 0
  | some m => word (bitAt 31 true + bitAt 30 m.deleting + m.pages)

/-- A program or erase of the ledger device is in progress (R559); none is while writes are held (R572). (DEDUCED, log 16) -/
def State.ledgerBusy (s : State) : Bool := !s.power.held && (s.ledger.job.isSome || s.ledger.erase.isSome)

/-- LEDGER_STATUS. -/
def State.ledgerStatusWord (s : State) : Word :=
  let l := s.ledger
  let st := match l.state with | .absent => 0 | .foreign => 1 | .ready => 2
  word (st * 2 ^ 30 + bitAt 29 s.power.held + bitAt 28 s.ledgerBusy + bitAt 27 l.seqEnd + l.head / 4096)

/-- A word of a log entry; an entry not yet written reads 0 (R528). -/
def ErrLog.word (g : ErrLog) (k w : Nat) : Word :=
  match g.entries[k]? with
  | none => 0
  | some r => r.words.getD w 0

/-- BITTERN_FIRST and BITTERN_LAST. -/
def ErrLog.time (g : ErrLog) (k : Nat) : Word :=
  let t := if k < 2 then g.first else g.last
  if k % 2 = 0 then t.setWidth 32 else (t >>> 32).setWidth 32

/-- Whether a counter's register is there: those of a stream that is not bound, and of a pan that the pan map does not form, read 0 and ignore
writes (R395, R429). -/
def State.counts? (s : State) : Ctr → Bool
  | .stale n | .late n | .damage n | .drop n => (s.streamCfg n).isSome
  | .preempt n | .lateReply n => (s.panCfg n).isSome
  | _ => true

/-- The value a register shows, for reads without a side effect. (DESIGN CHOICE, log 5) -/
def State.show (s : State) (r : Reg) : Word :=
  match r with
  | .glbId => if Config.gradeX then 0x0C32B001 else 0x0C32B000
  | .glbStatus => s.glbStatusWord
  | .glbRsvdAddr => s.rsvdAddr
  | .glbReady => s.ready
  | .glbCoreReady => s.coreReady
  | .hportStatus n => s.hportStatusWord n
  | .bridgeStatus p => s.bridgeStatusWord p
  | .semState k => s.semWord k
  | .tideStatus => s.tideStatusWord
  | .tideNowNs => word s.tide.ns
  | .tideSecLo => s.tide.latchSec.setWidth 32
  | .tideSecHi => (s.tide.latchSec >>> 32).setWidth 32
  | .tideFrac => word s.tide.latchFrac
  | .tideOffset => s.tideOffsetWord
  | .tideGmHi => (s.tide.gm >>> 32).setWidth 32
  | .tideGmLo => s.tide.gm.setWidth 32
  | .tidePpsNs => s.tide.ppsNs
  | .tidePpsSec => s.tide.ppsSec
  | .tideLinkDelay p => s.linkDelay p
  | .panCores n => s.panCoresWord n
  | .panStatus n => s.panStatusWord n
  | .panCtxState n => word (nibbles ((List.range 8).map (fun i => (s.ctx n i).st.code)))
  | .panSluice n b => s.panSluiceWord n b
  | .shortInfo => s.shortfall.infoWord
  | .shortBytes => word (min s.shortfall.bytes (2 ^ 32 - 1))
  | .waitSumLo c => word (s.waits.getD c {}).sum
  | .waitSumHi c => (s.waits.getD c {}).hi
  | .waitMax c => let x := s.waits.getD c {}; word (bitAt 31 x.maxOvf + x.max)
  | .memStatus n =>
    let x := s.region n
    word (bitAt 7 x.replaced.isSome + bitAt 6 x.bankCopy.isSome + (x.bankCopy.getD (x.replaced.getD 0))
      + (if x.bankCopy.isSome then x.bankPtr * 256 else 0))
  | .logStatus l => word (s.log l).entries.length
  | .bitternCount l => word (bitternWord (s.log l))
  | .bitternTime l k => (s.log l).time k
  | .logWord l k w => (s.log l).word k w
  | .vuFlags n => (s.core n).vuFlags
  | .trapInfo n => (s.core n).trapInfo
  | .trapLanes n => (s.core n).trapLanes
  | .seqStatus n => s.seqStatusWord n
  | .loopStatus => s.loopStatus
  | .loopSts n => if (s.loopCfg n).isSome then (s.loop n).status else 0
  | .loopFe n => if (s.loopCfg n).isSome then word ((s.loop n).feCnt * 65536 + (s.loop n).winner) else 0
  | .loopOut n => s.loopOutWord n
  | .loopPv n => s.loopPvWord n
  | .jobStatus => s.jobStatusWord
  | .ingestStatus n => s.ingestStatusWord n
  | .fieldStatus k => let f := s.field k; word (bitAt 31 (s.fieldOut k) + bitAt 30 f.rej + bitAt 29 f.sat)
  | .hbusStatus n => s.hbusStatusWord n
  | .coreMap r => word (nibbles (s.region r).map)
  | .regionSpare r =>
    let x := s.region r
    word (bitAt 31 (x.copyCore.isSome && !x.copyEnded) + bitAt 30 x.spareUsed + bitAt 29 x.degraded
      + x.failed.getD 15 * 65536 + (if x.copyCore.isSome && !x.copyEnded then x.copyPtr else 0))
  | .wear d => s.wearWord d
  | .avs => word (s.avs.target * 65536 + s.guardMv * 256)
  | .shutdown => s.shutdownWord
  | .supply => s.supplyWord
  | .alert => word (s.rwField .alert 11 8 * 256 + s.alertStatus)
  | .therm => s.thermWord
  | .secStatus => s.secStatusWord
  | .deviceId k => (s.sec.deviceId >>> (224 - 32 * k)).setWidth 32
  | .modelStatus n => s.modelStatusWord n
  | .ledgerStatus => s.ledgerStatusWord
  | .ledgerRdData => if s.ledger.state = .absent then 0 else word (flashNat s.ledger.flash (s.rw .ledgerRdAddr).toNat 4)
  | .counter c => if s.counts? c then let x := s.count c; word (bitAt 31 x.ovf + x.n) else 0
  | .tideCtrl | .panCtxCmd _ | .traceTrig | .secCtrl | .secModelDel | .ledgerCtrl => 0
  | _ => s.cur r

/-- A register read: its value and the state after the read's side effects (R422, R473, R559). A copy in progress has gone on by a free number of
lines when COPY_LINE is read: the spec gives no rate of the copy. -/
def State.readReg (s : State) (r : Reg) : Word × State :=
  let v := s.show r
  match r with
  | .tideNowNs => (v, { s with tide := { s.tide with latchSec := s.tide.sec, latchFrac := s.tide.frac / 2 ^ 14 } })
  | .waitSumLo c =>
    let x := s.waits.getD c {}
    (v, { s with waits := s.waits.put c { x with latch := some x.hi } })
  | .waitSumHi c =>
    let x := s.waits.getD c {}
    match x.latch with
    | some h => (h, { s with waits := s.waits.put c { x with latch := none } })
    | none => (v, s)
  | .ledgerRdData => (v, s.setRw .ledgerRdAddr (word (((s.rw .ledgerRdAddr).toNat + 4) % 2 ^ 23)))
  | .memStatus n => ((s.bankAdvance n).show r, s.bankAdvance n)
  | .regionSpare n => ((s.coreAdvance n).show r, s.coreAdvance n)
  | _ => (v, s)

/-- Registers read in ascending address order (R594). -/
def State.readRegs : List Reg → State → List Word × State
  | [], s => ([], s)
  | r :: rest, s =>
    let (v, s) := s.readReg r
    let (vs, s) := State.readRegs rest s
    (v :: vs, s)

end Sys2Proof.Machine
end

