-- ==== Sys2Proof/Machine/RegWrite.lean ====
section
/-!
DEFINITION. Writing a register: its stored fields, its W1C and RWS bits, and the actions its rules give (R13-R16, R446, R463).
-/

namespace Sys2Proof.Machine

/-- RSVD_SRC of a write's interface (R596). -/
def RegSrc.code : RegSrc → BitVec 2
  | .sqp h => match h.port with | .a => 0 | .b => 1
  | .spi => 2

/-- What a register write did: the reason that refuses the whole write, the reason its answer carries, and the state. -/
structure Written where
  refused : Option Reason := none
  note : Reason := .ok
  state : State

/-- A write that was carried out. -/
def State.wrote (s : State) : Written := { state := s }

/-- A write's own check, as an effect answers it. -/
def wroteOr : Option Reason × State → Written
  | (r, s) => { refused := r, state := s }

/-- A reserved write noted (R596). (DEDUCED, log 19) -/
def State.rsvd (s : State) (src : RegSrc) (r : Reg) : State := s.setRsvd (word r.addr) (RegSrc.code src)

/-- The new word of a register's stored fields, and the state with the reserved-write flag where an encoding was reserved (R15, R16). -/
def State.fields (s : State) (src : RegSrc) (r : Reg) (v : Word) : Word × State :=
  let (w, bad) := storeFields (s.cur r) v r.rwFields
  (w, if bad then s.rsvd src r else s)

/-- A register of stored fields and W1C bits only, its stored fields written. -/
def State.putFields (s : State) (src : RegSrc) (r : Reg) (v : Word) : State :=
  if r.rwFields.isEmpty then s else let (w, s) := s.fields src r v; s.setRw r w

/-! ### W1C bits -/

/-- A cleared counter: an event counted in the same cycle leaves it at 1 (R37). (DEDUCED, log 61) -/
def recount (set : Nat) : Count := { n := min set 1 }

/-- The W1C bits of a register cleared where the write has 1, and the RWS bits of HEALTH_SUPPLY where it has 0 (R13, R37); one that the
hardware has set in the same cycle stays (R14). (DEDUCED, log 14; DEDUCED, log 61) -/
def State.clearBits (s : State) (r : Reg) (v : Word) : State :=
  let all := v.getLsbD 31
  let set := s.noted r
  let kept : Word := word set
  let rws := v ||| kept
  let v := v &&& ~~~kept
  let top := v.getLsbD 31
  match r with
  | .glbStatus => if v.getLsbD 0 then { s with rsvdWrite := false } else s
  | .tideStatus => { s with tide := { s.tide with sticky := s.tide.sticky &&& ~~~(v &&& 0xFF) } }
  | .shortInfo => if top then { s with shortfall := { s.shortfall with valid := false } } else s
  | .waitSumHi c => if all then { s with waits := s.waits.put c { s.waits.getD c {} with sum := min (2 ^ 63 - 1) set, ovf := false } } else s
  | .waitMax c =>
    if all then { s with waits := s.waits.put c { s.waits.getD c {} with max := min (2 ^ 31 - 1) set, maxOvf := 2 ^ 31 ≤ set } } else s
  | .bitternCount l => if all then { s with logs := s.logs.put (logKey l) { s.log l with lost := recount set } } else s
  | .vuFlags n => s.onCore n (fun x => { x with vuFlags := x.vuFlags &&& ~~~v })
  | .trapInfo n => if top then s.onCore n (fun x => { x with trapInfo := 0, trapLanes := 0 }) else s
  | .seqStatus n => if top then s.onCore n (fun x => { x with seqValid := false, seqFault := 0, seqDesc := 0 }) else s
  | .loopStatus => if v.getLsbD 0 then { s with loopEng := { s.loopEng with timeStep := false } } else s
  | .loopSts n =>
    if (s.loopCfg n).isSome then s.onLoop n (fun l => { l with status := l.status &&& ~~~(v &&& (Reg.loopSts n).w1cMask) }) else s
  | .ingestStatus n =>
    if (s.streamCfg n).isSome then
      s.onStream n (fun x => { x with future := x.future && !v.getLsbD 28, unsupported := x.unsupported && !v.getLsbD 26 })
    else s
  | .fieldStatus k => s.onField k (fun f => { f with rej := f.rej && !v.getLsbD 30, sat := f.sat && !v.getLsbD 29 })
  | .hbusStatus n => if all then s.onChan n (fun h => { h with crcErr := recount set }) else s
  | .alert => { s with power := { s.power with tempWarn := s.power.tempWarn && !v.getLsbD 1,
                                               supplyAlert := s.power.supplyAlert && !v.getLsbD 0 } }
  | .supply => { s with power := { s.power with brownout := s.power.brownout && (rws.getLsbD 31),
                                                pllUnlock := s.power.pllUnlock && (rws.getLsbD 30),
                                                avsLate := s.power.avsLate && !v.getLsbD 26 } }
  | .secStatus => { s with sec := { s.sec with applyRefused := s.sec.applyRefused && !v.getLsbD 28 } }
  | .counter c => if all && s.counts? c then { s with counts := s.counts.put c.addr (recount set) } else s
  | _ => s

/-! ### Strict mode -/

/-- What blocks a change of STRICT (R423): the cause, the first pan in pan order that blocks it, and the context. (DEDUCED, log 18) -/
def State.strictBlock (s : State) (on : Bool) : Option (Nat × Nat × Nat) :=
  let ctxBlock (p : Nat) : Option (Nat × Nat × Nat) :=
    (List.range 8).findSome? (fun c =>
      let x := s.ctx p c
      if !x.kept then none
      else if (s.ctxCat p c).static = none then some (2, p, c)
      else if x.streamed then some (3, p, c)
      else none)
  (List.range 16).findSome? (fun p =>
    if (s.panCfg p).isNone then none
    else if !s.panPaused p then some (1, p, 0)
    else if on then ctxBlock p
    else none)

/-- A write of GLB_MODE (R423): applied, or answered STRICT_FORBIDDEN with a MODE EVENT. Slice entries start anew with the mode. (DEDUCED, log 18) -/
def State.writeMode (s : State) (v : Word) : Written :=
  let on := v.getLsbD 0
  if on = s.strict then s.wrote
  else match s.strictBlock on with
    | some (cause, p, c) => { note := .strictForbidden, state := s.event 4 (p * 65536 + c) (beBytes 4 cause) }
    | none => ({ s.setRw .glbMode (word (bitAt 0 on)) with
                  pans := s.pans.map (fun x : Nat × Pan => (x.1, { x.2 with entryOn := false })) }).wrote

/-! ### Host port configuration -/

/-- A port whose link is lost (R32, R432): frames of the C32's own keep waiting. (DEDUCED, log 15; DEDUCED, log 25) -/
def State.linkLost (s : State) (p : Nat) : State :=
  let b := s.bport p
  let s := { s with bports := s.bports.put p { b with link := false, speed := 0, master := false } }
  if p = 16 then s.setReady 0 false else if p = 17 then s.setReady 1 false else s

/-- A write of HPORT_n_CFG or of an address register takes effect (R471): a change of EN, SPEED or ROLE retrains the link. (DEDUCED, log 15) -/
def State.applyHcfg (s : State) (a : Nat) (v : Word) : State :=
  match Reg.ofAddr a with
  | some (.hportCfg n) =>
    let old := s.rw (.hportCfg n)
    let s := s.setRw (.hportCfg n) v
    if old >>> 27 = v >>> 27 then s else s.linkLost (16 + n)
  | some r => s.setRw r v
  | none => s

/-- The registers whose writes take effect after their REG_RESP (R471). (DEDUCED, log 15) -/
def Reg.deferred : Reg → Bool
  | .hportCfg _ | .hportMacHi _ | .hportMacLo _ | .hportIpv4 _ | .hportIpv6 _ _ | .hportNet _ => true
  | _ => false

/-! ### The write of one register -/

/-- Whether Tide may be rearmed (R479). -/
def State.stopped (s : State) : Bool := s.allPaused && s.loopsOff

/-- The sender of a register write; none for the service SPI. (DEDUCED, log 31) -/
def RegSrc.sender : RegSrc → Option (Port × Fin 8)
  | .sqp h => some (h.port, h.client)
  | .spi => none

/-- PAN_n_CTX_CMD written (R402, R405, R429). -/
def State.writeCtxCmd (s : State) (src : RegSrc) (n : Nat) (v : Word) : Written :=
  if (s.panCfg n).isNone then s.wrote
  else match fieldOf v 31 30 with
    | 1 => wroteOr (s.load n (fieldOf v 2 0) (fieldOf v 12 8))
    | 2 => (s.unloadCtx n (fieldOf v 2 0)).wrote
    | _ => (s.rsvd src (.panCtxCmd n)).wrote

/-- SEC_CTRL written (R546, R559): the image of an apply in progress is not freed. (DEDUCED, log 14) -/
def State.writeSecCtrl (s : State) (v : Word) : Written :=
  let (r, s) := if v.getLsbD 31 then s.applyImage else (none, s)
  match r with
  | some x => { refused := some x, state := s }
  | none =>
    let s := if v.getLsbD 30 then s.discardImage else s
    (if v.getLsbD 29 then s.enrolErase else s).wrote

/-- INGEST_JOB_CTRL written (R383, R395). (DEDUCED, log 14) -/
def State.writeJobCtrl (s : State) (src : RegSrc) (v : Word) : State :=
  let s := s.putFields src .jobCtrl v
  let sel := v.getLsbD 0
  if v.getLsbD 31 && v.getLsbD 30 then s.rsvd src .jobCtrl
  else if v.getLsbD 31 then s.activateSlot sel
  else if v.getLsbD 30 then
    if s.ingest.active = some (if sel then 1 else 0) then s.rsvd src .jobCtrl else s.clearSlot sel
  else s

/-- One register written. -/
def State.writeReg (s : State) (src : RegSrc) (r : Reg) (v : Word) : Written :=
  match r with
  | .glbMode => s.writeMode v
  | .tideCtrl => (s.tideCmd (fieldOf v 31 30) s.stopped).wrote
  | .tideAddend => (s.hostAddend v.toNat).wrote
  | .panCtrl n =>
    let s := s.pausePan n (v.getLsbD 0)
    if v.getLsbD 1 then wroteOr (s.preemptPan n) else s.wrote
  | .panCtxCmd n => s.writeCtxCmd src n v
  | .logStatus l => (if v.getLsbD 31 then s.clearLog l else s).wrote
  | .vuCtrl n => let (w, s) := s.fields src (.vuCtrl n) v; (s.onCore n (fun x => { x with vuPend := some w })).wrote
  | .traceTrig => (s.traceTrig (v.setWidth 16)).wrote
  | .traceCtrl n => let (w, s) := s.fields src (.traceCtrl n) v; (s.traceCtrl (RegSrc.sender src) n w).wrote
  | .loopCtrl n => (((if v.getLsbD 2 then s.feClr n else s)).setEn n (v.getLsbD 0)).wrote
  | .loopHostTarget n => (s.hostLoop n false (v.setWidth 24)).wrote
  | .loopHostFf n => (s.hostLoop n true (v.setWidth 24)).wrote
  | .jobCtrl => (s.writeJobCtrl src v).wrote
  | .latComp n => (if (s.streamCfg n).isSome then s.putFields src (.latComp n) v else s).wrote
  | .hbusCfg n =>
    if (s.chan n).ready then (s.rsvd src (.hbusCfg n)).wrote else ((s.putFields src (.hbusCfg n) v).configHbus n).wrote
  | .avsApplied => (s.putFields src .avsApplied v).avsCheck.wrote
  | .shutdown =>
    if v.getLsbD 31 then
      wroteOr (s.shutdownReq (match RegSrc.sender src with | some (p, c) => s.holdsSem 0 p c | none => false))
    else s.wrote
  | .secCtrl => s.writeSecCtrl v
  | .secStoreCfg => (if s.storeEmpty then s.putFields src .secStoreCfg v else s.rsvd src .secStoreCfg).wrote
  | .secModelDel => (s.deleteModel (fieldOf v 5 0)).wrote
  | .ledgerCtrl => if v.getLsbD 31 then wroteOr s.formatLedger else s.wrote
  | _ => if r.deferred then (s.fields src r v).2.wrote else ((s.putFields src r v).clearBits r v).wrote

/-- Registers written in ascending address order: the first check that fails refuses the whole write (R446). (DESIGN CHOICE, log 13) -/
def State.writeRegs (src : RegSrc) : List (Reg × Word) → State → Written
  | [], s => s.wrote
  | (r, v) :: rest, s =>
    let w := s.writeReg src r v
    if w.refused.isSome then w
    else
      let w' := State.writeRegs src rest w.state
      { w' with note := if w.note = .ok then w'.note else w.note }

/-- What a refused write leaves: nothing but a recorded shortfall (R314) and the pending image an apply has freed (R547). (DESIGN CHOICE, log 13; DEDUCED, log 19) -/
def State.afterRefusal (s t : State) : State :=
  { s with shortfall := t.shortfall, sets := s.sets.put (Reg.addr .shortInfo) (t.noted .shortInfo), sec := { s.sec with pendingImg := t.sec.pendingImg } }

/-- The writes of HPORT_n_CFG and the address registers, as they will take effect. -/
def State.deferredWrites (s : State) : List (Reg × Word) → List (Nat × Word)
  | [] => []
  | (r, v) :: rest =>
    if r.deferred then (r.addr, (storeFields (s.cur r) v r.rwFields).1) :: s.deferredWrites rest else s.deferredWrites rest

/-! ### Locks (R463) -/

/-- The RO and W1C bits that are not reserved, of a register of a locked block (R463); the other bits are RW, WO or reserved. -/
def Reg.openMask : Reg → Word
  | .glbStatus => 0x7
  | .glbReady => 0x000F01FF
  | .hportStatus _ => 0xF800007F
  | .bridgeStatus _ => 0xF8000000
  | .tideStatus => 0xF00000FF
  | .tideFrac => 0xFFFF
  | .panStatus _ => 0xE1F0FF00
  | .shortInfo => 0x8F0F1F07
  | .hbusStatus _ => 0x8003FFFF
  | .secStatus => 0xFE000000
  | .modelStatus _ => 0xC000FFFF
  | .ledgerStatus => 0xF80007FF
  | .glbId | .glbRsvdAddr | .glbCoreReady | .tideNowNs | .tideSecLo | .tideSecHi | .tideOffset | .tideGmHi | .tideGmLo | .tidePpsNs
  | .tidePpsSec | .tideLinkDelay _ | .panCores _ | .panCtxState _ | .panSluice _ _ | .shortBytes | .waitSumLo _ | .waitSumHi _ | .waitMax _
  | .deviceId _ | .ledgerRdData | .counter _ => 0xFFFFFFFF
  | _ => 0

/-- The bits of a register's stored fields. -/
def Reg.rwMask (r : Reg) : Word := r.rwFields.foldl (fun w f => w ||| BitVec.ofNat 32 ((2 ^ (f.hi + 1 - f.lo) - 1) * 2 ^ f.lo)) 0

/-- Whether a register's write has no effect but to clear W1C bits (R463): its RW fields receive their values, and its WO and reserved bits 0. Writing
HBUS_n_CFG trains the channel and TIDE_ADDEND may be refused, whatever they receive. (DEDUCED, log 14) -/
def State.clearsOnly (s : State) (r : Reg) (v : Word) : Bool :=
  let acts : Bool := match r with
    | .hbusCfg _ | .tideAddend => true
    | _ => false
  !acts && v &&& ~~~(r.openMask ||| r.rwMask) = 0
    && r.rwFields.all (fun f => fieldOf v f.hi f.lo = fieldOf (s.cur r) f.hi f.lo)

/-- The semaphore that the lock of an address needs: of its block, or of LOOP_n_CTRL and INGEST_JOB_CTRL (R463, R607). -/
def lockOf (a : Nat) : Option Nat :=
  match Block.ofAddr a with
  | none => none
  | some .loop => match Reg.ofAddr a with | some (.loopCtrl _) => some 0 | _ => none
  | some .ingest => match Reg.ofAddr a with | some .jobCtrl => some 0 | _ => none
  | some b => b.lock

/-- Whether a sender may write a value at an address (R463, R607). An address of a write without a value needs its lock. -/
def State.mayWrite (s : State) (h : SqpHdr) (a : Nat) (v : Option Word) : Bool :=
  match lockOf a with
  | none => true
  | some k =>
    s.senderHolds k h || (match Reg.ofAddr a, v with
      | some r, some v => s.clearsOnly r v
      | _, _ => false)

end Sys2Proof.Machine
end

