-- ==== Sys2Proof/Machine/RegFile.lean ====
section
/-!
DEFINITION. REG_READ and REG_WRITE (R17, R444-R446, R594), the service SPI's frames (R582, R583), and the commands that are an access to
one register: each is that access, on the interface it names. Also the ledger's and supply monitors' commands, whose end
answers reads of LEDGER_RD_DATA that wait (R559).
-/

namespace Sys2Proof.Machine

/-- The registers of consecutive addresses; none where one holds no register (R17). -/
def regsAt : Nat → Nat → Option (List Reg)
  | _, 0 => some []
  | a, n + 1 =>
    match Reg.ofAddr a, regsAt (a + 4) n with
    | some r, some rs => some (r :: rs)
    | _, _ => none

/-- Whether the block of an address answers SQP (R529, R530). (DEDUCED, log 14) -/
def State.sqpAnswers (s : State) (a : Nat) : Bool :=
  s.sup || (match Block.ofAddr a with | some b => b.sqpEarly | none => false)

/-- Whether the block of an address answers the service SPI (R583). -/
def State.spiAnswers (s : State) (a : Nat) : Bool :=
  s.sup || (match Block.ofAddr a with | some b => b.spiEarly | none => false)

/-- Consecutive register addresses. -/
def addrsOf (a n : Nat) : List Nat := (List.range n).map (fun i => a + 4 * i)

/-- Payload of a REG_RESP (R445). -/
def regResp (a n : Nat) (r : Reason) (vals : List Word) : List Byte :=
  beBytes 4 a ++ beBytes 2 n ++ beBytes 2 r.code ++ vals.flatMap (fun v => beBytes 4 v.toNat)

/-- A REG_READ carried out (R594). -/
def State.doRead (s : State) (h : SqpHdr) (a n : Nat) (rs : List Reg) : State :=
  let (vs, s) := State.readRegs rs s
  s.answerMsg h 0x03 0 (regResp a n .ok vs) true

/-- Checks 8 and 9 of a REG_READ, and its answer (R444, R594); one that names LEDGER_RD_DATA waits while the ledger is BUSY (R559). -/
def State.regRead (s : State) (h : SqpHdr) (a n : Nat) (lenOk : Bool) : State :=
  match regsAt a n with
  | none => s.nak h .addressInvalid
  | some rs =>
    if !(addrsOf a n).all s.sqpAnswers then s.nak h .notReady
    else if n = 0 || 256 < n || !lenOk then s.nak h .badLength
    else if rs.contains .ledgerRdData && s.ledgerBusy then
      ({ s with heldReads := s.heldReads ++ [HeldRead.mk h a n] }).deferAnswer h
    else s.doRead h a n rs

/-- The reads that wait for the ledger's operation answered (R559). (DEDUCED, log 16) -/
def State.releaseReads (s : State) : State :=
  let held := s.heldReads
  held.foldl (fun s x => match regsAt x.addr x.count with
    | some rs => s.doRead x.hdr x.addr x.count rs
    | none => s) { s with heldReads := [] }

/-- Registers with the values a REG_WRITE gives them. -/
def zipRegs : List Reg → List Word → List (Reg × Word)
  | r :: rs, v :: vs => (r, v) :: zipRegs rs vs
  | _, _ => []

/-- A REG_WRITE carried out or refused whole (R446); what takes effect after its REG_RESP waits for it (R471). (DESIGN CHOICE, log 13) -/
def State.doWrite (s : State) (h : SqpHdr) (a n : Nat) (ws : List (Reg × Word)) : State :=
  let w := State.writeRegs (.sqp h) ws s
  match w.refused with
  | some r => (s.afterRefusal w.state).nak h r
  | none =>
    let q := (w.state.hport h.port).nextSeq
    let later := (s.deferredWrites ws).map (fun x : Nat × Word => HcfgPend.mk h.port q x.1 x.2)
    let t := w.state.answerMsg h 0x03 0 (regResp a n w.note []) true
    { t with hcfg := t.hcfg ++ later }

/-- Checks 7 to 9 of a REG_WRITE, and its answer (R444, R446, R462, R463). (DESIGN CHOICE, log 13) -/
def State.regWrite (s : State) (h : SqpHdr) (a n : Nat) (vals : List Word) (lenOk : Bool) : State :=
  if !s.hasRight h.client (some .regWrite) || !(List.range n).all (fun i => s.mayWrite h (a + 4 * i) vals[i]?) then
    s.nak h .noPermission
  else match regsAt a n with
    | none => s.nak h .addressInvalid
    | some rs =>
      if !(addrsOf a n).all s.sqpAnswers then s.nak h .notReady
      else if n = 0 || 256 < n || vals.length ≠ n || !lenOk then s.nak h .badLength
      else s.doWrite h a n (zipRegs rs vals)

/-- REG_READ. -/
def execRegRead (h : SqpHdr) (addr : Word) (count : BitVec 16) (s : State) : Host.Outcome State Fault Refusal :=
  .next (s.received h (fun s => s.regRead h addr.toNat count.toNat (lenIs h 8)))

/-- REG_WRITE. -/
def execRegWrite (h : SqpHdr) (addr : Word) (count : BitVec 16) (vals : List Word) (s : State) : Host.Outcome State Fault Refusal :=
  .next (s.received h (fun s => s.regWrite h addr.toNat count.toNat vals (lenIs h (8 + 4 * count.toNat))))

/-! ### The service SPI -/

/-- The response of a service SPI frame (R582). (DEDUCED, log 17) -/
def svcResp (r : Reason) (v : Word) : SvcResp := { status := BitVec.ofNat 8 r.code, value := v, driven := true }

/-- A service SPI read (R582, R583): BUSY where LEDGER_RD_DATA cannot be read yet. (DEDUCED, log 17) -/
def State.spiRead (s : State) (a : Nat) : State :=
  match Reg.ofAddr a with
  | none => { s with svc := svcResp .addressInvalid 0 }
  | some r =>
    if !s.spiAnswers a then { s with svc := svcResp .notReady 0 }
    else if r = .ledgerRdData && s.ledgerBusy then { s with svc := svcResp .busy 0 }
    else let (v, s) := s.readReg r; { s with svc := svcResp .ok v }

/-- A service SPI write (R582, R583), which needs neither rights nor locks. (DESIGN CHOICE, log 13; DEDUCED, log 17) -/
def State.spiWrite (s : State) (a : Nat) (v : Word) : State :=
  match Reg.ofAddr a with
  | none => { s with svc := svcResp .addressInvalid 0 }
  | some r =>
    if !s.spiAnswers a then { s with svc := svcResp .notReady 0 }
    else
      let w := State.writeRegs .spi [(r, v)] s
      match w.refused with
      | some x => { s.afterRefusal w.state with svc := svcResp x 0 }
      | none =>
        let t := (s.deferredWrites [(r, v)]).foldl (fun t x => t.applyHcfg x.1 x.2) w.state
        { t with svc := svcResp w.note 0 }

/-- SVC_READ (R582): a frame with another command, or cut short, changes nothing. (DEDUCED, log 17) -/
def execSvcRead (cmd : Byte) (addr : Word) (complete : Bool) (s : State) : Host.Outcome State Fault Refusal :=
  .next (if s.inReset || !s.power.booted || cmd ≠ 0x0B || !complete then { s with svc := {} } else s.spiRead addr.toNat)

/-- SVC_WRITE (R582). (DEDUCED, log 17) -/
def execSvcWrite (cmd : Byte) (addr val : Word) (complete : Bool) (s : State) : Host.Outcome State Fault Refusal :=
  .next (if s.inReset || !s.power.booted || cmd ≠ 0x02 || !complete then { s with svc := {} } else s.spiWrite addr.toNat val)

/-! ### Commands that access one register -/

/-- A register written on an interface. (DESIGN CHOICE, log 13) -/
def State.writeBy (s : State) (src : RegSrc) (r : Reg) (v : Word) : State :=
  match src with
  | .sqp h => s.received h (fun s => s.regWrite h r.addr 1 [v] (lenIs h 12))
  | .spi => if s.inReset || !s.power.booted then s else s.spiWrite r.addr v

/-- A register read on an interface. (DESIGN CHOICE, log 13) -/
def State.readBy (s : State) (src : RegSrc) (r : Reg) : State :=
  match src with
  | .sqp h => s.received h (fun s => s.regRead h r.addr 1 (lenIs h 8))
  | .spi => if s.inReset || !s.power.booted then s else s.spiRead r.addr

/-- Whether a register is a counter with an overflow bit (R36, R37). -/
def Reg.isCounter : Reg → Bool
  | .counter _ | .bitternCount _ | .waitSumHi _ | .waitMax _ | .hbusStatus _ => true
  | _ => false

/-- COUNTER_OVF_CLEAR (R37). -/
def execCounterOvfClear (src : RegSrc) (addr : Word) (s : State) : Host.Outcome State Fault Refusal :=
  .next (
    match Reg.ofAddr addr.toNat with
    | none => s
    | some r => if r.isCounter then s.writeBy src r 0x80000000 else s)

/-- GLB_MODE_WRITE (R423). -/
def execGlbModeWrite (src : RegSrc) (val : Word) (s : State) : Host.Outcome State Fault Refusal :=
  .next (s.writeBy src .glbMode val)

/-- VU_CTRL_WRITE (R119). -/
def execVuCtrlWrite (src : RegSrc) (core : Fin 32) (val : Word) (s : State) : Host.Outcome State Fault Refusal :=
  .next (s.writeBy src (.vuCtrl core.val) val)

/-- LOG_CLEAR (R503). -/
def execLogClear (src : RegSrc) (log : LogId) (s : State) : Host.Outcome State Fault Refusal :=
  .next (s.writeBy src (.logStatus log) 0x80000000)

/-- HBUS_CFG_WRITE (R173). -/
def execHbusCfgWrite (src : RegSrc) (ch : Fin 16) (val : Word) (s : State) : Host.Outcome State Fault Refusal :=
  .next (s.writeBy src (.hbusCfg ch.val) val)

/-- The register an HPORT_CFG_WRITE names. -/
def hportRegOf (p : Port) : HportReg → Reg
  | .cfg => .hportCfg (portIx p)
  | .macHi => .hportMacHi (portIx p)
  | .macLo => .hportMacLo (portIx p)
  | .ipv4 => .hportIpv4 (portIx p)
  | .ipv6 k => .hportIpv6 (portIx p) k.val
  | .net => .hportNet (portIx p)

/-- HPORT_CFG_WRITE (R471). -/
def execHportCfgWrite (src : RegSrc) (n : Port) (r : HportReg) (val : Word) (s : State) : Host.Outcome State Fault Refusal :=
  .next (s.writeBy src (hportRegOf n r) val)

/-- LOAD (R402). -/
def execLoad (src : RegSrc) (pan : Fin 16) (ctx : Fin 8) (catalog : BitVec 5) (s : State) : Host.Outcome State Fault Refusal :=
  .next (s.writeBy src (.panCtxCmd pan.val) (word (0x40000000 + catalog.toNat * 256 + ctx.val)))

/-- UNLOAD (R405). -/
def execUnload (src : RegSrc) (pan : Fin 16) (ctx : Fin 8) (s : State) : Host.Outcome State Fault Refusal :=
  .next (s.writeBy src (.panCtxCmd pan.val) (word (0x80000000 + ctx.val)))

/-- PREEMPT (R417): PAUSE is written with its current value. -/
def execPreempt (src : RegSrc) (pan : Fin 16) (s : State) : Host.Outcome State Fault Refusal :=
  .next (s.writeBy src (.panCtrl pan.val) (s.cur (.panCtrl pan.val) ||| 2))

/-- PAUSE (R420). -/
def execPause (src : RegSrc) (pan : Fin 16) (on : Bool) (s : State) : Host.Outcome State Fault Refusal :=
  .next (s.writeBy src (.panCtrl pan.val) (word (bitAt 0 on)))

/-- WAIT_SUM_LO_READ (R422). -/
def execWaitSumLoRead (src : RegSrc) (client : Fin 8) (s : State) : Host.Outcome State Fault Refusal :=
  .next (s.readBy src (.waitSumLo client.val))

/-- TIDE_NOW_NS_READ (R473). -/
def execTideNowNsRead (src : RegSrc) (s : State) : Host.Outcome State Fault Refusal := .next (s.readBy src .tideNowNs)

/-- TIDE_ADDEND_WRITE (R475). -/
def execTideAddendWrite (src : RegSrc) (val : Word) (s : State) : Host.Outcome State Fault Refusal :=
  .next (s.writeBy src .tideAddend val)

/-- STEP (R479). -/
def execStep (src : RegSrc) (s : State) : Host.Outcome State Fault Refusal := .next (s.writeBy src .tideCtrl 0x40000000)

/-- SET (R479). -/
def execSet (src : RegSrc) (s : State) : Host.Outcome State Fault Refusal := .next (s.writeBy src .tideCtrl 0x80000000)

/-- REARM (R479). -/
def execRearm (src : RegSrc) (s : State) : Host.Outcome State Fault Refusal := .next (s.writeBy src .tideCtrl 0xC0000000)

/-- AVS_APPLIED_WRITE (R567). -/
def execAvsAppliedWrite (src : RegSrc) (val : Word) (s : State) : Host.Outcome State Fault Refusal :=
  .next (s.writeBy src .avsApplied val)

/-- FORMAT (R552). -/
def execFormat (src : RegSrc) (s : State) : Host.Outcome State Fault Refusal := .next (s.writeBy src .ledgerCtrl 0x80000000)

/-- LEDGER_RD_DATA_READ (R559). -/
def execLedgerRdDataRead (src : RegSrc) (s : State) : Host.Outcome State Fault Refusal := .next (s.readBy src .ledgerRdData)

/-- SHUTDOWN_REQ (R525). -/
def execShutdownReq (src : RegSrc) (s : State) : Host.Outcome State Fault Refusal := .next (s.writeBy src .shutdown 0x80000000)

/-- APPLY (R546, R547). -/
def execApply (src : RegSrc) (s : State) : Host.Outcome State Fault Refusal := .next (s.writeBy src .secCtrl 0x80000000)

/-- DISCARD (R546). -/
def execDiscard (src : RegSrc) (s : State) : Host.Outcome State Fault Refusal := .next (s.writeBy src .secCtrl 0x40000000)

/-- ENROL (R559). -/
def execEnrol (src : RegSrc) (s : State) : Host.Outcome State Fault Refusal := .next (s.writeBy src .secCtrl 0x20000000)

/-- SEC_STORE_CFG_WRITE (R545). -/
def execSecStoreCfgWrite (src : RegSrc) (val : Word) (s : State) : Host.Outcome State Fault Refusal :=
  .next (s.writeBy src .secStoreCfg val)

/-- SEC_MODEL_DEL (R548). -/
def execSecModelDel (src : RegSrc) (index : BitVec 6) (s : State) : Host.Outcome State Fault Refusal :=
  .next (s.writeBy src .secModelDel (index.setWidth 32))

/-- ACTIVATE (R383). -/
def execActivate (src : RegSrc) (sel : Bool) (s : State) : Host.Outcome State Fault Refusal :=
  .next (s.writeBy src .jobCtrl (word (2 ^ 31 + bitAt 0 sel)))

/-- CLEAR (R383). -/
def execClear (src : RegSrc) (sel : Bool) (s : State) : Host.Outcome State Fault Refusal :=
  .next (s.writeBy src .jobCtrl (word (2 ^ 30 + bitAt 0 sel)))

/-- EN (R346). -/
def execEn (src : RegSrc) (loop : Fin 2048) (on : Bool) (s : State) : Host.Outcome State Fault Refusal :=
  .next (s.writeBy src (.loopCtrl loop.val) (word (bitAt 0 on)))

/-- FE_CLR (R343): EN is written with its current value. -/
def execFeClr (src : RegSrc) (loop : Fin 2048) (s : State) : Host.Outcome State Fault Refusal :=
  .next (s.writeBy src (.loopCtrl loop.val) (s.cur (.loopCtrl loop.val) ||| 4))

/-- LOOP_HOST_TARGET_WRITE (R350). -/
def execLoopHostTargetWrite (src : RegSrc) (loop : Fin 2048) (ff : Bool) (mant : BitVec 24) (s : State) :
    Host.Outcome State Fault Refusal :=
  .next (s.writeBy src (if ff then .loopHostFf loop.val else .loopHostTarget loop.val) (mant.setWidth 32))

/-- LOOP_TRACE_TRIG (R356). -/
def execLoopTraceTrig (src : RegSrc) (mask : BitVec 16) (s : State) : Host.Outcome State Fault Refusal :=
  .next (s.writeBy src .traceTrig (mask.setWidth 32))

/-- LOOP_TRACE_CTRL_WRITE (R356, R357). -/
def execLoopTraceCtrlWrite (src : RegSrc) (trace : Fin 16) (val : Word) (s : State) : Host.Outcome State Fault Refusal :=
  .next (s.writeBy src (.traceCtrl trace.val) val)

/-! ### Ends of the ledger's operations -/

/-- The waiting reads answered where the ledger's operation has ended. (DEDUCED, log 16) -/
def State.ledgerThen (s t : State) : State :=
  if s.ledgerBusy && (!t.ledgerBusy || t.ledger.job ≠ s.ledger.job || t.ledger.erase ≠ s.ledger.erase) then t.releaseReads else t

/-- LEDGER_RECORD_COMMIT (R554). -/
def execLedgerRecordCommit (readBackOk : Bool) (s : State) : Host.Outcome State Fault Refusal :=
  .next (s.ledgerThen (s.recordCommit readBackOk))

/-- LEDGER_ERASE_DONE (R552, R555). -/
def execLedgerEraseDone (s : State) : Host.Outcome State Fault Refusal := .next (s.ledgerThen s.eraseDone)

/-- PWR_SAG (R571). -/
def execPwrSag (lowNs : Nat) (s : State) : Host.Outcome State Fault Refusal := .next (s.ledgerThen (s.pwrSag lowNs))

/-- VDD_IO_LOW (R571). -/
def execVddIoLow (mv : Nat) (s : State) : Host.Outcome State Fault Refusal := .next (s.ledgerThen (s.vddIo mv))

/-- VDD_CORE_LOW (R571). -/
def execVddCoreLow (mv : Nat) (s : State) : Host.Outcome State Fault Refusal := .next (s.ledgerThen (s.vddCore mv))

end Sys2Proof.Machine
end

