-- ==== Sys2Proof/Machine/Endpoint.lean ====
section
/-!
DEFINITION. The SQP endpoint of a host port: a datagram's header and payload (R439, R445), its TYPE's effect, and the reassembly of
fragments (R442, R443).
-/

namespace Sys2Proof.Machine

/-- A big-endian number of a payload's field; bytes beyond its end read 0. -/
def beField (b : List Byte) (ofs n : Nat) : Nat := beNat ((List.range n).map (fun i => b.getD (ofs + i) 0))

/-- A word of a payload. -/
def beWord (b : List Byte) (ofs : Nat) : Word := word (beField b ofs 4)

/-- The whole words of a payload from an offset on; `n` bounds their number. -/
def beWords : Nat → List Byte → List Word
  | 0, _ => []
  | n + 1, b => if b.length < 4 then [] else beWord b 0 :: beWords n (b.drop 4)

/-- TYPE codes a host may send (R445). -/
def hostType (t : Byte) : Bool :=
  [0x01, 0x02, 0x10, 0x11, 0x12, 0x13, 0x20, 0x21, 0x22, 0x23, 0x30, 0x31, 0x32, 0x40, 0x41, 0x42, 0x60, 0x7F].contains t.toNat

/-- A SUBMIT's payload (R448). -/
def submitBody (b : List Byte) : SubmitBody :=
  let n := beField b 0x10 4
  { tag := beWord b 0, zero := beWord b 4, deadline := BitVec.ofNat 64 (beField b 8 8), paramLen := word n, warmLen := beWord b 0x14,
    params := (b.drop 0x18).take n, warm := b.drop (0x18 + n) }

/-- Checks 7 to 9 of R444 and the effect of a whole message of a TYPE, from its payload. -/
def State.dispatch (s : State) (h : SqpHdr) (type : Byte) (b : List Byte) : State :=
  let n := b.length
  let rest := b.drop 4
  match type.toNat with
  | 0x01 => s.regRead h (beField b 0 4) (beField b 4 2) (n = 8 && beField b 6 2 = 0)
  | 0x02 =>
    let k := beField b 4 2
    s.regWrite h (beField b 0 4) k (beWords k (b.drop 8)) (n = 8 + 4 * k && beField b 6 2 = 0)
  | 0x10 => s.lateChecks h (some .queue) true s.qmgrReady (n = 0) (fun s => if h.adopt then s.queueAdopt h else s.queueOpen h)
  | 0x11 => s.lateChecks h (some .queue) true s.qmgrReady (n = 0) (fun s => s.queueClose h)
  | 0x12 => s.lateChecks h none true s.qmgrReady (24 ≤ n) (fun s => s.submit h (submitBody b))
  | 0x13 => s.lateChecks h none true s.qmgrReady (n = 4) (fun s => s.cancel h (beWord b 0))
  | 0x20 =>
    s.lateChecks h (some .window) true (s.windowReady (beField b 0 1)) (n = 12 && beField b 1 3 = 0)
      (fun s => s.windowOpen h (BitVec.ofNat 8 (beField b 0 1)) (beWord b 4) (beWord b 8))
  | 0x21 => s.lateChecks h (some .window) true s.qmgrReady (n = 0) (fun s => s.windowClose h)
  | 0x22 => s.lateChecks h (some .window) true (s.openWindowReady h) (4 ≤ n) (fun s => s.windowWrite h (beWord b 0) rest)
  | 0x23 => s.windowReadMsg h (n = 8) (beWord b 0) (beWord b 4)
  | 0x30 => s.lateChecks h (some .sem) true true (n = 4) (fun s => s.semAcquire h (beWord b 0))
  | 0x31 => s.lateChecks h (some .sem) true true (n = 0) (fun s => s.semRelease h)
  | 0x32 => s.lateChecks h none true true (n = 0) (fun s => s.semStatus h)
  | 0x40 =>
    let kind := beField b 0 1
    s.lateChecks h (some .image) (s.beginLock h kind) (s.kindReady kind) (n = 8 && beField b 3 1 = 0)
      (fun s => s.imageBegin h kind (beField b 1 1) (beField b 2 1) (beField b 4 4))
  | 0x41 => s.lateChecks h (some .image) true (s.transferReady h) (4 ≤ n) (fun s => s.imageData h (beField b 0 4) rest)
  | 0x42 => s.lateChecks h (some .image) true (s.transferReady h) (n = 0) (fun s => s.imageEnd h)
  | 0x60 => s.attestMsg h (n = 32) (BitVec.ofNat 256 (beField b 0 32))
  | 0x7F => s.lateChecks h none true true (n = 8 && beField b 2 2 = 0) (fun s => if beField b 0 2 = 0 then s.hostAck h.port h.ack else s)
  | _ => s

/-! ### Fragments (R443) -/

/-- The reassemblies of a port changed. -/
def State.onReasm (s : State) (p : Port) (f : List Reasm → List Reasm) : State :=
  s.onHport p (fun x => { x with reasm := f x.reasm })

/-- Whether a fragment belongs to a reassembly: its place among the fragments follows from its SEQ and OFFSET alike. (DEDUCED, log 24) -/
def Reasm.takes (r : Reasm) (q : Word) (ofs : Nat) : Bool :=
  let k := (q - r.hdr.seq).toNat
  k < 2 ^ 31 && k * r.d = ofs && (k ≠ 0 || ofs = 0) && (k = 0 || r.d ≠ 0)

/-- Whether a fragment agrees with its reassembly's first one, and has the length of its place. -/
def Reasm.agrees (r : Reasm) (h : SqpHdr) (type : Byte) (total ofs len : Nat) : Bool :=
  r.type = type && r.hdr.number = h.number && r.hdr.gen = h.gen && r.total = total && (ofs + len = total || len = r.d)

/-- A fragment's data put into a reassembly. -/
def Reasm.add (r : Reasm) (k : Nat) (data : List Byte) : Reasm :=
  { r with parts := (k, data) :: r.parts.filter (fun x => x.1 ≠ k) }

/-- Bytes a reassembly holds. -/
def Reasm.have (r : Reasm) : Nat := (r.parts.map (fun x => x.2.length)).sum

/-- The whole message, its fragments in order. -/
def Reasm.whole (r : Reasm) : List Byte :=
  (List.range r.parts.length).flatMap (fun k => match r.parts.find? (fun x => x.1 = k) with
    | some x => x.2
    | none => [])

/-- A complete message processed once: its fragments count as processed, and the answer is that of its first one. -/
def State.finishReasm (s : State) (r : Reasm) : State :=
  let q := r.hdr.seq
  let same (k : Nat) : Word × Answer := (q + word k, .same q)
  let s := s.onHport r.hdr.port (fun p =>
    let old := p.recs.filter (fun x => !(r.parts.any (fun y => q + word y.1 = x.1)))
    { p with recs := (q, .none) :: ((List.range r.parts.length).drop 1).map same ++ old,
             reasm := p.reasm.filter (fun x => x.hdr.seq ≠ q) })
  s.dispatch r.hdr r.type r.whole

/-- A reassembly with a fragment's data, finished once complete. -/
def State.keepReasm (s : State) (r : Reasm) : State :=
  if r.have = r.total then s.finishReasm r
  else s.onReasm r.hdr.port (fun l => l.map (fun x => if x.hdr.seq = r.hdr.seq then r else x))

/-- Check 6 (R443): a fragment that has passed checks 1 to 5. (DEDUCED, log 24) -/
def State.reassemble (s : State) (h : SqpHdr) (type : Byte) (total ofs : Nat) (data : List Byte) : State :=
  let p := h.port
  let len := data.length
  let bad : Bool := 2 ^ 20 < total || total < ofs + len
  match (s.hport p).reasm.find? (fun r => r.takes h.seq ofs) with
  | some r =>
    if bad || !r.agrees h type total ofs len then
      (s.onReasm p (fun l => l.filter (fun x => x.hdr.seq ≠ r.hdr.seq))).nakUnkept h .badLength
    else s.keepReasm (r.add (h.seq - r.hdr.seq).toNat data)
  | none =>
    if ofs ≠ 0 || 4 ≤ (s.hport p).reasm.length then s.bump (.reasmDrop (portIx p))
    else if bad then s.nakUnkept h .badLength
    else
      let r : Reasm := { hdr := h, type := type, total := total, d := len, parts := [(0, data)], at' := s.nclk }
      (s.onReasm p (fun l => l ++ [r])).keepReasm r

/-- A fragment received: checks 1 to 5, then check 6. One shorter than its prefix has a wrong length. (DEDUCED, log 24) -/
def State.fragment (s : State) (h : SqpHdr) (type : Byte) (total ofs : Nat) (data : List Byte) (lenOk : Bool) : State :=
  match s.accept h (hostType type) false with
  | (false, s) => s
  | (true, s) => if lenOk then s.reassemble h type total ofs data else s.nakUnkept h .badLength

/-- SQP_FRAGMENT (R442, R443). -/
def execSqpFragment (h : SqpHdr) (type : Byte) (total ofs : Word) (data : List Byte) (s : State) : Host.Outcome State Fault Refusal :=
  .next (
    if s.inReset || !s.portReady h.port then s
    else s.fragment h type total.toNat ofs.toNat data (lenIs h (8 + data.length)))

/-! ### Datagrams -/

/-- The header of a received datagram (R439). -/
def sqpHdr (p : Port) (src : HostAddr) (b : List Byte) : SqpHdr :=
  let flags := b.getD 2 0
  let origin := (b.getD 3 0).toNat
  let crc := crc32c (b.take 0x1C ++ [0, 0, 0, 0] ++ b.drop 0x20)
  { port := p, udpLen := b.length, crcOk := beField b 0x1C 4 = crc.toNat, version := b.getD 0 0, ackReq := flags.getLsbD 0,
    retry := flags.getLsbD 2, resync := flags.getLsbD 3, adopt := flags.getLsbD 4, both := flags.getLsbD 5,
    client := ⟨origin / 32 % 8, by omega⟩, oPort := if origin / 16 % 2 = 0 then .a else .b, seq := beWord b 4,
    number := BitVec.ofNat 16 (beField b 8 2), gen := BitVec.ofNat 16 (beField b 0xA 2), length := BitVec.ofNat 16 (beField b 0xC 2),
    ack := beWord b 0x10, src := src }

/-- A datagram to the SQP port of a host port (R435 step 4, R444). (DEDUCED, log 24) -/
def State.sqpDatagram (s : State) (p : Port) (d : Datagram) : State :=
  if !s.portReady p then s
  else
    let b := d.payload
    let h := sqpHdr p d.src b
    let type := b.getD 1 0
    let pl := b.drop 32
    if (b.getD 2 0).getLsbD 1 then s.fragment h type (beField pl 0 4) (beField pl 4 4) (pl.drop 8) (8 ≤ pl.length)
    else match s.accept h (hostType type) true with
      | (false, s) => s
      | (true, s) => s.dispatch h type pl

end Sys2Proof.Machine
end

