-- ==== Sys2Proof/Machine/Bridge.lean ====
section
/-!
DEFINITION. Ports and the bridge (R430-R438): links, received frames, gates and transmitted frames.
-/

namespace Sys2Proof.Machine

/-- A broadcast or multicast MAC address. (DEDUCED, log 26) -/
def groupMac (m : BitVec 48) : Bool := m.getLsbD 40

/-- Whether a frame is addressed to the port it arrived on. -/
def State.toPort (s : State) (f : Frame) : Bool := s.portMac f.p.val = some f.dstMac

/-- Whether a port takes IPv6 (R471); a field port does. (DEDUCED, log 26) -/
def State.v6On (s : State) (p : Nat) : Bool := p < 16 || s.rwField (.hportCfg (p - 16)) 25 25 = 1

/-- Whether an IP address is one of a port's (R434, R471): its IPv4 address, its global IPv6 address where it has one, and its link-local one. (DEDUCED, log 26) -/
def State.ownsIp (s : State) (p : Nat) (v6 : Bool) (a : BitVec 128) : Bool :=
  a ≠ 0 && (if v6 then s.v6On p && (a = s.portIpv6 p || a = linkLocal ((s.portMac p).getD 0)) else a = (s.portIpv4 p).setWidth 128)

/-- Whether a frame's IP packet is addressed to the port it arrived on. -/
def State.toIp (s : State) (f : Frame) : Bool := f.ip.any (fun x => s.ownsIp f.p.val x.v6 x.dst)

/-- The largest IP packet a port takes (R433). -/
def State.portMtu (s : State) (p : Nat) : Nat := if p < 16 then 9000 else s.rwField (.hportCfg (p - 16)) 13 0

/-- Whether an IP packet is of a stream (R437). (PRESUMED, log 67) -/
def IpIdent.matches (k : IpIdent) (x : IpHdr) : Bool :=
  x.v6 = k.v6 && x.dst = k.dst && k.src.all (fun a => x.src = a) && k.dscp.all (fun d => x.dscp = d)
    && (k.proto = 0 || x.proto = k.proto) && k.ports.all (fun q => x.srcPort = q.1 && x.dstPort = q.2)

/-- Whether a frame is of a filter's stream (R437): by null stream identification, and by IP stream identification where the filter has one. (PRESUMED, log 67) -/
def QciFilter.matches (q : QciFilter) (f : Frame) : Bool :=
  q.mac = f.dstMac && q.vid = f.vid && q.ip.all (fun k => f.ip.any k.matches)

/-- A stream gate at a place of its cycle: open where it has no entry (R437). (PRESUMED, log 67) -/
def gateOpen : List (Bool × Nat) → Nat → Bool
  | [], _ => true
  | (o, ns) :: r, t => if t < ns then o else gateOpen r (t - ns)

/-- The buckets of a flow meter, filled at CIR and EIR since their last fill, up to CBS and EBS (R437). (PRESUMED, log 67) -/
def FlowMeter.fill (m : FlowMeter) (x : Option (Rat × Rat × Nat)) (now : Nat) : Rat × Rat :=
  match x with
  | none => (m.cbs, m.ebs)
  | some (c, e, t) =>
    let ns : Rat := ((now - t : Nat) : Rat) * 20 / 11
    (min m.cbs (c + m.cir * ns / 8000000000), min m.ebs (e + m.eir * ns / 8000000000))

/-- The colour-blind meter's decision on a frame of `n` bytes (R437): green from the committed bucket, yellow from the excess one, which pass, or red. (PRESUMED, log 67) -/
def FlowMeter.take (b : Rat × Rat) (n : Nat) : Bool × (Rat × Rat) :=
  if (n : Rat) ≤ b.1 then (true, (b.1 - n, b.2)) else if (n : Rat) ≤ b.2 then (true, (b.1, b.2 - n)) else (false, b)

/-- Bytes of a frame from its destination address to its FCS. (PRESUMED, log 67) -/
def frameBytes (f : Frame) : Nat := f.ipBytes + 18 + 4 * f.tags

/-- A frame held against 802.1Qci at its port (R437): the first filter of its stream tests the SDU size, its stream gate at this Tide64 and its flow
meter, which the frame fills and draws from; a frame of no filter passes. Answers whether it passes. (PRESUMED, log 67) -/
def State.police (s : State) (f : Frame) : Bool × State :=
  let p := f.p.val
  let fs := match s.portSched p with
    | none => []
    | some r => r.filters
  match ((List.range fs.length).zip fs).find? (fun x => x.2.matches f) with
  | none => (true, s)
  | some (i, x) =>
    if x.maxSdu < f.ipBytes || !gateOpen x.gate (s.tide64 % max 1 (x.gate.map Prod.snd).sum) then (false, s)
    else match x.meter with
      | none => (true, s)
      | some m =>
        let b := s.bport p
        let r := FlowMeter.take (m.fill (b.meters.get i) s.nclk) (frameBytes f)
        (r.1, { s with bports := s.bports.put p { b with meters := b.meters.put i (r.2.1, r.2.2, s.nclk) } })

/-- An ARP, Neighbour or echo reply (R434): a field port has no record of its class, and class 0 is the model's. (DEDUCED, log 26) -/
def State.sendReply (s : State) (f : Frame) (echo : Bool) : State :=
  s.enqueue f.p.val (s.ownFrame f.p.val 0 ((if echo then f.ipBytes else 46) + 38) (.reply echo))

/-- A frame forwarded to a port (R435, R438), whose largest IP packet holds for what it sends too (R433). (DEDUCED, log 27) -/
def State.forward (s : State) (f : Frame) (q : Nat) : State :=
  if s.portMtu q < f.ipBytes then s.bump (.bridgeDrop q)
  else s.passOn q { cls := f.pcp.toNat, len := f.ipBytes + 38 + 4 * f.tags, body := .fwd f }

/-- The static forwarding entry of a frame (R435), where the bridge forwards. -/
def State.fwdEntry (s : State) (f : Frame) : Option FwdEntry :=
  if s.bridgeReady then s.sec.image.bind (fun im => im.fwd.find? (fun e => e.vid = f.vid && e.mac = f.dstMac)) else none

/-- Steps 7 and 8 of R435. -/
def State.forwardOrDrop (s : State) (f : Frame) : State :=
  match s.fwdEntry f with
  | some e => e.ports.foldl (fun s q => s.forward f q) s
  | none => s.bump (.bridgeDrop f.p.val)

/-- The header of an RTP packet (RFC 3550), and its payload; none for a header in error. (PRESUMED, log 50) -/
def rtpPkt (c : StreamCfg) (b : List Byte) : Option RtpPkt :=
  let b0 := (b.getD 0 0).toNat
  let ofs := 12 + 4 * (b0 % 16)
  let ext := if b0 / 16 % 2 = 1 then 4 + 4 * beField b (ofs + 2) 2 else 0
  let pad := if b0 / 32 % 2 = 1 then (b.getLastD 0).toNat else 0
  if b0 / 64 ≠ 2 || b.length < ofs + ext + pad then none
  else
    let pl := (b.drop (ofs + ext)).take (b.length - ofs - ext - pad)
    some { ssrc := beWord b 8, seq := BitVec.ofNat 16 (beField b 2 2), ts := beWord b 4, marker := (b.getD 1 0).getLsbD 7,
           span := Config.rtpSpan c pl, payload := pl }

/-- Whether a datagram matches a stream (R361). -/
def StreamCfg.matchesPkt (c : StreamCfg) (p : Nat) (d : Datagram) : Bool :=
  c.port = p && c.udpPort = d.dstPort.toNat && (c.kind = .meas || !c.ssrcCheck || beWord d.payload 8 = c.ssrc)

/-- The stream that a datagram on a field port matches. -/
def State.streamFor (s : State) (p : Nat) (d : Datagram) : Option (Nat × StreamCfg) :=
  (List.range 32).findSome? (fun n => match s.streamCfg n with
    | some c => if c.matchesPkt p d then some (n, c) else none
    | none => none)

/-- A stream's datagram given to the ingest unit, in a frame of `wire` bytes. -/
def State.ingestDatagram (s : State) (n : Nat) (c : StreamCfg) (d : Datagram) (wire : Nat) : State :=
  if !s.ingestRuns then s
  else if c.kind = .meas then s.measFrame n c d.payload wire
  else match rtpPkt c d.payload with
    | none => s.rtpBad n
    | some k => s.rtpPacket n c k

/-- A UDP datagram to the port's own address, or of a stream (R434, R435 steps 4 to 6): one of neither is dropped by step 6, and what R434 drops of the
others is not counted but for a wrong checksum. (DEDUCED, log 26) -/
def State.takeDatagram (s : State) (f : Frame) (d : Datagram) (x : Option (Nat × StreamCfg)) : State :=
  let p := f.p.val
  let n := p - 16
  let sqp : Bool := 16 ≤ p && d.dstPort.toNat = s.rwField (.hportNet n) 31 16 && s.toIp f
  if !sqp && x.isNone then s.bump (.bridgeDrop p)
  else if d.badIp then s
  else if !d.cksumOk then s.bump (.bridgeDrop p)
  else match x with
    | some (k, c) => s.ingestDatagram k c d (frameBytes f)
    | none => s.sqpDatagram (if n = 0 then .a else .b) d

/-- Steps 6 to 8 of R435: a frame to the port's own address that no step before takes is dropped. -/
def State.elsewhere (s : State) (f : Frame) : State := if s.toPort f then s.bump (.bridgeDrop f.p.val) else s.forwardOrDrop f

/-- A frame that has passed the port's policing, by what it carries (R435 steps 2 to 8). (DEDUCED, log 26) -/
def State.handleFrame (s : State) (f : Frame) : State :=
  let p := f.p.val
  let own := s.toPort f
  let asked := own || groupMac f.dstMac
  match f.kind with
  | .sync m => s.sync { m with p := f.p, pcp := f.pcp, bytes := f.ipBytes + 38 + 4 * f.tags }
  | .ptp .pdelayReq domain _ _ => s.pdelayReq p domain
  | .ptp .pdelayResp domain t _ => s.pdelayResp p domain t
  | .ptp .pdelayRespFollowUp domain _ _ => if domain ≠ s.ptpDomain then s.bump (.bridgeDrop p) else s
  | .ptp _ domain _ _ =>
    if domain ≠ s.ptpDomain then s.bump (.bridgeDrop p)
    else if s.ptpPorts.contains p then s.relay p { cls := f.pcp.toNat, len := f.ipBytes + 38 + 4 * f.tags, body := .fwd f }
    else s
  | .arp a => if asked && s.ownsIp p false (a.setWidth 128) then s.sendReply f false else s.elsewhere f
  | .neighbour a => if asked && s.ownsIp p true a then s.sendReply f false else s.elsewhere f
  | .echo badIp => if own && s.toIp f then (if badIp then s else s.sendReply f true) else s.elsewhere f
  | .udp d =>
    let x := if p < 16 then s.streamFor p d else none
    if own || x.isSome then s.takeDatagram f d x else s.forwardOrDrop f
  | .other => s.elsewhere f

/-- FRAME_RECEIVE (R433, R435, R487). -/
def execFrameReceive (f : Frame) (s : State) : Host.Outcome State Fault Refusal :=
  .next (
    let p := f.p.val
    if s.inReset || !(s.bport p).link then s
    else
    let s := s.rxStamped p
    if s.portMtu p < f.ipBytes || 2 ≤ f.tags || !f.fcsOk then s.bump (.bridgeDrop p)
    else match s.police f with
      | (false, s) => s.bump (.qciDrop p)
      | (true, s) => s.handleFrame f)

/-! ### Links -/

/-- SPEED and ROLE a port is configured for, where it is enabled (R431). (DESIGN CHOICE, log 28) -/
def State.portSetup (s : State) (p : Nat) : Option (Nat × Nat) :=
  if p < 16 then
    match s.portSched p with
    | some r => if (s.bport p).enabled then some (r.speed.toNat, r.role.toNat) else none
    | none => none
  else if s.rwField (.hportCfg (p - 16)) 31 31 = 1 then
    some (s.rwField (.hportCfg (p - 16)) 30 29, s.rwField (.hportCfg (p - 16)) 28 27)
  else none

/-- Whether a link can come up with a speed and role under a configuration (R431). (DESIGN CHOICE, log 28) -/
def linkFits (speed : BitVec 2) (master : Bool) (setup : Nat × Nat) : Bool :=
  speed ≠ 0 && (setup.1 = 0 || setup.1 = speed.toNat) && (setup.2 = 0 || (setup.2 = 1) = master)

/-- LINK_UP (R432): the port's READY bit sets, and messages held for it may flow. (DESIGN CHOICE, log 28) -/
def execLinkUp (p : Fin 18) (speed : BitVec 2) (master : Bool) (s : State) : Host.Outcome State Fault Refusal :=
  .next (
    match s.portSetup p.val with
    | none => s
    | some setup =>
      if s.inReset || (s.bport p.val).link || !linkFits speed master setup then s
      else
        let b := s.bport p.val
        let s := { s with bports := s.bports.put p.val { b with link := true, speed := speed, master := master } }
        let s :=
          if p.val = 16 then (s.onHport .a (fun h => { h with fresh := true })).setReady 0 true
          else if p.val = 17 then (s.onHport .b (fun h => { h with fresh := true })).setReady 1 true
          else s
        (s.kick p.val).flushComps)

/-- LINK_DOWN (R32, R432). -/
def execLinkDown (p : Fin 18) (s : State) : Host.Outcome State Fault Refusal :=
  .next (if s.inReset || !(s.bport p.val).link then s else s.linkLost p.val)

/-! ### Transmission -/

/-- The index of the gate entry in force at a place of the cycle. (DEDUCED, log 27) -/
def gateAt : List (BitVec 8 × Nat) → Nat → Nat
  | [], _ => 0
  | (_, ns) :: r, t => if t < ns then 0 else 1 + gateAt r (t - ns)

/-- GATE_CONTROL_LIST_ENTRY (R436): the entry that Tide64, anchored at 0, is in. (DEDUCED, log 27) -/
def execGateControlListEntry (p : Fin 18) (s : State) : Host.Outcome State Fault Refusal :=
  .next (
    let l := s.gates p.val
    if s.inReset || gateCycle l = 0 then s
    else
      let b := s.bport p.val
      ({ s with bports := s.bports.put p.val { b with gcl := gateAt l (s.tide64 % gateCycle l) } }).kick p.val)

/-- A Sync as it leaves (R489, R490): its residence and the ingress link delay added to its own correctionField, in 2⁻¹⁶ ns; a Follow_Up leaves apart and
unchanged. (DEDUCED, log 26) -/
def State.syncOut (s : State) (m : SyncMsg) (resIn delay : Nat) : SyncMsg :=
  { m with corr := m.corr + ((s.tide.residence - resIn) / 2 ^ 14 + delay * 2 ^ 14 : Nat) }

/-- A frame as it leaves. -/
def State.outFrame (s : State) (f : TxFrame) : TxFrame :=
  match f.body with
  | .sync m resIn delay => { f with body := .sync (s.syncOut m resIn delay) 0 0 }
  | _ => f

/-- The configuration writes that wait for a REG_RESP take effect (R471). -/
def State.respSent (s : State) (p : Port) (q : Word) : State :=
  let (due, rest) := s.hcfg.partition (fun x => x.port = p && x.seq = q)
  due.foldl (fun s x => s.applyHcfg x.addr x.val) { s with hcfg := rest }

/-- What follows from a frame having left at a time-stamp. (DESIGN CHOICE, log 47) -/
def State.sent (s : State) (p : Nat) (f : TxFrame) (stamp : Int) : State :=
  match f.body with
  | .sqp o => if o.type = 0x03 then s.respSent o.port o.seq else s
  | .setpoint _ apply _ => if apply < s.tide64 then s.bump .loopLate else s
  | .pdelayReq => { s with tide := { s.tide with pdelayT1 := s.tide.pdelayT1.put p stamp } }
  | .pdelayResp _ => s.enqueue p { f with body := .pdelayRespFollowUp stamp }
  | _ => s

/-- FRAME_TRANSMIT (R487): the frame on the wire ends with its egress time-stamp, and the port takes the next. -/
def execFrameTransmit (p : Fin 18) (s : State) : Host.Outcome State Fault Refusal :=
  .next (
    let b := s.bport p.val
    match b.cur with
    | none => s
    | some f =>
      if s.inReset || !b.link then s
      else
        let stamp := s.txStamp p.val
        let s := { s with bports := s.bports.put p.val { b with cur := none, last := some (s.outFrame f, stamp) } }
        (s.sent p.val f stamp).kick p.val)

/-! ### The harrow and the TAP -/

/-- The chip-level memories with their sizes (R148), which no program addresses: the model numbers their bytes from 0x80000000 on, the loop
engine's first. -/
inductive ChipMem | loops | frames | store | supervisor
  deriving DecidableEq, Repr

/-- The chip-level memory that a number of the model's names a byte of (R148). (DEDUCED, log 57) -/
def chipMem (a : Nat) : Option ChipMem :=
  if a < 0x80000000 then none
  else if a < 0x80200000 then some .loops
  else if a < 0x80A00000 then some .frames
  else if a < 0x80E00000 then some .store
  else if a < 0x81000000 then some .supervisor
  else none

/-- A finding of the harrow in a chip-level memory (R161): an uncorrectable word is poisoned. The report's DETAIL is a free value: there is no
address to give. Poison in a loop's state waits for its next update (R354). (DEDUCED, log 44; DEDUCED, log 57) -/
def State.scrubChip (s : State) (m : ChipMem) (a : Nat) (w : HarrowWord) : State :=
  let n : Option Nat := if m = .loops then (loopAt a).filter (fun n => (s.loopCfg n).isSome) else none
  let unit := match n with
    | some n => ((s.loopCfg n).map LoopCfg.pipe).getD 15 * 16 + 15
    | none => 0xFF
  let (detail, s) := s.takeFree 32
  let syn := w.syndrome.toNat
  if !w.uncorrectable then s.report .chip .ce 0x01 unit syn detail.toNat
  else
    let s := { s with poison := s.poison.ins (a / 8) }
    match n with
    | some n => (s.report .chip .ucu 0x02 unit syn detail.toNat).onLoop n (fun l => { l with poison := true })
    | none => s.report .chip .ucm 0x02 unit syn detail.toNat

/-- A line scrubbed: of an SRAM of the address map, or of a chip-level memory (R148, R161). (DEDUCED, log 57) -/
def State.harrow (s : State) (line : Nat) (words : List HarrowWord) : State :=
  if sramLine line then s.scrub line words
  else match chipMem line with
    | none => s
    | some m => words.foldl (fun s w => s.scrubChip m (line + 8 * (w.word % 8)) w) s

/-- HARROW_SCRUB (R161, R163). (DEDUCED, log 57) -/
def execHarrowScrub (line : Word) (words : List HarrowWord) (s : State) : Host.Outcome State Fault Refusal :=
  .next (if s.inReset then s else s.harrow line.toNat words)

/-- A TAP instruction loaded (R585), with the data register that it selects. (PRESUMED, log 7) -/
def State.tapLoad (s : State) (i : TapInstr) (dr : Word) (control : Bool) : State :=
  { s with tap := { instr := i, dr := dr, control := s.tap.control || control } }

/-- A boundary-scan instruction: what the pins hold is a free value. (PRESUMED, log 7) -/
def State.tapScan (s : State) (i : TapInstr) (control : Bool) : State :=
  let (dr, s) := s.takeFree 32
  s.tapLoad i dr control

/-- BYPASS (R585). (PRESUMED, log 7) -/
def execBypass (s : State) : Host.Outcome State Fault Refusal := .next (s.tapLoad .bypass 0 false)

/-- IDCODE (R585). (PRESUMED, log 7) -/
def execIdcode (s : State) : Host.Outcome State Fault Refusal := .next (s.tapLoad .idcode 0x10C324C7 false)

/-- SAMPLE/PRELOAD (R585). -/
def execSamplePreload (s : State) : Host.Outcome State Fault Refusal := .next (s.tapScan .samplePreload false)

/-- EXTEST (R585). -/
def execExtest (s : State) : Host.Outcome State Fault Refusal := .next (s.tapScan .extest true)

/-- EXTEST_PULSE (R585). -/
def execExtestPulse (s : State) : Host.Outcome State Fault Refusal := .next (s.tapScan .extestPulse true)

/-- EXTEST_TRAIN (R585). -/
def execExtestTrain (s : State) : Host.Outcome State Fault Refusal := .next (s.tapScan .extestTrain true)

end Sys2Proof.Machine
end

