-- ==== Sys2Proof/Machine/Ctl.lean ====
section
/-!
DEFINITION. Sequencer operations (R122, R195, R198, R203-R206): SYNC, COMMIT, BRANCH, FBAR, what a barrier's release does, and the
events of a step: time-outs, traps, buffer flushes.
-/

namespace Sys2Proof.Machine

/-- The bytes of the status record of a sequencer operation (R184): it raises no flag, and reports POISON where its descriptor was (R159). -/
def ctlRecord (run : Nat) (bad : Bool) : List Byte := leBytes 4 (if bad then 32768 else 0) ++ leBytes 4 run

/-- The slots that a sequencer operation selects (R192); not SLOTWISE, it ignores the predicate (R193), and every LIVE slot is its. -/
def State.ctlSlots (s : State) (n : Nat) (d : Desc) : List Nat :=
  match (s.core n).run with
  | some (p, c) => if d.slotwise then s.selectedSlots p c (s.core n).rank d.predMask d.predVal else s.selectedSlots p c (s.core n).rank 0 0
  | none => []

/-- The status record that a sequencer operation writes when it completes (R184): its address, SLOTS_RUN and POISON. (DEDUCED, log 59) -/
def State.ctlStatus (s : State) (n : Nat) (d : Desc) (bad : Bool) : Except StepFault (Option (Nat × Nat × Bool)) :=
  (s.statusAt n ((s.header n).getD {}) d).map (fun st => st.map (fun a => (a, if d.slotwise then (s.ctlSlots n d).length else 1, bad)))

/-- A sequencer operation's record written (R184). (DEDUCED, log 59) -/
def State.putRecord (s : State) (n : Nat) (rc : Option (Nat × Nat × Bool)) : State :=
  match rc with
  | none => s
  | some (a, run, bad) => s.store n true a (ctlRecord run bad) false

/-- The common course of a sequencer operation: it waits for everything earlier (R179). `ok` holds its own conditions; `go` is its effect, given
whether its descriptor read poisoned (R159) and the record that it writes when it completes. -/
def State.control (s : State) (n : Nat) (k : OpCode) (d : Desc) (ok : Bool)
    (go : State → Bool → Option (Nat × Nat × Bool) → State) : State :=
  s.issue n k d (fun s i =>
    if !descPlain d false false || !ok then .error .descriptor
    else do
      let s := s.drain n
      if (s.core n).ops ≠ [] then .ok (.held s)
      else
        let bad := (s.fetchDesc n i).2
        let rc ← s.ctlStatus n d bad
        .ok (.done (go s bad rc)))

/-- SYNC BARRIER (R203): IMM[31:4] must be 0. -/
def execBarrier (n : Fin 32) (d : Desc) (s : State) : Host.Outcome State Fault Refusal :=
  .next (s.control n ⟨9, 0⟩ d (d.imm.toNat < 16) (fun s _ rc => s.waitFor n (.barrier d.imm.toNat) rc))

/-- SYNC FENCE (R205): every remote write of the core is visible once its operations are complete. -/
def execFence (n : Fin 32) (d : Desc) (s : State) : Host.Outcome State Fault Refusal :=
  .next (s.control n ⟨9, 1⟩ d true (fun s _ rc => s.putRecord n rc))

/-- COMMIT's effect (R198): buffers flushed, then COMMIT_REQ set in each selected slot, which a poisoned descriptor bars (R159). -/
def State.commitReq (s : State) (n : Nat) (d : Desc) (bad : Bool) : State :=
  let s := s.flushCore n
  match (s.core n).run with
  | none => s
  | some (p, c) => (s.ctlSlots n d).foldl (fun s k =>
      s.onSlot p c (s.core n).rank k (fun t => if bad then { t with state := t.state ||| 0x0300, flags := t.flags ||| 0x4000 }
        else { t with state := t.state ||| 0x0200 })) s

/-- COMMIT (R198). -/
def execCommit (n : Fin 32) (d : Desc) (s : State) : Host.Outcome State Fault Refusal :=
  .next (s.control n ⟨0xA, 0⟩ d true (fun s bad rc => (s.commitReq n d bad).putRecord n rc))

/-- Execution continues at a descriptor (R195). -/
def State.jumpTo (s : State) (n k : Nat) : State := s.onCore n (fun c => { c with next := k })

/-- Whether a branch's target is a descriptor of the program (R195). -/
def State.targetOk (s : State) (n : Nat) (d : Desc) : Bool :=
  match s.header n with
  | none => true
  | some h => d.imm.toNat % 65536 < h.descCount

/-- CLASS and SUBOP of a BRANCH (R185): SUBOP[2:0] 0 END, 1 JUMP, 2 IF_ANY, 3 IF_ALL, 4 IF_NONE; [5] PAN. -/
def branchCode (kind : Nat) (pan : Bool) : OpCode := ⟨0xB, kind + 32 * bitN pan⟩

/-- Whether a branch jumps, over the LIVE slots of some ranks (R195); JUMP and END always do. -/
def State.branchTakes (s : State) (p c : Nat) (ranks : List Nat) (kind : Nat) (mask val : BitVec 16) : Bool :=
  let live := ranks.flatMap (fun r => match s.prog p c r with
    | none => []
    | some h => ((List.range h.slots).map (fun k => s.slot p c r k)).filter SlotSt.live)
  match kind with
  | 2 => live.any (fun t => t.selected mask val)
  | 3 => live.all (fun t => t.selected mask val)
  | 4 => !(live.any (fun t => t.selected mask val))
  | _ => true

/-- A branch taken on a core (R177, R195): END ends the core's step, the others continue at the target. -/
def State.branchTo (s : State) (n kind target : Nat) : State := if kind = 0 then s.endCore n else s.jumpTo n target

/-- A BRANCH (R177, R195): on the core, or with PAN as a barrier. -/
def State.branch (s : State) (n kind : Nat) (d : Desc) (pan : Bool) : State :=
  let target := d.imm.toNat % 65536
  s.control n (branchCode kind pan) d (kind = 0 || s.targetOk n d) (fun s _ rc =>
    match (s.core n).run with
    | none => s
    | some (p, c) =>
      if pan then s.waitFor n (.branch kind target d.predMask d.predVal) rc
      else
        let s := s.putRecord n rc
        if s.branchTakes p c [(s.core n).rank] kind d.predMask d.predVal then s.branchTo n kind target else s)

/-- BRANCH END (R177). -/
def execStepEnd (n : Fin 32) (d : Branch) (s : State) : Host.Outcome State Fault Refusal := .next (s.branch n 0 d.desc d.pan)

/-- BRANCH JUMP (R195). -/
def execJump (n : Fin 32) (d : Branch) (s : State) : Host.Outcome State Fault Refusal := .next (s.branch n 1 d.desc d.pan)

/-- BRANCH IF_ANY. -/
def execIfAny (n : Fin 32) (d : Desc) (pan : Bool) (s : State) : Host.Outcome State Fault Refusal := .next (s.branch n 2 d pan)

/-- BRANCH IF_ALL. -/
def execIfAll (n : Fin 32) (d : Desc) (pan : Bool) (s : State) : Host.Outcome State Fault Refusal := .next (s.branch n 3 d pan)

/-- BRANCH IF_NONE. -/
def execIfNone (n : Fin 32) (d : Desc) (pan : Bool) (s : State) : Host.Outcome State Fault Refusal := .next (s.branch n 4 d pan)

/-- FBAR (R122): earlier results and flags are complete, and a trap they raised is delivered; where none ends the step, buffers are flushed
(R133) and the FBAR completes. (DEDUCED, log 59) -/
def execFbar (n : Fin 32) (d : Desc) (s : State) : Host.Outcome State Fault Refusal :=
  .next (s.control n ⟨0xC, 0⟩ d true (fun s _ rc =>
    let s := s.deliverTraps n
    if (s.core n).stepping then (s.flushCore n).putRecord n rc else s))

/-! ### Release of a barrier -/

/-- What a rank of a core waits for at a barrier, if it does. -/
def Core.waitAt (k : Core) (rank : Nat) : Option Wait :=
  let (on, w) := if k.turns = [] ∨ k.rank = rank then (k.stepping, k.wait)
    else match k.turns.find? (fun t => t.rank = rank) with
      | some t => (!t.ended, t.wait)
      | none => (false, none)
  match w with
  | some (.fullEmpty .., _) => none
  | some (w, _) => if on then some w else none
  | none => none

/-- What every rank of a context waits for at a barrier, with its core and number; none unless all wait (R203). -/
def State.gathered (s : State) (cores : List Nat) : Option (List (Nat × Nat × Wait)) :=
  (rankCores cores).mapM (fun x => ((s.core x.1).waitAt x.2).map (fun w => (x.1, x.2, w)))

/-- A core goes on from a barrier: the descriptor it waited at is complete, and writes its record (R184). -/
def State.resume (s : State) (n : Nat) : State :=
  let rc := (s.core n).waitRec
  (s.onCore n (fun k => { k with wait := none, waitRec := none })).putRecord n rc

/-- An operation's results pushed on a core once a barrier has gathered its parts: what they are computed from and the destinations, per
target. -/
def State.pushRes (s : State) (n : Nat) (d : Desc) (index : Nat) (narrow : Bool) (os : List (List Opnd × List Opnd)) (res : List SlotRes) :
    State :=
  match (s.core n).run, s.header n with
  | some (p, c), some h =>
    let st := match s.statusAt n h d with
      | .ok a => a
      | .error _ => none
    let rows := os.map (fun o => o.1.flatMap (s.rowSpans n))
    let bad := (s.fetchDesc n index).2
    s.push n p c { s.opOf n index d narrow st res.length os (fun _ => true) with
      res := (res.zip rows).map (fun x => { x.1 with reads := x.2, bad := x.1.bad || bad }) }
  | _, _ => s

/-- A gathered descriptor's operands for its targets; a target whose operands fault has none. -/
def targetOpnds (ts : List (Option Nat)) (opnds : Option Nat → Except StepFault (List Opnd × List Opnd)) : List (List Opnd × List Opnd) :=
  ts.map (fun t => match opnds t with
    | .ok o => o
    | .error _ => ([], []))

/-- The reads of a core's part in a gathered descriptor pass its buffers: a REDUCE's are the vector unit's, a GEMM's the tensor array's (R126, R132,
R133). (DEDUCED, log 36) -/
def State.readPart (s : State) (n : Nat) (w : Wait) : State :=
  match w with
  | .reduce d _ axis i =>
    let os := targetOpnds (s.coreTargets n d) (reduceOpnds d axis)
    s.readAll n (s.opOf n i d true none 0 os (fun _ => true))
  | .gemm d cin ta tb i =>
    let os := targetOpnds (s.coreTargets n d) (gemmOpnds d cin ta tb)
    s.readAll n (s.opOf n i d false none 0 os (fun _ => true))
  | _ => s

/-- A rank's own part of a REDUCE with PAN, for a target: its results with the operand read. -/
def State.reducePart (s : State) (n : Nat) (w : Wait) (t : Option Nat) : Option (List (Val × Fl) × OpndVal) :=
  match w with
  | .reduce d sub axis _ =>
    match s.rmOf n d, reduceOpnds d axis t with
    | some rm, .ok ([a], [o]) =>
      if (s.coreTargets n d).contains t then
        let x := s.readOpnd n a
        some (reduceLocal o.spec rm sub axis d.n.toNat x, x)
      else none
    | _, _ => none
  | _ => none

/-- Results combined over the ranks that have a target, element by element, by core rank (R190). -/
def combineRanks (f : Val × Fl → Val × Fl → Val × Fl) (parts : List (List (Val × Fl))) : List (Val × Fl) :=
  let n := (parts.map List.length).foldl max 0
  (List.range n).map (fun i => (treeOf f (parts.filterMap (fun l => l[i]?))).getD (Val.zero, {}))

/-- A rank's results of a REDUCE with PAN for a target (R190): every rank receives the combined results, poisoned where any part is (R159). (DESIGN CHOICE, log 68) -/
def State.reduceShare (s : State) (rw : List (Nat × Nat × Wait)) (n : Nat) (d : Desc) (sub : Nat) (axis : Bool) (t : Option Nat) : SlotRes :=
  match s.rmOf n d, reduceOpnds d axis t with
  | some rm, .ok ([a], [o]) =>
    let parts := rw.filterMap (fun y => (s.turnTo y.1 y.2.1).reducePart y.1 y.2.2 t)
    let all := combineRanks (reduceOp o.spec rm sub) (parts.map Prod.fst)
    { (s.vecRes n 1 rm o [s.readOpnd n a] (reduceMat axis all)) with slot := t, bad := parts.any (fun q => q.2.bad) }
  | _, _ => { slot := t }

/-- REDUCE with PAN released (R190). -/
def State.releaseReduce (s : State) (rw : List (Nat × Nat × Wait)) : State :=
  let s := rw.foldl (fun s x => (s.turnTo x.1 x.2.1).readPart x.1 x.2.2) s
  let s0 := s
  rw.foldl (fun s x =>
    match x.2.2 with
    | .reduce d sub axis i =>
      let v := s0.turnTo x.1 x.2.1
      let ts := v.coreTargets x.1 d
      (s.turnTo x.1 x.2.1).pushRes x.1 d i true (targetOpnds ts (reduceOpnds d axis)) (ts.map (v.reduceShare rw x.1 d sub axis))
    | _ => s) s

/-- A rank's own part of a GEMM with PANK, for a target. -/
def State.gemmPart (s : State) (n : Nat) (w : Wait) (t : Option Nat) : Option (List (List Part) × List OpndVal) :=
  match w with
  | .gemm d cin ta tb _ =>
    match gemmOpnds d cin ta tb t with
    | .ok (a :: b :: _, _) => if (s.coreTargets n d).contains t then some (s.gemmParts n d ta tb a b) else none
    | _ => none
  | _ => none

/-- Parts of one output combined by core rank (R94 stage 2). -/
def combineParts (ps : List (List (List Part))) (rows cols : Nat) : List (List Part) :=
  (List.range rows).map (fun i => (List.range cols).map (fun j =>
    (treeOf Part.add (ps.filterMap (fun m => elemAt m i j))).getD (.flt Val.zero {})))

/-- Rank 0's results of a GEMM with PANK for a target (R94, R185): it combines every rank's parts, whose own flags those ranks report
(R118), adds its own C_in and writes D, poisoned where any part is (R159). -/
def State.gemmShare (s : State) (rw : List (Nat × Nat × Wait)) (n : Nat) (d : Desc) (cin ta tb : Bool) (t : Option Nat) : SlotRes :=
  match gemmOpnds d cin ta tb t with
  | .ok (a :: b :: c, [o]) =>
    let parts := rw.filterMap (fun y => ((s.turnTo y.1 y.2.1).gemmPart y.1 y.2.2 t).map (fun q => (y.2.1 == 0, q)))
    let ps := parts.map (fun q => if q.1 then q.2.1 else q.2.1.map (fun r => r.map Part.quiet))
    let own := parts.flatMap (fun q => if q.1 then q.2.2 else [])
    let r := s.gemmOut n a b o c.head? (combineParts ps o.rows o.cols) own
    { r with slot := t, bad := r.bad || parts.any (fun q => q.2.2.any OpndVal.bad) }
  | _ => { slot := t }

/-- What another rank reports of its part of a GEMM with PANK (R82, R118). -/
def State.gemmOwn (s : State) (n : Nat) (w : Wait) (t : Option Nat) : SlotRes :=
  match s.gemmPart n w t with
  | some (ps, ins) => { (partReport ins (ps.flatten.map Part.fl)) with slot := t }
  | none => { slot := t }

/-- GEMM with PANK released (R94, R185): D is written on pan rank 0 only, and C_in is rank 0's. -/
def State.releaseGemm (s : State) (rw : List (Nat × Nat × Wait)) : State :=
  let s := rw.foldl (fun s x => (s.turnTo x.1 x.2.1).readPart x.1 x.2.2) s
  let s0 := s
  rw.foldl (fun s x =>
    match x.2.2 with
    | .gemm d cin ta tb i =>
      let v := s0.turnTo x.1 x.2.1
      let t := s.turnTo x.1 x.2.1
      let ts := v.coreTargets x.1 d
      let os := targetOpnds ts (gemmOpnds d cin ta tb)
      if x.2.1 = 0 then t.pushRes x.1 d i false os (ts.map (v.gemmShare rw x.1 d cin ta tb))
      else t.pushRes x.1 d i false (os.map (fun o => (o.1.take 2, []))) (ts.map (v.gemmOwn x.1 x.2.2))
    | _ => s) s

/-- A BRANCH with PAN released (R195): every core takes the direction that all LIVE slots of the pan give. Two ENDs end both cores' steps. -/
def State.releaseBranch (s : State) (p c : Nat) (rw : List (Nat × Nat × Wait)) : State :=
  rw.foldl (fun s x => match x.2.2 with
    | .branch kind target mask val =>
      if s.branchTakes p c (List.range rw.length) kind mask val then (s.turnTo x.1 x.2.1).branchTo x.1 kind target else s
    | _ => s) s

/-- Whether two waits are for one release. -/
def Wait.same : Wait → Wait → Bool
  | .barrier a, .barrier b => a = b
  | .branch .., .branch .. => true
  | .reduce _ a _ _, .reduce _ b _ _ => a = b
  | .gemm .., .gemm .. => true
  | _, _ => false

/-- The first rank's wait decides what a release does: what every rank waited at is done for all of them (R190, R195, R203). -/
def State.release (s : State) (p c : Nat) (rw : List (Nat × Nat × Wait)) (w : Wait) : State :=
  match w with
  | .reduce .. => s.releaseReduce rw
  | .gemm .. => s.releaseGemm rw
  | .branch .. => s.releaseBranch p c rw
  | _ => s

/-- BARRIER_RELEASE (R190, R195, R203): every core of the context has arrived. (DEDUCED, log 59) -/
def execBarrierRelease (p : Fin 16) (c : Fin 8) (s : State) : Host.Outcome State Fault Refusal :=
  .next (
    let x := s.ctx p c
    if s.inReset || !x.live then s
    else match s.gathered x.ranks with
      | some (w :: ws) =>
        if ws.all (fun y => Wait.same w.2.2 y.2.2) then
          let s := (w :: ws).foldl (fun s y => (s.turnTo y.1 y.2.1).resume y.1) s
          (w :: ws).foldl (fun s y => (s.turnTo y.1 y.2.1).passEnd y.1) (s.release p c (w :: ws) w.2.2)
        else s
      | _ => s)

/-- BARRIER_TIMEOUT (R206): a core has waited more than BARRIER_WAIT cycles of ACLK (two to a cycle of NCLK). -/
def execBarrierTimeout (n : Fin 32) (s : State) : Host.Outcome State Fault Refusal :=
  .next (
    match s.header n with
    | some h =>
      match (s.core n).waits.find? (fun w => Wait.barred (some w.1) && h.barrierWait < 2 * (s.nclk - w.1.2)) with
      | some w => if s.inReset then s else s.fault n s.waitFault (w.2 - 1)
      | none => s
    | none => s)

/-- TRAP_DELIVERY (R120, R207). -/
def execTrapDelivery (n : Fin 32) (s : State) : Host.Outcome State Fault Refusal :=
  .next (if s.inReset then s else s.deliverTrap n)

/-- BUFFER_FLUSH (R133): the entries of a cell's coalescing buffer that are 16 ACLK cycles old. (DEDUCED, log 36) -/
def execBufferFlush (n : Fin 32) (cell : Fin 16) (s : State) : Host.Outcome State Fault Refusal :=
  .next (
    if s.inReset then s
    else ((s.core n).buf.filter (fun e => cellOf e.line = cell.val && 16 ≤ 2 * (s.nclk - e.since))).foldl
      (fun s e => s.flushEntry n e) s)

end Sys2Proof.Machine
end

