-- ==== Sys2Proof/Machine/Dispatch.lean ====
section
/-!
DEFINITION. The meaning of each command: one arm per constructor.
-/

namespace Sys2Proof.Machine

/-- The effect of a command on everything but the queue of commands. -/
def exec (i : Instr) (s : State) : Host.Outcome State Fault Refusal :=
  match i with
  | .porstNAssert ns acts => Sys2Proof.Machine.execPorstNAssert ns acts s
  | .porstNRelease puf entropy => Sys2Proof.Machine.execPorstNRelease puf entropy s
  | .sysrstN ns acts => Sys2Proof.Machine.execSysrstN ns acts s
  | .pwrSag lowNs => Sys2Proof.Machine.execPwrSag lowNs s
  | .vddIoLow mv => Sys2Proof.Machine.execVddIoLow mv s
  | .vddCoreLow mv => Sys2Proof.Machine.execVddCoreLow mv s
  | .ledgerWriteResume => Sys2Proof.Machine.execLedgerWriteResume s
  | .brownOut rail mv ns => Sys2Proof.Machine.execBrownOut rail mv ns s
  | .brownOutExit => Sys2Proof.Machine.execBrownOutExit s
  | .pllUnlock => Sys2Proof.Machine.execPllUnlock s
  | .pllRelockExit => Sys2Proof.Machine.execPllRelockExit s
  | .thermalSample temps => Sys2Proof.Machine.execThermalSample temps s
  | .thermTrip celsius => Sys2Proof.Machine.execThermTrip celsius s
  | .linkUp p speed master => Sys2Proof.Machine.execLinkUp p speed master s
  | .linkDown p => Sys2Proof.Machine.execLinkDown p s
  | .frameReceive f => Sys2Proof.Machine.execFrameReceive f s
  | .regRead h addr count => Sys2Proof.Machine.execRegRead h addr count s
  | .regWrite h addr count vals => Sys2Proof.Machine.execRegWrite h addr count vals s
  | .sqpFragment h type total ofs data => Sys2Proof.Machine.execSqpFragment h type total ofs data s
  | .reassemblyTimeout port s0 => Sys2Proof.Machine.execReassemblyTimeout port s0 s
  | .queueOpen h => Sys2Proof.Machine.execQueueOpen h s
  | .queueAdopt h => Sys2Proof.Machine.execQueueAdopt h s
  | .queueClose h => Sys2Proof.Machine.execQueueClose h s
  | .queueCloseAck q => Sys2Proof.Machine.execQueueCloseAck q s
  | .submit h b => Sys2Proof.Machine.execSubmit h b s
  | .cancel h tag => Sys2Proof.Machine.execCancel h tag s
  | .windowOpen h region ofs len => Sys2Proof.Machine.execWindowOpen h region ofs len s
  | .windowClose h => Sys2Proof.Machine.execWindowClose h s
  | .windowWrite h ofs data => Sys2Proof.Machine.execWindowWrite h ofs data s
  | .windowWriteApply w => Sys2Proof.Machine.execWindowWriteApply w s
  | .windowRead h ofs len => Sys2Proof.Machine.execWindowRead h ofs len s
  | .semAcquire h leaseMs => Sys2Proof.Machine.execSemAcquire h leaseMs s
  | .semRelease h => Sys2Proof.Machine.execSemRelease h s
  | .semStatus h => Sys2Proof.Machine.execSemStatus h s
  | .semLeaseExpiry n => Sys2Proof.Machine.execSemLeaseExpiry n s
  | .imageBegin h kind slot refId total => Sys2Proof.Machine.execImageBegin h kind slot refId total s
  | .imageData h ofs data => Sys2Proof.Machine.execImageData h ofs data s
  | .imageEnd h => Sys2Proof.Machine.execImageEnd h s
  | .containerVerification x => Sys2Proof.Machine.execContainerVerification x s
  | .supervisorStart => Sys2Proof.Machine.execSupervisorStart s
  | .referenceDecodeDone x => Sys2Proof.Machine.execReferenceDecodeDone x s
  | .attestReq h nonce => Sys2Proof.Machine.execAttestReq h nonce s
  | .hostAck h => Sys2Proof.Machine.execHostAck h s
  | .resendTimer port seq => Sys2Proof.Machine.execResendTimer port seq s
  | .svcRead cmd addr complete => Sys2Proof.Machine.execSvcRead cmd addr complete s
  | .svcWrite cmd addr val complete => Sys2Proof.Machine.execSvcWrite cmd addr val complete s
  | .counterOvfClear src addr => Sys2Proof.Machine.execCounterOvfClear src addr s
  | .glbModeWrite src val => Sys2Proof.Machine.execGlbModeWrite src val s
  | .vuCtrlWrite src core val => Sys2Proof.Machine.execVuCtrlWrite src core val s
  | .logClear src log => Sys2Proof.Machine.execLogClear src log s
  | .hbusCfgWrite src ch val => Sys2Proof.Machine.execHbusCfgWrite src ch val s
  | .hbusTrainingDone ch pass => Sys2Proof.Machine.execHbusTrainingDone ch pass s
  | .hportCfgWrite src n r val => Sys2Proof.Machine.execHportCfgWrite src n r val s
  | .load src pan ctx catalog => Sys2Proof.Machine.execLoad src pan ctx catalog s
  | .loadDone pan ctx => Sys2Proof.Machine.execLoadDone pan ctx s
  | .unload src pan ctx => Sys2Proof.Machine.execUnload src pan ctx s
  | .preempt src pan => Sys2Proof.Machine.execPreempt src pan s
  | .pause src pan on => Sys2Proof.Machine.execPause src pan on s
  | .waitSumLoRead src client => Sys2Proof.Machine.execWaitSumLoRead src client s
  | .tideNowNsRead src => Sys2Proof.Machine.execTideNowNsRead src s
  | .tideAddendWrite src val => Sys2Proof.Machine.execTideAddendWrite src val s
  | .step src => Sys2Proof.Machine.execStep src s
  | .set src => Sys2Proof.Machine.execSet src s
  | .rearm src => Sys2Proof.Machine.execRearm src s
  | .syncReceive m => Sys2Proof.Machine.execSyncReceive m s
  | .holdoverTimeout => Sys2Proof.Machine.execHoldoverTimeout s
  | .bestMasterChange gm logInterval => Sys2Proof.Machine.execBestMasterChange gm logInterval s
  | .pdelayReq p domain => Sys2Proof.Machine.execPdelayReq p domain s
  | .pdelayTimer p => Sys2Proof.Machine.execPdelayTimer p s
  | .pdelayResp p domain turnaround => Sys2Proof.Machine.execPdelayResp p domain turnaround s
  | .ppsInEdge => Sys2Proof.Machine.execPpsInEdge s
  | .ppsOutEdge => Sys2Proof.Machine.execPpsOutEdge s
  | .avsAppliedWrite src val => Sys2Proof.Machine.execAvsAppliedWrite src val s
  | .avsStep => Sys2Proof.Machine.execAvsStep s
  | .avsLateTimeout => Sys2Proof.Machine.execAvsLateTimeout s
  | .salinometerSample readings => Sys2Proof.Machine.execSalinometerSample readings s
  | .wearRecord shutdown => Sys2Proof.Machine.execWearRecord shutdown s
  | .hoursRecord shutdown => Sys2Proof.Machine.execHoursRecord shutdown s
  | .ledgerRecordCommit readBackOk => Sys2Proof.Machine.execLedgerRecordCommit readBackOk s
  | .format src => Sys2Proof.Machine.execFormat src s
  | .ledgerRdDataRead src => Sys2Proof.Machine.execLedgerRdDataRead src s
  | .shutdownReq src => Sys2Proof.Machine.execShutdownReq src s
  | .shutdownBistDone fail columns => Sys2Proof.Machine.execShutdownBistDone fail columns s
  | .startSelfTestDone fail columns => Sys2Proof.Machine.execStartSelfTestDone fail columns s
  | .apply src => Sys2Proof.Machine.execApply src s
  | .applyComplete => Sys2Proof.Machine.execApplyComplete s
  | .discard src => Sys2Proof.Machine.execDiscard src s
  | .enrol src => Sys2Proof.Machine.execEnrol src s
  | .secStoreCfgWrite src val => Sys2Proof.Machine.execSecStoreCfgWrite src val s
  | .secModelDel src index => Sys2Proof.Machine.execSecModelDel src index s
  | .activate src sel => Sys2Proof.Machine.execActivate src sel s
  | .clear src sel => Sys2Proof.Machine.execClear src sel s
  | .en src loop on => Sys2Proof.Machine.execEn src loop on s
  | .feClr src loop => Sys2Proof.Machine.execFeClr src loop s
  | .loopHostTargetWrite src loop ff mant => Sys2Proof.Machine.execLoopHostTargetWrite src loop ff mant s
  | .loopTraceTrig src mask => Sys2Proof.Machine.execLoopTraceTrig src mask s
  | .loopTraceCtrlWrite src trace val => Sys2Proof.Machine.execLoopTraceCtrlWrite src trace val s
  | .loopTick => Sys2Proof.Machine.execLoopTick s
  | .sampleLatch slot => Sys2Proof.Machine.execSampleLatch slot s
  | .updateIssue pair => Sys2Proof.Machine.execUpdateIssue pair s
  | .updateCompare pair agree => Sys2Proof.Machine.execUpdateCompare pair agree s
  | .lockstepKatDone pair pass0 pass1 => Sys2Proof.Machine.execLockstepKatDone pair pass0 pass1 s
  | .setpointFrameSend => Sys2Proof.Machine.execSetpointFrameSend s
  | .tracePageSpill trace => Sys2Proof.Machine.execTracePageSpill trace s
  | .tracePageSend trace => Sys2Proof.Machine.execTracePageSend trace s
  | .measFrame stream payload => Sys2Proof.Machine.execMeasFrame stream payload s
  | .fieldTimeout field => Sys2Proof.Machine.execFieldTimeout field s
  | .rtpPacket stream pkt => Sys2Proof.Machine.execRtpPacket stream pkt s
  | .precinctDecode stream => Sys2Proof.Machine.execPrecinctDecode stream s
  | .decodeBudgetExpiry stream => Sys2Proof.Machine.execDecodeBudgetExpiry stream s
  | .videoFrameComplete stream => Sys2Proof.Machine.execVideoFrameComplete stream s
  | .parameterSetHandover binding => Sys2Proof.Machine.execParameterSetHandover binding s
  | .deadlineHarvest => Sys2Proof.Machine.execDeadlineHarvest s
  | .notStartedThreshold => Sys2Proof.Machine.execNotStartedThreshold s
  | .sliceEntryStart pan => Sys2Proof.Machine.execSliceEntryStart pan s
  | .sliceEntryEnd pan => Sys2Proof.Machine.execSliceEntryEnd pan s
  | .stepBoundary pan ctx => Sys2Proof.Machine.execStepBoundary pan ctx s
  | .stepBudgetEnd pan ctx => Sys2Proof.Machine.execStepBudgetEnd pan ctx s
  | .copy core d => Sys2Proof.Machine.execCopy core d s
  | .fill core d => Sys2Proof.Machine.execFill core d s
  | .feRead core d => Sys2Proof.Machine.execFeRead core d s
  | .feWrite core d => Sys2Proof.Machine.execFeWrite core d s
  | .pageLoad core d => Sys2Proof.Machine.execPageLoad core d s
  | .pageStore core d => Sys2Proof.Machine.execPageStore core d s
  | .gemm core d cin transA transB pank => Sys2Proof.Machine.execGemm core d cin transA transB pank s
  | .add core d => Sys2Proof.Machine.execAdd core d s
  | .sub core d => Sys2Proof.Machine.execSub core d s
  | .mul core d => Sys2Proof.Machine.execMul core d s
  | .fma core d => Sys2Proof.Machine.execFma core d s
  | .max core d => Sys2Proof.Machine.execMax core d s
  | .min core d => Sys2Proof.Machine.execMin core d s
  | .abs core d => Sys2Proof.Machine.execAbs core d s
  | .neg core d => Sys2Proof.Machine.execNeg core d s
  | .idiv core d => Sys2Proof.Machine.execIdiv core d s
  | .irem core d => Sys2Proof.Machine.execIrem core d s
  | .shl core d => Sys2Proof.Machine.execShl core d s
  | .shr core d => Sys2Proof.Machine.execShr core d s
  | .and core d => Sys2Proof.Machine.execAnd core d s
  | .or core d => Sys2Proof.Machine.execOr core d s
  | .xor core d => Sys2Proof.Machine.execXor core d s
  | .twosum core d => Sys2Proof.Machine.execTwosum core d s
  | .twoprod core d => Sys2Proof.Machine.execTwoprod core d s
  | .padd core d => Sys2Proof.Machine.execPadd core d s
  | .pmul core d => Sys2Proof.Machine.execPmul core d s
  | .test core d => Sys2Proof.Machine.execTest core d s
  | .setstate core d => Sys2Proof.Machine.execSetstate core d s
  | .reduceSum core d axis pan => Sys2Proof.Machine.execReduceSum core d axis pan s
  | .reduceMax core d axis pan => Sys2Proof.Machine.execReduceMax core d axis pan s
  | .reduceMin core d axis pan => Sys2Proof.Machine.execReduceMin core d axis pan s
  | .normInf core d axis pan => Sys2Proof.Machine.execNormInf core d axis pan s
  | .sumsq core d axis pan => Sys2Proof.Machine.execSumsq core d axis pan s
  | .ldltDense core d => Sys2Proof.Machine.execLdltDense core d s
  | .ldltStaged core d => Sys2Proof.Machine.execLdltStaged core d s
  | .trsolveForward core d => Sys2Proof.Machine.execTrsolveForward core d s
  | .trsolveDiag core d => Sys2Proof.Machine.execTrsolveDiag core d s
  | .trsolveBackward core d => Sys2Proof.Machine.execTrsolveBackward core d s
  | .trsolveFull core d => Sys2Proof.Machine.execTrsolveFull core d s
  | .div core d => Sys2Proof.Machine.execDiv core d s
  | .sqrt core d => Sys2Proof.Machine.execSqrt core d s
  | .recip core d => Sys2Proof.Machine.execRecip core d s
  | .rsqrt core d => Sys2Proof.Machine.execRsqrt core d s
  | .certOptimality core d cls => Sys2Proof.Machine.execCertOptimality core d cls s
  | .certPrimalInfeasibility core d cls => Sys2Proof.Machine.execCertPrimalInfeasibility core d cls s
  | .certDualInfeasibility core d cls => Sys2Proof.Machine.execCertDualInfeasibility core d cls s
  | .certEkf core d => Sys2Proof.Machine.execCertEkf core d s
  | .conv core d => Sys2Proof.Machine.execConv core d s
  | .barrier core d => Sys2Proof.Machine.execBarrier core d s
  | .barrierRelease pan ctx => Sys2Proof.Machine.execBarrierRelease pan ctx s
  | .barrierTimeout core => Sys2Proof.Machine.execBarrierTimeout core s
  | .fence core d => Sys2Proof.Machine.execFence core d s
  | .commit core d => Sys2Proof.Machine.execCommit core d s
  | .stepEnd core d => Sys2Proof.Machine.execStepEnd core d s
  | .jump core d => Sys2Proof.Machine.execJump core d s
  | .ifAny core d pan => Sys2Proof.Machine.execIfAny core d pan s
  | .ifAll core d pan => Sys2Proof.Machine.execIfAll core d pan s
  | .ifNone core d pan => Sys2Proof.Machine.execIfNone core d pan s
  | .fbar core d => Sys2Proof.Machine.execFbar core d s
  | .operationComplete core f => Sys2Proof.Machine.execOperationComplete core f s
  | .trapDelivery core => Sys2Proof.Machine.execTrapDelivery core s
  | .slotTimeout core => Sys2Proof.Machine.execSlotTimeout core s
  | .bufferFlush core cell => Sys2Proof.Machine.execBufferFlush core cell s
  | .remoteAccessComplete core => Sys2Proof.Machine.execRemoteAccessComplete core s
  | .hbusPageTransfer ch crcErrors => Sys2Proof.Machine.execHbusPageTransfer ch crcErrors s
  | .sluiceTokenGrant pan b => Sys2Proof.Machine.execSluiceTokenGrant pan b s
  | .harrowScrub line words => Sys2Proof.Machine.execHarrowScrub line words s
  | .harrowRewrite => Sys2Proof.Machine.execHarrowRewrite s
  | .bankCopyDone r => Sys2Proof.Machine.execBankCopyDone r s
  | .coreCopyDone r => Sys2Proof.Machine.execCoreCopyDone r s
  | .logRecord l => Sys2Proof.Machine.execLogRecord l s
  | .bypass => Sys2Proof.Machine.execBypass s
  | .idcode => Sys2Proof.Machine.execIdcode s
  | .samplePreload => Sys2Proof.Machine.execSamplePreload s
  | .extest => Sys2Proof.Machine.execExtest s
  | .extestPulse => Sys2Proof.Machine.execExtestPulse s
  | .extestTrain => Sys2Proof.Machine.execExtestTrain s
  | .gateControlListEntry p => Sys2Proof.Machine.execGateControlListEntry p s
  | .frameTransmit p => Sys2Proof.Machine.execFrameTransmit p s
  | .hbusLost ch => Sys2Proof.Machine.execHbusLost ch s
  | .ledgerEraseDone => Sys2Proof.Machine.execLedgerEraseDone s

end Sys2Proof.Machine
end

