-- ==== Sys2Proof/Machine/Step.lean ====
section
/-!
DEFINITION. One step of the block: the command at the front of the queue, or one NCLK cycle when none waits.
-/

namespace Sys2Proof.Machine

/-- The step on an empty queue (log entry 1): one NCLK cycle, in which Tide counts (R28, R472); none passes while a reset holds. (DESIGN CHOICE, log 1; DEDUCED, log 61) -/
def State.cycle (s : State) : State := if s.inReset then s else s.tick

/-- One step: the front command acts on the state with the queue's rest. (DESIGN CHOICE, log 1) -/
def step (s : State) : Host.Outcome State Fault Refusal :=
  match s.pending with
  | [] => .next s.cycle
  | c :: rest => exec c { s with pending := rest }

/-- A state with the command that a word spells put at the front of its queue. (DESIGN CHOICE, log 8) -/
def State.withFetchWord (s : State) (nbits w : Nat) : State :=
  match decodeTableWord nbits w with
  | some c => { s with pending := c :: s.pending }
  | none => s

end Sys2Proof.Machine
end

