-- ==== Sys2Proof/Safety.lean ====
section
/-!
DEFINITION. What counts as a safe run of the C32, in the terms that statements use: a step that answers a next state, and the
invariant of the state that every step keeps.
-/

namespace Sys2Proof.Machine

/-- A log is within what R500 gives it: at most four reports in its buffer, its entries within its capacity, and a count of lost
reports that has not passed the maximum of R501. -/
def ErrLog.within (cap : Nat) (l : ErrLog) : Prop := l.buf.length ≤ 4 ∧ l.entries.length ≤ cap ∧ l.lost.n ≤ 2 ^ 16 - 1

/-- The entries of a core's coalescing buffers hold different lines, each at a line's address (R132). -/
def State.LinesApart (s : State) (n : Nat) : Prop :=
  ((s.core n).buf.map BufEntry.line).Nodup ∧ ∀ e ∈ (s.core n).buf, e.line % 64 = 0

/-- What holds of every state the C32 can be in: its memory and the ledger's flash are in their canonical form; Tide's
nanoseconds and their fraction lie in their ranges (R472); no counter has passed its maximum (R36); at most 64 frames of a host
port are unacknowledged (R453); the error logs are within their capacities (R500, R501); no two instances that are held have
the same number, and none has the next one to be given (R255); the entries of a core's coalescing buffers hold different lines (R132). -/
structure State.Inv (s : State) : Prop where
  mem : Bytes.wfFrom 0 0 s.mem = true
  flash : Bytes.wfFrom 0xFF 0 s.ledger.flash = true
  tideNs : s.tide.ns < 1000000000
  tideFrac : s.tide.frac < 2 ^ 30
  counts : ∀ c : Ctr, (s.count c).n ≤ 2 ^ 31 - 1
  unackedA : s.hportA.unacked.length ≤ 64
  unackedB : s.hportB.unacked.length ≤ 64
  logs : ∀ l : LogId, (s.log l).within (logCap l)
  jobIds : (s.jobs.map Job.id).Nodup
  jobNext : ∀ j ∈ s.jobs, j.id < s.nextJob
  lines : ∀ n : Nat, s.LinesApart n

/-- A state reached from another by an operation of the machine: the commands that wait are the same, and the invariant of a
state is not broken. -/
def State.Keeps (s t : State) : Prop := t.pending = s.pending ∧ (s.Inv → t.Inv)

/-- A command that ends in a next state, with the commands that wait untouched and the invariant kept. -/
def Instr.Kept (c : Instr) : Prop := ∀ s : State, ∃ t, exec c s = .next t ∧ s.Keeps t

/-- A state reached by sending messages, completions and reports of counters only: it differs in the host ports, the bridge's ports, the
completions held, the counters with what they have counted in the cycle (R37), and the sluices, and in nothing else. -/
structure State.Sends (s t : State) : Prop where
  rest : t = { s with hportA := t.hportA, hportB := t.hportB, bports := t.bports, comps := t.comps, counts := t.counts, pans := t.pans,
                      sets := t.sets }
  pans : ∀ p, t.pan p = { s.pan p with levels := (t.pan p).levels, waitingTok := (t.pan p).waitingTok, asked := (t.pan p).asked }

/-- The checks 1 to 5 of R444 let a message pass, as its SEQ says that it is new: the machine is not in reset, the port of arrival is
READY and its host responsive; the length, CRC-32C, VERSION and O_PORT are right; RESYNC is set, or the port has met no SEQ since its
link came up, or SEQ is newer than the newest. -/
structure State.Gets (s : State) (h : SqpHdr) : Prop where
  awake : s.inReset = false
  ready : s.portReady h.port = true
  responsive : (s.hport h.port).unresponsive = false
  crc : h.crcOk = true
  length : h.udpLen = 32 + h.length.toNat
  version : h.version = 1
  port : h.oPort = h.port
  new : h.resync = true ∨ (s.hport h.port).fresh = true ∨ newer h.seq (s.hport h.port).high = true

/-- A write of one register with COUNT 1 is let through to the register: on SQP by checks 1 to 9 of R444, with the right REG_WRITE (R462)
and the register's lock (R463); on the service SPI, which needs neither, by R582 and R583. -/
def State.WriteOk (s : State) (r : Reg) (v : Word) : RegSrc → Prop
  | .spi => s.inReset = false ∧ s.power.booted = true ∧ s.spiAnswers r.addr = true
  | .sqp h => s.Gets h ∧ h.length = 12 ∧ s.hasRight h.client (some .regWrite) = true ∧ s.mayWrite h r.addr (some v) = true
      ∧ s.sqpAnswers r.addr = true

/-- A read of one register with COUNT 1 is let through to the register. -/
def State.ReadOk (s : State) (r : Reg) : RegSrc → Prop
  | .spi => s.inReset = false ∧ s.power.booted = true ∧ s.spiAnswers r.addr = true
  | .sqp h => s.Gets h ∧ h.length = 8 ∧ s.sqpAnswers r.addr = true

/-- A state reached by sending and by answering register reads that waited: a read may latch Tide or a wait sum, advance
LEDGER_RD_ADDR, find that a copy of a bank or a core has gone on (R140, R514), and take a free value. -/
structure State.Serves (s t : State) : Prop where
  rest : t = { s with hportA := t.hportA, hportB := t.hportB, bports := t.bports, comps := t.comps, counts := t.counts, pans := t.pans,
                      heldReads := t.heldReads, waits := t.waits, free := t.free, regs := t.regs, sets := t.sets,
                      regions := t.regions,
                      tide := { s.tide with latchSec := t.tide.latchSec, latchFrac := t.tide.latchFrac } }
  pans : ∀ p, t.pan p = { s.pan p with levels := (t.pan p).levels, waitingTok := (t.pan p).waitingTok, asked := (t.pan p).asked }
  regs : ∀ r : Reg, r.addr ≠ Reg.ledgerRdAddr.addr → t.rw r = s.rw r
  regions : ∀ r, t.region r = { s.region r with bankPtr := (t.region r).bankPtr, copyPtr := (t.region r).copyPtr }

/-- A message answered, and the answer kept for its duplicates (R441): frames of a TYPE with the request's CLIENT, NUMBER and SEQ on the port
of arrival (R444) and the GEN given, whose payload is `pay` in one frame where it fits the payload limit. -/
def State.Replied (t : State) (h : SqpHdr) (type : Byte) (gen : BitVec 16) (pay : List Byte) : Prop :=
  ∃ frames, (h.seq, Answer.sent frames) ∈ (t.hport h.port).recs
    ∧ (∀ f ∈ frames, f.type = type ∧ f.ack = h.seq ∧ f.client = h.client ∧ f.number = h.number ∧ f.gen = gen ∧ f.port = h.port
        ∧ f.dest = h.src)
    ∧ (pay.length ≤ t.payLimit h.port h.src.v6 → frames.map OutFrame.payload = [pay])

/-- A message answered with a NAK of a reason (R445) and nothing else done: only sending has changed the state. -/
def State.Refused (s t : State) (h : SqpHdr) (r : Reason) : Prop := s.Sends t ∧ t.Replied h 0x7F h.gen (nakPay r 0)

/-- A frame among those that a bridge port sends or will send. -/
def State.Queued (t : State) (p : Nat) (f : TxFrame) : Prop := f ∈ (t.bport p).waiting ∨ (t.bport p).cur = some f

/-- A message with a payload of `n` bytes is let through to its TYPE's own checks: checks 1 to 5 of R444, and the right it needs (R462). -/
def State.MsgOk (s : State) (h : SqpHdr) (right : Option Right) (n : Nat) : Prop :=
  s.Gets h ∧ s.hasRight h.client right = true ∧ h.length.toNat = n

/-- The state after the checks 1 to 5 of a message that passes them: what they send, and what they record of its sender and SEQ. -/
def State.afterChecks (s : State) (h : SqpHdr) : State := (s.accept h true true).2

/-- What a reset does with the state (R13, R531): everything takes its reset value but HyperRAM, the ledger's device and its flash, and the
power, identity and TAP state that each reset speaks of itself. SRAM then reads as the log says that it does at reset (log entry 3). -/
structure State.Discards (s t : State) : Prop where
  rest : t = { State.reset with pending := s.pending, free := s.free, mem := t.mem, poison := t.poison, pageCrc := s.pageCrc, power := t.power,
                                ledger := { present := s.ledger.present, size := s.ledger.size, erase4k := s.ledger.erase4k, flash := s.ledger.flash },
                                sec := t.sec, tap := t.tap }
  mem : ∀ a, t.mem.read 0 a = if 0x40000000 ≤ a then s.mem.read 0 a else 0

/-- The identity that SYSRST_N and the internal resets keep (R531), and nothing else of the images. -/
def State.Kept531 (t s : State) : Prop :=
  t.sec = { keyPair := s.sec.keyPair, idReady := s.sec.idReady, idFail := s.sec.idFail, enrolled := s.sec.enrolled }

/-- What a supply monitor's condition comes to (R571, R572), where `p` is the power state with the condition's own bit: writes are held
and the alert is set; the ledger's operation in progress stops with the flash as it is, and its record waits again unless it is a shutdown
BIST record, which is lost (R526) and ends the shutdown self-test without RECORDED. -/
structure State.Held (s : State) (p : Power) (t : State) : Prop where
  power : t.power = { p with held := true, supplyAlert := true }
  ledger : t.ledger = { s.ledger with job := none, erase := none, waiting := t.ledger.waiting }
  waiting : ∀ r : LedgerRec, r ∈ t.ledger.waiting ↔ r.type ≠ 5 ∧ (r ∈ s.ledger.waiting ∨ ∃ j, s.ledger.job = some (r, j))
  bist : t.bist = if s.bist.shutEnded then
      { s.bist with shutBusy := false, shutEnded := false, shutDone := true, shutPass := s.bist.fail = 0, shutRecorded := false }
    else s.bist
  frame : s.Serves { t with power := s.power, ledger := s.ledger, bist := s.bist }

/-- A state reached from another by answering a register access only: by sending, and by the service SPI's response. -/
def State.Answers (s t : State) : Prop := s.Sends { t with svc := s.svc }

/-- A register write's reason for refusal given: a NAK on SQP, a status on the service SPI. -/
def State.Told (t : State) (src : RegSrc) (r : Reason) : Prop :=
  match src with
  | .sqp h => t.Replied h 0x7F h.gen (nakPay r 0)
  | .spi => t.svc = svcResp r 0

/-- A register access answered with a reason other than OK: a NAK on SQP, a status on the service SPI. Nothing is written; a shortfall
recorded (R314) and a pending image freed by a failed apply (R547) are all that may differ. -/
def State.Declines (s t : State) (src : RegSrc) (r : Reason) : Prop :=
  s.Answers { t with shortfall := s.shortfall, sec := s.sec } ∧ t.sec = { s.sec with pendingImg := t.sec.pendingImg } ∧ t.Told src r

/-- The word that a write leaves in a register's stored fields (R15, R16). -/
def State.stored (s : State) (r : Reg) (v : Word) : Word := (storeFields (s.cur r) v r.rwFields).1

/-- Nothing changed by a register access but what is sent, and the reserved-write flag with its record (R596). -/
def State.OnlyRsvd (s t : State) : Prop := s.Answers { t with rsvdWrite := s.rsvdWrite, rsvdSrc := s.rsvdSrc, rsvdAddr := s.rsvdAddr }

/-! ### Descriptors -/

/-- The core has taken its next descriptor up: it has read it through its coalescing buffers (R126, R134), it is counted towards MAX_ISSUE (R180),
and execution goes on at the one after it. -/
def State.counted (s : State) (n : Nat) : State :=
  (s.readDesc n (s.core n).next).onCore n (fun k => { k with next := (s.core n).next + 1, issued := k.issued + 1 })

/-- An operation descriptor as the sequencer takes it: its command, its form, its operands per target, and what it makes of one target. -/
structure OpKind where
  cmd : Instr
  form : OpForm
  opnds : State → Option Nat → Except StepFault (List Opnd × List Opnd)
  run : State → Option Nat → SlotRes

/-- An element-wise operation of core `n` in direction `rm` (R102, R187), by what it makes of one element. -/
def mapKind (n : Nat) (d : Desc) (rm : RM) (c : Instr) (k : OpCode) (sh : ElemShape) (fn : FSpec → FSpec → ElemFn) : OpKind :=
  { cmd := c, form := { code := k }, opnds := fun _ => elemOpnds sh d, run := fun s t => s.elemRun n sh d rm fn t }

/-- An ELEM operation of core `n` on elements as integers or as bits (R107, R108). -/
def bitKind (n : Nat) (d : Desc) (rm : RM) (c : Instr) (sub : Nat) (silent : Bool) (fn : BitFn) : OpKind :=
  { cmd := c, form := { code := ⟨2, sub⟩ }, opnds := fun _ => elemOpnds { ins := 2 } d, run := fun s t => s.bitRun n sub silent d rm fn t }

/-- A core is at a descriptor of its program, inside its step and waiting for nothing, in context `c` of pan `p`, below MAX_ISSUE; the sixteen
words it fetches are those of operation `k` with the fields `d` (R176, R181). -/
structure State.AtDesc (s : State) (n p c : Nat) (h : StepProg) (k : OpCode) (d : Desc) : Prop where
  inside : s.issuing n = some (p, c, (s.core n).rank, h)
  count : (s.core n).issued < h.maxIssue
  fetched : (s.fetchDesc n (s.core n).next).1 = (k, d)

/-- The state in which a core's descriptor looks at its operands: it is taken up, and one that stands alone lets what is outstanding complete first,
as far as it can (R178, R179). -/
def State.takenUp (s : State) (n : Nat) (alone : Bool) : State := if alone then (s.counted n).drain n else s.counted n

/-- Where an operation descriptor runs (R192, R193). -/
def State.runsFor (v : State) (n p c : Nat) (d : Desc) : List (Option Nat) := v.targets p c (v.core n).rank d

/-- The spans that a descriptor's operands read, or write, for every target. -/
def State.spansAll (v : State) (n : Nat) (os : List (List Opnd)) : List (Nat × Nat) := os.flatMap (fun o => o.flatMap (v.spansOf n))

/-- A core may issue a descriptor at once that reads `rds` and writes `wr` (R179): fewer than eight operations are outstanding and none of
them meets it; nothing is outstanding where it stands alone; where it selects slots by state bits no SLOTWISE operation is, and where POISON is
among those bits none at all. -/
structure Core.Clear (k : Core) (d : Desc) (alone : Bool) (rds wr : List (Nat × Nat)) : Prop where
  room : k.ops.length < 8
  free : ∀ o ∈ k.ops, o.blocks rds wr = false
  slots : d.slotwise = true → d.predMask ≠ 0 → ∀ o ∈ k.ops, o.slotwise = false
  poison : d.slotwise = true → d.predMask.getLsbD 8 = true → k.ops = []
  alone : alone = true → k.ops = []

/-- What a descriptor's reads ask of streamed weights (R317), once the layers are staged that they need. -/
def State.touched (v : State) (n p c : Nat) (d : Desc) (os : List (List Opnd)) (base : List Opnd) : State :=
  v.streamTouch p c n (v.stagedReads n p c d (v.spansAll n os) base)

/-- An operation may issue (R179, R181, R183, R207): fields that must be 0 are, its operands are right for every target, and no hazard holds it, nor
a streamed layer that has not come (R317). `v` is the state in which its descriptor is taken up. -/
structure State.MayIssue (s : State) (n p c : Nat) (h : StepProg) (d : Desc) (k : OpKind) (v : State) (st : Option Nat)
    (os : List (List Opnd × List Opnd)) : Prop where
  at' : s.AtDesc n p c h k.form.code d
  up : v = s.takenUp n k.form.alone
  plain : descPlain d k.form.dp k.form.useK = true
  status : (s.counted n).statusAt n h d = .ok st
  opnds : v.checkTargets n (v.runsFor n p c d) (k.opnds v) = .ok os
  clear : (v.core n).Clear d k.form.alone (v.spansAll n (os.map Prod.fst)) (statusSpan st ++ v.spansAll n (os.map Prod.snd))
  staged : (v.touched n p c d (os.map Prod.fst) (baseOpnds (k.opnds v none))).layerDue n = false

/-- What putting an operation among the outstanding ones does (R136, R178, R418): it stands behind the others, to take effect when it
completes, with the tokens its accesses outside the scratchpad wait for (R414); those are under way, and nothing else differs. -/
structure State.Pushed (s : State) (n p c : Nat) (op : OutOp) (t : State) : Prop where
  core : t.core n = { s.core n with
    ops := (s.core n).ops ++ [{ op with id := (s.core n).opId, toks := s.newToks t p }], opId := (s.core n).opId + 1 }
  others : ∀ k, k ≠ n → t.core k = s.core k
  xacts : t.xacts = (s.addXacts n p c (s.core n).opId op.far).xacts
  pans : ∀ q, t.pan q = { s.pan q with levels := (t.pan q).levels, waitingTok := (t.pan q).waitingTok, asked := (t.pan q).asked }
  frame : t = { s with cores := t.cores, xacts := t.xacts, pans := t.pans }

/-- What issuing an operation does (R178, R179, R184, R192): it is outstanding with its results for every target, in ascending order of
slots, each computed from what the earlier ones wrote; its status record, reads and writes hold back what meets them. Its results are those of
`u`, in which its reads have passed the coalescing buffers (R133, R134). -/
structure State.Issued (s : State) (n p c : Nat) (d : Desc) (k : OpKind) (v : State) (st : Option Nat) (os : List (List Opnd × List Opnd))
    (t u : State) (op : OutOp) : Prop where
  read : u = (v.touched n p c d (os.map Prod.fst) (baseOpnds (k.opnds v none))).readAll n op
  pushed : u.Pushed n p c op t
  rank : op.rank = (s.core n).rank
  desc : op.desc = (s.core n).next
  status : op.status = st
  reads : op.reads = v.spansAll n (os.map Prod.fst)
  writes : op.writes = statusSpan st ++ v.spansAll n (os.map Prod.snd)
  pieces : op.pieces = os.flatMap (fun o => o.1.flatMap (v.piecesOf n))
  far : op.far = v.farLines n (os.flatMap (fun o => o.1 ++ o.2))
  slotwise : op.slotwise = d.slotwise
  count : op.run = (v.runsFor n p c d).length
  narrow : op.narrow = k.form.narrow
  res : op.res = u.runTargets n { op with res := [] } (u.fetchDesc n (s.core n).next).2 k.run
    ((v.runsFor n p c d).zip (os.map (fun o => o.1.flatMap (u.rowSpans n))))

/-- A sequencer operation with the fields `d` may take effect in state `v` (R179, R183, R184): its descriptor is taken up and right, and
everything earlier is complete; `rc` is the status record that it asks for, with whether its descriptor read poisoned (R159). -/
structure State.Sequenced (s : State) (n p c : Nat) (h : StepProg) (k : OpCode) (d : Desc) (v : State) (rc : Option (Nat × Nat × Bool)) : Prop where
  at' : s.AtDesc n p c h k d
  plain : descPlain d false false = true
  drained : v = (s.counted n).drain n
  complete : (v.core n).ops = []
  status : v.ctlStatus n d (v.fetchDesc n (s.core n).next).2 = .ok rc

end Sys2Proof.Machine
end

