-- ==== Sys2Proof/Certificates/Slice0/Obligations.lean ====
section
/-!
DEFINITION. The statements for the provers.
-/

open Sys2Proof Sys2Proof.Machine

/-- The block's step: the command at the front of the queue acts on the state with the queue's rest. -/
def Obligations.StepRunsFrontCommand : Prop :=
  ∀ (c : Instr) (s : State), step { s with pending := c :: s.pending } = exec c s

/-- An empty queue is one NCLK cycle (the model's choice, log entry 1), in which Tide counts as R472 says: NS with its fraction
advances by ADDEND × 2⁻³⁰ ns and carries at 10⁹ ns, so that the time of the counter as a whole advances by exactly that; what the hardware has set in the cycle before is no longer of the
present one (R14, R37; log entry 61). While a reset holds, nothing happens. -/
def Obligations.EmptyQueueIsOneCycle : Prop :=
  ∀ s : State, s.pending = [] →
    (s.inReset = true → step s = .next s) ∧
    (s.inReset = false → s.Inv → s.tide.sec.toNat + 1 < 2 ^ 64 →
      ∃ t, step s = .next t ∧ t.nclk = s.nclk + 1 ∧ t.Inv
        ∧ (t.tide.sec.toNat * 1000000000 + t.tide.ns) * 2 ^ 30 + t.tide.frac
            = (s.tide.sec.toNat * 1000000000 + s.tide.ns) * 2 ^ 30 + s.tide.frac + (s.rw .tideAddend).toNat
        ∧ t = { s with nclk := s.nclk + 1, sets := [],
                       tide := { s.tide with sec := t.tide.sec, ns := t.tide.ns, frac := t.tide.frac, residence := t.tide.residence } })

/-- Every command answers a next state in every state, and leaves the commands that wait alone. -/
def Obligations.EveryCommandAnswers : Prop :=
  ∀ (c : Instr) (s : State), ∃ t, exec c s = .next t ∧ t.pending = s.pending

/-- The invariant (State.Inv) is kept by every step of every state that has it: memory and flash in their canonical form, Tide's ranges (R472),
counts within their maximum (R36), at most 64 unacknowledged frames on a port (R453), logs within their capacities (R500, R501), instances'
numbers their own, and coalescing buffers with one entry to a line (R132). -/
def Obligations.EveryStepKeepsInvariant : Prop :=
  ∀ s t : State, s.Inv → step s = .next t → t.Inv

/-- What R18 and the reset values of the registers say of the machine as PORST_N is released, with the invariant. -/
def Obligations.ResetState : Prop :=
  State.reset.Inv ∧ State.reset.tide.state = .unset ∧ State.reset.tide64 = 0
    ∧ (∀ q, (State.reset.queue q).state = .closed ∧ (State.reset.queue q).gen = 0)
    ∧ (∀ w, (State.reset.window w).isOpen = false ∧ (State.reset.window w).gen = 0)
    ∧ (∀ n, State.reset.sems.get n = none) ∧ (∀ c, State.reset.count c = {})
    ∧ State.reset.ready = 0 ∧ State.reset.coreReady = 0 ∧ State.reset.avs.target = 620 ∧ State.reset.pending = []
    ∧ (∀ r : Reg, State.reset.rw r = r.resetWord)

/-- An address holds no register but the one whose address it is: reading the map backwards. -/
def Obligations.AddressMapRoundTrip : Prop :=
  ∀ (a : Nat) (r : Reg), Reg.ofAddr a = some r → r.addr = a

/-- R36: an event counts one; the one that brings the count to its maximum sets OVF; then the count stands. Other counters, and all
but the ports that its EVENT is sent on, stay as they were. -/
def Obligations.CounterCountsAndSaturates : Prop :=
  ∀ (c : Ctr) (s : State),
    (s.bump c).count c = (if (s.count c).ovf then s.count c
        else if (s.count c).n + 1 ≥ 2 ^ 31 - 1 then { n := 2 ^ 31 - 1, ovf := true } else { s.count c with n := (s.count c).n + 1 })
    ∧ (∀ d : Ctr, d.addr ≠ c.addr → (s.bump c).count d = s.count d) ∧ s.Sends (s.bump c)

/-- R37: writing 1 to a counter's overflow bit clears the bit and sets the count to zero: an event counter, a wait sum, a wait maximum, a bittern
count or a channel's CRC error count. An event counted right after it, or before it in the same cycle of NCLK, leaves the count at 1; what
is added to a wait sum or reached by a wait maximum in that cycle stays (log entry 61). A counter of a stream that is not bound or a pan that
is not formed ignores the write (R395, R429).
Completes: counterOvfClear. -/
def Obligations.CounterClears : Prop :=
  (∀ (s : State) (src : RegSrc) (a : Word),
    (∀ c, Reg.ofAddr a.toNat = some (.counter c) → s.WriteOk (.counter c) 0x80000000 src →
      ∃ t, exec (.counterOvfClear src a) s = .next t ∧ t.count c = (if s.counts? c then { n := min (s.noted (.counter c)) 1 } else s.count c)
        ∧ (∀ d : Ctr, d.addr ≠ c.addr → t.count d = s.count d) ∧ s.Answers t)
    ∧ (∀ c, Reg.ofAddr a.toNat = some (.waitSumHi c) → s.WriteOk (.waitSumHi c) 0x80000000 src →
      ∃ t, exec (.counterOvfClear src a) s = .next t ∧ t.waits.getD c {} = { s.waits.getD c {} with sum := min (2 ^ 63 - 1) (s.noted (.waitSumHi c)), ovf := false }
        ∧ (∀ d, d ≠ c → t.waits.getD d {} = s.waits.getD d {}) ∧ s.Answers { t with waits := s.waits })
    ∧ (∀ c, Reg.ofAddr a.toNat = some (.waitMax c) → s.WriteOk (.waitMax c) 0x80000000 src →
      ∃ t, exec (.counterOvfClear src a) s = .next t ∧ t.waits.getD c {} = { s.waits.getD c {} with
            max := min (2 ^ 31 - 1) (s.noted (.waitMax c)), maxOvf := decide (2 ^ 31 ≤ s.noted (.waitMax c)) }
        ∧ (∀ d, d ≠ c → t.waits.getD d {} = s.waits.getD d {}) ∧ s.Answers { t with waits := s.waits })
    ∧ (∀ l, Reg.ofAddr a.toNat = some (.bitternCount l) → s.WriteOk (.bitternCount l) 0x80000000 src →
      ∃ t, exec (.counterOvfClear src a) s = .next t ∧ t.log l = { s.log l with lost := { n := min (s.noted (.bitternCount l)) 1 } }
        ∧ (∀ l', logKey l' ≠ logKey l → t.log l' = s.log l') ∧ s.Answers { t with logs := s.logs })
    ∧ (∀ n, Reg.ofAddr a.toNat = some (.hbusStatus n) → s.WriteOk (.hbusStatus n) 0x80000000 src →
      ∃ t, exec (.counterOvfClear src a) s = .next t ∧ t.chan n = { s.chan n with crcErr := { n := min (s.noted (.hbusStatus n)) 1 } }
        ∧ (∀ m, m ≠ n → t.chan m = s.chan m) ∧ s.Answers { t with hbus := s.hbus }))
  ∧ ∀ (s : State) (c : Ctr), (s.count c = {} → (s.bump c).count c = { n := 1, ovf := false })
      ∧ (s.bump c).noted (.counter c) = s.noted (.counter c) + 1

/-- R531 and R13, for the three resets that discard identity or keep it, and the thermal trip: the state that is lost, the state that is
kept, and what is recorded of the cause (R573, R577).
R574: the C32 ignores pulses shorter than 1 µs; a pulse of 1 µs to 10 µs resets it fully or not at all.
Completes: porstNAssert, sysrstN, brownOut, pllUnlock, thermTrip. -/
def Obligations.ResetsDiscardState : Prop :=
  (∀ (s : State) (ns : Nat) (acts : Bool) (rail : Rail) (mv : Nat) (celsius : Int),
    (10000 ≤ ns → ∃ t, exec (.porstNAssert ns acts) s = .next t ∧ s.Discards t ∧ t.inReset = true ∧ t.sec = {}
      ∧ t.power = { booted := s.power.booted, sagPin := s.power.sagPin, ioLow := s.power.ioLow, coreLow := s.power.coreLow,
                    held := s.power.held, porst := true }
      ∧ t.tap = { s.tap with control := false })
    ∧ (10000 ≤ ns → s.power.porst = false → ∃ u t, exec (.sysrstN ns acts) s = .next t ∧ s.Discards u ∧ u.Kept531 s
      ∧ u.power = { booted := s.power.booted, sagPin := s.power.sagPin, ioLow := s.power.ioLow, coreLow := s.power.coreLow,
                    held := s.power.held, brown := s.power.brown, pll := s.power.pll, therm := s.power.therm,
                    brownout := s.power.brownout, pllUnlock := s.power.pllUnlock, brownRail := s.power.brownRail }
      ∧ (s.inReset = true → t = u) ∧ (s.inReset = false → t = u.readLedger.1))
    ∧ (s.power.porst = false → 1000 ≤ ns → s.browns rail mv = true → ∃ t, exec (.brownOut rail mv ns) s = .next t ∧ s.Discards t
      ∧ t.Kept531 s ∧ t.inReset = true ∧ t.power.brown = true ∧ t.power.brownout = true ∧ t.power.supplyAlert = true
      ∧ t.power.brownRail = (if s.power.brownout then s.power.brownRail else Rail.code rail)
      ∧ t.power.pllUnlock = s.power.pllUnlock)
    ∧ (s.power.porst = false → ∃ t, exec .pllUnlock s = .next t ∧ s.Discards t ∧ t.Kept531 s ∧ t.inReset = true ∧ t.power.pll = true
      ∧ t.power.pllUnlock = true ∧ t.alertN = true ∧ t.power.brownout = s.power.brownout ∧ t.power.brownRail = s.power.brownRail)
    ∧ (s.power.porst = false → 115 ≤ celsius → ∃ t, exec (.thermTrip celsius) s = .next t ∧ s.Discards t ∧ t.Kept531 s
      ∧ t.inReset = true ∧ t.power.therm = true ∧ t.power.brownout = s.power.brownout ∧ t.power.pllUnlock = s.power.pllUnlock))
  ∧ (∀ (s : State) (ns : Nat) (acts : Bool),
    (ns < 1000 → exec (.porstNAssert ns acts) s = .next s ∧ exec (.sysrstN ns acts) s = .next s)
    ∧ (1000 ≤ ns → ns < 10000 →
        (exec (.porstNAssert ns acts) s = .next s ∨ exec (.porstNAssert ns acts) s = exec (.porstNAssert 10000 acts) s)
      ∧ (exec (.sysrstN ns acts) s = .next s ∨ exec (.sysrstN ns acts) s = exec (.sysrstN 10000 acts) s)))

/-- The ends of resets: R531 and R536 at PORST_N release (or on a machine whose boot ROM has not run, log entry 10), R573 and R577 at the end of
an internal reset. The machine leaves reset where no
other cause holds it, and the boot ROM reads the ledger (R555), which writes the flash only where it formats it. A machine with no usable ledger device is
ABSENT and has no identity; a blank usable one is formatted and the part enrols (R536), with the key pair of its secret.
Completes: porstNRelease, brownOutExit, pllRelockExit. -/
def Obligations.ResetsEnd : Prop :=
  ∀ (s : State) (puf : BitVec 3570) (entropy : BitVec 262),
    (s.power.porst = true ∨ s.power.booted = false → ∃ t, exec (.porstNRelease puf entropy) s = .next t ∧ t.inReset = false ∧ t.power.booted = true ∧ t.ready = 0
      ∧ t.queues = [] ∧ t.windows = [] ∧ t.jobs = [] ∧ t.cores = [] ∧ t.pans = [] ∧ t.regs = [] ∧ t.nclk = 0 ∧ t.tide = {}
      ∧ (∀ a, t.mem.read 0 a = if 0x40000000 ≤ a then s.mem.read 0 a else 0)
      ∧ (s.ledger.usable = false → t.ledger.state = .absent ∧ t.sec.idFail = true ∧ t.sec.keyPair = none)
      ∧ (s.ledger.usable = true → flashBlank s.ledger.flash 0 = true → t.ledger.state = .ready ∧ t.sec.enrolled = true
          ∧ t.sec.idReady = true ∧ t.sec.keyPair = some (mlDsaKeyGen (xiOf entropy))))
    ∧ (s.power.brown = true → exec .brownOutExit s = .next (
        if s.power.porst = true ∨ s.power.pll = true ∨ s.power.therm = true then { s with power := { s.power with brown := false } }
        else { s with power := { s.power with brown := false } }.readLedger.1))
    ∧ (s.power.pll = true → exec .pllRelockExit s = .next (
        if s.power.porst = true ∨ s.power.brown = true ∨ s.power.therm = true then { s with power := { s.power with pll := false } }
        else { s with power := { s.power with pll := false } }.readLedger.1))
    ∧ (∀ u : State, u.inReset = false → u.readLedger.1.inReset = false ∧ u.readLedger.1.power = u.power)

/-- R571: the three conditions that stop writes. The ledger's operation in progress ends, its flash stays as it is; the alert is set, and
SAG_PIN, IO_LOW or CORE_LOW. Reads of LEDGER_RD_DATA that waited are then answered; a shutdown BIST record in progress is lost
(R526). When the last condition ends, the 10 ms of R572 begin.
R572: writes resume 10 ms after the last of the conditions has ended, and not before. An ENROL that waited erases both copies of the
helper data first (SEC_CTRL.ENROL).
Completes: pwrSag, vddIoLow, vddCoreLow, ledgerWriteResume. -/
def Obligations.SupplyMonitorsHoldWrites : Prop :=
  (∀ (s : State) (ns mv : Nat), s.power.porst = false →
    (100 ≤ ns → ∃ t, exec (.pwrSag ns) s = .next t ∧ s.Held { s.power with sagPin := true } t)
    ∧ (mv < 1710 → ∃ t, exec (.vddIoLow mv) s = .next t ∧ s.Held { s.power with ioLow := true } t)
    ∧ (mv + 40 < s.floorMv → ∃ t, exec (.vddCoreLow mv) s = .next t ∧ s.Held { s.power with coreLow := true } t)
    ∧ (s.power.sagPin = true → exec (.pwrSag 0) s = .next { s with power := { s.power with sagPin := false, heldSince := s.nclk } })
    ∧ (s.power.ioLow = true → 1710 ≤ mv →
        exec (.vddIoLow mv) s = .next { s with power := { s.power with ioLow := false, heldSince := s.nclk } })
    ∧ (s.power.coreLow = true → s.floorMv ≤ mv + 40 →
        exec (.vddCoreLow mv) s = .next { s with power := { s.power with coreLow := false, heldSince := s.nclk } }))
  ∧ (∀ s : State, s.inReset = false → s.power.held = true →
    ((s.power.sagPin = true ∨ s.power.ioLow = true ∨ s.power.coreLow = true ∨ (s.nclk - s.power.heldSince) * 20 < 10000000 * 11) →
      exec .ledgerWriteResume s = .next s)
    ∧ (s.power.sagPin = false → s.power.ioLow = false → s.power.coreLow = false → 10000000 * 11 ≤ (s.nclk - s.power.heldSince) * 20 →
      ∃ (t : State) (l : Ledger), exec .ledgerWriteResume s = .next t
        ∧ t = { s with power := { s.power with held := false }, ledger := l.pump false, sec := { s.sec with enrolReq := false } }
        ∧ l = { s.ledger with flash := l.flash }
        ∧ ∀ a, flashByte l.flash a
            = if s.sec.enrolReq = true ∧ (a / 4096 = 1 ∨ a / 4096 = 2) then 0xFF else flashByte s.ledger.flash a))

/-- R589 and R590: Tj is the highest reading and HOT the first sensor that gives it; the throttle starts at 102 °C and ends at 98 °C, and
in between stays. In strict mode each start counts one DETERMINISM_BREAK (R426). Nothing else changes but what is sent.
Completes: thermalSample. -/
def Obligations.ThermalSampleThrottles : Prop :=
  ∀ (s : State) (temps : List Int), s.inReset = false → temps.length = 64 → (∀ x ∈ temps, -128 ≤ x) →
    ∃ t, exec (.thermalSample temps) s = .next t
      ∧ temps[t.thermal.hot]? = some t.thermal.tj
      ∧ (∀ (j : Nat) (x : Int), temps[j]? = some x → x ≤ t.thermal.tj ∧ (x = t.thermal.tj → t.thermal.hot ≤ j))
      ∧ t.thermal.throttled = (if 102 ≤ t.thermal.tj then true else if t.thermal.tj ≤ 98 then false else s.thermal.throttled)
      ∧ t.power = { s.power with tempWarn := s.power.tempWarn || decide ((s.rwField .thermCfg 7 0 : Int) ≤ t.thermal.tj) }
      ∧ ((s.count .detbreak).ovf = false → (s.count .detbreak).n + 1 < 2 ^ 31 - 1 →
        (t.count .detbreak).n = (s.count .detbreak).n
          + (if s.strict = true ∧ s.thermal.throttled = false ∧ t.thermal.throttled = true then 1 else 0))
      ∧ s.Sends { t with thermal := s.thermal, power := s.power }

/-- R523 and R567: the target moves by one step of 5 mV, once APPLIED_MV equals TARGET_MV and 1 ms after the previous step: up
while the goal is higher; down only where neither the goal nor a value that has ended within the last 24 h needs the target, or before the
first target of R568 has been reached and only the goal counts (the model's reading: log entry 20). HEALTH_SUPPLY.AVS_LATE is set where APPLIED_MV still differs 10 ms after a change, and a
clear by the host in the same cycle leaves it set (R14).
R520, R521 and R523: a sample gives each domain V_REQ (which replica delay gives it is Config's, log entry 21) and the SRAM margin;
its value at the first power-up is recorded once; a domain at an end of its life has no months remaining and LEVEL END (R522);
the goal of AVS is the highest V_REQ plus GUARD_MV, rounded up to 5 mV, within the range of AVS. No memory, register, queue, instance,
loop or core changes.
Completes: avsStep, avsLateTimeout, salinometerSample. -/
def Obligations.AvsAndWear : Prop :=
  (∀ s : State, s.inReset = false →
    (s.sup = true → s.avs.first ≠ none → s.avs.target = s.appliedMv →
        (∀ at', s.avs.steppedAt = some at' → 1000000 * 11 ≤ (s.nclk - at') * 20) →
      (s.avs.target < s.avs.goal → exec .avsStep s
          = .next { s with avs := { s.avs with target := s.avs.target + 5, changedAt := s.nclk, steppedAt := some s.nclk } })
      ∧ (s.avs.goal < s.avs.target →
          ((∀ e ∈ s.avs.needs, 86400000000000 * 11 ≤ (s.nclk - e.1) * 20 ∨ e.2 < s.avs.target) ∨ s.avs.reached = false) → exec .avsStep s
          = .next { s with avs := { s.avs with target := s.avs.target - 5, changedAt := s.nclk, steppedAt := some s.nclk } })
      ∧ (s.avs.goal ≤ s.avs.target → s.avs.reached = true →
          (∃ e ∈ s.avs.needs, (s.nclk - e.1) * 20 < 86400000000000 * 11 ∧ s.avs.target ≤ e.2) → exec .avsStep s = .next s)
      ∧ (s.avs.goal = s.avs.target → exec .avsStep s = .next s))
    ∧ (s.avs.target ≠ s.appliedMv → exec .avsStep s = .next s)
    ∧ (s.avs.target ≠ s.appliedMv → 10000000 * 11 ≤ (s.nclk - s.avs.changedAt) * 20 →
        ∃ t, exec .avsLateTimeout s = .next t
        ∧ t = { s with power := { s.power with avsLate := true }, sets := t.sets } ∧ (t.noted .supply).testBit 26 = true))
  ∧ (∀ (s : State) (l : List SalReading), s.inReset = false → s.sup = true → l.length = 96 →
    ∃ t, exec (.salinometerSample l) s = .next t
      ∧ (∀ d, d < 5 →
          (t.wear.getD d {}).vReq = Config.vReq s.appliedMv (domReadings l d)
          ∧ (t.wear.getD d {}).sram = 750 - ((domReadings l d).map SalReading.vminMv).foldl max 0
          ∧ (t.wear.getD d {}).base = (if (s.wear.getD d {}).base = 0 then Config.vReq s.appliedMv (domReadings l d) else (s.wear.getD d {}).base)
          ∧ (780 ≤ (t.wear.getD d {}).vReq + s.rwField .avs 15 8 ∨ (t.wear.getD d {}).sram ≤ 20 →
              (t.wear.getD d {}).remain = 0 ∧ (t.wear.getD d {}).level = 3))
      ∧ (∃ v, (∀ d, d < 5 → (t.wear.getD d {}).vReq ≤ v) ∧ (∃ d, d < 5 ∧ (t.wear.getD d {}).vReq = v)
          ∧ t.avs.goal = max 550 (min 780 ((v + s.rwField .avs 15 8 + 4) / 5 * 5)))
      ∧ t.avs.target = s.avs.target ∧ t.mem = s.mem ∧ t.regs = s.regs ∧ t.queues = s.queues ∧ t.windows = s.windows ∧ t.jobs = s.jobs
      ∧ t.loops = s.loops ∧ t.cores = s.cores ∧ t.tide = s.tide ∧ t.power = s.power ∧ t.sec = s.sec)

/-- R553: the bytes of a journal record, laid out as the spec's table says: STATE, TYPE, VERSION 1, LEN, SEQ, HOURS, the payload and the
CRC-32C of all but STATE. -/
def Obligations.LedgerRecordLayout : Prop :=
  ∀ (st : Nat) (r : LedgerRec) (seq hours : Nat), r.payload.length ≤ 4076 → st < 2 ^ 32 → seq < 2 ^ 32 → hours < 2 ^ 32 →
    (recBytes st r seq hours).length = 20 + r.payload.length
      ∧ leNat ((recBytes st r seq hours).take 4) = st
      ∧ (recBytes st r seq hours)[4]? = some r.type ∧ (recBytes st r seq hours)[5]? = some 1
      ∧ leNat (((recBytes st r seq hours).drop 6).take 2) = r.payload.length
      ∧ leNat (((recBytes st r seq hours).drop 8).take 4) = seq
      ∧ leNat (((recBytes st r seq hours).drop 12).take 4) = hours
      ∧ ((recBytes st r seq hours).drop 16).take r.payload.length = r.payload
      ∧ leNat ((recBytes st r seq hours).drop (16 + r.payload.length))
          = (crc32c (((recBytes st r seq hours).drop 4).take (12 + r.payload.length))).toNat

/-- R524 and R556: wear and hours records are written after 24 h and after each hour of operation, and at shutdown; each joins the
records to be written where the ledger is READY, and HOURS counts the hour, up to its maximum (R38). Before then nothing happens.
R554: the two phases of a record. The first programs STATE BEGUN and the rest at the head, which goes on behind the record, from the end of
the journal at its first sector (R555); nothing is erased by programming, and no
byte outside the record changes. LEDGER_RECORD_COMMIT ends the second: where the record reads back correct, its STATE becomes COMMITTED
and it is the newest of its TYPE, SEQ_END being set with the last SEQ there is (R556); where it does not, it is written again. Either way the journal goes on with what waits.
R552, R555 and R572: the end of an erase, which does not come while writes are held. A sector reads blank and no other changes; FORMAT's leaves the header and nothing else. The ledger
goes on with what waits.
Completes: wearRecord, hoursRecord, ledgerRecordCommit, ledgerEraseDone. -/
def Obligations.LedgerRecords : Prop :=
  (∀ s : State, s.inReset = false → s.sup = true → s.ledger.state = .ready →
    (s.bist.shutBusy = true →
      (∃ t, exec (.wearRecord true) s = .next t
        ∧ t = { s with ledger := { s.ledger with waiting := s.ledger.waiting ++ [LedgerRec.mk 2 s.wearPay] }.pump s.power.held })
      ∧ ∃ t, exec (.hoursRecord true) s = .next t
        ∧ t = { s with ledger := { s.ledger with waiting := s.ledger.waiting ++ [LedgerRec.mk 3 s.ledger.hoursPay] }.pump s.power.held })
    ∧ (86400000000000 * 11 ≤ (s.nclk - s.ledger.wearAt) * 20 → ∃ t, exec (.wearRecord false) s = .next t
        ∧ t = { s with ledger := { s.ledger with
                  wearAt := s.nclk, waiting := s.ledger.waiting ++ [LedgerRec.mk 2 s.wearPay] }.pump s.power.held })
    ∧ (3600000000000 * 11 ≤ (s.nclk - s.ledger.hourAt) * 20 → ∃ t p, exec (.hoursRecord false) s = .next t
        ∧ p = leBytes 4 (satInc s.ledger.hours) ++ leBytes 4 s.ledger.starts ++ leBytes 4 s.ledger.startsBare ++ leBytes 4 s.ledger.shutTests
        ∧ t = { s with ledger := { s.ledger with
                  hourAt := s.nclk, hours := satInc s.ledger.hours, waiting := s.ledger.waiting ++ [LedgerRec.mk 3 p] }.pump s.power.held })
    ∧ ((s.nclk - s.ledger.wearAt) * 20 < 86400000000000 * 11 → exec (.wearRecord false) s = .next s)
    ∧ ((s.nclk - s.ledger.hourAt) * 20 < 3600000000000 * 11 → exec (.hoursRecord false) s = .next s))
  ∧ ((∀ (l : Ledger) (r : LedgerRec) (rest : List LedgerRec), Bytes.wfFrom 0xFF 0 l.flash = true →
    l.state = .ready → l.job = none → l.erase = none → l.waiting = r :: rest → l.lastSeq ≠ 0xFFFFFFFF →
    l.head / 4096 < 2048 → l.head % 4096 ≠ 0 → l.head % 4096 + recSpan r.payload.length ≤ 4096 →
      (l.pump false).job = some (r, l.head, l.lastSeq + 1) ∧ (l.pump false).lastSeq = l.lastSeq + 1 ∧ (l.pump false).waiting = rest
      ∧ (l.pump false).head = (if l.head + recSpan r.payload.length = 2048 * 4096 then 3 * 4096 else l.head + recSpan r.payload.length)
      ∧ ∀ a, flashByte (l.pump false).flash a = flashByte l.flash a &&&
          (if l.head ≤ a ∧ a < l.head + (20 + r.payload.length) then
            ((recBytes 0xFFFF0000 r (l.lastSeq + 1) l.hours)[a - l.head]?).getD 0xFF else 0xFF))
  ∧ (∀ l : Ledger, l.pump true = l)
  ∧ (∀ (s : State) (r : LedgerRec) (a q : Nat), s.Inv → s.inReset = false → s.power.held = false → s.ledger.job = some (r, a, q) →
      s.heldReads = [] → (s.bist.shutEnded = true → r.type ≠ 5) →
      (∃ (t : State) (l : Ledger), exec (.ledgerRecordCommit true) s = .next t ∧ t = { s with ledger := l.pump false }
        ∧ l = { s.ledger with job := none, newest := s.ledger.newest.put r.type.toNat a, flash := l.flash,
                              seqEnd := s.ledger.seqEnd || s.ledger.lastSeq = 0xFFFFFFFF }
        ∧ ∀ b, flashByte l.flash b = if a ≤ b ∧ b < a + 4 then 0 else flashByte s.ledger.flash b)
      ∧ ∃ t, exec (.ledgerRecordCommit false) s = .next t
        ∧ t = { s with ledger := { s.ledger with job := none, waiting := r :: s.ledger.waiting }.pump false }))
  ∧ (∀ (s : State), s.inReset = false → s.heldReads = [] →
    (s.power.held = true → exec .ledgerEraseDone s = .next s)
    ∧ (∀ k, s.power.held = false → s.ledger.erase = some (.sector k) → ∃ (t : State) (l : Ledger), exec .ledgerEraseDone s = .next t ∧ t = { s with ledger := l.pump s.power.held }
      ∧ l = { s.ledger with flash := l.flash, erase := none, head := k * 4096 }
      ∧ ∀ a, flashByte l.flash a = if a / 4096 = k then 0xFF else flashByte s.ledger.flash a)
    ∧ (s.power.held = false → s.ledger.erase = some .all → ∃ (t : State) (l : Ledger), exec .ledgerEraseDone s = .next t ∧ t = { s with ledger := l.pump s.power.held }
      ∧ l.state = .ready ∧ l.erase = none ∧ l.job = none ∧ l.newest = [] ∧ l.lastSeq = 0 ∧ l.head = 3 * 4096 ∧ l.waiting = s.ledger.waiting
      ∧ ∀ a, flashByte l.flash a = (ledgerHeader[a]?).getD 0xFF))

/-- R526 and R527: what the end of the shutdown self-test leaves. The SRAMs' contents are destroyed: memory below the HyperRAM, the instances, the
queues, staged accesses and priors then are as log entry 3 says. PASS and FAIL stand; a unit that failed the last shutdown self-test as well is
retired, with its record; the BIST record waits for its commit where the ledger can write, and DONE stands at once where it cannot.
R526: the commit of the shutdown self-test's record, and R559 where reads wait: the self-test ends with RECORDED, and PASS where no
unit failed; reads that waited for the ledger are answered.
R527: the start self-test's end. A unit with a valid passing record is not tested; of the others those that failed are marked, and one that
failed the last self-test as well is retired for good; every unit neither failed nor retired is good.
Completes: shutdownBistDone, startSelfTestDone. -/
def Obligations.SelfTests : Prop :=
  (∀ (s : State) (fail again : BitVec 96) (cols : List Byte) (l : Ledger), s.inReset = false → s.bist.shutBusy = true → s.bist.shutEnded = false →
    again = fail &&& allUnits &&& s.bist.fail &&& ~~~s.bist.retired →
    l = (if again = 0 ∨ s.ledger.state ≠ .ready then s.ledger
         else { s.ledger with waiting := s.ledger.waiting ++ [LedgerRec.mk 6 (unitBytes (s.bist.retired ||| again))] }.pump s.power.held) →
    ∃ t, exec (.shutdownBistDone fail cols) s = .next t
      ∧ (∀ a, t.mem.read 0 a = if 0x40000000 ≤ a then s.mem.read 0 a else 0)
      ∧ t.bist.fail = fail &&& allUnits ∧ t.bist.pass = allUnits &&& ~~~fail ∧ t.bist.columns = cols
      ∧ t.bist.retired = s.bist.retired ||| again
      ∧ (s.ledger.state = .ready → s.power.held = false → l.lastSeq ≠ 0xFFFFFFFF → t.bist.shutDone = s.bist.shutDone
          ∧ t = { s.destroyed with bist := t.bist,
                                   ledger := { l with waiting := l.waiting ++
                           [LedgerRec.mk 5 (s.bistPay (allUnits &&& ~~~fail) (fail &&& allUnits) cols)] }.pump false })
      ∧ (s.ledger.state ≠ .ready ∨ s.power.held = true ∨ l.lastSeq = 0xFFFFFFFF → t.bist.shutDone = true ∧ t.bist.shutRecorded = false
          ∧ t.bist.shutPass = decide (fail &&& allUnits = 0) ∧ t.ledger = l)
      ∧ t.queues = [] ∧ t.jobs = [] ∧ t.priors = [] ∧ t.staged = []
      ∧ t.regs = s.regs ∧ t.cores = s.cores ∧ t.power = s.power ∧ t.sec = s.sec ∧ t.tide = s.tide)
  ∧ (∀ (s : State) (r : LedgerRec) (a q : Nat), s.inReset = false → s.power.held = false → s.ledger.job = some (r, a, q) → r.type = 5 →
    s.bist.shutEnded = true → ∃ t, exec (.ledgerRecordCommit true) s = .next t
      ∧ t.bist = { s.bist with shutBusy := false, shutEnded := false, shutDone := true, shutPass := s.bist.fail = 0, shutRecorded := true }
      ∧ (s.ledger.waiting = [] → t.heldReads = [])
      ∧ s.Serves { t with ledger := s.ledger, bist := s.bist })
  ∧ (∀ (s : State) (fail : BitVec 96) (cols : List Byte), s.inReset = false → s.sup = true → s.bist.startDone = false → s.avs.reached = true →
    ∃ t, exec (.startSelfTestDone fail cols) s = .next t ∧ t.bist.startDone = true
      ∧ (∀ u, u < 84 →
          (t.bist.fail.getLsbD u = true ↔
            fail.getLsbD u = true ∧ (s.bist.pass.getLsbD u = false ∨ s.bist.retired.getLsbD u = true) ∧ s.bist.retired.getLsbD u = false)
          ∧ (t.bist.good.getLsbD u = true ↔ t.bist.fail.getLsbD u = false ∧ s.bist.retired.getLsbD u = false)
          ∧ (t.bist.retired.getLsbD u = true ↔ s.bist.retired.getLsbD u = true ∨ (t.bist.fail.getLsbD u = true
              ∧ s.bist.before.getLsbD u = true)))
      ∧ t.mem = s.mem ∧ t.queues = s.queues ∧ t.jobs = s.jobs ∧ t.loops = s.loops ∧ t.power = s.power ∧ t.avs = s.avs ∧ t.tide = s.tide
      ∧ t.sec = s.sec)

/-- R527, R532, R542 and R556: the supervisor starts once its bundle has been accepted: SUP and QMGR are set; the bundle's code, tables
and unit firmware are in their memories; starts are counted (and those without a valid shutdown record), up to their maxima; the self-test
results of the last shutdown's valid record stand, or none; and the units that failed the last self-test are those of the newer of the
last BIST and START records (log entry 63).
Completes: supervisorStart. -/
def Obligations.SupervisorStarts : Prop :=
  ∀ (s : State) (b : Bundle), s.inReset = false → s.sup = false → s.sec.bundle = some b →
    ∃ t, exec .supervisorStart s = .next t ∧ t.sup = true ∧ t.qmgrReady = true
      ∧ t.ledger.starts = satInc s.ledger.starts ∧ t.ledger.hourAt = s.nclk ∧ t.ledger.wearAt = s.nclk
      ∧ t.ledger.startsBare = (if (s.validBist b.bistRef).isNone then satInc s.ledger.startsBare else s.ledger.startsBare)
      ∧ (∀ p, s.validBist b.bistRef = some p → t.bist.pass = unitBits (p.drop 32) ∧ t.bist.fail = unitBits (p.drop 44))
      ∧ (s.validBist b.bistRef = none → t.bist.pass = 0 ∧ t.bist.fail = 0)
      ∧ (∀ p, s.lastBist = some p → t.bist.before = unitBits (p.drop 44))
      ∧ (∀ p, s.lastBist = none → s.ledger.payload 4 = some p → t.bist.before = unitBits (p.drop 32))
      ∧ (s.lastBist = none → s.ledger.payload 4 = none → t.bist.before = 0)
      ∧ t.mem = s.mem ∧ t.queues = s.queues ∧ t.jobs = s.jobs ∧ t.loops = s.loops ∧ t.power = s.power ∧ t.tide = s.tide
      ∧ t.sec = { s.sec with supMem := { code := b.code, tables := b.tables, firmware := b.firmware } } ∧ t.cores = s.cores ∧ t.regs = s.regs

/-- R431, R432 and R32: a link comes up with a speed and role that fit the port's configuration; a host port's READY bit follows its link.
Links of other ports stay.
R436, R471, R480 and R487: the end of a frame's transmission leaves it with its egress time-stamp; what follows depends on what it carries:
the time of a Pdelay_Req is kept, a Pdelay_Resp is followed by its Follow_Up, a REG_RESP that one configuration write waits for brings it
into effect. The gate control list's entry in force is the one that Tide64 is in.
Completes: linkUp, linkDown, gateControlListEntry, frameTransmit. -/
def Obligations.LinksAndTransmission : Prop :=
  (∀ (s : State) (p : Fin 18) (speed : BitVec 2) (master : Bool), s.inReset = false →
    ((s.bport p.val).link = false → (∃ c, s.portSetup p.val = some c ∧ linkFits speed master c = true) →
      ∃ t, exec (.linkUp p speed master) s = .next t
        ∧ (t.bport p.val).link = true ∧ (t.bport p.val).speed = speed ∧ (t.bport p.val).master = master
        ∧ (∀ q, q ≠ p.val → (t.bport q).link = (s.bport q).link ∧ (t.bport q).speed = (s.bport q).speed)
        ∧ t.ready = (if p.val = 16 then s.ready ||| 1 else if p.val = 17 then s.ready ||| 2 else s.ready)
        ∧ s.Sends { t with ready := s.ready })
    ∧ ((s.bport p.val).link = true → ∃ t, exec (.linkDown p) s = .next t
        ∧ (t.bport p.val).link = false ∧ (t.bport p.val).speed = 0
        ∧ (∀ q, q ≠ p.val → (t.bport q).link = (s.bport q).link ∧ (t.bport q).speed = (s.bport q).speed)
        ∧ t.ready = (if p.val = 16 then s.ready &&& ~~~1 else if p.val = 17 then s.ready &&& ~~~2 else s.ready)
        ∧ s.Sends { t with ready := s.ready }))
  ∧ (∀ (s : State) (p : Fin 18), s.inReset = false →
    ((s.bport p.val).link = true → ∀ f, (s.bport p.val).cur = some f → ∃ t, exec (.frameTransmit p) s = .next t
      ∧ (t.bport p.val).last = some (s.outFrame f, s.txStamp p.val)
      ∧ t.tide = { s.tide with pdelayT1 := if f.body = .pdelayReq then s.tide.pdelayT1.put p.val (s.txStamp p.val) else s.tide.pdelayT1 }
      ∧ (∀ t2, f.body = .pdelayResp t2 → t.Queued p.val { f with body := .pdelayRespFollowUp (s.txStamp p.val) })
      ∧ (∀ o x r, f.body = .sqp o → o.type = 0x03 → s.hcfg.filter (fun x => x.port = o.port && x.seq = o.seq) = [x] →
          Reg.ofAddr x.addr = some r → t.rw r = x.val ∧ x ∉ t.hcfg)
      ∧ ((∀ o, f.body = .sqp o → o.type ≠ 0x03) → t.regs = s.regs ∧ t.ready = s.ready ∧ t.hcfg = s.hcfg)
      ∧ s.Sends { t with tide := s.tide, regs := s.regs, ready := s.ready, hcfg := s.hcfg })
    ∧ (gateCycle (s.gates p.val) ≠ 0 → ∃ t, exec (.gateControlListEntry p) s = .next t
      ∧ (t.bport p.val).gcl = gateAt (s.gates p.val) (s.tide64 % gateCycle (s.gates p.val))
      ∧ (t.bport p.val).gcl < (s.gates p.val).length
      ∧ t = { s with bports := t.bports } ∧ ∀ q, q ≠ p.val → t.bport q = s.bport q))

/-- R433, R434, R435, R438 and R487: a received frame leaves its time-stamp with its port. Frames too large, with two tags or with a wrong FCS,
frames that fail policing, frames of no protocol of the C32's to the port's own MAC address, and frames of no forwarding entry are dropped and
counted; a frame of an entry waits on each of its ports whose MTU it keeps to and whose class buffers have room. A datagram of a field port that a
stream takes, well formed, goes to the ingest unit, whatever address it is sent to (R361). An ARP request or a Neighbour Solicitation, to the port
or to a group, for an address of the port, and an echo request to the port's MAC and IP address, are answered; an echo request with options or in
fragments is dropped.
R437: a frame of no stream filter of its port passes with nothing changed. Of the first filter of its stream, a frame over the largest SDU or at a
shut stream gate fails; through a flow meter, a frame within the committed bucket or else within the excess one passes and draws its bytes from
that bucket, and one beyond both fails; both buckets have been filled at CIR and EIR since their last fill, up to CBS and EBS.
Completes: frameReceive. -/
def Obligations.BridgeHandlesFrames : Prop :=
  (∀ (s v : State) (f : Frame), s.inReset = false → (s.bport f.p.val).link = true → v = s.rxStamped f.p.val →
    ((v.bport f.p.val).rxAt = some (s.rxStamp f.p.val) ∧ v = { s with bports := v.bports } ∧ ∀ q, q ≠ f.p.val → v.bport q = s.bport q)
    ∧ ((s.portMtu f.p.val < f.ipBytes ∨ 2 ≤ f.tags ∨ f.fcsOk = false) → exec (.frameReceive f) s = .next (v.bump (.bridgeDrop f.p.val)))
    ∧ (f.ipBytes ≤ s.portMtu f.p.val → f.tags < 2 → f.fcsOk = true →
      ∀ u, ((v.police f) = (false, u) → exec (.frameReceive f) s = .next (u.bump (.qciDrop f.p.val)))
      ∧ (v.police f = (true, u) →
          (f.kind = .other → u.toPort f = true → exec (.frameReceive f) s = .next (u.bump (.bridgeDrop f.p.val)))
        ∧ (∀ d n c, f.kind = .udp d → f.p.val < 16 → u.streamFor f.p.val d = some (n, c) → d.badIp = false → d.cksumOk = true →
            exec (.frameReceive f) s = .next (u.ingestDatagram n c d (f.ipBytes + 18 + 4 * f.tags)))
        ∧ ((f.kind = .other ∨ ∃ d, f.kind = .udp d ∧ (f.p.val < 16 → u.streamFor f.p.val d = none)) → u.toPort f = false →
            (u.fwdEntry f = none → exec (.frameReceive f) s = .next (u.bump (.bridgeDrop f.p.val)))
          ∧ (∀ e, u.fwdEntry f = some e → ∃ t, exec (.frameReceive f) s = .next t ∧ u.Sends t
              ∧ (∀ q ∈ e.ports, f.ipBytes ≤ u.portMtu q → (u.bport q).buffered + (f.ipBytes + 38 + 4 * f.tags) ≤ 262144 →
                  t.Queued q { cls := f.pcp.toNat, len := f.ipBytes + 38 + 4 * f.tags, body := .fwd f })))
        ∧ (∀ a, f.kind = .arp a → (u.toPort f = true ∨ groupMac f.dstMac = true) → u.ownsIp f.p.val false (a.setWidth 128) = true →
            ∃ t, exec (.frameReceive f) s = .next t ∧ u.Sends t ∧ t.Queued f.p.val (u.ownFrame f.p.val 0 84 (.reply false)))
        ∧ (∀ a, f.kind = .neighbour a → (u.toPort f = true ∨ groupMac f.dstMac = true) → u.ownsIp f.p.val true a = true →
            ∃ t, exec (.frameReceive f) s = .next t ∧ u.Sends t ∧ t.Queued f.p.val (u.ownFrame f.p.val 0 84 (.reply false)))
        ∧ (f.kind = .echo false → u.toPort f = true → u.toIp f = true → ∃ t, exec (.frameReceive f) s = .next t ∧ u.Sends t
            ∧ t.Queued f.p.val (u.ownFrame f.p.val 0 (f.ipBytes + 38) (.reply true)))
        ∧ (f.kind = .echo true → u.toPort f = true → u.toIp f = true → exec (.frameReceive f) s = .next u))))
  ∧ (∀ (s : State) (f : Frame) (r : PortSched), s.portSched f.p.val = some r →
    ((∀ x ∈ r.filters, x.matches f = false) → s.police f = (true, s))
    ∧ ∀ (i : Nat) (x : QciFilter), r.filters[i]? = some x → x.matches f = true →
        (∀ (j : Nat) (y : QciFilter), j < i → r.filters[j]? = some y → y.matches f = false) →
        ((x.maxSdu < f.ipBytes ∨ gateOpen x.gate (s.tide64 % max 1 (x.gate.map Prod.snd).sum) = false) → s.police f = (false, s))
      ∧ (f.ipBytes ≤ x.maxSdu → gateOpen x.gate (s.tide64 % max 1 (x.gate.map Prod.snd).sum) = true →
          (x.meter = none → s.police f = (true, s))
        ∧ (∀ (m : FlowMeter) (c e : Rat) (n : Rat), x.meter = some m → m.fill ((s.bport f.p.val).meters.get i) s.nclk = (c, e) →
            n = ((f.ipBytes + 18 + 4 * f.tags : Nat) : Rat) →
            (s.police f).1 = decide (n ≤ c ∨ n ≤ e)
            ∧ (s.police f).2 = { s with bports := (s.police f).2.bports }
            ∧ (∀ q, q ≠ f.p.val → (s.police f).2.bport q = s.bport q)
            ∧ (s.police f).2.bport f.p.val = { s.bport f.p.val with meters := ((s.police f).2.bport f.p.val).meters }
            ∧ ((s.police f).2.bport f.p.val).meters.get i
                = some (if n ≤ c then c - n else c, if ¬ n ≤ c ∧ n ≤ e then e - n else e, s.nclk)
            ∧ c ≤ m.cbs ∧ e ≤ m.ebs)))

/-- R582 and R583 on the service SPI: the status of an access, in its order; an access that is not accepted changes no register. An accepted
write of a register leaves OK or the reason that the write notes; a frame with another command or cut short does nothing.
Completes: svcRead, svcWrite. -/
def Obligations.ServiceSpiStatus : Prop :=
  ∀ (s : State) (a v : Word), s.inReset = false → s.power.booted = true →
    (Reg.ofAddr a.toNat = none →
      exec (.svcRead 0x0B a true) s = .next { s with svc := { status := 0x0D, value := 0, driven := true } }
      ∧ exec (.svcWrite 0x02 a v true) s = .next { s with svc := { status := 0x0D, value := 0, driven := true } })
    ∧ (∀ r, Reg.ofAddr a.toNat = some r →
        (s.spiAnswers a.toNat = false →
          exec (.svcRead 0x0B a true) s = .next { s with svc := { status := 0x0C, value := 0, driven := true } }
          ∧ exec (.svcWrite 0x02 a v true) s = .next { s with svc := { status := 0x0C, value := 0, driven := true } })
      ∧ (s.spiAnswers a.toNat = true →
          (r = .ledgerRdData → s.ledgerBusy = true →
            exec (.svcRead 0x0B a true) s = .next { s with svc := { status := 0x09, value := 0, driven := true } })
        ∧ ((r = .ledgerRdData → s.ledgerBusy = false) → ∃ t, exec (.svcRead 0x0B a true) s = .next t
            ∧ t.svc = { status := 0, value := (s.readReg r).1, driven := true } ∧ s.Serves { t with svc := s.svc })
        ∧ ((s.writeReg .spi r v).refused = none → r.deferred = false → ∃ t, exec (.svcWrite 0x02 a v true) s = .next t
            ∧ t = { (s.writeReg .spi r v).state with svc := t.svc }
            ∧ t.svc = { status := BitVec.ofNat 8 (s.writeReg .spi r v).note.code, value := 0, driven := true })
        ∧ (∀ x, (s.writeReg .spi r v).refused = some x → ∃ t, exec (.svcWrite 0x02 a v true) s = .next t
            ∧ t.svc = { status := BitVec.ofNat 8 x.code, value := 0, driven := true }
            ∧ t = { s with svc := t.svc, shortfall := t.shortfall, sets := t.sets, sec := { s.sec with pendingImg := t.sec.pendingImg } })))
    ∧ (∀ cmd : Byte, cmd ≠ 0x0B → exec (.svcRead cmd a true) s = .next { s with svc := {} })
    ∧ (∀ cmd : Byte, cmd ≠ 0x02 → exec (.svcWrite cmd a v true) s = .next { s with svc := {} })
    ∧ (∀ cmd : Byte, exec (.svcRead cmd a false) s = .next { s with svc := {} } ∧ exec (.svcWrite cmd a v false) s = .next { s with svc := {} })

/-- R444 and R446: REG_READ of COUNT registers answers with a REG_RESP of their values, read in ascending order, and refuses as the checks 8 and 9
say. Only sending changes the state, and what reads do.
R444, R446, R462 and R463: REG_WRITE of COUNT registers needs the right REG_WRITE and each register's lock, then addresses that hold registers
and answer, then a right length; where no register's own check refuses it, it writes them in ascending order and answers with a
REG_RESP; where one does, nothing is written.
R16, R444 and R446 on one register that a write only stores: the message of COUNT 1 reads it, or writes its fields, and answers OK; no other
register's stored fields change.
Completes: regRead, regWrite. -/
def Obligations.RegisterMessages : Prop :=
  (∀ (s : State) (h : SqpHdr) (a : Word) (n : BitVec 16), s.Gets h →
    (regsAt a.toNat n.toNat = none → ∃ t, exec (.regRead h a n) s = .next t ∧ s.Refused t h .addressInvalid)
    ∧ (∀ rs, regsAt a.toNat n.toNat = some rs →
        ((addrsOf a.toNat n.toNat).all s.sqpAnswers = false → ∃ t, exec (.regRead h a n) s = .next t ∧ s.Refused t h .notReady)
      ∧ ((addrsOf a.toNat n.toNat).all s.sqpAnswers = true →
          ((n = 0 ∨ 256 < n.toNat ∨ h.length ≠ 8) → ∃ t, exec (.regRead h a n) s = .next t ∧ s.Refused t h .badLength)
        ∧ (n ≠ 0 → n.toNat ≤ 256 → h.length = 8 → (Reg.ledgerRdData ∈ rs → s.ledgerBusy = false) →
            ∃ t u, exec (.regRead h a n) s = .next t ∧ s.Sends u ∧ s.Serves t
              ∧ t.Replied h 0x03 0 (regResp a.toNat n.toNat .ok (State.readRegs rs u).1))
        ∧ (n ≠ 0 → n.toNat ≤ 256 → h.length = 8 → Reg.ledgerRdData ∈ rs → s.ledgerBusy = true →
            ∃ t, exec (.regRead h a n) s = .next t ∧ t.heldReads = s.heldReads ++ [HeldRead.mk h a.toNat n.toNat]
              ∧ (h.seq, Answer.pending) ∈ (t.hport h.port).recs ∧ s.Sends { t with heldReads := s.heldReads }))))
  ∧ (∀ (s : State) (h : SqpHdr) (a : Word) (n : BitVec 16) (vals : List Word), s.Gets h →
    ((s.hasRight h.client (some .regWrite) = false ∨ ∃ i, i < n.toNat ∧ s.mayWrite h (a.toNat + 4 * i) vals[i]? = false) →
      ∃ t, exec (.regWrite h a n vals) s = .next t ∧ s.Refused t h .noPermission)
    ∧ (s.hasRight h.client (some .regWrite) = true → (∀ i, i < n.toNat → s.mayWrite h (a.toNat + 4 * i) vals[i]? = true) →
        (regsAt a.toNat n.toNat = none → ∃ t, exec (.regWrite h a n vals) s = .next t ∧ s.Refused t h .addressInvalid)
      ∧ (∀ rs, regsAt a.toNat n.toNat = some rs →
          ((addrsOf a.toNat n.toNat).all s.sqpAnswers = false → ∃ t, exec (.regWrite h a n vals) s = .next t ∧ s.Refused t h .notReady)
        ∧ ((addrsOf a.toNat n.toNat).all s.sqpAnswers = true →
            ((n = 0 ∨ 256 < n.toNat ∨ vals.length ≠ n.toNat ∨ h.length.toNat ≠ 8 + 4 * n.toNat) →
              ∃ t, exec (.regWrite h a n vals) s = .next t ∧ s.Refused t h .badLength)
          ∧ (n ≠ 0 → n.toNat ≤ 256 → vals.length = n.toNat → h.length.toNat = 8 + 4 * n.toNat →
              ∃ t u, exec (.regWrite h a n vals) s = .next t ∧ s.Sends u
                ∧ (∀ x, (State.writeRegs (.sqp h) (zipRegs rs vals) u).refused = some x →
                    t.Replied h 0x7F h.gen (nakPay x 0) ∧ s.Sends { t with shortfall := s.shortfall, sec := s.sec }
                    ∧ t.sec = { s.sec with pendingImg := t.sec.pendingImg })
                ∧ ((State.writeRegs (.sqp h) (zipRegs rs vals) u).refused = none →
                    t.Replied h 0x03 0 (regResp a.toNat n.toNat (State.writeRegs (.sqp h) (zipRegs rs vals) u).note [])
                    ∧ (State.writeRegs (.sqp h) (zipRegs rs vals) u).state.Sends { t with hcfg := u.hcfg }
                    ∧ ((∀ r ∈ rs, r.deferred = false) → t.hcfg = s.hcfg)))))))
  ∧ (∀ (s : State) (h : SqpHdr) (a v : Word) (k : Nat), ∀ r ∈ [Reg.tideJumpLimit, .tideLockThresh, .guardCfg, .ledgerRdAddr, .slotWait k],
    Reg.ofAddr a.toNat = some r →
    (s.ReadOk r (.sqp h) → ∃ t, exec (.regRead h a 1) s = .next t ∧ s.Sends t ∧ t.Replied h 0x03 0 (regResp a.toNat 1 .ok [s.cur r]))
    ∧ (s.WriteOk r v (.sqp h) → ∃ t, exec (.regWrite h a 1 [v]) s = .next t ∧ t.Replied h 0x03 0 (regResp a.toNat 1 .ok [])
        ∧ t.rw r = s.stored r v ∧ (∀ q : Reg, q.addr ≠ r.addr → t.rw q = s.rw q) ∧ s.OnlyRsvd { t with regs := s.regs }))

/-- R16: a write of a register's stored fields gives each field whose new encoding is defined the written value, leaves a field whose encoding
is reserved, and every other bit, as they were, and sets the reserved-write flag exactly where an encoding was reserved or it stood already.
A write of HBUS_n_CFG of a channel that is not READY is carried out so. -/
def Obligations.StoredFieldsOfRegisters : Prop :=
  (∀ (r : Reg) (old v : Word),
    (∀ f ∈ r.rwFields, fieldOf (storeFields old v r.rwFields).1 f.hi f.lo
        = if f.ok (fieldOf v f.hi f.lo) then fieldOf v f.hi f.lo else fieldOf old f.hi f.lo)
    ∧ (∀ k, k < 32 → (∀ f ∈ r.rwFields, k < f.lo ∨ f.hi < k) → (storeFields old v r.rwFields).1.getLsbD k = old.getLsbD k)
    ∧ ((storeFields old v r.rwFields).2 = true ↔ ∃ f ∈ r.rwFields, f.ok (fieldOf v f.hi f.lo) = false))
  ∧ (∀ (s : State) (src : RegSrc) (r : Reg) (v : Word),
      (s.fields src r v).1 = (storeFields (s.cur r) v r.rwFields).1
      ∧ (s.fields src r v).2.rsvdWrite = (s.rsvdWrite || (storeFields (s.cur r) v r.rwFields).2)
      ∧ (s.putFields src r v).rsvdWrite = (s.rsvdWrite || (storeFields (s.cur r) v r.rwFields).2)
      ∧ (r.rwFields ≠ [] → (s.putFields src r v).rw r = (storeFields (s.cur r) v r.rwFields).1))
  ∧ ∀ (s : State) (src : RegSrc) (c : Fin 16) (v : Word), s.WriteOk (.hbusCfg c.val) v src → (s.chan c.val).ready = false →
      ∃ t, exec (.hbusCfgWrite src c v) s = .next t ∧ t.rw (.hbusCfg c.val) = s.stored (.hbusCfg c.val) v
        ∧ t.rsvdWrite = (s.rsvdWrite || (storeFields (s.cur (.hbusCfg c.val)) v (Reg.hbusCfg c.val).rwFields).2)

/-- R423 and R424: a write of GLB_MODE.STRICT takes effect where nothing blocks it, and slice entries begin anew; a blocked one changes no mode.
One that does not change STRICT does nothing.
R119 and R503: a LOG_n clear empties the log but for its input buffer and the reports that met the full log in the cycle of the clear, as
far as the buffer has room for them; VU_CTRL waits for the core's next step boundary.
Completes: glbModeWrite, vuCtrlWrite, logClear. -/
def Obligations.ModeClearAndVuControlWrites : Prop :=
  (∀ (s : State) (src : RegSrc) (v : Word), s.WriteOk .glbMode v src →
    ∃ t, exec (.glbModeWrite src v) s = .next t
      ∧ (v.getLsbD 0 = s.strict ∨ s.strictBlock (v.getLsbD 0) ≠ none → s.Answers t)
      ∧ (v.getLsbD 0 ≠ s.strict → s.strictBlock (v.getLsbD 0) = none →
          t.strict = v.getLsbD 0 ∧ (∀ p, (t.pan p).entryOn = false)
          ∧ (∀ r : Reg, r.addr ≠ Reg.glbMode.addr → t.rw r = s.rw r)
          ∧ s.Answers { t with regs := s.regs, pans := s.pans }))
  ∧ (∀ (s : State) (src : RegSrc) (v : Word) (n : Fin 32) (l : LogId),
    (s.WriteOk (.logStatus l) 0x80000000 src → ∃ t, exec (.logClear src l) s = .next t
        ∧ t.log l = { buf := ((s.log l).buf ++ (if (s.log l).lateAt = s.nclk then (s.log l).late else [])).take 4 } ∧ (∀ l', logKey l' ≠ logKey l → t.log l' = s.log l') ∧ s.Answers { t with logs := s.logs })
    ∧ (s.WriteOk (.vuCtrl n.val) v src → ∃ t, exec (.vuCtrlWrite src n v) s = .next t
        ∧ t.core n.val = { s.core n.val with vuPend := some (s.stored (.vuCtrl n.val) v) } ∧ (∀ k, k ≠ n.val → t.core k = s.core k)
        ∧ s.OnlyRsvd { t with cores := s.cores }))

/-- R173: HBUS_n_CFG of a channel that is not READY is stored and restarts training; while the channel is READY the write is ignored.
R471: a write of a host port's configuration takes effect at once from the service SPI, and waits behind its answer on SQP.
Completes: hbusCfgWrite, hportCfgWrite. -/
def Obligations.ChannelAndPortConfiguration : Prop :=
  ∀ (s : State) (src : RegSrc) (c : Fin 16) (v : Word) (n : Port) (hr : HportReg),
    (s.WriteOk (.hbusCfg c.val) v src →
      ((s.chan c.val).ready = true → ∃ t, exec (.hbusCfgWrite src c v) s = .next t ∧ s.OnlyRsvd t)
      ∧ ((s.chan c.val).ready = false → ∃ t, exec (.hbusCfgWrite src c v) s = .next t
          ∧ t.rw (.hbusCfg c.val) = s.stored (.hbusCfg c.val) v
          ∧ (t.chan c.val).trained = false ∧ (t.chan c.val).training = decide (t.rwField (.hbusCfg c.val) 15 15 = 1)
          ∧ (t.chan c.val).ready = false
          ∧ (∀ r : Reg, r.addr ≠ (Reg.hbusCfg c.val).addr → t.rw r = s.rw r)
          ∧ s.OnlyRsvd { t with hbus := s.hbus, regs := s.regs, ready := s.ready }))
    ∧ (s.WriteOk (hportRegOf n hr) v src → ∃ t, exec (.hportCfgWrite src n hr v) s = .next t
        ∧ (src = .spi → t.rw (hportRegOf n hr) = s.stored (hportRegOf n hr) v ∧ t.hcfg = s.hcfg
            ∧ (∀ r : Reg, r.addr ≠ (hportRegOf n hr).addr → t.rw r = s.rw r))
        ∧ (∀ h, src = .sqp h → t.regs = s.regs ∧ ∃ q, t.hcfg = s.hcfg ++ [HcfgPend.mk h.port q (hportRegOf n hr).addr (s.stored (hportRegOf n hr) v)]
            ∧ ∃ f fs, (h.seq, Answer.sent (f :: fs)) ∈ (t.hport h.port).recs ∧ f.seq = q))

/-- R402, R405, R417 and R420 by PAN_n_CTX_CMD and PAN_n_CTRL: a load that is accepted makes its context LOADING with the cores and the catalogue
entry it gets; an unload empties a context that holds or failed; a preempt ends the pan's slice entry and every step in it, and is
refused for a reserved pan; PAUSE is stored.
Completes: load, unload, preempt, pause. -/
def Obligations.PanCommands : Prop :=
  ∀ (s : State) (src : RegSrc) (p : Fin 16) (c : Fin 8) (cat : BitVec 5), (s.panCfg p.val).isSome = true →
    (s.WriteOk (.panCtxCmd p.val) (word (0x40000000 + cat.toNat * 256 + c.val)) src →
      ∃ t u, exec (.load src p c cat) s = .next t ∧ s.Sends u ∧ (src = .spi → u = s)
        ∧ (∀ l, u.loadPlan p.val c.val cat.toNat = .ok l → (t.ctx p.val c.val).st = .loading ∧ (t.ctx p.val c.val).cat = cat.toNat
            ∧ (t.ctx p.val c.val).ranks = l.ranks ∧ (t.ctx p.val c.val).streamed = l.streamed
            ∧ (∀ c', c' ≠ c.val → t.ctx p.val c' = s.ctx p.val c') ∧ t.mem = s.mem ∧ t.regs = s.regs ∧ t.jobs = s.jobs
            ∧ (∀ n, (t.core n).vuFlags = (s.core n).vuFlags ∧ (t.core n).ops = (s.core n).ops))
        ∧ (∀ r f, u.loadPlan p.val c.val cat.toNat = .error (r, f) → s.Declines t src r))
    ∧ (s.WriteOk (.panCtxCmd p.val) (word (0x80000000 + c.val)) src →
        (s.ctx p.val c.val).st = .resident ∨ (s.ctx p.val c.val).st = .halted ∨ (s.ctx p.val c.val).st = .loadFail →
        ∃ t, exec (.unload src p c) s = .next t ∧ (t.ctx p.val c.val).st = .empty ∧ (t.ctx p.val c.val).slots = []
          ∧ (t.ctx p.val c.val).ranks = [] ∧ (t.ctx p.val c.val).live = false)
    ∧ (∀ cfg, s.panCfg p.val = some cfg → s.WriteOk (.panCtrl p.val) (s.cur (.panCtrl p.val) ||| 2) src →
        (cfg.reserved = true → ∃ t, exec (.preempt src p) s = .next t ∧ s.Declines t src .noPermission)
        ∧ (cfg.reserved = false → ∃ t, exec (.preempt src p) s = .next t ∧ (t.pan p.val).entryOn = false
            ∧ (∀ c', c' < 8 → (t.ctx p.val c').live = false) ∧ (t.pan p.val).paused = (s.pan p.val).paused))
    ∧ (∀ on, s.WriteOk (.panCtrl p.val) (if on then 1 else 0) src → ∃ t, exec (.pause src p on) s = .next t ∧ (t.pan p.val).paused = on
        ∧ (on = true → ∀ c', t.ctx p.val c' = s.ctx p.val c')
        ∧ (∀ q, q ≠ p.val → (t.pan q).paused = (s.pan q).paused ∧ (t.pan q).ctxs = (s.pan q).ctxs)
        ∧ s.Answers { t with pans := s.pans })

/-- R475 and R479 on Tide under a host servo, and under another: a TIDE_ADDEND within its limits is stored and one outside is not; STEP moves
the time of a counter that is set by V, within the limit, by exactly V; SET gives a counter that is not set the value V; REARM takes
the set away where every pan is paused and no loop runs. What is refused sets its sticky bit and changes no time.
R525, R552, R559 and R567: APPLIED_MV is stored; FORMAT begins an erase of the whole ledger device where it is READY and every pan is paused, and is BUSY while one is not;
the shutdown self-test begins for the holder of SEM_0 while every pan is paused and no loop is enabled, and is refused otherwise.
Completes: tideAddendWrite, step, set, rearm, avsAppliedWrite, format, shutdownReq. -/
def Obligations.TideAndHealthCommands : Prop :=
  (∀ (s : State) (src : RegSrc) (v : Word), s.Inv →
    (s.WriteOk .tideAddend v src → ∃ t, exec (.tideAddendWrite src v) s = .next t
      ∧ t.rw .tideAddend = (if s.hostServo = true ∧ addendMin ≤ v.toNat ∧ v.toNat ≤ addendMax then v else s.rw .tideAddend)
      ∧ t.tide = { s.tide with sticky := if s.hostServo = false then putBit s.tide.sticky 3 true
          else if addendMin ≤ v.toNat ∧ v.toNat ≤ addendMax then s.tide.sticky else putBit s.tide.sticky 5 true }
      ∧ (∀ r : Reg, r.addr ≠ Reg.tideAddend.addr → t.rw r = s.rw r) ∧ s.Answers { t with tide := s.tide, regs := s.regs })
    ∧ (s.WriteOk .tideCtrl 0x40000000 src → ∃ t, exec (.step src) s = .next t
      ∧ (s.hostServo = true → s.tideVSigned.natAbs ≤ (s.rw .tideJumpLimit).toNat → s.tide.isSet = true →
          0 ≤ ((s.tide.sec.toNat * 1000000000 + s.tide.ns : Nat) : Int) + s.tideVSigned →
          ((s.tide.sec.toNat * 1000000000 + s.tide.ns : Nat) : Int) + s.tideVSigned < 2 ^ 64 * 1000000000 →
          ((t.tide.sec.toNat * 1000000000 + t.tide.ns : Nat) : Int) = ((s.tide.sec.toNat * 1000000000 + s.tide.ns : Nat) : Int) + s.tideVSigned
          ∧ t.tide.frac = s.tide.frac ∧ t.tide.sticky.getLsbD 0 = true
          ∧ t.tide.state = (if s.tideSource = .free then .locked else .acquiring))
      ∧ (s.hostServo = false ∨ (s.rw .tideJumpLimit).toNat < s.tideVSigned.natAbs ∨ s.tide.isSet = false →
          t.tide = { s.tide with sticky := putBit s.tide.sticky (if s.hostServo = false then 3 else 7) true }
          ∧ t.loopEng = s.loopEng ∧ t.free = s.free)
      ∧ s.Answers { t with tide := s.tide, ready := s.ready, loopEng := s.loopEng, free := s.free })
    ∧ (s.WriteOk .tideCtrl 0x80000000 src → ∃ t, exec (.set src) s = .next t
      ∧ (s.hostServo = true → s.tide.isSet = false → t.tide.sec.toNat * 1000000000 + t.tide.ns = s.tideV ∧ t.tide.ns < 1000000000
          ∧ t.tide.frac = 0 ∧ t.tide.isSet = true ∧ t.tide.state = (if s.tideSource = .free then .locked else .acquiring))
      ∧ (s.hostServo = false ∨ s.tide.isSet = true →
          t.tide = { s.tide with sticky := putBit s.tide.sticky (if s.hostServo = false then 3 else 6) true }
          ∧ t.loopEng = s.loopEng ∧ t.free = s.free)
      ∧ s.Answers { t with tide := s.tide, ready := s.ready, loopEng := s.loopEng, free := s.free })
    ∧ (s.WriteOk .tideCtrl 0xC0000000 src → ∃ t, exec (.rearm src) s = .next t
      ∧ (s.allPaused = true → s.loopsOff = true → t.tide.isSet = false ∧ t.tide.state = .unset ∧ t.tide.sec = s.tide.sec ∧ t.tide.ns = s.tide.ns)
      ∧ (s.allPaused = false ∨ s.loopsOff = false → t.tide = { s.tide with sticky := putBit s.tide.sticky 4 true })
      ∧ s.Answers { t with tide := s.tide, ready := s.ready }))
  ∧ (∀ (s : State) (src : RegSrc) (v : Word),
    (s.WriteOk .avsApplied v src → ∃ t, exec (.avsAppliedWrite src v) s = .next t
      ∧ t.rw .avsApplied = s.stored .avsApplied v ∧ t.avs.target = s.avs.target ∧ t.mem = s.mem ∧ t.sec = s.sec
      ∧ (∀ r : Reg, r.addr ≠ Reg.avsApplied.addr → t.rw r = s.rw r))
    ∧ (s.WriteOk .ledgerCtrl 0x80000000 src →
        (s.allPaused = false → ∃ t, exec (.format src) s = .next t ∧ s.Declines t src .busy)
      ∧ (s.allPaused = true → s.ledger.state ≠ .ready → ∃ t, exec (.format src) s = .next t ∧ t.ledger = s.ledger ∧ s.Answers t)
      ∧ (s.allPaused = true → s.ledger.state = .ready → ∃ t, exec (.format src) s = .next t
          ∧ t.ledger = { s.ledger with job := none, erase := some .all } ∧ s.Answers { t with ledger := s.ledger }))
    ∧ (s.WriteOk .shutdown 0x80000000 src →
        ((src = .spi ∨ ∃ h, src = .sqp h ∧ s.holdsSem 0 h.port h.client = false) →
          ∃ t, exec (.shutdownReq src) s = .next t ∧ s.Declines t src .noPermission)
      ∧ (∀ h, src = .sqp h → s.holdsSem 0 h.port h.client = true →
          ((s.allPaused = false ∨ s.loopsOff = false) → ∃ t, exec (.shutdownReq src) s = .next t ∧ s.Declines t src .busy)
        ∧ (s.allPaused = true → s.loopsOff = true → s.bist.shutBusy = false → ∃ t, exec (.shutdownReq src) s = .next t
            ∧ t.bist = { s.bist with shutBusy := true, shutEnded := false, shutDone := false, shutPass := false, shutRecorded := false }
            ∧ t.ledger = { s.ledger with shutTests := satInc s.ledger.shutTests }
            ∧ s.Answers { t with bist := s.bist, ledger := s.ledger }))))

/-- R541, R545 to R548 and R559: APPLY, DISCARD, ENROL, the split of the image store and the deletion of a model pack. An apply that begins
closes every queue and window and clears the READY bits of bridge, ingest and loop engine; one with nothing to apply or too early sets
APPLY_REFUSED; one whose image breaks a rule, or whose pages cannot be read without poison (R545), is refused and frees the image.
Completes: apply, discard, enrol, secStoreCfgWrite, secModelDel. -/
def Obligations.ImageCommands : Prop :=
  ∀ (s : State) (src : RegSrc) (v : Word) (i : BitVec 6),
    (s.WriteOk .secCtrl 0x80000000 src →
        (s.sec.pendingImg = none ∨ s.loopsOff = false ∨ s.sec.applying = true
            ∨ (∃ p c, p < 16 ∧ c < 8 ∧ (s.ctx p c).st ≠ .empty ∧ (s.ctx p c).st ≠ .loadFail) →
          ∃ t, exec (.apply src) s = .next t ∧ t.sec = { s.sec with applyRefused := true } ∧ s.Answers { t with sec := s.sec })
      ∧ (∀ im, s.sec.pendingImg = some im → s.loopsOff = true → s.sec.applying = false →
          (∀ p c, p < 16 → c < 8 → (s.ctx p c).st = .empty ∨ (s.ctx p c).st = .loadFail) →
          ((State.readStore im.held s).1.2 = true →
              ∃ t, exec (.apply src) s = .next t ∧ t.Told src .imageRejected ∧ t.sec = { s.sec with pendingImg := none }
                ∧ t.regs = s.regs ∧ t.mem = s.mem)
          ∧ (∀ r, (State.readStore im.held s).1.2 = false → s.imageFault im = some r →
              ∃ t, exec (.apply src) s = .next t ∧ t.Told src r ∧ t.sec = { s.sec with pendingImg := none }
                ∧ t.regs = s.regs ∧ t.mem = s.mem)
          ∧ ((State.readStore im.held s).1.2 = false → s.imageFault im = none → ∃ t, exec (.apply src) s = .next t
              ∧ t.sec = { s.sec with applying := true, pendingImg := none, applyImg := some im }
              ∧ t.bridgeReady = false ∧ t.ingestReady = false ∧ t.loopReady = false
              ∧ (∀ w, (t.window w).isOpen = false) ∧ (∀ q, (t.queue q).state ≠ .opened)
              ∧ t.ingest = { s.ingest with refs := [] } ∧ t.mem = s.mem ∧ t.regs = s.regs)))
    ∧ (s.WriteOk .secCtrl 0x40000000 src → ∃ t, exec (.discard src) s = .next t
        ∧ t.sec = { s.sec with pendingImg := none } ∧ s.Answers { t with sec := s.sec })
    ∧ (s.WriteOk .secCtrl 0x20000000 src → s.ledger.state = .ready → ∃ t, exec (.enrol src) s = .next t
        ∧ (s.power.held = true → t.sec = { s.sec with enrolReq := true } ∧ t.ledger = s.ledger)
        ∧ (s.power.held = false → t.sec = { s.sec with enrolReq := false } ∧ t.ledger = { s.ledger with flash := t.ledger.flash }
            ∧ ∀ a, flashByte t.ledger.flash a = if a / 4096 = 1 ∨ a / 4096 = 2 then 0xFF else flashByte s.ledger.flash a)
        ∧ s.Answers { t with sec := s.sec, ledger := s.ledger })
    ∧ (s.WriteOk .secStoreCfg v src → ∃ t, exec (.secStoreCfgWrite src v) s = .next t
        ∧ (s.storeEmpty = true → t.rw .secStoreCfg = s.stored .secStoreCfg v) ∧ (s.storeEmpty = false → t.regs = s.regs ∧ t.rsvdWrite = true)
        ∧ (∀ r : Reg, r.addr ≠ Reg.secStoreCfg.addr → t.rw r = s.rw r) ∧ s.OnlyRsvd { t with regs := s.regs })
    ∧ (s.WriteOk .secModelDel (i.setWidth 32) src → ∃ t, exec (.secModelDel src i) s = .next t
        ∧ (SMap.get s.sec.models i.toNat = none → t.sec = s.sec)
        ∧ (∀ m, SMap.get s.sec.models i.toNat = some m → t.sec = { s.sec with models :=
            (SMap.put s.sec.models i.toNat { m with deleting := true }).filter (fun x => !x.2.deleting || s.namesPack x.2) })
        ∧ s.Answers { t with sec := s.sec })

/-- R383: ACTIVATE selects the job slot; CLEAR of the inactive slot frees its rasters and leaves the others; CLEAR of the active slot does
nothing. R343, R346, R350 and R356 on loops and traces: EN starts and stops a loop, FE_CLR of a tripped loop waits for its next tick; a host's
target is stored and handed over; a second FE_CLR does not put the first one off; a trigger starts the named traces; a trace's control starts it anew,
for the client that wrote it, or, written by the service SPI, for the one that did before.
Completes: activate, clear, en, feClr, loopHostTargetWrite, loopTraceTrig, loopTraceCtrlWrite. -/
def Obligations.IngestAndLoopCommands : Prop :=
  ∀ (s : State) (src : RegSrc) (sel : Bool) (n : Fin 2048) (w : LoopCfg) (m : BitVec 24) (ff : Bool) (mask : BitVec 16) (k : Fin 16) (v : Word),
    (s.WriteOk .jobCtrl (word (2 ^ 31 + bitAt 0 sel)) src → ∃ t, exec (.activate src sel) s = .next t
      ∧ t.ingest = { s.ingest with active := some (if sel then 1 else 0) } ∧ s.OnlyRsvd { t with ingest := s.ingest, regs := s.regs })
    ∧ (s.WriteOk .jobCtrl (word (2 ^ 30 + bitAt 0 sel)) src → ∃ t, exec (.clear src sel) s = .next t
      ∧ (s.ingest.active = some (if sel then 1 else 0) → t.ingest = s.ingest ∧ t.rsvdWrite = true)
      ∧ (s.ingest.active ≠ some (if sel then 1 else 0) → t.ingest = { s.ingest with
            refs := s.ingest.refs.filter (fun r => r.1 / 8 ≠ if sel then 1 else 0) })
      ∧ s.OnlyRsvd { t with ingest := s.ingest, regs := s.regs })
    ∧ (s.loopCfg n.val = some w → w.group ≠ 0 →
        (s.WriteOk (.loopCtrl n.val) 1 src → ∃ t, exec (.en src n true) s = .next t
          ∧ t.loop n.val = { s.loop n.val with en := some (match (s.loop n.val).en with | some e => e | none => s.tide64) }
          ∧ (∀ j, j ≠ n.val → t.loop j = s.loop j) ∧ s.Answers { t with loops := s.loops })
      ∧ (s.WriteOk (.loopCtrl n.val) 0 src → ∃ t, exec (.en src n false) s = .next t
          ∧ t.loop n.val = { s.loop n.val with en := none, on := false }
          ∧ (∀ j, j ≠ n.val → t.loop j = s.loop j) ∧ s.Answers { t with loops := s.loops })
      ∧ (s.WriteOk (.loopCtrl n.val) (s.cur (.loopCtrl n.val) ||| 4) src → ∃ t, exec (.feClr src n) s = .next t
          ∧ (t.loop n.val).clr = (if (s.loop n.val).status.getLsbD 31 then some ((s.loop n.val).clr.getD s.tide64) else (s.loop n.val).clr)
          ∧ (t.loop n.val).en = (s.loop n.val).en
          ∧ (∀ j, j ≠ n.val → t.loop j = s.loop j) ∧ s.Answers { t with loops := s.loops }))
    ∧ (s.loopCfg n.val = some w → s.WriteOk (if ff then .loopHostFf n.val else .loopHostTarget n.val) (m.setWidth 32) src →
        ∃ t, exec (.loopHostTargetWrite src n ff m) s = .next t
          ∧ (w.spHost = true → t.rw (if ff then .loopHostFf n.val else .loopHostTarget n.val) = m.setWidth 32
              ∧ { at' := s.tide64, cyc := s.nclk, field := if ff then .ffExt else .target, mant := m.toInt, sat := false } ∈ (t.loop n.val).hoff)
          ∧ (w.spHost = false → t.regs = s.regs ∧ (t.loop n.val).status = putBit (s.loop n.val).status 27 true
              ∧ (t.loop n.val).hoff = (s.loop n.val).hoff)
          ∧ (∀ j, j ≠ n.val → t.loop j = s.loop j) ∧ s.Answers { t with loops := s.loops, regs := s.regs })
    ∧ (s.WriteOk .traceTrig (mask.setWidth 32) src → ∃ t, exec (.loopTraceTrig src mask) s = .next t
        ∧ (∀ j, j < 16 → (t.trace j).trig = ((s.trace j).trig
            || (mask.getLsbD j && decide (s.rwField (.traceCtrl j) 31 31 = 1) && decide (s.rwField (.traceCtrl j) 30 29 = 2))))
        ∧ s.Answers { t with traces := s.traces, free := s.free })
    ∧ (s.WriteOk (.traceCtrl k.val) v src → ∃ t, exec (.loopTraceCtrlWrite src k v) s = .next t
        ∧ t.rw (.traceCtrl k.val) = s.stored (.traceCtrl k.val) v ∧ (t.trace k.val).trig = false ∧ (t.trace k.val).pre = []
        ∧ (t.trace k.val).recs = 0 ∧ (t.trace k.val).owner = (RegSrc.sender src).or (s.trace k.val).owner
        ∧ (∀ j, j ≠ k.val → t.trace j = s.trace j) ∧ (∀ r : Reg, r.addr ≠ (Reg.traceCtrl k.val).addr → t.rw r = s.rw r)
        ∧ s.OnlyRsvd { t with traces := s.traces, regs := s.regs, free := s.free })

/-- R422, R473 and R559: the reads that do more than read. WAIT_SUM_LO latches its high word; TIDE_NOW_NS latches seconds and fraction; a
read of LEDGER_RD_DATA moves its address by 4 in the 8 MiB of the device. The service SPI gives the value read.
Completes: waitSumLoRead, tideNowNsRead, ledgerRdDataRead. -/
def Obligations.ReadsThatLatch : Prop :=
  ∀ (s : State) (src : RegSrc) (c : Fin 8),
    (s.ReadOk (.waitSumLo c.val) src → ∃ t, exec (.waitSumLoRead src c) s = .next t
      ∧ t.waits.getD c.val {} = { s.waits.getD c.val {} with latch := some (s.waits.getD c.val {}).hi }
      ∧ (∀ d, d ≠ c.val → t.waits.getD d {} = s.waits.getD d {})
      ∧ (src = .spi → t.svc = svcResp .ok (word (s.waits.getD c.val {}).sum)) ∧ s.Answers { t with waits := s.waits })
    ∧ (s.ReadOk .tideNowNs src → ∃ t, exec (.tideNowNsRead src) s = .next t
      ∧ t.tide = { s.tide with latchSec := s.tide.sec, latchFrac := s.tide.frac / 2 ^ 14 }
      ∧ (src = .spi → t.svc = svcResp .ok (word s.tide.ns)) ∧ s.Answers { t with tide := s.tide })
    ∧ (s.ReadOk .ledgerRdData src → s.ledgerBusy = false → ∃ t, exec (.ledgerRdDataRead src) s = .next t
      ∧ t.rw .ledgerRdAddr = word (((s.rw .ledgerRdAddr).toNat + 4) % 2 ^ 23)
      ∧ (∀ r : Reg, r.addr ≠ Reg.ledgerRdAddr.addr → t.rw r = s.rw r)
      ∧ (src = .spi → t.svc = svcResp .ok (word (flashNat s.ledger.flash (s.rw .ledgerRdAddr).toNat 4)))
      ∧ s.Answers { t with regs := s.regs })

/-- R477, R482, R488 and R489: what a Sync comes to. One of another domain is dropped and counted; one on a port of the forwarding mask, and
after it its Follow_Up as it came, goes on to every other port of the mask whose class buffers have room (R438); one of the selected grandmaster,
where the port's link delay is known, gives the offset o, which is the reference's newest measurement; any other is nothing. Where no
supervisor acts on o (R474), the state of Tide follows it alone: HOLDOVER ends, and a good measurement there is the first of the eight; LOCKED ends
beyond 4 × TIDE_LOCK_THRESH; ACQUIRING ends with the eighth good measurement running. No register but TIDE_ADDEND changes.
R481 and R603: what the supervisor's servo does with an offset. It sets a counter that is not set; steps by −o what is within
TIDE_JUMP_LIMIT and beyond 20,000 ns; beyond the limit drives TIDE_ADDEND to the end of its range that reduces |o|; and otherwise
slews by the integrator and the addend of R603. The step is the supervisor's own operation, whose limits TideAndHealthCommands states.
Completes: syncReceive. -/
def Obligations.SyncAndServo : Prop :=
  (∀ (s : State) (m : SyncMsg) (d : Word) (o : Rat), s.inReset = false →
    (m.domain ≠ s.ptpDomain → exec (.syncReceive m) s = .next (s.bump (.bridgeDrop m.p.val)))
    ∧ (m.domain = s.ptpDomain → m.p.val ∉ s.ptpPorts →
        s.tideSource ≠ .ptp ∨ m.gm ≠ s.tide.gm ∨ s.linkDelay m.p.val = 0xFFFFFFFF → exec (.syncReceive m) s = .next s)
    ∧ (m.domain = s.ptpDomain → m.p.val ∈ s.ptpPorts → s.ptpPorts.Nodup → (∀ q ∈ s.ptpPorts, q ≠ m.p.val →
        ∃ t, exec (.syncReceive m) s = .next t
          ∧ ((s.bport q).buffered + m.bytes ≤ 262144 → t.Queued q { cls := m.pcp.toNat, len := m.bytes, body :=
              (.sync m s.tide.residence (if s.linkDelay m.p.val = 0xFFFFFFFF then 0 else (s.linkDelay m.p.val).toNat)) })
          ∧ (∀ f, m.follow = some f → (s.bport q).buffered + m.bytes + f.bytes ≤ 262144 →
              t.Queued q { cls := m.pcp.toNat, len := f.bytes, body := .ptp .followUp m.domain f.body })))
    ∧ (m.domain = s.ptpDomain → s.tideSource = .ptp → m.gm = s.tide.gm → s.linkDelay m.p.val = d → d ≠ 0xFFFFFFFF →
        o = (s.rxStamp m.p.val : Rat) / 4 - ((syncTruth m).1 + ((syncTruth m).2 : Rat) / 65536 + (d.toNat : Rat) / 4) →
        ∃ t, exec (.syncReceive m) s = .next t ∧ t.tide.offset = o.floor ∧ t.tide.measured = true ∧ t.tide.lastMeas = s.nclk
          ∧ (∀ r : Reg, r.addr ≠ Reg.tideAddend.addr → t.rw r = s.rw r)
          ∧ s.Sends { t with tide := s.tide, regs := s.regs, ready := s.ready, loopEng := s.loopEng, free := s.free }
          ∧ (s.hostServo = true ∨ s.sup = false → t.rw .tideAddend = s.rw .tideAddend ∧ t.tide.ns = s.tide.ns ∧ t.tide.sec = s.tide.sec
              ∧ t.loopEng = s.loopEng ∧ t.free = s.free
              ∧ (s.tide.state = .holdover → t.tide.good = if |o| ≤ ((s.rw .tideLockThresh).toNat : Rat) then 1 else 0)
              ∧ t.tide.state = (match s.tide.state with
                | .holdover => .acquiring
                | .locked => if 4 * ((s.rw .tideLockThresh).toNat : Rat) < |o| then .acquiring else .locked
                | .acquiring => if |o| ≤ ((s.rw .tideLockThresh).toNat : Rat) ∧ 7 ≤ s.tide.good then .locked else .acquiring
                | .unset => .unset))))
  ∧ (∀ (s : State) (o t : Rat),
    (s.tide.isSet = false → s.supervise o t = s.tideSet (dword ((s.tide64 : Int) - o.floor)))
    ∧ (s.tide.isSet = true → s.tide.hold = none → 20000 < |o| → |o| ≤ ((s.rw .tideJumpLimit).toNat : Rat) →
        s.supervise o t = s.tideStep (-o.floor))
    ∧ (s.tide.isSet = true → s.tide.hold = none → ((s.rw .tideJumpLimit).toNat : Rat) < |o| → |o| ≤ (2 ^ 64 : Nat) →
        (s.supervise o t).tide.hold = some (s.rw .tideAddend) ∧ (s.supervise o t).tide.sec = s.tide.sec
        ∧ (s.supervise o t).tide.ns = s.tide.ns
        ∧ ((s.supervise o t).rw .tideAddend).toNat = (if 0 < o then addendMin else addendMax))
    ∧ (s.tide.isSet = true → s.tide.hold = none → |o| ≤ 20000 → |o| ≤ ((s.rw .tideJumpLimit).toNat : Rat) →
        ∃ i c : Rat, i = max (-1000000) (min 1000000 (s.tide.integ + 3948 / 10000 * o * t))
          ∧ c = max (-1000000) (min 1000000 (8886 / 10000 * o + i))
          ∧ (s.supervise o t).tide.integ = i
          ∧ (((addendMin : Nat) : Int) ≤ roundEven (addendNom * (1 - c / 1000000000)) →
              roundEven (addendNom * (1 - c / 1000000000)) ≤ ((addendMax : Nat) : Int) →
              (((s.supervise o t).rw .tideAddend).toNat : Int) = roundEven (addendNom * (1 - c / 1000000000)))))

/-- R482 and R485: no measurement for SYNC_TIMEOUT expected intervals, or no edge for 1.1 s, brings HOLDOVER; TIDE_ADDEND takes the mean
of the values kept of the last measurements. R486: another grandmaster is recorded, and one with another identity sets GM_CHANGED.
R488 on a port that takes part in the peer delay mechanism, one that the image names, or before any image a host port (log entry 26): a
Pdelay_Req of the domain is answered with its ingress time-stamp; the C32's own request goes out once per second; a response gives the link
delay of R494, half of the round trip less the turnaround, and ends the exchange. Another port answers and sends nothing. Messages of other domains
are dropped and counted. The class of a host port's frames is HPORT_n_CFG.PCP (R436).
R477, R491 and R492: an edge within 0.9 s of the last accepted one is ignored; an accepted one is time-stamped, and under SOURCE PPS_IN
measured. PPS_OUT rises in the cycle in which the count of NS passes 0, where no step of Tide lands, and falls WIDTH_MS later.
Completes: holdoverTimeout, bestMasterChange, pdelayReq, pdelayTimer, pdelayResp, ppsInEdge, ppsOutEdge. -/
def Obligations.TideEvents : Prop :=
  (∀ (s : State) (gm : Dword) (k : Int), s.inReset = false →
    ((s.tide.state = .acquiring ∨ s.tide.state = .locked) →
      ((s.tideSource = .ptp ∧ s.rwField .tideCfg 15 8 * intervalNs s.tide.logInterval * 11 ≤ (s.nclk - s.tide.lastMeas) * 20)
        ∨ (s.tideSource = .pps ∧ 1100000000 * 11 ≤ (s.nclk - s.tide.ppsAt.getD 0) * 20)) →
      ∃ t, exec .holdoverTimeout s = .next t ∧ t.tide.state = .holdover ∧ t.tide.sticky.getLsbD 1 = true
        ∧ t.rw .tideAddend = (if s.tide.addends = [] then s.rw .tideAddend else BitVec.ofNat 32 (meanAddend s.tide.addends))
        ∧ t.tide.holdA = t.rw .tideAddend ∧ t.tide.sec = s.tide.sec ∧ t.tide.ns = s.tide.ns
        ∧ s.Sends { t with tide := s.tide, regs := s.regs })
    ∧ (s.tideSource = .ptp → ∃ t, exec (.bestMasterChange gm k) s = .next t ∧ t.tide.gm = gm ∧ t.tide.logInterval = k
        ∧ t.tide.sticky = (if gm = s.tide.gm then s.tide.sticky else putBit s.tide.sticky 2 true)
        ∧ t.tide = { s.tide with gm := gm, logInterval := k, sticky := t.tide.sticky }
        ∧ s.Sends { t with tide := s.tide })
    ∧ (s.tideSource ≠ .ptp → exec (.bestMasterChange gm k) s = .next s))
  ∧ (∀ (s : State) (p : Fin 18) (domain : Byte) (turn : Nat) (t1 : Int), s.inReset = false →
    (domain ≠ s.ptpDomain → exec (.pdelayReq p domain) s = .next (s.bump (.bridgeDrop p.val))
      ∧ exec (.pdelayResp p domain turn) s = .next (s.bump (.bridgeDrop p.val)))
    ∧ (s.ptpOn p.val = true ↔ if s.sec.image.isNone then 16 ≤ p.val else p.val ∈ s.ptpPorts)
    ∧ (s.ptpOn p.val = false → exec (.pdelayTimer p) s = .next s ∧ (domain = s.ptpDomain → exec (.pdelayReq p domain) s = .next s))
    ∧ (s.ptpOn p.val = true →
        (domain = s.ptpDomain → ∃ t, exec (.pdelayReq p domain) s = .next t
          ∧ t.Queued p.val (s.ownFrame p.val 7 128 (.pdelayResp (s.rxStamp p.val))) ∧ t = { s with bports := t.bports })
      ∧ ((∀ a, s.tide.pdelayAt.get p.val = some a → 1000000000 * 11 ≤ (s.nclk - a) * 20) →
          ∃ t, exec (.pdelayTimer p) s = .next t ∧ t.Queued p.val (s.ownFrame p.val 7 128 .pdelayReq)
            ∧ t = { s with bports := t.bports, tide := { s.tide with pdelayAt := s.tide.pdelayAt.put p.val s.nclk } })
      ∧ (∀ a, s.tide.pdelayAt.get p.val = some a → (s.nclk - a) * 20 < 1000000000 * 11 → exec (.pdelayTimer p) s = .next s))
    ∧ (domain = s.ptpDomain → s.tide.pdelayT1.get p.val = some t1 →
        ∃ t, exec (.pdelayResp p domain turn) s = .next t
          ∧ (0 ≤ s.rxStamp p.val - t1 - turn → s.rxStamp p.val - t1 - turn < 2 ^ 32 →
              ((t.linkDelay p.val).toNat : Int) = (s.rxStamp p.val - t1 - turn) / 2)
          ∧ t.tide.pdelayT1.get p.val = none
          ∧ t = { s with tide := { s.tide with delay := t.tide.delay, pdelayT1 := t.tide.pdelayT1 } }))
  ∧ (∀ s : State, s.inReset = false →
    ((∃ a, s.tide.ppsAt = some a ∧ (s.nclk - a) * 20 < 900000000 * 11) → exec .ppsInEdge s = .next s)
    ∧ ((∀ a, s.tide.ppsAt = some a → 900000000 * 11 ≤ (s.nclk - a) * 20) →
        ∃ t, exec .ppsInEdge s = .next t ∧ t.tide.ppsNs = BitVec.ofNat 32 s.tide.ns ∧ t.tide.ppsSec = s.tide.sec.setWidth 32
          ∧ t.tide.ppsAt = some s.nclk
          ∧ (s.tideSource ≠ .pps → t = { s with tide := { s.tide with ppsAt := t.tide.ppsAt, ppsNs := t.tide.ppsNs, ppsSec := t.tide.ppsSec } })
          ∧ (s.tideSource = .pps → t.tide.offset = (if s.tide.ns < 500000000 then (s.tide.ns : Int) else (s.tide.ns : Int) - 1000000000)))
    ∧ (s.tide.ppsOut = false → s.rwField .tidePpsOut 31 31 = 1 → s.tide.carried = true →
        exec .ppsOutEdge s = .next { s with tide := { s.tide with
          ppsOut := true, ppsEnd := s.tide64 + s.rwField .tidePpsOut 9 0 * 1000000 } })
    ∧ (s.tide.ppsOut = false → (s.rwField .tidePpsOut 31 31 = 0 ∨ s.tide.carried = false) →
        exec .ppsOutEdge s = .next s)
    ∧ (s.tick.tide.carried = true ↔ 1000000000 * 2 ^ 30 ≤ s.tide.ns * 2 ^ 30 + s.tide.frac + (s.rw .tideAddend).toNat)
    ∧ (∀ v : Int, (s.tide.shift v).carried = false) ∧ (∀ v : Nat, (s.tide.setTo v).carried = false)
    ∧ (s.tide.ppsOut = true → exec .ppsOutEdge s
        = .next (if s.tide.ppsEnd ≤ s.tide64 then { s with tide := { s.tide with ppsOut := false } } else s)))

/-- R464 and R467: QUEUE_OPEN of a configured queue that is closed opens it for its sender with the next generation, which the answer carries;
of a queue that is not configured or not closed it is refused, and only what is sent changes. The QUEUE_OPEN and QUEUE_ADOPT rows are one
message, told apart by ADOPT.
R465 and R467: QUEUE_OPEN with ADOPT makes its sender the owner of an open queue of the same generation, where the owner's port is not
READY or UNRESPONSIVE, or the sender holds SEM_0 or is the owner already; without that it is NO_PERMISSION, and a queue that is not configured,
closed, of another generation or closing is refused with the reason of each.
R276, R277, R466 and R467: QUEUE_CLOSE of an open queue, of its generation, by its owner or the holder of SEM_0 leaves it closing, its answer
still to come, with no instance of it waiting and every live one leaving; from anyone else it is NO_PERMISSION. QUEUE_CLOSE_ACK closes the
queue once no instance of it is left but harvested ones and every completion of its generation has been handed to a port, and answers
the message.
Completes: queueOpen, queueAdopt, queueClose, queueCloseAck. -/
def Obligations.QueueOwnership : Prop :=
  (∀ (s : State) (h : SqpHdr), s.MsgOk h (some .queue) 0 → s.qmgrReady = true → h.adopt = false →
    ∀ c ∈ [Instr.queueOpen h, Instr.queueAdopt h],
      (s.queueCfg h.number.toNat = none → ∃ t, exec c s = .next t ∧ s.Refused t h .addressInvalid)
      ∧ ((s.queueCfg h.number.toNat).isSome = true → (s.queue h.number.toNat).state ≠ .closed →
          ∃ t, exec c s = .next t ∧ s.Refused t h .busy)
      ∧ ((s.queueCfg h.number.toNat).isSome = true → (s.queue h.number.toNat).state = .closed → ∃ t, exec c s = .next t
          ∧ t.queue h.number.toNat = { s.queue h.number.toNat with
              state := .opened, gen := (s.queue h.number.toNat).gen + 1, port := h.port, client := h.client, both := h.both, opener := h.client }
          ∧ t.Replied h 0x7F ((s.queue h.number.toNat).gen + 1) (nakPay .ok 0)
          ∧ (∀ q, q ≠ h.number.toNat → t.queue q = s.queue q) ∧ s.Sends { t with queues := s.queues }))
  ∧ (∀ (s : State) (h : SqpHdr), s.MsgOk h (some .queue) 0 → s.qmgrReady = true → h.adopt = true →
    ∀ c ∈ [Instr.queueOpen h, Instr.queueAdopt h],
      (s.queueCfg h.number.toNat = none → ∃ t, exec c s = .next t ∧ s.Refused t h .addressInvalid)
      ∧ ((s.queueCfg h.number.toNat).isSome = true →
        ((s.queue h.number.toNat).state = .closed → ∃ t, exec c s = .next t ∧ s.Refused t h .queueClosed)
      ∧ ((s.queue h.number.toNat).state ≠ .closed → h.gen ≠ (s.queue h.number.toNat).gen →
          ∃ t, exec c s = .next t ∧ s.Refused t h .staleGeneration)
      ∧ ((s.queue h.number.toNat).state = .closing → h.gen = (s.queue h.number.toNat).gen → ∃ t, exec c s = .next t ∧ s.Refused t h .busy)
      ∧ ((s.queue h.number.toNat).state = .opened → h.gen = (s.queue h.number.toNat).gen →
          (s.portReady (s.queue h.number.toNat).port = false ∨ (s.hport (s.queue h.number.toNat).port).unresponsive = true
            ∨ s.senderHolds 0 h = true ∨ ((s.queue h.number.toNat).port = h.port ∧ (s.queue h.number.toNat).client = h.client)) →
          ∃ t, exec c s = .next t
            ∧ t.queue h.number.toNat = { s.queue h.number.toNat with port := h.port, client := h.client, both := h.both }
            ∧ t.Replied h 0x7F h.gen (nakPay .ok 0) ∧ (∀ q, q ≠ h.number.toNat → t.queue q = s.queue q)
            ∧ s.Sends { t with queues := s.queues })
      ∧ ((s.queue h.number.toNat).state = .opened → h.gen = (s.queue h.number.toNat).gen →
          s.portReady (s.queue h.number.toNat).port = true → (s.hport (s.queue h.number.toNat).port).unresponsive = false →
          s.senderHolds 0 h = false → ((s.queue h.number.toNat).port ≠ h.port ∨ (s.queue h.number.toNat).client ≠ h.client) →
          ∃ t, exec c s = .next t ∧ s.Refused t h .noPermission)))
  ∧ ((∀ (s : State) (h : SqpHdr), s.MsgOk h (some .queue) 0 → s.qmgrReady = true →
    (s.queueCfg h.number.toNat).isSome = true → (s.queue h.number.toNat).state = .opened → h.gen = (s.queue h.number.toNat).gen →
    (s.senderHolds 0 h = false → ((s.queue h.number.toNat).port ≠ h.port ∨ (s.queue h.number.toNat).client ≠ h.client) →
      ∃ t, exec (.queueClose h) s = .next t ∧ s.Refused t h .noPermission)
    ∧ (s.senderHolds 0 h = true ∨ ((s.queue h.number.toNat).port = h.port ∧ (s.queue h.number.toNat).client = h.client) →
    ∃ t, exec (.queueClose h) s = .next t
      ∧ t.queue h.number.toNat = { s.queue h.number.toNat with state := .closing, closeReq := some h }
      ∧ (h.seq, Answer.pending) ∈ (t.hport h.port).recs
      ∧ (∀ j ∈ t.jobs, j.queue = h.number.toNat → j.st ≠ .waiting ∧ (j.st = .live → j.leave.isSome = true))
      ∧ (∀ q, q ≠ h.number.toNat → t.queue q = s.queue q)
      ∧ t.mem = s.mem ∧ t.regs = s.regs ∧ t.windows = s.windows ∧ t.sems = s.sems ∧ t.tide = s.tide))
  ∧ ∀ (s : State) (q : BitVec 16), s.inReset = false → (s.queue q.toNat).state = .closing →
    (∀ j ∈ s.jobs, j.queue = q.toNat → j.st = .harvested) →
    (∀ c ∈ s.comps, c.queue = q.toNat → c.gen = (s.queue q.toNat).gen → c.everSent = true) →
    ∃ t, exec (.queueCloseAck q) s = .next t ∧ t.queue q.toNat = { s.queue q.toNat with state := .closed, closeReq := none }
      ∧ (∀ h, (s.queue q.toNat).closeReq = some h → t.Replied h 0x7F h.gen (nakPay .ok 0))
      ∧ (∀ k, k ≠ q.toNat → t.queue k = s.queue k) ∧ s.Sends { t with queues := s.queues })

/-- R256, R264 and R448: a SUBMIT to an open queue, of its generation, of the lengths its context asks for and within the limits of R256, is
accepted: an instance waits, with its TAG, DEADLINE, data and T_ARR, the time-stamp of its frame in ns (R487), behind those that wait; where ACK_REQ
asks for it the answer is OK. One whose DEADLINE lies within 20 μs or the queue's least solve time of T_ARR is handed over as a completion of status
NOT_STARTED (8) and HOW 2 instead. A queue that is not open, other lengths and a limit of R256 refuse it, and only what is sent changes.
The limits are held of the state after checks 1 to 5.
R276 and R449: a CANCEL to an open queue of its generation leaves no instance under its TAG waiting there and builds a completion for each that
waited, of status ABORTED (10) and HOW 3 (shown where it is the only one of that TAG); it has every live one leave, and touches no other instance. It has
no answer.
Completes: submit, cancel. -/
def Obligations.InstancesComeAndGo : Prop :=
  (∀ (s : State) (h : SqpHdr) (b : SubmitBody) (c : QueueCfg) (at' : Nat), at' = (s.rxStamp (portBridge h.port) / 4).toNat →
    s.MsgOk h none (24 + b.params.length + b.warm.length) → s.qmgrReady = true →
    s.queueCfg h.number.toNat = some c → h.gen = (s.queue h.number.toNat).gen →
    ((s.queue h.number.toNat).state ≠ .opened → ∃ t, exec (.submit h b) s = .next t ∧ s.Refused t h .queueClosed)
    ∧ ((s.queue h.number.toNat).state = .opened →
        (submitLensOk (s.queueCat c) b = false → ∃ t, exec (.submit h b) s = .next t ∧ s.Refused t h .badLength)
      ∧ (submitLensOk (s.queueCat c) b = true →
          (∀ r, (s.afterChecks h).refuseJob h.number.toNat c (b.params.length + b.warm.length) = some r →
            ∃ t, exec (.submit h b) s = .next t ∧ s.Refused t h r)
        ∧ ((s.afterChecks h).refuseJob h.number.toNat c (b.params.length + b.warm.length) = none →
            ∃ t, exec (.submit h b) s = .next t ∧ t.nextJob = s.nextJob + 1 ∧ (h.ackReq = true → t.Replied h 0x7F h.gen (nakPay .ok 0))
              ∧ (at' + 20000 ≤ b.deadline.toNat → at' + c.minSolve ≤ b.deadline.toNat →
                  (∃ j : Job, t.jobs = s.jobs ++ [j]
                    ∧ j = { id := s.nextJob, queue := h.number.toNat, gen := (s.queue h.number.toNat).gen, tag := b.tag, client := h.client,
                            deadline := b.deadline.toNat, tArr := at', params := b.params, warm := b.warm })
                  ∧ s.Sends { t with jobs := s.jobs, nextJob := s.nextJob })
              ∧ (b.deadline.toNat < at' + 20000 ∨ b.deadline.toNat < at' + c.minSolve → s.Inv → t.jobs = s.jobs ∧ t.mem = s.mem ∧ t.regs = s.regs
                  ∧ t.nextComp = s.nextComp + 1 ∧ ∀ j : Job, j.tag = b.tag → j.queue = h.number.toNat → j.gen = (s.queue h.number.toNat).gen →
                    j.deadline = b.deadline.toNat → j.tArr = at' → j.tAdmit = 0 →
                    ∃ u : State, t = u.putComp j.queue j.gen (completionBytes j c.guard 8 2 false 0 [] 0 s.tide64 0 []))))))
  ∧ (∀ (s : State) (h : SqpHdr) (tag : Word), s.MsgOk h none 4 → s.qmgrReady = true → (s.queueCfg h.number.toNat).isSome = true →
    (s.queue h.number.toNat).state = .opened → h.gen = (s.queue h.number.toNat).gen → s.Inv →
    ∃ t, exec (.cancel h tag) s = .next t
      ∧ (∀ j ∈ t.jobs, j.queue = h.number.toNat → j.tag = tag → j.st ≠ .waiting ∧ (j.st = .live → j.leave.isSome = true))
      ∧ (∀ j ∈ s.jobs, j.queue ≠ h.number.toNat ∨ j.tag ≠ tag → j ∈ t.jobs)
      ∧ (∀ j ∈ s.jobs, j.queue = h.number.toNat → j.tag = tag → j.st = .live → ∃ k ∈ t.jobs, k.id = j.id)
      ∧ t.nextComp = s.nextComp + (s.jobs.filter (fun j => j.queue = h.number.toNat && j.tag = tag && j.st = .waiting)).length
      ∧ (∀ j, s.jobs.filter (fun j => j.queue = h.number.toNat && j.tag = tag) = [j] → j.st = .waiting → ∃ u : State,
          t = u.putComp j.queue j.gen (completionBytes j (((s.queueCfg j.queue).map QueueCfg.guard).getD 0) 10 3 false 0 [] 0 s.tide64 0 []))
      ∧ (h.seq, Answer.none) ∈ (t.hport h.port).recs
      ∧ t.mem = s.mem ∧ t.regs = s.regs ∧ t.queues = s.queues ∧ t.windows = s.windows ∧ t.tide = s.tide)

/-- R149, R150, R156, R467 and R469: a window opens on a range of a region's memory that lies in it and in lines, with the next generation;
WINDOW_CLOSE closes it; a message for a closed window is refused.
R151 to R155: a write or read within an open window is staged behind what came before it, but before an access of its port with a newer SEQ; memory
does not change until it is applied; beyond the window it is refused. A WINDOW_READ, refused or not, is one that a duplicate repeats (R441).
WINDOW_WRITE_APPLY of the one write that is staged, where no pan is concerned with it, carries it out: it lands whole and in no other byte.
Completes: windowOpen, windowClose, windowWrite, windowWriteApply, windowRead. -/
def Obligations.Windows : Prop :=
  (∀ (s : State) (h : SqpHdr) (region : Byte) (ofs len : Word), h.number.toNat < 256 →
    (s.MsgOk h (some .window) 12 → s.windowReady region.toNat = true →
        ((s.window h.number.toNat).isOpen = true → ∃ t, exec (.windowOpen h region ofs len) s = .next t ∧ s.Refused t h .busy)
      ∧ ((s.window h.number.toNat).isOpen = false →
          ((4 ≤ region.toNat ∨ ofs.toNat % 64 ≠ 0 ∨ len.toNat % 64 ≠ 0 ∨ len = 0 ∨ 0x600000 < ofs.toNat + len.toNat) →
            ∃ t, exec (.windowOpen h region ofs len) s = .next t ∧ s.Refused t h .windowRange)
        ∧ (region.toNat < 4 → ofs.toNat % 64 = 0 → len.toNat % 64 = 0 → len ≠ 0 → ofs.toNat + len.toNat ≤ 0x600000 →
            ∃ t, exec (.windowOpen h region ofs len) s = .next t
              ∧ t.window h.number.toNat = { isOpen := true, gen := (s.window h.number.toNat).gen + 1, region := region.toNat,
                                            ofs := ofs.toNat, len := len.toNat }
              ∧ t.Replied h 0x7F ((s.window h.number.toNat).gen + 1) (nakPay .ok 0)
              ∧ (∀ w, w ≠ h.number.toNat → t.window w = s.window w) ∧ s.Sends { t with windows := s.windows })))
    ∧ (s.MsgOk h (some .window) 0 → s.qmgrReady = true →
        ((s.window h.number.toNat).isOpen = false → ∃ t, exec (.windowClose h) s = .next t ∧ s.Refused t h .windowClosed)
      ∧ ((s.window h.number.toNat).isOpen = true → h.gen = (s.window h.number.toNat).gen → ∃ t, exec (.windowClose h) s = .next t
          ∧ t.window h.number.toNat = { s.window h.number.toNat with isOpen := false } ∧ t.Replied h 0x7F h.gen (nakPay .ok 0)
          ∧ (∀ w, w ≠ h.number.toNat → t.window w = s.window w) ∧ s.Sends { t with windows := s.windows })))
  ∧ ((∀ (s : State) (h : SqpHdr) (ofs len : Word) (data : List Byte) (x : StagedBody → Staged),
      h.number.toNat < 256 → (s.window h.number.toNat).isOpen = true →
      h.gen = (s.window h.number.toNat).gen → s.openWindowReady h = true →
      x = Staged.mk h.number.toNat (s.window h.number.toNat).region (s.window h.number.toNat).ofs (s.window h.number.toNat).len ofs h →
    (s.MsgOk h (some .window) (4 + data.length) →
        ((s.window h.number.toNat).len < ofs.toNat + data.length →
          ∃ t, exec (.windowWrite h ofs data) s = .next t ∧ s.Refused t h .windowRange)
      ∧ (ofs.toNat + data.length ≤ (s.window h.number.toNat).len → (∀ q, (s.hport h.port).lastWinSeq = some q → newer q h.seq = false) →
          s.stagedBytes + data.length ≤ 512 * 1024 → ∃ t, exec (.windowWrite h ofs data) s = .next t
            ∧ (∃ a b, s.staged = a ++ b ∧ t.staged = a ++ x (.write data) :: b
              ∧ (∀ y ∈ a, y.hdr.port = h.port → newer y.hdr.seq h.seq = false)
              ∧ ∀ y c, b = y :: c → y.hdr.port = h.port ∧ newer y.hdr.seq h.seq = true)
            ∧ (h.ackReq = true → (h.seq, Answer.pending) ∈ (t.hport h.port).recs) ∧ s.Sends { t with staged := s.staged }))
    ∧ (s.MsgOk h none 8 →
        ((len = 0 ∨ 1048576 < len.toNat ∨ (s.window h.number.toNat).len < ofs.toNat + len.toNat) →
          ∃ t, exec (.windowRead h ofs len) s = .next t ∧ s.Sends t ∧ (h.seq, Answer.again) ∈ (t.hport h.port).recs
            ∧ ∃ u, s.Refused u h .windowRange ∧ t = u.againAnswer h)
      ∧ (len ≠ 0 → len.toNat ≤ 1048576 → ofs.toNat + len.toNat ≤ (s.window h.number.toNat).len →
          ∃ t, exec (.windowRead h ofs len) s = .next t
            ∧ (∃ a b, s.staged = a ++ b ∧ t.staged = a ++ x (.read len.toNat) :: b
              ∧ (∀ y ∈ a, y.hdr.port = h.port → newer y.hdr.seq h.seq = false)
              ∧ ∀ y c, b = y :: c → y.hdr.port = h.port ∧ newer y.hdr.seq h.seq = true)
            ∧ (h.seq, Answer.again) ∈ (t.hport h.port).recs ∧ s.Sends { t with staged := s.staged })))
  ∧ ∀ (s : State) (w : BitVec 16) (x : Staged) (d : List Byte), s.Inv → s.inReset = false → s.staged = [x] → x.win = w.toNat → s.concerned x = [] →
      x.body = .write d → ∃ t, exec (.windowWriteApply w) s = .next t ∧ t.staged = []
        ∧ (∀ a, t.mem.read 0 a = if 0x08000000 + x.region * 0x800000 + x.base + x.winOfs.toNat ≤ a
              ∧ a < 0x08000000 + x.region * 0x800000 + x.base + x.winOfs.toNat + d.length
            then d.getD (a - (0x08000000 + x.region * 0x800000 + x.base + x.winOfs.toNat)) 0 else s.mem.read 0 a)
        ∧ (x.hdr.ackReq = true → t.Replied x.hdr 0x7F x.hdr.gen (nakPay .ok 0))
        ∧ s.Sends { t with staged := s.staged, mem := s.mem, poison := s.poison })

/-- R458, R459 and R463: a semaphore that no one else holds is acquired for its lease, and again by its holder, and every other sender gets BUSY
with the semaphore's status word; its holder releases it, and any other sender gets NO_PERMISSION; SEM_STATUS is answered with that word.
Completes: semAcquire, semRelease, semStatus. -/
def Obligations.Semaphores : Prop :=
  ∀ (s : State) (h : SqpHdr) (lease : Word), h.number.toNat < 64 →
    (s.MsgOk h (some .sem) 4 →
        ((lease.toNat < 10 ∨ 60000 < lease.toNat) → ∃ t, exec (.semAcquire h lease) s = .next t ∧ s.Refused t h .badLength)
      ∧ (10 ≤ lease.toNat → lease.toNat ≤ 60000 →
          (∀ x, s.sems.get h.number.toNat = some x → s.senderHolds h.number.toNat h = false → ∃ t, exec (.semAcquire h lease) s = .next t
            ∧ s.Sends t ∧ t.Replied h 0x7F h.gen (nakPay .busy (s.semWord h.number.toNat).toNat))
        ∧ (s.sems.get h.number.toNat = none ∨ s.senderHolds h.number.toNat h = true → ∃ t, exec (.semAcquire h lease) s = .next t
            ∧ t.sems = s.sems.put h.number.toNat { port := h.port, client := h.client, leaseMs := lease.toNat, since := s.nclk }
            ∧ t.senderHolds h.number.toNat h = true ∧ t.Replied h 0x7F h.gen (nakPay .ok 0) ∧ s.Sends { t with sems := s.sems })))
    ∧ (s.MsgOk h (some .sem) 0 →
        (s.senderHolds h.number.toNat h = false → ∃ t, exec (.semRelease h) s = .next t ∧ s.Refused t h .noPermission)
      ∧ (s.senderHolds h.number.toNat h = true → ∃ t, exec (.semRelease h) s = .next t ∧ t.sems.get h.number.toNat = none
          ∧ (∀ n, n ≠ h.number.toNat → t.sems.get n = s.sems.get n)
          ∧ t.Replied h 0x7F h.gen (nakPay .ok 0) ∧ s.Sends { t with sems := s.sems }))
    ∧ (s.MsgOk h none 0 → ∃ t, exec (.semStatus h) s = .next t ∧ s.Sends t
        ∧ t.Replied h 0x32 h.gen (beBytes 4 (s.semWord h.number.toNat).toNat))

/-- R460: a lease that has passed without renewal frees its semaphore, whether or not its port has link, and is counted in
SEM_LEASE_EXPIRED_COUNT; before that nothing happens, and no other semaphore is concerned.
R451, R453 and R454: an acknowledged frame is no longer unacknowledged; one not acknowledged is resent every interval, with RETRY set, up to
RETRY.MAX times, and then its port is UNRESPONSIVE.
R442 and R443: a first fragment opens a reassembly, at most four at a time; one that belongs to none is dropped and counted; one beyond
its message is refused; a message whose last fragment arrives is processed as a whole; one not complete after 1 ms is given up.
Completes: semLeaseExpiry, hostAck, resendTimer, sqpFragment, reassemblyTimeout. -/
def Obligations.LeasesAcknowledgementsAndFragments : Prop :=
  (∀ (s : State) (n : Fin 64) (x : SemSt), s.inReset = false → s.sems.get n.val = some x →
    (x.leaseMs * 1000000 * 11 < (s.nclk - x.since) * 20 → ∃ t, exec (.semLeaseExpiry n) s = .next t ∧ t.sems.get n.val = none
        ∧ (∀ m, m ≠ n.val → t.sems.get m = s.sems.get m)
        ∧ t.count .semExpired = (s.bump .semExpired).count .semExpired ∧ s.Sends { t with sems := s.sems })
    ∧ ((s.nclk - x.since) * 20 ≤ x.leaseMs * 1000000 * 11 → exec (.semLeaseExpiry n) s = .next s))
  ∧ ((∀ (s : State) (h : SqpHdr), s.MsgOk h none 8 → ∃ t, exec (.hostAck h) s = .next t ∧ s.Sends t)
  ∧ (∀ (s : State) (h : SqpHdr), s.MsgOk h none 8 → (s.hport h.port).waiting = [] → s.comps = [] →
      (∀ v ∈ (s.hport h.port).unacked, v.frame.msg = 0) →
      ∃ t, exec (.hostAck h) s = .next t ∧ s.Sends t ∧ ∀ v ∈ (t.hport h.port).unacked, v.frame.seq ≠ h.ack)
  ∧ ∀ (s : State) (p : Port) (q : Word) (u : Unacked), s.inReset = false → (s.hport p).unresponsive = false →
      (s.hport p).unacked.find? (fun v => v.frame.seq = q) = some u → s.portReady p = true →
      ((s.nclk - u.since) * 20 < s.rwField (.hportRetry (portIx p)) 23 0 * 1000 * 11 → exec (.resendTimer p q) s = .next s)
      ∧ (s.rwField (.hportRetry (portIx p)) 23 0 * 1000 * 11 ≤ (s.nclk - u.since) * 20 →
          (u.resends < s.rwField (.hportRetry (portIx p)) 31 24 → ∃ t, exec (.resendTimer p q) s = .next t ∧ s.Sends t
            ∧ (∀ v ∈ (s.hport p).unacked, v.frame.seq = q → { v with resends := v.resends + 1, since := s.nclk } ∈ (t.hport p).unacked))
        ∧ (s.rwField (.hportRetry (portIx p)) 31 24 ≤ u.resends → ∃ t, exec (.resendTimer p q) s = .next t ∧ s.Sends t
            ∧ (t.hport p).unresponsive = true)))
  ∧ ((∀ (s : State) (h : SqpHdr) (type : Byte) (total ofs : Word) (data : List Byte), s.Gets h → hostType type = true →
      h.length.toNat = 8 + data.length →
      (∀ r ∈ (s.hport h.port).reasm, r.takes h.seq ofs.toNat = false) →
    ((ofs ≠ 0 ∨ 4 ≤ (s.hport h.port).reasm.length) → ∃ t, exec (.sqpFragment h type total ofs data) s = .next t ∧ s.Sends t
      ∧ (t.hport h.port).reasm = (s.hport h.port).reasm)
    ∧ (ofs = 0 → (s.hport h.port).reasm.length < 4 →
        ((2 ^ 20 < total.toNat ∨ total.toNat < data.length) → ∃ t, exec (.sqpFragment h type total ofs data) s = .next t ∧ s.Sends t
          ∧ (t.hport h.port).reasm = (s.hport h.port).reasm)
      ∧ (total.toNat ≤ 2 ^ 20 → data.length < total.toNat → (∀ r ∈ (s.hport h.port).reasm, r.hdr.seq ≠ h.seq) →
          ∃ t, exec (.sqpFragment h type total ofs data) s = .next t
          ∧ (t.hport h.port).reasm = (s.hport h.port).reasm ++ [Reasm.mk h type total.toNat data.length [(0, data)] s.nclk]
          ∧ s.Sends t)))
  ∧ (∀ (s : State) (p : Port) (q : Word) (r : Reasm), s.inReset = false → (s.hport p).reasm.find? (fun x => x.hdr.seq = q) = some r →
      (1000000 * 11 ≤ (s.nclk - r.at') * 20 → ∃ t, exec (.reassemblyTimeout p q) s = .next t
        ∧ (t.hport p).reasm = (s.hport p).reasm.filter (fun x => x.hdr.seq ≠ q) ∧ s.Sends t)
      ∧ ((s.nclk - r.at') * 20 < 1000000 * 11 → exec (.reassemblyTimeout p q) s = .next s))
  ∧ (∀ (s : State) (h : SqpHdr) (type : Byte) (total ofs : Word) (data : List Byte) (r : Reasm), s.Gets h → hostType type = true →
      h.length.toNat = 8 + data.length → (s.hport h.port).reasm.find? (fun x => x.takes h.seq ofs.toNat) = some r →
      total.toNat ≤ 2 ^ 20 → ofs.toNat + data.length ≤ total.toNat →
      (r.agrees h type total.toNat ofs.toNat data.length = false → ∃ t, exec (.sqpFragment h type total ofs data) s = .next t ∧ s.Sends t
        ∧ (t.hport h.port).reasm = (s.hport h.port).reasm.filter (fun x => x.hdr.seq ≠ r.hdr.seq))
      ∧ (r.agrees h type total.toNat ofs.toNat data.length = true → (r.add (h.seq - r.hdr.seq).toNat data).have = r.total →
        ∃ t u, exec (.sqpFragment h type total ofs data) s = .next t ∧ s.Sends u
          ∧ (∀ x ∈ (u.hport r.hdr.port).reasm, x.hdr.seq ≠ r.hdr.seq)
          ∧ t = u.dispatch r.hdr r.type (r.add (h.seq - r.hdr.seq).toNat data).whole))
  ∧ ∀ r : Reasm, (r.parts.map Prod.fst).Perm (List.range r.parts.length) → r.whole.length = r.have)

/-- R447, R463 and R541: an image transfer opens where the lock its KIND needs is held, its index is free and its TOTAL fits; it takes pages of the
image store for its body (which ones: log entry 32). Data are written where they lie within it; IMAGE_END of a whole transfer waits for
verification; what does not fit is refused.
Completes: imageBegin, imageData, imageEnd. -/
def Obligations.ImageTransfers : Prop :=
  ∀ (s : State) (h : SqpHdr) (kind slot refId : Byte) (total ofs : Word) (data : List Byte), h.number.toNat < 4 →
    (s.MsgOk h (some .image) 8 → kind.toNat ≤ 2 → slot = 0 → refId = 0 →
        (kind.toNat < 2 → s.senderHolds 0 h = false → ∃ t, exec (.imageBegin h kind slot refId total) s = .next t ∧ s.Refused t h .noPermission)
      ∧ ((kind.toNat = 2 ∨ s.senderHolds 0 h = true) → s.kindReady kind.toNat = true →
          ((s.transfers.get h.number.toNat).isSome = true → ∃ t, exec (.imageBegin h kind slot refId total) s = .next t ∧ s.Refused t h .busy)
        ∧ (s.transfers.get h.number.toNat = none → (∀ x ∈ s.transfers, 2 ≤ kind.toNat ∨ x.2.kind ≠ kind.toNat) →
            (s.spaceShort kind.toNat 0 0 total.toNat = true →
              ∃ t, exec (.imageBegin h kind slot refId total) s = .next t ∧ s.Refused t h .resources)
          ∧ (s.spaceShort kind.toNat 0 0 total.toNat = false → (kind = 0 ∨ s.sec.store.isSome = true ∨ s.storeFits s.storeChans = true) →
            ∃ t, exec (.imageBegin h kind slot refId total) s = .next t
              ∧ t.transfers.get h.number.toNat = some
                  { kind := kind.toNat, slot := 0, refId := 0, total := total.toNat, held := s.takePages kind.toNat total.toNat }
              ∧ t.sec = { (s.giveUp (s.takePages kind.toNat total.toNat)).sec with store := if kind = 0 ∨ s.sec.store.isSome = true then s.sec.store else some s.storeChans }
              ∧ t.Replied h 0x7F h.gen (nakPay .ok 0) ∧ s.Sends { t with transfers := s.transfers, sec := s.sec }))))
    ∧ (s.MsgOk h (some .image) 8 → kind = 3 → slot.toNat ≤ 1 → refId.toNat ≤ 7 → s.kindReady 3 = true → s.transfers.get h.number.toNat = none →
        (s.ingest.active = some slot.toNat → ∃ t, exec (.imageBegin h kind slot refId total) s = .next t ∧ s.Refused t h .busy)
        ∧ (s.ingest.active ≠ some slot.toNat → s.spaceShort 3 slot.toNat refId.toNat total.toNat = false →
            ∃ t, exec (.imageBegin h kind slot refId total) s = .next t
              ∧ t.transfers.get h.number.toNat = some { kind := 3, slot := slot.toNat, refId := refId.toNat, total := total.toNat }
              ∧ t.Replied h 0x7F h.gen (nakPay .ok 0) ∧ s.Sends { t with transfers := s.transfers }))
    ∧ (∀ x, s.transfers.get h.number.toNat = some x → s.transferReady h = true →
        (s.MsgOk h (some .image) (4 + data.length) →
            (x.ended = none → x.total < ofs.toNat + data.length → ∃ t, exec (.imageData h ofs data) s = .next t ∧ s.Refused t h .windowRange)
          ∧ (x.ended ≠ none → ∃ t, exec (.imageData h ofs data) s = .next t ∧ s.Refused t h .busy)
          ∧ (x.ended = none → ofs.toNat + data.length ≤ x.total → ∃ t y, exec (.imageData h ofs data) s = .next t
              ∧ t.transfers.get h.number.toNat = some y ∧ y = { x with data := y.data }
              ∧ (∀ i, SMap.get y.data i = if ofs.toNat ≤ i ∧ i < ofs.toNat + data.length then data[i - ofs.toNat]? else SMap.get x.data i)
              ∧ (h.ackReq = true → t.Replied h 0x7F h.gen (nakPay .ok 0)) ∧ (x.held = [] → t.mem = s.mem ∧ t.poison = s.poison)
              ∧ (∀ a, a < 0x40000000 → t.mem.read 0 a = s.mem.read 0 a)
              ∧ s.Sends { t with transfers := s.transfers, mem := s.mem, poison := s.poison, pageCrc := s.pageCrc, hbus := s.hbus }))
      ∧ (s.MsgOk h (some .image) 0 → x.ended = none →
            (x.data.length ≠ x.total → ∃ t, exec (.imageEnd h) s = .next t ∧ s.Refused t h .badLength)
          ∧ (x.data.length = x.total → ∃ t, exec (.imageEnd h) s = .next t
              ∧ t.transfers.get h.number.toNat = some { x with ended := some h } ∧ (h.seq, Answer.pending) ∈ (t.hport h.port).recs
              ∧ s.Sends { t with transfers := s.transfers })))

/-- R540 to R543, R546 and R548: verification of a container ends its transfer and answers it. Its body is read back from the pages of the store
that hold it (R541). The first of checks 1 to 8 of R540 that fails names the answer and leaves the machine's images as they were; a bundle is
taken once, if its code and its tables fit supervisor memory; a structure image becomes the pending one; a model pack takes a free index of the store, or is there already.
Completes: containerVerification. -/
def Obligations.ContainersAreVerified : Prop :=
  ∀ (s : State) (x : Fin 4) (tr : Transfer) (h : SqpHdr) (b : List Byte) (bad : Bool), s.inReset = false → s.transfers.get x.val = some tr →
    tr.ended = some h → tr.kind ≤ 2 → (s.readContainer tr).1 = (b, bad) →
    (∀ r, s.containerFault tr.kind tr.total b bad = some r → ∃ t, exec (.containerVerification x) s = .next t ∧ t.transfers = s.transfers.del x.val
        ∧ t.Replied h 0x7F h.gen (nakPay r 0) ∧ s.Sends { t with transfers := s.transfers, hbus := s.hbus, logs := s.logs })
    ∧ (s.containerFault tr.kind tr.total b bad = none →
        (tr.kind = 0 → ∀ y, Config.parseBundle (b.drop 0x2000) = some y → ∃ t, exec (.containerVerification x) s = .next t
          ∧ t.transfers = s.transfers.del x.val
          ∧ (s.sec.bundle = none → y.code.length ≤ 0x100000 → y.tables.length ≤ 0x40000 → t.sec = { s.sec with bundle := some { y with meas := hashOf (part b 0x14 32) } }
              ∧ t.Replied h 0x7F h.gen (nakPay .ok 0))
          ∧ (s.sec.bundle ≠ none ∨ 0x100000 < y.code.length ∨ 0x40000 < y.tables.length → t.sec = s.sec ∧ t.Replied h 0x7F h.gen (nakPay .imageRejected 0))
          ∧ s.Sends { t with transfers := s.transfers, sec := s.sec, hbus := s.hbus, logs := s.logs })
      ∧ (tr.kind = 1 → ∀ y, Config.parseStruct (b.drop 0x2000) = some y → ∃ t, exec (.containerVerification x) s = .next t
          ∧ t.transfers = s.transfers.del x.val ∧ t.Replied h 0x7F h.gen (nakPay .ok 0)
          ∧ t.sec = { s.sec with pendingImg := some { y with
              meas := hashOf (part b 0x14 32), owner := BitVec.ofNat 128 (beNat (part b 0x570 16)), pages := tr.held.length, held := tr.held } }
          ∧ s.Sends { t with transfers := s.transfers, sec := s.sec, hbus := s.hbus, logs := s.logs })
      ∧ (tr.kind = 2 → ∀ m, m = { parsePack (hashOf (part b 0x14 32)) (b.drop 0x2000) with held := tr.held } → packOk m (b.drop 0x2000) = true →
          ((∀ k ∈ s.sec.models, k.2.meas ≠ hashOf (part b 0x14 32)) → ∀ i, s.freeIndex = some i →
            ∃ t, exec (.containerVerification x) s = .next t ∧ t.transfers = s.transfers.del x.val
              ∧ t.sec = { s.sec with models := s.sec.models.put i m } ∧ t.Replied h 0x7F h.gen (nakPay .ok 0)
              ∧ s.Sends { t with transfers := s.transfers, sec := s.sec, hbus := s.hbus, logs := s.logs })
          ∧ ((∃ k ∈ s.sec.models, k.2.meas = hashOf (part b 0x14 32)) →
            ∃ t, exec (.containerVerification x) s = .next t ∧ t.transfers = s.transfers.del x.val ∧ t.Replied h 0x7F h.gen (nakPay .ok 0)
              ∧ s.Sends { t with transfers := s.transfers, hbus := s.hbus, logs := s.logs })))

/-- R382: a reference raster that decodes, and meets the limits of a stream of its REF_ID, gets pages of its job slot's area that no other raster of
the slot holds, and is ready; one that does not, or finds too few free pages, or whose slot has become the active one, is refused. R549 and R550: an
attestation's evidence holds the nonce, DEVICE_ID and the measurements that stand, whatever its signature's random bytes (log entry 64), and a duplicate
of its request is processed again.
Completes: referenceDecodeDone, attestReq. -/
def Obligations.ReferencesAndAttestation : Prop :=
  (∀ (s : State) (x : Fin 4) (tr : Transfer) (h : SqpHdr), s.inReset = false → s.transfers.get x.val = some tr → tr.ended = some h → tr.kind = 3 →
      (s.ingest.active = some tr.slot → ∃ t, exec (.referenceDecodeDone x) s = .next t
        ∧ t.transfers = s.transfers.del x.val ∧ t.Replied h 0x7F h.gen (nakPay .busy 0) ∧ s.Sends { t with transfers := s.transfers })
      ∧ (s.ingest.active ≠ some tr.slot →
          (s.decodeRef tr.refId (tr.data.map Prod.snd) (s.refStreams tr.refId) = none → ∃ t, exec (.referenceDecodeDone x) s = .next t
            ∧ t.transfers = s.transfers.del x.val ∧ t.Replied h 0x7F h.gen (nakPay .imageRejected 0)
            ∧ s.Sends { t with transfers := s.transfers })
        ∧ (∀ c bs pages, s.decodeRef tr.refId (tr.data.map Prod.snd) (s.refStreams tr.refId) = some (c, bs) → s.sec.image.isSome = true →
            s.freePages tr.slot tr.refId (s.rasterSize tr.refId c).1 = pages →
            (pages.length < (s.rasterSize tr.refId c).1 → ∃ t, exec (.referenceDecodeDone x) s = .next t
              ∧ t.transfers = s.transfers.del x.val ∧ t.Replied h 0x7F h.gen (nakPay .resources 0) ∧ s.Sends { t with transfers := s.transfers })
            ∧ ((s.rasterSize tr.refId c).1 ≤ pages.length → ∃ t r, exec (.referenceDecodeDone x) s = .next t
              ∧ t.ingest.refs.get (tr.slot * 8 + tr.refId) = some r ∧ r.ready = true ∧ r.pages = pages ∧ pages.length = (s.rasterSize tr.refId c).1
              ∧ c ∈ s.refStreams tr.refId ∧ (∃ d, decodeReference c (s.refScale tr.refId) (tr.data.map Prod.snd) = some (d, bs)
                  ∧ d.interlaced = false ∧ d.width = c.width ∧ d.height = c.height)
              ∧ (∀ k ∈ pages, k < s.refPages ∧ ∀ o ∈ s.otherRefs tr.slot tr.refId, k ∉ o.pages)
              ∧ t.transfers = s.transfers.del x.val ∧ t.Replied h 0x7F h.gen (nakPay .ok 0)
              ∧ s.Sends { t with transfers := s.transfers, ingest := s.ingest, mem := s.mem, poison := s.poison, pageCrc := s.pageCrc,
                                 hbus := s.hbus }))))
  ∧ (∀ (s : State) (h : SqpHdr) (nonce : BitVec 256), s.MsgOk h none 32 → s.sup = true → ∃ t, ∃ rnd : BitVec 256, exec (.attestReq h nonce) s = .next t
      ∧ s.Sends { t with free := s.free }
      ∧ (h.seq, Answer.again) ∈ (t.hport h.port).recs
      ∧ (t.hport h.port).nextSeq = ((s.afterChecks h).hport h.port).nextSeq
          + BitVec.ofNat 32 (framePays (s.payLimit h.port h.src.v6) (s.evidence nonce rnd)).length)
  ∧ ∀ (s : State) (nonce rnd : BitVec 256), part (s.evidence nonce rnd) 0x20 32 = hashBytes nonce
      ∧ part (s.evidence nonce rnd) 0x40 32 = hashBytes s.sec.deviceId
      ∧ part (s.evidence nonce rnd) 0x60 32 = hashBytes ((s.sec.bundle.map Bundle.meas).getD 0)
      ∧ part (s.evidence nonce rnd) 0x80 32 = hashBytes ((s.sec.image.map StructImage.meas).getD 0)
      ∧ (s.sec.idReady = false → s.sec.deviceId = 0)

/-- R431 and R547: the end of an apply. The image that the apply took is the applied one, and an image that has become pending since stays so; queues,
windows, instances and pans begin anew; every loop starts as its wiring says; PAUSE, LOOP_n_CTRL.EN (log entry 14) and the flags that a host clears stay as they are (R13); exactly the field ports that the image enables are enabled, and the bridge is READY.
Completes: applyComplete. -/
def Obligations.ApplyCompletes : Prop :=
  ∀ (s : State) (im : StructImage), s.inReset = false → s.sec.applying = true → s.sec.applyImg = some im →
    ∃ t, exec .applyComplete s = .next t ∧ t.sec = { s.sec with image := some im, applyImg := none, applying := false }
      ∧ t.queues = [] ∧ t.windows = [] ∧ t.jobs = [] ∧ t.priors = [] ∧ t.bridgeReady = true
      ∧ (∀ p, (t.pan p).ctxs = [] ∧ (t.pan p).entryOn = false ∧ (t.pan p).paused = (s.pan p).paused)
      ∧ t.loops = im.loops.map (fun l : Nat × LoopCfg => (l.1, { l.2.initial with status := (s.loop l.1).status, en := (s.loop l.1).en }))
      ∧ (∀ k, (t.pair k).simplex = (s.pair k).simplex ∧ (t.pair k).halted = (s.pair k).halted)
      ∧ t.ingest.active = s.ingest.active ∧ t.ingest.refs = []
      ∧ (∀ n, (t.stream n).frames = [] ∧ (t.stream n).future = (s.stream n).future ∧ (t.stream n).unsupported = (s.stream n).unsupported)
      ∧ (∀ k, (t.field k).rej = (s.field k).rej ∧ (t.field k).sat = (s.field k).sat ∧ (t.field k).tmo = true)
      ∧ (∀ p, p < 16 → (t.bport p).enabled = ((SMap.get im.ports p).getD {}).enabled)
      ∧ t.mem = s.mem ∧ t.regs = s.regs ∧ t.tide = s.tide ∧ t.ledger = s.ledger ∧ t.power = s.power

/-- R169, R173, R498 and R532: a channel that passes training is READY where the MIRROR bits of its pair agree, one that fails has TRAIN_FAIL set and is
not READY; GLB_READY.HBUS says whether any channel is READY. A channel that is lost is no longer READY, the checks of its pages that were not
written back are gone (R167; log entry 56), and its loss goes to the chip log, where that has room, as UCM when the channel is mirrored and as FATAL
otherwise. No other channel but the partner is touched, and the partner changes in its READY bit alone.
Completes: hbusTrainingDone, hbusLost. -/
def Obligations.HyperBusChannels : Prop :=
  ∀ (s : State) (c : Fin 16) (pass : Bool), s.inReset = false →
    ((s.chan c.val).training = true → ∃ t, exec (.hbusTrainingDone c pass) s = .next t
      ∧ (t.chan c.val).training = false ∧ (t.chan c.val).trained = pass ∧ (t.chan c.val).fail = !pass
      ∧ (t.chan c.val).ready = (pass && decide (s.mirrored c.val = s.mirrored (c.val ^^^ 8)))
      ∧ t.hbusReady = (List.range 16).any (fun k => (t.chan k).ready)
      ∧ t.chan (c.val ^^^ 8) = { s.chan (c.val ^^^ 8) with
          ready := (s.chan (c.val ^^^ 8)).trained && decide (s.mirrored c.val = s.mirrored (c.val ^^^ 8)) }
      ∧ (∀ k, k ≠ c.val → k ≠ c.val ^^^ 8 → t.chan k = s.chan k)
      ∧ s.Sends { t with hbus := s.hbus, ready := s.ready })
    ∧ ((s.chan c.val).ready = true → ∃ t, exec (.hbusLost c) s = .next t
      ∧ (t.chan c.val).ready = false ∧ (t.chan c.val).lost = true ∧ (t.chan c.val).trained = false ∧ (t.chan c.val).check = []
      ∧ t.hbusReady = (List.range 16).any (fun k => (t.chan k).ready)
      ∧ t.chan (c.val ^^^ 8) = { s.chan (c.val ^^^ 8) with
          ready := (s.chan (c.val ^^^ 8)).trained && decide (s.mirrored c.val = s.mirrored (c.val ^^^ 8)) }
      ∧ (∀ k, k ≠ c.val → k ≠ c.val ^^^ 8 → t.chan k = s.chan k)
      ∧ ((s.log .chip).room (logCap .chip) = true → ∃ r : Report, (t.log .chip).buf = (s.log .chip).buf ++ [r]
          ∧ r.w2 = reportW2 (if s.mirrored c.val then .ucm else .fatal) 0x12 (c.val * 16 + 15) 0 ∧ r.time = s.now)
      ∧ s.Sends { t with hbus := s.hbus, ready := s.ready, logs := s.logs })

/-- R168, R169, R404, R414 and R418: a page's transfer or a remote access ends its transaction. One of a generation that is past is discarded and
counted, and does nothing else. A page whose reads on its first READY channel do not both mismatch, and whose copy there is good, arrives as that
copy; else as the partner's of a mirror pair, if its reads do not both mismatch and its copy is good; else it arrives poisoned, and the channel read last
counts it. One that no READY channel holds arrives poisoned. A page that arrives for an operation gives its part of the result the bytes that came, and
poisons that part if it is poisoned; one that arrives for a load ends the load if it is poisoned, and else changes nothing.
R402 and R403: a load that has taken its time, and all of whose pages have come, leaves its context RESIDENT, to run its resume boundary first;
before that the command does nothing.
Completes: remoteAccessComplete, hbusPageTransfer, loadDone. -/
def Obligations.TransactionsAndLoads : Prop :=
  (∀ (s : State) (c : Fin 16) (n : Fin 32) (x : Xact) (rest : List Xact) (errs : Nat), s.inReset = false →
    (takeXact (fun t => t.core = n.val && t.chan = none) s.xacts = some (x, rest) → ∃ t, exec (.remoteAccessComplete n) s = .next t
        ∧ t.xacts = rest ∧ (x.tag = (s.ctx x.pan x.ctx).tag → t = { s with xacts := rest })
        ∧ (x.tag ≠ (s.ctx x.pan x.ctx).tag → t = { s with xacts := rest }.bump (.lateReply x.pan)))
    ∧ (takeXact (s.pageDueOn c.val) s.xacts = some (x, rest) →
        (x.tag ≠ (s.ctx x.pan x.ctx).tag → exec (.hbusPageTransfer c errs) s = .next ({ s with xacts := rest }.bump (.lateReply x.pan)))
      ∧ (x.tag = (s.ctx x.pan x.ctx).tag →
          (s.pageChans (x.chan.getD 0) = [] → exec (.hbusPageTransfer c errs) s
            = .next ({ s with xacts := rest }.pageArrives x (s.pageBytes (x.chan.getD 0) x.page) true))
        ∧ (∀ k r, s.pageChans (x.chan.getD 0) = k :: r →
            (errs < 2 → s.pageGood k x.page = true → exec (.hbusPageTransfer c errs) s
              = .next ({ s with xacts := rest }.pageArrives x (s.pageBytes k x.page) false))
          ∧ (2 ≤ errs ∨ s.pageGood k x.page = false →
              (∀ j, r = [j] → errs < 4 → s.pageGood j x.page = true → ∃ u : State, u.xacts = rest
                ∧ s.Sends { u with xacts := s.xacts, logs := s.logs }
                ∧ exec (.hbusPageTransfer c errs) s = .next (u.pageArrives x (s.pageBytes j x.page) false))
            ∧ ((∀ j ∈ r, 4 ≤ errs ∨ s.pageGood j x.page = false) → ∃ u : State, u.xacts = rest
                ∧ (u.chan (r.getLastD k)).crcErr = (s.chan (r.getLastD k)).crcErr.inc (2 ^ 16 - 1)
                ∧ s.Sends { u with xacts := s.xacts, hbus := s.hbus, logs := s.logs }
                ∧ exec (.hbusPageTransfer c errs) s = .next (u.pageArrives x (s.pageBytes k x.page) true))))))
    ∧ ∀ (bs : List Byte) (bad : Bool),
        (x.use = .operation → ((s.pageArrives x bs bad).core x.core).ops.map OutOp.id = (s.core x.core).ops.map OutOp.id
          ∧ ∀ o ∈ ((s.pageArrives x bs bad).core x.core).ops, o.id = x.op → ∀ r, o.res[x.res]? = some r → ∀ w ∈ r.writes,
              w.src = [(pageAddr (x.chan.getD 0) x.page, pageAddr (x.chan.getD 0) x.page + 4095)] →
              w.bytes = (bs.drop w.ofs).take w.bytes.length ∧ (bad = true → w.bad = true))
        ∧ (x.use = .load → s.pageArrives x bs false = s)
        ∧ (x.use = .load → (s.ctx x.pan x.ctx).st = .loading → ((s.pageArrives x bs true).ctx x.pan x.ctx).st = .loadFail
            ∧ (s.pageArrives x bs true).queues = s.queues ∧ (s.pageArrives x bs true).jobs = s.jobs ∧ (s.pageArrives x bs true).regs = s.regs
            ∧ (s.pageArrives x bs true).windows = s.windows ∧ (s.pageArrives x bs true).loops = s.loops))
  ∧ (∀ (s : State) (p : Fin 16) (c : Fin 8), s.inReset = false → (s.ctx p.val c.val).st = .loading →
    ((s.ctx p.val c.val).loadEnd ≤ s.nclk → s.xacts.any (s.loadDue p.val c.val) = false → ∃ t, exec (.loadDone p c) s = .next t
      ∧ (t.ctx p.val c.val).st = .resident ∧ (t.ctx p.val c.val).resume = true ∧ (t.ctx p.val c.val).ranks = (s.ctx p.val c.val).ranks
      ∧ t.queues = s.queues ∧ t.jobs = s.jobs ∧ t.regs = s.regs ∧ t.windows = s.windows ∧ t.loops = s.loops)
    ∧ (s.nclk < (s.ctx p.val c.val).loadEnd ∨ s.xacts.any (s.loadDue p.val c.val) = true → exec (.loadDone p c) s = .next s))

/-- R319 and R324: the tick that Tide64 is in runs once. An applied STEP that moves Tide sets TIME_STEP; a tick whose start it passes over is
neither run nor left in progress, and a step back leaves the tick last run as it was, so that none runs until Tide64 is past it. Nothing of
the engine moves where it does not run.
R319, R320, R322 and R346: when Tide64 reaches a slot's sample instant T_s, each group due there latches, once. A loop of its own group that is
enabled has an update due on its pair, with the hand-offs and host writes made at least 256 ns before; the others wait. The update stands
behind those of its instant and earlier and behind re-runs, and ahead of those of a later instant (R323).
Completes: loopTick, sampleLatch. -/
def Obligations.LoopTicksAndLatches : Prop :=
  (∀ s : State, (s.loopRuns = true → ((∀ l, s.loopEng.last = some l → l < s.tide64 / 15625) →
      exec .loopTick s = .next { s with loopEng := { s.loopEng with
        tick := some (s.tide64 / 15625), last := some (s.tide64 / 15625), latched := [] } })
    ∧ ((∃ l, s.loopEng.last = some l ∧ s.tide64 / 15625 ≤ l) → exec .loopTick s = .next s))
    ∧ (∀ src, s.WriteOk .tideCtrl 0x40000000 src → s.hostServo = true → s.tideVSigned.natAbs ≤ (s.rw .tideJumpLimit).toNat →
      s.tide.isSet = true → ∃ t, exec (.step src) s = .next t
        ∧ (s.loopRuns = false → t.loopEng = s.loopEng)
        ∧ (s.loopRuns = true → t.tide64 ≠ s.tide64 → t.loopEng.timeStep = true
          ∧ (t.tide64 / 15625 ≤ s.tide64 / 15625 → t.loopEng = { s.loopEng with timeStep := true })
          ∧ (s.tide64 / 15625 < t.tide64 / 15625 → t.loopEng.tick = none
            ∧ ∃ l, t.loopEng.last = some l ∧ t.tide64 / 15625 ≤ l ∧ ∀ k, s.loopEng.last = some k → k ≤ l))))
  ∧ (∀ (s : State) (slot : Fin 153) (k : Nat), s.loopRuns = true → s.loopEng.tick = some k →
    ((s.loopEng.latched.has slot.val = true ∨ s.tide64 < k * 15625 + 102 * slot.val) → exec (.sampleLatch slot) s = .next s)
    ∧ (s.loopEng.latched.has slot.val = false → k * 15625 + 102 * slot.val ≤ s.tide64 →
        (∃ t, exec (.sampleLatch slot) s = .next t ∧ t.loopEng.latched = s.loopEng.latched.ins slot.val
          ∧ t = { s with loopEng := t.loopEng, loops := t.loops, pairs := t.pairs })
      ∧ (∀ n w e, s.dueLeaders k slot.val = [n] → s.loopCfg n = some w → w.group = 1 → (s.loop n).en = some e →
          ((s.loop n).on = true ∨ e + 256 ≤ k * 15625 + 102 * slot.val) → (s.pair w.pipe).halted = false →
          ∃ t u a b, exec (.sampleLatch slot) s = .next t ∧ (s.pair w.pipe).due = a ++ b ∧ (t.pair w.pipe).due = a ++ u :: b
            ∧ (∀ v ∈ a, v.tries ≠ 0 ∨ v.ts ≤ u.ts) ∧ (∀ v c, b = v :: c → v.tries = 0 ∧ u.ts < v.ts) ∧ u.loop = n ∧ u.leader = n
            ∧ u.ts = k * 15625 + 102 * slot.val ∧ u.at' = s.nclk ∧ u.start = !(s.loop n).on
            ∧ u.hoffs = (s.loop n).hoff.filter (fun h => h.at' + 256 ≤ k * 15625 + 102 * slot.val)
            ∧ (t.loop n).on = true ∧ (∀ h ∈ (t.loop n).hoff, h ∈ (s.loop n).hoff ∧ h ∉ u.hoffs))))

/-- R323: the first update due on a pair issues at most every 56 cycles, and 16 cycles after its latch.
R351 and R352: 448 cycles after its issue a pair compares its oldest update. Where it agrees, or the pair runs unchecked, the update has run;
where it does not, nothing of it stands: the mismatch is counted, LOCKSTEP is set, and the update is issued again ahead of the others, then
after a known-answer test, beside any that waits for the test already, and then the pair halts.
R352: the known-answer test ends. Where exactly one pipeline passes, the pair runs on unchecked and the update first of all; where both
pass it runs a third time, each such update before the rest; where both fail the pair halts.
Completes: updateIssue, updateCompare, lockstepKatDone. -/
def Obligations.LoopUpdates : Prop :=
  (∀ (s : State) (p : Fin 4) (u : Update) (r : List Update), s.loopRuns = true → (s.pair p.val).due = u :: r → (s.pair p.val).kat = none →
    (s.pair p.val).halted = false →
    ((∀ a, (s.pair p.val).issuedAt = some a → a + 56 ≤ s.nclk) → u.at' + 16 ≤ s.nclk → ∃ t, exec (.updateIssue p) s = .next t
      ∧ t.pair p.val = { s.pair p.val with due := r, flight := (s.pair p.val).flight ++ [(u, s.nclk)], issuedAt := some s.nclk }
      ∧ (∀ q, q ≠ p.val → t.pair q = s.pair q) ∧ t = { s with pairs := t.pairs })
    ∧ ((s.nclk < u.at' + 16 ∨ ∃ a, (s.pair p.val).issuedAt = some a ∧ s.nclk < a + 56) → exec (.updateIssue p) s = .next s))
  ∧ (∀ (s : State) (p : Fin 4) (u : Update) (at' : Nat) (r : List (Update × Nat)), s.loopRuns = true → (s.pair p.val).flight = (u, at') :: r →
    (s.nclk < at' + 448 → ∀ agree, exec (.updateCompare p agree) s = .next s)
    ∧ (at' + 448 ≤ s.nclk →
        (∀ agree, (∃ w wl, s.loopCfg u.loop = some w ∧ s.loopCfg u.leader = some wl) → agree = true ∨ (s.pair p.val).simplex = true →
          ∃ t, exec (.updateCompare p agree) s = .next t
          ∧ (t.pair p.val).flight = r ∧ (t.loop u.loop).ran = some u.ts ∧ t.mem = s.mem ∧ t.regs = s.regs ∧ t.queues = s.queues
          ∧ t.jobs = s.jobs ∧ t.cores = s.cores)
      ∧ ((s.pair p.val).simplex = false → u.tries ≤ 1 → ∃ t, exec (.updateCompare p false) s = .next t
          ∧ t.pair p.val = (if u.tries = 0 then { s.pair p.val with flight := r, due := { u with tries := 1 } :: (s.pair p.val).due }
              else { s.pair p.val with flight := r, kat := some (match (s.pair p.val).kat with
                | none => ([{ u with tries := 2 }], s.nclk)
                | some (us, b) => (us ++ [{ u with tries := 2 }], b)) })
          ∧ t.loop u.loop = (if (s.loopCfg u.loop).isSome then
              { s.loop u.loop with status := putBit (s.loop u.loop).status 29 true } else s.loop u.loop)
          ∧ (∀ n, n ≠ u.loop → t.loop n = s.loop n) ∧ t.loopEng = s.loopEng ∧ s.Sends { t with pairs := s.pairs, loops := s.loops, logs := s.logs })
      ∧ ((s.pair p.val).simplex = false → 2 ≤ u.tries → ∃ t, exec (.updateCompare p false) s = .next t
          ∧ (t.pair p.val).halted = true ∧ (t.pair p.val).due = [] ∧ (t.pair p.val).flight = [] ∧ t.loopReady = false
          ∧ t.mem = s.mem ∧ t.regs = s.regs ∧ t.queues = s.queues ∧ t.jobs = s.jobs ∧ t.cores = s.cores)))
  ∧ (∀ (s : State) (p : Fin 4) (us : List Update) (at' : Nat) (a b : Bool), s.loopRuns = true → (s.pair p.val).kat = some (us, at') → at' + 448 ≤ s.nclk →
    ((a = true ∨ b = true) → ∃ t, exec (.lockstepKatDone p a b) s = .next t
      ∧ t.pair p.val = { s.pair p.val with kat := none, due := us ++ (s.pair p.val).due, simplex := (s.pair p.val).simplex || !(a && b) }
      ∧ ((a && b) = false → t.loopReady = false) ∧ ((a && b) = true → t.ready = s.ready)
      ∧ s.Sends { t with pairs := s.pairs, ready := s.ready, logs := s.logs })
    ∧ (a = false → b = false → ∃ t, exec (.lockstepKatDone p a b) s = .next t ∧ (t.pair p.val).halted = true ∧ (t.pair p.val).kat = none
      ∧ (t.pair p.val).due = [] ∧ t.loopReady = false ∧ t.mem = s.mem ∧ t.regs = s.regs ∧ t.queues = s.queues ∧ t.jobs = s.jobs))

/-- R329: a result of a stage is rounded once, to nearest with ties to even, and saturates; SAT says that it did, and UF that a value other
than zero became zero. R330: limiting a value. R341: the following error's counter.
R339 and R342: a group's winner is the member of the lowest u_f, the lowest index on equal values, and the strongest trip action in force
decides what the output is. -/
def Obligations.LoopArithmetic : Prop :=
  ((∀ (k : Nat) (unit x : Rat) (mx : Int), 0 < unit → 0 ≤ mx → k < 8 →
    let r := stageRound k unit mx x;
    -mx ≤ r.1 ∧ r.1 ≤ mx
    ∧ (|x / unit| ≤ mx → |(r.1 : Rat) - x / unit| ≤ 1 / 2)
    ∧ (|x / unit| + 1 / 2 < mx → |(r.1 : Rat) - x / unit| = 1 / 2 → r.1 % 2 = 0)
    ∧ (r.2.getLsbD (16 + k) = true ↔ r.1 = 0 ∧ x ≠ 0 ∧ r.2.getLsbD k = false)
    ∧ ((mx : Rat) + 1 / 2 < |x / unit| → r.2.getLsbD k = true ∧ (r.1 = mx ∨ r.1 = -mx)))
  ∧ (∀ (k : Nat) (x lo hi : Rat), k < 8 → (limitTo k x lo hi).1 = min hi (max lo x)
      ∧ ((limitTo k x lo hi).2.getLsbD k = true ↔ (limitTo k x lo hi).1 ≠ x))
  ∧ ∀ (w : LoopCfg) (l : LoopSt), l.feCnt ≤ w.feTime → (l.stage2 w).2.feCnt ≤ w.feTime
      ∧ (((l.stage2 w).1.natAbs : Int) ≤ w.feLimit → (l.stage2 w).2.feCnt = 0)
      ∧ (w.feLimit < ((l.stage2 w).1.natAbs : Int) → (l.stage2 w).2.feCnt = min (l.feCnt + 1) w.feTime
          ∧ (l.feCnt + 1 = w.feTime → l.status.getLsbD 31 = false → (l.stage2 w).2.flags.getLsbD 31 = true)))
  ∧ ((∀ (l : List Rat) (i : Nat) (x : Rat), l[i]? = some x → l.getD (lowest l) 0 ≤ x ∧ (x = l.getD (lowest l) 0 → lowest l ≤ i))
  ∧ ∀ (w : LoopCfg) (lead : LoopSt) (ufs : List Rat) (acts : List Nat),
      (groupOut w lead ufs acts).1.winner = lowest ufs
      ∧ (2 ∈ acts → (∀ a ∈ acts, a ≤ 2) → (groupOut w lead ufs acts).1.out = w.safeOut)
      ∧ (1 ∈ acts → (∀ a ∈ acts, a ≤ 1) → (groupOut w lead ufs acts).1.out = lead.out)
      ∧ ((∀ a ∈ acts, a = 0) → 0 < w.sig 7 → lead.outLo ≤ lead.outHi → -bxMax ≤ lead.outLo → lead.outHi ≤ bxMax →
          lead.outLo ≤ (groupOut w lead ufs acts).1.out ∧ (groupOut w lead ufs acts).1.out ≤ lead.outHi))

/-- R394: the oldest sample instant that every pair has finished is sent: its entries leave the engine, and a frame of them, by channel, waits at
the destination's port in its class with the apply time they share.
R356 to R358: a trace's oldest full page goes to the ring in HyperRAM where writes are not held, the ring has room and memory is present at the
ring's next place (R124); the ring's oldest page leaves the ring where the port is READY of the client that last wrote its trace's CTRL, to which it is
sent (if it does not read back poisoned, log entry 46).
Completes: setpointFrameSend, tracePageSpill, tracePageSend. -/
def Obligations.SetpointsAndTraces : Prop :=
  (∀ (s : State) (ts : Nat), s.loopRuns = true →
    ((s.loopEng.egress.filter (fun e => ([0, 1, 2, 3] : List Nat).all (fun p => !(s.pair p).busy e.ts))).map Setpoint.ts).min? = some ts →
    ∃ t, exec .setpointFrameSend s = .next t ∧ t.loopEng = { s.loopEng with egress := s.loopEng.egress.filter (fun e => e.ts ≠ ts) }
      ∧ t = { s with loopEng := t.loopEng, bports := t.bports }
      ∧ ∀ es d c a im, s.loopEng.egress.filter (fun e => ([0, 1, 2, 3] : List Nat).all (fun p => !(s.pair p).busy e.ts) && e.ts = ts) = es →
          (∀ e ∈ es, s.destOf e.ch = some d ∧ e.apply = a) → es.length ≤ 256 → s.sec.image = some im → SMap.get im.dests d = some c →
          ∃ f : TxFrame, t.Queued c.port f ∧ f.cls = c.pcp.toNat ∧ f.tag = some (c.pcp, c.vid)
            ∧ f.body = .setpoint d a (setpointBytes a (es.insertionSort (fun x y => x.ch ≤ y.ch))))
  ∧ (∀ (s : State) (n : Fin 16) (im : StructImage), s.loopRuns = true → s.sec.image = some im →
    (∀ bs recs loop r place, (s.trace n.val).pages = (bs, recs, loop) :: r →
        s.pageAt (im.traceBase + s.loopEng.ringNext % im.tracePages * 4096) = some place →
        ((s.power.held = true ∨ im.tracePages ≤ s.loopEng.ring.length) → exec (.tracePageSpill n) s = .next s)
      ∧ (s.power.held = false → s.loopEng.ring.length < im.tracePages → ∃ t, exec (.tracePageSpill n) s = .next t
          ∧ t.trace n.val = { s.trace n.val with pages := r }
          ∧ t.loopEng.ring = s.loopEng.ring ++ [{ trace := n.val, loop := loop, index := s.loopEng.ringNext % im.tracePages, recs := recs }]
          ∧ t.loopEng.ringNext < im.tracePages ∧ t.regs = s.regs ∧ t.loops = s.loops ∧ t.jobs = s.jobs ∧ t.queues = s.queues
          ∧ t.cores = s.cores))
    ∧ (∀ x r port client dest, s.loopEng.ring = x :: r → x.trace = n.val → (s.trace n.val).owner = some (port, client) →
        (s.hport port).clientAddr.get client.val = some dest → s.portReady port = true → ∃ t, exec (.tracePageSend n) s = .next t
          ∧ t.loopEng = { s.loopEng with ring := r } ∧ t.traces = s.traces ∧ t.regs = s.regs ∧ t.loops = s.loops ∧ t.jobs = s.jobs
          ∧ t.queues = s.queues ∧ t.cores = s.cores))

/-- R71, R81, R103, R105 to R108 and R111 to R117 on the vector unit and the DSU: each element operation whose descriptor the sequencer
fetches issues where its operands are right and nothing earlier stands in its way, and its results are those of the operation its name
says, element by element.
Completes: add, sub, mul, fma, max, min, abs, neg, idiv, irem, shl, shr, and, or, xor, twosum, twoprod, padd, pmul, div, sqrt, recip,
rsqrt, conv. -/
def Obligations.VectorOperationsIssue : Prop :=
  ∀ (s : State) (n : Fin 32) (d : Desc) (p c : Nat) (h : StepProg) (rm : RM), s.rmOf n.val d = some rm →
    ∀ k ∈ [ mapKind n.val d rm (.add n d) ⟨2, 0x00⟩ { ins := 2 } (fun _ _ => fn2 (addV rm)),
            mapKind n.val d rm (.sub n d) ⟨2, 0x01⟩ { ins := 2 } (fun _ _ => fn2 (fun a b => addV rm a (if b.isNan then b else b.negate))),
            mapKind n.val d rm (.mul n d) ⟨2, 0x02⟩ { ins := 2 } (fun _ _ => fn2 mulV),
            mapKind n.val d rm (.fma n d) ⟨2, 0x03⟩ { ins := 3 } (fun _ _ vs => [fmaV rm (v0 vs 0) (v0 vs 1) (v0 vs 2)]),
            mapKind n.val d rm (.max n d) ⟨2, 0x04⟩ { ins := 2 } (fun _ _ => fn2 (maxMinV true)),
            mapKind n.val d rm (.min n d) ⟨2, 0x05⟩ { ins := 2 } (fun _ _ => fn2 (maxMinV false)),
            mapKind n.val d rm (.abs n d) ⟨2, 0x06⟩ { ins := 1 } (fun _ _ vs => [((v0 vs 0).absv, {})]),
            mapKind n.val d rm (.neg n d) ⟨2, 0x07⟩ { ins := 1 } (fun _ _ vs => [((v0 vs 0).negate, {})]),
            bitKind n.val d rm (.idiv n d) 0x08 false (idivFn false), bitKind n.val d rm (.irem n d) 0x09 false (idivFn true),
            bitKind n.val d rm (.shl n d) 0x0A true (shiftFn true), bitKind n.val d rm (.shr n d) 0x0B true (shiftFn false),
            bitKind n.val d rm (.and n d) 0x0C true (logicFn (· &&& ·)), bitKind n.val d rm (.or n d) 0x0D true (logicFn (· ||| ·)),
            bitKind n.val d rm (.xor n d) 0x0E true (logicFn (· ^^^ ·)),
            mapKind n.val d rm (.twosum n d) ⟨2, 0x10⟩ { ins := 2, gOut := 2, fmtOk := pairFmt }
              (fun a _ vs => pairEls (twoSum a.fmt (v0 vs 0) (v0 vs 1))),
            mapKind n.val d rm (.twoprod n d) ⟨2, 0x11⟩ { ins := 2, gOut := 2, fmtOk := pairFmt }
              (fun a _ vs => pairEls (twoProd a.fmt (v0 vs 0) (v0 vs 1))),
            mapKind n.val d rm (.padd n d) ⟨2, 0x12⟩ { ins := 2, gIn := 2, gOut := 2, fmtOk := fp64Only }
              (fun _ _ vs => pairEls (pAdd (v0 vs 0) (v1 vs 0) (v0 vs 1) (v1 vs 1))),
            mapKind n.val d rm (.pmul n d) ⟨2, 0x13⟩ { ins := 2, gIn := 2, gOut := 2, fmtOk := fp64Only }
              (fun _ _ vs => pairEls (pMul (v0 vs 0) (v1 vs 0) (v0 vs 1) (v1 vs 1))),
            mapKind n.val d rm (.div n d) ⟨6, 0⟩ { ins := 2, fmtOk := Fmt.dsu } (fun _ o => dsuFn .div rm o),
            mapKind n.val d rm (.sqrt n d) ⟨6, 1⟩ { ins := 1, fmtOk := Fmt.dsu } (fun _ o => dsuFn .sqrt rm o),
            mapKind n.val d rm (.recip n d) ⟨6, 2⟩ { ins := 1, fmtOk := Fmt.dsu } (fun _ o => dsuFn .recip rm o),
            mapKind n.val d rm (.rsqrt n d) ⟨6, 3⟩ { ins := 1, fmtOk := Fmt.dsu } (fun _ o => dsuFn .rsqrt rm o),
            mapKind n.val d rm (.conv n d) ⟨8, 0⟩ { ins := 1, fmtOk := fun _ => true } (fun _ _ vs => [(v0 vs 0, {})]) ],
      ∀ v st os, s.MayIssue n.val p c h d k v st os → ∃ t u op, exec k.cmd s = .next t ∧ s.Issued n.val p c d k v st os t u op

/-- R83, R188 to R190, R219 to R224 and R237 to R250 within one core: TEST, SETSTATE, REDUCE, GEMM, FACTOR, TRSOLVE and CERT issue as
operations with their results for each target. CERT takes the flags of what came before it, so that is complete first.
Completes: test, setstate, reduceSum, reduceMax, reduceMin, normInf, sumsq, gemm, ldltDense, ldltStaged, trsolveForward, trsolveDiag,
trsolveBackward, trsolveFull, certOptimality, certPrimalInfeasibility, certDualInfeasibility, certEkf. -/
def Obligations.OtherOperationsIssue : Prop :=
  ∀ (s : State) (n : Fin 32) (d : Desc) (p c : Nat) (h : StepProg) (rm : RM) (axis cin ta tb : Bool),
    (s.rmOf n.val d = some rm → ∀ k ∈ [
        OpKind.mk (.test n d) { code := ⟨2, 0x18⟩ } (fun _ => testOpnds d) (fun s t => s.testRun n.val d t),
        OpKind.mk (.setstate n d) { code := ⟨2, 0x19⟩ } (fun _ _ => if d.m = 0 ∨ d.n = 0 then .error .descriptor else .ok ([], []))
          (fun _ _ => { set := usrMask (fieldOf d.imm 3 0), clr := usrMask (fieldOf d.imm 7 4) }),
        OpKind.mk (.reduceSum n d axis false) { code := ⟨3, 0 + 8 * bitN axis⟩ } (fun _ => reduceOpnds d axis)
          (fun s t => s.reduceRun n.val d rm 0 axis t),
        OpKind.mk (.reduceMax n d axis false) { code := ⟨3, 1 + 8 * bitN axis⟩ } (fun _ => reduceOpnds d axis)
          (fun s t => s.reduceRun n.val d rm 1 axis t),
        OpKind.mk (.reduceMin n d axis false) { code := ⟨3, 2 + 8 * bitN axis⟩ } (fun _ => reduceOpnds d axis)
          (fun s t => s.reduceRun n.val d rm 2 axis t),
        OpKind.mk (.normInf n d axis false) { code := ⟨3, 3 + 8 * bitN axis⟩ } (fun _ => reduceOpnds d axis)
          (fun s t => s.reduceRun n.val d rm 3 axis t),
        OpKind.mk (.sumsq n d axis false) { code := ⟨3, 4 + 8 * bitN axis⟩ } (fun _ => reduceOpnds d axis)
          (fun s t => s.reduceRun n.val d rm 4 axis t),
        OpKind.mk (.ldltDense n d) { code := ⟨4, 0⟩, narrow := false } (fun _ => factorOpnds d) (fun s t => s.ldltRun n.val d rm t),
        OpKind.mk (.ldltStaged n d) { code := ⟨4, 1⟩, narrow := false, useK := true } (fun _ => stagedOpnds d)
          (fun s t => s.stagedRun n.val d rm t),
        OpKind.mk (.trsolveForward n d) { code := ⟨5, 0⟩, narrow := false, useK := true } (fun _ => trsolveOpnds d)
          (fun s t => s.trsolveRun n.val d rm 0 t),
        OpKind.mk (.trsolveDiag n d) { code := ⟨5, 1⟩, narrow := false, useK := true } (fun _ => trsolveOpnds d)
          (fun s t => s.trsolveRun n.val d rm 1 t),
        OpKind.mk (.trsolveBackward n d) { code := ⟨5, 2⟩, narrow := false, useK := true } (fun _ => trsolveOpnds d)
          (fun s t => s.trsolveRun n.val d rm 2 t),
        OpKind.mk (.trsolveFull n d) { code := ⟨5, 3⟩, narrow := false, useK := true } (fun _ => trsolveOpnds d)
          (fun s t => s.trsolveRun n.val d rm 3 t) ],
      ∀ v st os, s.MayIssue n.val p c h d k v st os → ∃ t u op, exec k.cmd s = .next t ∧ s.Issued n.val p c d k v st os t u op)
    ∧ (∀ k : OpKind, k = OpKind.mk (.gemm n d cin ta tb false) { code := gemmCode cin ta tb false, narrow := false, dp := true, useK := true }
          (fun _ => gemmOpnds d cin ta tb) (fun s t => s.gemmRun n.val d cin ta tb t) →
        ∀ v st os, s.MayIssue n.val p c h d k v st os → ∃ t u op, exec k.cmd s = .next t ∧ s.Issued n.val p c d k v st os t u op)
    ∧ ∀ cls : BitVec 2,
        ∀ x ∈ [(Instr.certOptimality n d cls, 0, cls.toNat), (Instr.certPrimalInfeasibility n d cls, 1, cls.toNat),
               (Instr.certDualInfeasibility n d cls, 2, cls.toNat), (Instr.certEkf n d, 0, 3)],
        d.imm.toNat = x.2.1 → ∀ k : OpKind,
        k = { cmd := x.1, form := { code := ⟨7, x.2.2⟩, alone := true }, run := fun s t => s.certRun n.val d x.2.1 x.2.2 t,
              opnds := fun s t => if s.certOk n.val d x.2.2 t then certOpnds d t else .error .descriptor } →
        ∀ v st os, s.MayIssue n.val p c h d k v st os → ∃ t u op, exec k.cmd s = .next t ∧ s.Issued n.val p c d k v st os t u op

/-- R107, R108, R106, R188 and R189 on elements: division that truncates and its two cases, the maximum and minimum with NaN and signed zero, the
relations of TEST, shifts, and USR bits of SETSTATE, where setting wins. -/
def Obligations.ElementResults : Prop :=
  (∀ (w : Nat) (a b : Int), 0 < w → -(2 ^ (w - 1)) ≤ a → a < 2 ^ (w - 1) →
      (b ≠ 0 → ¬(a = -(2 ^ (w - 1)) ∧ b = -1) →
        a = b * (idivS w a b).1 + (idivS w a b).2.1 ∧ (idivS w a b).2.1.natAbs < b.natAbs ∧ (idivS w a b).2.2 = {}
          ∧ (0 ≤ a → 0 ≤ (idivS w a b).2.1) ∧ (a ≤ 0 → (idivS w a b).2.1 ≤ 0))
      ∧ (b = 0 → (idivS w a b).1 = (if 0 ≤ a then 2 ^ (w - 1) - 1 else -(2 ^ (w - 1))) ∧ (idivS w a b).2.1 = a ∧ (idivS w a b).2.2 = { dz := true })
      ∧ (a = -(2 ^ (w - 1)) → b = -1 → (idivS w a b) = (a, 0, { ovf := true })))
  ∧ (∀ (m : Bool) (a b : Val),
      (a.isNan = true → b.isNan = false → (maxMinV m a b).1 = b) ∧ (a.isNan = false → b.isNan = true → (maxMinV m a b).1 = a)
      ∧ (a.isNan = true → b.isNan = true → (maxMinV m a b).1.isNan = true ∧ (maxMinV m a b).1.isSNan = false)
      ∧ ((maxMinV m a b).2 = { nv := a.isSNan || b.isSNan })
      ∧ (a.isNan = false → b.isNan = false → ((maxMinV m a b).1 = a ∨ (maxMinV m a b).1 = b)
          ∧ (ltV a b = true → (maxMinV m a b).1 = if m then b else a) ∧ (ltV b a = true → (maxMinV m a b).1 = if m then a else b)
          ∧ (a.isZero = true → b.isZero = true → a.neg = true → b.neg = false → (maxMinV m a b).1 = if m then b else a)
          ∧ (a.isZero = true → b.isZero = true → a.neg = false → b.neg = true → (maxMinV m a b).1 = if m then a else b)))
  ∧ (∀ (k : Nat) (a b : Val), (a.isNan = true ∨ b.isNan = true) → relV k a b = decide (k = 3))
  ∧ (∀ a b : Val, a.isNan = false → b.isNan = false →
      relV 0 a b = ltV a b ∧ relV 5 a b = ltV b a ∧ relV 3 a b = !(relV 2 a b) ∧ relV 1 a b = !(relV 5 a b) ∧ relV 4 a b = !(relV 0 a b)
      ∧ (relV 2 a b = true ↔ ltV a b = false ∧ ltV b a = false))
  ∧ (∀ w x c : Nat, 0 < w → x < 2 ^ w → unsgn w (sgn w x * 2 ^ c) = x * 2 ^ c % 2 ^ w ∧ sgn w (unsgn w (sgn w x / 2 ^ c)) = sgn w x / 2 ^ c)
  ∧ ∀ (imm : Word) (t : BitVec 16) (i : Nat), i < 16 →
      (t &&& ~~~usrMask (fieldOf imm 7 4) ||| usrMask (fieldOf imm 3 0)).getLsbD i
        = if i < 12 then t.getLsbD i else imm.getLsbD (i - 12) || (t.getLsbD i && !imm.getLsbD (i - 8))

/-- R159, R166, R168, R178, R179, R185 and R186: a COPY, FILL, PAGE_LOAD or PAGE_STORE whose operands are right and that no hazard holds issues. The
targets whose destination is a scratchpad have the rows it moves as their results; those whose destination is region memory or HyperRAM are
recorded for the commit, and their results write nothing. Its status record, reads and writes hold back what meets them. A PAGE_LOAD has
one transaction per page and target on its channel.
R143 to R147 and R186: a full/empty access takes its lines one after another, up to the first that is not in the state it waits for: a line
that none of the rows it has taken names keeps its state, and where it has taken one row alone, that row's line is left in the other state. Where every line
was granted the operation is outstanding. In open mode a core whose next line is in the wrong state waits with what is to come; in strict
mode its step faults, as it does where SLOT_WAIT is 0. Targets whose destination is region memory are recorded for the commit. What other
cores wait for is then tried again (`feRetry`).
Completes: copy, fill, pageLoad, pageStore, feRead, feWrite. -/
def Obligations.Moves : Prop :=
  (∀ (s v : State) (n : Fin 32) (d : Desc) (p c : Nat) (h : StepProg) (st : Option Nat) (ts now late : List (Option Nat))
    (os : List (List Opnd × List Opnd)),
    ∀ x ∈ [(Instr.copy n d, 0), (Instr.fill n d, 1), (Instr.pageLoad n d, 4), (Instr.pageStore n d, 5)],
      s.AtDesc n.val p c h ⟨0, x.2⟩ d → descPlain d false false = true → v = s.counted n.val → v.statusAt n.val h d = .ok st →
      v.moveTargets n.val p c x.2 d = .ok ts → late = ts.filter (deferredFor d) → now = ts.filter (fun t => !deferredFor d t) →
      os = now.map (moveSides x.2 d) → (v.core n.val).moves.length + late.length ≤ 16 →
      (v.core n.val).Clear d false (v.spansAll n.val (os.map Prod.fst)) (statusSpan st ++ v.spansAll n.val (os.map Prod.snd)) →
      (v.touched n.val p c d (os.map Prod.fst) (moveSides x.2 d none).1).layerDue n.val = false →
      ts = v.runsFor n.val p c d
      ∧ ∃ t u w y op, exec x.1 s = .next t
          ∧ u = (v.touched n.val p c d (os.map Prod.fst) (moveSides x.2 d none).1).readAll n.val op
          ∧ w = u.onCore n.val (fun k => { k with moves := k.moves ++ late.map (fun t =>
              { rank := (s.core n.val).rank, slot := t, kind := x.2, desc := d, index := (s.core n.val).next }) })
          ∧ w.Pushed n.val p c op y ∧ op.rank = (s.core n.val).rank ∧ op.desc = (s.core n.val).next ∧ op.status = st
          ∧ op.run = ts.length ∧ op.narrow = false ∧ op.slotwise = d.slotwise
          ∧ op.reads = v.spansAll n.val (os.map Prod.fst) ∧ op.writes = statusSpan st ++ v.spansAll n.val (os.map Prod.snd)
          ∧ op.pieces = os.flatMap (fun o => (o.1.filter Opnd.lined).flatMap (v.piecesOf n.val))
          ∧ op.far = v.farLines n.val ((os.flatMap (fun o => o.1 ++ o.2)).filter Opnd.lined)
          ∧ op.res = u.runTargets n.val { op with res := [] } (u.fetchDesc n.val (s.core n.val).next).2
              (fun s t => s.moveRun n.val x.2 d t) (now.map (fun t => (t, [])))
            ++ late.map (fun t => { slot := t, bad := (u.fetchDesc n.val (s.core n.val).next).2 })
          ∧ t = (if x.2 = 4 then ((List.range now.length).zip now).foldl (fun y t =>
              y.addPages n.val p c (s.core n.val).opId t.1 (slotAddr d d.addrA d.relA t.2) d.m.toNat) y else y)
          ∧ (x.2 = 4 → (t.xacts.filter (fun y => y.chan.isSome)).length
              = (w.xacts.filter (fun y => y.chan.isSome)).length + now.length * d.m.toNat))
  ∧ ((∀ (s u : State) (n : Nat) (w : Bool) (items rest : List (Option Nat × Nat × Nat)) (bad b : List (Option Nat)),
      s.feRows n w items bad = (u, rest, b) →
        ∃ done, items = done ++ rest ∧ (∀ x ∈ rest.head?, u.isFull (if w then x.2.2 else x.2.1) = w)
          ∧ (∀ l, (∀ x ∈ done, (if w then x.2.2 else x.2.1) / 64 ≠ l) → u.full.has l = s.full.has l)
          ∧ (∀ x, done = [x] → u.isFull (if w then x.2.2 else x.2.1) = w))
  ∧ ∀ (s v y : State) (n : Fin 32) (w : Bool) (d : Desc) (p c : Nat) (h : StepProg) (st : Option Nat) (cmd : Instr)
      (ts now late : List (Option Nat)),
    (w = true ∧ cmd = .feWrite n d ∨ w = false ∧ cmd = .feRead n d) → s.AtDesc n.val p c h ⟨0, if w then 3 else 2⟩ d →
    descPlain d false false = true → feFields w d = true → v = s.counted n.val → v.statusAt n.val h d = .ok st → (s.core n.val).ops = [] →
    ts = v.runsFor n.val p c d → late = ts.filter (deferredFor d) → now = ts.filter (fun t => !deferredFor d t) →
    (∀ t ∈ ts, v.checkOpnd n.val (moveOpnds d false t).1 = .ok () ∧ v.checkOpnd n.val (moveOpnds d false t).2 = .ok ()) →
    (v.core n.val).moves.length + late.length ≤ 16 →
    y = v.onCore n.val (fun k => { k with moves := k.moves ++ late.map (fun t =>
      { rank := (s.core n.val).rank, slot := t, kind := if w then 3 else 2, desc := d, index := (s.core n.val).next }) }) →
    ∀ u rest bad, y.feRows n.val w (y.feItems n.val d now) [] = (u, rest, bad) →
      ∃ op : OutOp, op.rank = (s.core n.val).rank ∧ op.desc = (s.core n.val).next ∧ op.status = st ∧ op.writes = statusSpan st
        ∧ op.run = ts.length ∧ op.slotwise = d.slotwise
        ∧ (rest = [] → ∃ t, exec cmd s = .next t.feRetry
            ∧ (u.onCore n.val (fun k => { k with wait := none })).Pushed n.val p c (feOp op bad) t)
        ∧ (rest ≠ [] → s.strict = false → 0 < s.slotWait n.val → exec cmd s = .next
            (((u.onCore n.val (fun k => { k with wait := some (.fullEmpty w rest bad op, s.nclk) })).passTurn n.val).passEnd n.val).feRetry)
        ∧ (rest ≠ [] → s.strict = true ∨ s.slotWait n.val = 0 → exec cmd s = .next
            (((u.onCore n.val (fun k => { k with wait := some (.fullEmpty w rest bad op, s.nclk) })).fault n.val
              (if s.strict then .schedule else .slotTimeout) (s.core n.val).next).passEnd n.val).feRetry))

/-- R122, R133, R159, R177, R184, R195, R198, R203 and R205: each sequencer operation takes effect once everything earlier is complete. BARRIER
and the branches with PAN wait, and write their record when they go on. FENCE writes the record it asks for and does no more. COMMIT sets
COMMIT_REQ of the slots selected, which a poisoned descriptor bars. JUMP and a branch taken go on at their target. FBAR delivers the traps, and where
none of them ends the step it flushes the buffers and writes its record. END ends the step of its core, where no trap is left, one rank runs
there and no core of the context waits at a barrier; with the last core the pan's step ends in open mode. A core that has passed its
last descriptor ends its step.
Completes: barrier, fence, commit, stepEnd, jump, ifAny, ifAll, ifNone, fbar. -/
def Obligations.SequencerOperations : Prop :=
  ∀ (s v w : State) (n : Fin 32) (d : Desc) (p c : Nat) (h : StepProg) (k : OpCode) (rc : Option (Nat × Nat × Bool)),
    s.Sequenced n.val p c h k d v rc → w = v.putRecord n.val rc →
    ((s.core n.val).ops = [] → v = s.counted n.val) ∧ (d.stw = false → rc = none ∧ w = v)
    ∧ (∀ u : State, u.header n.val = some h → (u.core n.val).next < h.descCount → u.passEnd n.val = u)
    ∧ (∀ u : State, u.header n.val = some h → (u.core n.val).stepping = true → (u.core n.val).wait = none → (u.core n.val).ops = [] →
        h.descCount ≤ (u.core n.val).next → u.passEnd n.val = u.endCore n.val)
    ∧ (∀ (u : State) (y : Wait × Nat), (u.core n.val).turns = [] → (u.core n.val).stepping = true → (u.core n.val).wait = some y →
        (u.passTurn n.val).passEnd n.val = u)
    ∧ (k = ⟨9, 0⟩ → d.imm.toNat < 16 → exec (.barrier n d) s = .next (((v.onCore n.val (fun k =>
        { k with wait := some (.barrier d.imm.toNat, s.nclk), waitRec := rc })).passTurn n.val).passEnd n.val))
    ∧ (k = ⟨9, 1⟩ → exec (.fence n d) s = .next (w.passEnd n.val))
    ∧ (k = ⟨0xC, 0⟩ → ∀ u, u = v.deliverTraps n.val → ((v.core n.val).traps = [] → u = v)
        ∧ ((u.core n.val).stepping = false → exec (.fbar n d) s = .next (u.passEnd n.val))
        ∧ ((u.core n.val).stepping = true → exec (.fbar n d) s = .next (((u.flushCore n.val).putRecord n.val rc).passEnd n.val)))
    ∧ (k = ⟨0xA, 0⟩ → ∀ sel bad, sel = v.selectedSlots p c (s.core n.val).rank (if d.slotwise then d.predMask else 0)
          (if d.slotwise then d.predVal else 0) → bad = (v.fetchDesc n.val (s.core n.val).next).2 →
        ∃ t : State, exec (.commit n d) s = .next (t.passEnd n.val) ∧ (d.stw = false → (t.core n.val).buf = [])
          ∧ (∀ j ∈ sel, t.slot p c (s.core n.val).rank j = { v.slot p c (s.core n.val).rank j with
              state := (v.slot p c (s.core n.val).rank j).state ||| (if bad then 0x0300 else 0x0200),
              flags := (v.slot p c (s.core n.val).rank j).flags ||| (if bad then 0x4000 else 0) })
          ∧ (∀ j, j < 256 → j ∉ sel → t.slot p c (s.core n.val).rank j = v.slot p c (s.core n.val).rank j)
          ∧ t.regs = v.regs ∧ t.jobs = v.jobs ∧ t.queues = v.queues)
    ∧ ∀ x ∈ [(0, (fun b => Instr.stepEnd n ⟨d, b⟩)), (1, (fun b => Instr.jump n ⟨d, b⟩)), (2, (fun b => Instr.ifAny n d b)),
             (3, (fun b => Instr.ifAll n d b)), (4, (fun b => Instr.ifNone n d b))],
        (x.1 = 0 ∨ d.imm.toNat % 65536 < h.descCount) →
        (k = branchCode x.1 true → exec (x.2 true) s = .next (((v.onCore n.val (fun k =>
          { k with wait := some (.branch x.1 (d.imm.toNat % 65536) d.predMask d.predVal, s.nclk), waitRec := rc })).passTurn n.val).passEnd n.val))
        ∧ (k = branchCode x.1 false →
          (0 < x.1 → (x.1 = 1 ∨ v.branchTakes p c [(s.core n.val).rank] x.1 d.predMask d.predVal = true) →
            ∃ t, exec (x.2 false) s = .next t ∧ t = { w with cores := t.cores }
              ∧ t.core n.val = { w.core n.val with next := d.imm.toNat % 65536 } ∧ (∀ j, j ≠ n.val → t.core j = w.core j))
          ∧ (1 < x.1 → v.branchTakes p c [(s.core n.val).rank] x.1 d.predMask d.predVal = false →
              exec (x.2 false) s = .next (w.passEnd n.val))
          ∧ (x.1 = 0 → exec (x.2 false) s = .next ((w.endCore n.val).passEnd n.val)
            ∧ ((w.core n.val).traps = [] → (w.core n.val).turns = [] →
              (∀ j ∈ (v.ctx p c).ranks, (v.core j).stepping = true → j ≠ n.val → (v.core j).atBarrier = false) →
              ∃ t, t = (w.endCore n.val).passEnd n.val ∧ (t.core n.val).stepping = false
              ∧ ((∀ j ∈ (v.ctx p c).ranks, j ≠ n.val → (v.core j).stepping = false) → s.strict = false → (v.ctx p c).live = true →
                  (t.ctx p c).live = false ∧ (t.ctx p c).boundary = true ∧ (t.ctx p c).killed = none ∧ (t.ctx p c).te = s.tide64))))

/-- R94, R159, R185, R190, R195 and R203: REDUCE with PAN and GEMM with PANK, once everything earlier is complete, wait for every core of the
context. The release, where every rank waits, lets all of them go on with their records written; where each rank has a core of its own, past
a BARRIER with no more, past a branch in the one direction that the LIVE slots of the pan give, out of the step at an END, and past a
REDUCE or GEMM with the results combined over the ranks (`reduceShare`, `gemmShare`), a GEMM's written on rank 0 only.
Completes: barrierRelease. -/
def Obligations.PanBarriers : Prop :=
  (∀ (s v : State) (n : Fin 32) (d : Desc) (p c : Nat) (h : StepProg) (os : List (List Opnd × List Opnd)), (s.core n.val).ops = [] →
    v = s.counted n.val → (∃ st, v.statusAt n.val h d = .ok st) →
    (∀ axis, descPlain d false false = true → (s.rmOf n.val d).isSome = true →
      v.checkTargets n.val (v.runsFor n.val p c d) (reduceOpnds d axis) = .ok os →
      ∀ x ∈ [(0, Instr.reduceSum n d axis true), (1, Instr.reduceMax n d axis true), (2, Instr.reduceMin n d axis true),
             (3, Instr.normInf n d axis true), (4, Instr.sumsq n d axis true)],
        s.AtDesc n.val p c h ⟨3, x.1 + 8 * bitN axis + 16⟩ d →
        ∀ u, u = v.touched n.val p c d (os.map Prod.fst) (baseOpnds (reduceOpnds d axis none)) → u.layerDue n.val = false →
        exec x.2 s = .next (((u.onCore n.val (fun k =>
          { k with wait := some (.reduce d x.1 axis (s.core n.val).next, s.nclk), waitRec := none })).passTurn n.val).passEnd n.val))
    ∧ (∀ cin ta tb, descPlain d true true = true → v.checkTargets n.val (v.runsFor n.val p c d) (gemmOpnds d cin ta tb) = .ok os →
        s.AtDesc n.val p c h (gemmCode cin ta tb true) d →
        ∀ u, u = v.touched n.val p c d (os.map Prod.fst) (baseOpnds (gemmOpnds d cin ta tb none)) → u.layerDue n.val = false →
        exec (.gemm n d cin ta tb true) s = .next (((u.onCore n.val (fun k =>
          { k with wait := some (.gemm d cin ta tb (s.core n.val).next, s.nclk), waitRec := none })).passTurn n.val).passEnd n.val)))
  ∧ (∀ (s u : State) (p : Fin 16) (c : Fin 8) (x : Nat × Nat × Wait) (rw : List (Nat × Nat × Wait)), s.inReset = false →
    (s.ctx p.val c.val).live = true → s.gathered (s.ctx p.val c.val).ranks = some (x :: rw) →
    u = (x :: rw).foldl (fun s y => (s.turnTo y.1 y.2.1).resume y.1) s →
    (∀ b, x.2.2 = .barrier b → (∀ y ∈ rw, y.2.2 = .barrier b) →
      exec (.barrierRelease p c) s = .next ((x :: rw).foldl (fun s y => (s.turnTo y.1 y.2.1).passEnd y.1) u))
    ∧ ((∃ y ∈ rw, Wait.same x.2.2 y.2.2 = false) → exec (.barrierRelease p c) s = .next s))
  ∧ ∀ (s u : State) (p : Fin 16) (c : Fin 8) (rs : List Nat), s.inReset = false → (s.ctx p.val c.val).live = true →
    rs = (s.ctx p.val c.val).ranks → rs.Nodup → rs ≠ [] → u = rs.foldl (fun s k => s.resume k) s →
    (∀ k ∈ rs, (s.core k).stepping = true ∧ (s.core k).ops = [] ∧ (s.core k).turns = [] ∧ (s.core k).run = some (p.val, c.val)
      ∧ ∃ h, s.header k = some h ∧ (s.core k).next < h.descCount) →
    ((∀ k ∈ rs, (s.core k).waitRec = none) → u = { s with cores := u.cores }
      ∧ (∀ k ∈ rs, u.core k = { s.core k with wait := none, waitRec := none }) ∧ (∀ k, k ∉ rs → u.core k = s.core k))
    ∧ (∀ b, (∀ k ∈ rs, ∃ at', (s.core k).wait = some (.barrier b, at')) → exec (.barrierRelease p c) s = .next u)
    ∧ (∀ kind target m v, (∀ k ∈ rs, ∃ at', (s.core k).wait = some (.branch kind target m v, at')) →
      (0 < kind → (∀ k ∈ rs, ∀ h, s.header k = some h → target < h.descCount) →
        ∃ t, exec (.barrierRelease p c) s = .next t ∧ t = { u with cores := t.cores } ∧ (∀ k, k ∉ rs → t.core k = u.core k)
          ∧ ∀ k ∈ rs, t.core k = { u.core k with
              next := if s.branchTakes p.val c.val (List.range rs.length) kind m v then target else (s.core k).next })
      ∧ (kind = 0 → (∀ k ∈ rs, (s.core k).traps = []) → ∃ t, exec (.barrierRelease p c) s = .next t
          ∧ (∀ k ∈ rs, (t.core k).stepping = false ∧ (t.core k).wait = none)
          ∧ (s.strict = false → (t.ctx p.val c.val).live = false ∧ (t.ctx p.val c.val).boundary = true ∧ (t.ctx p.val c.val).killed = none)))
    ∧ (∀ d sub axis i rw v, (∀ k ∈ rs, ∃ at', (s.core k).wait = some (.reduce d sub axis i, at')) →
        rw = (rankCores rs).map (fun x => (x.1, x.2, Wait.reduce d sub axis i)) → v = rw.foldl (fun s x => s.readPart x.1 x.2.2) u →
        ∃ t, exec (.barrierRelease p c) s = .next t
          ∧ ∀ k ∈ rs, (t.core k).wait = none ∧ ∃ op, (t.core k).ops = [op] ∧ op.desc = i
            ∧ op.res.map (fun r => (r.slot, r.writes)) = (v.coreTargets k d).map (fun x =>
                let r := v.reduceShare rw k d sub axis x
                (r.slot, r.writes)))
    ∧ (∀ d cin ta tb i rw v, (∀ k ∈ rs, ∃ at', (s.core k).wait = some (.gemm d cin ta tb i, at')) →
        rw = (rankCores rs).map (fun x => (x.1, x.2, Wait.gemm d cin ta tb i)) → v = rw.foldl (fun s x => s.readPart x.1 x.2.2) u →
        ∃ t, exec (.barrierRelease p c) s = .next t
          ∧ ∀ k ∈ rs, (t.core k).wait = none ∧ ∃ op, (t.core k).ops = [op] ∧ op.desc = i
            ∧ (rs.head? ≠ some k → ∀ r ∈ op.res, r.writes = [])
            ∧ (rs.head? = some k → op.res.map (fun r => (r.slot, r.writes)) = (v.coreTargets k d).map (fun x =>
                let r := v.gemmShare rw k d cin ta tb x
                (r.slot, r.writes))))
    ∧ ((∃ k ∈ rs, (s.core k).wait = none) → exec (.barrierRelease p c) s = .next s)

/-- R103, R176, R178, R180 to R183 and R207: a descriptor past MAX_ISSUE, one of a reserved CLASS or SUBOP, or with a field that must be 0 and is not,
ends its step with that fault once what is outstanding is complete; another operation than the one fetched does nothing. R200, R201, R207, R208 and R418: a kill stops every core of the
context, records the first fault, takes a new tag generation, and restores the slots' state and flag words; a descriptor, address, trap or
overrun fault halts the context, but one that R515 excuses, during a remap, counts toward nothing.
R120, R145, R147, R206 and R207: a core that waits too long at a barrier or on a full/empty line, with any of its ranks, faults its step; before
the time has passed nothing happens. An enabled trap is recorded and faults its step; while TRAP_INFO.VALID is set it does neither.
Completes: barrierTimeout, slotTimeout, trapDelivery. -/
def Obligations.FaultsAndWaits : Prop :=
  ((∀ (s u : State) (n : Fin 32) (d e : Desc) (p c : Nat) (h : StepProg) (f : OpCode) (g : StepFault → State),
    s.issuing n.val = some (p, c, (s.core n.val).rank, h) → (s.fetchDesc n.val (s.core n.val).next).1 = (f, e) → u = s.drain n.val →
    (∀ x, g x = if (u.core n.val).ops = [] then u.fault n.val x (s.core n.val).next else u) →
    ∀ k ∈ [(Instr.add n d, (⟨2, 0⟩ : OpCode)), (.copy n d, ⟨0, 0⟩), (.gemm n d false false false false, ⟨1, 0⟩), (.test n d, ⟨2, 0x18⟩),
        (.ldltDense n d, ⟨4, 0⟩), (.trsolveFull n d, ⟨5, 3⟩), (.div n d, ⟨6, 0⟩), (.conv n d, ⟨8, 0⟩), (.barrier n d, ⟨9, 0⟩),
        (.commit n d, ⟨0xA, 0⟩), (.jump n ⟨d, false⟩, ⟨0xB, 1⟩), (.fbar n d, ⟨0xC, 0⟩)],
      (h.maxIssue ≤ (s.core n.val).issued → exec k.1 s = .next (g .overrun))
      ∧ ((s.core n.val).issued < h.maxIssue →
        (f.known = false → exec k.1 s = .next (g .descriptor))
        ∧ (f.known = true → (f, e) ≠ (k.2, d) → exec k.1 s = .next s)
        ∧ ((f, e) = (k.2, d) → (d.rsv0 ≠ 0 ∨ d.subExtra ≠ 0 ∨ d.rsv9 ≠ 0 ∨ d.rsv12 ≠ 0 ∨ d.rm = 5 ∨ d.rm = 6 ∨ d.slotStride.toNat % 64 ≠ 0) →
            exec k.1 s = .next (g .descriptor))))
  ∧ ∀ (s : State) (p c n : Nat) (f : StepFault) (desc : Nat), (s.ctx p c).live = true →
    (s.kill p c n f desc).ctx p c = { s.ctx p c with
        live := false, boundary := true, killed := some f.code, te := s.tide64, endNclk := s.nclk, tag := (s.ctx p c).tag + 1,
        slots := ((s.kill p c n f desc).ctx p c).slots, st := ((s.kill p c n f desc).ctx p c).st,
        haltFault := ((s.kill p c n f desc).ctx p c).haltFault, refault := ((s.kill p c n f desc).ctx p c).refault,
        owed := ((s.kill p c n f desc).ctx p c).owed }
    ∧ (∀ k ∈ (s.ctx p c).ranks, ((s.kill p c n f desc).core k).stepping = false ∧ ((s.kill p c n f desc).core k).wait = none
        ∧ ((s.kill p c n f desc).core k).ops = [] ∧ ((s.kill p c n f desc).core k).traps = [] ∧ ((s.kill p c n f desc).core k).moves = [])
    ∧ (∀ rank k, (s.kill p c n f desc).slot p c rank k = { s.slot p c rank k with
          state := (s.slot p c rank k).state0, flags := (s.slot p c rank k).flags0 })
    ∧ (n ∈ (s.ctx p c).ranks → (s.core n).seqValid = false → ((s.kill p c n f desc).core n).seqValid = true
        ∧ ((s.kill p c n f desc).core n).seqFault = f.code ∧ ((s.kill p c n f desc).core n).seqDesc = desc)
    ∧ ((s.core n).seqValid = true → ((s.kill p c n f desc).core n).seqFault = (s.core n).seqFault
        ∧ ((s.kill p c n f desc).core n).seqDesc = (s.core n).seqDesc)
    ∧ (s.excused p c n f = true → ((s.kill p c n f desc).ctx p c).st = (s.ctx p c).st ∧ ((s.kill p c n f desc).ctx p c).refault = (s.ctx p c).refault)
    ∧ (f ≠ .preempt → s.remapping n = true → s.excused p c n f = true)
    ∧ (s.excused p c n f = false → f.code ≤ 3 ∨ f.code = 7 → ((s.kill p c n f desc).ctx p c).st = .halted ∧ ((s.kill p c n f desc).ctx p c).haltFault = f.code)
    ∧ (f = .preempt → ((s.kill p c n f desc).ctx p c).st = (s.ctx p c).st)
    ∧ (s.kill p c n f desc).regs = s.regs ∧ (s.kill p c n f desc).jobs = s.jobs ∧ (s.kill p c n f desc).queues = s.queues)
  ∧ (∀ (s : State) (n : Fin 32) (h : StepProg), s.inReset = false → s.header n.val = some h →
    ((∃ w ∈ (s.core n.val).waits, Wait.barred (some w.1) = true ∧ h.barrierWait < 2 * (s.nclk - w.1.2)) →
        ∃ w ∈ (s.core n.val).waits, Wait.barred (some w.1) = true ∧ h.barrierWait < 2 * (s.nclk - w.1.2)
          ∧ exec (.barrierTimeout n) s = .next (s.fault n.val s.waitFault (w.2 - 1)))
    ∧ ((∀ w ∈ (s.core n.val).waits, Wait.barred (some w.1) = true → 2 * (s.nclk - w.1.2) ≤ h.barrierWait) →
        exec (.barrierTimeout n) s = .next s)
    ∧ ((∃ w ∈ (s.core n.val).waits, ∃ x i b op, w.1.1 = .fullEmpty x i b op ∧ s.rwField (.slotWait (n.val / 8)) 15 0 ≤ 2 * (s.nclk - w.1.2)) →
        ∃ w ∈ (s.core n.val).waits, ∃ x i b op, w.1.1 = .fullEmpty x i b op ∧ s.rwField (.slotWait (n.val / 8)) 15 0 ≤ 2 * (s.nclk - w.1.2)
          ∧ exec (.slotTimeout n) s = .next (s.fault n.val .slotTimeout op.desc))
    ∧ ((∀ w ∈ (s.core n.val).waits, ∀ x i b op, w.1.1 = .fullEmpty x i b op → 2 * (s.nclk - w.1.2) < s.rwField (.slotWait (n.val / 8)) 15 0) →
        exec (.slotTimeout n) s = .next s)
    ∧ (∀ x r, (s.core n.val).traps = x :: r →
        ((s.core n.val).trapInfo.getLsbD 31 = true → ∃ t, exec (.trapDelivery n) s = .next t ∧ t = { s with cores := t.cores }
          ∧ t.core n.val = { s.core n.val with traps := r } ∧ (∀ k, k ≠ n.val → t.core k = s.core k))
        ∧ ((s.core n.val).trapInfo.getLsbD 31 = false → ∃ t u : State, exec (.trapDelivery n) s = .next t ∧ t = u.fault n.val .trap x.desc
          ∧ (∀ k, k ≠ n.val → u.core k = s.core k) ∧ u = { s with cores := u.cores, sets := u.sets }
          ∧ u.core n.val = { s.core n.val with
              traps := r, trapInfo := BitVec.ofNat 32 (2 ^ 31 + x.flags.toNat * 2 ^ 24 + x.desc % 65536),
              trapLanes := x.lanes.setWidth 32 })))

/-- R118, R158, R159, R184 and R193: an operation completes in its turn: it leaves the core, its flags join CORE_n_VU_FLAGS, and an enabled flag of the
vector unit or the DSU raises a trap. While pages of it are still to come it waits, and in open mode while tokens that it asked for are
(R414, R416). R133: a coalescing buffer's entries that are 16 ACLK
cycles old go to memory, byte by byte, and no other byte changes.
Completes: operationComplete, bufferFlush. -/
def Obligations.OperationsComplete : Prop :=
  (∀ (s : State) (n : Fin 32) (op : OutOp) (r : List OutOp), s.inReset = false → (s.core n.val).ops = op :: r →
    (s.pagesDue n.val = true ∨ (s.strict = false ∧ ∃ p c x, (s.core n.val).run = some (p, c) ∧ x ∈ op.toks ∧ s.served p x = false) →
      ∀ f, exec (.operationComplete n f) s = .next s)
    ∧ (s.pagesDue n.val = false → (s.strict = true ∨ ∀ p c x, (s.core n.val).run = some (p, c) → x ∈ op.toks → s.served p x = true) →
        (r ≠ [] ∨ ∀ h, s.header n.val = some h → (s.core n.val).next < h.descCount) →
        ∃ t, exec (.operationComplete n {}) s = .next t ∧ (t.core n.val).ops = r
          ∧ (t.core n.val).vuFlags = op.res.foldl (fun w x => w ||| x.flagBits) (s.core n.val).vuFlags
          ∧ (t.core n.val).traps = (s.core n.val).traps ++ op.trapOf (s.core n.val).vuCtrl
          ∧ (op.status = none → (∀ x ∈ op.res, x.writes = []) → t.mem = s.mem ∧ t.poison = s.poison)
          ∧ t.regs = s.regs ∧ t.jobs = s.jobs ∧ t.queues = s.queues ∧ t.tide = s.tide ∧ t.loops = s.loops))
  ∧ ∀ (s : State) (n : Fin 32) (cell : Fin 16), s.inReset = false → s.Inv →
      ∃ t, exec (.bufferFlush n cell) s = .next t
        ∧ (t.core n.val).buf = (s.core n.val).buf.filter (fun e => !(cellOf e.line = cell.val && 16 ≤ 2 * (s.nclk - e.since)))
        ∧ (∀ e ∈ (s.core n.val).buf, cellOf e.line = cell.val → 16 ≤ 2 * (s.nclk - e.since) → ∀ i, i < 64 →
            t.mem.read 0 (e.line + i) = SMap.getD e.data i (s.mem.read 0 (e.line + i)))
        ∧ (∀ a, (∀ e ∈ (s.core n.val).buf, cellOf e.line = cell.val → 16 ≤ 2 * (s.nclk - e.since) → a / 64 ≠ e.line / 64) →
            t.mem.read 0 a = s.mem.read 0 a)
        ∧ t = { s with cores := t.cores, mem := t.mem, poison := t.poison }

/-- R363, R364, R366 to R370 and R372: a payload that is no measurement frame is dropped and counted. Of one that is, the capture time is the frame's own
or the time-stamp less LAT_COMP; a later one than the time-stamp counts as the time-stamp and sets FUTURE; too old a frame counts as
STALE, one no newer than the last as dropped, and neither updates a field; its age is judged in the cycle after its last byte has passed. A frame of one
entry conditions its field, whose new value is readable 400 ns after that, or rejects it. The conditioner limits, rejects NaN, and a fresh value is taken as it is. FIELD_TIMEOUT marks a field whose time is up.
Completes: measFrame, fieldTimeout. -/
def Obligations.MeasurementFrames : Prop :=
  (∀ (s : State) (n : Fin 32) (c : StreamCfg) (pl : List Byte) (cap stamp given parse : Nat) (valid : Bool), s.ingestRuns = true →
    s.streamCfg n.val = some c → c.kind = .meas → stamp = (s.rxStamp c.port / 4).toNat → given = beNat ((pl.drop 8).take 8) →
    valid = (pl.getD 5 0).getLsbD 0 →
    parse = stamp + wireNs (s.bport c.port).speed (max 64 (pl.length + 46)) + 2 →
    cap = (if valid then min given stamp else (stamp + 2 ^ 64 - (s.rw (.latComp n.val)).toNat) % 2 ^ 64) →
    (measOk pl = false → exec (.measFrame n pl) s = .next (s.bump (.drop n.val)))
    ∧ (measOk pl = true → ∃ t, exec (.measFrame n pl) s = .next t ∧ t.mem = s.mem ∧ t.regs = s.regs ∧ t.jobs = s.jobs ∧ t.queues = s.queues
        ∧ t.tide = s.tide ∧ (t.stream n.val).future = ((s.stream n.val).future || (valid && decide (stamp < given)))
        ∧ (c.maxAge < parse - cap → t.ingest.fields = s.ingest.fields ∧ t.ingest.psets = s.ingest.psets
            ∧ (t.stream n.val).lastCapture = (s.stream n.val).lastCapture ∧ t.count (.stale n.val) = (s.bump (.stale n.val)).count (.stale n.val))
        ∧ (parse - cap ≤ c.maxAge → (∃ l, (s.stream n.val).lastCapture = some l ∧ cap ≤ l) → t.ingest.fields = s.ingest.fields
            ∧ t.ingest.psets = s.ingest.psets ∧ t.count (.drop n.val) = (s.bump (.drop n.val)).count (.drop n.val))
        ∧ (parse - cap ≤ c.maxAge → (∀ l, (s.stream n.val).lastCapture = some l → l < cap) →
            (t.stream n.val).lastCapture = some cap
            ∧ (∀ k, (k < c.firstField ∨ c.firstField + c.fieldCount ≤ k) → t.field k = s.field k)
            ∧ (pl.length = 32 → ∀ k v fc, measEntry c ((pl.drop 16).take 12) = some (k, v) → s.fieldCfg k = some fc →
                (∀ f, (s.field k).condition fc (s.fieldOut k) v = some f →
                  (t.field k).xr = f.xr ∧ (t.field k).xf = f.xf ∧ (t.field k).sat = f.sat ∧ (t.field k).tmo = false ∧ (t.field k).last = some cap
                  ∧ (t.field k).hist.head? = some (f.xf, cap, parse + 400))
                ∧ ((s.field k).condition fc (s.fieldOut k) v = none → t.field k = { s.field k with rej := true }
                    ∧ t.count .fieldReject = (s.bump .fieldReject).count .fieldReject)))))
  ∧ (∀ (c : FieldCfg) (f : FieldSt) (fresh : Bool) (v : Val),
      (v.isNan = true → f.condition c fresh v = none)
      ∧ (v.isNan = false → c.reject = true → (ltV v (valOf c.lo) = true ∨ ltV (valOf c.hi) v = true) → f.condition c fresh v = none)
      ∧ (v.isNan = false → ltV v (valOf c.lo) = false → ltV (valOf c.hi) v = false →
          f.condition c true v = some { f with xr := bitsOf v, xf := bitsOf v })
      ∧ (∀ x, x = (if ltV (valOf c.hi) (valOf c.lo) then valOf c.hi else valOf c.lo) → v.isNan = false → c.reject = false →
          ltV v (valOf c.lo) = true → f.condition c true v = some { f with xr := bitsOf x, xf := bitsOf x, sat := true })
      ∧ (v.isNan = false → c.reject = false → ltV v (valOf c.lo) = false → ltV (valOf c.hi) v = true →
          f.condition c true v = some { f with xr := bitsOf (valOf c.hi), xf := bitsOf (valOf c.hi), sat := true }))
  ∧ ∀ (s : State) (k : Fin 1024), s.ingestRuns = true →
      (s.fieldOut k.val = true → ∃ t, exec (.fieldTimeout k) s = .next t ∧ t.field k.val = { s.field k.val with tmo := true }
        ∧ (∀ j, j ≠ k.val → t.field j = s.field j) ∧ t = { s with ingest := { s.ingest with fields := t.ingest.fields } })
      ∧ (s.fieldOut k.val = false → exec (.fieldTimeout k) s = .next s)
      ∧ (∀ l c, (s.field k.val).last = some l → s.fieldCfg k.val = some c → (s.field k.val).tmo = false →
          (s.fieldOut k.val = true ↔ l + c.timeoutNs < s.tide64))
      ∧ ((s.field k.val).last = none → s.fieldOut k.val = true)

/-- R361, R375 and R385: an RTP packet of a stream joins the frame of its timestamp, a new timestamp begins the next frame, a packet older than
the last is nothing, a gap in the sequence numbers damages the units from where the previous packet's bytes ended to where this packet's
whole units begin, and no others, and a packet that finds RXBUF full damages its units instead of being kept. A header in error damages the unit that was to come.
R364, R373, R374, R376, R377, R386 and R387: the next unit of a stream's oldest frame is decoded once it is received whole and its slots are
free, inside the frame's budget; one in error is damaged with cause 3; a frame whose headers declare what the stream does not accept is
abandoned; a stale frame is dropped whole and counted. A frame past its DECODE_BUDGET is abandoned and counted LATE; one whose units are
all decoded or damaged completes, with its concealed per mille.
Completes: rtpPacket, precinctDecode, decodeBudgetExpiry, videoFrameComplete. -/
def Obligations.VideoFramesAndPackets : Prop :=
  (∀ (s : State) (n : Fin 32) (c : StreamCfg) (k : RtpPkt) (x : StreamSt) (at' : Nat), s.ingestRuns = true →
    s.streamCfg n.val = some c → c.kind ≠ .meas → x = s.stream n.val → at' = (if x.ts = some k.ts then x.unit else 0) →
    (c.ssrcCheck = true → k.ssrc ≠ c.ssrc → exec (.rtpPacket n k) s = .next s)
    ∧ ((c.ssrcCheck = true → k.ssrc = c.ssrc) →
        (∀ q, x.seq = some q → 0x8000 ≤ (k.seq - (q + 1)).toNat → exec (.rtpPacket n k) s = .next s)
      ∧ ((∀ q, x.seq = some q → (k.seq - (q + 1)).toNat < 0x8000) → ∃ t, exec (.rtpPacket n k) s = .next t
          ∧ t = { s with ingest := { s.ingest with streams := t.ingest.streams } } ∧ (∀ m, m ≠ n.val → t.stream m = s.stream m)
          ∧ (t.stream n.val).seq = some k.seq ∧ (t.stream n.val).unit = (k.span.map spanAfter).getD at' ∧ (t.stream n.val).ts = some k.ts
          ∧ (x.ts = some k.ts → x.takes = false → (t.stream n.val).frames = x.frames)
          ∧ (∀ p, k.span = some p → (∀ q, x.seq = some q → k.seq = q + 1) → p.first ≤ at' → x.used + k.payload.length ≤ c.rxbuf →
              (x.ts ≠ some k.ts → (t.stream n.val).takes = (!k.marker) ∧ (t.stream n.val).frames = x.frames ++
                [{ ts := k.ts, capture := ((s.rxStamp c.port / 4).toNat + 2 ^ 64 - (s.rw (.latComp n.val)).toNat) % 2 ^ 64,
                   chunks := [(p.first, k.payload)], last := spanAfter p, ended := k.marker }])
              ∧ (x.ts = some k.ts → x.takes = true → ∀ fs f, x.frames = fs ++ [f] → (t.stream n.val).takes = (!k.marker)
                  ∧ (t.stream n.val).frames
                    = fs ++ [{ f with chunks := f.chunks ++ [(p.first, k.payload)], last := spanAfter p, ended := k.marker }]))
          ∧ (x.ts = some k.ts → x.takes = true → ∀ fs f, x.frames = fs ++ [f] → ∃ g, (t.stream n.val).frames = fs ++ [g]
              ∧ (∀ p q, k.span = some p → x.seq = some q → k.seq ≠ q + 1 →
                  (∀ u, x.unit ≤ u → u < spanStop p → f.next ≤ u → (SMap.get g.damage u).isSome = true)
                  ∧ (x.used + k.payload.length ≤ c.rxbuf → g.chunks = f.chunks ++ [(p.first, k.payload)]
                    ∧ ∀ u, (u < x.unit ∨ spanStop p ≤ u) → SMap.get g.damage u = SMap.get f.damage u))
              ∧ (∀ p, k.span = some p → (∀ q, x.seq = some q → k.seq = q + 1) → p.first ≤ x.unit → c.rxbuf < x.used + k.payload.length →
                  g.chunks = f.chunks ∧ ∀ u, p.first ≤ u → u ≤ p.last → f.next ≤ u → SMap.get f.damage u = none → SMap.get g.damage u = some 2)
              ∧ (k.span = none → (∀ q, x.seq = some q → k.seq = q + 1) → g.chunks = f.chunks
                  ∧ (f.next ≤ x.unit → SMap.get f.damage x.unit = none → SMap.get g.damage x.unit = some 3))))))
  ∧ (∀ (s : State) (n : Fin 32) (c : StreamCfg) (f0 f : VFrame) (r : List VFrame), s.ingestRuns = true → s.streamCfg n.val = some c →
    (s.stream n.val).frames = f0 :: r → f = f0.skip c.units →
    (f.next < c.units → (s.stream n.val).busy ≤ s.nclk → (f.ended = true ∨ f.next < f.last) → f.inBudget c s.nclk = true →
        (s.startDecode n.val c f = none → ∃ t, exec (.precinctDecode n) s = .next t ∧ (t.stream n.val).frames = r
          ∧ t.count (.stale n.val) = (s.bump (.stale n.val)).count (.stale n.val) ∧ t.ingest.psets = s.ingest.psets)
      ∧ (∀ g, s.startDecode n.val c f = some g →
          ((Config.declared c g.chunks).map c.accepts = some false → ∃ t, exec (.precinctDecode n) s = .next t
            ∧ (t.stream n.val).unsupported = true ∧ (t.stream n.val).frames = r ∧ (t.stream n.val).done = (s.stream n.val).done + 1
            ∧ t.count (.late n.val) = (s.bump (.late n.val)).count (.late n.val))
          ∧ ((Config.declared c g.chunks).map c.accepts ≠ some false → ∀ b, b = s.nclk + unitCycles c g.roi (c.kind = .raw) f.next →
            (g.inBudget c b = false → ∃ t, exec (.precinctDecode n) s = .next t ∧ (t.stream n.val).frames = g :: r
              ∧ (t.stream n.val).busy = b ∧ t = { s with ingest := { s.ingest with streams := t.ingest.streams } })
            ∧ (g.inBudget c b = true →
              (decodeUnit c g.roi g.chunks f.next = .syntaxError → ∃ t g', exec (.precinctDecode n) s = .next t
                ∧ (t.stream n.val).frames = g' :: r ∧ g'.next = f.next + 1 ∧ SMap.get g'.damage f.next = some 3
                ∧ (t.stream n.val).busy = b ∧ t = { s with ingest := { s.ingest with streams := t.ingest.streams } })
              ∧ (∀ xs, decodeUnit c g.roi g.chunks f.next = .spots xs → ∃ t g', exec (.precinctDecode n) s = .next t
                ∧ (t.stream n.val).frames = g' :: r ∧ g'.next = f.next + 1 ∧ g'.damage = f.damage ∧ (t.stream n.val).busy = b
                ∧ t.mem = s.mem ∧ t.regs = s.regs ∧ t.jobs = s.jobs)))))
    ∧ (f.next < c.units → (f.ended = false ∧ f.last ≤ f.next ∨ f.inBudget c s.nclk = false) → exec (.precinctDecode n) s = .next s)
    ∧ (∀ at', f0.started = some at' → s.passed at' c.budget = true → f.next < c.units → ∃ t, exec (.decodeBudgetExpiry n) s = .next t
        ∧ (t.stream n.val).frames = r ∧ (t.stream n.val).done = (s.stream n.val).done + 1
        ∧ t.count (.late n.val) = (s.bump (.late n.val)).count (.late n.val) ∧ t.mem = s.mem ∧ t.jobs = s.jobs ∧ t.regs = s.regs)
    ∧ (∀ at', f0.started = some at' → s.passed at' c.budget = false → exec (.decodeBudgetExpiry n) s = .next s)
    ∧ (c.units ≤ f.next → (s.stream n.val).busy ≤ s.nclk → ∀ g im, s.startDecode n.val c f = some g → s.sec.image = some im →
        ∃ t, exec (.videoFrameComplete n) s = .next t ∧ (t.stream n.val).frames = r ∧ (t.stream n.val).done = (s.stream n.val).done + 1
          ∧ (t.stream n.val).noRef = g.ref.isNone
          ∧ (t.stream n.val).conceal = (1000 * (g.damage.map (fun d => (c.unitRect d.1).lines * (c.unitRect d.1).cols)).sum
              + c.width * c.height - 1) / (c.width * c.height)
          ∧ (∀ x ∈ t.ingest.psets, x ∈ s.ingest.psets ∨ (x.firing = s.ingest.firing + 1
              ∧ ∃ b, (x.binding, b) ∈ im.psets ∧ b.trigger = n.val ∧ x.deadline = (g.capture + b.deadlineOfs) % 2 ^ 64))
          ∧ t.mem = s.mem ∧ t.regs = s.regs ∧ t.jobs = s.jobs ∧ t.queues = s.queues))

/-- R390 and R392: a parameter set whose turn it is is handed to its queue: accepted, it waits as an instance with the firing's capture time; a
queue that is closed, or refuses it by R256, drops and counts it. Sets of one firing go in ascending binding.
R271 and R273: the rake harvests every LIVE instance whose deadline is reached, no boundary of its context being due, where no core's events call for
more (an open mismatch of a pair ends with it, R497); the others stay. R269: every WAITING instance at its deadline less MIN_SOLVE completes NOT_STARTED and is gone. R283: the layout of a
completion record.
Completes: parameterSetHandover, deadlineHarvest, notStartedThreshold. -/
def Obligations.SetsAndDeadlines : Prop :=
  (∀ (s : State) (b : Fin 64) (x : PsetSt) (c : PsetCfg) (q : QueueCfg) (im : StructImage), s.ingestRuns = true → s.qmgrReady = true →
    s.ingest.psets.find? (fun y => y.binding = b.val) = some x → s.sec.image = some im → SMap.get im.psets b.val = some c →
    s.queueCfg c.queue = some q →
    ((∃ y ∈ s.ingest.psets, y.firing = x.firing ∧ y.binding < b.val) → exec (.parameterSetHandover b) s = .next s)
    ∧ ((∀ y ∈ s.ingest.psets, y.firing = x.firing → b.val ≤ y.binding) → ∃ t, exec (.parameterSetHandover b) s = .next t
        ∧ t.ingest = { s.ingest with psets := s.ingest.psets.filter (fun y => !(y.binding = x.binding && y.firing = x.firing)) }
        ∧ ((s.queue c.queue).state = .opened → s.refuseJob c.queue q x.params.length = none →
            s.tide64 + 20000 ≤ x.deadline → s.tide64 + q.minSolve ≤ x.deadline →
            t = { s with ingest := t.ingest, nextJob := s.nextJob + 1, jobs := s.jobs ++
              [{ id := s.nextJob, queue := c.queue, gen := (s.queue c.queue).gen, tag := x.tag, client := (s.queue c.queue).opener,
                 deadline := x.deadline, tArr := s.tide64, quality := x.quality, params := x.params }] })
        ∧ (((s.queue c.queue).state ≠ .opened ∨ (s.refuseJob c.queue q x.params.length).isSome = true) → t.jobs = s.jobs
            ∧ t.count .psetDrop = (s.bump .psetDrop).count .psetDrop)))
  ∧ ((∀ s : State, s.inReset = false → s.Inv → s.attrib.events = [] → (∀ j ∈ s.jobs, s.harvestDue j = true → j.runs = []) →
    ∃ t, exec .deadlineHarvest s = .next t
      ∧ t.jobs = s.jobs.map (fun j => if s.harvestDue j then { j with st := .harvested, mismatch := j.mismatch && j.slots.isEmpty } else j)
      ∧ t.mem = s.mem ∧ t.regs = s.regs ∧ t.cores = s.cores ∧ t.queues = s.queues ∧ t.windows = s.windows ∧ t.tide = s.tide)
  ∧ (∀ s : State, s.inReset = false → s.Inv → ∃ t, exec .notStartedThreshold s = .next t
      ∧ t.jobs = s.jobs.filter (fun j => !s.lateDue j)
      ∧ t.mem = s.mem ∧ t.regs = s.regs ∧ t.cores = s.cores ∧ t.queues = s.queues ∧ t.windows = s.windows ∧ t.loops = s.loops
      ∧ (s.jobs.all (fun j => !s.lateDue j) = true → t = s))
  ∧ ∀ (j : Job) (guard status how input done : Nat) (halted : Bool) (blk data : List Byte) (flags : BitVec 16) (sel : BitVec 3) (b : List Byte),
      b = completionBytes j guard status how halted input blk flags done sel data → j.queue < 2 ^ 16 → how < 16 → status < 16 →
      j.deadline < 2 ^ 64 → done < 2 ^ 64 → data.length < 2 ^ 32 →
      b.length = 96 + data.length ∧ beNat (b.take 4) = j.tag.toNat ∧ beNat ((b.drop 4).take 2) = j.queue ∧ beNat ((b.drop 6).take 2) = j.gen.toNat
        ∧ beNat ((b.drop 8).take 1) = how * 16 + status ∧ beNat ((b.drop 16).take 8) = j.deadline ∧ beNat ((b.drop 40).take 8) = done
        ∧ beNat ((b.drop 92).take 4) = data.length ∧ b.drop 96 = data)

/-- R263, in its order, on one instance at a boundary: a harvested one only leaves; CORRUPT completes INPUT_INVALID; a cancel or close before T_E
completes ABORTED; a guard that is spent GUARD_FAIL; a committed step with LEAVE completes as committed; a deadline at T_E is harvested; any
other instance stays.
R191, R196 and R199: what a commit does with a slot. Its dirty persistent lines take the shadow copy as the committed one; its state word keeps
USR and ZERO_PIVOT, and of a slot that does not commit they return to what they were; FIRST ends with the first commit; COMMIT_REQ, POISON,
PIVOT_SAT, CERT_FAIL and CONVERGED end at every boundary. R266: the order in which waiting instances are admitted. -/
def Obligations.Boundaries : Prop :=
  (∀ (s : State) (p te : Nat) (j : Job), (s.fate p te j).job.id = j.id
    ∧ (j.st = .harvested → (s.fate p te j).gone = true ∧ (s.fate p te j).leaves = none ∧ (s.fate p te j).commits = [])
    ∧ (j.st ≠ .harvested →
        ((s.slotWord p j.ctx (j.slots.headD 0) SlotSt.state).getLsbD 3 = true →
          (s.fate p te j).leaves = some (some 9, 0) ∧ (s.fate p te j).commits = [])
      ∧ ((s.slotWord p j.ctx (j.slots.headD 0) SlotSt.state).getLsbD 3 = false →
          (∀ close at', j.leave = some (close, at') → at' < te →
            (s.fate p te j).leaves = some (some 10, if close then 4 else 3) ∧ (s.fate p te j).commits = [])
        ∧ ((∀ close at', j.leave = some (close, at') → te ≤ at') →
            (j.spoiled = true → (s.fate p te j).leaves = some (some 11, 0) ∧ (s.fate p te j).guardFail = true ∧ (s.fate p te j).commits = [])
          ∧ (j.spoiled = false → (s.fateCommit p j).barred = false →
              ((s.fateCommit p j).commits ≠ [] → s.shadowLeave p j.ctx ((s.fateCommit p j).commits.headD 0) = true →
                (s.fate p te j).leaves = some (none, 0) ∧ (s.fate p te j).commits = (s.fateCommit p j).commits)
            ∧ ((s.fateCommit p j).commits = [] ∨ s.shadowLeave p j.ctx ((s.fateCommit p j).commits.headD 0) = false →
                (s.fate p te j).commits = (s.fateCommit p j).commits
                ∧ (j.deadline ≤ te → (s.fate p te j).leaves = some (none, 1)) ∧ (te < j.deadline → (s.fate p te j).leaves = none))))))
    ∧ (j.pair = false → ∀ g, j.slots = [g] → ((s.fateCommit p j).commits = [g] ↔ s.wouldCommit p j.ctx g = true)
        ∧ ((s.fateCommit p j).commits = [] ↔ s.wouldCommit p j.ctx g = false)))
  ∧ ((∀ (s t : State) (p c : Nat) (x : Nat × Nat), t = s.commitLines p c x → 
      (∀ a ∈ s.persLines p c x.1 x.2, s.dirty.has (a / 64) = true → t.dirty.has (a / 64) = false
        ∧ (∀ h, t.copies h a = ((s.copies h a).2, (s.copies h a).1)))
      ∧ (∀ l, (∀ a ∈ s.persLines p c x.1 x.2, a / 64 ≠ l) → t.dirty.has l = s.dirty.has l ∧ t.sel.has l = s.sel.has l)
      ∧ t = { s with dirty := t.dirty, sel := t.sel })
  ∧ (∀ (x : SlotSt) (b : Bool) (i : Nat), i < 16 → (x.afterCommit b).state.getLsbD i =
      if i = 4 ∨ i = 5 ∨ i = 7 ∨ i = 8 ∨ i = 9 then false
      else if b then (if i = 1 then false else x.state.getLsbD i)
      else if i = 6 ∨ 12 ≤ i then x.state0.getLsbD i else x.state.getLsbD i)
  ∧ ∀ (s : State) (p c : Nat),
      (∀ j, j ∈ s.candidates p c ↔ j ∈ s.jobs ∧ j.st = .waiting ∧ ∃ q, s.queueCfg j.queue = some q ∧ q.pan = p ∧ s.servedBy q = some c)
      ∧ (s.candidates p c).Pairwise (fun a b => a.deadline < b.deadline ∨ (a.deadline = b.deadline ∧ (a.queue < b.queue
          ∨ (a.queue = b.queue ∧ (a.tArr < b.tArr ∨ (a.tArr = b.tArr ∧ a.id ≤ b.id)))))))

/-- R262, R406 to R410 and R425: the next slice entry starts, in table order or at its Tide64, and ends once its LENGTH has passed, in open mode with no step of its
contexts left running; a boundary that is due is run; a strict-mode step that every core has ended ends at its STEP_BUDGET, whose moment is its T_E
(R428), and not before.
Completes: sliceEntryStart, sliceEntryEnd, stepBoundary, stepBudgetEnd. -/
def Obligations.SliceEntriesAndSteps : Prop :=
  ∀ (s : State) (p : Fin 16) (c : Fin 8), s.inReset = false →
    (∀ i, s.nextEntry p.val = some i → ∃ t, exec (.sliceEntryStart p) s = .next t ∧ (t.pan p.val).entry = i ∧ (t.pan p.val).ran = true
        ∧ (t.pan p.val).entryAt = s.nclk ∧ (s.strict = true → (t.pan p.val).entryOn = true))
    ∧ (s.nextEntry p.val = none → exec (.sliceEntryStart p) s = .next s)
    ∧ ((s.pan p.val).entryOn = true → s.entryOver p.val = true → ∃ t, exec (.sliceEntryEnd p) s = .next t ∧ (t.pan p.val).entryOn = false
        ∧ (s.strict = false → ∀ k, k < 8 → (t.ctx p.val k).live = false))
    ∧ (s.entryOver p.val = false → exec (.sliceEntryEnd p) s = .next s)
    ∧ ((s.ctx p.val c.val).boundary = true → ∃ t, exec (.stepBoundary p c) s = .next t ∧ (t.ctx p.val c.val).boundary = false)
    ∧ (s.strict = true → (s.ctx p.val c.val).live = true → (∀ k ∈ (s.ctx p.val c.val).ranks, (s.core k).stepping = false) →
        ∀ e, e = (s.ctx p.val c.val).startNclk + ((s.ctxCat p.val c.val).stepBudget + 1) / 2 →
        (e ≤ s.nclk → ∃ t, exec (.stepBudgetEnd p c) s = .next t
          ∧ (t.ctx p.val c.val).live = false ∧ (t.ctx p.val c.val).boundary = true ∧ (t.ctx p.val c.val).killed = none
          ∧ (t.ctx p.val c.val).te = s.tideAt e ∧ (t.ctx p.val c.val).endNclk = e
          ∧ t.mem = s.mem ∧ t.regs = s.regs ∧ t.jobs = s.jobs ∧ t.cores = s.cores)
        ∧ (s.nclk < e → exec (.stepBudgetEnd p c) s = .next s))

/-- R414 and R415: a bucket never holds more than its DEPTH; the transfer that waits longest takes its tokens once the bucket holds them, and
not before. A grant of HOST tokens sends completions.
R148, R158, R159, R161 and R162: a corrected word that the harrow meets is reported and counted with no change of memory; an uncorrectable one is
poisoned, in the scratchpads and region memory and in the chip's own memories; a word that a read corrected is rewritten in its turn.
R141 and R513: the end of a bank's copy puts the spare bank in its place; the end of a core's copy moves the core to the spare at once where
no pan holds it, and at the pan's next boundary where one does. The words of the lines that read uncorrectable while they were copied
are poisoned, and no others.
R500 to R503: the report at the front of a log's buffer is recorded where an entry is free, and lost and counted by the bittern record where none is;
the entries recorded stay. The ERROR EVENT of a report that is lost passes to its copy where that waits for the chip log.
R585: each TAP instruction selects its register; the boundary-scan ones that drive pins take control of them until PORST_N. What a
scan of the pins reads is not given.
Completes: sluiceTokenGrant, harrowScrub, harrowRewrite, bankCopyDone, coreCopyDone, logRecord, bypass, idcode, samplePreload, extest,
extestPulse, extestTrain. -/
def Obligations.SparesLogsAndTap : Prop :=
  ((∀ (s : State) (p : Nat) (b : Bucket), s.level p b ≤ (s.bucketCfg p b).depth * 1024 * 1000
      ∧ ∀ l at', SMap.get (s.pan p).levels (bucketIx b) = some (l, at') → s.level p b ≤ l + (s.bucketCfg p b).rate * (s.nclk - at') * 20 / 11)
  ∧ ∀ (s : State) (p : Fin 16) (b : Bucket) (w : Nat × Nat), s.inReset = false →
      (s.pan p.val).waitingTok.find? (waitsFor b) = some w →
      (s.level p.val b < w.2 * 1000 → exec (.sluiceTokenGrant p b) s = .next s)
      ∧ (w.2 * 1000 ≤ s.level p.val b → ∃ t, exec (.sluiceTokenGrant p b) s = .next t
          ∧ (b ≠ .host → t.pan p.val = { s.pan p.val with
                levels := (s.pan p.val).levels.put (bucketIx b) (s.level p.val b - w.2 * 1000, s.nclk),
                waitingTok := dropFirst (bucketIx b) (s.pan p.val).waitingTok }
              ∧ (∀ q, q ≠ p.val → t.pan q = s.pan q) ∧ t = { s with pans := t.pans })
          ∧ (b = .host → s.Sends t)))
  ∧ (∀ (s : State) (line : Word) (w : HarrowWord) (a : Nat), s.inReset = false → a = line.toNat + 8 * (w.word % 8) →
    (sramLine line.toNat = true →
      (w.uncorrectable = false → s.attrib.ecc = [] → ∃ t, exec (.harrowScrub line [w]) s = .next t
        ∧ t.corrected = s.corrected.del (a / 8) ∧ t.attrib = { s.attrib with ecc := [(s.bankKey a, a / 8, s.nclk)] }
        ∧ s.Serves { t with corrected := s.corrected, attrib := s.attrib, logs := s.logs })
      ∧ (w.uncorrectable = true → s.poisonAt a = .unused → (∃ n, coreOf a = some n ∧ (s.region (n / 8)).downs.contains (s.physCore n) = true) →
        ∃ t, exec (.harrowScrub line [w]) s = .next t ∧ t.poison = s.poison.ins (a / 8)
        ∧ s.Sends { t with poison := s.poison, logs := s.logs }))
    ∧ (sramLine line.toNat = false → (chipMem line.toNat).isSome = true → ∃ t, exec (.harrowScrub line [w]) s = .next t
        ∧ t.poison = (if w.uncorrectable then s.poison.ins (a / 8) else s.poison) ∧ t.mem = s.mem ∧ t.regs = s.regs ∧ t.cores = s.cores)
    ∧ (∀ x r, s.corrected = x :: r → exec .harrowRewrite s = .next { s with corrected := r }))
  ∧ (∀ (s : State) (r : Fin 4) (bad : List Nat), s.inReset = false →
    (∀ b, (s.region r.val).bankCopy = some b → ∃ t, exec (.bankCopyDone ⟨r, bad⟩) s = .next t
      ∧ t.region r.val = { s.region r.val with bankCopy := none, replaced := some b, bankPtr := 0 } ∧ (∀ q, q ≠ r.val → t.region q = s.region q)
      ∧ (∀ w, t.poison.has w = true ↔ s.poison.has w = true ∨ ∃ l ∈ bad, l < 12288 ∧ w ∈ bankWords r.val b l)
      ∧ s.Sends { t with regions := s.regions, attrib := s.attrib, logs := s.logs, poison := s.poison })
    ∧ (∀ i, (s.region r.val).copyCore = some i → ∃ t, exec (.coreCopyDone ⟨r, bad⟩) s = .next t
      ∧ (∀ w, t.poison.has w = true ↔ s.poison.has w = true ∨ ∃ l ∈ bad, l < 65536 ∧ w ∈ coreWords (r.val * 8 + i) l)
      ∧ ((s.pansOf (r.val * 8 + i)).isEmpty = false →
          t.region r.val = { s.region r.val with copyEnded := true, copyPtr := 65535 } ∧ (∀ q, q ≠ r.val → t.region q = s.region q)
          ∧ t = { s with regions := t.regions, poison := t.poison })
      ∧ ((s.pansOf (r.val * 8 + i)).isEmpty = true → i < (s.region r.val).map.length →
          (t.region r.val).map[i]? = some 8 ∧ (∀ j, j ≠ i → (t.region r.val).map[j]? = (s.region r.val).map[j]?)
          ∧ (t.region r.val).spareUsed = true ∧ (t.region r.val).copyCore = none
          ∧ s.Sends { t with regions := s.regions, logs := s.logs, poison := s.poison })))
  ∧ (∀ (s : State) (l : LogId) (r : Report) (rest : List Report), s.inReset = false → (s.log l).buf = r :: rest → ∃ t, exec (.logRecord l) s = .next t
    ∧ (t.log l).buf = rest ∧ (∀ l', logKey l' ≠ logKey l → logKey l' ≠ logKey .chip → t.log l' = s.log l')
    ∧ ((s.log l).entries.length < logCap l → t.log l = { s.log l with buf := rest, entries := (s.log l).entries ++ [r] }
        ∧ (∀ l', logKey l' ≠ logKey l → t.log l' = s.log l'))
    ∧ (logCap l ≤ (s.log l).entries.length → (t.log l).entries = (s.log l).entries ∧ (t.log l).lost = (s.log l).lost.inc (2 ^ 16 - 1)
        ∧ (t.log l).last = r.time ∧ (t.log l).first = (if (s.log l).lost.n = 0 then r.time else (s.log l).first)
        ∧ (logKey l ≠ logKey .chip → t.log .chip = { s.log .chip with buf := (s.log .chip).buf.map (fun c =>
            if r.event && c.copyOf r then { c with event := true } else c) }))
    ∧ s.Sends { t with logs := s.logs })
  ∧ (∀ s : State, exec .bypass s = .next { s with tap := { instr := .bypass, dr := 0, control := s.tap.control } }
    ∧ exec .idcode s = .next { s with tap := { instr := .idcode, dr := 0x10C324C7, control := s.tap.control } }
    ∧ (∃ t, exec .samplePreload s = .next t ∧ t.tap.instr = .samplePreload ∧ t.tap.control = s.tap.control
        ∧ t = { s with tap := t.tap, free := t.free })
    ∧ ∀ x ∈ [(Instr.extest, TapInstr.extest), (Instr.extestPulse, TapInstr.extestPulse), (Instr.extestTrain, TapInstr.extestTrain)],
        ∃ t, exec x.1 s = .next t ∧ t.tap.instr = x.2 ∧ t.tap.control = true ∧ t = { s with tap := t.tap, free := t.free })
end

