-- ==== Sys2Proof/Laws/Maps.lean ====
section
/-!
SUPPORT. The laws of keyed maps and byte memories: a read after a write, and that every memory operation keeps the canonical
form.
-/

namespace Sys2Proof

/-! ### Keyed maps -/

/-- The value at a key that was just set. -/
@[simp] theorem SMap.get_put_self {α : Type} (m : SMap α) (k : Nat) (v : α) : (m.put k v).get k = some v := by
  induction m with
  | nil => simp [SMap.put, SMap.get]
  | cons e r ih =>
    obtain ⟨a, x⟩ := e
    by_cases h1 : k < a
    · simp [SMap.put, SMap.get, h1]
    · by_cases h2 : k = a
      · simp [SMap.put, SMap.get, h2]
      · simp [SMap.put, SMap.get, h1, h2, Ne.symm h2, ih]

/-- The value at every other key is as before. -/
theorem SMap.get_put_ne {α : Type} (m : SMap α) {k j : Nat} (v : α) (h : j ≠ k) : (m.put k v).get j = m.get j := by
  induction m with
  | nil => simp [SMap.put, SMap.get, h.symm]
  | cons e r ih =>
    obtain ⟨a, x⟩ := e
    by_cases h1 : k < a
    · simp [SMap.put, SMap.get, h1, h.symm]
    · by_cases h2 : k = a
      · subst h2; simp [SMap.put, SMap.get, h.symm]
      · simp [SMap.put, SMap.get, h1, h2, ih]

/-- The value read at a key that was just set. -/
@[simp] theorem SMap.getD_put_self {α : Type} (m : SMap α) (k : Nat) (v d : α) : (m.put k v).getD k d = v := by
  simp [SMap.getD]

/-- The value read at every other key is as before. -/
theorem SMap.getD_put_ne {α : Type} (m : SMap α) {k j : Nat} (v d : α) (h : j ≠ k) : (m.put k v).getD j d = m.getD j d := by
  simp [SMap.getD, SMap.get_put_ne m v h]

/-! ### Byte memories -/

/-- A lower bound may be weakened. -/
theorem Bytes.wfFrom_mono {d : Byte} {b c : Nat} {m : Bytes} (h : Bytes.wfFrom d c m = true) (hb : b ≤ c) :
    Bytes.wfFrom d b m = true := by
  cases m with
  | nil => rfl
  | cons e r =>
    obtain ⟨a, x⟩ := e
    simp only [Bytes.wfFrom, Bool.and_eq_true, decide_eq_true_eq] at h ⊢
    exact ⟨⟨hb.trans h.1.1, h.1.2⟩, h.2⟩

/-- A byte below every listed address reads as an unlisted one. -/
theorem Bytes.read_below {d : Byte} {b k : Nat} {m : Bytes} (h : Bytes.wfFrom d b m = true) (hk : k < b) :
    Bytes.read d m k = d := by
  induction m generalizing b with
  | nil => rfl
  | cons e r ih =>
    obtain ⟨a, x⟩ := e
    simp only [Bytes.wfFrom, Bool.and_eq_true, decide_eq_true_eq] at h
    have : ¬ a = k := by omega
    simp only [Bytes.read, this, if_false]
    exact ih h.2 (by omega)

/-- The byte that was just written. -/
theorem Bytes.read_write_self {d : Byte} {b : Nat} {m : Bytes} (h : Bytes.wfFrom d b m = true) (k : Nat) (v : Byte) :
    Bytes.read d (Bytes.write d m k v) k = v := by
  induction m generalizing b with
  | nil =>
    by_cases hv : v = d <;> simp [Bytes.write, Bytes.read, hv]
  | cons e r ih =>
    obtain ⟨a, x⟩ := e
    simp only [Bytes.wfFrom, Bool.and_eq_true, decide_eq_true_eq] at h
    by_cases h1 : k < a
    · by_cases hv : v = d
      · have hr : Bytes.read d ((a, x) :: r) k = d :=
          Bytes.read_below (b := a) (by simp [Bytes.wfFrom, h.1.2, h.2]) h1
        simpa [Bytes.write, h1, hv] using hr
      · simp [Bytes.write, Bytes.read, h1, hv]
    · by_cases h2 : k = a
      · by_cases hv : v = d
        · have hr := Bytes.read_below (k := k) h.2 (by omega)
          simp only [Bytes.write, h2, hv, if_true]
          simpa [h2] using hr
        · simp [Bytes.write, Bytes.read, h2, hv]
      · simp only [Bytes.write, h1, h2, if_false, Bytes.read, Ne.symm h2]
        exact ih h.2

/-- Every other byte is as before. -/
theorem Bytes.read_write_ne (d : Byte) (m : Bytes) {k j : Nat} (v : Byte) (h : j ≠ k) :
    Bytes.read d (Bytes.write d m k v) j = Bytes.read d m j := by
  induction m with
  | nil => by_cases hv : v = d <;> simp [Bytes.write, Bytes.read, hv, h.symm]
  | cons e r ih =>
    obtain ⟨a, x⟩ := e
    by_cases h1 : k < a
    · by_cases hv : v = d <;> simp [Bytes.write, Bytes.read, h1, hv, h.symm]
    · by_cases h2 : k = a
      · subst h2
        by_cases hv : v = d <;> simp [Bytes.write, Bytes.read, hv, h.symm]
      · simp [Bytes.write, Bytes.read, h1, h2, ih]

/-- A write keeps the canonical form, with any bound that the address does not pass. -/
theorem Bytes.wfFrom_write {d : Byte} {b : Nat} {m : Bytes} (h : Bytes.wfFrom d b m = true) {k : Nat} (hk : b ≤ k) (v : Byte) :
    Bytes.wfFrom d b (Bytes.write d m k v) = true := by
  induction m generalizing b with
  | nil => by_cases hv : v = d <;> simp [Bytes.write, Bytes.wfFrom, hv, hk]
  | cons e r ih =>
    obtain ⟨a, x⟩ := e
    have h' := h
    simp only [Bytes.wfFrom, Bool.and_eq_true, decide_eq_true_eq] at h
    by_cases h1 : k < a
    · by_cases hv : v = d
      · simpa [Bytes.write, h1, hv] using h'
      · simp [Bytes.write, Bytes.wfFrom, h1, hv, hk, h.1.2, h.2, Nat.succ_le_of_lt h1]
    · by_cases h2 : k = a
      · by_cases hv : v = d
        · simp only [Bytes.write, h2, hv, if_true]
          simpa using Bytes.wfFrom_mono h.2 (by omega)
        · simp [Bytes.write, Bytes.wfFrom, h2, hv, h.2, h.1.1]
      · simp only [Bytes.write, h1, h2, if_false, Bytes.wfFrom, h.1.2, h.1.1, decide_true, Bool.true_and]
        exact ih h.2 (by omega)

/-- Consecutive writes keep the canonical form. -/
theorem Bytes.wfFrom_writeN {d : Byte} {m : Bytes} (h : Bytes.wfFrom d 0 m = true) (a : Nat) (bs : List Byte) :
    Bytes.wfFrom d 0 (Bytes.writeN d m a bs) = true := by
  induction bs generalizing m a with
  | nil => exact h
  | cons x r ih => exact ih (Bytes.wfFrom_write h (Nat.zero_le a) x) (a + 1)

/-- Consecutive writes leave every byte outside them as it was. -/
theorem Bytes.read_writeN_ne (d : Byte) (m : Bytes) (a : Nat) (bs : List Byte) {j : Nat} (h : j < a ∨ a + bs.length ≤ j) :
    Bytes.read d (Bytes.writeN d m a bs) j = Bytes.read d m j := by
  induction bs generalizing m a with
  | nil => rfl
  | cons x r ih =>
    simp only [List.length_cons] at h
    rw [Bytes.writeN, ih _ _ (by omega), Bytes.read_write_ne d m x (by omega)]

/-- A part of a memory chosen by address is canonical. -/
theorem Bytes.wfFrom_filter {d : Byte} {b : Nat} {m : Bytes} (h : Bytes.wfFrom d b m = true) (p : Nat × Byte → Bool) :
    Bytes.wfFrom d b (List.filter p m) = true := by
  induction m generalizing b with
  | nil => rfl
  | cons e r ih =>
    obtain ⟨a, x⟩ := e
    simp only [Bytes.wfFrom, Bool.and_eq_true, decide_eq_true_eq] at h
    by_cases hp : p (a, x)
    · simp only [List.filter_cons, hp, if_true, Bytes.wfFrom, h.1.1, h.1.2, decide_true, Bool.true_and]
      exact ih h.2
    · simp only [List.filter_cons, hp]
      exact Bytes.wfFrom_mono (ih h.2) (by omega)

end Sys2Proof
end

