-- ==== Sys2Proof/Laws/Sends.lean ====
section
/-!
SUPPORT. What sending messages, completions and reports of counters changes, and the checks 1 to 5 that a new message passes.
-/

namespace Sys2Proof.Machine

/-- Nothing sent. -/
theorem State.Sends.refl (s : State) : s.Sends s := ⟨rfl, fun _ => rfl⟩

/-- One sending after another. -/
theorem State.Sends.trans {s t u : State} (h : s.Sends t) (k : t.Sends u) : s.Sends u where
  rest := by
    conv_lhs => rw [k.rest]
    conv_lhs => rw [h.rest]
  pans := fun p => by
    conv_lhs => rw [k.pans p]
    conv_lhs => rw [h.pans p]

/-- A change of what sending changes. -/
theorem sends_upd {s0 A : State} {x_counts x_hportA x_hportB x_bports x_comps x_sets} (h : s0.Sends A) :
    s0.Sends (State.mk A.pending A.nclk A.free A.power A.thermal A.avs A.tide A.ready A.coreReady A.rsvdWrite A.rsvdSrc A.rsvdAddr
      A.regs x_counts A.logs A.regions A.wear A.bist A.attrib x_hportA x_hportB A.hcfg A.heldReads x_bports A.queues
      A.windows A.staged A.sems A.transfers x_comps A.nextComp A.sec A.ledger A.tap A.mem A.poison A.corrected
      A.full A.dirty A.sel A.cores A.pans A.xacts A.hbus A.pageCrc A.waits A.svc A.jobs A.nextJob A.priors
      A.shortfall A.loops A.pairs A.traces A.loopEng A.ingest x_sets) where
  rest := by
    conv_lhs => rw [h.rest]
  pans := h.pans

/-- Sending for each element of a list. -/
theorem sends_foldl {α : Type} (f : State → α → State) (l : List α) (s0 : State) {s : State}
    (hf : ∀ s x, s0.Sends s → s0.Sends (f s x)) (h : s0.Sends s) : s0.Sends (l.foldl f s) := by
  induction l generalizing s with
  | nil => exact h
  | cons a r ih => exact ih (hf s a h)

/-- The state beside something else. -/
theorem sends_eq2 {s0 t : State} {α : Type} {x : α × State} {a : α} (e : x = (a, t)) (h : s0.Sends x.2) : s0.Sends t := by
  subst e
  exact h

/-- A host port changed. -/
theorem State.onHport_sends (p : Port) (f : HPort → HPort) {s0 s : State} (h : s0.Sends s) : s0.Sends (s.onHport p f) := by
  cases p <;> exact sends_upd h

/-- A pan's sluices changed. -/
theorem State.onPan_sends (p : Nat) (f : Pan → Pan)
    (hf : ∀ x, f x = { x with levels := (f x).levels, waitingTok := (f x).waitingTok, asked := (f x).asked }) {s0 s : State} (h : s0.Sends s) :
    s0.Sends (s.onPan p f) where
  rest := by
    unfold State.onPan
    conv_lhs => rw [h.rest]
    rfl
  pans := fun q => by
    by_cases e : q = p
    · subst e
      have hq : (s.onPan q f).pan q = f (s.pan q) := SMap.getD_put_self _ _ _ _
      rw [hq, hf (s.pan q)]
      have hs := h.pans q
      generalize f (s.pan q) = z
      generalize s.pan q = x at hs
      generalize s0.pan q = y at hs
      cases x
      cases y
      simp only [Pan.mk.injEq] at hs ⊢
      simp only [hs, and_self]
    · simp only [State.onPan, State.pan, SMap.getD_put_ne _ _ _ e]
      exact h.pans q

theorem State.kick_sends (p : Nat) {s0 s : State} (h0 : s0.Sends s) : s0.Sends (State.kick s p) := by
  unfold State.kick
  repeat' first
    | with_reducible assumption
    | dsimp only
    | split
    | refine sends_upd ?_

theorem State.enqueue_sends (p : Nat) (f : TxFrame) {s0 s : State} (h0 : s0.Sends s) : s0.Sends (State.enqueue s p f) := by
  unfold State.enqueue
  repeat' first
    | with_reducible assumption
    | dsimp only
    | split
    | with_reducible refine State.kick_sends _ ?_
    | refine sends_upd ?_

theorem State.transmit_sends (f : OutFrame) {s0 s : State} (h0 : s0.Sends s) : s0.Sends (State.transmit s f) := by
  unfold State.transmit
  repeat' first
    | with_reducible assumption
    | dsimp only
    | split
    | with_reducible refine State.enqueue_sends _ _ ?_
    | refine sends_upd ?_

theorem State.handNow_sends (f : OutFrame) {s0 s : State} (h0 : s0.Sends s) : s0.Sends (State.handNow s f) := by
  refine State.transmit_sends _ ?_
  dsimp only
  split
  · exact State.onHport_sends _ _ h0
  · exact h0

theorem State.handFrame_sends (f : OutFrame) {s0 s : State} (h0 : s0.Sends s) : s0.Sends (State.handFrame s f) := by
  unfold State.handFrame
  dsimp only
  split
  · split
    · exact State.handNow_sends _ h0
    · exact State.onHport_sends _ _ h0
  · exact State.handNow_sends _ h0

theorem State.numberMsg_sends (p : Port) (m : OutMsg) {s0 s : State} (h0 : s0.Sends s) : s0.Sends (State.numberMsg s p m).2 := by
  unfold State.numberMsg
  repeat' first
    | with_reducible assumption
    | dsimp only
    | split
    | with_reducible refine State.onHport_sends _ _ ?_
    | refine sends_upd ?_

theorem State.sendMsg_sends (p : Port) (m : OutMsg) {s0 s : State} (h0 : s0.Sends s) : s0.Sends (State.sendMsg s p m).2 := by
  unfold State.sendMsg
  repeat' first
    | with_reducible assumption
    | dsimp only
    | split
    | with_reducible refine sends_eq2 (by assumption) ?_
    | with_reducible refine State.numberMsg_sends _ _ ?_
    | with_reducible refine State.handFrame_sends _ ?_
    | with_reducible refine sends_foldl _ _ _ (fun _ _ _ => ?_) ?_
    | refine sends_upd ?_

theorem State.eventOn_sends (p : Port) (kind : Nat) (subject : Nat) (body : List Byte) {s0 s : State} (h0 : s0.Sends s) : s0.Sends (State.eventOn s p kind subject body) := by
  unfold State.eventOn
  repeat' first
    | with_reducible assumption
    | dsimp only
    | split
    | with_reducible refine sends_eq2 (by assumption) ?_
    | with_reducible refine State.sendMsg_sends _ _ ?_

theorem State.event_sends (kind : Nat) (subject : Nat) (body : List Byte) {s0 s : State} (h0 : s0.Sends s) : s0.Sends (State.event s kind subject body) := by
  unfold State.event
  repeat' first
    | with_reducible assumption
    | dsimp only
    | split
    | with_reducible refine State.eventOn_sends _ _ _ _ ?_

theorem State.note_sends (r : Reg) (f : Nat → Nat) {s0 s : State} (h0 : s0.Sends s) : s0.Sends (s.note r f) := sends_upd h0

theorem State.bump_sends (c : Ctr) {s0 s : State} (h0 : s0.Sends s) : s0.Sends (State.bump s c) := by
  unfold State.bump
  dsimp only
  split
  · exact State.event_sends _ _ _ (State.note_sends _ _ (sends_upd h0))
  · exact State.note_sends _ _ (sends_upd h0)

theorem State.answerMsg_sends (h : SqpHdr) (type : Byte) (gen : BitVec 16) (payload : List Byte) (keep : Bool) {s0 s : State} (h0 : s0.Sends s) : s0.Sends (State.answerMsg s h type gen payload keep) := by
  unfold State.answerMsg
  repeat' first
    | with_reducible assumption
    | dsimp only
    | split
    | with_reducible refine sends_eq2 (by assumption) ?_
    | with_reducible refine State.sendMsg_sends _ _ ?_
    | with_reducible refine State.onHport_sends _ _ ?_
    | refine sends_upd ?_

theorem State.nak_sends (h : SqpHdr) (r : Reason) (detail : Nat) {s0 s : State} (h0 : s0.Sends s) : s0.Sends (State.nak s h r detail) := by
  unfold State.nak
  repeat' first
    | with_reducible assumption
    | dsimp only
    | split
    | with_reducible refine State.answerMsg_sends _ _ _ _ _ ?_

theorem State.nakUnkept_sends (h : SqpHdr) (r : Reason) {s0 s : State} (h0 : s0.Sends s) : s0.Sends (State.nakUnkept s h r) := by
  unfold State.nakUnkept
  repeat' first
    | with_reducible assumption
    | dsimp only
    | split
    | with_reducible refine State.answerMsg_sends _ _ _ _ _ ?_

theorem State.okGen_sends (h : SqpHdr) (gen : BitVec 16) {s0 s : State} (h0 : s0.Sends s) : s0.Sends (State.okGen s h gen) := by
  unfold State.okGen
  repeat' first
    | with_reducible assumption
    | dsimp only
    | split
    | with_reducible refine State.answerMsg_sends _ _ _ _ _ ?_

theorem State.deferAnswer_sends (h : SqpHdr) {s0 s : State} (h0 : s0.Sends s) : s0.Sends (State.deferAnswer s h) := by
  unfold State.deferAnswer
  repeat' first
    | with_reducible assumption
    | dsimp only
    | split
    | with_reducible refine State.onHport_sends _ _ ?_

theorem State.againAnswer_sends (h : SqpHdr) {s0 s : State} (h0 : s0.Sends s) : s0.Sends (State.againAnswer s h) := by
  unfold State.againAnswer
  repeat' first
    | with_reducible assumption
    | dsimp only
    | split
    | with_reducible refine State.onHport_sends _ _ ?_

theorem State.charge_sends (p : Nat) (b : Bucket) (n : Nat) {s0 s : State} (h0 : s0.Sends s) : s0.Sends (State.charge s p b n) := by
  unfold State.charge
  repeat' first
    | with_reducible assumption
    | dsimp only
    | split
    | with_reducible refine State.onPan_sends _ _ (fun _ => rfl) ?_

theorem State.chargeBy_sends (p : Nat) (b : Bucket) (k : Nat) (n : Nat) {s0 s : State} (h0 : s0.Sends s) : s0.Sends (State.chargeBy s p b k n) := by
  unfold State.chargeBy
  repeat' first
    | with_reducible assumption
    | dsimp only
    | split
    | with_reducible refine State.charge_sends _ _ _ ?_
    | with_reducible refine sends_foldl _ _ _ (fun _ _ _ => ?_) ?_

theorem State.sendComp_sends (c : CompRec) (q : QueueSt) (x : Port × HostAddr) {s0 s : State} (h0 : s0.Sends s) : s0.Sends (State.sendComp s c q x) := by
  unfold State.sendComp
  repeat' first
    | with_reducible assumption
    | dsimp only
    | split
    | with_reducible refine sends_eq2 (by assumption) ?_
    | with_reducible refine State.sendMsg_sends _ _ ?_
    | refine sends_upd ?_

theorem State.giveFrame_sends (f : OutFrame) (again : Bool) {s0 s : State} (h0 : s0.Sends s) : s0.Sends (State.giveFrame s f again) := by
  unfold State.giveFrame
  repeat' first
    | with_reducible assumption
    | dsimp only
    | split
    | with_reducible refine State.handFrame_sends _ ?_
    | with_reducible refine State.transmit_sends _ ?_
    | refine sends_upd ?_

theorem State.paceFrame_sends (pan : Option Nat) (f : OutFrame) (again : Bool) {s0 s : State} (h0 : s0.Sends s) : s0.Sends (State.paceFrame s pan f again) := by
  unfold State.paceFrame
  repeat' first
    | with_reducible assumption
    | dsimp only
    | split
    | with_reducible refine State.giveFrame_sends _ _ ?_
    | with_reducible refine State.charge_sends _ _ _ ?_
    | with_reducible refine State.onHport_sends _ _ ?_
    | refine sends_upd ?_

theorem State.sendPaced_sends (pan : Option Nat) (p : Port) (m : OutMsg) {s0 s : State} (h0 : s0.Sends s) : s0.Sends (State.sendPaced s pan p m) := by
  unfold State.sendPaced
  repeat' first
    | with_reducible assumption
    | dsimp only
    | split
    | with_reducible refine sends_eq2 (by assumption) ?_
    | with_reducible refine State.numberMsg_sends _ _ ?_
    | with_reducible refine State.paceFrame_sends _ _ _ ?_
    | with_reducible refine sends_foldl _ _ _ (fun _ _ _ => ?_) ?_
    | refine sends_upd ?_

theorem State.payFrames_sends (p : Nat) (l : List Nat) {s0 s : State} (h0 : s0.Sends s) : s0.Sends (State.payFrames p l s).2 := by
  induction l generalizing s with
  | nil => exact h0
  | cons n r ih =>
    unfold State.payFrames
    split
    · exact State.onPan_sends _ (fun x => { x with waitingTok := x.waitingTok ++ [(4, n)] }) (fun _ => by rfl) h0
    · exact ih (State.charge_sends _ _ _ h0)

theorem State.dropComp_sends (id : Nat) {s0 s : State} (h0 : s0.Sends s) : s0.Sends (State.dropComp s id) :=
  State.onHport_sends .b (fun h => h.dropMsg id) (State.onHport_sends .a (fun h => h.dropMsg id)
    (s := { s with comps := s.comps.filter (fun c => c.id ≠ id) }) (sends_upd h0))

theorem State.markSent_sends (p : Port) (id : Nat) {s0 s : State} (h0 : s0.Sends s) : s0.Sends (State.markSent s p id) := by
  unfold State.markSent
  repeat' first
    | with_reducible assumption
    | dsimp only
    | split
    | refine sends_upd ?_

theorem State.pumpN_sends (p : Port) (n : Nat) {s0 s : State} (h0 : s0.Sends s) : s0.Sends (State.pumpN p n s) := by
  induction n generalizing s with
  | zero => exact h0
  | succ n ih =>
    unfold State.pumpN
    split
    · exact h0
    · split
      · exact h0
      · split
        · exact ih (State.bump_sends _ (State.dropComp_sends _ h0))
        · exact ih (State.markSent_sends _ _ (State.handNow_sends _ (State.onHport_sends _ _ h0)))

theorem State.pumpWaiting_sends (p : Port) {s0 s : State} (h0 : s0.Sends s) : s0.Sends (State.pumpWaiting s p) :=
  State.pumpN_sends p _ h0

theorem State.freeComp_sends (id : Nat) {s0 s : State} (h0 : s0.Sends s) : s0.Sends (State.freeComp s id) :=
  State.pumpWaiting_sends _ (State.pumpWaiting_sends _ (State.dropComp_sends _ h0))

theorem State.tryComp_sends (c : CompRec) {s0 s : State} (h0 : s0.Sends s) : s0.Sends (State.tryComp s c) := by
  have hs {q : QueueSt} {ps : List (Port × HostAddr)} {t : State} (h : s0.Sends t) : s0.Sends (ps.foldl (fun s x => s.sendComp c q x) t) :=
    sends_foldl _ _ _ (fun _ _ k => State.sendComp_sends _ _ _ k) h
  have hm {ps : List (Port × HostAddr)} {t : State} (h : s0.Sends t) : s0.Sends (ps.foldl (fun s x => s.markSent x.1 c.id) t) :=
    sends_foldl _ _ _ (fun _ _ k => State.markSent_sends _ _ k) h
  unfold State.tryComp
  dsimp only
  split
  · exact h0
  · split
    · exact State.bump_sends _ (sends_upd h0)
    · split
      · exact sends_upd h0
      · split
        · exact h0
        · split
          · have hp := State.payFrames_sends ((Option.map QueueCfg.pan (s.queueCfg c.queue)).getD 0)
              (List.drop c.paid (s.compFrames c (s.compPorts (s.queue c.queue)))) h0
            split
            · exact sends_upd hp
            · split
              · exact hm (sends_upd (hs hp))
              · exact State.freeComp_sends _ (hs hp)
          · split
            · exact sends_upd h0
            · split
              · exact hm (sends_upd (hs h0))
              · exact State.freeComp_sends _ (hs h0)

theorem State.flushComps_sends {s0 s : State} (h0 : s0.Sends s) : s0.Sends (State.flushComps s) := by
  unfold State.flushComps
  repeat' first
    | with_reducible assumption
    | dsimp only
    | split
    | with_reducible refine State.tryComp_sends _ ?_
    | with_reducible refine sends_foldl _ _ _ (fun _ _ _ => ?_) ?_

theorem State.resendFrame_sends (f : OutFrame) {s0 s : State} (h0 : s0.Sends s) : s0.Sends (State.resendFrame s f) := by
  unfold State.resendFrame
  repeat' first
    | with_reducible assumption
    | dsimp only
    | split
    | with_reducible refine State.bump_sends _ ?_
    | with_reducible refine State.paceFrame_sends _ _ _ ?_
    | refine sends_upd ?_

theorem State.revive_sends (p : Port) {s0 s : State} (h0 : s0.Sends s) : s0.Sends (State.revive s p) := by
  unfold State.revive
  repeat' first
    | with_reducible assumption
    | dsimp only
    | split
    | with_reducible refine State.resendFrame_sends _ ?_
    | with_reducible refine State.pumpWaiting_sends _ ?_
    | with_reducible refine State.flushComps_sends ?_
    | with_reducible refine State.onHport_sends _ _ ?_
    | with_reducible refine sends_foldl _ _ _ (fun _ _ _ => ?_) ?_

theorem State.recordAddr_sends (h : SqpHdr) {s0 s : State} (h0 : s0.Sends s) : s0.Sends (State.recordAddr s h) := by
  unfold State.recordAddr
  repeat' first
    | with_reducible assumption
    | dsimp only
    | split
    | with_reducible refine State.flushComps_sends ?_
    | with_reducible refine State.onHport_sends _ _ ?_

theorem State.duplicate_sends (h : SqpHdr) (a : Answer) {s0 s : State} (h0 : s0.Sends s) : s0.Sends (State.duplicate s h a).2 := by
  unfold State.duplicate
  repeat' first
    | with_reducible assumption
    | dsimp only
    | split
    | with_reducible refine State.bump_sends _ ?_
    | with_reducible refine State.transmit_sends _ ?_
    | with_reducible refine sends_foldl _ _ _ (fun _ _ _ => ?_) ?_

theorem State.sequence_sends (h : SqpHdr) (mark : Bool) {s0 s : State} (h0 : s0.Sends s) : s0.Sends (State.sequence s h mark).2 := by
  unfold State.sequence
  repeat' first
    | with_reducible assumption
    | dsimp only
    | split
    | with_reducible refine sends_eq2 (by assumption) ?_
    | with_reducible refine State.duplicate_sends _ _ ?_
    | with_reducible refine State.bump_sends _ ?_
    | with_reducible refine State.onHport_sends _ _ ?_

theorem State.accept_sends (h : SqpHdr) (known : Bool) (mark : Bool) {s0 s : State} (h0 : s0.Sends s) : s0.Sends (State.accept s h known mark).2 := by
  unfold State.accept
  repeat' first
    | with_reducible assumption
    | dsimp only
    | split
    | with_reducible refine sends_eq2 (by assumption) ?_
    | with_reducible refine State.bump_sends _ ?_
    | with_reducible refine State.revive_sends _ ?_
    | with_reducible refine State.nakUnkept_sends _ _ ?_
    | with_reducible refine State.recordAddr_sends _ ?_
    | with_reducible refine State.sequence_sends _ _ ?_

theorem State.queueEvent_sends (q : Nat) (cause : Nat) {s0 s : State} (h0 : s0.Sends s) : s0.Sends (State.queueEvent s q cause) := by
  unfold State.queueEvent
  repeat' first
    | with_reducible assumption
    | dsimp only
    | split
    | with_reducible refine State.sendPaced_sends _ _ _ ?_
    | with_reducible refine sends_foldl _ _ _ (fun _ _ _ => ?_) ?_
    | refine sends_upd ?_

theorem State.holdComp_sends (p : Port) (id : Nat) {s0 s : State} (h0 : s0.Sends s) : s0.Sends (State.holdComp s p id) :=
  sends_upd (State.pumpWaiting_sends p (State.onHport_sends p (fun h => h.dropMsg id) h0))

theorem State.hostAck_sends (p : Port) (ack : Word) {s0 s : State} (h0 : s0.Sends s) : s0.Sends (State.hostAck s p ack) := by
  unfold State.hostAck
  repeat' first
    | with_reducible assumption
    | dsimp only
    | split
    | with_reducible refine State.freeComp_sends _ ?_
    | with_reducible refine State.pumpWaiting_sends _ ?_
    | with_reducible refine State.flushComps_sends ?_
    | with_reducible refine State.onHport_sends _ _ ?_

theorem State.staleQueue_sends (h : SqpHdr) {s0 s : State} (h0 : s0.Sends s) : s0.Sends (State.staleQueue s h) := by
  unfold State.staleQueue
  repeat' first
    | with_reducible assumption
    | dsimp only
    | split
    | with_reducible refine State.bump_sends _ ?_
    | with_reducible refine State.nak_sends _ _ _ ?_

/-! ### Checks 1 to 5 of a new message -/

/-- The newest SEQ that each port has met is the same. -/
def State.SameSeq (s t : State) : Prop := ∀ p, (t.hport p).fresh = (s.hport p).fresh ∧ (t.hport p).high = (s.hport p).high

theorem sameSeq_foldl {α : Type} (f : State → α → State) (l : List α) (s0 : State) {s : State}
    (hf : ∀ s x, s0.SameSeq s → s0.SameSeq (f s x)) (h : s0.SameSeq s) : s0.SameSeq (l.foldl f s) := by
  induction l generalizing s with
  | nil => exact h
  | cons a r ih => exact ih (hf s a h)

/-- The state beside something else. -/
theorem sameSeq_eq2 {s0 t : State} {α : Type} {x : α × State} {a : α} (e : x = (a, t)) (h : s0.SameSeq x.2) : s0.SameSeq t := by
  subst e
  exact h

/-- A change of something else. -/
theorem sameSeq_upd {s0 A : State} {x_pending x_free x_power x_thermal x_avs x_tide x_ready x_coreReady x_rsvdWrite x_rsvdSrc x_rsvdAddr x_regs x_counts x_logs x_regions x_wear x_bist x_attrib HA HB x_hcfg x_heldReads x_bports x_queues x_windows x_staged x_sems x_transfers x_comps x_nextComp x_sec x_ledger x_tap x_mem x_poison x_corrected x_full x_dirty x_sel x_cores x_pans x_xacts x_hbus x_pageCrc x_waits x_svc x_jobs x_nextJob x_priors x_shortfall x_loops x_pairs x_traces x_loopEng x_ingest x_sets} (h : s0.SameSeq A) (ha : (HA.fresh, HA.high) = (A.hportA.fresh, A.hportA.high))
    (hb : (HB.fresh, HB.high) = (A.hportB.fresh, A.hportB.high)) :
    s0.SameSeq (State.mk x_pending A.nclk x_free x_power x_thermal x_avs x_tide x_ready x_coreReady x_rsvdWrite x_rsvdSrc x_rsvdAddr
      x_regs x_counts x_logs x_regions x_wear x_bist x_attrib HA HB x_hcfg x_heldReads x_bports x_queues x_windows
      x_staged x_sems x_transfers x_comps x_nextComp x_sec x_ledger x_tap x_mem x_poison x_corrected x_full x_dirty
      x_sel x_cores x_pans x_xacts x_hbus x_pageCrc x_waits x_svc x_jobs x_nextJob x_priors x_shortfall x_loops
      x_pairs x_traces x_loopEng x_ingest x_sets) := by
  intro p
  have := h p
  cases p
  · exact ⟨(congrArg Prod.fst ha).trans this.1, (congrArg Prod.snd ha).trans this.2⟩
  · exact ⟨(congrArg Prod.fst hb).trans this.1, (congrArg Prod.snd hb).trans this.2⟩

theorem State.onHport_sameSeq (p : Port) (f : HPort → HPort) (hf : ∀ h, (f h).fresh = h.fresh ∧ (f h).high = h.high) {s0 s : State}
    (h : s0.SameSeq s) : s0.SameSeq (s.onHport p f) := by
  intro q
  have := h q
  cases p <;> cases q <;> first
    | exact ⟨(hf _).1.trans this.1, (hf _).2.trans this.2⟩
    | exact this

theorem State.onPan_sameSeq (p : Nat) (f : Pan → Pan) {s0 s : State} (h : s0.SameSeq s) : s0.SameSeq (s.onPan p f) :=
  sameSeq_upd h rfl rfl

theorem State.kick_sameSeq (p : Nat) {s0 s : State} (h0 : s0.SameSeq s) : s0.SameSeq (State.kick s p) := by
  unfold State.kick
  repeat' first
    | with_reducible assumption
    | dsimp only
    | split
    | refine sameSeq_upd ?_ rfl rfl

theorem State.enqueue_sameSeq (p : Nat) (f : TxFrame) {s0 s : State} (h0 : s0.SameSeq s) : s0.SameSeq (State.enqueue s p f) := by
  unfold State.enqueue
  repeat' first
    | with_reducible assumption
    | dsimp only
    | split
    | with_reducible refine State.kick_sameSeq _ ?_
    | refine sameSeq_upd ?_ rfl rfl

theorem State.transmit_sameSeq (f : OutFrame) {s0 s : State} (h0 : s0.SameSeq s) : s0.SameSeq (State.transmit s f) := by
  unfold State.transmit
  repeat' first
    | with_reducible assumption
    | dsimp only
    | split
    | with_reducible refine State.enqueue_sameSeq _ _ ?_
    | refine sameSeq_upd ?_ rfl rfl

theorem State.handNow_sameSeq (f : OutFrame) {s0 s : State} (h0 : s0.SameSeq s) : s0.SameSeq (State.handNow s f) := by
  refine State.transmit_sameSeq _ ?_
  dsimp only
  split
  · exact State.onHport_sameSeq _ _ (fun _ => ⟨by rfl, by rfl⟩) h0
  · exact h0

theorem State.handFrame_sameSeq (f : OutFrame) {s0 s : State} (h0 : s0.SameSeq s) : s0.SameSeq (State.handFrame s f) := by
  unfold State.handFrame
  dsimp only
  split
  · split
    · exact State.handNow_sameSeq _ h0
    · exact State.onHport_sameSeq _ _ (fun _ => ⟨by rfl, by rfl⟩) h0
  · exact State.handNow_sameSeq _ h0

theorem State.numberMsg_sameSeq (p : Port) (m : OutMsg) {s0 s : State} (h0 : s0.SameSeq s) : s0.SameSeq (State.numberMsg s p m).2 := by
  unfold State.numberMsg
  repeat' first
    | with_reducible assumption
    | dsimp only
    | split
    | refine State.onHport_sameSeq _ _ (fun _ => ⟨rfl, rfl⟩) ?_
    | refine sameSeq_upd ?_ rfl rfl

theorem State.sendMsg_sameSeq (p : Port) (m : OutMsg) {s0 s : State} (h0 : s0.SameSeq s) : s0.SameSeq (State.sendMsg s p m).2 := by
  unfold State.sendMsg
  repeat' first
    | with_reducible assumption
    | dsimp only
    | split
    | with_reducible refine sameSeq_eq2 (by assumption) ?_
    | with_reducible refine State.numberMsg_sameSeq _ _ ?_
    | with_reducible refine State.handFrame_sameSeq _ ?_
    | with_reducible refine sameSeq_foldl _ _ _ (fun _ _ _ => ?_) ?_
    | refine sameSeq_upd ?_ rfl rfl

theorem State.eventOn_sameSeq (p : Port) (kind : Nat) (subject : Nat) (body : List Byte) {s0 s : State} (h0 : s0.SameSeq s) : s0.SameSeq (State.eventOn s p kind subject body) := by
  unfold State.eventOn
  repeat' first
    | with_reducible assumption
    | dsimp only
    | split
    | with_reducible refine sameSeq_eq2 (by assumption) ?_
    | with_reducible refine State.sendMsg_sameSeq _ _ ?_

theorem State.event_sameSeq (kind : Nat) (subject : Nat) (body : List Byte) {s0 s : State} (h0 : s0.SameSeq s) : s0.SameSeq (State.event s kind subject body) := by
  unfold State.event
  repeat' first
    | with_reducible assumption
    | dsimp only
    | split
    | with_reducible refine State.eventOn_sameSeq _ _ _ _ ?_

theorem State.note_sameSeq (r : Reg) (f : Nat → Nat) {s0 s : State} (h0 : s0.SameSeq s) : s0.SameSeq (s.note r f) := sameSeq_upd h0 rfl rfl

theorem State.bump_sameSeq (c : Ctr) {s0 s : State} (h0 : s0.SameSeq s) : s0.SameSeq (State.bump s c) := by
  unfold State.bump
  dsimp only
  split
  · exact State.event_sameSeq _ _ _ (State.note_sameSeq _ _ (sameSeq_upd h0 rfl rfl))
  · exact State.note_sameSeq _ _ (sameSeq_upd h0 rfl rfl)

theorem State.charge_sameSeq (p : Nat) (b : Bucket) (n : Nat) {s0 s : State} (h0 : s0.SameSeq s) : s0.SameSeq (State.charge s p b n) := by
  unfold State.charge
  repeat' first
    | with_reducible assumption
    | dsimp only
    | split
    | with_reducible refine State.onPan_sameSeq _ _ ?_

theorem State.sendComp_sameSeq (c : CompRec) (q : QueueSt) (x : Port × HostAddr) {s0 s : State} (h0 : s0.SameSeq s) : s0.SameSeq (State.sendComp s c q x) := by
  unfold State.sendComp
  repeat' first
    | with_reducible assumption
    | dsimp only
    | split
    | with_reducible refine sameSeq_eq2 (by assumption) ?_
    | with_reducible refine State.sendMsg_sameSeq _ _ ?_
    | refine sameSeq_upd ?_ rfl rfl

theorem State.payFrames_sameSeq (p : Nat) (l : List Nat) {s0 s : State} (h0 : s0.SameSeq s) : s0.SameSeq (State.payFrames p l s).2 := by
  induction l generalizing s with
  | nil => exact h0
  | cons n r ih =>
    unfold State.payFrames
    split
    · exact State.onPan_sameSeq _ (fun x => { x with waitingTok := x.waitingTok ++ [(4, n)] }) h0
    · exact ih (State.charge_sameSeq _ _ _ h0)

theorem State.dropComp_sameSeq (id : Nat) {s0 s : State} (h0 : s0.SameSeq s) : s0.SameSeq (State.dropComp s id) :=
  State.onHport_sameSeq .b (fun h => h.dropMsg id) (fun _ => ⟨by rfl, by rfl⟩) (State.onHport_sameSeq .a (fun h => h.dropMsg id) (fun _ => ⟨by rfl, by rfl⟩)
    (s := { s with comps := s.comps.filter (fun c => c.id ≠ id) }) (sameSeq_upd h0 rfl rfl))

theorem State.markSent_sameSeq (p : Port) (id : Nat) {s0 s : State} (h0 : s0.SameSeq s) : s0.SameSeq (State.markSent s p id) := by
  unfold State.markSent
  repeat' first
    | with_reducible assumption
    | dsimp only
    | split
    | refine sameSeq_upd ?_ rfl rfl

theorem State.pumpN_sameSeq (p : Port) (n : Nat) {s0 s : State} (h0 : s0.SameSeq s) : s0.SameSeq (State.pumpN p n s) := by
  induction n generalizing s with
  | zero => exact h0
  | succ n ih =>
    unfold State.pumpN
    split
    · exact h0
    · split
      · exact h0
      · split
        · exact ih (State.bump_sameSeq _ (State.dropComp_sameSeq _ h0))
        · exact ih (State.markSent_sameSeq _ _ (State.handNow_sameSeq _ (State.onHport_sameSeq _ _ (fun _ => ⟨by rfl, by rfl⟩) h0)))

theorem State.pumpWaiting_sameSeq (p : Port) {s0 s : State} (h0 : s0.SameSeq s) : s0.SameSeq (State.pumpWaiting s p) :=
  State.pumpN_sameSeq p _ h0

theorem State.freeComp_sameSeq (id : Nat) {s0 s : State} (h0 : s0.SameSeq s) : s0.SameSeq (State.freeComp s id) :=
  State.pumpWaiting_sameSeq _ (State.pumpWaiting_sameSeq _ (State.dropComp_sameSeq _ h0))

theorem State.tryComp_sameSeq (c : CompRec) {s0 s : State} (h0 : s0.SameSeq s) : s0.SameSeq (State.tryComp s c) := by
  have hs {q : QueueSt} {ps : List (Port × HostAddr)} {t : State} (h : s0.SameSeq t) : s0.SameSeq (ps.foldl (fun s x => s.sendComp c q x) t) :=
    sameSeq_foldl _ _ _ (fun _ _ k => State.sendComp_sameSeq _ _ _ k) h
  have hm {ps : List (Port × HostAddr)} {t : State} (h : s0.SameSeq t) : s0.SameSeq (ps.foldl (fun s x => s.markSent x.1 c.id) t) :=
    sameSeq_foldl _ _ _ (fun _ _ k => State.markSent_sameSeq _ _ k) h
  unfold State.tryComp
  dsimp only
  split
  · exact h0
  · split
    · exact State.bump_sameSeq _ (sameSeq_upd h0 rfl rfl)
    · split
      · exact sameSeq_upd h0 rfl rfl
      · split
        · exact h0
        · split
          · have hp := State.payFrames_sameSeq ((Option.map QueueCfg.pan (s.queueCfg c.queue)).getD 0)
              (List.drop c.paid (s.compFrames c (s.compPorts (s.queue c.queue)))) h0
            split
            · exact sameSeq_upd hp rfl rfl
            · split
              · exact hm (sameSeq_upd (hs hp) rfl rfl)
              · exact State.freeComp_sameSeq _ (hs hp)
          · split
            · exact sameSeq_upd h0 rfl rfl
            · split
              · exact hm (sameSeq_upd (hs h0) rfl rfl)
              · exact State.freeComp_sameSeq _ (hs h0)

theorem State.flushComps_sameSeq {s0 s : State} (h0 : s0.SameSeq s) : s0.SameSeq (State.flushComps s) := by
  unfold State.flushComps
  repeat' first
    | with_reducible assumption
    | dsimp only
    | split
    | with_reducible refine State.tryComp_sameSeq _ ?_
    | with_reducible refine sameSeq_foldl _ _ _ (fun _ _ _ => ?_) ?_

theorem State.recordAddr_sameSeq (h : SqpHdr) {s0 s : State} (h0 : s0.SameSeq s) : s0.SameSeq (State.recordAddr s h) :=
  State.flushComps_sameSeq (State.onHport_sameSeq _ _ (fun _ => ⟨by rfl, by rfl⟩) h0)

/-- A message that passes checks 1 to 5 as a new one goes on, and the checks do no more than record its sender, flush what was held for
it and note its SEQ. -/
theorem State.accept_gets {s : State} {h : SqpHdr} (g : s.Gets h) :
    (s.accept h true true).1 = true ∧ s.Sends (s.accept h true true).2 := by
  refine ⟨?_, State.accept_sends h true true (State.Sends.refl s)⟩
  have hr : s.revive h.port = s := by simp [State.revive, g.responsive]
  have hq := State.recordAddr_sameSeq h (fun _ => ⟨rfl, rfl⟩ : s.SameSeq s) h.port
  unfold State.accept
  simp only [g.crc, g.length, g.version, g.port, hr]
  have h32 : ¬ 32 + h.length.toNat < 32 := by omega
  simp only [h32, decide_false, Bool.not_true, Bool.or_self, Bool.false_eq_true, if_false, ne_eq, not_true_eq_false]
  unfold State.sequence
  dsimp only
  rcases g.new with hn | hn | hn
  · simp [hn]
  · simp [hq.1, hn]
  · rw [hq.1, hq.2]
    split
    · rfl
    · simp only [if_true]

/-- A whole message that passes checks 1 to 5 as a new one meets its further checks, on a state that sending alone has changed. -/
theorem State.received_gets {s : State} {h : SqpHdr} (g : s.Gets h) (go : State → State) :
    ∃ u, s.Sends u ∧ s.received h go = go u := by
  refine ⟨(s.accept h true true).2, (State.accept_gets g).2, ?_⟩
  unfold State.received
  rw [g.awake, g.ready]
  have := (State.accept_gets g).1
  split
  · simp_all
  · split <;> simp_all

/-- The same of a message that needs a right and READY functions. -/
theorem State.lockedMessage_gets {s : State} {h : SqpHdr} (g : s.Gets h) (right : Option Right) (lock ready : State → Bool)
    (lenOk : Bool) (body : State → State) :
    ∃ u, s.Sends u ∧ s.lockedMessage h right lock ready lenOk body = u.lateChecks h right (lock u) (ready u) lenOk body := by
  obtain ⟨u, hu, e⟩ := State.received_gets g (fun u => u.lateChecks h right (lock u) (ready u) lenOk body)
  exact ⟨u, hu, e⟩

end Sys2Proof.Machine
end

