-- ==== Sys2Proof/Laws/Access.lean ====
section
/-!
SUPPORT. What a register access that is let through comes to: the write or read of the register, between what its message's checks and its
answer send. First, every field that sending leaves alone.
-/

namespace Sys2Proof.Machine

theorem State.Sends.pending {s t : State} (h : s.Sends t) : t.pending = s.pending := (congrArg State.pending h.rest).trans rfl
theorem State.Sends.nclk {s t : State} (h : s.Sends t) : t.nclk = s.nclk := (congrArg State.nclk h.rest).trans rfl
theorem State.Sends.free {s t : State} (h : s.Sends t) : t.free = s.free := (congrArg State.free h.rest).trans rfl
theorem State.Sends.power {s t : State} (h : s.Sends t) : t.power = s.power := (congrArg State.power h.rest).trans rfl
theorem State.Sends.thermal {s t : State} (h : s.Sends t) : t.thermal = s.thermal := (congrArg State.thermal h.rest).trans rfl
theorem State.Sends.avs {s t : State} (h : s.Sends t) : t.avs = s.avs := (congrArg State.avs h.rest).trans rfl
theorem State.Sends.tide {s t : State} (h : s.Sends t) : t.tide = s.tide := (congrArg State.tide h.rest).trans rfl
theorem State.Sends.ready {s t : State} (h : s.Sends t) : t.ready = s.ready := (congrArg State.ready h.rest).trans rfl
theorem State.Sends.coreReady {s t : State} (h : s.Sends t) : t.coreReady = s.coreReady := (congrArg State.coreReady h.rest).trans rfl
theorem State.Sends.rsvdWrite {s t : State} (h : s.Sends t) : t.rsvdWrite = s.rsvdWrite := (congrArg State.rsvdWrite h.rest).trans rfl
theorem State.Sends.rsvdSrc {s t : State} (h : s.Sends t) : t.rsvdSrc = s.rsvdSrc := (congrArg State.rsvdSrc h.rest).trans rfl
theorem State.Sends.rsvdAddr {s t : State} (h : s.Sends t) : t.rsvdAddr = s.rsvdAddr := (congrArg State.rsvdAddr h.rest).trans rfl
theorem State.Sends.regs {s t : State} (h : s.Sends t) : t.regs = s.regs := (congrArg State.regs h.rest).trans rfl
theorem State.Sends.logs {s t : State} (h : s.Sends t) : t.logs = s.logs := (congrArg State.logs h.rest).trans rfl
theorem State.Sends.regions {s t : State} (h : s.Sends t) : t.regions = s.regions := (congrArg State.regions h.rest).trans rfl
theorem State.Sends.wear {s t : State} (h : s.Sends t) : t.wear = s.wear := (congrArg State.wear h.rest).trans rfl
theorem State.Sends.bist {s t : State} (h : s.Sends t) : t.bist = s.bist := (congrArg State.bist h.rest).trans rfl
theorem State.Sends.attrib {s t : State} (h : s.Sends t) : t.attrib = s.attrib := (congrArg State.attrib h.rest).trans rfl
theorem State.Sends.hcfg {s t : State} (h : s.Sends t) : t.hcfg = s.hcfg := (congrArg State.hcfg h.rest).trans rfl
theorem State.Sends.heldReads {s t : State} (h : s.Sends t) : t.heldReads = s.heldReads := (congrArg State.heldReads h.rest).trans rfl
theorem State.Sends.queues {s t : State} (h : s.Sends t) : t.queues = s.queues := (congrArg State.queues h.rest).trans rfl
theorem State.Sends.windows {s t : State} (h : s.Sends t) : t.windows = s.windows := (congrArg State.windows h.rest).trans rfl
theorem State.Sends.staged {s t : State} (h : s.Sends t) : t.staged = s.staged := (congrArg State.staged h.rest).trans rfl
theorem State.Sends.sems {s t : State} (h : s.Sends t) : t.sems = s.sems := (congrArg State.sems h.rest).trans rfl
theorem State.Sends.transfers {s t : State} (h : s.Sends t) : t.transfers = s.transfers := (congrArg State.transfers h.rest).trans rfl
theorem State.Sends.nextComp {s t : State} (h : s.Sends t) : t.nextComp = s.nextComp := (congrArg State.nextComp h.rest).trans rfl
theorem State.Sends.sec {s t : State} (h : s.Sends t) : t.sec = s.sec := (congrArg State.sec h.rest).trans rfl
theorem State.Sends.ledger {s t : State} (h : s.Sends t) : t.ledger = s.ledger := (congrArg State.ledger h.rest).trans rfl
theorem State.Sends.tap {s t : State} (h : s.Sends t) : t.tap = s.tap := (congrArg State.tap h.rest).trans rfl
theorem State.Sends.mem {s t : State} (h : s.Sends t) : t.mem = s.mem := (congrArg State.mem h.rest).trans rfl
theorem State.Sends.poison {s t : State} (h : s.Sends t) : t.poison = s.poison := (congrArg State.poison h.rest).trans rfl
theorem State.Sends.corrected {s t : State} (h : s.Sends t) : t.corrected = s.corrected := (congrArg State.corrected h.rest).trans rfl
theorem State.Sends.full {s t : State} (h : s.Sends t) : t.full = s.full := (congrArg State.full h.rest).trans rfl
theorem State.Sends.dirty {s t : State} (h : s.Sends t) : t.dirty = s.dirty := (congrArg State.dirty h.rest).trans rfl
theorem State.Sends.sel {s t : State} (h : s.Sends t) : t.sel = s.sel := (congrArg State.sel h.rest).trans rfl
theorem State.Sends.cores {s t : State} (h : s.Sends t) : t.cores = s.cores := (congrArg State.cores h.rest).trans rfl
theorem State.Sends.xacts {s t : State} (h : s.Sends t) : t.xacts = s.xacts := (congrArg State.xacts h.rest).trans rfl
theorem State.Sends.hbus {s t : State} (h : s.Sends t) : t.hbus = s.hbus := (congrArg State.hbus h.rest).trans rfl
theorem State.Sends.pageCrc {s t : State} (h : s.Sends t) : t.pageCrc = s.pageCrc := (congrArg State.pageCrc h.rest).trans rfl
theorem State.Sends.waits {s t : State} (h : s.Sends t) : t.waits = s.waits := (congrArg State.waits h.rest).trans rfl
theorem State.Sends.svc {s t : State} (h : s.Sends t) : t.svc = s.svc := (congrArg State.svc h.rest).trans rfl
theorem State.Sends.jobs {s t : State} (h : s.Sends t) : t.jobs = s.jobs := (congrArg State.jobs h.rest).trans rfl
theorem State.Sends.nextJob {s t : State} (h : s.Sends t) : t.nextJob = s.nextJob := (congrArg State.nextJob h.rest).trans rfl
theorem State.Sends.priors {s t : State} (h : s.Sends t) : t.priors = s.priors := (congrArg State.priors h.rest).trans rfl
theorem State.Sends.shortfall {s t : State} (h : s.Sends t) : t.shortfall = s.shortfall := (congrArg State.shortfall h.rest).trans rfl
theorem State.Sends.loops {s t : State} (h : s.Sends t) : t.loops = s.loops := (congrArg State.loops h.rest).trans rfl
theorem State.Sends.pairs {s t : State} (h : s.Sends t) : t.pairs = s.pairs := (congrArg State.pairs h.rest).trans rfl
theorem State.Sends.traces {s t : State} (h : s.Sends t) : t.traces = s.traces := (congrArg State.traces h.rest).trans rfl
theorem State.Sends.loopEng {s t : State} (h : s.Sends t) : t.loopEng = s.loopEng := (congrArg State.loopEng h.rest).trans rfl
theorem State.Sends.ingest {s t : State} (h : s.Sends t) : t.ingest = s.ingest := (congrArg State.ingest h.rest).trans rfl

/-- Sending is answering. -/
theorem State.Sends.answers {s t : State} (h : s.Sends t) : s.Answers t where
  rest := by
    conv_lhs => rw [h.rest]
  pans := h.pans

theorem State.Answers.pending {s t : State} (h : s.Answers t) : t.pending = s.pending := (congrArg State.pending (State.Sends.rest h)).trans rfl
theorem State.Answers.nclk {s t : State} (h : s.Answers t) : t.nclk = s.nclk := (congrArg State.nclk (State.Sends.rest h)).trans rfl
theorem State.Answers.free {s t : State} (h : s.Answers t) : t.free = s.free := (congrArg State.free (State.Sends.rest h)).trans rfl
theorem State.Answers.power {s t : State} (h : s.Answers t) : t.power = s.power := (congrArg State.power (State.Sends.rest h)).trans rfl
theorem State.Answers.thermal {s t : State} (h : s.Answers t) : t.thermal = s.thermal := (congrArg State.thermal (State.Sends.rest h)).trans rfl
theorem State.Answers.avs {s t : State} (h : s.Answers t) : t.avs = s.avs := (congrArg State.avs (State.Sends.rest h)).trans rfl
theorem State.Answers.tide {s t : State} (h : s.Answers t) : t.tide = s.tide := (congrArg State.tide (State.Sends.rest h)).trans rfl
theorem State.Answers.ready {s t : State} (h : s.Answers t) : t.ready = s.ready := (congrArg State.ready (State.Sends.rest h)).trans rfl
theorem State.Answers.coreReady {s t : State} (h : s.Answers t) : t.coreReady = s.coreReady := (congrArg State.coreReady (State.Sends.rest h)).trans rfl
theorem State.Answers.rsvdWrite {s t : State} (h : s.Answers t) : t.rsvdWrite = s.rsvdWrite := (congrArg State.rsvdWrite (State.Sends.rest h)).trans rfl
theorem State.Answers.rsvdSrc {s t : State} (h : s.Answers t) : t.rsvdSrc = s.rsvdSrc := (congrArg State.rsvdSrc (State.Sends.rest h)).trans rfl
theorem State.Answers.rsvdAddr {s t : State} (h : s.Answers t) : t.rsvdAddr = s.rsvdAddr := (congrArg State.rsvdAddr (State.Sends.rest h)).trans rfl
theorem State.Answers.regs {s t : State} (h : s.Answers t) : t.regs = s.regs := (congrArg State.regs (State.Sends.rest h)).trans rfl
theorem State.Answers.logs {s t : State} (h : s.Answers t) : t.logs = s.logs := (congrArg State.logs (State.Sends.rest h)).trans rfl
theorem State.Answers.regions {s t : State} (h : s.Answers t) : t.regions = s.regions := (congrArg State.regions (State.Sends.rest h)).trans rfl
theorem State.Answers.wear {s t : State} (h : s.Answers t) : t.wear = s.wear := (congrArg State.wear (State.Sends.rest h)).trans rfl
theorem State.Answers.bist {s t : State} (h : s.Answers t) : t.bist = s.bist := (congrArg State.bist (State.Sends.rest h)).trans rfl
theorem State.Answers.attrib {s t : State} (h : s.Answers t) : t.attrib = s.attrib := (congrArg State.attrib (State.Sends.rest h)).trans rfl
theorem State.Answers.hcfg {s t : State} (h : s.Answers t) : t.hcfg = s.hcfg := (congrArg State.hcfg (State.Sends.rest h)).trans rfl
theorem State.Answers.heldReads {s t : State} (h : s.Answers t) : t.heldReads = s.heldReads := (congrArg State.heldReads (State.Sends.rest h)).trans rfl
theorem State.Answers.queues {s t : State} (h : s.Answers t) : t.queues = s.queues := (congrArg State.queues (State.Sends.rest h)).trans rfl
theorem State.Answers.windows {s t : State} (h : s.Answers t) : t.windows = s.windows := (congrArg State.windows (State.Sends.rest h)).trans rfl
theorem State.Answers.staged {s t : State} (h : s.Answers t) : t.staged = s.staged := (congrArg State.staged (State.Sends.rest h)).trans rfl
theorem State.Answers.sems {s t : State} (h : s.Answers t) : t.sems = s.sems := (congrArg State.sems (State.Sends.rest h)).trans rfl
theorem State.Answers.transfers {s t : State} (h : s.Answers t) : t.transfers = s.transfers := (congrArg State.transfers (State.Sends.rest h)).trans rfl
theorem State.Answers.nextComp {s t : State} (h : s.Answers t) : t.nextComp = s.nextComp := (congrArg State.nextComp (State.Sends.rest h)).trans rfl
theorem State.Answers.sec {s t : State} (h : s.Answers t) : t.sec = s.sec := (congrArg State.sec (State.Sends.rest h)).trans rfl
theorem State.Answers.ledger {s t : State} (h : s.Answers t) : t.ledger = s.ledger := (congrArg State.ledger (State.Sends.rest h)).trans rfl
theorem State.Answers.tap {s t : State} (h : s.Answers t) : t.tap = s.tap := (congrArg State.tap (State.Sends.rest h)).trans rfl
theorem State.Answers.mem {s t : State} (h : s.Answers t) : t.mem = s.mem := (congrArg State.mem (State.Sends.rest h)).trans rfl
theorem State.Answers.poison {s t : State} (h : s.Answers t) : t.poison = s.poison := (congrArg State.poison (State.Sends.rest h)).trans rfl
theorem State.Answers.corrected {s t : State} (h : s.Answers t) : t.corrected = s.corrected := (congrArg State.corrected (State.Sends.rest h)).trans rfl
theorem State.Answers.full {s t : State} (h : s.Answers t) : t.full = s.full := (congrArg State.full (State.Sends.rest h)).trans rfl
theorem State.Answers.dirty {s t : State} (h : s.Answers t) : t.dirty = s.dirty := (congrArg State.dirty (State.Sends.rest h)).trans rfl
theorem State.Answers.sel {s t : State} (h : s.Answers t) : t.sel = s.sel := (congrArg State.sel (State.Sends.rest h)).trans rfl
theorem State.Answers.cores {s t : State} (h : s.Answers t) : t.cores = s.cores := (congrArg State.cores (State.Sends.rest h)).trans rfl
theorem State.Answers.xacts {s t : State} (h : s.Answers t) : t.xacts = s.xacts := (congrArg State.xacts (State.Sends.rest h)).trans rfl
theorem State.Answers.hbus {s t : State} (h : s.Answers t) : t.hbus = s.hbus := (congrArg State.hbus (State.Sends.rest h)).trans rfl
theorem State.Answers.pageCrc {s t : State} (h : s.Answers t) : t.pageCrc = s.pageCrc := (congrArg State.pageCrc (State.Sends.rest h)).trans rfl
theorem State.Answers.waits {s t : State} (h : s.Answers t) : t.waits = s.waits := (congrArg State.waits (State.Sends.rest h)).trans rfl
theorem State.Answers.jobs {s t : State} (h : s.Answers t) : t.jobs = s.jobs := (congrArg State.jobs (State.Sends.rest h)).trans rfl
theorem State.Answers.nextJob {s t : State} (h : s.Answers t) : t.nextJob = s.nextJob := (congrArg State.nextJob (State.Sends.rest h)).trans rfl
theorem State.Answers.priors {s t : State} (h : s.Answers t) : t.priors = s.priors := (congrArg State.priors (State.Sends.rest h)).trans rfl
theorem State.Answers.shortfall {s t : State} (h : s.Answers t) : t.shortfall = s.shortfall := (congrArg State.shortfall (State.Sends.rest h)).trans rfl
theorem State.Answers.loops {s t : State} (h : s.Answers t) : t.loops = s.loops := (congrArg State.loops (State.Sends.rest h)).trans rfl
theorem State.Answers.pairs {s t : State} (h : s.Answers t) : t.pairs = s.pairs := (congrArg State.pairs (State.Sends.rest h)).trans rfl
theorem State.Answers.traces {s t : State} (h : s.Answers t) : t.traces = s.traces := (congrArg State.traces (State.Sends.rest h)).trans rfl
theorem State.Answers.loopEng {s t : State} (h : s.Answers t) : t.loopEng = s.loopEng := (congrArg State.loopEng (State.Sends.rest h)).trans rfl
theorem State.Answers.ingest {s t : State} (h : s.Answers t) : t.ingest = s.ingest := (congrArg State.ingest (State.Sends.rest h)).trans rfl

/-- A pan's STRICT-independent state is the same but for its sluices. -/
theorem State.Sends.paused {s u : State} (h : s.Sends u) (p : Nat) : (u.pan p).paused = (s.pan p).paused :=
  (congrArg Pan.paused (h.pans p)).trans rfl

/-- The word last written to a register is the same. -/
theorem State.Sends.cur {s u : State} (h : s.Sends u) (r : Reg) : u.cur r = s.cur r := by
  unfold State.cur State.core State.loop State.rw State.panCfg State.loopCfg State.streamCfg
  simp only [h.hcfg, h.cores, h.loops, h.regs, h.paused, h.sec]

/-- Whether blocks answer is the same. -/
theorem State.Sends.sqpAnswers {s u : State} (h : s.Sends u) (a : Nat) : u.sqpAnswers a = s.sqpAnswers a := by
  unfold State.sqpAnswers State.sup
  rw [h.ready]

/-- Rights are the same. -/
theorem State.Sends.hasRight {s u : State} (h : s.Sends u) (c : Fin 8) (r : Option Right) : u.hasRight c r = s.hasRight c r := by
  cases r
  · rfl
  · simp only [State.hasRight, State.rw, h.regs]

/-- Locks are the same. -/
theorem State.Sends.mayWrite {s u : State} (h : s.Sends u) (m : SqpHdr) (a : Nat) (v : Option Word) : u.mayWrite m a v = s.mayWrite m a v := by
  unfold State.mayWrite State.clearsOnly State.senderHolds State.holdsSem
  simp only [h.sems, h.cur]

/-- The semaphores held are the same. -/
theorem State.Sends.holdsSem {s u : State} (h : s.Sends u) (n : Nat) (p : Port) (c : Fin 8) : u.holdsSem n p c = s.holdsSem n p c := by
  unfold State.holdsSem
  rw [h.sems]

/-- One register written by a command whose access is let through, where the write is not refused: it is the write of the register in a
state that only sending has changed, and then its answer. Registers that take effect later are apart (R471). -/
theorem State.writeBy_ok {s : State} {r : Reg} {v : Word} {src : RegSrc} (ok : s.WriteOk r v src) (ha : Reg.ofAddr r.addr = some r)
    (hd : r.deferred = false) :
    ∃ u, s.Sends u ∧ (src = .spi → u = s) ∧
      ((u.writeReg src r v).refused = none → (u.writeReg src r v).state.Answers (s.writeBy src r v)) := by
  cases src with
  | spi =>
    obtain ⟨h1, h2, h3⟩ := ok
    refine ⟨s, State.Sends.refl s, fun _ => rfl, fun hr => ?_⟩
    simp only [State.writeBy, h1, h2, State.spiWrite, ha, h3, State.writeRegs, State.deferredWrites, hd, State.wrote]
    simp only [hr]
    exact (State.Sends.refl _)
  | sqp h =>
    obtain ⟨g, hl, hright, hmay, hans⟩ := ok
    obtain ⟨u, hu, e⟩ := State.received_gets g (fun s => s.regWrite h r.addr 1 [v] (lenIs h 12))
    refine ⟨u, hu, (fun e => by cases e), fun hr => ?_⟩
    have hn : List.range 1 = [0] := rfl
    have e' : s.writeBy (.sqp h) r v = u.regWrite h r.addr 1 [v] (lenIs h 12) := e
    rw [e']
    simp only [State.regWrite, hn, List.all_cons, List.all_nil, hu.mayWrite, hu.hasRight, hright]
    simp only [Nat.mul_zero, Nat.add_zero, List.getElem?_cons_zero, hmay, regsAt, ha, addrsOf, hn, List.map_cons, List.map_nil, List.all_cons,
      List.all_nil, hu.sqpAnswers, hans, lenIs, hl, zipRegs, State.doWrite, State.writeRegs, State.wrote, State.deferredWrites, hd]
    simp [hr]
    exact (State.answerMsg_sends _ _ _ _ _ (State.Sends.refl _)).answers

/-- One register read by a command whose access is let through, where no read of LEDGER_RD_DATA must wait: the read of the register in a
state that only sending has changed, and then its answer. On the service SPI the response carries the value. -/
theorem State.readBy_ok {s : State} {r : Reg} {src : RegSrc} (ok : s.ReadOk r src) (ha : Reg.ofAddr r.addr = some r)
    (hb : r = .ledgerRdData → s.ledgerBusy = false) :
    ∃ u, s.Sends u ∧ (src = .spi → u = s ∧ (s.readBy src r).svc = svcResp .ok (s.readReg r).1) ∧ (u.readReg r).2.Answers (s.readBy src r) := by
  have hw (u : State) (hu : s.Sends u) : (decide (r = .ledgerRdData) && u.ledgerBusy) = false := by
    have hl : u.ledgerBusy = s.ledgerBusy := by
      unfold State.ledgerBusy
      rw [hu.ledger, hu.power]
    rw [hl]
    by_cases e : r = .ledgerRdData
    · simp [hb e]
    · simp [e]
  cases src with
  | spi =>
    obtain ⟨h1, h2, h3⟩ := ok
    have e : s.readBy .spi r = { (s.readReg r).2 with svc := svcResp .ok (s.readReg r).1 } := by
      simp only [State.readBy, h1, h2, State.spiRead, ha, h3, hw s (State.Sends.refl s)]
      rfl
    rw [e]
    exact ⟨s, State.Sends.refl s, fun _ => ⟨rfl, rfl⟩, State.Sends.refl _⟩
  | sqp h =>
    obtain ⟨g, hl, hans⟩ := ok
    obtain ⟨u, hu, e⟩ := State.received_gets g (fun s => s.regRead h r.addr 1 (lenIs h 8))
    refine ⟨u, hu, (fun e => by cases e), ?_⟩
    have e' : s.readBy (.sqp h) r = u.regRead h r.addr 1 (lenIs h 8) := e
    have hc : ([r].contains Reg.ledgerRdData && u.ledgerBusy) = false := by
      rw [← hw u hu]
      congr 1
      simp [eq_comm]
    rw [e']
    have hn : List.range 1 = [0] := rfl
    simp only [State.regRead, regsAt, ha, addrsOf, hn, List.map_cons, List.map_nil, List.all_cons, List.all_nil, Nat.mul_zero, Nat.add_zero,
      hu.sqpAnswers, hans, lenIs, hl, hc]
    simp only [State.doRead, State.readRegs]
    simp
    exact (State.answerMsg_sends _ _ _ _ _ (State.Sends.refl _)).answers

end Sys2Proof.Machine
end

