-- ==== Sys2Proof/Laws/Keeps.lean ====
section
/-!
SUPPORT. What every operation of the machine keeps: the commands that wait, and the invariant of the state. Here the relation
itself and the operations that touch what the invariant speaks of.
-/

namespace Sys2Proof.Machine

/-- Nothing changed. -/
theorem State.Keeps.refl (s : State) : s.Keeps s := ⟨rfl, id⟩

/-- One operation after another. -/
theorem State.Keeps.trans {s t u : State} (h : s.Keeps t) (k : t.Keeps u) : s.Keeps u := ⟨k.1.trans h.1, fun i => k.2 (h.2 i)⟩

/-- An operation for each element of a list. -/
theorem keeps_foldl {α : Type} (f : State → α → State) (l : List α) (s0 : State) {s : State}
    (hf : ∀ s x, s0.Keeps s → s0.Keeps (f s x)) (h : s0.Keeps s) : s0.Keeps (l.foldl f s) := by
  induction l generalizing s with
  | nil => exact h
  | cons a r ih => exact ih (hf s a h)

/-- An operation for each element of a list, with something else carried along. -/
theorem keeps_foldl_snd {α β : Type} (f : β × State → α → β × State) (l : List α) (s0 : State) {p : β × State}
    (hf : ∀ p x, s0.Keeps p.2 → s0.Keeps (f p x).2) (h : s0.Keeps p.2) : s0.Keeps (l.foldl f p).2 := by
  induction l generalizing p with
  | nil => exact h
  | cons a r ih => exact ih (hf p a h)

/-- An operation for each element of a list, with something else carried along. -/
theorem keeps_foldl_fst {α β : Type} (f : State × β → α → State × β) (l : List α) (s0 : State) {p : State × β}
    (hf : ∀ p x, s0.Keeps p.1 → s0.Keeps (f p x).1) (h : s0.Keeps p.1) : s0.Keeps (l.foldl f p).1 := by
  induction l generalizing p with
  | nil => exact h
  | cons a r ih => exact ih (hf p a h)

/-- A change of fields that the invariant does not speak of. -/
theorem keeps_upd {s0 A : State} {x_nclk x_free x_power x_thermal x_avs T x_ready x_coreReady x_rsvdWrite x_rsvdSrc x_rsvdAddr x_regs x_regions
    x_wear x_bist x_attrib HA HB x_hcfg x_heldReads x_bports x_queues x_windows x_staged x_sems x_transfers
    x_comps x_nextComp x_sec L x_tap x_poison x_corrected x_full x_dirty x_sel x_pans x_xacts x_hbus
    x_pageCrc x_waits x_svc x_priors x_shortfall x_loops x_pairs x_traces x_loopEng x_ingest x_sets}
    (h : s0.Keeps A) (hl : L.flash = A.ledger.flash) (hn : T.ns = A.tide.ns) (hf : T.frac = A.tide.frac)
    (ha : HA.unacked = A.hportA.unacked) (hb : HB.unacked = A.hportB.unacked) :
    s0.Keeps (State.mk A.pending x_nclk x_free x_power x_thermal x_avs T x_ready x_coreReady x_rsvdWrite x_rsvdSrc x_rsvdAddr x_regs
      A.counts A.logs x_regions x_wear x_bist x_attrib HA HB x_hcfg x_heldReads x_bports x_queues x_windows x_staged
      x_sems x_transfers x_comps x_nextComp x_sec L x_tap A.mem x_poison x_corrected x_full x_dirty x_sel A.cores
      x_pans x_xacts x_hbus x_pageCrc x_waits x_svc A.jobs A.nextJob x_priors x_shortfall x_loops x_pairs x_traces
      x_loopEng x_ingest x_sets) :=
  ⟨h.1, fun i =>
    let j := h.2 i
    { mem := j.mem, flash := by simpa [hl] using j.flash, tideNs := by simpa [hn] using j.tideNs,
      tideFrac := by simpa [hf] using j.tideFrac, counts := j.counts, unackedA := by simpa [ha] using j.unackedA,
      unackedB := by simpa [hb] using j.unackedB, logs := j.logs, jobIds := j.jobIds, jobNext := j.jobNext, lines := j.lines }⟩

/-- The ledger changed with its flash canonical, and fields that the invariant does not speak of. -/
theorem keeps_flash {s0 A : State} {x_nclk x_free x_power x_thermal x_avs T x_ready x_coreReady x_rsvdWrite x_rsvdSrc x_rsvdAddr x_regs x_regions
    x_wear x_bist x_attrib HA HB x_hcfg x_heldReads x_bports x_queues x_windows x_staged x_sems x_transfers
    x_comps x_nextComp x_sec L x_tap x_poison x_corrected x_full x_dirty x_sel x_pans x_xacts x_hbus
    x_pageCrc x_waits x_svc x_priors x_shortfall x_loops x_pairs x_traces x_loopEng x_ingest x_sets}
    (h : s0.Keeps A) (hl : Bytes.wfFrom 0xFF 0 A.ledger.flash = true → Bytes.wfFrom 0xFF 0 L.flash = true)
    (hn : T.ns = A.tide.ns) (hf : T.frac = A.tide.frac)
    (ha : HA.unacked = A.hportA.unacked) (hb : HB.unacked = A.hportB.unacked) :
    s0.Keeps (State.mk A.pending x_nclk x_free x_power x_thermal x_avs T x_ready x_coreReady x_rsvdWrite x_rsvdSrc x_rsvdAddr x_regs
      A.counts A.logs x_regions x_wear x_bist x_attrib HA HB x_hcfg x_heldReads x_bports x_queues x_windows x_staged
      x_sems x_transfers x_comps x_nextComp x_sec L x_tap A.mem x_poison x_corrected x_full x_dirty x_sel A.cores
      x_pans x_xacts x_hbus x_pageCrc x_waits x_svc A.jobs A.nextJob x_priors x_shortfall x_loops x_pairs x_traces
      x_loopEng x_ingest x_sets) :=
  ⟨h.1, fun i =>
    let j := h.2 i
    { mem := j.mem, flash := hl j.flash, tideNs := by simpa [hn] using j.tideNs,
      tideFrac := by simpa [hf] using j.tideFrac, counts := j.counts, unackedA := by simpa [ha] using j.unackedA,
      unackedB := by simpa [hb] using j.unackedB, logs := j.logs, jobIds := j.jobIds, jobNext := j.jobNext, lines := j.lines }⟩

/-- The state beside something else. -/
theorem keeps_eq2 {s0 t : State} {α : Type} {x : α × State} {a : α} (e : x = (a, t)) (h : s0.Keeps x.2) : s0.Keeps t := by
  subst e
  exact h

/-! ### What may end in a step fault -/

/-- Where a computation gives a state, that state is kept. -/
def KOk (s0 : State) (r : Except StepFault State) : Prop := ∀ t, r = .ok t → s0.Keeps t

theorem kok_ok {s0 s : State} (h : s0.Keeps s) : KOk s0 (.ok s) := fun _ e => by cases e; exact h

theorem kok_err {s0 : State} (f : StepFault) : KOk s0 (.error f) := fun _ e => by cases e

theorem kok_bind {s0 : State} {α : Type} {x : Except StepFault α} {f : α → Except StepFault State} (hf : ∀ a, KOk s0 (f a)) :
    KOk s0 (x >>= f) := by
  cases x with
  | error e => exact kok_err e
  | ok a => exact hf a

theorem kok_bind_st {s0 : State} {x : Except StepFault State} {f : State → Except StepFault State} (hx : KOk s0 x)
    (hf : ∀ a, s0.Keeps a → KOk s0 (f a)) : KOk s0 (x >>= f) := by
  cases x with
  | error e => exact kok_err e
  | ok a => exact hf a (hx a rfl)

/-! ### Counters and logs -/

/-- A count within its maximum stays within it. -/
theorem Count.inc_le {max : Nat} {c : Count} (h : c.n ≤ max) : (c.inc max).n ≤ max := by
  unfold Count.inc
  split
  · exact h
  · split
    · exact le_refl _
    · simp only; omega

/-- A count put in the place of another. -/
theorem keeps_counts {s0 s : State} (h : s0.Keeps s) (c : Ctr) {n : Count} (hn : (s.count c).n ≤ 2 ^ 31 - 1 → n.n ≤ 2 ^ 31 - 1) :
    s0.Keeps { s with counts := s.counts.put c.addr n } := by
  refine ⟨h.1, fun i => ?_⟩
  have j := h.2 i
  refine { mem := j.mem, flash := j.flash, tideNs := j.tideNs, tideFrac := j.tideFrac, counts := fun c' => ?_,
           unackedA := j.unackedA, unackedB := j.unackedB, logs := j.logs, jobIds := j.jobIds, jobNext := j.jobNext, lines := j.lines }
  by_cases e : c'.addr = c.addr
  · simpa [State.count, e] using hn (j.counts c)
  · simpa [State.count, SMap.getD_put_ne _ _ _ e] using j.counts c'

/-- Logs with the same key are the same. -/
theorem logKey_inj {l m : LogId} (h : logKey l = logKey m) : l = m := by
  cases l <;> cases m <;> simp only [logKey] at h<;> first | rfl | (congr 1; omega)

/-- A log put in the place of another. -/
theorem keeps_logs {s0 s : State} (h : s0.Keeps s) (l : LogId) {g : ErrLog}
    (hg : (s.log l).within (logCap l) → g.within (logCap l)) : s0.Keeps { s with logs := s.logs.put (logKey l) g } := by
  refine ⟨h.1, fun i => ?_⟩
  have j := h.2 i
  refine { mem := j.mem, flash := j.flash, tideNs := j.tideNs, tideFrac := j.tideFrac, counts := j.counts,
           unackedA := j.unackedA, unackedB := j.unackedB, logs := fun m => ?_, jobIds := j.jobIds, jobNext := j.jobNext,
           lines := j.lines }
  by_cases e : logKey m = logKey l
  · have := logKey_inj e
    subst this
    simpa [State.log] using hg (j.logs m)
  · simpa [State.log, SMap.getD_put_ne _ _ _ e] using j.logs m

/-! ### Host ports -/

/-- A host port changed so that its unacknowledged frames stay within 64. -/
theorem State.onHport_keeps_le (p : Port) (f : HPort → HPort) {s0 s : State}
    (hf : (s.hport p).unacked.length ≤ 64 → (f (s.hport p)).unacked.length ≤ 64) (h : s0.Keeps s) : s0.Keeps (s.onHport p f) := by
  refine ⟨by cases p <;> exact h.1, fun i => ?_⟩
  have j := h.2 i
  cases p
  · exact { mem := j.mem, flash := j.flash, tideNs := j.tideNs, tideFrac := j.tideFrac, counts := j.counts,
            unackedA := hf j.unackedA, unackedB := j.unackedB, logs := j.logs, jobIds := j.jobIds, jobNext := j.jobNext, lines := j.lines }
  · exact { mem := j.mem, flash := j.flash, tideNs := j.tideNs, tideFrac := j.tideFrac, counts := j.counts,
            unackedA := j.unackedA, unackedB := hf j.unackedB, logs := j.logs, jobIds := j.jobIds, jobNext := j.jobNext, lines := j.lines }

/-- A host port changed elsewhere. -/
theorem State.onHport_keeps (p : Port) (f : HPort → HPort) {s0 s : State} (hf : ∀ h, (f h).unacked = h.unacked) (h : s0.Keeps s) :
    s0.Keeps (s.onHport p f) := State.onHport_keeps_le p f (fun hl => by rw [hf]; exact hl) h

/-! ### Memories -/

/-- Programming keeps the flash canonical. -/
theorem flashProg_wf {f : Bytes} (h : Bytes.wfFrom 0xFF 0 f = true) (a : Nat) (bs : List Byte) :
    Bytes.wfFrom 0xFF 0 (flashProg f a bs) = true := by
  induction bs generalizing f a with
  | nil => exact h
  | cons b r ih => exact ih (Bytes.wfFrom_write h (Nat.zero_le a) _) (a + 1)

/-- Erasing keeps the flash canonical. -/
theorem flashErase_wf {f : Bytes} (h : Bytes.wfFrom 0xFF 0 f = true) (k : Nat) : Bytes.wfFrom 0xFF 0 (flashErase f k) = true :=
  Bytes.wfFrom_filter h _

/-- Memory changed to another canonical one. -/
theorem keeps_mem {s0 s : State} (h : s0.Keeps s) {m : Bytes} {p : NSet}
    (hm : Bytes.wfFrom 0 0 s.mem = true → Bytes.wfFrom 0 0 m = true) : s0.Keeps { s with mem := m, poison := p } :=
  ⟨h.1, fun i =>
    let j := h.2 i
    { mem := hm j.mem, flash := j.flash, tideNs := j.tideNs, tideFrac := j.tideFrac, counts := j.counts,
      unackedA := j.unackedA, unackedB := j.unackedB, logs := j.logs, jobIds := j.jobIds, jobNext := j.jobNext, lines := j.lines }⟩

/-- Memory changed to another canonical one, and fields that the invariant does not speak of. -/
theorem keeps_shut {s0 s : State} (h : s0.Keeps s) {m : Bytes} {p : NSet} {b : Bist}
    (hm : Bytes.wfFrom 0 0 s.mem = true → Bytes.wfFrom 0 0 m = true) : s0.Keeps { s with mem := m, poison := p, bist := b } :=
  keeps_upd (A := { s with mem := m, poison := p }) (keeps_mem h hm) rfl rfl rfl rfl rfl

/-- The ledger changed with its flash canonical. -/
theorem keeps_ledger {s0 s : State} (h : s0.Keeps s) {l : Ledger}
    (hl : Bytes.wfFrom 0xFF 0 s.ledger.flash = true → Bytes.wfFrom 0xFF 0 l.flash = true) : s0.Keeps { s with ledger := l } :=
  keeps_flash h hl rfl rfl rfl rfl

/-- The ledger and the identity changed, with the flash canonical. -/
theorem keeps_ledger_sec {s0 s : State} (h : s0.Keeps s) {l : Ledger} {x : Sec}
    (hl : Bytes.wfFrom 0xFF 0 s.ledger.flash = true → Bytes.wfFrom 0xFF 0 l.flash = true) :
    s0.Keeps { s with ledger := l, sec := x } :=
  keeps_flash h hl rfl rfl rfl rfl

/-- Tide changed within its ranges. -/
theorem keeps_tide {s0 s : State} (h : s0.Keeps s) {t : Tide}
    (ht : s.tide.ns < 1000000000 → s.tide.frac < 2 ^ 30 → t.ns < 1000000000 ∧ t.frac < 2 ^ 30) : s0.Keeps { s with tide := t } :=
  ⟨h.1, fun i =>
    let j := h.2 i
    { mem := j.mem, flash := j.flash, tideNs := (ht j.tideNs j.tideFrac).1, tideFrac := (ht j.tideNs j.tideFrac).2,
      counts := j.counts, unackedA := j.unackedA, unackedB := j.unackedB, logs := j.logs, jobIds := j.jobIds, jobNext := j.jobNext, lines := j.lines }⟩

/-- The state at reset. -/
theorem State.reset_inv : State.reset.Inv where
  mem := rfl
  flash := rfl
  tideNs := by decide
  tideFrac := by decide
  counts := fun _ => by simp [State.count, State.reset, SMap.getD, SMap.get]
  unackedA := by decide
  unackedB := by decide
  logs := fun _ => by simp [State.log, State.reset, SMap.getD, SMap.get, ErrLog.within]
  jobIds := List.nodup_nil
  jobNext := fun _ h => by cases h
  lines := fun _ => ⟨by simp [State.core, State.reset, SMap.getD, SMap.get], fun e h => by simp [State.core, State.reset, SMap.getD, SMap.get] at h⟩

end Sys2Proof.Machine
end

