-- ==== Sys2Proof/Laws/KeepsOps.lean ====
section
/-!
SUPPORT. What every operation of Ops keeps: the commands that wait, and the invariant of the state.
-/

namespace Sys2Proof.Machine

theorem State.takeFree_keeps (w : Nat) {s0 s : State} (h0 : s0.Keeps s) : s0.Keeps (State.takeFree s w).2 := by
  unfold State.takeFree
  repeat' first
    | with_reducible assumption
    | dsimp only
    | split
    | refine keeps_upd ?_ rfl rfl rfl rfl rfl

theorem State.setRw_keeps (r : Reg) (w : Word) {s0 s : State} (h0 : s0.Keeps s) : s0.Keeps (State.setRw s r w) := by
  unfold State.setRw
  repeat' first
    | with_reducible assumption
    | dsimp only
    | split
    | refine keeps_upd ?_ rfl rfl rfl rfl rfl

theorem State.note_keeps (r : Reg) (f : Nat → Nat) {s0 s : State} (h0 : s0.Keeps s) : s0.Keeps (State.note s r f) := by
  unfold State.note
  repeat' first
    | with_reducible assumption
    | dsimp only
    | split
    | refine keeps_upd ?_ rfl rfl rfl rfl rfl

theorem State.setRsvd_keeps (addr : Word) (src : BitVec 2) {s0 s : State} (h0 : s0.Keeps s) : s0.Keeps (State.setRsvd s addr src) := by
  unfold State.setRsvd
  repeat' first
    | with_reducible assumption
    | dsimp only
    | split
    | with_reducible refine State.note_keeps _ _ ?_
    | refine keeps_upd ?_ rfl rfl rfl rfl rfl

theorem State.kick_keeps (p : Nat) {s0 s : State} (h0 : s0.Keeps s) : s0.Keeps (State.kick s p) := by
  unfold State.kick
  repeat' first
    | with_reducible assumption
    | dsimp only
    | split
    | refine keeps_upd ?_ rfl rfl rfl rfl rfl

theorem State.enqueue_keeps (p : Nat) (f : TxFrame) {s0 s : State} (h0 : s0.Keeps s) : s0.Keeps (State.enqueue s p f) := by
  unfold State.enqueue
  repeat' first
    | with_reducible assumption
    | dsimp only
    | split
    | with_reducible refine State.kick_keeps _ ?_
    | refine keeps_upd ?_ rfl rfl rfl rfl rfl

theorem State.transmit_keeps (f : OutFrame) {s0 s : State} (h0 : s0.Keeps s) : s0.Keeps (State.transmit s f) := by
  unfold State.transmit
  repeat' first
    | with_reducible assumption
    | dsimp only
    | split
    | with_reducible refine State.enqueue_keeps _ _ ?_
    | refine keeps_upd ?_ rfl rfl rfl rfl rfl

/-- A frame handed over now, where one that carries ACK_REQ finds a place free. -/
theorem State.handNow_keeps (f : OutFrame) {s0 s : State} (hl : f.ackReq = true → (s.hport f.port).unacked.length < 64) (h0 : s0.Keeps s) :
    s0.Keeps (State.handNow s f) := by
  unfold State.handNow
  refine State.transmit_keeps _ ?_
  dsimp only
  split
  · rename_i hr
    refine State.onHport_keeps_le _ _ (fun _ => ?_) h0
    have := hl hr
    simp only [List.length_append, List.length_singleton]
    omega
  · exact h0

theorem State.handFrame_keeps (f : OutFrame) {s0 s : State} (h0 : s0.Keeps s) : s0.Keeps (State.handFrame s f) := by
  unfold State.handFrame
  dsimp only
  split
  · split
    · rename_i hl
      exact State.handNow_keeps _ (fun _ => hl.1) h0
    · exact State.onHport_keeps _ _ (fun _ => rfl) h0
  · rename_i hn
    exact State.handNow_keeps _ (fun h => absurd h hn) h0

theorem State.numberMsg_keeps (p : Port) (m : OutMsg) {s0 s : State} (h0 : s0.Keeps s) : s0.Keeps (State.numberMsg s p m).2 := by
  unfold State.numberMsg
  repeat' first
    | with_reducible assumption
    | dsimp only
    | split
    | with_reducible refine State.onHport_keeps _ _ (fun _ => rfl) ?_
    | refine keeps_upd ?_ rfl rfl rfl rfl rfl

theorem State.sendMsg_keeps (p : Port) (m : OutMsg) {s0 s : State} (h0 : s0.Keeps s) : s0.Keeps (State.sendMsg s p m).2 := by
  unfold State.sendMsg
  repeat' first
    | with_reducible assumption
    | dsimp only
    | split
    | with_reducible refine keeps_eq2 (by assumption) ?_
    | with_reducible refine State.numberMsg_keeps _ _ ?_
    | with_reducible refine State.handFrame_keeps _ ?_
    | with_reducible refine keeps_foldl _ _ _ (fun _ _ _ => ?_) ?_
    | with_reducible refine keeps_foldl_snd _ _ _ (fun _ _ _ => ?_) ?_
    | with_reducible refine keeps_foldl_fst _ _ _ (fun _ _ _ => ?_) ?_
    | refine keeps_upd ?_ rfl rfl rfl rfl rfl

theorem State.eventOn_keeps (p : Port) (kind : Nat) (subject : Nat) (body : List Byte) {s0 s : State} (h0 : s0.Keeps s) : s0.Keeps (State.eventOn s p kind subject body) := by
  unfold State.eventOn
  repeat' first
    | with_reducible assumption
    | dsimp only
    | split
    | with_reducible refine keeps_eq2 (by assumption) ?_
    | with_reducible refine State.sendMsg_keeps _ _ ?_

theorem State.event_keeps (kind : Nat) (subject : Nat) (body : List Byte) {s0 s : State} (h0 : s0.Keeps s) : s0.Keeps (State.event s kind subject body) := by
  unfold State.event
  repeat' first
    | with_reducible assumption
    | dsimp only
    | split
    | with_reducible refine State.eventOn_keeps _ _ _ _ ?_

theorem State.bump_keeps (c : Ctr) {s0 s : State} (h0 : s0.Keeps s) : s0.Keeps (State.bump s c) := by
  unfold State.bump
  have hc : s0.Keeps ({ s with counts := s.counts.put c.addr ((s.count c).inc (2 ^ 31 - 1)) }.note (.counter c) (· + 1)) :=
    State.note_keeps _ _ (keeps_counts h0 c Count.inc_le)
  dsimp only
  split
  · exact State.event_keeps _ _ _ hc
  · exact hc

theorem State.setReady_keeps (k : Nat) (v : Bool) {s0 s : State} (h0 : s0.Keeps s) : s0.Keeps (State.setReady s k v) := by
  unfold State.setReady
  repeat' first
    | with_reducible assumption
    | dsimp only
    | split
    | with_reducible refine State.event_keeps _ _ _ ?_
    | refine keeps_upd ?_ rfl rfl rfl rfl rfl

theorem State.setCoreReady_keeps (n : Nat) (v : Bool) {s0 s : State} (h0 : s0.Keeps s) : s0.Keeps (State.setCoreReady s n v) := by
  unfold State.setCoreReady
  repeat' first
    | with_reducible assumption
    | dsimp only
    | split
    | with_reducible refine State.event_keeps _ _ _ ?_
    | refine keeps_upd ?_ rfl rfl rfl rfl rfl

theorem State.answerMsg_keeps (h : SqpHdr) (type : Byte) (gen : BitVec 16) (payload : List Byte) (keep : Bool) {s0 s : State} (h0 : s0.Keeps s) : s0.Keeps (State.answerMsg s h type gen payload keep) := by
  unfold State.answerMsg
  repeat' first
    | with_reducible assumption
    | dsimp only
    | split
    | with_reducible refine keeps_eq2 (by assumption) ?_
    | with_reducible refine State.sendMsg_keeps _ _ ?_
    | with_reducible refine State.sent_keeps _ _ _ ?_
    | with_reducible refine State.onHport_keeps _ _ (fun _ => rfl) ?_
    | refine keeps_upd ?_ rfl rfl rfl rfl rfl

theorem State.nak_keeps (h : SqpHdr) (r : Reason) (detail : Nat) {s0 s : State} (h0 : s0.Keeps s) : s0.Keeps (State.nak s h r detail) := by
  unfold State.nak
  repeat' first
    | with_reducible assumption
    | dsimp only
    | split
    | with_reducible refine State.answerMsg_keeps _ _ _ _ _ ?_

theorem State.nakUnkept_keeps (h : SqpHdr) (r : Reason) {s0 s : State} (h0 : s0.Keeps s) : s0.Keeps (State.nakUnkept s h r) := by
  unfold State.nakUnkept
  repeat' first
    | with_reducible assumption
    | dsimp only
    | split
    | with_reducible refine State.answerMsg_keeps _ _ _ _ _ ?_

theorem State.okGen_keeps (h : SqpHdr) (gen : BitVec 16) {s0 s : State} (h0 : s0.Keeps s) : s0.Keeps (State.okGen s h gen) := by
  unfold State.okGen
  repeat' first
    | with_reducible assumption
    | dsimp only
    | split
    | with_reducible refine State.answerMsg_keeps _ _ _ _ _ ?_

theorem State.deferAnswer_keeps (h : SqpHdr) {s0 s : State} (h0 : s0.Keeps s) : s0.Keeps (State.deferAnswer s h) := by
  unfold State.deferAnswer
  repeat' first
    | with_reducible assumption
    | dsimp only
    | split
    | with_reducible refine State.onHport_keeps _ _ (fun _ => rfl) ?_

theorem State.againAnswer_keeps (h : SqpHdr) {s0 s : State} (h0 : s0.Keeps s) : s0.Keeps (State.againAnswer s h) := by
  unfold State.againAnswer
  repeat' first
    | with_reducible assumption
    | dsimp only
    | split
    | with_reducible refine State.onHport_keeps _ _ (fun _ => rfl) ?_

theorem State.lose_keeps (l : LogId) (r : Report) {s0 s : State} (h0 : s0.Keeps s) : s0.Keeps (State.lose s l r) := by
  unfold State.lose
  dsimp only
  have hc (g : ErrLog) (hg : g.buf = (s.log l).buf ∧ g.entries = (s.log l).entries ∧ g.lost = (s.log l).lost.inc (2 ^ 16 - 1)) :
      s0.Keeps ({ s with logs := s.logs.put (logKey l) g }.note (.bitternCount l) (· + 1)) :=
    State.note_keeps _ _ (keeps_logs h0 l (fun w => ⟨hg.1 ▸ w.1, hg.2.1 ▸ w.2.1, hg.2.2 ▸ Count.inc_le w.2.2⟩))
  repeat' first
    | exact hc _ ⟨rfl, rfl, rfl⟩
    | split
    | refine State.event_keeps _ _ _ ?_

theorem State.toLog_keeps (l : LogId) (r : Report) {s0 s : State} (h0 : s0.Keeps s) : s0.Keeps (State.toLog s l r) := by
  unfold State.toLog
  dsimp only
  split
  · rename_i hr
    refine keeps_logs h0 l (fun w => ⟨?_, w.2.1, w.2.2⟩)
    simp only [ErrLog.room, Bool.and_eq_true, decide_eq_true_eq] at hr
    simp only [List.length_append, List.length_singleton]
    omega
  · split
    · exact State.lose_keeps _ _ (keeps_logs h0 l (fun w => w))
    · exact State.lose_keeps _ _ h0

theorem State.report_keeps (l : LogId) (cls : EClass) (source : Nat) (unit : Nat) (info : Nat) (detail : Nat) {s0 s : State} (h0 : s0.Keeps s) : s0.Keeps (State.report s l cls source unit info detail) := by
  unfold State.report
  repeat' first
    | with_reducible assumption
    | dsimp only
    | split
    | with_reducible refine State.event_keeps _ _ _ ?_
    | with_reducible refine State.toLog_keeps _ _ ?_

end Sys2Proof.Machine
end

