-- ==== Sys2Proof/Laws/KeepsTide.lean ====
section
/-!
SUPPORT. What every operation of Tide keeps: the commands that wait, and the invariant of the state.
-/

namespace Sys2Proof.Machine

theorem State.tick_keeps {s0 s : State} (h0 : s0.Keeps s) : s0.Keeps (State.tick s) := by
  unfold State.tick
  refine keeps_tide (s := { s with nclk := s.nclk + 1, sets := [] }) (keeps_upd h0 rfl rfl rfl rfl rfl) (fun hn hf => ?_)
  have ha : s.addend < 2 ^ 32 := (s.rw .tideAddend).isLt
  simp only at hn hf ⊢
  unfold Tide.tick
  dsimp only
  refine ⟨?_, Nat.mod_lt _ (by norm_num)⟩
  have hq : (s.tide.ns * 2 ^ 30 + s.tide.frac + s.addend) / 2 ^ 30 < 1000000005 := by omega
  split
  · omega
  · rename_i hc
    simp only [ge_iff_le, decide_eq_true_eq, not_le] at hc
    exact hc

theorem State.timeEvent_keeps (cause : Nat) (value : Int) {s0 s : State} (h0 : s0.Keeps s) : s0.Keeps (State.timeEvent s cause value) := by
  unfold State.timeEvent
  repeat' first
    | with_reducible assumption
    | dsimp only
    | split
    | with_reducible refine State.event_keeps _ _ _ ?_

theorem State.tideFlag_keeps (k : Nat) {s0 s : State} (h0 : s0.Keeps s) : s0.Keeps (State.tideFlag s k) := by
  unfold State.tideFlag
  repeat' first
    | with_reducible assumption
    | dsimp only
    | split
    | with_reducible refine State.note_keeps _ _ ?_
    | refine keeps_upd ?_ rfl rfl rfl rfl rfl

theorem State.tideGo_keeps (st : TideState) (cause : Nat) (value : Int) {s0 s : State} (h0 : s0.Keeps s) : s0.Keeps (State.tideGo s st cause value) := by
  unfold State.tideGo
  repeat' first
    | with_reducible assumption
    | dsimp only
    | split
    | with_reducible refine State.timeEvent_keeps _ _ ?_
    | with_reducible refine State.setReady_keeps _ _ ?_
    | refine keeps_upd ?_ rfl rfl rfl rfl rfl

theorem State.loopJump_keeps (t0 : Nat) {s0 s : State} (h0 : s0.Keeps s) : s0.Keeps (State.loopJump s t0) := by
  unfold State.loopJump
  repeat' first
    | with_reducible assumption
    | dsimp only
    | split
    | with_reducible refine keeps_eq2 (by assumption) ?_
    | with_reducible refine State.tick_keeps ?_
    | with_reducible refine State.note_keeps _ _ ?_
    | with_reducible refine State.takeFree_keeps _ ?_
    | with_reducible refine State.event_keeps _ _ _ ?_
    | refine keeps_upd ?_ rfl rfl rfl rfl rfl

theorem State.leaveHoldover_keeps {s0 s : State} (h0 : s0.Keeps s) : s0.Keeps (State.leaveHoldover s) := by
  unfold State.leaveHoldover
  repeat' first
    | with_reducible assumption
    | dsimp only
    | split
    | refine keeps_upd ?_ rfl rfl rfl rfl rfl

theorem State.stepped_keeps (t0 : Nat) (v : Int) {s0 s : State} (h0 : s0.Keeps s) : s0.Keeps (State.stepped s t0 v) := by
  unfold State.stepped
  repeat' first
    | with_reducible assumption
    | dsimp only
    | split
    | with_reducible refine State.leaveHoldover_keeps ?_
    | with_reducible refine State.tideFlag_keeps _ ?_
    | with_reducible refine State.tideGo_keeps _ _ _ ?_
    | with_reducible refine State.loopJump_keeps _ ?_
    | refine keeps_upd ?_ rfl rfl rfl rfl rfl

theorem State.stepRefused_keeps (flag : Nat) (v : Int) {s0 s : State} (h0 : s0.Keeps s) : s0.Keeps (State.stepRefused s flag v) := by
  unfold State.stepRefused
  repeat' first
    | with_reducible assumption
    | dsimp only
    | split
    | with_reducible refine State.tideFlag_keeps _ ?_
    | with_reducible refine State.bump_keeps _ ?_
    | with_reducible refine State.timeEvent_keeps _ _ ?_

theorem State.tideStep_keeps (v : Int) {s0 s : State} (h0 : s0.Keeps s) : s0.Keeps (State.tideStep s v) := by
  unfold State.tideStep
  split
  · refine State.stepped_keeps _ _ (keeps_tide h0 (fun _ hf => ⟨?_, hf⟩))
    simp only [Tide.shift]
    omega
  · exact State.stepRefused_keeps _ _ h0

theorem State.tideSet_keeps (v : Nat) {s0 s : State} (h0 : s0.Keeps s) : s0.Keeps (State.tideSet s v) := by
  unfold State.tideSet
  split
  · exact State.stepRefused_keeps _ _ h0
  · refine State.stepped_keeps _ _ (keeps_tide h0 (fun _ _ => ⟨Nat.mod_lt _ (by norm_num), by simp [Tide.setTo]⟩))

theorem State.tideRearm_keeps (stopped : Bool) {s0 s : State} (h0 : s0.Keeps s) : s0.Keeps (State.tideRearm s stopped) := by
  unfold State.tideRearm
  repeat' first
    | with_reducible assumption
    | dsimp only
    | split
    | with_reducible refine State.hold_keeps _ _ _ ?_
    | with_reducible refine State.tideGo_keeps _ _ _ ?_
    | with_reducible refine State.tideFlag_keeps _ ?_
    | with_reducible refine State.timeEvent_keeps _ _ ?_
    | refine keeps_upd ?_ rfl rfl rfl rfl rfl

theorem State.writeAddend_keeps (v : Nat) {s0 s : State} (h0 : s0.Keeps s) : s0.Keeps (State.writeAddend s v) := by
  unfold State.writeAddend
  repeat' first
    | with_reducible assumption
    | dsimp only
    | split
    | with_reducible refine State.setRw_keeps _ _ ?_
    | with_reducible refine State.tideFlag_keeps _ ?_
    | with_reducible refine State.timeEvent_keeps _ _ ?_

theorem State.hostAddend_keeps (v : Nat) {s0 s : State} (h0 : s0.Keeps s) : s0.Keeps (State.hostAddend s v) := by
  unfold State.hostAddend
  repeat' first
    | with_reducible assumption
    | dsimp only
    | split
    | with_reducible refine State.writeAddend_keeps _ ?_
    | with_reducible refine State.tideFlag_keeps _ ?_
    | with_reducible refine State.timeEvent_keeps _ _ ?_

theorem State.tideCmd_keeps (cmd : Nat) (stopped : Bool) {s0 s : State} (h0 : s0.Keeps s) : s0.Keeps (State.tideCmd s cmd stopped) := by
  unfold State.tideCmd
  repeat' first
    | with_reducible assumption
    | dsimp only
    | split
    | with_reducible refine State.tideStep_keeps _ ?_
    | with_reducible refine State.tideFlag_keeps _ ?_
    | with_reducible refine State.timeEvent_keeps _ _ ?_
    | with_reducible refine State.tideSet_keeps _ ?_
    | with_reducible refine State.tideRearm_keeps _ ?_

theorem State.supervise_keeps (o : Rat) (t : Rat) {s0 s : State} (h0 : s0.Keeps s) : s0.Keeps (State.supervise s o t) := by
  unfold State.supervise
  repeat' first
    | with_reducible assumption
    | dsimp only
    | split
    | with_reducible refine State.tideSet_keeps _ ?_
    | with_reducible refine State.writeAddend_keeps _ ?_
    | with_reducible refine State.hold_keeps _ _ _ ?_
    | with_reducible refine State.tideStep_keeps _ ?_
    | with_reducible refine State.stepRefused_keeps _ _ ?_
    | refine keeps_upd ?_ rfl rfl rfl rfl rfl

theorem State.measure_keeps (o : Rat) (t : Rat) {s0 s : State} (h0 : s0.Keeps s) : s0.Keeps (State.measure s o t) := by
  unfold State.measure
  repeat' first
    | with_reducible assumption
    | dsimp only
    | split
    | with_reducible refine State.leaveHoldover_keeps ?_
    | with_reducible refine State.tideGo_keeps _ _ _ ?_
    | with_reducible refine State.supervise_keeps _ _ ?_
    | refine keeps_upd ?_ rfl rfl rfl rfl rfl

theorem State.enterHoldover_keeps {s0 s : State} (h0 : s0.Keeps s) : s0.Keeps (State.enterHoldover s) := by
  unfold State.enterHoldover
  repeat' first
    | with_reducible assumption
    | dsimp only
    | split
    | with_reducible refine State.setRw_keeps _ _ ?_
    | with_reducible refine State.hold_keeps _ _ _ ?_
    | with_reducible refine State.tideFlag_keeps _ ?_
    | with_reducible refine State.tideGo_keeps _ _ _ ?_
    | refine keeps_upd ?_ rfl rfl rfl rfl rfl

theorem State.passOn_keeps (q : Nat) (f : TxFrame) {s0 s : State} (h0 : s0.Keeps s) : s0.Keeps (State.passOn s q f) := by
  unfold State.passOn
  repeat' first
    | with_reducible assumption
    | dsimp only
    | split
    | with_reducible refine State.bump_keeps _ ?_
    | with_reducible refine State.enqueue_keeps _ _ ?_
    | refine keeps_upd ?_ rfl rfl rfl rfl rfl

theorem State.relay_keeps (p : Nat) (f : TxFrame) {s0 s : State} (h0 : s0.Keeps s) : s0.Keeps (State.relay s p f) := by
  unfold State.relay
  repeat' first
    | with_reducible assumption
    | dsimp only
    | split
    | with_reducible refine State.passOn_keeps _ _ ?_
    | with_reducible refine keeps_foldl _ _ _ (fun _ _ _ => ?_) ?_
    | with_reducible refine keeps_foldl_snd _ _ _ (fun _ _ _ => ?_) ?_
    | with_reducible refine keeps_foldl_fst _ _ _ (fun _ _ _ => ?_) ?_
    | refine keeps_upd ?_ rfl rfl rfl rfl rfl

theorem State.rxStamped_keeps (p : Nat) {s0 s : State} (h0 : s0.Keeps s) : s0.Keeps (State.rxStamped s p) := by
  unfold State.rxStamped
  repeat' first
    | with_reducible assumption
    | dsimp only
    | split
    | refine keeps_upd ?_ rfl rfl rfl rfl rfl

theorem State.relaySync_keeps (m : SyncMsg) {s0 s : State} (h0 : s0.Keeps s) : s0.Keeps (State.relaySync s m) := by
  unfold State.relaySync
  repeat' first
    | with_reducible assumption
    | dsimp only
    | split
    | with_reducible refine State.relay_keeps _ _ ?_
    | with_reducible refine State.sync_keeps _ ?_
    | refine keeps_upd ?_ rfl rfl rfl rfl rfl

theorem State.sync_keeps (m : SyncMsg) {s0 s : State} (h0 : s0.Keeps s) : s0.Keeps (State.sync s m) := by
  unfold State.sync
  repeat' first
    | with_reducible assumption
    | dsimp only
    | split
    | with_reducible refine State.bump_keeps _ ?_
    | with_reducible refine State.relaySync_keeps _ ?_
    | with_reducible refine State.measure_keeps _ _ ?_
    | refine keeps_upd ?_ rfl rfl rfl rfl rfl

theorem execSyncReceive_keeps (m : SyncMsg) (s : State) : ∃ t, execSyncReceive m s = .next t ∧ s.Keeps t := by
  refine ⟨_, rfl, ?_⟩
  have h0 := State.Keeps.refl s
  repeat' first
    | with_reducible assumption
    | dsimp only
    | split
    | with_reducible refine State.sync_keeps _ ?_

theorem execHoldoverTimeout_keeps (s : State) : ∃ t, execHoldoverTimeout s = .next t ∧ s.Keeps t := by
  refine ⟨_, rfl, ?_⟩
  have h0 := State.Keeps.refl s
  repeat' first
    | with_reducible assumption
    | dsimp only
    | split
    | with_reducible refine State.enterHoldover_keeps ?_

theorem execBestMasterChange_keeps (gm : Dword) (logInterval : Int) (s : State) : ∃ t, execBestMasterChange gm logInterval s = .next t ∧ s.Keeps t := by
  refine ⟨_, rfl, ?_⟩
  have h0 := State.Keeps.refl s
  repeat' first
    | with_reducible assumption
    | dsimp only
    | split
    | with_reducible refine State.tideFlag_keeps _ ?_
    | with_reducible refine State.timeEvent_keeps _ _ ?_
    | refine keeps_upd ?_ rfl rfl rfl rfl rfl

theorem State.pdelayReq_keeps (p : Nat) (domain : Byte) {s0 s : State} (h0 : s0.Keeps s) : s0.Keeps (State.pdelayReq s p domain) := by
  unfold State.pdelayReq
  repeat' first
    | with_reducible assumption
    | dsimp only
    | split
    | with_reducible refine State.bump_keeps _ ?_
    | with_reducible refine State.enqueue_keeps _ _ ?_
    | with_reducible refine State.pdelayResp_keeps _ _ _ ?_
    | refine keeps_upd ?_ rfl rfl rfl rfl rfl

theorem execPdelayReq_keeps (p : Fin 18) (domain : Byte) (s : State) : ∃ t, execPdelayReq p domain s = .next t ∧ s.Keeps t := by
  refine ⟨_, rfl, ?_⟩
  have h0 := State.Keeps.refl s
  repeat' first
    | with_reducible assumption
    | dsimp only
    | split
    | with_reducible refine State.pdelayReq_keeps _ _ ?_

theorem execPdelayTimer_keeps (p : Fin 18) (s : State) : ∃ t, execPdelayTimer p s = .next t ∧ s.Keeps t := by
  refine ⟨_, rfl, ?_⟩
  have h0 := State.Keeps.refl s
  repeat' first
    | with_reducible assumption
    | dsimp only
    | split
    | with_reducible refine State.enqueue_keeps _ _ ?_
    | with_reducible refine State.pdelayReq_keeps _ _ ?_
    | refine keeps_upd ?_ rfl rfl rfl rfl rfl

theorem State.pdelayResp_keeps (p : Nat) (domain : Byte) (turnaround : Nat) {s0 s : State} (h0 : s0.Keeps s) : s0.Keeps (State.pdelayResp s p domain turnaround) := by
  unfold State.pdelayResp
  repeat' first
    | with_reducible assumption
    | dsimp only
    | split
    | with_reducible refine State.bump_keeps _ ?_
    | refine keeps_upd ?_ rfl rfl rfl rfl rfl

theorem execPdelayResp_keeps (p : Fin 18) (domain : Byte) (turnaround : Nat) (s : State) : ∃ t, execPdelayResp p domain turnaround s = .next t ∧ s.Keeps t := by
  refine ⟨_, rfl, ?_⟩
  have h0 := State.Keeps.refl s
  repeat' first
    | with_reducible assumption
    | dsimp only
    | split
    | with_reducible refine State.pdelayResp_keeps _ _ _ ?_

theorem execPpsInEdge_keeps (s : State) : ∃ t, execPpsInEdge s = .next t ∧ s.Keeps t := by
  refine ⟨_, rfl, ?_⟩
  have h0 := State.Keeps.refl s
  repeat' first
    | with_reducible assumption
    | dsimp only
    | split
    | with_reducible refine State.measure_keeps _ _ ?_
    | refine keeps_upd ?_ rfl rfl rfl rfl rfl

theorem execPpsOutEdge_keeps (s : State) : ∃ t, execPpsOutEdge s = .next t ∧ s.Keeps t := by
  refine ⟨_, rfl, ?_⟩
  have h0 := State.Keeps.refl s
  repeat' first
    | with_reducible assumption
    | dsimp only
    | split
    | refine keeps_upd ?_ rfl rfl rfl rfl rfl

end Sys2Proof.Machine
end

