-- ==== Sys2Proof/Laws/KeepsLedger.lean ====
section
/-!
SUPPORT. What every operation of Ledger keeps: the commands that wait, and the invariant of the state.
-/

namespace Sys2Proof.Machine

/-- The first phase of a record keeps the flash canonical. -/
theorem Ledger.begin_wf {l : Ledger} (hw : Bytes.wfFrom 0xFF 0 l.flash = true) (r : LedgerRec) (rest : List LedgerRec) (a : Nat) :
    Bytes.wfFrom 0xFF 0 (l.begin r rest a).flash = true := by
  unfold Ledger.begin
  dsimp only
  exact flashProg_wf hw _ _

/-- The ledger's next action keeps the flash canonical. -/
theorem Ledger.pump_wf (held : Bool) {l : Ledger} (hw : Bytes.wfFrom 0xFF 0 l.flash = true) :
    Bytes.wfFrom 0xFF 0 (l.pump held).flash = true := by
  unfold Ledger.pump
  dsimp only
  generalize flashBlank l.flash = fb
  generalize l.keepOf = ko
  repeat' first
    | with_reducible exact hw
    | with_reducible exact Ledger.begin_wf hw _ _ _
    | split

/-- A formatted ledger's flash is canonical. -/
theorem Ledger.formatted_wf (l : Ledger) : Bytes.wfFrom 0xFF 0 l.formatted.flash = true := by
  unfold Ledger.formatted
  dsimp only
  exact flashProg_wf rfl _ _

theorem State.ledgerPump_keeps {s0 s : State} (h0 : s0.Keeps s) : s0.Keeps s.ledgerPump :=
  keeps_ledger h0 (fun hw => Ledger.pump_wf _ hw)

/-- The second phase of a record keeps the flash canonical. -/
theorem Ledger.commit_wf (ok : Bool) {l : Ledger} (hw : Bytes.wfFrom 0xFF 0 l.flash = true) :
    Bytes.wfFrom 0xFF 0 (l.commit ok).flash = true := by
  unfold Ledger.commit
  split
  · exact hw
  · split
    · exact flashProg_wf hw _ _
    · exact hw

theorem State.record_keeps (type : Byte) (payload : List Byte) {s0 s : State} (h0 : s0.Keeps s) : s0.Keeps (State.record s type payload) := by
  unfold State.record
  repeat' first
    | with_reducible assumption
    | dsimp only
    | split
    | with_reducible refine State.ledgerPump_keeps ?_
    | refine keeps_upd ?_ rfl rfl rfl rfl rfl

theorem execWearRecord_keeps (shutdown : Bool) (s : State) : ∃ t, execWearRecord shutdown s = .next t ∧ s.Keeps t := by
  refine ⟨_, rfl, ?_⟩
  have h0 := State.Keeps.refl s
  repeat' first
    | with_reducible assumption
    | dsimp only
    | split
    | with_reducible refine State.record_keeps _ _ ?_
    | refine keeps_upd ?_ rfl rfl rfl rfl rfl

theorem execHoursRecord_keeps (shutdown : Bool) (s : State) : ∃ t, execHoursRecord shutdown s = .next t ∧ s.Keeps t := by
  refine ⟨_, rfl, ?_⟩
  have h0 := State.Keeps.refl s
  repeat' first
    | with_reducible assumption
    | dsimp only
    | split
    | with_reducible refine State.record_keeps _ _ ?_
    | refine keeps_upd ?_ rfl rfl rfl rfl rfl

theorem State.finishShutdown_keeps (recorded : Bool) {s0 s : State} (h0 : s0.Keeps s) : s0.Keeps (State.finishShutdown s recorded) := by
  unfold State.finishShutdown
  repeat' first
    | with_reducible assumption
    | dsimp only
    | split
    | with_reducible refine keeps_eq2 (by assumption) ?_
    | with_reducible refine State.takeFree_keeps _ ?_
    | with_reducible refine State.event_keeps _ _ _ ?_
    | refine keeps_upd ?_ rfl rfl rfl rfl rfl

theorem State.recordCommit_keeps (readBackOk : Bool) {s0 s : State} (h0 : s0.Keeps s) : s0.Keeps (State.recordCommit s readBackOk) := by
  unfold State.recordCommit
  repeat' first
    | with_reducible assumption
    | dsimp only
    | split
    | with_reducible refine State.finishShutdown_keeps _ ?_
    | with_reducible refine State.ledgerPump_keeps ?_
    | with_reducible refine keeps_ledger ?_ (fun hw => Ledger.commit_wf _ hw)

theorem State.eraseDone_keeps {s0 s : State} (h0 : s0.Keeps s) : s0.Keeps (State.eraseDone s) := by
  unfold State.eraseDone
  repeat' first
    | with_reducible assumption
    | dsimp only
    | split
    | with_reducible refine State.ledgerPump_keeps ?_
    | with_reducible refine keeps_ledger (s := s) ?_ (fun hw => flashErase_wf hw _)
    | with_reducible refine keeps_ledger (s := s) ?_ (fun _ => Ledger.formatted_wf _)

end Sys2Proof.Machine
end

