-- ==== Sys2Proof/Laws/KeepsIdentity.lean ====
section
/-!
SUPPORT. What every operation of Identity keeps: the commands that wait, and the invariant of the state.
-/

namespace Sys2Proof.Machine

theorem State.takePuf_keeps {s0 s : State} (h0 : s0.Keeps s) : s0.Keeps (State.takePuf s).2 := by
  unfold State.takePuf
  repeat' first
    | with_reducible assumption
    | dsimp only
    | split
    | refine keeps_upd ?_ rfl rfl rfl rfl rfl

theorem State.enrolNow_keeps (w : BitVec 3570) (r : BitVec 262) {s0 s : State} (h0 : s0.Keeps s) : s0.Keeps (State.enrolNow s w r) := by
  unfold State.enrolNow
  dsimp only
  generalize helperBytes _ _ = b
  refine keeps_ledger_sec h0 (fun hw => ?_)
  dsimp only
  generalize hf : flashProg (flashErase (flashErase s.ledger.flash 1) 2) 0x1000 b = f
  have h1 : Bytes.wfFrom 0xFF 0 f = true := by
    subst hf
    exact flashProg_wf (flashErase_wf (flashErase_wf hw _) _) _ _
  exact flashProg_wf h1 _ _

theorem State.recover_keeps (w : BitVec 3570) (k : Nat) {s0 s : State} (h0 : s0.Keeps s) : s0.Keeps (State.recover s w k) := by
  unfold State.recover
  dsimp only
  split
  all_goals
    refine keeps_ledger_sec h0 (fun hw => ?_)
    dsimp only
    split
    · exact hw
    · generalize hf : flashErase s.ledger.flash (3 - k) = f
      have h1 : Bytes.wfFrom 0xFF 0 f = true := by
        subst hf
        exact flashErase_wf hw _
      exact flashProg_wf h1 _ _

theorem State.identify_keeps (w : BitVec 3570) (entropy : BitVec 262) (formatted : Bool) {s0 s : State} (h0 : s0.Keeps s) : s0.Keeps (State.identify s w entropy formatted) := by
  unfold State.identify
  repeat' first
    | with_reducible assumption
    | dsimp only
    | split
    | with_reducible refine State.enrolNow_keeps _ _ ?_
    | with_reducible refine State.recover_keeps _ _ ?_
    | refine keeps_upd ?_ rfl rfl rfl rfl rfl

/-- The ledger found at start has a canonical flash. -/
theorem Ledger.start_wf {l : Ledger} (hw : Bytes.wfFrom 0xFF 0 l.flash = true) : Bytes.wfFrom 0xFF 0 l.start.1.flash = true := by
  have hs (l : Ledger) : l.scan.1.flash = l.flash := by
    unfold Ledger.scan
    dsimp only
    split <;> rfl
  have hh (l : Ledger) : l.loadHours.flash = l.flash := by
    unfold Ledger.loadHours
    split <;> rfl
  unfold Ledger.start
  split
  · exact hw
  · split
    · exact Ledger.formatted_wf l
    · split
      · simp only [hh, hs]
        exact hw
      · exact hw

theorem State.readLedger_keeps {s0 s : State} (h0 : s0.Keeps s) : s0.Keeps s.readLedger.1 := by
  unfold State.readLedger
  dsimp only
  exact keeps_foldl _ _ _ (fun _ _ h => State.bump_keeps _ h) (keeps_ledger h0 (fun hw => Ledger.start_wf hw))

end Sys2Proof.Machine
end

