-- ==== Sys2Proof/Laws/KeepsPower.lean ====
section
/-!
SUPPORT. What every operation of Power keeps: the commands that wait, and the invariant of the state.
-/

namespace Sys2Proof.Machine

theorem State.resetCommon_keeps {s0 s : State} (h0 : s0.Keeps s) : s0.Keeps (State.resetCommon s) := by
  refine ⟨h0.1, fun i => ?_⟩
  have j := h0.2 i
  exact { mem := Bytes.wfFrom_filter j.mem _, flash := j.flash, tideNs := State.reset_inv.tideNs, tideFrac := State.reset_inv.tideFrac,
          counts := State.reset_inv.counts, unackedA := State.reset_inv.unackedA, unackedB := State.reset_inv.unackedB,
          logs := State.reset_inv.logs, jobIds := State.reset_inv.jobIds, jobNext := State.reset_inv.jobNext,
          lines := State.reset_inv.lines }

theorem State.resetWarm_keeps {s0 s : State} (h0 : s0.Keeps s) : s0.Keeps (State.resetWarm s) := by
  unfold State.resetWarm
  repeat' first
    | with_reducible assumption
    | dsimp only
    | split
    | with_reducible refine State.resetCommon_keeps ?_
    | refine keeps_upd ?_ rfl rfl rfl rfl rfl

theorem State.resetCold_keeps {s0 s : State} (h0 : s0.Keeps s) : s0.Keeps (State.resetCold s) := by
  unfold State.resetCold
  repeat' first
    | with_reducible assumption
    | dsimp only
    | split
    | with_reducible refine State.resetCommon_keeps ?_
    | with_reducible refine State.control_keeps _ _ _ _ _ (fun _ _ _ => ?_) ?_
    | refine keeps_upd ?_ rfl rfl rfl rfl rfl

theorem State.reboot_keeps {s0 s : State} (h0 : s0.Keeps s) : s0.Keeps (State.reboot s) := by
  unfold State.reboot
  repeat' first
    | with_reducible assumption
    | dsimp only
    | split
    | with_reducible refine keeps_eq2 (by assumption) ?_
    | with_reducible refine State.readLedger_keeps ?_

theorem execPorstNAssert_keeps (ns : Nat) (acts : Bool) (s : State) : ∃ t, execPorstNAssert ns acts s = .next t ∧ s.Keeps t := by
  refine ⟨_, rfl, ?_⟩
  have h0 := State.Keeps.refl s
  repeat' first
    | with_reducible assumption
    | dsimp only
    | split
    | with_reducible refine State.resetCold_keeps ?_
    | refine keeps_upd ?_ rfl rfl rfl rfl rfl

theorem execPorstNRelease_keeps (puf : BitVec 3570) (entropy : BitVec 262) (s : State) : ∃ t, execPorstNRelease puf entropy s = .next t ∧ s.Keeps t := by
  refine ⟨_, rfl, ?_⟩
  have h0 := State.Keeps.refl s
  repeat' first
    | with_reducible assumption
    | dsimp only
    | split
    | with_reducible refine keeps_eq2 (by assumption) ?_
    | with_reducible refine State.resetCold_keeps ?_
    | with_reducible refine State.takePuf_keeps ?_
    | with_reducible refine State.readLedger_keeps ?_
    | with_reducible refine State.identify_keeps _ _ _ ?_
    | refine keeps_upd ?_ rfl rfl rfl rfl rfl

theorem execSysrstN_keeps (ns : Nat) (acts : Bool) (s : State) : ∃ t, execSysrstN ns acts s = .next t ∧ s.Keeps t := by
  refine ⟨_, rfl, ?_⟩
  have h0 := State.Keeps.refl s
  repeat' first
    | with_reducible assumption
    | dsimp only
    | split
    | with_reducible refine State.resetWarm_keeps ?_
    | with_reducible refine State.reboot_keeps ?_

theorem State.holdWrites_keeps {s0 s : State} (h0 : s0.Keeps s) : s0.Keeps (State.holdWrites s) := by
  unfold State.holdWrites
  repeat' first
    | with_reducible assumption
    | dsimp only
    | split
    | with_reducible refine State.note_keeps _ _ ?_
    | with_reducible refine State.finishShutdown_keeps _ ?_
    | refine keeps_upd ?_ rfl rfl rfl rfl rfl

theorem State.lowEnded_keeps {s0 s : State} (h0 : s0.Keeps s) : s0.Keeps (State.lowEnded s) := by
  unfold State.lowEnded
  repeat' first
    | with_reducible assumption
    | dsimp only
    | split
    | refine keeps_upd ?_ rfl rfl rfl rfl rfl

theorem State.pwrSag_keeps (lowNs : Nat) {s0 s : State} (h0 : s0.Keeps s) : s0.Keeps (State.pwrSag s lowNs) := by
  unfold State.pwrSag
  repeat' first
    | with_reducible assumption
    | dsimp only
    | split
    | with_reducible refine State.holdWrites_keeps ?_
    | with_reducible refine State.lowEnded_keeps ?_
    | refine keeps_upd ?_ rfl rfl rfl rfl rfl

theorem State.vddIo_keeps (mv : Nat) {s0 s : State} (h0 : s0.Keeps s) : s0.Keeps (State.vddIo s mv) := by
  unfold State.vddIo
  repeat' first
    | with_reducible assumption
    | dsimp only
    | split
    | with_reducible refine State.holdWrites_keeps ?_
    | with_reducible refine State.lowEnded_keeps ?_
    | refine keeps_upd ?_ rfl rfl rfl rfl rfl

theorem State.vddCore_keeps (mv : Nat) {s0 s : State} (h0 : s0.Keeps s) : s0.Keeps (State.vddCore s mv) := by
  unfold State.vddCore
  repeat' first
    | with_reducible assumption
    | dsimp only
    | split
    | with_reducible refine State.holdWrites_keeps ?_
    | with_reducible refine State.lowEnded_keeps ?_
    | refine keeps_upd ?_ rfl rfl rfl rfl rfl

theorem execLedgerWriteResume_keeps (s : State) : ∃ t, execLedgerWriteResume s = .next t ∧ s.Keeps t := by
  refine ⟨_, rfl, ?_⟩
  have h0 := State.Keeps.refl s
  repeat' first
    | with_reducible assumption
    | dsimp only
    | split
    | with_reducible refine State.ledgerPump_keeps ?_
    | refine keeps_flash ?_ (fun hw => flashErase_wf (flashErase_wf hw _) _) rfl rfl rfl rfl
    | refine keeps_upd ?_ rfl rfl rfl rfl rfl

theorem execBrownOut_keeps (rail : Rail) (mv : Nat) (ns : Nat) (s : State) : ∃ t, execBrownOut rail mv ns s = .next t ∧ s.Keeps t := by
  refine ⟨_, rfl, ?_⟩
  have h0 := State.Keeps.refl s
  repeat' first
    | with_reducible assumption
    | dsimp only
    | split
    | with_reducible refine State.resetWarm_keeps ?_
    | refine keeps_upd ?_ rfl rfl rfl rfl rfl

theorem execBrownOutExit_keeps (s : State) : ∃ t, execBrownOutExit s = .next t ∧ s.Keeps t := by
  refine ⟨_, rfl, ?_⟩
  have h0 := State.Keeps.refl s
  repeat' first
    | with_reducible assumption
    | dsimp only
    | split
    | with_reducible refine State.reboot_keeps ?_
    | refine keeps_upd ?_ rfl rfl rfl rfl rfl

theorem execPllUnlock_keeps (s : State) : ∃ t, execPllUnlock s = .next t ∧ s.Keeps t := by
  refine ⟨_, rfl, ?_⟩
  have h0 := State.Keeps.refl s
  repeat' first
    | with_reducible assumption
    | dsimp only
    | split
    | with_reducible refine State.resetWarm_keeps ?_
    | refine keeps_upd ?_ rfl rfl rfl rfl rfl

theorem execPllRelockExit_keeps (s : State) : ∃ t, execPllRelockExit s = .next t ∧ s.Keeps t := by
  refine ⟨_, rfl, ?_⟩
  have h0 := State.Keeps.refl s
  repeat' first
    | with_reducible assumption
    | dsimp only
    | split
    | with_reducible refine State.reboot_keeps ?_
    | refine keeps_upd ?_ rfl rfl rfl rfl rfl

theorem State.setThrottle_keeps (on : Bool) {s0 s : State} (h0 : s0.Keeps s) : s0.Keeps (State.setThrottle s on) := by
  unfold State.setThrottle
  repeat' first
    | with_reducible assumption
    | dsimp only
    | split
    | with_reducible refine State.bump_keeps _ ?_
    | with_reducible refine State.event_keeps _ _ _ ?_
    | refine keeps_upd ?_ rfl rfl rfl rfl rfl

theorem execThermalSample_keeps (temps : List Int) (s : State) : ∃ t, execThermalSample temps s = .next t ∧ s.Keeps t := by
  refine ⟨_, rfl, ?_⟩
  have h0 := State.Keeps.refl s
  repeat' first
    | with_reducible assumption
    | dsimp only
    | split
    | with_reducible refine State.note_keeps _ _ ?_
    | with_reducible refine State.setThrottle_keeps _ ?_
    | refine keeps_upd ?_ rfl rfl rfl rfl rfl

theorem execThermTrip_keeps (celsius : Int) (s : State) : ∃ t, execThermTrip celsius s = .next t ∧ s.Keeps t := by
  refine ⟨_, rfl, ?_⟩
  have h0 := State.Keeps.refl s
  repeat' first
    | with_reducible assumption
    | dsimp only
    | split
    | with_reducible refine State.resetWarm_keeps ?_
    | refine keeps_upd ?_ rfl rfl rfl rfl rfl

theorem State.refreshUnits_keeps {s0 s : State} (h0 : s0.Keeps s) : s0.Keeps (State.refreshUnits s) := by
  unfold State.refreshUnits
  repeat' first
    | with_reducible assumption
    | dsimp only
    | split
    | with_reducible refine State.setCoreReady_keeps _ _ ?_
    | with_reducible refine State.setReady_keeps _ _ ?_
    | with_reducible refine keeps_foldl _ _ _ (fun _ _ _ => ?_) ?_
    | with_reducible refine keeps_foldl_snd _ _ _ (fun _ _ _ => ?_) ?_
    | with_reducible refine keeps_foldl_fst _ _ _ (fun _ _ _ => ?_) ?_
    | refine keeps_upd ?_ rfl rfl rfl rfl rfl

theorem State.avsCheck_keeps {s0 s : State} (h0 : s0.Keeps s) : s0.Keeps (State.avsCheck s) := by
  unfold State.avsCheck
  repeat' first
    | with_reducible assumption
    | dsimp only
    | split
    | with_reducible refine State.refreshUnits_keeps ?_
    | refine keeps_upd ?_ rfl rfl rfl rfl rfl

theorem State.setGoal_keeps (g : Nat) {s0 s : State} (h0 : s0.Keeps s) : s0.Keeps (State.setGoal s g) := by
  unfold State.setGoal
  repeat' first
    | with_reducible assumption
    | dsimp only
    | split
    | with_reducible refine State.avsCheck_keeps ?_
    | refine keeps_upd ?_ rfl rfl rfl rfl rfl

theorem execAvsStep_keeps (s : State) : ∃ t, execAvsStep s = .next t ∧ s.Keeps t := by
  refine ⟨_, rfl, ?_⟩
  have h0 := State.Keeps.refl s
  repeat' first
    | with_reducible assumption
    | dsimp only
    | split
    | refine keeps_upd ?_ rfl rfl rfl rfl rfl

theorem execAvsLateTimeout_keeps (s : State) : ∃ t, execAvsLateTimeout s = .next t ∧ s.Keeps t := by
  refine ⟨_, rfl, ?_⟩
  have h0 := State.Keeps.refl s
  repeat' first
    | with_reducible assumption
    | dsimp only
    | split
    | with_reducible refine State.note_keeps _ _ ?_
    | refine keeps_upd ?_ rfl rfl rfl rfl rfl

theorem State.wearSample_keeps (l : List SalReading) (d : Nat) {s0 s : State} (h0 : s0.Keeps s) : s0.Keeps (State.wearSample s l d) := by
  unfold State.wearSample
  repeat' first
    | with_reducible assumption
    | dsimp only
    | split
    | with_reducible refine keeps_eq2 (by assumption) ?_
    | with_reducible refine State.takeFree_keeps _ ?_
    | with_reducible refine State.report_keeps _ _ _ _ _ _ ?_
    | refine keeps_upd ?_ rfl rfl rfl rfl rfl

theorem execSalinometerSample_keeps (readings : List SalReading) (s : State) : ∃ t, execSalinometerSample readings s = .next t ∧ s.Keeps t := by
  refine ⟨_, rfl, ?_⟩
  have h0 := State.Keeps.refl s
  repeat' first
    | with_reducible assumption
    | dsimp only
    | split
    | with_reducible refine State.wearSample_keeps _ _ ?_
    | with_reducible refine State.setGoal_keeps _ ?_
    | with_reducible refine State.record_keeps _ _ ?_
    | with_reducible refine keeps_foldl _ _ _ (fun _ _ _ => ?_) ?_

end Sys2Proof.Machine
end

