-- ==== Sys2Proof/Laws/KeepsMem.lean ====
section
/-!
SUPPORT. What every operation of Mem keeps: the commands that wait, and the invariant of the state.
-/

namespace Sys2Proof.Machine

/-- A core changed so that its buffers' entries stay apart. -/
theorem State.onCore_keeps_lines (n : Nat) (f : Core → Core) {s0 s : State}
    (hf : s.LinesApart n → ((f (s.core n)).buf.map BufEntry.line).Nodup ∧ ∀ e ∈ (f (s.core n)).buf, e.line % 64 = 0)
    (h0 : s0.Keeps s) : s0.Keeps (State.onCore s n f) :=
  ⟨h0.1, fun i =>
    let j := h0.2 i
    { mem := j.mem, flash := j.flash, tideNs := j.tideNs, tideFrac := j.tideFrac, counts := j.counts, unackedA := j.unackedA,
      unackedB := j.unackedB, logs := j.logs, jobIds := j.jobIds, jobNext := j.jobNext,
      lines := fun k => by
        by_cases e : k = n
        · subst e
          simpa [State.LinesApart, State.onCore, State.core] using hf (j.lines k)
        · simpa [State.LinesApart, State.onCore, State.core, SMap.getD_put_ne _ _ _ e] using j.lines k }⟩

/-- A core changed but for its buffers. -/
theorem State.onCore_keeps (n : Nat) (f : Core → Core) {s0 s : State} (hf : ∀ c, (f c).buf = c.buf) (h0 : s0.Keeps s) :
    s0.Keeps (State.onCore s n f) :=
  State.onCore_keeps_lines n f (fun h => by rw [hf]; exact h) h0

/-- Entries taken out of buffers leave the others apart. -/
theorem apart_filter {l : List BufEntry} (g : BufEntry → Bool) (h : (l.map BufEntry.line).Nodup ∧ ∀ e ∈ l, e.line % 64 = 0) :
    ((l.filter g).map BufEntry.line).Nodup ∧ ∀ e ∈ l.filter g, e.line % 64 = 0 :=
  ⟨List.Nodup.sublist (List.Sublist.map _ List.filter_sublist) h.1, fun e he => h.2 e (List.mem_filter.1 he).1⟩

/-- What is found for a line holds that line. -/
theorem bufFind_line {line : Nat} {l : List BufEntry} {e : BufEntry} (h : bufFind line l = some e) : e.line = line := by
  induction l with
  | nil => cases h
  | cons a r ih =>
    unfold bufFind at h
    split at h
    · cases h; assumption
    · exact ih h

theorem State.onPan_keeps (p : Nat) (f : Pan → Pan) {s0 s : State} (h0 : s0.Keeps s) : s0.Keeps (State.onPan s p f) := by
  unfold State.onPan
  repeat' first
    | with_reducible assumption
    | dsimp only
    | split
    | refine keeps_upd ?_ rfl rfl rfl rfl rfl

theorem State.onCtx_keeps (p : Nat) (c : Nat) (f : Ctx → Ctx) {s0 s : State} (h0 : s0.Keeps s) : s0.Keeps (State.onCtx s p c f) := by
  unfold State.onCtx
  repeat' first
    | with_reducible assumption
    | dsimp only
    | split
    | with_reducible refine State.onPan_keeps _ _ ?_

theorem State.poke_keeps (a : Nat) (bs : List Byte) (bad : Bool) {s0 s : State} (h0 : s0.Keeps s) : s0.Keeps (State.poke s a bs bad) := by
  unfold State.poke
  exact keeps_mem h0 (fun hm => Bytes.wfFrom_writeN hm _ _)

theorem State.flushWord_keeps (e : BufEntry) (w : Nat) {s0 s : State} (h0 : s0.Keeps s) : s0.Keeps (State.flushWord s e w) := by
  unfold State.flushWord
  repeat' first
    | with_reducible assumption
    | dsimp only
    | split
    | with_reducible refine State.poke_keeps _ _ _ ?_
    | with_reducible refine keeps_foldl _ _ _ (fun _ _ _ => ?_) ?_

theorem State.flushEntry_keeps (n : Nat) (e : BufEntry) {s0 s : State} (h0 : s0.Keeps s) : s0.Keeps (State.flushEntry s n e) := by
  unfold State.flushEntry
  repeat' first
    | with_reducible assumption
    | dsimp only
    | split
    | refine State.onCore_keeps_lines _ _ (fun h => apart_filter _ h) ?_
    | with_reducible refine State.flushWord_keeps _ _ ?_
    | with_reducible refine keeps_foldl _ _ _ (fun _ _ _ => ?_) ?_

theorem State.flushLine_keeps (line : Nat) {s0 s : State} (h0 : s0.Keeps s) : s0.Keeps (State.flushLine s line) := by
  unfold State.flushLine
  repeat' first
    | with_reducible assumption
    | dsimp only
    | split
    | with_reducible refine State.flushEntry_keeps _ _ ?_

theorem State.flushCore_keeps (n : Nat) {s0 s : State} (h0 : s0.Keeps s) : s0.Keeps (State.flushCore s n) := by
  unfold State.flushCore
  repeat' first
    | with_reducible assumption
    | dsimp only
    | split
    | with_reducible refine State.flushEntry_keeps _ _ ?_
    | with_reducible refine keeps_foldl _ _ _ (fun _ _ _ => ?_) ?_

theorem State.bufRoom_keeps (n : Nat) (line : Nat) {s0 s : State} (h0 : s0.Keeps s) : s0.Keeps (State.bufRoom s n line) := by
  unfold State.bufRoom
  repeat' first
    | with_reducible assumption
    | dsimp only
    | split
    | with_reducible refine State.flushEntry_keeps _ _ ?_

/-- What is found for a line, or made for it, holds that line. -/
theorem bufFind_getD (line at' : Nat) (l : List BufEntry) : ((bufFind line l).getD { line := line, since := at' }).line = line := by
  cases e : bufFind line l with
  | none => rfl
  | some x => exact bufFind_line e

/-- What stands among a core's entries once one has been put there. -/
theorem mem_putEntry {e x : BufEntry} {l : List BufEntry} (h : x ∈ putEntry e l) : x = e ∨ x ∈ l := by
  induction l with
  | nil => exact .inl (List.mem_singleton.1 h)
  | cons y r ih =>
    unfold putEntry at h
    split at h
    · exact (List.mem_cons.1 h).imp id (List.mem_cons_of_mem _)
    · rcases List.mem_cons.1 h with rfl | h
      · exact .inr (List.mem_cons_self ..)
      · exact (ih h).imp id (List.mem_cons_of_mem _)

/-- Entries of different lines stay so when one is put among them. -/
theorem nodup_putEntry (e : BufEntry) {l : List BufEntry} (h : (l.map BufEntry.line).Nodup) : ((putEntry e l).map BufEntry.line).Nodup := by
  induction l with
  | nil => exact List.nodup_singleton _
  | cons y r ih =>
    rw [List.map_cons, List.nodup_cons] at h
    unfold putEntry
    split
    · rename_i hy
      simpa [← hy] using h
    · rename_i hy
      rw [List.map_cons, List.nodup_cons]
      refine ⟨fun hm => ?_, ih h.2⟩
      obtain ⟨x, hx, hl⟩ := List.mem_map.1 hm
      rcases mem_putEntry hx with rfl | hx
      · exact hy hl.symm
      · exact h.1 (List.mem_map.2 ⟨x, hx, hl⟩)

/-- An entry put among a core's. -/
theorem State.putEntry_keeps {n line : Nat} {e : BufEntry} {s0 s : State} (hl : e.line = line) (ha : line % 64 = 0) (h0 : s0.Keeps s) :
    s0.Keeps (s.onCore n (fun c => { c with buf := putEntry e c.buf })) :=
  State.onCore_keeps_lines _ _ (fun h => ⟨nodup_putEntry e h.1, fun x hx => (mem_putEntry hx).elim (fun k => by rw [k, hl, ha]) (h.2 x)⟩) h0

theorem State.bufPut_keeps (n : Nat) (a : Nat) (bs : List Byte) (bad : Bool) {s0 s : State} (h0 : s0.Keeps s) : s0.Keeps (State.bufPut s n a bs bad) := by
  unfold State.bufPut
  repeat' first
    | with_reducible assumption
    | dsimp only
    | split
    | with_reducible refine State.bufRoom_keeps _ _ ?_
    | with_reducible refine State.onCore_keeps _ _ (fun _ => rfl) ?_
    | with_reducible refine State.flushEntry_keeps _ _ ?_
    | with_reducible refine keeps_foldl _ _ _ (fun _ _ _ => ?_) ?_
    | with_reducible refine keeps_foldl_snd _ _ _ (fun _ _ _ => ?_) ?_
    | with_reducible refine keeps_foldl_fst _ _ _ (fun _ _ _ => ?_) ?_
    | refine State.putEntry_keeps (bufFind_getD _ _ _) (by omega) ?_

theorem State.bufRead_keeps (n : Nat) (a : Nat) (len : Nat) {s0 s : State} (h0 : s0.Keeps s) : s0.Keeps (State.bufRead s n a len) := by
  unfold State.bufRead
  repeat' first
    | with_reducible assumption
    | dsimp only
    | split
    | with_reducible refine State.bufRoom_keeps _ _ ?_
    | with_reducible refine State.onCore_keeps _ _ (fun _ => rfl) ?_
    | refine State.putEntry_keeps (bufFind_getD _ _ _) (by omega) ?_

theorem State.place_keeps (a : Nat) (bs : List Byte) (bad : Bool) {s0 s : State} (h0 : s0.Keeps s) : s0.Keeps (State.place s a bs bad) := by
  unfold State.place
  repeat' first
    | with_reducible assumption
    | dsimp only
    | split
    | with_reducible refine State.flushLine_keeps _ ?_
    | with_reducible refine State.poke_keeps _ _ _ ?_
    | with_reducible refine keeps_foldl _ _ _ (fun _ _ _ => ?_) ?_

theorem State.makeDirty_keeps (h : StepProg) (a : Nat) {s0 s : State} (h0 : s0.Keeps s) : s0.Keeps (State.makeDirty s h a) := by
  unfold State.makeDirty
  repeat' first
    | with_reducible assumption
    | dsimp only
    | split
    | with_reducible refine State.flushLine_keeps _ ?_
    | with_reducible refine State.poke_keeps _ _ _ ?_
    | with_reducible refine keeps_foldl _ _ _ (fun _ _ _ => ?_) ?_
    | with_reducible refine keeps_foldl_snd _ _ _ (fun _ _ _ => ?_) ?_
    | with_reducible refine keeps_foldl_fst _ _ _ (fun _ _ _ => ?_) ?_
    | refine keeps_upd ?_ rfl rfl rfl rfl rfl

theorem State.storePiece_keeps (core : Nat) (narrow : Bool) (a : Nat) (bs : List Byte) (bad : Bool) {s0 s : State} (h0 : s0.Keeps s) : s0.Keeps (State.storePiece s core narrow a bs bad) := by
  unfold State.storePiece
  repeat' first
    | with_reducible assumption
    | dsimp only
    | split
    | with_reducible refine State.makeDirty_keeps _ _ ?_
    | with_reducible refine State.bufPut_keeps _ _ _ _ ?_
    | with_reducible refine State.flushLine_keeps _ ?_
    | with_reducible refine State.poke_keeps _ _ _ ?_
    | refine keeps_upd ?_ rfl rfl rfl rfl rfl

theorem State.store_keeps (core : Nat) (narrow : Bool) (a : Nat) (bs : List Byte) (bad : Bool) {s0 s : State} (h0 : s0.Keeps s) : s0.Keeps (State.store s core narrow a bs bad) := by
  unfold State.store
  repeat' first
    | with_reducible assumption
    | dsimp only
    | split
    | with_reducible refine State.storePiece_keeps _ _ _ _ _ ?_
    | with_reducible refine keeps_foldl _ _ _ (fun _ _ _ => ?_) ?_

theorem State.readPiece_keeps (core : Nat) (narrow : Bool) (p : Nat × Nat) {s0 s : State} (h0 : s0.Keeps s) : s0.Keeps (State.readPiece s core narrow p) := by
  unfold State.readPiece
  repeat' first
    | with_reducible assumption
    | dsimp only
    | split
    | with_reducible refine State.bufRead_keeps _ _ _ ?_
    | with_reducible refine State.flushLine_keeps _ ?_
    | refine keeps_upd ?_ rfl rfl rfl rfl rfl

theorem State.mark_keeps (a : Nat) (isFull : Bool) {s0 s : State} (h0 : s0.Keeps s) : s0.Keeps (State.mark s a isFull) := by
  unfold State.mark
  repeat' first
    | with_reducible assumption
    | dsimp only
    | split
    | refine keeps_upd ?_ rfl rfl rfl rfl rfl

theorem State.onChan_keeps (c : Nat) (f : Hbus → Hbus) {s0 s : State} (h0 : s0.Keeps s) : s0.Keeps (State.onChan s c f) := by
  unfold State.onChan
  repeat' first
    | with_reducible assumption
    | dsimp only
    | split
    | refine keeps_upd ?_ rfl rfl rfl rfl rfl

theorem State.cacheLine_keeps (c : Nat) (page : Nat) {s0 s : State} (h0 : s0.Keeps s) : s0.Keeps (State.cacheLine s c page) := by
  unfold State.cacheLine
  repeat' first
    | with_reducible assumption
    | dsimp only
    | split
    | with_reducible refine State.onChan_keeps _ _ ?_
    | with_reducible refine keeps_foldl _ _ _ (fun _ _ _ => ?_) ?_
    | with_reducible refine keeps_foldl_snd _ _ _ (fun _ _ _ => ?_) ?_
    | with_reducible refine keeps_foldl_fst _ _ _ (fun _ _ _ => ?_) ?_
    | refine keeps_upd ?_ rfl rfl rfl rfl rfl

theorem State.putPage_keeps (c : Nat) (page : Nat) (bs : List Byte) (bad : Bool) {s0 s : State} (h0 : s0.Keeps s) : s0.Keeps (State.putPage s c page bs bad) := by
  unfold State.putPage
  repeat' first
    | with_reducible assumption
    | dsimp only
    | split
    | with_reducible refine State.poke_keeps _ _ _ ?_
    | with_reducible refine State.cacheLine_keeps _ _ ?_
    | with_reducible refine State.onChan_keeps _ _ ?_

theorem State.writePage_keeps (c : Nat) (page : Nat) (bs : List Byte) (bad : Bool) {s0 s : State} (h0 : s0.Keeps s) : s0.Keeps (State.writePage s c page bs bad) := by
  unfold State.writePage
  repeat' first
    | with_reducible assumption
    | dsimp only
    | split
    | with_reducible refine State.putPage_keeps _ _ _ _ ?_
    | with_reducible refine keeps_foldl _ _ _ (fun _ _ _ => ?_) ?_

end Sys2Proof.Machine
end

