-- ==== Sys2Proof/Laws/KeepsSluice.lean ====
section
/-!
SUPPORT. What every operation of Sluice keeps: the commands that wait, and the invariant of the state.
-/

namespace Sys2Proof.Machine

theorem State.charge_keeps (p : Nat) (b : Bucket) (n : Nat) {s0 s : State} (h0 : s0.Keeps s) : s0.Keeps (State.charge s p b n) := by
  unfold State.charge
  repeat' first
    | with_reducible assumption
    | dsimp only
    | split
    | with_reducible refine State.onPan_keeps _ _ ?_

theorem State.chargeBy_keeps (p : Nat) (b : Bucket) (k : Nat) (n : Nat) {s0 s : State} (h0 : s0.Keeps s) : s0.Keeps (State.chargeBy s p b k n) := by
  unfold State.chargeBy
  repeat' first
    | with_reducible assumption
    | dsimp only
    | split
    | with_reducible refine State.charge_keeps _ _ _ ?_
    | with_reducible refine keeps_foldl _ _ _ (fun _ _ _ => ?_) ?_

theorem State.grant_keeps (p : Nat) (b : Bucket) {s0 s : State} (h0 : s0.Keeps s) : s0.Keeps (State.grant s p b).1 := by
  unfold State.grant
  repeat' first
    | with_reducible assumption
    | dsimp only
    | split
    | with_reducible refine State.onPan_keeps _ _ ?_

theorem State.chargeSpan_keeps (p : Nat) (n : Nat) (x : Nat × Nat) {s0 s : State} (h0 : s0.Keeps s) : s0.Keeps (State.chargeSpan s p n x) := by
  unfold State.chargeSpan
  repeat' first
    | with_reducible assumption
    | dsimp only
    | split
    | with_reducible refine State.chargeBy_keeps _ _ _ _ ?_

end Sys2Proof.Machine
end

