-- ==== Sys2Proof/Laws/KeepsStream.lean ====
section
/-!
SUPPORT. What every operation of Stream keeps: the commands that wait, and the invariant of the state.
-/

namespace Sys2Proof.Machine

theorem State.pageBad_keeps (ch : Nat) {s0 s : State} (h0 : s0.Keeps s) : s0.Keeps (State.pageBad s ch) := by
  unfold State.pageBad
  repeat' first
    | with_reducible assumption
    | dsimp only
    | split
    | with_reducible refine State.note_keeps _ _ ?_
    | with_reducible refine State.onChan_keeps _ _ ?_
    | with_reducible refine State.event_keeps _ _ _ ?_
    | with_reducible refine State.report_keeps _ _ _ _ _ _ ?_
    | refine keeps_upd ?_ rfl rfl rfl rfl rfl

theorem State.fetchAt_keeps (c : Nat) (page : Nat) (errs : Nat) {s0 s : State} (h0 : s0.Keeps s) : s0.Keeps (State.fetchAt s c page errs).2 := by
  unfold State.fetchAt
  repeat' first
    | with_reducible assumption
    | dsimp only
    | split
    | with_reducible refine State.report_keeps _ _ _ _ _ _ ?_
    | with_reducible refine State.pageBad_keeps _ ?_
    | refine keeps_upd ?_ rfl rfl rfl rfl rfl

theorem State.fetchPage_keeps (a : Nat) {s0 s : State} (h0 : s0.Keeps s) : s0.Keeps (State.fetchPage s a).2 := by
  unfold State.fetchPage
  repeat' first
    | with_reducible assumption
    | dsimp only
    | split
    | with_reducible refine keeps_eq2 (by assumption) ?_
    | with_reducible refine State.fetchAt_keeps _ _ _ ?_
    | refine keeps_upd ?_ rfl rfl rfl rfl rfl

theorem State.readStore_keeps (l : List Nat) {s0 s : State} (h0 : s0.Keeps s) : s0.Keeps (State.readStore l s).2 := by
  induction l generalizing s with
  | nil => exact h0
  | cons i r ih => exact ih (State.fetchAt_keeps _ _ _ h0)

theorem State.stageLayer_keeps (p : Nat) (c : Nat) (n : Nat) (rank : Nat) (k : Nat) (bad : Bool) {s0 s : State} (h0 : s0.Keeps s) : s0.Keeps (State.stageLayer s p c n rank k bad) := by
  unfold State.stageLayer
  repeat' first
    | with_reducible assumption
    | dsimp only
    | split
    | with_reducible refine State.place_keeps _ _ _ ?_
    | refine keeps_upd ?_ rfl rfl rfl rfl rfl

theorem State.pageCame_keeps (p : Nat) (c : Nat) (n : Nat) (rank : Nat) (k : Nat) (bad : Bool) {s0 s : State} (h0 : s0.Keeps s) : s0.Keeps (State.pageCame s p c n rank k bad) := by
  unfold State.pageCame
  repeat' first
    | with_reducible assumption
    | dsimp only
    | split
    | with_reducible refine State.onCore_keeps _ _ (fun _ => rfl) ?_
    | with_reducible refine State.stageLayer_keeps _ _ _ _ _ _ ?_
    | refine keeps_upd ?_ rfl rfl rfl rfl rfl

theorem State.askLayer_keeps (p : Nat) (c : Nat) (n : Nat) (k : Nat) {s0 s : State} (h0 : s0.Keeps s) : s0.Keeps (State.askLayer s p c n k) := by
  unfold State.askLayer
  repeat' first
    | with_reducible assumption
    | dsimp only
    | split
    | with_reducible refine State.chargeBy_keeps _ _ _ _ ?_
    | with_reducible refine State.onCore_keeps _ _ (fun _ => rfl) ?_
    | with_reducible refine State.pageCame_keeps _ _ _ _ _ _ ?_
    | refine keeps_upd ?_ rfl rfl rfl rfl rfl

theorem State.askTo_keeps (p : Nat) (c : Nat) (n : Nat) (k : Nat) {s0 s : State} (h0 : s0.Keeps s) : s0.Keeps (State.askTo s p c n k) := by
  unfold State.askTo
  repeat' first
    | with_reducible assumption
    | dsimp only
    | split
    | with_reducible refine State.askLayer_keeps _ _ _ _ ?_

theorem State.touchHalf_keeps (p : Nat) (c : Nat) (n : Nat) (h : Nat) {s0 s : State} (h0 : s0.Keeps s) : s0.Keeps (State.touchHalf s p c n h) := by
  unfold State.touchHalf
  repeat' first
    | with_reducible assumption
    | dsimp only
    | split
    | with_reducible refine State.stage_keeps _ _ _ _ ?_
    | with_reducible refine State.onCore_keeps _ _ (fun _ => rfl) ?_
    | with_reducible refine State.askTo_keeps _ _ _ _ ?_
    | refine keeps_upd ?_ rfl rfl rfl rfl rfl

theorem State.streamTouch_keeps (p : Nat) (c : Nat) (n : Nat) (rds : List (Nat × Nat)) {s0 s : State} (h0 : s0.Keeps s) : s0.Keeps (State.streamTouch s p c n rds) := by
  unfold State.streamTouch
  repeat' first
    | with_reducible assumption
    | dsimp only
    | split
    | with_reducible refine State.touchHalf_keeps _ _ _ _ ?_

end Sys2Proof.Machine
end

