-- ==== Sys2Proof/Laws/KeepsSeq.lean ====
section
/-!
SUPPORT. What every operation of Seq keeps: the commands that wait, and the invariant of the state.
-/

namespace Sys2Proof.Machine

theorem State.onSlot_keeps (p : Nat) (c : Nat) (rank : Nat) (k : Nat) (f : SlotSt → SlotSt) {s0 s : State} (h0 : s0.Keeps s) : s0.Keeps (State.onSlot s p c rank k f) := by
  unfold State.onSlot
  repeat' first
    | with_reducible assumption
    | dsimp only
    | split
    | with_reducible refine State.onCtx_keeps _ _ _ ?_

theorem State.emptyShare_keeps (p : Nat) (c : Nat) {s0 s : State} (h0 : s0.Keeps s) : s0.Keeps (State.emptyShare s p c) := by
  unfold State.emptyShare
  repeat' first
    | with_reducible assumption
    | dsimp only
    | split
    | refine keeps_upd ?_ rfl rfl rfl rfl rfl

theorem State.dropDirty_keeps (p : Nat) (c : Nat) {s0 s : State} (h0 : s0.Keeps s) : s0.Keeps (State.dropDirty s p c) := by
  unfold State.dropDirty
  repeat' first
    | with_reducible assumption
    | dsimp only
    | split
    | refine keeps_upd ?_ rfl rfl rfl rfl rfl

theorem State.stopCore_keeps (n : Nat) {s0 s : State} (h0 : s0.Keeps s) : s0.Keeps (State.stopCore s n) := by
  unfold State.stopCore
  repeat' first
    | with_reducible assumption
    | dsimp only
    | split
    | with_reducible refine State.flushCore_keeps _ ?_
    | with_reducible refine State.onCore_keeps _ _ (fun _ => rfl) ?_
    | refine keeps_upd ?_ rfl rfl rfl rfl rfl

theorem State.ctxEvent_keeps (p : Nat) (c : Nat) (fault : Nat) {s0 s : State} (h0 : s0.Keeps s) : s0.Keeps (State.ctxEvent s p c fault) := by
  unfold State.ctxEvent
  repeat' first
    | with_reducible assumption
    | dsimp only
    | split
    | with_reducible refine State.fault_keeps _ _ _ ?_
    | with_reducible refine State.event_keeps _ _ _ ?_

theorem State.seqReport_keeps (n : Nat) (cls : EClass) (code : Nat) (desc : Nat) {s0 s : State} (h0 : s0.Keeps s) : s0.Keeps (State.seqReport s n cls code desc) := by
  unfold State.seqReport
  repeat' first
    | with_reducible assumption
    | dsimp only
    | split
    | with_reducible refine State.report_keeps _ _ _ _ _ _ ?_

theorem State.payOwed_keeps (p : Nat) (c : Nat) (cls : EClass) {s0 s : State} (h0 : s0.Keeps s) : s0.Keeps (State.payOwed s p c cls) := by
  unfold State.payOwed
  repeat' first
    | with_reducible assumption
    | dsimp only
    | split
    | with_reducible refine State.seqReport_keeps _ _ _ _ ?_
    | with_reducible refine State.onCtx_keeps _ _ _ ?_
    | with_reducible refine keeps_foldl _ _ _ (fun _ _ _ => ?_) ?_

theorem State.halt_keeps (p : Nat) (c : Nat) (n : Nat) (f : StepFault) (desc : Nat) {s0 s : State} (h0 : s0.Keeps s) : s0.Keeps (State.halt s p c n f desc) := by
  unfold State.halt
  repeat' first
    | with_reducible assumption
    | dsimp only
    | split
    | with_reducible refine State.onCtx_keeps _ _ _ ?_
    | with_reducible refine State.payOwed_keeps _ _ _ ?_
    | with_reducible refine State.seqReport_keeps _ _ _ _ ?_
    | with_reducible refine State.ctxEvent_keeps _ _ _ ?_

theorem State.dropReplies_keeps (p : Nat) (c : Nat) (tag : BitVec 4) {s0 s : State} (h0 : s0.Keeps s) : s0.Keeps (State.dropReplies s p c tag) := by
  unfold State.dropReplies
  repeat' first
    | with_reducible assumption
    | dsimp only
    | split
    | with_reducible refine State.bump_keeps _ ?_
    | with_reducible refine keeps_foldl _ _ _ (fun _ _ _ => ?_) ?_
    | with_reducible refine keeps_foldl_snd _ _ _ (fun _ _ _ => ?_) ?_
    | with_reducible refine keeps_foldl_fst _ _ _ (fun _ _ _ => ?_) ?_
    | refine keeps_upd ?_ rfl rfl rfl rfl rfl

theorem State.kill_keeps (p : Nat) (c : Nat) (n : Nat) (f : StepFault) (desc : Nat) {s0 s : State} (h0 : s0.Keeps s) : s0.Keeps (State.kill s p c n f desc) := by
  unfold State.kill
  repeat' first
    | with_reducible assumption
    | dsimp only
    | split
    | with_reducible refine State.stopCore_keeps _ ?_
    | with_reducible refine State.bump_keeps _ ?_
    | with_reducible refine State.note_keeps _ _ ?_
    | with_reducible refine State.onCore_keeps _ _ (fun _ => rfl) ?_
    | with_reducible refine State.onCore_keeps _ _ (fun k => by unfold Core.record; split <;> rfl) ?_
    | with_reducible refine State.dropDirty_keeps _ _ ?_
    | with_reducible refine State.emptyShare_keeps _ _ ?_
    | with_reducible refine State.dropReplies_keeps _ _ _ ?_
    | with_reducible refine State.onCtx_keeps _ _ _ ?_
    | with_reducible refine State.halt_keeps _ _ _ _ _ ?_
    | with_reducible refine State.seqReport_keeps _ _ _ _ ?_
    | with_reducible refine keeps_foldl _ _ _ (fun _ _ _ => ?_) ?_
    | with_reducible refine keeps_foldl_snd _ _ _ (fun _ _ _ => ?_) ?_
    | with_reducible refine keeps_foldl_fst _ _ _ (fun _ _ _ => ?_) ?_
    | refine keeps_upd ?_ rfl rfl rfl rfl rfl

theorem State.fault_keeps (n : Nat) (f : StepFault) (desc : Nat) {s0 s : State} (h0 : s0.Keeps s) : s0.Keeps (State.fault s n f desc) := by
  unfold State.fault
  repeat' first
    | with_reducible assumption
    | dsimp only
    | split
    | with_reducible refine State.kill_keeps _ _ _ _ _ ?_

theorem State.barTouched_keeps (r : SlotRes) {s0 s : State} (h0 : s0.Keeps s) : s0.Keeps (State.barTouched s r) := by
  unfold State.barTouched
  repeat' first
    | with_reducible assumption
    | dsimp only
    | split
    | with_reducible refine State.onSlot_keeps _ _ _ _ _ ?_
    | with_reducible refine keeps_foldl _ _ _ (fun _ _ _ => ?_) ?_

theorem State.applyRes_keeps (n : Nat) (op : OutOp) (r : SlotRes) {s0 s : State} (h0 : s0.Keeps s) : s0.Keeps (State.applyRes s n op r) := by
  unfold State.applyRes
  repeat' first
    | with_reducible assumption
    | dsimp only
    | split
    | with_reducible refine State.store_keeps _ _ _ _ _ ?_
    | with_reducible refine State.note_keeps _ _ ?_
    | with_reducible refine State.onCore_keeps _ _ (fun _ => rfl) ?_
    | with_reducible refine State.onSlot_keeps _ _ _ _ _ ?_
    | with_reducible refine State.barTouched_keeps _ ?_
    | with_reducible refine keeps_foldl _ _ _ (fun _ _ _ => ?_) ?_
    | with_reducible refine keeps_foldl_snd _ _ _ (fun _ _ _ => ?_) ?_
    | with_reducible refine keeps_foldl_fst _ _ _ (fun _ _ _ => ?_) ?_
    | refine keeps_upd ?_ rfl rfl rfl rfl rfl

theorem State.completeOp_keeps (n : Nat) (op : OutOp) {s0 s : State} (h0 : s0.Keeps s) : s0.Keeps (State.completeOp s n op) := by
  unfold State.completeOp
  repeat' first
    | with_reducible assumption
    | dsimp only
    | split
    | with_reducible refine State.applyRes_keeps _ _ _ ?_
    | with_reducible refine State.store_keeps _ _ _ _ _ ?_
    | with_reducible refine State.record_keeps _ _ ?_
    | with_reducible refine State.onCore_keeps _ _ (fun _ => rfl) ?_
    | with_reducible refine keeps_foldl _ _ _ (fun _ _ _ => ?_) ?_
    | with_reducible refine keeps_foldl_snd _ _ _ (fun _ _ _ => ?_) ?_
    | with_reducible refine keeps_foldl_fst _ _ _ (fun _ _ _ => ?_) ?_
    | refine keeps_upd ?_ rfl rfl rfl rfl rfl

theorem State.completeOldest_keeps (n : Nat) (all : Bool) (words : List Nat) {s0 s : State} (h0 : s0.Keeps s) : s0.Keeps (State.completeOldest s n all words) := by
  unfold State.completeOldest
  repeat' first
    | with_reducible assumption
    | dsimp only
    | split
    | with_reducible refine State.onCore_keeps _ _ (fun _ => rfl) ?_
    | with_reducible refine State.completeOp_keeps _ _ ?_

theorem State.completeReady_keeps (n : Nat) {s0 s : State} (h0 : s0.Keeps s) : s0.Keeps (State.completeReady s n) := by
  unfold State.completeReady
  repeat' first
    | with_reducible assumption
    | dsimp only
    | split
    | with_reducible refine State.completeOldest_keeps _ _ _ ?_
    | refine keeps_upd ?_ rfl rfl rfl rfl rfl

theorem State.drain_keeps (n : Nat) {s0 s : State} (h0 : s0.Keeps s) : s0.Keeps (State.drain s n) := by
  unfold State.drain
  repeat' first
    | with_reducible assumption
    | dsimp only
    | split
    | with_reducible refine State.completeReady_keeps _ ?_
    | with_reducible refine keeps_foldl _ _ _ (fun _ _ _ => ?_) ?_
    | with_reducible refine keeps_foldl_snd _ _ _ (fun _ _ _ => ?_) ?_
    | with_reducible refine keeps_foldl_fst _ _ _ (fun _ _ _ => ?_) ?_
    | refine keeps_upd ?_ rfl rfl rfl rfl rfl

theorem State.hold_keeps (n : Nat) (r : List (Nat × Nat)) (w : List (Nat × Nat)) {s0 s : State} (h0 : s0.Keeps s) : s0.Keeps (State.hold s n r w) := by
  unfold State.hold
  repeat' first
    | with_reducible assumption
    | dsimp only
    | split
    | with_reducible refine State.completeReady_keeps _ ?_
    | with_reducible refine keeps_foldl _ _ _ (fun _ _ _ => ?_) ?_
    | with_reducible refine keeps_foldl_snd _ _ _ (fun _ _ _ => ?_) ?_
    | with_reducible refine keeps_foldl_fst _ _ _ (fun _ _ _ => ?_) ?_
    | refine keeps_upd ?_ rfl rfl rfl rfl rfl

theorem State.deliverTrap_keeps (n : Nat) {s0 s : State} (h0 : s0.Keeps s) : s0.Keeps (State.deliverTrap s n) := by
  unfold State.deliverTrap
  repeat' first
    | with_reducible assumption
    | dsimp only
    | split
    | with_reducible refine State.onCore_keeps _ _ (fun _ => rfl) ?_
    | with_reducible refine State.note_keeps _ _ ?_
    | with_reducible refine State.fault_keeps _ _ _ ?_

theorem State.deliverTraps_keeps (n : Nat) {s0 s : State} (h0 : s0.Keeps s) : s0.Keeps (State.deliverTraps s n) := by
  unfold State.deliverTraps
  repeat' first
    | with_reducible assumption
    | dsimp only
    | split
    | with_reducible refine State.deliverTrap_keeps _ ?_
    | with_reducible refine keeps_foldl _ _ _ (fun _ _ _ => ?_) ?_

theorem State.checkPanEnd_keeps (p : Nat) (c : Nat) {s0 s : State} (h0 : s0.Keeps s) : s0.Keeps (State.checkPanEnd s p c) := by
  unfold State.checkPanEnd
  repeat' first
    | with_reducible assumption
    | dsimp only
    | split
    | with_reducible refine State.onCtx_keeps _ _ _ ?_
    | with_reducible refine State.boundary_keeps _ _ _ ?_
    | with_reducible refine State.payOwed_keeps _ _ _ ?_
    | refine keeps_upd ?_ rfl rfl rfl rfl rfl

theorem State.turnTo_keeps (n : Nat) (rank : Nat) {s0 s : State} (h0 : s0.Keeps s) : s0.Keeps (State.turnTo s n rank) := by
  unfold State.turnTo
  repeat' first
    | with_reducible assumption
    | dsimp only
    | split
    | with_reducible refine State.onCore_keeps _ _ (fun _ => rfl) ?_
    | with_reducible refine State.stage_keeps _ _ _ _ ?_
    | with_reducible exact kok_err _
    | with_reducible refine kok_ok ?_
    | with_reducible refine kok_bind_st ?_ (fun _ _ => ?_)
    | with_reducible refine kok_bind (fun _ => ?_)
    | refine keeps_upd ?_ rfl rfl rfl rfl rfl

theorem State.passTurn_keeps (n : Nat) {s0 s : State} (h0 : s0.Keeps s) : s0.Keeps (State.passTurn s n) := by
  unfold State.passTurn
  repeat' first
    | with_reducible assumption
    | dsimp only
    | split
    | with_reducible refine State.turnTo_keeps _ _ ?_
    | refine keeps_upd ?_ rfl rfl rfl rfl rfl

theorem State.endCore_keeps (n : Nat) {s0 s : State} (h0 : s0.Keeps s) : s0.Keeps (State.endCore s n) := by
  unfold State.endCore
  repeat' first
    | with_reducible assumption
    | dsimp only
    | split
    | with_reducible refine State.drain_keeps _ ?_
    | with_reducible refine State.deliverTraps_keeps _ ?_
    | with_reducible refine State.flushCore_keeps _ ?_
    | with_reducible refine State.onCore_keeps _ _ (fun _ => rfl) ?_
    | with_reducible refine State.passTurn_keeps _ ?_
    | with_reducible refine State.kill_keeps _ _ _ _ _ ?_
    | with_reducible refine State.checkPanEnd_keeps _ _ ?_
    | refine keeps_upd ?_ rfl rfl rfl rfl rfl

theorem State.passEnd_keeps (n : Nat) {s0 s : State} (h0 : s0.Keeps s) : s0.Keeps (State.passEnd s n) := by
  unfold State.passEnd
  repeat' first
    | with_reducible assumption
    | dsimp only
    | split
    | with_reducible refine State.endCore_keeps _ ?_

theorem State.faultAt_keeps (n : Nat) (f : StepFault) (i : Nat) {s0 s : State} (h0 : s0.Keeps s) : s0.Keeps (State.faultAt s n f i) := by
  unfold State.faultAt
  repeat' first
    | with_reducible assumption
    | dsimp only
    | split
    | with_reducible refine State.drain_keeps _ ?_
    | with_reducible refine State.fault_keeps _ _ _ ?_
    | refine keeps_upd ?_ rfl rfl rfl rfl rfl

theorem State.readDesc_keeps (n : Nat) (i : Nat) {s0 s : State} (h0 : s0.Keeps s) : s0.Keeps (State.readDesc s n i) := by
  unfold State.readDesc
  repeat' first
    | with_reducible assumption
    | dsimp only
    | split
    | with_reducible refine State.readPiece_keeps _ _ _ ?_
    | with_reducible refine keeps_foldl _ _ _ (fun _ _ _ => ?_) ?_
    | with_reducible refine keeps_foldl_snd _ _ _ (fun _ _ _ => ?_) ?_
    | with_reducible refine keeps_foldl_fst _ _ _ (fun _ _ _ => ?_) ?_
    | refine keeps_upd ?_ rfl rfl rfl rfl rfl

/-- The state that a descriptor taken up leaves, held or not. -/
def Issue.state : Issue → State
  | .done s | .held s => s

/-- A descriptor's outcome whose state, if there is one, is reached so. -/
def KIs (s0 : State) (r : Except StepFault Issue) : Prop := ∀ t, r = .ok t → s0.Keeps t.state

theorem kis_done {s0 s : State} (h : s0.Keeps s) : KIs s0 (.ok (.done s)) := fun _ e => by cases e; exact h

theorem kis_held {s0 s : State} (h : s0.Keeps s) : KIs s0 (.ok (.held s)) := fun _ e => by cases e; exact h

theorem kis_err {s0 : State} (f : StepFault) : KIs s0 (.error f) := fun _ e => by cases e

theorem kis_bind {s0 : State} {α : Type} {x : Except StepFault α} {f : α → Except StepFault Issue} (hf : ∀ a, KIs s0 (f a)) :
    KIs s0 (x >>= f) := by
  cases x with
  | error e => exact fun _ h => by cases h
  | ok a => exact hf a

theorem State.issue_keeps (n : Nat) (k : OpCode) (d : Desc) (go : State → Nat → Except StepFault Issue) {s0 s : State}
    (hgo : ∀ t x1, s0.Keeps t → KIs s0 (go t x1)) (h0 : s0.Keeps s) : s0.Keeps (State.issue s n k d go) := by
  unfold State.issue
  split
  · exact h0
  · dsimp only
    split
    · exact State.faultAt_keeps _ _ _ h0
    · split
      · exact State.faultAt_keeps _ _ _ h0
      · split
        · exact h0
        · have h2 := hgo _ (s.core n).next (State.onCore_keeps n (fun k => { k with next := (s.core n).next + 1, issued := k.issued + 1 })
            (fun _ => rfl) (State.readDesc_keeps n (s.core n).next h0))
          split
          · exact State.faultAt_keeps _ _ _ h0
          · rename_i e
            exact State.onCore_keeps _ _ (fun _ => rfl) (h2 _ e)
          · rename_i e
            exact State.passEnd_keeps _ (h2 _ e)

theorem State.addXacts_keeps (n : Nat) (p : Nat) (c : Nat) (id : Nat) (lines : List Nat) {s0 s : State} (h0 : s0.Keeps s) : s0.Keeps (State.addXacts s n p c id lines) := by
  unfold State.addXacts
  repeat' first
    | with_reducible assumption
    | dsimp only
    | split
    | refine keeps_upd ?_ rfl rfl rfl rfl rfl

theorem State.readAll_keeps (n : Nat) (op : OutOp) {s0 s : State} (h0 : s0.Keeps s) : s0.Keeps (State.readAll s n op) := by
  unfold State.readAll
  repeat' first
    | with_reducible assumption
    | dsimp only
    | split
    | with_reducible refine State.readPiece_keeps _ _ _ ?_
    | with_reducible refine keeps_foldl _ _ _ (fun _ _ _ => ?_) ?_
    | with_reducible refine keeps_foldl_snd _ _ _ (fun _ _ _ => ?_) ?_
    | with_reducible refine keeps_foldl_fst _ _ _ (fun _ _ _ => ?_) ?_
    | refine keeps_upd ?_ rfl rfl rfl rfl rfl

theorem State.push_keeps (n : Nat) (p : Nat) (c : Nat) (op : OutOp) {s0 s : State} (h0 : s0.Keeps s) : s0.Keeps (State.push s n p c op) := by
  unfold State.push
  repeat' first
    | with_reducible assumption
    | dsimp only
    | split
    | with_reducible refine State.addXacts_keeps _ _ _ _ _ ?_
    | with_reducible refine State.chargeSpan_keeps _ _ _ ?_
    | with_reducible refine State.onCore_keeps _ _ (fun _ => rfl) ?_
    | with_reducible refine keeps_foldl _ _ _ (fun _ _ _ => ?_) ?_
    | with_reducible refine keeps_foldl_snd _ _ _ (fun _ _ _ => ?_) ?_
    | with_reducible refine keeps_foldl_fst _ _ _ (fun _ _ _ => ?_) ?_
    | refine keeps_upd ?_ rfl rfl rfl rfl rfl

theorem State.clearWay_keeps (n : Nat) (alone : Bool) (d : Desc) {s0 s : State} (h0 : s0.Keeps s) : s0.Keeps (State.clearWay s n alone d) := by
  unfold State.clearWay
  repeat' first
    | with_reducible assumption
    | dsimp only
    | split
    | with_reducible refine State.drain_keeps _ ?_
    | refine keeps_upd ?_ rfl rfl rfl rfl rfl

/-- What the last wait of an operation leaves (R179, R317). -/
theorem State.readyToIssue_keeps (n p c : Nat) (d : Desc) (op : OutOp) (base : List Opnd) {s0 s : State} {x : Issue} (h0 : s0.Keeps s)
    (e : State.readyToIssue s n p c d op base = x) : s0.Keeps x.state := by
  subst e
  unfold State.readyToIssue
  have h1 := State.streamTouch_keeps p c n (s.stagedReads n p c d op.reads base) (State.hold_keeps n op.reads op.writes h0)
  dsimp only
  split
  · exact h1
  · exact State.readAll_keeps _ _ h1

theorem State.operate_keeps (n : Nat) (f : OpForm) (d : Desc) (opnds : State → Option Nat → Except StepFault (List Opnd × List Opnd)) (run : State → Option Nat → SlotRes) {s0 s : State} (h0 : s0.Keeps s) : s0.Keeps (State.operate s n f d opnds run) := by
  unfold State.operate
  refine State.issue_keeps _ _ _ _ (fun t i ht => ?_) h0
  dsimp only
  split
  · exact kis_done ht
  · split
    · exact kis_err _
    · refine kis_bind (fun _ => ?_)
      have h1 := State.clearWay_keeps n f.alone d ht
      split
      · exact kis_held h1
      · refine kis_bind (fun os => ?_)
        split
        · rename_i e
          exact kis_held (State.readyToIssue_keeps _ _ _ _ _ _ h1 e)
        · rename_i e
          exact kis_done (State.push_keeps _ _ _ _ (State.readyToIssue_keeps _ _ _ _ _ _ h1 e))

end Sys2Proof.Machine
end

