-- ==== Sys2Proof/Laws/KeepsElem.lean ====
section
/-!
SUPPORT. What every operation of Elem keeps: the commands that wait, and the invariant of the state.
-/

namespace Sys2Proof.Machine

theorem State.rounded_keeps (n : Nat) (k : OpCode) (d : Desc) (go : RM → State) {s0 s : State} (hgo : ∀ rm, s0.Keeps (go rm))
    (h0 : s0.Keeps s) : s0.Keeps (s.rounded n k d go) := by
  unfold State.rounded
  split
  · exact State.issue_keeps _ _ _ _ (fun _ _ _ => kis_err _) h0
  · exact hgo _

theorem State.mapElems_keeps (n : Nat) (k : OpCode) (sh : ElemShape) (d : Desc) (fn : RM → FSpec → FSpec → ElemFn) {s0 s : State}
    (h0 : s0.Keeps s) : s0.Keeps (s.mapElems n k sh d fn) :=
  State.rounded_keeps _ _ _ _ (fun _ => State.operate_keeps _ _ _ _ _ h0) h0

theorem State.elem_keeps (n sub : Nat) (sh : ElemShape) (d : Desc) (fn : RM → FSpec → FSpec → ElemFn) {s0 s : State}
    (h0 : s0.Keeps s) : s0.Keeps (s.elem n sub sh d fn) := State.mapElems_keeps _ _ _ _ _ h0

theorem State.bitElem_keeps (n sub : Nat) (silent : Bool) (d : Desc) (fn : BitFn) {s0 s : State} (h0 : s0.Keeps s) :
    s0.Keeps (s.bitElem n sub silent d fn) := State.rounded_keeps _ _ _ _ (fun _ => State.operate_keeps _ _ _ _ _ h0) h0

theorem execAdd_keeps (n : Fin 32) (d : Desc) (s : State) : ∃ t, execAdd n d s = .next t ∧ s.Keeps t :=
  ⟨_, rfl, State.elem_keeps _ _ _ _ _ (.refl s)⟩

theorem execSub_keeps (n : Fin 32) (d : Desc) (s : State) : ∃ t, execSub n d s = .next t ∧ s.Keeps t :=
  ⟨_, rfl, State.elem_keeps _ _ _ _ _ (.refl s)⟩

theorem execMul_keeps (n : Fin 32) (d : Desc) (s : State) : ∃ t, execMul n d s = .next t ∧ s.Keeps t :=
  ⟨_, rfl, State.elem_keeps _ _ _ _ _ (.refl s)⟩

theorem execFma_keeps (n : Fin 32) (d : Desc) (s : State) : ∃ t, execFma n d s = .next t ∧ s.Keeps t :=
  ⟨_, rfl, State.elem_keeps _ _ _ _ _ (.refl s)⟩

theorem execMax_keeps (n : Fin 32) (d : Desc) (s : State) : ∃ t, execMax n d s = .next t ∧ s.Keeps t :=
  ⟨_, rfl, State.elem_keeps _ _ _ _ _ (.refl s)⟩

theorem execMin_keeps (n : Fin 32) (d : Desc) (s : State) : ∃ t, execMin n d s = .next t ∧ s.Keeps t :=
  ⟨_, rfl, State.elem_keeps _ _ _ _ _ (.refl s)⟩

theorem execAbs_keeps (n : Fin 32) (d : Desc) (s : State) : ∃ t, execAbs n d s = .next t ∧ s.Keeps t :=
  ⟨_, rfl, State.elem_keeps _ _ _ _ _ (.refl s)⟩

theorem execNeg_keeps (n : Fin 32) (d : Desc) (s : State) : ∃ t, execNeg n d s = .next t ∧ s.Keeps t :=
  ⟨_, rfl, State.elem_keeps _ _ _ _ _ (.refl s)⟩

theorem execIdiv_keeps (n : Fin 32) (d : Desc) (s : State) : ∃ t, execIdiv n d s = .next t ∧ s.Keeps t :=
  ⟨_, rfl, State.bitElem_keeps _ _ _ _ _ (.refl s)⟩

theorem execIrem_keeps (n : Fin 32) (d : Desc) (s : State) : ∃ t, execIrem n d s = .next t ∧ s.Keeps t :=
  ⟨_, rfl, State.bitElem_keeps _ _ _ _ _ (.refl s)⟩

theorem execShl_keeps (n : Fin 32) (d : Desc) (s : State) : ∃ t, execShl n d s = .next t ∧ s.Keeps t :=
  ⟨_, rfl, State.bitElem_keeps _ _ _ _ _ (.refl s)⟩

theorem execShr_keeps (n : Fin 32) (d : Desc) (s : State) : ∃ t, execShr n d s = .next t ∧ s.Keeps t :=
  ⟨_, rfl, State.bitElem_keeps _ _ _ _ _ (.refl s)⟩

theorem execAnd_keeps (n : Fin 32) (d : Desc) (s : State) : ∃ t, execAnd n d s = .next t ∧ s.Keeps t :=
  ⟨_, rfl, State.bitElem_keeps _ _ _ _ _ (.refl s)⟩

theorem execOr_keeps (n : Fin 32) (d : Desc) (s : State) : ∃ t, execOr n d s = .next t ∧ s.Keeps t :=
  ⟨_, rfl, State.bitElem_keeps _ _ _ _ _ (.refl s)⟩

theorem execXor_keeps (n : Fin 32) (d : Desc) (s : State) : ∃ t, execXor n d s = .next t ∧ s.Keeps t :=
  ⟨_, rfl, State.bitElem_keeps _ _ _ _ _ (.refl s)⟩

theorem execTwosum_keeps (n : Fin 32) (d : Desc) (s : State) : ∃ t, execTwosum n d s = .next t ∧ s.Keeps t :=
  ⟨_, rfl, State.elem_keeps _ _ _ _ _ (.refl s)⟩

theorem execTwoprod_keeps (n : Fin 32) (d : Desc) (s : State) : ∃ t, execTwoprod n d s = .next t ∧ s.Keeps t :=
  ⟨_, rfl, State.elem_keeps _ _ _ _ _ (.refl s)⟩

theorem execPadd_keeps (n : Fin 32) (d : Desc) (s : State) : ∃ t, execPadd n d s = .next t ∧ s.Keeps t :=
  ⟨_, rfl, State.elem_keeps _ _ _ _ _ (.refl s)⟩

theorem execPmul_keeps (n : Fin 32) (d : Desc) (s : State) : ∃ t, execPmul n d s = .next t ∧ s.Keeps t :=
  ⟨_, rfl, State.elem_keeps _ _ _ _ _ (.refl s)⟩

theorem execTest_keeps (n : Fin 32) (d : Desc) (s : State) : ∃ t, execTest n d s = .next t ∧ s.Keeps t :=
  ⟨_, rfl, State.rounded_keeps _ _ _ _ (fun _ => State.operate_keeps _ _ _ _ _ (.refl s)) (.refl s)⟩

theorem execSetstate_keeps (n : Fin 32) (d : Desc) (s : State) : ∃ t, execSetstate n d s = .next t ∧ s.Keeps t :=
  ⟨_, rfl, State.rounded_keeps _ _ _ _ (fun _ => State.operate_keeps _ _ _ _ _ (.refl s)) (.refl s)⟩

theorem State.waitFor_keeps (n : Nat) (w : Wait) (rc : Option (Nat × Nat × Bool)) {s0 s : State} (h0 : s0.Keeps s) : s0.Keeps (s.waitFor n w rc) :=
  State.passTurn_keeps _ (State.onCore_keeps _ _ (fun _ => rfl) h0)

theorem State.gather_keeps (n : Nat) (k : OpCode) (d : Desc) (dp useK : Bool)
    (opnds : Option Nat → Except StepFault (List Opnd × List Opnd)) (w : Nat → Wait) {s0 s : State} (h0 : s0.Keeps s) :
    s0.Keeps (s.gather n k d dp useK opnds w) := by
  refine State.issue_keeps _ _ _ _ (fun t i ht => ?_) h0
  dsimp only
  split
  · exact kis_done ht
  · split
    · exact kis_err _
    · refine kis_bind (fun _ => ?_)
      have h1 := State.drain_keeps n ht
      split
      · exact kis_held h1
      · refine kis_bind (fun os => ?_)
        split
        · exact kis_held (State.streamTouch_keeps _ _ _ _ h1)
        · exact kis_done (State.waitFor_keeps _ _ _ (State.streamTouch_keeps _ _ _ _ h1))

theorem State.reduce_keeps (n : Nat) (d : Desc) (sub : Nat) (axis pan : Bool) {s0 s : State} (h0 : s0.Keeps s) :
    s0.Keeps (s.reduce n d sub axis pan) := by
  refine State.rounded_keeps _ _ _ _ (fun _ => ?_) h0
  split
  · exact State.gather_keeps _ _ _ _ _ _ _ h0
  · exact State.operate_keeps _ _ _ _ _ h0

theorem execReduceSum_keeps (n : Fin 32) (d : Desc) (axis : Bool) (pan : Bool) (s : State) : ∃ t, execReduceSum n d axis pan s = .next t ∧ s.Keeps t :=
  ⟨_, rfl, State.reduce_keeps _ _ _ _ _ (.refl s)⟩

theorem execReduceMax_keeps (n : Fin 32) (d : Desc) (axis : Bool) (pan : Bool) (s : State) : ∃ t, execReduceMax n d axis pan s = .next t ∧ s.Keeps t :=
  ⟨_, rfl, State.reduce_keeps _ _ _ _ _ (.refl s)⟩

theorem execReduceMin_keeps (n : Fin 32) (d : Desc) (axis : Bool) (pan : Bool) (s : State) : ∃ t, execReduceMin n d axis pan s = .next t ∧ s.Keeps t :=
  ⟨_, rfl, State.reduce_keeps _ _ _ _ _ (.refl s)⟩

theorem execNormInf_keeps (n : Fin 32) (d : Desc) (axis : Bool) (pan : Bool) (s : State) : ∃ t, execNormInf n d axis pan s = .next t ∧ s.Keeps t :=
  ⟨_, rfl, State.reduce_keeps _ _ _ _ _ (.refl s)⟩

theorem execSumsq_keeps (n : Fin 32) (d : Desc) (axis : Bool) (pan : Bool) (s : State) : ∃ t, execSumsq n d axis pan s = .next t ∧ s.Keeps t :=
  ⟨_, rfl, State.reduce_keeps _ _ _ _ _ (.refl s)⟩

theorem State.divsqrt_keeps (n : Nat) (op : DsuOp) (d : Desc) {s0 s : State} (h0 : s0.Keeps s) : s0.Keeps (s.divsqrt n op d) :=
  State.mapElems_keeps _ _ _ _ _ h0

theorem execDiv_keeps (n : Fin 32) (d : Desc) (s : State) : ∃ t, execDiv n d s = .next t ∧ s.Keeps t :=
  ⟨_, rfl, State.divsqrt_keeps _ _ _ (.refl s)⟩

theorem execSqrt_keeps (n : Fin 32) (d : Desc) (s : State) : ∃ t, execSqrt n d s = .next t ∧ s.Keeps t :=
  ⟨_, rfl, State.divsqrt_keeps _ _ _ (.refl s)⟩

theorem execRecip_keeps (n : Fin 32) (d : Desc) (s : State) : ∃ t, execRecip n d s = .next t ∧ s.Keeps t :=
  ⟨_, rfl, State.divsqrt_keeps _ _ _ (.refl s)⟩

theorem execRsqrt_keeps (n : Fin 32) (d : Desc) (s : State) : ∃ t, execRsqrt n d s = .next t ∧ s.Keeps t :=
  ⟨_, rfl, State.divsqrt_keeps _ _ _ (.refl s)⟩

theorem execConv_keeps (n : Fin 32) (d : Desc) (s : State) : ∃ t, execConv n d s = .next t ∧ s.Keeps t :=
  ⟨_, rfl, State.mapElems_keeps _ _ _ _ _ (.refl s)⟩

end Sys2Proof.Machine
end

