-- ==== Sys2Proof/Laws/KeepsGemm.lean ====
section
/-!
SUPPORT. What every operation of Gemm keeps: the commands that wait, and the invariant of the state.
-/

namespace Sys2Proof.Machine

theorem execGemm_keeps (n : Fin 32) (d : Desc) (cin : Bool) (transA : Bool) (transB : Bool) (pank : Bool) (s : State) : ∃ t, execGemm n d cin transA transB pank s = .next t ∧ s.Keeps t := by
  refine ⟨_, rfl, ?_⟩
  have h0 := State.Keeps.refl s
  repeat' first
    | with_reducible assumption
    | dsimp only
    | split
    | with_reducible refine State.gather_keeps _ _ _ _ _ _ _ ?_
    | with_reducible refine State.operate_keeps _ _ _ _ _ ?_

end Sys2Proof.Machine
end

