-- ==== Sys2Proof/Laws/KeepsMove.lean ====
section
/-!
SUPPORT. What every operation of Move keeps: the commands that wait, and the invariant of the state.
-/

namespace Sys2Proof.Machine

theorem State.moveWrite_keeps (core : Nat) (w : Nat × List Byte × Bool) {s0 s : State} (h0 : s0.Keeps s) : s0.Keeps (State.moveWrite s core w) := by
  unfold State.moveWrite
  repeat' first
    | with_reducible assumption
    | dsimp only
    | split
    | with_reducible refine State.writePage_keeps _ _ _ _ ?_
    | with_reducible refine State.store_keeps _ _ _ _ _ ?_
    | with_reducible refine keeps_foldl _ _ _ (fun _ _ _ => ?_) ?_

theorem State.doDeferred_keeps (p : Nat) (core : Nat) (m : Deferred) (rows : List (Nat × List Byte × Bool)) {s0 s : State} (h0 : s0.Keeps s) : s0.Keeps (State.doDeferred s p core m rows) := by
  unfold State.doDeferred
  repeat' first
    | with_reducible assumption
    | dsimp only
    | split
    | with_reducible refine State.chargeBy_keeps _ _ _ _ ?_
    | with_reducible refine State.chargeSpan_keeps _ _ _ ?_
    | with_reducible refine State.moveWrite_keeps _ _ ?_
    | with_reducible refine keeps_foldl _ _ _ (fun _ _ _ => ?_) ?_
    | with_reducible refine keeps_foldl_snd _ _ _ (fun _ _ _ => ?_) ?_
    | with_reducible refine keeps_foldl_fst _ _ _ (fun _ _ _ => ?_) ?_
    | refine keeps_upd ?_ rfl rfl rfl rfl rfl

theorem State.addPages_keeps (n : Nat) (p : Nat) (c : Nat) (id : Nat) (res : Nat) (a : Nat) (pages : Nat) {s0 s : State} (h0 : s0.Keeps s) : s0.Keeps (State.addPages s n p c id res a pages) := by
  unfold State.addPages
  repeat' first
    | with_reducible assumption
    | dsimp only
    | split
    | with_reducible refine State.chargeBy_keeps _ _ _ _ ?_
    | refine keeps_upd ?_ rfl rfl rfl rfl rfl

theorem State.defer_keeps (n : Nat) (i : Nat) (kind : Nat) (d : Desc) (ts : List (Option Nat)) {s0 s : State} (h0 : s0.Keeps s) :
    s0.Keeps (State.defer s n i kind d ts).1 := State.onCore_keeps _ _ (fun _ => rfl) h0

theorem State.move_keeps (n : Nat) (kind : Nat) (d : Desc) {s0 s : State} (h0 : s0.Keeps s) : s0.Keeps (State.move s n kind d) := by
  unfold State.move
  refine State.issue_keeps _ _ _ _ (fun t i ht => ?_) h0
  dsimp only
  split
  · exact kis_done ht
  · split
    · exact kis_err _
    · refine kis_bind (fun _ => ?_)
      have h1 := State.clearWay_keeps n false d ht
      split
      · exact kis_held h1
      · refine kis_bind (fun ts => ?_)
        split
        · exact kis_err _
        · split
          · rename_i e
            exact kis_held (State.readyToIssue_keeps _ _ _ _ _ _ h1 e)
          · rename_i e
            have h2 := State.readyToIssue_keeps _ _ _ _ _ _ h1 e
            refine kis_done ?_
            split
            · exact keeps_foldl _ _ _ (fun _ _ h => State.addPages_keeps _ _ _ _ _ _ _ h) (State.push_keeps _ _ _ _ (State.defer_keeps _ _ _ _ _ h2))
            · exact State.push_keeps _ _ _ _ (State.defer_keeps _ _ _ _ _ h2)

theorem execCopy_keeps (n : Fin 32) (d : Desc) (s : State) : ∃ t, execCopy n d s = .next t ∧ s.Keeps t :=
  ⟨_, rfl, State.move_keeps _ _ _ (.refl s)⟩

theorem execFill_keeps (n : Fin 32) (d : Desc) (s : State) : ∃ t, execFill n d s = .next t ∧ s.Keeps t :=
  ⟨_, rfl, State.move_keeps _ _ _ (.refl s)⟩

theorem execPageLoad_keeps (n : Fin 32) (d : Desc) (s : State) : ∃ t, execPageLoad n d s = .next t ∧ s.Keeps t :=
  ⟨_, rfl, State.move_keeps _ _ _ (.refl s)⟩

theorem execPageStore_keeps (n : Fin 32) (d : Desc) (s : State) : ∃ t, execPageStore n d s = .next t ∧ s.Keeps t :=
  ⟨_, rfl, State.move_keeps _ _ _ (.refl s)⟩

theorem State.feRows_keeps (n : Nat) (write : Bool) (items : List (Option Nat × Nat × Nat)) (bad : List (Option Nat)) {s0 s : State}
    (h0 : s0.Keeps s) : s0.Keeps (State.feRows s n write items bad).1 := by
  induction items generalizing s bad with
  | nil => exact h0
  | cons e r ih =>
    obtain ⟨t, a, o⟩ := e
    unfold State.feRows
    dsimp only
    repeat' first
      | with_reducible assumption
      | with_reducible refine ih _ ?_
      | split
      | with_reducible refine State.mark_keeps _ _ ?_
      | with_reducible refine State.store_keeps _ _ _ _ _ ?_
      | with_reducible refine State.flushLine_keeps _ ?_

theorem State.feTry_keeps (n : Nat) (p : Nat) (c : Nat) (write : Bool) (items : List (Option Nat × Nat × Nat)) (bad : List (Option Nat)) (op : OutOp) (since : Nat) {s0 s : State} (h0 : s0.Keeps s) : s0.Keeps (State.feTry s n p c write items bad op since) := by
  unfold State.feTry
  repeat' first
    | with_reducible assumption
    | dsimp only
    | split
    | with_reducible refine State.onCore_keeps _ _ (fun _ => rfl) ?_
    | with_reducible refine keeps_eq2 (by assumption) ?_
    | with_reducible refine State.feRows_keeps _ _ _ _ ?_
    | with_reducible refine State.push_keeps _ _ _ _ ?_

theorem State.feAgain_keeps (k : Nat) {s0 s : State} (h0 : s0.Keeps s) : s0.Keeps (State.feAgain s k) := by
  unfold State.feAgain
  repeat' first
    | with_reducible assumption
    | dsimp only
    | split
    | with_reducible refine State.feTry_keeps _ _ _ _ _ _ _ _ ?_
    | with_reducible refine State.passEnd_keeps _ ?_
    | refine keeps_upd ?_ rfl rfl rfl rfl rfl

theorem State.feRetry_keeps {s0 s : State} (h0 : s0.Keeps s) : s0.Keeps (State.feRetry s) := by
  unfold State.feRetry
  repeat' first
    | with_reducible assumption
    | dsimp only
    | split
    | with_reducible refine State.turnTo_keeps _ _ ?_
    | with_reducible refine State.feAgain_keeps _ ?_
    | with_reducible refine State.passTurn_keeps _ ?_
    | with_reducible refine keeps_foldl _ _ _ (fun _ _ _ => ?_) ?_
    | with_reducible refine keeps_foldl_snd _ _ _ (fun _ _ _ => ?_) ?_
    | with_reducible refine keeps_foldl_fst _ _ _ (fun _ _ _ => ?_) ?_
    | refine keeps_upd ?_ rfl rfl rfl rfl rfl

theorem State.feMove_keeps (n : Nat) (write : Bool) (d : Desc) {s0 s : State} (h0 : s0.Keeps s) : s0.Keeps (State.feMove s n write d) := by
  unfold State.feMove
  refine State.feRetry_keeps (State.issue_keeps _ _ _ _ (fun t i ht => ?_) h0)
  dsimp only
  split
  · exact kis_done ht
  · split
    · exact kis_err _
    · refine kis_bind (fun _ => ?_)
      have h1 := State.drain_keeps n ht
      split
      · exact kis_held h1
      · refine kis_bind (fun ts => ?_)
        split
        · exact kis_err _
        · repeat' first
            | with_reducible assumption
            | split
            | with_reducible refine kis_done ?_
            | with_reducible refine State.fault_keeps _ _ _ ?_
            | with_reducible refine State.passTurn_keeps _ ?_
            | with_reducible refine State.feTry_keeps _ _ _ _ _ _ _ _ ?_
            | with_reducible refine State.defer_keeps _ _ _ _ _ ?_

theorem execFeRead_keeps (n : Fin 32) (d : Desc) (s : State) : ∃ t, execFeRead n d s = .next t ∧ s.Keeps t :=
  ⟨_, rfl, State.feMove_keeps _ _ _ (.refl s)⟩

theorem execFeWrite_keeps (n : Fin 32) (d : Desc) (s : State) : ∃ t, execFeWrite n d s = .next t ∧ s.Keeps t :=
  ⟨_, rfl, State.feMove_keeps _ _ _ (.refl s)⟩

theorem execSlotTimeout_keeps (n : Fin 32) (s : State) : ∃ t, execSlotTimeout n s = .next t ∧ s.Keeps t := by
  refine ⟨_, rfl, ?_⟩
  have h0 := State.Keeps.refl s
  repeat' first
    | with_reducible assumption
    | dsimp only
    | split
    | with_reducible refine State.fault_keeps _ _ _ ?_
    | refine keeps_upd ?_ rfl rfl rfl rfl rfl

end Sys2Proof.Machine
end

