-- ==== Sys2Proof/Laws/KeepsCtl.lean ====
section
/-!
SUPPORT. What every operation of Ctl keeps: the commands that wait, and the invariant of the state.
-/

namespace Sys2Proof.Machine

theorem State.putRecord_keeps (n : Nat) (rc : Option (Nat × Nat × Bool)) {s0 s : State} (h0 : s0.Keeps s) : s0.Keeps (State.putRecord s n rc) := by
  unfold State.putRecord
  repeat' first
    | with_reducible assumption
    | dsimp only
    | split
    | with_reducible refine State.store_keeps _ _ _ _ _ ?_
    | refine keeps_upd ?_ rfl rfl rfl rfl rfl

theorem State.control_keeps (n : Nat) (k : OpCode) (d : Desc) (ok : Bool) (go : State → Bool → Option (Nat × Nat × Bool) → State) {s0 s : State} (hgo : ∀ t x1 x2, s0.Keeps t → s0.Keeps (go t x1 x2)) (h0 : s0.Keeps s) : s0.Keeps (State.control s n k d ok go) := by
  unfold State.control
  repeat' first
    | with_reducible assumption
    | dsimp only
    | split
    | with_reducible refine State.issue_keeps _ _ _ _ (fun _ _ _ => ?_) ?_
    | with_reducible refine State.drain_keeps _ ?_
    | with_reducible exact kis_err _
    | with_reducible refine kis_done ?_
    | with_reducible refine kis_held ?_
    | with_reducible refine kis_bind (fun _ => ?_)
    | with_reducible exact kok_err _
    | with_reducible refine kok_ok ?_
    | with_reducible refine kok_bind_st ?_ (fun _ _ => ?_)
    | with_reducible refine kok_bind (fun _ => ?_)
    | with_reducible refine hgo _ _ _ ?_
    | refine keeps_upd ?_ rfl rfl rfl rfl rfl

theorem execBarrier_keeps (n : Fin 32) (d : Desc) (s : State) : ∃ t, execBarrier n d s = .next t ∧ s.Keeps t := by
  refine ⟨_, rfl, ?_⟩
  have h0 := State.Keeps.refl s
  repeat' first
    | with_reducible assumption
    | dsimp only
    | split
    | with_reducible refine State.control_keeps _ _ _ _ _ (fun _ _ _ _ => ?_) ?_
    | with_reducible refine State.waitFor_keeps _ _ _ ?_
    | with_reducible exact kis_err _
    | with_reducible refine kis_done ?_
    | with_reducible refine kis_held ?_
    | with_reducible refine kis_bind (fun _ => ?_)
    | with_reducible exact kok_err _
    | with_reducible refine kok_ok ?_
    | with_reducible refine kok_bind_st ?_ (fun _ _ => ?_)
    | with_reducible refine kok_bind (fun _ => ?_)
    | refine keeps_upd ?_ rfl rfl rfl rfl rfl

theorem execFence_keeps (n : Fin 32) (d : Desc) (s : State) : ∃ t, execFence n d s = .next t ∧ s.Keeps t := by
  refine ⟨_, rfl, ?_⟩
  have h0 := State.Keeps.refl s
  repeat' first
    | with_reducible assumption
    | dsimp only
    | split
    | with_reducible refine State.control_keeps _ _ _ _ _ (fun _ _ _ _ => ?_) ?_
    | with_reducible refine State.putRecord_keeps _ _ ?_
    | with_reducible exact kis_err _
    | with_reducible refine kis_done ?_
    | with_reducible refine kis_held ?_
    | with_reducible refine kis_bind (fun _ => ?_)
    | with_reducible exact kok_err _
    | with_reducible refine kok_ok ?_
    | with_reducible refine kok_bind_st ?_ (fun _ _ => ?_)
    | with_reducible refine kok_bind (fun _ => ?_)
    | refine keeps_upd ?_ rfl rfl rfl rfl rfl

theorem State.commitReq_keeps (n : Nat) (d : Desc) (bad : Bool) {s0 s : State} (h0 : s0.Keeps s) : s0.Keeps (State.commitReq s n d bad) := by
  unfold State.commitReq
  repeat' first
    | with_reducible assumption
    | dsimp only
    | split
    | with_reducible refine State.flushCore_keeps _ ?_
    | with_reducible refine State.onSlot_keeps _ _ _ _ _ ?_
    | with_reducible refine keeps_foldl _ _ _ (fun _ _ _ => ?_) ?_
    | with_reducible refine keeps_foldl_snd _ _ _ (fun _ _ _ => ?_) ?_
    | with_reducible refine keeps_foldl_fst _ _ _ (fun _ _ _ => ?_) ?_
    | refine keeps_upd ?_ rfl rfl rfl rfl rfl

theorem execCommit_keeps (n : Fin 32) (d : Desc) (s : State) : ∃ t, execCommit n d s = .next t ∧ s.Keeps t := by
  refine ⟨_, rfl, ?_⟩
  have h0 := State.Keeps.refl s
  repeat' first
    | with_reducible assumption
    | dsimp only
    | split
    | with_reducible refine State.control_keeps _ _ _ _ _ (fun _ _ _ _ => ?_) ?_
    | with_reducible refine State.commitReq_keeps _ _ _ ?_
    | with_reducible refine State.putRecord_keeps _ _ ?_
    | with_reducible exact kis_err _
    | with_reducible refine kis_done ?_
    | with_reducible refine kis_held ?_
    | with_reducible refine kis_bind (fun _ => ?_)
    | with_reducible exact kok_err _
    | with_reducible refine kok_ok ?_
    | with_reducible refine kok_bind_st ?_ (fun _ _ => ?_)
    | with_reducible refine kok_bind (fun _ => ?_)
    | refine keeps_upd ?_ rfl rfl rfl rfl rfl

theorem State.jumpTo_keeps (n : Nat) (k : Nat) {s0 s : State} (h0 : s0.Keeps s) : s0.Keeps (State.jumpTo s n k) := by
  unfold State.jumpTo
  repeat' first
    | with_reducible assumption
    | dsimp only
    | split
    | with_reducible refine State.onCore_keeps _ _ (fun _ => rfl) ?_

theorem State.branchTo_keeps (n : Nat) (kind : Nat) (target : Nat) {s0 s : State} (h0 : s0.Keeps s) : s0.Keeps (State.branchTo s n kind target) := by
  unfold State.branchTo
  repeat' first
    | with_reducible assumption
    | dsimp only
    | split
    | with_reducible refine State.endCore_keeps _ ?_
    | with_reducible refine State.jumpTo_keeps _ _ ?_

theorem State.branch_keeps (n : Nat) (kind : Nat) (d : Desc) (pan : Bool) {s0 s : State} (h0 : s0.Keeps s) : s0.Keeps (State.branch s n kind d pan) := by
  unfold State.branch
  repeat' first
    | with_reducible assumption
    | dsimp only
    | split
    | with_reducible refine State.control_keeps _ _ _ _ _ (fun _ _ _ _ => ?_) ?_
    | with_reducible refine State.waitFor_keeps _ _ _ ?_
    | with_reducible refine State.putRecord_keeps _ _ ?_
    | with_reducible refine State.branchTo_keeps _ _ _ ?_
    | with_reducible exact kis_err _
    | with_reducible refine kis_done ?_
    | with_reducible refine kis_held ?_
    | with_reducible refine kis_bind (fun _ => ?_)
    | with_reducible exact kok_err _
    | with_reducible refine kok_ok ?_
    | with_reducible refine kok_bind_st ?_ (fun _ _ => ?_)
    | with_reducible refine kok_bind (fun _ => ?_)
    | refine keeps_upd ?_ rfl rfl rfl rfl rfl

theorem execStepEnd_keeps (n : Fin 32) (d : Branch) (s : State) : ∃ t, execStepEnd n d s = .next t ∧ s.Keeps t :=
  ⟨_, rfl, State.branch_keeps _ _ _ _ (.refl s)⟩

theorem execJump_keeps (n : Fin 32) (d : Branch) (s : State) : ∃ t, execJump n d s = .next t ∧ s.Keeps t :=
  ⟨_, rfl, State.branch_keeps _ _ _ _ (.refl s)⟩

theorem execIfAny_keeps (n : Fin 32) (d : Desc) (pan : Bool) (s : State) : ∃ t, execIfAny n d pan s = .next t ∧ s.Keeps t :=
  ⟨_, rfl, State.branch_keeps _ _ _ _ (.refl s)⟩

theorem execIfAll_keeps (n : Fin 32) (d : Desc) (pan : Bool) (s : State) : ∃ t, execIfAll n d pan s = .next t ∧ s.Keeps t :=
  ⟨_, rfl, State.branch_keeps _ _ _ _ (.refl s)⟩

theorem execIfNone_keeps (n : Fin 32) (d : Desc) (pan : Bool) (s : State) : ∃ t, execIfNone n d pan s = .next t ∧ s.Keeps t :=
  ⟨_, rfl, State.branch_keeps _ _ _ _ (.refl s)⟩

theorem execFbar_keeps (n : Fin 32) (d : Desc) (s : State) : ∃ t, execFbar n d s = .next t ∧ s.Keeps t := by
  refine ⟨_, rfl, ?_⟩
  have h0 := State.Keeps.refl s
  repeat' first
    | with_reducible assumption
    | dsimp only
    | split
    | with_reducible refine State.control_keeps _ _ _ _ _ (fun _ _ _ _ => ?_) ?_
    | with_reducible refine State.deliverTraps_keeps _ ?_
    | with_reducible refine State.flushCore_keeps _ ?_
    | with_reducible refine State.putRecord_keeps _ _ ?_
    | with_reducible exact kis_err _
    | with_reducible refine kis_done ?_
    | with_reducible refine kis_held ?_
    | with_reducible refine kis_bind (fun _ => ?_)
    | with_reducible exact kok_err _
    | with_reducible refine kok_ok ?_
    | with_reducible refine kok_bind_st ?_ (fun _ _ => ?_)
    | with_reducible refine kok_bind (fun _ => ?_)
    | refine keeps_upd ?_ rfl rfl rfl rfl rfl

theorem State.resume_keeps (n : Nat) {s0 s : State} (h0 : s0.Keeps s) : s0.Keeps (State.resume s n) := by
  unfold State.resume
  repeat' first
    | with_reducible assumption
    | dsimp only
    | split
    | with_reducible refine State.onCore_keeps _ _ (fun _ => rfl) ?_
    | with_reducible refine State.putRecord_keeps _ _ ?_

theorem State.pushRes_keeps (n : Nat) (d : Desc) (index : Nat) (narrow : Bool) (os : List (List Opnd × List Opnd)) (res : List SlotRes) {s0 s : State} (h0 : s0.Keeps s) : s0.Keeps (State.pushRes s n d index narrow os res) := by
  unfold State.pushRes
  repeat' first
    | with_reducible assumption
    | dsimp only
    | split
    | with_reducible refine State.push_keeps _ _ _ _ ?_
    | refine keeps_upd ?_ rfl rfl rfl rfl rfl

theorem State.readPart_keeps (n : Nat) (w : Wait) {s0 s : State} (h0 : s0.Keeps s) : s0.Keeps (State.readPart s n w) := by
  unfold State.readPart
  repeat' first
    | with_reducible assumption
    | dsimp only
    | split
    | with_reducible refine State.reduce_keeps _ _ _ _ _ ?_
    | with_reducible refine State.readAll_keeps _ _ ?_
    | refine keeps_upd ?_ rfl rfl rfl rfl rfl

theorem State.releaseReduce_keeps (rw : List (Nat × Nat × Wait)) {s0 s : State} (h0 : s0.Keeps s) : s0.Keeps (State.releaseReduce s rw) := by
  unfold State.releaseReduce
  repeat' first
    | with_reducible assumption
    | dsimp only
    | split
    | with_reducible refine State.turnTo_keeps _ _ ?_
    | with_reducible refine State.readPart_keeps _ _ ?_
    | with_reducible refine State.reduce_keeps _ _ _ _ _ ?_
    | with_reducible refine State.pushRes_keeps _ _ _ _ _ _ ?_
    | with_reducible refine keeps_foldl _ _ _ (fun _ _ _ => ?_) ?_
    | with_reducible refine keeps_foldl_snd _ _ _ (fun _ _ _ => ?_) ?_
    | with_reducible refine keeps_foldl_fst _ _ _ (fun _ _ _ => ?_) ?_
    | refine keeps_upd ?_ rfl rfl rfl rfl rfl

theorem State.releaseGemm_keeps (rw : List (Nat × Nat × Wait)) {s0 s : State} (h0 : s0.Keeps s) : s0.Keeps (State.releaseGemm s rw) := by
  unfold State.releaseGemm
  repeat' first
    | with_reducible assumption
    | dsimp only
    | split
    | with_reducible refine State.turnTo_keeps _ _ ?_
    | with_reducible refine State.readPart_keeps _ _ ?_
    | with_reducible refine State.pushRes_keeps _ _ _ _ _ _ ?_
    | with_reducible refine keeps_foldl _ _ _ (fun _ _ _ => ?_) ?_
    | with_reducible refine keeps_foldl_snd _ _ _ (fun _ _ _ => ?_) ?_
    | with_reducible refine keeps_foldl_fst _ _ _ (fun _ _ _ => ?_) ?_
    | refine keeps_upd ?_ rfl rfl rfl rfl rfl

theorem State.releaseBranch_keeps (p : Nat) (c : Nat) (rw : List (Nat × Nat × Wait)) {s0 s : State} (h0 : s0.Keeps s) : s0.Keeps (State.releaseBranch s p c rw) := by
  unfold State.releaseBranch
  repeat' first
    | with_reducible assumption
    | dsimp only
    | split
    | with_reducible refine State.branch_keeps _ _ _ _ ?_
    | with_reducible refine State.turnTo_keeps _ _ ?_
    | with_reducible refine State.branchTo_keeps _ _ _ ?_
    | with_reducible refine keeps_foldl _ _ _ (fun _ _ _ => ?_) ?_
    | with_reducible refine keeps_foldl_snd _ _ _ (fun _ _ _ => ?_) ?_
    | with_reducible refine keeps_foldl_fst _ _ _ (fun _ _ _ => ?_) ?_
    | refine keeps_upd ?_ rfl rfl rfl rfl rfl

theorem State.release_keeps (p : Nat) (c : Nat) (rw : List (Nat × Nat × Wait)) (w : Wait) {s0 s : State} (h0 : s0.Keeps s) : s0.Keeps (State.release s p c rw w) := by
  unfold State.release
  repeat' first
    | with_reducible assumption
    | dsimp only
    | split
    | with_reducible refine State.reduce_keeps _ _ _ _ _ ?_
    | with_reducible refine State.releaseReduce_keeps _ ?_
    | with_reducible refine State.releaseGemm_keeps _ ?_
    | with_reducible refine State.branch_keeps _ _ _ _ ?_
    | with_reducible refine State.releaseBranch_keeps _ _ _ ?_
    | refine keeps_upd ?_ rfl rfl rfl rfl rfl

theorem execBarrierRelease_keeps (p : Fin 16) (c : Fin 8) (s : State) : ∃ t, execBarrierRelease p c s = .next t ∧ s.Keeps t := by
  refine ⟨_, rfl, ?_⟩
  have h0 := State.Keeps.refl s
  repeat' first
    | with_reducible assumption
    | dsimp only
    | split
    | with_reducible refine State.turnTo_keeps _ _ ?_
    | with_reducible refine State.resume_keeps _ ?_
    | with_reducible refine State.passEnd_keeps _ ?_
    | with_reducible refine State.release_keeps _ _ _ _ ?_
    | with_reducible refine keeps_foldl _ _ _ (fun _ _ _ => ?_) ?_
    | with_reducible refine keeps_foldl_snd _ _ _ (fun _ _ _ => ?_) ?_
    | with_reducible refine keeps_foldl_fst _ _ _ (fun _ _ _ => ?_) ?_
    | refine keeps_upd ?_ rfl rfl rfl rfl rfl

theorem execBarrierTimeout_keeps (n : Fin 32) (s : State) : ∃ t, execBarrierTimeout n s = .next t ∧ s.Keeps t := by
  refine ⟨_, rfl, ?_⟩
  have h0 := State.Keeps.refl s
  repeat' first
    | with_reducible assumption
    | dsimp only
    | split
    | with_reducible refine State.fault_keeps _ _ _ ?_
    | refine keeps_upd ?_ rfl rfl rfl rfl rfl

theorem execTrapDelivery_keeps (n : Fin 32) (s : State) : ∃ t, execTrapDelivery n s = .next t ∧ s.Keeps t := by
  refine ⟨_, rfl, ?_⟩
  have h0 := State.Keeps.refl s
  repeat' first
    | with_reducible assumption
    | dsimp only
    | split
    | with_reducible refine State.deliverTrap_keeps _ ?_

theorem execBufferFlush_keeps (n : Fin 32) (cell : Fin 16) (s : State) : ∃ t, execBufferFlush n cell s = .next t ∧ s.Keeps t := by
  refine ⟨_, rfl, ?_⟩
  have h0 := State.Keeps.refl s
  repeat' first
    | with_reducible assumption
    | dsimp only
    | split
    | with_reducible refine State.flushEntry_keeps _ _ ?_
    | with_reducible refine keeps_foldl _ _ _ (fun _ _ _ => ?_) ?_

end Sys2Proof.Machine
end

