-- ==== Sys2Proof/Laws/KeepsSolver.lean ====
section
/-!
SUPPORT. What every operation of Solver keeps: the commands that wait, and the invariant of the state.
-/

namespace Sys2Proof.Machine

theorem execLdltDense_keeps (n : Fin 32) (d : Desc) (s : State) : ∃ t, execLdltDense n d s = .next t ∧ s.Keeps t :=
  ⟨_, rfl, State.rounded_keeps _ _ _ _ (fun _ => State.operate_keeps _ _ _ _ _ (.refl s)) (.refl s)⟩

theorem execLdltStaged_keeps (n : Fin 32) (d : Desc) (s : State) : ∃ t, execLdltStaged n d s = .next t ∧ s.Keeps t :=
  ⟨_, rfl, State.rounded_keeps _ _ _ _ (fun _ => State.operate_keeps _ _ _ _ _ (.refl s)) (.refl s)⟩

theorem State.trsolve_keeps (n : Nat) (d : Desc) (sub : Nat) {s0 s : State} (h0 : s0.Keeps s) : s0.Keeps (State.trsolve s n d sub) :=
  State.rounded_keeps _ _ _ _ (fun _ => State.operate_keeps _ _ _ _ _ h0) h0

theorem execTrsolveForward_keeps (n : Fin 32) (d : Desc) (s : State) : ∃ t, execTrsolveForward n d s = .next t ∧ s.Keeps t :=
  ⟨_, rfl, State.trsolve_keeps _ _ _ (.refl s)⟩

theorem execTrsolveDiag_keeps (n : Fin 32) (d : Desc) (s : State) : ∃ t, execTrsolveDiag n d s = .next t ∧ s.Keeps t :=
  ⟨_, rfl, State.trsolve_keeps _ _ _ (.refl s)⟩

theorem execTrsolveBackward_keeps (n : Fin 32) (d : Desc) (s : State) : ∃ t, execTrsolveBackward n d s = .next t ∧ s.Keeps t :=
  ⟨_, rfl, State.trsolve_keeps _ _ _ (.refl s)⟩

theorem execTrsolveFull_keeps (n : Fin 32) (d : Desc) (s : State) : ∃ t, execTrsolveFull n d s = .next t ∧ s.Keeps t :=
  ⟨_, rfl, State.trsolve_keeps _ _ _ (.refl s)⟩

end Sys2Proof.Machine
end

