-- ==== Sys2Proof/Laws/KeepsCert.lean ====
section
/-!
SUPPORT. What every operation of Cert keeps: the commands that wait, and the invariant of the state.
-/

namespace Sys2Proof.Machine

theorem State.cert_keeps (n : Nat) (d : Desc) (mode : Nat) (cls : Nat) {s0 s : State} (h0 : s0.Keeps s) : s0.Keeps (State.cert s n d mode cls) := by
  unfold State.cert
  split
  · exact h0
  · exact State.operate_keeps _ _ _ _ _ h0

theorem execCertOptimality_keeps (n : Fin 32) (d : Desc) (cls : BitVec 2) (s : State) : ∃ t, execCertOptimality n d cls s = .next t ∧ s.Keeps t :=
  ⟨_, rfl, State.cert_keeps _ _ _ _ (.refl s)⟩

theorem execCertPrimalInfeasibility_keeps (n : Fin 32) (d : Desc) (cls : BitVec 2) (s : State) : ∃ t, execCertPrimalInfeasibility n d cls s = .next t ∧ s.Keeps t :=
  ⟨_, rfl, State.cert_keeps _ _ _ _ (.refl s)⟩

theorem execCertDualInfeasibility_keeps (n : Fin 32) (d : Desc) (cls : BitVec 2) (s : State) : ∃ t, execCertDualInfeasibility n d cls s = .next t ∧ s.Keeps t :=
  ⟨_, rfl, State.cert_keeps _ _ _ _ (.refl s)⟩

theorem execCertEkf_keeps (n : Fin 32) (d : Desc) (s : State) : ∃ t, execCertEkf n d s = .next t ∧ s.Keeps t :=
  ⟨_, rfl, State.cert_keeps _ _ _ _ (.refl s)⟩

end Sys2Proof.Machine
end

