-- ==== Sys2Proof/Laws/KeepsJobs.lean ====
section
/-!
SUPPORT. What every operation of Jobs keeps: the commands that wait, and the invariant of the state.
-/

namespace Sys2Proof.Machine

/-- The instances changed so that their numbers stay different and below the next one. -/
theorem keeps_jobs {s0 s : State} (h : s0.Keeps s) {l : List Job} {n : Nat} (hi : (s.jobs.map Job.id).Nodup → (∀ j ∈ s.jobs, j.id < s.nextJob) →
    (l.map Job.id).Nodup ∧ ∀ j ∈ l, j.id < n) : s0.Keeps { s with jobs := l, nextJob := n } :=
  ⟨h.1, fun i =>
    let j := h.2 i
    { mem := j.mem, flash := j.flash, tideNs := j.tideNs, tideFrac := j.tideFrac, counts := j.counts, unackedA := j.unackedA,
      unackedB := j.unackedB, logs := j.logs, jobIds := (hi j.jobIds j.jobNext).1, jobNext := (hi j.jobIds j.jobNext).2, lines := j.lines }⟩

theorem State.onJob_keeps (id : Nat) (f : Job → Job) {s0 s : State} (hf : ∀ j, j.id = id → (f j).id = j.id) (h0 : s0.Keeps s) :
    s0.Keeps (State.onJob s id f) := by
  unfold State.onJob
  refine keeps_jobs h0 (fun h1 h2 => ?_)
  have e : ∀ j : Job, (if j.id = id then f j else j).id = j.id := by
    intro j
    split
    · exact hf j (by assumption)
    · rfl
  refine ⟨?_, ?_⟩
  · rw [List.map_map]
    have : (Job.id ∘ fun j => if j.id = id then f j else j) = Job.id := by funext j; exact e j
    rw [this]
    exact h1
  · intro j hj
    obtain ⟨k, hk, rfl⟩ := List.mem_map.1 hj
    rw [e]
    exact h2 k hk

theorem State.dropJob_keeps (id : Nat) {s0 s : State} (h0 : s0.Keeps s) : s0.Keeps (State.dropJob s id) :=
  keeps_jobs h0 (fun h1 h2 => ⟨List.Nodup.sublist (List.Sublist.map _ List.filter_sublist) h1,
    fun j hj => h2 j (List.mem_filter.1 hj).1⟩)

/-- A new instance takes the next number. -/
theorem keeps_newJob {s0 s : State} (h : s0.Keeps s) {j : Job} (hj : j.id = s.nextJob) :
    s0.Keeps { s with jobs := s.jobs ++ [j], nextJob := s.nextJob + 1 } :=
  keeps_jobs h (fun h1 h2 => by
    refine ⟨?_, ?_⟩
    · rw [List.map_append]
      refine List.Nodup.append h1 (List.nodup_singleton _) ?_
      simp only [List.map_cons, List.map_nil, List.disjoint_singleton, List.mem_map, not_exists, not_and]
      intro k hk e
      have := h2 k hk
      omega
    · intro k hk
      rcases List.mem_append.1 hk with hk | hk
      · have := h2 k hk
        omega
      · rw [List.mem_singleton.1 hk]
        omega)

theorem State.sendComp_keeps (c : CompRec) (q : QueueSt) (x : Port × HostAddr) {s0 s : State} (h0 : s0.Keeps s) : s0.Keeps (State.sendComp s c q x) := by
  unfold State.sendComp
  repeat' first
    | with_reducible assumption
    | dsimp only
    | split
    | with_reducible refine keeps_eq2 (by assumption) ?_
    | with_reducible refine State.sendMsg_keeps _ _ ?_
    | refine keeps_upd ?_ rfl rfl rfl rfl rfl

theorem State.giveFrame_keeps (f : OutFrame) (again : Bool) {s0 s : State} (h0 : s0.Keeps s) : s0.Keeps (State.giveFrame s f again) := by
  unfold State.giveFrame
  repeat' first
    | with_reducible assumption
    | dsimp only
    | split
    | with_reducible refine State.handFrame_keeps _ ?_
    | with_reducible refine State.transmit_keeps _ ?_
    | refine keeps_upd ?_ rfl rfl rfl rfl rfl

theorem State.paceFrame_keeps (pan : Option Nat) (f : OutFrame) (again : Bool) {s0 s : State} (h0 : s0.Keeps s) : s0.Keeps (State.paceFrame s pan f again) := by
  unfold State.paceFrame
  repeat' first
    | with_reducible assumption
    | dsimp only
    | split
    | with_reducible refine State.giveFrame_keeps _ _ ?_
    | with_reducible refine State.charge_keeps _ _ _ ?_
    | with_reducible refine State.place_keeps _ _ _ ?_
    | with_reducible refine State.onHport_keeps _ _ (fun _ => rfl) ?_
    | refine keeps_upd ?_ rfl rfl rfl rfl rfl

theorem State.releaseOn_keeps (p : Port) {s0 s : State} (h0 : s0.Keeps s) : s0.Keeps (State.releaseOn s p) := by
  unfold State.releaseOn
  repeat' first
    | with_reducible assumption
    | dsimp only
    | split
    | with_reducible refine State.place_keeps _ _ _ ?_
    | with_reducible refine State.giveFrame_keeps _ _ ?_
    | with_reducible refine State.onHport_keeps _ _ (fun _ => rfl) ?_
    | with_reducible refine keeps_foldl _ _ _ (fun _ _ _ => ?_) ?_
    | with_reducible refine keeps_foldl_snd _ _ _ (fun _ _ _ => ?_) ?_
    | with_reducible refine keeps_foldl_fst _ _ _ (fun _ _ _ => ?_) ?_
    | refine keeps_upd ?_ rfl rfl rfl rfl rfl

theorem State.releasePaced_keeps {s0 s : State} (h0 : s0.Keeps s) : s0.Keeps (State.releasePaced s) := by
  unfold State.releasePaced
  repeat' first
    | with_reducible assumption
    | dsimp only
    | split
    | with_reducible refine State.releaseOn_keeps _ ?_
    | refine keeps_upd ?_ rfl rfl rfl rfl rfl

theorem State.sendPaced_keeps (pan : Option Nat) (p : Port) (m : OutMsg) {s0 s : State} (h0 : s0.Keeps s) : s0.Keeps (State.sendPaced s pan p m) := by
  unfold State.sendPaced
  repeat' first
    | with_reducible assumption
    | dsimp only
    | split
    | with_reducible refine keeps_eq2 (by assumption) ?_
    | with_reducible refine State.numberMsg_keeps _ _ ?_
    | with_reducible refine State.paceFrame_keeps _ _ _ ?_
    | with_reducible refine keeps_foldl _ _ _ (fun _ _ _ => ?_) ?_
    | with_reducible refine keeps_foldl_snd _ _ _ (fun _ _ _ => ?_) ?_
    | with_reducible refine keeps_foldl_fst _ _ _ (fun _ _ _ => ?_) ?_
    | refine keeps_upd ?_ rfl rfl rfl rfl rfl

theorem State.payFrames_keeps (p : Nat) (l : List Nat) {s0 s : State} (h0 : s0.Keeps s) : s0.Keeps (State.payFrames p l s).2 := by
  induction l generalizing s with
  | nil => exact h0
  | cons n r ih =>
    unfold State.payFrames
    split
    · exact State.onPan_keeps _ _ h0
    · exact ih (State.charge_keeps _ _ _ h0)

theorem State.dropComp_keeps (id : Nat) {s0 s : State} (h0 : s0.Keeps s) : s0.Keeps (State.dropComp s id) := by
  unfold State.dropComp
  refine State.onHport_keeps_le _ _ (fun hl => (List.length_filter_le _ _).trans hl) ?_
  refine State.onHport_keeps_le _ _ (fun hl => (List.length_filter_le _ _).trans hl) ?_
  exact keeps_upd h0 rfl rfl rfl rfl rfl

theorem State.markSent_keeps (p : Port) (id : Nat) {s0 s : State} (h0 : s0.Keeps s) : s0.Keeps (State.markSent s p id) := by
  unfold State.markSent
  repeat' first
    | with_reducible assumption
    | dsimp only
    | split
    | refine keeps_upd ?_ rfl rfl rfl rfl rfl

theorem State.pumpN_keeps (p : Port) (n : Nat) {s0 s : State} (h0 : s0.Keeps s) : s0.Keeps (State.pumpN p n s) := by
  induction n generalizing s with
  | zero => exact h0
  | succ n ih =>
    unfold State.pumpN
    split
    · exact h0
    · rename_i f r _
      split
      · exact h0
      · rename_i hl
        split
        · exact ih (State.bump_keeps _ (State.dropComp_keeps _ h0))
        · exact ih (State.markSent_keeps _ _ (State.handNow_keeps _ (fun _ => by cases p <;> exact Nat.lt_of_not_le hl) (State.onHport_keeps _ _ (fun _ => rfl) h0)))

theorem State.pumpWaiting_keeps (p : Port) {s0 s : State} (h0 : s0.Keeps s) : s0.Keeps (State.pumpWaiting s p) :=
  State.pumpN_keeps p _ h0

theorem State.freeComp_keeps (id : Nat) {s0 s : State} (h0 : s0.Keeps s) : s0.Keeps (State.freeComp s id) :=
  State.pumpWaiting_keeps _ (State.pumpWaiting_keeps _ (State.dropComp_keeps _ h0))

theorem State.tryComp_keeps (c : CompRec) {s0 s : State} (h0 : s0.Keeps s) : s0.Keeps (State.tryComp s c) := by
  have hs {q : QueueSt} {ps : List (Port × HostAddr)} {t : State} (h : s0.Keeps t) : s0.Keeps (ps.foldl (fun s x => s.sendComp c q x) t) :=
    keeps_foldl _ _ _ (fun _ _ k => State.sendComp_keeps _ _ _ k) h
  have hm {ps : List (Port × HostAddr)} {t : State} (h : s0.Keeps t) : s0.Keeps (ps.foldl (fun s x => s.markSent x.1 c.id) t) :=
    keeps_foldl _ _ _ (fun _ _ k => State.markSent_keeps _ _ k) h
  unfold State.tryComp
  dsimp only
  split
  · exact h0
  · split
    · exact State.bump_keeps _ (keeps_upd h0 rfl rfl rfl rfl rfl)
    · split
      · exact keeps_upd h0 rfl rfl rfl rfl rfl
      · split
        · exact h0
        · split
          · have hp := State.payFrames_keeps ((Option.map QueueCfg.pan (s.queueCfg c.queue)).getD 0)
              (List.drop c.paid (s.compFrames c (s.compPorts (s.queue c.queue)))) h0
            split
            · exact keeps_upd hp rfl rfl rfl rfl rfl
            · split
              · exact hm (keeps_upd (hs hp) rfl rfl rfl rfl rfl)
              · exact State.freeComp_keeps _ (hs hp)
          · split
            · exact keeps_upd h0 rfl rfl rfl rfl rfl
            · split
              · exact hm (keeps_upd (hs h0) rfl rfl rfl rfl rfl)
              · exact State.freeComp_keeps _ (hs h0)

theorem State.flushComps_keeps {s0 s : State} (h0 : s0.Keeps s) : s0.Keeps (State.flushComps s) := by
  unfold State.flushComps
  repeat' first
    | with_reducible assumption
    | dsimp only
    | split
    | with_reducible refine State.tryComp_keeps _ ?_
    | with_reducible refine keeps_foldl _ _ _ (fun _ _ _ => ?_) ?_

theorem State.putComp_keeps (queue : Nat) (gen : BitVec 16) (payload : List Byte) {s0 s : State} (h0 : s0.Keeps s) : s0.Keeps (State.putComp s queue gen payload) := by
  unfold State.putComp
  repeat' first
    | with_reducible assumption
    | dsimp only
    | split
    | with_reducible refine State.tryComp_keeps _ ?_
    | refine keeps_upd ?_ rfl rfl rfl rfl rfl

theorem State.onLoop_keeps (n : Nat) (f : LoopSt → LoopSt) {s0 s : State} (h0 : s0.Keeps s) : s0.Keeps (State.onLoop s n f) := by
  unfold State.onLoop
  repeat' first
    | with_reducible assumption
    | dsimp only
    | split
    | refine keeps_upd ?_ rfl rfl rfl rfl rfl

theorem State.loopSet_keeps (n : Nat) (w : Word) {s0 s : State} (h0 : s0.Keeps s) : s0.Keeps (State.loopSet s n w) := by
  unfold State.loopSet
  repeat' first
    | with_reducible assumption
    | dsimp only
    | split
    | with_reducible refine State.note_keeps _ _ ?_
    | with_reducible refine State.onLoop_keeps _ _ ?_

theorem State.handoff_keeps (queue : Nat) (c : QueueCfg) (x : List Val) {s0 s : State} (h0 : s0.Keeps s) : s0.Keeps (State.handoff s queue c x) := by
  unfold State.handoff
  repeat' first
    | with_reducible assumption
    | dsimp only
    | split
    | with_reducible refine State.stage_keeps _ _ _ _ ?_
    | with_reducible refine State.onLoop_keeps _ _ ?_
    | with_reducible refine State.loopSet_keeps _ _ ?_
    | with_reducible refine keeps_foldl _ _ _ (fun _ _ _ => ?_) ?_

theorem State.addWait_keeps (client : Fin 8) (ns : Nat) {s0 s : State} (h0 : s0.Keeps s) : s0.Keeps (State.addWait s client ns) := by
  unfold State.addWait
  repeat' first
    | with_reducible assumption
    | dsimp only
    | split
    | with_reducible refine State.bump_keeps _ ?_
    | with_reducible refine State.note_keeps _ _ ?_
    | with_reducible refine State.event_keeps _ _ _ ?_
    | refine keeps_upd ?_ rfl rfl rfl rfl rfl

theorem State.countComp_keeps (status : Nat) (how : Nat) {s0 s : State} (h0 : s0.Keeps s) : s0.Keeps (State.countComp s status how) := by
  unfold State.countComp
  repeat' first
    | with_reducible assumption
    | dsimp only
    | split
    | with_reducible refine State.bump_keeps _ ?_

theorem State.slotReport_keeps (core : Nat) (source : Nat) (cls : EClass) (j : Job) (g : Nat) (unit : Nat) {s0 s : State} (h0 : s0.Keeps s) : s0.Keeps (State.slotReport s core source cls j g unit) := by
  unfold State.slotReport
  repeat' first
    | with_reducible assumption
    | dsimp only
    | split
    | with_reducible refine State.report_keeps _ _ _ _ _ _ ?_
    | refine keeps_upd ?_ rfl rfl rfl rfl rfl

theorem State.attribute_keeps (unit : Nat) {s0 s : State} (h0 : s0.Keeps s) : s0.Keeps (State.attribute s unit) := by
  unfold State.attribute
  repeat' first
    | with_reducible assumption
    | dsimp only
    | split
    | refine keeps_upd ?_ rfl rfl rfl rfl rfl

theorem State.certBars_keeps (core : Nat) (j : Job) (g : Nat) (cls : EClass) {s0 s : State} (h0 : s0.Keeps s) : s0.Keeps (State.certBars s core j g cls) :=
  keeps_foldl _ _ _ (fun _ _ h => State.attribute_keeps _ (State.slotReport_keeps _ _ _ _ _ _ h)) h0

theorem State.endEpisode_keeps (p : Nat) (j : Job) (cls : EClass) {s0 s : State} (h0 : s0.Keeps s) : s0.Keeps (State.endEpisode s p j cls) := by
  unfold State.endEpisode
  split
  · exact h0
  · refine State.onJob_keeps _ _ (fun _ _ => rfl) ?_
    split
    · exact State.certBars_keeps _ _ _ _ h0
    · split
      · exact State.slotReport_keeps _ _ _ _ _ _ h0
      · exact h0

theorem State.completeWaiting_keeps (j : Job) (status : Nat) (how : Nat) {s0 s : State} (h0 : s0.Keeps s) : s0.Keeps (State.completeWaiting s j status how) := by
  unfold State.completeWaiting
  repeat' first
    | with_reducible assumption
    | dsimp only
    | split
    | with_reducible refine State.addWait_keeps _ _ ?_
    | with_reducible refine State.countComp_keeps _ _ ?_
    | with_reducible refine State.dropJob_keeps _ ?_
    | with_reducible refine State.putComp_keeps _ _ _ ?_
    | refine keeps_upd ?_ rfl rfl rfl rfl rfl

theorem State.keepPrior_keeps (c : QueueCfg) (j : Job) (committed : Bool) {s0 s : State} (h0 : s0.Keeps s) : s0.Keeps (State.keepPrior s c j committed) := by
  unfold State.keepPrior
  repeat' first
    | with_reducible assumption
    | dsimp only
    | split
    | refine keeps_upd ?_ rfl rfl rfl rfl rfl

theorem State.completeFrom_keeps (c : QueueCfg) (j : Job) (out : Leaving) (status : Nat) (how : Nat) (flags : BitVec 16) {s0 s : State} (h0 : s0.Keeps s) : s0.Keeps (State.completeFrom s c j out status how flags) := by
  unfold State.completeFrom
  repeat' first
    | with_reducible assumption
    | dsimp only
    | split
    | with_reducible refine State.countComp_keeps _ _ ?_
    | with_reducible refine State.putComp_keeps _ _ _ ?_
    | with_reducible refine State.handoff_keeps _ _ _ ?_
    | refine keeps_upd ?_ rfl rfl rfl rfl rfl

theorem State.newJob_keeps (q : Nat) (c : QueueCfg) (client : Fin 8) (tag : Word) (deadline : Nat) (tArr : Nat) (quality : Nat) (params : List Byte) (warm : List Byte) {s0 s : State} (h0 : s0.Keeps s) : s0.Keeps (State.newJob s q c client tag deadline tArr quality params warm) := by
  unfold State.newJob
  repeat' first
    | with_reducible assumption
    | dsimp only
    | split
    | with_reducible refine State.completeWaiting_keeps _ _ _ ?_
    | exact keeps_newJob h0 rfl

end Sys2Proof.Machine
end

