-- ==== Sys2Proof/Laws/KeepsWindow.lean ====
section
/-!
SUPPORT. What every operation of Window keeps: the commands that wait, and the invariant of the state.
-/

namespace Sys2Proof.Machine

theorem State.applyWrite_keeps (x : Staged) {s0 s : State} (h0 : s0.Keeps s) : s0.Keeps (State.applyWrite s x) := by
  unfold State.applyWrite
  repeat' first
    | with_reducible assumption
    | dsimp only
    | split
    | with_reducible refine State.poke_keeps _ _ _ ?_
    | with_reducible refine State.okGen_keeps _ _ ?_
    | with_reducible refine State.onHport_keeps _ _ (fun _ => rfl) ?_

theorem State.applyRead_keeps (x : Staged) {s0 s : State} (h0 : s0.Keeps s) : s0.Keeps (State.applyRead s x) := by
  unfold State.applyRead
  repeat' first
    | with_reducible assumption
    | dsimp only
    | split
    | with_reducible refine State.sendPaced_keeps _ _ _ ?_
    | refine keeps_upd ?_ rfl rfl rfl rfl rfl

theorem State.applyAll_keeps (ok : Staged → Bool) {s0 s : State} (h0 : s0.Keeps s) : s0.Keeps (State.applyAll s ok) := by
  unfold State.applyAll
  dsimp only
  exact keeps_foldl _ _ _ (fun _ _ h => State.applyRead_keeps _ h)
    (keeps_foldl _ _ _ (fun _ _ h => State.applyWrite_keeps _ h) (keeps_upd h0 rfl rfl rfl rfl rfl))

theorem State.windowPhase_keeps (p : Nat) {s0 s : State} (h0 : s0.Keeps s) : s0.Keeps (State.windowPhase s p) := by
  unfold State.windowPhase
  repeat' first
    | with_reducible assumption
    | dsimp only
    | split
    | with_reducible refine State.applyAll_keeps _ ?_

theorem execWindowWriteApply_keeps (w : BitVec 16) (s : State) : ∃ t, execWindowWriteApply w s = .next t ∧ s.Keeps t := by
  refine ⟨_, rfl, ?_⟩
  have h0 := State.Keeps.refl s
  repeat' first
    | with_reducible assumption
    | dsimp only
    | split
    | with_reducible refine State.applyAll_keeps _ ?_

end Sys2Proof.Machine
end

