-- ==== Sys2Proof/Laws/KeepsPhases.lean ====
section
/-!
SUPPORT. What every operation of Phases keeps: the commands that wait, and the invariant of the state.
-/

namespace Sys2Proof.Machine

theorem State.commitLines_keeps (p : Nat) (c : Nat) (x : Nat × Nat) {s0 s : State} (h0 : s0.Keeps s) : s0.Keeps (State.commitLines s p c x) := by
  unfold State.commitLines
  repeat' first
    | with_reducible assumption
    | dsimp only
    | split
    | with_reducible refine keeps_foldl _ _ _ (fun _ _ _ => ?_) ?_
    | with_reducible refine keeps_foldl_snd _ _ _ (fun _ _ _ => ?_) ?_
    | with_reducible refine keeps_foldl_fst _ _ _ (fun _ _ _ => ?_) ?_
    | refine keeps_upd ?_ rfl rfl rfl rfl rfl

theorem State.commitPhase_keeps (p : Nat) (c : Nat) (commits : List Nat) {s0 s : State} (h0 : s0.Keeps s) : s0.Keeps (State.commitPhase s p c commits) := by
  unfold State.commitPhase
  repeat' first
    | with_reducible assumption
    | dsimp only
    | split
    | with_reducible refine State.doDeferred_keeps _ _ _ _ ?_
    | with_reducible refine State.onCore_keeps _ _ (fun _ => rfl) ?_
    | with_reducible refine State.commitLines_keeps _ _ _ ?_
    | with_reducible refine State.dropDirty_keeps _ _ ?_
    | with_reducible refine State.emptyShare_keeps _ _ ?_
    | with_reducible refine State.onCtx_keeps _ _ _ ?_
    | with_reducible refine keeps_foldl _ _ _ (fun _ _ _ => ?_) ?_
    | with_reducible refine keeps_foldl_snd _ _ _ (fun _ _ _ => ?_) ?_
    | with_reducible refine keeps_foldl_fst _ _ _ (fun _ _ _ => ?_) ?_
    | refine keeps_upd ?_ rfl rfl rfl rfl rfl

theorem State.applyFate_keeps (p : Nat) (f : Fate) {s0 s : State} (h0 : s0.Keeps s) : s0.Keeps (State.applyFate s p f) := by
  unfold State.applyFate
  repeat' first
    | with_reducible assumption
    | dsimp only
    | split
    | with_reducible refine State.bump_keeps _ ?_
    | (with_reducible refine State.onJob_keeps _ _ ?_ ?_; · (intro k hk; first | rfl | exact hk.symm | (split <;> first | rfl | exact hk.symm)))
    | with_reducible refine State.certBars_keeps _ _ _ _ ?_
    | with_reducible refine State.endEpisode_keeps _ _ _ ?_
    | with_reducible refine State.slotReport_keeps _ _ _ _ _ _ ?_
    | with_reducible refine State.attribute_keeps _ ?_
    | refine keeps_upd ?_ rfl rfl rfl rfl rfl

theorem State.vacate_keeps (p : Nat) (c : Nat) (g : Nat) {s0 s : State} (h0 : s0.Keeps s) : s0.Keeps (State.vacate s p c g) := by
  unfold State.vacate
  repeat' first
    | with_reducible assumption
    | dsimp only
    | split
    | with_reducible refine State.onSlot_keeps _ _ _ _ _ ?_
    | with_reducible refine keeps_foldl _ _ _ (fun _ _ _ => ?_) ?_

theorem State.leavePhase_keeps (p : Nat) (old : State) (f : Fate) {s0 s : State} (h0 : s0.Keeps s) : s0.Keeps (State.leavePhase s p old f) := by
  unfold State.leavePhase
  repeat' first
    | with_reducible assumption
    | dsimp only
    | split
    | with_reducible refine State.vacate_keeps _ _ _ ?_
    | (with_reducible refine State.onJob_keeps _ _ ?_ ?_; · (intro k hk; first | rfl | exact hk.symm | (split <;> first | rfl | exact hk.symm)))
    | with_reducible refine State.keepPrior_keeps _ _ _ ?_
    | with_reducible refine State.completeFrom_keeps _ _ _ _ _ _ ?_
    | with_reducible refine State.dropJob_keeps _ ?_
    | with_reducible refine keeps_foldl _ _ _ (fun _ _ _ => ?_) ?_
    | with_reducible refine keeps_foldl_snd _ _ _ (fun _ _ _ => ?_) ?_
    | with_reducible refine keeps_foldl_fst _ _ _ (fun _ _ _ => ?_) ?_
    | refine keeps_upd ?_ rfl rfl rfl rfl rfl

theorem State.idle_keeps (p : Nat) (c : Nat) {s0 s : State} (h0 : s0.Keeps s) : s0.Keeps (State.idle s p c) := by
  unfold State.idle
  dsimp only
  split
  · exact keeps_foldl _ _ _ (fun _ _ h => State.onCore_keeps _ _ (fun _ => rfl) h) h0
  · exact h0

theorem State.grantRows_keeps (write : Bool) (l : List (Option Nat × Nat × Nat)) {s0 s t : State} (h0 : s0.Keeps s)
    (e : State.grantRows s write l = some t) : s0.Keeps t := by
  induction l generalizing s with
  | nil => cases e; exact h0
  | cons x r ih =>
    have hm (line : Nat) (e : (if s.isFull line = write then none else (s.mark line write).grantRows write r) = some t) : s0.Keeps t := by
      split at e
      · cases e
      · exact ih (keeps_upd h0 rfl rfl rfl rfl rfl) e
    exact hm _ e

/-- A fold that may stop keeps what each of its steps keeps. -/
theorem keeps_foldlM {α β : Type} {s0 : State} {f : State → α → Except β State} (hf : ∀ s x t, s0.Keeps s → f s x = .ok t → s0.Keeps t)
    (l : List α) {s t : State} (h : s0.Keeps s) (e : l.foldlM f s = .ok t) : s0.Keeps t := by
  induction l generalizing s with
  | nil => cases e; exact h
  | cons x r ih =>
    rw [List.foldlM_cons] at e
    cases hx : f s x with
    | error b => rw [hx] at e; cases e
    | ok u => rw [hx] at e; exact ih (hf s x u h hx) e

theorem State.endFe_keeps (p : Nat) (c : Nat) {s0 s : State} (h0 : s0.Keeps s) : s0.Keeps (State.endFe s p c) := by
  unfold State.endFe
  split
  · split
    · rename_i t e
      refine keeps_foldlM (fun s x t h e => ?_) _ h0 e
      split at e
      · rename_i u hu
        cases e
        exact State.grantRows_keeps _ _ h hu
      · cases e
    · exact State.kill_keeps _ _ _ _ _ (State.onCtx_keeps _ _ _ h0)
  · exact h0

theorem State.boundary_keeps (p : Nat) (c : Nat) (te : Nat) {s0 s : State} (h0 : s0.Keeps s) : s0.Keeps (State.boundary s p c te) := by
  unfold State.boundary
  repeat' first
    | with_reducible assumption
    | dsimp only
    | split
    | with_reducible refine State.endFe_keeps _ _ ?_
    | with_reducible refine State.applyFate_keeps _ _ ?_
    | with_reducible refine State.commitPhase_keeps _ _ _ ?_
    | with_reducible refine State.windowPhase_keeps _ ?_
    | with_reducible refine State.leavePhase_keeps _ _ _ ?_
    | with_reducible refine State.idle_keeps _ _ ?_
    | with_reducible refine State.onCtx_keeps _ _ _ ?_
    | with_reducible refine State.resume_keeps _ ?_
    | with_reducible refine State.feRetry_keeps ?_
    | with_reducible refine keeps_foldl _ _ _ (fun _ _ _ => ?_) ?_
    | with_reducible refine keeps_foldl_snd _ _ _ (fun _ _ _ => ?_) ?_
    | with_reducible refine keeps_foldl_fst _ _ _ (fun _ _ _ => ?_) ?_
    | refine keeps_upd ?_ rfl rfl rfl rfl rfl

theorem State.plain_keeps (a : Nat) (bs : List Byte) {s0 s : State} (h0 : s0.Keeps s) : s0.Keeps (State.plain s a bs) := by
  unfold State.plain
  repeat' first
    | with_reducible assumption
    | dsimp only
    | split
    | with_reducible refine State.place_keeps _ _ _ ?_

theorem State.fillSlot_keeps (p : Nat) (c : Nat) (rank : Nat) (k : Nat) (q : QueueCfg) (j : Job) (corrupt : Bool) {s0 s : State} (h0 : s0.Keeps s) : s0.Keeps (State.fillSlot s p c rank k q j corrupt) := by
  unfold State.fillSlot
  repeat' first
    | with_reducible assumption
    | dsimp only
    | split
    | with_reducible refine State.plain_keeps _ _ ?_
    | with_reducible refine State.onSlot_keeps _ _ _ _ _ ?_
    | with_reducible refine keeps_foldl _ _ _ (fun _ _ _ => ?_) ?_
    | with_reducible refine keeps_foldl_snd _ _ _ (fun _ _ _ => ?_) ?_
    | with_reducible refine keeps_foldl_fst _ _ _ (fun _ _ _ => ?_) ?_
    | refine keeps_upd ?_ rfl rfl rfl rfl rfl

theorem State.admitOne_keeps (p : Nat) (c : Nat) (te : Nat) (q : QueueCfg) (j : Job) (gs : List Nat) {s0 s : State} (h0 : s0.Keeps s) : s0.Keeps (State.admitOne s p c te q j gs) := by
  unfold State.admitOne
  repeat' first
    | with_reducible assumption
    | dsimp only
    | split
    | with_reducible refine State.fillSlot_keeps _ _ _ _ _ _ _ ?_
    | with_reducible refine State.addWait_keeps _ _ ?_
    | (with_reducible refine State.onJob_keeps _ _ ?_ ?_; · (intro k hk; first | rfl | exact hk.symm | (split <;> first | rfl | exact hk.symm)))
    | with_reducible refine keeps_foldl _ _ _ (fun _ _ _ => ?_) ?_
    | with_reducible refine keeps_foldl_snd _ _ _ (fun _ _ _ => ?_) ?_
    | with_reducible refine keeps_foldl_fst _ _ _ (fun _ _ _ => ?_) ?_
    | refine keeps_upd ?_ rfl rfl rfl rfl rfl

theorem State.admitAll_keeps (p c te : Nat) (l : List Job) (taken : List Nat) {s0 s : State} (h0 : s0.Keeps s) :
    s0.Keeps (State.admitAll p c te l taken s) := by
  induction l generalizing s taken with
  | nil => exact h0
  | cons j r ih =>
    unfold State.admitAll
    repeat' first
      | with_reducible assumption
      | with_reducible refine ih _ ?_
      | split
      | with_reducible refine State.completeWaiting_keeps _ _ _ ?_
      | with_reducible refine State.admitOne_keeps _ _ _ _ _ _ ?_

theorem State.startCore_keeps (p : Nat) (c : Nat) (rank : Nat) (n : Nat) (fresh : Bool) (others : List Nat) {s0 s : State} (h0 : s0.Keeps s) : s0.Keeps (State.startCore s p c rank n fresh others) := by
  unfold State.startCore
  repeat' first
    | with_reducible assumption
    | dsimp only
    | split
    | with_reducible refine State.onCore_keeps _ _ (fun _ => rfl) ?_
    | with_reducible refine State.stage_keeps _ _ _ _ ?_
    | refine keeps_upd ?_ rfl rfl rfl rfl rfl

theorem State.startStep_keeps (p : Nat) (c : Nat) (te : Nat) (at' : Nat) {s0 s : State} (h0 : s0.Keeps s) : s0.Keeps (State.startStep s p c te at') := by
  unfold State.startStep
  repeat' first
    | with_reducible assumption
    | dsimp only
    | split
    | with_reducible refine State.admitAll_keeps _ _ _ _ _ ?_
    | with_reducible refine State.onCtx_keeps _ _ _ ?_
    | with_reducible refine State.boundary_keeps _ _ _ ?_
    | with_reducible refine State.resume_keeps _ ?_
    | with_reducible refine State.startCore_keeps _ _ _ _ _ _ ?_
    | with_reducible refine keeps_foldl _ _ _ (fun _ _ _ => ?_) ?_
    | with_reducible refine keeps_foldl_snd _ _ _ (fun _ _ _ => ?_) ?_
    | with_reducible refine keeps_foldl_fst _ _ _ (fun _ _ _ => ?_) ?_
    | refine keeps_upd ?_ rfl rfl rfl rfl rfl

end Sys2Proof.Machine
end

