-- ==== Sys2Proof/Laws/KeepsPan.lean ====
section
/-!
SUPPORT. What every operation of Pan keeps: the commands that wait, and the invariant of the state.
-/

namespace Sys2Proof.Machine

theorem State.startLoad_keeps (p : Nat) (c : Nat) (cat : Nat) (l : LoadPlan) {s0 s : State} (h0 : s0.Keeps s) : s0.Keeps (State.startLoad s p c cat l) := by
  unfold State.startLoad
  repeat' first
    | with_reducible assumption
    | dsimp only
    | split
    | with_reducible refine keeps_eq2 (by assumption) ?_
    | with_reducible refine State.onCore_keeps _ _ (fun _ => by split <;> rfl) ?_
    | with_reducible refine State.chargeBy_keeps _ _ _ _ ?_
    | with_reducible refine State.load_keeps _ _ _ ?_
    | with_reducible refine State.onCtx_keeps _ _ _ ?_
    | with_reducible refine keeps_foldl _ _ _ (fun _ _ _ => ?_) ?_
    | with_reducible refine keeps_foldl_snd _ _ _ (fun _ _ _ => ?_) ?_
    | with_reducible refine keeps_foldl_fst _ _ _ (fun _ _ _ => ?_) ?_
    | refine keeps_upd ?_ rfl rfl rfl rfl rfl

theorem State.load_keeps (p : Nat) (c : Nat) (cat : Nat) {s0 s : State} (h0 : s0.Keeps s) : s0.Keeps (State.load s p c cat).2 := by
  unfold State.load
  repeat' first
    | with_reducible assumption
    | dsimp only
    | split
    | with_reducible refine State.startLoad_keeps _ _ _ _ ?_
    | with_reducible refine State.note_keeps _ _ ?_
    | refine keeps_upd ?_ rfl rfl rfl rfl rfl

theorem State.loadPlace_keeps (a : Nat) (bs : List Byte) {s0 s : State} (h0 : s0.Keeps s) : s0.Keeps (State.loadPlace s a bs) := by
  unfold State.loadPlace
  repeat' first
    | with_reducible assumption
    | dsimp only
    | split
    | with_reducible refine State.place_keeps _ _ _ ?_

theorem State.writeRank_keeps (e : CatEntry) (rank : Nat) (n : Nat) {s0 s : State} (h0 : s0.Keeps s) : s0.Keeps (State.writeRank s e rank n) := by
  unfold State.writeRank
  repeat' first
    | with_reducible assumption
    | dsimp only
    | split
    | with_reducible refine State.loadPlace_keeps _ _ ?_
    | with_reducible refine keeps_foldl _ _ _ (fun _ _ _ => ?_) ?_
    | with_reducible refine keeps_foldl_snd _ _ _ (fun _ _ _ => ?_) ?_
    | with_reducible refine keeps_foldl_fst _ _ _ (fun _ _ _ => ?_) ?_
    | refine keeps_upd ?_ rfl rfl rfl rfl rfl

theorem State.writeRegions_keeps (p : Nat) (c : Nat) {s0 s : State} (h0 : s0.Keeps s) : s0.Keeps (State.writeRegions s p c) := by
  unfold State.writeRegions
  repeat' first
    | with_reducible assumption
    | dsimp only
    | split
    | with_reducible refine State.loadPlace_keeps _ _ ?_
    | with_reducible refine keeps_foldl _ _ _ (fun _ _ _ => ?_) ?_
    | with_reducible refine keeps_foldl_snd _ _ _ (fun _ _ _ => ?_) ?_
    | with_reducible refine keeps_foldl_fst _ _ _ (fun _ _ _ => ?_) ?_
    | refine keeps_upd ?_ rfl rfl rfl rfl rfl

theorem State.writePart_keeps (p : Nat) (e : CatEntry) (x : ModelPack × Nat) (core : Nat) (rank : Nat) (ofs : Nat) {s0 s : State} (h0 : s0.Keeps s) : s0.Keeps (State.writePart s p e x core rank ofs).1 := by
  unfold State.writePart
  repeat' first
    | with_reducible assumption
    | dsimp only
    | split
    | with_reducible refine State.onPan_keeps _ _ ?_
    | with_reducible refine State.loadPlace_keeps _ _ ?_
    | refine keeps_upd ?_ rfl rfl rfl rfl rfl

theorem State.writeCore_keeps (p : Nat) (e : CatEntry) (core : Nat) (l : List (ModelPack × Nat × Nat)) (ofs : Nat) {s0 s : State}
    (h0 : s0.Keeps s) : s0.Keeps (State.writeCore p e core l ofs s) := by
  induction l generalizing ofs s with
  | nil => exact h0
  | cons _ _ ih => exact ih _ (State.writePart_keeps _ _ _ _ _ _ h0)

theorem State.writePacks_keeps (p : Nat) (e : CatEntry) (ranks : List Nat) (ms : List ModelPack) (t : Nat) {s0 s : State} (h0 : s0.Keeps s) :
    s0.Keeps (State.writePacks s p e ranks ms t) := keeps_foldl _ _ _ (fun _ _ h => State.writeCore_keeps _ _ _ _ _ h) h0

theorem State.writeLoad_keeps (p : Nat) (c : Nat) {s0 s : State} (h0 : s0.Keeps s) : s0.Keeps (State.writeLoad s p c) :=
  State.writePacks_keeps _ _ _ _ _ (State.writeRegions_keeps _ _ (keeps_foldl _ _ _ (fun _ _ h => State.writeRank_keeps _ _ _ h) h0))

theorem State.clearShare_keeps (p : Nat) (c : Nat) {s0 s : State} (h0 : s0.Keeps s) : s0.Keeps (State.clearShare s p c) := by
  unfold State.clearShare
  repeat' first
    | with_reducible assumption
    | dsimp only
    | split
    | with_reducible refine State.dropDirty_keeps _ _ ?_
    | with_reducible refine State.emptyShare_keeps _ _ ?_
    | with_reducible refine State.feRetry_keeps ?_
    | refine keeps_upd ?_ rfl rfl rfl rfl rfl

theorem State.sweepCopies_keeps (p : Nat) {s0 s : State} (h0 : s0.Keeps s) : s0.Keeps (State.sweepCopies s p) := by
  unfold State.sweepCopies
  repeat' first
    | with_reducible assumption
    | dsimp only
    | split
    | with_reducible refine State.onPan_keeps _ _ ?_
    | refine keeps_upd ?_ rfl rfl rfl rfl rfl

theorem State.sweepModels_keeps {s0 s : State} (h0 : s0.Keeps s) : s0.Keeps (State.sweepModels s) := by
  unfold State.sweepModels
  repeat' first
    | with_reducible assumption
    | dsimp only
    | split
    | refine keeps_upd ?_ rfl rfl rfl rfl rfl

theorem State.failLoad_keeps (p : Nat) (c : Nat) {s0 s : State} (h0 : s0.Keeps s) : s0.Keeps (State.failLoad s p c) := by
  unfold State.failLoad
  repeat' first
    | with_reducible assumption
    | dsimp only
    | split
    | with_reducible refine State.clearShare_keeps _ _ ?_
    | with_reducible refine State.onCtx_keeps _ _ _ ?_
    | with_reducible refine State.sweepCopies_keeps _ ?_
    | with_reducible refine State.ctxEvent_keeps _ _ _ ?_
    | with_reducible refine State.sweepModels_keeps ?_
    | refine keeps_upd ?_ rfl rfl rfl rfl rfl

theorem execLoadDone_keeps (p : Fin 16) (c : Fin 8) (s : State) : ∃ t, execLoadDone p c s = .next t ∧ s.Keeps t := by
  refine ⟨_, rfl, ?_⟩
  dsimp only
  split
  · exact .refl s
  · exact State.ctxEvent_keeps _ _ _ (State.onCtx_keeps _ _ _ (State.writeLoad_keeps _ _ (State.clearShare_keeps _ _ (.refl s))))

theorem State.preemptCtx_keeps (p : Nat) (c : Nat) {s0 s : State} (h0 : s0.Keeps s) : s0.Keeps (State.preemptCtx s p c) := by
  unfold State.preemptCtx
  repeat' first
    | with_reducible assumption
    | dsimp only
    | split
    | with_reducible refine State.bump_keeps _ ?_
    | with_reducible refine State.kill_keeps _ _ _ _ _ ?_
    | with_reducible refine State.boundary_keeps _ _ _ ?_
    | with_reducible refine keeps_foldl _ _ _ (fun _ _ _ => ?_) ?_

theorem State.settle_keeps (p : Nat) (c : Nat) {s0 s : State} (h0 : s0.Keeps s) : s0.Keeps (State.settle s p c) := by
  unfold State.settle
  repeat' first
    | with_reducible assumption
    | dsimp only
    | split
    | with_reducible refine State.boundary_keeps _ _ _ ?_

theorem State.endEntry_keeps (p : Nat) {s0 s : State} (h0 : s0.Keeps s) : s0.Keeps (State.endEntry s p) := by
  unfold State.endEntry
  repeat' first
    | with_reducible assumption
    | dsimp only
    | split
    | with_reducible refine State.preemptCtx_keeps _ _ ?_
    | with_reducible refine State.settle_keeps _ _ ?_
    | with_reducible refine State.onPan_keeps _ _ ?_
    | with_reducible refine keeps_foldl _ _ _ (fun _ _ _ => ?_) ?_

theorem State.releaseJobs_keeps (p : Nat) (c : Nat) {s0 s : State} (h0 : s0.Keeps s) : s0.Keeps (State.releaseJobs s p c) := by
  unfold State.releaseJobs
  repeat' first
    | with_reducible assumption
    | dsimp only
    | split
    | with_reducible refine State.endEpisode_keeps _ _ _ ?_
    | with_reducible refine State.completeFrom_keeps _ _ _ _ _ _ ?_
    | with_reducible refine State.dropJob_keeps _ ?_
    | with_reducible refine keeps_foldl _ _ _ (fun _ _ _ => ?_) ?_

theorem State.unload_keeps (p : Nat) (c : Nat) {s0 s : State} (h0 : s0.Keeps s) : s0.Keeps (State.unload s p c) := by
  unfold State.unload
  repeat' first
    | with_reducible assumption
    | dsimp only
    | split
    | with_reducible refine State.onCtx_keeps _ _ _ ?_
    | with_reducible refine State.preemptCtx_keeps _ _ ?_
    | with_reducible refine State.settle_keeps _ _ ?_
    | with_reducible refine State.releaseJobs_keeps _ _ ?_
    | with_reducible refine State.clearShare_keeps _ _ ?_
    | with_reducible refine State.payOwed_keeps _ _ _ ?_
    | with_reducible refine State.sweepCopies_keeps _ ?_
    | with_reducible refine State.ctxEvent_keeps _ _ _ ?_
    | with_reducible refine State.sweepModels_keeps ?_

theorem State.pausePan_keeps (p : Nat) (on : Bool) {s0 s : State} (h0 : s0.Keeps s) : s0.Keeps (State.pausePan s p on) := by
  unfold State.pausePan
  repeat' first
    | with_reducible assumption
    | dsimp only
    | split
    | with_reducible refine State.onPan_keeps _ _ ?_

end Sys2Proof.Machine
end

