-- ==== Sys2Proof/Laws/KeepsSpare.lean ====
section
/-!
SUPPORT. What every operation of Spare keeps: the commands that wait, and the invariant of the state.
-/

namespace Sys2Proof.Machine

theorem State.onRegion_keeps (r : Nat) (f : RegionSt → RegionSt) {s0 s : State} (h0 : s0.Keeps s) : s0.Keeps (State.onRegion s r f) := by
  unfold State.onRegion
  repeat' first
    | with_reducible assumption
    | dsimp only
    | split
    | refine keeps_upd ?_ rfl rfl rfl rfl rfl

theorem State.coreReport_keeps (n : Nat) (cls : EClass) (source : Nat) (unit : Nat) (info : Nat) (detail : Nat) {s0 s : State} (h0 : s0.Keeps s) : s0.Keeps (State.coreReport s n cls source unit info detail) := by
  unfold State.coreReport
  repeat' first
    | with_reducible assumption
    | dsimp only
    | split
    | with_reducible refine State.report_keeps _ _ _ _ _ _ ?_

theorem State.regionReport_keeps (r : Nat) (cls : EClass) (source : Nat) (unit : Nat) (info : Nat) (detail : Nat) {s0 s : State} (h0 : s0.Keeps s) : s0.Keeps (State.regionReport s r cls source unit info detail) := by
  unfold State.regionReport
  repeat' first
    | with_reducible assumption
    | dsimp only
    | split
    | with_reducible refine State.report_keeps _ _ _ _ _ _ ?_

theorem State.reload_keeps (p : Nat) (c : Nat) {s0 s : State} (h0 : s0.Keeps s) : s0.Keeps (State.reload s p c) := by
  unfold State.reload
  repeat' first
    | with_reducible assumption
    | dsimp only
    | split
    | with_reducible refine keeps_eq2 (by assumption) ?_
    | with_reducible refine State.unload_keeps _ _ ?_
    | with_reducible refine State.load_keeps _ _ _ ?_

theorem State.degradePan_keeps (p : Nat) (region : Nat) (lost : Nat) (affected : Nat → Bool) {s0 s : State} (h0 : s0.Keeps s) : s0.Keeps (State.degradePan s p region lost affected) := by
  unfold State.degradePan
  repeat' first
    | with_reducible assumption
    | dsimp only
    | split
    | with_reducible refine State.onPan_keeps _ _ ?_
    | with_reducible refine State.report_keeps _ _ _ _ _ _ ?_
    | with_reducible refine State.onRegion_keeps _ _ ?_
    | with_reducible refine State.unload_keeps _ _ ?_
    | with_reducible refine State.reload_keeps _ _ ?_
    | with_reducible refine keeps_foldl _ _ _ (fun _ _ _ => ?_) ?_

theorem State.loseCore_keeps (r : Nat) (i : Nat) {s0 s : State} (h0 : s0.Keeps s) : s0.Keeps (State.loseCore s r i) := by
  unfold State.loseCore
  repeat' first
    | with_reducible assumption
    | dsimp only
    | split
    | with_reducible refine State.setCoreReady_keeps _ _ ?_
    | with_reducible refine State.degradePan_keeps _ _ _ _ ?_
    | with_reducible refine keeps_foldl _ _ _ (fun _ _ _ => ?_) ?_

theorem State.coreFailed_keeps (r : Nat) (phys : Nat) {s0 s : State} (h0 : s0.Keeps s) : s0.Keeps (State.coreFailed s r phys) := by
  unfold State.coreFailed
  repeat' first
    | with_reducible assumption
    | dsimp only
    | split
    | with_reducible refine State.onRegion_keeps _ _ ?_
    | with_reducible refine State.regionReport_keeps _ _ _ _ _ _ ?_
    | with_reducible refine State.loseCore_keeps _ _ ?_

theorem State.moveCore_keeps (r : Nat) {s0 s : State} (h0 : s0.Keeps s) : s0.Keeps (State.moveCore s r) := by
  unfold State.moveCore
  repeat' first
    | with_reducible assumption
    | dsimp only
    | split
    | with_reducible refine State.onRegion_keeps _ _ ?_
    | with_reducible refine State.regionReport_keeps _ _ _ _ _ _ ?_

theorem execCoreCopyDone_keeps (r : CopyEnd) (s : State) : ∃ t, execCoreCopyDone r s = .next t ∧ s.Keeps t := by
  refine ⟨_, rfl, ?_⟩
  have h0 := State.Keeps.refl s
  repeat' first
    | with_reducible assumption
    | dsimp only
    | split
    | with_reducible refine State.onRegion_keeps _ _ ?_
    | with_reducible refine State.moveCore_keeps _ ?_
    | with_reducible refine keeps_foldl _ _ _ (fun _ _ _ => ?_) ?_
    | with_reducible refine keeps_foldl_snd _ _ _ (fun _ _ _ => ?_) ?_
    | with_reducible refine keeps_foldl_fst _ _ _ (fun _ _ _ => ?_) ?_
    | refine keeps_upd ?_ rfl rfl rfl rfl rfl

theorem State.checkEvents_keeps {s0 s : State} (h0 : s0.Keeps s) : s0.Keeps (State.checkEvents s) := by
  unfold State.checkEvents
  repeat' first
    | with_reducible assumption
    | dsimp only
    | split
    | with_reducible refine State.coreFailed_keeps _ _ ?_
    | with_reducible refine keeps_foldl _ _ _ (fun _ _ _ => ?_) ?_
    | with_reducible refine keeps_foldl_snd _ _ _ (fun _ _ _ => ?_) ?_
    | with_reducible refine keeps_foldl_fst _ _ _ (fun _ _ _ => ?_) ?_
    | refine keeps_upd ?_ rfl rfl rfl rfl rfl

theorem State.residue_keeps (n : Nat) (cell : Nat) (col : Nat) {s0 s : State} (h0 : s0.Keeps s) : s0.Keeps (State.residue s n cell col) := by
  unfold State.residue
  repeat' first
    | with_reducible assumption
    | dsimp only
    | split
    | with_reducible refine State.coreReport_keeps _ _ _ _ _ _ ?_
    | with_reducible refine State.coreFailed_keeps _ _ ?_
    | refine keeps_upd ?_ rfl rfl rfl rfl rfl

theorem State.spareColumns_keeps (cores : List Nat) {s0 s : State} (h0 : s0.Keeps s) : s0.Keeps (State.spareColumns s cores) := by
  unfold State.spareColumns
  repeat' first
    | with_reducible assumption
    | dsimp only
    | split
    | with_reducible refine State.coreReport_keeps _ _ _ _ _ _ ?_
    | with_reducible refine keeps_foldl _ _ _ (fun _ _ _ => ?_) ?_
    | with_reducible refine keeps_foldl_snd _ _ _ (fun _ _ _ => ?_) ?_
    | with_reducible refine keeps_foldl_fst _ _ _ (fun _ _ _ => ?_) ?_
    | refine keeps_upd ?_ rfl rfl rfl rfl rfl

theorem State.seqParity_keeps (n : Nat) {s0 s : State} (h0 : s0.Keeps s) : s0.Keeps (State.seqParity s n) := by
  unfold State.seqParity
  repeat' first
    | with_reducible assumption
    | dsimp only
    | split
    | with_reducible refine State.coreReport_keeps _ _ _ _ _ _ ?_
    | with_reducible refine State.coreFailed_keeps _ _ ?_
    | refine keeps_upd ?_ rfl rfl rfl rfl rfl

theorem State.atBoundary_keeps (p : Nat) (on : List Nat) {s0 s : State} (h0 : s0.Keeps s) : s0.Keeps (State.atBoundary s p on) := by
  unfold State.atBoundary
  repeat' first
    | with_reducible assumption
    | dsimp only
    | split
    | with_reducible refine State.moveCore_keeps _ ?_
    | with_reducible refine State.spareColumns_keeps _ ?_
    | with_reducible refine State.checkEvents_keeps ?_
    | with_reducible refine keeps_foldl _ _ _ (fun _ _ _ => ?_) ?_
    | with_reducible refine keeps_foldl_snd _ _ _ (fun _ _ _ => ?_) ?_
    | with_reducible refine keeps_foldl_fst _ _ _ (fun _ _ _ => ?_) ?_
    | refine keeps_upd ?_ rfl rfl rfl rfl rfl

theorem State.closeEntry_keeps (p : Nat) {s0 s : State} (h0 : s0.Keeps s) : s0.Keeps (State.closeEntry s p) := by
  unfold State.closeEntry
  repeat' first
    | with_reducible assumption
    | dsimp only
    | split
    | with_reducible refine State.endEntry_keeps _ ?_
    | with_reducible refine State.atBoundary_keeps _ _ ?_
    | refine keeps_upd ?_ rfl rfl rfl rfl rfl

theorem State.preemptPan_keeps (p : Nat) {s0 s : State} (h0 : s0.Keeps s) : s0.Keeps (State.preemptPan s p).2 := by
  unfold State.preemptPan
  repeat' first
    | with_reducible assumption
    | dsimp only
    | split
    | with_reducible refine State.closeEntry_keeps _ ?_
    | refine keeps_upd ?_ rfl rfl rfl rfl rfl

theorem State.unloadCtx_keeps (p : Nat) (c : Nat) {s0 s : State} (h0 : s0.Keeps s) : s0.Keeps (State.unloadCtx s p c) := by
  unfold State.unloadCtx
  repeat' first
    | with_reducible assumption
    | dsimp only
    | split
    | with_reducible refine State.unload_keeps _ _ ?_
    | with_reducible refine State.atBoundary_keeps _ _ ?_
    | refine keeps_upd ?_ rfl rfl rfl rfl rfl

theorem State.loseRegion_keeps (r : Nat) {s0 s : State} (h0 : s0.Keeps s) : s0.Keeps (State.loseRegion s r) := by
  unfold State.loseRegion
  repeat' first
    | with_reducible assumption
    | dsimp only
    | split
    | with_reducible refine State.onRegion_keeps _ _ ?_
    | with_reducible refine State.report_keeps _ _ _ _ _ _ ?_
    | with_reducible refine State.setReady_keeps _ _ ?_
    | with_reducible refine State.degradePan_keeps _ _ _ _ ?_
    | with_reducible refine keeps_foldl _ _ _ (fun _ _ _ => ?_) ?_
    | with_reducible refine keeps_foldl_snd _ _ _ (fun _ _ _ => ?_) ?_
    | with_reducible refine keeps_foldl_fst _ _ _ (fun _ _ _ => ?_) ?_
    | refine keeps_upd ?_ rfl rfl rfl rfl rfl

theorem State.bankAdvance_keeps (r : Nat) {s0 s : State} (h0 : s0.Keeps s) : s0.Keeps (State.bankAdvance s r) := by
  unfold State.bankAdvance
  repeat' first
    | with_reducible assumption
    | dsimp only
    | split
    | with_reducible refine keeps_eq2 (by assumption) ?_
    | with_reducible refine State.takeFree_keeps _ ?_
    | with_reducible refine State.onRegion_keeps _ _ ?_

theorem State.coreAdvance_keeps (r : Nat) {s0 s : State} (h0 : s0.Keeps s) : s0.Keeps (State.coreAdvance s r) := by
  unfold State.coreAdvance
  repeat' first
    | with_reducible assumption
    | dsimp only
    | split
    | with_reducible refine keeps_eq2 (by assumption) ?_
    | with_reducible refine State.takeFree_keeps _ ?_
    | with_reducible refine State.onRegion_keeps _ _ ?_

theorem State.bankFailed_keeps (r : Nat) (b : Nat) {s0 s : State} (h0 : s0.Keeps s) : s0.Keeps (State.bankFailed s r b) := by
  unfold State.bankFailed
  repeat' first
    | with_reducible assumption
    | dsimp only
    | split
    | with_reducible refine State.onRegion_keeps _ _ ?_
    | with_reducible refine State.loseRegion_keeps _ ?_
    | refine keeps_upd ?_ rfl rfl rfl rfl rfl

theorem execBankCopyDone_keeps (r : CopyEnd) (s : State) : ∃ t, execBankCopyDone r s = .next t ∧ s.Keeps t := by
  refine ⟨_, rfl, ?_⟩
  have h0 := State.Keeps.refl s
  repeat' first
    | with_reducible assumption
    | dsimp only
    | split
    | with_reducible refine State.onRegion_keeps _ _ ?_
    | with_reducible refine State.regionReport_keeps _ _ _ _ _ _ ?_
    | with_reducible refine keeps_foldl _ _ _ (fun _ _ _ => ?_) ?_
    | with_reducible refine keeps_foldl_snd _ _ _ (fun _ _ _ => ?_) ?_
    | with_reducible refine keeps_foldl_fst _ _ _ (fun _ _ _ => ?_) ?_
    | refine keeps_upd ?_ rfl rfl rfl rfl rfl

theorem State.bankMeets_keeps (a : Nat) {s0 s : State} (h0 : s0.Keeps s) : s0.Keeps (State.bankMeets s a) := by
  unfold State.bankMeets
  repeat' first
    | with_reducible assumption
    | dsimp only
    | split
    | with_reducible refine State.coreFailed_keeps _ _ ?_
    | with_reducible refine State.bankFailed_keeps _ _ ?_

theorem State.eccReport_keeps (a : Nat) (cls : EClass) (source : Nat) (syndrome : Nat) {s0 s : State} (h0 : s0.Keeps s) : s0.Keeps (State.eccReport s a cls source syndrome) := by
  unfold State.eccReport
  repeat' first
    | with_reducible assumption
    | dsimp only
    | split
    | with_reducible refine State.coreReport_keeps _ _ _ _ _ _ ?_
    | with_reducible refine State.bankAdvance_keeps _ ?_
    | with_reducible refine State.regionReport_keeps _ _ _ _ _ _ ?_
    | with_reducible refine State.report_keeps _ _ _ _ _ _ ?_

theorem State.eccCorrected_keeps (a : Nat) (syndrome : Nat) {s0 s : State} (h0 : s0.Keeps s) : s0.Keeps (State.eccCorrected s a syndrome) := by
  unfold State.eccCorrected
  repeat' first
    | with_reducible assumption
    | dsimp only
    | split
    | with_reducible refine State.eccReport_keeps _ _ _ _ ?_
    | with_reducible refine State.bankMeets_keeps _ ?_
    | refine keeps_upd ?_ rfl rfl rfl rfl rfl

end Sys2Proof.Machine
end

