-- ==== Sys2Proof/Laws/KeepsBatch.lean ====
section
/-!
SUPPORT. What every operation of Batch keeps: the commands that wait, and the invariant of the state.
-/

namespace Sys2Proof.Machine

theorem State.resumeCtx_keeps (p : Nat) (c : Nat) {s0 s : State} (h0 : s0.Keeps s) : s0.Keeps (State.resumeCtx s p c) := by
  unfold State.resumeCtx
  repeat' first
    | with_reducible assumption
    | dsimp only
    | split
    | with_reducible refine State.resume_keeps _ ?_
    | with_reducible refine State.boundary_keeps _ _ _ ?_
    | with_reducible refine State.atBoundary_keeps _ _ ?_
    | with_reducible refine State.startStep_keeps _ _ _ _ ?_
    | refine keeps_upd ?_ rfl rfl rfl rfl rfl

theorem execStepBoundary_keeps (p : Fin 16) (c : Fin 8) (s : State) : ∃ t, execStepBoundary p c s = .next t ∧ s.Keeps t := by
  refine ⟨_, rfl, ?_⟩
  have h0 := State.Keeps.refl s
  repeat' first
    | with_reducible assumption
    | dsimp only
    | split
    | with_reducible refine State.boundary_keeps _ _ _ ?_
    | with_reducible refine State.atBoundary_keeps _ _ ?_
    | with_reducible refine State.closeEntry_keeps _ ?_
    | with_reducible refine State.startStep_keeps _ _ _ _ ?_
    | with_reducible refine State.resumeCtx_keeps _ _ ?_
    | refine keeps_upd ?_ rfl rfl rfl rfl rfl

theorem execStepBudgetEnd_keeps (p : Fin 16) (c : Fin 8) (s : State) : ∃ t, execStepBudgetEnd p c s = .next t ∧ s.Keeps t := by
  refine ⟨_, rfl, ?_⟩
  have h0 := State.Keeps.refl s
  repeat' first
    | with_reducible assumption
    | dsimp only
    | split
    | with_reducible refine State.onCtx_keeps _ _ _ ?_
    | with_reducible refine State.checkPanEnd_keeps _ _ ?_
    | refine keeps_upd ?_ rfl rfl rfl rfl rfl

theorem execSliceEntryStart_keeps (p : Fin 16) (s : State) : ∃ t, execSliceEntryStart p s = .next t ∧ s.Keeps t := by
  refine ⟨_, rfl, ?_⟩
  have h0 := State.Keeps.refl s
  repeat' first
    | with_reducible assumption
    | dsimp only
    | split
    | with_reducible refine State.onPan_keeps _ _ ?_
    | with_reducible refine State.onCtx_keeps _ _ _ ?_
    | with_reducible refine State.boundary_keeps _ _ _ ?_
    | with_reducible refine State.atBoundary_keeps _ _ ?_
    | with_reducible refine State.closeEntry_keeps _ ?_
    | with_reducible refine State.startStep_keeps _ _ _ _ ?_
    | with_reducible refine keeps_foldl _ _ _ (fun _ _ _ => ?_) ?_
    | with_reducible refine keeps_foldl_snd _ _ _ (fun _ _ _ => ?_) ?_
    | with_reducible refine keeps_foldl_fst _ _ _ (fun _ _ _ => ?_) ?_
    | refine keeps_upd ?_ rfl rfl rfl rfl rfl

theorem execSliceEntryEnd_keeps (p : Fin 16) (s : State) : ∃ t, execSliceEntryEnd p s = .next t ∧ s.Keeps t := by
  refine ⟨_, rfl, ?_⟩
  have h0 := State.Keeps.refl s
  repeat' first
    | with_reducible assumption
    | dsimp only
    | split
    | with_reducible refine State.boundary_keeps _ _ _ ?_
    | with_reducible refine State.settle_keeps _ _ ?_
    | with_reducible refine State.atBoundary_keeps _ _ ?_
    | with_reducible refine State.onPan_keeps _ _ ?_
    | with_reducible refine State.closeEntry_keeps _ ?_
    | with_reducible refine keeps_foldl _ _ _ (fun _ _ _ => ?_) ?_
    | with_reducible refine keeps_foldl_snd _ _ _ (fun _ _ _ => ?_) ?_
    | with_reducible refine keeps_foldl_fst _ _ _ (fun _ _ _ => ?_) ?_
    | refine keeps_upd ?_ rfl rfl rfl rfl rfl

theorem State.harvest_keeps (j : Job) {s0 s : State} (h0 : s0.Keeps s) : s0.Keeps (State.harvest s j) := by
  unfold State.harvest
  repeat' first
    | with_reducible assumption
    | dsimp only
    | split
    | with_reducible refine State.onJob_keeps _ _ (fun _ _ => rfl) ?_
    | with_reducible refine State.endEpisode_keeps _ _ _ ?_
    | with_reducible refine State.completeFrom_keeps _ _ _ _ _ _ ?_

theorem execDeadlineHarvest_keeps (s : State) : ∃ t, execDeadlineHarvest s = .next t ∧ s.Keeps t := by
  refine ⟨_, rfl, ?_⟩
  have h0 := State.Keeps.refl s
  repeat' first
    | with_reducible assumption
    | dsimp only
    | split
    | with_reducible refine State.harvest_keeps _ ?_
    | with_reducible refine State.checkEvents_keeps ?_
    | with_reducible refine keeps_foldl _ _ _ (fun _ _ _ => ?_) ?_

theorem execNotStartedThreshold_keeps (s : State) : ∃ t, execNotStartedThreshold s = .next t ∧ s.Keeps t := by
  refine ⟨_, rfl, ?_⟩
  have h0 := State.Keeps.refl s
  repeat' first
    | with_reducible assumption
    | dsimp only
    | split
    | with_reducible refine State.completeWaiting_keeps _ _ _ ?_
    | with_reducible refine keeps_foldl _ _ _ (fun _ _ _ => ?_) ?_

theorem State.leaveJob_keeps (close : Bool) (j : Job) {s0 s : State} (h0 : s0.Keeps s) : s0.Keeps (State.leaveJob s close j) := by
  unfold State.leaveJob
  repeat' first
    | with_reducible assumption
    | dsimp only
    | split
    | with_reducible refine State.completeWaiting_keeps _ _ _ ?_
    | with_reducible refine State.endEpisode_keeps _ _ _ ?_
    | with_reducible refine State.completeFrom_keeps _ _ _ _ _ _ ?_
    | (with_reducible refine State.onJob_keeps _ _ ?_ ?_; · (intro k hk; first | rfl | exact hk.symm | (split <;> rfl)))

theorem State.cancelTag_keeps (q : Nat) (tag : Word) {s0 s : State} (h0 : s0.Keeps s) : s0.Keeps (State.cancelTag s q tag) := by
  unfold State.cancelTag
  repeat' first
    | with_reducible assumption
    | dsimp only
    | split
    | with_reducible refine State.leaveJob_keeps _ _ ?_
    | with_reducible refine keeps_foldl _ _ _ (fun _ _ _ => ?_) ?_

theorem State.closeJobs_keeps (q : Nat) {s0 s : State} (h0 : s0.Keeps s) : s0.Keeps (State.closeJobs s q) := by
  unfold State.closeJobs
  repeat' first
    | with_reducible assumption
    | dsimp only
    | split
    | with_reducible refine State.leaveJob_keeps _ _ ?_
    | with_reducible refine keeps_foldl _ _ _ (fun _ _ _ => ?_) ?_

theorem execQueueCloseAck_keeps (q : BitVec 16) (s : State) : ∃ t, execQueueCloseAck q s = .next t ∧ s.Keeps t := by
  refine ⟨_, rfl, ?_⟩
  have h0 := State.Keeps.refl s
  repeat' first
    | with_reducible assumption
    | dsimp only
    | split
    | with_reducible refine State.nak_keeps _ _ _ ?_
    | refine keeps_upd ?_ rfl rfl rfl rfl rfl

end Sys2Proof.Machine
end

