-- ==== Sys2Proof/Laws/KeepsSqp.lean ====
section
/-!
SUPPORT. What every operation of Sqp keeps: the commands that wait, and the invariant of the state.
-/

namespace Sys2Proof.Machine

theorem State.resendFrame_keeps (f : OutFrame) {s0 s : State} (h0 : s0.Keeps s) : s0.Keeps (State.resendFrame s f) := by
  unfold State.resendFrame
  repeat' first
    | with_reducible assumption
    | dsimp only
    | split
    | with_reducible refine State.bump_keeps _ ?_
    | with_reducible refine State.paceFrame_keeps _ _ _ ?_
    | refine keeps_upd ?_ rfl rfl rfl rfl rfl

theorem State.revive_keeps (p : Port) {s0 s : State} (h0 : s0.Keeps s) : s0.Keeps (State.revive s p) := by
  unfold State.revive
  repeat' first
    | with_reducible assumption
    | dsimp only
    | split
    | with_reducible refine State.resendFrame_keeps _ ?_
    | with_reducible refine State.pumpWaiting_keeps _ ?_
    | with_reducible refine State.flushComps_keeps ?_
    | with_reducible refine State.onHport_keeps _ _ (fun _ => rfl) ?_
    | with_reducible refine State.onHport_keeps_le _ _ (fun hl => ?_) ?_
    | exact (List.length_filter_le _ _).trans hl
    | (simp only [List.length_append, List.length_singleton, List.length_map, List.length_cons, List.length_nil]; omega)
    | with_reducible refine keeps_foldl _ _ _ (fun _ _ _ => ?_) ?_

theorem State.recordAddr_keeps (h : SqpHdr) {s0 s : State} (h0 : s0.Keeps s) : s0.Keeps (State.recordAddr s h) := by
  unfold State.recordAddr
  repeat' first
    | with_reducible assumption
    | dsimp only
    | split
    | with_reducible refine State.flushComps_keeps ?_
    | with_reducible refine State.onHport_keeps _ _ (fun _ => rfl) ?_

theorem State.duplicate_keeps (h : SqpHdr) (a : Answer) {s0 s : State} (h0 : s0.Keeps s) : s0.Keeps (State.duplicate s h a).2 := by
  unfold State.duplicate
  repeat' first
    | with_reducible assumption
    | dsimp only
    | split
    | with_reducible refine State.bump_keeps _ ?_
    | with_reducible refine State.sent_keeps _ _ _ ?_
    | with_reducible refine State.transmit_keeps _ ?_
    | with_reducible refine keeps_foldl _ _ _ (fun _ _ _ => ?_) ?_

theorem State.sequence_keeps (h : SqpHdr) (mark : Bool) {s0 s : State} (h0 : s0.Keeps s) : s0.Keeps (State.sequence s h mark).2 := by
  unfold State.sequence
  repeat' first
    | with_reducible assumption
    | dsimp only
    | split
    | with_reducible refine keeps_eq2 (by assumption) ?_
    | with_reducible refine State.mark_keeps _ _ ?_
    | with_reducible refine State.duplicate_keeps _ _ ?_
    | with_reducible refine State.bump_keeps _ ?_
    | with_reducible refine State.onHport_keeps _ _ (fun _ => rfl) ?_

theorem State.accept_keeps (h : SqpHdr) (known : Bool) (mark : Bool) {s0 s : State} (h0 : s0.Keeps s) : s0.Keeps (State.accept s h known mark).2 := by
  unfold State.accept
  repeat' first
    | with_reducible assumption
    | dsimp only
    | split
    | with_reducible refine keeps_eq2 (by assumption) ?_
    | with_reducible refine State.mark_keeps _ _ ?_
    | with_reducible refine State.bump_keeps _ ?_
    | with_reducible refine State.revive_keeps _ ?_
    | with_reducible refine State.nakUnkept_keeps _ _ ?_
    | with_reducible refine State.recordAddr_keeps _ ?_
    | with_reducible refine State.sequence_keeps _ _ ?_

theorem State.lateChecks_keeps (h : SqpHdr) (right : Option Right) (lock : Bool) (ready : Bool) (lenOk : Bool) (body : State → State) {s0 s : State} (hbody : ∀ t, s0.Keeps t → s0.Keeps (body t)) (h0 : s0.Keeps s) : s0.Keeps (State.lateChecks s h right lock ready lenOk body) := by
  unfold State.lateChecks
  repeat' first
    | with_reducible assumption
    | dsimp only
    | split
    | with_reducible refine State.nak_keeps _ _ _ ?_
    | with_reducible refine hbody _ ?_

theorem State.received_keeps (h : SqpHdr) (go : State → State) {s0 s : State} (hgo : ∀ t, s0.Keeps t → s0.Keeps (go t)) (h0 : s0.Keeps s) : s0.Keeps (State.received s h go) := by
  unfold State.received
  repeat' first
    | with_reducible assumption
    | dsimp only
    | split
    | with_reducible refine keeps_eq2 (by assumption) ?_
    | with_reducible refine State.accept_keeps _ _ _ ?_
    | with_reducible refine hgo _ ?_
    | refine keeps_upd ?_ rfl rfl rfl rfl rfl

theorem State.lockedMessage_keeps (h : SqpHdr) (right : Option Right) (lock : State → Bool) (ready : State → Bool) (lenOk : Bool) (body : State → State) {s0 s : State} (hbody : ∀ t, s0.Keeps t → s0.Keeps (body t)) (h0 : s0.Keeps s) : s0.Keeps (State.lockedMessage s h right lock ready lenOk body) :=
  State.received_keeps _ _ (fun _ h1 => State.lateChecks_keeps _ _ _ _ _ _ hbody h1) h0

theorem State.message_keeps (h : SqpHdr) (right : Option Right) (ready : State → Bool) (lenOk : Bool) (body : State → State) {s0 s : State} (hbody : ∀ t, s0.Keeps t → s0.Keeps (body t)) (h0 : s0.Keeps s) : s0.Keeps (State.message s h right ready lenOk body) := by
  unfold State.message
  repeat' first
    | with_reducible assumption
    | dsimp only
    | split
    | with_reducible refine State.lockedMessage_keeps _ _ _ _ _ _ (fun _ _ => ?_) ?_
    | with_reducible refine hbody _ ?_

theorem State.queueEvent_keeps (q : Nat) (cause : Nat) {s0 s : State} (h0 : s0.Keeps s) : s0.Keeps (State.queueEvent s q cause) := by
  unfold State.queueEvent
  repeat' first
    | with_reducible assumption
    | dsimp only
    | split
    | with_reducible refine State.sendPaced_keeps _ _ _ ?_
    | with_reducible refine keeps_foldl _ _ _ (fun _ _ _ => ?_) ?_
    | with_reducible refine keeps_foldl_snd _ _ _ (fun _ _ _ => ?_) ?_
    | with_reducible refine keeps_foldl_fst _ _ _ (fun _ _ _ => ?_) ?_
    | refine keeps_upd ?_ rfl rfl rfl rfl rfl

theorem State.holdComp_keeps (p : Port) (id : Nat) {s0 s : State} (h0 : s0.Keeps s) : s0.Keeps (State.holdComp s p id) := by
  refine keeps_upd (State.pumpWaiting_keeps p (State.onHport_keeps_le p (fun h => h.dropMsg id) (fun hl => ?_) h0)) rfl rfl rfl rfl rfl
  exact (List.length_filter_le _ _).trans hl

theorem State.hostAck_keeps (p : Port) (ack : Word) {s0 s : State} (h0 : s0.Keeps s) : s0.Keeps (State.hostAck s p ack) := by
  unfold State.hostAck
  repeat' first
    | with_reducible assumption
    | dsimp only
    | split
    | with_reducible refine State.freeComp_keeps _ ?_
    | with_reducible refine State.pumpWaiting_keeps _ ?_
    | with_reducible refine State.flushComps_keeps ?_
    | with_reducible refine State.onHport_keeps _ _ (fun _ => rfl) ?_
    | with_reducible refine State.onHport_keeps_le _ _ (fun hl => ?_) ?_
    | exact (List.length_filter_le _ _).trans hl

theorem execHostAck_keeps (h : SqpHdr) (s : State) : ∃ t, execHostAck h s = .next t ∧ s.Keeps t := by
  refine ⟨_, rfl, ?_⟩
  have h0 := State.Keeps.refl s
  repeat' first
    | with_reducible assumption
    | dsimp only
    | split
    | with_reducible refine State.message_keeps _ _ _ _ _ (fun _ _ => ?_) ?_
    | with_reducible refine State.hostAck_keeps _ _ ?_

theorem execResendTimer_keeps (p : Port) (seq : Word) (s : State) : ∃ t, execResendTimer p seq s = .next t ∧ s.Keeps t := by
  refine ⟨_, rfl, ?_⟩
  have h0 := State.Keeps.refl s
  repeat' first
    | with_reducible assumption
    | dsimp only
    | split
    | with_reducible refine State.holdComp_keeps _ _ ?_
    | with_reducible refine State.flushComps_keeps ?_
    | with_reducible refine State.resendFrame_keeps _ ?_
    | with_reducible refine State.queueEvent_keeps _ _ ?_
    | with_reducible refine State.onHport_keeps _ _ (fun _ => rfl) ?_
    | with_reducible refine State.onHport_keeps_le _ _ (fun hl => ?_) ?_
    | exact (List.length_filter_le _ _).trans hl
    | (simp only [List.length_append, List.length_singleton, List.length_map, List.length_cons, List.length_nil]; omega)
    | with_reducible refine keeps_foldl _ _ _ (fun _ _ _ => ?_) ?_

theorem execReassemblyTimeout_keeps (p : Port) (s0 : Word) (s : State) : ∃ t, execReassemblyTimeout p s0 s = .next t ∧ s.Keeps t := by
  refine ⟨_, rfl, ?_⟩
  have h0 := State.Keeps.refl s
  repeat' first
    | with_reducible assumption
    | dsimp only
    | split
    | with_reducible refine State.bump_keeps _ ?_
    | with_reducible refine State.onHport_keeps _ _ (fun _ => rfl) ?_

end Sys2Proof.Machine
end

