-- ==== Sys2Proof/Laws/KeepsHosts.lean ====
section
/-!
SUPPORT. What every operation of Hosts keeps: the commands that wait, and the invariant of the state.
-/

namespace Sys2Proof.Machine

theorem State.onQueue_keeps (q : Nat) (f : QueueSt → QueueSt) {s0 s : State} (h0 : s0.Keeps s) : s0.Keeps (State.onQueue s q f) := by
  unfold State.onQueue
  repeat' first
    | with_reducible assumption
    | dsimp only
    | split
    | refine keeps_upd ?_ rfl rfl rfl rfl rfl

theorem State.queueOpen_keeps (h : SqpHdr) {s0 s : State} (h0 : s0.Keeps s) : s0.Keeps (State.queueOpen s h) := by
  unfold State.queueOpen
  repeat' first
    | with_reducible assumption
    | dsimp only
    | split
    | with_reducible refine State.nak_keeps _ _ _ ?_
    | with_reducible refine State.onQueue_keeps _ _ ?_
    | with_reducible refine State.okGen_keeps _ _ ?_
    | refine keeps_upd ?_ rfl rfl rfl rfl rfl

theorem State.staleQueue_keeps (h : SqpHdr) {s0 s : State} (h0 : s0.Keeps s) : s0.Keeps (State.staleQueue s h) := by
  unfold State.staleQueue
  repeat' first
    | with_reducible assumption
    | dsimp only
    | split
    | with_reducible refine State.bump_keeps _ ?_
    | with_reducible refine State.nak_keeps _ _ _ ?_

theorem State.moveComps_keeps (q : Nat) (old : QueueSt) (h : SqpHdr) {s0 s : State} (h0 : s0.Keeps s) : s0.Keeps (State.moveComps s q old h) := by
  unfold State.moveComps
  repeat' first
    | with_reducible assumption
    | dsimp only
    | split
    | with_reducible refine State.holdComp_keeps _ _ ?_
    | with_reducible refine keeps_foldl _ _ _ (fun _ _ _ => ?_) ?_
    | refine keeps_upd ?_ rfl rfl rfl rfl rfl

theorem State.queueAdopt_keeps (h : SqpHdr) {s0 s : State} (h0 : s0.Keeps s) : s0.Keeps (State.queueAdopt s h) := by
  unfold State.queueAdopt
  repeat' first
    | with_reducible assumption
    | dsimp only
    | split
    | with_reducible refine State.nak_keeps _ _ _ ?_
    | with_reducible refine State.staleQueue_keeps _ ?_
    | with_reducible refine State.onQueue_keeps _ _ ?_
    | with_reducible refine State.okGen_keeps _ _ ?_
    | with_reducible refine State.moveComps_keeps _ _ _ ?_
    | with_reducible refine State.flushComps_keeps ?_
    | with_reducible refine State.queueEvent_keeps _ _ ?_

theorem State.queueClose_keeps (h : SqpHdr) {s0 s : State} (h0 : s0.Keeps s) : s0.Keeps (State.queueClose s h) := by
  unfold State.queueClose
  repeat' first
    | with_reducible assumption
    | dsimp only
    | split
    | with_reducible refine State.nak_keeps _ _ _ ?_
    | with_reducible refine State.staleQueue_keeps _ ?_
    | with_reducible refine State.onQueue_keeps _ _ ?_
    | with_reducible refine State.deferAnswer_keeps _ ?_
    | with_reducible refine State.closeJobs_keeps _ ?_

theorem execQueueOpen_keeps (h : SqpHdr) (s : State) : ∃ t, execQueueOpen h s = .next t ∧ s.Keeps t := by
  refine ⟨_, rfl, ?_⟩
  have h0 := State.Keeps.refl s
  repeat' first
    | with_reducible assumption
    | dsimp only
    | split
    | with_reducible refine State.message_keeps _ _ _ _ _ (fun _ _ => ?_) ?_
    | with_reducible refine State.queueAdopt_keeps _ ?_
    | with_reducible refine State.queueOpen_keeps _ ?_

theorem execQueueAdopt_keeps (h : SqpHdr) (s : State) : ∃ t, execQueueAdopt h s = .next t ∧ s.Keeps t := by
  refine ⟨_, rfl, ?_⟩
  have h0 := State.Keeps.refl s
  repeat' first
    | with_reducible assumption
    | dsimp only
    | split
    | with_reducible refine State.message_keeps _ _ _ _ _ (fun _ _ => ?_) ?_
    | with_reducible refine State.queueAdopt_keeps _ ?_
    | with_reducible refine State.queueOpen_keeps _ ?_

theorem execQueueClose_keeps (h : SqpHdr) (s : State) : ∃ t, execQueueClose h s = .next t ∧ s.Keeps t := by
  refine ⟨_, rfl, ?_⟩
  have h0 := State.Keeps.refl s
  repeat' first
    | with_reducible assumption
    | dsimp only
    | split
    | with_reducible refine State.message_keeps _ _ _ _ _ (fun _ _ => ?_) ?_
    | with_reducible refine State.queueClose_keeps _ ?_

theorem State.onOpenQueue_keeps (h : SqpHdr) (go : State → QueueCfg → State) {s0 s : State} (hgo : ∀ t x1, s0.Keeps t → s0.Keeps (go t x1)) (h0 : s0.Keeps s) : s0.Keeps (State.onOpenQueue s h go) := by
  unfold State.onOpenQueue
  repeat' first
    | with_reducible assumption
    | dsimp only
    | split
    | with_reducible refine State.nak_keeps _ _ _ ?_
    | with_reducible refine State.staleQueue_keeps _ ?_
    | with_reducible refine hgo _ _ ?_

theorem State.submit_keeps (h : SqpHdr) (b : SubmitBody) {s0 s : State} (h0 : s0.Keeps s) : s0.Keeps (State.submit s h b) := by
  unfold State.submit
  repeat' first
    | with_reducible assumption
    | dsimp only
    | split
    | with_reducible refine State.onOpenQueue_keeps _ _ (fun _ _ _ => ?_) ?_
    | with_reducible refine State.nak_keeps _ _ _ ?_
    | with_reducible refine State.newJob_keeps _ _ _ _ _ _ _ _ _ ?_

theorem execSubmit_keeps (h : SqpHdr) (b : SubmitBody) (s : State) : ∃ t, execSubmit h b s = .next t ∧ s.Keeps t := by
  refine ⟨_, rfl, ?_⟩
  have h0 := State.Keeps.refl s
  repeat' first
    | with_reducible assumption
    | dsimp only
    | split
    | with_reducible refine State.message_keeps _ _ _ _ _ (fun _ _ => ?_) ?_
    | with_reducible refine State.submit_keeps _ _ ?_

theorem State.cancel_keeps (h : SqpHdr) (tag : Word) {s0 s : State} (h0 : s0.Keeps s) : s0.Keeps (State.cancel s h tag) := by
  unfold State.cancel
  repeat' first
    | with_reducible assumption
    | dsimp only
    | split
    | with_reducible refine State.onOpenQueue_keeps _ _ (fun _ _ _ => ?_) ?_
    | with_reducible refine State.cancelTag_keeps _ _ ?_

theorem execCancel_keeps (h : SqpHdr) (tag : Word) (s : State) : ∃ t, execCancel h tag s = .next t ∧ s.Keeps t := by
  refine ⟨_, rfl, ?_⟩
  have h0 := State.Keeps.refl s
  repeat' first
    | with_reducible assumption
    | dsimp only
    | split
    | with_reducible refine State.message_keeps _ _ _ _ _ (fun _ _ => ?_) ?_
    | with_reducible refine State.cancel_keeps _ _ ?_

theorem State.onWindow_keeps (w : Nat) (f : WinSt → WinSt) {s0 s : State} (h0 : s0.Keeps s) : s0.Keeps (State.onWindow s w f) := by
  unfold State.onWindow
  repeat' first
    | with_reducible assumption
    | dsimp only
    | split
    | refine keeps_upd ?_ rfl rfl rfl rfl rfl

theorem State.windowOpen_keeps (h : SqpHdr) (region : Byte) (ofs : Word) (len : Word) {s0 s : State} (h0 : s0.Keeps s) : s0.Keeps (State.windowOpen s h region ofs len) := by
  unfold State.windowOpen
  repeat' first
    | with_reducible assumption
    | dsimp only
    | split
    | with_reducible refine State.nak_keeps _ _ _ ?_
    | with_reducible refine State.onWindow_keeps _ _ ?_
    | with_reducible refine State.okGen_keeps _ _ ?_

theorem execWindowOpen_keeps (h : SqpHdr) (region : Byte) (ofs : Word) (len : Word) (s : State) : ∃ t, execWindowOpen h region ofs len s = .next t ∧ s.Keeps t := by
  refine ⟨_, rfl, ?_⟩
  have h0 := State.Keeps.refl s
  repeat' first
    | with_reducible assumption
    | dsimp only
    | split
    | with_reducible refine State.message_keeps _ _ _ _ _ (fun _ _ => ?_) ?_
    | with_reducible refine State.windowOpen_keeps _ _ _ _ ?_

theorem State.onOpenWindow_keeps (h : SqpHdr) (access : Bool) (go : State → WinSt → State) {s0 s : State} (hgo : ∀ t x1, s0.Keeps t → s0.Keeps (go t x1)) (h0 : s0.Keeps s) : s0.Keeps (State.onOpenWindow s h access go) := by
  unfold State.onOpenWindow
  repeat' first
    | with_reducible assumption
    | dsimp only
    | split
    | with_reducible refine State.nak_keeps _ _ _ ?_
    | with_reducible refine State.bump_keeps _ ?_
    | with_reducible refine State.staleQueue_keeps _ ?_
    | with_reducible refine hgo _ _ ?_

theorem State.windowClose_keeps (h : SqpHdr) {s0 s : State} (h0 : s0.Keeps s) : s0.Keeps (State.windowClose s h) := by
  unfold State.windowClose
  repeat' first
    | with_reducible assumption
    | dsimp only
    | split
    | with_reducible refine State.onOpenWindow_keeps _ _ _ (fun _ _ _ => ?_) ?_
    | with_reducible refine State.onWindow_keeps _ _ ?_
    | with_reducible refine State.nak_keeps _ _ _ ?_

theorem execWindowClose_keeps (h : SqpHdr) (s : State) : ∃ t, execWindowClose h s = .next t ∧ s.Keeps t := by
  refine ⟨_, rfl, ?_⟩
  have h0 := State.Keeps.refl s
  repeat' first
    | with_reducible assumption
    | dsimp only
    | split
    | with_reducible refine State.message_keeps _ _ _ _ _ (fun _ _ => ?_) ?_
    | with_reducible refine State.windowClose_keeps _ ?_

theorem State.stage_keeps (h : SqpHdr) (x : WinSt) (ofs : Word) (b : StagedBody) {s0 s : State} (h0 : s0.Keeps s) : s0.Keeps (State.stage s h x ofs b) := by
  unfold State.stage
  repeat' first
    | with_reducible assumption
    | dsimp only
    | split
    | refine keeps_upd ?_ rfl rfl rfl rfl rfl

theorem State.windowWrite_keeps (h : SqpHdr) (ofs : Word) (data : List Byte) {s0 s : State} (h0 : s0.Keeps s) : s0.Keeps (State.windowWrite s h ofs data) := by
  unfold State.windowWrite
  repeat' first
    | with_reducible assumption
    | dsimp only
    | split
    | with_reducible refine State.onOpenWindow_keeps _ _ _ (fun _ _ _ => ?_) ?_
    | with_reducible refine State.nak_keeps _ _ _ ?_
    | with_reducible refine State.stage_keeps _ _ _ _ ?_
    | with_reducible refine State.deferAnswer_keeps _ ?_

theorem execWindowWrite_keeps (h : SqpHdr) (ofs : Word) (data : List Byte) (s : State) : ∃ t, execWindowWrite h ofs data s = .next t ∧ s.Keeps t := by
  refine ⟨_, rfl, ?_⟩
  have h0 := State.Keeps.refl s
  repeat' first
    | with_reducible assumption
    | dsimp only
    | split
    | with_reducible refine State.message_keeps _ _ _ _ _ (fun _ _ => ?_) ?_
    | with_reducible refine State.windowWrite_keeps _ _ _ ?_

theorem State.windowRead_keeps (h : SqpHdr) (ofs : Word) (len : Word) {s0 s : State} (h0 : s0.Keeps s) : s0.Keeps (State.windowRead s h ofs len) := by
  unfold State.windowRead
  repeat' first
    | with_reducible assumption
    | dsimp only
    | split
    | with_reducible refine State.onOpenWindow_keeps _ _ _ (fun _ _ _ => ?_) ?_
    | with_reducible refine State.nak_keeps _ _ _ ?_
    | with_reducible refine State.stage_keeps _ _ _ _ ?_
    | refine keeps_upd ?_ rfl rfl rfl rfl rfl

theorem State.windowReadMsg_keeps (h : SqpHdr) (lenOk : Bool) (ofs : Word) (len : Word) {s0 s : State} (h0 : s0.Keeps s) : s0.Keeps (State.windowReadMsg s h lenOk ofs len) := by
  unfold State.windowReadMsg
  repeat' first
    | with_reducible assumption
    | dsimp only
    | split
    | with_reducible refine State.lateChecks_keeps _ _ _ _ _ _ (fun _ _ => ?_) ?_
    | with_reducible refine State.windowRead_keeps _ _ _ ?_
    | with_reducible refine State.againAnswer_keeps _ ?_
    | refine keeps_upd ?_ rfl rfl rfl rfl rfl

theorem execWindowRead_keeps (h : SqpHdr) (ofs : Word) (len : Word) (s : State) : ∃ t, execWindowRead h ofs len s = .next t ∧ s.Keeps t := by
  refine ⟨_, rfl, ?_⟩
  have h0 := State.Keeps.refl s
  repeat' first
    | with_reducible assumption
    | dsimp only
    | split
    | with_reducible refine State.received_keeps _ _ (fun _ _ => ?_) ?_
    | with_reducible refine State.windowReadMsg_keeps _ _ _ _ ?_
    | refine keeps_upd ?_ rfl rfl rfl rfl rfl

theorem State.semAcquire_keeps (h : SqpHdr) (lease : Word) {s0 s : State} (h0 : s0.Keeps s) : s0.Keeps (State.semAcquire s h lease) := by
  unfold State.semAcquire
  repeat' first
    | with_reducible assumption
    | dsimp only
    | split
    | with_reducible refine State.nak_keeps _ _ _ ?_
    | refine keeps_upd ?_ rfl rfl rfl rfl rfl

theorem execSemAcquire_keeps (h : SqpHdr) (lease : Word) (s : State) : ∃ t, execSemAcquire h lease s = .next t ∧ s.Keeps t := by
  refine ⟨_, rfl, ?_⟩
  have h0 := State.Keeps.refl s
  repeat' first
    | with_reducible assumption
    | dsimp only
    | split
    | with_reducible refine State.message_keeps _ _ _ _ _ (fun _ _ => ?_) ?_
    | with_reducible refine State.semAcquire_keeps _ _ ?_

theorem State.semRelease_keeps (h : SqpHdr) {s0 s : State} (h0 : s0.Keeps s) : s0.Keeps (State.semRelease s h) := by
  unfold State.semRelease
  repeat' first
    | with_reducible assumption
    | dsimp only
    | split
    | with_reducible refine State.nak_keeps _ _ _ ?_
    | refine keeps_upd ?_ rfl rfl rfl rfl rfl

theorem execSemRelease_keeps (h : SqpHdr) (s : State) : ∃ t, execSemRelease h s = .next t ∧ s.Keeps t := by
  refine ⟨_, rfl, ?_⟩
  have h0 := State.Keeps.refl s
  repeat' first
    | with_reducible assumption
    | dsimp only
    | split
    | with_reducible refine State.message_keeps _ _ _ _ _ (fun _ _ => ?_) ?_
    | with_reducible refine State.semRelease_keeps _ ?_

theorem State.semStatus_keeps (h : SqpHdr) {s0 s : State} (h0 : s0.Keeps s) : s0.Keeps (State.semStatus s h) := by
  unfold State.semStatus
  repeat' first
    | with_reducible assumption
    | dsimp only
    | split
    | with_reducible refine State.nak_keeps _ _ _ ?_
    | with_reducible refine State.answerMsg_keeps _ _ _ _ _ ?_

theorem execSemStatus_keeps (h : SqpHdr) (s : State) : ∃ t, execSemStatus h s = .next t ∧ s.Keeps t := by
  refine ⟨_, rfl, ?_⟩
  have h0 := State.Keeps.refl s
  repeat' first
    | with_reducible assumption
    | dsimp only
    | split
    | with_reducible refine State.message_keeps _ _ _ _ _ (fun _ _ => ?_) ?_
    | with_reducible refine State.semStatus_keeps _ ?_

theorem execSemLeaseExpiry_keeps (n : Fin 64) (s : State) : ∃ t, execSemLeaseExpiry n s = .next t ∧ s.Keeps t := by
  refine ⟨_, rfl, ?_⟩
  have h0 := State.Keeps.refl s
  repeat' first
    | with_reducible assumption
    | dsimp only
    | split
    | with_reducible refine State.bump_keeps _ ?_
    | with_reducible refine State.event_keeps _ _ _ ?_
    | refine keeps_upd ?_ rfl rfl rfl rfl rfl

end Sys2Proof.Machine
end

