-- ==== Sys2Proof/Laws/KeepsGuard.lean ====
section
/-!
SUPPORT. What every operation of Guard keeps: the commands that wait, and the invariant of the state.
-/

namespace Sys2Proof.Machine

theorem State.poisonFound_keeps (a : Nat) (syndrome : Nat) {s0 s : State} (h0 : s0.Keeps s) : s0.Keeps (State.poisonFound s a syndrome) := by
  unfold State.poisonFound
  repeat' first
    | with_reducible assumption
    | dsimp only
    | split
    | with_reducible refine State.eccReport_keeps _ _ _ _ ?_
    | (with_reducible refine State.onJob_keeps _ _ ?_ ?_; · (intro k hk; first | rfl | exact hk.symm | (split <;> first | rfl | exact hk.symm)))
    | with_reducible refine State.reload_keeps _ _ ?_
    | with_reducible refine State.atBoundary_keeps _ _ ?_
    | with_reducible refine State.bankMeets_keeps _ ?_
    | refine keeps_upd ?_ rfl rfl rfl rfl rfl

theorem execOperationComplete_keeps (n : Fin 32) (f : OpFaults) (s : State) : ∃ t, execOperationComplete n f s = .next t ∧ s.Keeps t := by
  refine ⟨_, rfl, ?_⟩
  have h0 := State.Keeps.refl s
  repeat' first
    | with_reducible assumption
    | dsimp only
    | split
    | with_reducible refine keeps_eq2 (by assumption) ?_
    | with_reducible refine State.completeOldest_keeps _ _ _ ?_
    | with_reducible refine State.residue_keeps _ _ _ ?_
    | with_reducible refine State.takeFree_keeps _ ?_
    | with_reducible refine State.eccCorrected_keeps _ _ ?_
    | with_reducible refine State.poisonFound_keeps _ _ ?_
    | with_reducible refine State.seqParity_keeps _ ?_
    | with_reducible refine State.passEnd_keeps _ ?_
    | with_reducible refine keeps_foldl _ _ _ (fun _ _ _ => ?_) ?_
    | with_reducible refine keeps_foldl_snd _ _ _ (fun _ _ _ => ?_) ?_
    | with_reducible refine keeps_foldl_fst _ _ _ (fun _ _ _ => ?_) ?_
    | refine keeps_upd ?_ rfl rfl rfl rfl rfl

theorem State.reply_keeps (t : Xact) (rest : List Xact) {s0 s : State} (h0 : s0.Keeps s) : s0.Keeps (State.reply s t rest).2 := by
  unfold State.reply
  repeat' first
    | with_reducible assumption
    | dsimp only
    | split
    | with_reducible refine State.bump_keeps _ ?_
    | refine keeps_upd ?_ rfl rfl rfl rfl rfl

theorem execRemoteAccessComplete_keeps (n : Fin 32) (s : State) : ∃ t, execRemoteAccessComplete n s = .next t ∧ s.Keeps t := by
  refine ⟨_, rfl, ?_⟩
  have h0 := State.Keeps.refl s
  repeat' first
    | with_reducible assumption
    | dsimp only
    | split
    | with_reducible refine keeps_eq2 (by assumption) ?_
    | with_reducible refine State.reply_keeps _ _ ?_

theorem State.pageIn_keeps (t : Xact) (bs : List Byte) (bad : Bool) {s0 s : State} (h0 : s0.Keeps s) : s0.Keeps (State.pageIn s t bs bad) := by
  unfold State.pageIn
  repeat' first
    | with_reducible assumption
    | dsimp only
    | split
    | with_reducible refine State.onCore_keeps _ _ (fun _ => rfl) ?_
    | refine keeps_upd ?_ rfl rfl rfl rfl rfl

theorem State.pageArrives_keeps (t : Xact) (bs : List Byte) (bad : Bool) {s0 s : State} (h0 : s0.Keeps s) : s0.Keeps (State.pageArrives s t bs bad) := by
  unfold State.pageArrives
  repeat' first
    | with_reducible assumption
    | dsimp only
    | split
    | with_reducible refine keeps_eq2 (by assumption) ?_
    | with_reducible refine State.pageIn_keeps _ _ _ ?_
    | with_reducible refine State.pageCame_keeps _ _ _ _ _ _ ?_
    | with_reducible refine State.load_keeps _ _ _ ?_
    | with_reducible refine State.failLoad_keeps _ _ ?_
    | refine keeps_upd ?_ rfl rfl rfl rfl rfl

theorem execHbusPageTransfer_keeps (ch : Fin 16) (crcErrors : Nat) (s : State) : ∃ t, execHbusPageTransfer ch crcErrors s = .next t ∧ s.Keeps t := by
  refine ⟨_, rfl, ?_⟩
  have h0 := State.Keeps.refl s
  repeat' first
    | with_reducible assumption
    | dsimp only
    | split
    | with_reducible refine keeps_eq2 (by assumption) ?_
    | with_reducible refine State.reply_keeps _ _ ?_
    | with_reducible refine State.fetchAt_keeps _ _ _ ?_
    | with_reducible refine State.pageArrives_keeps _ _ _ ?_
    | refine keeps_upd ?_ rfl rfl rfl rfl rfl

theorem execSluiceTokenGrant_keeps (p : Fin 16) (b : Bucket) (s : State) : ∃ t, execSluiceTokenGrant p b s = .next t ∧ s.Keeps t := by
  refine ⟨_, rfl, ?_⟩
  have h0 := State.Keeps.refl s
  repeat' first
    | with_reducible assumption
    | dsimp only
    | split
    | with_reducible refine keeps_eq2 (by assumption) ?_
    | with_reducible refine State.onPan_keeps _ _ ?_
    | with_reducible refine State.flushComps_keeps ?_
    | with_reducible refine State.grant_keeps _ _ ?_
    | with_reducible refine State.releasePaced_keeps ?_
    | refine keeps_upd ?_ rfl rfl rfl rfl rfl

theorem State.scrub_keeps (line : Nat) (words : List HarrowWord) {s0 s : State} (h0 : s0.Keeps s) : s0.Keeps (State.scrub s line words) := by
  unfold State.scrub
  repeat' first
    | with_reducible assumption
    | dsimp only
    | split
    | with_reducible refine State.poisonFound_keeps _ _ ?_
    | with_reducible refine State.eccCorrected_keeps _ _ ?_
    | with_reducible refine keeps_foldl _ _ _ (fun _ _ _ => ?_) ?_
    | with_reducible refine keeps_foldl_snd _ _ _ (fun _ _ _ => ?_) ?_
    | with_reducible refine keeps_foldl_fst _ _ _ (fun _ _ _ => ?_) ?_
    | refine keeps_upd ?_ rfl rfl rfl rfl rfl

theorem execHarrowRewrite_keeps (s : State) : ∃ t, execHarrowRewrite s = .next t ∧ s.Keeps t := by
  refine ⟨_, rfl, ?_⟩
  have h0 := State.Keeps.refl s
  repeat' first
    | with_reducible assumption
    | dsimp only
    | split
    | refine keeps_upd ?_ rfl rfl rfl rfl rfl

theorem State.refreshHbus_keeps (c : Nat) {s0 s : State} (h0 : s0.Keeps s) : s0.Keeps (State.refreshHbus s c) := by
  unfold State.refreshHbus
  repeat' first
    | with_reducible assumption
    | dsimp only
    | split
    | with_reducible refine State.onChan_keeps _ _ ?_
    | with_reducible refine State.setReady_keeps _ _ ?_
    | with_reducible refine keeps_foldl _ _ _ (fun _ _ _ => ?_) ?_

theorem State.configHbus_keeps (c : Nat) {s0 s : State} (h0 : s0.Keeps s) : s0.Keeps (State.configHbus s c) := by
  unfold State.configHbus
  repeat' first
    | with_reducible assumption
    | dsimp only
    | split
    | with_reducible refine State.onChan_keeps _ _ ?_
    | with_reducible refine State.refreshHbus_keeps _ ?_

theorem execHbusTrainingDone_keeps (ch : Fin 16) (pass : Bool) (s : State) : ∃ t, execHbusTrainingDone ch pass s = .next t ∧ s.Keeps t := by
  refine ⟨_, rfl, ?_⟩
  have h0 := State.Keeps.refl s
  repeat' first
    | with_reducible assumption
    | dsimp only
    | split
    | with_reducible refine State.onChan_keeps _ _ ?_
    | with_reducible refine State.refreshHbus_keeps _ ?_

theorem execHbusLost_keeps (ch : Fin 16) (s : State) : ∃ t, execHbusLost ch s = .next t ∧ s.Keeps t := by
  refine ⟨_, rfl, ?_⟩
  have h0 := State.Keeps.refl s
  repeat' first
    | with_reducible assumption
    | dsimp only
    | split
    | with_reducible refine State.onChan_keeps _ _ ?_
    | with_reducible refine State.refreshHbus_keeps _ ?_
    | with_reducible refine State.report_keeps _ _ _ _ _ _ ?_

theorem State.errorEvent_keeps (l : LogId) (index : Nat) (r : Report) {s0 s : State} (h0 : s0.Keeps s) : s0.Keeps (State.errorEvent s l index r) := by
  unfold State.errorEvent
  repeat' first
    | with_reducible assumption
    | dsimp only
    | split
    | with_reducible refine State.event_keeps _ _ _ ?_
    | refine keeps_upd ?_ rfl rfl rfl rfl rfl

theorem State.eventByCopy_keeps (r : Report) {s0 s : State} (h0 : s0.Keeps s) : s0.Keeps (State.eventByCopy s r) := by
  unfold State.eventByCopy
  dsimp only
  split
  · exact keeps_logs h0 _ (fun w => ⟨by simpa using w.1, w.2.1, w.2.2⟩)
  · split
    · exact State.errorEvent_keeps _ _ _ h0
    · exact h0

theorem execLogRecord_keeps (l : LogId) (s : State) : ∃ t, execLogRecord l s = .next t ∧ s.Keeps t := by
  refine ⟨_, rfl, ?_⟩
  have h0 := State.Keeps.refl s
  dsimp only
  split
  · exact h0
  · rename_i r rest e
    have hb (w : (s.log l).within (logCap l)) : rest.length ≤ 4 := by
      have := w.1
      rw [e] at this
      simp only [List.length_cons] at this
      omega
    split
    · exact h0
    · split
      · have h1 : s.Keeps (({ s with logs := s.logs.put (logKey l) (({ s.log l with buf := rest } : ErrLog).missed s.nclk r) } : State).lose l r) := by
          refine State.lose_keeps _ _ (keeps_logs h0 l (fun w => ?_))
          exact ⟨hb w, w.2.1, w.2.2⟩
        split
        · exact State.eventByCopy_keeps _ h1
        · exact h1
      · rename_i hc
        have h1 : s.Keeps { s with logs := s.logs.put (logKey l) { s.log l with buf := rest, entries := (s.log l).entries ++ [r] } } :=
          keeps_logs h0 l (fun w => ⟨hb w, by simp only [List.length_append, List.length_singleton]; omega, w.2.2⟩)
        split
        · exact State.errorEvent_keeps _ _ _ h1
        · exact h1

theorem State.clearLog_keeps (l : LogId) {s0 s : State} (h0 : s0.Keeps s) : s0.Keeps (State.clearLog s l) := by
  unfold State.clearLog
  exact keeps_logs h0 l (fun _ => ⟨List.length_take_le _ _, Nat.zero_le _, Nat.zero_le _⟩)

end Sys2Proof.Machine
end

