-- ==== Sys2Proof/Laws/KeepsEngine.lean ====
section
/-!
SUPPORT. What every operation of Engine keeps: the commands that wait, and the invariant of the state.
-/

namespace Sys2Proof.Machine

theorem State.onPair_keeps (p : Nat) (f : PairSt → PairSt) {s0 s : State} (h0 : s0.Keeps s) : s0.Keeps (State.onPair s p f) := by
  unfold State.onPair
  repeat' first
    | with_reducible assumption
    | dsimp only
    | split
    | refine keeps_upd ?_ rfl rfl rfl rfl rfl

theorem State.onTrace_keeps (n : Nat) (f : TraceSt → TraceSt) {s0 s : State} (h0 : s0.Keeps s) : s0.Keeps (State.onTrace s n f) := by
  unfold State.onTrace
  repeat' first
    | with_reducible assumption
    | dsimp only
    | split
    | refine keeps_upd ?_ rfl rfl rfl rfl rfl

theorem State.loopEvent_keeps (n : Nat) {s0 s : State} (h0 : s0.Keeps s) : s0.Keeps (State.loopEvent s n) := by
  unfold State.loopEvent
  repeat' first
    | with_reducible assumption
    | dsimp only
    | split
    | with_reducible refine State.event_keeps _ _ _ ?_

theorem State.pairEvent_keeps (p : Nat) {s0 s : State} (h0 : s0.Keeps s) : s0.Keeps (State.pairEvent s p) := by
  unfold State.pairEvent
  repeat' first
    | with_reducible assumption
    | dsimp only
    | split
    | with_reducible refine State.event_keeps _ _ _ ?_

theorem execLoopTick_keeps (s : State) : ∃ t, execLoopTick s = .next t ∧ s.Keeps t := by
  refine ⟨_, rfl, ?_⟩
  have h0 := State.Keeps.refl s
  repeat' first
    | with_reducible assumption
    | dsimp only
    | split
    | with_reducible refine keeps_eq2 (by assumption) ?_
    | with_reducible refine State.tick_keeps ?_
    | with_reducible refine State.takeFree_keeps _ ?_
    | with_reducible refine State.event_keeps _ _ _ ?_
    | refine keeps_upd ?_ rfl rfl rfl rfl rfl

theorem State.latch_keeps (leader : Nat) (n : Nat) (ts : Nat) (starts : Bool) {s0 s : State} (h0 : s0.Keeps s) : s0.Keeps (State.latch s leader n ts starts) := by
  unfold State.latch
  repeat' first
    | with_reducible assumption
    | dsimp only
    | split
    | with_reducible refine keeps_eq2 (by assumption) ?_
    | with_reducible refine State.fields_keeps _ _ _ ?_
    | with_reducible refine State.onLoop_keeps _ _ ?_
    | with_reducible refine State.onPair_keeps _ _ ?_

theorem State.forgo_keeps (u : Update) {s0 s : State} (h0 : s0.Keeps s) : s0.Keeps (State.forgo s u) := by
  unfold State.forgo
  repeat' first
    | with_reducible assumption
    | dsimp only
    | split
    | with_reducible refine State.onLoop_keeps _ _ ?_

theorem State.latchIdle_keeps (leader : Nat) (n : Nat) (ts : Nat) {s0 s : State} (h0 : s0.Keeps s) : s0.Keeps (State.latchIdle s leader n ts) := by
  unfold State.latchIdle
  repeat' first
    | with_reducible assumption
    | dsimp only
    | split
    | with_reducible refine State.onLoop_keeps _ _ ?_
    | with_reducible refine State.forgo_keeps _ ?_

theorem State.egress_keeps (leader : Nat) (ts : Nat) (state : Nat) (m : Int) {s0 s : State} (h0 : s0.Keeps s) : s0.Keeps (State.egress s leader ts state m) := by
  unfold State.egress
  repeat' first
    | with_reducible assumption
    | dsimp only
    | split
    | refine keeps_upd ?_ rfl rfl rfl rfl rfl

theorem State.haltedOut_keeps (leader : Nat) (ts : Nat) {s0 s : State} (h0 : s0.Keeps s) : s0.Keeps (State.haltedOut s leader ts) := by
  unfold State.haltedOut
  repeat' first
    | with_reducible assumption
    | dsimp only
    | split
    | with_reducible refine keeps_foldl _ _ _ (fun _ _ _ => ?_) ?_
    | with_reducible refine State.onLoop_keeps _ _ ?_
    | with_reducible refine State.egress_keeps _ _ _ _ ?_

theorem State.latchGroup_keeps (leader : Nat) (ts : Nat) {s0 s : State} (h0 : s0.Keeps s) : s0.Keeps (State.latchGroup s leader ts) := by
  unfold State.latchGroup
  repeat' first
    | with_reducible assumption
    | dsimp only
    | split
    | with_reducible refine State.latch_keeps _ _ _ _ ?_
    | with_reducible refine State.latchIdle_keeps _ _ _ ?_
    | with_reducible refine State.haltedOut_keeps _ _ ?_
    | with_reducible refine keeps_foldl _ _ _ (fun _ _ _ => ?_) ?_

theorem execSampleLatch_keeps (slot : Fin 153) (s : State) : ∃ t, execSampleLatch slot s = .next t ∧ s.Keeps t := by
  refine ⟨_, rfl, ?_⟩
  have h0 := State.Keeps.refl s
  repeat' first
    | with_reducible assumption
    | dsimp only
    | split
    | with_reducible refine State.tick_keeps ?_
    | with_reducible refine State.latchGroup_keeps _ _ ?_
    | with_reducible refine keeps_foldl _ _ _ (fun _ _ _ => ?_) ?_
    | with_reducible refine keeps_foldl_snd _ _ _ (fun _ _ _ => ?_) ?_
    | with_reducible refine keeps_foldl_fst _ _ _ (fun _ _ _ => ?_) ?_
    | refine keeps_upd ?_ rfl rfl rfl rfl rfl

theorem execUpdateIssue_keeps (p : Fin 4) (s : State) : ∃ t, execUpdateIssue p s = .next t ∧ s.Keeps t := by
  refine ⟨_, rfl, ?_⟩
  have h0 := State.Keeps.refl s
  repeat' first
    | with_reducible assumption
    | dsimp only
    | split
    | with_reducible refine State.onPair_keeps _ _ ?_

theorem State.runUpdate_keeps (w : LoopCfg) (wl : LoopCfg) (u : Update) {s0 s : State} (h0 : s0.Keeps s) : s0.Keeps (State.runUpdate s w wl u).2 := by
  unfold State.runUpdate
  repeat' first
    | with_reducible assumption
    | dsimp only
    | split
    | with_reducible refine keeps_eq2 (by assumption) ?_
    | with_reducible refine State.takeFree_keeps _ ?_

theorem State.postFlags_keeps (n : Nat) (was : Bool) {s0 s : State} (h0 : s0.Keeps s) : s0.Keeps (State.postFlags s n was) := by
  unfold State.postFlags
  repeat' first
    | with_reducible assumption
    | dsimp only
    | split
    | with_reducible refine State.loopSet_keeps _ _ ?_
    | with_reducible refine State.loopEvent_keeps _ ?_

theorem State.poisonUpdate_keeps (w : LoopCfg) (wl : LoopCfg) (u : Update) {s0 s : State} (h0 : s0.Keeps s) : s0.Keeps (State.poisonUpdate s w wl u) := by
  unfold State.poisonUpdate
  repeat' first
    | with_reducible assumption
    | dsimp only
    | split
    | with_reducible refine keeps_eq2 (by assumption) ?_
    | with_reducible refine State.takeFree_keeps _ ?_
    | with_reducible refine State.onLoop_keeps _ _ ?_
    | with_reducible refine State.loopSet_keeps _ _ ?_
    | with_reducible refine State.hold_keeps _ _ _ ?_
    | with_reducible refine State.report_keeps _ _ _ _ _ _ ?_
    | with_reducible refine State.loopEvent_keeps _ ?_
    | with_reducible refine keeps_foldl _ _ _ (fun _ _ _ => ?_) ?_
    | with_reducible refine keeps_foldl_snd _ _ _ (fun _ _ _ => ?_) ?_
    | with_reducible refine keeps_foldl_fst _ _ _ (fun _ _ _ => ?_) ?_
    | refine keeps_upd ?_ rfl rfl rfl rfl rfl

theorem State.closePage_keeps (n : Nat) (loop : Nat) {s0 s : State} (h0 : s0.Keeps s) : s0.Keeps (State.closePage s n loop) := by
  unfold State.closePage
  repeat' first
    | with_reducible assumption
    | dsimp only
    | split
    | with_reducible refine keeps_eq2 (by assumption) ?_
    | with_reducible refine State.takeFree_keeps _ ?_
    | with_reducible refine State.onTrace_keeps _ _ ?_

theorem State.putRec_keeps (n : Nat) (loop : Nat) (r : List Byte) {s0 s : State} (h0 : s0.Keeps s) : s0.Keeps (State.putRec s n loop r) := by
  unfold State.putRec
  repeat' first
    | with_reducible assumption
    | dsimp only
    | split
    | with_reducible refine State.closePage_keeps _ _ ?_
    | with_reducible refine State.bump_keeps _ ?_
    | with_reducible refine State.onTrace_keeps _ _ ?_

theorem State.trigger_keeps (n : Nat) {s0 s : State} (h0 : s0.Keeps s) : s0.Keeps (State.trigger s n) := by
  unfold State.trigger
  repeat' first
    | with_reducible assumption
    | dsimp only
    | split
    | with_reducible refine State.traceCtrl_keeps _ _ _ ?_
    | with_reducible refine State.putRec_keeps _ _ _ ?_
    | with_reducible refine State.onTrace_keeps _ _ ?_
    | with_reducible refine keeps_foldl _ _ _ (fun _ _ _ => ?_) ?_

theorem State.traceUpdate_keeps (n : Nat) (loop : Nat) (ts : Nat) (w : LoopCfg) (wl : LoopCfg) (l : LoopSt) (lead : LoopSt) (tripped : Bool) {s0 s : State} (h0 : s0.Keeps s) : s0.Keeps (State.traceUpdate s n loop ts w wl l lead tripped) := by
  unfold State.traceUpdate
  repeat' first
    | with_reducible assumption
    | dsimp only
    | split
    | with_reducible refine State.traceCtrl_keeps _ _ _ ?_
    | with_reducible refine State.trigger_keeps _ ?_
    | with_reducible refine State.putRec_keeps _ _ _ ?_
    | with_reducible refine State.onTrace_keeps _ _ ?_

theorem State.finishGroup_keeps (leader : Nat) (ts : Nat) {s0 s : State} (h0 : s0.Keeps s) : s0.Keeps (State.finishGroup s leader ts) := by
  unfold State.finishGroup
  repeat' first
    | with_reducible assumption
    | dsimp only
    | split
    | with_reducible refine State.hold_keeps _ _ _ ?_
    | with_reducible refine State.onLoop_keeps _ _ ?_
    | with_reducible refine State.loopSet_keeps _ _ ?_
    | with_reducible refine State.egress_keeps _ _ _ _ ?_
    | with_reducible refine State.traceUpdate_keeps _ _ _ _ _ _ _ _ ?_
    | with_reducible refine keeps_foldl _ _ _ (fun _ _ _ => ?_) ?_
    | with_reducible refine keeps_foldl_snd _ _ _ (fun _ _ _ => ?_) ?_
    | with_reducible refine keeps_foldl_fst _ _ _ (fun _ _ _ => ?_) ?_
    | refine keeps_upd ?_ rfl rfl rfl rfl rfl

theorem State.passUpdate_keeps (u : Update) {s0 s : State} (h0 : s0.Keeps s) : s0.Keeps (State.passUpdate s u) := by
  unfold State.passUpdate
  repeat' first
    | with_reducible assumption
    | dsimp only
    | split
    | with_reducible refine keeps_eq2 (by assumption) ?_
    | with_reducible refine State.poisonUpdate_keeps _ _ _ ?_
    | with_reducible refine State.runUpdate_keeps _ _ _ ?_
    | with_reducible refine State.onLoop_keeps _ _ ?_
    | with_reducible refine State.postFlags_keeps _ _ ?_
    | with_reducible refine State.finishGroup_keeps _ _ ?_

theorem State.haltPair_keeps (p : Nat) (us : List Update) {s0 s : State} (h0 : s0.Keeps s) : s0.Keeps (State.haltPair s p us) := by
  unfold State.haltPair
  repeat' first
    | with_reducible assumption
    | dsimp only
    | split
    | with_reducible refine State.forgo_keeps _ ?_
    | with_reducible refine State.onPair_keeps _ _ ?_
    | with_reducible refine State.setReady_keeps _ _ ?_
    | with_reducible refine State.report_keeps _ _ _ _ _ _ ?_
    | with_reducible refine State.pairEvent_keeps _ ?_
    | with_reducible refine State.haltedOut_keeps _ _ ?_
    | with_reducible refine keeps_foldl _ _ _ (fun _ _ _ => ?_) ?_

theorem execUpdateCompare_keeps (p : Fin 4) (agree : Bool) (s : State) : ∃ t, execUpdateCompare p agree s = .next t ∧ s.Keeps t := by
  refine ⟨_, rfl, ?_⟩
  have h0 := State.Keeps.refl s
  repeat' first
    | with_reducible assumption
    | dsimp only
    | split
    | with_reducible refine State.onPair_keeps _ _ ?_
    | with_reducible refine State.passUpdate_keeps _ ?_
    | with_reducible refine State.bump_keeps _ ?_
    | with_reducible refine State.loopSet_keeps _ _ ?_
    | with_reducible refine State.report_keeps _ _ _ _ _ _ ?_
    | with_reducible refine State.haltPair_keeps _ _ ?_

theorem execLockstepKatDone_keeps (p : Fin 4) (pass0 : Bool) (pass1 : Bool) (s : State) : ∃ t, execLockstepKatDone p pass0 pass1 s = .next t ∧ s.Keeps t := by
  refine ⟨_, rfl, ?_⟩
  have h0 := State.Keeps.refl s
  repeat' first
    | with_reducible assumption
    | dsimp only
    | split
    | with_reducible refine State.haltPair_keeps _ _ ?_
    | with_reducible refine State.onPair_keeps _ _ ?_
    | with_reducible refine State.setReady_keeps _ _ ?_
    | with_reducible refine State.report_keeps _ _ _ _ _ _ ?_
    | with_reducible refine State.pairEvent_keeps _ ?_

theorem State.sendSetpoints_keeps (d : Nat) (apply : Nat) (es : List Setpoint) {s0 s : State} (h0 : s0.Keeps s) : s0.Keeps (State.sendSetpoints s d apply es) := by
  unfold State.sendSetpoints
  repeat' first
    | with_reducible assumption
    | dsimp only
    | split
    | with_reducible refine State.enqueue_keeps _ _ ?_
    | with_reducible refine keeps_foldl _ _ _ (fun _ _ _ => ?_) ?_
    | with_reducible refine keeps_foldl_snd _ _ _ (fun _ _ _ => ?_) ?_
    | with_reducible refine keeps_foldl_fst _ _ _ (fun _ _ _ => ?_) ?_
    | refine keeps_upd ?_ rfl rfl rfl rfl rfl

theorem execSetpointFrameSend_keeps (s : State) : ∃ t, execSetpointFrameSend s = .next t ∧ s.Keeps t := by
  refine ⟨_, rfl, ?_⟩
  have h0 := State.Keeps.refl s
  repeat' first
    | with_reducible assumption
    | dsimp only
    | split
    | with_reducible refine State.egress_keeps _ _ _ _ ?_
    | with_reducible refine State.sendSetpoints_keeps _ _ _ ?_
    | with_reducible refine keeps_foldl _ _ _ (fun _ _ _ => ?_) ?_
    | with_reducible refine keeps_foldl_snd _ _ _ (fun _ _ _ => ?_) ?_
    | with_reducible refine keeps_foldl_fst _ _ _ (fun _ _ _ => ?_) ?_
    | refine keeps_upd ?_ rfl rfl rfl rfl rfl

theorem execTracePageSpill_keeps (n : Fin 16) (s : State) : ∃ t, execTracePageSpill n s = .next t ∧ s.Keeps t := by
  refine ⟨_, rfl, ?_⟩
  have h0 := State.Keeps.refl s
  repeat' first
    | with_reducible assumption
    | dsimp only
    | split
    | with_reducible refine State.writePage_keeps _ _ _ _ ?_
    | with_reducible refine State.onTrace_keeps _ _ ?_
    | refine keeps_upd ?_ rfl rfl rfl rfl rfl

theorem execTracePageSend_keeps (n : Fin 16) (s : State) : ∃ t, execTracePageSend n s = .next t ∧ s.Keeps t := by
  refine ⟨_, rfl, ?_⟩
  have h0 := State.Keeps.refl s
  repeat' first
    | with_reducible assumption
    | dsimp only
    | split
    | with_reducible refine keeps_eq2 (by assumption) ?_
    | with_reducible refine State.fetchPage_keeps _ ?_
    | with_reducible refine State.bump_keeps _ ?_
    | with_reducible refine State.sendMsg_keeps _ _ ?_
    | with_reducible refine keeps_foldl _ _ _ (fun _ _ _ => ?_) ?_
    | with_reducible refine keeps_foldl_snd _ _ _ (fun _ _ _ => ?_) ?_
    | with_reducible refine keeps_foldl_fst _ _ _ (fun _ _ _ => ?_) ?_
    | refine keeps_upd ?_ rfl rfl rfl rfl rfl

theorem State.setEn_keeps (n : Nat) (on : Bool) {s0 s : State} (h0 : s0.Keeps s) : s0.Keeps (State.setEn s n on) := by
  unfold State.setEn
  repeat' first
    | with_reducible assumption
    | dsimp only
    | split
    | with_reducible refine State.onLoop_keeps _ _ ?_

theorem State.feClr_keeps (n : Nat) {s0 s : State} (h0 : s0.Keeps s) : s0.Keeps (State.feClr s n) := by
  unfold State.feClr
  repeat' first
    | with_reducible assumption
    | dsimp only
    | split
    | with_reducible refine State.onLoop_keeps _ _ ?_

theorem State.hostLoop_keeps (n : Nat) (ff : Bool) (mant : BitVec 24) {s0 s : State} (h0 : s0.Keeps s) : s0.Keeps (State.hostLoop s n ff mant) := by
  unfold State.hostLoop
  repeat' first
    | with_reducible assumption
    | dsimp only
    | split
    | with_reducible refine State.setRw_keeps _ _ ?_
    | with_reducible refine State.onLoop_keeps _ _ ?_
    | with_reducible refine State.loopSet_keeps _ _ ?_

theorem State.traceTrig_keeps (mask : BitVec 16) {s0 s : State} (h0 : s0.Keeps s) : s0.Keeps (State.traceTrig s mask) := by
  unfold State.traceTrig
  repeat' first
    | with_reducible assumption
    | dsimp only
    | split
    | with_reducible refine State.traceCtrl_keeps _ _ _ ?_
    | with_reducible refine State.trigger_keeps _ ?_
    | with_reducible refine keeps_foldl _ _ _ (fun _ _ _ => ?_) ?_

theorem State.dropPages_keeps (n : Nat) {s0 s : State} (h0 : s0.Keeps s) : s0.Keeps (State.dropPages s n) := by
  unfold State.dropPages
  repeat' first
    | with_reducible assumption
    | dsimp only
    | split
    | with_reducible refine State.bump_keeps _ ?_
    | with_reducible refine State.onTrace_keeps _ _ ?_
    | with_reducible refine keeps_foldl _ _ _ (fun _ _ _ => ?_) ?_

theorem State.traceCtrl_keeps (port : Option (Port × Fin 8)) (n : Nat) (val : Word) {s0 s : State} (h0 : s0.Keeps s) : s0.Keeps (State.traceCtrl s port n val) := by
  unfold State.traceCtrl
  repeat' first
    | with_reducible assumption
    | dsimp only
    | split
    | with_reducible refine State.closePage_keeps _ _ ?_
    | with_reducible refine State.dropPages_keeps _ ?_
    | with_reducible refine State.setRw_keeps _ _ ?_
    | with_reducible refine State.onTrace_keeps _ _ ?_
    | refine keeps_upd ?_ rfl rfl rfl rfl rfl

end Sys2Proof.Machine
end

