-- ==== Sys2Proof/Laws/KeepsIngest.lean ====
section
/-!
SUPPORT. What every operation of Ingest keeps: the commands that wait, and the invariant of the state.
-/

namespace Sys2Proof.Machine

theorem State.onIngest_keeps (f : Ingest → Ingest) {s0 s : State} (h0 : s0.Keeps s) : s0.Keeps (State.onIngest s f) := by
  unfold State.onIngest
  repeat' first
    | with_reducible assumption
    | dsimp only
    | split
    | refine keeps_upd ?_ rfl rfl rfl rfl rfl

theorem State.onField_keeps (k : Nat) (f : FieldSt → FieldSt) {s0 s : State} (h0 : s0.Keeps s) : s0.Keeps (State.onField s k f) := by
  unfold State.onField
  repeat' first
    | with_reducible assumption
    | dsimp only
    | split
    | with_reducible refine keeps_eq2 (by assumption) ?_
    | with_reducible refine State.onIngest_keeps _ ?_

theorem State.onStream_keeps (n : Nat) (f : StreamSt → StreamSt) {s0 s : State} (h0 : s0.Keeps s) : s0.Keeps (State.onStream s n f) := by
  unfold State.onStream
  repeat' first
    | with_reducible assumption
    | dsimp only
    | split
    | with_reducible refine State.onIngest_keeps _ ?_

theorem execFieldTimeout_keeps (k : Fin 1024) (s : State) : ∃ t, execFieldTimeout k s = .next t ∧ s.Keeps t := by
  refine ⟨_, rfl, ?_⟩
  have h0 := State.Keeps.refl s
  repeat' first
    | with_reducible assumption
    | dsimp only
    | split
    | with_reducible refine State.onField_keeps _ _ ?_

theorem State.conditionField_keeps (k : Nat) (capture : Nat) (v : Val) {s0 s : State} (h0 : s0.Keeps s) : s0.Keeps (State.conditionField s k capture v).2 := by
  unfold State.conditionField
  repeat' first
    | with_reducible assumption
    | dsimp only
    | split
    | with_reducible refine State.bump_keeps _ ?_
    | with_reducible refine State.note_keeps _ _ ?_
    | with_reducible refine State.onField_keeps _ _ ?_
    | refine keeps_upd ?_ rfl rfl rfl rfl rfl

theorem State.measEntries_keeps (c : StreamCfg) (capture : Nat) (l : List (List Byte)) {s0 s : State} (h0 : s0.Keeps s) :
    s0.Keeps (s.measEntries c capture l).2 := by
  induction l generalizing s with
  | nil => exact h0
  | cons b r ih =>
    unfold State.measEntries
    split
    · exact ih (State.bump_keeps _ h0)
    · rename_i k v _
      have h1 := State.conditionField_keeps k capture v h0
      split
      · rename_i e
        rw [e] at h1
        exact ih h1
      · rename_i e
        rw [e] at h1
        exact ih h1

theorem State.psetParams_keeps (now : Nat) (t : Template) (items : List PsetItem) {s0 s : State} (h0 : s0.Keeps s) : s0.Keeps (State.psetParams s now t items).2 := by
  unfold State.psetParams
  repeat' first
    | with_reducible assumption
    | dsimp only
    | split
    | with_reducible refine keeps_eq2 (by assumption) ?_
    | with_reducible refine State.takeFree_keeps _ ?_

theorem State.fire_keeps (now : Nat) (b : Nat) (capture : Nat) (c : PsetCfg) {s0 s : State} (h0 : s0.Keeps s) : s0.Keeps (State.fire s now b capture c) := by
  unfold State.fire
  repeat' first
    | with_reducible assumption
    | dsimp only
    | split
    | with_reducible refine keeps_eq2 (by assumption) ?_
    | with_reducible refine State.bump_keeps _ ?_
    | with_reducible refine State.psetParams_keeps _ _ _ ?_
    | with_reducible refine State.fields_keeps _ _ _ ?_
    | with_reducible refine State.onIngest_keeps _ ?_

theorem State.fireAll_keeps (now : Nat) (n : Nat) (capture : Nat) {s0 s : State} (h0 : s0.Keeps s) : s0.Keeps (State.fireAll s now n capture) := by
  unfold State.fireAll
  repeat' first
    | with_reducible assumption
    | dsimp only
    | split
    | with_reducible refine State.onIngest_keeps _ ?_
    | with_reducible refine State.trigger_keeps _ ?_
    | with_reducible refine State.fire_keeps _ _ _ _ ?_
    | with_reducible refine keeps_foldl _ _ _ (fun _ _ _ => ?_) ?_

theorem execParameterSetHandover_keeps (b : Fin 64) (s : State) : ∃ t, execParameterSetHandover b s = .next t ∧ s.Keeps t := by
  refine ⟨_, rfl, ?_⟩
  have h0 := State.Keeps.refl s
  repeat' first
    | with_reducible assumption
    | dsimp only
    | split
    | with_reducible refine State.onIngest_keeps _ ?_
    | with_reducible refine State.bump_keeps _ ?_
    | with_reducible refine State.newJob_keeps _ _ _ _ _ _ _ _ _ ?_
    | refine keeps_upd ?_ rfl rfl rfl rfl rfl

theorem State.measFrame_keeps (n : Nat) (c : StreamCfg) (pl : List Byte) (wire : Nat) {s0 s : State} (h0 : s0.Keeps s) : s0.Keeps (State.measFrame s n c pl wire) := by
  unfold State.measFrame
  repeat' first
    | with_reducible assumption
    | dsimp only
    | split
    | with_reducible refine keeps_eq2 (by assumption) ?_
    | with_reducible refine State.bump_keeps _ ?_
    | with_reducible refine State.note_keeps _ _ ?_
    | with_reducible refine State.onStream_keeps _ _ ?_
    | with_reducible refine State.measEntries_keeps _ _ _ ?_
    | with_reducible refine State.onField_keeps _ _ ?_
    | with_reducible refine State.fireAll_keeps _ _ _ ?_
    | with_reducible refine keeps_foldl _ _ _ (fun _ _ _ => ?_) ?_
    | with_reducible refine keeps_foldl_snd _ _ _ (fun _ _ _ => ?_) ?_
    | with_reducible refine keeps_foldl_fst _ _ _ (fun _ _ _ => ?_) ?_
    | refine keeps_upd ?_ rfl rfl rfl rfl rfl

theorem execMeasFrame_keeps (n : Fin 32) (pl : List Byte) (s : State) : ∃ t, execMeasFrame n pl s = .next t ∧ s.Keeps t := by
  refine ⟨_, rfl, ?_⟩
  have h0 := State.Keeps.refl s
  repeat' first
    | with_reducible assumption
    | dsimp only
    | split
    | with_reducible refine State.measFrame_keeps _ _ _ _ ?_

theorem State.rtpPacket_keeps (n : Nat) (c : StreamCfg) (k : RtpPkt) {s0 s : State} (h0 : s0.Keeps s) : s0.Keeps (State.rtpPacket s n c k) := by
  unfold State.rtpPacket
  repeat' first
    | with_reducible assumption
    | dsimp only
    | split
    | with_reducible refine State.onStream_keeps _ _ ?_

theorem State.rtpBad_keeps (n : Nat) {s0 s : State} (h0 : s0.Keeps s) : s0.Keeps (State.rtpBad s n) := by
  unfold State.rtpBad
  repeat' first
    | with_reducible assumption
    | dsimp only
    | split
    | with_reducible refine State.onStream_keeps _ _ ?_

theorem execRtpPacket_keeps (n : Fin 32) (k : RtpPkt) (s : State) : ∃ t, execRtpPacket n k s = .next t ∧ s.Keeps t := by
  refine ⟨_, rfl, ?_⟩
  have h0 := State.Keeps.refl s
  repeat' first
    | with_reducible assumption
    | dsimp only
    | split
    | with_reducible refine State.rtpPacket_keeps _ _ _ ?_

theorem State.readRefPages_keeps (f : VFrame) (l : List Nat) {s0 s : State} (h0 : s0.Keeps s) :
    s0.Keeps (s.readRefPages f l).2 := by
  induction l generalizing s f with
  | nil => exact h0
  | cons p r ih =>
    unfold State.readRefPages
    have h1 := State.fetchPage_keeps (p * 4096) h0
    dsimp only
    split
    · exact ih _ h1
    · split
      · exact ih _ h0
      · exact ih _ (State.bump_keeps _ h1)

theorem State.compareUnit_keeps (c : StreamCfg) (f : VFrame) (xs : List Spot) {s0 s : State} (h0 : s0.Keeps s) : s0.Keeps (State.compareUnit s c f xs).2 := by
  unfold State.compareUnit
  repeat' first
    | with_reducible assumption
    | dsimp only
    | split
    | with_reducible refine keeps_eq2 (by assumption) ?_
    | with_reducible refine State.readRefPages_keeps _ _ ?_

theorem State.concealUnit_keeps (c : StreamCfg) (ref : Option (Nat × RefSt × Nat)) (f : VFrame) (u : Nat) {s0 s : State} (h0 : s0.Keeps s) : s0.Keeps (State.concealUnit s c ref f u).2 := by
  unfold State.concealUnit
  repeat' first
    | with_reducible assumption
    | dsimp only
    | split
    | with_reducible refine keeps_eq2 (by assumption) ?_
    | with_reducible refine State.readRefPages_keeps _ _ ?_

theorem State.concealAll_keeps (c : StreamCfg) (f : VFrame) {s0 s : State} (h0 : s0.Keeps s) : s0.Keeps (State.concealAll s c f).2 := by
  unfold State.concealAll
  repeat' first
    | with_reducible assumption
    | dsimp only
    | split
    | with_reducible refine keeps_eq2 (by assumption) ?_
    | with_reducible refine State.concealUnit_keeps _ _ _ _ ?_
    | with_reducible refine keeps_foldl _ _ _ (fun _ _ _ => ?_) ?_
    | with_reducible refine keeps_foldl_snd _ _ _ (fun _ _ _ => ?_) ?_

theorem State.completeFrame_keeps (n : Nat) (c : StreamCfg) (f : VFrame) {s0 s : State} (h0 : s0.Keeps s) : s0.Keeps (State.completeFrame s n c f) := by
  unfold State.completeFrame
  repeat' first
    | with_reducible assumption
    | dsimp only
    | split
    | with_reducible refine keeps_eq2 (by assumption) ?_
    | with_reducible refine State.concealAll_keeps _ _ ?_
    | with_reducible refine State.onStream_keeps _ _ ?_
    | with_reducible refine State.bump_keeps _ ?_
    | with_reducible refine State.event_keeps _ _ _ ?_
    | with_reducible refine State.fireAll_keeps _ _ _ ?_
    | with_reducible refine keeps_foldl _ _ _ (fun _ _ _ => ?_) ?_

theorem State.abandon_keeps (n : Nat) (c : StreamCfg) (f : VFrame) (cause : Nat) {s0 s : State} (h0 : s0.Keeps s) : s0.Keeps (State.abandon s n c f cause) := by
  unfold State.abandon
  repeat' first
    | with_reducible assumption
    | dsimp only
    | split
    | with_reducible refine State.bump_keeps _ ?_
    | with_reducible refine State.completeFrame_keeps _ _ _ ?_

theorem State.dropStale_keeps (n : Nat) {s0 s : State} (h0 : s0.Keeps s) : s0.Keeps (State.dropStale s n) := by
  unfold State.dropStale
  repeat' first
    | with_reducible assumption
    | dsimp only
    | split
    | with_reducible refine State.bump_keeps _ ?_
    | with_reducible refine State.onStream_keeps _ _ ?_

theorem State.setFrame_keeps (n : Nat) (f : VFrame) (busy : Nat) {s0 s : State} (h0 : s0.Keeps s) : s0.Keeps (State.setFrame s n f busy) := by
  unfold State.setFrame
  repeat' first
    | with_reducible assumption
    | dsimp only
    | split
    | with_reducible refine State.onStream_keeps _ _ ?_

theorem execPrecinctDecode_keeps (n : Fin 32) (s : State) : ∃ t, execPrecinctDecode n s = .next t ∧ s.Keeps t := by
  refine ⟨_, rfl, ?_⟩
  have h0 := State.Keeps.refl s
  repeat' first
    | with_reducible assumption
    | dsimp only
    | split
    | with_reducible refine keeps_eq2 (by assumption) ?_
    | with_reducible refine State.dropStale_keeps _ ?_
    | with_reducible refine State.note_keeps _ _ ?_
    | with_reducible refine State.onStream_keeps _ _ ?_
    | with_reducible refine State.abandon_keeps _ _ _ _ ?_
    | with_reducible refine State.setFrame_keeps _ _ _ ?_
    | with_reducible refine State.compareUnit_keeps _ _ _ ?_
    | refine keeps_upd ?_ rfl rfl rfl rfl rfl

theorem execDecodeBudgetExpiry_keeps (n : Fin 32) (s : State) : ∃ t, execDecodeBudgetExpiry n s = .next t ∧ s.Keeps t := by
  refine ⟨_, rfl, ?_⟩
  have h0 := State.Keeps.refl s
  repeat' first
    | with_reducible assumption
    | dsimp only
    | split
    | with_reducible refine State.abandon_keeps _ _ _ _ ?_

theorem execVideoFrameComplete_keeps (n : Fin 32) (s : State) : ∃ t, execVideoFrameComplete n s = .next t ∧ s.Keeps t := by
  refine ⟨_, rfl, ?_⟩
  have h0 := State.Keeps.refl s
  repeat' first
    | with_reducible assumption
    | dsimp only
    | split
    | with_reducible refine State.dropStale_keeps _ ?_
    | with_reducible refine State.completeFrame_keeps _ _ _ ?_

theorem State.activateSlot_keeps (sel : Bool) {s0 s : State} (h0 : s0.Keeps s) : s0.Keeps (State.activateSlot s sel) := by
  unfold State.activateSlot
  repeat' first
    | with_reducible assumption
    | dsimp only
    | split
    | with_reducible refine State.onIngest_keeps _ ?_

theorem State.clearSlot_keeps (sel : Bool) {s0 s : State} (h0 : s0.Keeps s) : s0.Keeps (State.clearSlot s sel) := by
  unfold State.clearSlot
  repeat' first
    | with_reducible assumption
    | dsimp only
    | split
    | with_reducible refine State.onIngest_keeps _ ?_

end Sys2Proof.Machine
end

