-- ==== Sys2Proof/Laws/KeepsStore.lean ====
section
/-!
SUPPORT. What every operation of Store keeps: the commands that wait, and the invariant of the state.
-/

namespace Sys2Proof.Machine

theorem State.putTransfer_keeps (n : Nat) (t : Transfer) {s0 s : State} (h0 : s0.Keeps s) : s0.Keeps (State.putTransfer s n t) := by
  unfold State.putTransfer
  repeat' first
    | with_reducible assumption
    | dsimp only
    | split
    | refine keeps_upd ?_ rfl rfl rfl rfl rfl

theorem State.dropTransfer_keeps (n : Nat) {s0 s : State} (h0 : s0.Keeps s) : s0.Keeps (State.dropTransfer s n) := by
  unfold State.dropTransfer
  repeat' first
    | with_reducible assumption
    | dsimp only
    | split
    | refine keeps_upd ?_ rfl rfl rfl rfl rfl

theorem State.giveUp_keeps (held : List Nat) {s0 s : State} (h0 : s0.Keeps s) : s0.Keeps (State.giveUp s held) := by
  unfold State.giveUp
  repeat' first
    | with_reducible assumption
    | dsimp only
    | split
    | refine keeps_upd ?_ rfl rfl rfl rfl rfl

theorem State.imageBegin_keeps (h : SqpHdr) (kind : Nat) (slot : Nat) (id : Nat) (total : Nat) {s0 s : State} (h0 : s0.Keeps s) : s0.Keeps (State.imageBegin s h kind slot id total) := by
  unfold State.imageBegin
  repeat' first
    | with_reducible assumption
    | dsimp only
    | split
    | with_reducible refine State.nak_keeps _ _ _ ?_
    | with_reducible refine State.store_keeps _ _ _ _ _ ?_
    | with_reducible refine State.giveUp_keeps _ ?_
    | with_reducible refine State.putTransfer_keeps _ _ ?_
    | refine keeps_upd ?_ rfl rfl rfl rfl rfl

theorem execImageBegin_keeps (h : SqpHdr) (kind : Byte) (slot : Byte) (refId : Byte) (total : Word) (s : State) : ∃ t, execImageBegin h kind slot refId total s = .next t ∧ s.Keeps t := by
  refine ⟨_, rfl, ?_⟩
  have h0 := State.Keeps.refl s
  repeat' first
    | with_reducible assumption
    | dsimp only
    | split
    | with_reducible refine State.lockedMessage_keeps _ _ _ _ _ _ (fun _ _ => ?_) ?_
    | with_reducible refine State.imageBegin_keeps _ _ _ _ _ ?_

theorem State.writeBody_keeps (t : Transfer) (ofs : Nat) (len : Nat) {s0 s : State} (h0 : s0.Keeps s) : s0.Keeps (State.writeBody s t ofs len) := by
  unfold State.writeBody
  repeat' first
    | with_reducible assumption
    | dsimp only
    | split
    | with_reducible refine State.writePage_keeps _ _ _ _ ?_
    | with_reducible refine keeps_foldl _ _ _ (fun _ _ _ => ?_) ?_

theorem State.imageData_keeps (h : SqpHdr) (ofs : Nat) (data : List Byte) {s0 s : State} (h0 : s0.Keeps s) : s0.Keeps (State.imageData s h ofs data) := by
  unfold State.imageData
  repeat' first
    | with_reducible assumption
    | dsimp only
    | split
    | with_reducible refine State.nak_keeps _ _ _ ?_
    | with_reducible refine State.putTransfer_keeps _ _ ?_
    | with_reducible refine State.writeBody_keeps _ _ _ ?_
    | refine keeps_upd ?_ rfl rfl rfl rfl rfl

theorem execImageData_keeps (h : SqpHdr) (ofs : Word) (data : List Byte) (s : State) : ∃ t, execImageData h ofs data s = .next t ∧ s.Keeps t := by
  refine ⟨_, rfl, ?_⟩
  have h0 := State.Keeps.refl s
  repeat' first
    | with_reducible assumption
    | dsimp only
    | split
    | with_reducible refine State.message_keeps _ _ _ _ _ (fun _ _ => ?_) ?_
    | with_reducible refine State.imageData_keeps _ _ _ ?_

theorem State.imageEnd_keeps (h : SqpHdr) {s0 s : State} (h0 : s0.Keeps s) : s0.Keeps (State.imageEnd s h) := by
  unfold State.imageEnd
  repeat' first
    | with_reducible assumption
    | dsimp only
    | split
    | with_reducible refine State.nak_keeps _ _ _ ?_
    | with_reducible refine State.putTransfer_keeps _ _ ?_
    | with_reducible refine State.deferAnswer_keeps _ ?_
    | refine keeps_upd ?_ rfl rfl rfl rfl rfl

theorem execImageEnd_keeps (h : SqpHdr) (s : State) : ∃ t, execImageEnd h s = .next t ∧ s.Keeps t := by
  refine ⟨_, rfl, ?_⟩
  have h0 := State.Keeps.refl s
  repeat' first
    | with_reducible assumption
    | dsimp only
    | split
    | with_reducible refine State.message_keeps _ _ _ _ _ (fun _ _ => ?_) ?_
    | with_reducible refine State.imageEnd_keeps _ ?_

theorem State.readContainer_keeps (t : Transfer) {s0 s : State} (h0 : s0.Keeps s) : s0.Keeps (State.readContainer s t).2 := by
  unfold State.readContainer
  split
  · exact h0
  · exact State.readStore_keeps _ h0

theorem State.acceptImage_keeps (kind : Nat) (held : List Nat) (b : List Byte) {s0 s t : State} (h0 : s0.Keeps s)
    (he : s.acceptImage kind held b = some t) :
    s0.Keeps t := by
  unfold State.acceptImage at he
  dsimp only at he
  repeat' first
    | cases he
    | split at he
  all_goals first
    | exact h0
    | exact keeps_upd h0 rfl rfl rfl rfl rfl

theorem execContainerVerification_keeps (x : Fin 4) (s : State) : ∃ t, execContainerVerification x s = .next t ∧ s.Keeps t := by
  refine ⟨_, rfl, ?_⟩
  split
  · exact .refl s
  · rename_i t _
    split
    · exact .refl s
    · dsimp only
      split
      · exact .refl s
      · have h1 := State.readContainer_keeps t (State.dropTransfer_keeps x.val (.refl s))
        split
        · exact State.nak_keeps _ _ _ h1
        · split
          · exact State.nak_keeps _ _ _ h1
          · exact State.nak_keeps _ _ _ (State.acceptImage_keeps _ _ _ h1 (by assumption))

theorem State.storeRaster_keeps (key : Nat) (r : RefSt) (bs : List Byte) {s0 s : State} (h0 : s0.Keeps s) : s0.Keeps (State.storeRaster s key r bs) := by
  unfold State.storeRaster
  repeat' first
    | with_reducible assumption
    | dsimp only
    | split
    | with_reducible refine State.writePage_keeps _ _ _ _ ?_
    | with_reducible refine keeps_foldl _ _ _ (fun _ _ _ => ?_) ?_
    | with_reducible refine keeps_foldl_snd _ _ _ (fun _ _ _ => ?_) ?_
    | with_reducible refine keeps_foldl_fst _ _ _ (fun _ _ _ => ?_) ?_
    | refine keeps_upd ?_ rfl rfl rfl rfl rfl

theorem execReferenceDecodeDone_keeps (x : Fin 4) (s : State) : ∃ t, execReferenceDecodeDone x s = .next t ∧ s.Keeps t := by
  refine ⟨_, rfl, ?_⟩
  have h0 := State.Keeps.refl s
  repeat' first
    | with_reducible assumption
    | dsimp only
    | split
    | with_reducible refine State.dropTransfer_keeps _ ?_
    | with_reducible refine State.nak_keeps _ _ _ ?_
    | with_reducible refine State.storeRaster_keeps _ _ _ ?_
    | with_reducible refine State.onIngest_keeps _ ?_
    | refine keeps_upd ?_ rfl rfl rfl rfl rfl

theorem State.attest_keeps (h : SqpHdr) (nonce : BitVec 256) {s0 s : State} (h0 : s0.Keeps s) : s0.Keeps (State.attest s h nonce) := by
  unfold State.attest
  repeat' first
    | with_reducible assumption
    | dsimp only
    | split
    | with_reducible refine keeps_eq2 (by assumption) ?_
    | with_reducible refine State.takeFree_keeps _ ?_
    | with_reducible refine State.answerMsg_keeps _ _ _ _ _ ?_
    | refine keeps_upd ?_ rfl rfl rfl rfl rfl

theorem State.attestMsg_keeps (h : SqpHdr) (lenOk : Bool) (nonce : BitVec 256) {s0 s : State} (h0 : s0.Keeps s) : s0.Keeps (State.attestMsg s h lenOk nonce) := by
  unfold State.attestMsg
  repeat' first
    | with_reducible assumption
    | dsimp only
    | split
    | with_reducible refine State.lateChecks_keeps _ _ _ _ _ _ (fun _ _ => ?_) ?_
    | with_reducible refine State.attest_keeps _ _ ?_
    | with_reducible refine State.againAnswer_keeps _ ?_
    | refine keeps_upd ?_ rfl rfl rfl rfl rfl

theorem execAttestReq_keeps (h : SqpHdr) (nonce : BitVec 256) (s : State) : ∃ t, execAttestReq h nonce s = .next t ∧ s.Keeps t := by
  refine ⟨_, rfl, ?_⟩
  have h0 := State.Keeps.refl s
  repeat' first
    | with_reducible assumption
    | dsimp only
    | split
    | with_reducible refine State.received_keeps _ _ (fun _ _ => ?_) ?_
    | with_reducible refine State.attestMsg_keeps _ _ _ ?_
    | refine keeps_upd ?_ rfl rfl rfl rfl rfl

theorem State.deleteModel_keeps (i : Nat) {s0 s : State} (h0 : s0.Keeps s) : s0.Keeps (State.deleteModel s i) := by
  unfold State.deleteModel
  repeat' first
    | with_reducible assumption
    | dsimp only
    | split
    | with_reducible refine State.sweepModels_keeps ?_
    | refine keeps_upd ?_ rfl rfl rfl rfl rfl

theorem State.discardImage_keeps {s0 s : State} (h0 : s0.Keeps s) : s0.Keeps (State.discardImage s) := by
  unfold State.discardImage
  repeat' first
    | with_reducible assumption
    | dsimp only
    | split
    | refine keeps_upd ?_ rfl rfl rfl rfl rfl

theorem State.enrolErase_keeps {s0 s : State} (h0 : s0.Keeps s) : s0.Keeps (State.enrolErase s) := by
  unfold State.enrolErase
  repeat' first
    | with_reducible assumption
    | split
    | exact keeps_upd h0 rfl rfl rfl rfl rfl
    | exact keeps_flash h0 (fun hw => flashErase_wf (flashErase_wf hw _) _) rfl rfl rfl rfl

end Sys2Proof.Machine
end

