-- ==== Sys2Proof/Laws/KeepsStart.lean ====
section
/-!
SUPPORT. What every operation of Start keeps: the commands that wait, and the invariant of the state.
-/

namespace Sys2Proof.Machine

theorem State.resumeWear_keeps {s0 s : State} (h0 : s0.Keeps s) : s0.Keeps (State.resumeWear s) := by
  unfold State.resumeWear
  repeat' first
    | with_reducible assumption
    | dsimp only
    | split
    | with_reducible refine State.setGoal_keeps _ ?_
    | with_reducible refine keeps_foldl _ _ _ (fun _ _ _ => ?_) ?_
    | with_reducible refine keeps_foldl_snd _ _ _ (fun _ _ _ => ?_) ?_
    | with_reducible refine keeps_foldl_fst _ _ _ (fun _ _ _ => ?_) ?_
    | refine keeps_upd ?_ rfl rfl rfl rfl rfl

theorem State.coreOut_keeps (good : BitVec 96) (r : Nat) (p : Nat) {s0 s : State} (h0 : s0.Keeps s) : s0.Keeps (State.coreOut s good r p).2 := by
  unfold State.coreOut
  repeat' first
    | with_reducible assumption
    | dsimp only
    | split
    | with_reducible refine State.onRegion_keeps _ _ ?_
    | refine keeps_upd ?_ rfl rfl rfl rfl rfl

theorem State.bankOut_keeps (good : BitVec 96) (r : Nat) (b : Nat) {s0 s : State} (h0 : s0.Keeps s) : s0.Keeps (State.bankOut s good r b).2 := by
  unfold State.bankOut
  repeat' first
    | with_reducible assumption
    | dsimp only
    | split
    | with_reducible refine State.onRegion_keeps _ _ ?_
    | refine keeps_upd ?_ rfl rfl rfl rfl rfl

theorem State.unitOut_keeps (good : BitVec 96) (u : Nat) {s0 s : State} (h0 : s0.Keeps s) : s0.Keeps (State.unitOut s good u).2 := by
  unfold State.unitOut
  repeat' first
    | with_reducible assumption
    | dsimp only
    | split
    | with_reducible refine keeps_eq2 (by assumption) ?_
    | with_reducible refine State.coreOut_keeps _ _ _ ?_
    | with_reducible refine State.bankOut_keeps _ _ _ ?_

theorem execSupervisorStart_keeps (s : State) : ∃ t, execSupervisorStart s = .next t ∧ s.Keeps t := by
  refine ⟨_, rfl, ?_⟩
  have h0 := State.Keeps.refl s
  repeat' first
    | with_reducible assumption
    | dsimp only
    | split
    | with_reducible refine keeps_eq2 (by assumption) ?_
    | with_reducible refine State.takeFree_keeps _ ?_
    | with_reducible refine State.unitOut_keeps _ _ ?_
    | with_reducible refine State.setReady_keeps _ _ ?_
    | with_reducible refine State.record_keeps _ _ ?_
    | with_reducible refine State.resumeWear_keeps ?_
    | with_reducible refine keeps_foldl _ _ _ (fun _ _ _ => ?_) ?_
    | with_reducible refine keeps_foldl_snd _ _ _ (fun _ _ _ => ?_) ?_
    | with_reducible refine keeps_foldl_fst _ _ _ (fun _ _ _ => ?_) ?_
    | refine keeps_upd ?_ rfl rfl rfl rfl rfl

theorem State.failUnit_keeps (good : BitVec 96) (u : Nat) {s0 s : State} (h0 : s0.Keeps s) : s0.Keeps (State.failUnit good s u) := by
  unfold State.failUnit
  repeat' first
    | with_reducible assumption
    | dsimp only
    | split
    | with_reducible refine keeps_eq2 (by assumption) ?_
    | with_reducible refine State.unitOut_keeps _ _ ?_
    | with_reducible refine State.onRegion_keeps _ _ ?_
    | with_reducible refine State.regionReport_keeps _ _ _ _ _ _ ?_
    | with_reducible refine State.report_keeps _ _ _ _ _ _ ?_
    | refine keeps_upd ?_ rfl rfl rfl rfl rfl

theorem State.failColumn_keeps (good : BitVec 96) (cell : Nat) (col : Nat) {s0 s : State} (h0 : s0.Keeps s) : s0.Keeps (State.failColumn good s cell col) := by
  unfold State.failColumn
  repeat' first
    | with_reducible assumption
    | dsimp only
    | split
    | with_reducible refine State.failUnit_keeps _ _ ?_
    | with_reducible refine State.report_keeps _ _ _ _ _ _ ?_
    | refine keeps_upd ?_ rfl rfl rfl rfl rfl

theorem execStartSelfTestDone_keeps (fail : BitVec 96) (columns : List Byte) (s : State) : ∃ t, execStartSelfTestDone fail columns s = .next t ∧ s.Keeps t := by
  refine ⟨_, rfl, ?_⟩
  have h0 := State.Keeps.refl s
  repeat' first
    | with_reducible assumption
    | dsimp only
    | split
    | with_reducible refine keeps_eq2 (by assumption) ?_
    | with_reducible refine State.unitOut_keeps _ _ ?_
    | with_reducible refine State.failUnit_keeps _ _ ?_
    | with_reducible refine State.failColumn_keeps _ _ _ ?_
    | with_reducible refine State.record_keeps _ _ ?_
    | with_reducible refine State.refreshUnits_keeps ?_
    | with_reducible refine keeps_foldl _ _ _ (fun _ _ _ => ?_) ?_
    | with_reducible refine keeps_foldl_snd _ _ _ (fun _ _ _ => ?_) ?_
    | with_reducible refine keeps_foldl_fst _ _ _ (fun _ _ _ => ?_) ?_
    | refine keeps_upd ?_ rfl rfl rfl rfl rfl

theorem State.shutdownReq_keeps (sem0 : Bool) {s0 s : State} (h0 : s0.Keeps s) : s0.Keeps (State.shutdownReq s sem0).2 := by
  unfold State.shutdownReq
  repeat' first
    | with_reducible assumption
    | dsimp only
    | split
    | refine keeps_upd ?_ rfl rfl rfl rfl rfl

theorem State.destroyed_keeps {s0 s : State} (h0 : s0.Keeps s) : s0.Keeps (State.destroyed s) :=
  keeps_upd (A := { s with mem := s.mem.filter (fun c => 0x40000000 ≤ c.1), poison := s.poison, jobs := [], nextJob := s.nextJob })
    (keeps_jobs (keeps_mem h0 (fun hm => Bytes.wfFrom_filter hm _)) (n := s.nextJob) (fun _ _ => ⟨List.nodup_nil, fun _ h => by cases h⟩))
    rfl rfl rfl rfl rfl

theorem execShutdownBistDone_keeps (fail : BitVec 96) (columns : List Byte) (s : State) : ∃ t, execShutdownBistDone fail columns s = .next t ∧ s.Keeps t := by
  refine ⟨_, rfl, ?_⟩
  have h1 (b : Bist) : s.Keeps { s.destroyed with bist := b } := keeps_upd (State.destroyed_keeps (.refl s)) rfl rfl rfl rfl rfl
  dsimp only
  split
  · exact .refl s
  · split <;> split
    · exact State.finishShutdown_keeps _ (h1 _)
    · exact State.record_keeps _ _ (h1 _)
    · exact State.finishShutdown_keeps _ (State.record_keeps _ _ (h1 _))
    · exact State.record_keeps _ _ (State.record_keeps _ _ (h1 _))

theorem State.closeAll_keeps {s0 s : State} (h0 : s0.Keeps s) : s0.Keeps (State.closeAll s) := by
  unfold State.closeAll
  repeat' first
    | with_reducible assumption
    | dsimp only
    | split
    | with_reducible refine State.onQueue_keeps _ _ ?_
    | with_reducible refine State.closeJobs_keeps _ ?_
    | with_reducible refine keeps_foldl _ _ _ (fun _ _ _ => ?_) ?_
    | with_reducible refine keeps_foldl_snd _ _ _ (fun _ _ _ => ?_) ?_
    | with_reducible refine keeps_foldl_fst _ _ _ (fun _ _ _ => ?_) ?_
    | refine keeps_upd ?_ rfl rfl rfl rfl rfl

theorem State.applyNotDone_keeps {s0 s : State} (h0 : s0.Keeps s) : s0.Keeps (State.applyNotDone s) :=
  State.note_keeps _ _ (keeps_upd h0 rfl rfl rfl rfl rfl)

theorem State.applyImage_keeps {s0 s : State} (h0 : s0.Keeps s) : s0.Keeps (State.applyImage s).2 := by
  unfold State.applyImage
  dsimp only
  split
  · exact State.applyNotDone_keeps h0
  · rename_i im _
    split
    · exact State.applyNotDone_keeps h0
    · have h := State.readStore_keeps im.held h0
      split
      · exact State.discardImage_keeps h
      · exact State.onIngest_keeps _ (State.closeAll_keeps (State.setReady_keeps _ _ (State.setReady_keeps _ _ (State.setReady_keeps _ _
          (keeps_upd h rfl rfl rfl rfl rfl)))))

theorem State.enablePorts_keeps (old : Option StructImage) (im : StructImage) {s0 s : State} (h0 : s0.Keeps s) : s0.Keeps (State.enablePorts s old im) := by
  unfold State.enablePorts
  repeat' first
    | with_reducible assumption
    | dsimp only
    | split
    | with_reducible refine keeps_foldl _ _ _ (fun _ _ _ => ?_) ?_
    | with_reducible refine keeps_foldl_snd _ _ _ (fun _ _ _ => ?_) ?_
    | with_reducible refine keeps_foldl_fst _ _ _ (fun _ _ _ => ?_) ?_
    | refine keeps_upd ?_ rfl rfl rfl rfl rfl

theorem execApplyComplete_keeps (s : State) : ∃ t, execApplyComplete s = .next t ∧ s.Keeps t := by
  refine ⟨_, rfl, ?_⟩
  split
  · exact .refl s
  · split
    · exact .refl s
    · refine State.refreshUnits_keeps (State.setReady_keeps _ _ (State.enablePorts_keeps _ _ (State.releasePaced_keeps ?_)))
      exact keeps_upd (A := { s with jobs := [] }) (keeps_jobs (.refl s) (n := s.nextJob) (fun _ _ => ⟨List.nodup_nil, fun _ h => by cases h⟩))
        rfl rfl rfl rfl rfl

theorem State.formatLedger_keeps {s0 s : State} (h0 : s0.Keeps s) : s0.Keeps (State.formatLedger s).2 := by
  unfold State.formatLedger
  repeat' first
    | with_reducible assumption
    | dsimp only
    | split
    | refine keeps_upd ?_ rfl rfl rfl rfl rfl

end Sys2Proof.Machine
end

