-- ==== Sys2Proof/Laws/KeepsRegRead.lean ====
section
/-!
SUPPORT. What every operation of RegRead keeps: the commands that wait, and the invariant of the state.
-/

namespace Sys2Proof.Machine

theorem State.readReg_keeps (r : Reg) {s0 s : State} (h0 : s0.Keeps s) : s0.Keeps (State.readReg s r).2 := by
  unfold State.readReg
  repeat' first
    | with_reducible assumption
    | dsimp only
    | split
    | with_reducible refine State.latch_keeps _ _ _ _ ?_
    | with_reducible refine State.setRw_keeps _ _ ?_
    | with_reducible refine State.bankAdvance_keeps _ ?_
    | with_reducible refine State.coreAdvance_keeps _ ?_
    | refine keeps_upd ?_ rfl rfl rfl rfl rfl

theorem State.readRegs_keeps (l : List Reg) {s0 s : State} (h0 : s0.Keeps s) : s0.Keeps (State.readRegs l s).2 := by
  induction l generalizing s with
  | nil => exact h0
  | cons r rest ih =>
    unfold State.readRegs
    dsimp only
    exact ih (State.readReg_keeps r h0)

end Sys2Proof.Machine
end

