-- ==== Sys2Proof/Laws/KeepsRegWrite.lean ====
section
/-!
SUPPORT. What every operation of RegWrite keeps: the commands that wait, and the invariant of the state.
-/

namespace Sys2Proof.Machine

theorem State.wrote_keeps {s0 s : State} (h0 : s0.Keeps s) : s0.Keeps (State.wrote s).state := by
  unfold State.wrote
  repeat' first
    | with_reducible assumption

theorem wroteOr_keeps (r : Option Reason × State) {s0 : State} (h0 : s0.Keeps r.2) : s0.Keeps (wroteOr r).state := h0

theorem State.rsvd_keeps (src : RegSrc) (r : Reg) {s0 s : State} (h0 : s0.Keeps s) : s0.Keeps (State.rsvd s src r) := by
  unfold State.rsvd
  repeat' first
    | with_reducible assumption
    | dsimp only
    | split
    | with_reducible refine State.setRsvd_keeps _ _ ?_

theorem State.fields_keeps (src : RegSrc) (r : Reg) (v : Word) {s0 s : State} (h0 : s0.Keeps s) : s0.Keeps (State.fields s src r v).2 := by
  unfold State.fields
  repeat' first
    | with_reducible assumption
    | dsimp only
    | split
    | with_reducible refine State.rsvd_keeps _ _ ?_

theorem State.putFields_keeps (src : RegSrc) (r : Reg) (v : Word) {s0 s : State} (h0 : s0.Keeps s) : s0.Keeps (State.putFields s src r v) := by
  unfold State.putFields
  repeat' first
    | with_reducible assumption
    | dsimp only
    | split
    | with_reducible refine keeps_eq2 (by assumption) ?_
    | with_reducible refine State.fields_keeps _ _ _ ?_
    | with_reducible refine State.setRw_keeps _ _ ?_

/-- A count cleared in the cycle of an event stands at one at most. -/
theorem recount_le (k : Nat) : (recount k).n ≤ 1 := Nat.min_le_right _ _

theorem State.clearBits_keeps (r : Reg) (v : Word) {s0 s : State} (h0 : s0.Keeps s) : s0.Keeps (State.clearBits s r v) := by
  unfold State.clearBits
  repeat' first
    | with_reducible assumption
    | dsimp only
    | split
    | with_reducible refine State.onCore_keeps _ _ (fun _ => rfl) ?_
    | with_reducible refine State.onLoop_keeps _ _ ?_
    | with_reducible refine State.onStream_keeps _ _ ?_
    | with_reducible refine State.onField_keeps _ _ ?_
    | with_reducible refine State.onChan_keeps _ _ ?_
    | exact keeps_counts h0 _ (fun _ => (recount_le _).trans (by norm_num))
    | exact keeps_logs h0 _ (fun w => ⟨w.1, w.2.1, (recount_le _).trans (by norm_num)⟩)
    | refine keeps_upd ?_ rfl rfl rfl rfl rfl

theorem State.writeMode_keeps (v : Word) {s0 s : State} (h0 : s0.Keeps s) : s0.Keeps (State.writeMode s v).state := by
  unfold State.writeMode
  repeat' first
    | with_reducible assumption
    | dsimp only
    | split
    | with_reducible refine State.wrote_keeps ?_
    | with_reducible refine State.event_keeps _ _ _ ?_
    | with_reducible refine State.setRw_keeps _ _ ?_
    | refine keeps_upd ?_ rfl rfl rfl rfl rfl

theorem State.linkLost_keeps (p : Nat) {s0 s : State} (h0 : s0.Keeps s) : s0.Keeps (State.linkLost s p) := by
  unfold State.linkLost
  repeat' first
    | with_reducible assumption
    | dsimp only
    | split
    | with_reducible refine State.setReady_keeps _ _ ?_
    | refine keeps_upd ?_ rfl rfl rfl rfl rfl

theorem State.applyHcfg_keeps (a : Nat) (v : Word) {s0 s : State} (h0 : s0.Keeps s) : s0.Keeps (State.applyHcfg s a v) := by
  unfold State.applyHcfg
  repeat' first
    | with_reducible assumption
    | dsimp only
    | split
    | with_reducible refine State.setRw_keeps _ _ ?_
    | with_reducible refine State.linkLost_keeps _ ?_

theorem State.writeCtxCmd_keeps (src : RegSrc) (n : Nat) (v : Word) {s0 s : State} (h0 : s0.Keeps s) : s0.Keeps (State.writeCtxCmd s src n v).state := by
  unfold State.writeCtxCmd
  repeat' first
    | with_reducible assumption
    | dsimp only
    | split
    | with_reducible refine keeps_eq2 (by assumption) ?_
    | with_reducible refine State.wrote_keeps ?_
    | with_reducible refine wroteOr_keeps _ ?_
    | with_reducible refine State.load_keeps _ _ _ ?_
    | with_reducible refine State.unloadCtx_keeps _ _ ?_
    | with_reducible refine State.rsvd_keeps _ _ ?_
    | refine keeps_upd ?_ rfl rfl rfl rfl rfl

theorem State.writeSecCtrl_keeps (v : Word) {s0 s : State} (h0 : s0.Keeps s) : s0.Keeps (State.writeSecCtrl s v).state := by
  unfold State.writeSecCtrl
  repeat' first
    | with_reducible assumption
    | dsimp only
    | split
    | with_reducible refine keeps_eq2 (by assumption) ?_
    | with_reducible refine State.applyImage_keeps ?_
    | with_reducible refine State.discardImage_keeps ?_
    | with_reducible refine State.enrolErase_keeps ?_
    | with_reducible refine State.wrote_keeps ?_
    | refine keeps_upd ?_ rfl rfl rfl rfl rfl

theorem State.writeJobCtrl_keeps (src : RegSrc) (v : Word) {s0 s : State} (h0 : s0.Keeps s) : s0.Keeps (State.writeJobCtrl s src v) := by
  unfold State.writeJobCtrl
  repeat' first
    | with_reducible assumption
    | dsimp only
    | split
    | with_reducible refine State.putFields_keeps _ _ _ ?_
    | with_reducible refine State.rsvd_keeps _ _ ?_
    | with_reducible refine State.activateSlot_keeps _ ?_
    | with_reducible refine State.clearSlot_keeps _ ?_

theorem State.writeReg_keeps (src : RegSrc) (r : Reg) (v : Word) {s0 s : State} (h0 : s0.Keeps s) : s0.Keeps (State.writeReg s src r v).state := by
  unfold State.writeReg
  repeat' first
    | with_reducible assumption
    | dsimp only
    | split
    | with_reducible refine State.onCore_keeps _ _ (fun _ => rfl) ?_
    | with_reducible refine keeps_eq2 (by assumption) ?_
    | with_reducible refine State.writeMode_keeps _ ?_
    | with_reducible refine State.tideCmd_keeps _ _ ?_
    | with_reducible refine State.wrote_keeps ?_
    | with_reducible refine State.hostAddend_keeps _ ?_
    | with_reducible refine State.pausePan_keeps _ _ ?_
    | with_reducible refine wroteOr_keeps _ ?_
    | with_reducible refine State.preemptPan_keeps _ ?_
    | with_reducible refine State.writeCtxCmd_keeps _ _ _ ?_
    | with_reducible refine State.clearLog_keeps _ ?_
    | with_reducible refine State.fields_keeps _ _ _ ?_
    | with_reducible refine State.traceTrig_keeps _ ?_
    | with_reducible refine State.traceCtrl_keeps _ _ _ ?_
    | with_reducible refine State.feClr_keeps _ ?_
    | with_reducible refine State.setEn_keeps _ _ ?_
    | with_reducible refine State.hostLoop_keeps _ _ _ ?_
    | with_reducible refine State.writeJobCtrl_keeps _ _ ?_
    | with_reducible refine State.putFields_keeps _ _ _ ?_
    | with_reducible refine State.rsvd_keeps _ _ ?_
    | with_reducible refine State.configHbus_keeps _ ?_
    | with_reducible refine State.avsCheck_keeps ?_
    | with_reducible refine State.shutdownReq_keeps _ ?_
    | with_reducible refine State.writeSecCtrl_keeps _ ?_
    | with_reducible refine State.deleteModel_keeps _ ?_
    | with_reducible refine State.formatLedger_keeps ?_
    | with_reducible refine State.clearBits_keeps _ _ ?_

theorem State.writeRegs_keeps (src : RegSrc) (l : List (Reg × Word)) {s0 s : State} (h0 : s0.Keeps s) :
    s0.Keeps (State.writeRegs src l s).state := by
  induction l generalizing s with
  | nil => exact h0
  | cons e rest ih =>
    obtain ⟨r, v⟩ := e
    unfold State.writeRegs
    have h1 := State.writeReg_keeps src r v h0
    dsimp only
    split
    · exact h1
    · exact ih h1

theorem State.afterRefusal_keeps (t : State) {s0 s : State} (h0 : s0.Keeps s) : s0.Keeps (s.afterRefusal t) := by
  unfold State.afterRefusal
  exact keeps_upd h0 rfl rfl rfl rfl rfl

end Sys2Proof.Machine
end

