-- ==== Sys2Proof/Laws/KeepsRegFile.lean ====
section
/-!
SUPPORT. What every operation of RegFile keeps: the commands that wait, and the invariant of the state.
-/

namespace Sys2Proof.Machine

theorem State.doRead_keeps (h : SqpHdr) (a : Nat) (n : Nat) (rs : List Reg) {s0 s : State} (h0 : s0.Keeps s) : s0.Keeps (State.doRead s h a n rs) := by
  unfold State.doRead
  repeat' first
    | with_reducible assumption
    | dsimp only
    | split
    | with_reducible refine keeps_eq2 (by assumption) ?_
    | with_reducible refine State.readRegs_keeps _ ?_
    | with_reducible refine State.answerMsg_keeps _ _ _ _ _ ?_

theorem State.regRead_keeps (h : SqpHdr) (a : Nat) (n : Nat) (lenOk : Bool) {s0 s : State} (h0 : s0.Keeps s) : s0.Keeps (State.regRead s h a n lenOk) := by
  unfold State.regRead
  repeat' first
    | with_reducible assumption
    | dsimp only
    | split
    | with_reducible refine State.nak_keeps _ _ _ ?_
    | with_reducible refine State.deferAnswer_keeps _ ?_
    | with_reducible refine State.doRead_keeps _ _ _ _ ?_
    | refine keeps_upd ?_ rfl rfl rfl rfl rfl

theorem State.releaseReads_keeps {s0 s : State} (h0 : s0.Keeps s) : s0.Keeps (State.releaseReads s) := by
  unfold State.releaseReads
  repeat' first
    | with_reducible assumption
    | dsimp only
    | split
    | with_reducible refine State.doRead_keeps _ _ _ _ ?_
    | with_reducible refine keeps_foldl _ _ _ (fun _ _ _ => ?_) ?_
    | with_reducible refine keeps_foldl_snd _ _ _ (fun _ _ _ => ?_) ?_
    | with_reducible refine keeps_foldl_fst _ _ _ (fun _ _ _ => ?_) ?_
    | refine keeps_upd ?_ rfl rfl rfl rfl rfl

theorem State.doWrite_keeps (h : SqpHdr) (a : Nat) (n : Nat) (ws : List (Reg × Word)) {s0 s : State} (h0 : s0.Keeps s) : s0.Keeps (State.doWrite s h a n ws) := by
  unfold State.doWrite
  repeat' first
    | with_reducible assumption
    | dsimp only
    | split
    | with_reducible refine keeps_eq2 (by assumption) ?_
    | with_reducible refine State.writeRegs_keeps _ _ ?_
    | with_reducible refine State.afterRefusal_keeps _ ?_
    | with_reducible refine State.nak_keeps _ _ _ ?_
    | with_reducible refine State.answerMsg_keeps _ _ _ _ _ ?_
    | refine keeps_upd ?_ rfl rfl rfl rfl rfl

theorem State.regWrite_keeps (h : SqpHdr) (a : Nat) (n : Nat) (vals : List Word) (lenOk : Bool) {s0 s : State} (h0 : s0.Keeps s) : s0.Keeps (State.regWrite s h a n vals lenOk) := by
  unfold State.regWrite
  repeat' first
    | with_reducible assumption
    | dsimp only
    | split
    | with_reducible refine State.nak_keeps _ _ _ ?_
    | with_reducible refine State.doWrite_keeps _ _ _ _ ?_

theorem execRegRead_keeps (h : SqpHdr) (addr : Word) (count : BitVec 16) (s : State) : ∃ t, execRegRead h addr count s = .next t ∧ s.Keeps t := by
  refine ⟨_, rfl, ?_⟩
  have h0 := State.Keeps.refl s
  repeat' first
    | with_reducible assumption
    | dsimp only
    | split
    | with_reducible refine State.received_keeps _ _ (fun _ _ => ?_) ?_
    | with_reducible refine State.regRead_keeps _ _ _ _ ?_

theorem execRegWrite_keeps (h : SqpHdr) (addr : Word) (count : BitVec 16) (vals : List Word) (s : State) : ∃ t, execRegWrite h addr count vals s = .next t ∧ s.Keeps t := by
  refine ⟨_, rfl, ?_⟩
  have h0 := State.Keeps.refl s
  repeat' first
    | with_reducible assumption
    | dsimp only
    | split
    | with_reducible refine State.received_keeps _ _ (fun _ _ => ?_) ?_
    | with_reducible refine State.regWrite_keeps _ _ _ _ _ ?_

theorem State.spiRead_keeps (a : Nat) {s0 s : State} (h0 : s0.Keeps s) : s0.Keeps (State.spiRead s a) := by
  unfold State.spiRead
  repeat' first
    | with_reducible assumption
    | dsimp only
    | split
    | with_reducible refine keeps_eq2 (by assumption) ?_
    | with_reducible refine State.readReg_keeps _ ?_
    | refine keeps_upd ?_ rfl rfl rfl rfl rfl

theorem State.spiWrite_keeps (a : Nat) (v : Word) {s0 s : State} (h0 : s0.Keeps s) : s0.Keeps (State.spiWrite s a v) := by
  unfold State.spiWrite
  repeat' first
    | with_reducible assumption
    | dsimp only
    | split
    | with_reducible refine keeps_eq2 (by assumption) ?_
    | with_reducible refine State.writeRegs_keeps _ _ ?_
    | with_reducible refine State.afterRefusal_keeps _ ?_
    | with_reducible refine State.applyHcfg_keeps _ _ ?_
    | with_reducible refine keeps_foldl _ _ _ (fun _ _ _ => ?_) ?_
    | with_reducible refine keeps_foldl_snd _ _ _ (fun _ _ _ => ?_) ?_
    | with_reducible refine keeps_foldl_fst _ _ _ (fun _ _ _ => ?_) ?_
    | refine keeps_upd ?_ rfl rfl rfl rfl rfl

theorem execSvcRead_keeps (cmd : Byte) (addr : Word) (complete : Bool) (s : State) : ∃ t, execSvcRead cmd addr complete s = .next t ∧ s.Keeps t := by
  refine ⟨_, rfl, ?_⟩
  have h0 := State.Keeps.refl s
  repeat' first
    | with_reducible assumption
    | dsimp only
    | split
    | with_reducible refine State.spiRead_keeps _ ?_
    | refine keeps_upd ?_ rfl rfl rfl rfl rfl

theorem execSvcWrite_keeps (cmd : Byte) (addr : Word) (val : Word) (complete : Bool) (s : State) : ∃ t, execSvcWrite cmd addr val complete s = .next t ∧ s.Keeps t := by
  refine ⟨_, rfl, ?_⟩
  have h0 := State.Keeps.refl s
  repeat' first
    | with_reducible assumption
    | dsimp only
    | split
    | with_reducible refine State.spiWrite_keeps _ _ ?_
    | refine keeps_upd ?_ rfl rfl rfl rfl rfl

theorem State.writeBy_keeps (src : RegSrc) (r : Reg) (v : Word) {s0 s : State} (h0 : s0.Keeps s) : s0.Keeps (State.writeBy s src r v) := by
  unfold State.writeBy
  repeat' first
    | with_reducible assumption
    | dsimp only
    | split
    | with_reducible refine State.received_keeps _ _ (fun _ _ => ?_) ?_
    | with_reducible refine State.regWrite_keeps _ _ _ _ _ ?_
    | with_reducible refine State.spiWrite_keeps _ _ ?_

theorem State.readBy_keeps (src : RegSrc) (r : Reg) {s0 s : State} (h0 : s0.Keeps s) : s0.Keeps (State.readBy s src r) := by
  unfold State.readBy
  repeat' first
    | with_reducible assumption
    | dsimp only
    | split
    | with_reducible refine State.received_keeps _ _ (fun _ _ => ?_) ?_
    | with_reducible refine State.regRead_keeps _ _ _ _ ?_
    | with_reducible refine State.spiRead_keeps _ ?_

theorem execCounterOvfClear_keeps (src : RegSrc) (addr : Word) (s : State) : ∃ t, execCounterOvfClear src addr s = .next t ∧ s.Keeps t := by
  refine ⟨_, rfl, ?_⟩
  have h0 := State.Keeps.refl s
  repeat' first
    | with_reducible assumption
    | dsimp only
    | split
    | with_reducible refine State.writeBy_keeps _ _ _ ?_

theorem execGlbModeWrite_keeps (src : RegSrc) (val : Word) (s : State) : ∃ t, execGlbModeWrite src val s = .next t ∧ s.Keeps t := by
  refine ⟨_, rfl, ?_⟩
  have h0 := State.Keeps.refl s
  repeat' first
    | with_reducible assumption
    | dsimp only
    | split
    | with_reducible refine State.writeBy_keeps _ _ _ ?_

theorem execVuCtrlWrite_keeps (src : RegSrc) (core : Fin 32) (val : Word) (s : State) : ∃ t, execVuCtrlWrite src core val s = .next t ∧ s.Keeps t := by
  refine ⟨_, rfl, ?_⟩
  have h0 := State.Keeps.refl s
  repeat' first
    | with_reducible assumption
    | dsimp only
    | split
    | with_reducible refine State.writeBy_keeps _ _ _ ?_

theorem execLogClear_keeps (src : RegSrc) (log : LogId) (s : State) : ∃ t, execLogClear src log s = .next t ∧ s.Keeps t := by
  refine ⟨_, rfl, ?_⟩
  have h0 := State.Keeps.refl s
  repeat' first
    | with_reducible assumption
    | dsimp only
    | split
    | with_reducible refine State.writeBy_keeps _ _ _ ?_

theorem execHbusCfgWrite_keeps (src : RegSrc) (ch : Fin 16) (val : Word) (s : State) : ∃ t, execHbusCfgWrite src ch val s = .next t ∧ s.Keeps t := by
  refine ⟨_, rfl, ?_⟩
  have h0 := State.Keeps.refl s
  repeat' first
    | with_reducible assumption
    | dsimp only
    | split
    | with_reducible refine State.writeBy_keeps _ _ _ ?_

theorem execHportCfgWrite_keeps (src : RegSrc) (n : Port) (r : HportReg) (val : Word) (s : State) : ∃ t, execHportCfgWrite src n r val s = .next t ∧ s.Keeps t := by
  refine ⟨_, rfl, ?_⟩
  have h0 := State.Keeps.refl s
  repeat' first
    | with_reducible assumption
    | dsimp only
    | split
    | with_reducible refine State.writeBy_keeps _ _ _ ?_

theorem execLoad_keeps (src : RegSrc) (pan : Fin 16) (ctx : Fin 8) (catalog : BitVec 5) (s : State) : ∃ t, execLoad src pan ctx catalog s = .next t ∧ s.Keeps t := by
  refine ⟨_, rfl, ?_⟩
  have h0 := State.Keeps.refl s
  repeat' first
    | with_reducible assumption
    | dsimp only
    | split
    | with_reducible refine State.writeBy_keeps _ _ _ ?_

theorem execUnload_keeps (src : RegSrc) (pan : Fin 16) (ctx : Fin 8) (s : State) : ∃ t, execUnload src pan ctx s = .next t ∧ s.Keeps t := by
  refine ⟨_, rfl, ?_⟩
  have h0 := State.Keeps.refl s
  repeat' first
    | with_reducible assumption
    | dsimp only
    | split
    | with_reducible refine State.writeBy_keeps _ _ _ ?_

theorem execPreempt_keeps (src : RegSrc) (pan : Fin 16) (s : State) : ∃ t, execPreempt src pan s = .next t ∧ s.Keeps t := by
  refine ⟨_, rfl, ?_⟩
  have h0 := State.Keeps.refl s
  repeat' first
    | with_reducible assumption
    | dsimp only
    | split
    | with_reducible refine State.writeBy_keeps _ _ _ ?_

theorem execPause_keeps (src : RegSrc) (pan : Fin 16) (on : Bool) (s : State) : ∃ t, execPause src pan on s = .next t ∧ s.Keeps t := by
  refine ⟨_, rfl, ?_⟩
  have h0 := State.Keeps.refl s
  repeat' first
    | with_reducible assumption
    | dsimp only
    | split
    | with_reducible refine State.writeBy_keeps _ _ _ ?_

theorem execWaitSumLoRead_keeps (src : RegSrc) (client : Fin 8) (s : State) : ∃ t, execWaitSumLoRead src client s = .next t ∧ s.Keeps t := by
  refine ⟨_, rfl, ?_⟩
  have h0 := State.Keeps.refl s
  repeat' first
    | with_reducible assumption
    | dsimp only
    | split
    | with_reducible refine State.readBy_keeps _ _ ?_

theorem execTideNowNsRead_keeps (src : RegSrc) (s : State) : ∃ t, execTideNowNsRead src s = .next t ∧ s.Keeps t := by
  refine ⟨_, rfl, ?_⟩
  have h0 := State.Keeps.refl s
  repeat' first
    | with_reducible assumption
    | dsimp only
    | split
    | with_reducible refine State.readBy_keeps _ _ ?_

theorem execTideAddendWrite_keeps (src : RegSrc) (val : Word) (s : State) : ∃ t, execTideAddendWrite src val s = .next t ∧ s.Keeps t := by
  refine ⟨_, rfl, ?_⟩
  have h0 := State.Keeps.refl s
  repeat' first
    | with_reducible assumption
    | dsimp only
    | split
    | with_reducible refine State.writeBy_keeps _ _ _ ?_

theorem execStep_keeps (src : RegSrc) (s : State) : ∃ t, execStep src s = .next t ∧ s.Keeps t := by
  refine ⟨_, rfl, ?_⟩
  have h0 := State.Keeps.refl s
  repeat' first
    | with_reducible assumption
    | dsimp only
    | split
    | with_reducible refine State.writeBy_keeps _ _ _ ?_

theorem execSet_keeps (src : RegSrc) (s : State) : ∃ t, execSet src s = .next t ∧ s.Keeps t := by
  refine ⟨_, rfl, ?_⟩
  have h0 := State.Keeps.refl s
  repeat' first
    | with_reducible assumption
    | dsimp only
    | split
    | with_reducible refine State.writeBy_keeps _ _ _ ?_

theorem execRearm_keeps (src : RegSrc) (s : State) : ∃ t, execRearm src s = .next t ∧ s.Keeps t := by
  refine ⟨_, rfl, ?_⟩
  have h0 := State.Keeps.refl s
  repeat' first
    | with_reducible assumption
    | dsimp only
    | split
    | with_reducible refine State.writeBy_keeps _ _ _ ?_

theorem execAvsAppliedWrite_keeps (src : RegSrc) (val : Word) (s : State) : ∃ t, execAvsAppliedWrite src val s = .next t ∧ s.Keeps t := by
  refine ⟨_, rfl, ?_⟩
  have h0 := State.Keeps.refl s
  repeat' first
    | with_reducible assumption
    | dsimp only
    | split
    | with_reducible refine State.writeBy_keeps _ _ _ ?_

theorem execFormat_keeps (src : RegSrc) (s : State) : ∃ t, execFormat src s = .next t ∧ s.Keeps t := by
  refine ⟨_, rfl, ?_⟩
  have h0 := State.Keeps.refl s
  repeat' first
    | with_reducible assumption
    | dsimp only
    | split
    | with_reducible refine State.writeBy_keeps _ _ _ ?_

theorem execLedgerRdDataRead_keeps (src : RegSrc) (s : State) : ∃ t, execLedgerRdDataRead src s = .next t ∧ s.Keeps t := by
  refine ⟨_, rfl, ?_⟩
  have h0 := State.Keeps.refl s
  repeat' first
    | with_reducible assumption
    | dsimp only
    | split
    | with_reducible refine State.readBy_keeps _ _ ?_

theorem execShutdownReq_keeps (src : RegSrc) (s : State) : ∃ t, execShutdownReq src s = .next t ∧ s.Keeps t := by
  refine ⟨_, rfl, ?_⟩
  have h0 := State.Keeps.refl s
  repeat' first
    | with_reducible assumption
    | dsimp only
    | split
    | with_reducible refine State.writeBy_keeps _ _ _ ?_

theorem execApply_keeps (src : RegSrc) (s : State) : ∃ t, execApply src s = .next t ∧ s.Keeps t := by
  refine ⟨_, rfl, ?_⟩
  have h0 := State.Keeps.refl s
  repeat' first
    | with_reducible assumption
    | dsimp only
    | split
    | with_reducible refine State.writeBy_keeps _ _ _ ?_

theorem execDiscard_keeps (src : RegSrc) (s : State) : ∃ t, execDiscard src s = .next t ∧ s.Keeps t := by
  refine ⟨_, rfl, ?_⟩
  have h0 := State.Keeps.refl s
  repeat' first
    | with_reducible assumption
    | dsimp only
    | split
    | with_reducible refine State.writeBy_keeps _ _ _ ?_

theorem execEnrol_keeps (src : RegSrc) (s : State) : ∃ t, execEnrol src s = .next t ∧ s.Keeps t := by
  refine ⟨_, rfl, ?_⟩
  have h0 := State.Keeps.refl s
  repeat' first
    | with_reducible assumption
    | dsimp only
    | split
    | with_reducible refine State.writeBy_keeps _ _ _ ?_

theorem execSecStoreCfgWrite_keeps (src : RegSrc) (val : Word) (s : State) : ∃ t, execSecStoreCfgWrite src val s = .next t ∧ s.Keeps t := by
  refine ⟨_, rfl, ?_⟩
  have h0 := State.Keeps.refl s
  repeat' first
    | with_reducible assumption
    | dsimp only
    | split
    | with_reducible refine State.writeBy_keeps _ _ _ ?_

theorem execSecModelDel_keeps (src : RegSrc) (index : BitVec 6) (s : State) : ∃ t, execSecModelDel src index s = .next t ∧ s.Keeps t := by
  refine ⟨_, rfl, ?_⟩
  have h0 := State.Keeps.refl s
  repeat' first
    | with_reducible assumption
    | dsimp only
    | split
    | with_reducible refine State.writeBy_keeps _ _ _ ?_

theorem execActivate_keeps (src : RegSrc) (sel : Bool) (s : State) : ∃ t, execActivate src sel s = .next t ∧ s.Keeps t := by
  refine ⟨_, rfl, ?_⟩
  have h0 := State.Keeps.refl s
  repeat' first
    | with_reducible assumption
    | dsimp only
    | split
    | with_reducible refine State.writeBy_keeps _ _ _ ?_

theorem execClear_keeps (src : RegSrc) (sel : Bool) (s : State) : ∃ t, execClear src sel s = .next t ∧ s.Keeps t := by
  refine ⟨_, rfl, ?_⟩
  have h0 := State.Keeps.refl s
  repeat' first
    | with_reducible assumption
    | dsimp only
    | split
    | with_reducible refine State.writeBy_keeps _ _ _ ?_

theorem execEn_keeps (src : RegSrc) (loop : Fin 2048) (on : Bool) (s : State) : ∃ t, execEn src loop on s = .next t ∧ s.Keeps t := by
  refine ⟨_, rfl, ?_⟩
  have h0 := State.Keeps.refl s
  repeat' first
    | with_reducible assumption
    | dsimp only
    | split
    | with_reducible refine State.writeBy_keeps _ _ _ ?_

theorem execFeClr_keeps (src : RegSrc) (loop : Fin 2048) (s : State) : ∃ t, execFeClr src loop s = .next t ∧ s.Keeps t := by
  refine ⟨_, rfl, ?_⟩
  have h0 := State.Keeps.refl s
  repeat' first
    | with_reducible assumption
    | dsimp only
    | split
    | with_reducible refine State.writeBy_keeps _ _ _ ?_

theorem execLoopHostTargetWrite_keeps (src : RegSrc) (loop : Fin 2048) (ff : Bool) (mant : BitVec 24) (s : State) : ∃ t, execLoopHostTargetWrite src loop ff mant s = .next t ∧ s.Keeps t := by
  refine ⟨_, rfl, ?_⟩
  have h0 := State.Keeps.refl s
  repeat' first
    | with_reducible assumption
    | dsimp only
    | split
    | with_reducible refine State.writeBy_keeps _ _ _ ?_

theorem execLoopTraceTrig_keeps (src : RegSrc) (mask : BitVec 16) (s : State) : ∃ t, execLoopTraceTrig src mask s = .next t ∧ s.Keeps t := by
  refine ⟨_, rfl, ?_⟩
  have h0 := State.Keeps.refl s
  repeat' first
    | with_reducible assumption
    | dsimp only
    | split
    | with_reducible refine State.writeBy_keeps _ _ _ ?_

theorem execLoopTraceCtrlWrite_keeps (src : RegSrc) (trace : Fin 16) (val : Word) (s : State) : ∃ t, execLoopTraceCtrlWrite src trace val s = .next t ∧ s.Keeps t := by
  refine ⟨_, rfl, ?_⟩
  have h0 := State.Keeps.refl s
  repeat' first
    | with_reducible assumption
    | dsimp only
    | split
    | with_reducible refine State.writeBy_keeps _ _ _ ?_

theorem State.ledgerThen_keeps (s : State) {s0 t : State} (h0 : s0.Keeps t) : s0.Keeps (s.ledgerThen t) := by
  unfold State.ledgerThen
  split
  · exact State.releaseReads_keeps h0
  · exact h0

theorem execLedgerRecordCommit_keeps (readBackOk : Bool) (s : State) : ∃ t, execLedgerRecordCommit readBackOk s = .next t ∧ s.Keeps t := by
  refine ⟨_, rfl, ?_⟩
  have h0 := State.Keeps.refl s
  repeat' first
    | with_reducible assumption
    | dsimp only
    | split
    | with_reducible refine State.ledgerThen_keeps _ ?_
    | with_reducible refine State.recordCommit_keeps _ ?_

theorem execLedgerEraseDone_keeps (s : State) : ∃ t, execLedgerEraseDone s = .next t ∧ s.Keeps t := by
  refine ⟨_, rfl, ?_⟩
  have h0 := State.Keeps.refl s
  repeat' first
    | with_reducible assumption
    | dsimp only
    | split
    | with_reducible refine State.ledgerThen_keeps _ ?_
    | with_reducible refine State.eraseDone_keeps ?_

theorem execPwrSag_keeps (lowNs : Nat) (s : State) : ∃ t, execPwrSag lowNs s = .next t ∧ s.Keeps t := by
  refine ⟨_, rfl, ?_⟩
  have h0 := State.Keeps.refl s
  repeat' first
    | with_reducible assumption
    | dsimp only
    | split
    | with_reducible refine State.ledgerThen_keeps _ ?_
    | with_reducible refine State.pwrSag_keeps _ ?_

theorem execVddIoLow_keeps (mv : Nat) (s : State) : ∃ t, execVddIoLow mv s = .next t ∧ s.Keeps t := by
  refine ⟨_, rfl, ?_⟩
  have h0 := State.Keeps.refl s
  repeat' first
    | with_reducible assumption
    | dsimp only
    | split
    | with_reducible refine State.ledgerThen_keeps _ ?_
    | with_reducible refine State.vddIo_keeps _ ?_

theorem execVddCoreLow_keeps (mv : Nat) (s : State) : ∃ t, execVddCoreLow mv s = .next t ∧ s.Keeps t := by
  refine ⟨_, rfl, ?_⟩
  have h0 := State.Keeps.refl s
  repeat' first
    | with_reducible assumption
    | dsimp only
    | split
    | with_reducible refine State.ledgerThen_keeps _ ?_
    | with_reducible refine State.vddCore_keeps _ ?_

end Sys2Proof.Machine
end

