-- ==== Sys2Proof/Laws/KeepsEndpoint.lean ====
section
/-!
SUPPORT. What every operation of Endpoint keeps: the commands that wait, and the invariant of the state.
-/

namespace Sys2Proof.Machine

theorem State.dispatch_keeps (h : SqpHdr) (type : Byte) (b : List Byte) {s0 s : State} (h0 : s0.Keeps s) : s0.Keeps (State.dispatch s h type b) := by
  unfold State.dispatch
  repeat' first
    | with_reducible assumption
    | dsimp only
    | split
    | with_reducible refine State.regRead_keeps _ _ _ _ ?_
    | with_reducible refine State.regWrite_keeps _ _ _ _ _ ?_
    | with_reducible refine State.lateChecks_keeps _ _ _ _ _ _ (fun _ _ => ?_) ?_
    | with_reducible refine State.queueAdopt_keeps _ ?_
    | with_reducible refine State.queueOpen_keeps _ ?_
    | with_reducible refine State.queueClose_keeps _ ?_
    | with_reducible refine State.submit_keeps _ _ ?_
    | with_reducible refine State.cancel_keeps _ _ ?_
    | with_reducible refine State.windowOpen_keeps _ _ _ _ ?_
    | with_reducible refine State.windowClose_keeps _ ?_
    | with_reducible refine State.windowWrite_keeps _ _ _ ?_
    | with_reducible refine State.windowReadMsg_keeps _ _ _ _ ?_
    | with_reducible refine State.semAcquire_keeps _ _ ?_
    | with_reducible refine State.semRelease_keeps _ ?_
    | with_reducible refine State.semStatus_keeps _ ?_
    | with_reducible refine State.imageBegin_keeps _ _ _ _ _ ?_
    | with_reducible refine State.imageData_keeps _ _ _ ?_
    | with_reducible refine State.imageEnd_keeps _ ?_
    | with_reducible refine State.attestMsg_keeps _ _ _ ?_
    | with_reducible refine State.hostAck_keeps _ _ ?_
    | refine keeps_upd ?_ rfl rfl rfl rfl rfl

theorem State.onReasm_keeps (p : Port) (f : List Reasm → List Reasm) {s0 s : State} (h0 : s0.Keeps s) : s0.Keeps (State.onReasm s p f) := by
  unfold State.onReasm
  repeat' first
    | with_reducible assumption
    | dsimp only
    | split
    | with_reducible refine State.onHport_keeps _ _ (fun _ => rfl) ?_

theorem State.finishReasm_keeps (r : Reasm) {s0 s : State} (h0 : s0.Keeps s) : s0.Keeps (State.finishReasm s r) := by
  unfold State.finishReasm
  repeat' first
    | with_reducible assumption
    | dsimp only
    | split
    | with_reducible refine State.dispatch_keeps _ _ _ ?_
    | with_reducible refine State.onHport_keeps _ _ (fun _ => rfl) ?_

theorem State.keepReasm_keeps (r : Reasm) {s0 s : State} (h0 : s0.Keeps s) : s0.Keeps (State.keepReasm s r) := by
  unfold State.keepReasm
  repeat' first
    | with_reducible assumption
    | dsimp only
    | split
    | with_reducible refine State.finishReasm_keeps _ ?_
    | with_reducible refine State.onReasm_keeps _ _ ?_

theorem State.reassemble_keeps (h : SqpHdr) (type : Byte) (total : Nat) (ofs : Nat) (data : List Byte) {s0 s : State} (h0 : s0.Keeps s) : s0.Keeps (State.reassemble s h type total ofs data) := by
  unfold State.reassemble
  repeat' first
    | with_reducible assumption
    | dsimp only
    | split
    | with_reducible refine State.onReasm_keeps _ _ ?_
    | with_reducible refine State.nakUnkept_keeps _ _ ?_
    | with_reducible refine State.keepReasm_keeps _ ?_
    | with_reducible refine State.bump_keeps _ ?_

theorem State.fragment_keeps (h : SqpHdr) (type : Byte) (total : Nat) (ofs : Nat) (data : List Byte) (lenOk : Bool) {s0 s : State} (h0 : s0.Keeps s) : s0.Keeps (State.fragment s h type total ofs data lenOk) := by
  unfold State.fragment
  repeat' first
    | with_reducible assumption
    | dsimp only
    | split
    | with_reducible refine keeps_eq2 (by assumption) ?_
    | with_reducible refine State.accept_keeps _ _ _ ?_
    | with_reducible refine State.reassemble_keeps _ _ _ _ _ ?_
    | with_reducible refine State.nakUnkept_keeps _ _ ?_

theorem execSqpFragment_keeps (h : SqpHdr) (type : Byte) (total : Word) (ofs : Word) (data : List Byte) (s : State) : ∃ t, execSqpFragment h type total ofs data s = .next t ∧ s.Keeps t := by
  refine ⟨_, rfl, ?_⟩
  have h0 := State.Keeps.refl s
  repeat' first
    | with_reducible assumption
    | dsimp only
    | split
    | with_reducible refine State.fragment_keeps _ _ _ _ _ _ ?_

theorem State.sqpDatagram_keeps (p : Port) (d : Datagram) {s0 s : State} (h0 : s0.Keeps s) : s0.Keeps (State.sqpDatagram s p d) := by
  unfold State.sqpDatagram
  repeat' first
    | with_reducible assumption
    | dsimp only
    | split
    | with_reducible refine keeps_eq2 (by assumption) ?_
    | with_reducible refine State.fragment_keeps _ _ _ _ _ _ ?_
    | with_reducible refine State.accept_keeps _ _ _ ?_
    | with_reducible refine State.dispatch_keeps _ _ _ ?_

end Sys2Proof.Machine
end

