-- ==== Sys2Proof/Laws/KeepsBridge.lean ====
section
/-!
SUPPORT. What every operation of Bridge keeps: the commands that wait, and the invariant of the state.
-/

namespace Sys2Proof.Machine

theorem State.police_keeps (f : Frame) {s0 s : State} (h0 : s0.Keeps s) : s0.Keeps (State.police s f).2 := by
  unfold State.police
  repeat' first
    | with_reducible assumption
    | dsimp only
    | split
    | refine keeps_upd ?_ rfl rfl rfl rfl rfl

theorem State.sendReply_keeps (f : Frame) (echo : Bool) {s0 s : State} (h0 : s0.Keeps s) : s0.Keeps (State.sendReply s f echo) := by
  unfold State.sendReply
  repeat' first
    | with_reducible assumption
    | dsimp only
    | split
    | with_reducible refine keeps_eq2 (by assumption) ?_
    | with_reducible refine State.enqueue_keeps _ _ ?_
    | with_reducible refine State.reply_keeps _ _ ?_
    | refine keeps_upd ?_ rfl rfl rfl rfl rfl

theorem State.forward_keeps (f : Frame) (q : Nat) {s0 s : State} (h0 : s0.Keeps s) : s0.Keeps (State.forward s f q) := by
  unfold State.forward
  repeat' first
    | with_reducible assumption
    | dsimp only
    | split
    | with_reducible refine State.bump_keeps _ ?_
    | with_reducible refine State.passOn_keeps _ _ ?_
    | refine keeps_upd ?_ rfl rfl rfl rfl rfl

theorem State.forwardOrDrop_keeps (f : Frame) {s0 s : State} (h0 : s0.Keeps s) : s0.Keeps (State.forwardOrDrop s f) := by
  unfold State.forwardOrDrop
  repeat' first
    | with_reducible assumption
    | dsimp only
    | split
    | with_reducible refine State.forward_keeps _ _ ?_
    | with_reducible refine State.bump_keeps _ ?_
    | with_reducible refine keeps_foldl _ _ _ (fun _ _ _ => ?_) ?_
    | with_reducible refine keeps_foldl_snd _ _ _ (fun _ _ _ => ?_) ?_
    | with_reducible refine keeps_foldl_fst _ _ _ (fun _ _ _ => ?_) ?_
    | refine keeps_upd ?_ rfl rfl rfl rfl rfl

theorem State.ingestDatagram_keeps (n : Nat) (c : StreamCfg) (d : Datagram) (wire : Nat) {s0 s : State} (h0 : s0.Keeps s) : s0.Keeps (State.ingestDatagram s n c d wire) := by
  unfold State.ingestDatagram
  repeat' first
    | with_reducible assumption
    | dsimp only
    | split
    | with_reducible refine State.measFrame_keeps _ _ _ _ ?_
    | with_reducible refine State.rtpBad_keeps _ ?_
    | with_reducible refine State.rtpPacket_keeps _ _ _ ?_

theorem State.takeDatagram_keeps (f : Frame) (d : Datagram) (x : Option (Nat × StreamCfg)) {s0 s : State} (h0 : s0.Keeps s) : s0.Keeps (State.takeDatagram s f d x) := by
  unfold State.takeDatagram
  repeat' first
    | with_reducible assumption
    | dsimp only
    | split
    | with_reducible refine State.bump_keeps _ ?_
    | with_reducible refine State.ingestDatagram_keeps _ _ _ _ ?_
    | with_reducible refine State.sqpDatagram_keeps _ _ ?_
    | refine keeps_upd ?_ rfl rfl rfl rfl rfl

theorem State.elsewhere_keeps (f : Frame) {s0 s : State} (h0 : s0.Keeps s) : s0.Keeps (State.elsewhere s f) := by
  unfold State.elsewhere
  repeat' first
    | with_reducible assumption
    | dsimp only
    | split
    | with_reducible refine State.bump_keeps _ ?_
    | with_reducible refine State.forwardOrDrop_keeps _ ?_
    | refine keeps_upd ?_ rfl rfl rfl rfl rfl

theorem State.handleFrame_keeps (f : Frame) {s0 s : State} (h0 : s0.Keeps s) : s0.Keeps (State.handleFrame s f) := by
  unfold State.handleFrame
  repeat' first
    | with_reducible assumption
    | dsimp only
    | split
    | with_reducible refine State.sync_keeps _ ?_
    | with_reducible refine State.pdelayReq_keeps _ _ ?_
    | with_reducible refine State.pdelayResp_keeps _ _ _ ?_
    | with_reducible refine State.bump_keeps _ ?_
    | with_reducible refine State.relay_keeps _ _ ?_
    | with_reducible refine State.sendReply_keeps _ _ ?_
    | with_reducible refine State.elsewhere_keeps _ ?_
    | with_reducible refine State.takeDatagram_keeps _ _ _ ?_
    | with_reducible refine State.forwardOrDrop_keeps _ ?_
    | refine keeps_upd ?_ rfl rfl rfl rfl rfl

theorem execFrameReceive_keeps (f : Frame) (s : State) : ∃ t, execFrameReceive f s = .next t ∧ s.Keeps t := by
  refine ⟨_, rfl, ?_⟩
  have h0 := State.Keeps.refl s
  repeat' first
    | with_reducible assumption
    | dsimp only
    | split
    | with_reducible refine keeps_eq2 (by assumption) ?_
    | with_reducible refine State.rxStamped_keeps _ ?_
    | with_reducible refine State.bump_keeps _ ?_
    | with_reducible refine State.police_keeps _ ?_
    | with_reducible refine State.handleFrame_keeps _ ?_
    | refine keeps_upd ?_ rfl rfl rfl rfl rfl

theorem execLinkUp_keeps (p : Fin 18) (speed : BitVec 2) (master : Bool) (s : State) : ∃ t, execLinkUp p speed master s = .next t ∧ s.Keeps t := by
  refine ⟨_, rfl, ?_⟩
  have h0 := State.Keeps.refl s
  repeat' first
    | with_reducible assumption
    | dsimp only
    | split
    | with_reducible refine State.setReady_keeps _ _ ?_
    | with_reducible refine State.kick_keeps _ ?_
    | with_reducible refine State.flushComps_keeps ?_
    | with_reducible refine State.onHport_keeps _ _ (fun _ => rfl) ?_
    | refine keeps_upd ?_ rfl rfl rfl rfl rfl

theorem execLinkDown_keeps (p : Fin 18) (s : State) : ∃ t, execLinkDown p s = .next t ∧ s.Keeps t := by
  refine ⟨_, rfl, ?_⟩
  have h0 := State.Keeps.refl s
  repeat' first
    | with_reducible assumption
    | dsimp only
    | split
    | with_reducible refine State.linkLost_keeps _ ?_

theorem execGateControlListEntry_keeps (p : Fin 18) (s : State) : ∃ t, execGateControlListEntry p s = .next t ∧ s.Keeps t := by
  refine ⟨_, rfl, ?_⟩
  have h0 := State.Keeps.refl s
  repeat' first
    | with_reducible assumption
    | dsimp only
    | split
    | with_reducible refine State.kick_keeps _ ?_
    | refine keeps_upd ?_ rfl rfl rfl rfl rfl

theorem State.respSent_keeps (p : Port) (q : Word) {s0 s : State} (h0 : s0.Keeps s) : s0.Keeps (State.respSent s p q) := by
  unfold State.respSent
  repeat' first
    | with_reducible assumption
    | dsimp only
    | split
    | with_reducible refine State.applyHcfg_keeps _ _ ?_
    | with_reducible refine keeps_foldl _ _ _ (fun _ _ _ => ?_) ?_
    | with_reducible refine keeps_foldl_snd _ _ _ (fun _ _ _ => ?_) ?_
    | with_reducible refine keeps_foldl_fst _ _ _ (fun _ _ _ => ?_) ?_
    | refine keeps_upd ?_ rfl rfl rfl rfl rfl

theorem State.sent_keeps (p : Nat) (f : TxFrame) (stamp : Int) {s0 s : State} (h0 : s0.Keeps s) : s0.Keeps (State.sent s p f stamp) := by
  unfold State.sent
  repeat' first
    | with_reducible assumption
    | dsimp only
    | split
    | with_reducible refine State.respSent_keeps _ _ ?_
    | with_reducible refine State.bump_keeps _ ?_
    | with_reducible refine State.pdelayReq_keeps _ _ ?_
    | with_reducible refine State.pdelayResp_keeps _ _ _ ?_
    | with_reducible refine State.enqueue_keeps _ _ ?_
    | refine keeps_upd ?_ rfl rfl rfl rfl rfl

theorem execFrameTransmit_keeps (p : Fin 18) (s : State) : ∃ t, execFrameTransmit p s = .next t ∧ s.Keeps t := by
  refine ⟨_, rfl, ?_⟩
  have h0 := State.Keeps.refl s
  repeat' first
    | with_reducible assumption
    | dsimp only
    | split
    | with_reducible refine State.sent_keeps _ _ _ ?_
    | with_reducible refine State.kick_keeps _ ?_
    | refine keeps_upd ?_ rfl rfl rfl rfl rfl

theorem State.scrubChip_keeps (m : ChipMem) (a : Nat) (w : HarrowWord) {s0 s : State} (h0 : s0.Keeps s) : s0.Keeps (State.scrubChip s m a w) := by
  unfold State.scrubChip
  repeat' first
    | with_reducible assumption
    | dsimp only
    | split
    | with_reducible refine keeps_eq2 (by assumption) ?_
    | with_reducible refine State.takeFree_keeps _ ?_
    | with_reducible refine State.report_keeps _ _ _ _ _ _ ?_
    | with_reducible refine State.onLoop_keeps _ _ ?_
    | refine keeps_upd ?_ rfl rfl rfl rfl rfl

theorem State.harrow_keeps (line : Nat) (words : List HarrowWord) {s0 s : State} (h0 : s0.Keeps s) : s0.Keeps (State.harrow s line words) := by
  unfold State.harrow
  repeat' first
    | with_reducible assumption
    | dsimp only
    | split
    | with_reducible refine State.scrub_keeps _ _ ?_
    | with_reducible refine State.scrubChip_keeps _ _ _ ?_
    | with_reducible refine keeps_foldl _ _ _ (fun _ _ _ => ?_) ?_

theorem execHarrowScrub_keeps (line : Word) (words : List HarrowWord) (s : State) : ∃ t, execHarrowScrub line words s = .next t ∧ s.Keeps t := by
  refine ⟨_, rfl, ?_⟩
  have h0 := State.Keeps.refl s
  repeat' first
    | with_reducible assumption
    | dsimp only
    | split
    | with_reducible refine State.harrow_keeps _ _ ?_

theorem State.tapLoad_keeps (i : TapInstr) (dr : Word) (control : Bool) {s0 s : State} (h0 : s0.Keeps s) : s0.Keeps (State.tapLoad s i dr control) := by
  unfold State.tapLoad
  repeat' first
    | with_reducible assumption
    | dsimp only
    | split
    | with_reducible refine State.control_keeps _ _ _ _ _ (fun _ _ _ => ?_) ?_
    | with_reducible exact kok_err _
    | with_reducible refine kok_ok ?_
    | with_reducible refine kok_bind_st ?_ (fun _ _ => ?_)
    | with_reducible refine kok_bind (fun _ => ?_)
    | refine keeps_upd ?_ rfl rfl rfl rfl rfl

theorem State.tapScan_keeps (i : TapInstr) (control : Bool) {s0 s : State} (h0 : s0.Keeps s) : s0.Keeps (State.tapScan s i control) := by
  unfold State.tapScan
  repeat' first
    | with_reducible assumption
    | dsimp only
    | split
    | with_reducible refine keeps_eq2 (by assumption) ?_
    | with_reducible refine State.control_keeps _ _ _ _ _ (fun _ _ _ => ?_) ?_
    | with_reducible refine State.takeFree_keeps _ ?_
    | with_reducible refine State.tapLoad_keeps _ _ _ ?_

theorem execBypass_keeps (s : State) : ∃ t, execBypass s = .next t ∧ s.Keeps t := by
  refine ⟨_, rfl, ?_⟩
  have h0 := State.Keeps.refl s
  repeat' first
    | with_reducible assumption
    | dsimp only
    | split
    | with_reducible refine State.tapLoad_keeps _ _ _ ?_

theorem execIdcode_keeps (s : State) : ∃ t, execIdcode s = .next t ∧ s.Keeps t := by
  refine ⟨_, rfl, ?_⟩
  have h0 := State.Keeps.refl s
  repeat' first
    | with_reducible assumption
    | dsimp only
    | split
    | with_reducible refine State.tapLoad_keeps _ _ _ ?_

theorem execSamplePreload_keeps (s : State) : ∃ t, execSamplePreload s = .next t ∧ s.Keeps t := by
  refine ⟨_, rfl, ?_⟩
  have h0 := State.Keeps.refl s
  repeat' first
    | with_reducible assumption
    | dsimp only
    | split
    | with_reducible refine State.tapScan_keeps _ _ ?_

theorem execExtest_keeps (s : State) : ∃ t, execExtest s = .next t ∧ s.Keeps t := by
  refine ⟨_, rfl, ?_⟩
  have h0 := State.Keeps.refl s
  repeat' first
    | with_reducible assumption
    | dsimp only
    | split
    | with_reducible refine State.tapScan_keeps _ _ ?_

theorem execExtestPulse_keeps (s : State) : ∃ t, execExtestPulse s = .next t ∧ s.Keeps t := by
  refine ⟨_, rfl, ?_⟩
  have h0 := State.Keeps.refl s
  repeat' first
    | with_reducible assumption
    | dsimp only
    | split
    | with_reducible refine State.tapScan_keeps _ _ ?_

theorem execExtestTrain_keeps (s : State) : ∃ t, execExtestTrain s = .next t ∧ s.Keeps t := by
  refine ⟨_, rfl, ?_⟩
  have h0 := State.Keeps.refl s
  repeat' first
    | with_reducible assumption
    | dsimp only
    | split
    | with_reducible refine State.tapScan_keeps _ _ ?_

end Sys2Proof.Machine
end

