-- ==== Sys2Proof/Laws/RegMap.lean ====
section
/-!
SUPPORT. The address map: each block's offsets give back the addresses of their registers, and the registers that commands write lie at
their addresses.
-/

namespace Sys2Proof.Machine

/-- The address of a register of the HPORT block is that of its offset. -/
theorem hportReg_addr {o : Nat} {r : Reg} (h : hportReg o = some r) (h4 : o % 4 = 0) : r.addr = 0x10000 + o := by
  unfold hportReg at h
  repeat' first
    | (cases h; done)
    | (injection h with h; subst h; simp only [Reg.addr, Ctr.addr, logOffsets] <;> omega)
    | (dsimp only at h; split at h)
    | split at h

/-- The address of a register of the TIDE block is that of its offset. -/
theorem tideReg_addr {o : Nat} {r : Reg} (h : tideReg o = some r) (h4 : o % 4 = 0) : r.addr = 0x30000 + o := by
  unfold tideReg at h
  repeat' first
    | (cases h; done)
    | (injection h with h; subst h; simp only [Reg.addr, Ctr.addr, logOffsets] <;> omega)
    | (dsimp only at h; split at h)
    | split at h

/-- The address of a register of the PAN block is that of its offset. -/
theorem panReg_addr {o : Nat} {r : Reg} (h : panReg o = some r) (h4 : o % 4 = 0) : r.addr = 0x60000 + o := by
  unfold panReg at h
  repeat' first
    | (cases h; done)
    | (injection h with h; subst h; simp only [Reg.addr, Ctr.addr, logOffsets] <;> omega)
    | (dsimp only at h; split at h)
    | split at h

/-- The address of a register of the QMGR block is that of its offset. -/
theorem qmgrReg_addr {o : Nat} {r : Reg} (h : qmgrReg o = some r) (h4 : o % 4 = 0) : r.addr = 0x40000 + o := by
  unfold qmgrReg at h
  repeat' first
    | (cases h; done)
    | (injection h with h; subst h; simp only [Reg.addr, Ctr.addr, logOffsets] <;> omega)
    | (dsimp only at h; split at h)
    | split at h

/-- The address of a register of the LOOP block is that of its offset. -/
theorem loopReg_addr {o : Nat} {r : Reg} (h : loopReg o = some r) (h4 : o % 4 = 0) : r.addr = 0x300000 + o := by
  unfold loopReg at h
  repeat' first
    | (cases h; done)
    | (injection h with h; subst h; simp only [Reg.addr, Ctr.addr, logOffsets] <;> omega)
    | (dsimp only at h; split at h)
    | split at h

/-- The address of a register of the INGEST block is that of its offset. -/
theorem ingestReg_addr {o : Nat} {r : Reg} (h : ingestReg o = some r) (h4 : o % 4 = 0) : r.addr = 0x340000 + o := by
  unfold ingestReg at h
  repeat' first
    | (cases h; done)
    | (injection h with h; subst h; simp only [Reg.addr, Ctr.addr, logOffsets] <;> omega)
    | (dsimp only at h; split at h)
    | split at h

/-- The address of a register of the HEALTH block is that of its offset. -/
theorem healthReg_addr {o : Nat} {r : Reg} (h : healthReg o = some r) (h4 : o % 4 = 0) : r.addr = 0x380000 + o := by
  unfold healthReg at h
  repeat' first
    | (cases h; done)
    | (injection h with h; subst h; simp only [Reg.addr, Ctr.addr, logOffsets] <;> omega)
    | (dsimp only at h; split at h)
    | split at h

/-- The address of a register of the SEC block is that of its offset. -/
theorem secReg_addr {o : Nat} {r : Reg} (h : secReg o = some r) (h4 : o % 4 = 0) : r.addr = 0x3A0000 + o := by
  unfold secReg at h
  repeat' first
    | (cases h; done)
    | (injection h with h; subst h; simp only [Reg.addr, Ctr.addr, logOffsets] <;> omega)
    | (dsimp only at h; split at h)
    | split at h

/-- The address of a register of the REGION block is that of its offset. -/
theorem regionReg_addr {n o : Nat} {r : Reg} (h : regionReg n o = some r) (h4 : o % 4 = 0) : r.addr = 0x100000 + n * 0x10000 + o := by
  unfold regionReg at h
  repeat' first
    | (cases h; done)
    | (injection h with h; subst h; simp only [Reg.addr, Ctr.addr, logOffsets] <;> omega)
    | (dsimp only at h; split at h)
    | split at h

/-- The address of a register of the CORE block is that of its offset. -/
theorem coreReg_addr {n o : Nat} {r : Reg} (h : coreReg n o = some r) (h4 : o % 4 = 0) : r.addr = 0x200000 + n * 0x1000 + o := by
  unfold coreReg at h
  repeat' first
    | (cases h; done)
    | (injection h with h; subst h; simp only [Reg.addr, Ctr.addr, logOffsets] <;> omega)
    | (dsimp only at h; split at h)
    | split at h

/-- A block's addresses start at its base. -/
theorem Block.base_le {a : Nat} {b : Block} (h : Block.ofAddr a = some b) : b.base ≤ a ∧ b.base % 4 = 0 := by
  unfold Block.ofAddr at h
  by_cases h0 : a < 0x10000
  · rw [if_pos h0] at h
    cases h
    refine ⟨?_, ?_⟩ <;> simp only [Block.base] <;> omega
  rw [if_neg h0] at h
  by_cases h1 : a < 0x20000
  · rw [if_pos h1] at h
    cases h
    refine ⟨?_, ?_⟩ <;> simp only [Block.base] <;> omega
  rw [if_neg h1] at h
  by_cases h2 : a < 0x30000
  · rw [if_pos h2] at h
    cases h
    refine ⟨?_, ?_⟩ <;> simp only [Block.base] <;> omega
  rw [if_neg h2] at h
  by_cases h3 : a < 0x40000
  · rw [if_pos h3] at h
    cases h
    refine ⟨?_, ?_⟩ <;> simp only [Block.base] <;> omega
  rw [if_neg h3] at h
  by_cases h4 : a < 0x50000
  · rw [if_pos h4] at h
    cases h
    refine ⟨?_, ?_⟩ <;> simp only [Block.base] <;> omega
  rw [if_neg h4] at h
  by_cases h5 : a < 0x60000
  · rw [if_pos h5] at h
    cases h
    refine ⟨?_, ?_⟩ <;> simp only [Block.base] <;> omega
  rw [if_neg h5] at h
  by_cases h6 : a < 0x70000
  · rw [if_pos h6] at h
    cases h
    refine ⟨?_, ?_⟩ <;> simp only [Block.base] <;> omega
  rw [if_neg h6] at h
  by_cases h7 : a < 0x100000
  · rw [if_pos h7] at h
    cases h
  rw [if_neg h7] at h
  by_cases h8 : a < 0x140000
  · rw [if_pos h8] at h
    cases h
    refine ⟨?_, ?_⟩ <;> simp only [Block.base] <;> omega
  rw [if_neg h8] at h
  by_cases h9 : a < 0x200000
  · rw [if_pos h9] at h
    cases h
  rw [if_neg h9] at h
  by_cases h10 : a < 0x220000
  · rw [if_pos h10] at h
    cases h
    refine ⟨?_, ?_⟩ <;> simp only [Block.base] <;> omega
  rw [if_neg h10] at h
  by_cases h11 : a < 0x300000
  · rw [if_pos h11] at h
    cases h
  rw [if_neg h11] at h
  by_cases h12 : a < 0x340000
  · rw [if_pos h12] at h
    cases h
    refine ⟨?_, ?_⟩ <;> simp only [Block.base] <;> omega
  rw [if_neg h12] at h
  by_cases h13 : a < 0x360000
  · rw [if_pos h13] at h
    cases h
    refine ⟨?_, ?_⟩ <;> simp only [Block.base] <;> omega
  rw [if_neg h13] at h
  by_cases h14 : a < 0x380000
  · rw [if_pos h14] at h
    cases h
    refine ⟨?_, ?_⟩ <;> simp only [Block.base] <;> omega
  rw [if_neg h14] at h
  by_cases h15 : a < 0x3A0000
  · rw [if_pos h15] at h
    cases h
    refine ⟨?_, ?_⟩ <;> simp only [Block.base] <;> omega
  rw [if_neg h15] at h
  by_cases h16 : a < 0x3C0000
  · rw [if_pos h16] at h
    cases h
    refine ⟨?_, ?_⟩ <;> simp only [Block.base] <;> omega
  rw [if_neg h16] at h
  by_cases h17 : a < 0x3E0000
  · rw [if_pos h17] at h
    cases h
    refine ⟨?_, ?_⟩ <;> simp only [Block.base] <;> omega
  rw [if_neg h17] at h
  cases h

/-! ### Registers that commands write, at their addresses -/

theorem Reg.ofAddr_hportCfg {n : Nat} (hn : n < 2) : Reg.ofAddr (Reg.addr (.hportCfg n)) = some (.hportCfg n) := by
  interval_cases n <;> rfl

theorem Reg.ofAddr_hportMacHi {n : Nat} (hn : n < 2) : Reg.ofAddr (Reg.addr (.hportMacHi n)) = some (.hportMacHi n) := by
  interval_cases n <;> rfl

theorem Reg.ofAddr_hportMacLo {n : Nat} (hn : n < 2) : Reg.ofAddr (Reg.addr (.hportMacLo n)) = some (.hportMacLo n) := by
  interval_cases n <;> rfl

theorem Reg.ofAddr_hportIpv4 {n : Nat} (hn : n < 2) : Reg.ofAddr (Reg.addr (.hportIpv4 n)) = some (.hportIpv4 n) := by
  interval_cases n <;> rfl

theorem Reg.ofAddr_hportNet {n : Nat} (hn : n < 2) : Reg.ofAddr (Reg.addr (.hportNet n)) = some (.hportNet n) := by
  interval_cases n <;> rfl

theorem Reg.ofAddr_panCtrl {n : Nat} (hn : n < 16) : Reg.ofAddr (Reg.addr (.panCtrl n)) = some (.panCtrl n) := by
  interval_cases n <;> rfl

theorem Reg.ofAddr_panCtxCmd {n : Nat} (hn : n < 16) : Reg.ofAddr (Reg.addr (.panCtxCmd n)) = some (.panCtxCmd n) := by
  interval_cases n <;> rfl

theorem Reg.ofAddr_waitSumLo {n : Nat} (hn : n < 8) : Reg.ofAddr (Reg.addr (.waitSumLo n)) = some (.waitSumLo n) := by
  interval_cases n <;> rfl

theorem Reg.ofAddr_vuCtrl {n : Nat} (hn : n < 32) : Reg.ofAddr (Reg.addr (.vuCtrl n)) = some (.vuCtrl n) := by
  interval_cases n <;> rfl

theorem Reg.ofAddr_traceCtrl {n : Nat} (hn : n < 16) : Reg.ofAddr (Reg.addr (.traceCtrl n)) = some (.traceCtrl n) := by
  interval_cases n <;> rfl

theorem Reg.ofAddr_hbusCfg {n : Nat} (hn : n < 16) : Reg.ofAddr (Reg.addr (.hbusCfg n)) = some (.hbusCfg n) := by
  interval_cases n <;> rfl

theorem Reg.ofAddr_hportIpv6 {n k : Nat} (hn : n < 2) (hk : k < 4) : Reg.ofAddr (Reg.addr (.hportIpv6 n k)) = some (.hportIpv6 n k) := by
  interval_cases n <;> interval_cases k <;> rfl

theorem Reg.ofAddr_logStatus (l : LogId) : Reg.ofAddr (Reg.addr (.logStatus l)) = some (.logStatus l) := by
  cases l with
  | core n =>
    obtain ⟨n, h⟩ := n
    have e : Reg.addr (.logStatus (.core ⟨n, h⟩)) = 0x200118 + n * 0x1000 := by simp only [Reg.addr, logOffsets]; omega
    rw [e]
    interval_cases n <;> rfl
  | region r =>
    obtain ⟨n, h⟩ := r
    have e : Reg.addr (.logStatus (.region ⟨n, h⟩)) = 0x100048 + n * 0x10000 := by simp only [Reg.addr, logOffsets]; omega
    rw [e]
    interval_cases n <;> rfl
  | chip =>
    have e : Reg.addr (.logStatus .chip) = 0x380000 := by simp only [Reg.addr, logOffsets]
    rw [e]
    rfl

/-- An address of the LOOP block. -/
theorem Reg.ofAddr_loop {o : Nat} (ho : o < 0x40000) (h4 : o % 4 = 0) : Reg.ofAddr (0x300000 + o) = loopReg o := by
  have hb : Block.ofAddr (0x300000 + o) = some .loop := by
    unfold Block.ofAddr
    simp (disch := omega) only [if_neg, if_pos]
  unfold Reg.ofAddr
  rw [hb, if_neg (by omega)]
  simp only [Block.base, Nat.add_sub_cancel_left]

theorem Reg.ofAddr_loopCtrl {n : Nat} (hn : n < 2048) : Reg.ofAddr (Reg.addr (.loopCtrl n)) = some (.loopCtrl n) := by
  have e : Reg.addr (.loopCtrl n) = 0x300000 + (0x10000 + (n * 0x20 + 0)) := by simp only [Reg.addr]; omega
  have h1 : (0x10000 + (n * 0x20 + 0)) % 0x20 = 0 := by omega
  have h2 : (0x10000 + (n * 0x20 + 0) - 0x10000) / 0x20 = n := by omega
  rw [e, Reg.ofAddr_loop (by omega) (by omega), loopReg, if_pos (by omega)]
  simp only [h1, h2]
  all_goals (intro; omega)

theorem Reg.ofAddr_loopHostTarget {n : Nat} (hn : n < 2048) : Reg.ofAddr (Reg.addr (.loopHostTarget n)) = some (.loopHostTarget n) := by
  have e : Reg.addr (.loopHostTarget n) = 0x300000 + (0x10000 + (n * 0x20 + 12)) := by simp only [Reg.addr]; omega
  have h1 : (0x10000 + (n * 0x20 + 12)) % 0x20 = 12 := by omega
  have h2 : (0x10000 + (n * 0x20 + 12) - 0x10000) / 0x20 = n := by omega
  rw [e, Reg.ofAddr_loop (by omega) (by omega), loopReg, if_pos (by omega)]
  simp only [h1, h2]
  all_goals (intro; omega)

theorem Reg.ofAddr_loopHostFf {n : Nat} (hn : n < 2048) : Reg.ofAddr (Reg.addr (.loopHostFf n)) = some (.loopHostFf n) := by
  have e : Reg.addr (.loopHostFf n) = 0x300000 + (0x10000 + (n * 0x20 + 16)) := by simp only [Reg.addr]; omega
  have h1 : (0x10000 + (n * 0x20 + 16)) % 0x20 = 16 := by omega
  have h2 : (0x10000 + (n * 0x20 + 16) - 0x10000) / 0x20 = n := by omega
  rw [e, Reg.ofAddr_loop (by omega) (by omega), loopReg, if_pos (by omega)]
  simp only [h1, h2]
  all_goals (intro; omega)

end Sys2Proof.Machine
end

