-- ==== Sys2Proof/Laws/State.lean ====
section
/-!
SUPPORT. What each named update of the state changes, field by field: a lemma for every field that the update leaves, and what
the field that it sets reads as. Later proofs cite these and unfold no record update.
-/

namespace Sys2Proof.Machine

variable (s : State)

/-! ### onCore -/

section
variable (n : Nat) (f : Core → Core)
@[simp] theorem State.onCore_pending : (s.onCore n f).pending = s.pending := rfl
@[simp] theorem State.onCore_nclk : (s.onCore n f).nclk = s.nclk := rfl
@[simp] theorem State.onCore_free : (s.onCore n f).free = s.free := rfl
@[simp] theorem State.onCore_power : (s.onCore n f).power = s.power := rfl
@[simp] theorem State.onCore_thermal : (s.onCore n f).thermal = s.thermal := rfl
@[simp] theorem State.onCore_avs : (s.onCore n f).avs = s.avs := rfl
@[simp] theorem State.onCore_tide : (s.onCore n f).tide = s.tide := rfl
@[simp] theorem State.onCore_ready : (s.onCore n f).ready = s.ready := rfl
@[simp] theorem State.onCore_coreReady : (s.onCore n f).coreReady = s.coreReady := rfl
@[simp] theorem State.onCore_rsvdWrite : (s.onCore n f).rsvdWrite = s.rsvdWrite := rfl
@[simp] theorem State.onCore_rsvdSrc : (s.onCore n f).rsvdSrc = s.rsvdSrc := rfl
@[simp] theorem State.onCore_rsvdAddr : (s.onCore n f).rsvdAddr = s.rsvdAddr := rfl
@[simp] theorem State.onCore_regs : (s.onCore n f).regs = s.regs := rfl
@[simp] theorem State.onCore_counts : (s.onCore n f).counts = s.counts := rfl
@[simp] theorem State.onCore_logs : (s.onCore n f).logs = s.logs := rfl
@[simp] theorem State.onCore_regions : (s.onCore n f).regions = s.regions := rfl
@[simp] theorem State.onCore_wear : (s.onCore n f).wear = s.wear := rfl
@[simp] theorem State.onCore_bist : (s.onCore n f).bist = s.bist := rfl
@[simp] theorem State.onCore_attrib : (s.onCore n f).attrib = s.attrib := rfl
@[simp] theorem State.onCore_hportA : (s.onCore n f).hportA = s.hportA := rfl
@[simp] theorem State.onCore_hportB : (s.onCore n f).hportB = s.hportB := rfl
@[simp] theorem State.onCore_hcfg : (s.onCore n f).hcfg = s.hcfg := rfl
@[simp] theorem State.onCore_heldReads : (s.onCore n f).heldReads = s.heldReads := rfl
@[simp] theorem State.onCore_bports : (s.onCore n f).bports = s.bports := rfl
@[simp] theorem State.onCore_queues : (s.onCore n f).queues = s.queues := rfl
@[simp] theorem State.onCore_windows : (s.onCore n f).windows = s.windows := rfl
@[simp] theorem State.onCore_staged : (s.onCore n f).staged = s.staged := rfl
@[simp] theorem State.onCore_sems : (s.onCore n f).sems = s.sems := rfl
@[simp] theorem State.onCore_transfers : (s.onCore n f).transfers = s.transfers := rfl
@[simp] theorem State.onCore_comps : (s.onCore n f).comps = s.comps := rfl
@[simp] theorem State.onCore_nextComp : (s.onCore n f).nextComp = s.nextComp := rfl
@[simp] theorem State.onCore_sec : (s.onCore n f).sec = s.sec := rfl
@[simp] theorem State.onCore_ledger : (s.onCore n f).ledger = s.ledger := rfl
@[simp] theorem State.onCore_tap : (s.onCore n f).tap = s.tap := rfl
@[simp] theorem State.onCore_mem : (s.onCore n f).mem = s.mem := rfl
@[simp] theorem State.onCore_poison : (s.onCore n f).poison = s.poison := rfl
@[simp] theorem State.onCore_corrected : (s.onCore n f).corrected = s.corrected := rfl
@[simp] theorem State.onCore_full : (s.onCore n f).full = s.full := rfl
@[simp] theorem State.onCore_dirty : (s.onCore n f).dirty = s.dirty := rfl
@[simp] theorem State.onCore_sel : (s.onCore n f).sel = s.sel := rfl
@[simp] theorem State.onCore_pans : (s.onCore n f).pans = s.pans := rfl
@[simp] theorem State.onCore_xacts : (s.onCore n f).xacts = s.xacts := rfl
@[simp] theorem State.onCore_hbus : (s.onCore n f).hbus = s.hbus := rfl
@[simp] theorem State.onCore_pageCrc : (s.onCore n f).pageCrc = s.pageCrc := rfl
@[simp] theorem State.onCore_waits : (s.onCore n f).waits = s.waits := rfl
@[simp] theorem State.onCore_svc : (s.onCore n f).svc = s.svc := rfl
@[simp] theorem State.onCore_jobs : (s.onCore n f).jobs = s.jobs := rfl
@[simp] theorem State.onCore_nextJob : (s.onCore n f).nextJob = s.nextJob := rfl
@[simp] theorem State.onCore_priors : (s.onCore n f).priors = s.priors := rfl
@[simp] theorem State.onCore_shortfall : (s.onCore n f).shortfall = s.shortfall := rfl
@[simp] theorem State.onCore_loops : (s.onCore n f).loops = s.loops := rfl
@[simp] theorem State.onCore_pairs : (s.onCore n f).pairs = s.pairs := rfl
@[simp] theorem State.onCore_traces : (s.onCore n f).traces = s.traces := rfl
@[simp] theorem State.onCore_loopEng : (s.onCore n f).loopEng = s.loopEng := rfl
@[simp] theorem State.onCore_ingest : (s.onCore n f).ingest = s.ingest := rfl
@[simp] theorem State.onCore_sets : (s.onCore n f).sets = s.sets := rfl
@[simp] theorem State.onCore_core : (s.onCore n f).core n = f (s.core n) := by simp [State.onCore, State.core]
theorem State.onCore_core_ne (m : Nat) (h : m ≠ n) : (s.onCore n f).core m = s.core m := by
  simp [State.onCore, State.core, SMap.getD_put_ne, h]
end

/-! ### onPan -/

section
variable (n : Nat) (f : Pan → Pan)
@[simp] theorem State.onPan_pending : (s.onPan n f).pending = s.pending := rfl
@[simp] theorem State.onPan_nclk : (s.onPan n f).nclk = s.nclk := rfl
@[simp] theorem State.onPan_free : (s.onPan n f).free = s.free := rfl
@[simp] theorem State.onPan_power : (s.onPan n f).power = s.power := rfl
@[simp] theorem State.onPan_thermal : (s.onPan n f).thermal = s.thermal := rfl
@[simp] theorem State.onPan_avs : (s.onPan n f).avs = s.avs := rfl
@[simp] theorem State.onPan_tide : (s.onPan n f).tide = s.tide := rfl
@[simp] theorem State.onPan_ready : (s.onPan n f).ready = s.ready := rfl
@[simp] theorem State.onPan_coreReady : (s.onPan n f).coreReady = s.coreReady := rfl
@[simp] theorem State.onPan_rsvdWrite : (s.onPan n f).rsvdWrite = s.rsvdWrite := rfl
@[simp] theorem State.onPan_rsvdSrc : (s.onPan n f).rsvdSrc = s.rsvdSrc := rfl
@[simp] theorem State.onPan_rsvdAddr : (s.onPan n f).rsvdAddr = s.rsvdAddr := rfl
@[simp] theorem State.onPan_regs : (s.onPan n f).regs = s.regs := rfl
@[simp] theorem State.onPan_counts : (s.onPan n f).counts = s.counts := rfl
@[simp] theorem State.onPan_logs : (s.onPan n f).logs = s.logs := rfl
@[simp] theorem State.onPan_regions : (s.onPan n f).regions = s.regions := rfl
@[simp] theorem State.onPan_wear : (s.onPan n f).wear = s.wear := rfl
@[simp] theorem State.onPan_bist : (s.onPan n f).bist = s.bist := rfl
@[simp] theorem State.onPan_attrib : (s.onPan n f).attrib = s.attrib := rfl
@[simp] theorem State.onPan_hportA : (s.onPan n f).hportA = s.hportA := rfl
@[simp] theorem State.onPan_hportB : (s.onPan n f).hportB = s.hportB := rfl
@[simp] theorem State.onPan_hcfg : (s.onPan n f).hcfg = s.hcfg := rfl
@[simp] theorem State.onPan_heldReads : (s.onPan n f).heldReads = s.heldReads := rfl
@[simp] theorem State.onPan_bports : (s.onPan n f).bports = s.bports := rfl
@[simp] theorem State.onPan_queues : (s.onPan n f).queues = s.queues := rfl
@[simp] theorem State.onPan_windows : (s.onPan n f).windows = s.windows := rfl
@[simp] theorem State.onPan_staged : (s.onPan n f).staged = s.staged := rfl
@[simp] theorem State.onPan_sems : (s.onPan n f).sems = s.sems := rfl
@[simp] theorem State.onPan_transfers : (s.onPan n f).transfers = s.transfers := rfl
@[simp] theorem State.onPan_comps : (s.onPan n f).comps = s.comps := rfl
@[simp] theorem State.onPan_nextComp : (s.onPan n f).nextComp = s.nextComp := rfl
@[simp] theorem State.onPan_sec : (s.onPan n f).sec = s.sec := rfl
@[simp] theorem State.onPan_ledger : (s.onPan n f).ledger = s.ledger := rfl
@[simp] theorem State.onPan_tap : (s.onPan n f).tap = s.tap := rfl
@[simp] theorem State.onPan_mem : (s.onPan n f).mem = s.mem := rfl
@[simp] theorem State.onPan_poison : (s.onPan n f).poison = s.poison := rfl
@[simp] theorem State.onPan_corrected : (s.onPan n f).corrected = s.corrected := rfl
@[simp] theorem State.onPan_full : (s.onPan n f).full = s.full := rfl
@[simp] theorem State.onPan_dirty : (s.onPan n f).dirty = s.dirty := rfl
@[simp] theorem State.onPan_sel : (s.onPan n f).sel = s.sel := rfl
@[simp] theorem State.onPan_cores : (s.onPan n f).cores = s.cores := rfl
@[simp] theorem State.onPan_xacts : (s.onPan n f).xacts = s.xacts := rfl
@[simp] theorem State.onPan_hbus : (s.onPan n f).hbus = s.hbus := rfl
@[simp] theorem State.onPan_pageCrc : (s.onPan n f).pageCrc = s.pageCrc := rfl
@[simp] theorem State.onPan_waits : (s.onPan n f).waits = s.waits := rfl
@[simp] theorem State.onPan_svc : (s.onPan n f).svc = s.svc := rfl
@[simp] theorem State.onPan_jobs : (s.onPan n f).jobs = s.jobs := rfl
@[simp] theorem State.onPan_nextJob : (s.onPan n f).nextJob = s.nextJob := rfl
@[simp] theorem State.onPan_priors : (s.onPan n f).priors = s.priors := rfl
@[simp] theorem State.onPan_shortfall : (s.onPan n f).shortfall = s.shortfall := rfl
@[simp] theorem State.onPan_loops : (s.onPan n f).loops = s.loops := rfl
@[simp] theorem State.onPan_pairs : (s.onPan n f).pairs = s.pairs := rfl
@[simp] theorem State.onPan_traces : (s.onPan n f).traces = s.traces := rfl
@[simp] theorem State.onPan_loopEng : (s.onPan n f).loopEng = s.loopEng := rfl
@[simp] theorem State.onPan_ingest : (s.onPan n f).ingest = s.ingest := rfl
@[simp] theorem State.onPan_sets : (s.onPan n f).sets = s.sets := rfl
@[simp] theorem State.onPan_pan : (s.onPan n f).pan n = f (s.pan n) := by simp [State.onPan, State.pan]
theorem State.onPan_pan_ne (m : Nat) (h : m ≠ n) : (s.onPan n f).pan m = s.pan m := by
  simp [State.onPan, State.pan, SMap.getD_put_ne, h]
end

/-! ### onQueue -/

section
variable (n : Nat) (f : QueueSt → QueueSt)
@[simp] theorem State.onQueue_pending : (s.onQueue n f).pending = s.pending := rfl
@[simp] theorem State.onQueue_nclk : (s.onQueue n f).nclk = s.nclk := rfl
@[simp] theorem State.onQueue_free : (s.onQueue n f).free = s.free := rfl
@[simp] theorem State.onQueue_power : (s.onQueue n f).power = s.power := rfl
@[simp] theorem State.onQueue_thermal : (s.onQueue n f).thermal = s.thermal := rfl
@[simp] theorem State.onQueue_avs : (s.onQueue n f).avs = s.avs := rfl
@[simp] theorem State.onQueue_tide : (s.onQueue n f).tide = s.tide := rfl
@[simp] theorem State.onQueue_ready : (s.onQueue n f).ready = s.ready := rfl
@[simp] theorem State.onQueue_coreReady : (s.onQueue n f).coreReady = s.coreReady := rfl
@[simp] theorem State.onQueue_rsvdWrite : (s.onQueue n f).rsvdWrite = s.rsvdWrite := rfl
@[simp] theorem State.onQueue_rsvdSrc : (s.onQueue n f).rsvdSrc = s.rsvdSrc := rfl
@[simp] theorem State.onQueue_rsvdAddr : (s.onQueue n f).rsvdAddr = s.rsvdAddr := rfl
@[simp] theorem State.onQueue_regs : (s.onQueue n f).regs = s.regs := rfl
@[simp] theorem State.onQueue_counts : (s.onQueue n f).counts = s.counts := rfl
@[simp] theorem State.onQueue_logs : (s.onQueue n f).logs = s.logs := rfl
@[simp] theorem State.onQueue_regions : (s.onQueue n f).regions = s.regions := rfl
@[simp] theorem State.onQueue_wear : (s.onQueue n f).wear = s.wear := rfl
@[simp] theorem State.onQueue_bist : (s.onQueue n f).bist = s.bist := rfl
@[simp] theorem State.onQueue_attrib : (s.onQueue n f).attrib = s.attrib := rfl
@[simp] theorem State.onQueue_hportA : (s.onQueue n f).hportA = s.hportA := rfl
@[simp] theorem State.onQueue_hportB : (s.onQueue n f).hportB = s.hportB := rfl
@[simp] theorem State.onQueue_hcfg : (s.onQueue n f).hcfg = s.hcfg := rfl
@[simp] theorem State.onQueue_heldReads : (s.onQueue n f).heldReads = s.heldReads := rfl
@[simp] theorem State.onQueue_bports : (s.onQueue n f).bports = s.bports := rfl
@[simp] theorem State.onQueue_windows : (s.onQueue n f).windows = s.windows := rfl
@[simp] theorem State.onQueue_staged : (s.onQueue n f).staged = s.staged := rfl
@[simp] theorem State.onQueue_sems : (s.onQueue n f).sems = s.sems := rfl
@[simp] theorem State.onQueue_transfers : (s.onQueue n f).transfers = s.transfers := rfl
@[simp] theorem State.onQueue_comps : (s.onQueue n f).comps = s.comps := rfl
@[simp] theorem State.onQueue_nextComp : (s.onQueue n f).nextComp = s.nextComp := rfl
@[simp] theorem State.onQueue_sec : (s.onQueue n f).sec = s.sec := rfl
@[simp] theorem State.onQueue_ledger : (s.onQueue n f).ledger = s.ledger := rfl
@[simp] theorem State.onQueue_tap : (s.onQueue n f).tap = s.tap := rfl
@[simp] theorem State.onQueue_mem : (s.onQueue n f).mem = s.mem := rfl
@[simp] theorem State.onQueue_poison : (s.onQueue n f).poison = s.poison := rfl
@[simp] theorem State.onQueue_corrected : (s.onQueue n f).corrected = s.corrected := rfl
@[simp] theorem State.onQueue_full : (s.onQueue n f).full = s.full := rfl
@[simp] theorem State.onQueue_dirty : (s.onQueue n f).dirty = s.dirty := rfl
@[simp] theorem State.onQueue_sel : (s.onQueue n f).sel = s.sel := rfl
@[simp] theorem State.onQueue_cores : (s.onQueue n f).cores = s.cores := rfl
@[simp] theorem State.onQueue_pans : (s.onQueue n f).pans = s.pans := rfl
@[simp] theorem State.onQueue_xacts : (s.onQueue n f).xacts = s.xacts := rfl
@[simp] theorem State.onQueue_hbus : (s.onQueue n f).hbus = s.hbus := rfl
@[simp] theorem State.onQueue_pageCrc : (s.onQueue n f).pageCrc = s.pageCrc := rfl
@[simp] theorem State.onQueue_waits : (s.onQueue n f).waits = s.waits := rfl
@[simp] theorem State.onQueue_svc : (s.onQueue n f).svc = s.svc := rfl
@[simp] theorem State.onQueue_jobs : (s.onQueue n f).jobs = s.jobs := rfl
@[simp] theorem State.onQueue_nextJob : (s.onQueue n f).nextJob = s.nextJob := rfl
@[simp] theorem State.onQueue_priors : (s.onQueue n f).priors = s.priors := rfl
@[simp] theorem State.onQueue_shortfall : (s.onQueue n f).shortfall = s.shortfall := rfl
@[simp] theorem State.onQueue_loops : (s.onQueue n f).loops = s.loops := rfl
@[simp] theorem State.onQueue_pairs : (s.onQueue n f).pairs = s.pairs := rfl
@[simp] theorem State.onQueue_traces : (s.onQueue n f).traces = s.traces := rfl
@[simp] theorem State.onQueue_loopEng : (s.onQueue n f).loopEng = s.loopEng := rfl
@[simp] theorem State.onQueue_ingest : (s.onQueue n f).ingest = s.ingest := rfl
@[simp] theorem State.onQueue_sets : (s.onQueue n f).sets = s.sets := rfl
@[simp] theorem State.onQueue_queue : (s.onQueue n f).queue n = f (s.queue n) := by simp [State.onQueue, State.queue]
theorem State.onQueue_queue_ne (m : Nat) (h : m ≠ n) : (s.onQueue n f).queue m = s.queue m := by
  simp [State.onQueue, State.queue, SMap.getD_put_ne, h]
end

/-! ### onWindow -/

section
variable (n : Nat) (f : WinSt → WinSt)
@[simp] theorem State.onWindow_pending : (s.onWindow n f).pending = s.pending := rfl
@[simp] theorem State.onWindow_nclk : (s.onWindow n f).nclk = s.nclk := rfl
@[simp] theorem State.onWindow_free : (s.onWindow n f).free = s.free := rfl
@[simp] theorem State.onWindow_power : (s.onWindow n f).power = s.power := rfl
@[simp] theorem State.onWindow_thermal : (s.onWindow n f).thermal = s.thermal := rfl
@[simp] theorem State.onWindow_avs : (s.onWindow n f).avs = s.avs := rfl
@[simp] theorem State.onWindow_tide : (s.onWindow n f).tide = s.tide := rfl
@[simp] theorem State.onWindow_ready : (s.onWindow n f).ready = s.ready := rfl
@[simp] theorem State.onWindow_coreReady : (s.onWindow n f).coreReady = s.coreReady := rfl
@[simp] theorem State.onWindow_rsvdWrite : (s.onWindow n f).rsvdWrite = s.rsvdWrite := rfl
@[simp] theorem State.onWindow_rsvdSrc : (s.onWindow n f).rsvdSrc = s.rsvdSrc := rfl
@[simp] theorem State.onWindow_rsvdAddr : (s.onWindow n f).rsvdAddr = s.rsvdAddr := rfl
@[simp] theorem State.onWindow_regs : (s.onWindow n f).regs = s.regs := rfl
@[simp] theorem State.onWindow_counts : (s.onWindow n f).counts = s.counts := rfl
@[simp] theorem State.onWindow_logs : (s.onWindow n f).logs = s.logs := rfl
@[simp] theorem State.onWindow_regions : (s.onWindow n f).regions = s.regions := rfl
@[simp] theorem State.onWindow_wear : (s.onWindow n f).wear = s.wear := rfl
@[simp] theorem State.onWindow_bist : (s.onWindow n f).bist = s.bist := rfl
@[simp] theorem State.onWindow_attrib : (s.onWindow n f).attrib = s.attrib := rfl
@[simp] theorem State.onWindow_hportA : (s.onWindow n f).hportA = s.hportA := rfl
@[simp] theorem State.onWindow_hportB : (s.onWindow n f).hportB = s.hportB := rfl
@[simp] theorem State.onWindow_hcfg : (s.onWindow n f).hcfg = s.hcfg := rfl
@[simp] theorem State.onWindow_heldReads : (s.onWindow n f).heldReads = s.heldReads := rfl
@[simp] theorem State.onWindow_bports : (s.onWindow n f).bports = s.bports := rfl
@[simp] theorem State.onWindow_queues : (s.onWindow n f).queues = s.queues := rfl
@[simp] theorem State.onWindow_staged : (s.onWindow n f).staged = s.staged := rfl
@[simp] theorem State.onWindow_sems : (s.onWindow n f).sems = s.sems := rfl
@[simp] theorem State.onWindow_transfers : (s.onWindow n f).transfers = s.transfers := rfl
@[simp] theorem State.onWindow_comps : (s.onWindow n f).comps = s.comps := rfl
@[simp] theorem State.onWindow_nextComp : (s.onWindow n f).nextComp = s.nextComp := rfl
@[simp] theorem State.onWindow_sec : (s.onWindow n f).sec = s.sec := rfl
@[simp] theorem State.onWindow_ledger : (s.onWindow n f).ledger = s.ledger := rfl
@[simp] theorem State.onWindow_tap : (s.onWindow n f).tap = s.tap := rfl
@[simp] theorem State.onWindow_mem : (s.onWindow n f).mem = s.mem := rfl
@[simp] theorem State.onWindow_poison : (s.onWindow n f).poison = s.poison := rfl
@[simp] theorem State.onWindow_corrected : (s.onWindow n f).corrected = s.corrected := rfl
@[simp] theorem State.onWindow_full : (s.onWindow n f).full = s.full := rfl
@[simp] theorem State.onWindow_dirty : (s.onWindow n f).dirty = s.dirty := rfl
@[simp] theorem State.onWindow_sel : (s.onWindow n f).sel = s.sel := rfl
@[simp] theorem State.onWindow_cores : (s.onWindow n f).cores = s.cores := rfl
@[simp] theorem State.onWindow_pans : (s.onWindow n f).pans = s.pans := rfl
@[simp] theorem State.onWindow_xacts : (s.onWindow n f).xacts = s.xacts := rfl
@[simp] theorem State.onWindow_hbus : (s.onWindow n f).hbus = s.hbus := rfl
@[simp] theorem State.onWindow_pageCrc : (s.onWindow n f).pageCrc = s.pageCrc := rfl
@[simp] theorem State.onWindow_waits : (s.onWindow n f).waits = s.waits := rfl
@[simp] theorem State.onWindow_svc : (s.onWindow n f).svc = s.svc := rfl
@[simp] theorem State.onWindow_jobs : (s.onWindow n f).jobs = s.jobs := rfl
@[simp] theorem State.onWindow_nextJob : (s.onWindow n f).nextJob = s.nextJob := rfl
@[simp] theorem State.onWindow_priors : (s.onWindow n f).priors = s.priors := rfl
@[simp] theorem State.onWindow_shortfall : (s.onWindow n f).shortfall = s.shortfall := rfl
@[simp] theorem State.onWindow_loops : (s.onWindow n f).loops = s.loops := rfl
@[simp] theorem State.onWindow_pairs : (s.onWindow n f).pairs = s.pairs := rfl
@[simp] theorem State.onWindow_traces : (s.onWindow n f).traces = s.traces := rfl
@[simp] theorem State.onWindow_loopEng : (s.onWindow n f).loopEng = s.loopEng := rfl
@[simp] theorem State.onWindow_ingest : (s.onWindow n f).ingest = s.ingest := rfl
@[simp] theorem State.onWindow_sets : (s.onWindow n f).sets = s.sets := rfl
@[simp] theorem State.onWindow_window : (s.onWindow n f).window n = f (s.window n) := by simp [State.onWindow, State.window]
theorem State.onWindow_window_ne (m : Nat) (h : m ≠ n) : (s.onWindow n f).window m = s.window m := by
  simp [State.onWindow, State.window, SMap.getD_put_ne, h]
end

/-! ### onJob -/

section
variable (n : Nat) (f : Job → Job)
@[simp] theorem State.onJob_pending : (s.onJob n f).pending = s.pending := rfl
@[simp] theorem State.onJob_nclk : (s.onJob n f).nclk = s.nclk := rfl
@[simp] theorem State.onJob_free : (s.onJob n f).free = s.free := rfl
@[simp] theorem State.onJob_power : (s.onJob n f).power = s.power := rfl
@[simp] theorem State.onJob_thermal : (s.onJob n f).thermal = s.thermal := rfl
@[simp] theorem State.onJob_avs : (s.onJob n f).avs = s.avs := rfl
@[simp] theorem State.onJob_tide : (s.onJob n f).tide = s.tide := rfl
@[simp] theorem State.onJob_ready : (s.onJob n f).ready = s.ready := rfl
@[simp] theorem State.onJob_coreReady : (s.onJob n f).coreReady = s.coreReady := rfl
@[simp] theorem State.onJob_rsvdWrite : (s.onJob n f).rsvdWrite = s.rsvdWrite := rfl
@[simp] theorem State.onJob_rsvdSrc : (s.onJob n f).rsvdSrc = s.rsvdSrc := rfl
@[simp] theorem State.onJob_rsvdAddr : (s.onJob n f).rsvdAddr = s.rsvdAddr := rfl
@[simp] theorem State.onJob_regs : (s.onJob n f).regs = s.regs := rfl
@[simp] theorem State.onJob_counts : (s.onJob n f).counts = s.counts := rfl
@[simp] theorem State.onJob_logs : (s.onJob n f).logs = s.logs := rfl
@[simp] theorem State.onJob_regions : (s.onJob n f).regions = s.regions := rfl
@[simp] theorem State.onJob_wear : (s.onJob n f).wear = s.wear := rfl
@[simp] theorem State.onJob_bist : (s.onJob n f).bist = s.bist := rfl
@[simp] theorem State.onJob_attrib : (s.onJob n f).attrib = s.attrib := rfl
@[simp] theorem State.onJob_hportA : (s.onJob n f).hportA = s.hportA := rfl
@[simp] theorem State.onJob_hportB : (s.onJob n f).hportB = s.hportB := rfl
@[simp] theorem State.onJob_hcfg : (s.onJob n f).hcfg = s.hcfg := rfl
@[simp] theorem State.onJob_heldReads : (s.onJob n f).heldReads = s.heldReads := rfl
@[simp] theorem State.onJob_bports : (s.onJob n f).bports = s.bports := rfl
@[simp] theorem State.onJob_queues : (s.onJob n f).queues = s.queues := rfl
@[simp] theorem State.onJob_windows : (s.onJob n f).windows = s.windows := rfl
@[simp] theorem State.onJob_staged : (s.onJob n f).staged = s.staged := rfl
@[simp] theorem State.onJob_sems : (s.onJob n f).sems = s.sems := rfl
@[simp] theorem State.onJob_transfers : (s.onJob n f).transfers = s.transfers := rfl
@[simp] theorem State.onJob_comps : (s.onJob n f).comps = s.comps := rfl
@[simp] theorem State.onJob_nextComp : (s.onJob n f).nextComp = s.nextComp := rfl
@[simp] theorem State.onJob_sec : (s.onJob n f).sec = s.sec := rfl
@[simp] theorem State.onJob_ledger : (s.onJob n f).ledger = s.ledger := rfl
@[simp] theorem State.onJob_tap : (s.onJob n f).tap = s.tap := rfl
@[simp] theorem State.onJob_mem : (s.onJob n f).mem = s.mem := rfl
@[simp] theorem State.onJob_poison : (s.onJob n f).poison = s.poison := rfl
@[simp] theorem State.onJob_corrected : (s.onJob n f).corrected = s.corrected := rfl
@[simp] theorem State.onJob_full : (s.onJob n f).full = s.full := rfl
@[simp] theorem State.onJob_dirty : (s.onJob n f).dirty = s.dirty := rfl
@[simp] theorem State.onJob_sel : (s.onJob n f).sel = s.sel := rfl
@[simp] theorem State.onJob_cores : (s.onJob n f).cores = s.cores := rfl
@[simp] theorem State.onJob_pans : (s.onJob n f).pans = s.pans := rfl
@[simp] theorem State.onJob_xacts : (s.onJob n f).xacts = s.xacts := rfl
@[simp] theorem State.onJob_hbus : (s.onJob n f).hbus = s.hbus := rfl
@[simp] theorem State.onJob_pageCrc : (s.onJob n f).pageCrc = s.pageCrc := rfl
@[simp] theorem State.onJob_waits : (s.onJob n f).waits = s.waits := rfl
@[simp] theorem State.onJob_svc : (s.onJob n f).svc = s.svc := rfl
@[simp] theorem State.onJob_nextJob : (s.onJob n f).nextJob = s.nextJob := rfl
@[simp] theorem State.onJob_priors : (s.onJob n f).priors = s.priors := rfl
@[simp] theorem State.onJob_shortfall : (s.onJob n f).shortfall = s.shortfall := rfl
@[simp] theorem State.onJob_loops : (s.onJob n f).loops = s.loops := rfl
@[simp] theorem State.onJob_pairs : (s.onJob n f).pairs = s.pairs := rfl
@[simp] theorem State.onJob_traces : (s.onJob n f).traces = s.traces := rfl
@[simp] theorem State.onJob_loopEng : (s.onJob n f).loopEng = s.loopEng := rfl
@[simp] theorem State.onJob_ingest : (s.onJob n f).ingest = s.ingest := rfl
@[simp] theorem State.onJob_sets : (s.onJob n f).sets = s.sets := rfl
end

/-! ### dropJob -/

section
variable (n : Nat)
@[simp] theorem State.dropJob_pending : (s.dropJob n).pending = s.pending := rfl
@[simp] theorem State.dropJob_nclk : (s.dropJob n).nclk = s.nclk := rfl
@[simp] theorem State.dropJob_free : (s.dropJob n).free = s.free := rfl
@[simp] theorem State.dropJob_power : (s.dropJob n).power = s.power := rfl
@[simp] theorem State.dropJob_thermal : (s.dropJob n).thermal = s.thermal := rfl
@[simp] theorem State.dropJob_avs : (s.dropJob n).avs = s.avs := rfl
@[simp] theorem State.dropJob_tide : (s.dropJob n).tide = s.tide := rfl
@[simp] theorem State.dropJob_ready : (s.dropJob n).ready = s.ready := rfl
@[simp] theorem State.dropJob_coreReady : (s.dropJob n).coreReady = s.coreReady := rfl
@[simp] theorem State.dropJob_rsvdWrite : (s.dropJob n).rsvdWrite = s.rsvdWrite := rfl
@[simp] theorem State.dropJob_rsvdSrc : (s.dropJob n).rsvdSrc = s.rsvdSrc := rfl
@[simp] theorem State.dropJob_rsvdAddr : (s.dropJob n).rsvdAddr = s.rsvdAddr := rfl
@[simp] theorem State.dropJob_regs : (s.dropJob n).regs = s.regs := rfl
@[simp] theorem State.dropJob_counts : (s.dropJob n).counts = s.counts := rfl
@[simp] theorem State.dropJob_logs : (s.dropJob n).logs = s.logs := rfl
@[simp] theorem State.dropJob_regions : (s.dropJob n).regions = s.regions := rfl
@[simp] theorem State.dropJob_wear : (s.dropJob n).wear = s.wear := rfl
@[simp] theorem State.dropJob_bist : (s.dropJob n).bist = s.bist := rfl
@[simp] theorem State.dropJob_attrib : (s.dropJob n).attrib = s.attrib := rfl
@[simp] theorem State.dropJob_hportA : (s.dropJob n).hportA = s.hportA := rfl
@[simp] theorem State.dropJob_hportB : (s.dropJob n).hportB = s.hportB := rfl
@[simp] theorem State.dropJob_hcfg : (s.dropJob n).hcfg = s.hcfg := rfl
@[simp] theorem State.dropJob_heldReads : (s.dropJob n).heldReads = s.heldReads := rfl
@[simp] theorem State.dropJob_bports : (s.dropJob n).bports = s.bports := rfl
@[simp] theorem State.dropJob_queues : (s.dropJob n).queues = s.queues := rfl
@[simp] theorem State.dropJob_windows : (s.dropJob n).windows = s.windows := rfl
@[simp] theorem State.dropJob_staged : (s.dropJob n).staged = s.staged := rfl
@[simp] theorem State.dropJob_sems : (s.dropJob n).sems = s.sems := rfl
@[simp] theorem State.dropJob_transfers : (s.dropJob n).transfers = s.transfers := rfl
@[simp] theorem State.dropJob_comps : (s.dropJob n).comps = s.comps := rfl
@[simp] theorem State.dropJob_nextComp : (s.dropJob n).nextComp = s.nextComp := rfl
@[simp] theorem State.dropJob_sec : (s.dropJob n).sec = s.sec := rfl
@[simp] theorem State.dropJob_ledger : (s.dropJob n).ledger = s.ledger := rfl
@[simp] theorem State.dropJob_tap : (s.dropJob n).tap = s.tap := rfl
@[simp] theorem State.dropJob_mem : (s.dropJob n).mem = s.mem := rfl
@[simp] theorem State.dropJob_poison : (s.dropJob n).poison = s.poison := rfl
@[simp] theorem State.dropJob_corrected : (s.dropJob n).corrected = s.corrected := rfl
@[simp] theorem State.dropJob_full : (s.dropJob n).full = s.full := rfl
@[simp] theorem State.dropJob_dirty : (s.dropJob n).dirty = s.dirty := rfl
@[simp] theorem State.dropJob_sel : (s.dropJob n).sel = s.sel := rfl
@[simp] theorem State.dropJob_cores : (s.dropJob n).cores = s.cores := rfl
@[simp] theorem State.dropJob_pans : (s.dropJob n).pans = s.pans := rfl
@[simp] theorem State.dropJob_xacts : (s.dropJob n).xacts = s.xacts := rfl
@[simp] theorem State.dropJob_hbus : (s.dropJob n).hbus = s.hbus := rfl
@[simp] theorem State.dropJob_pageCrc : (s.dropJob n).pageCrc = s.pageCrc := rfl
@[simp] theorem State.dropJob_waits : (s.dropJob n).waits = s.waits := rfl
@[simp] theorem State.dropJob_svc : (s.dropJob n).svc = s.svc := rfl
@[simp] theorem State.dropJob_nextJob : (s.dropJob n).nextJob = s.nextJob := rfl
@[simp] theorem State.dropJob_priors : (s.dropJob n).priors = s.priors := rfl
@[simp] theorem State.dropJob_shortfall : (s.dropJob n).shortfall = s.shortfall := rfl
@[simp] theorem State.dropJob_loops : (s.dropJob n).loops = s.loops := rfl
@[simp] theorem State.dropJob_pairs : (s.dropJob n).pairs = s.pairs := rfl
@[simp] theorem State.dropJob_traces : (s.dropJob n).traces = s.traces := rfl
@[simp] theorem State.dropJob_loopEng : (s.dropJob n).loopEng = s.loopEng := rfl
@[simp] theorem State.dropJob_ingest : (s.dropJob n).ingest = s.ingest := rfl
@[simp] theorem State.dropJob_sets : (s.dropJob n).sets = s.sets := rfl
end

/-! ### onLoop -/

section
variable (n : Nat) (f : LoopSt → LoopSt)
@[simp] theorem State.onLoop_pending : (s.onLoop n f).pending = s.pending := rfl
@[simp] theorem State.onLoop_nclk : (s.onLoop n f).nclk = s.nclk := rfl
@[simp] theorem State.onLoop_free : (s.onLoop n f).free = s.free := rfl
@[simp] theorem State.onLoop_power : (s.onLoop n f).power = s.power := rfl
@[simp] theorem State.onLoop_thermal : (s.onLoop n f).thermal = s.thermal := rfl
@[simp] theorem State.onLoop_avs : (s.onLoop n f).avs = s.avs := rfl
@[simp] theorem State.onLoop_tide : (s.onLoop n f).tide = s.tide := rfl
@[simp] theorem State.onLoop_ready : (s.onLoop n f).ready = s.ready := rfl
@[simp] theorem State.onLoop_coreReady : (s.onLoop n f).coreReady = s.coreReady := rfl
@[simp] theorem State.onLoop_rsvdWrite : (s.onLoop n f).rsvdWrite = s.rsvdWrite := rfl
@[simp] theorem State.onLoop_rsvdSrc : (s.onLoop n f).rsvdSrc = s.rsvdSrc := rfl
@[simp] theorem State.onLoop_rsvdAddr : (s.onLoop n f).rsvdAddr = s.rsvdAddr := rfl
@[simp] theorem State.onLoop_regs : (s.onLoop n f).regs = s.regs := rfl
@[simp] theorem State.onLoop_counts : (s.onLoop n f).counts = s.counts := rfl
@[simp] theorem State.onLoop_logs : (s.onLoop n f).logs = s.logs := rfl
@[simp] theorem State.onLoop_regions : (s.onLoop n f).regions = s.regions := rfl
@[simp] theorem State.onLoop_wear : (s.onLoop n f).wear = s.wear := rfl
@[simp] theorem State.onLoop_bist : (s.onLoop n f).bist = s.bist := rfl
@[simp] theorem State.onLoop_attrib : (s.onLoop n f).attrib = s.attrib := rfl
@[simp] theorem State.onLoop_hportA : (s.onLoop n f).hportA = s.hportA := rfl
@[simp] theorem State.onLoop_hportB : (s.onLoop n f).hportB = s.hportB := rfl
@[simp] theorem State.onLoop_hcfg : (s.onLoop n f).hcfg = s.hcfg := rfl
@[simp] theorem State.onLoop_heldReads : (s.onLoop n f).heldReads = s.heldReads := rfl
@[simp] theorem State.onLoop_bports : (s.onLoop n f).bports = s.bports := rfl
@[simp] theorem State.onLoop_queues : (s.onLoop n f).queues = s.queues := rfl
@[simp] theorem State.onLoop_windows : (s.onLoop n f).windows = s.windows := rfl
@[simp] theorem State.onLoop_staged : (s.onLoop n f).staged = s.staged := rfl
@[simp] theorem State.onLoop_sems : (s.onLoop n f).sems = s.sems := rfl
@[simp] theorem State.onLoop_transfers : (s.onLoop n f).transfers = s.transfers := rfl
@[simp] theorem State.onLoop_comps : (s.onLoop n f).comps = s.comps := rfl
@[simp] theorem State.onLoop_nextComp : (s.onLoop n f).nextComp = s.nextComp := rfl
@[simp] theorem State.onLoop_sec : (s.onLoop n f).sec = s.sec := rfl
@[simp] theorem State.onLoop_ledger : (s.onLoop n f).ledger = s.ledger := rfl
@[simp] theorem State.onLoop_tap : (s.onLoop n f).tap = s.tap := rfl
@[simp] theorem State.onLoop_mem : (s.onLoop n f).mem = s.mem := rfl
@[simp] theorem State.onLoop_poison : (s.onLoop n f).poison = s.poison := rfl
@[simp] theorem State.onLoop_corrected : (s.onLoop n f).corrected = s.corrected := rfl
@[simp] theorem State.onLoop_full : (s.onLoop n f).full = s.full := rfl
@[simp] theorem State.onLoop_dirty : (s.onLoop n f).dirty = s.dirty := rfl
@[simp] theorem State.onLoop_sel : (s.onLoop n f).sel = s.sel := rfl
@[simp] theorem State.onLoop_cores : (s.onLoop n f).cores = s.cores := rfl
@[simp] theorem State.onLoop_pans : (s.onLoop n f).pans = s.pans := rfl
@[simp] theorem State.onLoop_xacts : (s.onLoop n f).xacts = s.xacts := rfl
@[simp] theorem State.onLoop_hbus : (s.onLoop n f).hbus = s.hbus := rfl
@[simp] theorem State.onLoop_pageCrc : (s.onLoop n f).pageCrc = s.pageCrc := rfl
@[simp] theorem State.onLoop_waits : (s.onLoop n f).waits = s.waits := rfl
@[simp] theorem State.onLoop_svc : (s.onLoop n f).svc = s.svc := rfl
@[simp] theorem State.onLoop_jobs : (s.onLoop n f).jobs = s.jobs := rfl
@[simp] theorem State.onLoop_nextJob : (s.onLoop n f).nextJob = s.nextJob := rfl
@[simp] theorem State.onLoop_priors : (s.onLoop n f).priors = s.priors := rfl
@[simp] theorem State.onLoop_shortfall : (s.onLoop n f).shortfall = s.shortfall := rfl
@[simp] theorem State.onLoop_pairs : (s.onLoop n f).pairs = s.pairs := rfl
@[simp] theorem State.onLoop_traces : (s.onLoop n f).traces = s.traces := rfl
@[simp] theorem State.onLoop_loopEng : (s.onLoop n f).loopEng = s.loopEng := rfl
@[simp] theorem State.onLoop_ingest : (s.onLoop n f).ingest = s.ingest := rfl
@[simp] theorem State.onLoop_sets : (s.onLoop n f).sets = s.sets := rfl
@[simp] theorem State.onLoop_loop : (s.onLoop n f).loop n = f (s.loop n) := by simp [State.onLoop, State.loop]
theorem State.onLoop_loop_ne (m : Nat) (h : m ≠ n) : (s.onLoop n f).loop m = s.loop m := by
  simp [State.onLoop, State.loop, SMap.getD_put_ne, h]
end

/-! ### onPair -/

section
variable (n : Nat) (f : PairSt → PairSt)
@[simp] theorem State.onPair_pending : (s.onPair n f).pending = s.pending := rfl
@[simp] theorem State.onPair_nclk : (s.onPair n f).nclk = s.nclk := rfl
@[simp] theorem State.onPair_free : (s.onPair n f).free = s.free := rfl
@[simp] theorem State.onPair_power : (s.onPair n f).power = s.power := rfl
@[simp] theorem State.onPair_thermal : (s.onPair n f).thermal = s.thermal := rfl
@[simp] theorem State.onPair_avs : (s.onPair n f).avs = s.avs := rfl
@[simp] theorem State.onPair_tide : (s.onPair n f).tide = s.tide := rfl
@[simp] theorem State.onPair_ready : (s.onPair n f).ready = s.ready := rfl
@[simp] theorem State.onPair_coreReady : (s.onPair n f).coreReady = s.coreReady := rfl
@[simp] theorem State.onPair_rsvdWrite : (s.onPair n f).rsvdWrite = s.rsvdWrite := rfl
@[simp] theorem State.onPair_rsvdSrc : (s.onPair n f).rsvdSrc = s.rsvdSrc := rfl
@[simp] theorem State.onPair_rsvdAddr : (s.onPair n f).rsvdAddr = s.rsvdAddr := rfl
@[simp] theorem State.onPair_regs : (s.onPair n f).regs = s.regs := rfl
@[simp] theorem State.onPair_counts : (s.onPair n f).counts = s.counts := rfl
@[simp] theorem State.onPair_logs : (s.onPair n f).logs = s.logs := rfl
@[simp] theorem State.onPair_regions : (s.onPair n f).regions = s.regions := rfl
@[simp] theorem State.onPair_wear : (s.onPair n f).wear = s.wear := rfl
@[simp] theorem State.onPair_bist : (s.onPair n f).bist = s.bist := rfl
@[simp] theorem State.onPair_attrib : (s.onPair n f).attrib = s.attrib := rfl
@[simp] theorem State.onPair_hportA : (s.onPair n f).hportA = s.hportA := rfl
@[simp] theorem State.onPair_hportB : (s.onPair n f).hportB = s.hportB := rfl
@[simp] theorem State.onPair_hcfg : (s.onPair n f).hcfg = s.hcfg := rfl
@[simp] theorem State.onPair_heldReads : (s.onPair n f).heldReads = s.heldReads := rfl
@[simp] theorem State.onPair_bports : (s.onPair n f).bports = s.bports := rfl
@[simp] theorem State.onPair_queues : (s.onPair n f).queues = s.queues := rfl
@[simp] theorem State.onPair_windows : (s.onPair n f).windows = s.windows := rfl
@[simp] theorem State.onPair_staged : (s.onPair n f).staged = s.staged := rfl
@[simp] theorem State.onPair_sems : (s.onPair n f).sems = s.sems := rfl
@[simp] theorem State.onPair_transfers : (s.onPair n f).transfers = s.transfers := rfl
@[simp] theorem State.onPair_comps : (s.onPair n f).comps = s.comps := rfl
@[simp] theorem State.onPair_nextComp : (s.onPair n f).nextComp = s.nextComp := rfl
@[simp] theorem State.onPair_sec : (s.onPair n f).sec = s.sec := rfl
@[simp] theorem State.onPair_ledger : (s.onPair n f).ledger = s.ledger := rfl
@[simp] theorem State.onPair_tap : (s.onPair n f).tap = s.tap := rfl
@[simp] theorem State.onPair_mem : (s.onPair n f).mem = s.mem := rfl
@[simp] theorem State.onPair_poison : (s.onPair n f).poison = s.poison := rfl
@[simp] theorem State.onPair_corrected : (s.onPair n f).corrected = s.corrected := rfl
@[simp] theorem State.onPair_full : (s.onPair n f).full = s.full := rfl
@[simp] theorem State.onPair_dirty : (s.onPair n f).dirty = s.dirty := rfl
@[simp] theorem State.onPair_sel : (s.onPair n f).sel = s.sel := rfl
@[simp] theorem State.onPair_cores : (s.onPair n f).cores = s.cores := rfl
@[simp] theorem State.onPair_pans : (s.onPair n f).pans = s.pans := rfl
@[simp] theorem State.onPair_xacts : (s.onPair n f).xacts = s.xacts := rfl
@[simp] theorem State.onPair_hbus : (s.onPair n f).hbus = s.hbus := rfl
@[simp] theorem State.onPair_pageCrc : (s.onPair n f).pageCrc = s.pageCrc := rfl
@[simp] theorem State.onPair_waits : (s.onPair n f).waits = s.waits := rfl
@[simp] theorem State.onPair_svc : (s.onPair n f).svc = s.svc := rfl
@[simp] theorem State.onPair_jobs : (s.onPair n f).jobs = s.jobs := rfl
@[simp] theorem State.onPair_nextJob : (s.onPair n f).nextJob = s.nextJob := rfl
@[simp] theorem State.onPair_priors : (s.onPair n f).priors = s.priors := rfl
@[simp] theorem State.onPair_shortfall : (s.onPair n f).shortfall = s.shortfall := rfl
@[simp] theorem State.onPair_loops : (s.onPair n f).loops = s.loops := rfl
@[simp] theorem State.onPair_traces : (s.onPair n f).traces = s.traces := rfl
@[simp] theorem State.onPair_loopEng : (s.onPair n f).loopEng = s.loopEng := rfl
@[simp] theorem State.onPair_ingest : (s.onPair n f).ingest = s.ingest := rfl
@[simp] theorem State.onPair_sets : (s.onPair n f).sets = s.sets := rfl
@[simp] theorem State.onPair_pair : (s.onPair n f).pair n = f (s.pair n) := by simp [State.onPair, State.pair]
theorem State.onPair_pair_ne (m : Nat) (h : m ≠ n) : (s.onPair n f).pair m = s.pair m := by
  simp [State.onPair, State.pair, SMap.getD_put_ne, h]
end

/-! ### onTrace -/

section
variable (n : Nat) (f : TraceSt → TraceSt)
@[simp] theorem State.onTrace_pending : (s.onTrace n f).pending = s.pending := rfl
@[simp] theorem State.onTrace_nclk : (s.onTrace n f).nclk = s.nclk := rfl
@[simp] theorem State.onTrace_free : (s.onTrace n f).free = s.free := rfl
@[simp] theorem State.onTrace_power : (s.onTrace n f).power = s.power := rfl
@[simp] theorem State.onTrace_thermal : (s.onTrace n f).thermal = s.thermal := rfl
@[simp] theorem State.onTrace_avs : (s.onTrace n f).avs = s.avs := rfl
@[simp] theorem State.onTrace_tide : (s.onTrace n f).tide = s.tide := rfl
@[simp] theorem State.onTrace_ready : (s.onTrace n f).ready = s.ready := rfl
@[simp] theorem State.onTrace_coreReady : (s.onTrace n f).coreReady = s.coreReady := rfl
@[simp] theorem State.onTrace_rsvdWrite : (s.onTrace n f).rsvdWrite = s.rsvdWrite := rfl
@[simp] theorem State.onTrace_rsvdSrc : (s.onTrace n f).rsvdSrc = s.rsvdSrc := rfl
@[simp] theorem State.onTrace_rsvdAddr : (s.onTrace n f).rsvdAddr = s.rsvdAddr := rfl
@[simp] theorem State.onTrace_regs : (s.onTrace n f).regs = s.regs := rfl
@[simp] theorem State.onTrace_counts : (s.onTrace n f).counts = s.counts := rfl
@[simp] theorem State.onTrace_logs : (s.onTrace n f).logs = s.logs := rfl
@[simp] theorem State.onTrace_regions : (s.onTrace n f).regions = s.regions := rfl
@[simp] theorem State.onTrace_wear : (s.onTrace n f).wear = s.wear := rfl
@[simp] theorem State.onTrace_bist : (s.onTrace n f).bist = s.bist := rfl
@[simp] theorem State.onTrace_attrib : (s.onTrace n f).attrib = s.attrib := rfl
@[simp] theorem State.onTrace_hportA : (s.onTrace n f).hportA = s.hportA := rfl
@[simp] theorem State.onTrace_hportB : (s.onTrace n f).hportB = s.hportB := rfl
@[simp] theorem State.onTrace_hcfg : (s.onTrace n f).hcfg = s.hcfg := rfl
@[simp] theorem State.onTrace_heldReads : (s.onTrace n f).heldReads = s.heldReads := rfl
@[simp] theorem State.onTrace_bports : (s.onTrace n f).bports = s.bports := rfl
@[simp] theorem State.onTrace_queues : (s.onTrace n f).queues = s.queues := rfl
@[simp] theorem State.onTrace_windows : (s.onTrace n f).windows = s.windows := rfl
@[simp] theorem State.onTrace_staged : (s.onTrace n f).staged = s.staged := rfl
@[simp] theorem State.onTrace_sems : (s.onTrace n f).sems = s.sems := rfl
@[simp] theorem State.onTrace_transfers : (s.onTrace n f).transfers = s.transfers := rfl
@[simp] theorem State.onTrace_comps : (s.onTrace n f).comps = s.comps := rfl
@[simp] theorem State.onTrace_nextComp : (s.onTrace n f).nextComp = s.nextComp := rfl
@[simp] theorem State.onTrace_sec : (s.onTrace n f).sec = s.sec := rfl
@[simp] theorem State.onTrace_ledger : (s.onTrace n f).ledger = s.ledger := rfl
@[simp] theorem State.onTrace_tap : (s.onTrace n f).tap = s.tap := rfl
@[simp] theorem State.onTrace_mem : (s.onTrace n f).mem = s.mem := rfl
@[simp] theorem State.onTrace_poison : (s.onTrace n f).poison = s.poison := rfl
@[simp] theorem State.onTrace_corrected : (s.onTrace n f).corrected = s.corrected := rfl
@[simp] theorem State.onTrace_full : (s.onTrace n f).full = s.full := rfl
@[simp] theorem State.onTrace_dirty : (s.onTrace n f).dirty = s.dirty := rfl
@[simp] theorem State.onTrace_sel : (s.onTrace n f).sel = s.sel := rfl
@[simp] theorem State.onTrace_cores : (s.onTrace n f).cores = s.cores := rfl
@[simp] theorem State.onTrace_pans : (s.onTrace n f).pans = s.pans := rfl
@[simp] theorem State.onTrace_xacts : (s.onTrace n f).xacts = s.xacts := rfl
@[simp] theorem State.onTrace_hbus : (s.onTrace n f).hbus = s.hbus := rfl
@[simp] theorem State.onTrace_pageCrc : (s.onTrace n f).pageCrc = s.pageCrc := rfl
@[simp] theorem State.onTrace_waits : (s.onTrace n f).waits = s.waits := rfl
@[simp] theorem State.onTrace_svc : (s.onTrace n f).svc = s.svc := rfl
@[simp] theorem State.onTrace_jobs : (s.onTrace n f).jobs = s.jobs := rfl
@[simp] theorem State.onTrace_nextJob : (s.onTrace n f).nextJob = s.nextJob := rfl
@[simp] theorem State.onTrace_priors : (s.onTrace n f).priors = s.priors := rfl
@[simp] theorem State.onTrace_shortfall : (s.onTrace n f).shortfall = s.shortfall := rfl
@[simp] theorem State.onTrace_loops : (s.onTrace n f).loops = s.loops := rfl
@[simp] theorem State.onTrace_pairs : (s.onTrace n f).pairs = s.pairs := rfl
@[simp] theorem State.onTrace_loopEng : (s.onTrace n f).loopEng = s.loopEng := rfl
@[simp] theorem State.onTrace_ingest : (s.onTrace n f).ingest = s.ingest := rfl
@[simp] theorem State.onTrace_sets : (s.onTrace n f).sets = s.sets := rfl
@[simp] theorem State.onTrace_trace : (s.onTrace n f).trace n = f (s.trace n) := by simp [State.onTrace, State.trace]
theorem State.onTrace_trace_ne (m : Nat) (h : m ≠ n) : (s.onTrace n f).trace m = s.trace m := by
  simp [State.onTrace, State.trace, SMap.getD_put_ne, h]
end

/-! ### onRegion -/

section
variable (n : Nat) (f : RegionSt → RegionSt)
@[simp] theorem State.onRegion_pending : (s.onRegion n f).pending = s.pending := rfl
@[simp] theorem State.onRegion_nclk : (s.onRegion n f).nclk = s.nclk := rfl
@[simp] theorem State.onRegion_free : (s.onRegion n f).free = s.free := rfl
@[simp] theorem State.onRegion_power : (s.onRegion n f).power = s.power := rfl
@[simp] theorem State.onRegion_thermal : (s.onRegion n f).thermal = s.thermal := rfl
@[simp] theorem State.onRegion_avs : (s.onRegion n f).avs = s.avs := rfl
@[simp] theorem State.onRegion_tide : (s.onRegion n f).tide = s.tide := rfl
@[simp] theorem State.onRegion_ready : (s.onRegion n f).ready = s.ready := rfl
@[simp] theorem State.onRegion_coreReady : (s.onRegion n f).coreReady = s.coreReady := rfl
@[simp] theorem State.onRegion_rsvdWrite : (s.onRegion n f).rsvdWrite = s.rsvdWrite := rfl
@[simp] theorem State.onRegion_rsvdSrc : (s.onRegion n f).rsvdSrc = s.rsvdSrc := rfl
@[simp] theorem State.onRegion_rsvdAddr : (s.onRegion n f).rsvdAddr = s.rsvdAddr := rfl
@[simp] theorem State.onRegion_regs : (s.onRegion n f).regs = s.regs := rfl
@[simp] theorem State.onRegion_counts : (s.onRegion n f).counts = s.counts := rfl
@[simp] theorem State.onRegion_logs : (s.onRegion n f).logs = s.logs := rfl
@[simp] theorem State.onRegion_wear : (s.onRegion n f).wear = s.wear := rfl
@[simp] theorem State.onRegion_bist : (s.onRegion n f).bist = s.bist := rfl
@[simp] theorem State.onRegion_attrib : (s.onRegion n f).attrib = s.attrib := rfl
@[simp] theorem State.onRegion_hportA : (s.onRegion n f).hportA = s.hportA := rfl
@[simp] theorem State.onRegion_hportB : (s.onRegion n f).hportB = s.hportB := rfl
@[simp] theorem State.onRegion_hcfg : (s.onRegion n f).hcfg = s.hcfg := rfl
@[simp] theorem State.onRegion_heldReads : (s.onRegion n f).heldReads = s.heldReads := rfl
@[simp] theorem State.onRegion_bports : (s.onRegion n f).bports = s.bports := rfl
@[simp] theorem State.onRegion_queues : (s.onRegion n f).queues = s.queues := rfl
@[simp] theorem State.onRegion_windows : (s.onRegion n f).windows = s.windows := rfl
@[simp] theorem State.onRegion_staged : (s.onRegion n f).staged = s.staged := rfl
@[simp] theorem State.onRegion_sems : (s.onRegion n f).sems = s.sems := rfl
@[simp] theorem State.onRegion_transfers : (s.onRegion n f).transfers = s.transfers := rfl
@[simp] theorem State.onRegion_comps : (s.onRegion n f).comps = s.comps := rfl
@[simp] theorem State.onRegion_nextComp : (s.onRegion n f).nextComp = s.nextComp := rfl
@[simp] theorem State.onRegion_sec : (s.onRegion n f).sec = s.sec := rfl
@[simp] theorem State.onRegion_ledger : (s.onRegion n f).ledger = s.ledger := rfl
@[simp] theorem State.onRegion_tap : (s.onRegion n f).tap = s.tap := rfl
@[simp] theorem State.onRegion_mem : (s.onRegion n f).mem = s.mem := rfl
@[simp] theorem State.onRegion_poison : (s.onRegion n f).poison = s.poison := rfl
@[simp] theorem State.onRegion_corrected : (s.onRegion n f).corrected = s.corrected := rfl
@[simp] theorem State.onRegion_full : (s.onRegion n f).full = s.full := rfl
@[simp] theorem State.onRegion_dirty : (s.onRegion n f).dirty = s.dirty := rfl
@[simp] theorem State.onRegion_sel : (s.onRegion n f).sel = s.sel := rfl
@[simp] theorem State.onRegion_cores : (s.onRegion n f).cores = s.cores := rfl
@[simp] theorem State.onRegion_pans : (s.onRegion n f).pans = s.pans := rfl
@[simp] theorem State.onRegion_xacts : (s.onRegion n f).xacts = s.xacts := rfl
@[simp] theorem State.onRegion_hbus : (s.onRegion n f).hbus = s.hbus := rfl
@[simp] theorem State.onRegion_pageCrc : (s.onRegion n f).pageCrc = s.pageCrc := rfl
@[simp] theorem State.onRegion_waits : (s.onRegion n f).waits = s.waits := rfl
@[simp] theorem State.onRegion_svc : (s.onRegion n f).svc = s.svc := rfl
@[simp] theorem State.onRegion_jobs : (s.onRegion n f).jobs = s.jobs := rfl
@[simp] theorem State.onRegion_nextJob : (s.onRegion n f).nextJob = s.nextJob := rfl
@[simp] theorem State.onRegion_priors : (s.onRegion n f).priors = s.priors := rfl
@[simp] theorem State.onRegion_shortfall : (s.onRegion n f).shortfall = s.shortfall := rfl
@[simp] theorem State.onRegion_loops : (s.onRegion n f).loops = s.loops := rfl
@[simp] theorem State.onRegion_pairs : (s.onRegion n f).pairs = s.pairs := rfl
@[simp] theorem State.onRegion_traces : (s.onRegion n f).traces = s.traces := rfl
@[simp] theorem State.onRegion_loopEng : (s.onRegion n f).loopEng = s.loopEng := rfl
@[simp] theorem State.onRegion_ingest : (s.onRegion n f).ingest = s.ingest := rfl
@[simp] theorem State.onRegion_sets : (s.onRegion n f).sets = s.sets := rfl
@[simp] theorem State.onRegion_region : (s.onRegion n f).region n = f (s.region n) := by simp [State.onRegion, State.region]
theorem State.onRegion_region_ne (m : Nat) (h : m ≠ n) : (s.onRegion n f).region m = s.region m := by
  simp [State.onRegion, State.region, SMap.getD_put_ne, h]
end

/-! ### onChan -/

section
variable (n : Nat) (f : Hbus → Hbus)
@[simp] theorem State.onChan_pending : (s.onChan n f).pending = s.pending := rfl
@[simp] theorem State.onChan_nclk : (s.onChan n f).nclk = s.nclk := rfl
@[simp] theorem State.onChan_free : (s.onChan n f).free = s.free := rfl
@[simp] theorem State.onChan_power : (s.onChan n f).power = s.power := rfl
@[simp] theorem State.onChan_thermal : (s.onChan n f).thermal = s.thermal := rfl
@[simp] theorem State.onChan_avs : (s.onChan n f).avs = s.avs := rfl
@[simp] theorem State.onChan_tide : (s.onChan n f).tide = s.tide := rfl
@[simp] theorem State.onChan_ready : (s.onChan n f).ready = s.ready := rfl
@[simp] theorem State.onChan_coreReady : (s.onChan n f).coreReady = s.coreReady := rfl
@[simp] theorem State.onChan_rsvdWrite : (s.onChan n f).rsvdWrite = s.rsvdWrite := rfl
@[simp] theorem State.onChan_rsvdSrc : (s.onChan n f).rsvdSrc = s.rsvdSrc := rfl
@[simp] theorem State.onChan_rsvdAddr : (s.onChan n f).rsvdAddr = s.rsvdAddr := rfl
@[simp] theorem State.onChan_regs : (s.onChan n f).regs = s.regs := rfl
@[simp] theorem State.onChan_counts : (s.onChan n f).counts = s.counts := rfl
@[simp] theorem State.onChan_logs : (s.onChan n f).logs = s.logs := rfl
@[simp] theorem State.onChan_regions : (s.onChan n f).regions = s.regions := rfl
@[simp] theorem State.onChan_wear : (s.onChan n f).wear = s.wear := rfl
@[simp] theorem State.onChan_bist : (s.onChan n f).bist = s.bist := rfl
@[simp] theorem State.onChan_attrib : (s.onChan n f).attrib = s.attrib := rfl
@[simp] theorem State.onChan_hportA : (s.onChan n f).hportA = s.hportA := rfl
@[simp] theorem State.onChan_hportB : (s.onChan n f).hportB = s.hportB := rfl
@[simp] theorem State.onChan_hcfg : (s.onChan n f).hcfg = s.hcfg := rfl
@[simp] theorem State.onChan_heldReads : (s.onChan n f).heldReads = s.heldReads := rfl
@[simp] theorem State.onChan_bports : (s.onChan n f).bports = s.bports := rfl
@[simp] theorem State.onChan_queues : (s.onChan n f).queues = s.queues := rfl
@[simp] theorem State.onChan_windows : (s.onChan n f).windows = s.windows := rfl
@[simp] theorem State.onChan_staged : (s.onChan n f).staged = s.staged := rfl
@[simp] theorem State.onChan_sems : (s.onChan n f).sems = s.sems := rfl
@[simp] theorem State.onChan_transfers : (s.onChan n f).transfers = s.transfers := rfl
@[simp] theorem State.onChan_comps : (s.onChan n f).comps = s.comps := rfl
@[simp] theorem State.onChan_nextComp : (s.onChan n f).nextComp = s.nextComp := rfl
@[simp] theorem State.onChan_sec : (s.onChan n f).sec = s.sec := rfl
@[simp] theorem State.onChan_ledger : (s.onChan n f).ledger = s.ledger := rfl
@[simp] theorem State.onChan_tap : (s.onChan n f).tap = s.tap := rfl
@[simp] theorem State.onChan_mem : (s.onChan n f).mem = s.mem := rfl
@[simp] theorem State.onChan_poison : (s.onChan n f).poison = s.poison := rfl
@[simp] theorem State.onChan_corrected : (s.onChan n f).corrected = s.corrected := rfl
@[simp] theorem State.onChan_full : (s.onChan n f).full = s.full := rfl
@[simp] theorem State.onChan_dirty : (s.onChan n f).dirty = s.dirty := rfl
@[simp] theorem State.onChan_sel : (s.onChan n f).sel = s.sel := rfl
@[simp] theorem State.onChan_cores : (s.onChan n f).cores = s.cores := rfl
@[simp] theorem State.onChan_pans : (s.onChan n f).pans = s.pans := rfl
@[simp] theorem State.onChan_xacts : (s.onChan n f).xacts = s.xacts := rfl
@[simp] theorem State.onChan_pageCrc : (s.onChan n f).pageCrc = s.pageCrc := rfl
@[simp] theorem State.onChan_waits : (s.onChan n f).waits = s.waits := rfl
@[simp] theorem State.onChan_svc : (s.onChan n f).svc = s.svc := rfl
@[simp] theorem State.onChan_jobs : (s.onChan n f).jobs = s.jobs := rfl
@[simp] theorem State.onChan_nextJob : (s.onChan n f).nextJob = s.nextJob := rfl
@[simp] theorem State.onChan_priors : (s.onChan n f).priors = s.priors := rfl
@[simp] theorem State.onChan_shortfall : (s.onChan n f).shortfall = s.shortfall := rfl
@[simp] theorem State.onChan_loops : (s.onChan n f).loops = s.loops := rfl
@[simp] theorem State.onChan_pairs : (s.onChan n f).pairs = s.pairs := rfl
@[simp] theorem State.onChan_traces : (s.onChan n f).traces = s.traces := rfl
@[simp] theorem State.onChan_loopEng : (s.onChan n f).loopEng = s.loopEng := rfl
@[simp] theorem State.onChan_ingest : (s.onChan n f).ingest = s.ingest := rfl
@[simp] theorem State.onChan_sets : (s.onChan n f).sets = s.sets := rfl
@[simp] theorem State.onChan_chan : (s.onChan n f).chan n = f (s.chan n) := by simp [State.onChan, State.chan]
theorem State.onChan_chan_ne (m : Nat) (h : m ≠ n) : (s.onChan n f).chan m = s.chan m := by
  simp [State.onChan, State.chan, SMap.getD_put_ne, h]
end

/-! ### onIngest -/

section
variable (f : Ingest → Ingest)
@[simp] theorem State.onIngest_pending : (s.onIngest f).pending = s.pending := rfl
@[simp] theorem State.onIngest_nclk : (s.onIngest f).nclk = s.nclk := rfl
@[simp] theorem State.onIngest_free : (s.onIngest f).free = s.free := rfl
@[simp] theorem State.onIngest_power : (s.onIngest f).power = s.power := rfl
@[simp] theorem State.onIngest_thermal : (s.onIngest f).thermal = s.thermal := rfl
@[simp] theorem State.onIngest_avs : (s.onIngest f).avs = s.avs := rfl
@[simp] theorem State.onIngest_tide : (s.onIngest f).tide = s.tide := rfl
@[simp] theorem State.onIngest_ready : (s.onIngest f).ready = s.ready := rfl
@[simp] theorem State.onIngest_coreReady : (s.onIngest f).coreReady = s.coreReady := rfl
@[simp] theorem State.onIngest_rsvdWrite : (s.onIngest f).rsvdWrite = s.rsvdWrite := rfl
@[simp] theorem State.onIngest_rsvdSrc : (s.onIngest f).rsvdSrc = s.rsvdSrc := rfl
@[simp] theorem State.onIngest_rsvdAddr : (s.onIngest f).rsvdAddr = s.rsvdAddr := rfl
@[simp] theorem State.onIngest_regs : (s.onIngest f).regs = s.regs := rfl
@[simp] theorem State.onIngest_counts : (s.onIngest f).counts = s.counts := rfl
@[simp] theorem State.onIngest_logs : (s.onIngest f).logs = s.logs := rfl
@[simp] theorem State.onIngest_regions : (s.onIngest f).regions = s.regions := rfl
@[simp] theorem State.onIngest_wear : (s.onIngest f).wear = s.wear := rfl
@[simp] theorem State.onIngest_bist : (s.onIngest f).bist = s.bist := rfl
@[simp] theorem State.onIngest_attrib : (s.onIngest f).attrib = s.attrib := rfl
@[simp] theorem State.onIngest_hportA : (s.onIngest f).hportA = s.hportA := rfl
@[simp] theorem State.onIngest_hportB : (s.onIngest f).hportB = s.hportB := rfl
@[simp] theorem State.onIngest_hcfg : (s.onIngest f).hcfg = s.hcfg := rfl
@[simp] theorem State.onIngest_heldReads : (s.onIngest f).heldReads = s.heldReads := rfl
@[simp] theorem State.onIngest_bports : (s.onIngest f).bports = s.bports := rfl
@[simp] theorem State.onIngest_queues : (s.onIngest f).queues = s.queues := rfl
@[simp] theorem State.onIngest_windows : (s.onIngest f).windows = s.windows := rfl
@[simp] theorem State.onIngest_staged : (s.onIngest f).staged = s.staged := rfl
@[simp] theorem State.onIngest_sems : (s.onIngest f).sems = s.sems := rfl
@[simp] theorem State.onIngest_transfers : (s.onIngest f).transfers = s.transfers := rfl
@[simp] theorem State.onIngest_comps : (s.onIngest f).comps = s.comps := rfl
@[simp] theorem State.onIngest_nextComp : (s.onIngest f).nextComp = s.nextComp := rfl
@[simp] theorem State.onIngest_sec : (s.onIngest f).sec = s.sec := rfl
@[simp] theorem State.onIngest_ledger : (s.onIngest f).ledger = s.ledger := rfl
@[simp] theorem State.onIngest_tap : (s.onIngest f).tap = s.tap := rfl
@[simp] theorem State.onIngest_mem : (s.onIngest f).mem = s.mem := rfl
@[simp] theorem State.onIngest_poison : (s.onIngest f).poison = s.poison := rfl
@[simp] theorem State.onIngest_corrected : (s.onIngest f).corrected = s.corrected := rfl
@[simp] theorem State.onIngest_full : (s.onIngest f).full = s.full := rfl
@[simp] theorem State.onIngest_dirty : (s.onIngest f).dirty = s.dirty := rfl
@[simp] theorem State.onIngest_sel : (s.onIngest f).sel = s.sel := rfl
@[simp] theorem State.onIngest_cores : (s.onIngest f).cores = s.cores := rfl
@[simp] theorem State.onIngest_pans : (s.onIngest f).pans = s.pans := rfl
@[simp] theorem State.onIngest_xacts : (s.onIngest f).xacts = s.xacts := rfl
@[simp] theorem State.onIngest_hbus : (s.onIngest f).hbus = s.hbus := rfl
@[simp] theorem State.onIngest_pageCrc : (s.onIngest f).pageCrc = s.pageCrc := rfl
@[simp] theorem State.onIngest_waits : (s.onIngest f).waits = s.waits := rfl
@[simp] theorem State.onIngest_svc : (s.onIngest f).svc = s.svc := rfl
@[simp] theorem State.onIngest_jobs : (s.onIngest f).jobs = s.jobs := rfl
@[simp] theorem State.onIngest_nextJob : (s.onIngest f).nextJob = s.nextJob := rfl
@[simp] theorem State.onIngest_priors : (s.onIngest f).priors = s.priors := rfl
@[simp] theorem State.onIngest_shortfall : (s.onIngest f).shortfall = s.shortfall := rfl
@[simp] theorem State.onIngest_loops : (s.onIngest f).loops = s.loops := rfl
@[simp] theorem State.onIngest_pairs : (s.onIngest f).pairs = s.pairs := rfl
@[simp] theorem State.onIngest_traces : (s.onIngest f).traces = s.traces := rfl
@[simp] theorem State.onIngest_loopEng : (s.onIngest f).loopEng = s.loopEng := rfl
@[simp] theorem State.onIngest_sets : (s.onIngest f).sets = s.sets := rfl
end

/-! ### setRw -/

section
variable (r : Reg) (w : Word)
@[simp] theorem State.setRw_pending : (s.setRw r w).pending = s.pending := rfl
@[simp] theorem State.setRw_nclk : (s.setRw r w).nclk = s.nclk := rfl
@[simp] theorem State.setRw_free : (s.setRw r w).free = s.free := rfl
@[simp] theorem State.setRw_power : (s.setRw r w).power = s.power := rfl
@[simp] theorem State.setRw_thermal : (s.setRw r w).thermal = s.thermal := rfl
@[simp] theorem State.setRw_avs : (s.setRw r w).avs = s.avs := rfl
@[simp] theorem State.setRw_tide : (s.setRw r w).tide = s.tide := rfl
@[simp] theorem State.setRw_ready : (s.setRw r w).ready = s.ready := rfl
@[simp] theorem State.setRw_coreReady : (s.setRw r w).coreReady = s.coreReady := rfl
@[simp] theorem State.setRw_rsvdWrite : (s.setRw r w).rsvdWrite = s.rsvdWrite := rfl
@[simp] theorem State.setRw_rsvdSrc : (s.setRw r w).rsvdSrc = s.rsvdSrc := rfl
@[simp] theorem State.setRw_rsvdAddr : (s.setRw r w).rsvdAddr = s.rsvdAddr := rfl
@[simp] theorem State.setRw_counts : (s.setRw r w).counts = s.counts := rfl
@[simp] theorem State.setRw_logs : (s.setRw r w).logs = s.logs := rfl
@[simp] theorem State.setRw_regions : (s.setRw r w).regions = s.regions := rfl
@[simp] theorem State.setRw_wear : (s.setRw r w).wear = s.wear := rfl
@[simp] theorem State.setRw_bist : (s.setRw r w).bist = s.bist := rfl
@[simp] theorem State.setRw_attrib : (s.setRw r w).attrib = s.attrib := rfl
@[simp] theorem State.setRw_hportA : (s.setRw r w).hportA = s.hportA := rfl
@[simp] theorem State.setRw_hportB : (s.setRw r w).hportB = s.hportB := rfl
@[simp] theorem State.setRw_hcfg : (s.setRw r w).hcfg = s.hcfg := rfl
@[simp] theorem State.setRw_heldReads : (s.setRw r w).heldReads = s.heldReads := rfl
@[simp] theorem State.setRw_bports : (s.setRw r w).bports = s.bports := rfl
@[simp] theorem State.setRw_queues : (s.setRw r w).queues = s.queues := rfl
@[simp] theorem State.setRw_windows : (s.setRw r w).windows = s.windows := rfl
@[simp] theorem State.setRw_staged : (s.setRw r w).staged = s.staged := rfl
@[simp] theorem State.setRw_sems : (s.setRw r w).sems = s.sems := rfl
@[simp] theorem State.setRw_transfers : (s.setRw r w).transfers = s.transfers := rfl
@[simp] theorem State.setRw_comps : (s.setRw r w).comps = s.comps := rfl
@[simp] theorem State.setRw_nextComp : (s.setRw r w).nextComp = s.nextComp := rfl
@[simp] theorem State.setRw_sec : (s.setRw r w).sec = s.sec := rfl
@[simp] theorem State.setRw_ledger : (s.setRw r w).ledger = s.ledger := rfl
@[simp] theorem State.setRw_tap : (s.setRw r w).tap = s.tap := rfl
@[simp] theorem State.setRw_mem : (s.setRw r w).mem = s.mem := rfl
@[simp] theorem State.setRw_poison : (s.setRw r w).poison = s.poison := rfl
@[simp] theorem State.setRw_corrected : (s.setRw r w).corrected = s.corrected := rfl
@[simp] theorem State.setRw_full : (s.setRw r w).full = s.full := rfl
@[simp] theorem State.setRw_dirty : (s.setRw r w).dirty = s.dirty := rfl
@[simp] theorem State.setRw_sel : (s.setRw r w).sel = s.sel := rfl
@[simp] theorem State.setRw_cores : (s.setRw r w).cores = s.cores := rfl
@[simp] theorem State.setRw_pans : (s.setRw r w).pans = s.pans := rfl
@[simp] theorem State.setRw_xacts : (s.setRw r w).xacts = s.xacts := rfl
@[simp] theorem State.setRw_hbus : (s.setRw r w).hbus = s.hbus := rfl
@[simp] theorem State.setRw_pageCrc : (s.setRw r w).pageCrc = s.pageCrc := rfl
@[simp] theorem State.setRw_waits : (s.setRw r w).waits = s.waits := rfl
@[simp] theorem State.setRw_svc : (s.setRw r w).svc = s.svc := rfl
@[simp] theorem State.setRw_jobs : (s.setRw r w).jobs = s.jobs := rfl
@[simp] theorem State.setRw_nextJob : (s.setRw r w).nextJob = s.nextJob := rfl
@[simp] theorem State.setRw_priors : (s.setRw r w).priors = s.priors := rfl
@[simp] theorem State.setRw_shortfall : (s.setRw r w).shortfall = s.shortfall := rfl
@[simp] theorem State.setRw_loops : (s.setRw r w).loops = s.loops := rfl
@[simp] theorem State.setRw_pairs : (s.setRw r w).pairs = s.pairs := rfl
@[simp] theorem State.setRw_traces : (s.setRw r w).traces = s.traces := rfl
@[simp] theorem State.setRw_loopEng : (s.setRw r w).loopEng = s.loopEng := rfl
@[simp] theorem State.setRw_ingest : (s.setRw r w).ingest = s.ingest := rfl
@[simp] theorem State.setRw_sets : (s.setRw r w).sets = s.sets := rfl
@[simp] theorem State.setRw_rw : (s.setRw r w).rw r = w := by simp [State.setRw, State.rw]
end

/-! ### putTransfer -/

section
variable (n : Nat) (x : Transfer)
@[simp] theorem State.putTransfer_pending : (s.putTransfer n x).pending = s.pending := rfl
@[simp] theorem State.putTransfer_nclk : (s.putTransfer n x).nclk = s.nclk := rfl
@[simp] theorem State.putTransfer_free : (s.putTransfer n x).free = s.free := rfl
@[simp] theorem State.putTransfer_power : (s.putTransfer n x).power = s.power := rfl
@[simp] theorem State.putTransfer_thermal : (s.putTransfer n x).thermal = s.thermal := rfl
@[simp] theorem State.putTransfer_avs : (s.putTransfer n x).avs = s.avs := rfl
@[simp] theorem State.putTransfer_tide : (s.putTransfer n x).tide = s.tide := rfl
@[simp] theorem State.putTransfer_ready : (s.putTransfer n x).ready = s.ready := rfl
@[simp] theorem State.putTransfer_coreReady : (s.putTransfer n x).coreReady = s.coreReady := rfl
@[simp] theorem State.putTransfer_rsvdWrite : (s.putTransfer n x).rsvdWrite = s.rsvdWrite := rfl
@[simp] theorem State.putTransfer_rsvdSrc : (s.putTransfer n x).rsvdSrc = s.rsvdSrc := rfl
@[simp] theorem State.putTransfer_rsvdAddr : (s.putTransfer n x).rsvdAddr = s.rsvdAddr := rfl
@[simp] theorem State.putTransfer_regs : (s.putTransfer n x).regs = s.regs := rfl
@[simp] theorem State.putTransfer_counts : (s.putTransfer n x).counts = s.counts := rfl
@[simp] theorem State.putTransfer_logs : (s.putTransfer n x).logs = s.logs := rfl
@[simp] theorem State.putTransfer_regions : (s.putTransfer n x).regions = s.regions := rfl
@[simp] theorem State.putTransfer_wear : (s.putTransfer n x).wear = s.wear := rfl
@[simp] theorem State.putTransfer_bist : (s.putTransfer n x).bist = s.bist := rfl
@[simp] theorem State.putTransfer_attrib : (s.putTransfer n x).attrib = s.attrib := rfl
@[simp] theorem State.putTransfer_hportA : (s.putTransfer n x).hportA = s.hportA := rfl
@[simp] theorem State.putTransfer_hportB : (s.putTransfer n x).hportB = s.hportB := rfl
@[simp] theorem State.putTransfer_hcfg : (s.putTransfer n x).hcfg = s.hcfg := rfl
@[simp] theorem State.putTransfer_heldReads : (s.putTransfer n x).heldReads = s.heldReads := rfl
@[simp] theorem State.putTransfer_bports : (s.putTransfer n x).bports = s.bports := rfl
@[simp] theorem State.putTransfer_queues : (s.putTransfer n x).queues = s.queues := rfl
@[simp] theorem State.putTransfer_windows : (s.putTransfer n x).windows = s.windows := rfl
@[simp] theorem State.putTransfer_staged : (s.putTransfer n x).staged = s.staged := rfl
@[simp] theorem State.putTransfer_sems : (s.putTransfer n x).sems = s.sems := rfl
@[simp] theorem State.putTransfer_comps : (s.putTransfer n x).comps = s.comps := rfl
@[simp] theorem State.putTransfer_nextComp : (s.putTransfer n x).nextComp = s.nextComp := rfl
@[simp] theorem State.putTransfer_sec : (s.putTransfer n x).sec = s.sec := rfl
@[simp] theorem State.putTransfer_ledger : (s.putTransfer n x).ledger = s.ledger := rfl
@[simp] theorem State.putTransfer_tap : (s.putTransfer n x).tap = s.tap := rfl
@[simp] theorem State.putTransfer_mem : (s.putTransfer n x).mem = s.mem := rfl
@[simp] theorem State.putTransfer_poison : (s.putTransfer n x).poison = s.poison := rfl
@[simp] theorem State.putTransfer_corrected : (s.putTransfer n x).corrected = s.corrected := rfl
@[simp] theorem State.putTransfer_full : (s.putTransfer n x).full = s.full := rfl
@[simp] theorem State.putTransfer_dirty : (s.putTransfer n x).dirty = s.dirty := rfl
@[simp] theorem State.putTransfer_sel : (s.putTransfer n x).sel = s.sel := rfl
@[simp] theorem State.putTransfer_cores : (s.putTransfer n x).cores = s.cores := rfl
@[simp] theorem State.putTransfer_pans : (s.putTransfer n x).pans = s.pans := rfl
@[simp] theorem State.putTransfer_xacts : (s.putTransfer n x).xacts = s.xacts := rfl
@[simp] theorem State.putTransfer_hbus : (s.putTransfer n x).hbus = s.hbus := rfl
@[simp] theorem State.putTransfer_pageCrc : (s.putTransfer n x).pageCrc = s.pageCrc := rfl
@[simp] theorem State.putTransfer_waits : (s.putTransfer n x).waits = s.waits := rfl
@[simp] theorem State.putTransfer_svc : (s.putTransfer n x).svc = s.svc := rfl
@[simp] theorem State.putTransfer_jobs : (s.putTransfer n x).jobs = s.jobs := rfl
@[simp] theorem State.putTransfer_nextJob : (s.putTransfer n x).nextJob = s.nextJob := rfl
@[simp] theorem State.putTransfer_priors : (s.putTransfer n x).priors = s.priors := rfl
@[simp] theorem State.putTransfer_shortfall : (s.putTransfer n x).shortfall = s.shortfall := rfl
@[simp] theorem State.putTransfer_loops : (s.putTransfer n x).loops = s.loops := rfl
@[simp] theorem State.putTransfer_pairs : (s.putTransfer n x).pairs = s.pairs := rfl
@[simp] theorem State.putTransfer_traces : (s.putTransfer n x).traces = s.traces := rfl
@[simp] theorem State.putTransfer_loopEng : (s.putTransfer n x).loopEng = s.loopEng := rfl
@[simp] theorem State.putTransfer_ingest : (s.putTransfer n x).ingest = s.ingest := rfl
@[simp] theorem State.putTransfer_sets : (s.putTransfer n x).sets = s.sets := rfl
end

/-! ### dropTransfer -/

section
variable (n : Nat)
@[simp] theorem State.dropTransfer_pending : (s.dropTransfer n).pending = s.pending := rfl
@[simp] theorem State.dropTransfer_nclk : (s.dropTransfer n).nclk = s.nclk := rfl
@[simp] theorem State.dropTransfer_free : (s.dropTransfer n).free = s.free := rfl
@[simp] theorem State.dropTransfer_power : (s.dropTransfer n).power = s.power := rfl
@[simp] theorem State.dropTransfer_thermal : (s.dropTransfer n).thermal = s.thermal := rfl
@[simp] theorem State.dropTransfer_avs : (s.dropTransfer n).avs = s.avs := rfl
@[simp] theorem State.dropTransfer_tide : (s.dropTransfer n).tide = s.tide := rfl
@[simp] theorem State.dropTransfer_ready : (s.dropTransfer n).ready = s.ready := rfl
@[simp] theorem State.dropTransfer_coreReady : (s.dropTransfer n).coreReady = s.coreReady := rfl
@[simp] theorem State.dropTransfer_rsvdWrite : (s.dropTransfer n).rsvdWrite = s.rsvdWrite := rfl
@[simp] theorem State.dropTransfer_rsvdSrc : (s.dropTransfer n).rsvdSrc = s.rsvdSrc := rfl
@[simp] theorem State.dropTransfer_rsvdAddr : (s.dropTransfer n).rsvdAddr = s.rsvdAddr := rfl
@[simp] theorem State.dropTransfer_regs : (s.dropTransfer n).regs = s.regs := rfl
@[simp] theorem State.dropTransfer_counts : (s.dropTransfer n).counts = s.counts := rfl
@[simp] theorem State.dropTransfer_logs : (s.dropTransfer n).logs = s.logs := rfl
@[simp] theorem State.dropTransfer_regions : (s.dropTransfer n).regions = s.regions := rfl
@[simp] theorem State.dropTransfer_wear : (s.dropTransfer n).wear = s.wear := rfl
@[simp] theorem State.dropTransfer_bist : (s.dropTransfer n).bist = s.bist := rfl
@[simp] theorem State.dropTransfer_attrib : (s.dropTransfer n).attrib = s.attrib := rfl
@[simp] theorem State.dropTransfer_hportA : (s.dropTransfer n).hportA = s.hportA := rfl
@[simp] theorem State.dropTransfer_hportB : (s.dropTransfer n).hportB = s.hportB := rfl
@[simp] theorem State.dropTransfer_hcfg : (s.dropTransfer n).hcfg = s.hcfg := rfl
@[simp] theorem State.dropTransfer_heldReads : (s.dropTransfer n).heldReads = s.heldReads := rfl
@[simp] theorem State.dropTransfer_bports : (s.dropTransfer n).bports = s.bports := rfl
@[simp] theorem State.dropTransfer_queues : (s.dropTransfer n).queues = s.queues := rfl
@[simp] theorem State.dropTransfer_windows : (s.dropTransfer n).windows = s.windows := rfl
@[simp] theorem State.dropTransfer_staged : (s.dropTransfer n).staged = s.staged := rfl
@[simp] theorem State.dropTransfer_sems : (s.dropTransfer n).sems = s.sems := rfl
@[simp] theorem State.dropTransfer_comps : (s.dropTransfer n).comps = s.comps := rfl
@[simp] theorem State.dropTransfer_nextComp : (s.dropTransfer n).nextComp = s.nextComp := rfl
@[simp] theorem State.dropTransfer_sec : (s.dropTransfer n).sec = s.sec := rfl
@[simp] theorem State.dropTransfer_ledger : (s.dropTransfer n).ledger = s.ledger := rfl
@[simp] theorem State.dropTransfer_tap : (s.dropTransfer n).tap = s.tap := rfl
@[simp] theorem State.dropTransfer_mem : (s.dropTransfer n).mem = s.mem := rfl
@[simp] theorem State.dropTransfer_poison : (s.dropTransfer n).poison = s.poison := rfl
@[simp] theorem State.dropTransfer_corrected : (s.dropTransfer n).corrected = s.corrected := rfl
@[simp] theorem State.dropTransfer_full : (s.dropTransfer n).full = s.full := rfl
@[simp] theorem State.dropTransfer_dirty : (s.dropTransfer n).dirty = s.dirty := rfl
@[simp] theorem State.dropTransfer_sel : (s.dropTransfer n).sel = s.sel := rfl
@[simp] theorem State.dropTransfer_cores : (s.dropTransfer n).cores = s.cores := rfl
@[simp] theorem State.dropTransfer_pans : (s.dropTransfer n).pans = s.pans := rfl
@[simp] theorem State.dropTransfer_xacts : (s.dropTransfer n).xacts = s.xacts := rfl
@[simp] theorem State.dropTransfer_hbus : (s.dropTransfer n).hbus = s.hbus := rfl
@[simp] theorem State.dropTransfer_pageCrc : (s.dropTransfer n).pageCrc = s.pageCrc := rfl
@[simp] theorem State.dropTransfer_waits : (s.dropTransfer n).waits = s.waits := rfl
@[simp] theorem State.dropTransfer_svc : (s.dropTransfer n).svc = s.svc := rfl
@[simp] theorem State.dropTransfer_jobs : (s.dropTransfer n).jobs = s.jobs := rfl
@[simp] theorem State.dropTransfer_nextJob : (s.dropTransfer n).nextJob = s.nextJob := rfl
@[simp] theorem State.dropTransfer_priors : (s.dropTransfer n).priors = s.priors := rfl
@[simp] theorem State.dropTransfer_shortfall : (s.dropTransfer n).shortfall = s.shortfall := rfl
@[simp] theorem State.dropTransfer_loops : (s.dropTransfer n).loops = s.loops := rfl
@[simp] theorem State.dropTransfer_pairs : (s.dropTransfer n).pairs = s.pairs := rfl
@[simp] theorem State.dropTransfer_traces : (s.dropTransfer n).traces = s.traces := rfl
@[simp] theorem State.dropTransfer_loopEng : (s.dropTransfer n).loopEng = s.loopEng := rfl
@[simp] theorem State.dropTransfer_ingest : (s.dropTransfer n).ingest = s.ingest := rfl
@[simp] theorem State.dropTransfer_sets : (s.dropTransfer n).sets = s.sets := rfl
end

/-! ### mark -/

section
variable (a : Nat) (b : Bool)
@[simp] theorem State.mark_pending : (s.mark a b).pending = s.pending := rfl
@[simp] theorem State.mark_nclk : (s.mark a b).nclk = s.nclk := rfl
@[simp] theorem State.mark_free : (s.mark a b).free = s.free := rfl
@[simp] theorem State.mark_power : (s.mark a b).power = s.power := rfl
@[simp] theorem State.mark_thermal : (s.mark a b).thermal = s.thermal := rfl
@[simp] theorem State.mark_avs : (s.mark a b).avs = s.avs := rfl
@[simp] theorem State.mark_tide : (s.mark a b).tide = s.tide := rfl
@[simp] theorem State.mark_ready : (s.mark a b).ready = s.ready := rfl
@[simp] theorem State.mark_coreReady : (s.mark a b).coreReady = s.coreReady := rfl
@[simp] theorem State.mark_rsvdWrite : (s.mark a b).rsvdWrite = s.rsvdWrite := rfl
@[simp] theorem State.mark_rsvdSrc : (s.mark a b).rsvdSrc = s.rsvdSrc := rfl
@[simp] theorem State.mark_rsvdAddr : (s.mark a b).rsvdAddr = s.rsvdAddr := rfl
@[simp] theorem State.mark_regs : (s.mark a b).regs = s.regs := rfl
@[simp] theorem State.mark_counts : (s.mark a b).counts = s.counts := rfl
@[simp] theorem State.mark_logs : (s.mark a b).logs = s.logs := rfl
@[simp] theorem State.mark_regions : (s.mark a b).regions = s.regions := rfl
@[simp] theorem State.mark_wear : (s.mark a b).wear = s.wear := rfl
@[simp] theorem State.mark_bist : (s.mark a b).bist = s.bist := rfl
@[simp] theorem State.mark_attrib : (s.mark a b).attrib = s.attrib := rfl
@[simp] theorem State.mark_hportA : (s.mark a b).hportA = s.hportA := rfl
@[simp] theorem State.mark_hportB : (s.mark a b).hportB = s.hportB := rfl
@[simp] theorem State.mark_hcfg : (s.mark a b).hcfg = s.hcfg := rfl
@[simp] theorem State.mark_heldReads : (s.mark a b).heldReads = s.heldReads := rfl
@[simp] theorem State.mark_bports : (s.mark a b).bports = s.bports := rfl
@[simp] theorem State.mark_queues : (s.mark a b).queues = s.queues := rfl
@[simp] theorem State.mark_windows : (s.mark a b).windows = s.windows := rfl
@[simp] theorem State.mark_staged : (s.mark a b).staged = s.staged := rfl
@[simp] theorem State.mark_sems : (s.mark a b).sems = s.sems := rfl
@[simp] theorem State.mark_transfers : (s.mark a b).transfers = s.transfers := rfl
@[simp] theorem State.mark_comps : (s.mark a b).comps = s.comps := rfl
@[simp] theorem State.mark_nextComp : (s.mark a b).nextComp = s.nextComp := rfl
@[simp] theorem State.mark_sec : (s.mark a b).sec = s.sec := rfl
@[simp] theorem State.mark_ledger : (s.mark a b).ledger = s.ledger := rfl
@[simp] theorem State.mark_tap : (s.mark a b).tap = s.tap := rfl
@[simp] theorem State.mark_mem : (s.mark a b).mem = s.mem := rfl
@[simp] theorem State.mark_poison : (s.mark a b).poison = s.poison := rfl
@[simp] theorem State.mark_corrected : (s.mark a b).corrected = s.corrected := rfl
@[simp] theorem State.mark_dirty : (s.mark a b).dirty = s.dirty := rfl
@[simp] theorem State.mark_sel : (s.mark a b).sel = s.sel := rfl
@[simp] theorem State.mark_cores : (s.mark a b).cores = s.cores := rfl
@[simp] theorem State.mark_pans : (s.mark a b).pans = s.pans := rfl
@[simp] theorem State.mark_xacts : (s.mark a b).xacts = s.xacts := rfl
@[simp] theorem State.mark_hbus : (s.mark a b).hbus = s.hbus := rfl
@[simp] theorem State.mark_pageCrc : (s.mark a b).pageCrc = s.pageCrc := rfl
@[simp] theorem State.mark_waits : (s.mark a b).waits = s.waits := rfl
@[simp] theorem State.mark_svc : (s.mark a b).svc = s.svc := rfl
@[simp] theorem State.mark_jobs : (s.mark a b).jobs = s.jobs := rfl
@[simp] theorem State.mark_nextJob : (s.mark a b).nextJob = s.nextJob := rfl
@[simp] theorem State.mark_priors : (s.mark a b).priors = s.priors := rfl
@[simp] theorem State.mark_shortfall : (s.mark a b).shortfall = s.shortfall := rfl
@[simp] theorem State.mark_loops : (s.mark a b).loops = s.loops := rfl
@[simp] theorem State.mark_pairs : (s.mark a b).pairs = s.pairs := rfl
@[simp] theorem State.mark_traces : (s.mark a b).traces = s.traces := rfl
@[simp] theorem State.mark_loopEng : (s.mark a b).loopEng = s.loopEng := rfl
@[simp] theorem State.mark_ingest : (s.mark a b).ingest = s.ingest := rfl
@[simp] theorem State.mark_sets : (s.mark a b).sets = s.sets := rfl
end

/-! ### note -/

section
variable (r : Reg) (f : Nat → Nat)
@[simp] theorem State.note_pending : (s.note r f).pending = s.pending := rfl
@[simp] theorem State.note_nclk : (s.note r f).nclk = s.nclk := rfl
@[simp] theorem State.note_free : (s.note r f).free = s.free := rfl
@[simp] theorem State.note_power : (s.note r f).power = s.power := rfl
@[simp] theorem State.note_thermal : (s.note r f).thermal = s.thermal := rfl
@[simp] theorem State.note_avs : (s.note r f).avs = s.avs := rfl
@[simp] theorem State.note_tide : (s.note r f).tide = s.tide := rfl
@[simp] theorem State.note_ready : (s.note r f).ready = s.ready := rfl
@[simp] theorem State.note_coreReady : (s.note r f).coreReady = s.coreReady := rfl
@[simp] theorem State.note_rsvdWrite : (s.note r f).rsvdWrite = s.rsvdWrite := rfl
@[simp] theorem State.note_rsvdSrc : (s.note r f).rsvdSrc = s.rsvdSrc := rfl
@[simp] theorem State.note_rsvdAddr : (s.note r f).rsvdAddr = s.rsvdAddr := rfl
@[simp] theorem State.note_regs : (s.note r f).regs = s.regs := rfl
@[simp] theorem State.note_counts : (s.note r f).counts = s.counts := rfl
@[simp] theorem State.note_logs : (s.note r f).logs = s.logs := rfl
@[simp] theorem State.note_regions : (s.note r f).regions = s.regions := rfl
@[simp] theorem State.note_wear : (s.note r f).wear = s.wear := rfl
@[simp] theorem State.note_bist : (s.note r f).bist = s.bist := rfl
@[simp] theorem State.note_attrib : (s.note r f).attrib = s.attrib := rfl
@[simp] theorem State.note_hportA : (s.note r f).hportA = s.hportA := rfl
@[simp] theorem State.note_hportB : (s.note r f).hportB = s.hportB := rfl
@[simp] theorem State.note_hcfg : (s.note r f).hcfg = s.hcfg := rfl
@[simp] theorem State.note_heldReads : (s.note r f).heldReads = s.heldReads := rfl
@[simp] theorem State.note_bports : (s.note r f).bports = s.bports := rfl
@[simp] theorem State.note_queues : (s.note r f).queues = s.queues := rfl
@[simp] theorem State.note_windows : (s.note r f).windows = s.windows := rfl
@[simp] theorem State.note_staged : (s.note r f).staged = s.staged := rfl
@[simp] theorem State.note_sems : (s.note r f).sems = s.sems := rfl
@[simp] theorem State.note_transfers : (s.note r f).transfers = s.transfers := rfl
@[simp] theorem State.note_comps : (s.note r f).comps = s.comps := rfl
@[simp] theorem State.note_nextComp : (s.note r f).nextComp = s.nextComp := rfl
@[simp] theorem State.note_sec : (s.note r f).sec = s.sec := rfl
@[simp] theorem State.note_ledger : (s.note r f).ledger = s.ledger := rfl
@[simp] theorem State.note_tap : (s.note r f).tap = s.tap := rfl
@[simp] theorem State.note_mem : (s.note r f).mem = s.mem := rfl
@[simp] theorem State.note_poison : (s.note r f).poison = s.poison := rfl
@[simp] theorem State.note_corrected : (s.note r f).corrected = s.corrected := rfl
@[simp] theorem State.note_full : (s.note r f).full = s.full := rfl
@[simp] theorem State.note_dirty : (s.note r f).dirty = s.dirty := rfl
@[simp] theorem State.note_sel : (s.note r f).sel = s.sel := rfl
@[simp] theorem State.note_cores : (s.note r f).cores = s.cores := rfl
@[simp] theorem State.note_pans : (s.note r f).pans = s.pans := rfl
@[simp] theorem State.note_xacts : (s.note r f).xacts = s.xacts := rfl
@[simp] theorem State.note_hbus : (s.note r f).hbus = s.hbus := rfl
@[simp] theorem State.note_pageCrc : (s.note r f).pageCrc = s.pageCrc := rfl
@[simp] theorem State.note_waits : (s.note r f).waits = s.waits := rfl
@[simp] theorem State.note_svc : (s.note r f).svc = s.svc := rfl
@[simp] theorem State.note_jobs : (s.note r f).jobs = s.jobs := rfl
@[simp] theorem State.note_nextJob : (s.note r f).nextJob = s.nextJob := rfl
@[simp] theorem State.note_priors : (s.note r f).priors = s.priors := rfl
@[simp] theorem State.note_shortfall : (s.note r f).shortfall = s.shortfall := rfl
@[simp] theorem State.note_loops : (s.note r f).loops = s.loops := rfl
@[simp] theorem State.note_pairs : (s.note r f).pairs = s.pairs := rfl
@[simp] theorem State.note_traces : (s.note r f).traces = s.traces := rfl
@[simp] theorem State.note_loopEng : (s.note r f).loopEng = s.loopEng := rfl
@[simp] theorem State.note_ingest : (s.note r f).ingest = s.ingest := rfl
@[simp] theorem State.note_noted : (s.note r f).noted r = f (s.noted r) := by simp [State.note, State.noted]
theorem State.note_noted_ne (q : Reg) (h : q.addr ≠ r.addr) : (s.note r f).noted q = s.noted q := by
  simp [State.note, State.noted, SMap.getD_put_ne, h]
end

/-! ### onHport -/

section
variable (p : Port) (f : HPort → HPort)
@[simp] theorem State.onHport_pending : (s.onHport p f).pending = s.pending := by cases p <;> rfl
@[simp] theorem State.onHport_nclk : (s.onHport p f).nclk = s.nclk := by cases p <;> rfl
@[simp] theorem State.onHport_free : (s.onHport p f).free = s.free := by cases p <;> rfl
@[simp] theorem State.onHport_power : (s.onHport p f).power = s.power := by cases p <;> rfl
@[simp] theorem State.onHport_thermal : (s.onHport p f).thermal = s.thermal := by cases p <;> rfl
@[simp] theorem State.onHport_avs : (s.onHport p f).avs = s.avs := by cases p <;> rfl
@[simp] theorem State.onHport_tide : (s.onHport p f).tide = s.tide := by cases p <;> rfl
@[simp] theorem State.onHport_ready : (s.onHport p f).ready = s.ready := by cases p <;> rfl
@[simp] theorem State.onHport_coreReady : (s.onHport p f).coreReady = s.coreReady := by cases p <;> rfl
@[simp] theorem State.onHport_rsvdWrite : (s.onHport p f).rsvdWrite = s.rsvdWrite := by cases p <;> rfl
@[simp] theorem State.onHport_rsvdSrc : (s.onHport p f).rsvdSrc = s.rsvdSrc := by cases p <;> rfl
@[simp] theorem State.onHport_rsvdAddr : (s.onHport p f).rsvdAddr = s.rsvdAddr := by cases p <;> rfl
@[simp] theorem State.onHport_regs : (s.onHport p f).regs = s.regs := by cases p <;> rfl
@[simp] theorem State.onHport_counts : (s.onHport p f).counts = s.counts := by cases p <;> rfl
@[simp] theorem State.onHport_logs : (s.onHport p f).logs = s.logs := by cases p <;> rfl
@[simp] theorem State.onHport_regions : (s.onHport p f).regions = s.regions := by cases p <;> rfl
@[simp] theorem State.onHport_wear : (s.onHport p f).wear = s.wear := by cases p <;> rfl
@[simp] theorem State.onHport_bist : (s.onHport p f).bist = s.bist := by cases p <;> rfl
@[simp] theorem State.onHport_attrib : (s.onHport p f).attrib = s.attrib := by cases p <;> rfl
@[simp] theorem State.onHport_hcfg : (s.onHport p f).hcfg = s.hcfg := by cases p <;> rfl
@[simp] theorem State.onHport_heldReads : (s.onHport p f).heldReads = s.heldReads := by cases p <;> rfl
@[simp] theorem State.onHport_bports : (s.onHport p f).bports = s.bports := by cases p <;> rfl
@[simp] theorem State.onHport_queues : (s.onHport p f).queues = s.queues := by cases p <;> rfl
@[simp] theorem State.onHport_windows : (s.onHport p f).windows = s.windows := by cases p <;> rfl
@[simp] theorem State.onHport_staged : (s.onHport p f).staged = s.staged := by cases p <;> rfl
@[simp] theorem State.onHport_sems : (s.onHport p f).sems = s.sems := by cases p <;> rfl
@[simp] theorem State.onHport_transfers : (s.onHport p f).transfers = s.transfers := by cases p <;> rfl
@[simp] theorem State.onHport_comps : (s.onHport p f).comps = s.comps := by cases p <;> rfl
@[simp] theorem State.onHport_nextComp : (s.onHport p f).nextComp = s.nextComp := by cases p <;> rfl
@[simp] theorem State.onHport_sec : (s.onHport p f).sec = s.sec := by cases p <;> rfl
@[simp] theorem State.onHport_ledger : (s.onHport p f).ledger = s.ledger := by cases p <;> rfl
@[simp] theorem State.onHport_tap : (s.onHport p f).tap = s.tap := by cases p <;> rfl
@[simp] theorem State.onHport_mem : (s.onHport p f).mem = s.mem := by cases p <;> rfl
@[simp] theorem State.onHport_poison : (s.onHport p f).poison = s.poison := by cases p <;> rfl
@[simp] theorem State.onHport_corrected : (s.onHport p f).corrected = s.corrected := by cases p <;> rfl
@[simp] theorem State.onHport_full : (s.onHport p f).full = s.full := by cases p <;> rfl
@[simp] theorem State.onHport_dirty : (s.onHport p f).dirty = s.dirty := by cases p <;> rfl
@[simp] theorem State.onHport_sel : (s.onHport p f).sel = s.sel := by cases p <;> rfl
@[simp] theorem State.onHport_cores : (s.onHport p f).cores = s.cores := by cases p <;> rfl
@[simp] theorem State.onHport_pans : (s.onHport p f).pans = s.pans := by cases p <;> rfl
@[simp] theorem State.onHport_xacts : (s.onHport p f).xacts = s.xacts := by cases p <;> rfl
@[simp] theorem State.onHport_hbus : (s.onHport p f).hbus = s.hbus := by cases p <;> rfl
@[simp] theorem State.onHport_pageCrc : (s.onHport p f).pageCrc = s.pageCrc := by cases p <;> rfl
@[simp] theorem State.onHport_waits : (s.onHport p f).waits = s.waits := by cases p <;> rfl
@[simp] theorem State.onHport_svc : (s.onHport p f).svc = s.svc := by cases p <;> rfl
@[simp] theorem State.onHport_jobs : (s.onHport p f).jobs = s.jobs := by cases p <;> rfl
@[simp] theorem State.onHport_nextJob : (s.onHport p f).nextJob = s.nextJob := by cases p <;> rfl
@[simp] theorem State.onHport_priors : (s.onHport p f).priors = s.priors := by cases p <;> rfl
@[simp] theorem State.onHport_shortfall : (s.onHport p f).shortfall = s.shortfall := by cases p <;> rfl
@[simp] theorem State.onHport_loops : (s.onHport p f).loops = s.loops := by cases p <;> rfl
@[simp] theorem State.onHport_pairs : (s.onHport p f).pairs = s.pairs := by cases p <;> rfl
@[simp] theorem State.onHport_traces : (s.onHport p f).traces = s.traces := by cases p <;> rfl
@[simp] theorem State.onHport_loopEng : (s.onHport p f).loopEng = s.loopEng := by cases p <;> rfl
@[simp] theorem State.onHport_ingest : (s.onHport p f).ingest = s.ingest := by cases p <;> rfl
@[simp] theorem State.onHport_sets : (s.onHport p f).sets = s.sets := by cases p <;> rfl
@[simp] theorem State.onHport_hport : (s.onHport p f).hport p = f (s.hport p) := by cases p <;> rfl
theorem State.onHport_hport_ne (q : Port) (h : q ≠ p) : (s.onHport p f).hport q = s.hport q := by
  cases p <;> cases q <;> first | rfl | exact absurd rfl h
end

end Sys2Proof.Machine
end

