-- ==== Sys2Proof/WellFormed.lean ====
section
/-!
DEFINITION. Which terms of `Instr` spell a command that can happen: the operands have the shapes that the rules give them. The
machine answers every term; one that is not well-formed has no effect, or the effect of its nearest shape.
-/

namespace Sys2Proof

/-- A temperature sensor's reading fits a byte (R589, R592). -/
def tempOk (t : Int) : Bool := -128 ≤ t && t ≤ 127

/-- A self-test result names the 84 units of R556 only, and has one byte per cell of its column map. -/
def bistOk (fail : BitVec 96) (columns : List Byte) : Bool := fail.toNat < 2 ^ 84 && columns.length = 576

/-- What the harrow finds in a line lies in its eight words (R161). -/
def harrowOk (line : Word) (words : List HarrowWord) : Bool := line.toNat % 64 = 0 && words.all (fun w => w.word < 8)

/-- A link's speed is one of the three (R430). -/
def speedOk (speed : BitVec 2) : Bool := speed ≠ 0

/-- A UDP datagram and the IP header of its frame name the same source and ports. -/
def udpOk (d : Datagram) (x : IpHdr) : Bool :=
  x.v6 = d.src.v6 && x.src = d.src.ip && x.proto = 17 && x.srcPort = d.src.udp && x.dstPort = d.dstPort

/-- A Sync arrives on the port of its frame; a Pdelay_Resp is the one message with a turnaround (R488); echo requests and datagrams are
IP packets (R434). -/
def frameOk (f : Frame) : Bool :=
  match f.kind with
  | .sync m => m.p = f.p
  | .ptp .pdelayResp _ _ _ => true
  | .ptp _ _ t _ => t = 0
  | .echo _ => f.ip.isSome
  | .udp d => f.ip.any (udpOk d)
  | _ => true

/-- Faults met by an operation name words by their addresses, multiples of 8 (R158). -/
def faultsOk (f : OpFaults) : Bool := (f.corrected ++ f.uncorrectable).all (fun a => a % 8 = 0)

/-- A command whose operands have the shapes the rules give them. (DESIGN CHOICE, log 8) -/
def Instr.wellFormed : Instr → Bool
  | .thermalSample temps => temps.length = 64 && temps.all tempOk
  | .salinometerSample readings => readings.length = 96
  | .shutdownBistDone fail columns => bistOk fail columns
  | .startSelfTestDone fail columns => bistOk fail columns
  | .harrowScrub line words => harrowOk line words
  | .linkUp _ speed _ => speedOk speed
  | .frameReceive f => frameOk f
  | .operationComplete _ f => faultsOk f
  | .hbusPageTransfer _ crcErrors => crcErrors ≤ 2
  | _ => true

end Sys2Proof
end

