-- ==== Sys2Proof/Tests/Slice0.lean ====
section
/-!
SUPPORT. Tests: ill-formed commands that the check refuses; facts that the spec states of fixed values; and for every statement
that has hypotheses, states and operands that meet them, one conjunct or tuple per clause. A hypothesis about a value of `Config`
(a signature that verifies, a page's parsed contents) cannot be shown to hold of any state: the witness of such a clause meets the others.
-/

namespace Sys2Proof.Tests

set_option Elab.async false

open Sys2Proof Sys2Proof.Machine

/-! ### Well-formedness: one ill-formed term for each check -/

theorem test_wf_thermal_count : (Instr.thermalSample (List.replicate 63 20)).wellFormed = false := by decide

theorem test_wf_thermal_range : (Instr.thermalSample (200 :: List.replicate 63 20)).wellFormed = false := by decide

theorem test_wf_salinometers : (Instr.salinometerSample []).wellFormed = false := by decide

theorem test_wf_bist_units : (Instr.shutdownBistDone (1#96 <<< 84) (List.replicate 576 0)).wellFormed = false := by decide +kernel

theorem test_wf_bist_columns : (Instr.startSelfTestDone 0 []).wellFormed = false := by decide

theorem test_wf_harrow_line : (Instr.harrowScrub 32 []).wellFormed = false := by decide

theorem test_wf_harrow_word : (Instr.harrowScrub 64 [⟨8, true, 0⟩]).wellFormed = false := by decide

theorem test_wf_speed : (Instr.linkUp 0 0 true).wellFormed = false := by decide

theorem test_wf_sync_port : (Instr.frameReceive
    { p := 0, ipBytes := 100, tags := 0, fcsOk := true, dstMac := 0, vid := 0, pcp := 0, ip := none,
      kind := .sync { p := 1, gm := 0, domain := 0, origin := 0, corr := 0, logInterval := 0 } }).wellFormed = false := by decide

theorem test_wf_turnaround : (Instr.frameReceive
    { p := 0, ipBytes := 100, tags := 0, fcsOk := true, dstMac := 0, vid := 0, pcp := 0, ip := none,
      kind := .ptp .pdelayReq 0 1 }).wellFormed = false := by decide

theorem test_wf_faults : (Instr.operationComplete 0 { corrected := [12] }).wellFormed = false := by decide

theorem test_wf_page : (Instr.hbusPageTransfer 0 3).wellFormed = false := by decide

/-! ### States used below -/

/-- The machine after its start: booted, with every unit of GLB_READY and the supervisor ready. -/
def up : State := { State.reset with power := { booted := true }, ready := 0xF01FF, coreReady := 0xFFFFFFFF }

/-- The machine with PORST_N held. -/
def down : State := { State.reset with power := { porst := true } }

/-- The machine booted and nothing started. -/
def booted : State := { State.reset with power := { booted := true } }

/-! ### Witnesses: the block, resets, supplies and temperatures -/

theorem wit_EmptyQueueIsOneCycle : (State.reset.pending = [] ∧ State.reset.inReset = false ∧ State.reset.Inv
      ∧ State.reset.tide.sec.toNat + 1 < 2 ^ 64) ∧ down.pending = [] ∧ down.inReset = true :=
  ⟨⟨rfl, rfl, State.reset_inv, by decide⟩, rfl, rfl⟩

theorem wit_EveryStepKeepsInvariant : State.reset.Inv ∧ (∃ t, step State.reset = .next t)
      ∧ ∃ t, step { State.reset with pending := [.pwrSag 100] } = .next t :=
  ⟨State.reset_inv, ⟨_, rfl⟩, ⟨_, rfl⟩⟩

theorem wit_AddressMapRoundTrip : Reg.ofAddr 0 = some .glbId ∧ (Reg.ofAddr Reg.ledgerRdAddr.addr).isSome = true := by decide +kernel

theorem wit_CounterCountsAndSaturates : (Ctr.detbreak.addr ≠ (Ctr.bridgeDrop 0).addr)
    ∧ (({ State.reset with counts := SMap.put [] Ctr.detbreak.addr { n := 2 ^ 31 - 2 } } : State).bump .detbreak).count .detbreak
        = { n := 2 ^ 31 - 1, ovf := true } := by decide +kernel

theorem wit_ResetsDiscardState : up.power.porst = false ∧ down.power.porst = true ∧ up.inReset = false
    ∧ ({ up with power := { brown := true } } : State).inReset = true
    ∧ up.browns .core 0 = true ∧ up.browns .sram 699 = true ∧ (999 : Nat) < 1000 ∧ (115 : Int) ≤ 115 := by decide +kernel

theorem wit_ResetsEnd : down.power.porst = true ∧ State.reset.power.booted = false
    ∧ (∀ l ∈ [({ present := false } : Ledger), { size := 0x7FFFFF }, { erase4k := false }], ({ down with ledger := l } : State).ledger.usable = false)
    ∧ down.ledger.usable = true ∧ flashBlank down.ledger.flash 0 = true
    ∧ (let s : State := { down with power := { brown := true } }
       s.power.brown = true ∧ s.power.porst = false ∧ s.power.pll = false ∧ s.power.therm = false)
    ∧ (let s : State := { down with power := { pll := true } }
       s.power.pll = true ∧ s.power.porst = false ∧ s.power.brown = false ∧ s.power.therm = false) := by decide +kernel

theorem wit_SupplyMonitorsHoldWrites : up.power.porst = false ∧ (1709 : Nat) < 1710 ∧ 0 + 40 < up.floorMv
    ∧ (let s : State := { up with power := { sagPin := true, ioLow := true, coreLow := true } }
       s.power.sagPin = true ∧ s.power.ioLow = true ∧ s.power.coreLow = true ∧ s.floorMv ≤ 555 + 40)
    ∧ (let s : State := { up with nclk := 5500000, power := { held := true } }
       s.inReset = false ∧ s.power.held = true ∧ s.power.sagPin = false ∧ s.power.ioLow = false ∧ s.power.coreLow = false
         ∧ 10000000 * 11 ≤ (s.nclk - s.power.heldSince) * 20)
    ∧ (let s : State := { up with nclk := 5499999, power := { held := true } }
       s.inReset = false ∧ s.power.held = true ∧ (s.nclk - s.power.heldSince) * 20 < 10000000 * 11) := by decide +kernel

theorem wit_ThermalSampleThrottles : up.inReset = false ∧ (List.replicate 64 (-128 : Int)).length = 64
    ∧ (∀ x ∈ List.replicate 64 (-128 : Int), -128 ≤ x) ∧ (up.count .detbreak).ovf = false
    ∧ (up.count .detbreak).n + 1 < 2 ^ 31 - 1 := by decide +kernel

/-- At 102 °C the throttle starts; HOT is the first sensor with the highest reading (R589, R590). -/
theorem test_throttle_starts : ∃ t, exec (.thermalSample (20 :: 102 :: List.replicate 62 102)) up = .next t
    ∧ t.thermal.tj = 102 ∧ t.thermal.hot = 1 ∧ t.thermal.throttled = true := ⟨_, rfl, by decide +kernel⟩

theorem wit_AvsAndWear :
    (let s : State := { up with avs := { target := 620, goal := 640, first := some 600, reached := true } }
     s.inReset = false ∧ s.sup = true ∧ s.avs.first ≠ none ∧ s.avs.target = s.appliedMv ∧ s.avs.steppedAt = none ∧ s.avs.target < s.avs.goal)
    ∧ (let s : State := { up with nclk := 86400000000000 * 11 / 20, avs :=
          { target := 620, goal := 615, first := some 600, steppedAt := some 0, reached := true, needs := [(0, 640), (1, 615)] } }
       s.inReset = false ∧ s.sup = true ∧ s.avs.target = s.appliedMv ∧ s.avs.goal < s.avs.target
         ∧ 1000000 * 11 ≤ (s.nclk - 0) * 20
         ∧ ∀ e ∈ s.avs.needs, 86400000000000 * 11 ≤ (s.nclk - e.1) * 20 ∨ e.2 < s.avs.target)
    ∧ (let s : State := { up with avs := { target := 620, goal := 615, first := some 600, reached := true, needs := [(0, 620)] } }
       s.avs.target = s.appliedMv ∧ s.avs.goal < s.avs.target ∧ ∃ e ∈ s.avs.needs, (s.nclk - e.1) * 20 < 86400000000000 * 11 ∧ s.avs.target ≤ e.2)
    ∧ up.avs.reached = false
    ∧ (let s : State := { up with nclk := 5500000, avs := { target := 625 } }
       s.inReset = false ∧ s.avs.target ≠ s.appliedMv ∧ 10000000 * 11 ≤ (s.nclk - s.avs.changedAt) * 20)
    ∧ (List.replicate 96 (SalReading.mk 0 0 730)).length = 96
    ∧ 750 - (((domReadings (List.replicate 96 (SalReading.mk 0 0 730)) 4).map SalReading.vminMv).foldl max 0) ≤ 20 := by decide +kernel

/-! ### Witnesses: the ledger, self-tests and start -/

theorem wit_LedgerRecordLayout : (LedgerRec.mk 3 (List.replicate 16 0)).payload.length ≤ 4076 ∧ (0xFFFF0000 : Nat) < 2 ^ 32 := by decide

/-- An hours record's bytes: STATE, TYPE, VERSION and LEN lie as R553 places them. -/
theorem test_ledger_record_head : (recBytes 0xFFFF0000 (LedgerRec.mk 3 (List.replicate 16 0)) 7 2).take 12
    = [0, 0, 0xFF, 0xFF, 3, 1, 16, 0, 7, 0, 0, 0] := by decide +kernel

/-- The ledger READY and empty, past its header. -/
def formatted : State := { up with ledger := { state := .ready, head := 3 * 4096 + 32 } }

theorem wit_LedgerRecords :
    (let s := formatted
     s.inReset = false ∧ s.sup = true ∧ s.ledger.state = .ready ∧ ({ s with bist := { shutBusy := true } } : State).bist.shutBusy = true
       ∧ (s.nclk - s.ledger.hourAt) * 20 < 3600000000000 * 11 ∧ (s.nclk - s.ledger.wearAt) * 20 < 86400000000000 * 11)
    ∧ (let s : State := { formatted with nclk := 86400000000000 * 11 / 20 }
       86400000000000 * 11 ≤ (s.nclk - s.ledger.wearAt) * 20 ∧ 3600000000000 * 11 ≤ (s.nclk - s.ledger.hourAt) * 20)
    ∧ (let l : Ledger := { formatted.ledger with waiting := [LedgerRec.mk 3 (List.replicate 16 0)] }
       Bytes.wfFrom 0xFF 0 l.flash = true ∧ l.state = .ready ∧ l.job = none ∧ l.erase = none ∧ l.lastSeq ≠ 0xFFFFFFFF
         ∧ l.head / 4096 < 2048 ∧ l.head % 4096 ≠ 0 ∧ l.head % 4096 + recSpan 16 ≤ 4096)
    ∧ (let s : State := { State.reset with ledger := { job := some (LedgerRec.mk 3 [], 3 * 4096, 1) } }
       s.inReset = false ∧ s.power.held = false ∧ s.heldReads = [] ∧ s.bist.shutEnded = false)
    ∧ (∀ e ∈ [LedgerErase.sector 5, .all], ({ up with ledger := { erase := some e } } : State).ledger.erase = some e)
    ∧ up.power.held = false ∧ ({ up with power := { up.power with held := true } } : State).power.held = true := by decide +kernel

theorem wit_LedgerRecords_inv : ({ State.reset with ledger := { job := some (LedgerRec.mk 3 [], 3 * 4096, 1) } } : State).Inv :=
  { State.reset_inv with }

theorem wit_SelfTests :
    (let s : State := { formatted with bist := { shutBusy := true } }
     s.inReset = false ∧ s.bist.shutBusy = true ∧ s.bist.shutEnded = false ∧ s.ledger.state = .ready ∧ s.power.held = false
       ∧ s.ledger.lastSeq ≠ 0xFFFFFFFF)
    ∧ (let s : State := { formatted with bist := { shutBusy := true, fail := 6, retired := 4 } }
       3#96 &&& allUnits &&& s.bist.fail &&& ~~~s.bist.retired = 2)
    ∧ ({ up with bist := { shutBusy := true } } : State).ledger.state ≠ .ready
    ∧ (let s : State := { up with ledger := { state := .ready, job := some (LedgerRec.mk 5 [], 3 * 4096, 1) },
                                  bist := { shutBusy := true, shutEnded := true } }
       s.inReset = false ∧ s.power.held = false ∧ s.bist.shutEnded = true ∧ s.ledger.waiting = [])
    ∧ (let s : State := { up with avs := { first := some 600, reached := true } }
       s.sup = true ∧ s.bist.startDone = false ∧ s.avs.reached = true) := by decide +kernel

/-- `booted` with a bundle accepted. -/
def bundled : State := { booted with sec := { bundle := some { meas := 0, revoked := [], bistRef := 0, wearExp := [] } } }

theorem wit_SupervisorStarts : bundled.inReset = false ∧ bundled.sup = false ∧ bundled.sec.bundle.isSome = true ∧ bundled.validBist 0 = none
    ∧ bundled.lastBist = none ∧ bundled.ledger.payload 4 = none := by decide +kernel

/-- A ledger whose newest record is a valid shutdown record of a reference of zeros: unit 0 passed, unit 1 failed. -/
def selfTested : State :=
  { bundled with
                ledger := { flash := Bytes.writeN 0xFF [] 0x3000 (recBytes 0 (LedgerRec.mk 5 (List.replicate 32 0 ++ [1]
                              ++ List.replicate 11 0 ++ [2] ++ List.replicate 11 0)) 1 0), newest := [(5, 0x3000)] } }

theorem wit_SupervisorStarts_results : selfTested.sup = false ∧ selfTested.inReset = false
    ∧ (selfTested.validBist 0).map (fun p => (unitBits (p.drop 32), unitBits (p.drop 44))) = some (1, 2) := by decide +kernel

/-! ### States with an image -/

/-- A message's header on port A: client 0, SEQ 1, with a payload of `len` bytes and a NUMBER. -/
def hdr (len : Nat) (num : Nat := 0) (adopt : Bool := false) : SqpHdr :=
  { port := .a, udpLen := 32 + len, crcOk := true, version := 1, ackReq := true, retry := false, resync := false, adopt := adopt, both := false,
    client := 0, oPort := .a, seq := 1, number := BitVec.ofNat 16 num, gen := 0, length := BitVec.ofNat 16 len, ack := 0,
    src := { mac := 1, v6 := false, ip := 1, udp := 5 } }

/-- A step program of four descriptors with two slots. -/
def prog : StepProg := { descCount := 4, maxIssue := 8, slots := 2, persOfs := 64, persLen := 64 }

/-- A context on one core. -/
def cat : CatEntry :=
  { stepBudget := 1000, boundaryBudget := 1000, progs := [prog], static := some [0], admitMax := 2, tmpl := { cls := 1, dim0 := 1 } }

/-- An image of one pan with two queues, a loop, streams of each kind, a field, a parameter set and a port. -/
def img : StructImage :=
  { pans := [(0, { cores := [0], catalog := [cat], slices := [{ mask := 1, lengthUs := 1000 }] })],
    queues := [(0, {}), (1, { qdepth := 2 })],
    loops := [(0, { exp := List.replicate 16 0, cexp := List.replicate 16 0, spHost := true }), (1, { slot := 152 })],
    streams := [(0, {}), (1, { kind := .jxs, port := 1, refId := some 0 }), (2, { kind := .raw, port := 2 })],
    fields := [(0, ⟨0, 0x3FF0000000000000, true, 0x7FF0000000000000, 0x3FF0000000000000, 1000⟩)],
    psets := [(0, { queue := 0, trigger := 1, deadlineOfs := 1000000, items := [] })],
    ports := [(0, { enabled := true, gates := [(0xFF, 1000)] })],
    fwd := [{ vid := 1, mac := 7, ports := [1] }],
    ptpMask := [0, 1], instKib := 1024, tracePages := 4, refPages := 64 }

/-- The machine after its start with the image applied, as at reset in everything else. -/
def on : State := { up with sec := { image := some img }, nclk := 100000000000000 }

/-- What a message needs to be let through, on a state that the kernel can evaluate. -/
def letsIn (s : State) (r : Option Right) (n : Nat) : Bool :=
  !s.inReset && s.portReady .a && !(s.hport .a).unresponsive && (s.hport .a).fresh && s.hasRight 0 r && decide (n < 65536)

theorem gets_hdr {s : State} {r : Option Right} {n k : Nat} {a : Bool} (h : letsIn s r n = true) : s.Gets (hdr n k a) := by
  simp only [letsIn, Bool.and_eq_true, Bool.not_eq_true', decide_eq_true_eq] at h
  obtain ⟨⟨⟨⟨⟨h1, h2⟩, h3⟩, h4⟩, _⟩, h6⟩ := h
  exact ⟨h1, h2, h3, rfl, by simp [hdr, Nat.mod_eq_of_lt h6], rfl, rfl, .inr (.inl h4)⟩

theorem msgOk_hdr {s : State} {r : Option Right} {n k : Nat} {a : Bool} (h : letsIn s r n = true) : s.MsgOk (hdr n k a) r n := by
  refine ⟨gets_hdr h, ?_, ?_⟩
  · simp only [letsIn, Bool.and_eq_true] at h
    exact h.1.2
  · simp only [letsIn, Bool.and_eq_true, decide_eq_true_eq] at h
    simp [hdr, Nat.mod_eq_of_lt h.2]

/-- A register access is let through on the service SPI. -/
theorem spi_ok {s : State} (h : (!s.inReset && s.power.booted && s.sup) = true) :
    (∀ r v, s.WriteOk r v .spi) ∧ ∀ r, s.ReadOk r .spi := by
  simp only [Bool.and_eq_true, Bool.not_eq_true'] at h
  exact ⟨fun r v => ⟨h.1.1, h.1.2, by simp [State.spiAnswers, h.2]⟩, fun r => ⟨h.1.1, h.1.2, by simp [State.spiAnswers, h.2]⟩⟩

/-- A write of one register is let through on SQP to the holder of its lock. -/
theorem sqp_ok {s : State} {r : Reg} {v : Word}
    (h : (letsIn s (some .regWrite) 12 && s.mayWrite (hdr 12) r.addr (some v) && s.sqpAnswers r.addr) = true) : s.WriteOk r v (.sqp (hdr 12)) := by
  simp only [Bool.and_eq_true] at h
  obtain ⟨⟨h1, h2⟩, h3⟩ := h
  exact ⟨gets_hdr h1, rfl, (msgOk_hdr (k := 0) (a := false) h1).2.1, h2, h3⟩

/-- `on` with the locks SEM_0 to SEM_3 held by the sender. -/
def locked : State := { on with sems := [(0, ⟨.a, 0, 1000, 0⟩), (1, ⟨.a, 0, 1000, 0⟩), (2, ⟨.a, 0, 1000, 0⟩), (3, ⟨.a, 0, 1000, 0⟩)] }

/-- A read of one register is let through on SQP where it answers. -/
theorem sqp_read {s : State} {r : Reg} (h : (letsIn s none 8 && s.sqpAnswers r.addr) = true) : s.ReadOk r (.sqp (hdr 8)) := by
  simp only [Bool.and_eq_true] at h
  exact ⟨gets_hdr h.1, rfl, h.2⟩

/-- Register accesses that are let through, on either path: an address of each block that the statements write or read. -/
theorem wit_RegisterAccess : (∀ r v, on.WriteOk r v .spi) ∧ (∀ r, on.ReadOk r .spi)
    ∧ (∀ x ∈ [(Reg.tideAddend, 5), (.tideCtrl, 0x80000000), (.glbMode, 1), (.loopCtrl 0, 1), (.jobCtrl, 0x80000000), (.panCtrl 0, 1),
              (.shutdown, 0x80000000), (.secCtrl, 0x80000000), (.hbusCfg 0, 0x8000)], locked.WriteOk x.1 x.2 (.sqp (hdr 12))) :=
  ⟨(spi_ok (by decide +kernel)).1, (spi_ok (by decide +kernel)).2, by
    intro x hx
    simp only [List.mem_cons, List.not_mem_nil, or_false] at hx
    rcases hx with rfl | rfl | rfl | rfl | rfl | rfl | rfl | rfl | rfl <;> exact sqp_ok (by decide +kernel)⟩

/-! ### Witnesses: links, frames and register accesses -/

/-- A frame for no unit of the C32, on port 0. -/
def frame (mac : BitVec 48) (k : FrameKind) : Frame :=
  { p := 0, ipBytes := 9000, tags := 1, fcsOk := true, dstMac := mac, vid := 1, pcp := 0, ip := none, kind := k }

/-- A datagram to a UDP port. -/
def datagram (port : BitVec 16) : Datagram := ⟨⟨1, false, 1, 5⟩, port, false, true, []⟩

/-- `on` with the link of port 0 up. -/
def linked : State := { on with bports := [(0, { link := true, speed := 3, enabled := true })] }

theorem wit_LinksAndTransmission :
    (let s : State := { on with bports := [(0, { enabled := true })] }
     s.inReset = false ∧ (s.bport 0).link = false ∧ s.portSetup 0 = some (0, 0) ∧ linkFits 3 false (0, 0) = true)
    ∧ (linked.bport 0).link = true
    ∧ (let s : State := { on with bports := [(0, { link := true, cur := some { cls := 7, len := 128, body := .pdelayReq } })] }
       (s.bport 0).link = true ∧ (s.bport 0).cur = some { cls := 7, len := 128, body := .pdelayReq })
    ∧ (let s : State := { on with bports := [(0, { link := true, cur := some { cls := 7, len := 128, body := .pdelayResp 5 } })] }
       (s.bport 0).cur.map TxFrame.body = some (.pdelayResp 5))
    ∧ gateCycle (on.gates 0) ≠ 0
    ∧ (let o : OutFrame := { type := 3, port := .a, seq := 9, stamp := 0, payload := [], dest := ⟨0, false, 0, 0⟩, msg := 1 }
       let s : State := { on with hcfg := [⟨.a, 9, (Reg.hportMacHi 0).addr, 5⟩] }
       s.hcfg.filter (fun x => x.port = o.port && x.seq = o.seq) = s.hcfg ∧ Reg.ofAddr (Reg.hportMacHi 0).addr = some (.hportMacHi 0)) := by
  decide +kernel

/-- `linked` with addresses on port 0 and one filter of IP datagrams with MAC address 7: a gate open for the second half of each µs, a meter
of 2,000 bytes, and frames of at most 8,999. -/
def filtered (m : Option FlowMeter) : State :=
  { linked with sec := { image := some { img with ports := [(0,
      { enabled := true, mac := 5, ipv4 := 6, ipv6 := 7,
        filters := [⟨9, 1, none, 8999, [], none⟩, ⟨7, 1, some { v6 := false, dst := 6 }, 8999, [(false, 500), (true, 500)], m⟩] })] } } }

/-- An IP datagram to the address 6 in a frame of `n` bytes. -/
def toSix (mac : BitVec 48) (n : Nat) (k : FrameKind) : Frame := { frame mac k with ipBytes := n, ip := some ⟨false, 1, 6, 0, 17, 1, 1⟩ }

theorem wit_BridgeHandlesFrames : linked.inReset = false ∧ (linked.bport 0).link = true
    ∧ linked.portMtu 0 < 9001 ∧ (frame 7 .other).ipBytes ≤ linked.portMtu 0 ∧ (frame 7 .other).tags < 2
    ∧ linked.police (frame 7 .other) = (true, linked)
    ∧ linked.toPort (frame 7 .other) = false ∧ linked.fwdEntry (frame 8 .other) = none
    ∧ linked.fwdEntry (frame 7 .other) = some ⟨1, 7, [1]⟩ ∧ (linked.bport 1).buffered + (9000 + 38 + 4) ≤ 262144
    ∧ (linked.streamFor 0 (datagram 1)).map Prod.fst = some 0 ∧ linked.streamFor 0 (datagram 9) = none
    ∧ (let s := filtered none
       s.inReset = false ∧ s.toPort (frame 5 (.arp 6)) = true ∧ s.ownsIp 0 false 6 = true ∧ s.ownsIp 0 true 7 = true
       ∧ s.ownsIp 0 true (linkLocal 5) = true ∧ s.ownsIp 0 false 0 = false ∧ s.toIp (toSix 5 100 (.echo false)) = true
       ∧ s.toPort (frame 5 .other) = true ∧ s.police (frame 5 .other) = (true, s) ∧ groupMac 0x010000000000 = true
       ∧ (datagram 1).badIp = false ∧ (datagram 1).cksumOk = true) := by
  decide +kernel

/-- R437: no filter matches; the SDU size; a closed gate; no meter; a meter that lets a frame through and one that drops it. -/
theorem wit_StreamFiltersPolice :
    (let s := filtered none
     (s.portSched 0).isSome = true ∧ s.police (frame 7 .other) = (true, s) ∧ (s.police (toSix 7 9000 .other)).1 = false
     ∧ s.police (toSix 7 8999 .other) = (false, s)
     ∧ s.tide64 % 1000 < 500
     ∧ (let u : State := { s with tide := { s.tide with ns := 500 } }
        u.tide64 % 1000 = 500 ∧ u.police (toSix 7 8999 .other) = (true, u)))
    ∧ (let s := filtered (some ⟨8000, 2000, 0, 1000⟩)
       let u : State := { s with tide := { s.tide with ns := 500 } }
       (u.police (toSix 7 1978 .other)).1 = true ∧ (u.police (toSix 7 1979 .other)).1 = false
       ∧ ((u.police (toSix 7 1978 .other)).2.police (toSix 7 978 .other)).1 = true
       ∧ ((u.police (toSix 7 1978 .other)).2.police (toSix 7 979 .other)).1 = false) := by
  decide +kernel

theorem wit_ServiceSpiStatus : on.inReset = false ∧ on.power.booted = true ∧ Reg.ofAddr (0xFFFFFFFF#32).toNat = none
    ∧ (booted.spiAnswers (Reg.panCtrl 0).addr = false ∧ booted.power.booted = true)
    ∧ on.spiAnswers (Reg.tideAddend).addr = true ∧ ({ on with ledger := { job := some (⟨3, []⟩, 0, 1) } } : State).ledger.job.isSome = true
    ∧ (on.writeReg .spi .tideAddend 5).refused = none ∧ Reg.deferred .tideAddend = false
    ∧ (on.writeReg .spi .shutdown 0x80000000).refused = some .noPermission := by decide +kernel

theorem wit_RegisterMessages : on.Gets (hdr 8) ∧ on.Gets (hdr 12) ∧ regsAt (0xFFFFFFFC#32).toNat 1 = none
    ∧ regsAt Reg.tideAddend.addr 1 = some [.tideAddend] ∧ (addrsOf Reg.tideAddend.addr 1).all on.sqpAnswers = true
    ∧ ({ on with ready := 0xF00FF } : State).Gets (hdr 8)
    ∧ (addrsOf (Reg.panCtrl 0).addr 1).all ({ on with ready := 0xF00FF } : State).sqpAnswers = false
    ∧ regsAt Reg.ledgerRdData.addr 1 = some [.ledgerRdData]
    ∧ on.hasRight 0 (some .regWrite) = true ∧ on.hasRight 0 none = true
    ∧ ({ on with sems := [(0, ⟨.a, 0, 1000, 0⟩)] } : State).mayWrite (hdr 12) (Reg.loopCtrl 0).addr (some 1) = true
    ∧ on.mayWrite (hdr 12) (Reg.loopCtrl 0).addr (some 1) = false := by
  and_intros <;> first | exact msgOk_hdr (by decide +kernel) | exact gets_hdr (r := none) (by decide +kernel) | decide +kernel

/-- Every register that a write only stores is read and written by one message. -/
theorem wit_RegisterMessages_plain : ∀ r ∈ [Reg.tideJumpLimit, .tideLockThresh, .guardCfg, .ledgerRdAddr, .slotWait 3],
    Reg.ofAddr (BitVec.ofNat 32 r.addr).toNat = some r ∧ on.ReadOk r (.sqp (hdr 8)) ∧ locked.WriteOk r 5 (.sqp (hdr 12)) := by
  intro r hr
  simp only [List.mem_cons, List.not_mem_nil, or_false] at hr
  rcases hr with rfl | rfl | rfl | rfl | rfl <;>
    exact ⟨by decide +kernel, sqp_read (by decide +kernel), sqp_ok (by decide +kernel)⟩

/-! ### Witnesses: registers that act when written or read -/

/-- `on` with every pan paused. -/
def paused : State := { on with pans := [(0, { paused := true })] }

theorem wit_ModeClearAndVuControlWrites : (paused.WriteOk .glbMode 1 .spi ∧ (1#32).getLsbD 0 ≠ paused.strict ∧ paused.strictBlock true = none)
    ∧ (on.WriteOk .glbMode 1 .spi ∧ on.strictBlock true ≠ none)
    ∧ on.WriteOk (.logStatus .chip) 0x80000000 .spi ∧ logKey (.core 31) ≠ logKey (.region 0) ∧ on.WriteOk (.vuCtrl 31) 5 .spi :=
  ⟨⟨(spi_ok (by decide +kernel)).1 _ _, by decide +kernel, by decide +kernel⟩, ⟨(spi_ok (by decide +kernel)).1 _ _, by decide +kernel⟩,
   (spi_ok (by decide +kernel)).1 _ _, by decide +kernel, (spi_ok (by decide +kernel)).1 _ _⟩

theorem wit_CounterClears : (∀ r v, on.WriteOk r v .spi)
    ∧ (∀ r ∈ [Reg.counter .detbreak, .waitSumHi 7, .waitMax 7, .bitternCount .chip, .hbusStatus 15],
        Reg.ofAddr (BitVec.ofNat 32 r.addr).toNat = some r)
    ∧ (∀ x ∈ [(Reg.counter .detbreak, (0x80000000 : Word)), (.waitSumHi 7, 0x80000000), (.waitMax 7, 0x80000000),
        (.bitternCount .chip, 0x80000000), (.hbusStatus 15, 0x80000000)], on.WriteOk x.1 x.2 (.sqp (hdr 12)))
    ∧ on.count .detbreak = {} :=
  ⟨(spi_ok (by decide +kernel)).1, by decide +kernel,
   by intro x hx; simp only [List.mem_cons, List.not_mem_nil, or_false] at hx; rcases hx with rfl | rfl | rfl | rfl | rfl <;>
      exact sqp_ok (by decide +kernel), by decide +kernel⟩

theorem wit_ChannelAndPortConfiguration : on.WriteOk (.hbusCfg 15) 0x8000 .spi ∧ (on.chan 15).ready = false
    ∧ (({ on with hbus := [(15, { ready := true })] } : State).chan 15).ready = true
    ∧ locked.WriteOk (hportRegOf .b .cfg) 5 .spi ∧ locked.WriteOk (hportRegOf .b .cfg) 5 (.sqp (hdr 12)) :=
  ⟨(spi_ok (by decide +kernel)).1 _ _, by decide +kernel, by decide +kernel, (spi_ok (by decide +kernel)).1 _ _, sqp_ok (by decide +kernel)⟩

/-- `on` with the pan of the image reserved. -/
def reservedPan : State :=
  { on with sec := { image := some { img with pans := [(0, { cores := [0], rt := true, catalog := [cat], slices := [⟨1, 1000⟩] })] } } }

theorem wit_PanCommands : (on.panCfg 0).isSome = true ∧ (∀ r v, on.WriteOk r v .spi)
    ∧ (∃ l, on.loadPlan 0 0 0 = .ok l) ∧ on.loadPlan 0 7 31 = .error (.imageRejected, none)
    ∧ ((({ on with pans := [(0, { ctxs := [(7, { st := .loadFail })] })] } : State).ctx 0 7).st = .loadFail)
    ∧ (∃ g, reservedPan.panCfg 0 = some g ∧ g.reserved = true) ∧ (∃ g, on.panCfg 0 = some g ∧ g.reserved = false) :=
  ⟨by decide +kernel, (spi_ok (by decide +kernel)).1, ⟨_, rfl⟩, rfl, by decide +kernel, ⟨_, rfl, by decide +kernel⟩, ⟨_, rfl, by decide +kernel⟩⟩

/-- `on` with the servo under the host. -/
def byHost (lo : Word) : State := { on with regs := [(Reg.tideCfg.addr, 0x20000000), (Reg.tideStepLo.addr, lo)] }

/-- `on` with Tide set, at 5 s. -/
def timed (s : State) : State := { s with tide := { s.tide with isSet := true, sec := 5 } }

theorem wit_TideAndHealthCommands :
    (timed (byHost 100000)).hostServo = true ∧ (timed (byHost 100000)).tideVSigned.natAbs = ((byHost 0).rw .tideJumpLimit).toNat
    ∧ (timed (byHost 100001)).tideVSigned.natAbs > ((byHost 0).rw .tideJumpLimit).toNat ∧ (timed (byHost 0)).tide.isSet = true
    ∧ ((timed (byHost 0)).tide.sec.toNat * 1000000000 + 100000 < 2 ^ 64 * 1000000000) ∧ on.hostServo = false
    ∧ (byHost 0).tide.isSet = false ∧ addendMin ≤ (1952257862#32).toNat ∧ (1952257862#32).toNat ≤ addendMax ∧ (5#32).toNat < addendMin
    ∧ paused.allPaused = true ∧ paused.loopsOff = true ∧ on.allPaused = false
    ∧ ({ on with loops := [(0, { en := some 0 })] } : State).loopsOff = false
    ∧ ({ paused with ledger := { state := .ready } } : State).ledger.state = .ready ∧ paused.ledger.state ≠ .ready
    ∧ locked.holdsSem 0 .a 0 = true ∧ on.holdsSem 0 .a 0 = false ∧ paused.bist.shutBusy = false := by decide +kernel

theorem wit_TideAndHealthCommands_access : (byHost 0).WriteOk .tideCtrl 0x40000000 .spi
    ∧ ({ locked with pans := paused.pans } : State).WriteOk .shutdown 0x80000000 (.sqp (hdr 12)) ∧ paused.WriteOk .ledgerCtrl 0x80000000 .spi :=
  ⟨(spi_ok (by decide +kernel)).1 _ _, sqp_ok (by decide +kernel), (spi_ok (by decide +kernel)).1 _ _⟩

theorem wit_TideAndHealthCommands_inv : (byHost 0).Inv := { State.reset_inv with }

/-- A model pack of no layers. -/
def pack : ModelPack :=
  { meas := 5, magic := 0, version := 0, inDim := 0, outDim := 0, tangents := 0, kslices := 0, actFmt := 0, tanFmt := 0, weightBytes := 0,
    layers := [], pages := 1 }

theorem wit_ImageCommands :
    (let s : State := { on with sec := { pendingImg := some {} } }
     s.sec.pendingImg = some {} ∧ s.loopsOff = true ∧ s.sec.applying = false ∧ s.imageFault {} = none ∧ (State.readStore [] s).1.2 = false
       ∧ (State.readStore [0] s).1.2 = true ∧ ({ held := [0] } : StructImage).held = [0]
       ∧ (∀ p < 16, ∀ c < 8, (s.ctx p c).st = .empty))
    ∧ (on.imageFault img ≠ none ∧ on.sec.pendingImg = none)
    ∧ ({ on with ledger := { state := .ready } } : State).power.held = false ∧ up.storeEmpty = true ∧ on.storeEmpty = false
    ∧ (SMap.get ({ on with sec := { models := [(63, pack)] } } : State).sec.models (63#6).toNat).isSome
        = true := by decide +kernel

theorem wit_IngestAndLoopCommands : (on.loopCfg 0).map (fun w => (w.group != 0, w.spHost)) = some (true, true)
    ∧ (on.loopCfg 1).map LoopCfg.spHost = some false
    ∧ on.ingest.active ≠ some 1 ∧ ({ on with ingest := { active := some 1 } } : State).ingest.active = some 1
    ∧ (({ on with loops := [(0, { status := 0x80000000 })] } : State).loop 0).status.getLsbD 31 = true := by decide +kernel

theorem wit_IngestAndLoopCommands_access : locked.WriteOk (.loopCtrl 0) 1 (.sqp (hdr 12)) ∧ on.WriteOk (.traceCtrl 15) 0xC0000000 .spi :=
  ⟨sqp_ok (by decide +kernel), (spi_ok (by decide +kernel)).1 _ _⟩

theorem wit_ReadsThatLatch : on.ReadOk (.waitSumLo 7) .spi ∧ on.ReadOk .tideNowNs (.sqp (hdr 8)) ∧ on.ReadOk .ledgerRdData .spi
    ∧ on.ledger.job = none ∧ on.ledger.erase = none :=
  ⟨(spi_ok (by decide +kernel)).2 _, sqp_read (by decide +kernel), (spi_ok (by decide +kernel)).2 _, rfl, rfl⟩

/-! ### Witnesses: Tide -/

/-- A Sync on port 0 of the grandmaster 0. -/
def sync (p : Fin 18) (domain : Byte := 0) : SyncMsg := { p := p, gm := 0, domain := domain, origin := 0, corr := 0, logInterval := 0 }

/-- `on` with the link delay of port 0 known. -/
def delayed : State := { on with tide := { delay := [(0, 0xFFFFFFFE)] } }

theorem wit_SyncAndServo : (sync 0 1).domain ≠ delayed.ptpDomain ∧ (sync 0).domain = delayed.ptpDomain ∧ (sync 5).p.val ∉ delayed.ptpPorts
    ∧ (sync 0).p.val ∈ delayed.ptpPorts ∧ delayed.ptpPorts.Nodup ∧ (1 ∈ delayed.ptpPorts ∧ 1 ≠ (sync 0).p.val)
    ∧ (delayed.bport 1).buffered + (sync 0).bytes + 128 ≤ 262144
    ∧ ({ sync 0 with follow := some { origin := 0, corr := 0, body := [] } } : SyncMsg).follow = some { origin := 0, corr := 0, body := [] }
    ∧ delayed.tideSource = .ptp ∧ (sync 0).gm = delayed.tide.gm
    ∧ delayed.linkDelay 0 = 0xFFFFFFFE ∧ on.tide.isSet = false ∧ (timed on).tide.isSet = true ∧ on.tide.hold = none
    ∧ (20000 : Rat) < |(100000 : Rat)| ∧ |(100000 : Rat)| ≤ ((on.rw .tideJumpLimit).toNat : Rat)
    ∧ ((on.rw .tideJumpLimit).toNat : Rat) < |(-100001 : Rat)| ∧ |(-100001 : Rat)| ≤ ((2 ^ 64 : Nat) : Rat)
    ∧ |(20000 : Rat)| ≤ 20000 ∧ |(20000 : Rat)| ≤ ((on.rw .tideJumpLimit).toNat : Rat) := by decide +kernel

theorem wit_TideEvents :
    (let s : State := { on with tide := { state := .locked, lastMeas := 0 } }
     s.inReset = false ∧ s.tide.state = .locked ∧ s.tideSource = .ptp
       ∧ s.rwField .tideCfg 15 8 * intervalNs s.tide.logInterval * 11 ≤ (s.nclk - s.tide.lastMeas) * 20)
    ∧ (let s : State := { on with regs := [(Reg.tideCfg.addr, 0x40000000)], tide := { state := .acquiring } }
       s.tideSource = .pps ∧ s.tideSource ≠ .ptp ∧ 1100000000 * 11 ≤ (s.nclk - s.tide.ppsAt.getD 0) * 20)
    ∧ (1#8) ≠ on.ptpDomain ∧ on.ptpOn 0 = true ∧ on.ptpOn 5 = false ∧ up.ptpOn 16 = true ∧ up.ptpOn 15 = false ∧ (0#8) = on.ptpDomain
    ∧ ({ on with tide := { pdelayT1 := [(0, 5)] } } : State).tide.pdelayT1.get 0 = some 5
    ∧ (let s : State := { on with tide := { ppsAt := some 99600000000000 } }
       s.tide.ppsAt = some 99600000000000 ∧ 900000000 * 11 ≤ (s.nclk - 99600000000000) * 20)
    ∧ (let s : State := { on with nclk := 99600000000001, tide := { ppsAt := some 99600000000000 } }
       (s.nclk - 99600000000000) * 20 < 900000000 * 11)
    ∧ (let s : State := { on with regs := [(Reg.tidePpsOut.addr, 0x8000000A)] }
       s.tide.ppsOut = false ∧ s.rwField .tidePpsOut 31 31 = 1 ∧ s.tide.carried = false
       ∧ ({ s with tide := { s.tide with ns := 999999999 } } : State).tick.tide.carried = true)
    ∧ (let s : State := { on with tide := { pdelayAt := [(0, 99999450000000)] } }
       s.tide.pdelayAt.get 0 = some 99999450000000 ∧ 1000000000 * 11 ≤ (s.nclk - 99999450000000) * 20)
    ∧ (on.nclk - 99999450000001) * 20 < 1000000000 * 11
    ∧ on.rwField .tidePpsOut 31 31 = 0 ∧ ({ on with tide := { ppsOut := true } } : State).tide.ppsOut = true := by decide +kernel

/-! ### Witnesses: queues, instances, windows and semaphores -/

/-- `on` with queue 0 open for client 0 on port A, at generation 0, and queue 1 closing. -/
def opened : State := { on with queues := [(0, { state := .opened }), (1, { state := .closing, closeReq := some (hdr 0 1) })] }

theorem wit_QueueOwnership : on.MsgOk (hdr 0 0) (some .queue) 0 ∧ on.MsgOk (hdr 0 0 true) (some .queue) 0 ∧ on.qmgrReady = true
    ∧ on.queueCfg (hdr 0 2047).number.toNat = none ∧ (on.queueCfg 0).isSome = true ∧ (on.queue 0).state = .closed
    ∧ opened.MsgOk (hdr 0 0 true) (some .queue) 0 ∧ (opened.queue 0).state = .opened ∧ (hdr 0 0).gen = (opened.queue 0).gen
    ∧ (opened.queue 1).state = .closing
    ∧ (opened.queue 0).port = .a ∧ (opened.queue 0).client = 0 ∧ (hdr 0).gen ≠ (({ on with queues := [(0, { state := .opened, gen := 0xFFFF })] }
        : State).queue 0).gen
    ∧ opened.inReset = false ∧ opened.jobs = [] ∧ opened.comps = [] ∧ (opened.queue 1).closeReq.isSome = true := by
  and_intros <;> first | exact msgOk_hdr (by decide +kernel) | exact gets_hdr (r := none) (by decide +kernel) | decide +kernel

/-- A SUBMIT of queue 1 with no parameters. -/
def submission (deadline : Dword) : SubmitBody :=
  { tag := 5, zero := 0, deadline := deadline, paramLen := 0, warmLen := 0, params := [], warm := [] }

/-- `on` with both queues open and Tide at 5 s. -/
def taking : State := timed { on with queues := [(0, { state := .opened }), (1, { state := .opened })] }

/-- An instance of queue 1 that waits. -/
def waiter : Job := { id := 0, queue := 1, gen := 0, tag := 5, client := 0, deadline := 6000000000, tArr := 5000000000 }

/-- `on` with queue 0 open for a client of port B. -/
def ofB : State := { on with queues := [(0, { state := .opened, port := .b })] }

/-- Port B may be READY or not; the sender holds SEM_0 or does not. -/
theorem wit_QueueOwnership_owner : ofB.MsgOk (hdr 0 0 true) (some .queue) 0 ∧ ofB.MsgOk (hdr 0 0) (some .queue) 0
    ∧ (ofB.queue 0).port ≠ (hdr 0).port ∧ (hdr 0 0 true).gen = (ofB.queue 0).gen ∧ ofB.portReady .b = true
    ∧ (ofB.hport .b).unresponsive = false ∧ ofB.senderHolds 0 (hdr 0 0 true) = false
    ∧ ({ ofB with ready := 0xF01FD } : State).portReady .b = false ∧ ({ ofB with sems := [(0, ⟨.a, 0, 1000, 0⟩)] } : State).senderHolds 0 (hdr 0) = true := by
  and_intros <;> first | exact msgOk_hdr (by decide +kernel) | exact gets_hdr (r := none) (by decide +kernel) | decide +kernel

theorem wit_InstancesComeAndGo : taking.MsgOk (hdr 24 1) none 24 ∧ taking.qmgrReady = true ∧ taking.queueCfg 1 = some { qdepth := 2 }
    ∧ (taking.queue 1).state = .opened ∧ (on.queue 1).state ≠ .opened
    ∧ submitLensOk (taking.queueCat { qdepth := 2 }) (submission 0) = true
    ∧ submitLensOk (taking.queueCat { qdepth := 2 }) { submission 0 with zero := 1 } = false
    ∧ (taking.afterChecks (hdr 24 1)).refuseJob 1 { qdepth := 2 } 0 = none
    ∧ (({ taking with jobs := [waiter, { waiter with id := 1 }] } : State).afterChecks (hdr 24 1)).refuseJob 1 { qdepth := 2 } 0 = some .queueFull
    ∧ (∀ at', (submission 0).deadline.toNat < at' + 20000)
    ∧ ({ taking with jobs := [waiter], nextJob := 1 } : State).MsgOk (hdr 4 1) none 4 ∧ (hdr 4 1).gen = (taking.queue 1).gen
    ∧ [waiter].filter (fun j => j.queue = (hdr 4 1).number.toNat && j.tag = 5) = [waiter] ∧ waiter.st = .waiting := by
  and_intros <;> first | exact msgOk_hdr (by decide +kernel) | exact gets_hdr (r := none) (by decide +kernel) | decide +kernel | exact fun _ => by simp [submission]

theorem wit_InstancesComeAndGo_inv : ({ taking with jobs := [waiter], nextJob := 1 } : State).Inv :=
  { State.reset_inv with tideNs := by decide, tideFrac := by decide, jobIds := by decide, jobNext := by decide }

/-- `on` with window 255 open on the last line of region 3's window range. -/
def windowed : State := { on with windows := [(255, { isOpen := true, region := 3, ofs := 0x5FFFC0, len := 64 })] }

/-- A write staged in that window. -/
def stagedWrite : Staged := ⟨255, 3, 0x5FFFC0, 64, 0, hdr 12 255, .write [1, 2]⟩

theorem wit_Windows : on.MsgOk (hdr 12 255) (some .window) 12 ∧ on.windowReady 3 = true ∧ (on.window 255).isOpen = false
    ∧ (windowed.window 255).isOpen = true ∧ windowed.MsgOk (hdr 12 255) (some .window) 12 ∧ windowed.MsgOk (hdr 0 255) (some .window) 0
    ∧ windowed.qmgrReady = true ∧ windowed.openWindowReady (hdr 12 255) = true ∧ 62 + 2 ≤ (windowed.window 255).len
    ∧ windowed.MsgOk (hdr 6 255) (some .window) (4 + 2) ∧ windowed.MsgOk (hdr 8 255) none 8 ∧ (windowed.hport .a).lastWinSeq = none
    ∧ windowed.stagedBytes + 2 ≤ 512 * 1024 ∧ (windowed.window 255).len < 63 + 2
    ∧ (let s : State := { windowed with staged := [stagedWrite] }
       s.inReset = false ∧ s.staged = [stagedWrite] ∧ s.concerned stagedWrite = []) := by
  and_intros <;> first | exact msgOk_hdr (by decide +kernel) | exact gets_hdr (r := none) (by decide +kernel) | decide +kernel

theorem wit_Windows_inv : ({ windowed with staged := [stagedWrite] } : State).Inv := { State.reset_inv with }

theorem wit_StoredFieldsOfRegisters : on.WriteOk (.hbusCfg 15) 0x8000 .spi ∧ (on.chan 15).ready = false
    ∧ (storeFields 0x300 0x8000 (Reg.hbusCfg 15).rwFields).2 = true ∧ (storeFields 0 0x8300 (Reg.hbusCfg 15).rwFields).2 = false :=
  ⟨(wit_RegisterAccess.1 _ _), by decide +kernel, by decide +kernel, by decide +kernel⟩

/-- `on` with SEM_63 held by client 0 on port A for 10 ms. -/
def held63 : State := { on with sems := [(63, ⟨.a, 0, 10, 99999994500000⟩)] }

theorem wit_SemaphoresAndLeases : on.MsgOk (hdr 4 63) (some .sem) 4 ∧ held63.MsgOk (hdr 0 63) (some .sem) 0 ∧ on.MsgOk (hdr 0 63) (some .sem) 0
    ∧ on.MsgOk (hdr 0 63) none 0 ∧ on.sems.get 63 = none ∧ held63.sems.get 63 = some ⟨.a, 0, 10, 99999994500000⟩
    ∧ held63.senderHolds 63 (hdr 0 63) = true ∧ on.senderHolds 63 (hdr 0 63) = false
    ∧ ({ on with sems := [(63, ⟨.b, 0, 10, 0⟩)] } : State).senderHolds 63 (hdr 4 63) = false
    ∧ (held63.nclk - 99999994500000) * 20 ≤ 10 * 1000000 * 11 ∧ 10 * 1000000 * 11 < (held63.nclk - 99999994499999) * 20 := by
  and_intros <;> first | exact msgOk_hdr (by decide +kernel) | exact gets_hdr (r := none) (by decide +kernel) | decide +kernel

/-! ### Witnesses: acknowledgements, fragments, transfers and images -/

/-- A frame sent and not acknowledged, with SEQ 9. -/
def sentFrame : Unacked :=
  { frame := { type := 3, port := .a, seq := 9, stamp := 0, payload := [], dest := ⟨0, false, 0, 0⟩, msg := 0 }, since := 0 }

/-- `on` with that frame awaiting its acknowledgement, sent `since`. -/
def unacked (since : Nat) (n : Nat) : State := { on with hportA := { unacked := [{ sentFrame with since := since, resends := n }] } }

/-- A reassembly of a message of 4 bytes whose first 2 have come. -/
def half : Reasm := { hdr := hdr 8, type := 0x12, total := 4, d := 2, parts := [(0, [1, 2])], at' := 0 }

/-- `on` with it in progress. -/
def assembling : State := { on with hportA := { reasm := [half] } }

/-- The header of its second fragment. -/
def second : SqpHdr := { hdr 10 with seq := 2 }

theorem wit_AcknowledgementsAndFragments :
    (unacked 0 0).MsgOk (hdr 8) none 8 ∧ ((unacked 0 0).hport .a).waiting = [] ∧ (unacked 0 0).comps = []
    ∧ (∀ v ∈ ((unacked 0 0).hport .a).unacked, v.frame.msg = 0)
    ∧ (((unacked 0 0).hport .a).unacked.find? (fun v => v.frame.seq = 9)).isSome = true ∧ (unacked 0 0).portReady .a = true
    ∧ (on.nclk - on.nclk) * 20 < on.rwField (.hportRetry 0) 23 0 * 1000 * 11
    ∧ on.rwField (.hportRetry 0) 23 0 * 1000 * 11 ≤ (on.nclk - 0) * 20
    ∧ 0 < on.rwField (.hportRetry 0) 31 24 ∧ on.rwField (.hportRetry 0) 31 24 ≤ 255
    ∧ on.Gets (hdr 10) ∧ hostType 0x12 = true ∧ (hdr 10).length.toNat = 8 + 2 ∧ (∀ r ∈ (on.hport .a).reasm, r.takes 1 0 = false)
    ∧ (let s : State := { on with hportA := { reasm := [half, half, half, half] } }
       4 ≤ (s.hport .a).reasm.length ∧ ∀ r ∈ (s.hport .a).reasm, r.takes 77 0 = false)
    ∧ (assembling.hport .a).reasm.find? (fun x => x.hdr.seq = 1) = some half ∧ 1000000 * 11 ≤ (assembling.nclk - half.at') * 20
    ∧ (549999 - half.at') * 20 < 1000000 * 11
    ∧ (assembling.hport .a).reasm.find? (fun x => x.takes 2 2) = some half
    ∧ half.agrees second 0x12 4 2 2 = true ∧ half.agrees second 0x11 4 2 2 = false ∧ (half.add 1 [3, 4]).have = half.total := by
  and_intros <;> first | exact msgOk_hdr (by decide +kernel) | exact gets_hdr (r := none) (by decide +kernel) | decide +kernel

theorem wit_Fragments_second : assembling.Gets second := by
  constructor <;> decide +kernel

/-- `locked` with a channel READY, so that the image store can be reached. -/
def storing : State := { locked with hbus := [(0, { ready := true, trained := true })] }

/-- `storing` with transfer 3 begun, of 2 bytes, `data` of which have come. -/
def transferring (data : List (Nat × Byte)) (ended : Option SqpHdr) : State :=
  { storing with transfers := [(3, { kind := 0, slot := 0, refId := 0, total := 2, data := data, ended := ended })] }

theorem wit_ImageTransfers :
    locked.MsgOk (hdr 8 3) (some .image) 8 ∧ locked.senderHolds 0 (hdr 8 3) = true ∧ on.MsgOk (hdr 8 3) (some .image) 8
    ∧ on.senderHolds 0 (hdr 8 3) = false ∧ locked.kindReady 0 = true ∧ locked.transfers.get 3 = none ∧ locked.spaceShort 0 0 0 (12 * 2 ^ 20) = false
    ∧ locked.spaceShort 0 0 0 (12 * 2 ^ 20 + 1) = true
    ∧ storing.kindReady 2 = true ∧ storing.spaceShort 2 0 0 0x3000 = false ∧ ({ storing with sec := { storing.sec with store := some [0] } }
        : State).sec.store.isSome = true
    ∧ storing.kindReady 3 = true ∧ storing.ingest.active ≠ some 1 ∧ storing.spaceShort 3 1 0 100 = false
    ∧ ({ storing with ingest := { active := some 1 } } : State).ingest.active = some 1
    ∧ (transferring [] none).transferReady (hdr 5 3) = true ∧ (transferring [] none).MsgOk (hdr 5 3) (some .image) (4 + 1)
    ∧ ((transferring [] none).transfers.get 3).bind Transfer.ended = none
    ∧ (((transferring [] (some (hdr 0 3))).transfers.get 3).bind Transfer.ended).isSome = true
    ∧ (transferring [(0, 1), (1, 2)] none).MsgOk (hdr 0 3) (some .image) 0
    ∧ ((transferring [(0, 1), (1, 2)] none).transfers.get 3).map (fun x => x.data.length) = some 2 := by
  and_intros <;> first | exact msgOk_hdr (by decide +kernel) | exact gets_hdr (r := none) (by decide +kernel) | decide +kernel

/-- A container of two bytes fails the first check. Containers that pass need signatures that verify, which `Config` leaves open. -/
theorem wit_ContainersAreVerified :
    (let s := transferring [(0, 1), (1, 2)] (some (hdr 0 3))
     s.inReset = false ∧ s.transfers.get (3 : Fin 4).val = some
         { kind := 0, slot := 0, refId := 0, total := 2, data := [(0, 1), (1, 2)], ended := some (hdr 0 3) })
    ∧ on.sec.bundle = none ∧ bundled.sec.bundle ≠ none := by decide +kernel

theorem test_bad_container : (transferring [(0, 1), (1, 2)] (some (hdr 0 3))).containerFault 0 2 [1, 2] false = some .imageRejected := by
  simp [State.containerFault, bodyNat, part]

/-- What `Config` makes of a raster's bytes is open: the other hypotheses of both clauses hold here. -/
theorem wit_ReferencesAndAttestation :
    (let s : State := { storing with transfers := [(0, { kind := 3, slot := 1, refId := 0, total := 2, data := [(0, 1), (1, 2)], ended := some (hdr 0) })] }
     s.inReset = false ∧ (s.transfers.get (0 : Fin 4).val).isSome = true ∧ s.refStreams 0 ≠ [] ∧ s.sec.image.isSome = true
       ∧ s.ingest.active ≠ some 1 ∧ ({ s with ingest := { active := some 1 } } : State).ingest.active = some 1 ∧ s.decodeRef 0 [1, 2] [] = none
       ∧ (let n := (s.rasterSize 0 { width := 64, height := 64 }).1; n ≤ (s.freePages 1 0 n).length)
       ∧ (let n := (s.rasterSize 0 { width := 4096, height := 4096 }).1; (s.freePages 1 0 n).length < n))
    ∧ on.sup = true ∧ on.sec.idReady = false := by decide +kernel

theorem wit_Attestation : on.MsgOk (hdr 32) none 32 := msgOk_hdr (by decide +kernel)

theorem wit_ApplyCompletes : ({ on with sec := { applying := true, applyImg := some img } } : State).inReset = false
    ∧ ({ on with sec := { applying := true, applyImg := some img } } : State).sec.applying = true
    ∧ ({ on with sec := { applying := true, applyImg := some img } } : State).sec.applyImg = some img := ⟨rfl, rfl, rfl⟩

theorem wit_HyperBusChannels : (({ on with hbus := [(15, { training := true })] } : State).chan 15).training = true
    ∧ (({ on with hbus := [(15, { ready := true })] } : State).chan 15).ready = true ∧ (on.log .chip).room (logCap .chip) = true := by
  decide +kernel

/-! ### Witnesses: transactions, the loop engine and traces -/

/-- `on` with context 0 of pan 0 RESIDENT and live on core 0, which is at descriptor 1 of its program. -/
def running : State :=
  { on with
    cores := [(0, { run := some (0, 0), stepping := true, next := 1 })],
    pans := [(0, { entryOn := true, ran := true, ctxs := [(0, { st := .resident, ranks := [0], live := true, resume := false })] })] }

/-- A transaction of core 0: a remote access, or a page of channel 0. -/
def xact (chan : Option Nat) (tag : BitVec 4) : Xact := { core := 0, pan := 0, ctx := 0, tag := tag, op := 0, chan := chan }

/-- `running` with that transaction, and channel 0 READY. -/
def awaiting (chan : Option Nat) (tag : BitVec 4) : State :=
  { running with xacts := [xact chan tag], hbus := [(0, { ready := true, trained := true })] }

theorem wit_TransactionsAndLoads :
    takeXact (fun t => t.core = 0 && t.chan = none) (awaiting none 0).xacts = some (xact none 0, [])
    ∧ (xact none 0).tag = ((awaiting none 0).ctx 0 0).tag ∧ (xact none 15).tag ≠ ((awaiting none 15).ctx 0 0).tag
    ∧ (∀ tag ∈ [(0 : BitVec 4), 15], takeXact ((awaiting (some 0) tag).pageDueOn 0) (awaiting (some 0) tag).xacts = some (xact (some 0) tag, []))
    ∧ (awaiting (some 0) 0).pageChans 0 = [0]
    ∧ (let s : State := { awaiting (some 0) 0 with hbus := [] }
       takeXact (s.pageDueOn 0) s.xacts = some (xact (some 0) 0, []) ∧ s.pageChans 0 = [])
    ∧ (let s : State := { on with pans := [(0, { ctxs := [(7, { st := .loading })] })], xacts := [{ xact (some 0) 0 with ctx := 7, use := .load }] }
       s.inReset = false ∧ (s.ctx 0 7).st = .loading ∧ (s.ctx 0 7).loadEnd ≤ s.nclk ∧ s.xacts.any (s.loadDue 0 7) = true
         ∧ ({ s with xacts := [] } : State).xacts.any (s.loadDue 0 7) = false
         ∧ ({ xact (some 0) 0 with ctx := 7, use := .load } : Xact).use = .load)
    ∧ (let s : State := { running with pans := [(0, { ctxs := [(0, { st := .loading, loadEnd := 100000000000001 })] })] }
       s.nclk < (s.ctx 0 0).loadEnd) := by decide +kernel

/-- A page that arrives for an operation finds it, with a part of its result that comes from that page. -/
theorem wit_TransactionsAndLoads_part :
    (let w : OutWrite := { addr := 0x1000, bytes := [0], src := [(pageAddr 0 0, pageAddr 0 0 + 4095)] }
     let s : State := { running with cores := [(0, { ops := [{ id := 0, desc := 1, res := [{ writes := [w] }] }] })] }
     (xact (some 0) 0).use = .operation ∧ ((s.pageArrives (xact (some 0) 0) [7] true).core 0).ops.map (fun o => (o.id, o.res.map SlotRes.writes))
       = [(0, [[{ w with bytes := [7], bad := true }]])]) := by decide +kernel

/-- The complement of a word is another word. -/
theorem not_self (w : Word) : ~~~w ≠ w := fun h => by simpa using congrArg (fun v => v.getLsbD 0) h

/-- A page of empty memory is good where its check word is that of 4096 zeros. -/
theorem page_good {s : State} {c page : Nat} (hm : s.mem = []) (hp : s.poison = []) (hc : s.crcOf c page = crc32c (List.replicate 4096 0)) :
    s.pageGood c page = true := by
  have h : (List.range 4096).map (fun i => Bytes.read 0 s.mem (pageAddr c page + i)) = List.replicate 4096 0 := by
    rw [List.eq_replicate_iff, hm]
    refine ⟨by simp, fun b hb => ?_⟩
    obtain ⟨i, _, rfl⟩ := List.mem_map.1 hb
    rfl
  simp only [State.pageGood, h, hc, hp, List.any_nil, Bool.not_false, Bool.and_true, decide_true]

/-- A page whose check word is another is not. -/
theorem page_bad {s : State} {c page : Nat} (hm : s.mem = []) (hc : s.crcOf c page ≠ crc32c (List.replicate 4096 0)) :
    s.pageGood c page = false := by
  have h : (List.range 4096).map (fun i => Bytes.read 0 s.mem (pageAddr c page + i)) = List.replicate 4096 0 := by
    rw [List.eq_replicate_iff, hm]
    refine ⟨by simp, fun b hb => ?_⟩
    obtain ⟨i, _, rfl⟩ := List.mem_map.1 hb
    rfl
  simp only [State.pageGood, h, decide_eq_false hc, Bool.false_and]

/-- `awaiting` a page of channel 0 whose check word is `w`. -/
def checked (w : Word) : State := { awaiting (some 0) 0 with hbus := [(0, { ready := true, trained := true })], pageCrc := [(0, w)] }

theorem wit_TransactionsAndLoads_page : (checked (crc32c (List.replicate 4096 0))).pageGood 0 0 = true
    ∧ (checked (~~~(crc32c (List.replicate 4096 0)))).pageGood 0 0 = false :=
  ⟨page_good rfl rfl rfl, page_bad rfl (not_self _)⟩

/-- `checked` with the channels 0 and 8 a mirror pair, and the page's check word on channel 8 as given. -/
def mirroredPair (w v : Word) : State :=
  { checked w with regs := [((Reg.hbusCfg 0).addr, 0x1000)], hbus := [(0, { ready := true }), (8, { ready := true })],
                   pageCrc := [(0, w), (8 * 65536, v)] }

/-- The lower channel's copy is bad, and the partner's good or bad. -/
theorem wit_TransactionsAndLoads_pair : (mirroredPair 0 0).pageChans 0 = [0, 8]
    ∧ (∀ w, (mirroredPair (~~~(crc32c (List.replicate 4096 0))) w).pageGood 0 0 = false)
    ∧ (∀ w, (mirroredPair w (crc32c (List.replicate 4096 0))).pageGood 8 0 = true
        ∧ (mirroredPair w (~~~(crc32c (List.replicate 4096 0)))).pageGood 8 0 = false) :=
  ⟨by decide +kernel, fun _ => page_bad rfl (not_self _), fun _ => ⟨page_good rfl rfl rfl, page_bad rfl (not_self _)⟩⟩

/-- `on` with the loop engine running, Tide at 5 s (tick 320000) and the tick before run. -/
def ticking (k : Nat) : State := timed { on with loopEng := { tick := some k, last := some k }, loops := [(0, { en := some 0 })] }

/-- `ticking` under a host servo that steps Tide by `v`. -/
def jumping (v : Word) : State :=
  { ticking 320000 with regs := ((byHost 100000).setRw .tideStepLo v).regs }

theorem wit_LoopTicks_step : (jumping 100000).WriteOk .tideCtrl 0x40000000 .spi ∧ (jumping 100000).loopRuns = true
    ∧ (jumping 100000).hostServo = true ∧ (jumping 100000).tideVSigned.natAbs ≤ ((jumping 100000).rw .tideJumpLimit).toNat
    ∧ (jumping 100000).tide.isSet = true ∧ (jumping 1).tideVSigned = 1 := by
  refine ⟨⟨?_, ?_, ?_⟩, ?_⟩ <;> decide +kernel

/-- R324: a step of 100 µs passes over six ticks, and the tick it lands in is not run either. -/
theorem test_step_passes_ticks : ∃ t, exec (.step .spi) (jumping 100000) = .next t ∧ t.loopEng.timeStep = true ∧ t.loopEng.last = some 320006
    ∧ t.loopEng.tick = none := ⟨_, rfl, by decide +kernel, by decide +kernel, by decide +kernel⟩

theorem wit_LoopTicksAndLatches : (ticking 319999).loopRuns = true ∧ 319999 < (ticking 0).tide64 / 15625
    ∧ (ticking 320000).loopEng.last = some ((ticking 0).tide64 / 15625) ∧ (ticking 320000).loopEng.tick = some 320000
    ∧ (ticking 320000).loopEng.latched.has 0 = false ∧ 320000 * 15625 + 102 * 0 ≤ (ticking 0).tide64
    ∧ (ticking 0).tide64 < 320000 * 15625 + 102 * 152
    ∧ (ticking 320000).dueLeaders 320000 0 = [0] ∧ ((ticking 0).loop 0).en = some 0
    ∧ 0 + 256 ≤ 320000 * 15625 + 102 * 0 ∧ ((ticking 0).pair 0).halted = false := by decide +kernel

/-- An update of loop 0. -/
def update (tries : Nat) : Update := { loop := 0, leader := 0, ts := 5000000000, at' := 0, tries := tries }

theorem wit_LoopUpdates :
    (let s : State := { ticking 320000 with pairs := [(3, { due := [update 0], issuedAt := some 5 })] }
     s.loopRuns = true ∧ (s.pair 3).due = [update 0] ∧ (s.pair 3).kat = none ∧ (s.pair 3).halted = false ∧ 5 + 56 ≤ s.nclk
       ∧ (update 0).at' + 16 ≤ s.nclk)
    ∧ (let s : State := { ticking 320000 with pairs := [(3, { flight := [(update 1, 0)] })] }
       (s.pair 3).flight = [(update 1, 0)] ∧ 0 + 448 ≤ s.nclk ∧ s.nclk < 99999999999553 + 448 ∧ (s.pair 3).simplex = false
         ∧ (s.loopCfg 0).isSome = true)
    ∧ (update 2).tries = 2 ∧ (15 : Nat) < (update 0).at' + 16
    ∧ (({ ticking 320000 with pairs := [(3, { kat := some ([update 2], 0) })] } : State).pair 3).kat = some ([update 2], 0) := by decide +kernel

theorem wit_LoopArithmetic : (0 : Rat) < 1 / 2 ∧ |(3 : Rat) / 2 / 1| + 1 / 2 < 3
    ∧ ((7 : Rat) + 1 / 2 < |(8 : Rat)|)
    ∧ (let w : LoopCfg := { feLimit := 0, feTime := 2, exp := List.replicate 16 0, cexp := List.replicate 16 0 }
       let l : LoopSt := { feCnt := 1 }
       l.feCnt ≤ w.feTime ∧ ((l.stage2 w).1.natAbs : Int) ≤ w.feLimit ∧ 0 < w.sig 7)
    ∧ (2 ∈ [0, 1, 2] ∧ ∀ a ∈ [0, 1, 2], a ≤ 2) ∧ -bxMax ≤ 0 ∧ 0 ≤ bxMax := by decide +kernel

/-- An entry of a set-point frame. -/
def entry : Setpoint := { ts := 5000000000, apply := 5000001000, ch := 4, state := 0, value := 0 }

/-- `ticking` with that entry to be sent, its destination on port 1, a full page of trace 15 and a page of its ring. -/
def sending : State :=
  { ticking 320000 with
    sec := { image := some { img with traceBase := 0x40000000, actDest := [(4, 0)], dests := [(0, ⟨1, 5, 6, ⟨7, false, 1, 9⟩⟩)] } },
    loopEng := { tick := some 320000, egress := [entry], ring := [⟨15, 0, 0, 42⟩], ringNext := 1 },
    traces := [(15, { owner := some (.a, 0), pages := [([], 42, 0)] })],
    hportA := { clientAddr := [(0, ⟨1, false, 1, 5⟩)] } }

theorem wit_SetpointsAndTraces : sending.loopRuns = true
    ∧ ((sending.loopEng.egress.filter (fun e => ([0, 1, 2, 3] : List Nat).all (fun p => !(sending.pair p).busy e.ts))).map Setpoint.ts).min?
        = some 5000000000
    ∧ sending.destOf entry.ch = some 0 ∧ (sending.trace 15).pages = [([], 42, 0)] ∧ sending.power.held = false
    ∧ ({ sending with ready := 0xF01FF } : State).hbusReady = true
    ∧ sending.sec.image.map (fun im => (im.traceBase, im.tracePages)) = some (0x40000000, 4)
    ∧ ({ sending with hbus := [(0, { ready := true })] } : State).pageAt (0x40000000 + 1 % 4 * 4096) = some (0, 1)
    ∧ sending.loopEng.ring.length < 4 ∧ sending.loopEng.ring = [⟨15, 0, 0, 42⟩] ∧ (sending.trace 15).owner = some (.a, 0)
    ∧ (sending.hport .a).clientAddr.get 0 = some ⟨1, false, 1, 5⟩ ∧ sending.portReady .a = true := by decide +kernel

/-! ### Witnesses: descriptors -/

/-- `running` with a descriptor where core 0 is in its program (R176, R181), and channel 0 READY. -/
def placed (k : OpCode) (d : Desc) : State :=
  { running with mem := Bytes.writeN 0 [] 128 ((descWords k d).flatMap (leBytes 4)), hbus := [(0, { ready := true, trained := true })] }

/-- A descriptor whose operands are 1 × 1 arrays in the core's scratchpad. -/
def one : Desc := { m := 1, n := 1, addrA := 0x1000, addrB := 0x2000, addrC := 0x3000, addrD := 0x4000 }

/-- A product of 1 × 1 arrays in FP32, or a solve of one. -/
def product : Desc := { one with k := 1, fmtA := 0x1000, fmtB := 0x1000, fmtC := 0x1000, fmtD := 0x1000 }

/-- Whether core 0 fetches a descriptor from `placed`, and its plain fields are right. -/
def fetches (k : OpCode) (d : Desc) (dp useK : Bool) : Bool :=
  decide (((placed k d).fetchDesc 0 1).1 = (k, d)) && descPlain d dp useK && !d.stw

theorem at_desc {k : OpCode} {d : Desc} {dp useK : Bool} (h : fetches k d dp useK = true) :
    (placed k d).AtDesc 0 0 0 prog k d ∧ descPlain d dp useK = true ∧ d.stw = false := by
  simp only [fetches, Bool.and_eq_true, decide_eq_true_eq, Bool.not_eq_true'] at h
  exact ⟨⟨rfl, (by decide : 0 < 8), h.1.1⟩, h.1.2, h.2⟩

/-- Whether a descriptor's operands are right for core 0 too, with nothing outstanding and no layer to wait for. -/
def ready (f : OpForm) (o : State → Option Nat → Except StepFault (List Opnd × List Opnd)) (d : Desc) : Bool :=
  let v := (placed f.code d).takenUp 0 f.alone
  fetches f.code d f.dp f.useK && (v.core 0).ops.isEmpty && match v.checkTargets 0 (v.runsFor 0 0 0 d) (o v) with
    | .error _ => false
    | .ok os => !(v.touched 0 0 0 d (os.map Prod.fst) (baseOpnds (o v none))).layerDue 0

/-- With nothing outstanding no hazard holds a descriptor. -/
theorem clear_nil {k : Core} {d : Desc} {a : Bool} {r w : List (Nat × Nat)} (h : k.ops = []) : k.Clear d a r w :=
  ⟨by rw [h]; decide, by simp [h], by simp [h], fun _ _ => h, fun _ => h⟩

/-- Core 0 may then issue it; what its operation makes of it does not matter. -/
theorem may_issue {d : Desc} {k : OpKind} {f : OpForm} {o : State → Option Nat → Except StepFault (List Opnd × List Opnd)}
    (h : ready f o d = true) (hf : k.form = f) (ho : k.opnds = o) : ∃ v st os, (placed f.code d).MayIssue 0 0 0 prog d k v st os := by
  subst hf ho
  simp only [ready, Bool.and_eq_true] at h
  obtain ⟨⟨h1, h0⟩, h2⟩ := h
  obtain ⟨ha, hp, hs⟩ := at_desc h1
  split at h2
  · cases h2
  · rename_i os e
    rw [List.isEmpty_iff] at h0
    exact ⟨_, none, os, ha, rfl, hp, by simp [State.statusAt, hs], e, clear_nil h0, by simpa using h2⟩

/-- Every operation on elements, with the operands that it has. -/
theorem wit_VectorOperationsIssue : (∀ k, (placed k one).rmOf 0 one = some .rte)
    ∧ (∀ (c : Instr) (fn : FSpec → FSpec → ElemFn),
        ∀ x ∈ ([(⟨2, 0⟩, { ins := 2 }), (⟨2, 3⟩, { ins := 3 }), (⟨2, 6⟩, { ins := 1 }), (⟨2, 0x11⟩, { ins := 2, gOut := 2, fmtOk := pairFmt }),
          (⟨2, 0x13⟩, { ins := 2, gIn := 2, gOut := 2, fmtOk := fp64Only }), (⟨6, 0⟩, { ins := 2, fmtOk := Fmt.dsu }),
          (⟨6, 3⟩, { ins := 1, fmtOk := Fmt.dsu }), (⟨8, 0⟩, { ins := 1, fmtOk := fun _ => true })] : List (OpCode × ElemShape)),
        ∃ v st os, (placed x.1 one).MayIssue 0 0 0 prog one (mapKind 0 one .rte c x.1 x.2 fn) v st os)
    ∧ ∀ (c : Instr) (silent : Bool) (fn : BitFn), ∀ sub ∈ [0x08, 0x0E],
        ∃ v st os, (placed ⟨2, sub⟩ one).MayIssue 0 0 0 prog one (bitKind 0 one .rte c sub silent fn) v st os := by
  refine ⟨fun _ => rfl, fun c fn x hx => ?_, fun c b fn sub hs => ?_⟩
  · refine may_issue (f := { code := x.1 }) (o := fun _ => elemOpnds x.2 one) ?_ rfl rfl
    revert x
    decide +kernel
  · refine may_issue (f := { code := ⟨2, sub⟩ }) (o := fun _ => elemOpnds { ins := 2 } one) ?_ rfl rfl
    revert sub
    decide +kernel

/-- A CERT descriptor: SLOTWISE, of no slot that is selected. -/
def certOf (mode : Nat) : Desc := { m := 1, n := 1, slotwise := true, imm := BitVec.ofNat 32 mode, addrC := 0x400, addrD := 0x800 }

/-- The descriptors and operands of the operations that are issued otherwise, within one core. -/
def otherForms : List (OpForm × Desc × (State → Option Nat → Except StepFault (List Opnd × List Opnd))) :=
  [({ code := ⟨2, 0x18⟩ }, one, fun _ => testOpnds one), ({ code := ⟨2, 0x19⟩ }, one, fun _ _ => .ok ([], [])),
   ({ code := ⟨3, 0⟩ }, one, fun _ => reduceOpnds one false), ({ code := ⟨3, 12⟩ }, one, fun _ => reduceOpnds one true),
   ({ code := ⟨4, 0⟩, narrow := false }, one, fun _ => factorOpnds one),
   ({ code := ⟨4, 1⟩, narrow := false, useK := true }, product, fun _ => stagedOpnds product),
   ({ code := ⟨5, 3⟩, narrow := false, useK := true }, product, fun _ => trsolveOpnds product)]
    ++ [false, true].flatMap (fun b =>
      [({ code := gemmCode b b b false, narrow := false, dp := true, useK := true }, product, fun _ => gemmOpnds product b b b),
       ({ code := gemmCode b (!b) b false, narrow := false, dp := true, useK := true }, product, fun _ => gemmOpnds product b (!b) b)])
    ++ [0, 1, 2].flatMap (fun mode => [0, 1, 2, 3].map (fun cls => ({ code := ⟨7, cls⟩, alone := true }, certOf mode, fun s t =>
      if s.certOk 0 (certOf mode) cls t then certOpnds (certOf mode) t else .error .descriptor)))

theorem wit_OtherOperationsIssue : ∀ (c : Instr) (run : State → Option Nat → SlotRes), ∀ x ∈ otherForms,
    ∃ v st os, (placed x.1.code x.2.1).MayIssue 0 0 0 prog x.2.1 ⟨c, x.1, x.2.2, run⟩ v st os := by
  refine fun c run x hx => may_issue (f := x.1) (o := x.2.2) ?_ rfl rfl
  revert x
  decide +kernel

/-- CERT is alone, so its state is the drained one: the same where nothing is outstanding. -/
theorem wit_OtherOperationsIssue_cert : (∀ k d, (placed k d).drain 0 = placed k d) ∧ (∀ mode < 3, (certOf mode).imm.toNat = mode) :=
  ⟨fun _ _ => rfl, by decide⟩

theorem wit_ElementResults : (0 < 8 ∧ -(2 ^ (8 - 1)) ≤ (-128 : Int) ∧ (127 : Int) < 2 ^ (8 - 1) ∧ ¬((-128 : Int) = -(2 ^ (8 - 1)) ∧ (1 : Int) = -1))
    ∧ Val.isNan (.nan false true 0) = true ∧ Val.isNan (.fin true 0 0) = false ∧ Val.isZero (.fin true 0 0) = true
    ∧ ltV (.fin true 1 0) (.fin false 0 0) = true ∧ (255 : Nat) < 2 ^ 8 := by decide +kernel

/-- A move of one row of 64 bytes from the scratchpad to an address. -/
def row (a : Word) : Desc := { m := 1, n := 64, addrA := 0x1000, addrD := a, lda := 64, ldd := 64 }

/-- The two directions of a page's move. -/
def pageRow (store : Bool) : Desc :=
  { m := 1, addrA := if store then 0x100000 else 0x40000000, addrD := if store then 0x40000000 else 0x100000 }

/-- Whether core 0 may issue a move from `placed`, whose targets' destinations are deferred or not. -/
def moves (kind : Nat) (d : Desc) (deferred : Bool) : Bool :=
  let v := (placed ⟨0, kind⟩ d).counted 0
  fetches ⟨0, kind⟩ d false false && (v.core 0).ops.isEmpty && decide ((v.core 0).moves.length + 1 ≤ 16)
    && match v.moveTargets 0 0 0 kind d with
      | .error _ => false
      | .ok ts =>
        let os := (ts.filter (fun t => !deferredFor d t)).map (moveSides kind d)
        ts == [none] && ts.all (fun t => deferredFor d t == deferred)
          && !(v.touched 0 0 0 d (os.map Prod.fst) (moveSides kind d none).1).layerDue 0

theorem wit_Moves : ∀ x ∈ [(0, row 0x2000, false), (1, row 0x2000, false), (4, pageRow false, false), (5, pageRow true, true), (0, row 0x08000000, true)],
    moves x.1 x.2.1 x.2.2 = true := by decide +kernel

/-- Whether core 0 takes up a full/empty access in `s`, at once on every line or not. -/
def accesses (s : State) (w : Bool) (d : Desc) (all : Bool) : Bool :=
  let v := s.counted 0
  let ts := v.runsFor 0 0 0 d
  decide ((s.fetchDesc 0 1).1 = (⟨0, if w then 3 else 2⟩, d)) && descPlain d false false && feFields w d && !d.stw && (s.core 0).ops.isEmpty
    && ts.all (fun t => (v.checkOpnd 0 (moveOpnds d false t).1).toBool && (v.checkOpnd 0 (moveOpnds d false t).2).toBool)
    && decide ((v.core 0).moves.length + ts.length ≤ 16)
    && (v.feRows 0 w (v.feItems 0 d (ts.filter (fun t => !deferredFor d t))) []).2.1.isEmpty == all

/-- A read of an empty line waits, a write of it does not, and one that is deferred does not; in strict mode and with no time to wait a read faults. -/
theorem wit_Moves_fullEmpty :
    (let s := placed ⟨0, 2⟩ (row 0x2000)
     accesses s false (row 0x2000) false = true ∧ s.strict = false ∧ 0 < s.slotWait 0
       ∧ accesses (placed ⟨0, 3⟩ (row 0x2000)) true (row 0x2000) true = true
       ∧ accesses (placed ⟨0, 2⟩ (row 0x08000000)) false (row 0x08000000) true = true ∧ deferredFor (row 0x08000000) none = true
       ∧ (let t : State := { s with regs := [(Reg.glbMode.addr, 1)] }
          accesses t false (row 0x2000) false = true ∧ t.strict = true)
       ∧ (let t : State := { s with regs := [((Reg.slotWait 0).addr, 0)] }
          accesses t false (row 0x2000) false = true ∧ t.slotWait 0 = 0)) := by decide +kernel

theorem placed_strict (k : OpCode) (d : Desc) : (placed k d).strict = running.strict := by
  unfold State.strict State.rwField State.rw
  rfl

/-- Whether core 0 fetches a sequencer operation from `placed`, with nothing outstanding. -/
def alone (k : OpCode) : Bool :=
  let v := ((placed k one).counted 0).drain 0
  fetches k one false false && (v.core 0).ops.isEmpty && (v.core 0).traps.isEmpty && (v.core 0).turns.isEmpty
    && (v.ctx 0 0).ranks == [0] && (v.ctx 0 0).live && (v.core 0).stepping

theorem sequenced {k : OpCode} (h : alone k = true) :
    (placed k one).Sequenced 0 0 0 prog k one (((placed k one).counted 0).drain 0) none := by
  simp only [alone, Bool.and_eq_true, List.isEmpty_iff] at h
  obtain ⟨ha, hp, hs⟩ := at_desc h.1.1.1.1.1.1
  exact ⟨ha, hp, rfl, h.1.1.1.1.1.2, by simp [State.ctlStatus, State.statusAt, hs, Except.map]⟩

/-- Every sequencer operation, with no record asked for. -/
theorem wit_SequencerOperations :
    (∀ k ∈ [(⟨9, 0⟩ : OpCode), ⟨9, 1⟩, ⟨0xA, 0⟩, ⟨0xC, 0⟩] ++ [0, 1, 2, 3, 4].flatMap (fun kind => [branchCode kind false, branchCode kind true]),
      alone k = true ∧ (placed k one).strict = false
        ∧ (placed k one).Sequenced 0 0 0 prog k one (((placed k one).counted 0).drain 0) none)
    ∧ one.stw = false ∧ one.imm.toNat < 16 ∧ one.imm.toNat % 65536 < prog.descCount
    ∧ running.branchTakes 0 0 [0] 2 0 0 = false ∧ running.branchTakes 0 0 [0] 3 1 1 = true ∧ running.branchTakes 0 0 [0] 4 0 0 = true := by
  refine ⟨fun k h => ?_, by decide +kernel⟩
  have ha : alone k = true := by
    revert k
    decide +kernel
  exact ⟨ha, (placed_strict k one).trans (by decide +kernel), sequenced ha⟩

/-- A core that goes on; one that has passed its last descriptor. -/
theorem wit_SequencerOperations_end : running.header 0 = some prog ∧ (running.core 0).next < prog.descCount
    ∧ (let s : State := { running with cores := [(0, { run := some (0, 0), stepping := true, next := 4 })] }
       s.header 0 = some prog ∧ (s.core 0).stepping = true ∧ (s.core 0).wait = none ∧ (s.core 0).ops = [] ∧ prog.descCount ≤ (s.core 0).next) := by
  decide +kernel

/-- `running` with a trap to deliver, and TRAP_INFO as given. -/
def trapped (w : Word) : State :=
  { running with cores := [(0, { run := some (0, 0), stepping := true, next := 2, traps := [⟨0, 1, 1⟩], trapInfo := w })] }

/-- A trap that is delivered while TRAP_INFO holds none ends the step; while it holds one, the step goes on. -/
theorem wit_SequencerOperations_traps : ((trapped 0).core 0).traps = [⟨0, 1, 1⟩] ∧ (((trapped 0).deliverTraps 0).core 0).stepping = false
    ∧ ((trapped 0x80000000).core 0).traps = [⟨0, 1, 1⟩] ∧ (((trapped 0x80000000).deliverTraps 0).core 0).stepping = true
    ∧ (0#32).getLsbD 31 = false ∧ (0x80000000#32).getLsbD 31 = true := by decide +kernel

/-- `running` with core 0 waiting. -/
def stuck (w : Wait) : State :=
  { running with cores := [(0, { run := some (0, 0), stepping := true, next := 1, wait := some (w, 0) })] }

theorem wit_PanBarriers : (∀ axis, ∀ x < 5, ready { code := ⟨3, x + 8 * bitN axis + 16⟩ } (fun _ => reduceOpnds one axis) one = true)
    ∧ (placed ⟨3, 16⟩ one).rmOf 0 one = some .rte
    ∧ (∀ cin ta tb, ready { code := gemmCode cin ta tb true, dp := true, useK := true } (fun _ => gemmOpnds product cin ta tb) product = true)
    ∧ (∀ w ∈ [Wait.barrier 15, .branch 2 3 0 0, .branch 0 0 0 0, .reduce one 4 true 0, .gemm product true false false 0],
        (stuck w).inReset = false ∧ ((stuck w).ctx 0 0).live = true ∧ ((stuck w).ctx 0 0).ranks = [0] ∧ ((stuck w).core 0).stepping = true
          ∧ ((stuck w).core 0).ops = [] ∧ ((stuck w).core 0).turns = [] ∧ ((stuck w).core 0).traps = [] ∧ ((stuck w).core 0).waitRec = none
          ∧ ((stuck w).core 0).next < prog.descCount ∧ (stuck w).gathered [0] = some [(0, 0, w)]
          ∧ ((stuck w).core 0).run = some (0, 0) ∧ (stuck w).header 0 = some prog ∧ ((stuck w).core 0).wait = some (w, 0))
    ∧ 3 < prog.descCount ∧ (running.core 0).wait = none ∧ running.strict = false ∧ [0].Nodup := by decide +kernel

/-- Two cores that wait at different barriers; one core with two ranks, each at the same barrier. -/
theorem wit_PanBarriers_ranks :
    (let k : Core := { run := some (0, 0), stepping := true, next := 1, wait := some (.barrier 0, 0) }
     let s : State := { running with cores := [(0, k), (1, { k with wait := some (.barrier 1, 0) })] }
     s.gathered [0, 1] = some [(0, 0, .barrier 0), (1, 1, .barrier 1)] ∧ Wait.same (.barrier 0) (.barrier 1) = false)
    ∧ (let k : Core := { run := some (0, 0), stepping := true, next := 1, wait := some (.barrier 0, 0),
                         turns := [{ rank := 1, next := 1, wait := some (.barrier 0, 0) }] }
       let s : State := { running with cores := [(0, k)], pans := [(0, { ctxs := [(0, { ranks := [0, 0], live := true })] })] }
       (s.ctx 0 0).live = true ∧ s.gathered (s.ctx 0 0).ranks = some [(0, 0, .barrier 0), (0, 1, .barrier 0)]) := by decide +kernel

theorem wit_FaultsAndWaits : running.issuing 0 = some (0, 0, (running.core 0).rank, prog)
    ∧ (let s : State := { running with cores := [(0, { run := some (0, 0), stepping := true, next := 1, issued := 8 })] }
       (s.issuing 0).isSome = true ∧ prog.maxIssue ≤ (s.core 0).issued)
    ∧ (running.core 0).issued < prog.maxIssue
    ∧ (∀ x ∈ [((⟨0xD, 0⟩ : OpCode), one, false), (⟨2, 0x1A⟩, one, false), (⟨2, 1⟩, one, true), (⟨2, 0⟩, { one with rsv0 := 1 }, true),
          (⟨2, 0⟩, { one with rm := 5 }, true), (⟨0, 0⟩, { one with slotStride := 1 }, true), (⟨0xC, 0⟩, { one with subExtra := 1 }, true)],
        ((placed x.1 x.2.1).fetchDesc 0 1).1 = (x.1, x.2.1) ∧ x.1.known = x.2.2)
    ∧ (running.ctx 0 0).live = true ∧ 0 ∈ (running.ctx 0 0).ranks ∧ (running.core 0).seqValid = false
    ∧ running.excused 0 0 0 .overrun = false ∧ (let s : State := { running with regions := [(0, { copyCore := some 0 })] }
       s.remapping 0 = true ∧ s.excused 0 0 0 .descriptor = true ∧ s.excused 0 0 0 .preempt = false)
    ∧ (({ running with cores := [(0, { seqValid := true })] } : State).core 0).seqValid = true ∧ StepFault.trap.code = 3
    ∧ ((stuck (.barrier 0)).core 0).waits = [((Wait.barrier 0, 0), 1)] ∧ Wait.barred (some (.barrier 0, 0)) = true
    ∧ prog.barrierWait < 2 * ((stuck (.barrier 0)).nclk - 0)
    ∧ ((stuck (.fullEmpty false [] [] { id := 0, desc := 0 })).core 0).waits = [((Wait.fullEmpty false [] [] { id := 0, desc := 0 }, 0), 1)]
    ∧ (let s : State := { stuck (.barrier 0) with nclk := 0 }
       2 * (s.nclk - 0) ≤ prog.barrierWait)
    ∧ (stuck (.fullEmpty false [] [] { id := 0, desc := 0 })).rwField (.slotWait 0) 15 0 ≤ 2 * ((stuck (.barrier 0)).nclk - 0)
    ∧ 2 * (0 - 0) < (stuck (.fullEmpty false [] [] { id := 0, desc := 0 })).rwField (.slotWait 0) 15 0 := by
  decide +kernel

/-- `running` with an operation outstanding on core 0, as the last of them. -/
def completing (res : List SlotRes) : State :=
  { running with cores := [(0, { run := some (0, 0), stepping := true, next := 2, ops := [{ id := 0, desc := 1, res := res }] })] }

theorem wit_OperationsComplete : (completing []).inReset = false ∧ ((completing []).core 0).ops = [{ id := 0, desc := 1, res := [] }]
    ∧ (completing []).pagesDue 0 = false ∧ (completing []).header 0 = some prog ∧ ((completing []).core 0).next < prog.descCount
    ∧ ({ completing [] with xacts := [xact (some 0) 0] } : State).pagesDue 0 = true
    ∧ (completing []).served 0 (0, 1) = true
    ∧ (let s : State := { running with pans := [(0, { asked := [(0, 3)], waitingTok := [(0, 1)] })] }
       s.served 0 (0, 2) = true ∧ s.served 0 (0, 3) = false)
    ∧ (let s : State := { running with cores := [(0, { run := some (0, 0), ops := [{ id := 0, desc := 1, toks := [(0, 3)] }] })],
                                       pans := [(0, { asked := [(0, 3)], waitingTok := [(0, 1)] })] }
       s.strict = false ∧ (s.core 0).run = some (0, 0) ∧ (s.core 0).ops.flatMap OutOp.toks = [(0, 3)] ∧ s.served 0 (0, 3) = false)
    ∧ (∀ x ∈ ([{}] : List SlotRes), x.writes = []) := by decide +kernel

/-- A buffered byte that is 16 ACLK cycles old. -/
def buffered : State := { State.reset with nclk := 8, cores := [(31, { buf := [{ line := 31 * 0x400000, data := [(63, 1)], since := 0 }] })] }

theorem wit_OperationsComplete_flush : buffered.inReset = false ∧ cellOf (31 * 0x400000) = 0 ∧ 16 ≤ 2 * (buffered.nclk - 0)
    ∧ (buffered.core 31).buf.length = 1 := by decide +kernel

theorem wit_OperationsComplete_inv : buffered.Inv :=
  { State.reset_inv with
    lines := fun n => by
      by_cases h : n = 31
      · subst h; unfold State.LinesApart; decide +kernel
      · simp [State.LinesApart, State.core, SMap.getD, SMap.get, buffered, Ne.symm h] }

/-! ### Witnesses: ingest -/

/-- A measurement frame of one entry (R366), which gives element 0 the value 1 in FP64, with a valid capture time later than any time-stamp; its bytes but the
CRC-32C. -/
def measBytes : List Byte := beBytes 4 0x444D4631 ++ [1, 1] ++ beBytes 2 1 ++ beBytes 8 (2 ^ 64 - 1) ++ beBytes 2 0 ++ beBytes 2 0 ++ beBytes 8 0x3FF0000000000000

/-- The frame with its CRC-32C. -/
def meas : List Byte := measBytes ++ beBytes 4 (crc32c measBytes).toNat

theorem wit_MeasurementFrames : on.ingestRuns = true ∧ on.streamCfg 0 = some {} ∧ ({} : StreamCfg).kind = .meas ∧ measOk meas = true
    ∧ measOk [] = false ∧ (meas.getD 5 0).getLsbD 0 = true ∧ beNat ((meas.drop 8).take 8) = 2 ^ 64 - 1 ∧ meas.length = 32
    ∧ wireNs (on.bport 0).speed (max 64 (32 + 46)) + 2 ≤ ({} : StreamCfg).maxAge
    ∧ (({ on with ingest := { streams := [(0, { lastCapture := some (2 ^ 64 - 1) })] } } : State).stream 0).lastCapture = some (2 ^ 64 - 1)
    ∧ (on.stream 0).lastCapture = none ∧ (measEntry {} ((meas.drop 16).take 12)).isSome = true ∧ (on.fieldCfg 0).isSome = true := by
  decide +kernel

/-- The time-stamp rests on `Config`'s latency of the port: the capture time is the time-stamp, whatever that is, so that a frame's age is its time
on the wire, which is too old for a stream of MAX_AGE 0. -/
theorem wit_MeasurementFrames_capture : ∀ stamp < 2 ^ 64, ∀ wire, min (2 ^ 64 - 1) stamp = stamp
    ∧ stamp + wire + 2 - min (2 ^ 64 - 1) stamp = wire + 2 ∧ ({ maxAge := 0 } : StreamCfg).maxAge < wire + 2
    ∧ min (2 ^ 64 - 1) stamp ≤ 2 ^ 64 - 1 := by
  intro stamp h wire
  have : ({ maxAge := 0 } : StreamCfg).maxAge = 0 := rfl
  omega

/-- The conditioner's constants 0 and 1, with REJECT or without. -/
def conditioner (reject : Bool) : FieldCfg := ⟨0, 0x3FF0000000000000, reject, 0x7FF0000000000000, 0x3FF0000000000000, 1000⟩

theorem wit_MeasurementFrames_condition : Val.isNan (.nan false true 0) = true ∧ ltV (.fin true 1 0) (valOf (conditioner true).lo) = true
    ∧ ltV (.fin false 1 0) (valOf (conditioner true).lo) = false ∧ ltV (valOf (conditioner true).hi) (.fin false 1 0) = false
    ∧ (conditioner false).reject = false ∧ on.fieldOut 0 = true
    ∧ (({ on with ingest := { fields := [(0, { tmo := false, last := some 0 })] } } : State).fieldOut 0 = false)
    ∧ (on.field 0).last = none := by decide +kernel

/-- A packet of stream 1. -/
def packet (seq : BitVec 16) : RtpPkt := { ssrc := 0, seq := seq, ts := 7, marker := false, span := some ⟨0, 0, true, false⟩, payload := [1] }

/-- `on` with a frame of streams 1 and 2 in progress. -/
def filming (f : VFrame) (x : StreamSt) : State :=
  { on with ingest := { streams := [(1, { x with frames := [f] }), (2, { x with frames := [f] })] } }

theorem wit_VideoFramesAndPackets : on.ingestRuns = true ∧ on.streamCfg 1 = some { kind := .jxs, port := 1, refId := some 0 }
    ∧ (∀ q, (on.stream 1).seq = some q → ((packet 5).seq - (q + 1)).toNat < 0x8000) ∧ (on.stream 1).used + 1 ≤ 65536
    ∧ (let x := (filming { ts := 7, capture := 0 } { seq := some 4, ts := some 7, takes := true }).stream 1
       x.seq = some 4 ∧ ((packet 5).seq - (4 + 1)).toNat < 0x8000 ∧ (packet 5).seq = 4 + 1 ∧ (packet 6).seq ≠ 4 + 1
         ∧ 0x8000 ≤ ((packet 4).seq - (4 + 1)).toNat ∧ x.ts = some 7 ∧ x.takes = true ∧ x.frames.length = 1)
    ∧ (let c : StreamCfg := { kind := .jxs, ssrcCheck := true, ssrc := 1 }
       c.ssrcCheck = true ∧ (packet 5).ssrc ≠ c.ssrc)
    ∧ (let c : StreamCfg := { kind := .jxs, rxbuf := 0 }
       c.rxbuf < (on.stream 1).used + 1) := by
  decide +kernel

/-- What `Config` decodes of a unit is open: the other hypotheses of the clauses that name it hold of the first state. -/
theorem wit_VideoFramesAndPackets_decode : on.streamCfg 2 = some { kind := .raw, port := 2 }
    ∧ (let f : VFrame := { ts := 7, capture := 0, ended := true }
     let s := filming f {}
     let c : StreamCfg := { kind := .raw, port := 2 }
     s.ingestRuns = true ∧ (s.stream 2).frames = [f] ∧ f.skip c.units = f ∧ f.next < c.units ∧ (s.stream 2).busy ≤ s.nclk
       ∧ f.inBudget c s.nclk = true ∧ (s.startDecode 2 c f).isSome = true ∧ (timed s).startDecode 2 c f = none
       ∧ VFrame.inBudget { f with started := some 0 } c s.nclk = false
       ∧ (∀ g, s.startDecode 2 c f = some g → g.inBudget c (s.nclk + unitCycles c g.roi true f.next) = true))
    ∧ (let f : VFrame := { ts := 7, capture := 0 }
       f.ended = false ∧ f.last ≤ f.next)
    ∧ (let s := filming { ts := 7, capture := 0, started := some 0 } {}
       s.passed 0 1000 = true ∧ s.passed 99999999999999 1000 = false)
    ∧ (let f : VFrame := { ts := 7, capture := 0, started := some 0, next := 1000000 }
       let c : StreamCfg := { kind := .raw, port := 2 }
       c.units ≤ f.next ∧ ((filming f {}).startDecode 2 c f).isSome = true ∧ (filming f {}).sec.image.isSome = true) := by
  decide +kernel

/-! ### Witnesses: sets, deadlines, boundaries and pans -/

theorem wit_SetsAndDeadlines :
    (let x : PsetSt := { binding := 0, firing := 1, params := [], quality := 0, deadline := 6000000000, tag := 0 }
     let s : State := { taking with ingest := { psets := [x] } }
     s.ingestRuns = true ∧ s.qmgrReady = true ∧ s.ingest.psets.find? (fun y => y.binding = 0) = some x ∧ s.sec.image.isSome = true
       ∧ SMap.get img.psets 0 = some { queue := 0, trigger := 1, deadlineOfs := 1000000, items := [] } ∧ s.queueCfg 0 = some {}
       ∧ (∀ y ∈ s.ingest.psets, y.firing = x.firing → 0 ≤ y.binding) ∧ (s.queue 0).state = .opened ∧ s.refuseJob 0 {} x.params.length = none
       ∧ s.tide64 + 20000 ≤ x.deadline ∧ s.tide64 + 0 ≤ x.deadline)
    ∧ (on.queue 0).state ≠ .opened
    ∧ (let s : State := { taking with jobs := [{ waiter with st := .live, deadline := 5000000000 }], nextJob := 1 }
       s.inReset = false ∧ s.attrib.events = [] ∧ s.harvestDue { waiter with st := .live, deadline := 5000000000 } = true ∧ waiter.runs = [])
    ∧ (let s : State := { taking with jobs := [{ waiter with deadline := 5000000000 }], nextJob := 1 }
       s.lateDue { waiter with deadline := 5000000000 } = true)
    ∧ (waiter.queue < 2 ^ 16 ∧ (15 : Nat) < 16 ∧ waiter.deadline < 2 ^ 64) := by decide +kernel

theorem wit_SetsAndDeadlines_inv :
    ({ taking with jobs := [{ waiter with st := .live, deadline := 5000000000 }], nextJob := 1 } : State).Inv :=
  { State.reset_inv with tideNs := by decide, tideFrac := by decide, jobIds := by decide, jobNext := by decide }

/-- A live instance of queue 1 in slot 0 of context 0. -/
def live : Job := { waiter with st := .live, slots := [0] }

/-- `running` with that instance, its slot's state word being `w`. -/
def holding (w : BitVec 16) : State :=
  { running with
    jobs := [live], nextJob := 1,
    pans := [(0, { entryOn := true, ran := true, ctxs := [(0, { st := .resident, ranks := [0], boundary := true, slots := [(0, { state := w })] })] })] }

theorem wit_Boundaries : live.st ≠ .harvested ∧ ((holding 8).slotWord 0 0 0 SlotSt.state).getLsbD 3 = true
    ∧ ((holding 1).slotWord 0 0 0 SlotSt.state).getLsbD 3 = false ∧ live.spoiled = false ∧ ((holding 1).fateCommit 0 live).barred = false
    ∧ ((holding 0x201).fateCommit 0 live).commits = [0] ∧ (holding 0x201).shadowLeave 0 0 0 = false
    ∧ ((holding 1).fateCommit 0 live).commits = [] ∧ live.deadline ≤ 6000000000 ∧ (5999999999 : Nat) < live.deadline
    ∧ ({ live with leave := some (true, 4) } : Job).leave = some (true, 4) ∧ (4 : Nat) < 5
    ∧ live.pair = false ∧ live.slots = [0]
    ∧ ({ running with dirty := ((running.persLines 0 0 0 0).map (· / 64)).eraseDups } : State).dirty ≠ [] ∧ (15 : Nat) < 16 := by decide +kernel

/-- A LIVE slot gives the branches their other directions. -/
theorem wit_SequencerOperations_branch : (holding 1).branchTakes 0 0 [0] 2 1 1 = true ∧ (holding 1).branchTakes 0 0 [0] 3 2 2 = false
    ∧ (holding 1).branchTakes 0 0 [0] 4 1 1 = false := by decide +kernel

theorem wit_SliceEntriesAndSteps : on.nextEntry 0 = some 0 ∧ running.nextEntry 0 = none ∧ (running.pan 0).entryOn = true
    ∧ running.entryOver 0 = true ∧ ({ running with pans := [(0, { entryOn := true, entryAt := 99999999999999 })] } : State).entryOver 0 = false
    ∧ ((holding 1).ctx 0 0).boundary = true
    ∧ (let s : State := { running with regs := [(Reg.glbMode.addr, 1)], cores := [] }
       s.strict = true ∧ (s.ctx 0 0).live = true ∧ (∀ k ∈ (s.ctx 0 0).ranks, (s.core k).stepping = false)
         ∧ (s.ctx 0 0).startNclk + ((s.ctxCat 0 0).stepBudget + 1) / 2 ≤ s.nclk
         ∧ 499 < (s.ctx 0 0).startNclk + ((s.ctxCat 0 0).stepBudget + 1) / 2) := by decide +kernel

/-- `on` with HOST tokens waited for, of a bucket with a DEPTH of 1 KiB. -/
def metered (n : Nat) : State :=
  { on with
    sec := { image := some { img with pans := [(0, { cores := [0], catalog := [cat], rmem := { rate := 1, depth := 1 } })] } },
    pans := [(0, { waitingTok := [(bucketIx .rmem, n)] })] }

theorem wit_SparesLogsAndTap : ((metered 1024).pan 0).waitingTok.find? (waitsFor .rmem) = some (bucketIx .rmem, 1024)
    ∧ 1024 * 1000 ≤ (metered 1024).level 0 .rmem ∧ (metered 1025).level 0 .rmem < 1025 * 1000
    ∧ sramLine (0x09FFFFC0#32).toNat = false ∧ sramLine (0x80000000#32).toNat = false ∧ (chipMem (0x80000000#32).toNat).isSome = true
    ∧ sramLine (0x095FFFC0#32).toNat = true ∧ on.attrib.ecc = [] ∧ on.poisonAt 0 = .unused
    ∧ (let s : State := { on with regions := [(0, { downs := [on.physCore 0] })] }
       coreOf 64 = some 0 ∧ (s.region 0).downs.contains (s.physCore 0) = true)
    ∧ ({ on with corrected := [8] } : State).corrected = [8]
    ∧ (({ on with regions := [(3, { bankCopy := some 0 })] } : State).region 3).bankCopy = some 0
    ∧ (({ on with regions := [(0, { copyCore := some 0 })] } : State).region 0).copyCore = some 0 ∧ (on.pansOf 0).isEmpty = false
    ∧ (on.pansOf (3 * 8 + 7)).isEmpty = true ∧ 7 < (on.region 3).map.length
    ∧ (let r : Report := { time := 5, w2 := 0, w3 := 0, event := false }
       let s : State := { on with logs := [(logKey .chip, { buf := [r] })] }
       (s.log .chip).buf = [r] ∧ (s.log .chip).entries.length < logCap .chip)
    ∧ logCap (.core 0) ≤ (List.replicate (logCap (.core 0)) (Report.mk 0 0 0 false)).length ∧ logKey (.core 0) ≠ logKey .chip := by decide +kernel

/-! ### Values that the spec states -/

/-- The three absolute addresses of the register map's example. -/
theorem test_addresses : (Reg.loopSts 37).addr = 0x003104A4 ∧ (Reg.seqStatus 13).addr = 0x0020D110
    ∧ (Reg.logWord (.region 2) 5 2).addr = 0x00120458 := by decide +kernel

/-- The quotients and remainders of the example on integer division (R107). -/
theorem test_integer_division : idivS 32 1000000 7 = (142857, 1, {}) ∧ idivS 32 5 1000 = (0, 5, {}) ∧ idivS 64 (2 ^ 62) 1 = (2 ^ 62, 0, {})
    ∧ idivS 32 (-2147483648) (-1) = (-2147483648, 0, { ovf := true }) ∧ idivS 32 (-9) 0 = (-2147483648, -9, { dz := true }) := by decide +kernel

/-- The two reciprocals of the example on the smallest pivot that does not saturate (R66, R116). -/
theorem test_reciprocal : dsu .recip .rte { fmt := .fx32, point := 20 } (.fin false 513 (-20)) .zero = (0x7FC01FF0, { nx := true })
    ∧ (dsu .recip .rte { fmt := .fx32, point := 20 } (.fin false 512 (-20)) .zero).1 = 0x7FFFFFFF
    ∧ (dsu .recip .rte { fmt := .fx32, point := 20 } (.fin false 512 (-20)) .zero).2.ovf = true := by decide +kernel

/-- A GEMM of one product into FP32. -/
def edge (f : Fmt) (a b : Nat) : Nat := (encode .fp32 0 false .rte (dotF 63 [decode f 0 a] [decode f 0 b]).1).1

/-- The tensor array's edge products (R101): largest by largest, smallest subnormal by itself, largest by smallest subnormal. -/
theorem test_edge_products : ∀ x ∈ [(Fmt.e4m3, 0x48440000, 0x36800000, 0x3F600000), (.e5m2, 0x4F440000, 0x2F800000, 0x3F600000),
      (.e3m4, 0x43704000, 0x39800000, 0x3E780000), (.e2m1, 0x42100000, 0x3E800000, 0x40400000), (.fp16, 0x4F7FC004, 0x27800000, 0x3B7FE000),
      (.e8m7, 0x7F7FFFFF, 0, 0x3CFF0000), (.fp32, 0x7F7FFFFF, 0, 0x34FFFFFF)],
    edge x.1 x.1.maxBits x.1.maxBits = x.2.1 ∧ edge x.1 1 1 = x.2.2.1 ∧ edge x.1 x.1.maxBits 1 = x.2.2.2 := by decide +kernel

/-- AVS of a highest V_REQ of 722 mV with GUARD_MV 25 aims at 750 mV (the ageing example, R523). -/
theorem test_avs_goal : max 550 (min 780 ((722 + up.rwField .avs 15 8 + 4) / 5 * 5)) = 750 := by decide +kernel

/-- The front command of a queue acts on the rest (log entry 1): PWR_SAG_N low for 100 ns holds writes, and the next command waits. -/
theorem test_queue : (match step { up with pending := [.pwrSag 100, .idcode] } with
    | .next t => decide (t.pending = [.idcode]) && t.power.held && t.power.sagPin
    | _ => false) = true := by decide +kernel

/-- IDCODE selects its register (R585). -/
theorem test_idcode : exec .idcode { up with tap := { instr := .bypass, dr := 0 } } = .next up := rfl

/-- An instance whose deadline is 20 µs after its arrival waits with its arrival time (R256, R264). -/
theorem test_submit : ((taking.newJob 1 { qdepth := 2 } 0 5 5000020000 5000000000 0 [] []).jobs.map (fun j => (j.tag, j.tArr, j.st))
    = [(5, 5000000000, .waiting)]) := by decide +kernel

/-- One that is a nanosecond nearer completes NOT_STARTED. -/
theorem test_submit_late : (let t := taking.newJob 1 { qdepth := 2 } 0 5 5000019999 5000000000 0 [] []
    t.jobs.isEmpty && t.comps.length == 1) = true := by decide +kernel

/-- The sixteen words of an ADD whose fields differ from each other lie as R181 places them, and give it back. -/
theorem test_descriptor :
    let d : Desc := { one with
      rm := 4, slotwise := true, predMask := 0xF000, predVal := 0x5000, fmtA := 0x1400, fmtD := 0x0C00, m := 2, n := 3, lda := 16, ldd := 32,
      relA := true, relD := true, slotStride := 0x20040, scofsB := 0x11, statusIdx := 9, imm := 0xABCD }
    descWords ⟨2, 0⟩ d = [0x20202000 ||| 0, 0xF0005000, 0x14000000, 0x00000C00, 0x1000, 0x2000, 0x3000, 0x4000, 0x00020003, 0, 0x00100000, 0x20,
        0x90020040, 0x11, 9, 0xABCD]
      ∧ descOf (descWords ⟨2, 0⟩ d) = (⟨2, 0⟩, d) := by decide +kernel

/-- A program header's bytes: DESC_COUNT is 4, SLOTS 2, PERS_OFS 64 and MAX_ISSUE 8 (R174). -/
theorem test_header : (prog.headerBytes.drop 6).take 4 = [4, 0, 2, 0] ∧ (prog.headerBytes.drop 0x14).take 8 = [64, 0, 0, 0, 64, 0, 0, 0]
    ∧ (prog.headerBytes.drop 0x24).take 4 = [8, 0, 0, 0] ∧ StepProg.ofHeader { prog with rsv2C := List.replicate 20 0 }.headerBytes
      = { prog with rsv2C := List.replicate 20 0 } := by decide +kernel

/-- ADD issues and waits to complete; its result stands only then (R179). -/
theorem test_add : (match exec (.add 0 one) (placed ⟨2, 0⟩ one) with
    | .next t => ((t.core 0).ops.map OutOp.desc, (t.core 0).next) == ([1], 2) && decide (t.mem = (placed ⟨2, 0⟩ one).mem)
    | _ => false) = true := by decide +kernel

/-- A semaphore that nobody holds is acquired (R458). -/
theorem test_semaphore : (match exec (.semAcquire (hdr 4 63) 10) on with
    | .next t => t.sems.get 63 == some ⟨.a, 0, 10, on.nclk⟩
    | _ => false) = true := by decide +kernel

end Sys2Proof.Tests
end

section
/-!
PROOF. One step of the block: every command and every cycle keeps the invariant, and the state at reset has it.
-/

namespace Sys2Proof.Machine

/-! ### Commands -/

/-- Every command ends in a next state, with the commands that wait untouched and the invariant kept: each by the lemma on its own meaning. -/
theorem Instr.kept : (c : Instr) → Instr.Kept c
  | .porstNAssert ns acts => execPorstNAssert_keeps ns acts
  | .porstNRelease puf entropy => execPorstNRelease_keeps puf entropy
  | .sysrstN ns acts => execSysrstN_keeps ns acts
  | .pwrSag lowNs => execPwrSag_keeps lowNs
  | .vddIoLow mv => execVddIoLow_keeps mv
  | .vddCoreLow mv => execVddCoreLow_keeps mv
  | .ledgerWriteResume => execLedgerWriteResume_keeps
  | .brownOut rail mv ns => execBrownOut_keeps rail mv ns
  | .brownOutExit => execBrownOutExit_keeps
  | .pllUnlock => execPllUnlock_keeps
  | .pllRelockExit => execPllRelockExit_keeps
  | .thermalSample temps => execThermalSample_keeps temps
  | .thermTrip celsius => execThermTrip_keeps celsius
  | .linkUp p speed master => execLinkUp_keeps p speed master
  | .linkDown p => execLinkDown_keeps p
  | .frameReceive f => execFrameReceive_keeps f
  | .regRead h addr count => execRegRead_keeps h addr count
  | .regWrite h addr count vals => execRegWrite_keeps h addr count vals
  | .sqpFragment h type total ofs data => execSqpFragment_keeps h type total ofs data
  | .reassemblyTimeout port s0 => execReassemblyTimeout_keeps port s0
  | .queueOpen h => execQueueOpen_keeps h
  | .queueAdopt h => execQueueAdopt_keeps h
  | .queueClose h => execQueueClose_keeps h
  | .queueCloseAck q => execQueueCloseAck_keeps q
  | .submit h b => execSubmit_keeps h b
  | .cancel h tag => execCancel_keeps h tag
  | .windowOpen h region ofs len => execWindowOpen_keeps h region ofs len
  | .windowClose h => execWindowClose_keeps h
  | .windowWrite h ofs data => execWindowWrite_keeps h ofs data
  | .windowWriteApply w => execWindowWriteApply_keeps w
  | .windowRead h ofs len => execWindowRead_keeps h ofs len
  | .semAcquire h leaseMs => execSemAcquire_keeps h leaseMs
  | .semRelease h => execSemRelease_keeps h
  | .semStatus h => execSemStatus_keeps h
  | .semLeaseExpiry n => execSemLeaseExpiry_keeps n
  | .imageBegin h kind slot refId total => execImageBegin_keeps h kind slot refId total
  | .imageData h ofs data => execImageData_keeps h ofs data
  | .imageEnd h => execImageEnd_keeps h
  | .containerVerification x => execContainerVerification_keeps x
  | .supervisorStart => execSupervisorStart_keeps
  | .referenceDecodeDone x => execReferenceDecodeDone_keeps x
  | .attestReq h nonce => execAttestReq_keeps h nonce
  | .hostAck h => execHostAck_keeps h
  | .resendTimer port seq => execResendTimer_keeps port seq
  | .svcRead cmd addr complete => execSvcRead_keeps cmd addr complete
  | .svcWrite cmd addr val complete => execSvcWrite_keeps cmd addr val complete
  | .counterOvfClear src addr => execCounterOvfClear_keeps src addr
  | .glbModeWrite src val => execGlbModeWrite_keeps src val
  | .vuCtrlWrite src core val => execVuCtrlWrite_keeps src core val
  | .logClear src log => execLogClear_keeps src log
  | .hbusCfgWrite src ch val => execHbusCfgWrite_keeps src ch val
  | .hbusTrainingDone ch pass => execHbusTrainingDone_keeps ch pass
  | .hportCfgWrite src n r val => execHportCfgWrite_keeps src n r val
  | .load src pan ctx catalog => execLoad_keeps src pan ctx catalog
  | .loadDone pan ctx => execLoadDone_keeps pan ctx
  | .unload src pan ctx => execUnload_keeps src pan ctx
  | .preempt src pan => execPreempt_keeps src pan
  | .pause src pan on => execPause_keeps src pan on
  | .waitSumLoRead src client => execWaitSumLoRead_keeps src client
  | .tideNowNsRead src => execTideNowNsRead_keeps src
  | .tideAddendWrite src val => execTideAddendWrite_keeps src val
  | .step src => execStep_keeps src
  | .set src => execSet_keeps src
  | .rearm src => execRearm_keeps src
  | .syncReceive m => execSyncReceive_keeps m
  | .holdoverTimeout => execHoldoverTimeout_keeps
  | .bestMasterChange gm logInterval => execBestMasterChange_keeps gm logInterval
  | .pdelayReq p domain => execPdelayReq_keeps p domain
  | .pdelayTimer p => execPdelayTimer_keeps p
  | .pdelayResp p domain turnaround => execPdelayResp_keeps p domain turnaround
  | .ppsInEdge => execPpsInEdge_keeps
  | .ppsOutEdge => execPpsOutEdge_keeps
  | .avsAppliedWrite src val => execAvsAppliedWrite_keeps src val
  | .avsStep => execAvsStep_keeps
  | .avsLateTimeout => execAvsLateTimeout_keeps
  | .salinometerSample readings => execSalinometerSample_keeps readings
  | .wearRecord shutdown => execWearRecord_keeps shutdown
  | .hoursRecord shutdown => execHoursRecord_keeps shutdown
  | .ledgerRecordCommit readBackOk => execLedgerRecordCommit_keeps readBackOk
  | .format src => execFormat_keeps src
  | .ledgerRdDataRead src => execLedgerRdDataRead_keeps src
  | .shutdownReq src => execShutdownReq_keeps src
  | .shutdownBistDone fail columns => execShutdownBistDone_keeps fail columns
  | .startSelfTestDone fail columns => execStartSelfTestDone_keeps fail columns
  | .apply src => execApply_keeps src
  | .applyComplete => execApplyComplete_keeps
  | .discard src => execDiscard_keeps src
  | .enrol src => execEnrol_keeps src
  | .secStoreCfgWrite src val => execSecStoreCfgWrite_keeps src val
  | .secModelDel src index => execSecModelDel_keeps src index
  | .activate src sel => execActivate_keeps src sel
  | .clear src sel => execClear_keeps src sel
  | .en src loop on => execEn_keeps src loop on
  | .feClr src loop => execFeClr_keeps src loop
  | .loopHostTargetWrite src loop ff mant => execLoopHostTargetWrite_keeps src loop ff mant
  | .loopTraceTrig src mask => execLoopTraceTrig_keeps src mask
  | .loopTraceCtrlWrite src trace val => execLoopTraceCtrlWrite_keeps src trace val
  | .loopTick => execLoopTick_keeps
  | .sampleLatch slot => execSampleLatch_keeps slot
  | .updateIssue pair => execUpdateIssue_keeps pair
  | .updateCompare pair agree => execUpdateCompare_keeps pair agree
  | .lockstepKatDone pair pass0 pass1 => execLockstepKatDone_keeps pair pass0 pass1
  | .setpointFrameSend => execSetpointFrameSend_keeps
  | .tracePageSpill trace => execTracePageSpill_keeps trace
  | .tracePageSend trace => execTracePageSend_keeps trace
  | .measFrame stream payload => execMeasFrame_keeps stream payload
  | .fieldTimeout field => execFieldTimeout_keeps field
  | .rtpPacket stream pkt => execRtpPacket_keeps stream pkt
  | .precinctDecode stream => execPrecinctDecode_keeps stream
  | .decodeBudgetExpiry stream => execDecodeBudgetExpiry_keeps stream
  | .videoFrameComplete stream => execVideoFrameComplete_keeps stream
  | .parameterSetHandover binding => execParameterSetHandover_keeps binding
  | .deadlineHarvest => execDeadlineHarvest_keeps
  | .notStartedThreshold => execNotStartedThreshold_keeps
  | .sliceEntryStart pan => execSliceEntryStart_keeps pan
  | .sliceEntryEnd pan => execSliceEntryEnd_keeps pan
  | .stepBoundary pan ctx => execStepBoundary_keeps pan ctx
  | .stepBudgetEnd pan ctx => execStepBudgetEnd_keeps pan ctx
  | .copy core d => execCopy_keeps core d
  | .fill core d => execFill_keeps core d
  | .feRead core d => execFeRead_keeps core d
  | .feWrite core d => execFeWrite_keeps core d
  | .pageLoad core d => execPageLoad_keeps core d
  | .pageStore core d => execPageStore_keeps core d
  | .gemm core d cin transA transB pank => execGemm_keeps core d cin transA transB pank
  | .add core d => execAdd_keeps core d
  | .sub core d => execSub_keeps core d
  | .mul core d => execMul_keeps core d
  | .fma core d => execFma_keeps core d
  | .max core d => execMax_keeps core d
  | .min core d => execMin_keeps core d
  | .abs core d => execAbs_keeps core d
  | .neg core d => execNeg_keeps core d
  | .idiv core d => execIdiv_keeps core d
  | .irem core d => execIrem_keeps core d
  | .shl core d => execShl_keeps core d
  | .shr core d => execShr_keeps core d
  | .and core d => execAnd_keeps core d
  | .or core d => execOr_keeps core d
  | .xor core d => execXor_keeps core d
  | .twosum core d => execTwosum_keeps core d
  | .twoprod core d => execTwoprod_keeps core d
  | .padd core d => execPadd_keeps core d
  | .pmul core d => execPmul_keeps core d
  | .test core d => execTest_keeps core d
  | .setstate core d => execSetstate_keeps core d
  | .reduceSum core d axis pan => execReduceSum_keeps core d axis pan
  | .reduceMax core d axis pan => execReduceMax_keeps core d axis pan
  | .reduceMin core d axis pan => execReduceMin_keeps core d axis pan
  | .normInf core d axis pan => execNormInf_keeps core d axis pan
  | .sumsq core d axis pan => execSumsq_keeps core d axis pan
  | .ldltDense core d => execLdltDense_keeps core d
  | .ldltStaged core d => execLdltStaged_keeps core d
  | .trsolveForward core d => execTrsolveForward_keeps core d
  | .trsolveDiag core d => execTrsolveDiag_keeps core d
  | .trsolveBackward core d => execTrsolveBackward_keeps core d
  | .trsolveFull core d => execTrsolveFull_keeps core d
  | .div core d => execDiv_keeps core d
  | .sqrt core d => execSqrt_keeps core d
  | .recip core d => execRecip_keeps core d
  | .rsqrt core d => execRsqrt_keeps core d
  | .certOptimality core d cls => execCertOptimality_keeps core d cls
  | .certPrimalInfeasibility core d cls => execCertPrimalInfeasibility_keeps core d cls
  | .certDualInfeasibility core d cls => execCertDualInfeasibility_keeps core d cls
  | .certEkf core d => execCertEkf_keeps core d
  | .conv core d => execConv_keeps core d
  | .barrier core d => execBarrier_keeps core d
  | .barrierRelease pan ctx => execBarrierRelease_keeps pan ctx
  | .barrierTimeout core => execBarrierTimeout_keeps core
  | .fence core d => execFence_keeps core d
  | .commit core d => execCommit_keeps core d
  | .stepEnd core d => execStepEnd_keeps core d
  | .jump core d => execJump_keeps core d
  | .ifAny core d pan => execIfAny_keeps core d pan
  | .ifAll core d pan => execIfAll_keeps core d pan
  | .ifNone core d pan => execIfNone_keeps core d pan
  | .fbar core d => execFbar_keeps core d
  | .operationComplete core f => execOperationComplete_keeps core f
  | .trapDelivery core => execTrapDelivery_keeps core
  | .slotTimeout core => execSlotTimeout_keeps core
  | .bufferFlush core cell => execBufferFlush_keeps core cell
  | .remoteAccessComplete core => execRemoteAccessComplete_keeps core
  | .hbusPageTransfer ch crcErrors => execHbusPageTransfer_keeps ch crcErrors
  | .sluiceTokenGrant pan b => execSluiceTokenGrant_keeps pan b
  | .harrowScrub line words => execHarrowScrub_keeps line words
  | .harrowRewrite => execHarrowRewrite_keeps
  | .bankCopyDone r => execBankCopyDone_keeps r
  | .coreCopyDone r => execCoreCopyDone_keeps r
  | .logRecord l => execLogRecord_keeps l
  | .bypass => execBypass_keeps
  | .idcode => execIdcode_keeps
  | .samplePreload => execSamplePreload_keeps
  | .extest => execExtest_keeps
  | .extestPulse => execExtestPulse_keeps
  | .extestTrain => execExtestTrain_keeps
  | .gateControlListEntry p => execGateControlListEntry_keeps p
  | .frameTransmit p => execFrameTransmit_keeps p
  | .hbusLost ch => execHbusLost_keeps ch
  | .ledgerEraseDone => execLedgerEraseDone_keeps

/-! ### Steps -/

theorem step_of_pending_nil {s : State} (h : s.pending = []) : step s = .next s.cycle := by
  rw [step, h]

theorem step_of_pending_cons {s : State} {c : Instr} {rest : List Instr} (h : s.pending = c :: rest) :
    step s = exec c { s with pending := rest } := by
  rw [step, h]

theorem State.cycle_keeps (s : State) : s.Keeps s.cycle := by
  unfold State.cycle
  split
  · exact State.Keeps.refl s
  · exact State.tick_keeps (State.Keeps.refl s)

/-- The invariant says nothing of the commands that wait. -/
theorem State.Inv.with_pending {s : State} (h : s.Inv) (l : List Instr) : ({ s with pending := l } : State).Inv := { h with }

/-- A step of a state with the invariant: a cycle where no command waits, else the command at the front. -/
theorem State.Inv.step {s t : State} (hs : s.Inv) (h : step s = .next t) : t.Inv := by
  cases hp : s.pending with
  | nil =>
    rw [step_of_pending_nil hp] at h
    injection h with h
    exact h ▸ s.cycle_keeps.2 hs
  | cons c rest =>
    rw [step_of_pending_cons hp] at h
    obtain ⟨u, hu, -, hk⟩ := Instr.kept c { s with pending := rest }
    rw [hu] at h
    injection h with h
    exact h ▸ hk (hs.with_pending rest)

/-- Settles O4: a step is a cycle of NCLK or the command at the front of the queue, and each keeps the invariant. -/
theorem everyStepKeepsInvariant : Obligations.EveryStepKeepsInvariant :=
  fun _ _ hs h => hs.step h

/-- Settles O5: the tables of the state at reset list nothing, so that every unit reads as its reset contents. -/
theorem resetState : Obligations.ResetState :=
  ⟨State.reset_inv, rfl, rfl, fun _ => ⟨rfl, rfl⟩, fun _ => ⟨rfl, rfl⟩, fun _ => rfl, fun _ => rfl, rfl, rfl, rfl, rfl, fun _ => rfl⟩

end Sys2Proof.Machine
end

section
/-!
PROOF. The address map read backwards: the register that it gives for an address has that address.
-/

namespace Sys2Proof.Machine

/-- The map finds the block of an address and then the register by the offset in the block, so that the register's address is the block's base and
that offset. -/
theorem Reg.addr_of_ofAddr {a : Nat} {r : Reg} (h : Reg.ofAddr a = some r) : r.addr = a := by
  unfold Reg.ofAddr at h
  split at h
  · cases h
  · split at h
    · cases h
    · rename_i b hb
      obtain ⟨hle, hb4⟩ := Block.base_le hb
      obtain ⟨o, rfl⟩ := Nat.exists_eq_add_of_le hle
      have ho : o % 4 = 0 := by omega
      simp only [Nat.add_sub_cancel_left] at h
      cases b with
      | hport => exact hportReg_addr h ho
      | tide => exact tideReg_addr h ho
      | qmgr => exact qmgrReg_addr h ho
      | pan => exact panReg_addr h ho
      | region n => exact regionReg_addr h ho
      | core n => exact coreReg_addr h ho
      | loop => exact loopReg_addr h ho
      | ingest => exact ingestReg_addr h ho
      | health => exact healthReg_addr h ho
      | sec => exact secReg_addr h ho
      | glb | ledger =>
        dsimp only at h
        split at h <;> cases h <;> rfl
      | bridge =>
        dsimp only at h
        split at h
        · split at h <;> cases h <;> simp only [Reg.addr, Ctr.addr, Block.base] <;> omega
        · cases h
      | sem =>
        dsimp only at h
        split at h
        · cases h
          simp only [Reg.addr, Block.base]
          omega
        · split at h <;> cases h
          subst_vars
          rfl
      | hbus =>
        dsimp only at h
        split at h
        · split at h <;> cases h <;> simp only [Reg.addr, Block.base] <;> omega
        · cases h

/-- Settles O6, by the block that holds the address. -/
theorem addressMapRoundTrip : Obligations.AddressMapRoundTrip :=
  fun _ _ h => Reg.addr_of_ofAddr h

end Sys2Proof.Machine
end

section
/-!
PROOF. The stored fields of registers (R16): which bits a write takes, the reserved-write flag, and HBUS_n_CFG as a register so written.
-/

namespace Sys2Proof.Machine

/-! ### Bits of a field -/

theorem testBit_fieldOf (w : Word) (hi lo j : Nat) :
    (fieldOf w hi lo).testBit j = (decide (j < hi + 1 - lo) && w.getLsbD (lo + j)) := by
  simp only [fieldOf, Nat.testBit_mod_two_pow, Nat.testBit_div_two_pow, BitVec.getLsbD, Nat.add_comm]

/-- Words that agree on a field's bits have the same field. -/
theorem fieldOf_congr {w x : Word} {hi lo : Nat} (h : ∀ k, lo ≤ k → k ≤ hi → w.getLsbD k = x.getLsbD k) :
    fieldOf w hi lo = fieldOf x hi lo := by
  refine Nat.eq_of_testBit_eq fun j => ?_
  rw [testBit_fieldOf, testBit_fieldOf]
  by_cases hj : j < hi + 1 - lo
  · rw [h (lo + j) (by omega) (by omega)]
  · simp [hj]

/-- A word with a field replaced: the bits above the field, its new value, and the bits below it. -/
theorem withField_eq (w : Word) (hi lo v : Nat) :
    withField w hi lo v = BitVec.ofNat 32 (2 ^ lo * (2 ^ (hi + 1 - lo) * (w.toNat / 2 ^ lo / 2 ^ (hi + 1 - lo)) + v % 2 ^ (hi + 1 - lo))
      + w.toNat % 2 ^ lo) := by
  have hw := Nat.div_add_mod w.toNat (2 ^ lo)
  rw [← Nat.div_add_mod (w.toNat / 2 ^ lo) (2 ^ (hi + 1 - lo)), Nat.mul_add] at hw
  rw [withField, fieldOf, Nat.mul_add, Nat.mul_comm (w.toNat / 2 ^ lo % 2 ^ (hi + 1 - lo)), Nat.mul_comm (v % 2 ^ (hi + 1 - lo))]
  congr 1
  omega

theorem getLsbD_withField {hi lo : Nat} (hl : lo ≤ hi) (hh : hi < 32) (w : Word) (v k : Nat) :
    (withField w hi lo v).getLsbD k = if lo ≤ k ∧ k ≤ hi then v.testBit (k - lo) else w.getLsbD k := by
  rw [withField_eq, BitVec.getLsbD_ofNat, Nat.testBit_two_pow_mul_add _ (Nat.mod_lt _ (by positivity)),
    Nat.testBit_two_pow_mul_add _ (Nat.mod_lt _ (by positivity))]
  simp only [Nat.testBit_mod_two_pow, Nat.testBit_div_two_pow]
  by_cases hk : k < 32
  · by_cases h1 : k < lo
    · have h2 : ¬ (lo ≤ k ∧ k ≤ hi) := by omega
      simp only [hk, h1, h2, decide_true, Bool.true_and, if_true, if_false]
      rfl
    · by_cases h2 : k ≤ hi
      · have h3 : k - lo < hi + 1 - lo := by omega
        simp only [hk, h1, h2, h3, not_lt.mp h1, decide_true, Bool.true_and, and_self, if_true, if_false]
      · have h3 : ¬ k - lo < hi + 1 - lo := by omega
        have h4 : k - lo - (hi + 1 - lo) + (hi + 1 - lo) + lo = k := by omega
        simp only [hk, h1, h2, h3, h4, decide_true, Bool.true_and, and_false, if_false]
        rfl
  · have h2 : ¬ (lo ≤ k ∧ k ≤ hi) := by omega
    rw [if_neg h2, BitVec.getLsbD_of_ge w k (by omega)]
    simp only [hk, decide_false, Bool.false_and]

/-- A word with a field replaced by that of another word takes the other word's bits there. -/
theorem getLsbD_withField_fieldOf {hi lo : Nat} (hl : lo ≤ hi) (hh : hi < 32) (w v : Word) (k : Nat) :
    (withField w hi lo (fieldOf v hi lo)).getLsbD k = if lo ≤ k ∧ k ≤ hi then v.getLsbD k else w.getLsbD k := by
  rw [getLsbD_withField hl hh]
  split
  · rw [testBit_fieldOf, decide_eq_true (by omega), Bool.true_and, Nat.add_sub_of_le (by omega)]
  · rfl

/-! ### Stored fields -/

/-- Every field of a list lies within a word. -/
def FieldsInWord (fs : List RwField) : Prop := ∀ f ∈ fs, f.lo ≤ f.hi ∧ f.hi < 32

/-- Two fields that have no bit in common. -/
def RwField.Apart (f g : RwField) : Prop := f.hi < g.lo ∨ g.hi < f.lo

theorem Reg.rwFields_inWord (r : Reg) : FieldsInWord r.rwFields := by
  cases r <;> simp [FieldsInWord, Reg.rwFields, RwField.any]

theorem Reg.rwFields_apart (r : Reg) : r.rwFields.Pairwise RwField.Apart := by
  cases r <;> simp [RwField.Apart, Reg.rwFields, RwField.any]

/-- Whether a write of `v` gives a bit its new value (R16): it lies in a field whose new encoding is defined. -/
def takesBit (v : Word) (fs : List RwField) (k : Nat) : Bool :=
  fs.any (fun f => decide (f.lo ≤ k ∧ k ≤ f.hi) && f.ok (fieldOf v f.hi f.lo))

/-- A write of stored fields takes each bit from the value written or from the word that stood. -/
theorem getLsbD_storeFields {fs : List RwField} (hw : FieldsInWord fs) (old v : Word) (k : Nat) :
    (storeFields old v fs).1.getLsbD k = if takesBit v fs k then v.getLsbD k else old.getLsbD k := by
  induction fs generalizing old with
  | nil => rfl
  | cons f r ih =>
    obtain ⟨⟨hl, hh⟩, hr⟩ := List.forall_mem_cons.mp hw
    have hc : takesBit v (f :: r) k = (decide (f.lo ≤ k ∧ k ≤ f.hi) && f.ok (fieldOf v f.hi f.lo) || takesBit v r k) := List.any_cons
    rw [storeFields, hc]
    split
    · rename_i hok
      rw [ih hr, getLsbD_withField_fieldOf hl hh, hok]
      by_cases hk : f.lo ≤ k ∧ k ≤ f.hi <;> simp [hk]
    · rename_i hok
      rw [ih hr, Bool.eq_false_of_not_eq_true hok, Bool.and_false, Bool.false_or]

/-- A bit of a field is taken exactly where the field's new encoding is defined, when no two fields share a bit. -/
theorem takesBit_of_mem {fs : List RwField} (ha : fs.Pairwise RwField.Apart) {f : RwField} (hf : f ∈ fs) (v : Word) {k : Nat}
    (hl : f.lo ≤ k) (hh : k ≤ f.hi) : takesBit v fs k = f.ok (fieldOf v f.hi f.lo) := by
  have same (g : RwField) (hg : g ∈ fs) (hgl : g.lo ≤ k) (hgh : k ≤ g.hi) : g = f := by
    by_contra hne
    have : Std.Symm RwField.Apart := ⟨fun _ _ => Or.symm⟩
    have : g.Apart f := ha.forall hg hf hne
    unfold RwField.Apart at this
    omega
  rw [Bool.eq_iff_iff]
  simp only [takesBit, List.any_eq_true, Bool.and_eq_true, decide_eq_true_eq]
  exact ⟨fun ⟨g, hg, ⟨hgl, hgh⟩, hok⟩ => same g hg hgl hgh ▸ hok, fun hok => ⟨f, hf, ⟨hl, hh⟩, hok⟩⟩

theorem fieldOf_storeFields {fs : List RwField} (hw : FieldsInWord fs) (ha : fs.Pairwise RwField.Apart) {f : RwField} (hf : f ∈ fs)
    (old v : Word) :
    fieldOf (storeFields old v fs).1 f.hi f.lo = if f.ok (fieldOf v f.hi f.lo) then fieldOf v f.hi f.lo else fieldOf old f.hi f.lo := by
  split
  · rename_i hok
    exact fieldOf_congr fun k hl hh => by rw [getLsbD_storeFields hw, takesBit_of_mem ha hf v hl hh, if_pos hok]
  · rename_i hok
    exact fieldOf_congr fun k hl hh => by rw [getLsbD_storeFields hw, takesBit_of_mem ha hf v hl hh, if_neg hok]

/-- A bit outside every stored field stays as it was. -/
theorem getLsbD_storeFields_outside {fs : List RwField} (hw : FieldsInWord fs) (old v : Word) {k : Nat}
    (hk : ∀ f ∈ fs, k < f.lo ∨ f.hi < k) : (storeFields old v fs).1.getLsbD k = old.getLsbD k := by
  rw [getLsbD_storeFields hw, if_neg]
  simp only [takesBit, List.any_eq_true, Bool.and_eq_true, decide_eq_true_eq, not_exists, not_and]
  intro f hf hin
  have := hk f hf
  omega

theorem storeFields_reserved_iff (old v : Word) (fs : List RwField) :
    (storeFields old v fs).2 = true ↔ ∃ f ∈ fs, f.ok (fieldOf v f.hi f.lo) = false := by
  induction fs generalizing old with
  | nil => simp [storeFields]
  | cons f r ih => cases hf : f.ok (fieldOf v f.hi f.lo) <;> simp [storeFields, hf, ih]

/-! ### Writes of stored fields -/

theorem State.rsvd_rsvdWrite (s : State) (src : RegSrc) (r : Reg) : (s.rsvd src r).rsvdWrite = true := by
  unfold State.rsvd State.setRsvd
  dsimp only
  split
  · assumption
  · rfl

theorem State.rsvd_regs (s : State) (src : RegSrc) (r : Reg) : (s.rsvd src r).regs = s.regs := by
  unfold State.rsvd State.setRsvd
  dsimp only
  split <;> rfl

theorem State.fields_fst (s : State) (src : RegSrc) (r : Reg) (v : Word) : (s.fields src r v).1 = s.stored r v := rfl

theorem State.fields_rsvdWrite (s : State) (src : RegSrc) (r : Reg) (v : Word) :
    (s.fields src r v).2.rsvdWrite = (s.rsvdWrite || (storeFields (s.cur r) v r.rwFields).2) := by
  unfold State.fields
  dsimp only
  split
  · rename_i h
    rw [h, Bool.or_true, State.rsvd_rsvdWrite]
  · rename_i h
    rw [Bool.eq_false_of_not_eq_true h, Bool.or_false]

/-- A register without stored fields meets no reserved encoding. -/
theorem State.putFields_rsvdWrite (s : State) (src : RegSrc) (r : Reg) (v : Word) :
    (s.putFields src r v).rsvdWrite = (s.rsvdWrite || (storeFields (s.cur r) v r.rwFields).2) := by
  unfold State.putFields
  split
  · rename_i h
    rw [List.isEmpty_iff.mp h, storeFields, Bool.or_false]
  · exact s.fields_rsvdWrite src r v

theorem State.putFields_rw_self (s : State) (src : RegSrc) {r : Reg} (v : Word) (h : r.rwFields ≠ []) :
    (s.putFields src r v).rw r = s.stored r v := by
  unfold State.putFields
  rw [if_neg (by simpa using h)]
  simp [State.fields_fst]

/-! ### HBUS_n_CFG -/

/-- A transition of a READY bit changes the bit, and sends its EVENT. -/
theorem State.setReady_sends (s : State) (k : Nat) (v : Bool) : ∃ w, ({ s with ready := w } : State).Sends (s.setReady k v) := by
  unfold State.setReady
  split
  · exact ⟨s.ready, State.Sends.refl s⟩
  · exact ⟨_, State.event_sends _ _ _ (State.Sends.refl _)⟩

@[simp] theorem State.setReady_regs (s : State) (k : Nat) (v : Bool) : (s.setReady k v).regs = s.regs := by
  obtain ⟨w, h⟩ := s.setReady_sends k v
  exact h.regs

@[simp] theorem State.setReady_rsvdWrite (s : State) (k : Nat) (v : Bool) : (s.setReady k v).rsvdWrite = s.rsvdWrite := by
  obtain ⟨w, h⟩ := s.setReady_sends k v
  exact h.rsvdWrite

@[simp] theorem State.configHbus_regs (s : State) (c : Nat) : (s.configHbus c).regs = s.regs := by
  simp [State.configHbus, State.refreshHbus]

@[simp] theorem State.configHbus_rsvdWrite (s : State) (c : Nat) : (s.configHbus c).rsvdWrite = s.rsvdWrite := by
  simp [State.configHbus, State.refreshHbus]

/-- HBUS_n_CFG of a channel that is not READY: the stored fields are written and the channel is set up anew (R173). -/
theorem State.writeReg_hbusCfg {s : State} {n : Nat} (h : (s.chan n).ready = false) (src : RegSrc) (v : Word) :
    s.writeReg src (.hbusCfg n) v = ((s.putFields src (.hbusCfg n) v).configHbus n).wrote := by
  rw [State.writeReg, h, if_neg Bool.false_ne_true]

/-- Settles O22: a write takes a bit from the value written exactly where its field's new encoding is defined, and no two fields of a register
share a bit. -/
theorem storedFieldsOfRegisters : Obligations.StoredFieldsOfRegisters := by
  refine ⟨fun r old v => ⟨fun f hf => fieldOf_storeFields r.rwFields_inWord r.rwFields_apart hf old v,
    fun k _ hk => getLsbD_storeFields_outside r.rwFields_inWord old v hk, storeFields_reserved_iff old v r.rwFields⟩,
    fun s src r v => ⟨rfl, s.fields_rsvdWrite src r v, s.putFields_rsvdWrite src r v, s.putFields_rw_self src v⟩,
    fun s src c v ok hready => ?_⟩
  obtain ⟨u, hu, -, hans⟩ := State.writeBy_ok ok (Reg.ofAddr_hbusCfg c.isLt) rfl
  have hchan : (u.chan c.val).ready = false := by rw [State.chan, hu.hbus]; exact hready
  rw [State.writeReg_hbusCfg hchan] at hans
  have ht := hans rfl
  refine ⟨_, rfl, ?_, ?_⟩
  · calc (s.writeBy src (.hbusCfg c.val) v).rw (.hbusCfg c.val)
        = ((u.putFields src (.hbusCfg c.val) v).configHbus c.val).rw (.hbusCfg c.val) := by rw [State.rw, State.rw, ht.regs]; rfl
      _ = (u.putFields src (.hbusCfg c.val) v).rw (.hbusCfg c.val) := by rw [State.rw, State.rw, State.configHbus_regs]
      _ = u.stored (.hbusCfg c.val) v := u.putFields_rw_self src v (List.cons_ne_nil _ _)
      _ = s.stored (.hbusCfg c.val) v := by rw [State.stored, State.stored, hu.cur]
  · calc (s.writeBy src (.hbusCfg c.val) v).rsvdWrite
        = ((u.putFields src (.hbusCfg c.val) v).configHbus c.val).rsvdWrite := ht.rsvdWrite
      _ = _ := by rw [State.configHbus_rsvdWrite, u.putFields_rsvdWrite, hu.rsvdWrite, hu.cur]

end Sys2Proof.Machine
end

section
/-!
PROOF. Event counters (R36): sending a message to the hosts counts nothing, so that an event counted changes the one counter alone.
-/

namespace Sys2Proof.Machine

/-! ### Counters and messages -/

@[simp] theorem State.kick_counts (s : State) (p : Nat) : (s.kick p).counts = s.counts := by
  unfold State.kick
  dsimp only
  split
  · rfl
  · split <;> rfl

@[simp] theorem State.transmit_counts (s : State) (f : OutFrame) : (s.transmit f).counts = s.counts := State.kick_counts _ _

@[simp] theorem State.handNow_counts (s : State) (f : OutFrame) : (s.handNow f).counts = s.counts := by
  refine (State.transmit_counts _ _).trans ?_
  dsimp only
  split
  · exact State.onHport_counts _ _ _
  · rfl

@[simp] theorem State.handFrame_counts (s : State) (f : OutFrame) : (s.handFrame f).counts = s.counts := by
  unfold State.handFrame
  dsimp only
  split
  · split <;> simp
  · simp

@[simp] theorem State.sendMsg_counts (s : State) (p : Port) (m : OutMsg) : (s.sendMsg p m).2.counts = s.counts :=
  List.foldlRecOn (motive := fun t : State => t.counts = s.counts) _ _ (State.onHport_counts _ _ _)
    fun t ht f _ => (t.handFrame_counts f).trans ht

@[simp] theorem State.eventOn_counts (s : State) (p : Port) (kind subject : Nat) (body : List Byte) :
    (s.eventOn p kind subject body).counts = s.counts := by
  unfold State.eventOn
  split
  · split <;> simp
  · rfl

@[simp] theorem State.event_counts (s : State) (kind subject : Nat) (body : List Byte) : (s.event kind subject body).counts = s.counts := by
  simp [State.event]

/-! ### An event counted -/

/-- Counting an event puts the advanced count in the place of the old one; the EVENT that an overflow sends (R36) changes no counter. -/
theorem State.bump_counts (s : State) (c : Ctr) : (s.bump c).counts = s.counts.put c.addr ((s.count c).inc (2 ^ 31 - 1)) := by
  unfold State.bump
  dsimp only
  split <;> simp

theorem State.bump_count_self (s : State) (c : Ctr) : (s.bump c).count c = (s.count c).inc (2 ^ 31 - 1) := by
  rw [State.count, State.bump_counts, SMap.getD_put_self]

theorem State.bump_count_ne (s : State) {c d : Ctr} (h : d.addr ≠ c.addr) : (s.bump c).count d = s.count d := by
  rw [State.count, State.bump_counts, SMap.getD_put_ne _ _ _ h, State.count]

/-- Settles O7: the count advances as R36 says, at the counter's own address, and the rest is sending. -/
theorem counterCountsAndSaturates : Obligations.CounterCountsAndSaturates :=
  fun c s => ⟨s.bump_count_self c, fun _ h => s.bump_count_ne h, State.bump_sends c (State.Sends.refl s)⟩

end Sys2Proof.Machine
end

section
/-!
PROOF. A cycle of NCLK in which Tide carries into its seconds also records that it did (R492), which O2's frame leaves out.
-/

namespace Sys2Proof.Machine

/-- A cycle records whether the nanoseconds of Tide have reached 10⁹ in it. -/
theorem State.tick_carried (s : State) :
    s.tick.tide.carried = decide (1000000000 * 2 ^ 30 ≤ s.tide.ns * 2 ^ 30 + s.tide.frac + (s.rw .tideAddend).toNat) := by
  simp only [State.tick, Tide.tick, State.addend, ge_iff_le, Nat.le_div_iff_mul_le (Nat.two_pow_pos 30)]

/-- The machine after reset with Tide in the last nanosecond of a second, so that the next cycle carries. -/
def lastNanosecond : State := { State.reset with tide := { ns := 999999999 } }

theorem lastNanosecond_inv : lastNanosecond.Inv := { State.reset_inv with tideNs := by decide, tideFrac := Nat.two_pow_pos 30 }

theorem lastNanosecond_tick_carried : lastNanosecond.tick.tide.carried = true := by
  rw [State.tick_carried]
  decide +kernel

/-- Refutes O2: of Tide it lets a cycle change the time and the residence count alone, but the cycle that carries into the seconds also sets the
record of it that the edge of PPS_OUT goes by (R492). In the last nanosecond of a second that record changes. -/
theorem not_emptyQueueIsOneCycle : ¬ Obligations.EmptyQueueIsOneCycle := by
  intro h
  obtain ⟨t, hstep, -, -, -, hframe⟩ := (h lastNanosecond rfl).2 rfl lastNanosecond_inv (by decide)
  have hcycle : lastNanosecond.tick = t := by
    rw [step_of_pending_nil rfl] at hstep
    exact Host.Outcome.next.inj hstep
  have hsame : t.tide.carried = false := congrArg (fun s => s.tide.carried) hframe
  rw [← hcycle, lastNanosecond_tick_carried] at hsame
  exact Bool.noConfusion hsame

end Sys2Proof.Machine
end

section
/-!
PROOF. A counter cleared by a message (R37): before the write, the message's own checks try the completions that are held, and count the one
of an old generation that they discard (R468).
-/

namespace Sys2Proof.Machine

/-- COUNTER_OVF_CLEAR at the address of a counter is a write of its overflow bit. -/
theorem exec_counterOvfClear {a : Word} {r : Reg} (ha : Reg.ofAddr a.toNat = some r) (hr : r.isCounter = true) (src : RegSrc) (s : State) :
    exec (.counterOvfClear src a) s = .next (s.writeBy src r 0x80000000) := by
  change execCounterOvfClear src a s = _
  rw [execCounterOvfClear, ha]
  dsimp only
  rw [if_pos hr]

theorem Reg.ofAddr_detbreak : Reg.ofAddr (0x60908 : Word).toNat = some (.counter .detbreak) := by decide +kernel

/-- The machine started, with a completion of queue 0 that was sent once and taken back to be held (R452), while the queue has been closed and
opened anew. -/
def holdsOldCompletion : State :=
  { State.reset with
    power := { booted := true }, ready := 0xF01FF, queues := [(0, { state := .opened, gen := 2 })],
    comps := [{ id := 1, queue := 0, gen := 1, payload := [], reserved := 96, everSent := true, held := true }] }

/-- The header of a REG_WRITE of one register from client 0 on port A. -/
def oneRegWrite : SqpHdr :=
  { port := .a, udpLen := 44, crcOk := true, version := 1, ackReq := true, retry := false, resync := false, adopt := false, both := false,
    client := 0, oPort := .a, seq := 1, number := 0, gen := 0, length := 12, ack := 0, src := { mac := 1, v6 := false, ip := 1, udp := 5 } }

/-- The message that clears PAN_DETBREAK_COUNT is let through to the register. -/
theorem holdsOldCompletion_writeOk : holdsOldCompletion.WriteOk (.counter .detbreak) 0x80000000 (.sqp oneRegWrite) where
  left := { awake := rfl, ready := by decide, responsive := rfl, crc := rfl, length := rfl, version := rfl, port := rfl, new := .inr (.inl rfl) }
  right := ⟨rfl, by decide +kernel⟩

/-- The write of PAN_DETBREAK_COUNT leaves 1 in QMGR_QSTALE_COUNT, which was 0. -/
theorem holdsOldCompletion_counts_qstale :
    holdsOldCompletion.count .qstale = {}
      ∧ (holdsOldCompletion.writeBy (.sqp oneRegWrite) (.counter .detbreak) 0x80000000).count .qstale = { n := 1 } := by
  decide +kernel

/-- Refutes O8: where the write comes by SQP, other counters need not stay as they were. The message's sender is recorded and what is held for it is
tried (R604, R452), so that a completion of an old generation is discarded and counted in QMGR_QSTALE_COUNT (R468), whichever counter is cleared. -/
theorem not_counterClears : ¬ Obligations.CounterClears := by
  intro h
  obtain ⟨hctr, -⟩ := h.1 holdsOldCompletion (.sqp oneRegWrite) 0x60908
  obtain ⟨t, hexec, -, hothers, -⟩ := hctr .detbreak Reg.ofAddr_detbreak holdsOldCompletion_writeOk
  have hwrite : holdsOldCompletion.writeBy (.sqp oneRegWrite) (.counter .detbreak) 0x80000000 = t := by
    rw [exec_counterOvfClear Reg.ofAddr_detbreak rfl] at hexec
    exact Host.Outcome.next.inj hexec
  have hsame := hothers .qstale (by decide)
  obtain ⟨hbefore, hafter⟩ := holdsOldCompletion_counts_qstale
  rw [← hwrite, hafter, hbefore] at hsame
  exact absurd hsame (by decide)

end Sys2Proof.Machine
end

section
/-!
PROOF. The common course of an operation descriptor (R178, R179): reading through the coalescing buffers and streaming weights leave the
sequencers where they stand, and charging an access outside the scratchpad changes the pans' sluices alone; so a descriptor that nothing holds
issues, with its results, behind the operations that are outstanding.
-/

namespace Sys2Proof.Machine

/-! ### Where the sequencers stand -/

/-- Where a core's sequencer stands: the context whose step it runs, its rank, and the operations that are outstanding. -/
def Core.standing (k : Core) : Option (Nat × Nat) × Nat × List OutOp := (k.run, k.rank, k.ops)

/-- Every sequencer stands where it stood, with the same contexts and the same structure image. -/
structure State.SeqStands (s t : State) : Prop where
  core : ∀ k, (t.core k).standing = (s.core k).standing
  ctx : ∀ p c, t.ctx p c = s.ctx p c
  sec : t.sec = s.sec

namespace State.SeqStands

variable {s t u : State}

theorem refl (s : State) : s.SeqStands s := ⟨fun _ => rfl, fun _ _ => rfl, rfl⟩

theorem trans (h : s.SeqStands t) (h' : t.SeqStands u) : s.SeqStands u :=
  ⟨fun k => (h'.core k).trans (h.core k), fun p c => (h'.ctx p c).trans (h.ctx p c), h'.sec.trans h.sec⟩

theorem foldl {α : Type} {f : State → α → State} (hf : ∀ (s : State) x, s.SeqStands (f s x)) (l : List α) (s : State) :
    s.SeqStands (l.foldl f s) :=
  List.foldlRecOn (motive := s.SeqStands) l f (refl s) fun t ht x _ => ht.trans (hf t x)

theorem ite {b : Prop} [Decidable b] (h : s.SeqStands t) (h' : s.SeqStands u) : s.SeqStands (if b then t else u) := by
  split
  · exact h
  · exact h'

theorem run (h : s.SeqStands t) (n : Nat) : (t.core n).run = (s.core n).run := congrArg Prod.fst (h.core n)

theorem rank (h : s.SeqStands t) (n : Nat) : (t.core n).rank = (s.core n).rank := congrArg (fun x => x.2.1) (h.core n)

theorem ops (h : s.SeqStands t) (n : Nat) : (t.core n).ops = (s.core n).ops := congrArg (fun x => x.2.2) (h.core n)

theorem prog (h : s.SeqStands t) (p c r : Nat) : t.prog p c r = s.prog p c r := by
  simp only [State.prog, State.ctxCat, State.degradedEntry, State.catEntry, State.panCfg, h.ctx, h.sec]

theorem heldBy (h : s.SeqStands t) (n : Nat) (r w : List (Nat × Nat)) : t.heldBy n r w = s.heldBy n r w := by
  simp only [State.heldBy, h.ops]

end State.SeqStands

theorem State.onCore_stands (s : State) (n : Nat) {f : Core → Core} (hf : ∀ k, (f k).standing = k.standing) : s.SeqStands (s.onCore n f) := by
  refine ⟨fun k => ?_, fun _ _ => rfl, rfl⟩
  by_cases hk : k = n
  · rw [hk, onCore_core, hf]
  · rw [onCore_core_ne s n f k hk]

/-! ### Coalescing buffers -/

theorem State.poke_stands (s : State) (a : Nat) (bs : List Byte) (bad : Bool) : s.SeqStands (s.poke a bs bad) :=
  ⟨fun _ => rfl, fun _ _ => rfl, rfl⟩

theorem State.flushWord_stands (s : State) (e : BufEntry) (w : Nat) : s.SeqStands (s.flushWord e w) := by
  unfold State.flushWord
  dsimp only
  split
  · exact s.poke_stands _ _ _
  · exact .foldl (fun t _ => t.poke_stands _ _ _) _ s

theorem State.flushEntry_stands (s : State) (n : Nat) (e : BufEntry) : s.SeqStands (s.flushEntry n e) := by
  refine .trans ?_ (.foldl (fun t w => t.flushWord_stands e w) _ _)
  exact s.onCore_stands n fun _ => rfl

theorem State.flushLine_stands (s : State) (line : Nat) : s.SeqStands (s.flushLine line) := by
  unfold State.flushLine
  split
  · exact s.flushEntry_stands _ _
  · exact .refl s

theorem State.bufRoom_stands (s : State) (n line : Nat) : s.SeqStands (s.bufRoom n line) := by
  unfold State.bufRoom
  split
  · exact .ite (s.flushEntry_stands _ _) (.refl s)
  · exact .refl s

theorem State.bufRead_stands (s : State) (n a len : Nat) : s.SeqStands (s.bufRead n a len) := by
  refine .ite (s.bufRoom_stands _ _) ((s.bufRoom_stands n (a / 64 * 64)).trans ?_)
  exact State.onCore_stands _ n fun _ => rfl

theorem State.readPiece_stands (s : State) (n : Nat) (narrow : Bool) (x : Nat × Nat) : s.SeqStands (s.readPiece n narrow x) :=
  .ite (s.bufRead_stands _ _ _) (s.flushLine_stands _)

theorem State.place_stands (s : State) (a : Nat) (bs : List Byte) (bad : Bool) : s.SeqStands (s.place a bs bad) :=
  .foldl (fun t (x : Nat × Nat) => (t.flushLine_stands x.1).trans (State.poke_stands _ _ ((bs.drop (x.1 - a)).take x.2) bad)) _ s

theorem State.readDesc_stands (s : State) (n i : Nat) : s.SeqStands (s.readDesc n i) := by
  unfold State.readDesc
  split
  · exact .foldl (fun t x => t.readPiece_stands n true x) _ s
  · exact .refl s

/-- A descriptor taken up leaves the sequencer in its program, with what is outstanding. -/
theorem State.counted_stands (s : State) (n : Nat) : s.SeqStands (s.counted n) :=
  (s.readDesc_stands n _).trans (State.onCore_stands _ n fun _ => rfl)

/-! ### Sluices -/

/-- Nothing changed but what the pans' sluices hold, keep waiting and have been asked for (R414). -/
structure State.OnlyCharged (s t : State) : Prop where
  pans : ∀ q, t.pan q = { s.pan q with levels := (t.pan q).levels, waitingTok := (t.pan q).waitingTok, asked := (t.pan q).asked }
  frame : t = { s with pans := t.pans }

namespace State.OnlyCharged

variable {s t u : State}

theorem refl (s : State) : s.OnlyCharged s := ⟨fun _ => rfl, rfl⟩

theorem trans (h : s.OnlyCharged t) (h' : t.OnlyCharged u) : s.OnlyCharged u where
  pans q := (h'.pans q).trans (by rw [h.pans q])
  frame := h'.frame.trans (congrArg (fun x => { x with pans := u.pans }) h.frame)

theorem foldl {α : Type} {f : State → α → State} (hf : ∀ (s : State) x, s.OnlyCharged (f s x)) (l : List α) (s : State) :
    s.OnlyCharged (l.foldl f s) :=
  List.foldlRecOn (motive := s.OnlyCharged) l f (refl s) fun t ht x _ => ht.trans (hf t x)

theorem ite {b : Prop} [Decidable b] (h : s.OnlyCharged t) (h' : s.OnlyCharged u) : s.OnlyCharged (if b then t else u) := by
  split
  · exact h
  · exact h'

theorem cores (h : s.OnlyCharged t) : t.cores = s.cores := (congrArg State.cores h.frame).trans rfl

theorem core (h : s.OnlyCharged t) (n : Nat) : t.core n = s.core n := congrArg (fun m : SMap Core => m.getD n {}) h.cores

theorem xacts (h : s.OnlyCharged t) : t.xacts = s.xacts := (congrArg State.xacts h.frame).trans rfl

theorem stands (h : s.OnlyCharged t) : s.SeqStands t where
  core n := by rw [h.core]
  ctx p c := by rw [State.ctx, h.pans p, State.ctx]
  sec := (congrArg State.sec h.frame).trans rfl

end State.OnlyCharged

theorem State.onPan_onlyCharged (s : State) (p : Nat) {f : Pan → Pan}
    (hf : ∀ x, f x = { x with levels := (f x).levels, waitingTok := (f x).waitingTok, asked := (f x).asked }) : s.OnlyCharged (s.onPan p f) := by
  refine ⟨fun q => ?_, rfl⟩
  by_cases hq : q = p
  · rw [hq, onPan_pan]
    exact hf _
  · rw [onPan_pan_ne s p f q hq]

theorem State.charge_onlyCharged (s : State) (p : Nat) (b : Bucket) (n : Nat) : s.OnlyCharged (s.charge p b n) := by
  have asked := s.onPan_onlyCharged p (f := fun x => { x with asked := x.asked.put (bucketIx b) (x.asked.getD (bucketIx b) 0 + 1) })
    fun _ => rfl
  refine .ite (.refl s) (.ite (asked.trans ?_) (asked.trans ?_))
  · exact State.onPan_onlyCharged _ p fun _ => rfl
  · exact State.onPan_onlyCharged _ p fun _ => rfl

theorem State.chargeBy_onlyCharged (s : State) (p : Nat) (b : Bucket) (k n : Nat) : s.OnlyCharged (s.chargeBy p b k n) :=
  .foldl (fun t _ => t.charge_onlyCharged p b _) _ s

theorem State.chargeSpan_onlyCharged (s : State) (p n : Nat) (x : Nat × Nat) : s.OnlyCharged (s.chargeSpan p n x) := by
  have rmem {b : Prop} [Decidable b] (l : Nat) : s.OnlyCharged (if b then s.chargeBy p .rmem 1024 l else s) :=
    .ite (s.chargeBy_onlyCharged _ _ _ _) (.refl s)
  unfold State.chargeSpan
  dsimp only
  split
  · exact .ite ((rmem _).trans (State.chargeBy_onlyCharged _ _ _ _ _)) (rmem _)
  · exact rmem _

/-! ### Streamed weights -/

theorem State.stageLayer_stands (s : State) (p c n rank k : Nat) (bad : Bool) : s.SeqStands (s.stageLayer p c n rank k bad) := by
  unfold State.stageLayer
  dsimp only
  split
  · exact .refl s
  · exact s.place_stands _ _ _

theorem State.pageCame_stands (s : State) (p c n rank k : Nat) (bad : Bool) : s.SeqStands (s.pageCame p c n rank k bad) := by
  unfold State.pageCame
  dsimp only
  split
  · exact .refl s
  · refine .ite (.trans ?_ (State.stageLayer_stands _ _ _ _ _ _ _)) ?_
    · exact s.onCore_stands n fun _ => rfl
    · exact s.onCore_stands n fun _ => rfl

/-- Transactions under way are no part of where a sequencer stands. -/
theorem State.withXacts_stands (s : State) (l : List Xact) : s.SeqStands { s with xacts := l } :=
  ⟨fun _ => rfl, fun _ _ => rfl, rfl⟩

/-- A layer is asked for: its pages are charged, noted by the core and under way. -/
theorem State.asked_stands (s : State) (p n b : Nat) {f : Core → Core} (hf : ∀ k, (f k).standing = k.standing) (l : List Xact) :
    s.SeqStands { (s.chargeBy p .hbus 4096 b).onCore n f with xacts := l } :=
  ((s.chargeBy_onlyCharged _ _ _ _).stands.trans (State.onCore_stands _ n hf)).trans (State.withXacts_stands _ l)

theorem State.askLayer_stands (s : State) (p c n k : Nat) : s.SeqStands (s.askLayer p c n k) := by
  unfold State.askLayer
  dsimp only
  split
  · exact .refl s
  · refine .ite (.trans ?_ (State.pageCame_stands _ p c n _ _ _)) ?_
    · refine s.asked_stands p n _ ?_ _
      exact fun _ => rfl
    · refine s.asked_stands p n _ ?_ _
      exact fun _ => rfl

theorem State.askTo_stands (s : State) (p c n k : Nat) : s.SeqStands (s.askTo p c n k) :=
  have first : s.SeqStands (if (s.core n).asked ≤ k then s.askLayer p c n k else s) := .ite (s.askLayer_stands _ _ _ _) (.refl s)
  .ite (first.trans (State.askLayer_stands _ _ _ _ _)) first

theorem State.touchHalf_stands (s : State) (p c n h : Nat) : s.SeqStands (s.touchHalf p c n h) := by
  refine .trans ?_ (State.askTo_stands _ _ _ _ _)
  exact s.onCore_stands n fun _ => rfl

theorem State.streamTouch_stands (s : State) (p c n : Nat) (rds : List (Nat × Nat)) : s.SeqStands (s.streamTouch p c n rds) := by
  have first (b : Bool) : s.SeqStands (if b then s.touchHalf p c n 0 else s) := .ite (s.touchHalf_stands _ _ _ _) (.refl s)
  unfold State.streamTouch
  dsimp only
  exact .ite (.refl s) (.ite ((first _).trans (State.touchHalf_stands _ _ _ _ _)) (first _))

/-! ### Operations put among the outstanding ones -/

/-- R178: the operation stands behind the others, and its accesses are counted and under way. -/
theorem State.push_pushed (s : State) (n p c : Nat) (op : OutOp) : s.Pushed n p c op (s.push n p c op) := by
  have hcharged : (s.addXacts n p c (s.core n).opId op.far).OnlyCharged
      (op.far.foldl (fun s l => s.chargeSpan p n (l, l + 63)) (s.addXacts n p c (s.core n).opId op.far)) :=
    .foldl (fun t _ => t.chargeSpan_onlyCharged p n _) _ _
  unfold State.push
  dsimp only
  refine ⟨?_, fun k hk => ?_, hcharged.xacts, hcharged.pans, ?_⟩
  · rw [onCore_core, hcharged.core]
    rfl
  · rw [onCore_core_ne _ n _ k hk, hcharged.core]
    rfl
  · rw [State.onCore, hcharged.frame]
    rfl

theorem State.Pushed.ops_ne_nil {s t : State} {n p c : Nat} {op : OutOp} (h : s.Pushed n p c op t) : (t.core n).ops ≠ [] := by
  rw [h.core]
  exact List.append_ne_nil_of_right_ne_nil _ (List.cons_ne_nil _ _)

/-- R177: a core ends its step only once nothing is outstanding. -/
theorem State.passEnd_of_ops {s : State} {n : Nat} (h : (s.core n).ops ≠ []) : s.passEnd n = s := by
  unfold State.passEnd
  simp only [h, decide_false, Bool.and_false, Bool.false_and, Bool.false_eq_true, if_false]
  split <;> rfl

/-! ### A descriptor that nothing holds -/

theorem State.issuing_some {s : State} {n p c r : Nat} {h : StepProg} (hi : s.issuing n = some (p, c, r, h)) :
    (s.core n).run = some (p, c) ∧ s.header n = some h := by
  unfold State.issuing at hi
  dsimp only at hi
  split at hi
  · cases hi
  · split at hi
    · split at hi
      · cases hi
        exact ⟨by assumption, by assumption⟩
      · cases hi
    · cases hi

theorem State.AtDesc.run {s : State} {n p c : Nat} {h : StepProg} {k : OpCode} {d : Desc} (a : s.AtDesc n p c h k d) :
    (s.core n).run = some (p, c) :=
  (State.issuing_some a.inside).1

theorem State.AtDesc.prog {s : State} {n p c : Nat} {h : StepProg} {k : OpCode} {d : Desc} (a : s.AtDesc n p c h k d) :
    s.prog p c (s.core n).rank = some h := by
  have hh := (State.issuing_some a.inside).2
  rwa [State.header, a.run] at hh

/-- The sequencer takes up the command that its descriptor spells (R176, R180, R183). -/
theorem State.AtDesc.issue_done {s t : State} {n p c : Nat} {h : StepProg} {k : OpCode} {d : Desc}
    {go : State → Nat → Except StepFault Issue} (a : s.AtDesc n p c h k d) (hk : k.known = true)
    (hgo : go (s.counted n) (s.core n).next = .ok (.done t)) : s.issue n k d go = t.passEnd n := by
  unfold State.counted at hgo
  unfold State.issue
  simp only [a.inside, a.fetched, hk, Nat.not_le.mpr a.count, if_false, Bool.not_true, Bool.false_eq_true, ne_eq, not_true_eq_false]
  rw [hgo]

section
variable {v : State} {n : Nat} {d : Desc} {alone : Bool} {r w : List (Nat × Nat)}

theorem Core.Clear.not_heldBy (h : (v.core n).Clear d alone r w) : v.heldBy n r w = false := by
  simpa [State.heldBy, h.room] using h.free

/-- A descriptor that does not stand alone has no cause to wait for what is outstanding. -/
theorem Core.Clear.not_wantsClear (h : (v.core n).Clear d alone r w) : v.wantsClear n false d = false := by
  unfold State.wantsClear
  simp only [Bool.false_or, Bool.and_eq_false_imp, Bool.and_eq_true, decide_eq_true_eq, Bool.or_eq_false_iff, List.any_eq_false,
    decide_eq_false_iff_not, not_not]
  rintro ⟨hslot, hmask⟩
  exact ⟨fun o ho => Bool.eq_false_iff.mp (h.slots hslot hmask o ho), h.poison hslot⟩

/-- Where it must find nothing outstanding, nothing is. -/
theorem Core.Clear.not_waits (h : (v.core n).Clear d alone r w) : (v.wantsClear n alone d && decide ((v.core n).ops ≠ [])) = false := by
  cases alone with
  | false => rw [h.not_wantsClear, Bool.false_and]
  | true => simp [h.alone rfl]

theorem State.clearWay_counted {s : State} (up : v = s.takenUp n alone) (h : (v.core n).Clear d alone r w) :
    (s.counted n).clearWay n alone d = v := by
  subst up
  cases alone with
  | false =>
    have hw : (s.counted n).wantsClear n false d = false := h.not_wantsClear
    rw [State.clearWay, hw]
    rfl
  | true => rfl

theorem State.hold_of_not_heldBy (h : v.heldBy n r w = false) : v.hold n r w = v := by
  unfold State.hold
  generalize (v.core n).ops = l
  induction l with
  | nil => rfl
  | cons o l ih => rwa [List.foldl_cons, h, if_neg Bool.false_ne_true]

end

/-- The state in which an operation's reads have passed the buffers (R133, R134), and its results are computed. -/
def OpKind.readState (k : OpKind) (n p c : Nat) (d : Desc) (v : State) (os : List (List Opnd × List Opnd)) (shell : OutOp) : State :=
  (v.touched n p c d (os.map Prod.fst) (baseOpnds (k.opnds v none))).readAll n shell

/-- The operation that a descriptor puts among the outstanding ones, but for its results (R179, R184). -/
def OpKind.shell (k : OpKind) (s : State) (n p c : Nat) (d : Desc) (v : State) (st : Option Nat) (os : List (List Opnd × List Opnd)) : OutOp :=
  v.opOf n (s.core n).next d k.form.narrow st (v.runsFor n p c d).length os (fun _ => true)

/-- The operation that a descriptor puts among the outstanding ones, with its results for every target (R178, R192). -/
def OpKind.issuedOp (k : OpKind) (s : State) (n p c : Nat) (d : Desc) (v : State) (st : Option Nat) (os : List (List Opnd × List Opnd)) :
    OutOp :=
  let shell := k.shell s n p c d v st os
  let u := k.readState n p c d v os shell
  let rows := os.map (fun o => o.1.flatMap (u.rowSpans n))
  { shell with res := u.runTargets n shell (u.fetchDesc n (s.core n).next).2 k.run ((v.runsFor n p c d).zip rows) }

section
variable (k : OpKind) (s : State) (n p c : Nat) (d : Desc) (v : State) (st : Option Nat) (os : List (List Opnd × List Opnd))

theorem OpKind.shell_reads : (k.shell s n p c d v st os).reads = v.spansAll n (os.map Prod.fst) := by
  rw [OpKind.shell, State.opOf, State.spansAll, List.flatMap_map]

theorem OpKind.shell_writes : (k.shell s n p c d v st os).writes = statusSpan st ++ v.spansAll n (os.map Prod.snd) := by
  rw [OpKind.shell, State.opOf, State.spansAll, List.flatMap_map]

/-- Every line of its operands counts (R136): none is left out. -/
theorem OpKind.shell_pieces : (k.shell s n p c d v st os).pieces = os.flatMap (fun o => o.1.flatMap (v.piecesOf n)) := by
  simp [OpKind.shell, State.opOf]

theorem OpKind.shell_far : (k.shell s n p c d v st os).far = v.farLines n (os.flatMap (fun o => o.1 ++ o.2)) := by
  simp [OpKind.shell, State.opOf]

end

section
variable {s v : State} {n p c : Nat} {h : StepProg} {d : Desc} {k : OpKind} {st : Option Nat} {os : List (List Opnd × List Opnd)}

/-- An operation that may issue is held by no hazard and by no streamed layer (R179, R317). -/
theorem State.MayIssue.readyToIssue (m : s.MayIssue n p c h d k v st os) {op : OutOp} (hr : op.reads = v.spansAll n (os.map Prod.fst))
    (hw : op.writes = statusSpan st ++ v.spansAll n (os.map Prod.snd)) :
    v.readyToIssue n p c d op (baseOpnds (k.opnds v none)) = .done (k.readState n p c d v os op) := by
  have hfree : v.heldBy n op.reads op.writes = false := by
    rw [hr, hw]
    exact m.clear.not_heldBy
  have hstands := v.streamTouch_stands p c n (v.stagedReads n p c d op.reads (baseOpnds (k.opnds v none)))
  unfold State.readyToIssue
  rw [State.hold_of_not_heldBy hfree]
  dsimp only
  rw [hstands.heldBy, hfree, Bool.false_or, hr]
  exact if_neg (Bool.eq_false_iff.mp m.staged)

/-- The common course of an operation that may issue: it is put among the outstanding ones with its results. -/
theorem State.MayIssue.operate (m : s.MayIssue n p c h d k v st os) (hk : k.form.code.known = true)
    (hrank : (v.core n).rank = (s.core n).rank) :
    s.operate n k.form d k.opnds k.run
      = (k.readState n p c d v os (k.issuedOp s n p c d v st os)).push n p c (k.issuedOp s n p c d v st os) := by
  have hstands := s.counted_stands n
  have hrun : ((s.counted n).core n).run = some (p, c) := (hstands.run n).trans m.at'.run
  have hprog : (s.counted n).prog p c (s.core n).rank = some h := (hstands.prog _ _ _).trans m.at'.prog
  have hopnds := m.opnds
  rw [State.runsFor, hrank] at hopnds
  have hshell : k.shell s n p c d v st os
      = v.opOf n (s.core n).next d k.form.narrow st (v.targets p c (s.core n).rank d).length os (fun _ => true) := by
    rw [OpKind.shell, State.runsFor, hrank]
  unfold State.operate
  rw [m.at'.issue_done hk, State.passEnd_of_ops (State.push_pushed _ _ _ _ _).ops_ne_nil]
  simp only [hrun, m.plain, hstands.rank, hprog, Option.getD_some, m.status, State.clearWay_counted m.up m.clear, m.clear.not_waits, hopnds,
    Bool.not_true, Bool.false_eq_true, if_false, bind, Except.bind]
  rw [← hshell, m.readyToIssue (k.shell_reads _ _ _ _ _ _ _ _) (k.shell_writes _ _ _ _ _ _ _ _), OpKind.issuedOp, State.runsFor, hrank]
  rfl

/-- What the common course leaves is what issuing an operation does (R178, R184, R192). -/
theorem State.MayIssue.issued (m : s.MayIssue n p c h d k v st os) (hk : k.form.code.known = true)
    (hrank : (v.core n).rank = (s.core n).rank) :
    ∃ u op, s.Issued n p c d k v st os (s.operate n k.form d k.opnds k.run) u op := by
  refine ⟨k.readState n p c d v os (k.issuedOp s n p c d v st os), k.issuedOp s n p c d v st os, ?_⟩
  rw [m.operate hk hrank]
  exact {
    read := rfl
    pushed := State.push_pushed _ _ _ _ _
    rank := hrank
    desc := rfl
    status := rfl
    reads := k.shell_reads s n p c d v st os
    writes := k.shell_writes s n p c d v st os
    pieces := k.shell_pieces s n p c d v st os
    far := k.shell_far s n p c d v st os
    slotwise := rfl
    count := rfl
    narrow := rfl
    res := rfl }

end

/-- A descriptor that does not stand alone is looked at by the rank that takes it up. -/
theorem State.takenUp_rank (s : State) (n : Nat) : ((s.takenUp n false).core n).rank = (s.core n).rank := (s.counted_stands n).rank n

end Sys2Proof.Machine
end

section
/-!
PROOF. The element operations of the vector unit and the DSU: each is the common course of its descriptor, with what its name makes of an
element.
-/

namespace Sys2Proof.Machine

section
variable {s : State} {n : Nat} {d : Desc} {rm : RM}

/-- An element-wise operation in a defined direction is the common course of its descriptor (R103). -/
theorem State.mapElems_eq_operate (hrm : s.rmOf n d = some rm) (c : Instr) (k : OpCode) (sh : ElemShape) (fn : RM → FSpec → FSpec → ElemFn) :
    let x := mapKind n d rm c k sh (fn rm)
    s.mapElems n k sh d fn = s.operate n x.form d x.opnds x.run := by
  rw [State.mapElems, State.rounded, hrm]
  rfl

/-- So is one on elements as integers or as bits. -/
theorem State.bitElem_eq_operate (hrm : s.rmOf n d = some rm) (c : Instr) (sub : Nat) (silent : Bool) (fn : BitFn) :
    let x := bitKind n d rm c sub silent fn
    s.bitElem n sub silent d fn = s.operate n x.form d x.opnds x.run := by
  rw [State.bitElem, State.rounded, hrm]
  rfl

/-- An operation whose command takes the common course of a descriptor, among what is outstanding (R178), under a CLASS and SUBOP that are not
reserved (R183). -/
structure OpKind.Runs (k : OpKind) (s : State) (n : Nat) (d : Desc) : Prop where
  meaning : exec k.cmd s = .next (s.operate n k.form d k.opnds k.run)
  known : k.form.code.known = true
  shared : k.form.alone = false

/-- The direction fixes what the operation makes of an element. -/
theorem mapKind_runs (hrm : s.rmOf n d = some rm) {c : Instr} {k : OpCode} {sh : ElemShape} {fn : RM → FSpec → FSpec → ElemFn}
    {f : FSpec → FSpec → ElemFn} (hc : exec c s = .next (s.mapElems n k sh d fn)) (hf : fn rm = f) (hk : k.known = true) :
    (mapKind n d rm c k sh f).Runs s n d := by
  subst hf
  exact ⟨hc.trans (congrArg _ (State.mapElems_eq_operate hrm c k sh fn)), hk, rfl⟩

theorem bitKind_runs (hrm : s.rmOf n d = some rm) {c : Instr} {sub : Nat} {silent : Bool} {fn : BitFn}
    (hc : exec c s = .next (s.bitElem n sub silent d fn)) (hk : (OpCode.mk 2 sub).known = true) :
    (bitKind n d rm c sub silent fn).Runs s n d :=
  ⟨hc.trans (congrArg _ (State.bitElem_eq_operate hrm c sub silent fn)), hk, rfl⟩

theorem OpKind.Runs.issues {k : OpKind} (hk : k.Runs s n d) {p c : Nat} {h : StepProg} {v : State} {st : Option Nat}
    {os : List (List Opnd × List Opnd)} (m : s.MayIssue n p c h d k v st os) :
    ∃ t u op, exec k.cmd s = .next t ∧ s.Issued n p c d k v st os t u op := by
  have hrank : (v.core n).rank = (s.core n).rank := by
    rw [m.up, hk.shared, State.takenUp_rank]
  obtain ⟨u, op, hi⟩ := m.issued hk.known hrank
  exact ⟨_, u, op, hk.meaning, hi⟩

end

/-- Settles O47: each of the operations takes the common course of an operation descriptor, and that course issues whatever nothing holds. -/
theorem vectorOperationsIssue : Obligations.VectorOperationsIssue := by
  intro s n d p c h rm hrm k hk v st os m
  suffices hruns : k.Runs s n.val d from hruns.issues m
  clear m
  revert k
  simp only [List.forall_mem_cons]
  refine ⟨?add, ?sub, ?mul, ?fma, ?max, ?min, ?abs, ?neg, ?idiv, ?irem, ?shl, ?shr, ?and, ?or, ?xor, ?twosum, ?twoprod, ?padd, ?pmul,
    ?div, ?sqrt, ?recip, ?rsqrt, ?conv, List.forall_mem_nil _⟩
  case idiv | irem | shl | shr | and | or | xor => exact bitKind_runs hrm rfl rfl
  all_goals exact mapKind_runs hrm rfl rfl rfl

end Sys2Proof.Machine
end

section
/-!
PROOF. What running a step changes (R132-R135, R158, R159, R178, R184): accesses through the coalescing buffers, the completion of operations, and
what is sent and reported. Each leaves the machine outside the step, the sequencers' places in their programs, and the contexts but for their slots.
-/

namespace Sys2Proof.Machine

/-! ### The machine outside a step -/

/-- Nothing changed outside what the running of a step touches: cores, contexts, memory, transactions, and what is sent, counted and reported. -/
def State.WithinStep (s t : State) : Prop :=
  t = { s with hportA := t.hportA, hportB := t.hportB, bports := t.bports, comps := t.comps, counts := t.counts, logs := t.logs, sets := t.sets,
               cores := t.cores, pans := t.pans, mem := t.mem, poison := t.poison, dirty := t.dirty, full := t.full, xacts := t.xacts }

namespace State.WithinStep

variable {s t u : State}

theorem refl (s : State) : s.WithinStep s := rfl

theorem trans (h : s.WithinStep t) (h' : t.WithinStep u) : s.WithinStep u := by
  unfold State.WithinStep at *
  conv_lhs => rw [h']
  conv_lhs => rw [h]

theorem regs (h : s.WithinStep t) : t.regs = s.regs := (congrArg State.regs h).trans rfl
theorem jobs (h : s.WithinStep t) : t.jobs = s.jobs := (congrArg State.jobs h).trans rfl
theorem queues (h : s.WithinStep t) : t.queues = s.queues := (congrArg State.queues h).trans rfl
theorem tide (h : s.WithinStep t) : t.tide = s.tide := (congrArg State.tide h).trans rfl
theorem loops (h : s.WithinStep t) : t.loops = s.loops := (congrArg State.loops h).trans rfl
theorem nclk (h : s.WithinStep t) : t.nclk = s.nclk := (congrArg State.nclk h).trans rfl
theorem sec (h : s.WithinStep t) : t.sec = s.sec := (congrArg State.sec h).trans rfl

theorem tide64 (h : s.WithinStep t) : t.tide64 = s.tide64 := by simp only [State.tide64, h.tide]

theorem strict (h : s.WithinStep t) : t.strict = s.strict :=
  congrArg (fun m : SMap Word => decide (fieldOf (m.getD Reg.glbMode.addr Reg.glbMode.resetWord) 0 0 = 1)) h.regs

end State.WithinStep

theorem State.Sends.withinStep {s t : State} (h : s.Sends t) : s.WithinStep t := h.rest.symm.subst (motive := s.WithinStep) rfl

theorem State.OnlyCharged.withinStep {s t : State} (h : s.OnlyCharged t) : s.WithinStep t :=
  h.frame.symm.subst (motive := s.WithinStep) rfl

/-! ### Contexts -/

theorem State.onCtx_ctx (s : State) (p c : Nat) (f : Ctx → Ctx) : (s.onCtx p c f).ctx p c = f (s.ctx p c) := by
  simp [State.onCtx, State.ctx]

theorem State.onCtx_ctx_ne (s : State) (p c : Nat) (f : Ctx → Ctx) {p' c' : Nat} (h : ¬(p' = p ∧ c' = c)) :
    (s.onCtx p c f).ctx p' c' = s.ctx p' c' := by
  by_cases hp : p' = p
  · subst hp
    have hc : c' ≠ c := fun hc => h ⟨rfl, hc⟩
    simp [State.onCtx, State.ctx, SMap.getD_put_ne, hc]
  · rw [State.ctx, State.onCtx, State.onPan_pan_ne _ _ _ _ hp, State.ctx]

/-! ### Accesses through the coalescing buffers -/

/-- Nothing changed but memory with its poison and dirty lines, and what the coalescing buffers hold (R132-R135, R159, R196). -/
structure State.OnlyBuffered (s t : State) : Prop where
  core : ∀ k, t.core k = { s.core k with buf := (t.core k).buf }
  pans : t.pans = s.pans
  within : s.WithinStep t

namespace State.OnlyBuffered

variable {s t u : State}

theorem refl (s : State) : s.OnlyBuffered s := ⟨fun _ => rfl, rfl, rfl⟩

theorem trans (h : s.OnlyBuffered t) (h' : t.OnlyBuffered u) : s.OnlyBuffered u where
  core k := (h'.core k).trans (by rw [h.core k])
  pans := h'.pans.trans h.pans
  within := h.within.trans h'.within

theorem foldl {α : Type} {f : State → α → State} (hf : ∀ (s : State) x, s.OnlyBuffered (f s x)) (l : List α) (s : State) :
    s.OnlyBuffered (l.foldl f s) :=
  List.foldlRecOn (motive := s.OnlyBuffered) l f (refl s) fun t ht x _ => ht.trans (hf t x)

theorem ite {b : Prop} [Decidable b] (h : s.OnlyBuffered t) (h' : s.OnlyBuffered u) : s.OnlyBuffered (if b then t else u) := by
  split
  · exact h
  · exact h'

theorem ctx (h : s.OnlyBuffered t) (p c : Nat) : t.ctx p c = s.ctx p c := by simp only [State.ctx, State.pan, h.pans]

theorem slot (h : s.OnlyBuffered t) (p c r k : Nat) : t.slot p c r k = s.slot p c r k := by rw [State.slot, h.ctx, State.slot]

end State.OnlyBuffered

theorem State.onCore_onlyBuffered (s : State) (n : Nat) {f : Core → Core} (hf : ∀ k, f k = { k with buf := (f k).buf }) :
    s.OnlyBuffered (s.onCore n f) := by
  refine ⟨fun k => ?_, rfl, rfl⟩
  by_cases hk : k = n
  · subst hk
    rw [State.onCore_core]
    exact hf _
  · rw [State.onCore_core_ne s n f k hk]

theorem State.poke_onlyBuffered (s : State) (a : Nat) (bs : List Byte) (bad : Bool) : s.OnlyBuffered (s.poke a bs bad) :=
  ⟨fun _ => rfl, rfl, rfl⟩

theorem State.flushWord_onlyBuffered (s : State) (e : BufEntry) (w : Nat) : s.OnlyBuffered (s.flushWord e w) :=
  .ite (s.poke_onlyBuffered _ _ _) (.foldl (fun t _ => t.poke_onlyBuffered _ _ _) _ s)

theorem State.flushEntry_onlyBuffered (s : State) (n : Nat) (e : BufEntry) : s.OnlyBuffered (s.flushEntry n e) :=
  (s.onCore_onlyBuffered n fun _ => rfl).trans (.foldl (fun t w => t.flushWord_onlyBuffered e w) _ _)

theorem State.flushLine_onlyBuffered (s : State) (line : Nat) : s.OnlyBuffered (s.flushLine line) := by
  unfold State.flushLine
  split
  · exact s.flushEntry_onlyBuffered _ _
  · exact .refl s

theorem State.flushCore_onlyBuffered (s : State) (n : Nat) : s.OnlyBuffered (s.flushCore n) :=
  .foldl (fun t e => t.flushEntry_onlyBuffered n e) _ s

theorem State.bufRoom_onlyBuffered (s : State) (n line : Nat) : s.OnlyBuffered (s.bufRoom n line) := by
  unfold State.bufRoom
  split
  · exact .ite (s.flushEntry_onlyBuffered _ _) (.refl s)
  · exact .refl s

theorem State.bufPut_onlyBuffered (s : State) (n a : Nat) (bs : List Byte) (bad : Bool) : s.OnlyBuffered (s.bufPut n a bs bad) :=
  have put (e : BufEntry) : s.OnlyBuffered ((s.bufRoom n (a / 64 * 64)).onCore n (fun c => { c with buf := putEntry e c.buf })) :=
    (s.bufRoom_onlyBuffered _ _).trans (State.onCore_onlyBuffered _ n fun _ => rfl)
  .ite ((put _).trans (State.flushEntry_onlyBuffered _ _ _)) (put _)

theorem State.bufRead_onlyBuffered (s : State) (n a len : Nat) : s.OnlyBuffered (s.bufRead n a len) :=
  .ite (s.bufRoom_onlyBuffered _ _) ((s.bufRoom_onlyBuffered _ _).trans (State.onCore_onlyBuffered _ n fun _ => rfl))

theorem State.readPiece_onlyBuffered (s : State) (n : Nat) (narrow : Bool) (x : Nat × Nat) : s.OnlyBuffered (s.readPiece n narrow x) :=
  .ite (s.bufRead_onlyBuffered _ _ _) (s.flushLine_onlyBuffered _)

theorem State.readAll_onlyBuffered (s : State) (n : Nat) (op : OutOp) : s.OnlyBuffered (s.readAll n op) :=
  .foldl (fun t x => t.readPiece_onlyBuffered n _ x) _ s

theorem State.readDesc_onlyBuffered (s : State) (n i : Nat) : s.OnlyBuffered (s.readDesc n i) := by
  unfold State.readDesc
  split
  · exact .foldl (fun t x => t.readPiece_onlyBuffered n true x) _ s
  · exact .refl s

theorem State.place_onlyBuffered (s : State) (a : Nat) (bs : List Byte) (bad : Bool) : s.OnlyBuffered (s.place a bs bad) :=
  .foldl (fun t _ => (t.flushLine_onlyBuffered _).trans (State.poke_onlyBuffered _ _ _ _)) _ s

theorem State.withDirty_onlyBuffered (s : State) (d : NSet) : s.OnlyBuffered { s with dirty := d } := ⟨fun _ => rfl, rfl, rfl⟩

theorem State.makeDirty_onlyBuffered (s : State) (h : StepProg) (a : Nat) : s.OnlyBuffered (s.makeDirty h a) :=
  .ite (.refl s) (((s.flushLine_onlyBuffered _).trans (.foldl (fun t _ => t.poke_onlyBuffered _ _ _) _ _)).trans
    (State.withDirty_onlyBuffered _ _))

theorem State.storePiece_onlyBuffered (s : State) (n : Nat) (narrow : Bool) (a : Nat) (bs : List Byte) (bad : Bool) :
    s.OnlyBuffered (s.storePiece n narrow a bs bad) := by
  have write (t : State) (pa : Nat) : t.OnlyBuffered
      (if narrow && coreOf a = some n then t.bufPut n pa bs bad else (t.flushLine pa).poke pa bs bad) :=
    .ite (t.bufPut_onlyBuffered _ _ _ _) ((t.flushLine_onlyBuffered _).trans (State.poke_onlyBuffered _ _ _ _))
  unfold State.storePiece
  cases s.headerFor a with
  | none => exact write _ _
  | some h =>
    dsimp only
    cases h.persOf false (a % 0x400000) with
    | none => exact write _ _
    | some _ => exact (s.makeDirty_onlyBuffered _ _).trans (write _ _)

theorem State.store_onlyBuffered (s : State) (n : Nat) (narrow : Bool) (a : Nat) (bs : List Byte) (bad : Bool) :
    s.OnlyBuffered (s.store n narrow a bs bad) :=
  .foldl (fun t _ => t.storePiece_onlyBuffered n narrow _ _ bad) _ s

theorem State.putRecord_onlyBuffered (s : State) (n : Nat) (rc : Option (Nat × Nat × Bool)) : s.OnlyBuffered (s.putRecord n rc) := by
  cases rc with
  | none => exact .refl s
  | some _ => exact s.store_onlyBuffered _ _ _ _ _

end Sys2Proof.Machine
end

section
/-!
PROOF. The completion of operations (R158, R159, R178, R184, R191): it leaves every sequencer at its place in its program.
-/

namespace Sys2Proof.Machine

theorem State.prog_congr {s t : State} {p c : Nat} (hsec : t.sec = s.sec) (hcat : (t.ctx p c).cat = (s.ctx p c).cat)
    (hdeg : (t.ctx p c).degraded = (s.ctx p c).degraded) (r : Nat) : t.prog p c r = s.prog p c r := by
  simp only [State.prog, State.ctxCat, State.degradedEntry, State.catEntry, State.panCfg, hsec, hcat, hdeg]

/-- Nothing changed but what the completion of operations changes (R158, R159, R178, R184, R191): memory and buffers, the operations outstanding, what
they raise, the slots' words, and their transactions. -/
structure State.OnlyCompleted (s t : State) : Prop where
  core : ∀ k, t.core k = { s.core k with
    buf := (t.core k).buf, ops := (t.core k).ops, traps := (t.core k).traps, vuFlags := (t.core k).vuFlags }
  ctx : ∀ p c, t.ctx p c = { s.ctx p c with slots := (t.ctx p c).slots }
  within : s.WithinStep t

theorem State.OnlyBuffered.completed {s t : State} (h : s.OnlyBuffered t) : s.OnlyCompleted t where
  core k := by rw [h.core k]
  ctx p c := by rw [h.ctx]
  within := h.within

namespace State.OnlyCompleted

variable {s t u : State}

theorem refl (s : State) : s.OnlyCompleted s := ⟨fun _ => rfl, fun _ _ => rfl, rfl⟩

theorem trans (h : s.OnlyCompleted t) (h' : t.OnlyCompleted u) : s.OnlyCompleted u where
  core k := (h'.core k).trans (by rw [h.core k])
  ctx p c := (h'.ctx p c).trans (by rw [h.ctx p c])
  within := h.within.trans h'.within

theorem foldl {α : Type} {f : State → α → State} (hf : ∀ (s : State) x, s.OnlyCompleted (f s x)) (l : List α) (s : State) :
    s.OnlyCompleted (l.foldl f s) :=
  List.foldlRecOn (motive := s.OnlyCompleted) l f (refl s) fun t ht x _ => ht.trans (hf t x)

theorem run (h : s.OnlyCompleted t) (k : Nat) : (t.core k).run = (s.core k).run := by rw [h.core k]
theorem rank (h : s.OnlyCompleted t) (k : Nat) : (t.core k).rank = (s.core k).rank := by rw [h.core k]
theorem next (h : s.OnlyCompleted t) (k : Nat) : (t.core k).next = (s.core k).next := by rw [h.core k]
theorem stepping (h : s.OnlyCompleted t) (k : Nat) : (t.core k).stepping = (s.core k).stepping := by rw [h.core k]
theorem wait (h : s.OnlyCompleted t) (k : Nat) : (t.core k).wait = (s.core k).wait := by rw [h.core k]
theorem turns (h : s.OnlyCompleted t) (k : Nat) : (t.core k).turns = (s.core k).turns := by rw [h.core k]
theorem atBarrier (h : s.OnlyCompleted t) (k : Nat) : (t.core k).atBarrier = (s.core k).atBarrier := by
  simp only [Core.atBarrier, Core.waits, h.wait, h.next, h.turns]

theorem prog (h : s.OnlyCompleted t) (p c r : Nat) : t.prog p c r = s.prog p c r :=
  State.prog_congr h.within.sec (by rw [h.ctx]) (by rw [h.ctx]) r

theorem header (h : s.OnlyCompleted t) (k : Nat) : t.header k = s.header k := by
  simp only [State.header, h.run, h.rank, h.prog]

end State.OnlyCompleted

theorem State.onCore_onlyCompleted (s : State) (n : Nat) {f : Core → Core}
    (hf : ∀ k, f k = { k with buf := (f k).buf, ops := (f k).ops, traps := (f k).traps, vuFlags := (f k).vuFlags }) :
    s.OnlyCompleted (s.onCore n f) := by
  refine ⟨fun k => ?_, fun _ _ => rfl, rfl⟩
  by_cases hk : k = n
  · subst hk
    rw [State.onCore_core]
    exact hf _
  · rw [State.onCore_core_ne s n f k hk]

theorem State.note_onlyCompleted (s : State) (r : Reg) (f : Nat → Nat) : s.OnlyCompleted (s.note r f) := ⟨fun _ => rfl, fun _ _ => rfl, rfl⟩

theorem State.withXacts_onlyCompleted (s : State) (l : List Xact) : s.OnlyCompleted { s with xacts := l } := ⟨fun _ => rfl, fun _ _ => rfl, rfl⟩

theorem State.onSlot_onlyCompleted (s : State) (p c r k : Nat) (f : SlotSt → SlotSt) : s.OnlyCompleted (s.onSlot p c r k f) := by
  refine ⟨fun _ => rfl, fun p' c' => ?_, rfl⟩
  by_cases h : p' = p ∧ c' = c
  · obtain ⟨rfl, rfl⟩ := h
    rw [State.onSlot, State.onCtx_ctx]
  · rw [State.onSlot, State.onCtx_ctx_ne _ _ _ _ h]

theorem State.barTouched_onlyCompleted (s : State) (r : SlotRes) : s.OnlyCompleted (s.barTouched r) := by
  refine .foldl (fun t w => ?_) _ s
  split
  · exact t.onSlot_onlyCompleted _ _ _ _ _
  · exact .refl t

theorem State.applyRes_onlyCompleted (s : State) (n : Nat) (op : OutOp) (r : SlotRes) : s.OnlyCompleted (s.applyRes n op r) := by
  have stored : s.OnlyCompleted ((r.writes.foldl (fun s w => s.store n op.narrow w.addr w.bytes (r.bad || w.bad)) s).note (.vuFlags n)
      (· ||| r.flagBits.toNat)) :=
    (State.OnlyCompleted.foldl (fun t _ => (t.store_onlyBuffered n _ _ _ _).completed) _ s).trans (State.note_onlyCompleted _ _ _)
  have flagged := stored.trans (State.onCore_onlyCompleted _ n (f := fun k => { k with vuFlags := k.vuFlags ||| r.flagBits }) fun _ => rfl)
  unfold State.applyRes
  dsimp only
  split
  · exact flagged.trans (State.onSlot_onlyCompleted _ _ _ _ _ _)
  · exact flagged.trans (State.barTouched_onlyCompleted _ _)

/-- The results of an operation made to stand, one target after another. -/
theorem State.applyAll_onlyCompleted (s : State) (n : Nat) (op : OutOp) (l : List SlotRes) :
    s.OnlyCompleted (l.foldl (fun s r => s.applyRes n op r) s) :=
  .foldl (fun t r => t.applyRes_onlyCompleted n op r) l s

theorem State.completeOp_onlyCompleted (s : State) (n : Nat) (op : OutOp) : s.OnlyCompleted (s.completeOp n op) := by
  unfold State.completeOp
  refine .trans (.trans (.trans (s.applyAll_onlyCompleted n op op.res) ?_)
    (State.onCore_onlyCompleted _ n (f := fun k => { k with traps := k.traps ++ op.trapOf k.vuCtrl }) fun _ => rfl))
    (State.withXacts_onlyCompleted _ _)
  split
  · exact (State.store_onlyBuffered _ _ _ _ _ _).completed
  · exact .refl _

theorem State.completeOldest_onlyCompleted (s : State) (n : Nat) (all : Bool) (words : List Nat) :
    s.OnlyCompleted (s.completeOldest n all words) := by
  unfold State.completeOldest
  split
  · exact .refl s
  · exact (s.onCore_onlyCompleted n fun _ => rfl).trans (State.completeOp_onlyCompleted _ _ _)

theorem State.completeReady_onlyCompleted (s : State) (n : Nat) : s.OnlyCompleted (s.completeReady n) := by
  unfold State.completeReady
  split
  · exact .refl s
  · exact s.completeOldest_onlyCompleted n _ _

theorem State.drain_onlyCompleted (s : State) (n : Nat) : s.OnlyCompleted (s.drain n) :=
  .foldl (fun t _ => t.completeReady_onlyCompleted n) _ s

theorem State.drain_of_ops_nil {s : State} {n : Nat} (h : (s.core n).ops = []) : s.drain n = s := by
  rw [State.drain, h]
  rfl

/-- A descriptor is looked at by the rank that takes it up, whatever completes before it. -/
theorem State.takenUp_keepsRank (s : State) (n : Nat) (alone : Bool) : ((s.takenUp n alone).core n).rank = (s.core n).rank := by
  have hcounted := (s.counted_stands n).rank n
  cases alone with
  | false => exact hcounted
  | true => exact ((s.counted n).drain_onlyCompleted n).rank n |>.trans hcounted

end Sys2Proof.Machine
end

section
/-!
PROOF. TEST, SETSTATE, REDUCE, GEMM, FACTOR, TRSOLVE and CERT: each is the common course of its descriptor.
-/

namespace Sys2Proof.Machine

section
variable {s : State} {n : Nat} {d : Desc}

/-- An operation whose command takes the common course of a descriptor under a CLASS and SUBOP that are not reserved (R183) issues whatever
nothing holds. -/
theorem OpKind.issues {k : OpKind} (hc : exec k.cmd s = .next (s.operate n k.form d k.opnds k.run)) (hk : k.form.code.known = true)
    {p c : Nat} {h : StepProg} {v : State} {st : Option Nat} {os : List (List Opnd × List Opnd)} (m : s.MayIssue n p c h d k v st os) :
    ∃ t u op, exec k.cmd s = .next t ∧ s.Issued n p c d k v st os t u op := by
  have hrank : (v.core n).rank = (s.core n).rank := by rw [m.up, State.takenUp_keepsRank]
  obtain ⟨u, op, hi⟩ := m.issued hk hrank
  exact ⟨_, u, op, hc, hi⟩

/-- A descriptor in a defined direction is not refused for its direction (R103). -/
theorem State.rounded_of_rmOf {rm : RM} (h : s.rmOf n d = some rm) (k : OpCode) (go : RM → State) : s.rounded n k d go = go rm := by
  rw [State.rounded, h]

/-- CERT in the mode that its command names (R239) is the common course of its descriptor. -/
theorem State.cert_eq_operate {mode cls : Nat} (h : d.imm.toNat = mode) :
    s.cert n d mode cls = s.operate n { code := ⟨7, cls⟩, alone := true } d
      (fun s t => if s.certOk n d cls t then certOpnds d t else .error .descriptor) (fun s t => s.certRun n d mode cls t) :=
  if_neg fun hm => hm.2 h

end

theorem reduceCode_known (sub : Nat) (h : sub < 5) (axis : Bool) : (OpCode.mk 3 (sub + 8 * bitN axis)).known = true := by
  cases axis <;> simp [OpCode.known, bitN] <;> omega

/-- Settles O48: each of the operations takes the common course of its descriptor, for CERT with what is outstanding complete first. -/
theorem otherOperationsIssue : Obligations.OtherOperationsIssue := by
  intro s n d p c h rm axis cin ta tb
  refine ⟨fun hrm k hk v st os m => ?_, ?gemm, ?cert⟩
  · suffices hruns : exec k.cmd s = .next (s.operate n.val k.form d k.opnds k.run) ∧ k.form.code.known = true from
      OpKind.issues hruns.1 hruns.2 m
    clear m
    revert k
    simp only [List.forall_mem_cons]
    refine ⟨?test, ?setstate, ?sum, ?max, ?min, ?norm, ?sumsq, ?dense, ?staged, ?forward, ?diag, ?backward, ?full, List.forall_mem_nil _⟩
    case sum | max | min | norm | sumsq =>
      exact ⟨congrArg _ (State.rounded_of_rmOf hrm _ _), reduceCode_known _ (by decide) axis⟩
    all_goals exact ⟨congrArg _ (State.rounded_of_rmOf hrm _ _), rfl⟩
  case gemm =>
    rintro k rfl v st os m
    exact OpKind.issues rfl rfl m
  case cert =>
    intro cls
    simp only [List.forall_mem_cons]
    refine ⟨?optimality, ?primal, ?dual, ?ekf, List.forall_mem_nil _⟩
    all_goals
      rintro hmode k rfl v st os m
      exact OpKind.issues (congrArg _ (State.cert_eq_operate hmode)) rfl m

end Sys2Proof.Machine
end

section
/-!
PROOF. Results on elements (R106-R108, R188, R189): division, maximum and minimum, the relations of TEST, shifts, and the USR bits of SETSTATE.
-/

namespace Sys2Proof.Machine

/-! ### Division (R108) -/

theorem idivS_zero (w : Nat) (a : Int) : idivS w a 0 = (if 0 ≤ a then 2 ^ (w - 1) - 1 else -(2 ^ (w - 1)), a, { dz := true }) := by
  simp [idivS]

theorem idivS_overflow (w : Nat) : idivS w (-(2 ^ (w - 1))) (-1) = (-(2 ^ (w - 1)), 0, { ovf := true }) := by
  simp [idivS]

theorem idivS_of_inRange {w : Nat} {a b : Int} (hb : b ≠ 0) (h : ¬(a = -(2 ^ (w - 1)) ∧ b = -1)) :
    idivS w a b = (a.tdiv b, a.tmod b, {}) := by
  unfold idivS
  rw [if_neg hb, if_neg h]

theorem natAbs_tmod_lt (a : Int) {b : Int} (hb : b ≠ 0) : (a.tmod b).natAbs < b.natAbs := by
  rw [Int.natAbs_tmod]
  exact Nat.mod_lt _ (Int.natAbs_pos.mpr hb)

/-- The remainder has the dividend's sign. -/
theorem tmod_nonpos {a : Int} (b : Int) (ha : a ≤ 0) : a.tmod b ≤ 0 := by
  have h := Int.tmod_nonneg b (neg_nonneg.mpr ha)
  rwa [Int.neg_tmod, neg_nonneg] at h

/-! ### Order (R106) -/

/-- Aligned to a common exponent, a smaller value is not also the greater. -/
theorem ltV_asymm {a b : Val} (h : ltV a b = true) : ltV b a = false := by
  cases a with
  | nan | inf => cases b <;> simp_all [ltV]
  | fin n m e =>
    cases b with
    | nan | inf => simp_all [ltV]
    | fin n' m' e' =>
      simp only [ltV, decide_eq_true_eq, decide_eq_false_iff_not, not_lt, min_comm e' e] at h ⊢
      exact h.le

/-- Zeros are not apart, whatever their signs. -/
theorem ltV_zero {a b : Val} (ha : a.isZero = true) (hb : b.isZero = true) : ltV a b = false := by
  cases a <;> cases b <;> simp_all [Val.isZero, ltV, alignInt]

/-- The order with signed zeros tells the smaller value first. -/
theorem belowV_of_ltV {a b : Val} (h : ltV a b = true) : belowV a b = true := by simp [belowV, h]

theorem belowV_zero {a b : Val} (ha : a.isZero = true) (hb : b.isZero = true) : belowV a b = (a.neg && !b.neg) := by
  simp [belowV, ha, hb, ltV_zero ha hb]

theorem not_belowV_of_ltV {a b : Val} (h : ltV b a = true) : belowV a b = false := by
  have hz : (a.isZero && b.isZero) = false := by
    by_contra hne
    rw [Bool.not_eq_false, Bool.and_eq_true] at hne
    rw [ltV_zero hne.2 hne.1] at h
    cases h
  simp [belowV, ltV_asymm h, hz]

/-- Of two numbers, the maximum or minimum is the second where the order tells it apart so, and otherwise the first. -/
theorem maxMinV_of_numbers {a b : Val} (ha : a.isNan = false) (hb : b.isNan = false) (m : Bool) :
    (maxMinV m a b).1 = if (if m then belowV a b else belowV b a) = true then b else a := by
  simp only [maxMinV, ha, hb, Bool.false_and, Bool.false_eq_true, if_false]
  exact apply_ite Prod.fst _ _ _

theorem maxMinV_flags (m : Bool) (a b : Val) : (maxMinV m a b).2 = { nv := a.isSNan || b.isSNan } := by
  have hnv : nvOf [a, b] = { nv := a.isSNan || b.isSNan } := by simp [nvOf]
  simp only [maxMinV, apply_ite Prod.snd, ite_self, hnv]

theorem Val.quiet_isNan (a : Val) : a.quiet.isNan = a.isNan := by cases a <;> rfl

theorem Val.quiet_isSNan (a : Val) : a.quiet.isSNan = false := by cases a <;> rfl

/-- R106 on one pair of values. -/
theorem maxMinV_spec (m : Bool) (a b : Val) :
    (a.isNan = true → b.isNan = false → (maxMinV m a b).1 = b) ∧ (a.isNan = false → b.isNan = true → (maxMinV m a b).1 = a)
      ∧ (a.isNan = true → b.isNan = true → (maxMinV m a b).1.isNan = true ∧ (maxMinV m a b).1.isSNan = false)
      ∧ ((maxMinV m a b).2 = { nv := a.isSNan || b.isSNan })
      ∧ (a.isNan = false → b.isNan = false → ((maxMinV m a b).1 = a ∨ (maxMinV m a b).1 = b)
          ∧ (ltV a b = true → (maxMinV m a b).1 = if m then b else a) ∧ (ltV b a = true → (maxMinV m a b).1 = if m then a else b)
          ∧ (a.isZero = true → b.isZero = true → a.neg = true → b.neg = false → (maxMinV m a b).1 = if m then b else a)
          ∧ (a.isZero = true → b.isZero = true → a.neg = false → b.neg = true → (maxMinV m a b).1 = if m then a else b)) := by
  refine ⟨fun ha hb => by simp [maxMinV, ha, hb], fun ha hb => by simp [maxMinV, ha, hb], fun ha hb => ?_, maxMinV_flags m a b, fun ha hb => ?_⟩
  · simp [maxMinV, ha, hb, Val.quiet_isNan, Val.quiet_isSNan]
  · rw [maxMinV_of_numbers ha hb]
    refine ⟨(ite_eq_or_eq _ _ _).symm, fun h => ?_, fun h => ?_, fun za zb na nb => ?_, fun za zb na nb => ?_⟩
    · cases m <;> simp [belowV_of_ltV h, not_belowV_of_ltV h]
    · cases m <;> simp [belowV_of_ltV h, not_belowV_of_ltV h]
    · cases m <;> simp [belowV_zero, za, zb, na, nb]
    · cases m <;> simp [belowV_zero, za, zb, na, nb]

/-! ### Relations of TEST (R188) -/

theorem relV_nan (k : Nat) {a b : Val} (h : a.isNan = true ∨ b.isNan = true) : relV k a b = decide (k = 3) := by
  unfold relV
  exact if_pos (by simpa using h)

theorem relV_of_numbers {a b : Val} (ha : a.isNan = false) (hb : b.isNan = false) :
    relV 0 a b = ltV a b ∧ relV 5 a b = ltV b a ∧ relV 3 a b = !(relV 2 a b) ∧ relV 1 a b = !(relV 5 a b) ∧ relV 4 a b = !(relV 0 a b)
      ∧ (relV 2 a b = true ↔ ltV a b = false ∧ ltV b a = false) := by
  simp [relV, eqV, ha, hb]

/-! ### Shifts (R107) -/

/-- The signed reading of a word's bits is congruent to them. -/
theorem sgn_emod (w x : Nat) : sgn w x % 2 ^ w = (x : Int) % 2 ^ w := by
  unfold sgn
  split <;> simp

theorem unsgn_cast (w : Nat) (k : Int) : ((unsgn w k : Nat) : Int) = k % 2 ^ w :=
  Int.toNat_of_nonneg (Int.emod_nonneg _ (by positivity))

/-- A left shift multiplies the bits, as a word. -/
theorem unsgn_sgn_mul (w x c : Nat) : unsgn w (sgn w x * 2 ^ c) = x * 2 ^ c % 2 ^ w := by
  zify
  rw [unsgn_cast, Int.mul_emod, sgn_emod, ← Int.mul_emod]

theorem sgn_bounds {w : Nat} (hw : 0 < w) (x : Nat) : -(2 ^ (w - 1)) ≤ sgn w x ∧ sgn w x < 2 ^ (w - 1) := by
  have hlt : x % 2 ^ w < 2 ^ w := Nat.mod_lt _ (Nat.two_pow_pos w)
  have hdouble : 2 ^ w = 2 * 2 ^ (w - 1) := by rw [← pow_succ', Nat.sub_add_cancel hw]
  have hcast : ((2 ^ (w - 1) : Nat) : Int) = 2 ^ (w - 1) := by norm_cast
  have hcast' : ((2 ^ w : Nat) : Int) = 2 ^ w := by norm_cast
  unfold sgn
  rw [← hcast, ← hcast']
  generalize x % 2 ^ w = r at *
  split <;> constructor <;> omega

/-- A signed value within a word's range is read back from its bits. -/
theorem sgn_unsgn {w : Nat} (hw : 0 < w) {k : Int} (hlo : -(2 ^ (w - 1)) ≤ k) (hhi : k < 2 ^ (w - 1)) : sgn w (unsgn w k) = k := by
  have hdouble : (2 : Int) ^ w = 2 * 2 ^ (w - 1) := by rw [← pow_succ', Nat.sub_add_cancel hw]
  have hmod : unsgn w k % 2 ^ w = unsgn w k := Nat.mod_eq_of_lt (by
    zify
    rw [unsgn_cast]
    exact Int.emod_lt_of_pos _ (by positivity))
  have hcast := unsgn_cast w k
  unfold sgn
  rw [hmod]
  by_cases hk : 0 ≤ k
  · rw [Int.emod_eq_of_lt hk (by omega)] at hcast
    rw [if_pos (by zify; omega)]
    exact hcast
  · rw [← Int.add_emod_right, Int.emod_eq_of_lt (by omega) (by omega)] at hcast
    rw [if_neg (by zify; omega)]
    omega

/-- An arithmetic right shift stays within the word. -/
theorem shiftRight_bounds {w : Nat} {k : Int} (hlo : -(2 ^ (w - 1)) ≤ k) (hhi : k < 2 ^ (w - 1)) (c : Nat) :
    -(2 ^ (w - 1)) ≤ k / 2 ^ c ∧ k / 2 ^ c < 2 ^ (w - 1) := by
  have hc : (0 : Int) < 2 ^ c := by positivity
  have hone : (1 : Int) ≤ 2 ^ c := hc
  have hw : (0 : Int) < 2 ^ (w - 1) := by positivity
  constructor
  · rw [Int.le_ediv_iff_mul_le hc]
    nlinarith
  · rw [Int.ediv_lt_iff_lt_mul hc]
    nlinarith

/-! ### USR bits (R189) -/

theorem getLsbD_usrMask (k i : Nat) (hi : i < 16) : (usrMask k).getLsbD i = (decide (12 ≤ i) && k.testBit (i - 12)) := by
  have hk : k % 16 * 4096 = (k % 2 ^ 4) * 2 ^ 12 := rfl
  rw [usrMask, BitVec.getLsbD_ofNat, hk, Nat.testBit_mul_two_pow, Nat.testBit_mod_two_pow]
  by_cases h : 12 ≤ i
  · have : i - 12 < 4 := by omega
    simp [h, hi, this]
  · simp [h]

theorem getLsbD_setstate (imm : Word) (t : BitVec 16) (i : Nat) (hi : i < 16) :
    (t &&& ~~~usrMask (fieldOf imm 7 4) ||| usrMask (fieldOf imm 3 0)).getLsbD i
      = if i < 12 then t.getLsbD i else imm.getLsbD (i - 12) || (t.getLsbD i && !imm.getLsbD (i - 8)) := by
  simp only [BitVec.getLsbD_or, BitVec.getLsbD_and, BitVec.getLsbD_not, getLsbD_usrMask _ i hi, testBit_fieldOf]
  by_cases h : i < 12
  · simp [h, hi, Nat.not_le.mpr h]
  · have hsub : 4 + (i - 12) = i - 8 := by omega
    have hlow : i - 12 < 4 := by omega
    simp [h, hi, Nat.not_lt.mp h, hsub, hlow, Bool.or_comm]

/-- Settles O49, clause by clause: each kind of operation has its own lemmas above. -/
theorem elementResults : Obligations.ElementResults := by
  refine ⟨fun w a b _ _ _ => ⟨fun hb h => ?_, ?_, ?_⟩, maxMinV_spec, fun k _ _ => relV_nan k, fun _ _ => relV_of_numbers,
    fun w x c hw _ => ⟨unsgn_sgn_mul w x c, ?_⟩, getLsbD_setstate⟩
  · rw [idivS_of_inRange hb h]
    exact ⟨(Int.mul_tdiv_add_tmod a b).symm, natAbs_tmod_lt a hb, rfl, fun ha => Int.tmod_nonneg b ha, tmod_nonpos b⟩
  · rintro rfl
    rw [idivS_zero]
    exact ⟨rfl, rfl, rfl⟩
  · rintro rfl rfl
    exact idivS_overflow w
  · obtain ⟨hlo, hhi⟩ := sgn_bounds hw x
    obtain ⟨hlo', hhi'⟩ := shiftRight_bounds hlo hhi c
    exact sgn_unsgn hw hlo' hhi'

end Sys2Proof.Machine
end

section
/-!
PROOF. The coalescing buffers flushed (R133, R135): an entry's bytes stand in its bank, byte by byte, and nothing else does.
-/

namespace Sys2Proof.Machine

/-! ### One entry -/

/-- Memory with the byte that a buffer entry holds at an offset of its line, where it holds one. -/
def BufEntry.written (e : BufEntry) (m : Bytes) (i : Nat) : Bytes :=
  match SMap.get e.data i with
  | some b => Bytes.write 0 m (e.line + i) b
  | none => m

theorem BufEntry.written_wf (e : BufEntry) {m : Bytes} (h : Bytes.wfFrom 0 0 m = true) (i : Nat) : Bytes.wfFrom 0 0 (e.written m i) = true := by
  unfold BufEntry.written
  split
  · exact Bytes.wfFrom_write h (Nat.zero_le _) _
  · exact h

/-- Bytes outside the offsets written stay, and those at them are the entry's where it holds them. -/
theorem BufEntry.read_written (e : BufEntry) (l : List Nat) {m : Bytes} (h : Bytes.wfFrom 0 0 m = true) (a : Nat) :
    (l.foldl e.written m).read 0 a = if a ∈ l.map (e.line + ·) then SMap.getD e.data (a - e.line) (m.read 0 a) else m.read 0 a := by
  induction l generalizing m with
  | nil => rfl
  | cons i l ih =>
    rw [List.foldl_cons, ih (e.written_wf h i)]
    simp only [List.map_cons, List.mem_cons]
    by_cases ha : a = e.line + i
    · subst ha
      have hread : SMap.getD e.data i ((e.written m i).read 0 (e.line + i)) = SMap.getD e.data i (m.read 0 (e.line + i))
          ∧ (e.written m i).read 0 (e.line + i) = SMap.getD e.data i (m.read 0 (e.line + i)) := by
        unfold BufEntry.written SMap.getD
        cases hb : SMap.get e.data i with
        | none => exact ⟨rfl, rfl⟩
        | some b => exact ⟨rfl, Bytes.read_write_self h _ _⟩
      rw [Nat.add_sub_cancel_left, hread.1, hread.2, ite_self, if_pos (.inl rfl)]
    · have hread : (e.written m i).read 0 a = m.read 0 a := by
        unfold BufEntry.written
        split
        · exact Bytes.read_write_ne _ _ _ ha
        · rfl
      rw [hread]
      simp only [ha, false_or]

/-- The offsets of a word's bytes in its line. -/
def wordOffsets (w : Nat) : List Nat := ([0, 1, 2, 3, 4, 5, 6, 7] : List Nat).map (w * 8 + ·)

/-- A word's bytes reach memory as the entry holds them, at once where it holds all eight (R135). -/
theorem State.flushWord_mem (s : State) (e : BufEntry) (w : Nat) : (s.flushWord e w).mem = (wordOffsets w).foldl e.written s.mem := by
  unfold State.flushWord wordOffsets
  rw [List.foldl_map]
  generalize hl : ([0, 1, 2, 3, 4, 5, 6, 7] : List Nat) = l
  dsimp only
  split
  · rename_i hfull
    have hall : ∀ i ∈ l, ((SMap.get e.data (w * 8 + i)).map (fun b => (i, b))).isSome = true :=
      List.filterMap_length_eq_length.mp (hfull.trans (by rw [← hl]; rfl))
    have hget : ∀ i ∈ l, SMap.get e.data (w * 8 + i) = some (SMap.getD e.data (w * 8 + i) 0) := by
      intro i hi
      obtain ⟨b, hb⟩ := Option.isSome_iff_exists.mp (Option.isSome_map .. ▸ hall i hi)
      rw [SMap.getD, hb, Option.getD_some]
    have hheld : l.filterMap (fun i => (SMap.get e.data (w * 8 + i)).map (fun b => (i, b)))
        = l.map (fun i => (i, SMap.getD e.data (w * 8 + i) 0)) := by
      rw [← List.filterMap_eq_map]
      exact List.filterMap_congr fun i hi => by rw [hget i hi]; rfl
    have hwritten : ∀ i ∈ l, ∀ m : Bytes, e.written m (w * 8 + i) = Bytes.write 0 m (e.line + w * 8 + i) (SMap.getD e.data (w * 8 + i) 0) := by
      intro i hi m
      rw [BufEntry.written, hget i hi, Nat.add_assoc]
    rw [hheld, List.map_map, List.foldl_ext _ _ _ fun m i hi => hwritten i hi m, ← hl]
    rfl
  · have hpoke (held : List (Nat × Byte)) : (held.foldl (fun s x => s.poke (e.line + w * 8 + x.1) [x.2] (e.bad.has w)) s).mem
        = held.foldl (fun m x => Bytes.write 0 m (e.line + w * 8 + x.1) x.2) s.mem :=
      (List.foldl_hom State.mem (g₁ := fun s (x : Nat × Byte) => s.poke (e.line + w * 8 + x.1) [x.2] (e.bad.has w)) fun _ _ => rfl).symm
    rw [hpoke, List.foldl_filterMap]
    refine List.foldl_ext _ _ _ fun m i _ => ?_
    rw [BufEntry.written]
    cases SMap.get e.data (w * 8 + i) with
    | none => rfl
    | some b => rw [← Nat.add_assoc]; rfl

theorem State.flushWord_cores (s : State) (e : BufEntry) (w : Nat) : (s.flushWord e w).cores = s.cores := by
  unfold State.flushWord
  dsimp only
  split
  · rfl
  · exact List.foldlRecOn (motive := fun t : State => t.cores = s.cores) _ _ rfl fun _ ht _ _ => ht

/-- Nothing changed but cores, memory and poison. -/
def State.FlushesOnly (s t : State) : Prop := t = { s with cores := t.cores, mem := t.mem, poison := t.poison }

theorem State.FlushesOnly.trans {s t u : State} (h : s.FlushesOnly t) (h' : t.FlushesOnly u) : s.FlushesOnly u := by
  unfold State.FlushesOnly at *
  conv_lhs => rw [h']
  conv_lhs => rw [h]

theorem State.FlushesOnly.foldl {α : Type} {f : State → α → State} (hf : ∀ (s : State) x, s.FlushesOnly (f s x)) (l : List α) (s : State) :
    s.FlushesOnly (l.foldl f s) :=
  List.foldlRecOn (motive := s.FlushesOnly) l f rfl fun t ht x _ => ht.trans (hf t x)

theorem State.flushWord_flushesOnly (s : State) (e : BufEntry) (w : Nat) : s.FlushesOnly (s.flushWord e w) := by
  have poke (t : State) (a : Nat) (bs : List Byte) (bad : Bool) : t.FlushesOnly (t.poke a bs bad) := rfl
  unfold State.flushWord
  dsimp only
  split
  · exact poke _ _ _ _
  · exact .foldl (fun t _ => poke t _ _ _) _ s

theorem State.flushEntry_flushesOnly (s : State) (n : Nat) (e : BufEntry) : s.FlushesOnly (s.flushEntry n e) :=
  .trans (t := s.onCore n (fun c => { c with buf := c.buf.filter (fun x => x.line ≠ e.line) })) rfl
    (.foldl (fun t w => t.flushWord_flushesOnly e w) _ _)

/-- The entry leaves the core's buffers. -/
theorem State.flushEntry_cores (s : State) (n : Nat) (e : BufEntry) :
    (s.flushEntry n e).cores = (s.onCore n (fun c => { c with buf := c.buf.filter (fun x => x.line ≠ e.line) })).cores :=
  List.foldlRecOn (motive := fun t : State => t.cores = _) _ _ rfl fun t ht w _ => (t.flushWord_cores e w).trans ht

theorem State.flushEntry_buf (s : State) (n : Nat) (e : BufEntry) :
    ((s.flushEntry n e).core n).buf = (s.core n).buf.filter (fun x => x.line ≠ e.line) := by
  rw [State.core, State.flushEntry_cores, ← State.core, State.onCore_core]

theorem State.flushEntry_mem (s : State) (n : Nat) (e : BufEntry) : (s.flushEntry n e).mem = (List.range 64).foldl e.written s.mem := by
  have hwords (l : List Nat) (t : State) : (l.foldl (fun s w => s.flushWord e w) t).mem = (l.flatMap wordOffsets).foldl e.written t.mem := by
    induction l generalizing t with
    | nil => rfl
    | cons w l ih => rw [List.foldl_cons, ih, State.flushWord_mem, List.flatMap_cons, List.foldl_append]
  exact hwords _ _

/-- The line that a flushed entry holds reads as the entry held it, and every other as before. -/
theorem State.flushEntry_read (s : State) (n : Nat) {e : BufEntry} (hw : Bytes.wfFrom 0 0 s.mem = true) (hl : e.line % 64 = 0) (a : Nat) :
    (s.flushEntry n e).mem.read 0 a = if a / 64 = e.line / 64 then SMap.getD e.data (a - e.line) (s.mem.read 0 a) else s.mem.read 0 a := by
  rw [State.flushEntry_mem, e.read_written _ hw]
  refine if_congr ?_ rfl rfl
  simp only [List.mem_map, List.mem_range]
  constructor
  · rintro ⟨i, hi, rfl⟩
    omega
  · intro h
    exact ⟨a - e.line, by omega, by omega⟩

theorem State.flushEntry_wf (s : State) (n : Nat) (e : BufEntry) (hw : Bytes.wfFrom 0 0 s.mem = true) :
    Bytes.wfFrom 0 0 (s.flushEntry n e).mem = true := by
  rw [State.flushEntry_mem]
  exact List.foldlRecOn (motive := fun m => Bytes.wfFrom 0 0 m = true) _ _ hw fun _ h i _ => e.written_wf h i

/-! ### Several entries -/

/-- The entries flushed leave the buffers. -/
theorem State.flushAll_buf (l : List BufEntry) (s : State) (n : Nat) :
    ((l.foldl (fun s e => s.flushEntry n e) s).core n).buf = (s.core n).buf.filter (fun x => x.line ∉ l.map BufEntry.line) := by
  induction l generalizing s with
  | nil => simp
  | cons e l ih =>
    rw [List.foldl_cons, ih, State.flushEntry_buf, List.filter_filter]
    refine List.filter_congr fun x _ => ?_
    rw [← Bool.decide_and, decide_eq_decide, List.map_cons, List.mem_cons, not_or, and_comm]

/-- A line that no flushed entry holds reads as before. -/
theorem State.flushAll_read_ne (l : List BufEntry) {s : State} {n : Nat} (hw : Bytes.wfFrom 0 0 s.mem = true) (hl : ∀ e ∈ l, e.line % 64 = 0)
    {a : Nat} (ha : ∀ e ∈ l, a / 64 ≠ e.line / 64) : (l.foldl (fun s e => s.flushEntry n e) s).mem.read 0 a = s.mem.read 0 a := by
  induction l generalizing s with
  | nil => rfl
  | cons e l ih =>
    rw [List.forall_mem_cons] at hl ha
    rw [List.foldl_cons, ih (s.flushEntry_wf n e hw) hl.2 ha.2, s.flushEntry_read n hw hl.1, if_neg ha.1]

/-- The line of a flushed entry reads as the entry held it, where the entries' lines differ. -/
theorem State.flushAll_read (l : List BufEntry) {s : State} {n : Nat} (hw : Bytes.wfFrom 0 0 s.mem = true) (hl : ∀ e ∈ l, e.line % 64 = 0)
    (hd : (l.map BufEntry.line).Nodup) {e : BufEntry} (he : e ∈ l) {i : Nat} (hi : i < 64) :
    (l.foldl (fun s e => s.flushEntry n e) s).mem.read 0 (e.line + i) = SMap.getD e.data i (s.mem.read 0 (e.line + i)) := by
  induction l generalizing s with
  | nil => cases he
  | cons x l ih =>
    rw [List.forall_mem_cons] at hl
    rw [List.map_cons, List.nodup_cons] at hd
    rw [List.foldl_cons]
    rcases List.mem_cons.mp he with rfl | he
    · have hal := hl.1
      have hrest : ∀ y ∈ l, (e.line + i) / 64 ≠ y.line / 64 := by
        intro y hy heq
        have hay := hl.2 y hy
        exact hd.1 (List.mem_map.mpr ⟨y, hy, by omega⟩)
      rw [State.flushAll_read_ne l (s.flushEntry_wf n e hw) hl.2 hrest, s.flushEntry_read n hw hal, if_pos (by omega), Nat.add_sub_cancel_left]
    · have hae := hl.2 e he
      have hax := hl.1
      have hne : (e.line + i) / 64 ≠ x.line / 64 := by
        intro heq
        exact hd.1 (List.mem_map.mpr ⟨e, he, by omega⟩)
      rw [ih (s.flushEntry_wf n x hw) hl.2 hd.2 he, s.flushEntry_read n hw hax, if_neg hne]

/-- BUFFER_FLUSH (R133): the old entries of a cell go to their banks, and no other byte changes. -/
theorem exec_bufferFlush {s : State} (n : Fin 32) (cell : Fin 16) (hr : s.inReset = false) (hs : s.Inv) :
      ∃ t, exec (.bufferFlush n cell) s = .next t
        ∧ (t.core n.val).buf = (s.core n.val).buf.filter (fun e => !(cellOf e.line = cell.val && 16 ≤ 2 * (s.nclk - e.since)))
        ∧ (∀ e ∈ (s.core n.val).buf, cellOf e.line = cell.val → 16 ≤ 2 * (s.nclk - e.since) → ∀ i, i < 64 →
            t.mem.read 0 (e.line + i) = SMap.getD e.data i (s.mem.read 0 (e.line + i)))
        ∧ (∀ a, (∀ e ∈ (s.core n.val).buf, cellOf e.line = cell.val → 16 ≤ 2 * (s.nclk - e.since) → a / 64 ≠ e.line / 64) →
            t.mem.read 0 a = s.mem.read 0 a)
        ∧ t = { s with cores := t.cores, mem := t.mem, poison := t.poison } := by
  obtain ⟨hdiff, haligned⟩ := hs.lines n.val
  have hmem {e : BufEntry} : e ∈ (s.core n.val).buf.filter (fun e => cellOf e.line = cell.val && 16 ≤ 2 * (s.nclk - e.since))
      ↔ e ∈ (s.core n.val).buf ∧ cellOf e.line = cell.val ∧ 16 ≤ 2 * (s.nclk - e.since) := by
    simp [List.mem_filter]
  refine ⟨_, congrArg Host.Outcome.next (if_neg (Bool.eq_false_iff.mp hr)), ?_, fun e he hc ha i hi => ?_, fun a ha => ?_, ?_⟩
  · rw [State.flushAll_buf]
    refine List.filter_congr fun x hx => ?_
    have hx' : x.line ∈ ((s.core n.val).buf.filter (fun e => cellOf e.line = cell.val && 16 ≤ 2 * (s.nclk - e.since))).map BufEntry.line
        ↔ cellOf x.line = cell.val ∧ 16 ≤ 2 * (s.nclk - x.since) := by
      constructor
      · intro h
        obtain ⟨y, hy, heq⟩ := List.mem_map.mp h
        have hyx : y = x := List.inj_on_of_nodup_map hdiff (hmem.mp hy).1 hx heq
        exact hyx ▸ (hmem.mp hy).2
      · exact fun h => List.mem_map.mpr ⟨x, hmem.mpr ⟨hx, h⟩, rfl⟩
    rw [← Bool.decide_and, ← decide_not, decide_eq_decide, hx']
  · exact State.flushAll_read _ hs.mem (fun x hx => haligned x (hmem.mp hx).1) (hdiff.sublist (List.filter_sublist.map _))
      (hmem.mpr ⟨he, hc, ha⟩) hi
  · exact State.flushAll_read_ne _ hs.mem (fun x hx => haligned x (hmem.mp hx).1) fun e he => ha e (hmem.mp he).1 (hmem.mp he).2.1 (hmem.mp he).2.2
  · exact State.FlushesOnly.foldl (fun t e => t.flushEntry_flushesOnly n.val e) _ s

end Sys2Proof.Machine
end

section
/-!
PROOF. An operation completes in its turn (R118, R158, R184): what it leaves of its core, and when it waits.
-/

namespace Sys2Proof.Machine

/-- A target's results but for its slot's words: its bytes, and its flags in CORE_n_VU_FLAGS (R118). -/
def State.storeRes (s : State) (n : Nat) (op : OutOp) (r : SlotRes) : State :=
  ((r.writes.foldl (fun s w => s.store n op.narrow w.addr w.bytes (r.bad || w.bad)) s).note (.vuFlags n) (· ||| r.flagBits.toNat)).onCore n
    (fun k => { k with vuFlags := k.vuFlags ||| r.flagBits })

/-- The words of slots are no part of cores or memory. -/
theorem State.barTouched_frame (s : State) (r : SlotRes) :
    (s.barTouched r).cores = s.cores ∧ (s.barTouched r).mem = s.mem ∧ (s.barTouched r).poison = s.poison := by
  refine List.foldlRecOn (motive := fun t : State => t.cores = s.cores ∧ t.mem = s.mem ∧ t.poison = s.poison) _ _ ⟨rfl, rfl, rfl⟩
    fun t ht w _ => ?_
  split
  · exact ht
  · exact ht

theorem State.applyRes_frame (s : State) (n : Nat) (op : OutOp) (r : SlotRes) :
    (s.applyRes n op r).cores = (s.storeRes n op r).cores ∧ (s.applyRes n op r).mem = (s.storeRes n op r).mem
      ∧ (s.applyRes n op r).poison = (s.storeRes n op r).poison := by
  unfold State.applyRes
  dsimp only
  split
  · exact ⟨rfl, rfl, rfl⟩
  · exact (s.storeRes n op r).barTouched_frame r

theorem State.applyRes_core (s : State) (n : Nat) (op : OutOp) (r : SlotRes) :
    ∃ b, (s.applyRes n op r).core n = { s.core n with buf := b, vuFlags := (s.core n).vuFlags ||| r.flagBits } := by
  have hstore : s.OnlyBuffered (r.writes.foldl (fun s w => s.store n op.narrow w.addr w.bytes (r.bad || w.bad)) s) :=
    .foldl (fun t _ => t.store_onlyBuffered n _ _ _ _) _ s
  have hnoted (t : State) (x : Reg) (f : Nat → Nat) : (t.note x f).core n = t.core n := rfl
  obtain ⟨b, hb⟩ : ∃ b, (r.writes.foldl (fun s w => s.store n op.narrow w.addr w.bytes (r.bad || w.bad)) s).core n
      = { s.core n with buf := b } := ⟨_, hstore.core n⟩
  exact ⟨b, by rw [State.core, (s.applyRes_frame n op r).1, ← State.core, State.storeRes, State.onCore_core, hnoted, hb]⟩

/-- The flags of an operation's targets join CORE_n_VU_FLAGS (R118). -/
theorem State.applyAll_core (l : List SlotRes) (s : State) (n : Nat) (op : OutOp) :
    ∃ b, (l.foldl (fun s r => s.applyRes n op r) s).core n
      = { s.core n with buf := b, vuFlags := l.foldl (fun w x => w ||| x.flagBits) (s.core n).vuFlags } := by
  induction l generalizing s with
  | nil => exact ⟨_, rfl⟩
  | cons r l ih =>
    obtain ⟨b, hb⟩ := s.applyRes_core n op r
    obtain ⟨b', hb'⟩ := ih (s.applyRes n op r)
    exact ⟨b', by rw [List.foldl_cons, hb', hb, List.foldl_cons]⟩

/-- An operation's status record written, where it asks for one (R184). -/
def OutOp.putStatus (op : OutOp) (n : Nat) (s : State) : State :=
  match op.status with
  | some a => s.store n true a op.record false
  | none => s

theorem OutOp.putStatus_onlyBuffered (op : OutOp) (n : Nat) (s : State) : s.OnlyBuffered (op.putStatus n s) := by
  unfold OutOp.putStatus
  split
  · exact s.store_onlyBuffered n true _ _ _
  · exact .refl s

/-- Completion, in the order of its parts: results, status record, traps; its transactions are no part of the cores or memory. -/
theorem State.completeOp_frame (s : State) (n : Nat) (op : OutOp) :
    (∀ k, (s.completeOp n op).core k = ((op.putStatus n (op.res.foldl (fun s r => s.applyRes n op r) s)).onCore n
        (fun k => { k with traps := k.traps ++ op.trapOf k.vuCtrl })).core k)
      ∧ (s.completeOp n op).mem = (op.putStatus n (op.res.foldl (fun s r => s.applyRes n op r) s)).mem
      ∧ (s.completeOp n op).poison = (op.putStatus n (op.res.foldl (fun s r => s.applyRes n op r) s)).poison :=
  ⟨fun _ => rfl, rfl, rfl⟩

/-- What the completion of an operation leaves of its core (R118, R184). -/
theorem State.completeOp_core (s : State) (n : Nat) (op : OutOp) :
    ∃ b, (s.completeOp n op).core n = { s.core n with
      buf := b, vuFlags := op.res.foldl (fun w x => w ||| x.flagBits) (s.core n).vuFlags,
      traps := (s.core n).traps ++ op.trapOf (s.core n).vuCtrl } := by
  obtain ⟨b, hb⟩ := State.applyAll_core op.res s n op
  obtain ⟨b', hb'⟩ : ∃ b', (op.putStatus n (op.res.foldl (fun s r => s.applyRes n op r) s)).core n
      = { (op.res.foldl (fun s r => s.applyRes n op r) s).core n with buf := b' } := ⟨_, (op.putStatus_onlyBuffered n _).core n⟩
  exact ⟨b', by rw [(s.completeOp_frame n op).1, State.onCore_core, hb', hb]⟩

theorem State.applyRes_mem {s : State} {n : Nat} {op : OutOp} {r : SlotRes} (h : r.writes = []) :
    (s.applyRes n op r).mem = s.mem ∧ (s.applyRes n op r).poison = s.poison := by
  obtain ⟨-, hmem, hpoison⟩ := s.applyRes_frame n op r
  rw [hmem, hpoison, State.storeRes, h]
  exact ⟨rfl, rfl⟩

/-- An operation that writes nothing, and no status record, leaves memory as it is. -/
theorem State.completeOp_mem {s : State} {n : Nat} {op : OutOp} (hst : op.status = none) (hw : ∀ x ∈ op.res, x.writes = []) :
    (s.completeOp n op).mem = s.mem ∧ (s.completeOp n op).poison = s.poison := by
  have hres : (op.res.foldl (fun s r => s.applyRes n op r) s).mem = s.mem ∧ (op.res.foldl (fun s r => s.applyRes n op r) s).poison = s.poison :=
    List.foldlRecOn (motive := fun t : State => t.mem = s.mem ∧ t.poison = s.poison) _ _ ⟨rfl, rfl⟩ fun t ht r hr =>
      ⟨(State.applyRes_mem (hw r hr)).1.trans ht.1, (State.applyRes_mem (hw r hr)).2.trans ht.2⟩
  obtain ⟨-, hmem, hpoison⟩ := s.completeOp_frame n op
  rw [hmem, hpoison, OutOp.putStatus, hst]
  exact hres

/-- Where no word read uncorrectable and no product is suspect, results stand as they are. -/
theorem SlotRes.spoil_nothing (s : State) (r : SlotRes) : r.spoil s false [] = r := by
  simp [SlotRes.spoil]

theorem State.completeOldest_of_ops {s : State} {n : Nat} {op : OutOp} {r : List OutOp} (h : (s.core n).ops = op :: r) :
    s.completeOldest n false [] = (s.onCore n (fun k => { k with ops := r })).completeOp n op := by
  have hres : op.res.map (SlotRes.spoil s false []) = op.res := List.map_id'' (SlotRes.spoil_nothing s) _
  rw [State.completeOldest, h]
  dsimp only
  rw [hres]

/-- A core that has a descriptor before it does not end its step. -/
theorem State.passEnd_of_next {s : State} {n : Nat} (h : ∀ h, s.header n = some h → (s.core n).next < h.descCount) : s.passEnd n = s := by
  unfold State.passEnd
  dsimp only
  split
  · rfl
  · rename_i g hg
    simp [Nat.not_le.mpr (h g hg)]

/-- OPERATION_COMPLETE waits for pages and tokens (R168, R414). -/
theorem exec_operationComplete_due {s : State} (n : Fin 32) (h : s.opDue n.val = true) (f : OpFaults) : exec (.operationComplete n f) s = .next s :=
  congrArg Host.Outcome.next (if_pos (by simp [h]))

/-- OPERATION_COMPLETE with no fault met. -/
theorem exec_operationComplete_sound {s : State} {n : Fin 32} {op : OutOp} {r : List OutOp} (hr : s.inReset = false)
    (hops : (s.core n.val).ops = op :: r) (hdue : s.opDue n.val = false) :
    exec (.operationComplete n {}) s = .next (((s.onCore n.val (fun k => { k with ops := r })).completeOp n.val op).passEnd n.val) := by
  rw [← State.completeOldest_of_ops hops]
  exact congrArg Host.Outcome.next (if_neg (by simp [hr, hdue, hops]))

/-- Settles O54: the completion of the oldest operation, and the flush of a cell's old entries. -/
theorem operationsComplete : Obligations.OperationsComplete := by
  refine ⟨fun s n op r hr hops => ⟨fun hdue => ?_, fun hpages htoks hnext => ?_⟩, fun s n cell => exec_bufferFlush n cell⟩
  · refine exec_operationComplete_due n ?_
    rw [State.opDue, Bool.or_eq_true]
    refine hdue.imp id fun ⟨hopen, p, c, x, hrun, hx, hunserved⟩ => ?_
    simp only [State.tokensDue, hops, hrun, hopen, Bool.not_false, Bool.true_and, List.any_eq_true]
    exact ⟨x, hx, by rw [hunserved]; rfl⟩
  · have htokens : s.tokensDue n.val = false := by
      unfold State.tokensDue
      rw [hops]
      split
      · rename_i p c hop hrun
        cases hop
        rcases htoks with hstrict | hserved
        · rw [hstrict]
          rfl
        · simp only [Bool.and_eq_false_imp, List.any_eq_false]
          intro _ x hx
          rw [hserved p c x hrun hx]
          simp
      · rfl
    have hdue : s.opDue n.val = false := by rw [State.opDue, hpages, htokens]; rfl
    obtain ⟨b, hcore⟩ := (s.onCore n.val (fun k => { k with ops := r })).completeOp_core n.val op
    rw [State.onCore_core] at hcore
    have hcompleted : s.OnlyCompleted ((s.onCore n.val (fun k => { k with ops := r })).completeOp n.val op) :=
      (s.onCore_onlyCompleted n.val fun _ => rfl).trans (State.completeOp_onlyCompleted _ _ _)
    have hend : (((s.onCore n.val (fun k => { k with ops := r })).completeOp n.val op).passEnd n.val)
        = (s.onCore n.val (fun k => { k with ops := r })).completeOp n.val op := by
      rcases hnext with hops | hnext
      · exact State.passEnd_of_ops (by rw [hcore]; exact hops)
      · refine State.passEnd_of_next fun h hh => ?_
        rw [hcompleted.next]
        exact hnext h (by rwa [← hcompleted.header])
    have hw := hcompleted.within
    refine ⟨_, exec_operationComplete_sound hr hops hdue, ?_⟩
    rw [hend, hcore]
    exact ⟨rfl, rfl, rfl, fun hst hnone => State.completeOp_mem hst hnone, hw.regs, hw.jobs, hw.queues, hw.tide, hw.loops⟩

end Sys2Proof.Machine
end

section
/-!
PROOF. What is sent and reported (R450, R498-R502) changes no core and no context; and with it the end of a step: a core's, the pan's, and the kill
(R177, R200, R201, R207, R208, R261, R515).
-/

namespace Sys2Proof.Machine

/-! ### Messages and reports -/

/-- No core and no context changed, and nothing outside what the running of a step touches. -/
structure State.OnlyTold (s t : State) : Prop where
  cores : t.cores = s.cores
  ctx : ∀ p c, t.ctx p c = s.ctx p c
  within : s.WithinStep t

namespace State.OnlyTold

variable {s t u : State}

theorem refl (s : State) : s.OnlyTold s := ⟨rfl, fun _ _ => rfl, rfl⟩

theorem trans (h : s.OnlyTold t) (h' : t.OnlyTold u) : s.OnlyTold u :=
  ⟨h'.cores.trans h.cores, fun p c => (h'.ctx p c).trans (h.ctx p c), h.within.trans h'.within⟩

theorem foldl {α : Type} {f : State → α → State} (hf : ∀ (s : State) x, s.OnlyTold (f s x)) (l : List α) (s : State) :
    s.OnlyTold (l.foldl f s) :=
  List.foldlRecOn (motive := s.OnlyTold) l f (refl s) fun t ht x _ => ht.trans (hf t x)

theorem ite {b : Prop} [Decidable b] (h : s.OnlyTold t) (h' : s.OnlyTold u) : s.OnlyTold (if b then t else u) := by
  split
  · exact h
  · exact h'

theorem core (h : s.OnlyTold t) (k : Nat) : t.core k = s.core k := congrArg (fun m : SMap Core => m.getD k {}) h.cores

end State.OnlyTold

theorem State.Sends.told {s t : State} (h : s.Sends t) : s.OnlyTold t where
  cores := (congrArg State.cores h.rest).trans rfl
  ctx p c := by rw [State.ctx, h.pans p, State.ctx]
  within := h.withinStep

theorem State.withLogs_told (s : State) (l : SMap ErrLog) : s.OnlyTold { s with logs := l } := ⟨rfl, fun _ _ => rfl, rfl⟩

theorem State.bump_told (s : State) (c : Ctr) : s.OnlyTold (s.bump c) := (State.bump_sends c (.refl s)).told

theorem State.event_told (s : State) (kind subject : Nat) (body : List Byte) : s.OnlyTold (s.event kind subject body) :=
  (State.event_sends kind subject body (.refl s)).told

theorem State.lose_told (s : State) (l : LogId) (r : Report) : s.OnlyTold (s.lose l r) := by
  unfold State.lose
  dsimp only
  have noted (g : SMap ErrLog) (x : Reg) (f : Nat → Nat) : s.OnlyTold (State.note { s with logs := g } x f) := ⟨rfl, fun _ _ => rfl, rfl⟩
  have saturated {b : Prop} [Decidable b] (g : SMap ErrLog) (x : Reg) (f : Nat → Nat) (k j : Nat) (body : List Byte) :
      s.OnlyTold (if b then (State.note { s with logs := g } x f).event k j body else State.note { s with logs := g } x f) :=
    .ite ((noted g x f).trans (State.event_told _ _ _ _)) (noted g x f)
  exact .ite ((saturated _ _ _ _ _ _).trans (State.event_told _ _ _ _)) (saturated _ _ _ _ _ _)

theorem State.toLog_told (s : State) (l : LogId) (r : Report) : s.OnlyTold (s.toLog l r) :=
  .ite (s.withLogs_told _) (.ite ((s.withLogs_told _).trans (State.lose_told _ _ _)) (s.lose_told _ _))

theorem State.report_told (s : State) (l : LogId) (cls : EClass) (source unit info detail : Nat) :
    s.OnlyTold (s.report l cls source unit info detail) :=
  .ite ((s.toLog_told _ _).trans (State.toLog_told _ _ _)) (s.toLog_told _ _)

theorem State.seqReport_told (s : State) (n : Nat) (cls : EClass) (code desc : Nat) : s.OnlyTold (s.seqReport n cls code desc) := by
  unfold State.seqReport
  split
  · exact s.report_told _ _ _ _ _ _
  · exact .refl s

/-- The reports that a context owed are sent (R497), and it owes none. -/
theorem State.payOwed_told (s : State) (p c : Nat) (cls : EClass) :
    (s.onCtx p c (fun x => { x with owed := [] })).OnlyTold (s.payOwed p c cls) :=
  .foldl (fun t (r : Nat × Nat × Nat) => t.seqReport_told r.1 cls r.2.1 r.2.2) _ _

/-! ### The end of the pan's step -/

/-- The context as its step has ended by itself (R177, R261, R425). -/
def Ctx.ended (x : Ctx) (te at' : Nat) : Ctx :=
  { x with live := false, boundary := true, killed := none, te := te, endNclk := at', refault := 0, owed := [] }

/-- The pan's step goes on while a core runs it. -/
theorem State.checkPanEnd_of_stepping {s : State} {p c k : Nat} (hk : k ∈ (s.ctx p c).ranks) (h : (s.core k).stepping = true) :
    s.checkPanEnd p c = s := by
  refine if_neg fun hall => ?_
  simp only [Bool.and_eq_true, List.all_eq_true] at hall
  have := hall.1.2 k hk
  rw [h] at this
  cases this

/-- The end of the pan's step changes no core, and of the contexts only the one whose step ends. -/
theorem State.checkPanEnd_cores (s : State) (p c : Nat) : (s.checkPanEnd p c).cores = s.cores := by
  unfold State.checkPanEnd
  dsimp only
  split
  · exact (State.payOwed_told _ p c .ucm).cores
  · rfl

theorem State.checkPanEnd_core (s : State) (p c k : Nat) : (s.checkPanEnd p c).core k = s.core k :=
  congrArg (fun m : SMap Core => m.getD k {}) (s.checkPanEnd_cores p c)

/-- In open mode the pan's step ends with its last core, at the present moment. -/
theorem State.checkPanEnd_open {s : State} {p c : Nat} (hlive : (s.ctx p c).live = true) (hopen : s.strict = false)
    (hdone : ∀ k ∈ (s.ctx p c).ranks, (s.core k).stepping = false) : (s.checkPanEnd p c).ctx p c = (s.ctx p c).ended s.tide64 s.nclk := by
  have hall : ((s.ctx p c).live && (s.ctx p c).ranks.all (fun k => !(s.core k).stepping) && (!s.strict || (s.ctx p c).budgetEnd)) = true := by
    simpa [hlive, hopen] using hdone
  unfold State.checkPanEnd
  dsimp only
  rw [if_pos hall, (State.payOwed_told _ p c .ucm).ctx, State.onCtx_ctx, State.onCtx_ctx]
  simp [hopen, State.tideAt, Ctx.ended]

end Sys2Proof.Machine
end

section
/-!
PROOF. The sequencer's place (R177, R203, R516): when a core passes its turn or ends its step, and what ending it leaves.
-/

namespace Sys2Proof.Machine

/-- A core that stops short of ending its step, or has nothing of its own to end, goes no further. -/
theorem State.passEnd_of_stopped {s : State} {n : Nat} (h : (s.core n).stepping = false) : s.passEnd n = s := by
  unfold State.passEnd
  simp only [h, Bool.false_and, Bool.false_eq_true, if_false]
  split <;> rfl

theorem State.passEnd_of_wait {s : State} {n : Nat} (h : (s.core n).wait ≠ none) : s.passEnd n = s := by
  unfold State.passEnd
  simp only [h, decide_false, Bool.and_false, Bool.false_and, Bool.false_eq_true, if_false]
  split <;> rfl

/-- A core that is past its last descriptor, with nothing outstanding, ends its step (R177). -/
theorem State.passEnd_past {s : State} {n : Nat} {h : StepProg} (hh : s.header n = some h) (hstep : (s.core n).stepping = true)
    (hwait : (s.core n).wait = none) (hops : (s.core n).ops = []) (hnext : h.descCount ≤ (s.core n).next) : s.passEnd n = s.endCore n := by
  unfold State.passEnd
  rw [hh]
  simp [hstep, hwait, hops, hnext]

/-- Where no other rank stands in line, the core keeps its rank, whether it waits or has stopped. -/
theorem State.passTurn_of_turns_nil {s : State} {n : Nat} (h : (s.core n).turns = []) : s.passTurn n = s := by
  unfold State.passTurn
  simp only [h, List.find?_nil, ite_self]

theorem State.deliverTraps_of_nil {s : State} {n : Nat} (h : (s.core n).traps = []) : s.deliverTraps n = s := by
  rw [State.deliverTraps, h]
  rfl

theorem State.flushCore_buf (s : State) (n : Nat) : ((s.flushCore n).core n).buf = [] := by
  rw [State.flushCore, State.flushAll_buf, List.filter_eq_nil_iff]
  intro e he
  simpa using ⟨e, he, rfl⟩

/-- The state in which a core has ended its step (R133, R177). -/
def State.coreEnded (s : State) (n : Nat) : State := (s.flushCore n).onCore n (fun k => { k with stepping := false })

theorem State.coreEnded_core_self (s : State) (n : Nat) :
    (s.coreEnded n).core n = { s.core n with buf := ((s.flushCore n).core n).buf, stepping := false } := by
  rw [State.coreEnded, State.onCore_core]
  conv_lhs => rw [(s.flushCore_onlyBuffered n).core n]

theorem State.coreEnded_core_ne (s : State) {n k : Nat} (hk : k ≠ n) :
    (s.coreEnded n).core k = { s.core k with buf := ((s.flushCore n).core k).buf } := by
  rw [State.coreEnded, State.onCore_core_ne _ _ _ _ hk, ← (s.flushCore_onlyBuffered n).core k]

theorem State.coreEnded_ctx (s : State) (n p c : Nat) : (s.coreEnded n).ctx p c = s.ctx p c := (s.flushCore_onlyBuffered n).ctx p c

theorem State.coreEnded_within (s : State) (n : Nat) : s.WithinStep (s.coreEnded n) := (s.flushCore_onlyBuffered n).within.trans rfl

/-- A core with nothing outstanding, no trap and no other rank ends its step, where no core of its context waits at a barrier (R177, R206). -/
theorem State.endCore_of_clear {s : State} {n p c : Nat} (hops : (s.core n).ops = []) (htraps : (s.core n).traps = [])
    (hturns : (s.core n).turns = []) (hstep : (s.core n).stepping = true) (hrun : (s.core n).run = some (p, c))
    (hbar : ∀ k ∈ (s.ctx p c).ranks, (s.core k).stepping = true → k ≠ n → (s.core k).atBarrier = false) :
    s.endCore n = (s.coreEnded n).checkPanEnd p c := by
  have hturn : (s.coreEnded n).passTurn n = s.coreEnded n := State.passTurn_of_turns_nil (by rw [s.coreEnded_core_self]; exact hturns)
  have hfind : ((s.coreEnded n).ctx p c).ranks.find? (fun k => ((s.coreEnded n).core k).stepping && ((s.coreEnded n).core k).atBarrier) = none := by
    rw [List.find?_eq_none, State.coreEnded_ctx]
    intro k hk hboth
    rw [Bool.and_eq_true] at hboth
    by_cases hkn : k = n
    · rw [hkn, s.coreEnded_core_self] at hboth
      cases hboth.1
    · rw [s.coreEnded_core_ne hkn] at hboth
      exact Bool.noConfusion ((hbar k hk hboth.1 hkn).symm.trans hboth.2)
  unfold State.endCore
  rw [State.drain_of_ops_nil hops, State.deliverTraps_of_nil htraps]
  simp only [hstep, hrun, Bool.not_true, Bool.false_eq_true, if_false]
  rw [State.coreEnded] at hturn hfind ⊢
  rw [hturn, hfind]

end Sys2Proof.Machine
end

section
/-!
PROOF. Sequencer operations (R122, R133, R159, R177, R184, R195, R198, R203, R205): each takes effect once everything earlier is complete.
-/

namespace Sys2Proof.Machine

/-! ### Slots -/

theorem State.onSlot_slot_self (s : State) (p c r k : Nat) (f : SlotSt → SlotSt) : (s.onSlot p c r k f).slot p c r k = f (s.slot p c r k) := by
  rw [State.slot, State.onSlot, State.onCtx_ctx, SMap.getD_put_self]
  rfl

theorem State.onSlot_slot_ne (s : State) (p c r : Nat) {k j : Nat} (f : SlotSt → SlotSt) (h : j ≠ k) :
    (s.onSlot p c r k f).slot p c r j = s.slot p c r j := by
  rw [State.slot, State.onSlot, State.onCtx_ctx, SMap.getD_put_ne _ _ _ (by omega)]
  rfl

theorem State.onSlot_core (s : State) (p c r k : Nat) (f : SlotSt → SlotSt) (n : Nat) : (s.onSlot p c r k f).core n = s.core n := rfl

/-- Each slot of a list changed once. -/
theorem State.onSlots_slot (p c r : Nat) (f : SlotSt → SlotSt) (l : List Nat) (hl : l.Nodup) (s : State) (j : Nat) :
    (l.foldl (fun s k => s.onSlot p c r k f) s).slot p c r j = if j ∈ l then f (s.slot p c r j) else s.slot p c r j := by
  induction l generalizing s with
  | nil => rfl
  | cons k l ih =>
    rw [List.nodup_cons] at hl
    rw [List.foldl_cons, ih hl.2]
    by_cases hj : j = k
    · subst hj
      rw [if_neg hl.1, if_pos (List.mem_cons_self ..), State.onSlot_slot_self]
    · rw [State.onSlot_slot_ne _ _ _ _ _ hj]
      simp only [List.mem_cons, hj, false_or]

theorem State.onSlots_cores (p c r : Nat) (f : SlotSt → SlotSt) (l : List Nat) (s : State) :
    (l.foldl (fun s k => s.onSlot p c r k f) s).cores = s.cores :=
  List.foldlRecOn (motive := fun t : State => t.cores = s.cores) _ _ rfl fun _ ht _ _ => ht

theorem State.selectedSlots_nodup (s : State) (p c r : Nat) (m v : BitVec 16) : (s.selectedSlots p c r m v).Nodup := by
  unfold State.selectedSlots
  split
  · exact List.nodup_nil
  · exact List.nodup_range.filter _

theorem State.OnlyBuffered.selectedSlots {s t : State} (h : s.OnlyBuffered t) (p c r : Nat) (m v : BitVec 16) :
    t.selectedSlots p c r m v = s.selectedSlots p c r m v := by
  simp only [State.selectedSlots, h.completed.prog, h.slot]

theorem State.OnlyBuffered.branchTakes {s t : State} (h : s.OnlyBuffered t) (p c : Nat) (rs : List Nat) (kind : Nat) (m v : BitVec 16) :
    t.branchTakes p c rs kind m v = s.branchTakes p c rs kind m v := by
  simp only [State.branchTakes, h.completed.prog, h.slot]

/-! ### COMMIT (R198) -/

/-- What COMMIT does to a slot that it selects. -/
def SlotSt.commitReq (bad : Bool) (t : SlotSt) : SlotSt :=
  { t with state := t.state ||| (if bad then 0x0300 else 0x0200), flags := t.flags ||| (if bad then 0x4000 else 0) }

/-- The slots that a sequencer operation selects: by its predicate where it is SLOTWISE, and else every LIVE one (R192, R193). -/
theorem State.ctlSlots_of_run {s : State} {n p c : Nat} (h : (s.core n).run = some (p, c)) (d : Desc) :
    s.ctlSlots n d = s.selectedSlots p c (s.core n).rank (if d.slotwise then d.predMask else 0) (if d.slotwise then d.predVal else 0) := by
  rw [State.ctlSlots, h]
  dsimp only
  split <;> rfl

theorem State.commitReq_of_run {s : State} {n p c : Nat} (h : (s.core n).run = some (p, c)) (d : Desc) (bad : Bool) :
    s.commitReq n d bad = (s.selectedSlots p c (s.core n).rank (if d.slotwise then d.predMask else 0) (if d.slotwise then d.predVal else 0)).foldl
      (fun t k => t.onSlot p c (s.core n).rank k (SlotSt.commitReq bad)) (s.flushCore n) := by
  have hflush := s.flushCore_onlyBuffered n
  have hrun : ((s.flushCore n).core n).run = some (p, c) := (hflush.completed.run n).trans h
  have hrank (l : List Nat) (t : State) (ht : (t.core n).rank = (s.core n).rank) (f g : SlotSt → SlotSt) (hfg : f = g) :
      l.foldl (fun t k => t.onSlot p c (t.core n).rank k f) t = l.foldl (fun t k => t.onSlot p c (s.core n).rank k g) t := by
    subst hfg
    induction l generalizing t with
    | nil => rw [List.foldl_nil, List.foldl_nil]
    | cons k l ih =>
      rw [List.foldl_cons, List.foldl_cons, ht]
      exact ih _ ((congrArg Core.rank (t.onSlot_core _ _ _ _ _ n)).trans ht)
  unfold State.commitReq
  dsimp only
  rw [hrun]
  dsimp only
  rw [State.ctlSlots_of_run hrun, hflush.completed.rank, hflush.selectedSlots]
  refine hrank _ _ (hflush.completed.rank n) _ _ (funext fun t => ?_)
  cases bad <;> simp [SlotSt.commitReq]

end Sys2Proof.Machine
end

section
/-!
PROOF. Sequencer operations (R122, R133, R159, R177, R184, R195, R198, R203, R205): each takes effect once everything earlier is complete.
-/

namespace Sys2Proof.Machine

/-! ### A descriptor taken up -/

theorem State.counted_within (s : State) (n : Nat) : s.WithinStep (s.counted n) :=
  (s.readDesc_onlyBuffered n _).within.trans rfl

theorem State.counted_core (s : State) (n : Nat) : (s.counted n).core n = { s.core n with
    buf := ((s.readDesc n (s.core n).next).core n).buf, next := (s.core n).next + 1, issued := (s.core n).issued + 1 } := by
  rw [State.counted, State.onCore_core]
  conv_lhs => rw [(s.readDesc_onlyBuffered n _).core n]

theorem State.issuing_stepping {s : State} {n p c r : Nat} {h : StepProg} (hi : s.issuing n = some (p, c, r, h)) :
    (s.core n).stepping = true ∧ (s.core n).wait = none := by
  unfold State.issuing at hi
  dsimp only at hi
  split at hi
  · cases hi
  · rename_i hno
    simp only [Bool.or_eq_true, Bool.not_eq_true', decide_eq_true_eq, not_or, Bool.not_eq_false, not_not] at hno
    exact ⟨hno.1.1.2, hno.1.2⟩

/-- The state in which a sequencer operation takes effect: everything earlier is complete (R179). -/
theorem State.counted_drain_within (s : State) (n : Nat) : s.WithinStep ((s.counted n).drain n) :=
  (s.counted_within n).trans ((s.counted n).drain_onlyCompleted n).within

section
variable {s v w : State} {n p c : Nat} {h : StepProg} {k : OpCode} {d : Desc} {rc : Option (Nat × Nat × Bool)}

namespace State.Sequenced

variable (q : s.Sequenced n p c h k d v rc)
include q

theorem within : s.WithinStep v := q.drained ▸ s.counted_drain_within n

theorem completed : (s.counted n).OnlyCompleted v := q.drained ▸ (s.counted n).drain_onlyCompleted n

theorem run : (v.core n).run = some (p, c) := (q.completed.run n).trans (((s.counted_stands n).run n).trans q.at'.run)

theorem rank : (v.core n).rank = (s.core n).rank := (q.completed.rank n).trans ((s.counted_stands n).rank n)

theorem header : v.header n = some h := by
  rw [State.header, q.run]
  dsimp only
  rw [q.completed.prog, (s.counted_stands n).prog, q.rank, q.at'.prog]

theorem stepping : (v.core n).stepping = true := by
  rw [q.completed.stepping, s.counted_core]
  exact (State.issuing_stepping q.at'.inside).1

/-- With no status record asked for there is none to write. -/
theorem record_none (hd : d.stw = false) : rc = none := by
  have hst := q.status
  rw [State.ctlStatus, State.statusAt, if_neg (Bool.eq_false_iff.mp hd)] at hst
  cases hst
  rfl

/-- With nothing outstanding there is nothing to complete. -/
theorem counted_of_ops (hops : (s.core n).ops = []) : v = s.counted n :=
  q.drained.trans (State.drain_of_ops_nil (((s.counted_stands n).ops n).trans hops))

/-- The common course of a sequencer operation (R179, R184): its effect on the state in which everything earlier is complete. -/
theorem control_done (hk : k.known = true) {ok : Bool} (hok : ok = true) (go : State → Bool → Option (Nat × Nat × Bool) → State) :
    s.control n k d ok go = (go v (v.fetchDesc n (s.core n).next).2 rc).passEnd n := by
  refine q.at'.issue_done hk ?_
  dsimp only
  rw [q.plain, hok, ← q.drained, if_neg (not_not.mpr q.complete), q.status]
  rfl

end State.Sequenced

end

theorem branchCode_known {kind : Nat} (h : kind < 5) (pan : Bool) : (branchCode kind pan).known = true := by
  cases pan <;> simp [OpCode.known, branchCode, bitN] <;> omega

/-! ### The operations -/

section
variable {s v : State} {n : Fin 32} {p c : Nat} {h : StepProg} {d : Desc} {k : OpCode} {rc : Option (Nat × Nat × Bool)}

/-- What COMMIT leaves (R159, R198). -/
theorem State.Sequenced.commit (q : s.Sequenced n.val p c h ⟨0xA, 0⟩ d v rc) {sel : List Nat} {bad : Bool}
    (hsel : sel = v.selectedSlots p c (s.core n.val).rank (if d.slotwise then d.predMask else 0) (if d.slotwise then d.predVal else 0))
    (hbad : bad = (v.fetchDesc n.val (s.core n.val).next).2) :
    ∃ t : State, exec (.commit n d) s = .next (t.passEnd n.val) ∧ (d.stw = false → (t.core n.val).buf = [])
      ∧ (∀ j ∈ sel, t.slot p c (s.core n.val).rank j = { v.slot p c (s.core n.val).rank j with
          state := (v.slot p c (s.core n.val).rank j).state ||| (if bad then 0x0300 else 0x0200),
          flags := (v.slot p c (s.core n.val).rank j).flags ||| (if bad then 0x4000 else 0) })
      ∧ (∀ j, j < 256 → j ∉ sel → t.slot p c (s.core n.val).rank j = v.slot p c (s.core n.val).rank j)
      ∧ t.regs = v.regs ∧ t.jobs = v.jobs ∧ t.queues = v.queues := by
  subst hbad
  have heffect := State.commitReq_of_run q.run d (v.fetchDesc n.val (s.core n.val).next).2
  rw [q.rank, ← hsel] at heffect
  have hflush := v.flushCore_onlyBuffered n.val
  have hslots := State.onSlots_slot p c (s.core n.val).rank (SlotSt.commitReq (v.fetchDesc n.val (s.core n.val).next).2) sel
    (hsel ▸ v.selectedSlots_nodup _ _ _ _ _) (v.flushCore n.val)
  have hrecord := (v.commitReq n.val d (v.fetchDesc n.val (s.core n.val).next).2).putRecord_onlyBuffered n.val rc
  have hwithin : v.WithinStep ((v.commitReq n.val d (v.fetchDesc n.val (s.core n.val).next).2).putRecord n.val rc) := by
    refine .trans ?_ hrecord.within
    rw [heffect]
    exact hflush.within.trans (State.OnlyCompleted.foldl (fun t j => t.onSlot_onlyCompleted _ _ _ j _) _ _).within
  refine ⟨_, congrArg _ (q.control_done rfl rfl _), fun hd => ?_, fun j hj => ?_, fun j _ hj => ?_, hwithin.regs, hwithin.jobs, hwithin.queues⟩
  · rw [q.record_none hd, State.putRecord, heffect, State.core, State.onSlots_cores, ← State.core, State.flushCore_buf]
  · rw [hrecord.slot, heffect, hslots, if_pos hj, hflush.slot]
    rfl
  · rw [hrecord.slot, heffect, hslots, if_neg hj, hflush.slot]

/-- The five branches are the commands of one operation (R185, R195). -/
theorem exec_branch (s : State) (n : Fin 32) (d : Desc) {x : Nat × (Bool → Instr)}
    (hx : x ∈ [(0, (fun b => Instr.stepEnd n ⟨d, b⟩)), (1, (fun b => Instr.jump n ⟨d, b⟩)), (2, (fun b => Instr.ifAny n d b)),
             (3, (fun b => Instr.ifAll n d b)), (4, (fun b => Instr.ifNone n d b))]) (pan : Bool) :
    x.1 < 5 ∧ exec (x.2 pan) s = .next (s.branch n.val x.1 d pan) := by
  revert x
  simp only [List.forall_mem_cons]
  exact ⟨⟨by decide, rfl⟩, ⟨by decide, rfl⟩, ⟨by decide, rfl⟩, ⟨by decide, rfl⟩, ⟨by decide, rfl⟩, List.forall_mem_nil _⟩

section
variable {kind : Nat} (hkind : kind < 5) (hok : kind = 0 ∨ d.imm.toNat % 65536 < h.descCount)
include hkind hok

/-- A branch with PAN waits, as a barrier does, with its record to be written (R195). -/
theorem State.Sequenced.branch_pan (q : s.Sequenced n.val p c h (branchCode kind true) d v rc) :
    s.branch n.val kind d true = (v.waitFor n.val (.branch kind (d.imm.toNat % 65536) d.predMask d.predVal) rc).passEnd n.val := by
  have htarget : (kind = 0 || s.targetOk n.val d) = true := by
    simpa [State.targetOk, (State.issuing_some q.at'.inside).2] using hok
  rw [State.branch, q.control_done (branchCode_known hkind true) (by simpa using htarget), q.run]
  rfl

/-- A branch on the core alone writes its record and goes where the core's LIVE slots send it (R195). -/
theorem State.Sequenced.branch_core (q : s.Sequenced n.val p c h (branchCode kind false) d v rc) :
    s.branch n.val kind d false = (if v.branchTakes p c [(s.core n.val).rank] kind d.predMask d.predVal then
        (v.putRecord n.val rc).branchTo n.val kind (d.imm.toNat % 65536) else v.putRecord n.val rc).passEnd n.val := by
  have hrecord := v.putRecord_onlyBuffered n.val rc
  have htarget : (kind = 0 || s.targetOk n.val d) = true := by
    simpa [State.targetOk, (State.issuing_some q.at'.inside).2] using hok
  rw [State.branch, q.control_done (branchCode_known hkind false) (by simpa using htarget), q.run]
  dsimp only
  rw [hrecord.completed.rank, hrecord.branchTakes, q.rank]
  rfl

/-- A JUMP, or a branch taken, goes on at its target. -/
theorem State.Sequenced.branch_taken (q : s.Sequenced n.val p c h (branchCode kind false) d v rc) (h0 : 0 < kind)
    (htakes : kind = 1 ∨ v.branchTakes p c [(s.core n.val).rank] kind d.predMask d.predVal = true) :
    s.branch n.val kind d false = (v.putRecord n.val rc).jumpTo n.val (d.imm.toNat % 65536) := by
  have hrecord := v.putRecord_onlyBuffered n.val rc
  have htrue : v.branchTakes p c [(s.core n.val).rank] kind d.predMask d.predVal = true := by
    rcases htakes with rfl | h
    · rfl
    · exact h
  have hto : (v.putRecord n.val rc).branchTo n.val kind (d.imm.toNat % 65536) = (v.putRecord n.val rc).jumpTo n.val (d.imm.toNat % 65536) :=
    if_neg (by omega)
  rw [q.branch_core hkind hok, if_pos htrue, hto]
  refine State.passEnd_of_next fun g hg => ?_
  have hheader : ((v.putRecord n.val rc).jumpTo n.val (d.imm.toNat % 65536)).header n.val = v.header n.val := by
    rw [← hrecord.completed.header]
    simp only [State.header, State.jumpTo, State.onCore_core]
    rfl
  rw [hheader, q.header] at hg
  cases hg
  rw [State.jumpTo, State.onCore_core]
  exact hok.resolve_left (by omega)

end

/-- BRANCH END ends its core's step, and with the last core the pan's (R177, R261). -/
theorem State.Sequenced.stepEnd (q : s.Sequenced n.val p c h k d v rc) (htraps : ((v.putRecord n.val rc).core n.val).traps = [])
    (hturns : ((v.putRecord n.val rc).core n.val).turns = [])
    (hbar : ∀ j ∈ (v.ctx p c).ranks, (v.core j).stepping = true → j ≠ n.val → (v.core j).atBarrier = false) :
    ∃ t, t = ((v.putRecord n.val rc).endCore n.val).passEnd n.val ∧ (t.core n.val).stepping = false
      ∧ ((∀ j ∈ (v.ctx p c).ranks, j ≠ n.val → (v.core j).stepping = false) → s.strict = false → (v.ctx p c).live = true →
          (t.ctx p c).live = false ∧ (t.ctx p c).boundary = true ∧ (t.ctx p c).killed = none ∧ (t.ctx p c).te = s.tide64) := by
  have hrecord := v.putRecord_onlyBuffered n.val rc
  generalize v.putRecord n.val rc = w at *
  have hops : (w.core n.val).ops = [] := by
    rw [hrecord.core n.val]
    exact q.complete
  have hend : w.endCore n.val = (w.coreEnded n.val).checkPanEnd p c :=
    State.endCore_of_clear hops htraps hturns ((hrecord.completed.stepping _).trans q.stepping) ((hrecord.completed.run _).trans q.run)
      fun j hj hstep hne => by
        rw [hrecord.completed.atBarrier]
        rw [hrecord.completed.stepping] at hstep
        exact hbar j (by rwa [← hrecord.ctx]) hstep hne
  have hstopped : (((w.coreEnded n.val).checkPanEnd p c).core n.val).stepping = false := by
    rw [State.checkPanEnd_core, State.coreEnded_core_self]
  rw [hend, State.passEnd_of_stopped hstopped]
  refine ⟨_, rfl, hstopped, fun hothers hopen hlive => ?_⟩
  have hwithin := (q.within.trans hrecord.within).trans (w.coreEnded_within n.val)
  have hctx : (w.coreEnded n.val).ctx p c = v.ctx p c := (w.coreEnded_ctx n.val p c).trans (hrecord.ctx p c)
  rw [State.checkPanEnd_open (by rw [hctx]; exact hlive) (hwithin.strict.trans hopen)]
  · exact ⟨rfl, rfl, rfl, hwithin.tide64⟩
  · intro j hj
    rw [hctx] at hj
    by_cases hjn : j = n.val
    · rw [hjn, State.coreEnded_core_self]
    · rw [State.coreEnded_core_ne _ hjn]
      exact (hrecord.completed.stepping j).trans (hothers j hj hjn)

end

/-- Settles O51: each operation's effect on the state in which everything earlier is complete. -/
theorem sequencerOperations : Obligations.SequencerOperations := by
  rintro s v w n d p c h k rc q rfl
  have hnclk : v.nclk = s.nclk := q.within.nclk
  refine ⟨q.counted_of_ops, fun hd => ?record, fun u hu hnext => ?before,
    fun u hu hstep hwait hops hnext => State.passEnd_past hu hstep hwait hops hnext,
    fun u y hturns _ hwait => ?waits, ?barrier, ?fence, ?fbar, ?commit, fun x hx hok => ⟨?pan, ?core⟩⟩
  case record =>
    have hrc := q.record_none hd
    exact ⟨hrc, by rw [hrc]; rfl⟩
  case before =>
    refine State.passEnd_of_next fun g hg => ?_
    rw [hu] at hg
    cases hg
    exact hnext
  case waits =>
    rw [State.passTurn_of_turns_nil hturns, State.passEnd_of_wait (by rw [hwait]; exact Option.some_ne_none y)]
  case barrier =>
    rintro rfl himm
    refine congrArg _ ((q.control_done rfl (decide_eq_true himm) _).trans ?_)
    rw [State.waitFor, hnclk]
  case fence =>
    rintro rfl
    exact congrArg _ (q.control_done rfl rfl _)
  case fbar =>
    rintro rfl u rfl
    refine ⟨State.deliverTraps_of_nil, fun hstop => ?_, fun hgo => ?_⟩
    · refine congrArg _ ((q.control_done rfl rfl _).trans ?_)
      rw [if_neg (Bool.eq_false_iff.mp hstop)]
    · refine congrArg _ ((q.control_done rfl rfl _).trans ?_)
      rw [if_pos hgo]
  case commit =>
    rintro rfl sel bad hsel hbad
    exact q.commit hsel hbad
  case pan =>
    rintro rfl
    obtain ⟨hkind, hexec⟩ := exec_branch s n d hx true
    rw [hexec, q.branch_pan hkind hok, State.waitFor, hnclk]
  case core =>
    rintro rfl
    obtain ⟨hkind, hexec⟩ := exec_branch s n d hx false
    rw [hexec]
    refine ⟨fun h0 htakes => ⟨_, congrArg _ (q.branch_taken hkind hok h0 htakes), rfl, ?_, fun j hj => ?_⟩,
      fun _ htakes => ?_, fun h0 => ⟨?_, q.stepEnd⟩⟩
    · rw [State.jumpTo, State.onCore_core]
    · rw [State.jumpTo, State.onCore_core_ne _ _ _ _ hj]
    · rw [q.branch_core hkind hok, htakes]
      rfl
    · rw [q.branch_core hkind hok, h0]
      rfl

end Sys2Proof.Machine
end

section
/-!
PROOF. Faults at issue, and the kill of a step (R103, R180-R183, R200, R201, R207, R208, R418, R515).
-/

namespace Sys2Proof.Machine

/-! ### Faults at issue -/

/-- No class of descriptor admits these fields (R103, R181, R183). -/
theorem descPlain_of_reserved {d : Desc}
    (h : d.rsv0 ≠ 0 ∨ d.subExtra ≠ 0 ∨ d.rsv9 ≠ 0 ∨ d.rsv12 ≠ 0 ∨ d.rm = 5 ∨ d.rm = 6 ∨ d.slotStride.toNat % 64 ≠ 0)
    (dp useK : Bool) : descPlain d dp useK = false := by
  rw [Bool.eq_false_iff]
  intro hp
  simp only [descPlain, Bool.and_eq_true, decide_eq_true_eq] at hp
  tauto

/-- A command of an operation: it has its descriptor taken up under a CLASS and SUBOP, and fields that no class admits are a descriptor fault. -/
def State.TakesUp (s : State) (n : Nat) (k : OpCode) (d : Desc) (t : State) : Prop :=
  ∃ go, t = s.issue n k d go ∧ ((∀ dp useK, descPlain d dp useK = false) → ∀ p c, ((s.counted n).core n).run = some (p, c) →
    ∀ i, go (s.counted n) i = .error .descriptor)

theorem State.operate_takesUp (s : State) (n : Nat) (f : OpForm) (d : Desc)
    (opnds : State → Option Nat → Except StepFault (List Opnd × List Opnd)) (run : State → Option Nat → SlotRes) :
    s.TakesUp n f.code d (s.operate n f d opnds run) := by
  refine ⟨_, rfl, fun hplain p c hrun i => ?_⟩
  dsimp only
  rw [hrun]
  simp [hplain]

theorem State.rounded_takesUp (s : State) (n : Nat) (k : OpCode) (d : Desc) {go : RM → State} (h : ∀ rm, s.TakesUp n k d (go rm)) :
    s.TakesUp n k d (s.rounded n k d go) := by
  unfold State.rounded
  split
  · exact ⟨_, rfl, fun _ _ _ _ _ => rfl⟩
  · exact h _

theorem State.move_takesUp (s : State) (n kind : Nat) (d : Desc) : s.TakesUp n ⟨0, kind⟩ d (s.move n kind d) := by
  refine ⟨_, rfl, fun hplain p c hrun i => ?_⟩
  dsimp only
  rw [hrun]
  simp [hplain]

theorem State.control_takesUp (s : State) (n : Nat) (k : OpCode) (d : Desc) (ok : Bool)
    (go : State → Bool → Option (Nat × Nat × Bool) → State) : s.TakesUp n k d (s.control n k d ok go) := by
  refine ⟨_, rfl, fun hplain p c hrun i => ?_⟩
  simp [hplain]

section
variable {s t : State} {n p c r : Nat} {k f : OpCode} {d e : Desc} {h : StepProg}

/-- A descriptor past MAX_ISSUE (R180). -/
theorem State.TakesUp.overrun (u : s.TakesUp n k d t) (hi : s.issuing n = some (p, c, r, h)) (hmax : h.maxIssue ≤ (s.core n).issued) :
    t = s.faultAt n .overrun (s.core n).next := by
  obtain ⟨go, rfl, -⟩ := u
  unfold State.issue
  rw [hi]
  exact if_pos hmax

variable (hi : s.issuing n = some (p, c, r, h)) (hf : (s.fetchDesc n (s.core n).next).1 = (f, e)) (hmax : (s.core n).issued < h.maxIssue)
include hi hf hmax

/-- A reserved CLASS or SUBOP (R183). -/
theorem State.TakesUp.unknown (u : s.TakesUp n k d t) (hk : f.known = false) : t = s.faultAt n .descriptor (s.core n).next := by
  obtain ⟨go, rfl, -⟩ := u
  unfold State.issue
  rw [hi]
  dsimp only
  rw [hf, if_neg (Nat.not_le.mpr hmax), if_pos (by rw [hk]; rfl)]

/-- Another operation than the one fetched does nothing. -/
theorem State.TakesUp.other (u : s.TakesUp n k d t) (hk : f.known = true) (hne : (f, e) ≠ (k, d)) : t = s := by
  obtain ⟨go, rfl, -⟩ := u
  unfold State.issue
  rw [hi]
  dsimp only
  rw [hf, if_neg (Nat.not_le.mpr hmax), if_neg (by rw [hk]; exact Bool.false_ne_true), if_pos hne]

/-- Fields that must be 0 and are not (R103, R181, R183). -/
theorem State.TakesUp.reserved (u : s.TakesUp n k d t) (hk : k.known = true) (heq : (f, e) = (k, d))
    (hplain : ∀ dp useK, descPlain d dp useK = false) : t = s.faultAt n .descriptor (s.core n).next := by
  obtain ⟨go, rfl, hgo⟩ := u
  cases heq
  have hrun : ((s.counted n).core n).run = some (p, c) := ((s.counted_stands n).run n).trans (State.issuing_some hi).1
  have herror := hgo hplain p c hrun (s.core n).next
  unfold State.counted at herror
  unfold State.issue
  rw [hi]
  dsimp only
  rw [hf, if_neg (Nat.not_le.mpr hmax), if_neg (by rw [hk]; exact Bool.false_ne_true), if_neg (not_not.mpr rfl), herror]

end

/-! ### A core stopped -/

/-- A core whose sequencer is stopped, with nothing left of its step (R200). -/
def Core.Stopped (k : Core) : Prop := k.stepping = false ∧ k.wait = none ∧ k.ops = [] ∧ k.traps = [] ∧ k.moves = []

/-- The fault record of SEQ_STATUS (R207). -/
def Core.seq (k : Core) : Bool × Nat × Nat := (k.seqValid, k.seqFault, k.seqDesc)

/-- Cores were stopped, and none set going; fault records and contexts are as before. -/
structure State.OnlyStopped (s t : State) : Prop where
  seq : ∀ k, (t.core k).seq = (s.core k).seq
  stays : ∀ k, (s.core k).Stopped → (t.core k).Stopped
  ctx : ∀ p c, t.ctx p c = s.ctx p c
  within : s.WithinStep t

namespace State.OnlyStopped

variable {s t u : State}

theorem refl (s : State) : s.OnlyStopped s := ⟨fun _ => rfl, fun _ h => h, fun _ _ => rfl, rfl⟩

theorem trans (h : s.OnlyStopped t) (h' : t.OnlyStopped u) : s.OnlyStopped u :=
  ⟨fun k => (h'.seq k).trans (h.seq k), fun k hk => h'.stays k (h.stays k hk), fun p c => (h'.ctx p c).trans (h.ctx p c),
    h.within.trans h'.within⟩

theorem foldl {α : Type} {f : State → α → State} (hf : ∀ (s : State) x, s.OnlyStopped (f s x)) (l : List α) (s : State) :
    s.OnlyStopped (l.foldl f s) :=
  List.foldlRecOn (motive := s.OnlyStopped) l f (refl s) fun t ht x _ => ht.trans (hf t x)

end State.OnlyStopped

theorem State.OnlyTold.stopped {s t : State} (h : s.OnlyTold t) : s.OnlyStopped t :=
  ⟨fun k => by rw [h.core], fun k hk => by rwa [h.core], h.ctx, h.within⟩

theorem State.stopCore_core_self (s : State) (n : Nat) : ((s.stopCore n).core n).Stopped := by
  rw [State.stopCore, State.onCore_core]
  exact ⟨rfl, rfl, rfl, rfl, rfl⟩

theorem State.stopCore_onlyStopped (s : State) (n : Nat) : s.OnlyStopped (s.stopCore n) := by
  have hflush := s.flushCore_onlyBuffered n
  refine ⟨fun k => ?_, fun k hk => ?_, hflush.ctx, hflush.within.trans rfl⟩
  · by_cases hkn : k = n
    · rw [hkn, State.stopCore, State.onCore_core, hflush.core n]
      rfl
    · rw [State.stopCore, State.onCore_core_ne _ _ _ _ hkn, hflush.core k]
      rfl
  · by_cases hkn : k = n
    · rw [hkn]
      exact s.stopCore_core_self n
    · rw [State.stopCore, State.onCore_core_ne _ _ _ _ hkn, hflush.core k]
      exact hk

/-- Each core of a list stopped, and its kill counted. -/
theorem State.stopCores_onlyStopped (l : List Nat) (s : State) :
    s.OnlyStopped (l.foldl (fun s k => (s.stopCore k).bump (.seqKills k)) s) :=
  .foldl (fun t k => (t.stopCore_onlyStopped k).trans (State.bump_told _ _).stopped) l s

theorem State.stopCores_stopped (l : List Nat) (s : State) {k : Nat} (hk : k ∈ l) :
    ((l.foldl (fun s k => (s.stopCore k).bump (.seqKills k)) s).core k).Stopped := by
  induction l generalizing s with
  | nil => cases hk
  | cons j l ih =>
    rw [List.foldl_cons]
    rcases List.mem_cons.mp hk with rfl | hk
    · exact (State.stopCores_onlyStopped l _).stays k ((State.bump_told _ _).stopped.stays k (s.stopCore_core_self k))
    · exact ih _ hk

/-! ### The kill -/

theorem State.dropReplies_told (s : State) (p c : Nat) (tag : BitVec 4) : s.OnlyTold (s.dropReplies p c tag) := by
  have hxacts (l : List Xact) : s.OnlyTold { s with xacts := l } := ⟨rfl, fun _ _ => rfl, rfl⟩
  exact (hxacts _).trans (.foldl (fun t _ => t.bump_told _) _ _)

/-- Dirty lines discarded and the share's lines marked empty are no part of cores and contexts (R146, R200). -/
theorem State.cleared_told (s : State) (p c : Nat) : s.OnlyTold ((s.dropDirty p c).emptyShare p c) := ⟨rfl, fun _ _ => rfl, rfl⟩

/-- A context whose step was killed, with its slots as they were at the start of the step (R200, R207, R418). -/
def Ctx.kill (x : Ctx) (f : StepFault) (te at' : Nat) : Ctx :=
  { x with live := false, boundary := true, killed := some f.code, te := te, endNclk := at', tag := x.tag + 1,
           slots := x.slots.map (fun e => (e.1, { e.2 with state := e.2.state0, flags := e.2.flags0 })) }

/-- The cores of a context stopped by a fault that `n` raised, the fault recorded, and what their step has begun discarded (R200, R207, R418). -/
def State.killCores (s : State) (p c n : Nat) (f : StepFault) (desc : Nat) : State :=
  (((((s.ctx p c).ranks.dedup.foldl (fun s k => (s.stopCore k).bump (.seqKills k)) s).note (.seqStatus n) (· ||| 2 ^ 31)).onCore n
    (fun k => k.record f desc)).dropDirty p c |>.emptyShare p c).dropReplies p c ((s.ctx p c).tag + 1)

/-- The step killed, before what becomes of the context is decided. -/
def State.killStep (s : State) (p c n : Nat) (f : StepFault) (desc : Nat) : State :=
  (s.killCores p c n f desc).onCtx p c (fun x =>
    { x.kill f (s.killCores p c n f desc).tide64 (s.killCores p c n f desc).nclk with tag := (s.ctx p c).tag + 1 })

/-- A fault that the context owes the report of, until its outcome is known (R497). -/
def State.owe (s : State) (p c n : Nat) (f : StepFault) (desc : Nat) : State :=
  s.onCtx p c (fun x => { x with owed := x.owed ++ [(n, f.code, desc)] })

/-- What becomes of a context by a fault that R515 does not excuse (R207, R208). -/
def State.judge (s : State) (p c n : Nat) (f : StepFault) (desc refault : Nat) : State :=
  match f with
  | .descriptor | .address | .trap | .overrun => s.halt p c n f desc
  | .preempt => s.seqReport n .ce f.code desc
  | .slotTimeout | .schedule | .barrierTimeout =>
    if refault ≥ 1 then s.halt p c n f desc
    else s.onCtx p c (fun x => { x with refault := x.refault + 1, owed := x.owed ++ [(n, f.code, desc)] })

theorem State.kill_of_live {s : State} {p c : Nat} (hlive : (s.ctx p c).live = true) (n : Nat) (f : StepFault) (desc : Nat) :
    s.kill p c n f desc = if s.excused p c n f then (s.killStep p c n f desc).owe p c n f desc
      else (s.killStep p c n f desc).judge p c n f desc (s.ctx p c).refault := by
  unfold State.kill
  dsimp only
  rw [hlive]
  rfl

/-- Every core of the context is stopped, and the fault recorded (R200, R207). -/
theorem State.killCores_stopped (s : State) (p c n : Nat) (f : StepFault) (desc : Nat) {k : Nat} (hk : k ∈ (s.ctx p c).ranks) :
    ((s.killCores p c n f desc).core k).Stopped := by
  have hstopped := State.stopCores_stopped (s.ctx p c).ranks.dedup s (List.mem_dedup.mpr hk)
  rw [State.killCores, (State.dropReplies_told _ p c _).core, (State.cleared_told _ p c).core]
  by_cases hkn : k = n
  · subst hkn
    rw [State.onCore_core, Core.record]
    split
    · exact hstopped
    · exact hstopped
  · rw [State.onCore_core_ne _ _ _ _ hkn]
    exact hstopped

theorem State.killCores_seq (s : State) (p c n : Nat) (f : StepFault) (desc : Nat) :
    ((s.killCores p c n f desc).core n).seq = ((s.core n).record f desc).seq := by
  have hseq := (State.stopCores_onlyStopped (s.ctx p c).ranks.dedup s).seq n
  rw [State.killCores, (State.dropReplies_told _ p c _).core, (State.cleared_told _ p c).core, State.onCore_core]
  generalize (s.ctx p c).ranks.dedup.foldl (fun s k => (s.stopCore k).bump (.seqKills k)) s = t at *
  change (Core.record (t.core n) f desc).seq = _
  have hvalid : (t.core n).seqValid = (s.core n).seqValid := congrArg Prod.fst hseq
  unfold Core.record
  rw [hvalid]
  split
  · exact hseq
  · rfl

theorem State.killCores_ctx (s : State) (p c n : Nat) (f : StepFault) (desc : Nat) (p' c' : Nat) :
    (s.killCores p c n f desc).ctx p' c' = s.ctx p' c' := by
  rw [State.killCores, (State.dropReplies_told _ p c _).ctx, (State.cleared_told _ p c).ctx]
  exact (State.stopCores_onlyStopped (s.ctx p c).ranks.dedup s).ctx p' c'

theorem State.killCores_within (s : State) (p c n : Nat) (f : StepFault) (desc : Nat) : s.WithinStep (s.killCores p c n f desc) := by
  have hstopped := (State.stopCores_onlyStopped (s.ctx p c).ranks.dedup s).within
  unfold State.killCores
  generalize (s.ctx p c).ranks.dedup.foldl (fun s k => (s.stopCore k).bump (.seqKills k)) s = t at *
  have hrecorded : t.WithinStep ((t.note (.seqStatus n) (· ||| 2 ^ 31)).onCore n (fun k => k.record f desc)) := rfl
  exact ((hstopped.trans hrecorded).trans (State.cleared_told _ p c).within).trans (State.dropReplies_told _ p c _).within

/-- Nothing changed but the state of a context and what it has been faulted for and owes (R207, R208, R497). -/
structure State.OnlyJudged (p c : Nat) (s t : State) : Prop where
  cores : t.cores = s.cores
  ctx : t.ctx p c = { s.ctx p c with
    st := (t.ctx p c).st, haltFault := (t.ctx p c).haltFault, refault := (t.ctx p c).refault, owed := (t.ctx p c).owed }
  within : s.WithinStep t

theorem State.OnlyJudged.trans {p c : Nat} {s t u : State} (h : State.OnlyJudged p c s t) (h' : State.OnlyJudged p c t u) :
    State.OnlyJudged p c s u :=
  ⟨h'.cores.trans h.cores, h'.ctx.trans (by rw [h.ctx]), h.within.trans h'.within⟩

theorem State.OnlyJudged.ite {p c : Nat} {s t u : State} {b : Prop} [Decidable b] (h : State.OnlyJudged p c s t) (h' : State.OnlyJudged p c s u) :
    State.OnlyJudged p c s (if b then t else u) := by
  split
  · exact h
  · exact h'

theorem State.OnlyJudged.core {p c : Nat} {s t : State} (h : State.OnlyJudged p c s t) (k : Nat) : t.core k = s.core k :=
  congrArg (fun m : SMap Core => m.getD k {}) h.cores

theorem State.OnlyTold.judged {s t : State} (h : s.OnlyTold t) (p c : Nat) : State.OnlyJudged p c s t := ⟨h.cores, by rw [h.ctx], h.within⟩

theorem State.onCtx_judged (s : State) (p c : Nat) {f : Ctx → Ctx}
    (hf : ∀ x, f x = { x with st := (f x).st, haltFault := (f x).haltFault, refault := (f x).refault, owed := (f x).owed }) :
    State.OnlyJudged p c s (s.onCtx p c f) := by
  refine ⟨rfl, ?_, rfl⟩
  rw [State.onCtx_ctx]
  exact hf _

theorem State.ctxEvent_told (s : State) (p c fault : Nat) : s.OnlyTold (s.ctxEvent p c fault) := s.event_told _ _ _

/-- A context halted by a fault (R208). -/
theorem State.halt_judged (s : State) (p c n : Nat) (f : StepFault) (desc : Nat) : State.OnlyJudged p c s (s.halt p c n f desc)
    ∧ ((s.halt p c n f desc).ctx p c).st = .halted ∧ ((s.halt p c n f desc).ctx p c).haltFault = f.code := by
  have hpaid := State.payOwed_told (s.onCtx p c (fun x => { x with st := .halted, haltFault := f.code, refault := 0 })) p c .ucu
  have htold := (hpaid.trans (State.seqReport_told _ n .ucu f.code desc)).trans (State.ctxEvent_told _ p c f.code)
  unfold State.halt
  dsimp only
  refine ⟨(s.onCtx_judged p c fun _ => rfl).trans ((State.onCtx_judged _ p c fun _ => rfl).trans (State.OnlyTold.judged htold p c)), ?_, ?_⟩
  · rw [htold.ctx, State.onCtx_ctx, State.onCtx_ctx]
  · rw [htold.ctx, State.onCtx_ctx, State.onCtx_ctx]

theorem State.owe_judged (s : State) (p c n : Nat) (f : StepFault) (desc : Nat) : State.OnlyJudged p c s (s.owe p c n f desc) :=
  s.onCtx_judged p c fun _ => rfl

theorem State.judge_judged (s : State) (p c n : Nat) (f : StepFault) (desc refault : Nat) :
    State.OnlyJudged p c s (s.judge p c n f desc refault) := by
  cases f with
  | descriptor | address | trap | overrun => exact (s.halt_judged p c n _ desc).1
  | preempt => exact (s.seqReport_told _ _ _ _).judged p c
  | slotTimeout | schedule | barrierTimeout =>
    exact State.OnlyJudged.ite (s.halt_judged p c n _ desc).1 (s.onCtx_judged p c fun _ => rfl)

/-- A descriptor, address, trap or overrun fault halts its context (R208). -/
theorem State.judge_halts (s : State) (p c n : Nat) {f : StepFault} (hf : f.code ≤ 3 ∨ f.code = 7) (desc refault : Nat) :
    ((s.judge p c n f desc refault).ctx p c).st = .halted ∧ ((s.judge p c n f desc refault).ctx p c).haltFault = f.code := by
  cases f with
  | descriptor | address | trap | overrun => exact (s.halt_judged p c n _ desc).2
  | preempt | slotTimeout | schedule | barrierTimeout => exact absurd hf (by decide)

theorem State.killStep_ctx (s : State) (p c n : Nat) (f : StepFault) (desc : Nat) :
    (s.killStep p c n f desc).ctx p c = (s.ctx p c).kill f s.tide64 s.nclk := by
  have hwithin := s.killCores_within p c n f desc
  rw [State.killStep, State.onCtx_ctx, s.killCores_ctx, hwithin.tide64, hwithin.nclk, Ctx.kill]

section
variable {s : State} {p c : Nat} (hlive : (s.ctx p c).live = true) (n : Nat) (f : StepFault) (desc : Nat)
include hlive

theorem State.kill_judged : State.OnlyJudged p c (s.killStep p c n f desc) (s.kill p c n f desc) := by
  rw [State.kill_of_live hlive]
  split
  · exact State.owe_judged _ _ _ _ _ _
  · exact State.judge_judged _ _ _ _ _ _ _

/-- A kill ends the step of its context, with a new generation of its transactions (R200, R207, R418). -/
theorem State.kill_ctx : (s.kill p c n f desc).ctx p c = { (s.ctx p c).kill f s.tide64 s.nclk with
    st := ((s.kill p c n f desc).ctx p c).st, haltFault := ((s.kill p c n f desc).ctx p c).haltFault,
    refault := ((s.kill p c n f desc).ctx p c).refault, owed := ((s.kill p c n f desc).ctx p c).owed } := by
  conv_lhs => rw [(State.kill_judged hlive n f desc).ctx, State.killStep_ctx]

theorem State.kill_core (k : Nat) : (s.kill p c n f desc).core k = (s.killCores p c n f desc).core k :=
  (State.kill_judged hlive n f desc).core k

theorem State.kill_within : s.WithinStep (s.kill p c n f desc) := by
  have hended : (s.killCores p c n f desc).WithinStep (s.killStep p c n f desc) := rfl
  exact ((s.killCores_within p c n f desc).trans hended).trans (State.kill_judged hlive n f desc).within

end

/-- A value read from a map whose values were changed. -/
theorem SMap.getD_map {α : Type} (m : SMap α) (f : α → α) (k : Nat) (d : α) :
    SMap.getD (m.map (fun e => (e.1, f e.2))) k (f d) = f (m.getD k d) := by
  induction m with
  | nil => rfl
  | cons e m ih =>
    obtain ⟨a, x⟩ := e
    unfold SMap.getD at ih ⊢
    rw [List.map_cons, SMap.get, SMap.get]
    split
    · rfl
    · exact ih

/-- A kill restores the slots' state and flag words (R200, R201). -/
theorem State.kill_slot {s : State} {p c : Nat} (hlive : (s.ctx p c).live = true) (n : Nat) (f : StepFault) (desc rank k : Nat) :
    (s.kill p c n f desc).slot p c rank k
      = { s.slot p c rank k with state := (s.slot p c rank k).state0, flags := (s.slot p c rank k).flags0 } := by
  rw [State.slot, State.kill_ctx hlive]
  exact SMap.getD_map (s.ctx p c).slots (fun t => { t with state := t.state0, flags := t.flags0 }) (rank * 256 + k) {}

end Sys2Proof.Machine
end

section
/-!
PROOF. Faults, waits that last too long, and the delivery of traps (R103, R120, R145, R147, R180-R183, R200-R208, R418, R515).
-/

namespace Sys2Proof.Machine

/-! ### One command of each class -/

theorem State.mapElems_takesUp (s : State) (n : Nat) (k : OpCode) (sh : ElemShape) (d : Desc) (fn : RM → FSpec → FSpec → ElemFn) :
    s.TakesUp n k d (s.mapElems n k sh d fn) :=
  s.rounded_takesUp n k d fun _ => s.operate_takesUp n { code := k } d _ _

theorem State.branch_takesUp (s : State) (n kind : Nat) (d : Desc) (pan : Bool) :
    s.TakesUp n (branchCode kind pan) d (s.branch n kind d pan) := by
  unfold State.branch
  exact s.control_takesUp n _ d _ _

/-- The operations that the statement names, one of each class, have their descriptors taken up. -/
theorem exec_takesUp (s : State) (n : Fin 32) (d : Desc) :
    ∀ k ∈ [(Instr.add n d, (⟨2, 0⟩ : OpCode)), (.copy n d, ⟨0, 0⟩), (.gemm n d false false false false, ⟨1, 0⟩), (.test n d, ⟨2, 0x18⟩),
      (.ldltDense n d, ⟨4, 0⟩), (.trsolveFull n d, ⟨5, 3⟩), (.div n d, ⟨6, 0⟩), (.conv n d, ⟨8, 0⟩), (.barrier n d, ⟨9, 0⟩),
      (.commit n d, ⟨0xA, 0⟩), (.jump n ⟨d, false⟩, ⟨0xB, 1⟩), (.fbar n d, ⟨0xC, 0⟩)],
      ∃ t, exec k.1 s = .next t ∧ s.TakesUp n.val k.2 d t ∧ k.2.known = true := by
  simp only [List.forall_mem_cons]
  refine ⟨?add, ?copy, ?gemm, ?test, ?ldlt, ?trsolve, ?div, ?conv, ?barrier, ?commit, ?jump, ?fbar, List.forall_mem_nil _⟩
  case copy => exact ⟨_, rfl, s.move_takesUp _ _ _, rfl⟩
  case jump => exact ⟨_, rfl, s.branch_takesUp _ 1 _ false, rfl⟩
  case gemm =>
    exact ⟨s.operate n.val { code := gemmCode false false false false, narrow := false, dp := true, useK := true } d
      (fun _ => gemmOpnds d false false false) (fun s t => s.gemmRun n d false false false t), rfl, State.operate_takesUp _ _ _ _ _ _, rfl⟩
  case barrier | commit | fbar => exact ⟨_, rfl, s.control_takesUp _ _ _ _ _, rfl⟩
  case add | div | conv => exact ⟨_, rfl, s.mapElems_takesUp _ _ _ _ _, rfl⟩
  case test => exact ⟨_, rfl, s.rounded_takesUp _ _ _ fun _ => s.operate_takesUp _ { code := ⟨2, 0x18⟩ } _ _ _, rfl⟩
  case ldlt => exact ⟨_, rfl, s.rounded_takesUp _ _ _ fun _ => s.operate_takesUp _ { code := ⟨4, 0⟩, narrow := false } _ _ _, rfl⟩
  case trsolve =>
    exact ⟨_, rfl, s.rounded_takesUp _ _ _ fun _ => s.operate_takesUp _ { code := ⟨5, 3⟩, narrow := false, useK := true } _ _ _, rfl⟩

/-- What a command does with a descriptor that it may not take up. -/
theorem State.TakesUp.faults {s t : State} {n p c r : Nat} {k f : OpCode} {d e : Desc} {h : StepProg} {g : StepFault → State}
    (u : s.TakesUp n k d t) (hk : k.known = true) (hi : s.issuing n = some (p, c, r, h))
    (hf : (s.fetchDesc n (s.core n).next).1 = (f, e)) (hg : ∀ x, g x = s.faultAt n x (s.core n).next) :
    (h.maxIssue ≤ (s.core n).issued → t = g .overrun)
    ∧ ((s.core n).issued < h.maxIssue →
      (f.known = false → t = g .descriptor) ∧ (f.known = true → (f, e) ≠ (k, d) → t = s)
      ∧ ((f, e) = (k, d) →
          (d.rsv0 ≠ 0 ∨ d.subExtra ≠ 0 ∨ d.rsv9 ≠ 0 ∨ d.rsv12 ≠ 0 ∨ d.rm = 5 ∨ d.rm = 6 ∨ d.slotStride.toNat % 64 ≠ 0) →
          t = g .descriptor)) := by
  rw [hg, hg]
  exact ⟨u.overrun hi, fun hmax => ⟨u.unknown hi hf hmax, u.other hi hf hmax,
    fun heq hreserved => u.reserved hi hf hmax hk heq (descPlain_of_reserved hreserved)⟩⟩

/-! ### The fault record -/

theorem Core.seq_record_of_clear {k : Core} (h : k.seqValid = false) (f : StepFault) (desc : Nat) :
    (k.record f desc).seq = (true, f.code, desc) := by
  rw [Core.record, h]
  rfl

theorem Core.record_of_valid {k : Core} (h : k.seqValid = true) (f : StepFault) (desc : Nat) : k.record f desc = k := by
  rw [Core.record, h]
  rfl

/-! ### Waits that last too long -/

/-- Whether a core's wait is at a barrier, and has lasted longer than BARRIER_WAIT (R206). -/
def State.barrierLate (s : State) (h : StepProg) (w : (Wait × Nat) × Nat) : Bool :=
  Wait.barred (some w.1) && h.barrierWait < 2 * (s.nclk - w.1.2)

theorem State.barrierLate_iff (s : State) (h : StepProg) (w : (Wait × Nat) × Nat) :
    s.barrierLate h w = true ↔ Wait.barred (some w.1) = true ∧ h.barrierWait < 2 * (s.nclk - w.1.2) := by
  simp [State.barrierLate]

theorem exec_barrierTimeout {s : State} {n : Fin 32} (hr : s.inReset = false) {h : StepProg} (hh : s.header n.val = some h) :
    exec (.barrierTimeout n) s = .next (match (s.core n.val).waits.find? (s.barrierLate h) with
      | some w => s.fault n.val s.waitFault (w.2 - 1)
      | none => s) := by
  change execBarrierTimeout n s = _
  unfold execBarrierTimeout
  rw [hh, hr]
  rfl

/-- The descriptor that a core's wait faults at, where it is for a full/empty line and has lasted SLOT_WAIT (R147). -/
def State.slotLate (s : State) (n : Nat) (w : (Wait × Nat) × Nat) : Option Nat :=
  match w.1.1 with
  | .fullEmpty _ _ _ op => if s.slotWait n ≤ 2 * (s.nclk - w.1.2) then some op.desc else none
  | _ => none

theorem exec_slotTimeout {s : State} {n : Fin 32} (hr : s.inReset = false) :
    exec (.slotTimeout n) s = .next (match (s.core n.val).waits.findSome? (s.slotLate n.val) with
      | some i => s.fault n.val .slotTimeout i
      | none => s) := by
  change execSlotTimeout n s = _
  unfold execSlotTimeout
  rw [hr]
  rfl

theorem State.slotLate_eq_some {s : State} {n i : Nat} {w : (Wait × Nat) × Nat} (h : s.slotLate n w = some i) :
    ∃ x l b op, w.1.1 = .fullEmpty x l b op ∧ s.slotWait n ≤ 2 * (s.nclk - w.1.2) ∧ op.desc = i := by
  unfold State.slotLate at h
  split at h
  next x l b op heq => exact ⟨x, l, b, op, heq, by simpa using h⟩
  · cases h

theorem State.slotLate_fullEmpty (s : State) (n : Nat) {w : (Wait × Nat) × Nat} {x : Bool} {l : List (Option Nat × Nat × Nat)}
    {b : List (Option Nat)} {op : OutOp} (h : w.1.1 = .fullEmpty x l b op) :
    s.slotLate n w = if s.slotWait n ≤ 2 * (s.nclk - w.1.2) then some op.desc else none := by
  unfold State.slotLate
  rw [h]

/-! ### Traps -/

theorem exec_trapDelivery {s : State} {n : Fin 32} (hr : s.inReset = false) : exec (.trapDelivery n) s = .next (s.deliverTrap n.val) := by
  change execTrapDelivery n s = _
  rw [execTrapDelivery, hr]
  rfl

/-- A core whose first trap is recorded in TRAP_INFO and TRAP_LANES (R120, R207). -/
def Core.recordTrap (k : Core) (x : TrapRec) (r : List TrapRec) : Core :=
  { k with traps := r, trapInfo := BitVec.ofNat 32 (2 ^ 31 + x.flags.toNat * 2 ^ 24 + x.desc % 65536), trapLanes := x.lanes.setWidth 32 }

theorem State.deliverTrap_of_cons {s : State} {n : Nat} {x : TrapRec} {r : List TrapRec} (h : (s.core n).traps = x :: r) :
    s.deliverTrap n = if (s.core n).trapInfo.getLsbD 31 then s.onCore n (fun k => { k with traps := r })
      else ((s.note (.trapInfo n) (· ||| 2 ^ 31)).onCore n (fun k => k.recordTrap x r)).fault n .trap x.desc := by
  unfold State.deliverTrap
  rw [h]
  rfl

/-- Settles O53: each fault at issue, the kill, the two time-outs and the delivery of a trap by the lemmas about them. -/
theorem faultsAndWaits : Obligations.FaultsAndWaits := by
  refine ⟨⟨?issue, ?kill⟩, ?waits⟩
  case issue =>
    rintro s u n d e p c h f g hi hf rfl hg k hk
    obtain ⟨t, hexec, htakes, hknown⟩ := exec_takesUp s n d k hk
    obtain ⟨hover, hwithin⟩ := htakes.faults hknown hi hf hg
    rw [hexec]
    refine ⟨fun hmax => congrArg _ (hover hmax), fun hmax => ?_⟩
    obtain ⟨hunknown, hother, hreserved⟩ := hwithin hmax
    exact ⟨fun hf => congrArg _ (hunknown hf), fun hf hne => congrArg _ (hother hf hne), fun heq hr => congrArg _ (hreserved heq hr)⟩
  case kill =>
    intro s p c n f desc hlive
    have hseq : ((s.kill p c n f desc).core n).seq = ((s.core n).record f desc).seq := by rw [State.kill_core hlive, State.killCores_seq]
    have hkill := State.kill_of_live hlive n f desc
    have hst : ((s.killStep p c n f desc).ctx p c).st = (s.ctx p c).st ∧ ((s.killStep p c n f desc).ctx p c).refault = (s.ctx p c).refault := by
      rw [State.killStep_ctx]
      exact ⟨rfl, rfl⟩
    have hwithin := State.kill_within hlive n f desc
    refine ⟨?ctx, fun k hk => ?stopped, fun rank k => State.kill_slot hlive n f desc rank k, fun _ hvalid => ?recorded, fun hvalid => ?kept,
      fun hex => ?excused, fun hf hmap => ?remapping, fun hex hf => ?halts, fun hf => ?preempt, hwithin.regs, hwithin.jobs, hwithin.queues⟩
    case ctx =>
      conv_lhs => rw [State.kill_ctx hlive]
      rw [State.kill_ctx hlive]
      rfl
    case stopped =>
      rw [State.kill_core hlive]
      exact s.killCores_stopped p c n f desc hk
    case recorded =>
      rw [Core.seq_record_of_clear hvalid] at hseq
      simpa [Core.seq] using hseq
    case kept =>
      rw [Core.record_of_valid hvalid] at hseq
      exact ⟨congrArg (·.2.1) hseq, congrArg (·.2.2) hseq⟩
    case excused =>
      rw [hkill, hex, if_pos rfl, State.owe, State.onCtx_ctx]
      exact hst
    case remapping =>
      simp [State.excused, hf, hmap]
    case halts =>
      rw [hkill, hex]
      exact State.judge_halts _ p c n hf _ _
    case preempt =>
      subst hf
      have htold := (s.killStep p c n .preempt desc).seqReport_told n .ce StepFault.preempt.code desc
      rw [hkill, show s.excused p c n .preempt = false from rfl, if_neg Bool.false_ne_true]
      exact (congrArg Ctx.st (htold.ctx p c)).trans hst.1
  case waits =>
    intro s n h hr hh
    rw [exec_barrierTimeout hr hh, exec_slotTimeout hr]
    refine ⟨fun hlate => ?_, fun hnone => ?_, fun hlate => ?_, fun hnone => ?_, fun x r htraps => ⟨fun hvalid => ?_, fun hvalid => ?_⟩⟩
    · obtain ⟨w, hw, hpast⟩ := hlate
      cases hfind : (s.core n.val).waits.find? (s.barrierLate h) with
      | none => exact absurd ((s.barrierLate_iff h w).mpr hpast) (List.find?_eq_none.mp hfind w hw)
      | some y =>
        obtain ⟨hbarred, hlong⟩ := (s.barrierLate_iff h y).mp (List.find?_some hfind)
        exact ⟨y, List.mem_of_find?_eq_some hfind, hbarred, hlong, rfl⟩
    · rw [List.find?_eq_none.mpr fun w hw hpast => ?_]
      obtain ⟨hbarred, hlong⟩ := (s.barrierLate_iff h w).mp hpast
      exact Nat.not_lt.mpr (hnone w hw hbarred) hlong
    · obtain ⟨w, hw, x, l, b, op, hwait, hlong⟩ := hlate
      cases hfind : (s.core n.val).waits.findSome? (s.slotLate n.val) with
      | none =>
        have hnone := List.findSome?_eq_none_iff.mp hfind w hw
        rw [s.slotLate_fullEmpty n.val hwait, State.slotWait, if_pos hlong] at hnone
        cases hnone
      | some i =>
        obtain ⟨y, hy, hlate⟩ := List.exists_of_findSome?_eq_some hfind
        obtain ⟨x, l, b, op, hwait, hlong, rfl⟩ := State.slotLate_eq_some hlate
        exact ⟨y, hy, x, l, b, op, hwait, hlong, rfl⟩
    · rw [List.findSome?_eq_none_iff.mpr fun w hw => ?_]
      cases hlate : s.slotLate n.val w with
      | none => rfl
      | some i =>
        obtain ⟨x, l, b, op, hwait, hlong, rfl⟩ := State.slotLate_eq_some hlate
        exact absurd hlong (Nat.not_le.mpr (hnone w hw x l b op hwait))
    · rw [exec_trapDelivery hr, State.deliverTrap_of_cons htraps, if_pos hvalid]
      refine ⟨_, rfl, rfl, State.onCore_core _ _ _, fun k hk => State.onCore_core_ne _ _ _ _ hk⟩
    · rw [exec_trapDelivery hr, State.deliverTrap_of_cons htraps, if_neg (by rw [hvalid]; exact Bool.false_ne_true)]
      refine ⟨_, _, rfl, rfl, fun k hk => State.onCore_core_ne _ _ _ _ hk, rfl, State.onCore_core _ _ _⟩

end Sys2Proof.Machine
end

section
/-!
PROOF. A descriptor that waits for the whole pan (R94, R190, R203): what its streamed weights change, and its wait.
-/

namespace Sys2Proof.Machine

/-! ### Streamed weights (R317) -/

theorem State.WithinStep.ite {s t u : State} {b : Prop} [Decidable b] (h : s.WithinStep t) (h' : s.WithinStep u) :
    s.WithinStep (if b then t else u) := by
  split
  · exact h
  · exact h'

theorem State.onCore_within (s : State) (n : Nat) (f : Core → Core) : s.WithinStep (s.onCore n f) := rfl

theorem State.stageLayer_within (s : State) (p c n rank k : Nat) (bad : Bool) : s.WithinStep (s.stageLayer p c n rank k bad) := by
  unfold State.stageLayer
  dsimp only
  split
  · exact .refl s
  · exact (s.place_onlyBuffered _ _ _).within

theorem State.pageCame_within (s : State) (p c n rank k : Nat) (bad : Bool) : s.WithinStep (s.pageCame p c n rank k bad) := by
  unfold State.pageCame
  dsimp only
  split
  · exact .refl s
  · exact .ite ((s.onCore_within n _).trans (State.stageLayer_within _ _ _ _ _ _ _)) (s.onCore_within n _)

theorem State.askLayer_within (s : State) (p c n k : Nat) : s.WithinStep (s.askLayer p c n k) := by
  have hasked (b : Nat) (f : Core → Core) (l : List Xact) : s.WithinStep { (s.chargeBy p .hbus 4096 b).onCore n f with xacts := l } :=
    (s.chargeBy_onlyCharged _ _ _ _).withinStep.trans rfl
  unfold State.askLayer
  dsimp only
  split
  · exact .refl s
  · exact .ite ((hasked _ _ _).trans (State.pageCame_within _ p c n _ _ _)) (hasked _ _ _)

theorem State.askTo_within (s : State) (p c n k : Nat) : s.WithinStep (s.askTo p c n k) :=
  have first : s.WithinStep (if (s.core n).asked ≤ k then s.askLayer p c n k else s) := .ite (s.askLayer_within _ _ _ _) (.refl s)
  .ite (first.trans (State.askLayer_within _ _ _ _ _)) first

theorem State.touchHalf_within (s : State) (p c n h : Nat) : s.WithinStep (s.touchHalf p c n h) :=
  (s.onCore_within n _).trans (State.askTo_within _ _ _ _ _)

theorem State.streamTouch_within (s : State) (p c n : Nat) (rds : List (Nat × Nat)) : s.WithinStep (s.streamTouch p c n rds) := by
  have first (b : Bool) : s.WithinStep (if b then s.touchHalf p c n 0 else s) := .ite (s.touchHalf_within _ _ _ _) (.refl s)
  unfold State.streamTouch
  dsimp only
  exact .ite (.refl s) (.ite ((first _).trans (State.touchHalf_within _ _ _ _ _)) (first _))

/-! ### The wait -/

/-- A descriptor that combines its operands over the pan waits for every core of the context, once everything earlier is complete (R94, R190). -/
theorem State.gather_waits {s v u : State} {n p c : Nat} {h : StepProg} {k : OpCode} {d : Desc} {dp useK : Bool}
    {opnds : Option Nat → Except StepFault (List Opnd × List Opnd)} {os : List (List Opnd × List Opnd)} (a : s.AtDesc n p c h k d)
    (hk : k.known = true) (hops : (s.core n).ops = []) (hv : v = s.counted n) (hst : ∃ st, v.statusAt n h d = .ok st)
    (hplain : descPlain d dp useK = true) (hos : v.checkTargets n (v.runsFor n p c d) opnds = .ok os)
    (hu : u = v.touched n p c d (os.map Prod.fst) (baseOpnds (opnds none))) (hdue : u.layerDue n = false) (w : Nat → Wait) :
    s.gather n k d dp useK opnds w = ((u.onCore n (fun k =>
      { k with wait := some (w (s.core n).next, s.nclk), waitRec := none })).passTurn n).passEnd n := by
  obtain ⟨st, hst⟩ := hst
  have hstands : s.SeqStands v := hv ▸ s.counted_stands n
  have hrun : (v.core n).run = some (p, c) := (hstands.run n).trans a.run
  have hheader : v.header n = some h := by
    rw [State.header, hrun]
    exact (hstands.prog _ _ _).trans (hstands.rank n ▸ a.prog)
  have hempty : (v.core n).ops = [] := (hstands.ops n).trans hops
  have htargets : v.coreTargets n d = v.runsFor n p c d := by rw [State.coreTargets, hrun]; rfl
  have hnclk : u.nclk = s.nclk := by
    rw [hu, hv]
    exact ((s.counted_within n).trans (State.streamTouch_within _ _ _ _ _)).nclk
  rw [State.touched, State.spansAll, List.flatMap_map] at hu
  rw [← hnclk]
  refine a.issue_done hk ?_
  rw [← hv]
  simp only [hrun, hplain, hheader, Option.getD_some, hst, State.drain_of_ops_nil hempty, hempty, htargets, hos, ← hu, hdue, bind, Except.bind,
    Bool.not_true, Bool.false_eq_true, if_false, ne_eq, not_true_eq_false]
  rfl

theorem panReduceCode_known {sub : Nat} (h : sub < 5) (axis : Bool) : (OpCode.mk 3 (sub + 8 * bitN axis + 16)).known = true := by
  cases axis <;> simp [OpCode.known, bitN] <;> omega

theorem gemmCode_known (cin ta tb pank : Bool) : (gemmCode cin ta tb pank).known = true := by
  revert cin ta tb pank
  decide

/-- The REDUCEs with PAN are the commands of one operation (R190). -/
theorem exec_reducePan (s : State) (n : Fin 32) (d : Desc) (axis : Bool) : ∀ x ∈ [(0, Instr.reduceSum n d axis true),
      (1, Instr.reduceMax n d axis true), (2, Instr.reduceMin n d axis true), (3, Instr.normInf n d axis true), (4, Instr.sumsq n d axis true)],
    x.1 < 5 ∧ exec x.2 s = .next (s.reduce n.val d x.1 axis true) := by
  simp only [List.forall_mem_cons]
  exact ⟨⟨by decide, rfl⟩, ⟨by decide, rfl⟩, ⟨by decide, rfl⟩, ⟨by decide, rfl⟩, ⟨by decide, rfl⟩, List.forall_mem_nil _⟩

theorem State.reduce_pan {s : State} {n : Nat} {d : Desc} (hrm : (s.rmOf n d).isSome = true) (sub : Nat) (axis : Bool) :
    s.reduce n d sub axis true = s.gather n ⟨3, sub + 8 * bitN axis + 16⟩ d false false (reduceOpnds d axis) (.reduce d sub axis) := by
  obtain ⟨rm, hrm⟩ := Option.isSome_iff_exists.mp hrm
  exact State.rounded_of_rmOf hrm _ _

end Sys2Proof.Machine
end

section
/-!
PROOF. The release of a barrier (R94, R190, R195, R203, R516): the ranks that wait, the cores that go on, and what each kind of barrier then does.
-/

namespace Sys2Proof.Machine

/-! ### Ranks and their turns -/

theorem State.turnTo_of_turns_nil {s : State} {n : Nat} (h : (s.core n).turns = []) (rank : Nat) : s.turnTo n rank = s := by
  rw [State.turnTo, h]
  rfl

theorem State.turnTo_core_ne (s : State) (n rank : Nat) {k : Nat} (h : k ≠ n) : (s.turnTo n rank).core k = s.core k := by
  unfold State.turnTo
  split
  · rfl
  · exact State.onCore_core_ne _ _ _ _ h

theorem rankCores_fst (rs : List Nat) : (rankCores rs).map Prod.fst = rs := List.map_fst_zip (by simp)

theorem mem_of_mem_rankCores {rs : List Nat} {x : Nat × Nat} (h : x ∈ rankCores rs) : x.1 ∈ rs := (List.of_mem_zip h).1

/-- The first core of a context has rank 0, and no other has. -/
theorem rank_of_mem_rankCores {rs : List Nat} (hnodup : rs.Nodup) {x : Nat × Nat} (h : x ∈ rankCores rs) : x.2 = 0 ↔ rs.head? = some x.1 := by
  cases rs with
  | nil => cases h
  | cons a l =>
    rw [rankCores, List.length_cons, List.range_succ_eq_map, List.zip_cons_cons, List.mem_cons] at h
    rcases h with rfl | h
    · simp
    · have hrank := (List.of_mem_zip h).2
      have hcore := (List.of_mem_zip h).1
      have hne : a ≠ x.1 := fun heq => (List.nodup_cons.mp hnodup).1 (heq ▸ hcore)
      obtain ⟨r, -, hr⟩ := List.mem_map.mp hrank
      simp [← hr, hne]

/-- What every rank of a context waits for, where all of them wait alike. -/
def waitsOf (rs : List Nat) (w : Wait) : List (Nat × Nat × Wait) := (rankCores rs).map (fun x => (x.1, x.2, w))

theorem core_mem_of_mem_waitsOf {rs : List Nat} {w : Wait} {y : Nat × Nat × Wait} (h : y ∈ waitsOf rs w) : y.1 ∈ rs := by
  obtain ⟨x, hx, rfl⟩ := List.mem_map.mp h
  exact mem_of_mem_rankCores hx

theorem waitsOf_fst (rs : List Nat) (w : Wait) : (waitsOf rs w).map Prod.fst = rs := by
  rw [waitsOf, List.map_map]
  exact rankCores_fst rs

/-- What is done for every rank that waits is done for every core, where it depends on the core alone. -/
theorem foldl_waitsOf (rs : List Nat) (w : Wait) (f : State → Nat → State) (s : State) :
    (waitsOf rs w).foldl (fun s y => f s y.1) s = rs.foldl f s := by
  conv_rhs => rw [← waitsOf_fst rs w, List.foldl_map]

/-- Every rank has a core of its own, and no turn to wait for: what is done for each in turn is done on its core. -/
theorem foldl_turnTo {α : Type} (l : List α) (core rank : α → Nat) {f : State → α → State}
    (hf : ∀ t y k, (t.core k).turns = [] → ((f t y).core k).turns = []) {s : State} (hs : ∀ y ∈ l, (s.core (core y)).turns = []) :
    l.foldl (fun s y => f (s.turnTo (core y) (rank y)) y) s = l.foldl f s := by
  induction l generalizing s with
  | nil => rfl
  | cons y l ih =>
    rw [List.foldl_cons, List.foldl_cons, State.turnTo_of_turns_nil (hs y (List.mem_cons_self ..))]
    exact ih fun z hz => hf _ _ _ (hs z (List.mem_cons_of_mem _ hz))

/-- What changes nothing for any element of a list changes nothing. -/
theorem foldl_of_fixed {α : Type} {f : State → α → State} {s : State} (l : List α) (h : ∀ y ∈ l, f s y = s) : l.foldl f s = s := by
  induction l with
  | nil => rfl
  | cons y l ih => rw [List.foldl_cons, h y (List.mem_cons_self ..), ih fun z hz => h z (List.mem_cons_of_mem _ hz)]

/-! ### The ranks that wait -/

theorem Core.waitAt_of_turns_nil {k : Core} (hturns : k.turns = []) (rank : Nat) {w : Wait} {at' : Nat} (hw : k.wait = some (w, at'))
    (hstep : k.stepping = true) (hbar : Wait.barred (some (w, at')) = true) : k.waitAt rank = some w := by
  unfold Core.waitAt
  rw [if_pos (.inl hturns), hw, hstep]
  cases w with
  | fullEmpty => cases hbar
  | barrier | branch | reduce | gemm => rfl

theorem Core.waitAt_of_going {k : Core} (hturns : k.turns = []) (rank : Nat) (hw : k.wait = none) : k.waitAt rank = none := by
  unfold Core.waitAt
  rw [if_pos (.inl hturns), hw]

theorem mapM_eq_some {α β : Type} {f : α → Option β} {g : α → β} (l : List α) (h : ∀ x ∈ l, f x = some (g x)) :
    l.mapM f = some (l.map g) := by
  induction l with
  | nil => rfl
  | cons x l ih =>
    rw [List.mapM_cons, h x (List.mem_cons_self ..), ih fun y hy => h y (List.mem_cons_of_mem _ hy)]
    rfl

theorem mapM_eq_none {α β : Type} {f : α → Option β} {l : List α} {x : α} (hx : x ∈ l) (h : f x = none) : l.mapM f = none := by
  induction l with
  | nil => cases hx
  | cons y l ih =>
    rw [List.mapM_cons]
    rcases List.mem_cons.mp hx with rfl | hx
    · rw [h]
      rfl
    · rw [ih hx]
      cases f y <;> rfl

/-! ### The cores that go on -/

theorem State.OnlyBuffered.stands {s t : State} (h : s.OnlyBuffered t) : s.SeqStands t where
  core k := by rw [h.core k]; rfl
  ctx := h.ctx
  sec := h.within.sec

theorem State.SeqStands.header {s t : State} (h : s.SeqStands t) (n : Nat) : t.header n = s.header n := by
  simp only [State.header, h.run, h.rank, h.prog]

theorem State.SeqStands.branchTakes {s t : State} (h : s.SeqStands t) (p c : Nat) (rs : List Nat) (kind : Nat) (m v : BitVec 16) :
    t.branchTakes p c rs kind m v = s.branchTakes p c rs kind m v := by
  simp only [State.branchTakes, State.slot, h.prog, h.ctx]

/-- A core that waits no more. -/
def Core.going (k : Core) : Core := { k with wait := none, waitRec := none }

theorem State.resume_core_self (s : State) (n : Nat) :
    (s.resume n).core n = { (s.core n).going with buf := ((s.resume n).core n).buf } := by
  have hcore := (State.putRecord_onlyBuffered (s.onCore n Core.going) n (s.core n).waitRec).core n
  rw [State.onCore_core] at hcore
  exact hcore

theorem State.resume_core_ne (s : State) {n k : Nat} (h : k ≠ n) : (s.resume n).core k = { s.core k with buf := ((s.resume n).core k).buf } := by
  have hcore := (State.putRecord_onlyBuffered (s.onCore n Core.going) n (s.core n).waitRec).core k
  rw [State.onCore_core_ne _ _ _ _ h] at hcore
  exact hcore

theorem State.resume_stands (s : State) (n : Nat) : s.SeqStands (s.resume n) :=
  (s.onCore_stands n (f := Core.going) fun _ => rfl).trans (State.putRecord_onlyBuffered _ n _).stands

theorem State.resume_within (s : State) (n : Nat) : s.WithinStep (s.resume n) :=
  (s.onCore_within n Core.going).trans (State.putRecord_onlyBuffered _ n _).within

/-- Cores that go on from a barrier are as they were, but for their waits and their buffers. -/
theorem State.resumeAll_core (l : List Nat) (s : State) (k : Nat) : (l.foldl State.resume s).core k =
    { (if k ∈ l then (s.core k).going else s.core k) with buf := ((l.foldl State.resume s).core k).buf } := by
  induction l generalizing s with
  | nil => rfl
  | cons n l ih =>
    rw [List.foldl_cons]
    conv_lhs => rw [ih]
    by_cases hn : k = n
    · subst hn
      rw [s.resume_core_self]
      simp only [List.mem_cons_self, if_true]
      split <;> rfl
    · rw [s.resume_core_ne hn]
      simp only [List.mem_cons, hn, false_or]
      split <;> rfl

theorem State.resumeAll_stands (l : List Nat) (s : State) : s.SeqStands (l.foldl State.resume s) := .foldl State.resume_stands l s

theorem State.resumeAll_within (l : List Nat) (s : State) : s.WithinStep (l.foldl State.resume s) :=
  List.foldlRecOn (motive := s.WithinStep) l State.resume (.refl s) fun t ht n _ => ht.trans (t.resume_within n)

/-- Cores changed, each once. -/
theorem State.onCores_core (l : List Nat) (hl : l.Nodup) (f : Core → Core) (s : State) (k : Nat) :
    (l.foldl (fun s n => s.onCore n f) s).core k = if k ∈ l then f (s.core k) else s.core k := by
  induction l generalizing s with
  | nil => rfl
  | cons n l ih =>
    rw [List.nodup_cons] at hl
    rw [List.foldl_cons, ih hl.2]
    by_cases hk : k = n
    · subst hk
      rw [if_neg hl.1, if_pos (List.mem_cons_self ..), State.onCore_core]
    · rw [State.onCore_core_ne _ _ _ _ hk]
      simp only [List.mem_cons, hk, false_or]

theorem State.onCores_eq (l : List Nat) (f : Core → Core) (s : State) :
    l.foldl (fun s n => s.onCore n f) s = { s with cores := (l.foldl (fun s n => s.onCore n f) s).cores } :=
  List.foldlRecOn (motive := fun t : State => t = { s with cores := t.cores }) l _ rfl fun t ht n _ => by
    conv_lhs => rw [ht]
    rfl

/-- Where no core has a record to write, the cores alone change. -/
theorem State.resumeAll_of_none (l : List Nat) (hl : l.Nodup) (s : State) (h : ∀ k ∈ l, (s.core k).waitRec = none) :
    l.foldl State.resume s = l.foldl (fun s n => s.onCore n Core.going) s := by
  induction l generalizing s with
  | nil => rfl
  | cons n l ih =>
    rw [List.nodup_cons] at hl
    have hresume : s.resume n = s.onCore n Core.going := by
      rw [State.resume, h n (List.mem_cons_self ..)]
      rfl
    rw [List.foldl_cons, List.foldl_cons, hresume]
    refine ih hl.2 _ fun k hk => ?_
    have hkn : k ≠ n := fun heq => hl.1 (heq ▸ hk)
    rw [State.onCore_core_ne _ _ _ _ hkn]
    exact h k (List.mem_cons_of_mem _ hk)

/-! ### The command -/

section
variable {s : State} {p : Fin 16} {c : Fin 8} (hr : s.inReset = false) (hlive : (s.ctx p.val c.val).live = true)
include hr hlive

/-- A release where every rank waits: for what, the first one decides. -/
theorem exec_barrierRelease {x : Nat × Nat × Wait} {rw : List (Nat × Nat × Wait)} (h : s.gathered (s.ctx p.val c.val).ranks = some (x :: rw)) :
    exec (.barrierRelease p c) s = .next (if rw.all (fun y => Wait.same x.2.2 y.2.2) then
      (x :: rw).foldl (fun s y => (s.turnTo y.1 y.2.1).passEnd y.1)
        (((x :: rw).foldl (fun s y => (s.turnTo y.1 y.2.1).resume y.1) s).release p.val c.val (x :: rw) x.2.2)
      else s) := by
  change execBarrierRelease p c s = _
  unfold execBarrierRelease
  simp only [hr, hlive, h, Bool.not_true, Bool.or_false, Bool.false_eq_true, if_false]

theorem exec_barrierRelease_of_none (h : s.gathered (s.ctx p.val c.val).ranks = none) : exec (.barrierRelease p c) s = .next s := by
  change execBarrierRelease p c s = _
  unfold execBarrierRelease
  simp only [hr, hlive, h, Bool.not_true, Bool.or_false, Bool.false_eq_true, if_false]

end

end Sys2Proof.Machine
end

section
/-!
PROOF. What each kind of barrier does once it is released (R94, R177, R190, R195, R203): the branches, the end of the step, and the parts combined.
-/

namespace Sys2Proof.Machine

/-! ### Cores at one barrier -/

/-- The cores of a context stand each at one barrier with its only rank, inside their programs, with nothing outstanding. -/
structure State.AllWait (s : State) (p c : Nat) (rs : List Nat) (w : Wait) : Prop where
  stepping : ∀ k ∈ rs, (s.core k).stepping = true
  ops : ∀ k ∈ rs, (s.core k).ops = []
  turns : ∀ k ∈ rs, (s.core k).turns = []
  run : ∀ k ∈ rs, (s.core k).run = some (p, c)
  header : ∀ k ∈ rs, ∃ h, s.header k = some h ∧ (s.core k).next < h.descCount
  wait : ∀ k ∈ rs, ∃ at', (s.core k).wait = some (w, at')

section
variable {s u : State} {p c : Nat} {rs : List Nat} {w : Wait}

/-- A core as it goes on. -/
structure State.Goes (s u : State) (p c : Nat) (rs : List Nat) : Prop where
  core : ∀ k ∈ rs, u.core k = { (s.core k).going with buf := (u.core k).buf }
  turns : ∀ k ∈ rs, (u.core k).turns = []
  ops : ∀ k ∈ rs, (u.core k).ops = []
  run : ∀ k ∈ rs, (u.core k).run = some (p, c)
  header : ∀ k ∈ rs, ∃ h, u.header k = some h ∧ (u.core k).next < h.descCount
  stepping : ∀ k ∈ rs, (u.core k).stepping = true

theorem State.AllWait.goes (q : s.AllWait p c rs w) (hu : u = rs.foldl State.resume s) : s.Goes u p c rs := by
  have hcore : ∀ k ∈ rs, u.core k = { (s.core k).going with buf := (u.core k).buf } := fun k hk => by
    have := State.resumeAll_core rs s k
    rwa [if_pos hk, ← hu] at this
  have hstands : s.SeqStands u := hu ▸ State.resumeAll_stands rs s
  exact {
    core := hcore
    turns := fun k hk => by rw [hcore k hk]; exact q.turns k hk
    ops := fun k hk => by rw [hcore k hk]; exact q.ops k hk
    run := fun k hk => by rw [hcore k hk]; exact q.run k hk
    header := fun k hk => by rw [hcore k hk, hstands.header]; exact q.header k hk
    stepping := fun k hk => by rw [hcore k hk]; exact q.stepping k hk }

theorem State.AllWait.gathered (q : s.AllWait p c rs w) (hbar : ∀ at', Wait.barred (some (w, at')) = true) :
    s.gathered rs = some (waitsOf rs w) :=
  mapM_eq_some _ fun x hx => by
    have hk := mem_of_mem_rankCores hx
    obtain ⟨at', hat⟩ := q.wait x.1 hk
    rw [Core.waitAt_of_turns_nil (q.turns _ hk) _ hat (q.stepping _ hk) (hbar at')]
    rfl

end

section
variable {s u t : State} {p : Fin 16} {c : Fin 8} {rs : List Nat} {w : Wait} (hr : s.inReset = false)
  (hlive : (s.ctx p.val c.val).live = true) (hrs : rs = (s.ctx p.val c.val).ranks) (hne : rs ≠ [])
include hr hlive hrs hne

/-- The release of a barrier at which every rank of a context waits alike: what it does stands, where no core then passes its end (R203). -/
theorem State.AllWait.release (q : s.AllWait p.val c.val rs w) (hbar : ∀ at', Wait.barred (some (w, at')) = true) (hsame : Wait.same w w = true)
    (hu : u = rs.foldl State.resume s) (ht : t = u.release p.val c.val (waitsOf rs w) w)
    (hturns : ∀ k ∈ rs, (t.core k).turns = []) (hend : ∀ k ∈ rs, t.passEnd k = t) : exec (.barrierRelease p c) s = .next t := by
  have hgathered := q.gathered hbar
  have hfirst : ∃ x l, waitsOf rs w = x :: l ∧ x.2.2 = w ∧ ∀ y ∈ l, y.2.2 = w := by
    have hall : ∀ y ∈ waitsOf rs w, y.2.2 = w := fun y hy => by
      obtain ⟨x, -, rfl⟩ := List.mem_map.mp hy
      rfl
    cases hl : waitsOf rs w with
    | nil =>
      have := waitsOf_fst rs w
      rw [hl] at this
      exact absurd this.symm hne
    | cons x l =>
      rw [hl] at hall
      exact ⟨x, l, rfl, hall x (List.mem_cons_self ..), fun y hy => hall y (List.mem_cons_of_mem _ hy)⟩
  obtain ⟨x, l, hl, hx, hys⟩ := hfirst
  have hall : l.all (fun y => Wait.same x.2.2 y.2.2) = true := List.all_eq_true.mpr fun y hy => by rw [hx, hys y hy, hsame]
  have hresumed : (waitsOf rs w).foldl (fun s y => (s.turnTo y.1 y.2.1).resume y.1) s = u := by
    rw [foldl_turnTo (f := fun s y => s.resume y.1) _ (fun y => y.1) (fun y => y.2.1) ?_ fun y hy => q.turns _ (core_mem_of_mem_waitsOf hy),
      foldl_waitsOf rs w State.resume, hu]
    intro t y k hk
    by_cases hky : k = y.1
    · rw [hky, t.resume_core_self, ← hky]
      exact hk
    · rw [t.resume_core_ne hky]
      exact hk
  rw [hrs] at hgathered
  rw [exec_barrierRelease hr hlive (hgathered.trans (congrArg some (hrs ▸ hl))), if_pos hall, hx, ← hl, hresumed, ← ht]
  refine congrArg _ (foldl_of_fixed _ fun y hy => ?_)
  have hy := core_mem_of_mem_waitsOf hy
  rw [State.turnTo_of_turns_nil (hturns _ hy), hend _ hy]

end

/-! ### Branches -/

theorem waitsOf_length (rs : List Nat) (w : Wait) : (waitsOf rs w).length = rs.length := by
  rw [← List.length_map (f := Prod.fst), waitsOf_fst]

/-- A rank goes on from a branch of the pan, in the direction that the LIVE slots of some ranks give (R195). -/
def State.takeBranch (p c : Nat) (ranks : List Nat) (kind target : Nat) (m v : BitVec 16) (s : State) (x : Nat × Nat) : State :=
  if s.branchTakes p c ranks kind m v then (s.turnTo x.1 x.2).branchTo x.1 kind target else s

theorem State.releaseBranch_waitsOf (u : State) (p c : Nat) (rs : List Nat) (kind target : Nat) (m v : BitVec 16) :
    u.releaseBranch p c (waitsOf rs (.branch kind target m v))
      = (rankCores rs).foldl (State.takeBranch p c (List.range rs.length) kind target m v) u := by
  rw [State.releaseBranch, waitsOf_length, waitsOf, List.foldl_map]
  rfl

theorem State.jumpTo_stands (s : State) (n k : Nat) : s.SeqStands (s.jumpTo n k) := s.onCore_stands n fun _ => rfl

/-- A branch of the pan other than END is taken by every core, or by none. -/
theorem State.takeBranches_jump {u t : State} {p c kind : Nat} {ranks : List Nat} {m v : BitVec 16} (h0 : 0 < kind) (target : Nat)
    (l : List (Nat × Nat)) (hstands : u.SeqStands t) (hturns : ∀ x ∈ l, (t.core x.1).turns = []) :
    l.foldl (State.takeBranch p c ranks kind target m v) t
      = if u.branchTakes p c ranks kind m v then l.foldl (fun s x => s.jumpTo x.1 target) t else t := by
  induction l generalizing t with
  | nil => exact (ite_self t).symm
  | cons x l ih =>
    rw [List.foldl_cons, State.takeBranch, hstands.branchTakes]
    split
    next htakes =>
      rw [State.turnTo_of_turns_nil (hturns x (List.mem_cons_self ..)), State.branchTo, if_neg (Nat.ne_of_gt h0),
        ih (hstands.trans (t.jumpTo_stands x.1 target)) fun y hy => ?_, if_pos htakes]
      · rfl
      · rw [State.jumpTo]
        by_cases hyx : y.1 = x.1
        · rw [hyx, State.onCore_core]
          exact hturns x (List.mem_cons_self ..)
        · rw [State.onCore_core_ne _ _ _ _ hyx]
          exact hturns y (List.mem_cons_of_mem _ hy)
    next hno =>
      rw [ih hstands fun y hy => hturns y (List.mem_cons_of_mem _ hy), if_neg hno]

/-! ### The end of the step -/

/-- A core with nothing left to do in its step but to end it. -/
structure Core.Spent (k : Core) (p c : Nat) : Prop where
  wait : k.wait = none
  ops : k.ops = []
  traps : k.traps = []
  turns : k.turns = []
  run : k.run = some (p, c)

theorem Core.Spent.not_atBarrier {k : Core} {p c : Nat} (h : k.Spent p c) : k.atBarrier = false := by
  rw [Core.atBarrier, Core.waits, h.wait, h.turns]
  rfl

theorem State.coreEnded_spent (s : State) (n : Nat) {k p c : Nat} (h : (s.core k).Spent p c) : ((s.coreEnded n).core k).Spent p c := by
  obtain ⟨hwait, hops, htraps, hturns, hrun⟩ := h
  by_cases hk : k = n
  · subst hk
    rw [s.coreEnded_core_self]
    exact ⟨hwait, hops, htraps, hturns, hrun⟩
  · rw [s.coreEnded_core_ne hk]
    exact ⟨hwait, hops, htraps, hturns, hrun⟩

/-- The ENDs of a pan end the step of one core after another; in open mode the last one ends the pan's (R177, R195). -/
theorem State.takeBranches_end {p c : Nat} {rs ranks : List Nat} {m v : BitVec 16} (target : Nat) (l : List (Nat × Nat)) (hne : l ≠ [])
    (hnodup : (l.map Prod.fst).Nodup) (hsub : ∀ x ∈ l, x.1 ∈ rs) {t : State} (hranks : (t.ctx p c).ranks = rs) (hlive : (t.ctx p c).live = true)
    (hspent : ∀ k ∈ rs, (t.core k).Spent p c) (hstep : ∀ k ∈ rs, (t.core k).stepping = true ↔ k ∈ l.map Prod.fst) :
    ∃ e, l.foldl (State.takeBranch p c ranks 0 target m v) t = e ∧ (∀ k ∈ rs, (e.core k).Spent p c ∧ (e.core k).stepping = false)
      ∧ (t.strict = false → (e.ctx p c).live = false ∧ (e.ctx p c).boundary = true ∧ (e.ctx p c).killed = none) := by
  induction l generalizing t with
  | nil => exact absurd rfl hne
  | cons x l ih =>
    rw [List.map_cons, List.nodup_cons] at hnodup
    have hx := hsub x (List.mem_cons_self ..)
    have hends : State.takeBranch p c ranks 0 target m v t x = (t.coreEnded x.1).checkPanEnd p c := by
      change (t.turnTo x.1 x.2).endCore x.1 = _
      rw [State.turnTo_of_turns_nil (hspent _ hx).turns]
      exact State.endCore_of_clear (hspent _ hx).ops (hspent _ hx).traps (hspent _ hx).turns
        ((hstep _ hx).mpr (List.mem_cons_self ..)) (hspent _ hx).run fun k hk _ _ => (hspent k (hranks ▸ hk)).not_atBarrier
    have hspent' : ∀ k ∈ rs, ((t.coreEnded x.1).core k).Spent p c := fun k hk => t.coreEnded_spent x.1 (hspent k hk)
    have hstep' : ∀ k ∈ rs, ((t.coreEnded x.1).core k).stepping = true ↔ k ∈ l.map Prod.fst := fun k hk => by
      by_cases hkx : k = x.1
      · rw [hkx, t.coreEnded_core_self]
        exact iff_of_false Bool.false_ne_true hnodup.1
      · rw [t.coreEnded_core_ne hkx]
        exact (hstep k hk).trans (by simp only [List.map_cons, List.mem_cons, hkx, false_or])
    rw [List.foldl_cons, hends]
    cases l with
    | nil =>
      have hstopped : ∀ k ∈ rs, ((t.coreEnded x.1).core k).stepping = false := fun k hk =>
        Bool.eq_false_iff.mpr fun hgo => List.not_mem_nil ((hstep' k hk).mp hgo)
      refine ⟨_, rfl, fun k hk => ?_, fun hopen => ?_⟩
      · rw [List.foldl_nil, State.checkPanEnd_core]
        exact ⟨hspent' k hk, hstopped k hk⟩
      · rw [List.foldl_nil, State.checkPanEnd_open (by rw [State.coreEnded_ctx, hlive]) ((t.coreEnded_within x.1).strict.trans hopen)
          (by rw [State.coreEnded_ctx, hranks]; exact hstopped)]
        exact ⟨rfl, rfl, rfl⟩
    | cons y l =>
      have hy := hsub y (by simp)
      have hgoes : ((t.coreEnded x.1).core y.1).stepping = true := (hstep' _ hy).mpr (List.mem_cons_self ..)
      rw [State.checkPanEnd_of_stepping (by rwa [State.coreEnded_ctx, hranks]) hgoes]
      obtain ⟨e, he, hcores, hctx⟩ := ih (List.cons_ne_nil _ _) hnodup.2 (fun z hz => hsub z (List.mem_cons_of_mem _ hz))
        (by rw [State.coreEnded_ctx, hranks]) (by rw [State.coreEnded_ctx, hlive]) hspent' hstep'
      exact ⟨e, he, hcores, fun hopen => hctx ((t.coreEnded_within x.1).strict.trans hopen)⟩

end Sys2Proof.Machine
end

section
/-!
PROOF. Barriers of a pan (R94, R159, R185, R190, R195, R203): the parts of a REDUCE or GEMM combined, and the release in each case.
-/

namespace Sys2Proof.Machine

theorem exists_rankCores {rs : List Nat} {k : Nat} (hk : k ∈ rs) : ∃ x ∈ rankCores rs, x.1 = k := by
  rw [← rankCores_fst rs] at hk
  exact List.mem_map.mp hk

/-- What is done for every rank that waits is done for every rank with what it waits for. -/
theorem foldl_eq_rankCores {rs : List Nat} {w : Wait} {rw : List (Nat × Nat × Wait)} (h : rw = waitsOf rs w)
    (f : State → Nat × Nat × Wait → State) (s : State) : rw.foldl f s = (rankCores rs).foldl (fun s x => f s (x.1, x.2, w)) s := by
  rw [h, waitsOf, List.foldl_map]

/-! ### Parts read, and results pushed -/

theorem State.readPart_onlyBuffered (s : State) (n : Nat) (w : Wait) : s.OnlyBuffered (s.readPart n w) := by
  unfold State.readPart
  split
  · exact s.readAll_onlyBuffered _ _
  · exact s.readAll_onlyBuffered _ _
  · exact .refl s

/-- Of the cores, only one changed; contexts and the structure image are as before. -/
structure State.OnlyCore (n : Nat) (s t : State) : Prop where
  others : ∀ k, k ≠ n → t.core k = s.core k
  ctx : ∀ p c, t.ctx p c = s.ctx p c
  sec : t.sec = s.sec

theorem State.OnlyCore.refl (n : Nat) (s : State) : State.OnlyCore n s s := ⟨fun _ _ => rfl, fun _ _ => rfl, rfl⟩

theorem State.OnlyCore.trans {n : Nat} {s t u : State} (h : State.OnlyCore n s t) (h' : State.OnlyCore n t u) : State.OnlyCore n s u :=
  ⟨fun k hk => (h'.others k hk).trans (h.others k hk), fun p c => (h'.ctx p c).trans (h.ctx p c), h'.sec.trans h.sec⟩

theorem State.OnlyCore.header {n : Nat} {s t : State} (h : State.OnlyCore n s t) {k : Nat} (hk : k ≠ n) : t.header k = s.header k := by
  simp only [State.header, h.others k hk, State.prog, State.ctxCat, State.degradedEntry, State.catEntry, State.panCfg, h.ctx, h.sec]

theorem State.turnTo_onlyCore (s : State) (n rank : Nat) : State.OnlyCore n s (s.turnTo n rank) := by
  refine ⟨fun k hk => s.turnTo_core_ne n rank hk, fun p c => ?_, ?_⟩
  · unfold State.turnTo
    split <;> rfl
  · unfold State.turnTo
    split <;> rfl

theorem State.Pushed.onlyCore {s t : State} {n p c : Nat} {op : OutOp} (h : s.Pushed n p c op t) : State.OnlyCore n s t where
  others := h.others
  ctx p c := by rw [State.ctx, h.pans p, State.ctx]
  sec := (congrArg State.sec h.frame).trans rfl

/-- The operation that a gathered descriptor becomes: its results, with what they were computed from (R159, R190). -/
def State.gatheredOp (s : State) (n : Nat) (h : StepProg) (d : Desc) (index : Nat) (narrow : Bool) (os : List (List Opnd × List Opnd))
    (res : List SlotRes) : OutOp :=
  { s.opOf n index d narrow (match s.statusAt n h d with
      | .ok a => a
      | .error _ => none) res.length os (fun _ => true) with
    res := (res.zip (os.map (fun o => o.1.flatMap (s.rowSpans n)))).map
      (fun x => { x.1 with reads := x.2, bad := x.1.bad || (s.fetchDesc n index).2 }) }

theorem State.pushRes_pushed {s : State} {n p c : Nat} {h : StepProg} (hrun : (s.core n).run = some (p, c)) (hh : s.header n = some h) (d : Desc)
    (index : Nat) (narrow : Bool) (os : List (List Opnd × List Opnd)) (res : List SlotRes) :
    s.Pushed n p c (s.gatheredOp n h d index narrow os res) (s.pushRes n d index narrow os res) := by
  unfold State.pushRes
  rw [hrun, hh]
  exact s.push_pushed n p c _

theorem State.pushRes_onlyCore (s : State) (n : Nat) (d : Desc) (index : Nat) (narrow : Bool) (os : List (List Opnd × List Opnd))
    (res : List SlotRes) : State.OnlyCore n s (s.pushRes n d index narrow os res) := by
  unfold State.pushRes
  split
  · exact (s.push_pushed n _ _ _).onlyCore
  · exact .refl n s

/-- A gathered operation keeps its results' slots and writes. -/
theorem State.gatheredOp_res (s : State) (n : Nat) (h : StepProg) (d : Desc) (index : Nat) (narrow : Bool) {os : List (List Opnd × List Opnd)}
    {res : List SlotRes} (hlen : res.length = os.length) :
    (s.gatheredOp n h d index narrow os res).res.map (fun r => (r.slot, r.writes)) = res.map (fun r => (r.slot, r.writes)) := by
  have hfst : (res.zip (os.map (fun o => o.1.flatMap (s.rowSpans n)))).map Prod.fst = res :=
    List.map_fst_zip (by rw [List.length_map]; exact hlen.le)
  rw [State.gatheredOp, List.map_map]
  conv_rhs => rw [← hfst, List.map_map]
  rfl

/-! ### Every core with the results of its own -/

/-- A core of a context that goes on, with nothing outstanding. -/
structure State.Ready (s : State) (p c k : Nat) : Prop where
  run : (s.core k).run = some (p, c)
  header : ∃ h, s.header k = some h
  ops : (s.core k).ops = []
  wait : (s.core k).wait = none
  turns : (s.core k).turns = []

theorem State.Ready.keep {s t : State} {p c k n : Nat} (q : s.Ready p c k) (h : State.OnlyCore n s t) (hk : k ≠ n) : t.Ready p c k where
  run := by rw [h.others k hk]; exact q.run
  header := by rw [h.header hk]; exact q.header
  ops := by rw [h.others k hk]; exact q.ops
  wait := by rw [h.others k hk]; exact q.wait
  turns := by rw [h.others k hk]; exact q.turns

/-- A core goes on with one operation outstanding, whose results write what they should. -/
def Core.Holds (k : Core) (index : Nat) (writes : List (Option Nat × List OutWrite)) : Prop :=
  k.wait = none ∧ k.turns = [] ∧ ∃ op, k.ops = [op] ∧ op.desc = index ∧ op.res.map (fun r => (r.slot, r.writes)) = writes

/-- A core on which a gathered operation's results are pushed holds that operation alone (R190). -/
theorem State.Ready.pushRes {s : State} {p c n : Nat} (q : s.Ready p c n) (rank : Nat) (d : Desc) (index : Nat) (narrow : Bool)
    {os : List (List Opnd × List Opnd)} {res : List SlotRes} (hlen : res.length = os.length) :
    (((s.turnTo n rank).pushRes n d index narrow os res).core n).Holds index (res.map (fun r => (r.slot, r.writes))) := by
  obtain ⟨h, hh⟩ := q.header
  rw [State.turnTo_of_turns_nil q.turns]
  have hcore := (State.pushRes_pushed q.run hh d index narrow os res).core
  rw [hcore]
  refine ⟨q.wait, q.turns, _, by rw [q.ops, List.nil_append], rfl, ?_⟩
  exact s.gatheredOp_res n h d index narrow hlen

/-- What is done on each core in turn, and changes no other, leaves each with what was done on it. -/
theorem foldl_onlyCore {α : Type} {f : State → α → State} {core : α → Nat} {p c : Nat} {R : α → Core → Prop}
    (hf : ∀ t x, State.OnlyCore (core x) t (f t x)) (hR : ∀ t x, t.Ready p c (core x) → R x ((f t x).core (core x)))
    (l : List α) (hl : (l.map core).Nodup) {t : State} (ht : ∀ x ∈ l, t.Ready p c (core x)) :
    (∀ x ∈ l, R x ((l.foldl f t).core (core x))) ∧ ∀ k, k ∉ l.map core → (l.foldl f t).core k = t.core k := by
  induction l generalizing t with
  | nil => exact ⟨fun x hx => (List.not_mem_nil hx).elim, fun _ _ => rfl⟩
  | cons y l ih =>
    rw [List.map_cons, List.nodup_cons] at hl
    have hkeep : ∀ x ∈ l, (f t y).Ready p c (core x) := fun x hx =>
      (ht x (List.mem_cons_of_mem _ hx)).keep (hf t y) fun heq => hl.1 (heq ▸ List.mem_map_of_mem hx)
    obtain ⟨hdone, hothers⟩ := ih hl.2 hkeep
    rw [List.foldl_cons]
    refine ⟨fun x hx => ?_, fun k hk => ?_⟩
    · rcases List.mem_cons.mp hx with rfl | hx
      · rw [hothers _ hl.1]
        exact hR t x (ht x (List.mem_cons_self ..))
      · exact hdone x hx
    · rw [List.map_cons, List.mem_cons, not_or] at hk
      rw [hothers k hk.2, (hf t y).others k hk.1]

/-! ### REDUCE and GEMM -/

section
variable {s u v : State} {p c : Nat} {rs : List Nat} {w : Wait} (q : s.Goes u p c rs)
  (hv : v = (waitsOf rs w).foldl (fun s x => s.readPart x.1 x.2.2) u)
include q hv

theorem State.Goes.readParts : (waitsOf rs w).foldl (fun s x => (s.turnTo x.1 x.2.1).readPart x.1 x.2.2) u = v := by
  rw [hv]
  refine foldl_turnTo (f := fun s x => s.readPart x.1 x.2.2) _ (fun x => x.1) (fun x => x.2.1) (fun t x k hk => ?_)
    fun x hx => q.turns _ (core_mem_of_mem_waitsOf hx)
  rw [(t.readPart_onlyBuffered x.1 x.2.2).core k]
  exact hk

theorem State.Goes.ready {k : Nat} (hk : k ∈ rs) : v.Ready p c k := by
  have hread : u.OnlyBuffered v := hv ▸ .foldl (fun (t : State) (x : Nat × Nat × Wait) => t.readPart_onlyBuffered x.1 x.2.2) _ u
  obtain ⟨h, hh, -⟩ := q.header k hk
  have hcore := hread.core k
  exact {
    run := by rw [hcore]; exact q.run k hk
    header := ⟨h, (hread.stands.header k).trans hh⟩
    ops := by rw [hcore]; exact q.ops k hk
    wait := by rw [hcore, q.core k hk]; rfl
    turns := by rw [hcore]; exact q.turns k hk }

end

theorem targetOpnds_length (ts : List (Option Nat)) (opnds : Option Nat → Except StepFault (List Opnd × List Opnd)) :
    (targetOpnds ts opnds).length = ts.length := List.length_map _

/-- What a rank pushes at the release of a GEMM with PANK: its operands, and its results; only rank 0 writes D (R185). -/
def State.gemmPush (v : State) (rw : List (Nat × Nat × Wait)) (d : Desc) (cin ta tb : Bool) (i : Nat) (x : Nat × Nat) :
    List (List Opnd × List Opnd) × List SlotRes :=
  let ts := v.coreTargets x.1 d
  let os := targetOpnds ts (gemmOpnds d cin ta tb)
  if x.2 = 0 then (os, ts.map (v.gemmShare rw x.1 d cin ta tb))
  else (os.map (fun o => (o.1.take 2, [])), ts.map (v.gemmOwn x.1 (.gemm d cin ta tb i)))

theorem State.gemmPush_length (v : State) (rw : List (Nat × Nat × Wait)) (d : Desc) (cin ta tb : Bool) (i : Nat) (x : Nat × Nat) :
    (v.gemmPush rw d cin ta tb i x).2.length = (v.gemmPush rw d cin ta tb i x).1.length := by
  unfold State.gemmPush
  dsimp only
  split <;> simp [targetOpnds]

theorem State.gemmOwn_writes (s : State) (n : Nat) (w : Wait) (t : Option Nat) : (s.gemmOwn n w t).writes = [] := by
  unfold State.gemmOwn
  split <;> rfl

section
variable {v : State} {rw : List (Nat × Nat × Wait)} {d : Desc} {cin ta tb : Bool} {i : Nat} {x : Nat × Nat}

theorem State.gemmPush_rank0 (h : x.2 = 0) :
    (v.gemmPush rw d cin ta tb i x).2 = (v.coreTargets x.1 d).map (v.gemmShare rw x.1 d cin ta tb) := by
  rw [State.gemmPush, if_pos h]

/-- A rank other than 0 writes nothing (R185). -/
theorem State.gemmPush_writes (h : x.2 ≠ 0) {r : SlotRes} (hr : r ∈ (v.gemmPush rw d cin ta tb i x).2) : r.writes = [] := by
  rw [State.gemmPush, if_neg h] at hr
  obtain ⟨t, -, rfl⟩ := List.mem_map.mp hr
  exact v.gemmOwn_writes x.1 _ t

end

section
variable {s u v : State} {p c : Nat} {rs : List Nat} (hnodup : rs.Nodup) (q : s.Goes u p c rs) {d : Desc} {i : Nat}
  {rw : List (Nat × Nat × Wait)}
include hnodup q

/-- Results pushed for every rank, of what each has at the release: each core holds those of its own. -/
theorem State.Goes.pushAll {w : Wait} (hv : v = (waitsOf rs w).foldl (fun s x => s.readPart x.1 x.2.2) u) (narrow : Bool)
    {push : State → Nat × Nat → List (List Opnd × List Opnd) × List SlotRes} (hlen : ∀ s x, (push s x).2.length = (push s x).1.length) :
    ∀ x ∈ rankCores rs, (((rankCores rs).foldl (fun s x => (s.turnTo x.1 x.2).pushRes x.1 d i narrow (push (v.turnTo x.1 x.2) x).1
      (push (v.turnTo x.1 x.2) x).2) v).core x.1).Holds i ((push v x).2.map (fun r => (r.slot, r.writes))) := by
  have hready : ∀ x ∈ rankCores rs, v.Ready p c x.1 := fun x hx => q.ready hv (mem_of_mem_rankCores hx)
  have hcores : ((rankCores rs).map Prod.fst).Nodup := by rwa [rankCores_fst]
  intro x hx
  have hholds := (foldl_onlyCore (core := Prod.fst) (R := fun x k => k.Holds i ((push (v.turnTo x.1 x.2) x).2.map (fun r => (r.slot, r.writes))))
    (fun t x => (t.turnTo_onlyCore x.1 x.2).trans (State.pushRes_onlyCore _ x.1 d i narrow
      (push (v.turnTo x.1 x.2) x).1 (push (v.turnTo x.1 x.2) x).2))
    (fun t x ht => ht.pushRes x.2 d i narrow (hlen _ _)) (rankCores rs) hcores hready).1 x hx
  rwa [State.turnTo_of_turns_nil (hready x hx).turns] at hholds

/-- A REDUCE over the pan: each core holds the combined results for its targets (R190). -/
theorem State.Goes.releaseReduce {sub : Nat} {axis : Bool} (hrw : rw = waitsOf rs (.reduce d sub axis i))
    (hv : v = rw.foldl (fun s x => s.readPart x.1 x.2.2) u) : ∀ x ∈ rankCores rs, ((u.releaseReduce rw).core x.1).Holds i
      (((v.coreTargets x.1 d).map (v.reduceShare rw x.1 d sub axis)).map (fun r => (r.slot, r.writes))) := by
  have hholds := q.pushAll hnodup (i := i) (d := d) (hrw ▸ hv) true
    (push := fun v x => (targetOpnds (v.coreTargets x.1 d) (reduceOpnds d axis), (v.coreTargets x.1 d).map (v.reduceShare rw x.1 d sub axis)))
    fun v x => by simp [targetOpnds]
  have hparts : rw.foldl (fun s x => (s.turnTo x.1 x.2.1).readPart x.1 x.2.2) u = v := by
    rw [hrw]
    exact q.readParts (hrw ▸ hv)
  unfold State.releaseReduce
  dsimp only
  rw [hparts]
  rw [foldl_eq_rankCores hrw]
  exact hholds

/-- A GEMM over the pan: each core holds what its rank pushes (R94, R185). -/
theorem State.Goes.releaseGemm {cin ta tb : Bool} (hrw : rw = waitsOf rs (.gemm d cin ta tb i))
    (hv : v = rw.foldl (fun s x => s.readPart x.1 x.2.2) u) : ∀ x ∈ rankCores rs, ((u.releaseGemm rw).core x.1).Holds i
      ((v.gemmPush rw d cin ta tb i x).2.map (fun r => (r.slot, r.writes))) := by
  have hholds := q.pushAll hnodup (i := i) (d := d) (hrw ▸ hv) false
    (push := fun v x => v.gemmPush rw d cin ta tb i x) fun v x => v.gemmPush_length _ _ _ _ _ _ _
  have hparts : rw.foldl (fun s x => (s.turnTo x.1 x.2.1).readPart x.1 x.2.2) u = v := by
    rw [hrw]
    exact q.readParts (hrw ▸ hv)
  unfold State.releaseGemm
  dsimp only
  rw [hparts]
  rw [foldl_eq_rankCores hrw]
  refine Eq.subst (motive := fun f => ∀ x ∈ rankCores rs, (((rankCores rs).foldl f v).core x.1).Holds i
    ((v.gemmPush rw d cin ta tb i x).2.map (fun r => (r.slot, r.writes)))) ?_ hholds
  funext t x
  unfold State.gemmPush
  dsimp only
  split <;> rfl

end

/-! ### The obligation -/

section
variable {s u : State} {p : Fin 16} {c : Fin 8} {rs : List Nat} (hr : s.inReset = false)
  (hlive : (s.ctx p.val c.val).live = true) (hrs : rs = (s.ctx p.val c.val).ranks) (hne : rs ≠ []) (hnodup : rs.Nodup)
  (hu : u = rs.foldl State.resume s)
include hr hlive hrs hne hu

/-- Past a BARRIER each core goes on with no more (R203). -/
theorem State.AllWait.release_barrier {b : Nat} (q : s.AllWait p.val c.val rs (.barrier b)) : exec (.barrierRelease p c) s = .next u := by
  have hgoes := q.goes hu
  refine q.release hr hlive hrs hne (fun _ => rfl) (decide_eq_true rfl) hu rfl hgoes.turns fun k hk => ?_
  obtain ⟨h, hh, hnext⟩ := hgoes.header k hk
  exact State.passEnd_of_next fun g hg => (Option.some.inj (hh.symm.trans hg)) ▸ hnext

/-- A release that leaves an operation outstanding on every core. -/
theorem State.AllWait.release_holds {w : Wait} (q : s.AllWait p.val c.val rs w) (hbar : ∀ at', Wait.barred (some (w, at')) = true)
    (hsame : Wait.same w w = true) {index : Nat} {writes : Nat × Nat → List (Option Nat × List OutWrite)}
    (hholds : ∀ x ∈ rankCores rs, ((u.release p.val c.val (waitsOf rs w) w).core x.1).Holds index (writes x)) :
    exec (.barrierRelease p c) s = .next (u.release p.val c.val (waitsOf rs w) w) := by
  have hcore : ∀ k ∈ rs, ((u.release p.val c.val (waitsOf rs w) w).core k).turns = []
      ∧ ((u.release p.val c.val (waitsOf rs w) w).core k).ops ≠ [] := fun k hk => by
    obtain ⟨x, hx, rfl⟩ := exists_rankCores hk
    obtain ⟨-, hturns, op, hops, -⟩ := hholds x hx
    exact ⟨hturns, hops ▸ List.cons_ne_nil _ _⟩
  exact q.release hr hlive hrs hne hbar hsame hu rfl (fun k hk => (hcore k hk).1) fun k hk => State.passEnd_of_ops (hcore k hk).2

include hnodup

/-- Past a branch of the pan that does not end the step, every core goes on in the one direction that its LIVE slots give (R195). -/
theorem State.AllWait.release_branch {kind target : Nat} {m v : BitVec 16} (q : s.AllWait p.val c.val rs (.branch kind target m v)) (h0 : 0 < kind)
    (htarget : ∀ k ∈ rs, ∀ h, s.header k = some h → target < h.descCount) :
    exec (.barrierRelease p c) s = .next (if s.branchTakes p.val c.val (List.range rs.length) kind m v
      then rs.foldl (fun s k => s.jumpTo k target) u else u) := by
  have hgoes := q.goes hu
  have hstands : s.SeqStands u := hu ▸ State.resumeAll_stands rs s
  have hturns : ∀ x ∈ rankCores rs, (u.core x.1).turns = [] := fun x hx => hgoes.turns _ (mem_of_mem_rankCores hx)
  have hrelease : u.release p.val c.val (waitsOf rs (.branch kind target m v)) (.branch kind target m v)
      = if s.branchTakes p.val c.val (List.range rs.length) kind m v then rs.foldl (fun s k => s.jumpTo k target) u else u := by
    rw [State.release, State.releaseBranch_waitsOf, State.takeBranches_jump h0 target _ (.refl u) hturns, hstands.branchTakes]
    conv_rhs => rw [← rankCores_fst rs, List.foldl_map, rankCores_fst]
  have hjumped : ∀ k ∈ rs, (rs.foldl (fun s k => s.jumpTo k target) u).core k = { u.core k with next := target } := fun k hk =>
    (State.onCores_core rs hnodup _ u k).trans (if_pos hk)
  have hjumps : u.SeqStands (rs.foldl (fun s k => s.jumpTo k target) u) := .foldl (fun t k => t.jumpTo_stands k target) rs u
  refine q.release hr hlive hrs hne (fun _ => rfl) rfl hu hrelease.symm (fun k hk => ?_) fun k hk => State.passEnd_of_next fun g hg => ?_
  · split
    · rw [hjumped k hk]
      exact hgoes.turns k hk
    · exact hgoes.turns k hk
  · split at hg
    next htakes =>
      rw [if_pos htakes, hjumped k hk]
      exact htarget k hk g ((hjumps.header k).trans (hstands.header k) ▸ hg)
    next hno =>
      rw [if_neg hno]
      obtain ⟨h, hh, hnext⟩ := hgoes.header k hk
      exact (Option.some.inj (hh.symm.trans hg)) ▸ hnext

/-- Past ENDs with PAN every core has ended its step, and in open mode so has the pan (R177, R195). -/
theorem State.AllWait.release_end {target : Nat} {m v : BitVec 16} (q : s.AllWait p.val c.val rs (.branch 0 target m v))
    (htraps : ∀ k ∈ rs, (s.core k).traps = []) : ∃ t, exec (.barrierRelease p c) s = .next t
      ∧ (∀ k ∈ rs, (t.core k).stepping = false ∧ (t.core k).wait = none)
      ∧ (s.strict = false → (t.ctx p.val c.val).live = false ∧ (t.ctx p.val c.val).boundary = true ∧ (t.ctx p.val c.val).killed = none) := by
  have hgoes := q.goes hu
  have hstands : s.SeqStands u := hu ▸ State.resumeAll_stands rs s
  have hspent : ∀ k ∈ rs, (u.core k).Spent p.val c.val := fun k hk => by
    have hcore := hgoes.core k hk
    exact ⟨by rw [hcore]; rfl, hgoes.ops k hk, by rw [hcore]; exact htraps k hk, hgoes.turns k hk, hgoes.run k hk⟩
  have hranks : (u.ctx p.val c.val).ranks = rs := by rw [hstands.ctx, hrs]
  have hlive' : (u.ctx p.val c.val).live = true := by rw [hstands.ctx, hlive]
  obtain ⟨t, ht, hcores, hended⟩ := State.takeBranches_end (ranks := List.range rs.length) (m := m) (v := v) target (rankCores rs)
    (fun hnil => hne (by rw [← rankCores_fst rs, hnil]; rfl)) (by rwa [rankCores_fst]) (fun x hx => mem_of_mem_rankCores hx) hranks hlive'
    hspent fun k hk => by rw [rankCores_fst]; exact iff_of_true (hgoes.stepping k hk) hk
  have hrelease : t = u.release p.val c.val (waitsOf rs (.branch 0 target m v)) (.branch 0 target m v) := by
    rw [← ht, State.release, State.releaseBranch_waitsOf]
  refine ⟨t, q.release hr hlive hrs hne (fun _ => rfl) rfl hu hrelease (fun k hk => (hcores k hk).1.turns)
    fun k hk => State.passEnd_of_stopped (hcores k hk).2, fun k hk => ⟨(hcores k hk).2, (hcores k hk).1.wait⟩, fun hopen => hended ?_⟩
  exact (State.resumeAll_within rs s).strict.trans hopen ▸ hu ▸ rfl

end

/-- Settles O52: the wait by the common course of a gathered descriptor, and the release by what it does in each kind of barrier. -/
theorem panBarriers : Obligations.PanBarriers := by
  refine ⟨?waits, ?ranks, ?cores⟩
  case waits =>
    intro s v n d p c h os hops hv hst
    refine ⟨fun axis hplain hrm hos x hx a u hu hdue => ?reduce, fun cin ta tb hplain hos a u hu hdue => ?gemm⟩
    case reduce =>
      obtain ⟨hsub, hexec⟩ := exec_reducePan s n d axis x hx
      rw [hexec, State.reduce_pan hrm]
      exact congrArg _ (State.gather_waits a (panReduceCode_known hsub axis) hops hv hst hplain hos hu hdue _)
    case gemm => exact congrArg _ (State.gather_waits a (gemmCode_known cin ta tb true) hops hv hst hplain hos hu hdue _)
  case ranks =>
    rintro s u p c x rw hr hlive hgathered rfl
    rw [exec_barrierRelease hr hlive hgathered]
    refine ⟨fun b hx hys => ?_, fun ⟨y, hy, hne⟩ => ?_⟩
    · rw [if_pos (List.all_eq_true.mpr fun y hy => by rw [hx, hys y hy]; exact decide_eq_true rfl), hx]
      rfl
    · rw [if_neg]
      intro hall
      have := List.all_eq_true.mp hall y hy
      rw [hne] at this
      cases this
  case cores =>
    intro s u p c rs hr hlive hrs hnodup hne hu hcores
    obtain ⟨hstep, hops, hturns, hrun, hheader⟩ : (∀ k ∈ rs, (s.core k).stepping = true) ∧ (∀ k ∈ rs, (s.core k).ops = [])
        ∧ (∀ k ∈ rs, (s.core k).turns = []) ∧ (∀ k ∈ rs, (s.core k).run = some (p.val, c.val))
        ∧ ∀ k ∈ rs, ∃ h, s.header k = some h ∧ (s.core k).next < h.descCount := by
      simpa only [forall₂_and] using hcores
    have hall {w : Wait} (hw : ∀ k ∈ rs, ∃ at', (s.core k).wait = some (w, at')) : s.AllWait p.val c.val rs w :=
      ⟨hstep, hops, hturns, hrun, hheader, hw⟩
    refine ⟨fun hnone => ?none, fun b hw => (hall hw).release_barrier hr hlive hrs hne hu, fun kind target m v hw => ⟨fun h0 htarget => ?branch,
      ?step⟩, ?reduce, ?gemm, ?missing⟩
    case none =>
      have hgoing : u = rs.foldl (fun s n => s.onCore n Core.going) s := hu.trans (State.resumeAll_of_none rs hnodup s hnone)
      refine ⟨by rw [hgoing]; exact State.onCores_eq rs Core.going s, fun k hk => ?_, fun k hk => ?_⟩
      · rw [hgoing, State.onCores_core rs hnodup, if_pos hk, Core.going]
      · rw [hgoing, State.onCores_core rs hnodup, if_neg hk]
    case branch =>
      have hnext : ∀ k ∈ rs, (u.core k).next = (s.core k).next := fun k hk => by rw [((hall hw).goes hu).core k hk, Core.going]
      refine ⟨_, (hall hw).release_branch hr hlive hrs hne hnodup hu h0 htarget, ?_, fun k hk => ?_, fun k hk => ?_⟩
      · split
        · exact State.onCores_eq rs _ u
        · rfl
      · split
        · exact (State.onCores_core rs hnodup _ u k).trans (if_neg hk)
        · rfl
      · split
        · exact (State.onCores_core rs hnodup _ u k).trans (if_pos hk)
        · rw [← hnext k hk]
    case step =>
      rintro rfl htraps
      exact (hall hw).release_end hr hlive hrs hne hnodup hu htraps
    case reduce =>
      rintro d sub axis i rw v hw rfl hv
      have hholds := ((hall hw).goes hu).releaseReduce hnodup rfl hv
      refine ⟨_, (hall hw).release_holds hr hlive hrs hne hu (fun _ => rfl) (decide_eq_true rfl) hholds, fun k hk => ?_⟩
      obtain ⟨x, hx, rfl⟩ := exists_rankCores hk
      obtain ⟨hwait, -, op, hops, hdesc, hres⟩ := hholds x hx
      exact ⟨hwait, op, hops, hdesc, by rw [hres, List.map_map]; rfl⟩
    case gemm =>
      rintro d cin ta tb i rw v hw rfl hv
      have hholds := ((hall hw).goes hu).releaseGemm hnodup rfl hv
      refine ⟨_, (hall hw).release_holds hr hlive hrs hne hu (fun _ => rfl) rfl hholds, fun k hk => ?_⟩
      obtain ⟨x, hx, rfl⟩ := exists_rankCores hk
      obtain ⟨hwait, -, op, hops, hdesc, hres⟩ := hholds x hx
      have hrank := rank_of_mem_rankCores hnodup hx
      refine ⟨hwait, op, hops, hdesc, fun hother r hmem => ?_, fun hfirst => ?_⟩
      · have hmem : (r.slot, r.writes) ∈ (v.gemmPush (waitsOf rs (.gemm d cin ta tb i)) d cin ta tb i x).2.map (fun r => (r.slot, r.writes)) :=
          hres ▸ List.mem_map_of_mem hmem
        obtain ⟨y, hy, heq⟩ := List.mem_map.mp hmem
        exact (congrArg Prod.snd heq).symm.trans (State.gemmPush_writes (fun h0 => hother (hrank.mp h0)) hy)
      · rw [hres, State.gemmPush_rank0 (hrank.mpr hfirst), List.map_map]
        rfl
    case missing =>
      rintro ⟨k, hk, hnone⟩
      obtain ⟨x, hx, rfl⟩ := exists_rankCores hk
      refine exec_barrierRelease_of_none hr hlive (mapM_eq_none (hrs ▸ hx) ?_)
      rw [Core.waitAt_of_going (hturns _ hk) _ hnone]
      rfl

end Sys2Proof.Machine
end

section
/-!
PROOF. Answers to messages (R441, R444): the frames that answer a request, and the record of them that is kept for its duplicates.
-/

namespace Sys2Proof.Machine

/-! ### Frames of a message -/

theorem numberFrames_payload (m : OutMsg) (p : Port) (ackReq frag : Bool) (stamp : Dword) (q : Word) (pays : List (List Byte)) :
    (numberFrames m p ackReq frag stamp q pays).map OutFrame.payload = pays := by
  induction pays generalizing q with
  | nil => rfl
  | cons pl r ih => exact congrArg (pl :: ·) (ih (q + 1))

/-- Every frame of a message carries what the message says of it. -/
theorem numberFrames_header (m : OutMsg) (p : Port) (ackReq frag : Bool) (stamp : Dword) (q : Word) (pays : List (List Byte)) :
    ∀ f ∈ numberFrames m p ackReq frag stamp q pays, f.type = m.type ∧ f.ack = m.ack ∧ f.client = m.client ∧ f.number = m.number
      ∧ f.gen = m.gen ∧ f.port = p ∧ f.dest = m.dest := by
  induction pays generalizing q with
  | nil => exact fun f hf => absurd hf List.not_mem_nil
  | cons pl r ih =>
    rintro f (_ | ⟨_, hf⟩)
    · exact ⟨rfl, rfl, rfl, rfl, rfl, rfl, rfl⟩
    · exact ih (q + 1) f hf

theorem framePays_of_le {P : Nat} {pl : List Byte} (h : pl.length ≤ P) : framePays P pl = [pl] := if_pos h

/-- A message with a payload has a frame, whatever the payload limit. -/
theorem framePays_ne_nil {pl : List Byte} (h : pl ≠ []) (P : Nat) : framePays P pl ≠ [] := by
  cases pl with
  | nil => exact absurd rfl h
  | cons b r =>
    unfold framePays
    split <;> exact List.cons_ne_nil _ _

/-- The frames of a message with a payload begin with the next SEQ of their port. -/
theorem State.numberMsg_frames {m : OutMsg} (h : m.payload ≠ []) (s : State) (p : Port) :
    ∃ f fs, (s.numberMsg p m).1 = f :: fs ∧ f.seq = (s.hport p).nextSeq := by
  unfold State.numberMsg
  obtain ⟨pl, r, hpays⟩ := List.exists_cons_of_ne_nil (framePays_ne_nil h (s.payLimit p m.dest.v6))
  rw [hpays]
  exact ⟨_, _, rfl, rfl⟩

/-! ### The answer -/

/-- The frames of an answer stand in the port's record, under the request's SEQ. -/
theorem State.answerMsg_recs (s : State) (h : SqpHdr) (type : Byte) (gen : BitVec 16) (pay : List Byte) :
    (h.seq, Answer.sent (s.numberMsg h.port (answerTo h type gen pay)).1) ∈ ((s.answerMsg h type gen pay true).hport h.port).recs := by
  unfold State.answerMsg
  dsimp only
  rw [if_pos rfl, State.onHport_hport]
  exact List.mem_cons_self

theorem State.answerMsg_replied (s : State) (h : SqpHdr) (type : Byte) (gen : BitVec 16) (pay : List Byte) :
    (s.answerMsg h type gen pay true).Replied h type gen pay := by
  refine ⟨_, s.answerMsg_recs h type gen pay, fun f hf => ?_, fun hle => ?_⟩
  · obtain ⟨htype, hack, hclient, hnumber, hgen, hport, hdest⟩ := numberFrames_header _ _ _ _ _ _ _ f hf
    exact ⟨htype, hack, hclient, hnumber, hgen, hport, hdest⟩
  · have hlimit : (s.answerMsg h type gen pay true).payLimit h.port h.src.v6 = s.payLimit h.port h.src.v6 := by
      unfold State.payLimit State.rwField State.rw
      rw [(State.answerMsg_sends h type gen pay true (.refl s)).regs]
    exact (numberFrames_payload _ _ _ _ _ _ _).trans (framePays_of_le (hlimit ▸ hle))

theorem State.Sends.answerMsg {s u : State} (hu : s.Sends u) (h : SqpHdr) (type : Byte) (gen : BitVec 16) (pay : List Byte) :
    s.Sends (u.answerMsg h type gen pay true) := State.answerMsg_sends h type gen pay true hu

/-- A NAK from a state that only sending has changed refuses the message. -/
theorem State.Sends.nak_refused {s u : State} (hu : s.Sends u) (h : SqpHdr) (r : Reason) : s.Refused (u.nak h r) h r :=
  ⟨State.nak_sends h r 0 hu, u.answerMsg_replied h 0x7F h.gen (nakPay r 0)⟩

/-- Sending commutes with a change of what sending leaves alone. -/
theorem State.Sends.map {s t : State} (h : s.Sends t) (g : State → State)
    (hrest : ∀ x : State, g { s with hportA := x.hportA, hportB := x.hportB, bports := x.bports, comps := x.comps, counts := x.counts, pans := x.pans,
                                           sets := x.sets }
      = { g s with hportA := (g x).hportA, hportB := (g x).hportB, bports := (g x).bports, comps := (g x).comps, counts := (g x).counts,
                   pans := (g x).pans,
                   sets := (g x).sets } := by intro; rfl)
    (hpans : ∀ x, (g x).pans = x.pans := by intro; rfl) : (g s).Sends (g t) where
  rest := (congrArg g h.rest).trans (hrest t)
  pans p := by
    have := h.pans p
    simp only [State.pan, hpans] at this ⊢
    exact this

end Sys2Proof.Machine
end

section
/-!
PROOF. HyperBus channels (R32, R167, R169, R173, R498): READY of a pair's channels, the end of training, and the loss of a channel.
-/

namespace Sys2Proof.Machine

/-! ### READY bits -/

theorem getLsbD_putBit (w : Word) {k : Nat} (hk : k < 32) (v : Bool) : (putBit w k v).getLsbD k = v := by
  cases v <;> simp [putBit, hk]

/-- A READY bit that is set or cleared reads so. -/
theorem State.setReady_getLsbD (s : State) {k : Nat} (hk : k < 32) (v : Bool) : (s.setReady k v).ready.getLsbD k = v := by
  unfold State.setReady
  split
  · assumption
  · rw [(State.event_sends _ _ _ (.refl _)).ready]
    exact getLsbD_putBit _ hk v

/-! ### What changes with a channel -/

/-- Nothing changed but channels and READY bits, and what is sent. -/
def State.OnlyChannels (s t : State) : Prop := s.Sends { t with hbus := s.hbus, ready := s.ready }

namespace State.OnlyChannels

variable {s t u : State}

theorem trans (h : s.OnlyChannels t) (h' : t.OnlyChannels u) : s.OnlyChannels u :=
  State.Sends.trans h (State.Sends.map h' fun x => { x with hbus := s.hbus, ready := s.ready })

end State.OnlyChannels

theorem State.onChan_onlyChannels (s : State) (c : Nat) (f : Hbus → Hbus) : s.OnlyChannels (s.onChan c f) := .refl s

theorem State.setReady_onlyChannels (s : State) (k : Nat) (v : Bool) : s.OnlyChannels (s.setReady k v) := by
  obtain ⟨w, h⟩ := s.setReady_sends k v
  exact h.map fun x => { x with hbus := s.hbus, ready := s.ready }

theorem State.refreshHbus_onlyChannels (s : State) (c : Nat) : s.OnlyChannels (s.refreshHbus c) := by
  unfold State.refreshHbus
  dsimp only [List.foldl_cons, List.foldl_nil]
  exact ((s.onChan_onlyChannels _ _).trans (State.onChan_onlyChannels _ _ _)).trans (State.setReady_onlyChannels _ _ _)

/-! ### READY of a pair -/

theorem xor_eight_ne (c : Nat) : c ^^^ 8 ≠ c := by
  intro h
  have h0 : c ^^^ (c ^^^ 8) = 8 := Nat.xor_xor_cancel_left c 8
  rw [h, Nat.xor_self] at h0
  cases h0

/-- A channel of a pair as its READY bit follows from its training (R169, R173). -/
def State.refreshed (s : State) (c k : Nat) : Hbus :=
  { s.chan k with ready := (s.chan k).trained && decide (s.mirrored c = s.mirrored (c ^^^ 8)) }

@[simp] theorem State.setReady_chan (s : State) (k : Nat) (v : Bool) (c : Nat) : (s.setReady k v).chan c = s.chan c :=
  congrArg (fun m : SMap Hbus => m.getD c {}) ((s.setReady_sends k v).elim fun _ h => h.hbus)

theorem State.refreshHbus_chan_self (s : State) (c : Nat) : (s.refreshHbus c).chan c = s.refreshed c c := by
  simp only [State.refreshHbus, List.foldl_cons, List.foldl_nil, State.setReady_chan, State.onChan_chan_ne _ _ _ _ (xor_eight_ne c).symm,
    State.onChan_chan, State.refreshed]

theorem State.refreshHbus_chan_partner (s : State) (c : Nat) : (s.refreshHbus c).chan (c ^^^ 8) = s.refreshed c (c ^^^ 8) := by
  simp only [State.refreshHbus, List.foldl_cons, List.foldl_nil, State.setReady_chan, State.onChan_chan_ne _ _ _ _ (xor_eight_ne c),
    State.onChan_chan, State.refreshed]

theorem State.refreshHbus_chan_ne (s : State) {c k : Nat} (hself : k ≠ c) (hpartner : k ≠ c ^^^ 8) : (s.refreshHbus c).chan k = s.chan k := by
  simp only [State.refreshHbus, List.foldl_cons, List.foldl_nil, State.setReady_chan, State.onChan_chan_ne _ _ _ _ hself,
    State.onChan_chan_ne _ _ _ _ hpartner]

/-- GLB_READY.HBUS says whether any channel is READY (R32). -/
theorem State.refreshHbus_hbusReady (s : State) (c : Nat) :
    (s.refreshHbus c).hbusReady = (List.range 16).any (fun k => ((s.refreshHbus c).chan k).ready) := by
  unfold State.refreshHbus
  dsimp only
  simp only [State.setReady_chan]
  exact State.setReady_getLsbD _ (by decide) _

/-! ### Reports in a log -/

/-- A report lost changes its log, and the rest is the EVENTs of the loss (R501, R502). -/
theorem State.lose_sends (s : State) (l : LogId) (r : Report) : s.Sends { s.lose l r with logs := s.logs } := by
  have events : ∃ g : SMap ErrLog, ({ s with logs := g } : State).Sends (s.lose l r) := by
    unfold State.lose
    dsimp only
    generalize s.logs.put (logKey l) _ = g
    refine ⟨g, ?_⟩
    split
    · refine State.event_sends _ _ _ ?_
      split
      · exact State.event_sends _ _ _ (State.note_sends _ _ (.refl _))
      · exact State.note_sends _ _ (.refl _)
    · split
      · exact State.event_sends _ _ _ (State.note_sends _ _ (.refl _))
      · exact State.note_sends _ _ (.refl _)
  obtain ⟨g, h⟩ := events
  exact h.map fun x => { x with logs := s.logs }

theorem State.toLog_sends (s : State) (l : LogId) (r : Report) : s.Sends { s.toLog l r with logs := s.logs } := by
  unfold State.toLog
  dsimp only
  split
  · exact .refl s
  · split
    · have h := State.lose_sends { s with logs := s.logs.put (logKey l) ((s.log l).missed s.nclk r) } l r
      exact h.map fun x => { x with logs := s.logs }
    · exact s.lose_sends l r

theorem State.toLog_buf {s : State} {l : LogId} (h : (s.log l).room (logCap l) = true) (r : Report) :
    ((s.toLog l r).log l).buf = (s.log l).buf ++ [r] := by
  unfold State.toLog
  dsimp only
  rw [if_pos h, State.log, SMap.getD_put_self]

/-- A report to the chip log has no copy (R498). -/
theorem State.report_chip (s : State) (cls : EClass) (source unit info detail : Nat) :
    s.report .chip cls source unit info detail = s.toLog .chip
      { time := s.now, w2 := reportW2 cls source unit info, w3 := BitVec.ofNat 32 detail, event := cls ≠ .ce } := rfl

theorem State.now_of_tide {s t : State} (h : t.tide = s.tide) : t.now = s.now := by
  rw [State.now, State.now, State.tide64, State.tide64, h]

/-! ### The commands -/

/-- A channel at the end of its training (R173). -/
def Hbus.afterTraining (pass : Bool) (h : Hbus) : Hbus := { h with training := false, trained := pass, fail := !pass, lost := h.lost && !pass }

/-- A channel that is lost, with the checks of its pages that were not written back (R167, R498). -/
def Hbus.gone (h : Hbus) : Hbus := { h with trained := false, lost := true, line := none, check := [] }

/-- A channel changed, with READY of its pair and of HBUS as they follow. -/
def State.changeChan (s : State) (c : Nat) (f : Hbus → Hbus) : State := (s.onChan c f).refreshHbus c

theorem exec_hbusTrainingDone {s : State} {c : Fin 16} (pass : Bool) (hr : s.inReset = false) (h : (s.chan c.val).training = true) :
    exec (.hbusTrainingDone c pass) s = .next (s.changeChan c.val (Hbus.afterTraining pass)) := by
  change execHbusTrainingDone c pass s = _
  rw [execHbusTrainingDone, hr, h]
  rfl

theorem exec_hbusLost {s : State} {c : Fin 16} (hr : s.inReset = false) (h : (s.chan c.val).ready = true) :
    exec (.hbusLost c) s = .next ((s.changeChan c.val Hbus.gone).report .chip
        (if s.mirrored c.val then .ucm else .fatal) 0x12 (c.val * 16 + 15) 0 0) := by
  change execHbusLost c s = _
  rw [execHbusLost, hr, h]
  rfl

theorem State.changeChan_self (s : State) (c : Nat) (f : Hbus → Hbus) : (s.changeChan c f).chan c = { f (s.chan c) with
    ready := (f (s.chan c)).trained && decide (s.mirrored c = s.mirrored (c ^^^ 8)) } := by
  rw [State.changeChan, State.refreshHbus_chan_self, State.refreshed, State.onChan_chan]
  rfl

/-- The partner of a channel that changes is touched in its READY bit alone. -/
theorem State.changeChan_partner (s : State) (c : Nat) (f : Hbus → Hbus) : (s.changeChan c f).chan (c ^^^ 8) = { s.chan (c ^^^ 8) with
    ready := (s.chan (c ^^^ 8)).trained && decide (s.mirrored c = s.mirrored (c ^^^ 8)) } := by
  rw [State.changeChan, State.refreshHbus_chan_partner, State.refreshed, State.onChan_chan_ne _ _ _ _ (xor_eight_ne c)]
  rfl

theorem State.changeChan_ne (s : State) {c k : Nat} (f : Hbus → Hbus) (hself : k ≠ c) (hpartner : k ≠ c ^^^ 8) :
    (s.changeChan c f).chan k = s.chan k := by
  rw [State.changeChan, State.refreshHbus_chan_ne _ hself hpartner, State.onChan_chan_ne _ _ _ _ hself]

theorem State.changeChan_onlyChannels (s : State) (c : Nat) (f : Hbus → Hbus) : s.OnlyChannels (s.changeChan c f) :=
  (s.onChan_onlyChannels c f).trans (State.refreshHbus_onlyChannels _ c)

/-- GLB_READY.HBUS says whether any channel is READY (R32). -/
theorem State.changeChan_hbusReady (s : State) (c : Nat) (f : Hbus → Hbus) :
    (s.changeChan c f).hbusReady = (List.range 16).any (fun k => ((s.changeChan c f).chan k).ready) := State.refreshHbus_hbusReady _ _

theorem State.OnlyChannels.tide {s t : State} (h : s.OnlyChannels t) : t.tide = s.tide :=
  State.Sends.tide (t := { t with hbus := s.hbus, ready := s.ready }) h

theorem State.OnlyChannels.logs {s t : State} (h : s.OnlyChannels t) : t.logs = s.logs :=
  State.Sends.logs (t := { t with hbus := s.hbus, ready := s.ready }) h

/-- A report then made is in its log, and else only sends. -/
theorem State.OnlyChannels.toLog {s t : State} (h : s.OnlyChannels t) (l : LogId) (r : Report) :
    s.Sends { t.toLog l r with hbus := s.hbus, ready := s.ready, logs := s.logs } := by
  rw [← h.logs]
  exact State.Sends.trans h ((t.toLog_sends l r).map fun x => { x with hbus := s.hbus, ready := s.ready })

/-- Settles O41: READY of the pair follows from the channel as the command leaves it, and a loss is then reported. -/
theorem hyperBusChannels : Obligations.HyperBusChannels := by
  intro s c pass hr
  refine ⟨fun htraining => ?trained, fun hready => ?lost⟩
  case trained =>
    have hself := s.changeChan_self c.val (Hbus.afterTraining pass)
    refine ⟨_, exec_hbusTrainingDone pass hr htraining, ?_, ?_, ?_, ?_, s.changeChan_hbusReady _ _, s.changeChan_partner _ _,
      fun k => s.changeChan_ne _, s.changeChan_onlyChannels _ _⟩ <;> rw [hself] <;> rfl
  case lost =>
    have hself := s.changeChan_self c.val Hbus.gone
    have honly := s.changeChan_onlyChannels c.val Hbus.gone
    have hexec := exec_hbusLost hr hready
    rw [State.report_chip, State.now_of_tide honly.tide] at hexec
    have hlogged := State.toLog_sends (s.changeChan c.val Hbus.gone) .chip
    have hlog : (s.changeChan c.val Hbus.gone).log .chip = s.log .chip := congrArg (fun m : SMap ErrLog => m.getD _ {}) honly.logs
    have hchan (r : Report) (k : Nat) : ((s.changeChan c.val Hbus.gone).toLog .chip r).chan k = (s.changeChan c.val Hbus.gone).chan k :=
      congrArg (fun m : SMap Hbus => m.getD k {}) (hlogged r).hbus
    refine ⟨_, hexec, ?_, ?_, ?_, ?_, ?_, ?_, fun k hk hk' => ?_, 
      fun hroom => ⟨_, (State.toLog_buf (hlog ▸ hroom) _).trans (congrArg (·.buf ++ _) hlog), rfl, rfl⟩, ?_⟩
    · rw [hchan, hself]
      rfl
    · rw [hchan, hself]
      rfl
    · rw [hchan, hself]
      rfl
    · rw [hchan, hself]
      rfl
    · simp only [hchan, ← s.changeChan_hbusReady]
      exact congrArg (fun w : Word => w.getLsbD 3) (hlogged _).ready
    · rw [hchan, s.changeChan_partner]
    · rw [hchan, s.changeChan_ne _ hk hk']
    · exact honly.toLog .chip _

end Sys2Proof.Machine
end

section
/-!
PROOF. HBUS_n_CFG and the configuration of the host ports (R173, R471): what their writes change, at once or behind their answer.
-/

namespace Sys2Proof.Machine

/-! ### Registers, channels and the reserved-write flag -/

/-- Nothing changed but registers, channels and READY bits, the reserved-write flag with its record, and what is sent and answered. -/
def State.OnlyConfigured (s t : State) : Prop := s.OnlyRsvd { t with hbus := s.hbus, regs := s.regs, ready := s.ready }

/-- A state whose registers, channels, READY bits, reserved-write record and service SPI are another's. -/
def State.configuredAs (x s : State) : State :=
  { x with hbus := s.hbus, regs := s.regs, ready := s.ready, rsvdWrite := s.rsvdWrite, rsvdSrc := s.rsvdSrc, rsvdAddr := s.rsvdAddr, svc := s.svc }

theorem State.OnlyConfigured.trans {s t u : State} (h : s.OnlyConfigured t) (h' : t.OnlyConfigured u) : s.OnlyConfigured u :=
  State.Sends.trans h (State.Sends.map h' fun x => x.configuredAs s)

theorem State.OnlyRsvd.configured {s t : State} (h : s.OnlyRsvd t) : s.OnlyConfigured t :=
  State.Sends.map h fun x => x.configuredAs s

theorem State.Answers.onlyRsvd {s t : State} (h : s.Answers t) : s.OnlyRsvd t :=
  State.Sends.map h fun x => { x with rsvdWrite := s.rsvdWrite, rsvdSrc := s.rsvdSrc, rsvdAddr := s.rsvdAddr }

theorem State.OnlyRsvd.trans {s t u : State} (h : s.OnlyRsvd t) (h' : t.OnlyRsvd u) : s.OnlyRsvd u :=
  State.Sends.trans h (State.Sends.map h' fun x => { x with rsvdWrite := s.rsvdWrite, rsvdSrc := s.rsvdSrc, rsvdAddr := s.rsvdAddr, svc := s.svc })

theorem State.OnlyChannels.configured {s t : State} (h : s.OnlyChannels t) : s.OnlyConfigured t :=
  State.Sends.map h fun x => x.configuredAs s

theorem State.rsvd_onlyRsvd (s : State) (src : RegSrc) (r : Reg) : s.OnlyRsvd (s.rsvd src r) := by
  unfold State.rsvd State.setRsvd
  dsimp only
  split <;> exact ⟨rfl, fun _ => rfl⟩

theorem State.fields_onlyRsvd (s : State) (src : RegSrc) (r : Reg) (v : Word) : s.OnlyRsvd (s.fields src r v).2 := by
  unfold State.fields
  dsimp only
  split
  · exact s.rsvd_onlyRsvd src r
  · exact State.Sends.refl s

theorem State.fields_regs (s : State) (src : RegSrc) (r : Reg) (v : Word) : (s.fields src r v).2.regs = s.regs := by
  unfold State.fields
  dsimp only
  split
  · exact s.rsvd_regs src r
  · rfl

theorem State.OnlyRsvd.hbus {s t : State} (h : s.OnlyRsvd t) : t.hbus = s.hbus :=
  State.Answers.hbus (t := { t with rsvdWrite := s.rsvdWrite, rsvdSrc := s.rsvdSrc, rsvdAddr := s.rsvdAddr }) h

theorem State.OnlyRsvd.regs {s t : State} (h : s.OnlyRsvd t) : t.regs = s.regs :=
  State.Answers.regs (t := { t with rsvdWrite := s.rsvdWrite, rsvdSrc := s.rsvdSrc, rsvdAddr := s.rsvdAddr }) h

theorem State.OnlyRsvd.hcfg {s t : State} (h : s.OnlyRsvd t) : t.hcfg = s.hcfg :=
  State.Answers.hcfg (t := { t with rsvdWrite := s.rsvdWrite, rsvdSrc := s.rsvdSrc, rsvdAddr := s.rsvdAddr }) h

theorem State.setRw_rw_ne (s : State) {r q : Reg} (w : Word) (h : q.addr ≠ r.addr) : (s.setRw r w).rw q = s.rw q :=
  SMap.getD_put_ne _ _ _ h

theorem State.putFields_onlyConfigured (s : State) (src : RegSrc) (r : Reg) (v : Word) : s.OnlyConfigured (s.putFields src r v) := by
  unfold State.putFields
  split
  · exact State.Sends.refl s
  · exact (s.fields_onlyRsvd src r v).configured.trans (State.Sends.refl _)

/-- A write of stored fields changes no other register. -/
theorem State.putFields_rw_ne (s : State) (src : RegSrc) {r q : Reg} (v : Word) (h : q.addr ≠ r.addr) : (s.putFields src r v).rw q = s.rw q := by
  unfold State.putFields
  split
  · rfl
  · dsimp only
    rw [State.setRw_rw_ne _ _ h, State.rw, State.rw, s.fields_regs]

theorem State.putFields_hbus (s : State) (src : RegSrc) (r : Reg) (v : Word) : (s.putFields src r v).hbus = s.hbus := by
  unfold State.putFields
  split
  · rfl
  · exact (s.fields_onlyRsvd src r v).hbus

/-! ### HBUS_n_CFG (R173) -/

/-- A channel as a write of its configuration leaves it, but for READY. -/
def Hbus.restarted (en : Bool) (h : Hbus) : Hbus := { h with trained := false, training := en, fail := false, line := none, check := [] }

theorem State.configHbus_eq (s : State) (c : Nat) :
    s.configHbus c = s.changeChan c (Hbus.restarted (decide (s.rwField (.hbusCfg c) 15 15 = 1))) := rfl

/-- A configuration that is not READY trains anew where ENABLE is set, and is not READY till then. -/
theorem State.configHbus_chan (s : State) (c : Nat) : ((s.configHbus c).chan c).trained = false
    ∧ ((s.configHbus c).chan c).training = decide (s.rwField (.hbusCfg c) 15 15 = 1) ∧ ((s.configHbus c).chan c).ready = false := by
  rw [State.configHbus_eq, State.changeChan_self]
  exact ⟨rfl, rfl, rfl⟩

/-- While the channel is READY the write is reserved. -/
theorem State.writeReg_hbusCfg_ready {s : State} {n : Nat} (h : (s.chan n).ready = true) (src : RegSrc) (v : Word) :
    s.writeReg src (.hbusCfg n) v = (s.rsvd src (.hbusCfg n)).wrote := by
  rw [State.writeReg, h, if_pos rfl]

theorem exec_hbusCfgWrite_ready {s : State} {src : RegSrc} {c : Fin 16} {v : Word} (ok : s.WriteOk (.hbusCfg c.val) v src)
    (h : (s.chan c.val).ready = true) : ∃ t, exec (.hbusCfgWrite src c v) s = .next t ∧ s.OnlyRsvd t := by
  obtain ⟨u, hu, -, hans⟩ := State.writeBy_ok ok (Reg.ofAddr_hbusCfg c.isLt) rfl
  have hchan : (u.chan c.val).ready = true := by rw [State.chan, hu.hbus]; exact h
  rw [State.writeReg_hbusCfg_ready hchan] at hans
  exact ⟨_, rfl, (hu.answers.onlyRsvd.trans (u.rsvd_onlyRsvd src _)).trans (hans rfl).onlyRsvd⟩

theorem exec_hbusCfgWrite_restarts {s : State} {src : RegSrc} {c : Fin 16} {v : Word} (ok : s.WriteOk (.hbusCfg c.val) v src)
    (h : (s.chan c.val).ready = false) : ∃ u t, s.Sends u ∧ exec (.hbusCfgWrite src c v) s = .next t
      ∧ ((u.putFields src (.hbusCfg c.val) v).configHbus c.val).Answers t := by
  obtain ⟨u, hu, -, hans⟩ := State.writeBy_ok ok (Reg.ofAddr_hbusCfg c.isLt) rfl
  have hchan : (u.chan c.val).ready = false := by rw [State.chan, hu.hbus]; exact h
  rw [State.writeReg_hbusCfg hchan] at hans
  exact ⟨u, _, hu, rfl, hans rfl⟩

/-! ### Host ports (R471) -/

theorem hportRegOf_deferred (n : Port) (hr : HportReg) : (hportRegOf n hr).deferred = true := by cases hr <;> rfl

theorem Reg.ofAddr_hportRegOf (n : Port) (hr : HportReg) : Reg.ofAddr (hportRegOf n hr).addr = some (hportRegOf n hr) := by
  have hn : portIx n < 2 := by cases n <;> decide
  cases hr with
  | cfg => exact Reg.ofAddr_hportCfg hn
  | macHi => exact Reg.ofAddr_hportMacHi hn
  | macLo => exact Reg.ofAddr_hportMacLo hn
  | ipv4 => exact Reg.ofAddr_hportIpv4 hn
  | ipv6 k => exact Reg.ofAddr_hportIpv6 hn k.isLt
  | net => exact Reg.ofAddr_hportNet hn

/-- The write of a register that takes effect later leaves the reserved-write flag at most. -/
theorem State.writeReg_deferred {r : Reg} (h : r.deferred = true) (s : State) (src : RegSrc) (v : Word) :
    s.writeReg src r v = (s.fields src r v).2.wrote := by
  cases r <;> first | rfl | cases h

@[simp] theorem State.setReady_hcfg (s : State) (k : Nat) (v : Bool) : (s.setReady k v).hcfg = s.hcfg := by
  obtain ⟨w, h⟩ := s.setReady_sends k v
  exact h.hcfg

theorem State.linkLost_regs (s : State) (p : Nat) : (s.linkLost p).regs = s.regs := by
  unfold State.linkLost
  dsimp only
  split
  · exact State.setReady_regs _ _ _
  · split
    · exact State.setReady_regs _ _ _
    · rfl

theorem State.linkLost_hcfg (s : State) (p : Nat) : (s.linkLost p).hcfg = s.hcfg := by
  unfold State.linkLost
  dsimp only
  split
  · exact State.setReady_hcfg _ _ _
  · split
    · exact State.setReady_hcfg _ _ _
    · rfl

/-- What takes effect of a port's configuration is its register, whatever becomes of the link. -/
theorem State.applyHcfg_regs {r : Reg} (ha : Reg.ofAddr r.addr = some r) (s : State) (v : Word) :
    (s.applyHcfg r.addr v).regs = (s.setRw r v).regs ∧ (s.applyHcfg r.addr v).hcfg = s.hcfg := by
  unfold State.applyHcfg
  rw [ha]
  split
  next n h =>
    cases h
    dsimp only
    split
    · exact ⟨rfl, rfl⟩
    · exact ⟨State.linkLost_regs _ _, State.linkLost_hcfg _ _⟩
  next r' _ h =>
    cases h
    exact ⟨rfl, rfl⟩
  next h => cases h

/-- A deferred register written from the service SPI takes effect at once. -/
theorem State.writeBy_spi_deferred {s : State} {r : Reg} {v : Word} (ok : s.WriteOk r v .spi) (ha : Reg.ofAddr r.addr = some r)
    (hd : r.deferred = true) : s.writeBy .spi r v
      = { (s.fields .spi r v).2.applyHcfg r.addr (s.stored r v) with svc := svcResp .ok 0 } := by
  obtain ⟨hr, hbooted, hanswers⟩ := ok
  simp only [State.writeBy, hr, hbooted, State.spiWrite, ha, hanswers, State.writeRegs, State.writeReg_deferred hd, State.deferredWrites, hd]
  rfl

/-- A deferred register written by a message waits behind the message's answer. -/
theorem State.writeBy_sqp_deferred {s : State} {r : Reg} {v : Word} {h : SqpHdr} (ok : s.WriteOk r v (.sqp h)) (ha : Reg.ofAddr r.addr = some r)
    (hd : r.deferred = true) : ∃ u w, s.Sends u ∧ u.OnlyRsvd w ∧ s.writeBy (.sqp h) r v
      = { w.answerMsg h 0x03 0 (regResp r.addr 1 .ok []) true with
          hcfg := (w.answerMsg h 0x03 0 (regResp r.addr 1 .ok []) true).hcfg
            ++ [HcfgPend.mk h.port (w.hport h.port).nextSeq r.addr (s.stored r v)] } := by
  obtain ⟨g, hl, hright, hmay, hans⟩ := ok
  obtain ⟨u, hu, e⟩ := State.received_gets g (fun s => s.regWrite h r.addr 1 [v] (lenIs h 12))
  refine ⟨u, (u.fields (.sqp h) r v).2, hu, u.fields_onlyRsvd _ _ _, e.trans ?_⟩
  have hn : List.range 1 = [0] := rfl
  rw [State.stored, ← hu.cur]
  simp only [State.regWrite, hn, List.all_cons, List.all_nil, hu.mayWrite, hu.hasRight, hright, Nat.mul_zero, Nat.add_zero,
    List.getElem?_cons_zero, hmay, regsAt, ha, addrsOf, List.map_cons, List.map_nil, hu.sqpAnswers, hans, lenIs, hl, zipRegs, State.doWrite,
    State.writeRegs, State.writeReg_deferred hd, State.wrote, State.deferredWrites, hd]
  rfl

theorem exec_hportCfgWrite_spi {s : State} {n : Port} {hr : HportReg} {v : Word} (ok : s.WriteOk (hportRegOf n hr) v .spi) :
    ∃ t, exec (.hportCfgWrite .spi n hr v) s = .next t ∧ t.hcfg = s.hcfg
      ∧ t.regs = (s.setRw (hportRegOf n hr) (s.stored (hportRegOf n hr) v)).regs := by
  have ha := Reg.ofAddr_hportRegOf n hr
  obtain ⟨hregs, hhcfg⟩ := (s.fields .spi (hportRegOf n hr) v).2.applyHcfg_regs ha (s.stored (hportRegOf n hr) v)
  refine ⟨_, congrArg Host.Outcome.next (State.writeBy_spi_deferred ok ha (hportRegOf_deferred n hr)), ?_, ?_⟩
  · exact hhcfg.trans (s.fields_onlyRsvd _ _ _).hcfg
  · exact hregs.trans (congrArg (fun m : SMap Word => m.put _ _) (s.fields_regs _ _ _))

/-- Settles O24: each write by what its register's write does, between what the message's checks and its answer send. -/
theorem channelAndPortConfiguration : Obligations.ChannelAndPortConfiguration := by
  intro s src c v n hr
  refine ⟨fun ok => ⟨exec_hbusCfgWrite_ready ok, fun hready => ?restarts⟩, fun ok => ?port⟩
  case restarts =>
    obtain ⟨u, t, hu, hexec, hans⟩ := exec_hbusCfgWrite_restarts ok hready
    obtain ⟨htrained, htraining, hready'⟩ := (u.putFields src (.hbusCfg c.val) v).configHbus_chan c.val
    have hchan : t.chan c.val = ((u.putFields src (.hbusCfg c.val) v).configHbus c.val).chan c.val :=
      congrArg (fun m : SMap Hbus => m.getD _ {}) hans.hbus
    have hregs : t.regs = (u.putFields src (.hbusCfg c.val) v).regs := hans.regs.trans (State.configHbus_regs _ _)
    have hrw (r : Reg) : t.rw r = (u.putFields src (.hbusCfg c.val) v).rw r := by rw [State.rw, hregs, State.rw]
    refine ⟨t, hexec, ?_, hchan ▸ htrained, ?_, hchan ▸ hready', fun r hne => ?_, ?_⟩
    · rw [hrw, u.putFields_rw_self src (r := .hbusCfg c.val) v (List.cons_ne_nil _ _), State.stored, State.stored, hu.cur]
    · rw [hchan, htraining, State.rwField, State.rwField, hrw]
    · rw [hrw, u.putFields_rw_ne src v hne, State.rw, hu.regs, State.rw]
    · exact ((hu.answers.onlyRsvd.configured.trans (u.putFields_onlyConfigured src _ v)).trans
        (State.changeChan_onlyChannels _ _ _).configured).trans hans.onlyRsvd.configured
  case port =>
    cases src with
    | spi =>
      obtain ⟨t, hexec, hhcfg, hregs⟩ := exec_hportCfgWrite_spi ok
      refine ⟨t, hexec, fun _ => ⟨?_, hhcfg, fun r hne => ?_⟩, fun h heq => nomatch heq⟩
      · rw [State.rw, hregs, State.setRw, SMap.getD_put_self]
      · rw [State.rw, hregs]
        exact State.setRw_rw_ne s _ hne
    | sqp h =>
      obtain ⟨u, w, hu, hw, heq⟩ := State.writeBy_sqp_deferred ok (Reg.ofAddr_hportRegOf n hr) (hportRegOf_deferred n hr)
      refine ⟨_, congrArg Host.Outcome.next heq, (fun h => nomatch h), ?_⟩
      rintro _ ⟨⟩
      have hsent := State.answerMsg_sends h 0x03 0 (regResp (hportRegOf n hr).addr 1 .ok []) true (.refl w)
      obtain ⟨f, fs, hframes, hseq⟩ := State.numberMsg_frames (m := answerTo h 0x03 0 (regResp (hportRegOf n hr).addr 1 .ok []))
        (List.cons_ne_nil _ _) w h.port
      refine ⟨hsent.regs.trans (hw.regs.trans hu.regs), (w.hport h.port).nextSeq, ?_, f, fs, ?_, hseq⟩
      · rw [hsent.hcfg, hw.hcfg, hu.hcfg]
      · exact hframes ▸ w.answerMsg_recs h 0x03 0 _

end Sys2Proof.Machine
end

section
/-!
PROOF. Messages sent and checks passed leave alone the SEQ of the last window write applied on each port (R154), by which an older one is refused.
-/

namespace Sys2Proof.Machine

/-- On each port the same window write was the last to be applied. -/
def State.SameWin (s t : State) : Prop := ∀ p, (t.hport p).lastWinSeq = (s.hport p).lastWinSeq

namespace State.SameWin

variable {s t u : State}

theorem refl (s : State) : s.SameWin s := fun _ => rfl

theorem trans (h : s.SameWin t) (h' : t.SameWin u) : s.SameWin u := fun p => (h' p).trans (h p)

theorem foldl {α : Type} {f : State → α → State} (hf : ∀ (s : State) x, s.SameWin (f s x)) (l : List α) (s : State) :
    s.SameWin (l.foldl f s) :=
  List.foldlRecOn (motive := s.SameWin) l f (refl s) fun t ht x _ => ht.trans (hf t x)

theorem ite {b : Prop} [Decidable b] (h : s.SameWin t) (h' : s.SameWin u) : s.SameWin (if b then t else u) := by
  split
  · exact h
  · exact h'

/-- A change of something else than the host ports. -/
theorem of_hports (ha : t.hportA = s.hportA) (hb : t.hportB = s.hportB) : s.SameWin t
  | .a => congrArg HPort.lastWinSeq ha
  | .b => congrArg HPort.lastWinSeq hb

end State.SameWin

theorem State.onHport_sameWin (s : State) (p : Port) {f : HPort → HPort} (hf : ∀ h, (f h).lastWinSeq = h.lastWinSeq) :
    s.SameWin (s.onHport p f) := fun q => by
  by_cases hq : q = p
  · rw [hq, State.onHport_hport, hf]
  · rw [State.onHport_hport_ne _ _ _ _ hq]

/-! ### Messages -/

theorem State.kick_sameWin (s : State) (p : Nat) : s.SameWin (s.kick p) := by
  refine .ite (.refl s) ?_
  split
  · exact .refl s
  · exact .of_hports rfl rfl

theorem State.transmit_sameWin (s : State) (f : OutFrame) : s.SameWin (s.transmit f) := by
  refine State.SameWin.trans ?_ (State.kick_sameWin _ _)
  exact .of_hports rfl rfl

theorem State.handNow_sameWin (s : State) (f : OutFrame) : s.SameWin (s.handNow f) := by
  refine State.SameWin.trans ?_ (State.transmit_sameWin _ _)
  dsimp only
  split
  · exact s.onHport_sameWin _ fun _ => rfl
  · exact .refl s

theorem State.handFrame_sameWin (s : State) (f : OutFrame) : s.SameWin (s.handFrame f) :=
  .ite (.ite (s.handNow_sameWin f) (s.onHport_sameWin _ fun _ => rfl)) (s.handNow_sameWin f)

theorem State.numberMsg_sameWin (s : State) (p : Port) (m : OutMsg) : s.SameWin (s.numberMsg p m).2 := s.onHport_sameWin p fun _ => rfl

theorem State.sendMsg_sameWin (s : State) (p : Port) (m : OutMsg) : s.SameWin (s.sendMsg p m).2 :=
  (s.numberMsg_sameWin p m).trans (.foldl State.handFrame_sameWin _ _)

theorem State.eventOn_sameWin (s : State) (p : Port) (kind subject : Nat) (body : List Byte) : s.SameWin (s.eventOn p kind subject body) := by
  refine .ite ?_ (.refl s)
  split
  · exact s.sendMsg_sameWin _ _
  · exact .refl s

theorem State.event_sameWin (s : State) (kind subject : Nat) (body : List Byte) : s.SameWin (s.event kind subject body) :=
  (s.eventOn_sameWin .a kind subject body).trans (State.eventOn_sameWin _ .b kind subject body)

theorem State.bump_sameWin (s : State) (c : Ctr) : s.SameWin (s.bump c) := by
  unfold State.bump
  dsimp only
  split
  · refine State.SameWin.trans ?_ (State.event_sameWin _ _ _ _)
    exact .of_hports rfl rfl
  · exact .of_hports rfl rfl

/-! ### Completions -/

theorem State.withComps_sameWin (s : State) (l : List CompRec) : s.SameWin { s with comps := l } := .of_hports rfl rfl

theorem State.payFrames_sameWin (p : Nat) (l : List Nat) (s : State) : s.SameWin (State.payFrames p l s).2 := by
  induction l generalizing s with
  | nil => exact .refl s
  | cons n r ih =>
    unfold State.payFrames
    split
    · exact .of_hports rfl rfl
    · have hframe := (s.charge_onlyCharged p .host n).frame
      exact State.SameWin.trans (.of_hports ((congrArg State.hportA hframe).trans rfl) ((congrArg State.hportB hframe).trans rfl)) (ih _)

theorem State.dropComp_sameWin (s : State) (id : Nat) : s.SameWin (s.dropComp id) := by
  refine State.SameWin.trans ?_ (State.onHport_sameWin _ .b (f := fun h => h.dropMsg id) fun _ => rfl)
  exact (s.withComps_sameWin _).trans (State.onHport_sameWin _ .a (f := fun h => h.dropMsg id) fun _ => rfl)

theorem State.markSent_sameWin (s : State) (p : Port) (id : Nat) : s.SameWin (s.markSent p id) := by
  unfold State.markSent
  split
  · exact .refl s
  · exact .of_hports rfl rfl

theorem State.pumpN_sameWin (p : Port) (n : Nat) (s : State) : s.SameWin (s.pumpN p n) := by
  induction n generalizing s with
  | zero => exact .refl s
  | succ n ih =>
    unfold State.pumpN
    split
    · exact .refl s
    · refine .ite (.refl s) (.ite ?_ ?_)
      · exact ((s.dropComp_sameWin _).trans (State.bump_sameWin _ _)).trans (ih _)
      · refine State.SameWin.trans ?_ (ih _)
        refine State.SameWin.trans ?_ (State.markSent_sameWin _ _ _)
        refine State.SameWin.trans ?_ (State.handNow_sameWin _ _)
        exact s.onHport_sameWin p fun _ => rfl

theorem State.freeComp_sameWin (s : State) (id : Nat) : s.SameWin (s.freeComp id) :=
  ((s.dropComp_sameWin id).trans (State.pumpN_sameWin _ _ _)).trans (State.pumpN_sameWin _ _ _)

theorem State.tryComp_sameWin (s : State) (c : CompRec) : s.SameWin (s.tryComp c) := by
  have sent (q : QueueSt) (ps : List (Port × HostAddr)) (u : State) : u.SameWin (ps.foldl (fun s x => s.sendComp c q x) u) :=
    .foldl (fun s x => s.sendMsg_sameWin _ _) ps u
  have marked (ps : List (Port × HostAddr)) (u : State) : u.SameWin (ps.foldl (fun s x => s.markSent x.1 c.id) u) :=
    .foldl (fun s x => s.markSent_sameWin _ _) ps u
  have paid (b : Bool) (pan : Nat) (fs : List Nat) :
      s.SameWin (if b then State.payFrames pan fs s else (fs.length, s)).2 := by
    cases b
    · exact .refl s
    · exact State.payFrames_sameWin pan fs s
  unfold State.tryComp
  dsimp only
  split
  · exact .refl s
  split
  · exact (s.withComps_sameWin _).trans (State.bump_sameWin _ _)
  split
  · exact s.withComps_sameWin _
  split
  · exact .refl s
  generalize ((s.queueCfg c.queue).map QueueCfg.pan).getD 0 = pan
  generalize (s.compFrames c _).drop c.paid = fs
  have hpaid := paid (decide ((s.bucketCfg pan .host).depth ≠ 0)) pan fs
  revert hpaid
  generalize (if decide ((s.bucketCfg pan .host).depth ≠ 0) = true then _ else _ : Nat × State) = x
  intro hpaid
  refine hpaid.trans ?_
  split
  · exact State.withComps_sameWin _ _
  split
  · exact ((sent _ _ _).trans (State.withComps_sameWin _ _)).trans (marked _ _)
  · exact (sent _ _ _).trans (State.freeComp_sameWin _ _)

/-! ### The checks of a message -/

theorem State.recordAddr_sameWin (s : State) (h : SqpHdr) : s.SameWin (s.recordAddr h) :=
  State.SameWin.trans (s.onHport_sameWin h.port (f := fun p =>
    { p with clientAddr := p.clientAddr.put h.client.val h.src, portAddr := some h.src }) fun _ => rfl) (.foldl State.tryComp_sameWin _ _)

theorem State.duplicate_sameWin (s : State) (h : SqpHdr) (a : Answer) : s.SameWin (s.duplicate h a).2 := by
  unfold State.duplicate
  dsimp only
  split
  · exact (s.bump_sameWin _).trans (.foldl (fun s f => s.transmit_sameWin _) _ _)
  · exact s.bump_sameWin _
  · exact s.bump_sameWin _

theorem State.sequence_sameWin (s : State) (h : SqpHdr) : s.SameWin (s.sequence h true).2 := by
  unfold State.sequence
  dsimp only
  split
  · exact s.onHport_sameWin _ fun _ => rfl
  · split
    · exact s.onHport_sameWin _ fun _ => rfl
    · split
      · split
        · exact s.duplicate_sameWin _ _
        · exact s.onHport_sameWin _ fun _ => rfl
      · exact s.bump_sameWin _

/-- A message that is let through meets its further checks in the state that checks 1 to 5 leave. -/
theorem State.received_afterChecks {s : State} {h : SqpHdr} (g : s.Gets h) (go : State → State) : s.received h go = go (s.afterChecks h) := by
  have hgo := (State.accept_gets g).1
  unfold State.received State.afterChecks
  rw [g.awake, g.ready]
  revert hgo
  generalize s.accept h true true = x
  obtain ⟨b, u⟩ := x
  intro hgo
  obtain rfl : b = true := hgo
  rfl

theorem State.afterChecks_sends {s : State} {h : SqpHdr} (g : s.Gets h) : s.Sends (s.afterChecks h) := (State.accept_gets g).2

theorem State.afterChecks_sameWin {s : State} {h : SqpHdr} (g : s.Gets h) : s.SameWin (s.afterChecks h) := by
  have haccept : s.accept h true true = (s.recordAddr h).sequence h true := by
    have hrevive : s.revive h.port = s := if_neg (by rw [g.responsive]; exact Bool.false_ne_true)
    have h32 : ¬ 32 + h.length.toNat < 32 := by omega
    unfold State.accept
    simp [g.crc, g.length, g.version, g.port, hrevive, h32]
  rw [State.afterChecks, haccept]
  exact (s.recordAddr_sameWin h).trans (State.sequence_sameWin _ h)

end Sys2Proof.Machine
end

section
/-!
PROOF. Windows (R149-R156, R467, R469): opening and closing, accesses staged in the order of their SEQ, and a write that is applied.
-/

namespace Sys2Proof.Machine

/-! ### Messages for windows -/

/-- A message that is let through to its own checks meets them in the state that checks 1 to 5 leave, where what it uses is READY. -/
theorem State.MsgOk.message {s : State} {h : SqpHdr} {right : Option Right} {n : Nat} (m : s.MsgOk h right n) {ready : State → Bool}
    (hready : ready (s.afterChecks h) = true) (body : State → State) :
    s.message h right ready (lenIs h n) body = body (s.afterChecks h) := by
  obtain ⟨g, hright, hlen⟩ := m
  rw [State.message, State.lockedMessage, State.received_afterChecks g, State.lateChecks, (State.afterChecks_sends g).hasRight, hright, hready,
    lenIs, decide_eq_true hlen]
  rfl

theorem State.Sends.window {s u : State} (hu : s.Sends u) (w : Nat) : u.window w = s.window w :=
  congrArg (fun m : SMap WinSt => m.getD w {}) hu.windows

theorem State.Sends.windowReady {s u : State} (hu : s.Sends u) (r : Nat) : u.windowReady r = s.windowReady r := by
  simp only [State.windowReady, State.qmgrReady, State.regionReady, hu.ready]

theorem State.Sends.openWindowReady {s u : State} (hu : s.Sends u) (h : SqpHdr) : u.openWindowReady h = s.openWindowReady h := by
  simp only [State.openWindowReady, hu.window, hu.windowReady, State.qmgrReady, hu.ready]

theorem State.Sends.stagedBytes {s u : State} (hu : s.Sends u) : u.stagedBytes = s.stagedBytes := by
  simp only [State.stagedBytes, hu.staged]

theorem State.onOpenWindow_closed {s : State} {h : SqpHdr} (hw : h.number.toNat < 256) (hclosed : (s.window h.number.toNat).isOpen = false)
    (go : State → WinSt → State) : s.onOpenWindow h false go = s.nak h .windowClosed := by
  unfold State.onOpenWindow
  dsimp only
  rw [if_neg (by omega), hclosed]
  rfl

theorem State.onOpenWindow_open {s : State} {h : SqpHdr} (hw : h.number.toNat < 256) (hopen : (s.window h.number.toNat).isOpen = true)
    (hgen : h.gen = (s.window h.number.toNat).gen) (access : Bool) (go : State → WinSt → State) :
    s.onOpenWindow h access go = go s (s.window h.number.toNat) := by
  unfold State.onOpenWindow
  dsimp only
  rw [if_neg (by omega), hopen, if_neg (by simp), if_neg (by simpa using hgen)]

/-! ### Opening and closing -/

theorem windowRangeOk_iff (region ofs len : Nat) : windowRangeOk region ofs len = true ↔
    region < 4 ∧ ofs % 64 = 0 ∧ len % 64 = 0 ∧ 0 < len ∧ ofs + len ≤ 0x600000 := by
  simp [windowRangeOk, and_assoc]

theorem toNat_pos_iff (w : Word) : 0 < w.toNat ↔ w ≠ 0 := by
  rw [Nat.pos_iff_ne_zero, ne_eq, ne_eq, ← BitVec.toNat_inj]
  rfl

theorem State.windowOpen_busy {s : State} {h : SqpHdr} (hw : h.number.toNat < 256) (hopen : (s.window h.number.toNat).isOpen = true)
    (region : Byte) (ofs len : Word) : s.windowOpen h region ofs len = s.nak h .busy := by
  unfold State.windowOpen
  dsimp only
  rw [if_neg (by omega), if_pos hopen]

theorem State.windowOpen_range {s : State} {h : SqpHdr} (hw : h.number.toNat < 256) (hclosed : (s.window h.number.toNat).isOpen = false)
    {region : Byte} {ofs len : Word} (hbad : windowRangeOk region.toNat ofs.toNat len.toNat = false) :
    s.windowOpen h region ofs len = s.nak h .windowRange := by
  unfold State.windowOpen
  dsimp only
  rw [if_neg (by omega), if_neg (by rw [hclosed]; exact Bool.false_ne_true), hbad]
  rfl

/-- A window as WINDOW_OPEN leaves it (R149, R469). -/
def WinSt.opened (x : WinSt) (region : Byte) (ofs len : Word) : WinSt :=
  { isOpen := true, gen := x.gen + 1, region := region.toNat, ofs := ofs.toNat, len := len.toNat }

theorem State.windowOpen_ok {s : State} {h : SqpHdr} (hw : h.number.toNat < 256) (hclosed : (s.window h.number.toNat).isOpen = false)
    {region : Byte} {ofs len : Word} (hok : windowRangeOk region.toNat ofs.toNat len.toNat = true) :
    s.windowOpen h region ofs len
      = (s.onWindow h.number.toNat fun x => x.opened region ofs len).okGen h ((s.window h.number.toNat).gen + 1) := by
  unfold State.windowOpen
  dsimp only
  rw [if_neg (by omega), if_neg (by rw [hclosed]; exact Bool.false_ne_true), hok, if_neg (by simp), State.onWindow_window]
  rfl

/-- A window changed and its message answered OK: the window is as changed, no other one is touched, and the rest is the answer. -/
theorem State.Sends.windowChanged {s u : State} (hu : s.Sends u) (w : Nat) (f : WinSt → WinSt) (h : SqpHdr) (gen : BitVec 16) (pay : List Byte) :
    ∃ t, t = (u.onWindow w f).answerMsg h 0x7F gen pay true ∧ t.window w = f (s.window w) ∧ t.Replied h 0x7F gen pay
      ∧ (∀ k, k ≠ w → t.window k = s.window k) ∧ s.Sends { t with windows := s.windows } := by
  have hsent := State.answerMsg_sends h 0x7F gen pay true (.refl (u.onWindow w f))
  refine ⟨_, rfl, ?_, State.answerMsg_replied _ h 0x7F gen pay, fun k hk => ?_, ?_⟩
  · rw [hsent.window, State.onWindow_window, hu.window]
  · rw [hsent.window, State.onWindow_window_ne _ _ _ _ hk, hu.window]
  · have := hsent.map fun x => { x with windows := u.windows }
    rw [← hu.windows]
    exact hu.trans this

/-! ### Staging -/

/-- An access is put behind those accepted before it, but before the first of its port whose SEQ is newer. -/
theorem putStaged_eq (x : Staged) (l : List Staged) : ∃ a b, l = a ++ b ∧ putStaged x l = a ++ x :: b
    ∧ (∀ y ∈ a, y.hdr.port = x.hdr.port → newer y.hdr.seq x.hdr.seq = false)
    ∧ ∀ y c, b = y :: c → y.hdr.port = x.hdr.port ∧ newer y.hdr.seq x.hdr.seq = true := by
  induction l with
  | nil => exact ⟨[], [], rfl, rfl, fun y hy => absurd hy List.not_mem_nil, fun y c h => nomatch h⟩
  | cons z r ih =>
    by_cases hz : (z.hdr.port = x.hdr.port && newer z.hdr.seq x.hdr.seq) = true
    · refine ⟨[], z :: r, rfl, if_pos hz, fun y hy => absurd hy List.not_mem_nil, ?_⟩
      rintro _ _ ⟨⟩
      simpa using hz
    · obtain ⟨a, b, hl, hput, hbefore, hbehind⟩ := ih
      refine ⟨z :: a, b, congrArg (z :: ·) hl, (if_neg hz).trans (congrArg (z :: ·) hput), ?_, hbehind⟩
      rintro y (_ | ⟨_, hy⟩) hport
      · simpa [hport] using hz
      · exact hbefore y hy hport

theorem State.windowRead_range {s : State} {h : SqpHdr} (hw : h.number.toNat < 256) (hopen : (s.window h.number.toNat).isOpen = true)
    (hgen : h.gen = (s.window h.number.toNat).gen) {ofs len : Word}
    (hbad : len = 0 ∨ 1048576 < len.toNat ∨ (s.window h.number.toNat).len < ofs.toNat + len.toNat) :
    s.windowRead h ofs len = s.nak h .windowRange := by
  rw [State.windowRead, State.onOpenWindow_open hw hopen hgen, if_pos (by simpa [or_assoc] using hbad)]

theorem State.windowRead_ok {s : State} {h : SqpHdr} (hw : h.number.toNat < 256) (hopen : (s.window h.number.toNat).isOpen = true)
    (hgen : h.gen = (s.window h.number.toNat).gen) {ofs len : Word} (h0 : len ≠ 0) (hmax : len.toNat ≤ 1048576)
    (hin : ofs.toNat + len.toNat ≤ (s.window h.number.toNat).len) :
    s.windowRead h ofs len = s.stage h (s.window h.number.toNat) ofs (.read len.toNat) := by
  have hgood : ¬(len = 0 ∨ 1048576 < len.toNat ∨ (s.window h.number.toNat).len < ofs.toNat + len.toNat) := by
    rintro (h | h | h)
    · exact h0 h
    · omega
    · omega
  rw [State.windowRead, State.onOpenWindow_open hw hopen hgen, if_neg (by simpa [or_assoc] using hgood)]

theorem State.windowWrite_range {s : State} {h : SqpHdr} (hw : h.number.toNat < 256) (hopen : (s.window h.number.toNat).isOpen = true)
    (hgen : h.gen = (s.window h.number.toNat).gen) {ofs : Word} {data : List Byte}
    (hbad : (s.window h.number.toNat).len < ofs.toNat + data.length) : s.windowWrite h ofs data = s.nak h .windowRange := by
  rw [State.windowWrite, State.onOpenWindow_open hw hopen hgen, if_pos hbad]

theorem State.windowWrite_ok {s : State} {h : SqpHdr} (hw : h.number.toNat < 256) (hopen : (s.window h.number.toNat).isOpen = true)
    (hgen : h.gen = (s.window h.number.toNat).gen) {ofs : Word} {data : List Byte}
    (hin : ofs.toNat + data.length ≤ (s.window h.number.toNat).len) (hlast : ∀ q, (s.hport h.port).lastWinSeq = some q → newer q h.seq = false)
    (hroom : s.stagedBytes + data.length ≤ 512 * 1024) :
    s.windowWrite h ofs data = if h.ackReq then (s.stage h (s.window h.number.toNat) ofs (.write data)).deferAnswer h
      else s.stage h (s.window h.number.toNat) ofs (.write data) := by
  have hnew : (s.hport h.port).lastWinSeq.any (fun q => newer q h.seq) = false := by
    cases hq : (s.hport h.port).lastWinSeq with
    | none => rfl
    | some q => exact hlast q hq
  rw [State.windowWrite, State.onOpenWindow_open hw hopen hgen, if_neg (by omega), hnew, if_neg Bool.false_ne_true, if_neg (by omega)]

theorem State.deferAnswer_recs (s : State) (h : SqpHdr) : (h.seq, Answer.pending) ∈ ((s.deferAnswer h).hport h.port).recs := by
  rw [State.deferAnswer, State.onHport_hport]
  exact List.mem_cons_self

theorem State.againAnswer_recs (s : State) (h : SqpHdr) : (h.seq, Answer.again) ∈ ((s.againAnswer h).hport h.port).recs := by
  rw [State.againAnswer, State.onHport_hport]
  exact List.mem_cons_self

/-- An access staged, and what is then sent or recorded. -/
theorem State.Sends.staged_put {s u t : State} (hu : s.Sends u) (x : Staged) (ht : ({ u with staged := putStaged x u.staged } : State).Sends t) :
    (∃ a b, s.staged = a ++ b ∧ t.staged = a ++ x :: b ∧ (∀ y ∈ a, y.hdr.port = x.hdr.port → newer y.hdr.seq x.hdr.seq = false)
        ∧ ∀ y c, b = y :: c → y.hdr.port = x.hdr.port ∧ newer y.hdr.seq x.hdr.seq = true)
      ∧ s.Sends { t with staged := s.staged } := by
  rw [ht.staged, hu.staged]
  refine ⟨putStaged_eq x s.staged, ?_⟩
  have := ht.map fun x => { x with staged := u.staged }
  rw [← hu.staged]
  exact hu.trans this

/-! ### A write that is applied -/

/-- Bytes written read back as they were written. -/
theorem Bytes.read_writeN {d : Byte} {m : Bytes} (h : Bytes.wfFrom d 0 m = true) (a : Nat) (bs : List Byte) (j : Nat) :
    Bytes.read d (Bytes.writeN d m a bs) j = if a ≤ j ∧ j < a + bs.length then bs.getD (j - a) d else Bytes.read d m j := by
  split
  next hin =>
    induction bs generalizing m a with
    | nil => simp at hin; omega
    | cons b r ih =>
      have hlen : (b :: r).length = r.length + 1 := rfl
      rw [Bytes.writeN]
      by_cases hj : j = a
      · rw [hj, Bytes.read_writeN_ne d _ _ _ (.inl (Nat.lt_succ_self a)), Bytes.read_write_self h, Nat.sub_self]
        rfl
      · rw [ih (Bytes.wfFrom_write h (Nat.zero_le a) b) (a + 1) (by omega), show j - a = (j - (a + 1)) + 1 by omega]
        rfl
  next hout => exact Bytes.read_writeN_ne d m a bs (by omega)

/-- A staged write carried out changes memory and poison where it lands, and is answered or noted. -/
theorem State.applyWrite_sends {s : State} {x : Staged} {d : List Byte} (hx : x.body = .write d) :
    (s.poke x.addr d false).Sends (s.applyWrite x) ∧ (x.hdr.ackReq = true → (s.applyWrite x).Replied x.hdr 0x7F x.hdr.gen (nakPay .ok 0)) := by
  unfold State.applyWrite
  rw [hx]
  dsimp only
  have hsent := State.onHport_sends x.hdr.port (fun h => { h with lastWinSeq := some x.hdr.seq }) (.refl (s.poke x.addr d false))
  split
  · exact ⟨State.okGen_sends _ _ hsent, fun _ => State.answerMsg_replied _ _ _ _ _⟩
  next hack => exact ⟨State.onHport_sends _ _ hsent, fun h => absurd h hack⟩

/-- The one access that is staged is applied where it is a write that no pan is concerned with (R152). -/
theorem exec_windowWriteApply {s : State} {w : BitVec 16} {x : Staged} {d : List Byte} (hr : s.inReset = false) (hstaged : s.staged = [x])
    (hwin : x.win = w.toNat) (hfree : s.concerned x = []) (hx : x.body = .write d) :
    exec (.windowWriteApply w) s = .next (({ s with staged := [] } : State).applyWrite x) := by
  have hread (t : State) : t.applyRead x = t := by rw [State.applyRead, hx]
  change execWindowWriteApply w s = _
  rw [execWindowWriteApply, hr, State.applyAll, hstaged]
  simp [hwin, hfree, hread]

/-- Settles O34: a message meets its own checks in the state that checks 1 to 5 leave, which differs in what is sent. -/
theorem windows : Obligations.Windows := by
  refine ⟨fun s h region ofs len hw => ⟨fun m hready => ?openMsg, fun m hready => ?closeMsg⟩,
    fun s h ofs len data x hw hopen hgen hready hx => ⟨fun m => ?writeMsg, fun m => ?readMsg⟩, ?apply⟩
  case openMsg =>
    have hu := State.afterChecks_sends m.1
    have hwindow := hu.window h.number.toNat
    have hexec : exec (.windowOpen h region ofs len) s = .next ((s.afterChecks h).windowOpen h region ofs len) :=
      congrArg _ (m.message ((hu.windowReady _).trans hready) _)
    refine ⟨fun hopen => ⟨_, hexec, ?_⟩, fun hclosed => ⟨fun hbad => ⟨_, hexec, ?_⟩, fun hregion hofs hlen h0 hin => ?_⟩⟩
    · rw [State.windowOpen_busy hw (hwindow ▸ hopen)]
      exact hu.nak_refused h .busy
    · have hrange : windowRangeOk region.toNat ofs.toNat len.toNat = false := by
        rw [← not_ne_iff (a := len), ← toNat_pos_iff] at hbad
        rw [Bool.eq_false_iff, ne_eq, windowRangeOk_iff]
        omega
      rw [State.windowOpen_range hw (hwindow ▸ hclosed) hrange]
      exact hu.nak_refused h .windowRange
    · have hrange := (windowRangeOk_iff _ _ _).mpr ⟨hregion, hofs, hlen, (toNat_pos_iff len).mpr h0, hin⟩
      obtain ⟨t, rfl, hself, hreplied, hothers, hsent⟩ := hu.windowChanged h.number.toNat (fun x => x.opened region ofs len) h
        ((s.window h.number.toNat).gen + 1) (nakPay .ok 0)
      rw [State.windowOpen_ok hw (hwindow ▸ hclosed) hrange, hwindow] at hexec
      exact ⟨_, hexec, hself, hreplied, hothers, hsent⟩
  case closeMsg =>
    have hu := State.afterChecks_sends m.1
    have hwindow := hu.window h.number.toNat
    have hexec : exec (.windowClose h) s = .next ((s.afterChecks h).windowClose h) :=
      congrArg _ (m.message (ready := State.qmgrReady) ((congrArg (fun w : Word => w.getLsbD 4) hu.ready).trans hready) _)
    refine ⟨fun hclosed => ⟨_, hexec, ?_⟩, fun hopen hgen => ?_⟩
    · rw [State.windowClose, State.onOpenWindow_closed hw (hwindow ▸ hclosed)]
      exact hu.nak_refused h .windowClosed
    · obtain ⟨t, rfl, hself, hreplied, hothers, hsent⟩ := hu.windowChanged h.number.toNat (fun x => { x with isOpen := false }) h
        h.gen (nakPay .ok 0)
      rw [State.windowClose, State.onOpenWindow_open hw (hwindow ▸ hopen) (hwindow ▸ hgen)] at hexec
      exact ⟨_, hexec, hself, hreplied, hothers, hsent⟩
  case writeMsg =>
    have hu := State.afterChecks_sends m.1
    have hwindow := hu.window h.number.toNat
    have hexec : exec (.windowWrite h ofs data) s = .next ((s.afterChecks h).windowWrite h ofs data) :=
      congrArg _ (m.message (ready := fun s => s.openWindowReady h) ((hu.openWindowReady h).trans hready) _)
    refine ⟨fun hbad => ⟨_, hexec, ?_⟩, fun hin hlast hroom => ?_⟩
    · rw [State.windowWrite_range hw (hwindow ▸ hopen) (hwindow ▸ hgen) (hwindow ▸ hbad)]
      exact hu.nak_refused h .windowRange
    · rw [State.windowWrite_ok hw (hwindow ▸ hopen) (hwindow ▸ hgen) (hwindow ▸ hin) (State.afterChecks_sameWin m.1 h.port ▸ hlast)
        (hu.stagedBytes ▸ hroom), hwindow] at hexec
      refine ⟨_, hexec, ?_⟩
      subst hx
      split
      next hack =>
        obtain ⟨hput, hsent⟩ := hu.staged_put _
          (State.deferAnswer_sends h (.refl ((s.afterChecks h).stage h (s.window h.number.toNat) ofs (.write data))))
        exact ⟨hput, fun _ => State.deferAnswer_recs _ h, hsent⟩
      next hack =>
        obtain ⟨hput, hsent⟩ := hu.staged_put _ (.refl ((s.afterChecks h).stage h (s.window h.number.toNat) ofs (.write data)))
        exact ⟨hput, fun h => absurd h hack, hsent⟩
  case readMsg =>
    obtain ⟨g, -, hlen⟩ := m
    have hu := State.afterChecks_sends g
    have hwindow := hu.window h.number.toNat
    have hexec : exec (.windowRead h ofs len) s = .next (((s.afterChecks h).windowRead h ofs len).againAnswer h) := by
      refine congrArg _ ((State.received_afterChecks g _).trans ?_)
      rw [State.windowReadMsg, State.lateChecks, hu.openWindowReady, hready, lenIs, decide_eq_true hlen]
      rfl
    refine ⟨fun hbad => ?_, fun h0 hmax hin => ?_⟩
    · rw [State.windowRead_range hw (hwindow ▸ hopen) (hwindow ▸ hgen) (hwindow ▸ hbad)] at hexec
      have hrefused := hu.nak_refused h .windowRange
      exact ⟨_, hexec, State.againAnswer_sends h hrefused.1, State.againAnswer_recs _ h, _, hrefused, rfl⟩
    · rw [State.windowRead_ok hw (hwindow ▸ hopen) (hwindow ▸ hgen) h0 hmax (hwindow ▸ hin), hwindow] at hexec
      subst hx
      obtain ⟨hput, hsent⟩ := hu.staged_put _
        (State.againAnswer_sends h (.refl ((s.afterChecks h).stage h (s.window h.number.toNat) ofs (.read len.toNat))))
      exact ⟨_, hexec, hput, State.againAnswer_recs _ h, hsent⟩
  case apply =>
    intro s w x d hinv hr hstaged hwin hfree hx
    obtain ⟨hsent, hreplied⟩ := State.applyWrite_sends (s := { s with staged := [] }) hx
    refine ⟨_, exec_windowWriteApply hr hstaged hwin hfree hx, hsent.staged, fun a => ?_, hreplied, ?_⟩
    · rw [hsent.mem]
      exact Bytes.read_writeN hinv.mem _ d a
    · exact hsent.map fun y => { y with staged := s.staged, mem := s.mem, poison := s.poison }

end Sys2Proof.Machine
end

section
/-!
PROOF. What the running of a step leaves of the contexts: their ranks, whatever ends, faults or goes on in it (R145, R177, R200, R516).
-/

namespace Sys2Proof.Machine

/-- Nothing changed but what the running of a step touches, and no context changed its ranks. -/
structure State.OnlySteps (s t : State) : Prop where
  ranks : ∀ p c, (t.ctx p c).ranks = (s.ctx p c).ranks
  within : s.WithinStep t

namespace State.OnlySteps

variable {s t u : State}

theorem refl (s : State) : s.OnlySteps s := ⟨fun _ _ => rfl, rfl⟩

theorem trans (h : s.OnlySteps t) (h' : t.OnlySteps u) : s.OnlySteps u :=
  ⟨fun p c => (h'.ranks p c).trans (h.ranks p c), h.within.trans h'.within⟩

theorem foldl {α : Type} {f : State → α → State} (hf : ∀ (s : State) x, s.OnlySteps (f s x)) (l : List α) (s : State) :
    s.OnlySteps (l.foldl f s) :=
  List.foldlRecOn (motive := s.OnlySteps) l f (refl s) fun t ht x _ => ht.trans (hf t x)

theorem ite {b : Prop} [Decidable b] (h : s.OnlySteps t) (h' : s.OnlySteps u) : s.OnlySteps (if b then t else u) := by
  split
  · exact h
  · exact h'

end State.OnlySteps

theorem State.OnlyCompleted.steps {s t : State} (h : s.OnlyCompleted t) : s.OnlySteps t := ⟨fun p c => by rw [h.ctx], h.within⟩

theorem State.OnlyBuffered.steps {s t : State} (h : s.OnlyBuffered t) : s.OnlySteps t := h.completed.steps

theorem State.OnlyTold.steps {s t : State} (h : s.OnlyTold t) : s.OnlySteps t := ⟨fun p c => by rw [h.ctx], h.within⟩

theorem State.OnlyStopped.steps {s t : State} (h : s.OnlyStopped t) : s.OnlySteps t := ⟨fun p c => by rw [h.ctx], h.within⟩

theorem State.OnlyCharged.steps {s t : State} (h : s.OnlyCharged t) : s.OnlySteps t := ⟨fun p c => by rw [h.stands.ctx], h.withinStep⟩

theorem State.onCore_steps (s : State) (n : Nat) (f : Core → Core) : s.OnlySteps (s.onCore n f) := ⟨fun _ _ => rfl, rfl⟩

theorem State.onCtx_steps (s : State) (p c : Nat) {f : Ctx → Ctx} (hf : ∀ x, (f x).ranks = x.ranks) : s.OnlySteps (s.onCtx p c f) := by
  refine ⟨fun p' c' => ?_, rfl⟩
  by_cases h : p' = p ∧ c' = c
  · obtain ⟨rfl, rfl⟩ := h
    rw [State.onCtx_ctx, hf]
  · rw [State.onCtx_ctx_ne _ _ _ _ h]

/-! ### Kills and the end of a step -/

theorem State.payOwed_steps (s : State) (p c : Nat) (cls : EClass) : s.OnlySteps (s.payOwed p c cls) :=
  (s.onCtx_steps p c (f := fun x => { x with owed := [] }) fun _ => rfl).trans (s.payOwed_told p c cls).steps

theorem State.halt_steps (s : State) (p c n : Nat) (f : StepFault) (desc : Nat) : s.OnlySteps (s.halt p c n f desc) := by
  refine .trans ?_ (State.ctxEvent_told _ p c f.code).steps
  refine .trans ?_ (State.seqReport_told _ n .ucu f.code desc).steps
  refine .trans ?_ (State.payOwed_steps _ p c .ucu)
  exact s.onCtx_steps p c fun _ => rfl

theorem State.judge_steps (s : State) (p c n : Nat) (f : StepFault) (desc refault : Nat) : s.OnlySteps (s.judge p c n f desc refault) := by
  cases f with
  | descriptor | address | trap | overrun => exact s.halt_steps p c n _ desc
  | preempt => exact (s.seqReport_told _ _ _ _).steps
  | slotTimeout | schedule | barrierTimeout => exact .ite (s.halt_steps p c n _ desc) (s.onCtx_steps p c fun _ => rfl)

theorem State.kill_steps (s : State) (p c n : Nat) (f : StepFault) (desc : Nat) : s.OnlySteps (s.kill p c n f desc) := by
  cases hlive : (s.ctx p c).live with
  | false =>
    rw [State.kill, hlive]
    exact .refl s
  | true =>
    rw [State.kill_of_live hlive]
    have hcores : s.OnlySteps (s.killCores p c n f desc) := ⟨fun p' c' => by rw [s.killCores_ctx], s.killCores_within p c n f desc⟩
    have hstep : s.OnlySteps (s.killStep p c n f desc) := hcores.trans (State.onCtx_steps _ p c fun _ => rfl)
    exact .ite (hstep.trans (State.onCtx_steps _ p c fun _ => rfl)) (hstep.trans (State.judge_steps _ _ _ _ _ _ _))

theorem State.fault_steps (s : State) (n : Nat) (f : StepFault) (desc : Nat) : s.OnlySteps (s.fault n f desc) := by
  unfold State.fault
  split
  · exact s.kill_steps _ _ n f desc
  · exact .refl s

theorem State.deliverTrap_steps (s : State) (n : Nat) : s.OnlySteps (s.deliverTrap n) := by
  unfold State.deliverTrap
  split
  · exact .refl s
  · refine .ite (s.onCore_steps n _) (.trans ?_ (State.fault_steps _ n .trap _))
    exact (s.note_onlyCompleted _ _).steps.trans (State.onCore_steps _ n _)

theorem State.deliverTraps_steps (s : State) (n : Nat) : s.OnlySteps (s.deliverTraps n) :=
  .foldl (fun t _ => .ite (t.deliverTrap_steps n) (.refl t)) _ s

theorem State.turnTo_steps (s : State) (n rank : Nat) : s.OnlySteps (s.turnTo n rank) := by
  unfold State.turnTo
  split
  · exact .refl s
  · exact s.onCore_steps n _

theorem State.passTurn_steps (s : State) (n : Nat) : s.OnlySteps (s.passTurn n) := by
  unfold State.passTurn
  dsimp only
  refine .ite (.refl s) ?_
  split
  · exact s.turnTo_steps n _
  · refine .ite (.refl s) ?_
    split
    · exact s.turnTo_steps n _
    · exact .refl s

theorem State.checkPanEnd_steps (s : State) (p c : Nat) : s.OnlySteps (s.checkPanEnd p c) := by
  unfold State.checkPanEnd
  dsimp only
  refine .ite (.trans ?_ (State.payOwed_steps _ p c .ucm)) (.refl s)
  exact s.onCtx_steps p c fun _ => rfl

theorem State.endCore_steps (s : State) (n : Nat) : s.OnlySteps (s.endCore n) := by
  unfold State.endCore
  dsimp only
  have hended : s.OnlySteps ((s.drain n).deliverTraps n) := (s.drain_onlyCompleted n).steps.trans (State.deliverTraps_steps _ n)
  generalize (s.drain n).deliverTraps n = t at *
  refine .ite hended ?_
  split
  · exact hended
  · have hcore : t.OnlySteps (t.coreEnded n) := ⟨fun p c => by rw [t.coreEnded_ctx], t.coreEnded_within n⟩
    have hpassed := (hended.trans hcore).trans (State.passTurn_steps _ n)
    split
    · exact hpassed.trans (State.kill_steps _ _ _ _ _ _)
    · exact hpassed.trans (State.checkPanEnd_steps _ _ _)

theorem State.passEnd_steps (s : State) (n : Nat) : s.OnlySteps (s.passEnd n) := by
  unfold State.passEnd
  dsimp only
  split
  · exact .refl s
  · exact .ite (s.endCore_steps n) (.refl s)

/-! ### Full/empty accesses tried again -/

theorem State.push_steps (s : State) (n p c : Nat) (op : OutOp) : s.OnlySteps (s.push n p c op) := by
  have hcharged : (s.addXacts n p c (s.core n).opId op.far).OnlyCharged
      (op.far.foldl (fun s l => s.chargeSpan p n (l, l + 63)) (s.addXacts n p c (s.core n).opId op.far)) :=
    .foldl (fun t _ => t.chargeSpan_onlyCharged p n _) _ _
  have hunder : s.OnlySteps (s.addXacts n p c (s.core n).opId op.far) := (s.withXacts_onlyCompleted _).steps
  unfold State.push
  exact (hunder.trans hcharged.steps).trans (State.onCore_steps _ n _)

theorem State.mark_steps (s : State) (line : Nat) (w : Bool) : s.OnlySteps (s.mark line w) := ⟨fun _ _ => rfl, rfl⟩

/-- The line whose state a full/empty row waits for (R144): that of its destination for a write, of its source for a read. -/
def feLine (write : Bool) (x : Option Nat × Nat × Nat) : Nat := if write then x.2.2 else x.2.1

/-- The row read, once the buffers hold nothing of its line. -/
def State.feRead (s : State) (write : Bool) (x : Option Nat × Nat × Nat) : State :=
  s.flushLine (s.readPhys (s.headerFor (feLine write x)) (feLine write x))

/-- A full/empty row granted: its bytes moved, and its line left in the other state (R144). -/
def State.feGrant (s : State) (n : Nat) (write : Bool) (x : Option Nat × Nat × Nat) : State :=
  ((s.feRead write x).store n false x.2.2 ((s.feRead write x).loadAt x.2.1 64).1 ((s.feRead write x).loadAt x.2.1 64).2).mark
    (feLine write x) write

theorem State.feRows_cons (s : State) (n : Nat) (write : Bool) (x : Option Nat × Nat × Nat) (r : List (Option Nat × Nat × Nat))
    (bad : List (Option Nat)) : s.feRows n write (x :: r) bad = if s.isFull (feLine write x) = write then (s, x :: r, bad)
      else (s.feGrant n write x).feRows n write r (if ((s.feRead write x).loadAt x.2.1 64).2 then bad ++ [x.1] else bad) := rfl

theorem State.feGrant_steps (s : State) (n : Nat) (write : Bool) (x : Option Nat × Nat × Nat) : s.OnlySteps (s.feGrant n write x) :=
  .trans ((s.flushLine_onlyBuffered _).trans (State.store_onlyBuffered _ n false x.2.2 _ _)).steps (State.mark_steps _ _ write)

theorem State.feRows_steps (n : Nat) (write : Bool) (items : List (Option Nat × Nat × Nat)) (bad : List (Option Nat)) (s : State) :
    s.OnlySteps (s.feRows n write items bad).1 := by
  induction items generalizing bad s with
  | nil => exact .refl s
  | cons x r ih =>
    rw [State.feRows_cons]
    split
    · exact .refl s
    · exact (s.feGrant_steps n write x).trans (ih _ _)

theorem State.feTry_steps (s : State) (n p c : Nat) (write : Bool) (items : List (Option Nat × Nat × Nat)) (bad : List (Option Nat))
    (op : OutOp) (since : Nat) : s.OnlySteps (s.feTry n p c write items bad op since) := by
  have hrows := State.feRows_steps n write items bad s
  unfold State.feTry
  generalize s.feRows n write items bad = x at *
  obtain ⟨t, rest, bads⟩ := x
  exact .ite ((hrows.trans (State.onCore_steps t n _)).trans (State.push_steps _ n p c _)) (hrows.trans (State.onCore_steps t n _))

theorem State.feAgain_steps (s : State) (k : Nat) : s.OnlySteps (s.feAgain k) := by
  unfold State.feAgain
  split
  · exact .ite ((State.feTry_steps _ _ _ _ _ _ _ _ _).trans (State.passEnd_steps _ k)) (.refl s)
  · exact .refl s

theorem State.feRetry_steps (s : State) : s.OnlySteps s.feRetry := by
  have turn (k : Nat) (t : State) (x : Turn) : t.OnlySteps (((t.turnTo k x.rank).feAgain k).passTurn k) :=
    ((t.turnTo_steps k x.rank).trans (State.feAgain_steps _ k)).trans (State.passTurn_steps _ k)
  refine .foldl (fun t k => ?_) _ s
  exact (t.feAgain_steps k).trans (.foldl (turn k) _ _)

end Sys2Proof.Machine
end

section
/-!
PROOF. The end of a load (R402-R404): its shares written or freed, with the context's state that follows.
-/

namespace Sys2Proof.Machine

theorem State.WithinStep.windows {s t : State} (h : s.WithinStep t) : t.windows = s.windows := (congrArg State.windows h).trans rfl

/-- A load at its end leaves the jobs and loops, their queues and windows, and the registers as they were. -/
structure State.OnlyLoaded (s t : State) : Prop where
  queues : t.queues = s.queues
  jobs : t.jobs = s.jobs
  regs : t.regs = s.regs
  windows : t.windows = s.windows
  loops : t.loops = s.loops

theorem State.OnlyLoaded.trans {s t u : State} (h : s.OnlyLoaded t) (h' : t.OnlyLoaded u) : s.OnlyLoaded u :=
  ⟨h'.queues.trans h.queues, h'.jobs.trans h.jobs, h'.regs.trans h.regs, h'.windows.trans h.windows, h'.loops.trans h.loops⟩

theorem State.WithinStep.loaded {s t : State} (h : s.WithinStep t) : s.OnlyLoaded t := ⟨h.queues, h.jobs, h.regs, h.windows, h.loops⟩

/-- The lines of a context's shares taken from the records of lines: none is dirty, full, or selected (R146, R200). -/
def State.freed (s : State) (p c : Nat) : State :=
  let s := (s.dropDirty p c).emptyShare p c
  { s with sel := s.sel.filter (fun l => !s.inShare p c (l * 64)) }

/-- What waits for the lines of a context's shares goes on as they are freed: that is what running a step changes. -/
theorem State.clearShare_steps (s : State) (p c : Nat) : (s.freed p c).OnlySteps (s.clearShare p c) := State.feRetry_steps _

theorem State.clearShare_ranks (s : State) (p c p' c' : Nat) : ((s.clearShare p c).ctx p' c').ranks = (s.ctx p' c').ranks :=
  (s.clearShare_steps p c).ranks p' c'

theorem State.clearShare_loaded (s : State) (p c : Nat) : s.OnlyLoaded (s.clearShare p c) :=
  have hfreed : s.OnlyLoaded (s.freed p c) := ⟨rfl, rfl, rfl, rfl, rfl⟩
  hfreed.trans (s.clearShare_steps p c).within.loaded

/-! ### What a load writes -/

theorem State.loadPlace_steps (s : State) (a : Nat) (bs : List Byte) : s.OnlySteps (s.loadPlace a bs) := (s.place_onlyBuffered a bs false).steps

theorem State.onPan_steps (s : State) (p : Nat) {f : Pan → Pan} (hf : ∀ q, (f q).ctxs = q.ctxs) : s.OnlySteps (s.onPan p f) := by
  refine ⟨fun p' c => ?_, rfl⟩
  by_cases h : p' = p
  · rw [h, State.ctx, State.onPan_pan, hf, State.ctx]
  · rw [State.ctx, State.onPan_pan_ne _ _ _ _ h, State.ctx]

theorem State.writeRank_steps (s : State) (e : CatEntry) (rank n : Nat) : s.OnlySteps (s.writeRank e rank n) :=
  (s.loadPlace_steps _ _).trans (.foldl (fun t _ => t.loadPlace_steps _ _) _ _)

theorem State.writePart_steps (s : State) (p : Nat) (e : CatEntry) (x : ModelPack × Nat) (core rank ofs : Nat) :
    s.OnlySteps (s.writePart p e x core rank ofs).1 := by
  unfold State.writePart
  dsimp only
  split
  · exact .refl s
  · refine .trans ?_ (State.loadPlace_steps _ _ _)
    exact s.onPan_steps p fun _ => rfl

theorem State.writeCore_steps (p : Nat) (e : CatEntry) (core : Nat) (l : List (ModelPack × Nat × Nat)) (ofs : Nat) (s : State) :
    s.OnlySteps (State.writeCore p e core l ofs s) := by
  induction l generalizing ofs s with
  | nil => exact .refl s
  | cons x r ih => exact (s.writePart_steps p e _ _ _ _).trans (ih _ _)

theorem State.writePacks_steps (s : State) (p : Nat) (e : CatEntry) (ranks : List Nat) (ms : List ModelPack) (t : Nat) :
    s.OnlySteps (s.writePacks p e ranks ms t) := .foldl (fun u n => State.writeCore_steps p e n _ 0 u) _ s

theorem State.writeLoad_steps (s : State) (p c : Nat) : s.OnlySteps (s.writeLoad p c) := by
  have hranks : s.OnlySteps ((List.range (s.ctx p c).ranks.length).foldl (fun t r => t.writeRank (s.ctxCat p c) r ((s.ctx p c).ranks.getD r 0)) s) :=
    .foldl (fun t r => t.writeRank_steps _ r _) _ s
  have hregions (t : State) : t.OnlySteps (t.writeRegions p c) := .foldl (fun u _ => u.loadPlace_steps _ _) _ t
  exact (hranks.trans (hregions _)).trans (State.writePacks_steps _ _ _ _ _ _)

/-! ### The two ends of a load -/

theorem State.sweepCopies_steps (s : State) (p : Nat) : s.OnlySteps (s.sweepCopies p) := by
  unfold State.sweepCopies
  exact s.onPan_steps p fun _ => rfl

theorem State.sweepCopies_ctx (s : State) (p p' c : Nat) : (s.sweepCopies p).ctx p' c = s.ctx p' c := by
  by_cases h : p' = p
  · rw [h, State.ctx, State.sweepCopies, State.onPan_pan, State.ctx]
  · rw [State.ctx, State.sweepCopies, State.onPan_pan_ne _ _ _ _ h, State.ctx]

theorem State.onCtx_loaded (s : State) (p c : Nat) (f : Ctx → Ctx) : s.OnlyLoaded (s.onCtx p c f) := ⟨rfl, rfl, rfl, rfl, rfl⟩

theorem State.sweepModels_loaded (s : State) : s.OnlyLoaded s.sweepModels := ⟨rfl, rfl, rfl, rfl, rfl⟩

theorem State.sweepModels_ctx (s : State) (p c : Nat) : s.sweepModels.ctx p c = s.ctx p c := rfl

/-- R404: a load that a poisoned page ends leaves its context LOAD_FAIL. -/
theorem State.failLoad_ends {s : State} {p c : Nat} (h : (s.ctx p c).st = .loading) :
    ((s.failLoad p c).ctx p c).st = .loadFail ∧ s.OnlyLoaded (s.failLoad p c) := by
  unfold State.failLoad
  rw [if_neg (not_not_intro h)]
  dsimp only
  have hdropped (l : List Xact) : s.OnlyLoaded { s with xacts := l } := ⟨rfl, rfl, rfl, rfl, rfl⟩
  have hcleared := (hdropped (s.xacts.filter (fun t => !s.loadDue p c t))).trans (State.clearShare_loaded _ p c)
  generalize State.clearShare _ p c = t at *
  have hctx := t.onCtx_ctx p c (fun x => { st := .loadFail, cat := x.cat, tag := x.tag })
  have hset := hcleared.trans (t.onCtx_loaded p c (fun x => { st := .loadFail, cat := x.cat, tag := x.tag }))
  generalize t.onCtx p c _ = u at *
  have htold := (u.sweepCopies p).ctxEvent_told p c 0
  refine ⟨?_, ((hset.trans (u.sweepCopies_steps p).within.loaded).trans htold.within.loaded).trans (State.sweepModels_loaded _)⟩
  rw [State.sweepModels_ctx, htold.ctx, State.sweepCopies_ctx, hctx]

/-- The state that a load ends in as RESIDENT (R402, R403). -/
def State.loadEnd (s : State) (p c : Nat) : State :=
  (((s.clearShare p c).writeLoad p c).onCtx p c (fun x => { x with st := .resident, resume := true })).ctxEvent p c 0

theorem exec_loadDone {s : State} {p : Fin 16} {c : Fin 8} (hr : s.inReset = false) (hst : (s.ctx p.val c.val).st = .loading) :
    exec (.loadDone p c) s = .next (if s.nclk < (s.ctx p.val c.val).loadEnd ∨ s.xacts.any (s.loadDue p.val c.val) = true then s
      else s.loadEnd p.val c.val) := by
  change execLoadDone p c s = _
  simp only [execLoadDone, hr, hst, ne_eq, not_true_eq_false, decide_false, Bool.or_self, Bool.false_or, Bool.or_eq_true, decide_eq_true_eq]
  rfl

theorem State.loadEnd_ctx (s : State) (p c : Nat) : (s.loadEnd p c).ctx p c
    = { ((s.clearShare p c).writeLoad p c).ctx p c with st := .resident, resume := true } := by
  rw [State.loadEnd, (State.ctxEvent_told _ _ _ _).ctx, State.onCtx_ctx]

/-- A load that ends leaves its context on its ranks. -/
theorem State.loadEnd_ranks (s : State) (p c : Nat) : ((s.loadEnd p c).ctx p c).ranks = (s.ctx p c).ranks := by
  rw [s.loadEnd_ctx]
  dsimp only
  exact (((s.clearShare p c).writeLoad_steps p c).ranks p c).trans (s.clearShare_ranks p c p c)

theorem State.loadEnd_loaded (s : State) (p c : Nat) : s.OnlyLoaded (s.loadEnd p c) := by
  have hwritten := (s.clearShare_loaded p c).trans ((s.clearShare p c).writeLoad_steps p c).within.loaded
  unfold State.loadEnd
  generalize (s.clearShare p c).writeLoad p c = t at *
  have hset := t.onCtx_loaded p c (fun x => { x with st := .resident, resume := true })
  generalize t.onCtx p c _ = u at *
  exact (hwritten.trans hset).trans (u.ctxEvent_told p c 0).within.loaded

end Sys2Proof.Machine
end

section
/-!
PROOF. Page transfers and remote accesses (R168, R169, R404, R414, R418): which copy of a page is delivered, and what it arrives for.
-/

namespace Sys2Proof.Machine

/-! ### The end of a transaction -/

/-- A reply ends its transaction; one of a past generation is counted (R418). -/
theorem State.reply_of_tag (s : State) (x : Xact) (rest : List Xact) :
    (x.tag = (s.ctx x.pan x.ctx).tag → s.reply x rest = (true, { s with xacts := rest }))
    ∧ (x.tag ≠ (s.ctx x.pan x.ctx).tag → s.reply x rest = (false, { s with xacts := rest }.bump (.lateReply x.pan))) :=
  ⟨fun h => if_pos h, fun h => if_neg h⟩

theorem exec_remoteAccessComplete {s : State} {n : Fin 32} {x : Xact} {rest : List Xact} (hr : s.inReset = false)
    (h : takeXact (fun t => t.core = n.val && t.chan = none) s.xacts = some (x, rest)) :
    exec (.remoteAccessComplete n) s = .next (s.reply x rest).2 := by
  change execRemoteAccessComplete n s = _
  rw [execRemoteAccessComplete, h, hr]
  rfl

theorem exec_hbusPageTransfer {s : State} {c : Fin 16} {errs : Nat} {x : Xact} {rest : List Xact} (hr : s.inReset = false)
    (h : takeXact (s.pageDueOn c.val) s.xacts = some (x, rest)) :
    exec (.hbusPageTransfer c errs) s = .next (match s.reply x rest with
      | (false, s) => s
      | (true, s) => (s.fetchAt (x.chan.getD 0) x.page errs).2.pageArrives x (s.fetchAt (x.chan.getD 0) x.page errs).1.1
          (s.fetchAt (x.chan.getD 0) x.page errs).1.2) := by
  change execHbusPageTransfer c errs s = _
  rw [execHbusPageTransfer, hr, h]
  rfl

/-- A page read of the current generation delivers what its channels hold of the page. -/
theorem exec_hbusPageTransfer_current {s : State} {c : Fin 16} {errs : Nat} {x : Xact} {rest : List Xact} (hr : s.inReset = false)
    (h : takeXact (s.pageDueOn c.val) s.xacts = some (x, rest)) (htag : x.tag = (s.ctx x.pan x.ctx).tag)
    {bs : List Byte} {bad : Bool} {u : State} (hu : ({ s with xacts := rest } : State).fetchAt (x.chan.getD 0) x.page errs = ((bs, bad), u)) :
    exec (.hbusPageTransfer c errs) s = .next (u.pageArrives x bs bad) := by
  rw [exec_hbusPageTransfer hr h, (s.reply_of_tag x rest).1 htag]
  dsimp only
  rw [hu]

/-! ### The copy that is delivered -/

theorem State.pageChans_length (s : State) (c : Nat) : (s.pageChans c).length ≤ 2 := by
  unfold State.pageChans
  split
  · exact List.length_filter_le _ _
  · exact (List.length_filter_le _ _).trans (Nat.le_succ 1)

/-- Behind the first channel that holds a page there is its partner at most. -/
theorem State.pageChans_rest {s : State} {c k : Nat} {r : List Nat} (h : s.pageChans c = k :: r) : r = [] ∨ ∃ j, r = [j] := by
  have := s.pageChans_length c
  rw [h] at this
  match r, this with
  | [], _ => exact .inl rfl
  | [j], _ => exact .inr ⟨j, rfl⟩
  | _ :: _ :: _, h => exact absurd h (by simp)

/-- A copy serves a read where its two reads do not both mismatch and it is good (R168). -/
theorem State.servedBy'_cons (s : State) (page errs k : Nat) (r : List Nat) : s.servedBy' page errs (k :: r)
    = if errs < 2 ∧ s.pageGood k page = true then some k else s.servedBy' page (errs - 2) r := by
  simp [State.servedBy']

theorem not_serves {errs : Nat} {good : Bool} (n : Nat) (h : n ≤ errs ∨ good = false) : ¬(errs < n ∧ good = true) := by
  rintro ⟨hlt, hgood⟩
  rcases h with hle | hbad
  · omega
  · rw [hbad] at hgood
    cases hgood

section
variable {s : State} {c page errs k : Nat} {r : List Nat} (hchans : s.pageChans c = k :: r)
include hchans

theorem State.fetchAt_first (h : errs < 2) (hgood : s.pageGood k page = true) : s.fetchAt c page errs = ((s.pageBytes k page, false), s) := by
  rw [State.fetchAt, hchans]
  dsimp only
  rw [s.servedBy'_cons, if_pos ⟨h, hgood⟩]
  dsimp only
  rw [if_pos rfl]

/-- A page that the partner of a mirror pair serves is reported, and nothing else changes (R169, R498). -/
theorem State.fetchAt_partner {j : Nat} (hr : r = [j]) (hfirst : 2 ≤ errs ∨ s.pageGood k page = false) (h : errs < 4)
    (hgood : s.pageGood j page = true) :
    ∃ u : State, s.Sends { u with logs := s.logs } ∧ s.fetchAt c page errs = ((s.pageBytes j page, false), u) := by
  have hlt : errs - 2 < 2 := by omega
  refine ⟨if j = k then s else s.report .chip .ucm 0x11 (k * 16 + 15) 0 0, ?_, ?_⟩
  · split
    · exact .refl s
    · exact s.toLog_sends .chip _
  · rw [State.fetchAt, hchans]
    dsimp only
    rw [s.servedBy'_cons, if_neg (not_serves 2 hfirst), hr, s.servedBy'_cons, if_pos ⟨hlt, hgood⟩]

theorem State.fetchAt_none (hfirst : 2 ≤ errs ∨ s.pageGood k page = false) (hrest : ∀ j ∈ r, 4 ≤ errs ∨ s.pageGood j page = false) :
    s.fetchAt c page errs = ((s.pageBytes k page, true), s.pageBad (r.getLastD k)) := by
  have hnone : s.servedBy' page errs (k :: r) = none := by
    rw [s.servedBy'_cons, if_neg (not_serves 2 hfirst)]
    rcases State.pageChans_rest hchans with rfl | ⟨j, rfl⟩
    · rfl
    · have hj : ¬(errs - 2 < 2 ∧ s.pageGood j page = true) :=
        not_serves 2 ((hrest j List.mem_cons_self).imp_left fun h => by omega)
      rw [s.servedBy'_cons, if_neg hj]
      rfl
  rw [State.fetchAt, hchans]
  dsimp only
  rw [hnone]
  dsimp only
  rw [List.getLastD_cons]

end

theorem State.fetchAt_of_none {s : State} {c : Nat} (h : s.pageChans c = []) (page errs : Nat) :
    s.fetchAt c page errs = ((s.pageBytes c page, true), s) := by
  rw [State.fetchAt, h]

/-- A page delivered as poisoned counted by the channel read last (R498). -/
def State.crcCounted (s : State) (ch : Nat) : State :=
  (s.note (.hbusStatus ch) (· + 1)).onChan ch (fun h => { h with crcErr := (s.chan ch).crcErr.inc (2 ^ 16 - 1) })

theorem State.crcCounted_crcErr (s : State) (ch : Nat) : ((s.crcCounted ch).chan ch).crcErr = (s.chan ch).crcErr.inc (2 ^ 16 - 1) := by
  rw [State.crcCounted, State.onChan_chan]

theorem State.crcCounted_sends (s : State) (ch : Nat) : s.Sends { s.crcCounted ch with hbus := s.hbus } := State.note_sends _ _ (.refl s)

/-- Behind the counter a page delivered as poisoned sends, and stands in the chip log (R498). -/
theorem State.pageBad_eq (s : State) (ch : Nat) : ∃ (u : State) (r : Report), (s.crcCounted ch).Sends u ∧ s.pageBad ch = u.toLog .chip r := by
  unfold State.pageBad
  dsimp only
  refine ⟨_, _, ?_, State.report_chip _ _ _ _ _ _⟩
  split
  · exact State.event_sends _ _ _ (.refl _)
  · exact .refl _

theorem State.pageBad_counts (s : State) (ch : Nat) : ((s.pageBad ch).chan ch).crcErr = (s.chan ch).crcErr.inc (2 ^ 16 - 1)
    ∧ s.Sends { s.pageBad ch with hbus := s.hbus, logs := s.logs } ∧ (s.pageBad ch).xacts = s.xacts := by
  obtain ⟨u, r, hu, heq⟩ := s.pageBad_eq ch
  rw [heq]
  have hlogged := u.toLog_sends .chip r
  have hhbus : (u.toLog .chip r).hbus = (s.crcCounted ch).hbus := hlogged.hbus.trans hu.hbus
  have hlogs : u.logs = s.logs := hu.logs
  refine ⟨?_, ?_, (State.Sends.xacts hlogged).trans hu.xacts⟩
  · rw [← s.crcCounted_crcErr ch]
    exact congrArg (fun m : SMap Hbus => (m.getD ch {}).crcErr) hhbus
  · rw [hlogs] at hlogged
    refine (s.crcCounted_sends ch).trans ?_
    exact (hu.map fun x => { x with hbus := s.hbus }).trans (hlogged.map fun x => { x with hbus := s.hbus })

/-! ### What a page arrives for -/

/-- A write of an operation once the page that it waits for has come (R168, R191). -/
theorem OutWrite.fromPage_spec (a : Nat) (bs : List Byte) (bad : Bool) (w : OutWrite) (h : (w.fromPage a bs bad).src = [(a, a + 4095)]) :
    (w.fromPage a bs bad).bytes = (bs.drop (w.fromPage a bs bad).ofs).take (w.fromPage a bs bad).bytes.length
    ∧ (bad = true → (w.fromPage a bs bad).bad = true) := by
  by_cases hsrc : w.src = [(a, a + 4095)]
  · simp only [OutWrite.fromPage, if_pos hsrc]
    refine ⟨?_, fun hbad => by rw [hbad, Bool.or_true]⟩
    rw [List.length_take, List.take_eq_take_min]
  · rw [OutWrite.fromPage, if_neg hsrc] at h
    exact absurd h hsrc

/-- A page's part of a result: that of the target whose page it is. -/
theorem getElem?_zip_range_map {α : Type} (l : List α) (f : α → α) (i : Nat) :
    (((List.range l.length).zip l).map (fun r => if r.1 = i then f r.2 else r.2))[i]? = (l[i]?).map f := by
  rw [List.getElem?_map]
  by_cases h : i < l.length
  · simp [h]
  · simp [h]

theorem State.pageIn_ops (s : State) (x : Xact) (bs : List Byte) (bad : Bool) : ((s.pageIn x bs bad).core x.core).ops
    = (s.core x.core).ops.map (fun o => if o.id = x.op then { o with res := ((List.range o.res.length).zip o.res).map (fun r =>
        if r.1 = x.res then { r.2 with writes := r.2.writes.map (OutWrite.fromPage (pageAddr (x.chan.getD 0) x.page) bs bad) } else r.2) }
      else o) := by
  rw [State.pageIn, State.onCore_core]

/-- R168 and R191: a page that has come is put into the part of the result that asked for it. -/
theorem State.pageIn_spec (s : State) (x : Xact) (bs : List Byte) (bad : Bool) :
    ((s.pageIn x bs bad).core x.core).ops.map OutOp.id = (s.core x.core).ops.map OutOp.id
      ∧ ∀ o ∈ ((s.pageIn x bs bad).core x.core).ops, o.id = x.op → ∀ r, o.res[x.res]? = some r → ∀ w ∈ r.writes,
          w.src = [(pageAddr (x.chan.getD 0) x.page, pageAddr (x.chan.getD 0) x.page + 4095)] →
          w.bytes = (bs.drop w.ofs).take w.bytes.length ∧ (bad = true → w.bad = true) := by
  rw [s.pageIn_ops]
  constructor
  · rw [List.map_map]
    refine List.map_congr_left fun o _ => ?_
    dsimp only [Function.comp_apply]
    split <;> rfl
  · intro o ho hid r hr w hw hsrc
    obtain ⟨o, -, rfl⟩ := List.mem_map.mp ho
    by_cases hop : o.id = x.op
    · rw [if_pos hop] at hr
      dsimp only at hr
      rw [getElem?_zip_range_map o.res (fun r => { r with writes := r.writes.map (OutWrite.fromPage _ bs bad) })] at hr
      obtain ⟨q, -, rfl⟩ := Option.map_eq_some_iff.mp hr
      obtain ⟨v, -, rfl⟩ := List.mem_map.mp hw
      exact v.fromPage_spec _ bs bad hsrc
    · rw [if_neg hop] at hid
      exact absurd hid hop

/-- A page's arrival for an operation or a load (R168, R404). -/
theorem State.pageArrives_spec (s : State) (x : Xact) (bs : List Byte) (bad : Bool) :
    (x.use = .operation → s.pageArrives x bs bad = s.pageIn x bs bad)
    ∧ (x.use = .load → s.pageArrives x bs bad = if bad then s.failLoad x.pan x.ctx else s) := by
  unfold State.pageArrives
  constructor
  · intro h
    rw [h]
  · intro h
    rw [h]

/-- Settles O42: a page is delivered from the first channel that serves it, and what it arrives for says what follows; a load's end writes
or frees its shares, which leaves its context's ranks. -/
theorem transactionsAndLoads : Obligations.TransactionsAndLoads := by
  refine ⟨fun s c n x rest errs hr => ⟨fun hx => ?remote, fun hx => ⟨fun htag => ?late, fun htag => ⟨fun hnone => ?unheld, fun k r hk =>
    ⟨fun hlt hgood => ?first, fun hfirst => ⟨fun j hj hlt hgood => ?partner, fun hrest => ?poisoned⟩⟩⟩⟩, fun bs bad => ?arrives⟩,
    fun s p c hr hst => ⟨fun hend hdue => ?ends, fun hwait => ?waits⟩⟩
  case remote =>
    have hreply := s.reply_of_tag x rest
    refine ⟨_, exec_remoteAccessComplete hr hx, ?_, fun htag => by rw [hreply.1 htag], fun htag => by rw [hreply.2 htag]⟩
    by_cases htag : x.tag = (s.ctx x.pan x.ctx).tag
    · rw [hreply.1 htag]
    · rw [hreply.2 htag]
      exact (State.bump_sends _ (.refl _)).xacts
  case late => rw [exec_hbusPageTransfer hr hx, (s.reply_of_tag x rest).2 htag]
  case unheld =>
    exact exec_hbusPageTransfer_current hr hx htag (State.fetchAt_of_none (s := { s with xacts := rest }) hnone _ _)
  case first =>
    exact exec_hbusPageTransfer_current hr hx htag (State.fetchAt_first (s := { s with xacts := rest }) hk hlt hgood)
  case partner =>
    obtain ⟨u, hsends, hfetch⟩ := State.fetchAt_partner (s := { s with xacts := rest }) hk hj hfirst hlt hgood
    exact ⟨u, State.Sends.xacts hsends, hsends.map fun t => { t with xacts := s.xacts }, exec_hbusPageTransfer_current hr hx htag hfetch⟩
  case poisoned =>
    have hfetch := State.fetchAt_none (s := { s with xacts := rest }) hk hfirst hrest
    obtain ⟨hcrc, hsends, hxacts⟩ := State.pageBad_counts { s with xacts := rest } (r.getLastD k)
    exact ⟨_, hxacts, hcrc, hsends.map fun u => { u with xacts := s.xacts }, exec_hbusPageTransfer_current hr hx htag hfetch⟩
  case arrives =>
    refine ⟨fun huse => ?_, fun huse => (s.pageArrives_spec x bs false).2 huse, fun huse hst => ?_⟩
    · rw [(s.pageArrives_spec x bs bad).1 huse]
      exact s.pageIn_spec x bs bad
    · rw [(s.pageArrives_spec x bs true).2 huse, if_pos rfl]
      obtain ⟨hfail, hloaded⟩ := State.failLoad_ends hst
      exact ⟨hfail, hloaded.queues, hloaded.jobs, hloaded.regs, hloaded.windows, hloaded.loops⟩
  case ends =>
    have hexec := exec_loadDone hr hst
    rw [if_neg (by rw [hdue]; simp [hend])] at hexec
    have hctx := s.loadEnd_ctx p.val c.val
    have hloaded := s.loadEnd_loaded p.val c.val
    exact ⟨_, hexec, by rw [hctx], by rw [hctx], s.loadEnd_ranks _ _, hloaded.queues, hloaded.jobs, hloaded.regs, hloaded.windows, hloaded.loops⟩
  case waits => rw [exec_loadDone hr hst, if_pos hwait]

end Sys2Proof.Machine
end

section
/-!
PROOF. What full/empty rows leave of the lines' states (R143-R146), and what streaming weights leaves of a core (R317).
-/

namespace Sys2Proof.Machine

/-! ### Sets of numbers -/

theorem NSet.mem_ins (m : NSet) (k l : Nat) : l ∈ m.ins k ↔ l = k ∨ l ∈ m := by
  induction m with
  | nil => exact List.mem_singleton.trans (by simp)
  | cons a r ih =>
    unfold NSet.ins
    split
    · exact List.mem_cons
    · split
      · next h =>
        rw [h, List.mem_cons]
        tauto
      · rw [List.mem_cons, List.mem_cons, ih]
        tauto

theorem NSet.has_iff (m : NSet) (k : Nat) : m.has k = true ↔ k ∈ m := List.elem_iff

/-- A line marked is in the state it is marked with, and no other line changes (R144). -/
theorem State.mark_has (s : State) (a : Nat) (w : Bool) (l : Nat) : (s.mark a w).full.has l = if a / 64 = l then w else s.full.has l := by
  rw [Bool.eq_iff_iff]
  cases w with
  | true =>
    change NSet.has (s.full.ins (a / 64)) l = true ↔ _
    rw [NSet.has_iff, NSet.mem_ins, ← NSet.has_iff]
    by_cases h : a / 64 = l
    · rw [if_pos h]
      exact iff_of_true (.inl h.symm) rfl
    · rw [if_neg h]
      exact or_iff_right fun h' => h h'.symm
  | false =>
    change NSet.has (s.full.del (a / 64)) l = true ↔ _
    rw [NSet.has_iff, NSet.del, List.mem_filter, ← NSet.has_iff]
    by_cases h : a / 64 = l
    · rw [if_pos h]
      exact iff_of_false (fun hl => of_decide_eq_true hl.2 h.symm) Bool.false_ne_true
    · rw [if_neg h]
      exact and_iff_left (decide_eq_true fun h' => h h'.symm)

/-! ### Lines' states behind an access -/

theorem State.FlushesOnly.full {s t : State} (h : s.FlushesOnly t) : t.full = s.full := (congrArg State.full h).trans rfl

@[simp] theorem State.poke_full (s : State) (a : Nat) (bs : List Byte) (bad : Bool) : (s.poke a bs bad).full = s.full := rfl

@[simp] theorem State.flushLine_full (s : State) (line : Nat) : (s.flushLine line).full = s.full := by
  unfold State.flushLine
  split
  · exact (s.flushEntry_flushesOnly _ _).full
  · rfl

theorem State.makeDirty_full (s : State) (h : StepProg) (a : Nat) : (s.makeDirty h a).full = s.full := by
  unfold State.makeDirty
  split
  · rfl
  · dsimp only
    refine Eq.trans (State.FlushesOnly.full ?_) (s.flushLine_full (s.copies h (a / 64 * 64)).1)
    refine .foldl ?_ _ _
    exact fun _ _ => rfl

/-- A store of a unit that writes past the buffers marks no line. -/
theorem State.store_full (s : State) (n a : Nat) (bs : List Byte) (bad : Bool) : (s.store n false a bs bad).full = s.full := by
  have piece (t : State) (a : Nat) (bs : List Byte) : (t.storePiece n false a bs bad).full = t.full := by
    unfold State.storePiece
    cases t.headerFor a with
    | none => simp
    | some h =>
      dsimp only
      cases h.persOf false (a % 0x400000) with
      | none => simp
      | some _ => simp [State.makeDirty_full]
  exact List.foldlRecOn (motive := fun u : State => u.full = s.full) _ _ rfl fun u hu x _ => (piece u _ _).trans hu

/-- A full/empty row granted marks its own line alone (R144). -/
theorem State.feGrant_has (s : State) (n : Nat) (w : Bool) (x : Option Nat × Nat × Nat) (l : Nat) :
    (s.feGrant n w x).full.has l = if feLine w x / 64 = l then w else s.full.has l := by
  rw [State.feGrant, State.mark_has, State.store_full, State.feRead, State.flushLine_full]

/-- Full/empty rows are granted in order, up to the first whose line is not in the state it waits for (R144, R145). -/
theorem State.feRows_taken (n : Nat) (w : Bool) (items : List (Option Nat × Nat × Nat)) (bad : List (Option Nat)) (s : State) :
    ∃ done, items = done ++ (s.feRows n w items bad).2.1
      ∧ (∀ x ∈ (s.feRows n w items bad).2.1.head?, (s.feRows n w items bad).1.isFull (feLine w x) = w)
      ∧ (∀ l, (∀ x ∈ done, feLine w x / 64 ≠ l) → (s.feRows n w items bad).1.full.has l = s.full.has l)
      ∧ (∀ x, done = [x] → (s.feRows n w items bad).1.isFull (feLine w x) = w) := by
  induction items generalizing bad s with
  | nil => exact ⟨[], rfl, fun _ hx => (Option.not_mem_none _ hx).elim, fun _ _ => rfl, fun _ hx => (List.cons_ne_nil _ _ hx.symm).elim⟩
  | cons x r ih =>
    rw [State.feRows_cons]
    split
    · next hfull =>
      refine ⟨[], rfl, fun y hy => ?_, fun _ _ => rfl, fun _ hx => (List.cons_ne_nil _ _ hx.symm).elim⟩
      cases hy
      exact hfull
    · obtain ⟨done, hsplit, hnext, hkeep, -⟩ := ih (if ((s.feRead w x).loadAt x.2.1 64).2 then bad ++ [x.1] else bad) (s.feGrant n w x)
      refine ⟨x :: done, congrArg (x :: ·) hsplit, hnext, fun l hl => ?_, fun y hy => ?_⟩
      · obtain ⟨hx, hdone⟩ := List.forall_mem_cons.mp hl
        rw [hkeep l hdone, State.feGrant_has, if_neg hx]
      · obtain ⟨rfl, rfl⟩ := List.cons_eq_cons.mp hy
        rw [State.isFull, hkeep _ fun _ h => (List.not_mem_nil h).elim, State.feGrant_has, if_pos rfl]

/-! ### Streamed weights -/

/-- Cores changed in their buffers and in what they note of streamed weights alone. -/
def State.OnlyStreamed (s t : State) : Prop :=
  ∀ k, t.core k = { s.core k with buf := (t.core k).buf, stage := (t.core k).stage, asked := (t.core k).asked, parts := (t.core k).parts }

namespace State.OnlyStreamed

variable {s t u : State}

theorem refl (s : State) : s.OnlyStreamed s := fun _ => rfl

theorem trans (h : s.OnlyStreamed t) (h' : t.OnlyStreamed u) : s.OnlyStreamed u := fun k => (h' k).trans (by rw [h k])

theorem ite {b : Prop} [Decidable b] (h : s.OnlyStreamed t) (h' : s.OnlyStreamed u) : s.OnlyStreamed (if b then t else u) := by
  split
  · exact h
  · exact h'

theorem opId (h : s.OnlyStreamed t) (k : Nat) : (t.core k).opId = (s.core k).opId := by rw [h k]

end State.OnlyStreamed

theorem State.OnlyBuffered.streamed {s t : State} (h : s.OnlyBuffered t) : s.OnlyStreamed t := fun k => by rw [h.core k]

theorem State.onCore_streamed (s : State) (n : Nat) {f : Core → Core}
    (hf : ∀ k, f k = { k with buf := (f k).buf, stage := (f k).stage, asked := (f k).asked, parts := (f k).parts }) :
    s.OnlyStreamed (s.onCore n f) := by
  intro k
  by_cases hk : k = n
  · rw [hk, State.onCore_core]
    exact hf _
  · rw [State.onCore_core_ne s n f k hk]

theorem State.stageLayer_streamed (s : State) (p c n rank k : Nat) (bad : Bool) : s.OnlyStreamed (s.stageLayer p c n rank k bad) := by
  unfold State.stageLayer
  dsimp only
  split
  · exact .refl s
  · exact (s.place_onlyBuffered _ _ _).streamed

theorem State.pageCame_streamed (s : State) (p c n rank k : Nat) (bad : Bool) : s.OnlyStreamed (s.pageCame p c n rank k bad) := by
  unfold State.pageCame
  dsimp only
  split
  · exact .refl s
  · refine .ite (.trans ?_ (State.stageLayer_streamed _ _ _ _ _ _ _)) ?_
    · exact s.onCore_streamed n fun _ => rfl
    · exact s.onCore_streamed n fun _ => rfl

theorem State.askLayer_streamed (s : State) (p c n k : Nat) : s.OnlyStreamed (s.askLayer p c n k) := by
  have hasked (b : Nat) (q : List StagePart) (l : List Xact) : s.OnlyStreamed
      { (s.chargeBy p .hbus 4096 b).onCore n (fun x => { x with asked := k + 1, parts := x.parts ++ q }) with xacts := l } := by
    have hcharged : s.OnlyStreamed (s.chargeBy p .hbus 4096 b) := fun j => by rw [(s.chargeBy_onlyCharged p .hbus 4096 b).core]
    have hnoted := State.onCore_streamed (s.chargeBy p .hbus 4096 b) n (f := fun x => { x with asked := k + 1, parts := x.parts ++ q }) fun _ => rfl
    exact hcharged.trans hnoted
  unfold State.askLayer
  dsimp only
  split
  · exact .refl s
  · exact .ite ((hasked _ _ _).trans (State.pageCame_streamed _ p c n _ _ _)) (hasked _ _ _)

theorem State.askTo_streamed (s : State) (p c n k : Nat) : s.OnlyStreamed (s.askTo p c n k) :=
  have first : s.OnlyStreamed (if (s.core n).asked ≤ k then s.askLayer p c n k else s) := .ite (s.askLayer_streamed _ _ _ _) (.refl s)
  .ite (first.trans (State.askLayer_streamed _ _ _ _ _)) first

theorem State.touchHalf_streamed (s : State) (p c n h : Nat) : s.OnlyStreamed (s.touchHalf p c n h) := by
  refine .trans ?_ (State.askTo_streamed _ _ _ _ _)
  exact s.onCore_streamed n fun _ => rfl

theorem State.streamTouch_streamed (s : State) (p c n : Nat) (rds : List (Nat × Nat)) : s.OnlyStreamed (s.streamTouch p c n rds) := by
  have first (b : Bool) : s.OnlyStreamed (if b then s.touchHalf p c n 0 else s) := .ite (s.touchHalf_streamed _ _ _ _) (.refl s)
  unfold State.streamTouch
  dsimp only
  exact .ite (.refl s) (.ite ((first _).trans (State.touchHalf_streamed _ _ _ _ _)) (first _))

end Sys2Proof.Machine
end

section
/-!
PROOF. MOVE operations (R159, R166, R168, R178, R179, R185, R186): the common course of COPY, FILL, PAGE_LOAD and PAGE_STORE.
-/

namespace Sys2Proof.Machine

/-! ### A move that nothing holds -/

/-- A descriptor that no hazard and no streamed layer holds issues once its reads have passed the buffers (R133, R179, R317). -/
theorem State.readyToIssue_done {v : State} {n p c : Nat} {d : Desc} {op : OutOp} {base : List Opnd}
    (hfree : v.heldBy n op.reads op.writes = false)
    (hdue : (v.streamTouch p c n (v.stagedReads n p c d op.reads base)).layerDue n = false) :
    v.readyToIssue n p c d op base = .done ((v.streamTouch p c n (v.stagedReads n p c d op.reads base)).readAll n op) := by
  unfold State.readyToIssue
  rw [State.hold_of_not_heldBy hfree]
  dsimp only
  rw [(v.streamTouch_stands p c n _).heldBy, hfree, hdue]
  rfl

/-- A move that runs does so for every slot that the descriptor selects. -/
theorem State.moveTargets_ok {v : State} {n p c kind : Nat} {d : Desc} {ts : List (Option Nat)} (h : v.moveTargets n p c kind d = .ok ts) :
    ts = v.runsFor n p c d := by
  unfold State.moveTargets at h
  simp only [bind, Except.bind] at h
  split at h
  · split at h
    · cases h
    · cases h
      rfl
  · cases h

/-- What a deferred target leaves for the commit (R186). -/
def State.deferredMove (s : State) (n kind : Nat) (d : Desc) (t : Option Nat) : Deferred :=
  { rank := (s.core n).rank, slot := t, kind := kind, desc := d, index := (s.core n).next }

/-- The targets of a move recorded for the commit (R186). -/
def State.deferring (u s : State) (n kind : Nat) (d : Desc) (late : List (Option Nat)) : State :=
  u.onCore n (fun k => { k with moves := k.moves ++ late.map (s.deferredMove n kind d) })

theorem State.defer_eq {u s : State} {n : Nat} (hrank : (u.core n).rank = (s.core n).rank) (kind : Nat) (d : Desc) (late : List (Option Nat)) :
    u.defer n (s.core n).next kind d late = (u.deferring s n kind d late,
      late.map (fun t => { slot := t, bad := (u.fetchDesc n (s.core n).next).2 })) := by
  rw [State.defer, hrank]
  rfl

/-- The transactions of a PAGE_LOAD's targets (R168, R418). -/
def State.addLoads (y : State) (n p c id : Nat) (d : Desc) (now : List (Option Nat)) : State :=
  ((List.range now.length).zip now).foldl (fun y t => y.addPages n p c id t.1 (slotAddr d d.addrA d.relA t.2) d.m.toNat) y

theorem State.addPages_core (s : State) (n p c id res a pages k : Nat) : (s.addPages n p c id res a pages).core k = s.core k :=
  (s.chargeBy_onlyCharged p .hbus 4096 (pages * 4096)).core k

theorem State.addLoads_core (y : State) (n p c id : Nat) (d : Desc) (now : List (Option Nat)) (k : Nat) :
    (y.addLoads n p c id d now).core k = y.core k :=
  List.foldlRecOn (motive := fun t : State => t.core k = y.core k) _ _ rfl fun t ht _ _ => (t.addPages_core _ _ _ _ _ _ _ k).trans ht

/-- The transactions under way on HyperBus channels. -/
def State.pageXacts (s : State) : List Xact := s.xacts.filter (fun t => t.chan.isSome)

theorem State.addPages_pageXacts (s : State) (n p c id res a pages : Nat) :
    (s.addPages n p c id res a pages).pageXacts.length = s.pageXacts.length + pages := by
  have hpages (l : List (Nat × Nat)) (f : Nat × Nat → Xact) (hf : ∀ i, (f i).chan.isSome = true) :
      ((l.map f).filter (fun t => t.chan.isSome)).length = l.length := by
    rw [List.filter_eq_self.mpr, List.length_map]
    intro t ht
    obtain ⟨i, -, rfl⟩ := List.mem_map.mp ht
    exact hf i
  unfold State.addPages State.pageXacts
  dsimp only
  rw [List.filter_append, List.length_append, hpages _ _ fun _ => rfl, (s.chargeBy_onlyCharged p .hbus 4096 (pages * 4096)).xacts]
  simp [State.nextPlaces]

/-- R168 and R418: one transaction per page and target. -/
theorem State.addLoads_pageXacts (y : State) (n p c id : Nat) (d : Desc) (now : List (Option Nat)) :
    (y.addLoads n p c id d now).pageXacts.length = y.pageXacts.length + now.length * d.m.toNat := by
  have hfold (l : List (Nat × Option Nat)) (y : State) :
      (l.foldl (fun y t => y.addPages n p c id t.1 (slotAddr d d.addrA d.relA t.2) d.m.toNat) y).pageXacts.length
        = y.pageXacts.length + l.length * d.m.toNat := by
    induction l generalizing y with
    | nil => simp
    | cons x l ih =>
      rw [List.foldl_cons, ih, State.addPages_pageXacts, List.length_cons, Nat.add_mul]
      omega
  rw [State.addLoads, hfold]
  simp

/-- Remote accesses are under way on no channel (R136). -/
theorem State.addXacts_pageXacts (s : State) (n p c id : Nat) (lines : List Nat) : (s.addXacts n p c id lines).pageXacts = s.pageXacts := by
  simp [State.pageXacts, State.addXacts]

theorem State.Pushed.pageXacts {s t : State} {n p c : Nat} {op : OutOp} (h : s.Pushed n p c op t) : t.pageXacts = s.pageXacts := by
  rw [State.pageXacts, h.xacts]
  exact State.addXacts_pageXacts s n p c _ op.far

theorem State.counted_opId (s : State) (n k : Nat) : ((s.counted n).core k).opId = (s.core k).opId := by
  have hread := (s.readDesc_onlyBuffered n (s.core n).next).streamed.opId k
  by_cases hk : k = n
  · rw [State.counted, hk, State.onCore_core]
    exact hk ▸ hread
  · rw [State.counted, State.onCore_core_ne _ _ _ _ hk, hread]

/-- What the descriptor of a move puts among the outstanding operations, but for its results (R179, R184). -/
def State.moveShell (v : State) (n i kind : Nat) (d : Desc) (st : Option Nat) (ts now : List (Option Nat)) : OutOp :=
  v.opOf n i d false st ts.length (now.map (moveSides kind d)) Opnd.lined

/-- The results of a move (R178, R186): the rows that it moves for the targets that are not deferred. -/
def OutOp.moved (op : OutOp) (u : State) (n i kind : Nat) (d : Desc) (now late : List (Option Nat)) : OutOp :=
  { op with res := u.runTargets n op (u.fetchDesc n i).2 (fun s t => s.moveRun n kind d t) (now.map (fun t => (t, [])))
      ++ late.map (fun t => { slot := t, bad := (u.fetchDesc n i).2 }) }

section
variable {s v u : State} {n p c kind : Nat} {h : StepProg} {d : Desc} {st : Option Nat} {ts now late : List (Option Nat)}

/-- The common course of a move that nothing holds. -/
theorem State.move_done (a : s.AtDesc n p c h ⟨0, kind⟩ d) (hk : (OpCode.mk 0 kind).known = true) (hplain : descPlain d false false = true)
    (hv : v = s.counted n) (hst : v.statusAt n h d = .ok st) (hts : v.moveTargets n p c kind d = .ok ts)
    (hlate : late = ts.filter (deferredFor d)) (hnow : now = ts.filter (fun t => !deferredFor d t))
    (hroom : (v.core n).moves.length + late.length ≤ 16) {r w : List (Nat × Nat)} (hclear : (v.core n).Clear d false r w)
    (hready : v.readyToIssue n p c d (v.moveShell n (s.core n).next kind d st ts now) (moveSides kind d none).1 = .done u)
    (hrank : (u.core n).rank = (s.core n).rank) (hid : (u.core n).opId = (s.core n).opId) :
    let y := (u.deferring s n kind d late).push n p c ((v.moveShell n (s.core n).next kind d st ts now).moved u n (s.core n).next kind d now late)
    s.move n kind d = if kind = 4 then y.addLoads n p c (s.core n).opId d now else y := by
  intro y
  have hrun : (v.core n).run = some (p, c) := hv ▸ ((s.counted_stands n).run n).trans a.run
  have hheader : v.header n = some h := hv ▸ ((s.counted_stands n).header n).trans (State.issuing_some a.inside).2
  have hway : v.clearWay n false d = v := by
    rw [State.clearWay, hclear.not_wantsClear]
    rfl
  have hfull : v.movesFull n (ts.filter (deferredFor d)).length = false := by
    rw [← hlate]
    exact decide_eq_false (by omega)
  have hid' : ((u.deferring s n kind d late).core n).opId = (s.core n).opId := by
    rw [State.deferring, State.onCore_core]
    exact hid
  unfold State.move
  refine (a.issue_done hk (t := if kind = 4 then y.addLoads n p c (s.core n).opId d now else y) ?_).trans (State.passEnd_of_ops ?_)
  · rw [← hv]
    simp only [hrun, hplain, hheader, Option.getD_some, hst, hway, hclear.not_waits, hts, hfull, bind, Except.bind, Bool.not_true,
      Bool.false_eq_true, if_false]
    rw [← hnow, ← hlate, ← State.moveShell, hready]
    dsimp only
    rw [State.defer_eq hrank]
    dsimp only
    rw [hid']
    rfl
  · have hops : (y.core n).ops ≠ [] := (State.push_pushed _ _ _ _ _).ops_ne_nil
    split
    · rwa [State.addLoads_core]
    · exact hops

theorem State.opOf_reads (v : State) (n i : Nat) (d : Desc) (narrow : Bool) (st : Option Nat) (run : Nat) (os : List (List Opnd × List Opnd))
    (far : Opnd → Bool) : (v.opOf n i d narrow st run os far).reads = v.spansAll n (os.map Prod.fst) := by
  rw [State.spansAll, List.flatMap_map]
  rfl

theorem State.opOf_writes (v : State) (n i : Nat) (d : Desc) (narrow : Bool) (st : Option Nat) (run : Nat) (os : List (List Opnd × List Opnd))
    (far : Opnd → Bool) : (v.opOf n i d narrow st run os far).writes = statusSpan st ++ v.spansAll n (os.map Prod.snd) := by
  rw [State.spansAll, List.flatMap_map]
  rfl

theorem State.moveShell_reads {i : Nat} {os : List (List Opnd × List Opnd)} (hos : os = now.map (moveSides kind d)) :
    (v.moveShell n i kind d st ts now).reads = v.spansAll n (os.map Prod.fst) := by
  subst hos
  exact State.opOf_reads ..

theorem State.moveShell_writes {i : Nat} {os : List (List Opnd × List Opnd)} (hos : os = now.map (moveSides kind d)) :
    (v.moveShell n i kind d st ts now).writes = statusSpan st ++ v.spansAll n (os.map Prod.snd) := by
  subst hos
  exact State.opOf_writes ..

/-- R179 and R317: a move that no hazard and no streamed layer holds has its reads pass the buffers, and issues. -/
theorem State.moveShell_ready {i : Nat} {os : List (List Opnd × List Opnd)} (hos : os = now.map (moveSides kind d))
    (hclear : (v.core n).Clear d false (v.spansAll n (os.map Prod.fst)) (statusSpan st ++ v.spansAll n (os.map Prod.snd)))
    (hdue : (v.touched n p c d (os.map Prod.fst) (moveSides kind d none).1).layerDue n = false) :
    v.readyToIssue n p c d (v.moveShell n i kind d st ts now) (moveSides kind d none).1
      = .done ((v.touched n p c d (os.map Prod.fst) (moveSides kind d none).1).readAll n (v.moveShell n i kind d st ts now)) := by
  have hreads : (v.moveShell n i kind d st ts now).reads = v.spansAll n (os.map Prod.fst) := State.moveShell_reads hos
  have hwrites : (v.moveShell n i kind d st ts now).writes = statusSpan st ++ v.spansAll n (os.map Prod.snd) := State.moveShell_writes hos
  have hfree : v.heldBy n (v.moveShell n i kind d st ts now).reads (v.moveShell n i kind d st ts now).writes = false := by
    rw [hreads, hwrites]
    exact hclear.not_heldBy
  have hready := State.readyToIssue_done hfree (p := p) (c := c) (d := d) (base := (moveSides kind d none).1)
  rw [hreads] at hready
  exact hready hdue

end

/-- What passing the buffers and asking for streamed weights leave of a core that has taken its descriptor up. -/
theorem State.touched_readAll_core {s v : State} {n : Nat} (hv : v = s.counted n) (p c : Nat) (d : Desc) (os : List (List Opnd)) (base : List Opnd)
    (op : OutOp) : (((v.touched n p c d os base).readAll n op).core n).rank = (s.core n).rank
      ∧ (((v.touched n p c d os base).readAll n op).core n).opId = (s.core n).opId := by
  have hread := State.readAll_onlyBuffered (v.touched n p c d os base) n op
  have htouched := v.streamTouch_stands p c n (v.stagedReads n p c d (v.spansAll n os) base)
  subst hv
  refine ⟨((hread.stands.rank n).trans (htouched.rank n)).trans ((s.counted_stands n).rank n), ?_⟩
  exact ((hread.streamed.opId n).trans ((State.streamTouch_streamed _ p c n _).opId n)).trans (s.counted_opId n n)

theorem exec_move (s : State) (n : Fin 32) (d : Desc) :
    ∀ x ∈ [(Instr.copy n d, 0), (Instr.fill n d, 1), (Instr.pageLoad n d, 4), (Instr.pageStore n d, 5)],
    exec x.1 s = .next (s.move n.val x.2 d) ∧ (OpCode.mk 0 x.2).known = true := by
  simp only [List.forall_mem_cons]
  exact ⟨⟨rfl, rfl⟩, ⟨rfl, rfl⟩, ⟨rfl, rfl⟩, ⟨rfl, rfl⟩, List.forall_mem_nil _⟩

end Sys2Proof.Machine
end

section
/-!
PROOF. Full/empty accesses (R143-R147, R186): the course that they take once nothing is outstanding.
-/

namespace Sys2Proof.Machine

/-- What becomes of a full/empty access that has taken its lines (R145, R147): it is outstanding, faults, or leaves the core to another rank. -/
def State.feOutcome (t : State) (n i : Nat) : State :=
  if (t.core n).wait = none then t
  else if t.strict then t.fault n .schedule i
  else if t.slotWait n = 0 then t.fault n .slotTimeout i
  else t.passTurn n

/-- The operation that a full/empty access makes (R143, R184). -/
def State.feShell (v y : State) (n i : Nat) (d : Desc) (st : Option Nat) (ts now late : List (Option Nat)) : OutOp :=
  { id := 0, rank := (y.core n).rank, desc := i, status := st, run := ts.length, narrow := false, slotwise := d.slotwise,
    writes := statusSpan st,
    far := y.farLines n (now.flatMap (fun t => [(moveOpnds d false t).1, (moveOpnds d false t).2])),
    res := now.map (fun t => { slot := t, bad := (y.fetchDesc n i).2 }) ++ late.map (fun t => { slot := t, bad := (v.fetchDesc n i).2 }) }

theorem mapM_ok_of_forall {α : Type} {f : α → Except StepFault Unit} {l : List α} (h : ∀ x ∈ l, f x = .ok ()) : l.mapM f = .ok (l.map fun _ => ()) := by
  induction l with
  | nil => rfl
  | cons x l ih =>
    obtain ⟨hx, hl⟩ := List.forall_mem_cons.mp h
    rw [List.mapM_cons, hx, ih hl]
    rfl

/-- The course of a full/empty access once nothing is outstanding (R143-R147, R186). -/
theorem State.feMove_done {s v y : State} {n p c : Nat} {w : Bool} {d : Desc} {h : StepProg} {st : Option Nat}
    {ts now late : List (Option Nat)} (a : s.AtDesc n p c h ⟨0, if w then 3 else 2⟩ d)
    (hplain : descPlain d false false = true) (hfields : feFields w d = true) (hv : v = s.counted n) (hst : v.statusAt n h d = .ok st)
    (hops : (s.core n).ops = []) (hts : ts = v.runsFor n p c d) (hlate : late = ts.filter (deferredFor d))
    (hnow : now = ts.filter (fun t => !deferredFor d t))
    (hopnds : ∀ t ∈ ts, v.checkOpnd n (moveOpnds d false t).1 = .ok () ∧ v.checkOpnd n (moveOpnds d false t).2 = .ok ())
    (hroom : (v.core n).moves.length + late.length ≤ 16) (hy : y = v.deferring s n (if w then 3 else 2) d late) :
    s.feMove n w d = (((y.feTry n p c w (y.feItems n d now) [] (v.feShell y n (s.core n).next d st ts now late) y.nclk).feOutcome n
      (s.core n).next).passEnd n).feRetry := by
  have hstands : s.SeqStands v := hv ▸ s.counted_stands n
  have hrun : (v.core n).run = some (p, c) := (hstands.run n).trans a.run
  have hheader : v.header n = some h := (hstands.header n).trans (State.issuing_some a.inside).2
  have hvops : (v.core n).ops = [] := (hstands.ops n).trans hops
  have hfull : v.movesFull n (ts.filter (deferredFor d)).length = false := by
    rw [← hlate]
    exact decide_eq_false (by omega)
  have hchecks : ts.mapM (fun t => do
      let (x, y) := moveOpnds d false t
      let _ ← v.checkOpnd n x
      v.checkOpnd n y) = .ok (ts.map fun _ => ()) := by
    refine mapM_ok_of_forall fun t ht => ?_
    obtain ⟨hx, hy⟩ := hopnds t ht
    simp only [hx, hy, bind, Except.bind]
  have hk : (OpCode.mk 0 (if w then 3 else 2)).known = true := by
    cases w <;> rfl
  unfold State.feMove
  dsimp only
  refine congrArg State.feRetry (a.issue_done hk ?_)
  rw [← hv]
  unfold State.runsFor at hts
  simp only [bind, Except.bind] at hchecks
  simp only [hrun, hplain, hfields, hheader, Option.getD_some, hst, State.drain_of_ops_nil hvops, hvops, ← hts, hchecks, hfull, bind, Except.bind,
    Bool.not_true, Bool.or_self, Bool.false_eq_true, if_false, ne_eq, not_true_eq_false]
  rw [← hnow, ← hlate, State.defer_eq (hstands.rank n)]
  dsimp only
  rw [← hy]
  unfold State.feOutcome State.feShell
  split
  · rfl
  · split
    · rfl
    · split <;> rfl

/-- Every line granted: the access is outstanding (R143, R144). -/
theorem State.feTry_granted {y u : State} {n p c : Nat} {w : Bool} {items : List (Option Nat × Nat × Nat)} {bad : List (Option Nat)}
    (h : y.feRows n w items [] = (u, [], bad)) (op : OutOp) (since : Nat) :
    y.feTry n p c w items [] op since = (u.onCore n (fun k => { k with wait := none })).push n p c (feOp op bad) := by
  unfold State.feTry
  rw [h]
  exact if_pos rfl

/-- A core that waits for a full/empty line with what is to come (R145). -/
def State.feWait (u : State) (n : Nat) (w : Bool) (rest : List (Option Nat × Nat × Nat)) (bad : List (Option Nat)) (op : OutOp)
    (since : Nat) : State :=
  u.onCore n (fun k => { k with wait := some (.fullEmpty w rest bad op, since) })

section
variable (u : State) (n : Nat) (w : Bool) (rest : List (Option Nat × Nat × Nat)) (bad : List (Option Nat)) (op : OutOp) (since : Nat)

theorem State.feWait_wait : ((u.feWait n w rest bad op since).core n).wait ≠ none := by
  rw [State.feWait, State.onCore_core]
  exact Option.some_ne_none _

theorem State.feWait_within : u.WithinStep (u.feWait n w rest bad op since) := u.onCore_within n _

end

/-- A line in the wrong state: the core waits for it (R145). -/
theorem State.feTry_waits {y u : State} {n : Nat} {w : Bool} {items rest : List (Option Nat × Nat × Nat)} {bad : List (Option Nat)}
    (h : y.feRows n w items [] = (u, rest, bad)) (hrest : rest ≠ []) (p c : Nat) (op : OutOp) (since : Nat) :
    y.feTry n p c w items [] op since = u.feWait n w rest bad op since := by
  unfold State.feTry
  rw [h]
  exact if_neg hrest

theorem State.feOutcome_of_going {t : State} {n : Nat} (h : (t.core n).wait = none) (i : Nat) : t.feOutcome n i = t := if_pos h

theorem State.feOutcome_of_wait {t : State} {n : Nat} (h : (t.core n).wait ≠ none) (i : Nat) :
    (t.strict = false → 0 < t.slotWait n → t.feOutcome n i = t.passTurn n)
    ∧ (t.strict = true ∨ t.slotWait n = 0 → t.feOutcome n i = t.fault n (if t.strict then .schedule else .slotTimeout) i) := by
  unfold State.feOutcome
  rw [if_neg h]
  constructor
  · intro hopen hpos
    rw [hopen, if_neg Bool.false_ne_true, if_neg (by omega)]
  · intro hends
    split
    · rfl
    · next hopen => rw [if_pos (hends.resolve_left hopen)]

theorem State.WithinStep.slotWait {s t : State} (h : s.WithinStep t) (n : Nat) : t.slotWait n = s.slotWait n := by
  simp only [State.slotWait, State.rwField, State.rw, h.regs]

/-- Settles O50: a move takes the common course of an operation descriptor, with its late targets recorded for the commit; a full/empty access
takes its lines in order, and where one is not granted its core waits or faults. -/
theorem moves : Obligations.Moves := by
  refine ⟨fun s v n d p c h st ts now late os x hx a hplain hv hst hts hlate hnow hos hroom hclear hdue => ?move, ?rows,
    fun s v y n w d p c h st cmd ts now late hcmd a hplain hfields hv hst hops hts hlate hnow hopnds hroom hy u rest bad hrows => ?fullEmpty⟩
  case move =>
    obtain ⟨hexec, hk⟩ := exec_move s n d x hx
    obtain ⟨hrank, hid⟩ := State.touched_readAll_core hv p c d (os.map Prod.fst) (moveSides x.2 d none).1
      (v.moveShell n.val (s.core n.val).next x.2 d st ts now)
    have hvrank : (v.core n.val).rank = (s.core n.val).rank := hv ▸ (s.counted_stands n.val).rank n.val
    have hdone := State.move_done a hk hplain hv hst hts hlate hnow hroom hclear (State.moveShell_ready hos hclear hdue) hrank hid
    refine ⟨State.moveTargets_ok hts, _, _, _, _, (v.moveShell n.val (s.core n.val).next x.2 d st ts now).moved
      ((v.touched n.val p c d (os.map Prod.fst) (moveSides x.2 d none).1).readAll n.val (v.moveShell n.val (s.core n.val).next x.2 d st ts now))
      n.val (s.core n.val).next x.2 d now late, hexec.trans (congrArg _ hdone), rfl, rfl, State.push_pushed _ _ _ _ _,
      hvrank, rfl, rfl, rfl, rfl, rfl,
      ?_, ?_, ?_, ?_, rfl, rfl, fun hload => ?_⟩
    · exact State.moveShell_reads (v := v) (i := (s.core n.val).next) (st := st) (ts := ts) hos
    · exact State.moveShell_writes (v := v) (i := (s.core n.val).next) (ts := ts) hos
    · exact hos ▸ rfl
    · exact hos ▸ rfl
    · rw [if_pos hload]
      exact (State.addLoads_pageXacts _ _ _ _ _ _ _).trans
        (congrArg (fun l : List Xact => l.length + now.length * d.m.toNat) (State.push_pushed _ _ _ _ _).pageXacts)
  case rows =>
    intro s u n w items rest bad b hrows
    have htaken := State.feRows_taken n w items bad s
    rw [hrows] at htaken
    exact htaken
  case fullEmpty =>
    have hdone := State.feMove_done a hplain hfields hv hst hops hts hlate hnow hopnds hroom hy
    have hexec : exec cmd s = .next (s.feMove n.val w d) := by
      obtain ⟨rfl, rfl⟩ | ⟨rfl, rfl⟩ := hcmd <;> rfl
    rw [hdone] at hexec
    have hyield : s.WithinStep y := by
      rw [hy, hv]
      exact (s.counted_within n.val).trans (State.onCore_within _ n.val _)
    have hwithin : s.WithinStep u := by
      have htook := (State.feRows_steps n.val w (y.feItems n.val d now) [] y).within
      rw [hrows] at htook
      exact hyield.trans htook
    have hrank : (y.core n.val).rank = (s.core n.val).rank := by
      rw [hy, hv, State.onCore_core]
      exact (s.counted_stands n.val).rank n.val
    rw [hyield.nclk] at hexec
    obtain ⟨op, hop⟩ : ∃ op, op = v.feShell y n.val (s.core n.val).next d st ts now late := ⟨_, rfl⟩
    rw [← hop] at hexec
    refine ⟨op, hop ▸ hrank, hop ▸ rfl, hop ▸ rfl, hop ▸ rfl, hop ▸ rfl, hop ▸ rfl, fun hrest => ?granted,
      fun hrest hopen hpos => ?waits, fun hrest hends => ?faults⟩
    case granted =>
      subst hrest
      have hpushed := State.push_pushed (u.onCore n.val (fun k => { k with wait := none })) n.val p c (feOp op bad)
      rw [State.feTry_granted hrows, State.feOutcome_of_going (by rw [hpushed.core, State.onCore_core]),
        State.passEnd_of_ops hpushed.ops_ne_nil] at hexec
      exact ⟨_, hexec, hpushed⟩
    all_goals
      have hwaiting := hwithin.trans (u.feWait_within n.val w rest bad op s.nclk)
      have houtcome := State.feOutcome_of_wait (u.feWait_wait n.val w rest bad op s.nclk) (s.core n.val).next
      rw [hwaiting.strict, hwaiting.slotWait] at houtcome
      rw [State.feTry_waits hrows hrest] at hexec
    case waits =>
      rw [houtcome.1 hopen hpos] at hexec
      exact hexec
    case faults =>
      rw [houtcome.2 hends] at hexec
      exact hexec

end Sys2Proof.Machine
end

section
/-!
PROOF. Step boundaries (R191, R196, R199, R263, R266): the fate of an instance by the rows of R263, what a commit does with a slot, and the order in
which instances are admitted.
-/

namespace Sys2Proof.Machine

/-! ### Fates -/

/-- A fate is an instance's, and nothing in it has it leave. -/
def Fate.StaysAs (f : Fate) (j : Job) : Prop := f.job = j ∧ f.leaves = none

theorem Fate.StaysAs.ite {b : Prop} [Decidable b] {f g : Fate} {j : Job} (hf : f.StaysAs j) (hg : g.StaysAs j) :
    Fate.StaysAs (if b then f else g) j := by
  split
  · exact hf
  · exact hg

/-- The commit of an instance's slots is looked at before the rows of R263 by which it leaves. -/
theorem State.fateCommit_stays (s : State) (p : Nat) (j : Job) : (s.fateCommit p j).StaysAs j := by
  unfold State.fateCommit
  dsimp only
  split
  next => exact .ite ⟨rfl, rfl⟩ (.ite ⟨rfl, rfl⟩ (.ite ⟨rfl, rfl⟩ ⟨rfl, rfl⟩))
  next => exact .ite ⟨rfl, rfl⟩ ⟨rfl, rfl⟩
  next => exact ⟨rfl, rfl⟩

/-- The single slot of an instance commits as R199 says. -/
theorem State.fateCommit_single (s : State) (p : Nat) {j : Job} (hpair : j.pair = false) {g : Nat} (hslots : j.slots = [g]) :
    (s.fateCommit p j).commits = if s.wouldCommit p j.ctx g then [g] else [] := by
  unfold State.fateCommit
  rw [hpair, hslots]
  exact apply_ite Fate.commits _ _ _

section
variable {s : State} {p te : Nat} {j : Job}

/-- CORRUPT in the state word of an instance's first slot (R252). -/
def State.corrupted (s : State) (p : Nat) (j : Job) : Bool := (s.slotWord p j.ctx (j.slots.headD 0) SlotSt.state).getLsbD 3

/-- A cancel or close that came before a moment (R263). -/
def Job.leftBefore (j : Job) (te : Nat) : Bool := j.leave.any (fun l => l.2 < te)

/-- LEAVE in what a fate's commit leaves of the certificate (R263). -/
def State.leavesDone (s : State) (p : Nat) (j : Job) (f : Fate) : Bool := !f.commits.isEmpty && s.shadowLeave p j.ctx (f.commits.headD 0)

theorem State.fate_harvested (h : j.st = .harvested) : s.fate p te j = { job := j, gone := true } := if_pos h

theorem State.fate_corrupt (hst : j.st ≠ .harvested) (h : s.corrupted p j = true) :
    s.fate p te j = { job := j, leaves := some (some 9, 0) } :=
  (if_neg hst).trans (if_pos h)

theorem State.fate_left (hst : j.st ≠ .harvested) (hcorrupt : s.corrupted p j = false) (h : j.leftBefore te = true) :
    s.fate p te j = { job := j, leaves := some (some 10, if j.leave.any Prod.fst then 4 else 3) } :=
  (if_neg hst).trans ((if_neg (Bool.eq_false_iff.mp hcorrupt)).trans (if_pos h))

/-- An instance that none of the first three rows of R263 has leave. -/
theorem State.fate_running (hst : j.st ≠ .harvested) (hcorrupt : s.corrupted p j = false) (hleft : j.leftBefore te = false) :
    s.fate p te j =
      if j.spoiled || ((s.fateCommit p j).barred && s.barMax ≤ j.runs.length + 1) then
        { job := j, leaves := some (some 11, 0), barred := (s.fateCommit p j).barred, guardFail := true, mismatch := (s.fateCommit p j).mismatch }
      else if s.leavesDone p j (s.fateCommit p j) then { s.fateCommit p j with leaves := some (none, 0) }
      else if j.deadline ≤ te then { s.fateCommit p j with leaves := some (none, 1) }
      else s.fateCommit p j :=
  (if_neg hst).trans ((if_neg (Bool.eq_false_iff.mp hcorrupt)).trans (if_neg (Bool.eq_false_iff.mp hleft)))

end

theorem State.fate_id (s : State) (p te : Nat) (j : Job) : (s.fate p te j).job.id = j.id := by
  obtain ⟨hjob, -⟩ := s.fateCommit_stays p j
  by_cases hst : j.st = .harvested
  · rw [State.fate_harvested hst]
  cases hcorrupt : s.corrupted p j with
  | true => rw [State.fate_corrupt hst hcorrupt]
  | false =>
    cases hleft : j.leftBefore te with
    | true => rw [State.fate_left hst hcorrupt hleft]
    | false =>
      rw [State.fate_running hst hcorrupt hleft]
      repeat' split
      · rfl
      all_goals exact congrArg Job.id hjob

theorem Job.leftBefore_eq_false {j : Job} {te : Nat} (h : ∀ close at', j.leave = some (close, at') → te ≤ at') : j.leftBefore te = false := by
  unfold Job.leftBefore
  cases hl : j.leave with
  | none => rfl
  | some l => simpa using h l.1 l.2 hl

theorem State.leavesDone_iff {s : State} {p : Nat} {j : Job} {f : Fate} :
    s.leavesDone p j f = true ↔ f.commits ≠ [] ∧ s.shadowLeave p j.ctx (f.commits.headD 0) = true := by
  simp [State.leavesDone]

/-! ### Sets of lines -/

theorem NSet.has_ins (m : NSet) (k l : Nat) : NSet.has (NSet.ins m k) l = (l == k || NSet.has m l) := by
  rw [Bool.eq_iff_iff]
  simp only [NSet.has_iff, NSet.mem_ins, Bool.or_eq_true, beq_iff_eq]

theorem NSet.has_del (m : NSet) (k l : Nat) : NSet.has (NSet.del m k) l = (l != k && NSet.has m l) := by
  rw [Bool.eq_iff_iff]
  simp [NSet.has_iff, NSet.del, and_comm]

/-! ### The commit of a slot -/

/-- A dirty line's shadow copy taken as the committed one (R196, R199). -/
def State.commitLine (s : State) (l : Nat) : State :=
  if s.dirty.has l then { s with dirty := s.dirty.del l, sel := if s.sel.has l then s.sel.del l else s.sel.ins l } else s

theorem State.commitLine_dirty (s : State) (k l : Nat) : (s.commitLine k).dirty.has l = (l != k && s.dirty.has l) := by
  unfold State.commitLine
  split
  next => exact NSet.has_del _ _ _
  next hclean =>
    by_cases h : l = k
    · subst h
      simpa using hclean
    · simp [h]

theorem State.commitLine_sel_self {s : State} {l : Nat} (h : s.dirty.has l = true) : (s.commitLine l).sel.has l = !s.sel.has l := by
  rw [State.commitLine, if_pos h]
  dsimp only
  split
  next hsel => simp [NSet.has_del, hsel]
  next hsel => simp [NSet.has_ins, hsel]

theorem State.commitLine_sel_ne (s : State) {k l : Nat} (h : l ≠ k) : (s.commitLine k).sel.has l = s.sel.has l := by
  unfold State.commitLine
  split
  next =>
    dsimp only
    split
    next => simp [NSet.has_del, h]
    next => simp [NSet.has_ins, h]
  next => rfl

theorem State.commitLine_frame (s : State) (l : Nat) : s.commitLine l = { s with dirty := (s.commitLine l).dirty, sel := (s.commitLine l).sel } := by
  unfold State.commitLine
  split <;> rfl

/-- The lines of a list that are different take their shadow copies, and no other line changes. -/
theorem State.commitLines_list (ls : List Nat) (hls : ls.Nodup) (s : State) :
    (∀ l ∈ ls, s.dirty.has l = true → (ls.foldl State.commitLine s).dirty.has l = false
      ∧ (ls.foldl State.commitLine s).sel.has l = !s.sel.has l)
    ∧ (∀ l ∉ ls, (ls.foldl State.commitLine s).dirty.has l = s.dirty.has l ∧ (ls.foldl State.commitLine s).sel.has l = s.sel.has l)
    ∧ ls.foldl State.commitLine s = { s with dirty := (ls.foldl State.commitLine s).dirty, sel := (ls.foldl State.commitLine s).sel } := by
  induction ls generalizing s with
  | nil => exact ⟨fun l hl => absurd hl List.not_mem_nil, fun _ _ => ⟨rfl, rfl⟩, rfl⟩
  | cons k r ih =>
    obtain ⟨hk, hr⟩ := List.nodup_cons.mp hls
    obtain ⟨hin, hout, hframe⟩ := ih hr (s.commitLine k)
    rw [List.foldl_cons]
    refine ⟨fun l hl hdirty => ?_, fun l hl => ?_, ?_⟩
    · by_cases h : l = k
      · subst h
        rw [(hout l hk).1, (hout l hk).2, State.commitLine_dirty, State.commitLine_sel_self hdirty]
        simp
      · rw [← State.commitLine_sel_ne s h]
        exact hin l ((List.mem_cons.mp hl).resolve_left h) (by simp [State.commitLine_dirty, h, hdirty])
    · rw [List.mem_cons, not_or] at hl
      rw [(hout l hl.2).1, (hout l hl.2).2, State.commitLine_dirty, State.commitLine_sel_ne s hl.1]
      simp [hl.1]
    · rw [hframe, s.commitLine_frame]

theorem State.commitLines_eq (s : State) (p c : Nat) (x : Nat × Nat) :
    s.commitLines p c x = ((s.persLines p c x.1 x.2).map (· / 64)).foldl State.commitLine s := by
  rw [List.foldl_map]
  rfl

/-- The lines that follow one another from an address on are different. -/
theorem linesFrom_nodup (base n : Nat) : ((List.range n).map fun i => (base + 64 * i) / 64).Nodup := by
  refine List.Nodup.map (fun i j hij => ?_) List.nodup_range
  rw [Nat.add_mul_div_left _ _ (Nat.zero_lt_succ 63), Nat.add_mul_div_left _ _ (Nat.zero_lt_succ 63)] at hij
  exact Nat.add_left_cancel hij

theorem State.persLines_nodup (s : State) (p c r k : Nat) : ((s.persLines p c r k).map (· / 64)).Nodup := by
  rw [State.persLines, List.map_map]
  exact linesFrom_nodup _ _

/-- A line whose selector has changed has its copies the other way round (R196). -/
theorem State.copies_swap {s t : State} {a : Nat} (h : t.sel.has (a / 64) = !s.sel.has (a / 64)) (e : StepProg) :
    t.copies e a = ((s.copies e a).2, (s.copies e a).1) := by
  unfold State.copies
  cases hs : s.sel.has (a / 64) <;> simp [h, hs]

/-! ### The order of admission -/

theorem insertBy_perm {α : Type} (le : α → α → Bool) (x : α) (l : List α) : (insertBy le x l).Perm (x :: l) := by
  induction l with
  | nil => exact .refl _
  | cons y r ih =>
    unfold insertBy
    split
    · exact .refl _
    · exact (ih.cons y).trans (.swap x y r)

theorem sortBy_perm {α : Type} (le : α → α → Bool) (l : List α) : (sortBy le l).Perm l := by
  induction l with
  | nil => exact .refl _
  | cons x r ih => exact (insertBy_perm le x _).trans (ih.cons x)

/-- Insertion keeps a list in order where the order is total and transitive. -/
theorem insertBy_pairwise {α : Type} {le : α → α → Bool} (total : ∀ a b, le a b = true ∨ le b a = true)
    (trans : ∀ a b c, le a b = true → le b c = true → le a c = true) (x : α) {l : List α} (hl : l.Pairwise (fun a b => le a b = true)) :
    (insertBy le x l).Pairwise (fun a b => le a b = true) := by
  induction l with
  | nil => exact List.pairwise_singleton _ _
  | cons y r ih =>
    obtain ⟨hy, hr⟩ := List.pairwise_cons.mp hl
    unfold insertBy
    split
    next hxy =>
      refine List.pairwise_cons.mpr ⟨fun z hz => ?_, hl⟩
      rcases List.mem_cons.mp hz with rfl | hz
      · exact hxy
      · exact trans x y z hxy (hy z hz)
    next hxy =>
      refine List.pairwise_cons.mpr ⟨fun z hz => ?_, ih hr⟩
      rcases List.mem_cons.mp ((insertBy_perm le x r).mem_iff.mp hz) with rfl | hz
      · exact (total z y).resolve_left hxy
      · exact hy z hz

theorem sortBy_pairwise {α : Type} {le : α → α → Bool} (total : ∀ a b, le a b = true ∨ le b a = true)
    (trans : ∀ a b c, le a b = true → le b c = true → le a c = true) (l : List α) :
    (sortBy le l).Pairwise (fun a b => le a b = true) := by
  induction l with
  | nil => exact List.Pairwise.nil
  | cons x r ih => exact insertBy_pairwise total trans x ih

/-- An instance is admitted before another (R266). -/
def Job.before (a b : Job) : Bool :=
  a.deadline < b.deadline || (a.deadline = b.deadline && (a.queue < b.queue || (a.queue = b.queue
    && (a.tArr < b.tArr || (a.tArr = b.tArr && a.id ≤ b.id)))))

theorem Job.before_iff (a b : Job) : a.before b = true ↔ a.deadline < b.deadline ∨ (a.deadline = b.deadline ∧ (a.queue < b.queue
    ∨ (a.queue = b.queue ∧ (a.tArr < b.tArr ∨ (a.tArr = b.tArr ∧ a.id ≤ b.id))))) := by
  simp [Job.before]

theorem Job.before_total (a b : Job) : a.before b = true ∨ b.before a = true := by
  rw [Job.before_iff, Job.before_iff]
  omega

theorem Job.before_trans (a b c : Job) (hab : a.before b = true) (hbc : b.before c = true) : a.before c = true := by
  rw [Job.before_iff] at *
  omega

/-- Whether an instance waits in a queue that a context serves (R255, R266). -/
def State.waitsFor (s : State) (p c : Nat) (j : Job) : Bool :=
  j.st = .waiting && (match s.queueCfg j.queue with
    | some q => q.pan = p && s.servedBy q = some c
    | none => false)

theorem State.waitsFor_iff (s : State) (p c : Nat) (j : Job) : s.waitsFor p c j = true ↔
    j.st = .waiting ∧ ∃ q, s.queueCfg j.queue = some q ∧ q.pan = p ∧ s.servedBy q = some c := by
  unfold State.waitsFor
  cases s.queueCfg j.queue <;> simp

theorem State.candidates_eq (s : State) (p c : Nat) : s.candidates p c = sortBy Job.before (s.jobs.filter (s.waitsFor p c)) := rfl

theorem State.mem_candidates (s : State) (p c : Nat) (j : Job) : j ∈ s.candidates p c ↔
    j ∈ s.jobs ∧ j.st = .waiting ∧ ∃ q, s.queueCfg j.queue = some q ∧ q.pan = p ∧ s.servedBy q = some c := by
  rw [s.candidates_eq, (sortBy_perm _ _).mem_iff, List.mem_filter, s.waitsFor_iff]

/-! ### State words -/

/-- Each bit of a slot's state word after the commit phase (R191, R199). -/
theorem SlotSt.afterCommit_getLsbD (x : SlotSt) (b : Bool) {i : Nat} (hi : i < 16) : (x.afterCommit b).state.getLsbD i =
    if i = 4 ∨ i = 5 ∨ i = 7 ∨ i = 8 ∨ i = 9 then false
    else if b then (if i = 1 then false else x.state.getLsbD i)
    else if i = 6 ∨ 12 ≤ i then x.state0.getLsbD i else x.state.getLsbD i := by
  unfold SlotSt.afterCommit boundaryBits
  interval_cases i <;> cases b <;> simp

/-- Settles O58: the fate of an instance row by row, the commit of a slot line by line and bit by bit, and the order of admission. -/
theorem boundaries : Obligations.Boundaries := by
  refine ⟨fun s p te j => ⟨s.fate_id p te j, fun hst => ?harvested, fun hst => ⟨fun hcorrupt => ?corrupt, fun hcorrupt =>
      ⟨fun close at' hleave hbefore => ?left, fun hleave => ⟨fun hspoiled => ?spoiled, fun hspoiled hbarred => ?running⟩⟩⟩, fun hpair g hslots => ?single⟩,
    ?lines, fun x b i hi => x.afterCommit_getLsbD b hi, fun s p c => ⟨s.mem_candidates p c, ?order⟩⟩
  case harvested =>
    rw [State.fate_harvested hst]
    exact ⟨rfl, rfl, rfl⟩
  case corrupt =>
    rw [State.fate_corrupt hst hcorrupt]
    exact ⟨rfl, rfl⟩
  case left =>
    rw [State.fate_left hst hcorrupt (by simpa [Job.leftBefore, hleave] using hbefore), hleave]
    exact ⟨rfl, rfl⟩
  case spoiled =>
    rw [State.fate_running hst hcorrupt (Job.leftBefore_eq_false hleave), hspoiled]
    exact ⟨rfl, rfl, rfl⟩
  case running =>
    obtain ⟨-, hstays⟩ := s.fateCommit_stays p j
    rw [State.fate_running hst hcorrupt (Job.leftBefore_eq_false hleave), hspoiled, hbarred, if_neg (by simp)]
    refine ⟨fun hcommits hdone => ?_, fun hnot => ?_⟩
    · rw [if_pos (State.leavesDone_iff.mpr ⟨hcommits, hdone⟩)]
      exact ⟨rfl, rfl⟩
    · have hstay : ¬ s.leavesDone p j (s.fateCommit p j) = true := by
        rw [State.leavesDone_iff]
        rintro ⟨hcommits, hdone⟩
        rcases hnot with h | h
        · exact hcommits h
        · rw [h] at hdone
          cases hdone
      rw [if_neg hstay]
      refine ⟨?_, fun hdue => ?_, fun hearly => ?_⟩
      · split <;> rfl
      · rw [if_pos hdue]
      · rw [if_neg (by omega)]
        exact hstays
  case single =>
    rw [s.fateCommit_single p hpair hslots]
    cases s.wouldCommit p j.ctx g <;> simp
  case lines =>
    rintro s _ p c x rfl
    rw [s.commitLines_eq]
    obtain ⟨hin, hout, hframe⟩ := State.commitLines_list _ (s.persLines_nodup p c x.1 x.2) s
    refine ⟨fun a ha hdirty => ?_, fun l hl => hout l ?_, hframe⟩
    · obtain ⟨hclean, hsel⟩ := hin _ (List.mem_map_of_mem ha) hdirty
      exact ⟨hclean, State.copies_swap hsel⟩
    · rw [List.mem_map]
      rintro ⟨a, ha, he⟩
      exact hl a ha he
  case order =>
    rw [s.candidates_eq]
    exact (sortBy_pairwise Job.before_total Job.before_trans _).imp fun h => (Job.before_iff _ _).mp h

end Sys2Proof.Machine
end

section
/-!
PROOF. What sending leaves of the records of answers (R441) and of the links' speeds, and the record of a message that has passed checks 1 to 5 (R444).
-/

namespace Sys2Proof.Machine

/-- Each host port has the same record of answers, and each bridge port the same speed. -/
structure State.SameWire (s t : State) : Prop where
  recs : ∀ p, (t.hport p).recs = (s.hport p).recs
  speed : ∀ p, (t.bport p).speed = (s.bport p).speed

namespace State.SameWire

variable {s t u : State}

theorem refl (s : State) : s.SameWire s := ⟨fun _ => rfl, fun _ => rfl⟩

theorem trans (h : s.SameWire t) (h' : t.SameWire u) : s.SameWire u :=
  ⟨fun p => (h'.recs p).trans (h.recs p), fun p => (h'.speed p).trans (h.speed p)⟩

theorem foldl {α : Type} {f : State → α → State} (hf : ∀ (s : State) x, s.SameWire (f s x)) (l : List α) (s : State) :
    s.SameWire (l.foldl f s) :=
  List.foldlRecOn (motive := s.SameWire) l f (refl s) fun t ht x _ => ht.trans (hf t x)

theorem ite {b : Prop} [Decidable b] (h : s.SameWire t) (h' : s.SameWire u) : s.SameWire (if b then t else u) := by
  split
  · exact h
  · exact h'

/-- A change of something else than the ports. -/
theorem of_ports (ha : t.hportA = s.hportA) (hb : t.hportB = s.hportB) (hp : t.bports = s.bports) : s.SameWire t where
  recs
    | .a => congrArg HPort.recs ha
    | .b => congrArg HPort.recs hb
  speed p := congrArg (fun m : SMap BPort => (m.getD p {}).speed) hp

end State.SameWire

theorem State.onHport_speed (s : State) (p : Port) (f : HPort → HPort) (q : Nat) : ((s.onHport p f).bport q).speed = (s.bport q).speed := by
  cases p <;> rfl

theorem State.onHport_sameWire (s : State) (p : Port) {f : HPort → HPort} (hf : ∀ h, (f h).recs = h.recs) : s.SameWire (s.onHport p f) := by
  refine ⟨fun q => ?_, s.onHport_speed p f⟩
  by_cases hq : q = p
  · rw [hq, State.onHport_hport, hf]
  · rw [State.onHport_hport_ne _ _ _ _ hq]

theorem State.withBport_sameWire (s : State) (p : Nat) {b : BPort} (hb : b.speed = (s.bport p).speed) :
    s.SameWire { s with bports := s.bports.put p b } := by
  refine ⟨fun q => by cases q <;> rfl, fun q => ?_⟩
  by_cases hq : q = p
  · subst hq
    simpa [State.bport] using hb
  · simp [State.bport, SMap.getD_put_ne, hq]

/-! ### Messages -/

theorem State.kick_sameWire (s : State) (p : Nat) : s.SameWire (s.kick p) := by
  refine .ite (.refl s) ?_
  split
  · exact .refl s
  · exact s.withBport_sameWire p rfl

theorem State.enqueue_sameWire (s : State) (p : Nat) (f : TxFrame) : s.SameWire (s.enqueue p f) := by
  refine .trans ?_ (State.kick_sameWire _ p)
  exact s.withBport_sameWire p rfl

theorem State.transmit_sameWire (s : State) (f : OutFrame) : s.SameWire (s.transmit f) := s.enqueue_sameWire _ _

theorem State.handNow_sameWire (s : State) (f : OutFrame) : s.SameWire (s.handNow f) := by
  refine .trans ?_ (State.transmit_sameWire _ _)
  exact .ite (s.onHport_sameWire _ fun _ => rfl) (.refl s)

theorem State.handFrame_sameWire (s : State) (f : OutFrame) : s.SameWire (s.handFrame f) :=
  .ite (.ite (s.handNow_sameWire f) (s.onHport_sameWire _ fun _ => rfl)) (s.handNow_sameWire f)

theorem State.sendMsg_sameWire (s : State) (p : Port) (m : OutMsg) : s.SameWire (s.sendMsg p m).2 :=
  .trans (s.onHport_sameWire p (f := fun h => { h with nextSeq := h.nextSeq + BitVec.ofNat 32 (framePays (s.payLimit p m.dest.v6) m.payload).length })
    fun _ => rfl) (.foldl State.handFrame_sameWire _ _)

theorem State.eventOn_sameWire (s : State) (p : Port) (kind subject : Nat) (body : List Byte) : s.SameWire (s.eventOn p kind subject body) := by
  refine .ite ?_ (.refl s)
  split
  · exact s.sendMsg_sameWire _ _
  · exact .refl s

theorem State.event_sameWire (s : State) (kind subject : Nat) (body : List Byte) : s.SameWire (s.event kind subject body) :=
  (s.eventOn_sameWire .a kind subject body).trans (State.eventOn_sameWire _ .b kind subject body)

theorem State.note_sameWire (s : State) (r : Reg) (f : Nat → Nat) : s.SameWire (s.note r f) := .of_ports rfl rfl rfl

theorem State.bump_sameWire (s : State) (c : Ctr) : s.SameWire (s.bump c) := by
  have hcounted (m : SMap Count) : s.SameWire (State.note { s with counts := m } (.counter c) (· + 1)) := .of_ports rfl rfl rfl
  exact .ite ((hcounted _).trans (State.event_sameWire _ _ _ _)) (hcounted _)

/-- The answer to a message changes the record of its port, and no link's speed. -/
theorem State.nak_speed (s : State) (h : SqpHdr) (r : Reason) (p : Nat) : ((s.nak h r).bport p).speed = (s.bport p).speed :=
  (State.onHport_speed _ _ _ p).trans ((s.sendMsg_sameWire h.port (answerTo h 0x7F h.gen (nakPay r 0))).speed p)

/-! ### Completions -/

theorem State.withComps_sameWire (s : State) (l : List CompRec) : s.SameWire { s with comps := l } := .of_ports rfl rfl rfl

theorem State.payFrames_sameWire (p : Nat) (l : List Nat) (s : State) : s.SameWire (State.payFrames p l s).2 := by
  induction l generalizing s with
  | nil => exact .refl s
  | cons n r ih =>
    have hframe := (s.charge_onlyCharged p .host n).frame
    have hcharged : s.SameWire (s.charge p .host n) := .of_ports ((congrArg State.hportA hframe).trans rfl)
      ((congrArg State.hportB hframe).trans rfl) ((congrArg State.bports hframe).trans rfl)
    unfold State.payFrames
    split
    · exact .of_ports rfl rfl rfl
    · exact hcharged.trans (ih _)

theorem State.dropComp_sameWire (s : State) (id : Nat) : s.SameWire (s.dropComp id) :=
  ((s.withComps_sameWire _).trans (State.onHport_sameWire _ .a (f := fun h => h.dropMsg id) fun _ => rfl)).trans
    (State.onHport_sameWire _ .b (f := fun h => h.dropMsg id) fun _ => rfl)

theorem State.markSent_sameWire (s : State) (p : Port) (id : Nat) : s.SameWire (s.markSent p id) := .ite (.refl s) (s.withComps_sameWire _)

theorem State.pumpN_sameWire (p : Port) (n : Nat) (s : State) : s.SameWire (s.pumpN p n) := by
  induction n generalizing s with
  | zero => exact .refl s
  | succ n ih =>
    unfold State.pumpN
    split
    · exact .refl s
    next f r _ =>
      have hstale := ((s.dropComp_sameWire f.msg).trans (State.bump_sameWire _ .qstale)).trans (ih _)
      have hnow := (s.onHport_sameWire p (f := fun h => { h with waiting := r }) fun _ => rfl).trans (State.handNow_sameWire _ { f with port := p })
      exact .ite (.refl s) (.ite hstale ((hnow.trans (State.markSent_sameWire _ p f.msg)).trans (ih _)))

theorem State.freeComp_sameWire (s : State) (id : Nat) : s.SameWire (s.freeComp id) :=
  ((s.dropComp_sameWire id).trans (State.pumpN_sameWire _ _ _)).trans (State.pumpN_sameWire _ _ _)

theorem State.sendComps_sameWire (s : State) (c : CompRec) (q : QueueSt) (ps : List (Port × HostAddr)) :
    s.SameWire (ps.foldl (fun s x => s.sendComp c q x) s) := .foldl (fun s _ => s.sendMsg_sameWire _ _) ps s

theorem State.markComps_sameWire (s : State) (c : CompRec) (ps : List (Port × HostAddr)) :
    s.SameWire (ps.foldl (fun s x => s.markSent x.1 c.id) s) := .foldl (fun s _ => s.markSent_sameWire _ _) ps s

theorem State.tryComp_sameWire (s : State) (c : CompRec) : s.SameWire (s.tryComp c) := by
  unfold State.tryComp
  dsimp only
  split
  · exact .refl s
  split
  · exact (s.withComps_sameWire _).trans (State.bump_sameWire _ _)
  split
  · exact s.withComps_sameWire _
  split
  · exact .refl s
  have hpaid (b : Bool) (pan : Nat) (fs : List Nat) : s.SameWire (if b then State.payFrames pan fs s else (fs.length, s)).2 := by
    cases b
    · exact .refl s
    · exact State.payFrames_sameWire pan fs s
  generalize ((s.queueCfg c.queue).map QueueCfg.pan).getD 0 = pan
  generalize (s.compFrames c _).drop c.paid = fs
  specialize hpaid (decide ((s.bucketCfg pan .host).depth ≠ 0)) pan fs
  generalize (if decide ((s.bucketCfg pan .host).depth ≠ 0) = true then State.payFrames pan fs s else (fs.length, s)) = x at *
  refine hpaid.trans ?_
  split
  · exact State.withComps_sameWire _ _
  split
  · exact ((State.sendComps_sameWire _ c _ _).trans (State.withComps_sameWire _ _)).trans (State.markComps_sameWire _ c _)
  · exact (State.sendComps_sameWire _ c _ _).trans (State.freeComp_sameWire _ _)

theorem State.recordAddr_sameWire (s : State) (h : SqpHdr) : s.SameWire (s.recordAddr h) :=
  .trans (s.onHport_sameWire h.port (f := fun p =>
    { p with clientAddr := p.clientAddr.put h.client.val h.src, portAddr := some h.src }) fun _ => rfl) (.foldl State.tryComp_sameWire _ _)

/-! ### Checks 1 to 5 -/

/-- A message's SEQ noted on its port as processed (R440, R441), where it is the first that the port meets or the first of a resynchronised run. -/
def HPort.begun (p : HPort) (q : Word) : HPort := { p with high := q, fresh := false, recs := setRec [] q .none }

/-- A message's SEQ noted on its port as processed (R440, R441), where it is newer than the newest. -/
def HPort.noted (p : HPort) (q : Word) : HPort := { p.advance q with recs := setRec (p.advance q).recs q .none }

/-- What the checks 1 to 5 of a message that they let through do: its sender and its SEQ are recorded. -/
theorem State.afterChecks_eq {s : State} {h : SqpHdr} (g : s.Gets h) :
    s.afterChecks h = (s.recordAddr h).onHport h.port (fun p => p.begun h.seq)
      ∨ s.afterChecks h = (s.recordAddr h).onHport h.port (fun p => p.noted h.seq) := by
  have haccept : s.accept h true true = (s.recordAddr h).sequence h true := by
    have hrevive : s.revive h.port = s := if_neg (by rw [g.responsive]; exact Bool.false_ne_true)
    have h32 : ¬ 32 + h.length.toNat < 32 := by omega
    unfold State.accept
    simp [g.crc, g.length, g.version, g.port, hrevive, h32]
  obtain ⟨hfresh, hhigh⟩ := State.recordAddr_sameSeq h (fun _ => ⟨rfl, rfl⟩ : s.SameSeq s) h.port
  rw [State.afterChecks, haccept]
  unfold State.sequence
  dsimp only
  rw [hfresh, hhigh]
  by_cases hbegins : (h.resync || (s.hport h.port).fresh) = true
  · rw [if_pos hbegins]
    exact .inl rfl
  · have hnewer : newer h.seq (s.hport h.port).high = true := by
      rw [Bool.or_eq_true, not_or] at hbegins
      exact (g.new.resolve_left hbegins.1).resolve_left hbegins.2
    rw [if_neg hbegins, if_pos hnewer]
    exact .inr rfl

theorem State.afterChecks_recs {s : State} {h : SqpHdr} (g : s.Gets h) :
    (h.seq, Answer.none) ∈ ((s.afterChecks h).hport h.port).recs := by
  rcases State.afterChecks_eq g with he | he <;> rw [he, State.onHport_hport] <;> exact List.mem_cons_self

theorem State.afterChecks_speed {s : State} {h : SqpHdr} (g : s.Gets h) (p : Nat) : ((s.afterChecks h).bport p).speed = (s.bport p).speed := by
  rcases State.afterChecks_eq g with he | he <;> rw [he, State.onHport_speed] <;> exact (s.recordAddr_sameWire h).speed p

/-- The time-stamp of a frame received now (R487) is the same where only sending has changed the state, and no link's speed. -/
theorem State.Sends.rxStamp {s t : State} (h : s.Sends t) {p : Nat} (hp : (t.bport p).speed = (s.bport p).speed) : t.rxStamp p = s.rxStamp p := by
  simp only [State.rxStamp, State.tideQ, State.rwField, State.rw, h.tide, h.nclk, h.regs, hp]

/-- An answer stays recorded while the record of its port does, and the payload limit. -/
theorem State.Replied.of_sameWire {s t : State} {h : SqpHdr} {type : Byte} {gen : BitVec 16} {pay : List Byte} (hs : s.Replied h type gen pay)
    (hw : s.SameWire t) (hregs : t.regs = s.regs) : t.Replied h type gen pay := by
  have hlimit : t.payLimit h.port h.src.v6 = s.payLimit h.port h.src.v6 := by simp only [State.payLimit, State.rwField, State.rw, hregs]
  obtain ⟨frames, hrec, hheads, hpays⟩ := hs
  exact ⟨frames, hw.recs h.port ▸ hrec, hheads, fun hle => hpays (hlimit ▸ hle)⟩

end Sys2Proof.Machine
end

section
/-!
PROOF. Instances as they come and go (R256, R258, R264, R276, R448, R449): acceptance of a SUBMIT, completion of an instance that waits, and CANCEL.
-/

namespace Sys2Proof.Machine

/-! ### Queues -/

theorem State.Sends.queue {s t : State} (h : s.Sends t) (q : Nat) : t.queue q = s.queue q :=
  congrArg (fun m : SMap QueueSt => m.getD q {}) h.queues

theorem State.Sends.queueCfg {s t : State} (h : s.Sends t) (q : Nat) : t.queueCfg q = s.queueCfg q := by
  simp only [State.queueCfg, h.sec]

theorem State.Sends.queueCat {s t : State} (h : s.Sends t) (c : QueueCfg) : t.queueCat c = s.queueCat c := by
  simp only [State.queueCat, State.catEntry, State.panCfg, h.sec]

theorem State.Sends.tide64 {s t : State} (h : s.Sends t) : t.tide64 = s.tide64 := by simp only [State.tide64, h.tide]

section
variable {s : State} {h : SqpHdr} {c : QueueCfg} (hc : s.queueCfg h.number.toNat = some c)
include hc

theorem State.onOpenQueue_closed (hclosed : (s.queue h.number.toNat).state ≠ .opened) (go : State → QueueCfg → State) :
    s.onOpenQueue h go = s.nak h .queueClosed := by
  unfold State.onOpenQueue
  rw [hc]
  exact if_pos hclosed

theorem State.onOpenQueue_open (hopen : (s.queue h.number.toNat).state = .opened) (hgen : h.gen = (s.queue h.number.toNat).gen)
    (go : State → QueueCfg → State) : s.onOpenQueue h go = go s c := by
  unfold State.onOpenQueue
  rw [hc]
  exact (if_neg (not_not.mpr hopen)).trans (if_neg (not_not.mpr hgen))

end

/-! ### What the completion of instances leaves -/

/-- Nothing changed but instances, what is completed of them and what waits are charged, and what is sent. -/
structure State.OnlyServed (s t : State) : Prop where
  sends : s.Sends { t with waits := s.waits, jobs := s.jobs, nextComp := s.nextComp }
  wire : s.SameWire t

namespace State.OnlyServed

variable {s t u : State}

theorem refl (s : State) : s.OnlyServed s := ⟨.refl s, .refl s⟩

theorem trans (h : s.OnlyServed t) (h' : t.OnlyServed u) : s.OnlyServed u :=
  ⟨h.sends.trans (h'.sends.map fun x => { x with waits := s.waits, jobs := s.jobs, nextComp := s.nextComp }), h.wire.trans h'.wire⟩

theorem mem (h : s.OnlyServed t) : t.mem = s.mem := h.sends.mem
theorem regs (h : s.OnlyServed t) : t.regs = s.regs := h.sends.regs
theorem queues (h : s.OnlyServed t) : t.queues = s.queues := h.sends.queues
theorem windows (h : s.OnlyServed t) : t.windows = s.windows := h.sends.windows
theorem tide (h : s.OnlyServed t) : t.tide = s.tide := h.sends.tide
theorem tide64 (h : s.OnlyServed t) : t.tide64 = s.tide64 := h.sends.tide64
theorem queueCfg (h : s.OnlyServed t) (q : Nat) : t.queueCfg q = s.queueCfg q := h.sends.queueCfg q
theorem nextJob (h : s.OnlyServed t) : t.nextJob = s.nextJob := h.sends.nextJob

end State.OnlyServed

/-- Sending leaves the instances, the waits and the number of completions. -/
theorem State.Sends.served {s t : State} (h : s.Sends t) (hw : s.SameWire t) : s.OnlyServed t :=
  ⟨by rw [← h.waits, ← h.jobs, ← h.nextComp]; exact h, hw⟩

theorem State.onJob_served (s : State) (id : Nat) (f : Job → Job) : s.OnlyServed (s.onJob id f) := ⟨.refl s, .of_ports rfl rfl rfl⟩

/-! ### A waiting instance completes -/

/-- A wait counted for a client (R37, R421), and told where the sum of its waits overflows. -/
def State.waitTold (s : State) (client : Fin 8) (ns : Nat) (overflows : Bool) : State :=
  let s := ((s.bump (.clientWait client.val)).note (.waitSumHi client.val) (· + ns)).note (.waitMax client.val) (max ns)
  if overflows then s.event 2 (Reg.waitSumHi client.val).addr [] else s

theorem State.addWait_eq (s : State) (client : Fin 8) (ns : Nat) :
    ∃ w overflows, s.addWait client ns = ({ s with waits := w } : State).waitTold client ns overflows := ⟨_, _, rfl⟩

theorem State.addWait_sends (s : State) (client : Fin 8) (ns : Nat) :
    ∃ w, ({ s with waits := w } : State).Sends (s.addWait client ns) ∧ s.SameWire (s.addWait client ns) := by
  obtain ⟨w, overflows, he⟩ := s.addWait_eq client ns
  have hwaits : s.SameWire { s with waits := w } := .of_ports rfl rfl rfl
  rw [he]
  refine ⟨w, ?_, hwaits.trans ?_⟩
  · have hnoted := State.note_sends (.waitMax client.val) (max ns) (State.note_sends (.waitSumHi client.val) (· + ns)
      (State.bump_sends (.clientWait client.val) (.refl { s with waits := w })))
    exact iteInduction (fun _ => State.event_sends _ _ _ hnoted) fun _ => hnoted
  · have hnoted := ((State.bump_sameWire { s with waits := w } (.clientWait client.val)).trans
      (State.note_sameWire _ (.waitSumHi client.val) (· + ns))).trans (State.note_sameWire _ (.waitMax client.val) (max ns))
    exact .ite (hnoted.trans (State.event_sameWire _ _ _ _)) hnoted

theorem State.addWait_served (s : State) (client : Fin 8) (ns : Nat) : s.OnlyServed (s.addWait client ns) := by
  obtain ⟨w, hsent, hwire⟩ := s.addWait_sends client ns
  exact ⟨hsent.map (fun x => { x with waits := s.waits, jobs := s.jobs, nextComp := s.nextComp }), hwire⟩

theorem State.addWait_jobs (s : State) (client : Fin 8) (ns : Nat) : (s.addWait client ns).jobs = s.jobs := by
  obtain ⟨w, hsent, -⟩ := s.addWait_sends client ns
  exact hsent.jobs

theorem State.addWait_nextComp (s : State) (client : Fin 8) (ns : Nat) : (s.addWait client ns).nextComp = s.nextComp := by
  obtain ⟨w, hsent, -⟩ := s.addWait_sends client ns
  exact hsent.nextComp

theorem State.countComp_sends (s : State) (status how : Nat) : s.Sends (s.countComp status how) := by
  have hbump {b : Prop} [Decidable b] {t : State} (c : Ctr) (ht : s.Sends t) : s.Sends (if b then t.bump c else t) :=
    iteInduction (motive := s.Sends) (fun _ => State.bump_sends c ht) fun _ => ht
  exact hbump .inputInvalid (hbump .harvest (hbump .notStarted (.refl s)))

theorem State.countComp_sameWire (s : State) (status how : Nat) : s.SameWire (s.countComp status how) := by
  have hbump {b : Prop} [Decidable b] (t : State) (c : Ctr) : t.SameWire (if b then t.bump c else t) := .ite (t.bump_sameWire c) (.refl t)
  exact ((hbump _ .notStarted).trans (hbump _ .harvest)).trans (hbump _ .inputInvalid)

theorem State.putComp_sends (s : State) (q : Nat) (gen : BitVec 16) (payload : List Byte) :
    ({ s with nextComp := s.nextComp + 1 } : State).Sends (s.putComp q gen payload) := by
  unfold State.putComp
  exact State.tryComp_sends _ ⟨rfl, fun _ => rfl⟩

theorem State.putComp_served (s : State) (q : Nat) (gen : BitVec 16) (payload : List Byte) : s.OnlyServed (s.putComp q gen payload) := by
  refine ⟨(s.putComp_sends q gen payload).map (fun x => { x with waits := s.waits, jobs := s.jobs, nextComp := s.nextComp }), ?_⟩
  unfold State.putComp
  refine .trans ?_ (State.tryComp_sameWire _ _)
  exact .of_ports rfl rfl rfl

/-- The state in which a waiting instance's completion is built (R258, R285, R289, R421): its wait is charged, it is counted and gone. -/
def State.withoutWaiting (s : State) (j : Job) (status how : Nat) : State :=
  ((s.addWait j.client (s.tide64 - j.tArr)).countComp status how).dropJob j.id

/-- The record of an instance that completes without having been admitted (R283, R285). -/
def State.waitingBytes (s : State) (j : Job) (status how : Nat) : List Byte :=
  completionBytes j (((s.queueCfg j.queue).map QueueCfg.guard).getD 0) status how false 0 [] 0 s.tide64 0 []

theorem State.completeWaiting_eq (s : State) (j : Job) (status how : Nat) : s.completeWaiting j status how
    = (s.withoutWaiting j status how).putComp j.queue j.gen (s.waitingBytes j status how) := rfl

section
variable (s : State) (j : Job) (status how : Nat)

theorem State.withoutWaiting_served : s.OnlyServed (s.withoutWaiting j status how) :=
  ((s.addWait_served _ _).trans ((State.countComp_sends _ _ _).served (State.countComp_sameWire _ _ _))).trans
    ⟨.refl _, .of_ports rfl rfl rfl⟩

theorem State.completeWaiting_served : s.OnlyServed (s.completeWaiting j status how) :=
  (s.withoutWaiting_served j status how).trans (State.putComp_served _ _ _ _)

theorem State.completeWaiting_jobs : (s.completeWaiting j status how).jobs = s.jobs.filter fun k => k.id ≠ j.id := by
  rw [s.completeWaiting_eq, (State.putComp_sends _ _ _ _).jobs, ← s.addWait_jobs j.client (s.tide64 - j.tArr),
    ← (State.countComp_sends (s.addWait j.client (s.tide64 - j.tArr)) status how).jobs]
  rfl

theorem State.completeWaiting_nextComp : (s.completeWaiting j status how).nextComp = s.nextComp + 1 := by
  rw [s.completeWaiting_eq, (State.putComp_sends _ _ _ _).nextComp, ← s.addWait_nextComp j.client (s.tide64 - j.tArr),
    ← (State.countComp_sends (s.addWait j.client (s.tide64 - j.tArr)) status how).nextComp]
  rfl

end

/-- The record of an instance never admitted says of it what its submission said (R283). -/
theorem completionBytes_congr {j k : Job} (htag : j.tag = k.tag) (hqueue : j.queue = k.queue) (hgen : j.gen = k.gen)
    (hdeadline : j.deadline = k.deadline) (harr : j.tArr = k.tArr) (hadmit : j.tAdmit = k.tAdmit) (guard status how done : Nat) :
    completionBytes j guard status how false 0 [] 0 done 0 [] = completionBytes k guard status how false 0 [] 0 done 0 [] := by
  unfold completionBytes
  rw [htag, hqueue, hgen, hdeadline, harr, hadmit]
  rfl

/-! ### SUBMIT -/

/-- The answer OK, where a message asks for one. -/
def State.answeredOk (s : State) (h : SqpHdr) : State := if h.ackReq then s.nak h .ok else s

theorem State.Sends.answeredOk {s u : State} (hu : s.Sends u) (h : SqpHdr) : s.Sends (u.answeredOk h) :=
  iteInduction (fun _ => State.nak_sends h .ok 0 hu) fun _ => hu

theorem State.answeredOk_speed (s : State) (h : SqpHdr) (p : Nat) : ((s.answeredOk h).bport p).speed = (s.bport p).speed :=
  iteInduction (motive := fun t : State => (t.bport p).speed = (s.bport p).speed) (fun _ => s.nak_speed h .ok p) fun _ => rfl

theorem State.answeredOk_replied (s : State) {h : SqpHdr} (hack : h.ackReq = true) : (s.answeredOk h).Replied h 0x7F h.gen (nakPay .ok 0) := by
  rw [State.answeredOk, if_pos hack]
  exact s.answerMsg_replied h 0x7F h.gen (nakPay .ok 0)

section
variable {s : State} {h : SqpHdr} {b : SubmitBody} {c : QueueCfg} (hc : s.queueCfg h.number.toNat = some c)
include hc

theorem State.submit_closed (hclosed : (s.queue h.number.toNat).state ≠ .opened) : s.submit h b = s.nak h .queueClosed :=
  State.onOpenQueue_closed hc hclosed _

variable (hopen : (s.queue h.number.toNat).state = .opened) (hgen : h.gen = (s.queue h.number.toNat).gen)
include hopen hgen

theorem State.submit_lengths (hlens : submitLensOk (s.queueCat c) b = false) : s.submit h b = s.nak h .badLength := by
  rw [State.submit, State.onOpenQueue_open hc hopen hgen, hlens]
  rfl

theorem State.submit_limits (hlens : submitLensOk (s.queueCat c) b = true) {r : Reason}
    (hr : s.refuseJob h.number.toNat c (b.params.length + b.warm.length) = some r) : s.submit h b = s.nak h r := by
  rw [State.submit, State.onOpenQueue_open hc hopen hgen, hlens]
  dsimp only
  rw [hr]
  rfl

theorem State.submit_accepted (hlens : submitLensOk (s.queueCat c) b = true)
    (hr : s.refuseJob h.number.toNat c (b.params.length + b.warm.length) = none) :
    s.submit h b = (s.answeredOk h).newJob h.number.toNat c h.client b.tag b.deadline.toNat
      ((s.answeredOk h).rxStamp (portBridge h.port) / 4).toNat 0 b.params b.warm := by
  rw [State.submit, State.onOpenQueue_open hc hopen hgen, hlens]
  dsimp only
  rw [hr]
  rfl

end

/-- The instance that an accepted SUBMIT puts behind those that wait (R264). -/
def State.arriving (s : State) (h : SqpHdr) (b : SubmitBody) (at' : Nat) : Job :=
  { id := s.nextJob, queue := h.number.toNat, gen := (s.queue h.number.toNat).gen, tag := b.tag, client := h.client, deadline := b.deadline.toNat,
    tArr := at', params := b.params, warm := b.warm }

/-- An instance taken into its queue. -/
def State.takeJob (s : State) (j : Job) : State := { s with jobs := s.jobs ++ [j], nextJob := s.nextJob + 1 }

/-- An instance whose deadline is too near for it to be solved (R256, check 4). -/
def tooLate (c : QueueCfg) (deadline at' : Nat) : Prop := deadline < at' + 20000 ∨ deadline < at' + c.minSolve

theorem State.newJob_waits {c : QueueCfg} {b : SubmitBody} {at' : Nat} (hlate : ¬ tooLate c b.deadline.toNat at') (s : State) (h : SqpHdr) :
    s.newJob h.number.toNat c h.client b.tag b.deadline.toNat at' 0 b.params b.warm = s.takeJob (s.arriving h b at') := if_neg hlate

theorem State.newJob_late {c : QueueCfg} {b : SubmitBody} {at' : Nat} (hlate : tooLate c b.deadline.toNat at') (s : State) (h : SqpHdr) :
    s.newJob h.number.toNat c h.client b.tag b.deadline.toNat at' 0 b.params b.warm
      = (s.takeJob (s.arriving h b at')).completeWaiting (s.arriving h b at') 8 2 := if_pos hlate

theorem State.Sends.arriving {s v : State} (hv : s.Sends v) (h : SqpHdr) (b : SubmitBody) (at' : Nat) : v.arriving h b at' = s.arriving h b at' := by
  simp only [State.arriving, hv.nextJob, hv.queue]

theorem State.takeJob_sameWire (s : State) (j : Job) : s.SameWire (s.takeJob j) := .of_ports rfl rfl rfl

/-- The instance that a SUBMIT brings is a new one. -/
theorem State.takeJob_without {s : State} (hinv : s.Inv) {j : Job} (hj : j.id = s.nextJob) :
    (s.takeJob j).jobs.filter (fun k => k.id ≠ j.id) = s.jobs := by
  have hold : ∀ k ∈ s.jobs, decide (k.id ≠ j.id) = true := fun k hk => by
    have := hinv.jobNext k hk
    exact decide_eq_true (by omega)
  rw [State.takeJob, List.filter_append, List.filter_eq_self.mpr hold]
  simp

/-! ### CANCEL -/

/-- An instance that a CANCEL has leave, as it notes it first (R263, R276). -/
def Job.leavingAt (j : Job) (now : Nat) : Job := if j.leave.isSome then j else { j with leave := some (false, now) }

/-- What a CANCEL makes of an instance under its TAG (R276). -/
def Job.cancelled (now : Nat) (j : Job) : Option Job :=
  match j.st with
  | .waiting => none
  | .live => some (j.leavingAt now)
  | .harvested => some j

theorem Job.leavingAt_id (j : Job) (now : Nat) : (j.leavingAt now).id = j.id := apply_ite Job.id _ _ _ |>.trans (ite_self _)

theorem Job.leavingAt_leave (j : Job) (now : Nat) : (j.leavingAt now).leave.isSome = true := by
  unfold Job.leavingAt
  split
  next h => exact h
  next => rfl

theorem Job.cancelled_id {now : Nat} {j k : Job} (h : j.cancelled now = some k) : k.id = j.id := by
  unfold Job.cancelled at h
  split at h
  · cases h
  · obtain rfl := Option.some.inj h
    exact j.leavingAt_id now
  · exact congrArg Job.id (Option.some.inj h).symm

theorem Job.leavingAt_st (j : Job) (now : Nat) : (j.leavingAt now).st = j.st := apply_ite Job.st _ _ _ |>.trans (ite_self _)

theorem Job.cancelled_left {now : Nat} {j k : Job} (h : j.cancelled now = some k) : k.st ≠ .waiting ∧ (k.st = .live → k.leave.isSome = true) := by
  unfold Job.cancelled at h
  split at h
  next => cases h
  next hst =>
    obtain rfl := Option.some.inj h
    rw [j.leavingAt_st, hst]
    exact ⟨JobState.noConfusion, fun _ => j.leavingAt_leave now⟩
  next hst =>
    obtain rfl := Option.some.inj h
    rw [hst]
    exact ⟨JobState.noConfusion, JobState.noConfusion⟩

section
variable {s : State} {j : Job}

theorem State.leaveJob_waiting (hst : j.st = .waiting) : s.leaveJob false j = s.completeWaiting j 10 3 := by
  unfold State.leaveJob
  rw [hst]
  rfl

theorem State.leaveJob_harvested (hst : j.st = .harvested) : s.leaveJob false j = s := by
  unfold State.leaveJob
  rw [hst]

theorem State.leaveJob_live (hst : j.st = .live) (hqueue : (s.queueCfg j.queue).isSome = true) :
    s.leaveJob false j = s.onJob j.id fun k => k.leavingAt s.tide64 := by
  obtain ⟨c, hc⟩ := Option.isSome_iff_exists.mp hqueue
  unfold State.leaveJob
  rw [hst, hc]
  rfl

variable (hqueue : (s.queueCfg j.queue).isSome = true)
include hqueue

theorem State.leaveJob_served : s.OnlyServed (s.leaveJob false j) := by
  cases hst : j.st with
  | waiting => rw [State.leaveJob_waiting hst]; exact s.completeWaiting_served j 10 3
  | live => rw [State.leaveJob_live hst hqueue]; exact s.onJob_served _ _
  | harvested => rw [State.leaveJob_harvested hst]; exact .refl s

theorem State.leaveJob_nextComp : (s.leaveJob false j).nextComp = s.nextComp + if j.st = .waiting then 1 else 0 := by
  cases hst : j.st with
  | waiting => rw [State.leaveJob_waiting hst]; exact s.completeWaiting_nextComp j 10 3
  | live => rw [State.leaveJob_live hst hqueue]; rfl
  | harvested => rw [State.leaveJob_harvested hst]; rfl

/-- A CANCEL of one instance changes that instance. -/
theorem State.leaveJob_jobs (hinv : s.Inv) (hj : j ∈ s.jobs) :
    (s.leaveJob false j).jobs = s.jobs.filterMap fun k => if k.id = j.id then k.cancelled s.tide64 else some k := by
  have hsame {k : Job} (hk : k ∈ s.jobs) (hid : k.id = j.id) : k = j := List.inj_on_of_nodup_map hinv.jobIds hk hj hid
  cases hst : j.st with
  | waiting =>
    rw [State.leaveJob_waiting hst, s.completeWaiting_jobs j 10 3, ← List.filterMap_eq_filter]
    refine List.filterMap_congr fun k hk => ?_
    by_cases hid : k.id = j.id
    · obtain rfl := hsame hk hid
      simp [Job.cancelled, hst]
    · simp [hid]
  | live =>
    rw [State.leaveJob_live hst hqueue, State.onJob, ← List.filterMap_eq_map]
    refine List.filterMap_congr fun k hk => ?_
    by_cases hid : k.id = j.id
    · obtain rfl := hsame hk hid
      simp [Job.cancelled, hst]
    · simp [hid]
  | harvested =>
    rw [State.leaveJob_harvested hst]
    refine ((List.filterMap_congr fun k hk => ?_).trans List.filterMap_some).symm
    by_cases hid : k.id = j.id
    · obtain rfl := hsame hk hid
      simp [Job.cancelled, hst]
    · simp [hid]

end

/-- What a CANCEL of several instances makes of those that are held. -/
def cancelledAmong (l : List Job) (now : Nat) (k : Job) : Option Job := if k.id ∈ l.map Job.id then k.cancelled now else some k

/-- The instances of a list that wait. -/
def waitingOf (l : List Job) : List Job := l.filter fun j => j.st = .waiting

theorem cancelledAmong_cons {j : Job} {l : List Job} (hj : j.id ∉ l.map Job.id) (now : Nat) (k : Job) :
    (if k.id = j.id then k.cancelled now else some k).bind (cancelledAmong l now) = cancelledAmong (j :: l) now k := by
  by_cases hid : k.id = j.id
  · cases hc : k.cancelled now with
    | none => simp [cancelledAmong, hid, hc]
    | some m =>
      have hm : m.id = j.id := (Job.cancelled_id hc).trans hid
      rw [if_pos hid, Option.bind_some, cancelledAmong, cancelledAmong, hm, hid, List.map_cons, if_neg hj, if_pos List.mem_cons_self,
        hc]
  · simp [cancelledAmong, hid]

/-- A CANCEL of several instances: each of them changes, and each that waits is completed. -/
theorem State.leaveJobs_cancel (l : List Job) (s : State) (hinv : s.Inv) (hmem : ∀ j ∈ l, j ∈ s.jobs) (hids : (l.map Job.id).Nodup)
    (hqueue : ∀ j ∈ l, (s.queueCfg j.queue).isSome = true) :
    s.OnlyServed (l.foldl (fun s j => s.leaveJob false j) s)
      ∧ (l.foldl (fun s j => s.leaveJob false j) s).jobs = s.jobs.filterMap (cancelledAmong l s.tide64)
      ∧ (l.foldl (fun s j => s.leaveJob false j) s).nextComp = s.nextComp + (waitingOf l).length := by
  induction l generalizing s with
  | nil => 
    have hnone : cancelledAmong [] s.tide64 = some := funext fun k => if_neg List.not_mem_nil
    exact ⟨.refl s, by rw [hnone, List.filterMap_some]; rfl, rfl⟩
  | cons j l ih =>
    obtain ⟨hj, hids⟩ := List.nodup_cons.mp hids
    have hserved := State.leaveJob_served (hqueue j List.mem_cons_self)
    have hjobs := State.leaveJob_jobs (hqueue j List.mem_cons_self) hinv (hmem j List.mem_cons_self)
    have hnext := State.leaveJob_nextComp (hqueue j List.mem_cons_self)
    have hstays : ∀ k ∈ l, k ∈ (s.leaveJob false j).jobs := fun k hk => by
      have hne : k.id ≠ j.id := fun he => hj (he ▸ List.mem_map_of_mem hk)
      rw [hjobs]
      exact List.mem_filterMap.mpr ⟨k, hmem k (List.mem_cons_of_mem j hk), if_neg hne⟩
    obtain ⟨hserved', hjobs', hnext'⟩ := ih (s.leaveJob false j) ((State.leaveJob_keeps false j (.refl s)).2 hinv) hstays hids
      fun k hk => hserved.queueCfg k.queue ▸ hqueue k (List.mem_cons_of_mem j hk)
    refine ⟨hserved.trans hserved', ?_, ?_⟩
    · rw [List.foldl_cons, hjobs', hjobs, hserved.tide64, List.filterMap_filterMap]
      exact List.filterMap_congr fun k _ => cancelledAmong_cons hj s.tide64 k
    · rw [List.foldl_cons, hnext', hnext, Nat.add_assoc, waitingOf, waitingOf, List.filter_cons]
      by_cases hst : j.st = .waiting <;> simp [hst, Nat.add_comm]

/-- The instances of a queue under a TAG. -/
def State.tagged (s : State) (q : Nat) (tag : Word) : List Job := s.jobs.filter fun j => j.queue = q && j.tag = tag

theorem State.mem_tagged {s : State} {q : Nat} {tag : Word} {j : Job} : j ∈ s.tagged q tag ↔ j ∈ s.jobs ∧ j.queue = q ∧ j.tag = tag := by
  simp [State.tagged]

section
variable {s : State} {q : Nat} {tag : Word} (hinv : s.Inv)
include hinv

/-- An instance held has the number of one under the TAG only where it is that one. -/
theorem State.id_mem_tagged {j : Job} (hj : j ∈ s.jobs) : j.id ∈ (s.tagged q tag).map Job.id ↔ j.queue = q ∧ j.tag = tag := by
  refine ⟨fun h => ?_, fun h => List.mem_map_of_mem (State.mem_tagged.mpr ⟨hj, h⟩)⟩
  obtain ⟨k, hk, hid⟩ := List.mem_map.mp h
  obtain ⟨hks, hkq⟩ := State.mem_tagged.mp hk
  exact List.inj_on_of_nodup_map hinv.jobIds hks hj hid ▸ hkq

variable (hqueue : (s.queueCfg q).isSome = true)
include hqueue

theorem State.cancelTag_spec :
    s.OnlyServed (s.cancelTag q tag) ∧ (s.cancelTag q tag).jobs = s.jobs.filterMap (cancelledAmong (s.tagged q tag) s.tide64)
      ∧ (s.cancelTag q tag).nextComp = s.nextComp + (waitingOf (s.tagged q tag)).length :=
  State.leaveJobs_cancel (s.tagged q tag) s hinv (fun _ hj => (State.mem_tagged.mp hj).1)
    (hinv.jobIds.sublist (List.filter_sublist.map Job.id)) fun _ hj => (State.mem_tagged.mp hj).2.1 ▸ hqueue

/-- No instance under the TAG of a CANCEL waits any more, and the live ones leave. -/
theorem State.cancelTag_left {k : Job} (hk : k ∈ (s.cancelTag q tag).jobs) (hkq : k.queue = q) (hktag : k.tag = tag) :
    k.st ≠ .waiting ∧ (k.st = .live → k.leave.isSome = true) := by
  rw [(State.cancelTag_spec hinv hqueue).2.1, List.mem_filterMap] at hk
  obtain ⟨j, hj, he⟩ := hk
  by_cases hid : j.id ∈ (s.tagged q tag).map Job.id
  · exact Job.cancelled_left ((if_pos hid).symm.trans he)
  · obtain rfl : j = k := Option.some.inj ((if_neg hid).symm.trans he)
    exact absurd ((State.id_mem_tagged hinv hj).mpr ⟨hkq, hktag⟩) hid

theorem State.cancelTag_other {j : Job} (hj : j ∈ s.jobs) (hother : j.queue ≠ q ∨ j.tag ≠ tag) : j ∈ (s.cancelTag q tag).jobs := by
  rw [(State.cancelTag_spec hinv hqueue).2.1, List.mem_filterMap]
  refine ⟨j, hj, if_neg fun hid => ?_⟩
  obtain ⟨hjq, hjtag⟩ := (State.id_mem_tagged hinv hj).mp hid
  exact hother.elim (absurd hjq) (absurd hjtag)

theorem State.cancelTag_live {j : Job} (hj : j ∈ s.jobs) (hlive : j.st = .live) : ∃ k ∈ (s.cancelTag q tag).jobs, k.id = j.id := by
  simp only [(State.cancelTag_spec hinv hqueue).2.1, List.mem_filterMap]
  by_cases hid : j.id ∈ (s.tagged q tag).map Job.id
  · exact ⟨_, ⟨j, hj, (if_pos hid).trans (by rw [Job.cancelled, hlive])⟩, j.leavingAt_id s.tide64⟩
  · exact ⟨j, ⟨j, hj, if_neg hid⟩, rfl⟩

end

theorem State.cancelTag_one {s : State} {q : Nat} {tag : Word} {j : Job} (hone : s.tagged q tag = [j]) (hst : j.st = .waiting) :
    s.cancelTag q tag = (s.withoutWaiting j 10 3).putComp j.queue j.gen (s.waitingBytes j 10 3) := by
  rw [State.cancelTag, ← State.tagged, hone]
  exact State.leaveJob_waiting hst

/-! ### The messages -/

theorem State.Sends.qmgrReady {s u : State} (hu : s.Sends u) : u.qmgrReady = s.qmgrReady :=
  congrArg (fun w : Word => w.getLsbD 4) hu.ready

theorem exec_submit {s : State} {h : SqpHdr} {b : SubmitBody} (m : s.MsgOk h none (24 + b.params.length + b.warm.length))
    (hready : s.qmgrReady = true) : exec (.submit h b) s = .next ((s.afterChecks h).submit h b) :=
  congrArg _ (m.message (ready := State.qmgrReady) ((State.afterChecks_sends m.1).qmgrReady.trans hready) _)

theorem exec_cancel {s : State} {h : SqpHdr} {tag : Word} (m : s.MsgOk h none 4) (hready : s.qmgrReady = true) :
    exec (.cancel h tag) s = .next ((s.afterChecks h).cancel h tag) :=
  congrArg _ (m.message (ready := State.qmgrReady) ((State.afterChecks_sends m.1).qmgrReady.trans hready) _)

/-- The state in which an accepted SUBMIT's instance arrives: checks 1 to 5 are done and the message is answered. -/
def State.admitting (s : State) (h : SqpHdr) : State := (s.afterChecks h).answeredOk h

theorem State.admitting_sends {s : State} {h : SqpHdr} (g : s.Gets h) : s.Sends (s.admitting h) := (State.afterChecks_sends g).answeredOk h

theorem State.admitting_rxStamp {s : State} {h : SqpHdr} (g : s.Gets h) (p : Nat) : (s.admitting h).rxStamp p = s.rxStamp p :=
  (State.admitting_sends g).rxStamp ((State.answeredOk_speed _ h p).trans (State.afterChecks_speed g p))

/-- An instance that is too late is completed at once, and nothing is left of it (R256). -/
theorem State.newJob_completes {s v : State} (hv : s.Sends v) (hinv : s.Inv) {h : SqpHdr} {c : QueueCfg} (hc : s.queueCfg h.number.toNat = some c)
    (b : SubmitBody) (at' : Nat) {t : State} (ht : t = (v.takeJob (s.arriving h b at')).completeWaiting (s.arriving h b at') 8 2) :
    t.jobs = s.jobs ∧ t.mem = s.mem ∧ t.regs = s.regs ∧ t.nextComp = s.nextComp + 1
      ∧ ∀ j : Job, j.tag = b.tag → j.queue = h.number.toNat → j.gen = (s.queue h.number.toNat).gen → j.deadline = b.deadline.toNat →
        j.tArr = at' → j.tAdmit = 0 →
        ∃ u : State, t = u.putComp j.queue j.gen (completionBytes j c.guard 8 2 false 0 [] 0 s.tide64 0 []) := by
  have hserved := (v.takeJob (s.arriving h b at')).completeWaiting_served (s.arriving h b at') 8 2
  subst ht
  refine ⟨?_, hserved.mem.trans hv.mem, hserved.regs.trans hv.regs, ?_, fun j htag hq hgen hdl harr hadm =>
    ⟨(v.takeJob (s.arriving h b at')).withoutWaiting (s.arriving h b at') 8 2, ?_⟩⟩
  · rw [State.completeWaiting_jobs, State.takeJob, hv.jobs]
    exact State.takeJob_without hinv rfl
  · rw [State.completeWaiting_nextComp]
    exact congrArg (· + 1) hv.nextComp
  · have hbytes : (v.takeJob (s.arriving h b at')).waitingBytes (s.arriving h b at') 8 2
        = completionBytes j c.guard 8 2 false 0 [] 0 s.tide64 0 [] := by
      have hguard : (v.takeJob (s.arriving h b at')).queueCfg (s.arriving h b at').queue = some c := (hv.queueCfg _).trans hc
      have hnow : (v.takeJob (s.arriving h b at')).tide64 = s.tide64 := hv.tide64
      rw [State.waitingBytes, hguard, hnow]
      exact completionBytes_congr htag.symm hq.symm hgen.symm hdl.symm harr.symm hadm.symm _ _ _ _
    rw [State.completeWaiting_eq, hbytes, hq, hgen]
    rfl

/-- Settles O33: a message meets its own checks in the state that checks 1 to 5 leave; an accepted SUBMIT's instance is taken in after them and its
answer; a CANCEL changes the instances under its TAG one after another. -/
theorem instancesComeAndGo : Obligations.InstancesComeAndGo := by
  refine ⟨fun s h b c at' hat m hready hc hgen => ?submit, fun s h tag m hready hqueue hopen hgen hinv => ?cancel⟩
  case submit =>
    have hu := State.afterChecks_sends m.1
    have hexec := exec_submit m hready
    have hcfg : (s.afterChecks h).queueCfg h.number.toNat = some c := (hu.queueCfg _).trans hc
    have hq := hu.queue h.number.toNat
    refine ⟨fun hclosed => ⟨_, hexec, ?_⟩, fun hopen => ⟨fun hlens => ⟨_, hexec, ?_⟩, fun hlens => ⟨fun r hr => ⟨_, hexec, ?_⟩, fun hr => ?_⟩⟩⟩
    · rw [State.submit_closed hcfg (hq ▸ hclosed)]
      exact hu.nak_refused h .queueClosed
    · rw [State.submit_lengths hcfg (hq ▸ hopen) (hq ▸ hgen) (hu.queueCat c ▸ hlens)]
      exact hu.nak_refused h .badLength
    · rw [State.submit_limits hcfg (hq ▸ hopen) (hq ▸ hgen) (hu.queueCat c ▸ hlens) hr]
      exact hu.nak_refused h r
    · have hv := State.admitting_sends m.1
      rw [State.submit_accepted hcfg (hq ▸ hopen) (hq ▸ hgen) (hu.queueCat c ▸ hlens) hr, ← State.admitting, State.admitting_rxStamp m.1, ← hat]
        at hexec
      have hreplied : h.ackReq = true → (s.admitting h).Replied h 0x7F h.gen (nakPay .ok 0) := State.answeredOk_replied _
      by_cases hlate : tooLate c b.deadline.toNat at'
      · rw [State.newJob_late hlate, hv.arriving] at hexec
        have hserved := ((s.admitting h).takeJob (s.arriving h b at')).completeWaiting_served (s.arriving h b at') 8 2
        refine ⟨_, hexec, ?_, fun hack => ?_, fun h20 hmin => ?_, fun _ hinv => State.newJob_completes hv hinv hc b at' rfl⟩
        · exact hserved.nextJob.trans (congrArg (· + 1) hv.nextJob)
        · exact (hreplied hack).of_sameWire ((State.takeJob_sameWire _ _).trans hserved.wire) hserved.regs
        · exact absurd hlate (by simp only [tooLate]; omega)
      · rw [State.newJob_waits hlate, hv.arriving] at hexec
        refine ⟨_, hexec, congrArg (· + 1) hv.nextJob, fun hack => ?_, fun _ _ => ⟨⟨_, ?_, rfl⟩, ?_⟩, fun hbad => absurd hbad hlate⟩
        · exact (hreplied hack).of_sameWire (State.takeJob_sameWire _ _) rfl
        · exact congrArg (· ++ [s.arriving h b at']) hv.jobs
        · exact hv.map fun x => { x with jobs := s.jobs, nextJob := s.nextJob }
  case cancel =>
    have hu := State.afterChecks_sends m.1
    have hq := hu.queue h.number.toNat
    have hcfg : ((s.afterChecks h).queueCfg h.number.toNat).isSome = true := hu.queueCfg _ ▸ hqueue
    have hinvu : (s.afterChecks h).Inv := (State.accept_keeps h true true (.refl s)).2 hinv
    have htagged : (s.afterChecks h).tagged h.number.toNat tag = s.tagged h.number.toNat tag := by rw [State.tagged, State.tagged, hu.jobs]
    have hexec : exec (.cancel h tag) s = .next ((s.afterChecks h).cancelTag h.number.toNat tag) := by
      obtain ⟨c, hc⟩ := Option.isSome_iff_exists.mp hcfg
      rw [exec_cancel m hready, State.cancel, State.onOpenQueue_open hc (hq ▸ hopen) (hq ▸ hgen)]
    obtain ⟨hserved, -, hnext⟩ := State.cancelTag_spec (tag := tag) hinvu hcfg
    refine ⟨_, hexec, fun k hk => State.cancelTag_left hinvu hcfg hk, fun j hj => State.cancelTag_other hinvu hcfg (hu.jobs ▸ hj),
      fun j hj _ _ hlive => State.cancelTag_live hinvu hcfg (hu.jobs ▸ hj) hlive, ?_, fun j hone hst => ⟨(s.afterChecks h).withoutWaiting j 10 3, ?_⟩, ?_,
      hserved.mem.trans hu.mem, hserved.regs.trans hu.regs, hserved.queues.trans hu.queues, hserved.windows.trans hu.windows,
      hserved.tide.trans hu.tide⟩
    · rw [hnext, htagged, hu.nextComp, waitingOf, State.tagged, List.filter_filter]
      simp only [Bool.and_comm]
    · rw [State.cancelTag_one (htagged.trans hone) hst, State.waitingBytes, hu.queueCfg, hu.tide64]
    · rw [hserved.wire.recs]
      exact State.afterChecks_recs m.1

end Sys2Proof.Machine
end

section
/-!
PROOF. What leaves a pan's slice entry as it is and lets contexts rest: no step of them starts, and no boundary of them falls due (R262, R406-R410).
-/

namespace Sys2Proof.Machine

/-- Where a pan is in its slice table: the entry, whether it runs, whether one has run, and when it started. -/
def Pan.entryState (x : Pan) : Nat × Bool × Bool × Nat := (x.entry, x.entryOn, x.ran, x.entryAt)

/-- A context that has changed, but has neither started a step nor come to a boundary. -/
def Ctx.Rests (x y : Ctx) : Prop := (x.live = false → y.live = false) ∧ (x.boundary = false → y.boundary = false)

theorem Ctx.Rests.refl (x : Ctx) : x.Rests x := ⟨id, id⟩

theorem Ctx.Rests.trans {x y z : Ctx} (h : x.Rests y) (h' : y.Rests z) : x.Rests z := ⟨h'.1 ∘ h.1, h'.2 ∘ h.2⟩

/-- Neither the registers nor the slice entry of a pan changed, and the contexts that `K` selects rest. -/
structure State.Calm (K : Nat → Nat → Prop) (s t : State) : Prop where
  regs : t.regs = s.regs
  entry : ∀ p, (t.pan p).entryState = (s.pan p).entryState
  rests : ∀ p c, K p c → (s.ctx p c).Rests (t.ctx p c)

/-- Every context. -/
def anyCtx (_ _ : Nat) : Prop := True

/-- Every context but one. -/
def ctxBut (p c p' c' : Nat) : Prop := ¬(p' = p ∧ c' = c)

theorem not_ctxBut_self (p c : Nat) : ¬ctxBut p c p c := fun h => h ⟨rfl, rfl⟩

/-- No context. -/
def noCtx (_ _ : Nat) : Prop := False

namespace State.Calm

variable {K K' : Nat → Nat → Prop} {s t u : State}

theorem refl (s : State) : s.Calm K s := ⟨rfl, fun _ => rfl, fun _ _ _ => .refl _⟩

theorem trans (h : s.Calm K t) (h' : t.Calm K u) : s.Calm K u :=
  ⟨h'.regs.trans h.regs, fun p => (h'.entry p).trans (h.entry p), fun p c hk => (h.rests p c hk).trans (h'.rests p c hk)⟩

theorem foldl {α : Type} {f : State → α → State} (hf : ∀ (s : State) x, s.Calm K (f s x)) (l : List α) (s : State) : s.Calm K (l.foldl f s) :=
  List.foldlRecOn (motive := s.Calm K) l f (refl s) fun t ht x _ => ht.trans (hf t x)

theorem ite {b : Prop} [Decidable b] (h : s.Calm K t) (h' : s.Calm K u) : s.Calm K (if b then t else u) := by
  split
  · exact h
  · exact h'

theorem mono (h : s.Calm K t) (hk : ∀ p c, K' p c → K p c) : s.Calm K' t := ⟨h.regs, h.entry, fun p c hc => h.rests p c (hk p c hc)⟩

theorem some (h : s.Calm anyCtx t) : s.Calm K t := h.mono fun _ _ _ => trivial

theorem none (h : s.Calm K t) : s.Calm noCtx t := h.mono fun _ _ => False.elim

/-- All contexts rest where all but one do and that one does. -/
theorem all {p c : Nat} (h : s.Calm (ctxBut p c) t) (hc : (s.ctx p c).Rests (t.ctx p c)) : s.Calm anyCtx t := by
  refine ⟨h.regs, h.entry, fun p' c' _ => ?_⟩
  by_cases hsame : p' = p ∧ c' = c
  · obtain ⟨rfl, rfl⟩ := hsame
    exact hc
  · exact h.rests p' c' hsame

theorem strict (h : s.Calm K t) : t.strict = s.strict :=
  congrArg (fun m : SMap Word => decide (fieldOf (m.getD Reg.glbMode.addr Reg.glbMode.resetWord) 0 0 = 1)) h.regs

theorem live (h : s.Calm K t) {p c : Nat} (hk : K p c) (hs : (s.ctx p c).live = false) : (t.ctx p c).live = false := (h.rests p c hk).1 hs

theorem boundary (h : s.Calm K t) {p c : Nat} (hk : K p c) (hs : (s.ctx p c).boundary = false) : (t.ctx p c).boundary = false :=
  (h.rests p c hk).2 hs

/-- The pans did not change. -/
theorem of_pans (hp : t.pans = s.pans) (hr : t.regs = s.regs) : s.Calm K t := by
  have hpan (p : Nat) : t.pan p = s.pan p := congrArg (fun m : SMap Pan => m.getD p {}) hp
  exact ⟨hr, fun p => congrArg _ (hpan p), fun p c _ => by rw [State.ctx, State.ctx, hpan]; exact .refl _⟩

/-- The pans changed no more than their sluices. -/
theorem of_sluices (hp : ∀ p, t.pan p = { s.pan p with levels := (t.pan p).levels, waitingTok := (t.pan p).waitingTok, asked := (t.pan p).asked })
    (hr : t.regs = s.regs) : s.Calm K t :=
  ⟨hr, fun p => by rw [hp p]; rfl, fun p c _ => by rw [State.ctx, State.ctx, hp p]; exact .refl _⟩

end State.Calm

section
variable {K : Nat → Nat → Prop} {s t : State}

theorem State.Sends.calm (h : s.Sends t) : s.Calm K t := .of_sluices h.pans h.regs

theorem State.OnlyCharged.calm (h : s.OnlyCharged t) : s.Calm K t := .of_sluices h.pans h.withinStep.regs

theorem State.OnlyBuffered.calm (h : s.OnlyBuffered t) : s.Calm K t := .of_pans h.pans h.within.regs

theorem State.OnlyServed.calm (h : s.OnlyServed t) : s.Calm K t := .of_sluices h.sends.pans h.regs

end

section
variable {K : Nat → Nat → Prop} (s : State)

theorem State.onPan_calm (p : Nat) {f : Pan → Pan} (he : ∀ x, (f x).entryState = x.entryState) (hc : ∀ x, (f x).ctxs = x.ctxs) :
    s.Calm K (s.onPan p f) := by
  refine ⟨rfl, fun p' => ?_, fun p' c _ => ?_⟩ <;> by_cases h : p' = p
  · rw [h, State.onPan_pan, he]
  · rw [State.onPan_pan_ne _ _ _ _ h]
  · rw [h, State.ctx, State.ctx, State.onPan_pan, hc]
    exact .refl _
  · rw [State.ctx, State.ctx, State.onPan_pan_ne _ _ _ _ h]
    exact .refl _

theorem State.onCtx_calm (p c : Nat) {f : Ctx → Ctx} (hf : K p c → (s.ctx p c).Rests (f (s.ctx p c))) : s.Calm K (s.onCtx p c f) := by
  refine ⟨rfl, fun p' => ?_, fun p' c' hk => ?_⟩
  · by_cases h : p' = p
    · rw [h, State.onCtx, State.onPan_pan]
      rfl
    · rw [State.onCtx, State.onPan_pan_ne _ _ _ _ h]
  · by_cases h : p' = p ∧ c' = c
    · obtain ⟨rfl, rfl⟩ := h
      rw [State.onCtx_ctx]
      exact hf hk
    · rw [State.onCtx_ctx_ne _ _ _ _ h]
      exact .refl _

theorem State.onSlot_calm (p c rank k : Nat) (f : SlotSt → SlotSt) : s.Calm K (s.onSlot p c rank k f) :=
  s.onCtx_calm p c fun _ => .refl _

/-! ### Reports and EVENTs -/

theorem State.bump_calm (c : Ctr) : s.Calm K (s.bump c) := (State.bump_sends c (.refl s)).calm

theorem State.event_calm (kind subject : Nat) (body : List Byte) : s.Calm K (s.event kind subject body) :=
  (State.event_sends kind subject body (.refl s)).calm

theorem State.ctxEvent_calm (p c fault : Nat) : s.Calm K (s.ctxEvent p c fault) := s.event_calm _ _ _

theorem State.toLog_calm (l : LogId) (r : Report) : s.Calm K (s.toLog l r) := .of_sluices (s.toLog_sends l r).pans (s.toLog_sends l r).regs

theorem State.report_calm (l : LogId) (cls : EClass) (source unit info detail : Nat) : s.Calm K (s.report l cls source unit info detail) :=
  .ite ((s.toLog_calm _ _).trans (State.toLog_calm _ _ _)) (s.toLog_calm _ _)

theorem State.seqReport_calm (n : Nat) (cls : EClass) (code desc : Nat) : s.Calm K (s.seqReport n cls code desc) := by
  unfold State.seqReport
  split
  · exact s.report_calm _ _ _ _ _ _
  · exact .refl s

theorem State.coreReport_calm (n : Nat) (cls : EClass) (source unit info detail : Nat) : s.Calm K (s.coreReport n cls source unit info detail) := by
  unfold State.coreReport
  split
  · exact s.report_calm _ _ _ _ _ _
  · exact .refl s

theorem State.regionReport_calm (r : Nat) (cls : EClass) (source unit info detail : Nat) :
    s.Calm K (s.regionReport r cls source unit info detail) := by
  unfold State.regionReport
  split
  · exact s.report_calm _ _ _ _ _ _
  · exact .refl s

theorem State.slotReport_calm (core source : Nat) (cls : EClass) (j : Job) (g unit : Nat) : s.Calm K (s.slotReport core source cls j g unit) := by
  unfold State.slotReport
  split
  · exact s.report_calm _ _ _ _ _ _
  · exact .refl s

/-! ### Kills -/

theorem State.payOwed_calm (p c : Nat) (cls : EClass) : s.Calm K (s.payOwed p c cls) := by
  refine (s.onCtx_calm p c (f := fun x => { x with owed := [] }) fun _ => .refl _).trans ?_
  exact .foldl (fun t (r : Nat × Nat × Nat) => t.seqReport_calm r.1 cls r.2.1 r.2.2) _ _

theorem State.halt_calm (p c n : Nat) (f : StepFault) (desc : Nat) : s.Calm K (s.halt p c n f desc) := by
  have hhalted : s.Calm K (s.onCtx p c (fun x => { x with st := .halted, haltFault := f.code, refault := 0 })) := s.onCtx_calm p c fun _ => .refl _
  exact ((hhalted.trans (State.payOwed_calm _ p c .ucu)).trans (State.seqReport_calm _ n .ucu f.code desc)).trans (State.ctxEvent_calm _ p c f.code)

theorem State.judge_calm (p c n : Nat) (f : StepFault) (desc refault : Nat) : s.Calm K (s.judge p c n f desc refault) := by
  cases f with
  | descriptor | address | trap | overrun => exact s.halt_calm p c n _ desc
  | preempt => exact s.seqReport_calm _ _ _ _
  | slotTimeout | schedule | barrierTimeout => exact .ite (s.halt_calm p c n _ desc) (s.onCtx_calm p c fun _ => .refl _)

theorem State.owe_calm (p c n : Nat) (f : StepFault) (desc : Nat) : s.Calm K (s.owe p c n f desc) := s.onCtx_calm p c fun _ => .refl _

theorem State.stopCore_calm (n : Nat) : s.Calm K (s.stopCore n) := .trans (s.flushCore_onlyBuffered n).calm (.of_pans rfl rfl)

theorem State.dropReplies_calm (p c : Nat) (tag : BitVec 4) : s.Calm K (s.dropReplies p c tag) := by
  have hxacts (l : List Xact) : s.Calm K { s with xacts := l } := .of_pans rfl rfl
  exact (hxacts _).trans (.foldl (fun t _ => t.bump_calm _) _ _)

theorem State.killCores_calm (p c n : Nat) (f : StepFault) (desc : Nat) : s.Calm K (s.killCores p c n f desc) := by
  have hstopped : s.Calm K ((s.ctx p c).ranks.dedup.foldl (fun s k => (s.stopCore k).bump (.seqKills k)) s) :=
    .foldl (fun t k => (t.stopCore_calm k).trans (State.bump_calm _ _)) _ s
  unfold State.killCores
  generalize (s.ctx p c).ranks.dedup.foldl (fun s k => (s.stopCore k).bump (.seqKills k)) s = t at *
  have hrecorded : t.Calm K ((t.note (.seqStatus n) (· ||| 2 ^ 31)).onCore n (fun k => k.record f desc)) := .of_pans rfl rfl
  have hcleared (u : State) : u.Calm K ((u.dropDirty p c).emptyShare p c) := .of_pans rfl rfl
  exact ((hstopped.trans hrecorded).trans (hcleared _)).trans (State.dropReplies_calm _ p c _)

/-- A kill lets every other context rest. -/
theorem State.kill_calm (p c n : Nat) (f : StepFault) (desc : Nat) : s.Calm (ctxBut p c) (s.kill p c n f desc) := by
  cases hlive : (s.ctx p c).live with
  | false =>
    rw [State.kill, hlive]
    exact .refl s
  | true =>
    rw [State.kill_of_live hlive]
    have hstep : s.Calm (ctxBut p c) (s.killStep p c n f desc) := by
      unfold State.killStep
      generalize hu : s.killCores p c n f desc = u
      exact (hu ▸ s.killCores_calm p c n f desc).trans (u.onCtx_calm p c fun h => (not_ctxBut_self p c h).elim)
    exact .ite (hstep.trans (State.owe_calm _ _ _ _ _ _)) (hstep.trans (State.judge_calm _ _ _ _ _ _ _))

theorem State.kill_live (p c n : Nat) (f : StepFault) (desc : Nat) : ((s.kill p c n f desc).ctx p c).live = false := by
  cases hlive : (s.ctx p c).live with
  | false => rwa [State.kill, hlive]
  | true => rw [State.kill_ctx hlive]; rfl

/-! ### Full/empty accesses tried again -/

theorem State.onCore_calm (n : Nat) (f : Core → Core) : s.Calm K (s.onCore n f) := .of_pans rfl rfl

theorem State.turnTo_calm (n rank : Nat) : s.Calm K (s.turnTo n rank) := by
  unfold State.turnTo
  split
  · exact .refl s
  · exact s.onCore_calm n _

theorem State.passTurn_calm (n : Nat) : s.Calm K (s.passTurn n) := by
  unfold State.passTurn
  dsimp only
  refine .ite (.refl s) ?_
  split
  · exact s.turnTo_calm n _
  · refine .ite (.refl s) ?_
    split
    · exact s.turnTo_calm n _
    · exact .refl s

theorem State.push_calm (n p c : Nat) (op : OutOp) : s.Calm K (s.push n p c op) :=
  have h := s.push_pushed n p c op
  .of_sluices h.pans ((congrArg State.regs h.frame).trans rfl)

theorem State.mark_calm (line : Nat) (w : Bool) : s.Calm K (s.mark line w) := .of_pans rfl rfl

theorem State.feGrant_calm (n : Nat) (write : Bool) (x : Option Nat × Nat × Nat) : s.Calm K (s.feGrant n write x) :=
  .trans ((s.flushLine_onlyBuffered _).trans (State.store_onlyBuffered _ n false x.2.2 _ _)).calm (State.mark_calm _ _ write)

end

section
variable {K : Nat → Nat → Prop}

theorem State.feRows_calm (n : Nat) (write : Bool) (items : List (Option Nat × Nat × Nat)) (bad : List (Option Nat)) (s : State) :
    s.Calm K (s.feRows n write items bad).1 := by
  induction items generalizing bad s with
  | nil => exact .refl s
  | cons x r ih =>
    rw [State.feRows_cons]
    split
    · exact .refl s
    · exact (s.feGrant_calm n write x).trans (ih _ _)

/-- A full/empty access that is tried is outstanding afterwards or goes on waiting: its core does not end its step by it. -/
theorem State.feTry_calm (s : State) (n p c : Nat) (write : Bool) (items : List (Option Nat × Nat × Nat)) (bad : List (Option Nat)) (op : OutOp)
    (since : Nat) : s.Calm K ((s.feTry n p c write items bad op since).passEnd n) := by
  have hrows : s.Calm K (s.feRows n write items bad).1 := State.feRows_calm n write items bad s
  unfold State.feTry
  generalize s.feRows n write items bad = x at *
  obtain ⟨t, rest, bads⟩ := x
  dsimp only
  split
  · rw [State.passEnd_of_ops (State.push_pushed _ _ _ _ _).ops_ne_nil]
    exact (hrows.trans (State.onCore_calm t n _)).trans (State.push_calm _ n p c _)
  · rw [State.passEnd_of_wait (by rw [State.onCore_core]; exact Option.some_ne_none _)]
    exact hrows.trans (State.onCore_calm t n _)

theorem State.feAgain_calm (s : State) (k : Nat) : s.Calm K (s.feAgain k) := by
  unfold State.feAgain
  split
  · exact .ite (s.feTry_calm _ _ _ _ _ _ _ _) (.refl s)
  · exact .refl s

theorem State.feRetry_calm (s : State) : s.Calm K s.feRetry := by
  have turn (k : Nat) (t : State) (x : Turn) : t.Calm K (((t.turnTo k x.rank).feAgain k).passTurn k) :=
    ((t.turnTo_calm k x.rank).trans (State.feAgain_calm _ k)).trans (State.passTurn_calm _ k)
  refine .foldl (fun t k => ?_) _ s
  exact (t.feAgain_calm k).trans (.foldl (turn k) _ _)

end

end Sys2Proof.Machine
end

section
/-!
PROOF. A boundary's phases B1 to B4 (R262, R263): they let every context rest, and the context's boundary is no longer due.
-/

namespace Sys2Proof.Machine

section
variable {K : Nat → Nat → Prop} (s : State)

/-! ### Fates -/

theorem State.onJob_calm (id : Nat) (f : Job → Job) : s.Calm K (s.onJob id f) := .of_pans rfl rfl

theorem State.dropJob_calm (id : Nat) : s.Calm K (s.dropJob id) := .of_pans rfl rfl

theorem State.attribute_calm (unit : Nat) : s.Calm K (s.attribute unit) := .of_pans rfl rfl

theorem State.certBars_calm (core : Nat) (j : Job) (g : Nat) (cls : EClass) : s.Calm K (s.certBars core j g cls) :=
  .foldl (fun t _ => (t.slotReport_calm _ _ _ _ _ _).trans (State.attribute_calm _ _)) _ s

theorem State.endEpisode_calm (p : Nat) (j : Job) (cls : EClass) : s.Calm K (s.endEpisode p j cls) := by
  unfold State.endEpisode
  split
  · exact .refl s
  · refine .trans ?_ (State.onJob_calm _ _ _)
    exact .ite (s.certBars_calm _ _ _ _) (.ite (s.slotReport_calm _ _ _ _ _ _) (.refl s))

theorem State.applyFate_calm (p : Nat) (f : Fate) : s.Calm K (s.applyFate p f) := by
  unfold State.applyFate
  extract_lets j guard g core run j' counted noted still guarded reported
  have hcounted : s.Calm K counted := .ite (s.bump_calm _) (.refl s)
  have hnoted : s.Calm K noted := hcounted.trans (State.onJob_calm _ _ _)
  clear_value noted
  have hguarded : s.Calm K guarded := .ite hnoted (hnoted.trans (State.certBars_calm _ _ _ _ _))
  have hreported : s.Calm K reported := by
    unfold reported
    split
    · exact (hnoted.trans (State.slotReport_calm _ _ _ _ _ _ _)).trans (State.attribute_calm _ _)
    · exact .ite (hnoted.trans (State.slotReport_calm _ _ _ _ _ _ _)) hnoted
  clear_value guarded reported
  refine .ite (.ite ?pair (.ite ?repro ?fails)) (.ite ?ended hreported)
  case pair => exact hguarded.trans (State.endEpisode_calm _ _ _ _)
  case repro => exact (hnoted.trans (State.bump_calm _ _)).trans (State.onJob_calm _ _ _)
  case fails => exact hnoted.trans (State.endEpisode_calm _ _ _ _)
  case ended => exact (hreported.trans (State.endEpisode_calm _ _ _ _)).trans (State.onJob_calm _ _ _)

/-! ### The commit -/

theorem State.commitLines_calm (p c : Nat) (x : Nat × Nat) : s.Calm K (s.commitLines p c x) := by
  refine .foldl (fun t a => .ite ?_ (.refl t)) _ s
  exact .of_pans rfl rfl

theorem State.putPage_calm (c page : Nat) (bs : List Byte) (bad : Bool) : s.Calm K (s.putPage c page bs bad) := by
  have hpoked : s.Calm K (s.poke (pageAddr c page) bs bad) := (s.poke_onlyBuffered _ _ _).calm
  have hcached (t : State) : t.Calm K (t.cacheLine c page) := .ite (.refl t) (.of_pans rfl rfl)
  have hchecked (t : State) (f : Hbus → Hbus) : t.Calm K (t.onChan c f) := .of_pans rfl rfl
  exact (hpoked.trans (hcached _)).trans (hchecked _ _)

theorem State.moveWrite_calm (core : Nat) (w : Nat × List Byte × Bool) : s.Calm K (s.moveWrite core w) :=
  .ite (.foldl (fun t _ => .foldl (fun u _ => u.putPage_calm _ _ _ _) _ t) _ s)
    (.foldl (fun t (x : OutWrite) => (t.store_onlyBuffered core false x.addr x.bytes _).calm) _ s)

theorem State.doDeferred_calm (p core : Nat) (m : Deferred) (rows : List (Nat × List Byte × Bool)) : s.Calm K (s.doDeferred p core m rows) := by
  refine .trans ?_ (.foldl (fun t w => t.moveWrite_calm core w) rows _)
  exact .ite (s.chargeBy_onlyCharged _ _ _ _).calm (.foldl (fun t _ => (t.chargeSpan_onlyCharged p core _).calm) _ s)

theorem State.cleared_calm (p c : Nat) : s.Calm K ((s.dropDirty p c).emptyShare p c) := .of_pans rfl rfl

theorem State.commitPhase_calm (p c : Nat) (commits : List Nat) : s.Calm K (s.commitPhase p c commits) := by
  unfold State.commitPhase
  extract_lets x done due moved kept freed
  have hmoved : s.Calm K moved := by
    refine .foldl (fun t e => .trans ?_ (State.onCore_calm _ _ _)) _ s
    exact .foldl (fun u (m : Deferred × List (Nat × List Byte × Bool)) => u.doDeferred_calm p e.1 m.1 m.2) _ t
  have hkept : s.Calm K kept := hmoved.trans (.foldl (fun t y => t.commitLines_calm p c y) _ _)
  have hfreed : s.Calm K freed := hkept.trans (State.cleared_calm _ p c)
  exact hfreed.trans (State.onCtx_calm _ p c fun _ => .refl _)

/-! ### Windows -/

theorem State.applyWrite_calm (x : Staged) : s.Calm K (s.applyWrite x) := by
  cases hx : x.body with
  | write d => exact (s.poke_onlyBuffered x.addr d false).calm.trans (State.applyWrite_sends hx).1.calm
  | read n =>
    rw [State.applyWrite, hx]
    exact .refl s

theorem State.applyRead_calm (x : Staged) : s.Calm K (s.applyRead x) := by
  unfold State.applyRead
  split
  · exact .refl s
  · exact (State.sendPaced_sends _ _ _ (.refl s)).calm

theorem State.windowPhase_calm (p : Nat) : s.Calm K (s.windowPhase p) := by
  have hstaged (l : List Staged) : s.Calm K { s with staged := l } := .of_pans rfl rfl
  exact ((hstaged _).trans (.foldl State.applyWrite_calm _ _)).trans (.foldl State.applyRead_calm _ _)

/-! ### Completions -/

theorem State.loopSet_calm (n : Nat) (w : Word) : s.Calm K (s.loopSet n w) := .of_pans rfl rfl

theorem State.handoff_calm (queue : Nat) (c : QueueCfg) (x : List Val) : s.Calm K (s.handoff queue c x) := by
  refine .foldl (fun t b => ?_) _ s
  split
  · exact .refl t
  next w _ =>
    have hheld (f : LoopSt → LoopSt) : t.Calm K (t.onLoop b.loop f) := .of_pans rfl rfl
    exact .ite ((hheld _).trans (State.loopSet_calm _ _ _)) (hheld _)

theorem State.countComp_calm (status how : Nat) : s.Calm K (s.countComp status how) := (s.countComp_sends status how).calm

theorem State.putComp_calm (q : Nat) (gen : BitVec 16) (payload : List Byte) : s.Calm K (s.putComp q gen payload) :=
  (s.putComp_served q gen payload).calm

theorem State.completeFrom_calm (c : QueueCfg) (j : Job) (out : Leaving) (status how : Nat) (flags : BitVec 16) :
    s.Calm K (s.completeFrom c j out status how flags) := by
  unfold State.completeFrom
  split
  · exact .refl s
  · dsimp only
    have hput (bytes : List Byte) : s.Calm K ((s.countComp status how).putComp j.queue j.gen bytes) :=
      (s.countComp_calm status how).trans (State.putComp_calm _ _ _ _)
    exact .ite ((hput _).trans (State.handoff_calm _ _ _ _)) (hput _)

theorem State.keepPrior_calm (c : QueueCfg) (j : Job) (committed : Bool) : s.Calm K (s.keepPrior c j committed) := by
  unfold State.keepPrior
  dsimp only
  refine .ite ?_ (.refl s)
  split
  · exact .of_pans rfl rfl
  · exact .refl s

theorem State.vacate_calm (p c g : Nat) : s.Calm K (s.vacate p c g) := .foldl (fun t _ => t.onSlot_calm _ _ _ _ _) _ s

/-- The slots of an instance vacated, and the instance gone. -/
theorem State.vacated_calm (p c : Nat) (slots : List Nat) (id : Nat) :
    s.Calm K ((slots.foldl (fun s g => s.vacate p c g) s).dropJob id) :=
  .trans (.foldl (fun t g => t.vacate_calm p c g) _ s) (State.dropJob_calm _ _)

theorem State.leavePhase_calm (p : Nat) (old : State) (f : Fate) : s.Calm K (s.leavePhase p old f) := by
  unfold State.leavePhase
  split
  next qc j _ _ =>
    extract_lets j' parted
    have hparted : s.Calm K parted := by
      unfold parted
      split
      · exact (s.vacate_calm _ _ _).trans (State.onJob_calm _ _ _)
      · exact .refl s
    clear_value parted
    split
    · exact ((hparted.trans (State.keepPrior_calm _ _ _ _)).trans (State.completeFrom_calm _ _ _ _ _ _ _)).trans (State.vacated_calm _ _ _ _ _)
    · exact .ite (hparted.trans (State.vacated_calm _ _ _ _ _)) hparted
  next => exact .refl s

theorem State.idle_calm (p c : Nat) : s.Calm K (s.idle p c) :=
  .ite (.foldl (fun t n => t.onCore_calm n _) _ s) (.refl s)

/-! ### The end of the step's full/empty accesses -/

theorem State.grantRows_cons (write : Bool) (x : Option Nat × Nat × Nat) (r : List (Option Nat × Nat × Nat)) :
    s.grantRows write (x :: r) = if s.isFull (feLine write x) = write then none else (s.mark (feLine write x) write).grantRows write r := rfl

theorem State.grantRows_calm (write : Bool) (rows : List (Option Nat × Nat × Nat)) {t : State} (h : s.grantRows write rows = some t) :
    s.Calm K t := by
  induction rows generalizing s with
  | nil => exact Option.some.inj h ▸ .refl s
  | cons x r ih =>
    rw [State.grantRows_cons] at h
    split at h
    · cases h
    · exact (s.mark_calm _ _).trans (ih _ h)

/-- The deferred accesses granted one after another. -/
theorem foldlM_calm {α ε : Type} {f : State → α → Except ε State} (hf : ∀ (s : State) x t, f s x = .ok t → s.Calm K t) (l : List α) {t : State}
    (h : l.foldlM f s = .ok t) : s.Calm K t := by
  induction l generalizing s with
  | nil => exact Except.ok.inj h ▸ .refl s
  | cons x l ih =>
    rw [List.foldlM_cons] at h
    cases hx : f s x with
    | error e => rw [hx] at h; cases h
    | ok u => rw [hx] at h; exact (hf s x u hx).trans (ih u h)

/-- An access that waits in vain ends the step by its fault: of a context whose step has ended, only the boundary can fall due. -/
theorem State.endFe_calm (p c : Nat) : s.Calm (ctxBut p c) (s.endFe p c)
    ∧ ((s.ctx p c).live = false → ((s.endFe p c).ctx p c).live = false) := by
  unfold State.endFe
  split
  · split
    next t ht =>
      have hcalm : s.Calm anyCtx t := by
        refine foldlM_calm s (fun s x t hx => ?_) _ ht
        split at hx
        next hgranted => exact Except.ok.inj hx ▸ s.grantRows_calm _ _ hgranted
        next => cases hx
      exact ⟨hcalm.some, hcalm.live trivial⟩
    next n i _ =>
      refine ⟨.trans (s.onCtx_calm p c fun h => (not_ctxBut_self p c h).elim) (State.kill_calm _ p c n _ i), fun _ => State.kill_live _ p c n _ i⟩
  · exact ⟨.refl s, id⟩

/-! ### The boundary -/

/-- After a boundary no boundary of its context is due. -/
theorem State.boundary_ctx (p c te : Nat) : ((s.boundary p c te).ctx p c).boundary = false := by
  unfold State.boundary
  extract_lets _ _ _ _ _ _ _ _ u
  refine (State.feRetry_calm (K := anyCtx) _).boundary trivial ?_
  rw [State.onCtx_ctx]

theorem State.boundary_calm (p c te : Nat) : s.Calm K (s.boundary p c te) := by
  obtain ⟨hfe, hlive⟩ := s.endFe_calm p c
  have hafter : (s.endFe p c).Calm anyCtx (s.boundary p c te) := by
    unfold State.boundary
    extract_lets fe js fs fated old committed windowed out left
    have hfated : fe.Calm anyCtx fated := .foldl (fun t f => t.applyFate_calm p f) _ _
    have hcommitted : fe.Calm anyCtx committed := hfated.trans (State.commitPhase_calm _ p c _)
    have hwindowed : fe.Calm anyCtx windowed := hcommitted.trans (State.windowPhase_calm _ p)
    have hleft : fe.Calm anyCtx left := (hwindowed.trans (.foldl (fun t f => t.leavePhase_calm p old f) _ _)).trans (State.idle_calm _ p c)
    exact (hleft.trans (State.onCtx_calm _ p c fun _ => ⟨id, fun _ => rfl⟩)).trans (State.feRetry_calm _)
  exact .some (.all (hfe.trans hafter.some) ⟨fun h => hafter.live trivial (hlive h), fun _ => s.boundary_ctx p c te⟩)

end

end Sys2Proof.Machine
end

section
/-!
PROOF. Contexts stopped and unloaded, cores lost and moved at a boundary, and a step started, as to the slice entry and the contexts that rest
(R262, R405, R410, R417, R511-R516).
-/

namespace Sys2Proof.Machine

section
variable {K : Nat → Nat → Prop} (s : State)

/-! ### Contexts stopped -/

/-- A pre-empted context has no step left. -/
theorem State.preemptCtx_rests (p c : Nat) : s.Calm anyCtx (s.preemptCtx p c) ∧ ((s.preemptCtx p c).ctx p c).live = false := by
  unfold State.preemptCtx
  extract_lets x counted n killed
  cases hlive : x.live with
  | false => exact ⟨.refl s, hlive⟩
  | true =>
    have hcounted : s.Calm (ctxBut p c) counted := .foldl (fun t _ => t.bump_calm _) _ s
    have hkilled : s.Calm (ctxBut p c) killed := (hcounted.trans (State.kill_calm _ p c n .preempt _)).trans (State.bump_calm _ _)
    have hstopped : (killed.ctx p c).live = false := (State.bump_calm (K := anyCtx) _ _).live trivial (State.kill_live _ p c n .preempt _)
    have hended := killed.boundary_calm (K := anyCtx) p c (killed.ctx p c).te
    have hoff := hended.live trivial hstopped
    exact ⟨.all (hkilled.trans hended.some) ⟨fun _ => hoff, fun _ => State.boundary_ctx _ p c _⟩, hoff⟩

theorem State.settle_calm (p c : Nat) : s.Calm K (s.settle p c) := .ite (s.boundary_calm p c _) (.refl s)

/-- A context stopped: its step pre-empted, and a boundary that is due run (R410). -/
theorem State.stopCtx_calm (p c : Nat) : s.Calm K ((s.preemptCtx p c).settle p c) := (s.preemptCtx_rests p c).1.some.trans (State.settle_calm _ p c)

theorem State.stopCtx_live (p c : Nat) : (((s.preemptCtx p c).settle p c).ctx p c).live = false :=
  (State.settle_calm (K := anyCtx) _ p c).live trivial (s.preemptCtx_rests p c).2

theorem State.stopCtxs_calm (p : Nat) (l : List Nat) : s.Calm K (l.foldl (fun s c => (s.preemptCtx p c).settle p c) s) :=
  .foldl (fun t c => t.stopCtx_calm p c) l s

theorem State.stopCtxs_live (p : Nat) (l : List Nat) {c : Nat} (hc : c ∈ l) :
    ((l.foldl (fun s c => (s.preemptCtx p c).settle p c) s).ctx p c).live = false := by
  induction l generalizing s with
  | nil => cases hc
  | cons d l ih =>
    rw [List.foldl_cons]
    rcases List.mem_cons.mp hc with rfl | hc
    · exact (State.stopCtxs_calm (K := anyCtx) _ p l).live trivial (s.stopCtx_live p c)
    · exact ih _ hc

/-! ### Contexts unloaded and loaded -/

theorem State.releaseJobs_calm (p c : Nat) : s.Calm K (s.releaseJobs p c) := by
  refine .foldl (fun t j => ?_) _ s
  split
  · refine .ite ?_ (t.dropJob_calm _)
    exact ((t.endEpisode_calm _ _ _).trans (State.completeFrom_calm _ _ _ _ _ _ _)).trans (State.dropJob_calm _ _)
  · exact t.dropJob_calm _

theorem State.clearShare_calm (p c : Nat) : s.Calm K (s.clearShare p c) := by
  have hfreed : s.Calm K (s.freed p c) := .of_pans rfl rfl
  exact hfreed.trans (State.feRetry_calm _)

theorem State.sweepCopies_calm (p : Nat) : s.Calm K (s.sweepCopies p) := by
  unfold State.sweepCopies
  exact s.onPan_calm p (fun _ => rfl) fun _ => rfl

theorem State.sweepModels_calm : s.Calm K s.sweepModels := .of_pans rfl rfl

/-- A context set anew rests. -/
theorem State.newCtx_calm (p c : Nat) {f : Ctx → Ctx} (hl : ∀ x, (f x).live = false) (hb : ∀ x, (f x).boundary = false) : s.Calm K (s.onCtx p c f) :=
  s.onCtx_calm p c fun _ => ⟨fun _ => hl _, fun _ => hb _⟩

theorem State.unload_calm (p c : Nat) : s.Calm K (s.unload p c) := by
  unfold State.unload
  extract_lets x stopped emptied
  have hempty (t : State) : t.Calm K (t.onCtx p c (fun x => { tag := x.tag })) := t.newCtx_calm p c (fun _ => rfl) fun _ => rfl
  have hstopped : s.Calm K stopped := (s.stopCtx_calm p c).trans (State.releaseJobs_calm _ p c)
  have hemptied : s.Calm K emptied := ((hstopped.trans (State.clearShare_calm _ p c)).trans (State.payOwed_calm _ p c .ucu)).trans (hempty _)
  refine .ite (hempty s) (.ite (.refl s) ?_)
  exact ((hemptied.trans (State.sweepCopies_calm _ p)).trans (State.ctxEvent_calm _ p c 0)).trans (State.sweepModels_calm _)

theorem State.startLoad_calm (p c cat : Nat) (l : LoadPlan) : s.Calm K (s.startLoad p c cat l) := by
  unfold State.startLoad
  extract_lets cored toks charged asked placed
  have hcored : s.Calm K cored := .foldl (fun t n => t.onCore_calm n _) _ s
  have hcharged : s.Calm K charged := hcored.trans (State.chargeBy_onlyCharged _ _ _ _ _).calm
  have hasked : charged.Calm K asked := .of_pans rfl rfl
  exact (hcharged.trans hasked).trans (State.newCtx_calm _ p c (fun _ => rfl) fun _ => rfl)

theorem State.load_calm (p c cat : Nat) : s.Calm K (s.load p c cat).2 := by
  unfold State.load
  split
  · exact s.startLoad_calm p c cat _
  · exact .refl s
  · exact .of_pans rfl rfl

theorem State.reload_calm (p c : Nat) : s.Calm K (s.reload p c) := (s.unload_calm p c).trans (State.load_calm _ p c _)

/-! ### Cores lost and moved -/

theorem State.onRegion_calm (r : Nat) (f : RegionSt → RegionSt) : s.Calm K (s.onRegion r f) := .of_pans rfl rfl

theorem State.degradePan_calm (p region lost : Nat) (affected : Nat → Bool) : s.Calm K (s.degradePan p region lost affected) := by
  unfold State.degradePan
  extract_lets cfg found cs placed reported marked
  have hplaced : s.Calm K placed := s.onPan_calm p (fun _ => rfl) fun _ => rfl
  have hmarked : s.Calm K marked := (hplaced.trans (State.report_calm _ _ _ _ _ _ _)).trans (State.onRegion_calm _ _ _)
  exact hmarked.trans (.foldl (fun t c => .ite (t.unload_calm p c) (t.reload_calm p c)) _ _)

theorem State.setCoreReady_calm (n : Nat) (v : Bool) : s.Calm K (s.setCoreReady n v) := by
  have hready (r : BitVec 32) : s.Calm K { s with coreReady := r } := .of_pans rfl rfl
  exact .ite (.refl s) ((hready _).trans (State.event_calm _ _ _ _))

theorem State.loseCore_calm (r i : Nat) : s.Calm K (s.loseCore r i) :=
  (s.setCoreReady_calm _ false).trans (.foldl (fun t p => t.degradePan_calm p r _ _) _ _)

theorem State.coreFailed_calm (r phys : Nat) : s.Calm K (s.coreFailed r phys) := by
  unfold State.coreFailed
  extract_lets x reported
  have hreported : s.Calm K reported := (s.onRegion_calm _ _).trans (State.regionReport_calm _ _ _ _ _ _ _)
  refine .ite (.refl s) ?_
  split
  · exact hreported.trans (State.onRegion_calm _ _ _)
  · exact .ite (hreported.trans (State.onRegion_calm _ _ _)) (hreported.trans (State.loseCore_calm _ _ _))

theorem State.moveCore_calm (r : Nat) : s.Calm K (s.moveCore r) := by
  unfold State.moveCore
  dsimp only
  split
  · exact .ite ((s.onRegion_calm _ _).trans (State.regionReport_calm _ _ _ _ _ _ _)) (.refl s)
  · exact .refl s

theorem State.checkEvents_calm : s.Calm K s.checkEvents := by
  have hattrib (a : Attrib) : s.Calm K { s with attrib := a } := .of_pans rfl rfl
  exact (hattrib _).trans (.foldl (fun t k => .ite (t.coreFailed_calm _ _) (.refl t)) _ _)

theorem State.spareColumns_calm (cores : List Nat) : s.Calm K (s.spareColumns cores) := by
  have hattrib (a : Attrib) : s.Calm K { s with attrib := a } := .of_pans rfl rfl
  have hspared (t : State) (b : Bist) : t.Calm K { t with bist := b } := .of_pans rfl rfl
  exact (hattrib _).trans (.foldl (fun t e => (hspared t _).trans (State.coreReport_calm _ _ _ _ _ _ _)) _ _)

theorem State.atBoundary_calm (p : Nat) (on : List Nat) : s.Calm K (s.atBoundary p on) := by
  refine .ite (.refl s) ?_
  refine ((s.spareColumns_calm on).trans ?_).trans (State.checkEvents_calm _)
  refine .foldl (fun t r => ?_) _ _
  split
  · exact .ite (t.moveCore_calm r) (.refl t)
  · exact .refl t

/-! ### A step started -/

theorem State.fillSlot_calm (p c rank k : Nat) (q : QueueCfg) (j : Job) (corrupt : Bool) : s.Calm K (s.fillSlot p c rank k q j corrupt) := by
  have hplain (t : State) (a : Nat) (bs : List Byte) : t.Calm K (t.plain a bs) := (t.place_onlyBuffered a bs false).calm
  unfold State.fillSlot
  extract_lets e t h a lines selected headed submitted free prior cleared shared get big warmed certified
  have hselected : s.Calm K selected := .of_pans rfl rfl
  have hheaded : s.Calm K headed := (hselected.trans (hplain _ _ _)).trans (hplain _ _ _)
  have hsubmitted : s.Calm K submitted := hheaded.trans (.foldl (fun t _ => hplain t _ _) _ _)
  have hprior : s.Calm K prior := by
    unfold prior
    split
    · exact (hsubmitted.trans (hplain _ _ _)).trans (hplain _ _ _)
    · exact hsubmitted
  have hcleared : s.Calm K cleared := hprior.trans (hplain _ _ _)
  have hwarmed : s.Calm K warmed := .ite hcleared (hcleared.trans (hplain _ _ _))
  exact (hwarmed.trans (hplain _ _ _)).trans (State.onSlot_calm _ p c rank k _)

theorem State.admitOne_calm (p c te : Nat) (q : QueueCfg) (j : Job) (gs : List Nat) : s.Calm K (s.admitOne p c te q j gs) := by
  unfold State.admitOne
  extract_lets filled chained
  have hslots (t : State) (g : Nat) : t.Calm K ((t.places p c g).foldl (fun s x => s.fillSlot p c x.1 x.2 q j (corruptAt q j)) t) :=
    .foldl (fun u (x : Nat × Nat) => u.fillSlot_calm p c x.1 x.2 q j _) _ t
  have hfilled : s.Calm K filled := .foldl hslots _ s
  have hdel (t : State) : t.Calm K { t with priors := t.priors.del j.queue } := .of_pans rfl rfl
  have hchained : s.Calm K chained := .ite (hfilled.trans (hdel _)) hfilled
  exact (hchained.trans (State.addWait_served _ _ _).calm).trans (State.onJob_calm _ _ _)

end

section
variable {K : Nat → Nat → Prop}

theorem State.admitAll_calm (p c te : Nat) (js : List Job) (taken : List Nat) (s : State) : s.Calm K (State.admitAll p c te js taken s) := by
  induction js generalizing taken s with
  | nil => exact .refl s
  | cons j r ih =>
    unfold State.admitAll
    split
    · exact ih _ _
    · refine .ite ((s.completeWaiting_served j 8 2).calm.trans (ih _ _)) ?_
      split
      · exact ih _ _
      · exact (s.admitOne_calm p c te _ j _).trans (ih _ _)

theorem State.startCore_calm (s : State) (p c rank n : Nat) (fresh : Bool) (others : List Nat) : s.Calm K (s.startCore p c rank n fresh others) := by
  unfold State.startCore
  exact s.onCore_calm n _

/-- A step that starts lets every other context rest, and no boundary of its own is due. -/
theorem State.startStep_calm (s : State) (p c te at' : Nat) : s.Calm (ctxBut p c) (s.startStep p c te at')
    ∧ ((s.startStep p c te at').ctx p c).boundary = false := by
  unfold State.startStep
  extract_lets admitted fresh begun ranks
  have hadmitted : s.Calm (ctxBut p c) admitted := State.admitAll_calm p c te _ [] s
  have hbegun : s.Calm (ctxBut p c) begun := hadmitted.trans (State.onCtx_calm _ p c fun h => (not_ctxBut_self p c h).elim)
  have hdue : (begun.ctx p c).boundary = false := by
    unfold begun
    rw [State.onCtx_ctx]
  have hcores {K : Nat → Nat → Prop} : begun.Calm K
      (ranks.dedup.foldl (fun s n => s.startCore p c ((ranksOn ranks n).headD 0) n fresh (ranksOn ranks n).tail) begun) :=
    .foldl (fun t n => t.startCore_calm p c _ n _ _) _ _
  exact ⟨hbegun.trans hcores, (hcores (K := anyCtx)).boundary trivial hdue⟩

end

end Sys2Proof.Machine
end

section
/-!
PROOF. Slice entries that start and end, boundaries that are run, and steps that end at their budget (R262, R406-R410, R425, R428).
-/

namespace Sys2Proof.Machine

/-! ### The end of an entry -/

theorem State.onPan_ctx {s : State} {p : Nat} {f : Pan → Pan} (hf : ∀ x, (f x).ctxs = x.ctxs) (p' c : Nat) : (s.onPan p f).ctx p' c = s.ctx p' c := by
  by_cases h : p' = p
  · rw [h, State.ctx, State.onPan_pan, hf, State.ctx]
  · rw [State.ctx, State.onPan_pan_ne _ _ _ _ h, State.ctx]

/-- The contexts of a pan stopped (R410, R417). -/
def State.allStopped (s : State) (p : Nat) : State := (List.range 8).foldl (fun s c => (s.preemptCtx p c).settle p c) s

section
variable (s : State) (p : Nat)

theorem State.endEntry_eq : s.endEntry p = (s.allStopped p).onPan p (fun x => { x with entryOn := false }) := rfl

theorem State.endEntry_ctx (p' c : Nat) : (s.endEntry p).ctx p' c = (s.allStopped p).ctx p' c := by
  rw [s.endEntry_eq, State.onPan_ctx]
  exact fun _ => rfl

theorem State.allStopped_calm {K : Nat → Nat → Prop} : s.Calm K (s.allStopped p) := s.stopCtxs_calm p _

/-- A closed entry stays the pan's entry, and no longer runs. -/
theorem State.closeEntry_entryState :
    ((s.closeEntry p).pan p).entryState = ((s.pan p).entry, false, (s.pan p).ran, (s.pan p).entryAt) := by
  have hstopped := (s.allStopped_calm (K := noCtx) p).entry p
  rw [State.closeEntry, (State.atBoundary_calm (K := noCtx) _ p _).entry p, s.endEntry_eq, State.onPan_pan]
  simp only [Pan.entryState, Prod.mk.injEq] at hstopped ⊢
  obtain ⟨hentry, -, hran, hat⟩ := hstopped
  exact ⟨hentry, trivial, hran, hat⟩

/-- A closed entry leaves of the contexts what their stop leaves. -/
theorem State.closeEntry_rests (p' c : Nat) : ((s.allStopped p).ctx p' c).Rests ((s.closeEntry p).ctx p' c) := by
  rw [← s.endEntry_ctx, State.closeEntry]
  exact (State.atBoundary_calm (K := anyCtx) _ p _).rests p' c trivial

theorem State.closeEntry_live {c : Nat} (hc : c < 8) : ((s.closeEntry p).ctx p c).live = false :=
  (s.closeEntry_rests p p c).1 (s.stopCtxs_live p _ (List.mem_range.mpr hc))

theorem State.closeEntry_boundary {p' c : Nat} (h : (s.ctx p' c).boundary = false) : ((s.closeEntry p).ctx p' c).boundary = false :=
  (s.closeEntry_rests p p' c).2 ((s.allStopped_calm (K := anyCtx) p).boundary trivial h)

end

/-- An entry of a pan has ended once its LENGTH has passed (R408, R410). -/
theorem exec_sliceEntryEnd {s : State} {p : Fin 16} (hr : s.inReset = false) (hon : (s.pan p.val).entryOn = true) (hover : s.entryOver p.val = true) :
    ∃ t, exec (.sliceEntryEnd p) s = .next t ∧ (t.pan p.val).entryOn = false
      ∧ (s.strict = false → ∀ k, k < 8 → (t.ctx p.val k).live = false) := by
  change ∃ t, execSliceEntryEnd p s = .next t ∧ _
  unfold execSliceEntryEnd
  rw [hr, hon, hover]
  cases hstrict : s.strict with
  | true =>
    refine ⟨_, rfl, ?_, fun h => absurd h (by decide)⟩
    dsimp only
    rw [if_neg (by decide), if_pos rfl, State.onPan_pan]
  | false =>
    exact ⟨s.closeEntry p.val, rfl, congrArg (fun x => x.2.1) (s.closeEntry_entryState p.val), fun _ k hk => s.closeEntry_live p.val hk⟩

theorem exec_sliceEntryEnd_early {s : State} {p : Fin 16} (hover : s.entryOver p.val = false) : exec (.sliceEntryEnd p) s = .next s := by
  change execSliceEntryEnd p s = .next s
  unfold execSliceEntryEnd
  rw [hover, if_pos (by simp)]

/-! ### The start of an entry -/

/-- An idle entry is one of open mode. -/
theorem State.idleEntry_strict {s : State} {p : Nat} (h : s.idleEntry p = true) : s.strict = false := by
  unfold State.idleEntry at h
  simp only [Bool.and_eq_true, Bool.not_eq_true'] at h
  exact h.1.2

theorem exec_sliceEntryStart {s : State} {p : Fin 16} (hr : s.inReset = false) {i : Nat} (hi : s.nextEntry p.val = some i) :
    ∃ t, exec (.sliceEntryStart p) s = .next t ∧ (t.pan p.val).entry = i ∧ (t.pan p.val).ran = true ∧ (t.pan p.val).entryAt = s.nclk
      ∧ (s.strict = true → (t.pan p.val).entryOn = true) := by
  change ∃ t, execSliceEntryStart p s = .next t ∧ _
  unfold execSliceEntryStart
  rw [hi]
  dsimp -zeta only
  rw [hr, if_neg Bool.false_ne_true]
  extract_lets since begun mine chosen go on bounded
  have hbegun : (begun.pan p.val).entryState = (i, true, true, s.nclk) := congrArg Pan.entryState (State.onPan_pan s p.val _)
  have hchosen : begun.Calm noCtx chosen := .foldl (fun t c => t.onCtx_calm p.val c fun h => h.elim) _ _
  have hbounded : begun.Calm noCtx bounded :=
    (hchosen.trans (.foldl (fun t c => t.boundary_calm p.val c _) _ _)).trans (State.atBoundary_calm _ _ _)
  have hentry : (bounded.pan p.val).entryState = (i, true, true, s.nclk) := (hbounded.entry p.val).trans hbegun
  have hstrict : bounded.strict = s.strict := hbounded.strict
  clear_value bounded
  simp only [Pan.entryState, Prod.mk.injEq] at hentry
  obtain ⟨hix, hon, hran, hat⟩ := hentry
  split
  next hidle =>
    have hclosed := bounded.closeEntry_entryState p.val
    simp only [Pan.entryState, Prod.mk.injEq] at hclosed
    obtain ⟨hix', -, hran', hat'⟩ := hclosed
    refine ⟨_, rfl, hix'.trans hix, hran'.trans hran, hat'.trans hat, fun h => ?_⟩
    rw [← hstrict, State.idleEntry_strict hidle] at h
    cases h
  next =>
    have hstarted := (State.Calm.foldl (K := noCtx)
      (fun t c => .ite (b := t.canStart p.val c = true) (t.startStep_calm p.val c t.tide64 t.nclk).1.none (.refl t)) go bounded).entry p.val
    simp only [Pan.entryState, Prod.mk.injEq] at hstarted
    obtain ⟨hix', hon', hran', hat'⟩ := hstarted
    exact ⟨_, rfl, hix'.trans hix, hran'.trans hran, hat'.trans hat, fun _ => hon'.trans hon⟩

theorem exec_sliceEntryStart_none {s : State} {p : Fin 16} (hi : s.nextEntry p.val = none) : exec (.sliceEntryStart p) s = .next s := by
  change execSliceEntryStart p s = .next s
  unfold execSliceEntryStart
  rw [hi]

/-! ### A boundary that is due -/

theorem exec_stepBoundary {s : State} {p : Fin 16} {c : Fin 8} (hr : s.inReset = false) (hdue : (s.ctx p.val c.val).boundary = true) :
    ∃ t, exec (.stepBoundary p c) s = .next t ∧ (t.ctx p.val c.val).boundary = false := by
  change ∃ t, execStepBoundary p c s = .next t ∧ _
  unfold execStepBoundary
  extract_lets x bounded
  rw [hr, if_neg Bool.false_ne_true, if_pos hdue]
  have hdone : (bounded.ctx p.val c.val).boundary = false :=
    (State.atBoundary_calm (K := anyCtx) _ p.val x.ranks).boundary trivial (s.boundary_ctx p.val c.val x.te)
  refine ⟨_, rfl, ?_⟩
  split
  · exact bounded.closeEntry_boundary p.val hdone
  · split
    · exact (bounded.startStep_calm p.val c.val x.te x.endNclk).2
    · exact hdone

/-! ### The end of a step at its budget -/

theorem State.toLog_mem (s : State) (l : LogId) (r : Report) : (s.toLog l r).mem = s.mem := (s.toLog_sends l r).mem

theorem State.seqReport_mem (s : State) (n : Nat) (cls : EClass) (code desc : Nat) : (s.seqReport n cls code desc).mem = s.mem := by
  unfold State.seqReport
  split
  · unfold State.report
    dsimp only
    split
    · exact (State.toLog_mem _ _ _).trans (s.toLog_mem _ _)
    · exact s.toLog_mem _ _
  · rfl

theorem State.payOwed_mem (s : State) (p c : Nat) (cls : EClass) : (s.payOwed p c cls).mem = s.mem :=
  List.foldlRecOn (motive := fun t : State => t.mem = s.mem) _ _ rfl fun t ht (r : Nat × Nat × Nat) _ => (t.seqReport_mem r.1 cls r.2.1 r.2.2).trans ht

/-- The end of the pan's step leaves memory, the registers and the instances. -/
theorem State.checkPanEnd_leaves (s : State) (p c : Nat) :
    (s.checkPanEnd p c).mem = s.mem ∧ (s.checkPanEnd p c).regs = s.regs ∧ (s.checkPanEnd p c).jobs = s.jobs := by
  have hwithin := (s.checkPanEnd_steps p c).within
  refine ⟨?_, hwithin.regs, hwithin.jobs⟩
  unfold State.checkPanEnd
  dsimp only
  split
  · exact State.payOwed_mem _ p c .ucm
  · rfl

/-- In strict mode the pan's step ends at its STEP_BUDGET (R425, R428). -/
theorem State.checkPanEnd_strict {s : State} {p c : Nat} (hlive : (s.ctx p c).live = true) (hstrict : s.strict = true)
    (hdone : ∀ k ∈ (s.ctx p c).ranks, (s.core k).stepping = false) (hend : (s.ctx p c).budgetEnd = true) :
    (s.checkPanEnd p c).ctx p c = (s.ctx p c).ended (s.tideAt (s.budgetNclk p c)) (s.budgetNclk p c) := by
  have hall : ((s.ctx p c).live && (s.ctx p c).ranks.all (fun k => !(s.core k).stepping) && (!s.strict || (s.ctx p c).budgetEnd)) = true := by
    simpa [hlive, hend] using hdone
  unfold State.checkPanEnd
  dsimp only
  rw [if_pos hall, if_pos hstrict, (State.payOwed_told _ p c .ucm).ctx, State.onCtx_ctx, State.onCtx_ctx]
  rfl

/-- The step's budget noted as spent. -/
def State.spend (s : State) (p c : Nat) : State := s.onCtx p c (fun x => { x with budgetEnd := true })

theorem State.spend_ctx (s : State) (p c : Nat) : (s.spend p c).ctx p c = { s.ctx p c with budgetEnd := true } := s.onCtx_ctx p c _

theorem State.spend_budgetNclk (s : State) (p c : Nat) : (s.spend p c).budgetNclk p c = s.budgetNclk p c := by
  rw [State.budgetNclk, State.ctxCat, s.spend_ctx]
  rfl

section
variable {s : State} {p : Fin 16} {c : Fin 8} (hstrict : s.strict = true) (hlive : (s.ctx p.val c.val).live = true)
  (hdone : ∀ k ∈ (s.ctx p.val c.val).ranks, (s.core k).stepping = false)
include hstrict hlive hdone

theorem exec_stepBudgetEnd (hr : s.inReset = false) (hend : s.budgetNclk p.val c.val ≤ s.nclk) :
    exec (.stepBudgetEnd p c) s = .next ((s.spend p.val c.val).checkPanEnd p.val c.val) := by
  change execStepBudgetEnd p c s = _
  unfold execStepBudgetEnd
  dsimp only
  rw [if_neg]
  · rfl
  · simpa [hr, hstrict, hlive, Nat.not_lt.mpr hend] using hdone

theorem State.spent_ctx : ((s.spend p.val c.val).checkPanEnd p.val c.val).ctx p.val c.val
    = ((s.spend p.val c.val).ctx p.val c.val).ended (s.tideAt (s.budgetNclk p.val c.val)) (s.budgetNclk p.val c.val) := by
  have hctx := s.spend_ctx p.val c.val
  rw [State.checkPanEnd_strict (s := s.spend p.val c.val) (by rw [hctx]; exact hlive) hstrict (by rw [hctx]; exact hdone) (by rw [hctx]),
    s.spend_budgetNclk]
  rfl

end

theorem exec_stepBudgetEnd_early {s : State} {p : Fin 16} {c : Fin 8} (h : s.nclk < s.budgetNclk p.val c.val) :
    exec (.stepBudgetEnd p c) s = .next s := by
  change execStepBudgetEnd p c s = _
  unfold execStepBudgetEnd
  dsimp only
  rw [if_pos (by simp [h])]

/-- Settles O59: after its own change, each command does only what leaves the slice entry alone and lets contexts rest (`State.Calm`); a step ends at
its budget by `checkPanEnd_strict`. -/
theorem sliceEntriesAndSteps : Obligations.SliceEntriesAndSteps := by
  refine fun s p c hr => ⟨fun i hi => exec_sliceEntryStart hr hi, exec_sliceEntryStart_none, exec_sliceEntryEnd hr, exec_sliceEntryEnd_early,
    exec_stepBoundary hr, fun hstrict hlive hdone e he => ⟨fun hend => ?_, fun hearly => ?_⟩⟩
  · have hbudget : e = s.budgetNclk p.val c.val := he
    subst hbudget
    have hctx := State.spent_ctx hstrict hlive hdone
    obtain ⟨hmem, hregs, hjobs⟩ := (s.spend p.val c.val).checkPanEnd_leaves p.val c.val
    refine ⟨_, exec_stepBudgetEnd hstrict hlive hdone hr hend, ?_, ?_, ?_, ?_, ?_, hmem, hregs, hjobs, State.checkPanEnd_cores _ _ _⟩
    all_goals rw [hctx]; rfl
  · have hbudget : e = s.budgetNclk p.val c.val := he
    exact exec_stepBudgetEnd_early (hbudget ▸ hearly)

end Sys2Proof.Machine
end

section
/-!
PROOF. The arithmetic of a loop (R329, R330, R339, R341, R342): rounding to nearest with ties to even, saturation, limits, the counter of the
following error, and a group's winner and output.
-/

namespace Sys2Proof.Machine

/-! ### Rounding to nearest, ties to even -/

/-- A value lies between its floor and the next integer; rounding takes the nearer one, and of two that are as near the even one. -/
theorem roundEven_cases (q : Rat) :
    (roundEven q = ⌊q⌋ ∧ q - ⌊q⌋ ≤ 1 / 2 ∧ (q - ⌊q⌋ = 1 / 2 → ⌊q⌋ % 2 = 0))
    ∨ (roundEven q = ⌊q⌋ + 1 ∧ 1 / 2 ≤ q - ⌊q⌋ ∧ (q - ⌊q⌋ = 1 / 2 → (⌊q⌋ + 1) % 2 = 0)) := by
  have hround : roundEven q = if q - ⌊q⌋ < 1 / 2 then ⌊q⌋ else if 1 / 2 < q - ⌊q⌋ then ⌊q⌋ + 1 else if ⌊q⌋ % 2 = 0 then ⌊q⌋ else ⌊q⌋ + 1 := rfl
  rw [hround]
  split
  case isTrue hlow => exact .inl ⟨rfl, hlow.le, fun h => absurd h hlow.ne⟩
  case isFalse hlow =>
    split
    case isTrue hhigh => exact .inr ⟨rfl, hhigh.le, fun h => absurd h hhigh.ne'⟩
    case isFalse hhigh =>
      split
      case isTrue heven => exact .inl ⟨rfl, not_lt.mp hhigh, fun _ => heven⟩
      case isFalse hodd => exact .inr ⟨rfl, not_lt.mp hlow, fun _ => by omega⟩

theorem abs_roundEven_sub_le (q : Rat) : |(roundEven q : Rat) - q| ≤ 1 / 2 := by
  have hfloor := Int.floor_le q
  have hnext := Int.lt_floor_add_one q
  rw [abs_le]
  obtain ⟨hr, hd, -⟩ | ⟨hr, hd, -⟩ := roundEven_cases q
  · rw [hr]
    constructor <;> linarith
  · rw [hr, Int.cast_add, Int.cast_one]
    constructor <;> linarith

theorem roundEven_even_of_tie {q : Rat} (h : |(roundEven q : Rat) - q| = 1 / 2) : roundEven q % 2 = 0 := by
  have hfloor := Int.floor_le q
  have hnext := Int.lt_floor_add_one q
  obtain ⟨hr, -, htie⟩ | ⟨hr, -, htie⟩ := roundEven_cases q
  · rw [hr, abs_sub_comm, abs_of_nonneg (by linarith)] at h
    rw [hr, htie h]
  · rw [hr, Int.cast_add, Int.cast_one, abs_of_nonneg (by linarith)] at h
    rw [hr, htie (by linarith)]

/-- Rounding does not pass an integer. -/
theorem le_roundEven {m : Int} {q : Rat} (h : (m : Rat) ≤ q) : m ≤ roundEven q := by
  have hnear := (abs_le.mp (abs_roundEven_sub_le q)).1
  have : (m : Rat) < (roundEven q + 1 : Int) := by
    rw [Int.cast_add, Int.cast_one]
    linarith
  exact Int.lt_add_one_iff.mp (Int.cast_lt.mp this)

theorem roundEven_le {m : Int} {q : Rat} (h : q ≤ m) : roundEven q ≤ m := by
  have hnear := (abs_le.mp (abs_roundEven_sub_le q)).2
  have : (roundEven q : Rat) < (m + 1 : Int) := by
    rw [Int.cast_add, Int.cast_one]
    linarith
  exact Int.lt_add_one_iff.mp (Int.cast_lt.mp this)

/-! ### A result of a stage -/

theorem getLsbD_stBit (k : Nat) {j : Nat} (hj : j < 32) : (stBit k).getLsbD j = decide (j = k) := by
  change ((1#32) <<< k).getLsbD j = _
  rw [← BitVec.twoPow_eq, BitVec.getLsbD_twoPow]
  simp only [eq_comm (a := k), Bool.and_eq_right_iff_imp, decide_eq_true_eq]
  omega

/-- A result saturates at one of the ends, with SAT; or it is the nearest mantissa, with UF where a value other than zero became zero (R329). -/
theorem stageRound_cases (k : Nat) (unit : Rat) (mx : Int) (x : Rat) :
    (mx < roundEven (x / unit) ∧ stageRound k unit mx x = (mx, stBit k))
    ∨ (roundEven (x / unit) < -mx ∧ stageRound k unit mx x = (-mx, stBit k))
    ∨ ((-mx ≤ roundEven (x / unit) ∧ roundEven (x / unit) ≤ mx)
      ∧ stageRound k unit mx x = (roundEven (x / unit), if roundEven (x / unit) = 0 ∧ x ≠ 0 then stBit (16 + k) else 0)) := by
  unfold stageRound
  dsimp only
  split
  case isTrue hhigh => exact .inl ⟨hhigh, rfl⟩
  case isFalse hhigh =>
    split
    case isTrue hlow => exact .inr (.inl ⟨hlow, rfl⟩)
    case isFalse hlow => exact .inr (.inr ⟨⟨not_lt.mp hlow, not_lt.mp hhigh⟩, rfl⟩)

section
variable {k : Nat} {unit x : Rat} {mx : Int}

theorem stageRound_range (hmx : 0 ≤ mx) : -mx ≤ (stageRound k unit mx x).1 ∧ (stageRound k unit mx x).1 ≤ mx := by
  obtain ⟨-, h⟩ | ⟨-, h⟩ | ⟨hin, h⟩ := stageRound_cases k unit mx x
  · rw [h]
    exact ⟨by omega, le_rfl⟩
  · rw [h]
    exact ⟨le_rfl, by omega⟩
  · rw [h]
    exact hin

/-- A value within the range is rounded and does not saturate. -/
theorem stageRound_fst_of_le (h : |x / unit| ≤ mx) : (stageRound k unit mx x).1 = roundEven (x / unit) := by
  obtain ⟨hlow, hhigh⟩ := abs_le.mp h
  have hle : roundEven (x / unit) ≤ mx := roundEven_le hhigh
  have hge : -mx ≤ roundEven (x / unit) := le_roundEven (by rwa [Int.cast_neg])
  obtain ⟨hsat, -⟩ | ⟨hsat, -⟩ | ⟨-, h⟩ := stageRound_cases k unit mx x
  · omega
  · omega
  · rw [h]

/-- SAT[k] and UF[k] are different bits, and only one of them is set. -/
theorem stageRound_uf_iff (hk : k < 8) : (stageRound k unit mx x).2.getLsbD (16 + k) = true
    ↔ (stageRound k unit mx x).1 = 0 ∧ x ≠ 0 ∧ (stageRound k unit mx x).2.getLsbD k = false := by
  have hne : ¬16 + k = k := by omega
  obtain ⟨-, h⟩ | ⟨-, h⟩ | ⟨-, h⟩ := stageRound_cases k unit mx x
  · rw [h]
    simp [getLsbD_stBit k (show 16 + k < 32 by omega), getLsbD_stBit k (show k < 32 by omega)]
  · rw [h]
    simp [getLsbD_stBit k (show 16 + k < 32 by omega), getLsbD_stBit k (show k < 32 by omega)]
  · rw [h]
    by_cases hz : roundEven (x / unit) = 0 ∧ x ≠ 0
    · simp [hz, getLsbD_stBit (16 + k) (show 16 + k < 32 by omega), getLsbD_stBit (16 + k) (show k < 32 by omega)]
    · simp [hz]

/-- A value that no mantissa of the range is near saturates. -/
theorem stageRound_sat (hk : k < 8) (h : (mx : Rat) + 1 / 2 < |x / unit|) :
    (stageRound k unit mx x).2.getLsbD k = true ∧ ((stageRound k unit mx x).1 = mx ∨ (stageRound k unit mx x).1 = -mx) := by
  have hbit : (stBit k).getLsbD k = true := (getLsbD_stBit k (by omega)).trans (decide_eq_true rfl)
  obtain ⟨-, hr⟩ | ⟨-, hr⟩ | ⟨⟨hge, hle⟩, -⟩ := stageRound_cases k unit mx x
  · rw [hr]
    exact ⟨hbit, .inl rfl⟩
  · rw [hr]
    exact ⟨hbit, .inr rfl⟩
  · obtain ⟨hnear, hnear'⟩ := abs_le.mp (abs_roundEven_sub_le (x / unit))
    have hge' : -(mx : Rat) ≤ roundEven (x / unit) := by exact_mod_cast hge
    have hle' : (roundEven (x / unit) : Rat) ≤ mx := Int.cast_le.mpr hle
    have : |x / unit| ≤ (mx : Rat) + 1 / 2 := abs_le.mpr ⟨by linarith, by linarith⟩
    exact absurd h (not_lt.mpr this)

end

/-! ### Limits -/

theorem limitTo_fst (k : Nat) (x lo hi : Rat) : (limitTo k x lo hi).1 = min hi (max lo x) := by
  rw [max_def_lt', min_def_lt]
  rfl

theorem limitTo_snd (k : Nat) (x lo hi : Rat) : (limitTo k x lo hi).2 = if (limitTo k x lo hi).1 = x then 0 else stBit k := rfl

theorem limitTo_sat_iff {k : Nat} (hk : k < 8) (x lo hi : Rat) :
    (limitTo k x lo hi).2.getLsbD k = true ↔ (limitTo k x lo hi).1 ≠ x := by
  rw [limitTo_snd]
  split
  case isTrue h => simp [h]
  case isFalse h => simp [h, getLsbD_stBit k (show k < 32 by omega)]

/-! ### The following error -/

theorem LoopSt.trip_feCnt (l : LoopSt) : l.trip.feCnt = l.feCnt := by
  unfold LoopSt.trip
  split <;> rfl

theorem LoopSt.trip_flags {l : LoopSt} (h : l.status.getLsbD 31 = false) : l.trip.flags.getLsbD 31 = true := by
  rw [LoopSt.trip, h, if_neg Bool.false_ne_true, LoopSt.flag, BitVec.getLsbD_or, getLsbD_stBit 31 (by decide)]
  exact Bool.or_true _

section
variable {w : LoopCfg} {l : LoopSt}

/-- An error within the limit clears the counter (R341). -/
theorem LoopSt.stage2_feCnt_within (h : ((l.stage2 w).1.natAbs : Int) ≤ w.feLimit) : (l.stage2 w).2.feCnt = 0 := by
  unfold LoopSt.stage2 at h ⊢
  dsimp only at h ⊢
  split at h
  case isTrue hover => exact absurd h (not_le.mpr hover)
  case isFalse hover => rw [if_neg hover]

/-- The loop in which an error beyond the limit has been counted, before it trips. -/
def LoopSt.counted (w : LoopCfg) (l : LoopSt) : LoopSt :=
  { l.flag (w.at' 2 (l.p * w.extUnit - l.xc * w.sig 0)).2 with feCnt := min (l.feCnt + 1) w.feTime }

/-- An error beyond the limit is counted, and trips the loop when the count reaches FE_TIME (R341). -/
theorem LoopSt.stage2_beyond (h : w.feLimit < ((l.stage2 w).1.natAbs : Int)) :
    (l.stage2 w).2 = if (l.counted w).feCnt = w.feTime then (l.counted w).trip else l.counted w := by
  unfold LoopSt.stage2 at h ⊢
  dsimp only at h ⊢
  split at h
  case isTrue hover =>
    rw [if_pos hover]
    rfl
  case isFalse hover => exact absurd h hover

theorem LoopSt.stage2_feCnt_beyond (h : w.feLimit < ((l.stage2 w).1.natAbs : Int)) : (l.stage2 w).2.feCnt = min (l.feCnt + 1) w.feTime := by
  rw [LoopSt.stage2_beyond h]
  split
  · exact LoopSt.trip_feCnt _
  · rfl

theorem LoopSt.stage2_trips (h : w.feLimit < ((l.stage2 w).1.natAbs : Int)) (hlast : l.feCnt + 1 = w.feTime)
    (hup : l.status.getLsbD 31 = false) : (l.stage2 w).2.flags.getLsbD 31 = true := by
  have hcount : (l.counted w).feCnt = w.feTime := by rw [LoopSt.counted, ← hlast, min_self]
  rw [LoopSt.stage2_beyond h, if_pos hcount]
  exact LoopSt.trip_flags hup

theorem LoopSt.stage2_feCnt_le (w : LoopCfg) (l : LoopSt) : (l.stage2 w).2.feCnt ≤ w.feTime := by
  rcases le_or_gt ((l.stage2 w).1.natAbs : Int) w.feLimit with h | h
  · rw [LoopSt.stage2_feCnt_within h]
    exact Nat.zero_le _
  · rw [LoopSt.stage2_feCnt_beyond h]
    exact min_le_right _ _

end

/-! ### Groups -/

/-- The winner is a member of the group. -/
theorem lowest_lt_length : ∀ {l : List Rat}, l ≠ [] → lowest l < l.length
  | [_], _ => Nat.zero_lt_one
  | x :: y :: r, _ => by
    have ih : lowest (y :: r) < (y :: r).length := lowest_lt_length (List.cons_ne_nil _ _)
    change (if (y :: r).getD (lowest (y :: r)) x < x then lowest (y :: r) + 1 else 0) < _
    split
    · exact Nat.succ_lt_succ ih
    · exact Nat.zero_lt_succ _

/-- The first member wins where the winner of the others is not lower. -/
theorem lowest_cons (x : Rat) {r : List Rat} (hr : r ≠ []) : lowest (x :: r) = if r.getD (lowest r) 0 < x then lowest r + 1 else 0 := by
  obtain ⟨y, r, rfl⟩ := List.exists_cons_of_ne_nil hr
  have hlt := lowest_lt_length (List.cons_ne_nil y r)
  rw [List.getD_eq_getElem _ _ hlt, ← List.getD_eq_getElem _ x hlt]
  rfl

/-- No member's value is lower than the winner's, and on equal values the winner comes first (R339). -/
theorem lowest_spec {l : List Rat} {i : Nat} {x : Rat} (h : l[i]? = some x) :
    l.getD (lowest l) 0 ≤ x ∧ (x = l.getD (lowest l) 0 → lowest l ≤ i) := by
  induction l generalizing i with
  | nil => cases h
  | cons a r ih =>
    rcases eq_or_ne r [] with rfl | hr
    · obtain ⟨-, rfl⟩ : i = 0 ∧ a = x := by simpa using List.getElem?_eq_some_iff.mp h
      exact ⟨le_rfl, fun _ => Nat.zero_le _⟩
    · rw [lowest_cons a hr]
      split
      case isTrue hlower =>
        rw [List.getD_cons_succ]
        cases i with
        | zero =>
          obtain rfl : a = x := Option.some.inj h
          exact ⟨hlower.le, fun heq => absurd heq hlower.ne'⟩
        | succ i => exact ⟨(ih h).1, fun heq => Nat.succ_le_succ ((ih h).2 heq)⟩
      case isFalse hfirst =>
        rw [List.getD_cons_zero]
        refine ⟨?_, fun _ => Nat.zero_le _⟩
        cases i with
        | zero => exact (Option.some.inj h).le
        | succ i => exact (not_lt.mp hfirst).trans (ih h).1

/-- The strongest trip action in force, where none is stronger than one that is. -/
theorem foldl_max_eq {l : List Nat} {a : Nat} (ha : a ∈ l) (h : ∀ b ∈ l, b ≤ a) : l.foldl max 0 = a := by
  have hmax : (0 :: l).max? = some a := List.max?_eq_some_iff.mpr ⟨List.mem_cons_of_mem 0 ha, by simpa using h⟩
  exact Option.some.inj hmax

theorem foldl_max_eq_zero {l : List Nat} (h : ∀ a ∈ l, a = 0) : l.foldl max 0 = 0 := by
  cases l with
  | nil => rfl
  | cons a r => exact foldl_max_eq (h a List.mem_cons_self ▸ List.mem_cons_self) fun b hb => (h b hb).le

section
variable (w : LoopCfg) (lead : LoopSt) (ufs : List Rat) (acts : List Nat)

theorem groupOut_winner : (groupOut w lead ufs acts).1.winner = lowest ufs := rfl

/-- The output that stage 7 computes, before any trip action (R339). -/
def clampedOut : Int :=
  (w.at' 7 (limitTo 7 ((w.at' 6 (ufs.getD (lowest ufs) 0)).1 * w.sig 6) (lead.outLo * w.sig 7) (lead.outHi * w.sig 7)).1).1

/-- The strongest trip action decides what the output is (R342). -/
theorem groupOut_out : (groupOut w lead ufs acts).1.out
    = if acts.foldl max 0 = 2 then w.safeOut else if acts.foldl max 0 = 1 then lead.out else clampedOut w lead ufs := rfl

end

/-- The output lies within the leader's limits, where these are mantissas. -/
theorem clampedOut_range {w : LoopCfg} {lead : LoopSt} (ufs : List Rat) (hsig : 0 < w.sig 7) (hle : lead.outLo ≤ lead.outHi)
    (hlo : -bxMax ≤ lead.outLo) (hhi : lead.outHi ≤ bxMax) : lead.outLo ≤ clampedOut w lead ufs ∧ clampedOut w lead ufs ≤ lead.outHi := by
  unfold clampedOut LoopCfg.at'
  rw [limitTo_fst]
  generalize ((stageRound 6 (w.sig 6) bxMax (ufs.getD (lowest ufs) 0)).1 : Rat) * w.sig 6 = x
  obtain ⟨q, hq⟩ : ∃ q, q = min ((lead.outHi : Rat) * w.sig 7) (max (lead.outLo * w.sig 7) x) / w.sig 7 := ⟨_, rfl⟩
  have hge : (lead.outLo : Rat) ≤ q := by
    rw [hq, le_div_iff₀ hsig]
    exact le_min (mul_le_mul_of_nonneg_right (Int.cast_le.mpr hle) hsig.le) (le_max_left _ _)
  have hle' : q ≤ lead.outHi := by
    rw [hq, div_le_iff₀ hsig]
    exact min_le_left _ _
  have hin : |q| ≤ bxMax := abs_le.mpr ⟨le_trans (by exact_mod_cast hlo) hge, hle'.trans (Int.cast_le.mpr hhi)⟩
  rw [hq] at hge hle' hin
  rw [stageRound_fst_of_le hin]
  exact ⟨le_roundEven hge, roundEven_le hle'⟩

/-- Settles O45: a stage's result is the nearest mantissa or an end of the range; the rest follows the branches of the limit, the following error
and the group's output. -/
theorem loopArithmetic : Obligations.LoopArithmetic := by
  refine ⟨⟨fun k unit x mx _ hmx hk => ?stage, fun k x lo hi hk => ⟨limitTo_fst k x lo hi, limitTo_sat_iff hk x lo hi⟩, fun w l _ => ?following⟩,
    fun l i x => lowest_spec, fun w lead ufs acts => ?group⟩
  case stage =>
    obtain ⟨hge, hle⟩ := stageRound_range (k := k) (unit := unit) (x := x) hmx
    have hround (h : |x / unit| ≤ mx) := stageRound_fst_of_le (k := k) h
    refine ⟨hge, hle, fun h => ?near, fun h htie => ?even, stageRound_uf_iff hk, stageRound_sat hk⟩
    case near =>
      rw [hround h]
      exact abs_roundEven_sub_le _
    case even =>
      have heq := hround (by linarith)
      rw [heq] at htie ⊢
      exact roundEven_even_of_tie htie
  case following =>
    exact ⟨LoopSt.stage2_feCnt_le w l, LoopSt.stage2_feCnt_within, fun h => ⟨LoopSt.stage2_feCnt_beyond h, LoopSt.stage2_trips h⟩⟩
  case group =>
    refine ⟨groupOut_winner w lead ufs acts, fun hmem hmax => ?_, fun hmem hmax => ?_, fun hnone hsig hle hlo hhi => ?_⟩
    · rw [groupOut_out, foldl_max_eq hmem hmax, if_pos rfl]
    · rw [groupOut_out, foldl_max_eq hmem hmax, if_neg (by decide), if_pos rfl]
    · rw [groupOut_out, foldl_max_eq_zero hnone]
      exact clampedOut_range ufs hsig hle hlo hhi

end Sys2Proof.Machine
end

section
/-!
PROOF. Ticks and latches of the loop engine (R319, R320, R322-R324, R346): the tick that Tide is in, what a step of Tide does to the ticks, and the
update that a loop's latch makes due.
-/

namespace Sys2Proof.Machine

/-! ### Ticks -/

theorem exec_loopTick_runs {s : State} (hruns : s.loopRuns = true) (hnew : ∀ l, s.loopEng.last = some l → l < s.tide64 / 15625) :
    exec .loopTick s
      = .next { s with loopEng := { s.loopEng with tick := some (s.tide64 / 15625), last := some (s.tide64 / 15625), latched := [] } } := by
  change execLoopTick s = _
  unfold execLoopTick
  dsimp only
  cases hlast : s.loopEng.last with
  | none => simp only [hruns, Bool.and_self, if_true]
  | some l => simp only [hruns, hnew l hlast, decide_true, Bool.and_self, if_true]

theorem exec_loopTick_ran {s : State} {l : Nat} (hlast : s.loopEng.last = some l) (hran : s.tide64 / 15625 ≤ l) : exec .loopTick s = .next s := by
  change execLoopTick s = _
  unfold execLoopTick
  simp only [hlast, Nat.not_lt.mpr hran, decide_false, Bool.and_false, Bool.false_eq_true, if_false]

/-! ### A step of Tide -/

/-- The loop engine runs where it did, if nothing that R353 speaks of has changed. -/
theorem State.loopRuns_congr {s t : State} (hpower : t.power = s.power) (hsec : t.sec = s.sec) (hready : t.loopReady = s.loopReady)
    (hpairs : t.pairs = s.pairs) : t.loopRuns = s.loopRuns := by
  unfold State.loopRuns State.inReset State.pair
  rw [hpower, hsec, hready, hpairs]

/-- Nothing changed but Tide and READY bits other than the loop engine's, and what is sent. -/
structure State.OnlyTide (s t : State) : Prop where
  sends : s.Sends { t with tide := s.tide, ready := s.ready }
  loopReady : t.loopReady = s.loopReady

namespace State.OnlyTide

variable {s t u : State}

theorem trans (h : s.OnlyTide t) (h' : t.OnlyTide u) : s.OnlyTide u where
  sends := h.sends.trans (h'.sends.map fun x => { x with tide := s.tide, ready := s.ready })
  loopReady := h'.loopReady.trans h.loopReady

theorem ite {b : Prop} [Decidable b] (h : s.OnlyTide t) (h' : s.OnlyTide u) : s.OnlyTide (if b then t else u) := by
  split
  · exact h
  · exact h'

theorem loopEng (h : s.OnlyTide t) : t.loopEng = s.loopEng := h.sends.loopEng

theorem loopRuns (h : s.OnlyTide t) : t.loopRuns = s.loopRuns := State.loopRuns_congr h.sends.power h.sends.sec h.loopReady h.sends.pairs

end State.OnlyTide

theorem State.Sends.onlyTide {s t : State} (h : s.Sends t) : s.OnlyTide t where
  sends := h.map fun x => { x with tide := s.tide, ready := s.ready }
  loopReady := by rw [State.loopReady, h.ready, State.loopReady]

theorem State.withTide_onlyTide (s : State) (x : Tide) : s.OnlyTide { s with tide := x } := ⟨.refl s, rfl⟩

theorem State.timeEvent_onlyTide (s : State) (cause : Nat) (value : Int) : s.OnlyTide (s.timeEvent cause value) :=
  (State.event_sends _ _ _ (.refl s)).onlyTide

theorem State.tideFlag_onlyTide (s : State) (k : Nat) : s.OnlyTide (s.tideFlag k) :=
  (s.withTide_onlyTide _).trans (State.note_sends _ _ (.refl _)).onlyTide

theorem getLsbD_putBit_ne (w : Word) {j k : Nat} (h : j ≠ k) (v : Bool) : (putBit w k v).getLsbD j = w.getLsbD j := by
  have hbit : ((1 : Word) <<< k).getLsbD j = false := by
    change ((1#32) <<< k).getLsbD j = false
    rw [← BitVec.twoPow_eq, BitVec.getLsbD_twoPow]
    simp [h.symm]
  unfold putBit
  split
  · rw [BitVec.getLsbD_or, hbit, Bool.or_false]
  · by_cases hj : j < 32
    · rw [BitVec.getLsbD_and, BitVec.getLsbD_not, hbit]
      simp [hj]
    · simp [BitVec.getLsbD_of_ge _ _ (Nat.not_lt.mp hj)]

theorem State.setReady_getLsbD_ne (s : State) {j k : Nat} (h : j ≠ k) (v : Bool) : (s.setReady k v).ready.getLsbD j = s.ready.getLsbD j := by
  unfold State.setReady
  split
  · rfl
  · rw [(State.event_sends _ _ _ (.refl _)).ready]
    exact getLsbD_putBit_ne _ h v

theorem State.setReady_onlyTide (s : State) {k : Nat} (hk : 5 ≠ k) (v : Bool) : s.OnlyTide (s.setReady k v) where
  sends := by
    obtain ⟨w, h⟩ := s.setReady_sends k v
    exact h.map fun x => { x with tide := s.tide, ready := s.ready }
  loopReady := s.setReady_getLsbD_ne hk v

theorem State.tideGo_onlyTide (s : State) (st : TideState) (cause : Nat) (value : Int) : s.OnlyTide (s.tideGo st cause value) := by
  unfold State.tideGo
  dsimp only
  have hstate := s.withTide_onlyTide { s.tide with state := st, good := if st = .acquiring then 0 else s.tide.good }
  have htold := State.OnlyTide.ite (b := cause = 0) hstate (hstate.trans (State.timeEvent_onlyTide _ cause value))
  have hmoved (v : Int) := htold.trans (State.timeEvent_onlyTide _ 4 v)
  exact .ite (.ite ((hmoved _).trans (State.setReady_onlyTide _ (by decide) _)) (hmoved _)) htold

/-- An applied STEP or SET is a change of Tide, and then what it does to the ticks (R324). -/
theorem State.stepped_jumps (s : State) (t0 : Nat) (v : Int) : ∃ u, s.OnlyTide u ∧ s.stepped t0 v = u.loopJump t0 := by
  have hleft : s.OnlyTide (if s.tide.state = .holdover then s.leaveHoldover else s) := .ite (s.withTide_onlyTide _) (s.withTide_onlyTide s.tide)
  exact ⟨_, ((hleft.trans (State.tideFlag_onlyTide _ 0)).trans (State.withTide_onlyTide _ _)).trans (State.tideGo_onlyTide _ _ _ _), rfl⟩

/-- The engine after a move of Tide from tick `k0` to tick `k` (R324): ticks that a step forward passes over do not run. -/
def LoopEng.jumped (g : LoopEng) (k0 k : Nat) : LoopEng :=
  if k0 < k then
    { g with timeStep := true, tick := none, last := some (match g.last with
      | none => k
      | some l => max l k) }
  else { g with timeStep := true }

/-- TIME_STEP noted, and its LOOP EVENT sent (R324). -/
def State.tellJump (s : State) : State :=
  let x := (s.note .loopStatus (· ||| 1)).takeFree 32
  x.2.event 6 x.1.toNat (beBytes 4 x.2.loopStatus.toNat)

theorem State.tellJump_sends (s : State) : ({ s with free := s.free + 1 } : State).Sends s.tellJump :=
  State.event_sends _ _ _ ((State.note_sends .loopStatus (· ||| 1) (.refl s)).map fun x => { x with free := s.free + 1 })

theorem State.loopJump_eq (s : State) (t0 : Nat) : s.loopJump t0 = if (s.loopRuns && s.tide64 ≠ t0) = true then
    State.tellJump { s with loopEng := s.loopEng.jumped (t0 / 15625) (s.tide64 / 15625) } else s := rfl

theorem State.loopJump_tide (s : State) (t0 : Nat) : (s.loopJump t0).tide = s.tide := by
  rw [State.loopJump_eq]
  split
  · exact (State.tellJump_sends _).tide
  · rfl

theorem State.loopJump_of_stopped {s : State} (h : s.loopRuns = false) (t0 : Nat) : s.loopJump t0 = s := by
  rw [State.loopJump_eq, h, Bool.false_and, if_neg Bool.false_ne_true]

theorem State.loopJump_loopEng {s : State} (h : s.loopRuns = true) {t0 : Nat} (hmoved : s.tide64 ≠ t0) :
    (s.loopJump t0).loopEng = s.loopEng.jumped (t0 / 15625) (s.tide64 / 15625) := by
  rw [State.loopJump_eq, if_pos (by simp [h, hmoved])]
  exact (State.tellJump_sends _).loopEng

theorem State.tideStep_applied {s : State} {v : Int} (hv : v.natAbs ≤ (s.rw .tideJumpLimit).toNat) (hset : s.tide.isSet = true) :
    s.tideStep v = ({ s with tide := s.tide.shift v }).stepped s.tide64 v := if_pos ⟨hv, hset⟩

theorem State.writeReg_step {s : State} (h : s.hostServo = true) (src : RegSrc) :
    s.writeReg src .tideCtrl 0x40000000 = (s.tideStep s.tideVSigned).wrote := by
  have hcmd : fieldOf (0x40000000 : Word) 31 30 = 1 := by decide
  rw [State.writeReg, hcmd, State.tideCmd, if_pos h]

theorem Reg.ofAddr_tideCtrl : Reg.ofAddr (Reg.addr .tideCtrl) = some .tideCtrl := by decide +kernel

/-- STEP on an interface that lets it through: Tide moves, and then the ticks follow (R324, R479). -/
theorem State.step_jumps {s : State} {src : RegSrc} (ok : s.WriteOk .tideCtrl 0x40000000 src) (hservo : s.hostServo = true)
    (hv : s.tideVSigned.natAbs ≤ (s.rw .tideJumpLimit).toNat) (hset : s.tide.isSet = true) :
    ∃ u, s.OnlyTide u ∧ (u.loopJump s.tide64).Answers (s.writeBy src .tideCtrl 0x40000000) := by
  obtain ⟨u, hu, -, hans⟩ := State.writeBy_ok ok Reg.ofAddr_tideCtrl rfl
  have hrw (r : Reg) : u.rw r = s.rw r := by rw [State.rw, hu.regs, State.rw]
  have hservo' : u.hostServo = true := by rw [← hservo, State.hostServo, State.rwField, hrw, State.hostServo, State.rwField]
  have hv' : u.tideVSigned = s.tideVSigned := by rw [State.tideVSigned, State.tideV, hrw, hrw, State.tideVSigned, State.tideV]
  rw [State.writeReg_step hservo', hv', State.tideStep_applied (by rwa [hrw]) (by rwa [hu.tide])] at hans
  obtain ⟨x, hx, heq⟩ := State.stepped_jumps { u with tide := u.tide.shift s.tideVSigned } u.tide64 s.tideVSigned
  have htide : u.tide64 = s.tide64 := by rw [State.tide64, hu.tide, State.tide64]
  refine ⟨x, (hu.onlyTide.trans (u.withTide_onlyTide _)).trans hx, ?_⟩
  rw [← htide, ← heq]
  exact hans rfl

/-! ### What a latch changes -/

/-- Nothing changed but loops, pairs and the engine, and no slot latched. -/
structure State.OnlyLoops (s t : State) : Prop where
  rest : t = { s with loopEng := t.loopEng, loops := t.loops, pairs := t.pairs }
  latched : t.loopEng.latched = s.loopEng.latched

namespace State.OnlyLoops

variable {s t u : State}

theorem refl (s : State) : s.OnlyLoops s := ⟨rfl, rfl⟩

theorem trans (h : s.OnlyLoops t) (h' : t.OnlyLoops u) : s.OnlyLoops u where
  rest := by
    conv_lhs => rw [h'.rest]
    conv_lhs => rw [h.rest]
  latched := h'.latched.trans h.latched

theorem foldl {α : Type} {f : State → α → State} (hf : ∀ (s : State) x, s.OnlyLoops (f s x)) (l : List α) (s : State) : s.OnlyLoops (l.foldl f s) :=
  List.foldlRecOn (motive := s.OnlyLoops) l f (refl s) fun t ht x _ => ht.trans (hf t x)

theorem ite {b : Prop} [Decidable b] (h : s.OnlyLoops t) (h' : s.OnlyLoops u) : s.OnlyLoops (if b then t else u) := by
  split
  · exact h
  · exact h'

end State.OnlyLoops

section
variable (s : State)

theorem State.onLoop_onlyLoops (n : Nat) (f : LoopSt → LoopSt) : s.OnlyLoops (s.onLoop n f) := ⟨rfl, rfl⟩

theorem State.onPair_onlyLoops (p : Nat) (f : PairSt → PairSt) : s.OnlyLoops (s.onPair p f) := ⟨rfl, rfl⟩

theorem State.latch_onlyLoops (leader n ts : Nat) (starts : Bool) : s.OnlyLoops (s.latch leader n ts starts) := by
  unfold State.latch
  split
  · exact .refl s
  · exact (s.onLoop_onlyLoops _ _).trans (State.onPair_onlyLoops _ _ _)

theorem State.forgo_onlyLoops (u : Update) : s.OnlyLoops (s.forgo u) := by
  unfold State.forgo
  split
  · exact s.onLoop_onlyLoops _ _
  · exact .refl s

theorem State.latchIdle_onlyLoops (leader n ts : Nat) : s.OnlyLoops (s.latchIdle leader n ts) :=
  (s.onLoop_onlyLoops _ _).trans (State.forgo_onlyLoops _ _)

theorem State.egress_onlyLoops (leader ts state : Nat) (m : Int) : s.OnlyLoops (s.egress leader ts state m) := by
  unfold State.egress
  split
  · exact .refl s
  · exact ⟨rfl, rfl⟩

theorem State.haltedOut_onlyLoops (leader ts : Nat) : s.OnlyLoops (s.haltedOut leader ts) := by
  unfold State.haltedOut
  split
  · exact .refl s
  · exact (State.OnlyLoops.foldl (fun s n => s.onLoop_onlyLoops n _) _ s).trans (State.egress_onlyLoops _ _ _ _ _)

theorem State.latchGroup_onlyLoops (leader ts : Nat) : s.OnlyLoops (s.latchGroup leader ts) := by
  unfold State.latchGroup
  split
  · exact .refl s
  · have hidle := State.OnlyLoops.foldl (fun s n => s.latchIdle_onlyLoops leader n ts) (s.group leader) s
    exact .ite (.foldl (fun s n => s.latch_onlyLoops leader n ts _) _ s) (.ite (hidle.trans (State.haltedOut_onlyLoops _ _ _)) hidle)

end

/-! ### The sample instant of a slot -/

/-- A slot of the tick in progress noted as latched. -/
def State.tookSlot (s : State) (slot : Nat) : State := { s with loopEng := { s.loopEng with latched := s.loopEng.latched.ins slot } }

/-- A slot at its sample instant in tick `k`: once Tide64 is there, each group due latches. -/
def State.latchSlot (s : State) (slot k : Nat) : State :=
  if !s.loopRuns || s.loopEng.latched.has slot || s.tide64 < k * 15625 + 102 * slot then s
  else (s.dueLeaders k slot).foldl (fun s n => s.latchGroup n (k * 15625 + 102 * slot)) (s.tookSlot slot)

section
variable {s : State} {slot : Fin 153} {k : Nat} (htick : s.loopEng.tick = some k) (hruns : s.loopRuns = true)
include htick

theorem exec_sampleLatch : exec (.sampleLatch slot) s = .next (s.latchSlot slot.val k) := by
  change Host.Outcome.next (match s.loopEng.tick with | none => s | some k => s.latchSlot slot.val k) = _
  rw [htick]

include hruns

theorem exec_sampleLatch_stays (h : s.loopEng.latched.has slot.val = true ∨ s.tide64 < k * 15625 + 102 * slot.val) :
    exec (.sampleLatch slot) s = .next s := by
  rw [exec_sampleLatch htick, State.latchSlot, if_pos (by simpa [hruns] using h)]

theorem exec_sampleLatch_due (hnew : s.loopEng.latched.has slot.val = false) (hdue : k * 15625 + 102 * slot.val ≤ s.tide64) :
    exec (.sampleLatch slot) s
      = .next ((s.dueLeaders k slot.val).foldl (fun s n => s.latchGroup n (k * 15625 + 102 * slot.val)) (s.tookSlot slot.val)) := by
  rw [exec_sampleLatch htick, State.latchSlot, if_neg (by simp [hruns, hnew, hdue])]

end

/-! ### The update that becomes due -/

/-- An update stands behind re-runs and those of its instant and earlier, and ahead of those of a later instant (R323). -/
theorem addDue_between (u : Update) (l : List Update) :
    ∃ a b, l = a ++ b ∧ addDue u l = a ++ u :: b ∧ (∀ v ∈ a, v.tries ≠ 0 ∨ v.ts ≤ u.ts) ∧ ∀ v c, b = v :: c → v.tries = 0 ∧ u.ts < v.ts := by
  induction l with
  | nil => exact ⟨[], [], rfl, rfl, fun _ h => absurd h List.not_mem_nil, fun _ _ h => by cases h⟩
  | cons x r ih =>
    unfold addDue
    split
    case isTrue h =>
      refine ⟨[], x :: r, rfl, rfl, fun _ h => absurd h List.not_mem_nil, ?_⟩
      rintro v c ⟨⟩
      simpa using h
    case isFalse h =>
      obtain ⟨a, b, hl, hadd, ha, hb⟩ := ih
      refine ⟨x :: a, b, by rw [hl, List.cons_append], by rw [hadd, List.cons_append], List.forall_mem_cons.mpr ⟨?_, ha⟩, hb⟩
      by_cases hz : x.tries = 0
      · exact .inr (by simpa [hz] using h)
      · exact .inl hz

/-- A loop's latch: its update takes the hand-offs and host writes due at T_s, and the loop keeps the others (R322, R346, R348, R350). -/
theorem State.latch_due {s : State} {n : Nat} {w : LoopCfg} (hcfg : s.loopCfg n = some w) (leader ts : Nat) (starts : Bool) :
    ∃ (u : Update) (l : LoopSt), s.latch leader n ts starts = (s.onLoop n (fun _ => l)).onPair w.pipe (fun p => { p with due := addDue u p.due })
      ∧ (u.loop = n ∧ u.leader = leader ∧ u.ts = ts ∧ u.at' = s.nclk ∧ u.start = starts)
      ∧ u.hoffs = (s.loop n).hoff.filter (fun h => h.at' + 256 ≤ ts) ∧ l.on = true ∧ l.hoff = (s.loop n).hoff.filter (fun h => ts < h.at' + 256) := by
  unfold State.latch
  rw [hcfg]
  exact ⟨_, _, rfl, ⟨rfl, rfl, rfl, rfl, rfl⟩, rfl, rfl, rfl⟩

/-- A group of one loop is its leader. -/
theorem State.group_alone {s : State} {n : Nat} {w : LoopCfg} (hcfg : s.loopCfg n = some w) (hone : w.group = 1) : s.group n = [n] := by
  unfold State.loopCfg at hcfg
  unfold State.group
  cases himage : s.sec.image with
  | none => rw [himage] at hcfg; cases hcfg
  | some im =>
    rw [himage] at hcfg
    dsimp only at hcfg ⊢
    rw [hcfg]
    dsimp only
    rw [hone]
    rfl

/-- An enabled loop of its own group latches on a pair that runs. -/
theorem State.latchGroup_alone {s : State} {n ts e : Nat} {w : LoopCfg} (hcfg : s.loopCfg n = some w) (hone : w.group = 1)
    (hen : (s.loop n).en = some e) (hstarted : (s.loop n).on = true ∨ e + 256 ≤ ts) (hup : (s.pair w.pipe).halted = false) :
    s.latchGroup n ts = s.latch n n ts (!(s.loop n).on) := by
  have henabled : ((s.loop n).on || decide (e + 256 ≤ ts)) = true := by simpa using hstarted
  unfold State.latchGroup
  rw [hcfg]
  simp only [hen, henabled, hup, s.group_alone hcfg hone, Bool.not_false, Bool.and_self, if_true, List.foldl_cons, List.foldl_nil]

/-- Settles O43: the ticks by what a step of Tide does to them; a slot's latch by the frame of its groups, and of one loop by its update's place
among those due. -/
theorem loopTicksAndLatches : Obligations.LoopTicksAndLatches := by
  refine ⟨fun s => ⟨fun hruns => ⟨exec_loopTick_runs hruns, fun ⟨l, hlast, hran⟩ => exec_loopTick_ran hlast hran⟩,
    fun src ok hservo hv hset => ?step⟩, fun s slot k hruns htick => ⟨exec_sampleLatch_stays htick hruns, fun hnew hdue => ⟨?frame, ?loop⟩⟩⟩
  case step =>
    obtain ⟨u, hu, hans⟩ := State.step_jumps ok hservo hv hset
    have htide : (s.writeBy src .tideCtrl 0x40000000).tide64 = u.tide64 := by rw [State.tide64, hans.tide, u.loopJump_tide, State.tide64]
    refine ⟨_, rfl, fun hstopped => ?_, fun hruns hmoved => ?_⟩
    · rw [hans.loopEng, State.loopJump_of_stopped (hu.loopRuns.trans hstopped), hu.loopEng]
    · rw [htide] at hmoved ⊢
      have heng : (s.writeBy src .tideCtrl 0x40000000).loopEng = s.loopEng.jumped (s.tide64 / 15625) (u.tide64 / 15625) := by
        rw [hans.loopEng, State.loopJump_loopEng (hu.loopRuns.trans hruns) hmoved, hu.loopEng]
      rw [heng, LoopEng.jumped]
      refine ⟨by split <;> rfl, fun hback => if_neg (Nat.not_lt.mpr hback), fun hforth => ?_⟩
      rw [if_pos hforth]
      refine ⟨rfl, _, rfl, ?_, fun l hlast => ?_⟩
      · cases s.loopEng.last with
        | none => exact le_rfl
        | some l => exact le_max_right _ _
      · rw [hlast]
        exact le_max_left _ _
  case frame =>
    have honly := State.OnlyLoops.foldl (fun s n => s.latchGroup_onlyLoops n (k * 15625 + 102 * slot.val)) (s.dueLeaders k slot.val)
      (s.tookSlot slot.val)
    exact ⟨_, exec_sampleLatch_due htick hruns hnew hdue, honly.latched, honly.rest⟩
  case loop =>
    intro n w e hleaders hcfg hone hen hstarted hup
    have hexec := exec_sampleLatch_due htick hruns hnew hdue
    rw [hleaders, List.foldl_cons, List.foldl_nil, State.latchGroup_alone (s := s.tookSlot slot.val) hcfg hone hen hstarted hup] at hexec
    obtain ⟨u, l, hlatch, ⟨hloop, hleader, hts, hat, hstart⟩, hhoffs, hon, hkept⟩ :=
      State.latch_due (s := s.tookSlot slot.val) hcfg n (k * 15625 + 102 * slot.val) (!((s.tookSlot slot.val).loop n).on)
    obtain ⟨a, b, hold, hadd, ha, hb⟩ := addDue_between u (s.pair w.pipe).due
    have hafter : (((s.tookSlot slot.val).onLoop n (fun _ => l)).onPair w.pipe (fun p => { p with due := addDue u p.due })).loop n = l :=
      State.onLoop_loop (s.tookSlot slot.val) n (fun _ => l)
    refine ⟨_, u, a, b, hexec, hold, ?_, ha, hb, hloop, hleader, hts, hat, hstart, hhoffs, ?_, ?_⟩
    · rw [hlatch, State.onPair_pair]
      exact hadd
    · rw [hlatch, hafter, hon]
    · rw [hlatch, hafter, hkept, hhoffs]
      intro h hmem
      have hlate : k * 15625 + 102 * slot.val < h.at' + 256 := by simpa using List.of_mem_filter hmem
      exact ⟨List.mem_of_mem_filter hmem, fun hdue => absurd hlate (Nat.not_lt.mpr (by simpa using List.of_mem_filter hdue))⟩

end Sys2Proof.Machine
end

section
/-!
PROOF. Updates of a loop on its pipeline pair (R323, R351, R352): issue, the comparison of the two pipelines, and the known-answer test.
-/

namespace Sys2Proof.Machine

/-! ### Issue -/

/-- A change of a pair is none of a loop, or of its wiring. -/
@[simp] theorem State.onPair_loop (s : State) (p : Nat) (f : PairSt → PairSt) (n : Nat) : (s.onPair p f).loop n = s.loop n := rfl

@[simp] theorem State.onPair_loopCfg (s : State) (p : Nat) (f : PairSt → PairSt) (n : Nat) : (s.onPair p f).loopCfg n = s.loopCfg n := rfl

section
variable {s : State} {p : Fin 4} {u : Update} {r : List Update} (hdue : (s.pair p.val).due = u :: r)
include hdue

theorem exec_updateIssue_issues (hruns : s.loopRuns = true) (hkat : (s.pair p.val).kat = none) (hup : (s.pair p.val).halted = false)
    (hfree : ∀ a, (s.pair p.val).issuedAt = some a → a + 56 ≤ s.nclk) (hlatched : u.at' + 16 ≤ s.nclk) :
    exec (.updateIssue p) s
      = .next (s.onPair p.val (fun x => { x with due := r, flight := x.flight ++ [(u, s.nclk)], issuedAt := some s.nclk })) := by
  change execUpdateIssue p s = _
  unfold execUpdateIssue
  dsimp only
  cases hissued : (s.pair p.val).issuedAt with
  | none => simp only [hdue, hruns, hlatched, hkat, hup, decide_true, Option.isNone_none, Bool.not_false, Bool.and_self, if_true]
  | some a =>
    simp only [hdue, hruns, hfree a hissued, hlatched, hkat, hup, decide_true, Option.isNone_none, Bool.not_false, Bool.and_self, if_true]

theorem exec_updateIssue_early (h : s.nclk < u.at' + 16 ∨ ∃ a, (s.pair p.val).issuedAt = some a ∧ s.nclk < a + 56) :
    exec (.updateIssue p) s = .next s := by
  change execUpdateIssue p s = _
  unfold execUpdateIssue
  dsimp only
  rw [hdue]
  dsimp only
  obtain hlatched | ⟨a, hissued, hpace⟩ := h
  · rw [if_neg (by simp [hlatched])]
  · rw [hissued, if_neg (by simp [hpace])]

end

/-! ### What the end of an update changes -/

/-- Nothing changed outside the loop engine but the logs, free values and poison, and what is sent. -/
def State.InEngine (s t : State) : Prop :=
  s.Sends { t with loops := s.loops, pairs := s.pairs, traces := s.traces, loopEng := s.loopEng, logs := s.logs, free := s.free,
                   poison := s.poison, ready := s.ready }

namespace State.InEngine

variable {s t u : State}

theorem refl (s : State) : s.InEngine s := State.Sends.refl s

theorem trans (h : s.InEngine t) (h' : t.InEngine u) : s.InEngine u :=
  State.Sends.trans h (State.Sends.map h' fun x => { x with
    loops := s.loops, pairs := s.pairs, traces := s.traces, loopEng := s.loopEng, logs := s.logs, free := s.free, poison := s.poison, ready := s.ready })

theorem of_sends (h : s.Sends t) : s.InEngine t := h.map fun x => { x with
  loops := s.loops, pairs := s.pairs, traces := s.traces, loopEng := s.loopEng, logs := s.logs, free := s.free, poison := s.poison, ready := s.ready }

theorem mem (h : s.InEngine t) : t.mem = s.mem := (congrArg State.mem (State.Sends.rest h)).trans rfl
theorem regs (h : s.InEngine t) : t.regs = s.regs := (congrArg State.regs (State.Sends.rest h)).trans rfl
theorem queues (h : s.InEngine t) : t.queues = s.queues := (congrArg State.queues (State.Sends.rest h)).trans rfl
theorem jobs (h : s.InEngine t) : t.jobs = s.jobs := (congrArg State.jobs (State.Sends.rest h)).trans rfl
theorem cores (h : s.InEngine t) : t.cores = s.cores := (congrArg State.cores (State.Sends.rest h)).trans rfl

end State.InEngine

theorem State.OnlyLoops.inEngine {s t : State} (h : s.OnlyLoops t) : s.InEngine t := by
  rw [h.rest]
  exact .refl s

/-- A state reached inside the engine in which no pair, no READY bit and no loop's last T_s has changed. -/
structure State.Finishes (s t : State) : Prop where
  inEngine : s.InEngine t
  pairs : t.pairs = s.pairs
  ready : t.ready = s.ready
  ran : ∀ n, (t.loop n).ran = (s.loop n).ran

namespace State.Finishes

variable {s t u : State}

theorem refl (s : State) : s.Finishes s := ⟨.refl s, rfl, rfl, fun _ => rfl⟩

theorem trans (h : s.Finishes t) (h' : t.Finishes u) : s.Finishes u :=
  ⟨h.inEngine.trans h'.inEngine, h'.pairs.trans h.pairs, h'.ready.trans h.ready, fun n => (h'.ran n).trans (h.ran n)⟩

theorem foldl {α : Type} {f : State → α → State} (hf : ∀ (s : State) x, s.Finishes (f s x)) (l : List α) (s : State) : s.Finishes (l.foldl f s) :=
  List.foldlRecOn (motive := s.Finishes) l f (refl s) fun t ht x _ => ht.trans (hf t x)

theorem ite {b : Prop} [Decidable b] (h : s.Finishes t) (h' : s.Finishes u) : s.Finishes (if b then t else u) := by
  split
  · exact h
  · exact h'

theorem pair (h : s.Finishes t) (p : Nat) : t.pair p = s.pair p := by rw [State.pair, h.pairs, State.pair]

theorem loopReady (h : s.Finishes t) : t.loopReady = s.loopReady := by rw [State.loopReady, h.ready, State.loopReady]

end State.Finishes

theorem State.Sends.finishes {s t : State} (h : s.Sends t) : s.Finishes t :=
  ⟨.of_sends h, h.pairs, h.ready, fun n => by rw [State.loop, h.loops, State.loop]⟩

section
variable (s : State)

theorem State.onLoop_finishes (n : Nat) {f : LoopSt → LoopSt} (hf : (f (s.loop n)).ran = (s.loop n).ran) : s.Finishes (s.onLoop n f) := by
  refine ⟨.refl s, rfl, rfl, fun m => ?_⟩
  by_cases h : m = n
  · rw [h, State.onLoop_loop, hf]
  · rw [State.onLoop_loop_ne _ _ _ _ h]

theorem State.loopSet_finishes (n : Nat) (w : Word) : s.Finishes (s.loopSet n w) :=
  (State.note_sends _ _ (.refl s)).finishes.trans (State.onLoop_finishes _ n rfl)

theorem State.bump_finishes (c : Ctr) : s.Finishes (s.bump c) := (State.bump_sends c (.refl s)).finishes

theorem State.event_finishes (kind subject : Nat) (body : List Byte) : s.Finishes (s.event kind subject body) :=
  (State.event_sends kind subject body (.refl s)).finishes

/-- A report to the chip log is in the log, and the rest is sending. -/
theorem State.report_chip_sends (cls : EClass) (source unit info detail : Nat) :
    s.Sends { s.report .chip cls source unit info detail with logs := s.logs } := by
  rw [State.report_chip]
  exact s.toLog_sends .chip _

theorem State.report_chip_finishes (cls : EClass) (source unit info detail : Nat) : s.Finishes (s.report .chip cls source unit info detail) := by
  have h := s.report_chip_sends cls source unit info detail
  exact ⟨h.map fun x => { x with
    loops := s.loops, pairs := s.pairs, traces := s.traces, loopEng := s.loopEng, free := s.free, poison := s.poison, ready := s.ready },
    h.pairs, h.ready, fun n => congrArg (fun m : SMap LoopSt => (m.getD n {}).ran) h.loops⟩

theorem State.takeFree_finishes (w : Nat) : s.Finishes (s.takeFree w).2 := ⟨.refl s, rfl, rfl, fun _ => rfl⟩

theorem State.onTrace_finishes (n : Nat) (f : TraceSt → TraceSt) : s.Finishes (s.onTrace n f) := ⟨.refl s, rfl, rfl, fun _ => rfl⟩

theorem State.egress_finishes (leader ts state : Nat) (m : Int) : s.Finishes (s.egress leader ts state m) := by
  unfold State.egress
  split
  · exact .refl s
  · exact ⟨.refl s, rfl, rfl, fun _ => rfl⟩

theorem State.haltedOut_finishes (leader ts : Nat) : s.Finishes (s.haltedOut leader ts) := by
  unfold State.haltedOut
  split
  · exact .refl s
  · exact (State.Finishes.foldl (fun s n => s.onLoop_finishes n rfl) _ s).trans (State.egress_finishes _ _ _ _ _)

/-! ### Traces -/

theorem State.closePage_finishes (n loop : Nat) : s.Finishes (s.closePage n loop) :=
  .ite (.refl s) ((s.takeFree_finishes (8 * (4096 - (s.trace n).page.length))).trans (State.onTrace_finishes _ _ _))

theorem State.putRec_finishes (n loop : Nat) (r : List Byte) : s.Finishes (s.putRec n loop r) := by
  unfold State.putRec
  dsimp only
  have hroom := State.Finishes.ite (b := 4096 < (s.trace n).page.length + r.length) (s.closePage_finishes n loop) (.refl s)
  have hput := hroom.trans (State.onTrace_finishes _ n (fun t => { t with page := t.page ++ r, recs := t.recs + 1 }))
  exact .ite (hroom.trans (State.bump_finishes _ _)) (.ite (hput.trans (State.closePage_finishes _ _ _)) hput)

theorem State.trigger_finishes (n : Nat) : s.Finishes (s.trigger n) :=
  .ite (.refl s) ((s.onTrace_finishes n _).trans (.foldl (fun t r => t.putRec_finishes n _ r) _ _))

theorem State.traceUpdate_finishes (n loop ts : Nat) (w wl : LoopCfg) (l lead : LoopSt) (tripped : Bool) :
    s.Finishes (s.traceUpdate n loop ts w wl l lead tripped) := by
  unfold State.traceUpdate
  dsimp only
  have htrig := State.Finishes.ite (b := (s.rwField (.traceCtrl n) 30 29 = 1 && tripped) = true) (s.trigger_finishes n) (.refl s)
  exact .ite (.ite (htrig.trans (State.putRec_finishes _ _ _ _)) (htrig.trans (State.onTrace_finishes _ _ _))) (.refl s)

/-! ### The end of a group -/

/-- A group's output leaves the leader's last T_s, whether it is repeated or new. -/
theorem groupOut_ran (w : LoopCfg) (lead : LoopSt) (ufs : List Rat) (acts : List Nat) (k : Nat) :
    (if lead.hold then ({ lead with hold := false }, 1, k, true) else groupOut w lead ufs acts).1.ran = lead.ran := by
  split <;> rfl

theorem State.finishGroup_finishes (leader ts : Nat) : s.Finishes (s.finishGroup leader ts) := by
  unfold State.finishGroup
  split
  · exact .refl s
  · dsimp only
    refine .trans (.ite (.trans ?histories (State.egress_finishes _ _ _ _ _)) ?histories)
      (.foldl (fun t n => .foldl (fun t k => t.traceUpdate_finishes _ _ _ _ _ _ _ _) _ t) _ _)
    refine ((s.onLoop_finishes leader (groupOut_ran _ _ _ _ _)).trans (State.loopSet_finishes _ _ _)).trans (.foldl (fun t x => ?_) _ _)
    exact .ite (t.onLoop_finishes x.2 rfl) ((t.onLoop_finishes x.2 rfl).trans (State.loopSet_finishes _ _ _))

end

/-! ### A passed update -/

/-- A state reached inside the engine, its pairs as they were, in which a loop has run its update of T_s. -/
structure State.Runs (u : Update) (s t : State) : Prop where
  inEngine : s.InEngine t
  pairs : t.pairs = s.pairs
  ran : (t.loop u.loop).ran = some u.ts

theorem State.Runs.finish {s t t' : State} {u : Update} (h : s.Runs u t) (h' : t.Finishes t') : s.Runs u t' :=
  ⟨h.inEngine.trans h'.inEngine, h'.pairs.trans h.pairs, (h'.ran _).trans h.ran⟩

/-- A loop's states written with the T_s of its update. -/
theorem State.Finishes.runs {s t : State} (h : s.Finishes t) {u : Update} {l : LoopSt} (hl : l.ran = some u.ts) :
    s.Runs u (t.onLoop u.loop (fun _ => l)) :=
  ⟨h.inEngine.trans (.refl _), h.pairs, by rw [State.onLoop_loop, hl]⟩

section
variable (s : State) (w wl : LoopCfg) (u : Update)

theorem State.runUpdate_finishes : s.Finishes (s.runUpdate w wl u).2 := .ite (s.takeFree_finishes 24) (.refl s)

theorem State.postFlags_finishes (n : Nat) (was : Bool) : s.Finishes (s.postFlags n was) :=
  .ite ((s.loopSet_finishes _ _).trans (State.event_finishes _ _ _ _)) (s.loopSet_finishes _ _)

theorem State.withPoison_finishes (x : NSet) : s.Finishes { s with poison := x } := ⟨.refl s, rfl, rfl, fun _ => rfl⟩

theorem State.poisonUpdate_runs : s.Runs u (s.poisonUpdate w wl u) := by
  unfold State.poisonUpdate
  dsimp only
  refine State.Runs.finish ?_ (((((State.loopSet_finishes _ u.loop _).trans (State.onLoop_finishes _ u.leader rfl)).trans
    (State.withPoison_finishes _ _)).trans (State.report_chip_finishes _ _ _ _ _ _)).trans (State.event_finishes _ _ _ _))
  exact (State.Finishes.ite (s.takeFree_finishes 24) (.refl s)).runs rfl

end

/-- A passed update has run (R351). -/
theorem State.passUpdate_runs {s : State} {w wl : LoopCfg} {u : Update} (hw : s.loopCfg u.loop = some w) (hwl : s.loopCfg u.leader = some wl) :
    s.Runs u (s.passUpdate u) := by
  unfold State.passUpdate
  rw [hw, hwl]
  dsimp only
  refine State.Runs.finish ?_ (.ite (State.finishGroup_finishes _ _ _) (.refl _))
  split
  · exact s.poisonUpdate_runs w wl u
  · exact ((s.runUpdate_finishes w wl u).runs rfl).finish (State.postFlags_finishes _ _ _)

/-! ### A pair that halts -/

theorem State.setReady_inEngine (s : State) (k : Nat) (v : Bool) : s.InEngine (s.setReady k v) := by
  obtain ⟨w, h⟩ := s.setReady_sends k v
  exact State.InEngine.trans (t := { s with ready := w }) (.refl s) (.of_sends h)

theorem State.setReady_pair (s : State) (k : Nat) (v : Bool) (p : Nat) : (s.setReady k v).pair p = s.pair p :=
  congrArg (fun m : SMap PairSt => m.getD p {}) ((s.setReady_sends k v).elim fun _ h => h.pairs)

/-- A pair halted: of its lost updates only the hand-offs and restarts take effect, and the loop engine is no longer READY (R352, R353). -/
def State.givenUp (s : State) (p : Nat) (lost : List Update) : State :=
  ((lost.foldl State.forgo s).onPair p (fun x => { x with halted := true, kat := none, due := [], flight := [] })).setReady 5 false

/-- A halted pair is told, and the groups of the updates it gave up repeat their output or take SAFE_OUT (R352). -/
theorem State.haltPair_finishes (s : State) (p : Nat) (us : List Update) :
    (s.givenUp p (us ++ (s.pair p).flight.map Prod.fst ++ (s.pair p).due)).Finishes (s.haltPair p us) := by
  unfold State.haltPair
  exact ((State.report_chip_finishes _ _ _ _ _ _).trans (State.event_finishes _ _ _ _)).trans
    (.foldl (fun t v => .ite (t.haltedOut_finishes _ _) (.refl t)) _ _)

theorem State.haltPair_inEngine (s : State) (p : Nat) (us : List Update) : s.InEngine (s.haltPair p us) := by
  have hforgo := State.OnlyLoops.foldl State.forgo_onlyLoops (us ++ (s.pair p).flight.map Prod.fst ++ (s.pair p).due) s
  exact (((hforgo.trans (State.onPair_onlyLoops _ p _)).inEngine.trans (State.setReady_inEngine _ 5 false))).trans (s.haltPair_finishes p us).inEngine

theorem State.haltPair_pair (s : State) (p : Nat) (us : List Update) :
    ∃ x : PairSt, (s.haltPair p us).pair p = { x with halted := true, kat := none, due := [], flight := [] } := by
  rw [(s.haltPair_finishes p us).pair, State.givenUp, State.setReady_pair, State.onPair_pair]
  exact ⟨_, rfl⟩

theorem State.haltPair_loopReady (s : State) (p : Nat) (us : List Update) : (s.haltPair p us).loopReady = false :=
  (s.haltPair_finishes p us).loopReady.trans (State.setReady_getLsbD _ (by decide) false)

/-! ### The comparison -/

/-- A disagreement counted, its loop's LOCKSTEP set and the report made (R351). -/
def State.mismatched (s : State) (p : Nat) (u : Update) : State :=
  (if ((s.bump .loopMismatch).loopCfg u.loop).isSome then (s.bump .loopMismatch).loopSet u.loop (stBit 29)
    else s.bump .loopMismatch).report .chip .ucm 0x0E (p * 16 + 15) 0 0

/-- An update that the pipelines disagree on: it is issued again, waits for a known-answer test, or halts the pair (R351, R352). -/
def State.retried (s : State) (p : Nat) (u : Update) : State :=
  match u.tries with
  | 0 => s.onPair p (fun x => { x with due := { u with tries := u.tries + 1 } :: x.due })
  | 1 => s.onPair p (fun x => { x with kat := some (match x.kat with
      | none => ([{ u with tries := u.tries + 1 }], s.nclk)
      | some (us, t) => (us ++ [{ u with tries := u.tries + 1 }], t)) })
  | _ => s.haltPair p [u]

section
variable {s : State} {p : Fin 4} {u : Update} {at' : Nat} {r : List (Update × Nat)} (hflight : (s.pair p.val).flight = (u, at') :: r)
include hflight

theorem exec_updateCompare_early (h : s.nclk < at' + 448) (agree : Bool) : exec (.updateCompare p agree) s = .next s := by
  change execUpdateCompare p agree s = _
  unfold execUpdateCompare
  dsimp only
  rw [hflight]
  dsimp only
  rw [if_pos (by simp [h])]

variable (hruns : s.loopRuns = true) (hdue : at' + 448 ≤ s.nclk)
include hruns hdue

theorem exec_updateCompare_passes {agree : Bool} (h : agree = true ∨ (s.pair p.val).simplex = true) :
    exec (.updateCompare p agree) s = .next ((s.onPair p.val (fun x => { x with flight := r })).passUpdate u) := by
  change execUpdateCompare p agree s = _
  unfold execUpdateCompare
  dsimp only
  rw [hflight]
  dsimp only
  rw [if_neg (by simp [hruns, hdue]), if_pos (by simpa using h)]

theorem exec_updateCompare_differs (h : (s.pair p.val).simplex = false) :
    exec (.updateCompare p false) s = .next (((s.onPair p.val (fun x => { x with flight := r })).mismatched p.val u).retried p.val u) := by
  change execUpdateCompare p false s = _
  unfold execUpdateCompare
  dsimp only
  rw [hflight]
  dsimp only
  rw [if_neg (by simp [hruns, hdue]), if_neg (by simp [h])]
  rfl

end

/-! ### A disagreement -/

/-- LOCKSTEP set in the status of a loop that the image has (R351). -/
def State.flagged (s : State) (n : Nat) : State :=
  if (s.loopCfg n).isSome then s.onLoop n (fun l => { l with status := putBit l.status 29 true }) else s

theorem State.flagged_loop (s : State) (n : Nat) : (s.flagged n).loop n
    = if (s.loopCfg n).isSome then { s.loop n with status := putBit (s.loop n).status 29 true } else s.loop n := by
  unfold State.flagged
  split
  · exact s.onLoop_loop n _
  · rfl

theorem State.flagged_loop_ne (s : State) {n m : Nat} (h : m ≠ n) : (s.flagged n).loop m = s.loop m := by
  unfold State.flagged
  split
  · exact s.onLoop_loop_ne n _ m h
  · rfl

/-- A disagreement changes its loop's status, and the rest is counting, reporting and sending. -/
theorem State.mismatched_sends (s : State) (p : Nat) (u : Update) :
    ∃ x, (s.flagged u.loop).Sends x ∧ x.Sends { s.mismatched p u with logs := x.logs } := by
  have hbump := State.bump_sends .loopMismatch (.refl s)
  have hcfg : (s.bump .loopMismatch).loopCfg u.loop = s.loopCfg u.loop := by rw [State.loopCfg, hbump.sec, State.loopCfg]
  unfold State.mismatched
  refine ⟨_, ?_, State.report_chip_sends _ .ucm 0x0E (p * 16 + 15) 0 0⟩
  rw [hcfg, State.flagged]
  split
  · have hset : (s.bump .loopMismatch).loopSet u.loop (stBit 29)
        = { (s.bump .loopMismatch).note (.loopSts u.loop) (· ||| (stBit 29).toNat) with
            loops := (s.onLoop u.loop (fun l => { l with status := putBit l.status 29 true })).loops } := by
      unfold State.loopSet State.onLoop State.note State.loop
      rw [hbump.loops]
      rfl
    rw [hset]
    exact (State.note_sends _ _ hbump).map fun x => { x with loops := (s.onLoop u.loop (fun l => { l with status := putBit l.status 29 true })).loops }
  · exact hbump

/-- What a disagreement leaves, before its update is issued again: its loop's LOCKSTEP is set, and nothing else is in the state but what is counted,
logged and sent. -/
structure State.OnlyFlagged (s t : State) (n : Nat) : Prop where
  loops : t.loops = (s.flagged n).loops
  sends : s.Sends { t with loops := s.loops, logs := s.logs }

theorem State.mismatched_onlyFlagged (s : State) (p : Nat) (u : Update) : s.OnlyFlagged (s.mismatched p u) u.loop := by
  obtain ⟨x, hx, hlog⟩ := s.mismatched_sends p u
  have hsame : s.flagged u.loop = { s with loops := (s.flagged u.loop).loops } := by
    unfold State.flagged
    split <;> rfl
  refine ⟨hlog.loops.trans hx.loops, ?_⟩
  have hx' := hx.map fun x => { x with loops := s.loops, logs := s.logs }
  rw [hsame] at hx'
  exact hx'.trans (hlog.map fun x => { x with loops := s.loops, logs := s.logs })

/-- A pair's update that is to run again: ahead of those due, or with the updates that wait for the known-answer test (R351, R352). -/
def PairSt.retry (x : PairSt) (u : Update) (now : Nat) : PairSt :=
  if u.tries = 0 then { x with due := { u with tries := 1 } :: x.due }
  else { x with kat := some (match x.kat with
    | none => ([{ u with tries := 2 }], now)
    | some (us, b) => (us ++ [{ u with tries := 2 }], b)) }

theorem State.retried_of_le (s : State) (p : Nat) {u : Update} (h : u.tries ≤ 1) : s.retried p u = s.onPair p (fun x => x.retry u s.nclk) := by
  unfold State.retried PairSt.retry
  obtain h0 | h1 := Nat.le_one_iff_eq_zero_or_eq_one.mp h
  · rw [h0]
    rfl
  · rw [h1]
    rfl

theorem State.retried_of_two_le (s : State) (p : Nat) {u : Update} (h : 2 ≤ u.tries) : s.retried p u = s.haltPair p [u] := by
  obtain ⟨k, hk⟩ := Nat.exists_eq_add_of_le h
  rw [State.retried, hk, Nat.add_comm 2 k]
  rfl

namespace State.OnlyFlagged

variable {s t : State} {n : Nat}

theorem loop (h : s.OnlyFlagged t n) (m : Nat) : t.loop m = (s.flagged n).loop m := by rw [State.loop, h.loops, State.loop]

theorem nclk (h : s.OnlyFlagged t n) : t.nclk = s.nclk := h.sends.nclk

theorem pair (h : s.OnlyFlagged t n) (p : Nat) : t.pair p = s.pair p := congrArg (fun m : SMap PairSt => m.getD p {}) h.sends.pairs

theorem inEngine (h : s.OnlyFlagged t n) : s.InEngine t := h.sends.map fun x => { x with
  pairs := s.pairs, traces := s.traces, loopEng := s.loopEng, free := s.free, poison := s.poison, ready := s.ready }

end State.OnlyFlagged

/-! ### The known-answer test -/

/-- A pair at the end of a known-answer test that a pipeline passed: its updates run first, unchecked where the other one failed (R352). -/
def PairSt.tested (x : PairSt) (us : List Update) (one : Bool) : PairSt :=
  { x with kat := none, due := us ++ x.due, simplex := x.simplex || one }

/-- READY of the loop engine cleared and a report made, where a pipeline failed its test (R352, R353). -/
def State.lostPipeline (s : State) (p : Nat) (one : Bool) : State :=
  if one then (s.setReady 5 false).report .chip .ucm 0x0F (p * 16 + 15) 0 0 else s

theorem State.pairEvent_sends (s : State) (p : Nat) : s.Sends (s.pairEvent p) := State.event_sends _ _ _ (.refl s)

section
variable {s : State} {p : Fin 4} {us : List Update} {at' : Nat} (hruns : s.loopRuns = true) (hkat : (s.pair p.val).kat = some (us, at'))
  (hdue : at' + 448 ≤ s.nclk)
include hruns hkat hdue

theorem exec_lockstepKatDone_passes {a b : Bool} (h : a = true ∨ b = true) : exec (.lockstepKatDone p a b) s
    = .next (((s.onPair p.val (fun x => x.tested us (!(a && b)))).lostPipeline p.val (!(a && b))).pairEvent p.val) := by
  change execLockstepKatDone p a b s = _
  unfold execLockstepKatDone
  rw [hkat]
  dsimp only
  rw [if_neg (by simp [hruns, hdue]), if_neg (by simpa [Decidable.or_iff_not_imp_left] using h)]
  rfl

theorem exec_lockstepKatDone_fails : exec (.lockstepKatDone p false false) s = .next (s.haltPair p.val us) := by
  change execLockstepKatDone p false false s = _
  unfold execLockstepKatDone
  rw [hkat]
  dsimp only
  rw [if_neg (by simp [hruns, hdue]), if_pos (by decide)]

end

theorem State.lostPipeline_sends (s : State) (p : Nat) (one : Bool) : s.Sends { s.lostPipeline p one with ready := s.ready, logs := s.logs } := by
  unfold State.lostPipeline
  split
  · obtain ⟨w, hready⟩ := s.setReady_sends 5 false
    have hlog := (s.setReady 5 false).report_chip_sends .ucm 0x0F (p * 16 + 15) 0 0
    exact (hready.map fun x => { x with ready := s.ready, logs := s.logs }).trans (hlog.map fun x => { x with ready := s.ready, logs := s.logs })
  · exact .refl s

theorem State.lostPipeline_loopReady (s : State) (p : Nat) : (s.lostPipeline p true).loopReady = false :=
  (State.report_chip_finishes (s.setReady 5 false) _ _ _ _ _).loopReady.trans (State.setReady_getLsbD s (by decide) false)

/-- Settles O44: an update that passes has run, by what the end of an update changes; one that does not is retried in a state that the disagreement
has only flagged, or halts the pair; and so do the updates of a known-answer test. -/
theorem loopUpdates : Obligations.LoopUpdates := by
  refine ⟨fun s p u r hruns hdue hkat hup => ⟨fun hfree hlatched => ?issue, exec_updateIssue_early hdue⟩,
    fun s p u at' r hruns hflight => ⟨exec_updateCompare_early hflight, fun hdue => ⟨?passes, ?retries, ?halts⟩⟩,
    fun s p us at' a b hruns hkat hdue => ⟨fun h => ?tested, ?failed⟩⟩
  case issue =>
    refine ⟨_, exec_updateIssue_issues hdue hruns hkat hup hfree hlatched, ?_, fun q hq => State.onPair_pair_ne _ _ _ q hq, rfl⟩
    exact State.onPair_pair _ _ _
  case passes =>
    rintro agree ⟨w, wl, hw, hwl⟩ h
    have hpass := State.passUpdate_runs (s := s.onPair p.val (fun x => { x with flight := r })) hw hwl
    refine ⟨_, exec_updateCompare_passes hflight hruns hdue h, ?_, hpass.ran, hpass.inEngine.mem, hpass.inEngine.regs, hpass.inEngine.queues,
      hpass.inEngine.jobs, hpass.inEngine.cores⟩
    rw [State.pair, hpass.pairs]
    exact congrArg PairSt.flight (s.onPair_pair p.val _)
  case retries =>
    intro hboth htries
    have hflag := (s.onPair p.val (fun x => { x with flight := r })).mismatched_onlyFlagged p.val u
    have hexec := exec_updateCompare_differs hflight hruns hdue hboth
    rw [State.retried_of_le _ _ htries, hflag.nclk] at hexec
    refine ⟨_, hexec, ?_, ?_, fun n hn => ?_, hflag.sends.loopEng, hflag.sends.map fun x => { x with pairs := s.pairs }⟩
    · rw [State.onPair_pair, hflag.pair, State.onPair_pair]
      rfl
    · rw [State.onPair_loop, hflag.loop, State.flagged_loop, State.onPair_loop, State.onPair_loopCfg]
    · rw [State.onPair_loop, hflag.loop, State.flagged_loop_ne _ hn, State.onPair_loop]
  case halts =>
    intro hboth htries
    have hflag := (s.onPair p.val (fun x => { x with flight := r })).mismatched_onlyFlagged p.val u
    have hexec := exec_updateCompare_differs hflight hruns hdue hboth
    rw [State.retried_of_two_le _ _ htries] at hexec
    have hin := hflag.inEngine.trans (State.haltPair_inEngine _ p.val [u])
    obtain ⟨x, hx⟩ := State.haltPair_pair ((s.onPair p.val (fun x => { x with flight := r })).mismatched p.val u) p.val [u]
    refine ⟨_, hexec, ?_, ?_, ?_, State.haltPair_loopReady _ _ _, hin.mem, hin.regs, hin.queues, hin.jobs, hin.cores⟩
    all_goals rw [hx]
  case tested =>
    have hlost := (s.onPair p.val (fun x => x.tested us (!(a && b)))).lostPipeline_sends p.val (!(a && b))
    have hevent := ((s.onPair p.val (fun x => x.tested us (!(a && b)))).lostPipeline p.val (!(a && b))).pairEvent_sends p.val
    refine ⟨_, exec_lockstepKatDone_passes hruns hkat hdue h, ?_, fun hone => ?_, fun hboth => ?_, ?_⟩
    · rw [State.pair, hevent.pairs]
      exact (congrArg (fun m : SMap PairSt => m.getD p.val {}) hlost.pairs).trans (State.onPair_pair _ _ _)
    · rw [State.loopReady, hevent.ready, hone]
      exact State.lostPipeline_loopReady _ _
    · rw [hevent.ready, hboth]
      rfl
    · exact (hlost.map fun x => { x with pairs := s.pairs }).trans (hevent.map fun x => { x with pairs := s.pairs, ready := s.ready, logs := s.logs })
  case failed =>
    rintro rfl rfl
    obtain ⟨x, hx⟩ := s.haltPair_pair p.val us
    have hin := s.haltPair_inEngine p.val us
    refine ⟨_, exec_lockstepKatDone_fails hruns hkat hdue, ?_, ?_, ?_, s.haltPair_loopReady _ _, hin.mem, hin.regs, hin.queues, hin.jobs⟩
    all_goals rw [hx]

end Sys2Proof.Machine
end

section
/-!
PROOF. Pages of HyperRAM (R166-R169, R498): what a page that is read may report, and what a page that is written leaves.
-/

namespace Sys2Proof.Machine

/-! ### A page read -/

/-- Nothing changed but what the reads of pages report: the CRC errors of channels, the logs, and what is sent of them. No event counter has counted. -/
structure State.OnlyFetched (s t : State) : Prop where
  sends : s.Sends { t with hbus := s.hbus, logs := s.logs }
  counts : t.counts = s.counts

theorem State.OnlyFetched.refl (s : State) : s.OnlyFetched s := ⟨.refl s, rfl⟩

@[simp] theorem State.lose_counts (s : State) (l : LogId) (r : Report) : (s.lose l r).counts = s.counts := by
  unfold State.lose
  dsimp only
  split <;> split <;> simp [State.note]

@[simp] theorem State.toLog_counts (s : State) (l : LogId) (r : Report) : (s.toLog l r).counts = s.counts := by
  unfold State.toLog
  dsimp only
  split
  · rfl
  · split <;> simp

theorem State.report_chip_counts (s : State) (cls : EClass) (source unit info detail : Nat) :
    (s.report .chip cls source unit info detail).counts = s.counts := by
  rw [State.report_chip, State.toLog_counts]

theorem State.report_chip_onlyFetched (s : State) (cls : EClass) (source unit info detail : Nat) :
    s.OnlyFetched (s.report .chip cls source unit info detail) :=
  ⟨(s.report_chip_sends cls source unit info detail).map fun x => { x with hbus := s.hbus }, s.report_chip_counts cls source unit info detail⟩

theorem State.pageBad_onlyFetched (s : State) (ch : Nat) : s.OnlyFetched (s.pageBad ch) := by
  refine ⟨(s.pageBad_counts ch).2.1, (State.report_chip_counts _ _ _ _ _ _).trans ?_⟩
  split
  · rw [State.event_counts]
    rfl
  · rfl

theorem State.fetchAt_onlyFetched (s : State) (c page errs : Nat) : s.OnlyFetched (s.fetchAt c page errs).2 := by
  unfold State.fetchAt
  split
  · exact .refl s
  · split
    · dsimp only
      split
      · exact .refl s
      · exact s.report_chip_onlyFetched _ _ _ _ _
    · exact s.pageBad_onlyFetched _

theorem State.fetchPage_onlyFetched (s : State) (a : Nat) : s.OnlyFetched (s.fetchPage a).2 := by
  unfold State.fetchPage
  split
  · exact .refl s
  · exact s.fetchAt_onlyFetched _ _ 0

/-! ### A page written -/

/-- Nothing changed but memory with its poison, and the check lines of channels. -/
def State.OnlyPages (s t : State) : Prop := t = { s with mem := t.mem, poison := t.poison, pageCrc := t.pageCrc, hbus := t.hbus }

namespace State.OnlyPages

variable {s t u : State}

theorem refl (s : State) : s.OnlyPages s := rfl

theorem trans (h : s.OnlyPages t) (h' : t.OnlyPages u) : s.OnlyPages u := by
  unfold State.OnlyPages at h h' ⊢
  rw [h] at h'
  exact h'

theorem foldl {α : Type} {f : State → α → State} (hf : ∀ (s : State) x, s.OnlyPages (f s x)) (l : List α) (s : State) :
    s.OnlyPages (l.foldl f s) :=
  List.foldlRecOn (motive := s.OnlyPages) l f (refl s) fun t ht x _ => ht.trans (hf t x)

theorem regs (h : s.OnlyPages t) : t.regs = s.regs := (congrArg State.regs h).trans rfl
theorem cores (h : s.OnlyPages t) : t.cores = s.cores := (congrArg State.cores h).trans rfl
theorem queues (h : s.OnlyPages t) : t.queues = s.queues := (congrArg State.queues h).trans rfl
theorem jobs (h : s.OnlyPages t) : t.jobs = s.jobs := (congrArg State.jobs h).trans rfl
theorem loops (h : s.OnlyPages t) : t.loops = s.loops := (congrArg State.loops h).trans rfl
theorem traces (h : s.OnlyPages t) : t.traces = s.traces := (congrArg State.traces h).trans rfl
theorem loopEng (h : s.OnlyPages t) : t.loopEng = s.loopEng := (congrArg State.loopEng h).trans rfl

end State.OnlyPages

theorem State.cacheLine_onlyPages (s : State) (c page : Nat) : s.OnlyPages (s.cacheLine c page) := by
  unfold State.cacheLine
  dsimp only
  split
  · exact .refl s
  · rfl

theorem State.putPage_onlyPages (s : State) (c page : Nat) (bs : List Byte) (bad : Bool) : s.OnlyPages (s.putPage c page bs bad) :=
  State.OnlyPages.trans (t := s.poke (pageAddr c page) bs bad) rfl ((State.cacheLine_onlyPages _ c page).trans rfl)

theorem State.writePage_onlyPages (s : State) (c page : Nat) (bs : List Byte) (bad : Bool) : s.OnlyPages (s.writePage c page bs bad) :=
  .foldl (fun s k => s.putPage_onlyPages k page bs bad) _ s

end Sys2Proof.Machine
end

section
/-!
PROOF. Set-point frames and the pages of loop traces (R124, R356-R358, R394).
-/

namespace Sys2Proof.Machine

/-! ### A frame put into its class of a port -/

theorem mem_of_headOf {cls : Nat} {l : List TxFrame} {g : TxFrame} (hhead : headOf cls l = some g) {f : TxFrame} (hf : f ∈ l) :
    f = g ∨ f ∈ dropHead cls l := by
  induction l with
  | nil => cases hf
  | cons x r ih =>
    unfold headOf at hhead
    unfold dropHead
    by_cases hx : x.cls = cls
    · rw [if_pos hx] at hhead ⊢
      rw [← Option.some.inj hhead]
      exact List.mem_cons.mp hf
    · rw [if_neg hx] at hhead ⊢
      rcases List.mem_cons.mp hf with rfl | hr
      · exact .inr List.mem_cons_self
      · exact (ih hhead hr).imp_right (List.mem_cons_of_mem x)

theorem headOf_cls {cls : Nat} {l : List TxFrame} {g : TxFrame} (h : headOf cls l = some g) : g.cls = cls := by
  induction l with
  | nil => cases h
  | cons x r ih =>
    unfold headOf at h
    split at h
    next hx => rwa [← Option.some.inj h]
    next => exact ih h

/-- The frame that starts is the head of its class. -/
theorem pickFrame_headOf {ok : TxFrame → Bool} {waiting : List TxFrame} {cs : List Nat} {g : TxFrame} (h : pickFrame ok waiting cs = some g) :
    headOf g.cls waiting = some g := by
  induction cs with
  | nil => cases h
  | cons c r ih =>
    unfold pickFrame at h
    split at h
    next f hf =>
      split at h
      · obtain rfl := Option.some.inj h
        rwa [headOf_cls hf]
      · exact ih h
    next => exact ih h

/-- A frame that waits on a port still waits there, or goes, when the port may start one. -/
theorem State.kick_queued {s : State} {p : Nat} {f : TxFrame} (h : f ∈ (s.bport p).waiting) : (s.kick p).Queued p f := by
  unfold State.kick
  dsimp only
  split
  · exact .inl h
  · split
    · exact .inl h
    next g hg =>
      unfold State.Queued State.bport
      rw [SMap.getD_put_self]
      exact (mem_of_headOf (pickFrame_headOf hg) h).elim (fun he => .inr (congrArg some he.symm)) .inl

theorem State.enqueue_queued (s : State) (p : Nat) (f : TxFrame) : (s.enqueue p f).Queued p f := by
  refine State.kick_queued ?_
  rw [State.bport, SMap.getD_put_self]
  exact List.mem_append_right _ List.mem_cons_self

/-- Nothing changed but the frames of ports. -/
def State.OnlyPorts (s t : State) : Prop := t = { s with bports := t.bports }

namespace State.OnlyPorts

variable {s t u : State}

theorem refl (s : State) : s.OnlyPorts s := rfl

theorem trans (h : s.OnlyPorts t) (h' : t.OnlyPorts u) : s.OnlyPorts u := by
  unfold State.OnlyPorts at h h' ⊢
  rw [h] at h'
  exact h'

theorem foldl {α : Type} {f : State → α → State} (hf : ∀ (s : State) x, s.OnlyPorts (f s x)) (l : List α) (s : State) :
    s.OnlyPorts (l.foldl f s) :=
  List.foldlRecOn (motive := s.OnlyPorts) l f (refl s) fun t ht x _ => ht.trans (hf t x)

end State.OnlyPorts

theorem State.kick_onlyPorts (s : State) (p : Nat) : s.OnlyPorts (s.kick p) := by
  unfold State.kick
  dsimp only
  split
  · exact .refl s
  · split
    · exact .refl s
    · rfl

theorem State.enqueue_onlyPorts (s : State) (p : Nat) (f : TxFrame) : s.OnlyPorts (s.enqueue p f) :=
  State.OnlyPorts.trans (t := { s with bports := s.bports.put p { s.bport p with waiting := (s.bport p).waiting ++ [f] } }) rfl
    (State.kick_onlyPorts _ p)

/-! ### Set-point frames -/

theorem State.sendSetpoints_onlyPorts (s : State) (d apply : Nat) (es : List Setpoint) : s.OnlyPorts (s.sendSetpoints d apply es) := by
  unfold State.sendSetpoints
  split
  · exact .refl s
  · exact .foldl (fun s part => s.enqueue_onlyPorts _ _) _ s

theorem split256_of_le {es : List Setpoint} (hne : es ≠ []) (h : es.length ≤ 256) : split256 es.length es = [es] := by
  obtain ⟨e, r, rfl⟩ := List.exists_cons_of_ne_nil hne
  rw [List.length_cons, split256, if_neg (by simp), List.take_of_length_le h, List.drop_of_length_le h]
  cases r.length with
  | zero => rfl
  | succ n => rw [split256, List.isEmpty_nil, if_pos rfl]

/-- The entries of one destination and apply time that fit a frame wait at the destination's port in one, by channel (R394). -/
theorem State.sendSetpoints_queued {s : State} {d : Nat} {im : StructImage} {c : DestCfg} (him : s.sec.image = some im)
    (hc : SMap.get im.dests d = some c) (apply : Nat) {es : List Setpoint} (hne : es ≠ []) (hlen : es.length ≤ 256) :
    ∃ f : TxFrame, (s.sendSetpoints d apply es).Queued c.port f ∧ f.cls = c.pcp.toNat ∧ f.tag = some (c.pcp, c.vid)
      ∧ f.body = .setpoint d apply (setpointBytes apply (es.insertionSort (fun x y => x.ch ≤ y.ch))) := by
  have hsorted : (es.insertionSort (fun x y => x.ch ≤ y.ch)).length = es.length := List.length_insertionSort _ _
  have hparts : split256 (es.insertionSort (fun x y => x.ch ≤ y.ch)).length (es.insertionSort (fun x y => x.ch ≤ y.ch))
      = [es.insertionSort (fun x y => x.ch ≤ y.ch)] :=
    split256_of_le (List.ne_nil_of_length_pos (hsorted ▸ List.length_pos_iff.mpr hne)) (hsorted ▸ hlen)
  unfold State.sendSetpoints
  rw [him, Option.bind_some, hc]
  dsimp only
  rw [hparts, List.foldl_cons, List.foldl_nil]
  exact ⟨_, State.enqueue_queued _ _ _, rfl, rfl, rfl⟩

/-- The entries whose sample instant every pair has finished (R394). -/
def State.finished (s : State) : List Setpoint := s.loopEng.egress.filter (fun e => ([0, 1, 2, 3] : List Nat).all (fun p => !(s.pair p).busy e.ts))

/-- The entries of a sample instant taken from the engine. -/
def State.takeInstant (s : State) (ts : Nat) : State :=
  { s with loopEng := { s.loopEng with egress := s.loopEng.egress.filter (fun e => e.ts ≠ ts) } }

/-- The destination and apply time of an entry (R393, R394). -/
def State.frameKey (s : State) (e : Setpoint) : Option (Nat × Nat) := (s.destOf e.ch).map (fun d => (d, e.apply))

/-- The frames of entries sent, one or more for each destination and apply time (R394). -/
def State.sendInstant (s : State) (mine : List Setpoint) : State :=
  (mine.filterMap s.frameKey).dedup.foldl (fun s k => s.sendSetpoints k.1 k.2 (mine.filter (fun e => s.destOf e.ch = some k.1 && e.apply = k.2))) s

theorem exec_setpointFrameSend {s : State} {ts : Nat} (hruns : s.loopRuns = true) (hmin : (s.finished.map Setpoint.ts).min? = some ts) :
    exec .setpointFrameSend s = .next ((s.takeInstant ts).sendInstant (s.finished.filter (fun e => e.ts = ts))) := by
  change execSetpointFrameSend s = _
  unfold execSetpointFrameSend
  rw [if_neg (by simp [hruns])]
  unfold State.finished at hmin
  dsimp only
  rw [hmin]
  rfl

theorem State.sendInstant_onlyPorts (s : State) (mine : List Setpoint) : s.OnlyPorts (s.sendInstant mine) :=
  .foldl (fun s _ => s.sendSetpoints_onlyPorts _ _ _) _ s

/-- Entries of one destination and apply time are sent together. -/
theorem State.sendInstant_of_key {s : State} {es : List Setpoint} {d a : Nat} (hne : es ≠ [])
    (hkey : ∀ e ∈ es, s.destOf e.ch = some d ∧ e.apply = a) : s.sendInstant es = s.sendSetpoints d a es := by
  have hkeys : es.filterMap s.frameKey = List.replicate es.length (d, a) := by
    rw [List.filterMap_congr (g := fun _ => some (d, a)) fun e he => by rw [State.frameKey, (hkey e he).1, (hkey e he).2]; rfl]
    exact (congrFun (List.filterMap_eq_map (f := fun _ => (d, a))) es).trans List.map_const'
  have hall : es.filter (fun e => s.destOf e.ch = some d && e.apply = a) = es :=
    List.filter_eq_self.mpr fun e he => by rw [(hkey e he).1, (hkey e he).2]; simp
  rw [State.sendInstant, hkeys, List.replicate_dedup (mt List.length_eq_zero_iff.mp hne), List.foldl_cons, List.foldl_nil, hall]

/-! ### Trace pages -/

/-- A trace's oldest full page in the ring (R356). -/
def State.spilled (s : State) (n : Nat) (page : RingPage) (r : List (List Byte × Nat × Nat)) (next : Nat) : State :=
  let s := s.onTrace n (fun t => { t with pages := r })
  { s with loopEng := { s.loopEng with ring := s.loopEng.ring ++ [page], ringNext := next } }

section
variable {s : State} {n : Fin 16} {im : StructImage} (him : s.sec.image = some im) {bs : List Byte} {recs loop : Nat} {r : List (List Byte × Nat × Nat)} {place : Nat × Nat}
  (hpages : (s.trace n.val).pages = (bs, recs, loop) :: r)
  (hplace : s.pageAt (im.traceBase + s.loopEng.ringNext % im.tracePages * 4096) = some place)
include him hpages hplace

theorem exec_tracePageSpill_waits (h : s.power.held = true ∨ im.tracePages ≤ s.loopEng.ring.length) :
    exec (.tracePageSpill n) s = .next s := by
  change execTracePageSpill n s = _
  unfold execTracePageSpill
  rw [him, hpages]
  dsimp only
  rw [hplace]
  dsimp only
  rw [if_pos (by rcases h with h | h <;> simp [h])]

theorem exec_tracePageSpill_spills (hruns : s.loopRuns = true) (hheld : s.power.held = false) (hroom : s.loopEng.ring.length < im.tracePages) :
    exec (.tracePageSpill n) s = .next ((s.writePage place.1 place.2 bs false).spilled n.val
      { trace := n.val, loop := loop, index := s.loopEng.ringNext % im.tracePages, recs := recs } r
      ((s.loopEng.ringNext % im.tracePages + 1) % im.tracePages)) := by
  change execTracePageSpill n s = _
  unfold execTracePageSpill
  rw [him, hpages]
  dsimp only
  rw [hplace]
  dsimp only
  rw [if_neg (by simp [hruns, hheld, hroom])]
  rfl

end

/-- A page taken off the ring (R357). -/
def State.unringed (s : State) (r : List RingPage) : State := { s with loopEng := { s.loopEng with ring := r } }

/-- The oldest page of the ring as it was read leaves for its client, or is lost record by record where it read back poisoned (R357). -/
def State.sendPage (s : State) (n : Nat) (x : RingPage) (port : Port) (dest : HostAddr) (bytes : List Byte) (bad : Bool) : State :=
  if bad then (List.range x.recs).foldl (fun s _ => s.bump .traceLost) s
  else
    (s.sendMsg port { type := 0x50, reliable := true,
                      payload := eventPay 7 n s.now (beBytes 2 x.loop ++ [0, 0] ++ beBytes 4 x.index ++ bytes), dest := dest }).2

theorem State.sendPage_sends (s : State) (n : Nat) (x : RingPage) (port : Port) (dest : HostAddr) (bytes : List Byte) (bad : Bool) :
    s.Sends (s.sendPage n x port dest bytes bad) := by
  unfold State.sendPage
  split
  · exact sends_foldl _ _ _ (fun _ _ h => State.bump_sends _ h) (.refl s)
  · exact State.sendMsg_sends _ _ (.refl s)

theorem exec_tracePageSend {s : State} {n : Fin 16} {im : StructImage} (hruns : s.loopRuns = true) (him : s.sec.image = some im)
    {x : RingPage} {r : List RingPage} {port : Port} {client : Fin 8} {dest : HostAddr} (hring : s.loopEng.ring = x :: r)
    (htrace : x.trace = n.val) (howner : (s.trace n.val).owner = some (port, client))
    (hdest : (s.hport port).clientAddr.get client.val = some dest) (hready : s.portReady port = true) :
    exec (.tracePageSend n) s = .next (((s.fetchPage (im.traceBase + x.index * 4096)).2.unringed r).sendPage n.val x port dest
      (s.fetchPage (im.traceBase + x.index * 4096)).1.1 (s.fetchPage (im.traceBase + x.index * 4096)).1.2) := by
  change execTracePageSend n s = _
  unfold execTracePageSend
  rw [him, hring, howner]
  dsimp only
  rw [hdest]
  dsimp only
  rw [if_neg (by simp [hruns, htrace, hready])]
  rfl

/-- Settles O46: a frame of one destination takes the oldest finished sample instant; a spill writes one page of memory, and what a page read from the
ring reports is none of the engine's. -/
theorem setpointsAndTraces : Obligations.SetpointsAndTraces := by
  refine ⟨fun s ts hruns hmin => ?frame, fun s n im hruns him => ⟨fun bs recs loop r place hpages hplace =>
    ⟨exec_tracePageSpill_waits him hpages hplace, fun hheld hroom => ?spill⟩, fun x r port client dest hring htrace howner hdest hready => ?send⟩⟩
  case frame =>
    have hsent := (s.takeInstant ts).sendInstant_onlyPorts (s.finished.filter (fun e => e.ts = ts))
    have hmine : s.finished.filter (fun e => e.ts = ts) ≠ [] := by
      obtain ⟨e, he, hts⟩ := List.mem_map.mp (List.min?_mem hmin)
      exact List.ne_nil_of_mem (List.mem_filter.mpr ⟨he, decide_eq_true hts⟩)
    refine ⟨_, exec_setpointFrameSend hruns hmin, congrArg State.loopEng hsent, ?_, fun es d c a im hes hkey hlen him hc => ?_⟩
    · rw [congrArg State.loopEng hsent]
      exact hsent
    · have heq : s.finished.filter (fun e => e.ts = ts) = es := by
        rw [← hes, State.finished, List.filter_filter]
        simp only [Bool.and_comm]
      rw [heq] at hmine ⊢
      rw [State.sendInstant_of_key (s := s.takeInstant ts) hmine hkey]
      exact State.sendSetpoints_queued (s := s.takeInstant ts) him hc a hmine hlen
  case spill =>
    have hpage := s.writePage_onlyPages place.1 place.2 bs false
    refine ⟨_, exec_tracePageSpill_spills him hpages hplace hruns hheld hroom, ?_, ?_, Nat.mod_lt _ (Nat.zero_lt_of_lt hroom), ?_⟩
    · rw [State.trace, State.spilled, State.onTrace, hpage.traces, SMap.getD_put_self]
      rfl
    · rw [State.spilled, State.onTrace, hpage.loopEng]
    · exact ⟨hpage.regs, hpage.loops, hpage.jobs, hpage.queues, hpage.cores⟩
  case send =>
    have hfetch := (s.fetchPage_onlyFetched (im.traceBase + x.index * 4096)).sends
    refine ⟨_, exec_tracePageSend hruns him hring htrace howner hdest hready, ?_⟩
    have hsent := ((s.fetchPage (im.traceBase + x.index * 4096)).2.unringed r).sendPage_sends n.val x port dest
      (s.fetchPage (im.traceBase + x.index * 4096)).1.1 (s.fetchPage (im.traceBase + x.index * 4096)).1.2
    exact ⟨hsent.loopEng.trans (congrArg (fun g : LoopEng => { g with ring := r }) hfetch.loopEng), hsent.traces.trans hfetch.traces,
      hsent.regs.trans hfetch.regs, hsent.loops.trans hfetch.loops, hsent.jobs.trans hfetch.jobs, hsent.queues.trans hfetch.queues,
      hsent.cores.trans hfetch.cores⟩

end Sys2Proof.Machine
end

section
/-!
PROOF. Parameter sets handed to their queues, harvests, and instances that were not started in time (R256, R269, R271, R273, R283, R390, R392, R497).
-/

namespace Sys2Proof.Machine

/-! ### Parameter sets (R390, R392) -/

/-- The ingest unit without a set that is handed over. -/
def State.withoutSet (s : State) (x : PsetSt) : State :=
  s.onIngest (fun g => { g with psets := g.psets.filter (fun y => !(y.binding = x.binding && y.firing = x.firing)) })

/-- A set taken in by its queue, or dropped and counted (R256, R392). -/
def State.handOver (s : State) (x : PsetSt) (q : Nat) (c : QueueCfg) : State :=
  if (s.queue q).state ≠ .opened ∨ (s.refuseJob q c x.params.length).isSome = true then s.bump .psetDrop
  else s.newJob q c (s.queue q).opener x.tag x.deadline s.tide64 x.quality x.params []

section
variable {s : State} {b : Fin 64} {x : PsetSt} (hfind : s.ingest.psets.find? (fun y => y.binding = b.val) = some x)
include hfind

theorem PsetSt.binding_of_find : x.binding = b.val := of_decide_eq_true (List.find?_some (p := fun y : PsetSt => decide (y.binding = b.val)) hfind)

/-- A set waits for those of its firing with lower bindings. -/
theorem exec_parameterSetHandover_waits (h : ∃ y ∈ s.ingest.psets, y.firing = x.firing ∧ y.binding < b.val) :
    exec (.parameterSetHandover b) s = .next s := by
  obtain ⟨y, hy, hfiring, hlow⟩ := h
  have hearlier : s.ingest.psets.any (fun y => y.firing = x.firing && y.binding < x.binding) = true :=
    List.any_eq_true.mpr ⟨y, hy, by simp [hfiring, PsetSt.binding_of_find hfind, hlow]⟩
  change execParameterSetHandover b s = _
  unfold execParameterSetHandover
  rw [hfind]
  dsimp only
  rw [if_pos (by rw [hearlier, Bool.or_true])]

theorem exec_parameterSetHandover_hands {c : PsetCfg} {q : QueueCfg} {im : StructImage} (hruns : s.ingestRuns = true) (hready : s.qmgrReady = true)
    (him : s.sec.image = some im) (hc : SMap.get im.psets b.val = some c) (hq : s.queueCfg c.queue = some q)
    (h : ∀ y ∈ s.ingest.psets, y.firing = x.firing → b.val ≤ y.binding) :
    exec (.parameterSetHandover b) s = .next ((s.withoutSet x).handOver x c.queue q) := by
  have hfirst : s.ingest.psets.any (fun y => y.firing = x.firing && y.binding < x.binding) = false := by
    rw [List.any_eq_false]
    intro y hy hlow
    rw [Bool.and_eq_true, decide_eq_true_eq, decide_eq_true_eq, PsetSt.binding_of_find hfind] at hlow
    exact absurd hlow.2 (Nat.not_lt.mpr (h y hy hlow.1))
  have himage : (s.withoutSet x).sec.image.bind (fun im => SMap.get im.psets x.binding) = some c := by
    rw [State.withoutSet, State.onIngest_sec, him, PsetSt.binding_of_find hfind]
    exact hc
  change execParameterSetHandover b s = _
  unfold execParameterSetHandover
  rw [hfind]
  dsimp only
  rw [hfirst, hruns, if_neg (by decide), ← State.withoutSet, himage]
  dsimp only
  have hq' : (s.withoutSet x).queueCfg c.queue = some q := hq
  rw [hq']
  dsimp only
  have hready' : (s.withoutSet x).qmgrReady = true := hready
  simp only [State.handOver, hready', Bool.not_true, Bool.false_or, Bool.or_eq_true, decide_eq_true_eq]

end

/-- The instance that an accepted set waits as (R390, R392). -/
def State.setJob (s : State) (x : PsetSt) (q : Nat) : Job :=
  { id := s.nextJob, queue := q, gen := (s.queue q).gen, tag := x.tag, client := (s.queue q).opener, deadline := x.deadline, tArr := s.tide64,
    quality := x.quality, params := x.params }

theorem State.newJob_setJob {s : State} {x : PsetSt} {c : QueueCfg} (hlate : ¬ tooLate c x.deadline s.tide64) (q : Nat) :
    s.newJob q c (s.queue q).opener x.tag x.deadline s.tide64 x.quality x.params [] = s.takeJob (s.setJob x q) := if_neg hlate

theorem State.newJob_ingest (s : State) (q : Nat) (c : QueueCfg) (client : Fin 8) (tag : Word) (deadline tArr quality : Nat)
    (params warm : List Byte) : (s.newJob q c client tag deadline tArr quality params warm).ingest = s.ingest := by
  unfold State.newJob
  dsimp only
  split
  · exact (State.completeWaiting_served _ _ 8 2).sends.ingest
  · rfl

theorem State.handOver_ingest (s : State) (x : PsetSt) (q : Nat) (c : QueueCfg) : (s.handOver x q c).ingest = s.ingest := by
  unfold State.handOver
  split
  · exact (State.bump_sends _ (.refl s)).ingest
  · exact s.newJob_ingest _ _ _ _ _ _ _ _ _

theorem State.handOver_accepts {s : State} {x : PsetSt} {q : Nat} {c : QueueCfg} (hopen : (s.queue q).state = .opened)
    (hfit : s.refuseJob q c x.params.length = none) (hlate : ¬ tooLate c x.deadline s.tide64) : s.handOver x q c = s.takeJob (s.setJob x q) := by
  rw [State.handOver, if_neg (by simp [hopen, hfit]), State.newJob_setJob hlate]

theorem State.handOver_drops {s : State} {x : PsetSt} {q : Nat} {c : QueueCfg}
    (h : (s.queue q).state ≠ .opened ∨ (s.refuseJob q c x.params.length).isSome = true) : s.handOver x q c = s.bump .psetDrop := if_pos h

/-! ### The layout of a record (R283) -/

@[simp] theorem beBytes_length (k n : Nat) : (beBytes k n).length = k := by
  induction k with
  | zero => rfl
  | succ k ih => rw [beBytes, List.length_cons, ih]

/-- The bytes of a number hold it, as far as they reach. -/
theorem beNat_beBytes_mod (k n : Nat) : beNat (beBytes k n) = n % 2 ^ (8 * k) := by
  induction k with
  | zero => rw [beBytes, beNat, Nat.mul_zero, Nat.pow_zero, Nat.mod_one]
  | succ k ih =>
    have hpow : 2 ^ (8 * (k + 1)) = 2 ^ (8 * k) * 2 ^ 8 := by rw [← Nat.pow_add]; rfl
    rw [beBytes, beNat, ih, beBytes_length, BitVec.toNat_ofNat, hpow, Nat.mod_mul, Nat.mul_comm, Nat.add_comm]

theorem beNat_beBytes {k n : Nat} (h : n < 2 ^ (8 * k)) : beNat (beBytes k n) = n := by rw [beNat_beBytes_mod, Nat.mod_eq_of_lt h]

/-- The bytes of one of several fields that stand one after another. -/
theorem field_of_flatten {l : List (List Byte)} {k : Nat} {x : List Byte} (h : l[k]? = some x) (rest : List Byte) :
    ((l.flatten ++ rest).drop ((l.take k).map List.length).sum).take x.length = x := by
  induction l generalizing k with
  | nil => cases h
  | cons y r ih =>
    rw [List.flatten_cons, List.append_assoc]
    cases k with
    | zero =>
      obtain rfl : y = x := Option.some.inj h
      exact List.take_left
    | succ k =>
      rw [List.take_succ_cons, List.map_cons, List.sum_cons, ← List.drop_drop, List.drop_left]
      exact ih h

/-- The widths of a completion record's fields. -/
def completionWidths : List Nat := [4, 2, 2, 1, 1, 1, 1, 2, 2, 8, 8, 8, 8, 8, 8, 8, 8, 8, 1, 1, 2, 4]

/-- The fields of a completion record before its result data, in their order (R283). -/
def completionFields (j : Job) (guard status how : Nat) (halted : Bool) (input : Nat) (blk : List Byte) (flags : BitVec 16) (done : Nat)
    (sel : BitVec 3) (data : List Byte) : List (List Byte) :=
  let fp (o : Nat) : List Byte := if blk.isEmpty then beBytes 8 0x7FF0000000000000 else beBytes 8 (leAt blk o 8)
  let at' (o n : Nat) : Nat := if blk.isEmpty then 0 else leAt blk o n
  [beBytes 4 j.tag.toNat, beBytes 2 j.queue, beBytes 2 j.gen.toNat, beBytes 1 (how * 16 + status), beBytes 1 (at' 0x2B 1),
    beBytes 1 ((if halted then 128 else 0) + input), beBytes 1 (guard * 64 + (if blk.isEmpty then 0 else min 63 j.reruns)), beBytes 2 (at' 0x28 2),
    beBytes 2 (if blk.isEmpty then 0 else flags.toNat % 32768), beBytes 8 j.deadline, beBytes 8 j.tArr, beBytes 8 j.tAdmit, beBytes 8 done,
    fp 0, fp 8, fp 0x10, fp 0x18, fp 0x20, beBytes 1 (at' 0x2D 1), beBytes 1 (at' 0x2C 1), beBytes 2 (if data.isEmpty then 0 else sel.toNat),
    beBytes 4 data.length]

section
variable (j : Job) (guard status how : Nat) (halted : Bool) (input : Nat) (blk : List Byte) (flags : BitVec 16) (done : Nat) (sel : BitVec 3)
  (data : List Byte)

theorem completionBytes_eq : completionBytes j guard status how halted input blk flags done sel data
    = (completionFields j guard status how halted input blk flags done sel data).flatten ++ data := by
  unfold completionBytes completionFields
  generalize 0x7FF0000000000000 = inf
  simp only [List.flatten_cons, List.flatten_nil, List.append_nil, List.append_assoc]

theorem completionFields_lengths : (completionFields j guard status how halted input blk flags done sel data).map List.length = completionWidths := by
  unfold completionFields completionWidths
  generalize 0x7FF0000000000000 = inf
  cases blk.isEmpty <;> simp

/-- A number stands in its field of a completion record. -/
theorem beNat_completionBytes {k ofs w n : Nat} (hw : (completionFields j guard status how halted input blk flags done sel data)[k]? = some (beBytes w n))
    (hofs : (completionWidths.take k).sum = ofs) (hn : n < 2 ^ (8 * w)) :
    beNat (((completionBytes j guard status how halted input blk flags done sel data).drop ofs).take w) = n := by
  have hfield := field_of_flatten hw data
  rw [List.map_take, completionFields_lengths, hofs, beBytes_length] at hfield
  rw [completionBytes_eq, hfield, beNat_beBytes hn]

theorem completionFields_length : (completionFields j guard status how halted input blk flags done sel data).flatten.length = 96 := by
  rw [List.length_flatten, completionFields_lengths]
  rfl

end

/-! ### Instances that were not started in time (R269) -/

/-- Waiting instances complete one after another: each of them is gone. -/
theorem State.completeWaitings_jobs (l : List Job) (status how : Nat) (s : State) :
    s.OnlyServed (l.foldl (fun s j => s.completeWaiting j status how) s)
      ∧ (l.foldl (fun s j => s.completeWaiting j status how) s).jobs = s.jobs.filter fun k => k.id ∉ l.map Job.id := by
  induction l generalizing s with
  | nil => exact ⟨.refl s, (List.filter_eq_self.mpr fun k _ => decide_eq_true List.not_mem_nil).symm⟩
  | cons j l ih =>
    obtain ⟨hserved, hjobs⟩ := ih (s.completeWaiting j status how)
    refine ⟨(s.completeWaiting_served j status how).trans hserved, ?_⟩
    rw [List.foldl_cons, hjobs, s.completeWaiting_jobs j status how, List.filter_filter]
    refine List.filter_congr fun k _ => ?_
    simp only [List.map_cons, List.mem_cons, not_or, Bool.decide_and, Bool.and_comm, ne_eq]

/-- Of the instances held, those whose number a chosen one has are the chosen ones. -/
theorem State.Inv.id_mem_filter {s : State} (hinv : s.Inv) (p : Job → Bool) {k : Job} (hk : k ∈ s.jobs) :
    k.id ∈ (s.jobs.filter p).map Job.id ↔ p k = true := by
  refine ⟨fun h => ?_, fun h => List.mem_map_of_mem (List.mem_filter.mpr ⟨hk, h⟩)⟩
  obtain ⟨j, hj, hid⟩ := List.mem_map.mp h
  obtain ⟨hjs, hp⟩ := List.mem_filter.mp hj
  exact List.inj_on_of_nodup_map hinv.jobIds hjs hk hid ▸ hp

/-- The state once every instance at its threshold has completed. -/
def State.notStarted (s : State) : State := (s.jobs.filter s.lateDue).foldl (fun s j => s.completeWaiting j 8 2) s

theorem exec_notStartedThreshold {s : State} (hr : s.inReset = false) : exec .notStartedThreshold s = .next s.notStarted := by
  change execNotStartedThreshold s = _
  rw [execNotStartedThreshold, hr]
  rfl

theorem State.notStarted_jobs {s : State} (hinv : s.Inv) : s.notStarted.jobs = s.jobs.filter (fun j => !s.lateDue j) := by
  rw [State.notStarted, (State.completeWaitings_jobs _ 8 2 s).2]
  refine List.filter_congr fun k hk => ?_
  simp only [hinv.id_mem_filter s.lateDue hk, Bool.decide_eq_true, decide_not]

/-! ### Harvests (R271, R273) -/

/-- Nothing changed but instances, what is completed of them and handed to loops, the logs, and what is sent. -/
def State.OnlyHarvested (s t : State) : Prop := s.Sends { t with logs := s.logs, loops := s.loops, jobs := s.jobs, nextComp := s.nextComp }

namespace State.OnlyHarvested

variable {s t u : State}

theorem refl (s : State) : s.OnlyHarvested s := State.Sends.refl s

theorem trans (h : s.OnlyHarvested t) (h' : t.OnlyHarvested u) : s.OnlyHarvested u :=
  State.Sends.trans h (State.Sends.map h' fun x => { x with logs := s.logs, loops := s.loops, jobs := s.jobs, nextComp := s.nextComp })

theorem queueCfg (h : s.OnlyHarvested t) (q : Nat) : t.queueCfg q = s.queueCfg q := State.Sends.queueCfg (s := s) h q
theorem attrib (h : s.OnlyHarvested t) : t.attrib = s.attrib := (congrArg State.attrib (State.Sends.rest h)).trans rfl
theorem mem (h : s.OnlyHarvested t) : t.mem = s.mem := (congrArg State.mem (State.Sends.rest h)).trans rfl
theorem regs (h : s.OnlyHarvested t) : t.regs = s.regs := (congrArg State.regs (State.Sends.rest h)).trans rfl
theorem cores (h : s.OnlyHarvested t) : t.cores = s.cores := (congrArg State.cores (State.Sends.rest h)).trans rfl
theorem queues (h : s.OnlyHarvested t) : t.queues = s.queues := (congrArg State.queues (State.Sends.rest h)).trans rfl
theorem windows (h : s.OnlyHarvested t) : t.windows = s.windows := (congrArg State.windows (State.Sends.rest h)).trans rfl
theorem tide (h : s.OnlyHarvested t) : t.tide = s.tide := (congrArg State.tide (State.Sends.rest h)).trans rfl

end State.OnlyHarvested

theorem State.Sends.harvested {s t : State} (h : s.Sends t) : s.OnlyHarvested t :=
  h.map fun x => { x with logs := s.logs, loops := s.loops, jobs := s.jobs, nextComp := s.nextComp }

section
variable (s : State)

theorem State.report_sends (l : LogId) (cls : EClass) (source unit info detail : Nat) :
    s.Sends { s.report l cls source unit info detail with logs := s.logs } := by
  have hlogged (t : State) (l : LogId) (r : Report) (h : s.Sends { t with logs := s.logs }) : s.Sends { t.toLog l r with logs := s.logs } :=
    h.trans ((t.toLog_sends l r).map fun x => { x with logs := s.logs })
  have hfirst (r : Report) : s.Sends { s.toLog l r with logs := s.logs } := hlogged s l r (.refl s)
  unfold State.report
  dsimp only
  split
  · exact hlogged _ _ _ (hfirst _)
  · exact hfirst _

theorem State.slotReport_sends (core source : Nat) (cls : EClass) (j : Job) (g unit : Nat) :
    s.Sends { s.slotReport core source cls j g unit with logs := s.logs } := by
  unfold State.slotReport
  split
  · exact s.report_sends _ _ _ _ _ _
  · exact .refl s

theorem State.slotReport_harvested (core source : Nat) (cls : EClass) (j : Job) (g unit : Nat) :
    s.OnlyHarvested (s.slotReport core source cls j g unit) :=
  (s.slotReport_sends core source cls j g unit).map fun x => { x with loops := s.loops, jobs := s.jobs, nextComp := s.nextComp }

theorem State.onJob_harvested (id : Nat) (f : Job → Job) : s.OnlyHarvested (s.onJob id f) := State.OnlyHarvested.refl s

theorem State.onLoop_harvested (n : Nat) (f : LoopSt → LoopSt) : s.OnlyHarvested (s.onLoop n f) := State.OnlyHarvested.refl s

theorem State.loopSet_harvested (n : Nat) (w : Word) : s.OnlyHarvested (s.loopSet n w) :=
  (State.note_sends (.loopSts n) (· ||| w.toNat) (.refl s)).harvested

theorem State.handoff_spec (queue : Nat) (c : QueueCfg) (x : List Val) :
    s.OnlyHarvested (s.handoff queue c x) ∧ (s.handoff queue c x).jobs = s.jobs := by
  refine List.foldlRecOn (motive := fun t : State => s.OnlyHarvested t ∧ t.jobs = s.jobs) _ _ ⟨.refl s, rfl⟩ fun t ht b _ => ?_
  obtain ⟨hframe, hjobs⟩ := ht
  dsimp only
  split
  · exact ⟨hframe, hjobs⟩
  · split
    · exact ⟨(hframe.trans (t.onLoop_harvested _ _)).trans (State.loopSet_harvested _ _ _), hjobs⟩
    · exact ⟨hframe.trans (t.onLoop_harvested _ _), hjobs⟩

theorem State.putComp_harvested (q : Nat) (gen : BitVec 16) (payload : List Byte) : s.OnlyHarvested (s.putComp q gen payload) :=
  (s.putComp_sends q gen payload).map fun x => { x with logs := s.logs, loops := s.loops, jobs := s.jobs, nextComp := s.nextComp }

theorem State.completeFrom_spec (c : QueueCfg) (j : Job) (out : Leaving) (status how : Nat) (flags : BitVec 16) :
    s.OnlyHarvested (s.completeFrom c j out status how flags) ∧ (s.completeFrom c j out status how flags).jobs = s.jobs := by
  unfold State.completeFrom
  split
  · exact ⟨.refl s, rfl⟩
  · dsimp only
    have hcount := s.countComp_sends status how
    have hput (bytes : List Byte) : s.OnlyHarvested ((s.countComp status how).putComp j.queue j.gen bytes) :=
      hcount.harvested.trans (State.putComp_harvested _ _ _ _)
    have hjobs (bytes : List Byte) : ((s.countComp status how).putComp j.queue j.gen bytes).jobs = s.jobs :=
      (State.putComp_sends _ _ _ _).jobs.trans hcount.jobs
    split
    · exact ⟨(hput _).trans (State.handoff_spec _ _ _ _).1, (State.handoff_spec _ _ _ _).2.trans (hjobs _)⟩
    · exact ⟨hput _, hjobs _⟩

/-- The end of an episode that barred no run tells of an open mismatch (R497), which is over with it. -/
theorem State.endEpisode_spec (p : Nat) {j : Job} (hruns : j.runs = []) (cls : EClass) : s.OnlyHarvested (s.endEpisode p j cls)
    ∧ (s.endEpisode p j cls).jobs
      = if j.slots = [] then s.jobs else (s.onJob j.id fun k => { k with runs := [], mismatch := false }).jobs := by
  unfold State.endEpisode
  split
  next h => exact ⟨.refl s, (if_pos h).symm⟩
  next g r h =>
    rw [h, if_neg (List.cons_ne_nil g r)]
    have hbars (core : Nat) : s.certBars core j g cls = s := by rw [State.certBars, hruns]; rfl
    dsimp only
    rw [hbars]
    split
    · exact ⟨.refl s, rfl⟩
    · split
      · refine ⟨(s.slotReport_harvested _ _ _ _ _ _).trans (State.onJob_harvested _ _ _), ?_⟩
        exact congrArg (List.map _) (s.slotReport_sends _ _ _ _ _ _).jobs
      · exact ⟨.refl s, rfl⟩

end

/-- A harvested instance (R271): an open mismatch of a pair has ended with it (R497). -/
def Job.raked (j : Job) : Job := { j with st := .harvested, mismatch := j.mismatch && j.slots.isEmpty }

section
variable {s : State} {j : Job} (hqueue : (s.queueCfg j.queue).isSome = true) (hruns : j.runs = [])
include hqueue hruns

theorem State.harvest_frame : s.OnlyHarvested (s.harvest j) := by
  obtain ⟨c, hc⟩ := Option.isSome_iff_exists.mp hqueue
  unfold State.harvest
  rw [hc]
  dsimp only
  exact ((s.endEpisode_spec _ hruns .ucm).1.trans (State.completeFrom_spec _ _ _ _ _ _ _).1).trans (State.onJob_harvested _ _ _)

/-- A harvest changes the instance harvested. -/
theorem State.harvest_jobs (hsame : ∀ k ∈ s.jobs, k.id = j.id → k = j) :
    (s.harvest j).jobs = s.jobs.map fun k => if k.id = j.id then k.raked else k := by
  obtain ⟨c, hc⟩ := Option.isSome_iff_exists.mp hqueue
  unfold State.harvest
  rw [hc]
  dsimp only
  rw [State.onJob, (State.completeFrom_spec _ _ _ _ _ _ _).2, (s.endEpisode_spec _ hruns .ucm).2]
  dsimp only
  by_cases hslots : j.slots = []
  · rw [if_pos hslots]
    refine List.map_congr_left fun k hk => ?_
    by_cases hid : k.id = j.id
    · obtain rfl := hsame k hk hid
      rw [if_pos rfl, if_pos rfl, Job.raked, hslots, List.isEmpty_nil, Bool.and_true]
    · rw [if_neg hid, if_neg hid]
  · rw [if_neg hslots, State.onJob, List.map_map]
    refine List.map_congr_left fun k hk => ?_
    by_cases hid : k.id = j.id
    · obtain rfl := hsame k hk hid
      have hfull : k.slots.isEmpty = false := by simpa using hslots
      rw [Function.comp_apply, if_pos rfl, if_pos rfl, if_pos rfl, Job.raked, hfull, Bool.and_false, hruns]
    · rw [Function.comp_apply, if_neg hid, if_neg hid, if_neg hid]

end

/-- Instances harvested one after another: each of them changes, and no other. -/
theorem State.harvests (l : List Job) (s : State) (hsame : ∀ j ∈ l, ∀ k ∈ s.jobs, k.id = j.id → k = j) (hids : (l.map Job.id).Nodup)
    (hqueue : ∀ j ∈ l, (s.queueCfg j.queue).isSome = true) (hruns : ∀ j ∈ l, j.runs = []) :
    s.OnlyHarvested (l.foldl State.harvest s)
      ∧ (l.foldl State.harvest s).jobs = s.jobs.map fun k => if k.id ∈ l.map Job.id then k.raked else k := by
  induction l generalizing s with
  | nil => exact ⟨.refl s, (List.map_id'' (fun k => if_neg List.not_mem_nil) s.jobs).symm⟩
  | cons j l ih =>
    obtain ⟨hj, hids⟩ := List.nodup_cons.mp hids
    have hframe := State.harvest_frame (hqueue j List.mem_cons_self) (hruns j List.mem_cons_self)
    have hjobs := State.harvest_jobs (hqueue j List.mem_cons_self) (hruns j List.mem_cons_self) (hsame j List.mem_cons_self)
    obtain ⟨hframe', hjobs'⟩ := ih (s.harvest j) (fun i hi k hk hid => by
        rw [hjobs, List.mem_map] at hk
        obtain ⟨k₀, hk₀, rfl⟩ := hk
        have hne : i.id ≠ j.id := fun he => hj (he ▸ List.mem_map_of_mem hi)
        by_cases h₀ : k₀.id = j.id
        · rw [if_pos h₀] at hid
          exact absurd (hid.symm.trans h₀) hne
        · rw [if_neg h₀] at hid ⊢
          exact hsame i (List.mem_cons_of_mem j hi) k₀ hk₀ hid)
      hids (fun i hi => hframe.queueCfg i.queue ▸ hqueue i (List.mem_cons_of_mem j hi)) fun i hi => hruns i (List.mem_cons_of_mem j hi)
    refine ⟨hframe.trans hframe', ?_⟩
    rw [List.foldl_cons, hjobs', hjobs, List.map_map]
    refine List.map_congr_left fun k _ => ?_
    rw [Function.comp_apply, List.map_cons]
    by_cases hid : k.id = j.id
    · have hraked : k.raked.id = k.id := rfl
      rw [if_pos hid, if_neg (by rw [hraked, hid]; exact hj), if_pos (by rw [hid]; exact List.mem_cons_self)]
    · simp [hid]

/-- The state once every instance at its deadline is harvested. -/
def State.harvestsDue (s : State) : State := (s.jobs.filter s.harvestDue).foldl State.harvest s

theorem State.checkEvents_of_none {s : State} (h : s.attrib.events = []) : s.checkEvents = s := by
  unfold State.checkEvents
  simp only [h, List.filter_nil, List.map_nil, List.foldl_nil]
  rw [← h]

theorem State.queueCfg_of_harvestDue {s : State} {j : Job} (h : s.harvestDue j = true) : (s.queueCfg j.queue).isSome = true := by
  unfold State.harvestDue at h
  split at h
  next hc => rw [hc]; rfl
  next => simp at h

section
variable {s : State} (hinv : s.Inv) (hruns : ∀ j ∈ s.jobs, s.harvestDue j = true → j.runs = [])
include hinv hruns

theorem State.harvestsDue_spec : s.OnlyHarvested s.harvestsDue
    ∧ s.harvestsDue.jobs = s.jobs.map fun j => if s.harvestDue j then j.raked else j := by
  have hdue {j : Job} (hj : j ∈ s.jobs.filter s.harvestDue) : j ∈ s.jobs ∧ s.harvestDue j = true := List.mem_filter.mp hj
  obtain ⟨hframe, hjobs⟩ := State.harvests (s.jobs.filter s.harvestDue) s
    (fun j hj k hk hid => List.inj_on_of_nodup_map hinv.jobIds hk (hdue hj).1 hid) (hinv.jobIds.sublist (List.filter_sublist.map Job.id))
    (fun j hj => State.queueCfg_of_harvestDue (hdue hj).2) fun j hj => hruns j (hdue hj).1 (hdue hj).2
  refine ⟨hframe, hjobs.trans (List.map_congr_left fun k hk => ?_)⟩
  simp only [hinv.id_mem_filter s.harvestDue hk]

theorem exec_deadlineHarvest (hr : s.inReset = false) (hevents : s.attrib.events = []) : exec .deadlineHarvest s = .next s.harvestsDue := by
  have hattrib : s.harvestsDue.attrib = s.attrib := (State.harvestsDue_spec hinv hruns).1.attrib
  change execDeadlineHarvest s = _
  rw [execDeadlineHarvest, if_neg (by rw [hr]; exact Bool.false_ne_true), ← State.harvestsDue, State.checkEvents_of_none (hattrib ▸ hevents)]

end

/-- Settles O57: what `handOver` makes of a set, the harvests and the completions of the chosen instances one after another, and the record as its
fields in order. -/
theorem setsAndDeadlines : Obligations.SetsAndDeadlines := by
  unfold Obligations.SetsAndDeadlines
  refine ⟨fun s b x c q im hruns hready hfind him hc hq => ⟨exec_parameterSetHandover_waits hfind, fun hfirst =>
      ⟨_, exec_parameterSetHandover_hands hfind hruns hready him hc hq hfirst, State.handOver_ingest _ _ _ _, fun hopen hfit h20 hsolve => ?_,
        fun h => ?_⟩⟩,
    fun s hr hinv hevents hruns => ?_, fun s hr hinv => ?_, ?_⟩
  · rw [State.handOver_ingest, State.handOver_accepts (s := s.withoutSet x) hopen hfit (not_or.mpr ⟨Nat.not_lt.mpr h20, Nat.not_lt.mpr hsolve⟩)]
    rfl
  · rw [State.handOver_drops (s := s.withoutSet x) h]
    exact ⟨(State.bump_sends _ (.refl _)).jobs, (State.bump_count_self _ _).trans (s.bump_count_self _).symm⟩
  · obtain ⟨hframe, hjobs⟩ := State.harvestsDue_spec hinv hruns
    exact ⟨_, exec_deadlineHarvest hinv hruns hr hevents, hjobs, hframe.mem, hframe.regs, hframe.cores, hframe.queues, hframe.windows, hframe.tide⟩
  · obtain ⟨hserved, -⟩ := State.completeWaitings_jobs (s.jobs.filter s.lateDue) 8 2 s
    refine ⟨_, exec_notStartedThreshold hr, State.notStarted_jobs hinv, hserved.mem, hserved.regs, hserved.sends.cores, hserved.queues, hserved.windows,
      hserved.sends.loops, fun hnone => ?_⟩
    have hempty : s.jobs.filter s.lateDue = [] := List.filter_eq_nil_iff.mpr fun j hj hlate => by
      have := List.all_eq_true.mp hnone j hj
      simp [hlate] at this
    rw [State.notStarted, hempty]
    rfl
  · intro j guard status how input done halted blk data flags sel b hb hqueue hhow hstatus hdeadline hdone hdata
    have hfield {k ofs w n : Nat} (hw : (completionFields j guard status how halted input blk flags done sel data)[k]? = some (beBytes w n))
        (hofs : (completionWidths.take k).sum = ofs) (hn : n < 2 ^ (8 * w)) :
        beNat ((b.drop ofs).take w) = n := hb ▸ beNat_completionBytes j guard status how halted input blk flags done sel data hw hofs hn
    have hsplit := hb.trans (completionBytes_eq j guard status how halted input blk flags done sel data)
    have hlen := completionFields_length j guard status how halted input blk flags done sel data
    have hrest : b.drop 96 = data := by rw [hsplit, ← hlen, List.drop_left]
    exact ⟨by rw [hsplit, List.length_append, hlen], hfield (k := 0) rfl rfl j.tag.isLt, hfield (k := 1) rfl rfl hqueue,
      hfield (k := 2) rfl rfl j.gen.isLt, hfield (k := 3) rfl rfl (by omega), hfield (k := 9) rfl rfl hdeadline, hfield (k := 12) rfl rfl hdone,
      hfield (k := 21) rfl rfl hdata, hrest⟩

end Sys2Proof.Machine
end

section
/-!
PROOF. The job slots' commands, loops switched and cleared, host targets, and traces triggered and started anew (R343, R346, R350, R356, R383).
-/

namespace Sys2Proof.Machine

/-! ### INGEST_JOB_CTRL (R383) -/

theorem Reg.ofAddr_jobCtrl : Reg.ofAddr (Reg.addr .jobCtrl) = some .jobCtrl := by decide +kernel

theorem Reg.ofAddr_traceTrig : Reg.ofAddr (Reg.addr .traceTrig) = some .traceTrig := by decide +kernel

/-- Nothing changed but the ingest unit and registers, the reserved-write flag with its record, and what is sent and answered. -/
def State.OnlySlots (s t : State) : Prop := s.OnlyRsvd { t with ingest := s.ingest, regs := s.regs }

theorem State.OnlySlots.trans {s t u : State} (h : s.OnlySlots t) (h' : t.OnlySlots u) : s.OnlySlots u :=
  State.Sends.trans h (State.Sends.map h' fun x => { x with
    ingest := s.ingest, regs := s.regs, rsvdWrite := s.rsvdWrite, rsvdSrc := s.rsvdSrc, rsvdAddr := s.rsvdAddr, svc := s.svc })

theorem State.OnlyRsvd.slots {s t : State} (h : s.OnlyRsvd t) : s.OnlySlots t :=
  State.Sends.map h fun x => { x with ingest := s.ingest, regs := s.regs }

theorem State.OnlyRsvd.ingest {s t : State} (h : s.OnlyRsvd t) : t.ingest = s.ingest := (congrArg State.ingest (State.Sends.rest h)).trans rfl

theorem State.activateSlot_slots (s : State) (sel : Bool) : s.OnlySlots (s.activateSlot sel) := State.Sends.refl s

theorem State.clearSlot_slots (s : State) (sel : Bool) : s.OnlySlots (s.clearSlot sel) := State.Sends.refl s

theorem State.setRw_slots (s : State) (r : Reg) (w : Word) : s.OnlySlots (s.setRw r w) := State.Sends.refl s

theorem State.putFields_slots (s : State) (src : RegSrc) (r : Reg) (v : Word) :
    s.OnlySlots (s.putFields src r v) ∧ (s.putFields src r v).ingest = s.ingest := by
  unfold State.putFields
  split
  · exact ⟨State.Sends.refl s, rfl⟩
  · exact ⟨(s.fields_onlyRsvd src r v).slots.trans (State.setRw_slots _ _ _), (s.fields_onlyRsvd src r v).ingest⟩

/-- The number of a job slot. -/
def slotOf (sel : Bool) : Nat := if sel then 1 else 0

theorem State.writeJobCtrl_activate (s : State) (src : RegSrc) (sel : Bool) :
    s.writeJobCtrl src (word (2 ^ 31 + bitAt 0 sel)) = (s.putFields src .jobCtrl (word (2 ^ 31 + bitAt 0 sel))).activateSlot sel := by
  cases sel <;> rfl

theorem State.writeJobCtrl_clear (s : State) (src : RegSrc) (sel : Bool) : s.writeJobCtrl src (word (2 ^ 30 + bitAt 0 sel))
    = if s.ingest.active = some (slotOf sel) then (s.putFields src .jobCtrl (word (2 ^ 30 + bitAt 0 sel))).rsvd src .jobCtrl
      else (s.putFields src .jobCtrl (word (2 ^ 30 + bitAt 0 sel))).clearSlot sel := by
  rw [← (s.putFields_slots src .jobCtrl (word (2 ^ 30 + bitAt 0 sel))).2]
  cases sel <;> rfl

theorem exec_activate {s : State} {src : RegSrc} {sel : Bool} (ok : s.WriteOk .jobCtrl (word (2 ^ 31 + bitAt 0 sel)) src) :
    ∃ t, exec (.activate src sel) s = .next t ∧ t.ingest = { s.ingest with active := some (slotOf sel) } ∧ s.OnlySlots t := by
  obtain ⟨u, hu, -, hans⟩ := State.writeBy_ok ok Reg.ofAddr_jobCtrl rfl
  have hans : (u.writeJobCtrl src _).Answers _ := hans rfl
  rw [State.writeJobCtrl_activate] at hans
  obtain ⟨hslots, hingest⟩ := u.putFields_slots src .jobCtrl (word (2 ^ 31 + bitAt 0 sel))
  refine ⟨_, rfl, hans.ingest.trans ?_, (hu.answers.onlyRsvd.slots.trans hslots).trans ((State.activateSlot_slots _ _).trans hans.onlyRsvd.slots)⟩
  rw [← hu.ingest, ← hingest]
  rfl

theorem exec_clear {s : State} {src : RegSrc} {sel : Bool} (ok : s.WriteOk .jobCtrl (word (2 ^ 30 + bitAt 0 sel)) src) :
    ∃ t, exec (.clear src sel) s = .next t ∧ (s.ingest.active = some (slotOf sel) → t.ingest = s.ingest ∧ t.rsvdWrite = true)
      ∧ (s.ingest.active ≠ some (slotOf sel) → t.ingest = { s.ingest with refs := s.ingest.refs.filter (fun r => r.1 / 8 ≠ slotOf sel) })
      ∧ s.OnlySlots t := by
  obtain ⟨u, hu, -, hans⟩ := State.writeBy_ok ok Reg.ofAddr_jobCtrl rfl
  have hans : (u.writeJobCtrl src _).Answers _ := hans rfl
  obtain ⟨hslots, hingest⟩ := u.putFields_slots src .jobCtrl (word (2 ^ 30 + bitAt 0 sel))
  have hslots := hu.answers.onlyRsvd.slots.trans hslots
  have hingest := hingest.trans hu.ingest
  rw [State.writeJobCtrl_clear, hu.ingest] at hans
  split at hans
  next hactive =>
    have hrsvd := State.rsvd_onlyRsvd (u.putFields src .jobCtrl (word (2 ^ 30 + bitAt 0 sel))) src .jobCtrl
    exact ⟨_, rfl, fun _ => ⟨(hans.ingest.trans hrsvd.ingest).trans hingest, hans.rsvdWrite.trans (State.rsvd_rsvdWrite _ _ _)⟩,
      fun h => absurd hactive h, (hslots.trans hrsvd.slots).trans hans.onlyRsvd.slots⟩
  next hactive =>
    refine ⟨_, rfl, fun h => absurd h hactive, fun _ => hans.ingest.trans ?_, hslots.trans ((State.clearSlot_slots _ _).trans hans.onlyRsvd.slots)⟩
    rw [← hingest]
    rfl

/-! ### Loops (R343, R346, R350) -/

theorem State.Answers.trans {s t u : State} (h : s.Answers t) (h' : t.Answers u) : s.Answers u :=
  State.Sends.trans h (State.Sends.map h' fun x => { x with svc := s.svc })

theorem State.Sends.loop {s t : State} (h : s.Sends t) (n : Nat) : t.loop n = s.loop n := by rw [State.loop, h.loops, State.loop]

theorem State.Answers.loop {s t : State} (h : s.Answers t) (n : Nat) : t.loop n = s.loop n := by rw [State.loop, h.loops, State.loop]

theorem State.Sends.loopCfg {s t : State} (h : s.Sends t) (n : Nat) : t.loopCfg n = s.loopCfg n := by rw [State.loopCfg, h.sec, State.loopCfg]

theorem State.rw_congr {s t : State} (h : t.regs = s.regs) (r : Reg) : t.rw r = s.rw r := by rw [State.rw, h, State.rw]

/-- One loop changes to a given state, and nothing else but what is sent and answered. -/
structure State.LoopBecomes (s : State) (n : Nat) (l : LoopSt) (t : State) : Prop where
  self : t.loop n = l
  others : ∀ j, j ≠ n → t.loop j = s.loop j
  frame : s.Answers { t with loops := s.loops }

namespace State.LoopBecomes

variable {s t u : State} {n : Nat} {l l' : LoopSt}

theorem unchanged (s : State) (n : Nat) : s.LoopBecomes n (s.loop n) s := ⟨rfl, fun _ _ => rfl, State.Sends.refl s⟩

theorem of_answers (h : s.Answers t) (n : Nat) : s.LoopBecomes n (s.loop n) t :=
  ⟨h.loop n, fun j _ => h.loop j, State.Sends.map h fun x => { x with loops := s.loops }⟩

theorem trans (h : s.LoopBecomes n l t) (h' : t.LoopBecomes n l' u) : s.LoopBecomes n l' u :=
  ⟨h'.self, fun j hj => (h'.others j hj).trans (h.others j hj), h.frame.trans (State.Sends.map h'.frame fun x => { x with loops := s.loops })⟩

/-- The change happens between what is sent before and what is answered after. -/
theorem between {w : State} (hs : s.Sends t) (h : t.LoopBecomes n l u) (hu : u.Answers w) : s.LoopBecomes n l w := by
  refine ((of_answers hs.answers n).trans h).trans ?_
  have := of_answers hu n
  rwa [h.self] at this

theorem regs (h : s.LoopBecomes n l t) : t.regs = s.regs := (congrArg State.regs (State.Sends.rest h.frame)).trans rfl

theorem onLoop (s : State) (n : Nat) (f : LoopSt → LoopSt) : s.LoopBecomes n (f (s.loop n)) (s.onLoop n f) :=
  ⟨s.onLoop_loop n f, s.onLoop_loop_ne n f, State.Sends.refl s⟩

end State.LoopBecomes

/-- A loop that EN starts (R346): one that runs goes on as it is. -/
def LoopSt.started (now : Nat) (l : LoopSt) : LoopSt := if l.en.isSome then l else { l with en := some now }

/-- A loop that EN stops (R346). -/
def LoopSt.stopped (l : LoopSt) : LoopSt := { l with en := none, on := false }

/-- A tripped loop after FE_CLR (R343): a clear that waits already is not put off. -/
def LoopSt.clearing (now : Nat) (l : LoopSt) : LoopSt := if l.clr.isSome then l else { l with clr := some now }

theorem LoopSt.started_eq (now : Nat) (l : LoopSt) : l.started now = { l with en := some (match l.en with | some e => e | none => now) } := by
  unfold LoopSt.started
  split
  next h =>
    obtain ⟨e, he⟩ := Option.isSome_iff_exists.mp h
    rw [he]
    dsimp only
    rw [← he]
  next h => rw [Option.not_isSome_iff_eq_none.mp h]

theorem LoopSt.clearing_clr (now : Nat) (l : LoopSt) : (l.clearing now).clr = some (l.clr.getD now) := by
  unfold LoopSt.clearing
  split
  next h =>
    obtain ⟨c, hc⟩ := Option.isSome_iff_exists.mp h
    rw [hc, Option.getD_some]
  next h => rw [Option.not_isSome_iff_eq_none.mp h, Option.getD_none]

theorem LoopSt.clearing_en (now : Nat) (l : LoopSt) : (l.clearing now).en = l.en := by
  unfold LoopSt.clearing
  split <;> rfl

section
variable {s : State} {n : Nat} {w : LoopCfg} (hcfg : s.loopCfg n = some w)
include hcfg

theorem State.setEn_eq (hgroup : w.group ≠ 0) (on : Bool) :
    s.setEn n on = s.onLoop n (if on then LoopSt.started s.tide64 else LoopSt.stopped) := by
  unfold State.setEn
  rw [hcfg]
  dsimp only
  rw [if_neg hgroup]
  cases on <;> rfl

theorem State.feClr_eq : s.feClr n = if (s.loop n).status.getLsbD 31 then s.onLoop n (LoopSt.clearing s.tide64) else s := by
  unfold State.feClr
  rw [hcfg, Option.isSome_some, Bool.true_and]
  rfl

end

theorem State.loopSet_becomes (s : State) (n : Nat) (w : Word) :
    s.LoopBecomes n { s.loop n with status := (s.loop n).status ||| w } (s.loopSet n w) := by
  have hnote : s.Sends (s.note (.loopSts n) (· ||| w.toNat)) := State.note_sends _ _ (.refl s)
  have h := (State.LoopBecomes.of_answers hnote.answers n).trans (.onLoop _ n fun l => { l with status := l.status ||| w })
  rwa [hnote.loop] at h

/-- EN written as it is leaves it, and a waiting clear, as they are. -/
theorem LoopSt.switched_self (now : Nat) (l : LoopSt) :
    ((if l.en.isSome then LoopSt.started now else LoopSt.stopped) l).en = l.en
      ∧ ((if l.en.isSome then LoopSt.started now else LoopSt.stopped) l).clr = l.clr := by
  cases h : l.en with
  | none => exact ⟨rfl, rfl⟩
  | some e => simp [LoopSt.started, h]

section
variable {s : State} {src : RegSrc} {n : Fin 2048} {w : LoopCfg} (hcfg : s.loopCfg n.val = some w)
include hcfg

theorem exec_en {on : Bool} (ok : s.WriteOk (.loopCtrl n.val) (word (bitAt 0 on)) src) (hgroup : w.group ≠ 0) :
    ∃ t, exec (.en src n on) s = .next t
      ∧ s.LoopBecomes n.val ((if on then LoopSt.started s.tide64 else LoopSt.stopped) (s.loop n.val)) t := by
  obtain ⟨u, hu, -, hans⟩ := State.writeBy_ok ok (Reg.ofAddr_loopCtrl n.isLt) rfl
  have hreg : u.writeReg src (.loopCtrl n.val) (word (bitAt 0 on)) = (u.setEn n.val on).wrote := by cases on <;> rfl
  rw [hreg, State.setEn_eq ((hu.loopCfg _).trans hcfg) hgroup, hu.tide64] at hans
  have h := (State.LoopBecomes.onLoop u n.val _).between hu (hans rfl)
  rw [hu.loop] at h
  exact ⟨_, rfl, h⟩

/-- FE_CLR writes EN as it is (R343). -/
theorem exec_feClr (ok : s.WriteOk (.loopCtrl n.val) (s.cur (.loopCtrl n.val) ||| 4) src) (hgroup : w.group ≠ 0) :
    ∃ t l, exec (.feClr src n) s = .next t ∧ s.LoopBecomes n.val l t ∧ l.en = (s.loop n.val).en
      ∧ l.clr = if (s.loop n.val).status.getLsbD 31 then some ((s.loop n.val).clr.getD s.tide64) else (s.loop n.val).clr := by
  obtain ⟨u, hu, -, hans⟩ := State.writeBy_ok ok (Reg.ofAddr_loopCtrl n.isLt) rfl
  have hcur : s.cur (.loopCtrl n.val) = word (bitAt 0 (s.loop n.val).en.isSome) := by
    change word (bitAt 0 ((s.loopCfg n.val).isSome && _)) = _
    rw [hcfg, Option.isSome_some, Bool.true_and]
  have hreg : u.writeReg src (.loopCtrl n.val) (s.cur (.loopCtrl n.val) ||| 4) = ((u.feClr n.val).setEn n.val (s.loop n.val).en.isSome).wrote := by
    rw [hcur]
    cases (s.loop n.val).en.isSome <;> rfl
  have hcfg' := (hu.loopCfg n.val).trans hcfg
  obtain ⟨l, hclear, hen, hclr⟩ : ∃ l, u.LoopBecomes n.val l (u.feClr n.val) ∧ l.en = (s.loop n.val).en
      ∧ l.clr = if (s.loop n.val).status.getLsbD 31 then some ((s.loop n.val).clr.getD s.tide64) else (s.loop n.val).clr := by
    rw [State.feClr_eq hcfg', hu.loop]
    split
    · refine ⟨_, .onLoop u n.val _, ?_, ?_⟩
      · rw [LoopSt.clearing_en, hu.loop]
      · rw [LoopSt.clearing_clr, hu.loop, hu.tide64]
    · exact ⟨_, .unchanged u n.val, congrArg LoopSt.en (hu.loop _), congrArg LoopSt.clr (hu.loop _)⟩
  have hcfg'' : (u.feClr n.val).loopCfg n.val = some w := by rw [← hcfg', State.loopCfg, hclear.frame.sec, State.loopCfg]
  rw [hreg, State.setEn_eq hcfg'' hgroup] at hans
  have h := (hclear.trans (.onLoop _ n.val _)).between hu (hans rfl)
  rw [hclear.self, ← hen] at h
  obtain ⟨hen', hclr'⟩ := LoopSt.switched_self (u.feClr n.val).tide64 l
  exact ⟨_, _, rfl, h, hen'.trans hen, hclr'.trans hclr⟩

end

/-- The register a host writes its target or feed-forward to (R350). -/
def hostReg (n : Nat) (ff : Bool) : Reg := if ff then .loopHostFf n else .loopHostTarget n

theorem Reg.ofAddr_hostReg (n : Fin 2048) (ff : Bool) : Reg.ofAddr (hostReg n.val ff).addr = some (hostReg n.val ff) := by
  cases ff
  · exact Reg.ofAddr_loopHostTarget n.isLt
  · exact Reg.ofAddr_loopHostFf n.isLt

theorem State.writeReg_hostReg (s : State) (src : RegSrc) (n : Nat) (ff : Bool) (m : BitVec 24) :
    s.writeReg src (hostReg n ff) (m.setWidth 32) = (s.hostLoop n ff m).wrote := by
  have hwidth : (m.setWidth 32).setWidth 24 = m := by
    rw [BitVec.setWidth_setWidth_of_le _ (by decide), BitVec.setWidth_eq]
  cases ff
  · exact congrArg (fun x => (s.hostLoop n false x).wrote) hwidth
  · exact congrArg (fun x => (s.hostLoop n true x).wrote) hwidth

/-- Nothing changed but loops and registers, and what is sent and answered. -/
def State.OnlyTargets (s t : State) : Prop := s.Answers { t with loops := s.loops, regs := s.regs }

theorem State.OnlyTargets.trans {s t u : State} (h : s.OnlyTargets t) (h' : t.OnlyTargets u) : s.OnlyTargets u :=
  State.Sends.trans h (State.Sends.map h' fun x => { x with loops := s.loops, regs := s.regs, svc := s.svc })

theorem State.Answers.onlyTargets {s t : State} (h : s.Answers t) : s.OnlyTargets t :=
  State.Sends.map h fun x => { x with loops := s.loops, regs := s.regs }

theorem State.LoopBecomes.onlyTargets {s t : State} {n : Nat} {l : LoopSt} (h : s.LoopBecomes n l t) : s.OnlyTargets t :=
  State.Sends.map h.frame fun x => { x with loops := s.loops, regs := s.regs }

theorem State.setRw_onlyTargets (s : State) (r : Reg) (w : Word) : s.OnlyTargets (s.setRw r w) := State.Sends.refl s

/-- A value that a host hands to a loop (R350). -/
def State.hostHoff (s : State) (ff : Bool) (m : BitVec 24) : Hoff :=
  { at' := s.tide64, cyc := s.nclk, field := if ff then .ffExt else .target, mant := m.toInt, sat := false }

/-- A loop that waits to take such a value. -/
def LoopSt.handed (h : Hoff) (l : LoopSt) : LoopSt := { l with hoff := addHoff h l.hoff }

theorem mem_addHoff (h : Hoff) (l : List Hoff) : h ∈ addHoff h l := by
  induction l with
  | nil => exact List.mem_singleton_self h
  | cons x r ih =>
    rw [addHoff]
    split
    · exact List.mem_cons_self
    · exact List.mem_cons_of_mem x ih

section
variable {s : State} {src : RegSrc} {n : Fin 2048} {ff : Bool} {m : BitVec 24} {w : LoopCfg} (hcfg : s.loopCfg n.val = some w)
  (ok : s.WriteOk (hostReg n.val ff) (m.setWidth 32) src)
include hcfg ok

theorem exec_loopHostTargetWrite_hands (hhost : w.spHost = true) : ∃ t, exec (.loopHostTargetWrite src n ff m) s = .next t
    ∧ t.rw (hostReg n.val ff) = m.setWidth 32 ∧ (t.loop n.val).hoff = addHoff (s.hostHoff ff m) (s.loop n.val).hoff
    ∧ (∀ j, j ≠ n.val → t.loop j = s.loop j) ∧ s.OnlyTargets t := by
  obtain ⟨u, hu, -, hans⟩ := State.writeBy_ok ok (Reg.ofAddr_hostReg n ff) (by cases ff <;> rfl)
  have hhoff : s.hostHoff ff m = u.hostHoff ff m := by rw [State.hostHoff, State.hostHoff, hu.tide64, hu.nclk]
  have hloop : u.hostLoop n.val ff m
      = (u.setRw (hostReg n.val ff) (m.setWidth 32)).onLoop n.val (LoopSt.handed (s.hostHoff ff m)) := by
    rw [hhoff, State.hostLoop, hu.loopCfg, hcfg]
    exact if_pos hhost
  rw [State.writeReg_hostReg, hloop] at hans
  have h := (State.LoopBecomes.onLoop (u.setRw (hostReg n.val ff) (m.setWidth 32)) n.val
    (LoopSt.handed (s.hostHoff ff m))).between (.refl _) (hans rfl)
  have hbefore (j : Nat) : (u.setRw (hostReg n.val ff) (m.setWidth 32)).loop j = s.loop j := hu.loop j
  exact ⟨_, rfl, (State.rw_congr h.regs _).trans (u.setRw_rw _ _), congrArg LoopSt.hoff (h.self.trans (congrArg (LoopSt.handed _) (hbefore _))),
    fun j hj => (h.others j hj).trans (hbefore j), (hu.answers.onlyTargets.trans (u.setRw_onlyTargets _ _)).trans h.onlyTargets⟩

/-- A loop whose set-point no host gives counts the write as an error (R350). -/
theorem exec_loopHostTargetWrite_refuses (hhost : w.spHost = false) : ∃ t, exec (.loopHostTargetWrite src n ff m) s = .next t
    ∧ s.LoopBecomes n.val { s.loop n.val with status := putBit (s.loop n.val).status 27 true } t := by
  obtain ⟨u, hu, -, hans⟩ := State.writeBy_ok ok (Reg.ofAddr_hostReg n ff) (by cases ff <;> rfl)
  have hloop : u.hostLoop n.val ff m = u.loopSet n.val (stBit 27) := by
    rw [State.hostLoop, hu.loopCfg, hcfg]
    exact if_neg (by rw [hhost]; exact Bool.false_ne_true)
  rw [State.writeReg_hostReg, hloop] at hans
  have h := (u.loopSet_becomes n.val (stBit 27)).between hu (hans rfl)
  rw [hu.loop] at h
  exact ⟨_, rfl, h⟩

end

/-! ### Traces (R356, R357) -/

/-- Nothing changed but traces, the free values taken to fill pages, and what is sent and answered. -/
def State.OnlyTraces (s t : State) : Prop := s.Answers { t with traces := s.traces, free := s.free }

namespace State.OnlyTraces

variable {s t u : State}

theorem refl (s : State) : s.OnlyTraces s := State.Sends.refl s

theorem trans (h : s.OnlyTraces t) (h' : t.OnlyTraces u) : s.OnlyTraces u :=
  State.Sends.trans h (State.Sends.map h' fun x => { x with traces := s.traces, free := s.free, svc := s.svc })

theorem of_answers (h : s.Answers t) : s.OnlyTraces t := State.Sends.map h fun x => { x with traces := s.traces, free := s.free }

theorem regs (h : s.OnlyTraces t) : t.regs = s.regs := (congrArg State.regs (State.Sends.rest h)).trans rfl

theorem rwField (h : s.OnlyTraces t) (r : Reg) (hi lo : Nat) : t.rwField r hi lo = s.rwField r hi lo := by
  rw [State.rwField, State.rw_congr h.regs, State.rwField]

end State.OnlyTraces

theorem State.onTrace_onlyTraces (s : State) (n : Nat) (f : TraceSt → TraceSt) : s.OnlyTraces (s.onTrace n f) := State.Sends.refl s

/-- The pages of one trace have changed, and not whether it has been triggered, nor whose it is. -/
structure State.Pages (s : State) (n : Nat) (t : State) : Prop where
  frame : s.OnlyTraces t
  others : ∀ j, j ≠ n → t.trace j = s.trace j
  trig : (t.trace n).trig = (s.trace n).trig
  owner : (t.trace n).owner = (s.trace n).owner

namespace State.Pages

variable {s t u : State} {n : Nat}

theorem refl (s : State) (n : Nat) : s.Pages n s := ⟨.refl s, fun _ _ => rfl, rfl, rfl⟩

theorem trans (h : s.Pages n t) (h' : t.Pages n u) : s.Pages n u :=
  ⟨h.frame.trans h'.frame, fun j hj => (h'.others j hj).trans (h.others j hj), h'.trig.trans h.trig, h'.owner.trans h.owner⟩

theorem of_sends (h : s.Sends t) : s.Pages n t := by
  have htrace (j : Nat) : t.trace j = s.trace j := by rw [State.trace, h.traces, State.trace]
  exact ⟨.of_answers h.answers, fun j _ => htrace j, congrArg TraceSt.trig (htrace n), congrArg TraceSt.owner (htrace n)⟩

theorem onTrace {f : TraceSt → TraceSt} (htrig : (f (s.trace n)).trig = (s.trace n).trig) (howner : (f (s.trace n)).owner = (s.trace n).owner) :
    s.Pages n (s.onTrace n f) :=
  ⟨State.Sends.refl s, s.onTrace_trace_ne n f, (congrArg TraceSt.trig (s.onTrace_trace n f)).trans htrig,
    (congrArg TraceSt.owner (s.onTrace_trace n f)).trans howner⟩

theorem takeFree (s : State) (n w : Nat) : s.Pages n (s.takeFree w).2 := ⟨State.Sends.refl s, fun _ _ => rfl, rfl, rfl⟩

theorem foldl {α : Type} {f : State → α → State} (hf : ∀ (t : State) x, t.Pages n (f t x)) (l : List α) (s : State) : s.Pages n (l.foldl f s) :=
  List.foldlRecOn (motive := s.Pages n) l f (refl s n) fun t ht x _ => ht.trans (hf t x)

end State.Pages

/-- A page closed: the trace holds no record in a page. -/
theorem State.closePage_pages (s : State) (n loop : Nat) : s.Pages n (s.closePage n loop) ∧ ((s.closePage n loop).trace n).recs = 0 := by
  unfold State.closePage
  dsimp only
  split
  · exact ⟨.refl s n, ‹_›⟩
  · refine ⟨(State.Pages.takeFree s n _).trans (.onTrace rfl rfl), ?_⟩
    rw [State.onTrace_trace]

/-- A page closed where a record does not fit it. -/
def State.fitPage (s : State) (n loop : Nat) (r : List Byte) : State :=
  if 4096 < (s.trace n).page.length + r.length then s.closePage n loop else s

theorem State.fitPage_pages (s : State) (n loop : Nat) (r : List Byte) : s.Pages n (s.fitPage n loop r) := by
  unfold State.fitPage
  split
  · exact (s.closePage_pages n loop).1
  · exact .refl s n

theorem State.putRec_eq (s : State) (n loop : Nat) (r : List Byte) : s.putRec n loop r =
    if 24 ≤ ((s.fitPage n loop r).trace n).pages.length then (s.fitPage n loop r).bump .traceLost
    else ((s.fitPage n loop r).onTrace n fun t => { t with page := t.page ++ r, recs := t.recs + 1 }).fitPage n loop r := rfl

theorem State.putRec_pages (s : State) (n loop : Nat) (r : List Byte) : s.Pages n (s.putRec n loop r) := by
  rw [State.putRec_eq]
  split
  · exact (s.fitPage_pages n loop r).trans (.of_sends (State.bump_sends _ (.refl _)))
  · exact ((s.fitPage_pages n loop r).trans (.onTrace rfl rfl)).trans (State.fitPage_pages _ n loop r)

theorem State.dropPages_pages (s : State) (n : Nat) : s.Pages n (s.dropPages n) ∧ ((s.dropPages n).trace n).recs = (s.trace n).recs := by
  have hbumps (k : Nat) (t : State) : t.Sends ((List.range k).foldl (fun s _ => s.bump .traceLost) t) :=
    sends_foldl _ _ t (fun _ _ h => State.bump_sends _ h) (.refl t)
  have hdrop : (s.onTrace n fun t => { t with pages := [] }).Sends (s.dropPages n) := hbumps _ _
  refine ⟨State.Pages.trans (.onTrace rfl rfl) (.of_sends hdrop), ?_⟩
  rw [State.trace, hdrop.traces]
  exact (congrArg TraceSt.recs (s.onTrace_trace n fun t => { t with pages := [] })).trans rfl

/-- A trigger leaves the other traces as they are. -/
theorem State.trigger_spec (s : State) (n : Nat) :
    s.OnlyTraces (s.trigger n) ∧ (∀ j, j ≠ n → (s.trigger n).trace j = s.trace j) ∧ ((s.trigger n).trace n).trig = true := by
  unfold State.trigger
  dsimp only
  split
  · exact ⟨.refl s, fun _ _ => rfl, ‹_›⟩
  · have hpages := State.Pages.foldl (n := n) (fun t r => t.putRec_pages n (s.rwField (.traceCtrl n) 26 16) r) (s.trace n).pre
      (s.onTrace n fun t => { t with trig := true, pre := [] })
    refine ⟨(s.onTrace_onlyTraces n _).trans hpages.frame, fun j hj => (hpages.others j hj).trans (s.onTrace_trace_ne _ _ j hj), hpages.trig.trans ?_⟩
    rw [State.onTrace_trace]

/-- Whether a write of LOOP_TRACE_TRIG triggers a trace (R356). -/
def State.triggers (s : State) (mask : BitVec 16) (n : Nat) : Bool :=
  mask.getLsbD n && decide (s.rwField (.traceCtrl n) 31 31 = 1) && decide (s.rwField (.traceCtrl n) 30 29 = 2)

/-- One trace, triggered where the mask names it. -/
def State.triggerIn (mask : BitVec 16) (s : State) (n : Nat) : State := if s.triggers mask n then s.trigger n else s

theorem State.triggerIn_spec (s : State) (mask : BitVec 16) (n : Nat) : s.OnlyTraces (s.triggerIn mask n)
    ∧ ∀ j, ((s.triggerIn mask n).trace j).trig = ((s.trace j).trig || (decide (j = n) && s.triggers mask j)) := by
  unfold State.triggerIn
  split
  next h =>
    obtain ⟨hframe, hothers, htrig⟩ := s.trigger_spec n
    refine ⟨hframe, fun j => ?_⟩
    by_cases hj : j = n
    · rw [hj, htrig, h, decide_eq_true rfl, Bool.and_true, Bool.or_true]
    · rw [hothers j hj, decide_eq_false hj, Bool.false_and, Bool.or_false]
  next h =>
    refine ⟨.refl s, fun j => ?_⟩
    by_cases hj : j = n
    · rw [hj, Bool.eq_false_of_not_eq_true h, Bool.and_false, Bool.or_false]
    · rw [decide_eq_false hj, Bool.false_and, Bool.or_false]

theorem State.OnlyTraces.triggers {s t : State} (h : s.OnlyTraces t) (mask : BitVec 16) (n : Nat) : t.triggers mask n = s.triggers mask n := by
  rw [State.triggers, h.rwField, h.rwField, State.triggers]

theorem State.triggerIns_spec (mask : BitVec 16) (l : List Nat) (s : State) : s.OnlyTraces (l.foldl (State.triggerIn mask) s)
    ∧ ∀ j, ((l.foldl (State.triggerIn mask) s).trace j).trig = ((s.trace j).trig || (decide (j ∈ l) && s.triggers mask j)) := by
  induction l generalizing s with
  | nil => exact ⟨.refl s, fun j => by simp⟩
  | cons n l ih =>
    obtain ⟨hframe, htrig⟩ := s.triggerIn_spec mask n
    obtain ⟨hframe', htrig'⟩ := ih (s.triggerIn mask n)
    refine ⟨hframe.trans hframe', fun j => ?_⟩
    rw [List.foldl_cons, htrig', htrig, hframe.triggers, Bool.or_assoc, ← Bool.and_or_distrib_right]
    simp only [List.mem_cons, Bool.decide_or]

theorem State.traceTrig_eq (s : State) (mask : BitVec 16) : s.traceTrig mask = (List.range 16).foldl (State.triggerIn mask) s := rfl

theorem exec_loopTraceTrig {s : State} {src : RegSrc} {mask : BitVec 16} (ok : s.WriteOk .traceTrig (mask.setWidth 32) src) :
    ∃ t, exec (.loopTraceTrig src mask) s = .next t ∧ s.OnlyTraces t
      ∧ ∀ j, j < 16 → (t.trace j).trig = ((s.trace j).trig || s.triggers mask j) := by
  obtain ⟨u, hu, -, hans⟩ := State.writeBy_ok ok Reg.ofAddr_traceTrig rfl
  have hans : (u.traceTrig ((mask.setWidth 32).setWidth 16)).Answers _ := hans rfl
  rw [BitVec.setWidth_setWidth_of_le _ (by decide), BitVec.setWidth_eq, State.traceTrig_eq] at hans
  obtain ⟨hframe, htrig⟩ := State.triggerIns_spec mask (List.range 16) u
  refine ⟨_, rfl, ((State.OnlyTraces.of_answers hu.answers).trans hframe).trans (.of_answers hans), fun j hj => ?_⟩
  rw [State.trace, hans.traces]
  rw [← State.trace, htrig, decide_eq_true (List.mem_range.mpr hj), Bool.true_and, (State.OnlyTraces.of_answers hu.answers).triggers,
    State.trace, hu.traces, ← State.trace]

/-! ### LOOP_TRACE_n_CTRL -/

/-- Nothing changed but traces, registers and free values, the reserved-write flag with its record, and what is sent and answered. -/
def State.OnlyTraceRegs (s t : State) : Prop := s.OnlyRsvd { t with traces := s.traces, regs := s.regs, free := s.free }

theorem State.OnlyTraceRegs.trans {s t u : State} (h : s.OnlyTraceRegs t) (h' : t.OnlyTraceRegs u) : s.OnlyTraceRegs u :=
  State.Sends.trans h (State.Sends.map h' fun x => { x with
    traces := s.traces, regs := s.regs, free := s.free, rsvdWrite := s.rsvdWrite, rsvdSrc := s.rsvdSrc, rsvdAddr := s.rsvdAddr, svc := s.svc })

theorem State.OnlyRsvd.traceRegs {s t : State} (h : s.OnlyRsvd t) : s.OnlyTraceRegs t :=
  State.Sends.map h fun x => { x with traces := s.traces, regs := s.regs, free := s.free }

theorem State.OnlyTraces.traceRegs {s t : State} (h : s.OnlyTraces t) : s.OnlyTraceRegs t :=
  State.Sends.map h fun x => { x with
    traces := s.traces, regs := s.regs, free := s.free, rsvdWrite := s.rsvdWrite, rsvdSrc := s.rsvdSrc, rsvdAddr := s.rsvdAddr }

theorem State.OnlyRsvd.traces {s t : State} (h : s.OnlyRsvd t) : t.traces = s.traces := (congrArg State.traces (State.Sends.rest h)).trans rfl

/-- A trace that its control starts anew (R356). -/
structure State.Restarts (s : State) (port : Option (Port × Fin 8)) (n : Nat) (v : Word) (t : State) : Prop where
  frame : s.OnlyTraceRegs t
  regs : t.regs = (s.setRw (.traceCtrl n) v).regs
  others : ∀ j, j ≠ n → t.trace j = s.trace j
  trig : (t.trace n).trig = false
  pre : (t.trace n).pre = []
  recs : (t.trace n).recs = 0
  owner : (t.trace n).owner = port.or (s.trace n).owner

theorem State.traceCtrl_restarts (s : State) (port : Option (Port × Fin 8)) (n : Nat) (v : Word) : s.Restarts port n v (s.traceCtrl port n v) := by
  obtain ⟨u, hpages, hrecs, heq⟩ : ∃ u, s.Pages n u ∧ (u.trace n).recs = 0
      ∧ s.traceCtrl port n v = (u.setRw (.traceCtrl n) v).onTrace n fun t => { t with owner := port.or t.owner, trig := false, pre := [] } := by
    obtain ⟨hpages, hrecs⟩ := s.closePage_pages n (s.rwField (.traceCtrl n) 26 16)
    unfold State.traceCtrl
    dsimp only
    split
    · obtain ⟨hdrop, hsame⟩ := (s.closePage n (s.rwField (.traceCtrl n) 26 16)).dropPages_pages n
      exact ⟨_, hpages.trans hdrop, hsame.trans hrecs, rfl⟩
    · exact ⟨_, hpages, hrecs, rfl⟩
  have hself : (s.traceCtrl port n v).trace n = { u.trace n with owner := port.or (u.trace n).owner, trig := false, pre := [] } :=
    heq ▸ State.onTrace_trace _ n _
  have hlast : u.OnlyTraceRegs (s.traceCtrl port n v) := heq ▸ State.Sends.refl u
  refine ⟨hpages.frame.traceRegs.trans hlast, ?_, fun j hj => ?_, ?_, ?_, ?_, ?_⟩
  · rw [heq]
    exact congrArg (fun m : SMap Word => m.put _ v) hpages.frame.regs
  · rw [heq]
    exact (State.onTrace_trace_ne _ n _ j hj).trans (hpages.others j hj)
  · rw [hself]
  · rw [hself]
  · rw [hself]
    exact hrecs
  · rw [hself, ← hpages.owner]

theorem exec_loopTraceCtrlWrite {s : State} {src : RegSrc} {k : Fin 16} {v : Word} (ok : s.WriteOk (.traceCtrl k.val) v src) :
    ∃ t, exec (.loopTraceCtrlWrite src k v) s = .next t ∧ s.Restarts (RegSrc.sender src) k.val (s.stored (.traceCtrl k.val) v) t := by
  obtain ⟨u, hu, -, hans⟩ := State.writeBy_ok ok (Reg.ofAddr_traceCtrl k.isLt) rfl
  have hstored : u.stored (.traceCtrl k.val) v = s.stored (.traceCtrl k.val) v := by rw [State.stored, hu.cur, State.stored]
  have hans : ((u.fields src (.traceCtrl k.val) v).2.traceCtrl (RegSrc.sender src) k.val (u.stored (.traceCtrl k.val) v)).Answers _ := hans rfl
  rw [hstored] at hans
  have hrsvd := hu.answers.onlyRsvd.trans (u.fields_onlyRsvd src (.traceCtrl k.val) v)
  have h := (u.fields src (.traceCtrl k.val) v).2.traceCtrl_restarts (RegSrc.sender src) k.val (s.stored (.traceCtrl k.val) v)
  have hbefore (j : Nat) : (u.fields src (.traceCtrl k.val) v).2.trace j = s.trace j := by rw [State.trace, hrsvd.traces, State.trace]
  have hafter (j : Nat) : (s.writeBy src (.traceCtrl k.val) v).trace j = _ := (congrArg (fun m : SMap TraceSt => m.getD j {}) hans.traces :)
  refine ⟨_, rfl, ⟨(hrsvd.traceRegs.trans h.frame).trans hans.onlyRsvd.traceRegs, ?_, fun j hj => ?_, ?_, ?_, ?_, ?_⟩⟩
  · exact (hans.regs.trans h.regs).trans (congrArg (fun m : SMap Word => m.put _ _) hrsvd.regs)
  · exact ((hafter j).trans (h.others j hj)).trans (hbefore j)
  · exact (congrArg TraceSt.trig (hafter k.val)).trans h.trig
  · exact (congrArg TraceSt.pre (hafter k.val)).trans h.pre
  · exact (congrArg TraceSt.recs (hafter k.val)).trans h.recs
  · exact ((congrArg TraceSt.owner (hafter k.val)).trans h.owner).trans (by rw [hbefore])

/-- Settles O28: each command is one write, which changes the ingest unit, one loop or traces between what the message's checks and its answer send. -/
theorem ingestAndLoopCommands : Obligations.IngestAndLoopCommands := by
  intro s src sel n w m ff mask k v
  refine ⟨exec_activate, exec_clear, fun hcfg hgroup => ⟨fun ok => ?starts, fun ok => ?stops, fun ok => ?clears⟩, fun hcfg ok => ?host,
    fun ok => ?triggers, fun ok => ?restarts⟩
  case starts =>
    obtain ⟨t, hexec, h⟩ := exec_en (on := true) hcfg ok hgroup
    exact ⟨t, hexec, h.self.trans (LoopSt.started_eq _ _), h.others, h.frame⟩
  case stops =>
    obtain ⟨t, hexec, h⟩ := exec_en (on := false) hcfg ok hgroup
    exact ⟨t, hexec, h.self, h.others, h.frame⟩
  case clears =>
    obtain ⟨t, l, hexec, h, hen, hclr⟩ := exec_feClr hcfg ok hgroup
    exact ⟨t, hexec, (congrArg LoopSt.clr h.self).trans hclr, (congrArg LoopSt.en h.self).trans hen, h.others, h.frame⟩
  case host =>
    cases hhost : w.spHost with
    | true =>
      obtain ⟨t, hexec, hrw, hhoff, hothers, hframe⟩ := exec_loopHostTargetWrite_hands hcfg ok hhost
      exact ⟨t, hexec, fun _ => ⟨hrw, hhoff ▸ mem_addHoff _ _⟩, fun h => Bool.noConfusion h, hothers, hframe⟩
    | false =>
      obtain ⟨t, hexec, h⟩ := exec_loopHostTargetWrite_refuses hcfg ok hhost
      exact ⟨t, hexec, fun h => Bool.noConfusion h, fun _ => ⟨h.regs, congrArg LoopSt.status h.self, (congrArg LoopSt.hoff h.self).trans rfl⟩, h.others,
        h.onlyTargets⟩
  case triggers =>
    obtain ⟨t, hexec, hframe, htrig⟩ := exec_loopTraceTrig ok
    exact ⟨t, hexec, htrig, hframe⟩
  case restarts =>
    obtain ⟨t, hexec, h⟩ := exec_loopTraceCtrlWrite ok
    refine ⟨t, hexec, (State.rw_congr h.regs _).trans (State.setRw_rw _ _ _), h.trig, h.pre, h.recs, h.owner, h.others, fun r hne => ?_, h.frame⟩
    exact (State.rw_congr h.regs _).trans (State.setRw_rw_ne _ _ hne)

end Sys2Proof.Machine
end

section
/-!
PROOF. What the ingest unit's steps leave, bindings that fire, measurement frames and field conditioners (R363, R364, R366-R370, R372, R390-R392).
-/

namespace Sys2Proof.Machine

/-! ### The ingest unit -/

theorem State.onStream_stream (s : State) (n : Nat) (f : StreamSt → StreamSt) : (s.onStream n f).stream n = f (s.stream n) :=
  SMap.getD_put_self _ _ _ _

theorem State.onStream_stream_ne (s : State) (n : Nat) (f : StreamSt → StreamSt) {m : Nat} (h : m ≠ n) : (s.onStream n f).stream m = s.stream m :=
  SMap.getD_put_ne _ _ _ h

theorem State.onField_field (s : State) (k : Nat) (f : FieldSt → FieldSt) : (s.onField k f).field k = f (s.field k) :=
  SMap.getD_put_self _ _ _ _

theorem State.onField_field_ne (s : State) (k : Nat) (f : FieldSt → FieldSt) {j : Nat} (h : j ≠ k) : (s.onField k f).field j = s.field j :=
  SMap.getD_put_ne _ _ _ h

/-- Nothing changed but the ingest unit, free values taken, what is reported of pages that are read, and what is sent; no counter moved but some
named ones. -/
structure State.InIngest (cs : List Ctr) (s t : State) : Prop where
  frame : s.Sends { t with ingest := s.ingest, free := s.free, hbus := s.hbus, logs := s.logs }
  counts : ∀ d : Ctr, (∀ c ∈ cs, d.addr ≠ c.addr) → t.count d = s.count d

namespace State.InIngest

variable {s t u : State} {cs : List Ctr}

theorem refl (s : State) : s.InIngest cs s := ⟨State.Sends.refl s, fun _ _ => rfl⟩

theorem trans (h : s.InIngest cs t) (h' : t.InIngest cs u) : s.InIngest cs u :=
  ⟨State.Sends.trans h.frame (State.Sends.map h'.frame fun x => { x with ingest := s.ingest, free := s.free, hbus := s.hbus, logs := s.logs }),
    fun d hd => (h'.counts d hd).trans (h.counts d hd)⟩

theorem mono {cs' : List Ctr} (h : s.InIngest cs t) (hc : ∀ c ∈ cs, c ∈ cs') : s.InIngest cs' t :=
  ⟨h.frame, fun d hd => h.counts d fun c hmem => hd c (hc c hmem)⟩

theorem of_sends (h : s.Sends t) (hc : ∀ d : Ctr, (∀ c ∈ cs, d.addr ≠ c.addr) → t.count d = s.count d) : s.InIngest cs t :=
  ⟨State.Sends.map h fun x => { x with ingest := s.ingest, free := s.free, hbus := s.hbus, logs := s.logs }, hc⟩

theorem of_fetched (h : s.OnlyFetched t) : s.InIngest cs t :=
  ⟨h.sends.map fun x => { x with ingest := s.ingest, free := s.free }, fun d _ => by rw [State.count, h.counts, State.count]⟩

theorem bump (s : State) {c : Ctr} (hc : c ∈ cs) : s.InIngest cs (s.bump c) :=
  of_sends (State.bump_sends c (.refl s)) fun _ hd => s.bump_count_ne (hd c hc)

theorem note (s : State) (r : Reg) (f : Nat → Nat) : s.InIngest cs (s.note r f) := of_sends (State.note_sends r f (.refl s)) fun _ _ => rfl

theorem onIngest (s : State) (f : Ingest → Ingest) : s.InIngest cs (s.onIngest f) := ⟨State.Sends.refl s, fun _ _ => rfl⟩

theorem onStream (s : State) (n : Nat) (f : StreamSt → StreamSt) : s.InIngest cs (s.onStream n f) := onIngest s _

theorem onField (s : State) (k : Nat) (f : FieldSt → FieldSt) : s.InIngest cs (s.onField k f) := onIngest s _

theorem ite {b : Prop} [Decidable b] (h : s.InIngest cs t) (h' : s.InIngest cs u) : s.InIngest cs (if b then t else u) := by
  split
  · exact h
  · exact h'

theorem foldl {α : Type} {f : State → α → State} (hf : ∀ (t : State) x, t.InIngest cs (f t x)) (l : List α) (s : State) :
    s.InIngest cs (l.foldl f s) :=
  List.foldlRecOn (motive := s.InIngest cs) l f (refl s) fun t ht x _ => ht.trans (hf t x)

theorem mem (h : s.InIngest cs t) : t.mem = s.mem := (congrArg State.mem (State.Sends.rest h.frame)).trans rfl
theorem regs (h : s.InIngest cs t) : t.regs = s.regs := (congrArg State.regs (State.Sends.rest h.frame)).trans rfl
theorem jobs (h : s.InIngest cs t) : t.jobs = s.jobs := (congrArg State.jobs (State.Sends.rest h.frame)).trans rfl
theorem queues (h : s.InIngest cs t) : t.queues = s.queues := (congrArg State.queues (State.Sends.rest h.frame)).trans rfl
theorem tide (h : s.InIngest cs t) : t.tide = s.tide := (congrArg State.tide (State.Sends.rest h.frame)).trans rfl
theorem sec (h : s.InIngest cs t) : t.sec = s.sec := (congrArg State.sec (State.Sends.rest h.frame)).trans rfl

end State.InIngest

theorem State.bump_ingest (s : State) (c : Ctr) : (s.bump c).ingest = s.ingest := (State.bump_sends c (.refl s)).ingest

/-! ### Bindings that fire (R390-R392) -/

/-- A set that a binding has made of a frame's capture time (R390). -/
def PsetCfg.fired (c : PsetCfg) (firing b capture : Nat) (x : PsetSt) : Prop :=
  x.firing = firing ∧ x.binding = b ∧ x.deadline = (capture + c.deadlineOfs) % 2 ^ 64

/-- A state in which bindings have fired: of the ingest unit only the sets have changed, each new one as `made` says, and what each binding has seen. -/
structure State.Fires (made : PsetSt → Prop) (s t : State) : Prop where
  frame : s.InIngest [.psetDrop] t
  ingest : t.ingest = { s.ingest with psets := t.ingest.psets, fired := t.ingest.fired }
  psets : ∀ x ∈ t.ingest.psets, x ∈ s.ingest.psets ∨ made x

namespace State.Fires

variable {s t u : State} {made made' : PsetSt → Prop}

theorem refl (s : State) : s.Fires made s := ⟨.refl s, rfl, fun _ h => .inl h⟩

theorem trans (h : s.Fires made t) (h' : t.Fires made u) : s.Fires made u where
  frame := h.frame.trans h'.frame
  ingest := by
    conv_lhs => rw [h'.ingest]
    rw [h.ingest]
  psets x hx := (h'.psets x hx).elim (h.psets x) .inr

theorem mono (h : s.Fires made t) (hm : ∀ x, made x → made' x) : s.Fires made' t := ⟨h.frame, h.ingest, fun x hx => (h.psets x hx).imp_right (hm x)⟩

theorem firing (h : s.Fires made t) : t.ingest.firing = s.ingest.firing := by rw [h.ingest]

end State.Fires

theorem State.fire_fires (s : State) (now b capture : Nat) (c : PsetCfg) :
    s.Fires (c.fired s.ingest.firing b capture) (s.fire now b capture c) := by
  unfold State.fire
  dsimp only
  split
  · exact ⟨.bump s (List.mem_singleton_self _), by rw [State.bump_ingest], fun x hx => .inl (s.bump_ingest _ ▸ hx)⟩
  · refine ⟨⟨State.Sends.refl s, fun _ _ => rfl⟩, rfl, fun x hx => ?_⟩
    refine (List.mem_append.mp hx).imp id fun hx => ?_
    obtain rfl := List.mem_singleton.mp hx
    exact ⟨rfl, rfl, rfl⟩

/-- The bindings that a stream triggers have fired. -/
theorem State.fireAll_spec (s : State) (now n capture : Nat) :
    s.InIngest [.psetDrop] (s.fireAll now n capture) ∧ (s.fireAll now n capture).ingest.fields = s.ingest.fields
      ∧ (s.fireAll now n capture).ingest.streams = s.ingest.streams
      ∧ ∀ im, s.sec.image = some im → ∀ x ∈ (s.fireAll now n capture).ingest.psets, x ∈ s.ingest.psets
          ∨ ∃ b ∈ im.psets, b.2.trigger = n ∧ b.2.fired (s.ingest.firing + 1) b.1 capture x := by
  unfold State.fireAll
  split
  next h => exact ⟨.refl s, rfl, rfl, fun im him => absurd (h.symm.trans him) (Option.some_ne_none im).symm⟩
  next im him =>
    dsimp only
    have h : (s.onIngest fun g => { g with firing := g.firing + 1 }).Fires
        (fun x => ∃ b ∈ im.psets, b.2.trigger = n ∧ b.2.fired (s.ingest.firing + 1) b.1 capture x)
        ((im.psets.filter fun b => b.2.trigger = n).foldl (fun s b => s.fire now b.1 capture b.2) (s.onIngest fun g => { g with firing := g.firing + 1 })) := by
      refine List.foldlRecOn (motive := State.Fires _ (s.onIngest fun g => { g with firing := g.firing + 1 })) _ _ (.refl _) fun t ht b hb => ?_
      obtain ⟨hmem, htrig⟩ := List.mem_filter.mp hb
      exact ht.trans ((t.fire_fires now b.1 capture b.2).mono fun x hx =>
        ⟨b, hmem, of_decide_eq_true htrig, (show t.ingest.firing = s.ingest.firing + 1 from ht.firing) ▸ hx⟩)
    refine ⟨.trans (.onIngest s _) h.frame, (congrArg Ingest.fields h.ingest).trans rfl, (congrArg Ingest.streams h.ingest).trans rfl, fun im' him' => ?_⟩
    obtain rfl := Option.some.inj (him.symm.trans him')
    exact h.psets

/-! ### Conditioners (R370) -/

section
variable (c : FieldCfg) (f : FieldSt) (fresh : Bool) (v : Val)

/-- Whether a value is rejected (R370). -/
def FieldCfg.rejects (c : FieldCfg) (v : Val) : Bool := v.isNan || ((limitV (valOf c.lo) (valOf c.hi) v).2 && c.reject)

theorem FieldSt.condition_none_iff : f.condition c fresh v = none ↔ c.rejects v = true := by
  unfold FieldSt.condition FieldCfg.rejects
  dsimp only
  split
  next h => simp [h]
  next h =>
    have h := Bool.eq_false_of_not_eq_true h
    rw [h]
    cases fresh <;> simp

theorem FieldSt.condition_fresh (h : c.rejects v = false) : f.condition c true v = some { f with
    xr := bitsOf (limitV (valOf c.lo) (valOf c.hi) v).1, xf := bitsOf (limitV (valOf c.lo) (valOf c.hi) v).1,
    sat := f.sat || (limitV (valOf c.lo) (valOf c.hi) v).2 } := by
  unfold FieldSt.condition
  dsimp only
  rw [if_neg (by rw [← FieldCfg.rejects, h]; exact Bool.false_ne_true), if_pos rfl]

/-- The conditioner decides and conditions a value whatever has saturated before. -/
theorem FieldSt.condition_unsat :
    f.condition c fresh v = ({ f with sat := false }.condition c fresh v).map fun g : FieldSt => { g with sat := f.sat || g.sat } := by
  unfold FieldSt.condition
  dsimp only
  split
  · rfl
  · split
    · simp
    · simp [Bool.or_assoc]

end

/-! ### Entries of a measurement frame (R366-R369) -/

/-- A stream's fields (R366) may have been conditioned, and nothing else of the ingest unit has changed. -/
structure State.Measures (c : StreamCfg) (s t : State) : Prop where
  frame : s.InIngest [.fieldReject] t
  ingest : t.ingest = { s.ingest with fields := t.ingest.fields }
  others : ∀ k, k < c.firstField ∨ c.firstField + c.fieldCount ≤ k → t.field k = s.field k

namespace State.Measures

variable {s t u : State} {c : StreamCfg}

theorem refl (s : State) : s.Measures c s := ⟨.refl s, rfl, fun _ _ => rfl⟩

theorem trans (h : s.Measures c t) (h' : t.Measures c u) : s.Measures c u where
  frame := h.frame.trans h'.frame
  ingest := by
    conv_lhs => rw [h'.ingest]
    rw [h.ingest]
  others k hk := (h'.others k hk).trans (h.others k hk)

theorem of_ingest (h : s.InIngest [.fieldReject] t) (hi : t.ingest = s.ingest) : s.Measures c t :=
  ⟨h, by rw [hi], fun k _ => by rw [State.field, hi, State.field]⟩

theorem bump (s : State) : s.Measures c (s.bump .fieldReject) := of_ingest (.bump s (List.mem_singleton_self _)) (s.bump_ingest _)

theorem note (s : State) (r : Reg) (f : Nat → Nat) : s.Measures c (s.note r f) := of_ingest (.note s r f) rfl

theorem onField (s : State) {k : Nat} (hk : c.firstField ≤ k ∧ k < c.firstField + c.fieldCount) (f : FieldSt → FieldSt) :
    s.Measures c (s.onField k f) :=
  ⟨.onField s k f, rfl, fun j hj => s.onField_field_ne k f (by omega)⟩

theorem foldl {f : State → Nat → State} {l : List Nat} (hf : ∀ (t : State), ∀ x ∈ l, t.Measures c (f t x)) (s : State) :
    s.Measures c (l.foldl f s) :=
  List.foldlRecOn (motive := s.Measures c) l f (refl s) fun t ht x hx => ht.trans (hf t x hx)

theorem stream (h : s.Measures c t) (n : Nat) : t.stream n = s.stream n := by
  rw [State.stream, h.ingest, State.stream]

end State.Measures

theorem State.conditionField_measures {c : StreamCfg} (s : State) {k : Nat} (hk : c.firstField ≤ k ∧ k < c.firstField + c.fieldCount) (capture : Nat)
    (v : Val) : s.Measures c (s.conditionField k capture v).2 := by
  unfold State.conditionField
  split
  · exact .bump s
  · split
    · dsimp only
      exact ((State.Measures.bump s).trans (.note _ _ _)).trans (.onField _ hk _)
    · dsimp only
      split
      · exact (State.Measures.note s _ _).trans (.onField _ hk _)
      · exact .onField s hk _

/-- An entry names a field of its stream. -/
theorem measEntry_range {c : StreamCfg} {b : List Byte} {k : Nat} {v : Val} (h : measEntry c b = some (k, v)) :
    c.firstField ≤ k ∧ k < c.firstField + c.fieldCount := by
  unfold measEntry at h
  dsimp only at h
  split at h
  · cases h
  · split at h
    · cases h
    · split at h
      next hrange =>
        obtain ⟨rfl, -⟩ := Prod.mk.inj (Option.some.inj h)
        exact ⟨hrange.1, hrange.2.1⟩
      · cases h

theorem State.measEntries_measures (c : StreamCfg) (capture : Nat) (l : List (List Byte)) (s : State) :
    s.Measures c (s.measEntries c capture l).2
      ∧ ∀ k ∈ (s.measEntries c capture l).1, c.firstField ≤ k ∧ k < c.firstField + c.fieldCount := by
  induction l generalizing s with
  | nil => exact ⟨.refl s, fun _ h => absurd h List.not_mem_nil⟩
  | cons b r ih =>
    rw [State.measEntries]
    split
    · exact ⟨(State.Measures.bump s).trans (ih _).1, (ih _).2⟩
    next k v hentry =>
      have hk := measEntry_range hentry
      have hfield := s.conditionField_measures hk capture v
      split
      next t heq =>
        rw [heq] at hfield
        exact ⟨hfield.trans (ih t).1, (ih t).2⟩
      next t heq =>
        rw [heq] at hfield
        refine ⟨hfield.trans (ih t).1, fun j hj => ?_⟩
        rcases (NSet.mem_ins _ _ _).mp hj with rfl | hj
        · exact hk
        · exact (ih t).2 j hj

/-! ### One entry -/

section
variable {s : State} {k : Nat} {fc : FieldCfg} (hcfg : s.fieldCfg k = some fc) (capture : Nat) (v : Val)
include hcfg

theorem State.conditionField_accepts {f : FieldSt} (hf : (s.field k).condition fc (s.fieldOut k) v = some f) :
    (s.conditionField k capture v).1 = true
      ∧ (s.conditionField k capture v).2.field k = { f with tmo := false, last := some capture, rej := (s.field k).rej } := by
  rw [FieldSt.condition_unsat, Option.map_eq_some_iff] at hf
  obtain ⟨g, hg, rfl⟩ := hf
  unfold State.conditionField
  rw [hcfg]
  dsimp only
  rw [hg]
  dsimp only
  refine ⟨rfl, ?_⟩
  rw [State.onField_field]
  split <;> rfl

theorem State.conditionField_rejects (hf : (s.field k).condition fc (s.fieldOut k) v = none) :
    (s.conditionField k capture v).1 = false ∧ (s.conditionField k capture v).2.field k = { s.field k with rej := true }
      ∧ (s.conditionField k capture v).2.count .fieldReject = (s.bump .fieldReject).count .fieldReject := by
  rw [FieldSt.condition_unsat, Option.map_eq_none_iff] at hf
  unfold State.conditionField
  rw [hcfg]
  dsimp only
  rw [hf]
  dsimp only
  refine ⟨rfl, ?_, rfl⟩
  rw [State.onField_field, State.field, State.note, s.bump_ingest, State.field]

end

theorem State.measEntries_single {c : StreamCfg} {b : List Byte} {k : Nat} {v : Val} (h : measEntry c b = some (k, v)) (s : State) (capture : Nat) :
    s.measEntries c capture [b] = (if (s.conditionField k capture v).1 then [k] else [], (s.conditionField k capture v).2) := by
  rw [State.measEntries, h]
  dsimp only
  split
  next heq => rw [heq]; rfl
  next heq => rw [heq]; rfl

/-! ### Measurement frames (R363, R364, R367) -/

/-- The time-stamp of a frame that arrives on a stream's port (R362). -/
def State.arrival (s : State) (c : StreamCfg) : Nat := (s.rxStamp c.port / 4).toNat

/-- The capture time that a measurement frame gives (R366). -/
def measGiven (pl : List Byte) : Nat := beNat ((pl.drop 8).take 8)

/-- Whether it gives one. -/
def measGives (pl : List Byte) : Bool := (pl.getD 5 0).getLsbD 0

/-- A frame's capture time (R363). -/
def State.measCapture (s : State) (n : Nat) (c : StreamCfg) (pl : List Byte) : Nat :=
  if measGives pl then min (measGiven pl) (s.arrival c) else (s.arrival c + 2 ^ 64 - (s.rw (.latComp n)).toNat) % 2 ^ 64

/-- The cycle that begins a frame's parse (R364). -/
def State.measParse (s : State) (c : StreamCfg) (wire : Nat) : Nat := s.arrival c + wireNs (s.bport c.port).speed wire + 2

/-- A stream marked where a capture time is later than the time-stamp (R363). -/
def State.markFuture (s : State) (n : Nat) (c : StreamCfg) (pl : List Byte) : State :=
  if measGives pl && decide (s.arrival c < measGiven pl) then
    (s.note (.ingestStatus n) (· ||| 2 ^ 28)).onStream n (fun x => { x with future := true })
  else s

/-- Whether a frame is no newer than the stream's last (R367). -/
def StreamSt.holds (x : StreamSt) (capture : Nat) : Bool :=
  match x.lastCapture with
  | none => false
  | some l => capture ≤ l

theorem StreamSt.holds_of_le {x : StreamSt} {capture : Nat} (h : ∃ l, x.lastCapture = some l ∧ capture ≤ l) : x.holds capture = true := by
  obtain ⟨l, hl, hle⟩ := h
  rw [StreamSt.holds, hl]
  exact decide_eq_true hle

theorem StreamSt.holds_of_lt {x : StreamSt} {capture : Nat} (h : ∀ l, x.lastCapture = some l → l < capture) : x.holds capture = false := by
  rw [StreamSt.holds]
  split
  · rfl
  next l hl => exact decide_eq_false (Nat.not_le.mpr (h l hl))

/-- A conditioned field's value, readable from a moment on (R369). -/
def FieldSt.published (now capture ready : Nat) (f : FieldSt) : FieldSt :=
  { f with hist := (f.xf, capture, ready) :: f.hist.filter (fun h => now < h.2.2) ++ (f.hist.filter (fun h => h.2.2 ≤ now)).take 2 }

/-- The stream once a frame is accepted (R367). -/
def State.captured (s : State) (n capture : Nat) : State := s.onStream n (fun x => { x with lastCapture := some capture })

/-- The entries of an accepted frame conditioned (R368, R369). -/
def State.measured (s : State) (n : Nat) (c : StreamCfg) (pl : List Byte) (capture : Nat) : NSet × State :=
  (s.captured n capture).measEntries c capture (chunk 12 256 ((pl.drop 16).take (pl.length - 20)))

/-- Conditioned values, readable from a moment on (R369). -/
def State.publish (s : State) (ks : NSet) (capture ready : Nat) : State :=
  ks.foldl (fun t k => t.onField k (FieldSt.published s.tide64 capture ready)) s

/-- The values of an accepted frame, conditioned and published. -/
def State.conditioned (s : State) (n : Nat) (c : StreamCfg) (pl : List Byte) (capture ready : Nat) : State :=
  (s.measured n c pl capture).2.publish (s.measured n c pl capture).1 capture ready

/-- A frame that is neither too old nor no newer than the last. -/
def State.acceptMeas (s : State) (n : Nat) (c : StreamCfg) (pl : List Byte) (capture parse : Nat) : State :=
  (s.conditioned n c pl capture (parse + 400)).fireAll (parse + 400) n capture

section
variable {s : State} {n : Nat} {c : StreamCfg} {pl : List Byte}

theorem State.measFrame_refuses (h : measOk pl = false) (wire : Nat) : s.measFrame n c pl wire = s.bump (.drop n) := by
  unfold State.measFrame
  rw [h]
  rfl

/-- The model's capture time and age, by the frame's cases. -/
theorem State.measFrame_eq (h : measOk pl = true) (wire : Nat) : s.measFrame n c pl wire =
    if c.maxAge < s.measParse c wire - s.measCapture n c pl then (s.markFuture n c pl).bump (.stale n)
    else if (s.stream n).holds (s.measCapture n c pl) then (s.markFuture n c pl).bump (.drop n)
    else (s.markFuture n c pl).acceptMeas n c pl (s.measCapture n c pl) (s.measParse c wire) := by
  have hcap : s.measCapture n c pl = if measGives pl then
      (if measGives pl && decide (s.arrival c < measGiven pl) then s.arrival c else measGiven pl)
      else (s.arrival c + 2 ^ 64 - (s.rw (.latComp n)).toNat) % 2 ^ 64 := by
    unfold State.measCapture
    split
    next hgives =>
      rw [hgives, Bool.true_and, Nat.min_def]
      simp only [decide_eq_true_eq]
      split <;> split <;> omega
    next => rfl
  have hbport : ((s.markFuture n c pl).bport c.port).speed = (s.bport c.port).speed := by
    unfold State.markFuture
    split <;> rfl
  have hlast : ((s.markFuture n c pl).stream n).lastCapture = (s.stream n).lastCapture := by
    unfold State.markFuture
    split
    · rw [State.onStream_stream]
      rfl
    · rfl
  rw [hcap, State.measParse, StreamSt.holds, ← hbport, ← hlast]
  unfold State.measFrame
  rw [h, if_neg (by decide)]
  rfl

end

/-! ### What becomes of a measurement frame -/

section
variable {s : State} {n : Nat} {c : StreamCfg} {pl : List Byte} {wire : Nat} (h : measOk pl = true)
include h

theorem State.measFrame_stale (hage : c.maxAge < s.measParse c wire - s.measCapture n c pl) :
    s.measFrame n c pl wire = (s.markFuture n c pl).bump (.stale n) := by
  rw [State.measFrame_eq h, if_pos hage]

theorem State.measFrame_old (hage : s.measParse c wire - s.measCapture n c pl ≤ c.maxAge)
    (hold : ∃ l, (s.stream n).lastCapture = some l ∧ s.measCapture n c pl ≤ l) :
    s.measFrame n c pl wire = (s.markFuture n c pl).bump (.drop n) := by
  rw [State.measFrame_eq h, if_neg (Nat.not_lt.mpr hage), if_pos (StreamSt.holds_of_le hold)]

theorem State.measFrame_accepts (hage : s.measParse c wire - s.measCapture n c pl ≤ c.maxAge)
    (hnew : ∀ l, (s.stream n).lastCapture = some l → l < s.measCapture n c pl) :
    s.measFrame n c pl wire = (s.markFuture n c pl).acceptMeas n c pl (s.measCapture n c pl) (s.measParse c wire) := by
  rw [State.measFrame_eq h, if_neg (Nat.not_lt.mpr hage), if_neg (by rw [StreamSt.holds_of_lt hnew]; exact Bool.false_ne_true)]

end

theorem State.fieldOut_congr {s t : State} (hfields : t.ingest.fields = s.ingest.fields) (hsec : t.sec = s.sec) (htide : t.tide = s.tide) (k : Nat) :
    t.fieldOut k = s.fieldOut k := by
  rw [State.fieldOut, State.field, hfields, State.fieldCfg, hsec, State.tide64, htide]
  rfl

section
variable (s : State) (n : Nat) (c : StreamCfg) (pl : List Byte)

theorem State.markFuture_inIngest (cs : List Ctr) : s.InIngest cs (s.markFuture n c pl) :=
  .ite (.trans (.note s _ _) (.onStream _ n _)) (.refl s)

theorem State.markFuture_ingest : (s.markFuture n c pl).ingest = { s.ingest with streams := (s.markFuture n c pl).ingest.streams } := by
  unfold State.markFuture
  split <;> rfl

theorem State.markFuture_stream : (s.markFuture n c pl).stream n
    = { s.stream n with future := (s.stream n).future || (measGives pl && decide (s.arrival c < measGiven pl)) } := by
  unfold State.markFuture
  split
  next h =>
    rw [h, Bool.or_true, State.onStream_stream]
    rfl
  next h => rw [Bool.eq_false_of_not_eq_true h, Bool.or_false]

theorem State.publish_measures {c : StreamCfg} {ks : NSet} (hks : ∀ k ∈ ks, c.firstField ≤ k ∧ k < c.firstField + c.fieldCount) (capture ready : Nat) :
    s.Measures c (s.publish ks capture ready) :=
  .foldl (fun t k hk => .onField t (hks k hk) _) s

variable (capture parse : Nat)

theorem State.conditioned_measures (ready : Nat) : (s.captured n capture).Measures c (s.conditioned n c pl capture ready) := by
  obtain ⟨hentries, hks⟩ := State.measEntries_measures c capture (chunk 12 256 ((pl.drop 16).take (pl.length - 20))) (s.captured n capture)
  exact hentries.trans (State.publish_measures _ hks capture ready)

theorem State.acceptMeas_inIngest : s.InIngest [.fieldReject, .psetDrop] (s.acceptMeas n c pl capture parse) := by
  have hconditioned : s.InIngest [.fieldReject] (s.conditioned n c pl capture (parse + 400)) :=
    (State.InIngest.onStream s n _).trans (s.conditioned_measures n c pl capture (parse + 400)).frame
  have hfire := (State.fireAll_spec (s.conditioned n c pl capture (parse + 400)) (parse + 400) n capture).1
  exact (hconditioned.mono fun d hd => List.mem_cons.mpr (.inl (List.mem_singleton.mp hd))).trans
    (hfire.mono fun d hd => List.mem_cons_of_mem _ hd)

theorem State.acceptMeas_stream : (s.acceptMeas n c pl capture parse).stream n = { s.stream n with lastCapture := some capture } := by
  have hfire := (State.fireAll_spec (s.conditioned n c pl capture (parse + 400)) (parse + 400) n capture).2.2.1
  have hstream : (s.acceptMeas n c pl capture parse).stream n = (s.conditioned n c pl capture (parse + 400)).stream n := by
    rw [State.stream, State.acceptMeas, hfire, State.stream]
  rw [hstream, (s.conditioned_measures n c pl capture (parse + 400)).stream, State.captured, State.onStream_stream]

theorem State.acceptMeas_field (k : Nat) : (s.acceptMeas n c pl capture parse).field k = (s.conditioned n c pl capture (parse + 400)).field k := by
  rw [State.field, State.acceptMeas, (State.fireAll_spec _ _ _ _).2.1, State.field]

theorem State.acceptMeas_field_others {k : Nat} (hk : k < c.firstField ∨ c.firstField + c.fieldCount ≤ k) :
    (s.acceptMeas n c pl capture parse).field k = s.field k := by
  rw [s.acceptMeas_field, (s.conditioned_measures n c pl capture (parse + 400)).others k hk]
  rfl

end

/-! ### A frame of one entry -/

/-- A frame of 32 bytes that is one for measurements has one entry. -/
theorem measEntries_of_length {pl : List Byte} (hlen : pl.length = 32) :
    chunk 12 256 ((pl.drop 16).take (pl.length - 20)) = [(pl.drop 16).take 12] := by
  have hentry : ((pl.drop 16).take 12).length = 12 := by
    rw [List.length_take, List.length_drop, hlen]
    rfl
  have hne : ((pl.drop 16).take 12).isEmpty = false := by
    rw [List.isEmpty_eq_false_iff]
    exact List.ne_nil_of_length_pos (by omega)
  rw [hlen, chunk, if_neg (by rw [hne]; exact Bool.false_ne_true), List.take_of_length_le hentry.le, List.drop_of_length_le hentry.le, chunk]
  rfl

section
variable {s : State} {n : Nat} {c : StreamCfg} {pl : List Byte} {k : Nat} {v : Val} {fc : FieldCfg} (hlen : pl.length = 32)
  (hentry : measEntry c ((pl.drop 16).take 12) = some (k, v)) (hcfg : s.fieldCfg k = some fc) (capture parse : Nat)
include hlen hentry

theorem State.measured_single : s.measured n c pl capture = (if ((s.captured n capture).conditionField k capture v).1 then [k] else [],
    ((s.captured n capture).conditionField k capture v).2) := by
  rw [State.measured, measEntries_of_length hlen, State.measEntries_single hentry]

include hcfg

theorem State.acceptMeas_conditions {f : FieldSt} (hf : (s.field k).condition fc (s.fieldOut k) v = some f) : ∃ past,
    (s.acceptMeas n c pl capture parse).field k
      = { f with tmo := false, last := some capture, rej := (s.field k).rej, hist := (f.xf, capture, parse + 400) :: past } := by
  obtain ⟨htaken, hfield⟩ := State.conditionField_accepts (s := s.captured n capture) hcfg capture v (f := f) hf
  rw [State.acceptMeas_field, State.conditioned, State.measured_single hlen hentry, htaken, if_pos rfl]
  dsimp only
  rw [State.publish, List.foldl_cons, List.foldl_nil, State.onField_field, hfield]
  exact ⟨_, rfl⟩

theorem State.acceptMeas_rejects (hf : (s.field k).condition fc (s.fieldOut k) v = none) :
    (s.acceptMeas n c pl capture parse).field k = { s.field k with rej := true }
      ∧ (s.acceptMeas n c pl capture parse).count .fieldReject = (s.bump .fieldReject).count .fieldReject := by
  obtain ⟨htaken, hfield, hcount⟩ := State.conditionField_rejects (s := s.captured n capture) hcfg capture v hf
  have hcond : s.conditioned n c pl capture (parse + 400) = ((s.captured n capture).conditionField k capture v).2 := by
    rw [State.conditioned, State.measured_single hlen hentry, htaken]
    rfl
  have hfire := (State.fireAll_spec (s.conditioned n c pl capture (parse + 400)) (parse + 400) n capture).1
  refine ⟨by rw [State.acceptMeas_field, hcond, hfield]; rfl, ?_⟩
  rw [State.acceptMeas, hfire.counts .fieldReject (by simp [Ctr.addr]), hcond, hcount, State.bump_count_self, State.bump_count_self]
  rfl

end

/-! ### FIELD_TIMEOUT (R372) -/

section
variable {s : State} {k : Fin 1024} (hruns : s.ingestRuns = true)
include hruns

theorem exec_fieldTimeout_out (hout : s.fieldOut k.val = true) : exec (.fieldTimeout k) s = .next (s.onField k.val fun f => { f with tmo := true }) := by
  change execFieldTimeout k s = _
  rw [execFieldTimeout, hruns, hout]
  rfl

theorem exec_fieldTimeout_in (hout : s.fieldOut k.val = false) : exec (.fieldTimeout k) s = .next s := by
  change execFieldTimeout k s = _
  rw [execFieldTimeout, hruns, hout]
  rfl

end

theorem State.fieldOut_iff {s : State} {k l : Nat} {c : FieldCfg} (hlast : (s.field k).last = some l) (hcfg : s.fieldCfg k = some c)
    (htmo : (s.field k).tmo = false) : s.fieldOut k = true ↔ l + c.timeoutNs < s.tide64 := by
  unfold State.fieldOut
  simp only [hlast, hcfg, htmo, Bool.false_or, decide_eq_true_eq]

theorem State.fieldOut_of_none {s : State} {k : Nat} (hlast : (s.field k).last = none) : s.fieldOut k = true := by
  unfold State.fieldOut
  simp only [hlast]

theorem exec_measFrame {s : State} {n : Fin 32} {c : StreamCfg} (hruns : s.ingestRuns = true) (hcfg : s.streamCfg n.val = some c)
    (hkind : c.kind = .meas) (pl : List Byte) : exec (.measFrame n pl) s = .next (s.measFrame n.val c pl (max 64 (pl.length + 46))) := by
  change execMeasFrame n pl s = _
  rw [execMeasFrame, hcfg, hruns]
  exact congrArg Host.Outcome.next (if_pos (by rw [hkind]; rfl))

/-! ### The outcomes of a measurement frame -/

section
variable {s : State} {n : Nat} {c : StreamCfg} {pl : List Byte} {wire : Nat} (hok : measOk pl = true)

theorem State.stream_congr {s t : State} (h : t.ingest = s.ingest) (n : Nat) : t.stream n = s.stream n := by rw [State.stream, h, State.stream]

theorem State.markFuture_field (k : Nat) : (s.markFuture n c pl).field k = s.field k := by rw [State.field, s.markFuture_ingest, State.field]

theorem State.markFuture_fieldOut (k : Nat) : (s.markFuture n c pl).fieldOut k = s.fieldOut k :=
  State.fieldOut_congr (by rw [s.markFuture_ingest]) (s.markFuture_inIngest n c pl []).sec (s.markFuture_inIngest n c pl []).tide k

theorem State.markFuture_fieldCfg (k : Nat) : (s.markFuture n c pl).fieldCfg k = s.fieldCfg k := by
  rw [State.fieldCfg, (s.markFuture_inIngest n c pl []).sec, State.fieldCfg]

theorem State.markFuture_count (d : Ctr) : (s.markFuture n c pl).count d = s.count d :=
  (s.markFuture_inIngest n c pl []).counts d fun _ h => absurd h List.not_mem_nil

/-- A frame that is dropped leaves the fields and sets as they are. -/
theorem State.markFuture_bump (d : Ctr) : ((s.markFuture n c pl).bump d).ingest.fields = s.ingest.fields
    ∧ ((s.markFuture n c pl).bump d).ingest.psets = s.ingest.psets
    ∧ (((s.markFuture n c pl).bump d).stream n).lastCapture = (s.stream n).lastCapture
    ∧ ((s.markFuture n c pl).bump d).count d = (s.bump d).count d := by
  refine ⟨?_, ?_, ?_, ?_⟩
  · rw [State.bump_ingest, s.markFuture_ingest]
  · rw [State.bump_ingest, s.markFuture_ingest]
  · rw [State.stream_congr (State.bump_ingest _ d), s.markFuture_stream]
  · rw [State.bump_count_self, State.bump_count_self, State.markFuture_count]

include hok

theorem State.measFrame_inIngest : s.InIngest [.stale n, .drop n, .fieldReject, .psetDrop] (s.measFrame n c pl wire) := by
  have hmark := s.markFuture_inIngest n c pl [.stale n, .drop n, .fieldReject, .psetDrop]
  rw [State.measFrame_eq hok]
  refine .ite (hmark.trans (.bump _ (by simp))) (.ite (hmark.trans (.bump _ (by simp))) (hmark.trans ?_))
  exact (State.acceptMeas_inIngest _ n c pl _ _).mono fun d hd => List.mem_cons_of_mem _ (List.mem_cons_of_mem _ hd)

theorem State.measFrame_future : ((s.measFrame n c pl wire).stream n).future
    = ((s.stream n).future || (measGives pl && decide (s.arrival c < measGiven pl))) := by
  have hmark := congrArg StreamSt.future (s.markFuture_stream n c pl)
  rw [State.measFrame_eq hok]
  split
  · rw [State.stream_congr (State.bump_ingest _ _), hmark]
  · split
    · rw [State.stream_congr (State.bump_ingest _ _), hmark]
    · rw [State.acceptMeas_stream, hmark]

end

/-! ### Limits and their marks -/

/-- A fresh value inside its limits is taken as it is, one outside at the limit, and the field marked. -/
theorem FieldCfg.limits (c : FieldCfg) (v : Val) :
    (ltV v (valOf c.lo) = false → ltV (valOf c.hi) v = false → limitV (valOf c.lo) (valOf c.hi) v = (v, false))
      ∧ (ltV v (valOf c.lo) = true → limitV (valOf c.lo) (valOf c.hi) v
          = (if ltV (valOf c.hi) (valOf c.lo) then valOf c.hi else valOf c.lo, true))
      ∧ (ltV v (valOf c.lo) = false → ltV (valOf c.hi) v = true → limitV (valOf c.lo) (valOf c.hi) v = (valOf c.hi, true)) := by
  refine ⟨fun hlo hhi => ?_, fun hlo => ?_, fun hlo hhi => ?_⟩
  · simp [limitV, hlo, hhi]
  · simp [limitV, hlo]
  · simp [limitV, hlo, hhi]

/-- Settles O55: a frame's outcomes in the order of its checks, one entry through its field's conditioner, and the conditioner's limits. -/
theorem measurementFrames : Obligations.MeasurementFrames := by
  unfold Obligations.MeasurementFrames
  refine ⟨?frames, fun c f fresh v => ?conditioner, fun s k hruns => ?timeouts⟩
  case frames =>
    rintro s n c pl cap stamp given parse valid hruns hcfg hkind rfl rfl rfl rfl hcap
    obtain rfl : cap = s.measCapture n.val c pl := hcap
    refine ⟨fun hbad => ?_, fun hok => ⟨_, exec_measFrame hruns hcfg hkind pl, ?_⟩⟩
    · rw [exec_measFrame hruns hcfg hkind, State.measFrame_refuses hbad]
    · have hframe := s.measFrame_inIngest (n := n.val) (c := c) (wire := max 64 (pl.length + 46)) hok
      refine ⟨hframe.mem, hframe.regs, hframe.jobs, hframe.queues, hframe.tide, State.measFrame_future hok, fun hage => ?_, fun hage hold => ?_,
        fun hage hnew => ?_⟩
      · rw [State.measFrame_stale hok hage]
        exact s.markFuture_bump _
      · rw [State.measFrame_old hok hage hold]
        obtain ⟨hfields, hpsets, -, hcount⟩ := s.markFuture_bump (n := n.val) (c := c) (pl := pl) (.drop n.val)
        exact ⟨hfields, hpsets, hcount⟩
      · rw [State.measFrame_accepts hok hage hnew]
        refine ⟨by rw [State.acceptMeas_stream], fun k hk => ?_, fun hlen k v fc hentry hfc => ?_⟩
        · rw [State.acceptMeas_field_others _ _ _ _ _ _ hk, State.markFuture_field]
        have hfield := s.markFuture_field (n := n.val) (c := c) (pl := pl) k
        have hout := s.markFuture_fieldOut (n := n.val) (c := c) (pl := pl) k
        have hfc' := (s.markFuture_fieldCfg (n := n.val) (c := c) (pl := pl) k).trans hfc
        refine ⟨fun f hf => ?_, fun hf => ?_⟩
        · rw [← hfield, ← hout] at hf
          obtain ⟨past, hafter⟩ := State.acceptMeas_conditions hlen hentry hfc'
            (s.measCapture n.val c pl) (s.measParse c (max 64 (pl.length + 46))) hf
          rw [hafter]
          exact ⟨rfl, rfl, rfl, rfl, rfl, rfl⟩
        · rw [← hfield, ← hout] at hf
          obtain ⟨hafter, hcount⟩ := State.acceptMeas_rejects hlen hentry hfc'
            (s.measCapture n.val c pl) (s.measParse c (max 64 (pl.length + 46))) hf
          rw [hafter, hcount, hfield, State.bump_count_self, State.bump_count_self, State.markFuture_count]
          exact ⟨rfl, rfl⟩
  case conditioner =>
    obtain ⟨hin, hlow, hhigh⟩ := c.limits v
    refine ⟨fun hnan => ?_, fun hnan hreject hout => ?_, fun hnan hlo hhi => ?_, ?_, fun hnan hreject hlo hhi => ?_⟩
    · rw [FieldSt.condition_none_iff, FieldCfg.rejects, hnan, Bool.true_or]
    · have hacts : (limitV (valOf c.lo) (valOf c.hi) v).2 = true := by simpa [limitV] using hout
      rw [FieldSt.condition_none_iff, FieldCfg.rejects, hacts, hreject, Bool.true_and, Bool.or_true]
    · rw [FieldSt.condition_fresh _ _ _ (by rw [FieldCfg.rejects, hnan, hin hlo hhi]; rfl), hin hlo hhi, Bool.or_false]
    · rintro x rfl hnan hreject hlo
      rw [FieldSt.condition_fresh _ _ _ (by rw [FieldCfg.rejects, hnan, hreject, Bool.and_false, Bool.or_false]), hlow hlo, Bool.or_true]
    · rw [FieldSt.condition_fresh _ _ _ (by rw [FieldCfg.rejects, hnan, hreject, Bool.and_false, Bool.or_false]), hhigh hlo hhi, Bool.or_true]
  case timeouts =>
    refine ⟨fun hout => ?_, exec_fieldTimeout_in hruns, fun l c hlast hcfg htmo => State.fieldOut_iff hlast hcfg htmo, State.fieldOut_of_none⟩
    exact ⟨_, exec_fieldTimeout_out hruns hout, s.onField_field _ _, fun j hj => s.onField_field_ne _ _ hj, rfl⟩

end Sys2Proof.Machine
end

section
/-!
PROOF. Reference rasters decoded into a job slot's area, and attestation (R382, R441, R549, R550).
-/

namespace Sys2Proof.Machine

/-! ### Reference rasters (R382) -/

/-- The pages taken are among those that follow, and held by nothing. -/
theorem firstFree_spec (used : List Nat) (n at' need : Nat) : (firstFree used n at' need).length ≤ need
    ∧ ∀ k ∈ firstFree used n at' need, k < at' + n ∧ k ∉ used := by
  induction n generalizing at' need with
  | zero =>
    have hnil : firstFree used 0 at' need = [] := by cases need <;> rfl
    rw [hnil]
    exact ⟨Nat.zero_le _, fun _ h => absurd h List.not_mem_nil⟩
  | succ n ih =>
    cases need with
    | zero => exact ⟨Nat.le_refl _, fun _ h => absurd h List.not_mem_nil⟩
    | succ need =>
      rw [firstFree]
      split
      · obtain ⟨hlen, hfree⟩ := ih (at' + 1) (need + 1)
        exact ⟨hlen, fun k hk => ⟨by have := (hfree k hk).1; omega, (hfree k hk).2⟩⟩
      next hunused =>
        obtain ⟨hlen, hfree⟩ := ih (at' + 1) need
        refine ⟨Nat.succ_le_succ hlen, fun k hk => ?_⟩
        rcases List.mem_cons.mp hk with rfl | hk
        · exact ⟨by omega, fun h => hunused (List.contains_iff_mem.mpr h)⟩
        · exact ⟨by have := (hfree k hk).1; omega, (hfree k hk).2⟩

/-- Pages taken for a raster lie in its job slot's area, and no other raster of the slot holds them. -/
theorem State.freePages_spec (s : State) (slot id need : Nat) : (s.freePages slot id need).length ≤ need
    ∧ ∀ k ∈ s.freePages slot id need, k < s.refPages ∧ ∀ o ∈ s.otherRefs slot id, k ∉ o.pages := by
  obtain ⟨hlen, hfree⟩ := firstFree_spec ((s.otherRefs slot id).flatMap RefSt.pages) s.refPages 0 need
  refine ⟨hlen, fun k hk => ⟨?_, fun o ho hmem => (hfree k hk).2 (List.mem_flatMap.mpr ⟨o, ho, hmem⟩)⟩⟩
  have := (hfree k hk).1
  omega

/-- A raster is decoded for a stream whose limits it meets. -/
theorem State.decodeRef_spec {s : State} {id : Nat} {b : List Byte} {l : List StreamCfg} {c : StreamCfg} {bs : List Byte}
    (h : s.decodeRef id b l = some (c, bs)) : c ∈ l ∧ ∃ d, decodeReference c (s.refScale id) b = some (d, bs) ∧ c.acceptsRef d = true := by
  induction l with
  | nil => cases h
  | cons c' r ih =>
    rw [State.decodeRef] at h
    have hrest (h : s.decodeRef id b r = some (c, bs)) :
        c ∈ c' :: r ∧ ∃ d, decodeReference c (s.refScale id) b = some (d, bs) ∧ c.acceptsRef d = true :=
      (ih h).imp_left (List.mem_cons_of_mem c')
    split at h
    next d bs' hd =>
      split at h
      next haccepts =>
        obtain ⟨rfl, rfl⟩ := Prod.mk.inj (Option.some.inj h)
        exact ⟨List.mem_cons_self, d, hd, haccepts⟩
      next => exact hrest h
    next => exact hrest h

theorem StreamCfg.acceptsRef_iff {c : StreamCfg} {d : Declared} (h : c.acceptsRef d = true) :
    d.interlaced = false ∧ d.width = c.width ∧ d.height = c.height := by
  simp only [StreamCfg.acceptsRef, Bool.and_eq_true, Bool.not_eq_true', decide_eq_true_eq] at h
  obtain ⟨⟨⟨hint, hwidth⟩, hheight⟩, -⟩ := h
  exact ⟨hint, hwidth, hheight⟩

theorem State.decodeRef_congr {s t : State} (h : t.sec = s.sec) (id : Nat) (b : List Byte) (l : List StreamCfg) :
    t.decodeRef id b l = s.decodeRef id b l := by
  have hscale : t.refScale id = s.refScale id := by rw [State.refScale, h, State.refScale]
  induction l with
  | nil => rfl
  | cons c r ih => rw [State.decodeRef, State.decodeRef, hscale, ih]

theorem State.storeRaster_onlyPages (s : State) (key : Nat) (r : RefSt) (bs : List Byte) : s.OnlyPages (s.storeRaster key r bs) :=
  .foldl (fun t x => by
    split
    · exact .refl t
    · exact t.writePage_onlyPages _ _ _ _) _ s

/-! ### REFERENCE_DECODE_DONE -/

/-- A raster that its transfer brings: its bytes. -/
def Transfer.raster (t : Transfer) : List Byte := t.data.map Prod.snd

/-- A raster in its job slot. -/
def State.newRef (s : State) (t : Transfer) (c : StreamCfg) : RefSt :=
  { pages := s.freePages t.slot t.refId (s.rasterSize t.refId c).1, rows := (s.rasterSize t.refId c).2.1, row := (s.rasterSize t.refId c).2.2,
    gen := s.ingest.refGen, ready := true }

/-- The job slot with a raster stored. -/
def State.keepRef (s : State) (t : Transfer) (c : StreamCfg) (bs : List Byte) : State :=
  (s.storeRaster (t.slot * 8 + t.refId) (s.newRef t c) bs).onIngest fun g =>
    { g with refs := g.refs.put (t.slot * 8 + t.refId) (s.newRef t c), refGen := g.refGen + 1 }

/-- A state whose transfers, ingest unit and pages of HyperRAM are another's. -/
def State.refsAs (x s : State) : State :=
  { x with transfers := s.transfers, ingest := s.ingest, mem := s.mem, poison := s.poison, pageCrc := s.pageCrc, hbus := s.hbus }

/-- What becomes of a raster whose transfer has ended: refused, or stored. -/
def State.settleRef (s : State) (x : Nat) (tr : Transfer) (h : SqpHdr) : State :=
  if s.ingest.active = some tr.slot then (s.dropTransfer x).nak h .busy
  else match (s.dropTransfer x).decodeRef tr.refId tr.raster (s.refStreams tr.refId), s.sec.image with
    | none, _ | _, none => (s.dropTransfer x).nak h .imageRejected
    | some (c, bs), some _ =>
      if (s.freePages tr.slot tr.refId (s.rasterSize tr.refId c).1).length < (s.rasterSize tr.refId c).1 then (s.dropTransfer x).nak h .resources
      else ((s.dropTransfer x).keepRef tr c bs).nak h .ok

theorem exec_referenceDecodeDone {s : State} {x : Fin 4} {tr : Transfer} {h : SqpHdr} (hr : s.inReset = false)
    (htr : s.transfers.get x.val = some tr) (hended : tr.ended = some h) (hkind : tr.kind = 3) :
    exec (.referenceDecodeDone x) s = .next (s.settleRef x.val tr h) := by
  change execReferenceDecodeDone x s = _
  unfold execReferenceDecodeDone
  rw [htr]
  dsimp only
  rw [hended]
  dsimp only
  rw [hr, hkind]
  rfl

/-- A raster refused: its transfer is gone, and the reason sent. -/
theorem State.dropTransfer_refused (s : State) (x : Nat) (h : SqpHdr) (r : Reason) : ((s.dropTransfer x).nak h r).transfers = s.transfers.del x
    ∧ ((s.dropTransfer x).nak h r).Replied h 0x7F h.gen (nakPay r 0)
    ∧ s.Sends { (s.dropTransfer x).nak h r with transfers := s.transfers } := by
  obtain ⟨hsends, hreplied⟩ := (State.Sends.refl (s.dropTransfer x)).nak_refused h r
  exact ⟨hsends.transfers, hreplied, hsends.map fun t => { t with transfers := s.transfers }⟩

section
variable {s : State} {x : Nat} {tr : Transfer} {h : SqpHdr}

theorem State.settleRef_busy (hactive : s.ingest.active = some tr.slot) : s.settleRef x tr h = (s.dropTransfer x).nak h .busy := if_pos hactive

variable (hactive : s.ingest.active ≠ some tr.slot)
include hactive

theorem State.settleRef_rejected (hdecode : s.decodeRef tr.refId tr.raster (s.refStreams tr.refId) = none) :
    s.settleRef x tr h = (s.dropTransfer x).nak h .imageRejected := by
  rw [State.settleRef, if_neg hactive, State.decodeRef_congr (s := s) (t := s.dropTransfer x) rfl, hdecode]

variable {c : StreamCfg} {bs : List Byte} (hdecode : s.decodeRef tr.refId tr.raster (s.refStreams tr.refId) = some (c, bs))
  (himage : s.sec.image.isSome = true)
include hdecode himage

theorem State.settleRef_decoded : s.settleRef x tr h =
    if (s.freePages tr.slot tr.refId (s.rasterSize tr.refId c).1).length < (s.rasterSize tr.refId c).1 then (s.dropTransfer x).nak h .resources
    else ((s.dropTransfer x).keepRef tr c bs).nak h .ok := by
  obtain ⟨im, him⟩ := Option.isSome_iff_exists.mp himage
  rw [State.settleRef, if_neg hactive, State.decodeRef_congr (s := s) (t := s.dropTransfer x) rfl, hdecode, him]

end

theorem State.keepRef_refsAs (s : State) (tr : Transfer) (c : StreamCfg) (bs : List Byte) : (s.keepRef tr c bs).refsAs s = s :=
  (congrArg (fun u => State.refsAs u s) (s.storeRaster_onlyPages (tr.slot * 8 + tr.refId) (s.newRef tr c) bs)).trans rfl

/-- A raster stored stands in its job slot, and OK is sent. -/
theorem State.keepRef_nak (s : State) (x : Nat) (tr : Transfer) (c : StreamCfg) (bs : List Byte) (h : SqpHdr) :
    s.Sends ((((s.dropTransfer x).keepRef tr c bs).nak h .ok).refsAs s)
      ∧ (((s.dropTransfer x).keepRef tr c bs).nak h .ok).transfers = s.transfers.del x
      ∧ (((s.dropTransfer x).keepRef tr c bs).nak h .ok).ingest.refs.get (tr.slot * 8 + tr.refId) = some ((s.dropTransfer x).newRef tr c) := by
  obtain ⟨hsends, -⟩ := (State.Sends.refl ((s.dropTransfer x).keepRef tr c bs)).nak_refused h .ok
  have hkept := (s.dropTransfer x).keepRef_refsAs tr c bs
  have hpages := (s.dropTransfer x).storeRaster_onlyPages (tr.slot * 8 + tr.refId) ((s.dropTransfer x).newRef tr c) bs
  refine ⟨?_, hsends.transfers.trans ((congrArg State.transfers hpages).trans rfl), ?_⟩
  · have hback : ((s.dropTransfer x).keepRef tr c bs).refsAs s = s := (congrArg (fun u => State.refsAs u s) hkept).trans rfl
    have hafter := State.Sends.map hsends fun u => u.refsAs s
    rwa [hback] at hafter
  · rw [hsends.ingest]
    exact SMap.get_put_self _ _ _

/-! ### The evidence (R549, R550) -/

/-- The fields of an attestation's evidence up to the applied image's measurement, in their order (R550). -/
def State.evidenceFields (s : State) (nonce : BitVec 256) : List (List Byte) :=
  [beBytes 4 0x44415456, beBytes 2 1, beBytes 1 (if s.sec.idReady then 0 else 1),
    beBytes 1 ((s.sec.models.filter (fun m => !m.2.deleting)).map (fun m => m.2.meas)).length, beBytes 2 0x0C32, beBytes 1 0xB0,
    beBytes 1 ((if s.strict then 1 else 0) + (if s.sec.enrolled then 2 else 0) + (if s.sec.image.isSome then 4 else 0)), beBytes 4 s.ready.toNat,
    beBytes 8 s.tide64, beBytes 4 (leNat (((s.ledger.payload 3).getD []).take 4)),
    beBytes 4 (leNat ((((s.ledger.payload 3).getD []).drop 4).take 4)), hashBytes nonce, hashBytes s.sec.deviceId,
    hashBytes ((s.sec.bundle.map Bundle.meas).getD 0), hashBytes ((s.sec.image.map StructImage.meas).getD 0)]

theorem State.evidence_eq (s : State) (nonce rnd : BitVec 256) : ∃ rest, s.evidence nonce rnd = (s.evidenceFields nonce).flatten ++ rest := by
  unfold State.evidence State.evidenceFields
  simp only [List.flatten_cons, List.flatten_nil, List.append_nil, List.append_assoc]
  exact ⟨_, rfl⟩

theorem hashBytes_length (h : BitVec 256) : (hashBytes h).length = 32 := beBytes_length _ _

theorem State.evidenceFields_lengths (s : State) (nonce : BitVec 256) :
    (s.evidenceFields nonce).map List.length = [4, 2, 1, 1, 2, 1, 1, 4, 8, 4, 4, 32, 32, 32, 32] := by
  simp only [State.evidenceFields, List.map_cons, List.map_nil, beBytes_length, hashBytes_length]

/-- A hash stands in its field of the evidence. -/
theorem State.part_evidence (s : State) (nonce rnd : BitVec 256) {k ofs : Nat} {x : BitVec 256}
    (hfield : (s.evidenceFields nonce)[k]? = some (hashBytes x))
    (hofs : (([4, 2, 1, 1, 2, 1, 1, 4, 8, 4, 4, 32, 32, 32, 32] : List Nat).take k).sum = ofs) :
    part (s.evidence nonce rnd) ofs 32 = hashBytes x := by
  obtain ⟨rest, hrest⟩ := s.evidence_eq nonce rnd
  have h := field_of_flatten hfield rest
  rw [List.map_take, s.evidenceFields_lengths, hofs, hashBytes_length] at h
  rw [part, hrest, h]

theorem Sec.deviceId_unready {x : Sec} (h : x.idReady = false) : x.deviceId = 0 := by
  unfold Sec.deviceId
  rw [h]
  split <;> rfl

theorem State.Sends.evidence {s u : State} (h : s.Sends u) (nonce rnd : BitVec 256) : u.evidence nonce rnd = s.evidence nonce rnd := by
  unfold State.evidence State.strict State.rwField State.rw State.tide64
  simp only [h.sec, h.regs, h.ledger, h.ready, h.tide]

/-! ### ATTEST_REQ (R441, R549) -/

/-- On each port the same SEQ is the next. -/
def State.SameNext (s t : State) : Prop := ∀ p, (t.hport p).nextSeq = (s.hport p).nextSeq

namespace State.SameNext

variable {s t u : State}

theorem refl (s : State) : s.SameNext s := fun _ => rfl

theorem trans (h : s.SameNext t) (h' : t.SameNext u) : s.SameNext u := fun p => (h' p).trans (h p)

theorem of_hport (h : ∀ p, t.hport p = s.hport p) : s.SameNext t := fun p => congrArg HPort.nextSeq (h p)

theorem onHport (s : State) (p : Port) {f : HPort → HPort} (hf : ∀ h, (f h).nextSeq = h.nextSeq) : s.SameNext (s.onHport p f) := fun q => by
  by_cases hq : q = p
  · rw [hq, State.onHport_hport, hf]
  · rw [State.onHport_hport_ne _ _ _ _ hq]

end State.SameNext

theorem State.kick_hport (s : State) (n : Nat) (p : Port) : (s.kick n).hport p = s.hport p := by
  unfold State.kick
  dsimp only
  split
  · rfl
  · split <;> rfl

theorem State.transmit_hport (s : State) (f : OutFrame) (p : Port) : (s.transmit f).hport p = s.hport p := State.kick_hport _ _ p

theorem State.handNow_sameNext (s : State) (f : OutFrame) : s.SameNext (s.handNow f) := by
  unfold State.handNow
  dsimp only
  split
  · refine State.SameNext.trans ?_ (.of_hport (State.transmit_hport _ _))
    exact .onHport s f.port fun _ => rfl
  · exact .of_hport (State.transmit_hport _ _)

theorem State.handFrame_sameNext (s : State) (f : OutFrame) : s.SameNext (s.handFrame f) := by
  unfold State.handFrame
  dsimp only
  split
  · split
    · exact s.handNow_sameNext f
    · exact .onHport s f.port fun _ => rfl
  · exact s.handNow_sameNext f

/-- A message sent takes as many SEQ as it has frames. -/
theorem State.answerMsg_nextSeq (s : State) (h : SqpHdr) (type : Byte) (gen : BitVec 16) (pay : List Byte) :
    ((s.answerMsg h type gen pay false).hport h.port).nextSeq
      = (s.hport h.port).nextSeq + BitVec.ofNat 32 (framePays (s.payLimit h.port h.src.v6) pay).length := by
  have hframes (l : List OutFrame) (t : State) : t.SameNext (l.foldl State.handFrame t) :=
    List.foldlRecOn (motive := t.SameNext) l _ (.refl t) fun u hu f _ => hu.trans (u.handFrame_sameNext f)
  refine (hframes _ _ h.port).trans ?_
  rw [State.numberMsg, State.onHport_hport]
  rfl

theorem State.Sends.payLimit {s u : State} (h : s.Sends u) (p : Port) (v6 : Bool) : u.payLimit p v6 = s.payLimit p v6 := by
  rw [State.payLimit, State.rwField, State.rw, h.regs]
  rfl

/-- Nothing changed but the free values taken, and what is sent. -/
def State.OnlyTakes (s t : State) : Prop := s.Sends { t with free := s.free }

theorem State.OnlyTakes.trans {s t u : State} (h : s.OnlyTakes t) (h' : t.OnlyTakes u) : s.OnlyTakes u :=
  State.Sends.trans h (State.Sends.map h' fun x => { x with free := s.free })

theorem State.Sends.takes {s t : State} (h : s.Sends t) : s.OnlyTakes t := h.map fun x => { x with free := s.free }

theorem State.takeFree_onlyTakes (s : State) (w : Nat) : s.OnlyTakes (s.takeFree w).2 := State.Sends.refl s

theorem State.attest_onlyTakes (s : State) (h : SqpHdr) (nonce : BitVec 256) : s.OnlyTakes (s.attest h nonce) :=
  (s.takeFree_onlyTakes 256).trans (State.answerMsg_sends h 0x61 h.gen _ false (.refl _)).takes

/-- A message that passes checks 7 to 9 has its effect (R444). -/
theorem State.lateChecks_pass {s : State} {h : SqpHdr} {right : Option Right} {ready lenOk : Bool} (hright : s.hasRight h.client right = true)
    (hready : ready = true) (hlen : lenOk = true) (body : State → State) : s.lateChecks h right true ready lenOk body = body s := by
  rw [State.lateChecks, hright, hready, hlen]
  rfl

section
variable {s : State} {h : SqpHdr} (ok : s.MsgOk h none 32) (hsup : s.sup = true)
include ok hsup

theorem exec_attestReq (nonce : BitVec 256) : exec (.attestReq h nonce) s = .next (((s.afterChecks h).attest h nonce).againAnswer h) := by
  obtain ⟨hgets, hright, hlen⟩ := ok
  have hsends := State.afterChecks_sends hgets
  have hsup' : (s.afterChecks h).sup = true := by rw [State.sup, hsends.ready]; exact hsup
  change Host.Outcome.next (s.received h _) = _
  rw [State.received_afterChecks hgets, State.attestMsg,
    State.lateChecks_pass ((hsends.hasRight _ _).trans hright) hsup' (by rw [lenIs, decide_eq_true hlen])]

/-- The evidence goes out with the signature's random bytes, and is made anew for a duplicate (R441). -/
theorem attestReq_spec (nonce : BitVec 256) : ∃ t, ∃ rnd : BitVec 256, exec (.attestReq h nonce) s = .next t ∧ s.Sends { t with free := s.free }
    ∧ (h.seq, Answer.again) ∈ (t.hport h.port).recs
    ∧ (t.hport h.port).nextSeq = ((s.afterChecks h).hport h.port).nextSeq
        + BitVec.ofNat 32 (framePays (s.payLimit h.port h.src.v6) (s.evidence nonce rnd)).length := by
  have hsends := State.afterChecks_sends ok.1
  refine ⟨_, ((s.afterChecks h).takeFree 256).1, exec_attestReq ok hsup nonce, ?_, State.againAnswer_recs _ h, ?_⟩
  · exact (hsends.takes.trans (State.attest_onlyTakes _ h nonce)).trans (State.againAnswer_sends h (.refl _)).takes
  · rw [State.againAnswer, State.onHport_hport, ← hsends.evidence, ← hsends.payLimit]
    exact State.answerMsg_nextSeq ((s.afterChecks h).takeFree 256).2 h 0x61 h.gen _

end

/-- Settles O39: a raster's outcomes in the order of its checks, and an attestation as the answer it sends and the fields of its evidence. -/
theorem referencesAndAttestation : Obligations.ReferencesAndAttestation := by
  unfold Obligations.ReferencesAndAttestation
  refine ⟨fun s x tr h hr htr hended hkind => ?rasters, fun s h nonce ok hsup => attestReq_spec ok hsup nonce, fun s nonce rnd => ?evidence⟩
  case rasters =>
    have hexec := exec_referenceDecodeDone hr htr hended hkind
    refine ⟨fun hactive => ?_, fun hactive => ⟨fun hdecode => ?_, fun c bs pages hdecode himage hpages => ⟨fun hshort => ?_, fun hroom => ?_⟩⟩⟩
    · exact ⟨_, hexec.trans (congrArg _ (State.settleRef_busy hactive)), s.dropTransfer_refused x.val h .busy⟩
    · exact ⟨_, hexec.trans (congrArg _ (State.settleRef_rejected hactive hdecode)), s.dropTransfer_refused x.val h .imageRejected⟩
    · rw [State.settleRef_decoded hactive hdecode himage, hpages, if_pos hshort] at hexec
      exact ⟨_, hexec, s.dropTransfer_refused x.val h .resources⟩
    · rw [State.settleRef_decoded hactive hdecode himage, hpages, if_neg (Nat.not_lt.mpr hroom)] at hexec
      obtain ⟨hsends, htransfers, hget⟩ := s.keepRef_nak x.val tr c bs h
      obtain ⟨hlen, hfree⟩ := s.freePages_spec tr.slot tr.refId (s.rasterSize tr.refId c).1
      obtain ⟨hmem, d, hd, haccepts⟩ := State.decodeRef_spec hdecode
      rw [hpages] at hlen hfree
      exact ⟨_, _, hexec, hget, rfl, hpages, Nat.le_antisymm hlen hroom, hmem, ⟨d, hd, StreamCfg.acceptsRef_iff haccepts⟩, hfree, htransfers,
        State.answerMsg_replied _ h 0x7F h.gen (nakPay .ok 0), hsends⟩
  case evidence =>
    exact ⟨s.part_evidence nonce rnd (k := 11) rfl rfl, s.part_evidence nonce rnd (k := 12) rfl rfl, s.part_evidence nonce rnd (k := 13) rfl rfl,
      s.part_evidence nonce rnd (k := 14) rfl rfl, Sec.deviceId_unready⟩

end Sys2Proof.Machine
end

section
/-!
PROOF. RTP packets joined to frames, units decoded in their turn, and video frames completed or abandoned (R361, R364, R373-R377, R385-R387, R390).
-/

namespace Sys2Proof.Machine

/-! ### Damage (R375, R385) -/

/-- A unit marked damaged where no cause stands and it is not yet decoded. -/
def VFrame.mark (f : VFrame) (cause a : Nat) (m : SMap Nat) (i : Nat) : SMap Nat :=
  if f.next ≤ a + i && (SMap.get m (a + i)).isNone then SMap.put m (a + i) cause else m

theorem VFrame.mark_get (f : VFrame) (cause a : Nat) (m : SMap Nat) (i u : Nat) : SMap.get (f.mark cause a m i) u
    = if u = a + i ∧ f.next ≤ u ∧ SMap.get m u = none then some cause else SMap.get m u := by
  unfold VFrame.mark
  simp only [Bool.and_eq_true, decide_eq_true_eq, Option.isNone_iff_eq_none]
  by_cases hu : u = a + i
  · subst hu
    simp only [true_and]
    split
    · exact SMap.get_put_self _ _ _
    · rfl
  · simp only [hu, false_and, if_false]
    split
    · exact SMap.get_put_ne _ _ hu
    · rfl

/-- The units of a range without a cause, and not yet decoded, take the cause; every other unit stays as it is. -/
theorem VFrame.damageRange_get (f : VFrame) (cause a b u : Nat) : SMap.get (f.damageRange cause a b).damage u
    = if (a ≤ u ∧ u < b) ∧ f.next ≤ u ∧ SMap.get f.damage u = none then some cause else SMap.get f.damage u := by
  have hmarks (n : Nat) : SMap.get ((List.range n).foldl (f.mark cause a) f.damage) u
      = if (a ≤ u ∧ u < a + n) ∧ f.next ≤ u ∧ SMap.get f.damage u = none then some cause else SMap.get f.damage u := by
    induction n with
    | zero => rw [List.range_zero, List.foldl_nil, if_neg (by omega)]
    | succ n ih =>
      rw [List.range_succ, List.foldl_append, List.foldl_cons, List.foldl_nil, VFrame.mark_get, ih]
      by_cases hu : u = a + n
      · rw [if_neg (c := (a ≤ u ∧ u < a + n) ∧ _) (by omega)]
        simp only [hu, true_and, Nat.le_add_right, Nat.add_lt_add_left (Nat.lt_succ_self n) a]
      · rw [if_neg fun h => hu h.1]
        have hrange : (a ≤ u ∧ u < a + n) ↔ (a ≤ u ∧ u < a + (n + 1)) := by omega
        simp only [hrange]
  refine (hmarks (b - a)).trans ?_
  have hrange : (a ≤ u ∧ u < a + (b - a)) ↔ (a ≤ u ∧ u < b) := by omega
  simp only [hrange]

section
variable {f : VFrame} {cause a b u : Nat}

theorem VFrame.damageRange_inside (ha : a ≤ u) (hb : u < b) (hnext : f.next ≤ u) (hnone : SMap.get f.damage u = none) :
    SMap.get (f.damageRange cause a b).damage u = some cause := by
  rw [VFrame.damageRange_get, if_pos ⟨⟨ha, hb⟩, hnext, hnone⟩]

theorem VFrame.damageRange_outside (h : u < a ∨ b ≤ u) : SMap.get (f.damageRange cause a b).damage u = SMap.get f.damage u := by
  rw [VFrame.damageRange_get, if_neg fun hin => by omega]

/-- A unit of the range that is not yet decoded is damaged, by this cause or by an earlier one. -/
theorem VFrame.damageRange_isSome (ha : a ≤ u) (hb : u < b) (hnext : f.next ≤ u) : (SMap.get (f.damageRange cause a b).damage u).isSome = true := by
  rw [VFrame.damageRange_get]
  split
  · rfl
  next h =>
    cases hu : SMap.get f.damage u with
    | none => exact absurd ⟨⟨ha, hb⟩, hnext, hu⟩ h
    | some c => rfl

theorem VFrame.damageRange_keeps (h : (SMap.get f.damage u).isSome = true) : (SMap.get (f.damageRange cause a b).damage u).isSome = true := by
  rw [VFrame.damageRange_get]
  split
  · rfl
  · exact h

end

/-! ### A packet in its frame (R375, R385) -/

theorem onLast_append (g : VFrame → VFrame) (l : List VFrame) (x : VFrame) : onLast g (l ++ [x]) = l ++ [g x] := by
  induction l with
  | nil => rfl
  | cons y r ih =>
    cases r with
    | nil => rfl
    | cons z r => exact congrArg (y :: ·) ih

/-- A packet whose bytes follow what was received joins the frame. -/
theorem VFrame.take_joins {k : RtpPkt} {p : RtpSpan} {at' : Nat} (hspan : k.span = some p) (hat : p.first ≤ at') (f : VFrame) :
    f.take k at' false false = { f with chunks := f.chunks ++ [(p.first, k.payload)], last := spanAfter p, ended := k.marker } := by
  unfold VFrame.take
  rw [hspan]
  simp [Nat.not_lt.mpr hat]

/-- What a gap hides is damaged, and no other unit. -/
theorem VFrame.take_gap {k : RtpPkt} {p : RtpSpan} (hspan : k.span = some p) (at' : Nat) (full : Bool) (f : VFrame) :
    (∀ u, at' ≤ u → u < spanStop p → f.next ≤ u → (SMap.get (f.take k at' true full).damage u).isSome = true)
      ∧ (full = false → (f.take k at' true full).chunks = f.chunks ++ [(p.first, k.payload)]
          ∧ ∀ u, (u < at' ∨ spanStop p ≤ u) → SMap.get (f.take k at' true full).damage u = SMap.get f.damage u) := by
  unfold VFrame.take
  rw [hspan]
  cases full with
  | false => exact ⟨fun u ha hb hnext => VFrame.damageRange_isSome ha hb hnext, fun _ => ⟨rfl, fun u hu => VFrame.damageRange_outside hu⟩⟩
  | true => exact ⟨fun u ha hb hnext => VFrame.damageRange_keeps (VFrame.damageRange_isSome ha hb hnext), fun h => Bool.noConfusion h⟩

/-- A packet that finds RXBUF full damages its units. -/
theorem VFrame.take_full {k : RtpPkt} {p : RtpSpan} {at' : Nat} (hspan : k.span = some p) (hat : p.first ≤ at') (f : VFrame) :
    (f.take k at' false true).chunks = f.chunks ∧ ∀ u, p.first ≤ u → u ≤ p.last → f.next ≤ u → SMap.get f.damage u = none →
      SMap.get (f.take k at' false true).damage u = some 2 := by
  have htake : f.take k at' false true = { f.damageRange 2 p.first (p.last + 1) with last := spanAfter p, ended := k.marker } := by
    unfold VFrame.take
    rw [hspan]
    simp [Nat.not_lt.mpr hat]
  rw [htake]
  exact ⟨rfl, fun u ha hb => VFrame.damageRange_inside ha (Nat.lt_succ_of_le hb)⟩

/-- A packet whose header is in error damages the unit that was to come. -/
theorem VFrame.take_error {k : RtpPkt} (hspan : k.span = none) (at' : Nat) (full : Bool) (f : VFrame) :
    (f.take k at' false full).chunks = f.chunks
      ∧ (f.next ≤ at' → SMap.get f.damage at' = none → SMap.get (f.take k at' false full).damage at' = some 3) := by
  unfold VFrame.take
  rw [hspan]
  exact ⟨rfl, VFrame.damageRange_inside (Nat.le_refl at') (Nat.lt_succ_self at')⟩

/-! ### A packet in its stream (R361, R375) -/

/-- How far a packet's sequence number is ahead of the next. -/
def StreamSt.ahead (x : StreamSt) (k : RtpPkt) : Nat :=
  match x.seq with
  | none => 0
  | some q => (k.seq - (q + 1)).toNat

/-- Whether a packet goes on with the last timestamp. -/
def StreamSt.goesOn (x : StreamSt) (k : RtpPkt) : Bool := x.ts = some k.ts

/-- The unit that was to come next in a packet's frame. -/
def StreamSt.place (x : StreamSt) (k : RtpPkt) : Nat := if x.goesOn k then x.unit else 0

/-- The unit that follows a packet's bytes in its stream. -/
def StreamSt.unitAfter (x : StreamSt) (k : RtpPkt) : Nat := (k.span.map spanAfter).getD (x.place k)

/-- A stream's frames, with the next begun where a packet's timestamp is new. -/
def StreamSt.joined (x : StreamSt) (c : StreamCfg) (k : RtpPkt) (capture : Nat) : List VFrame :=
  if x.goesOn k then x.frames
  else (if decide (0 < x.ahead k) && x.takes then onLast (fun f => f.damageRange 1 x.unit c.units) x.frames else x.frames)
    ++ [{ ts := k.ts, capture := capture }]

/-- Whether a packet finds RXBUF full. -/
def StreamSt.overflows (x : StreamSt) (c : StreamCfg) (k : RtpPkt) (capture : Nat) : Bool :=
  c.rxbuf < ({ x with frames := x.joined c k capture } : StreamSt).used + k.payload.length

/-- A stream that has taken a packet. -/
def StreamSt.heard (c : StreamCfg) (k : RtpPkt) (capture : Nat) (x : StreamSt) : StreamSt :=
  if x.goesOn k && !x.takes then { x with seq := some k.seq, unit := x.unitAfter k }
  else { x with
    frames := onLast (fun f => f.take k (x.place k) (0 < x.ahead k) (x.overflows c k capture)) (x.joined c k capture),
    ts := some k.ts, takes := !k.marker, seq := some k.seq, unit := x.unitAfter k }

/-- The capture time of a frame that begins now (R361). -/
def State.frameCapture (s : State) (n : Nat) (c : StreamCfg) : Nat := (s.arrival c + 2 ^ 64 - (s.rw (.latComp n)).toNat) % 2 ^ 64

section
variable {s : State} {n : Nat} {c : StreamCfg} {k : RtpPkt}

theorem State.rtpPacket_old (h : 0x8000 ≤ (s.stream n).ahead k) : s.rtpPacket n c k = s := if_pos h

theorem State.rtpPacket_heard (h : (s.stream n).ahead k < 0x8000) : s.rtpPacket n c k = s.onStream n (StreamSt.heard c k (s.frameCapture n c)) := by
  have hstream : s.onStream n (StreamSt.heard c k (s.frameCapture n c))
      = s.onIngest (fun g => { g with streams := g.streams.put n ((s.stream n).heard c k (s.frameCapture n c)) }) := rfl
  have hold : s.rtpPacket n c k = _ := if_neg (Nat.not_le.mpr h)
  rw [hold, hstream, StreamSt.heard]
  split
  next hspent => rw [if_pos (show ((s.stream n).goesOn k && !(s.stream n).takes) = true from hspent)]; rfl
  next hspent => rw [if_neg (show ¬ ((s.stream n).goesOn k && !(s.stream n).takes) = true from hspent)]; rfl

end

section
variable {x : StreamSt} {c : StreamCfg} {k : RtpPkt} {capture : Nat}

theorem StreamSt.ahead_zero (h : ∀ q, x.seq = some q → k.seq = q + 1) : x.ahead k = 0 := by
  unfold StreamSt.ahead
  split
  · rfl
  next q hq => rw [h q hq, BitVec.sub_self]; rfl

theorem StreamSt.ahead_pos {q : BitVec 16} (hq : x.seq = some q) (h : k.seq ≠ q + 1) : 0 < x.ahead k := by
  unfold StreamSt.ahead
  rw [hq]
  refine Nat.pos_of_ne_zero fun h0 => h ?_
  have hdiff : k.seq - (q + 1) = 0 := BitVec.eq_of_toNat_eq h0
  exact (BitVec.sub_eq_iff_eq_add.mp hdiff).trans (BitVec.zero_add _)

theorem StreamSt.ahead_of_seq {q : BitVec 16} (hq : x.seq = some q) : x.ahead k = (k.seq - (q + 1)).toNat := by rw [StreamSt.ahead, hq]

theorem StreamSt.ahead_lt (h : ∀ q, x.seq = some q → (k.seq - (q + 1)).toNat < 0x8000) : x.ahead k < 0x8000 := by
  unfold StreamSt.ahead
  split
  · decide
  next q hq => exact h q hq

theorem StreamSt.place_eq : x.place k = if x.ts = some k.ts then x.unit else 0 := by simp only [StreamSt.place, StreamSt.goesOn, decide_eq_true_eq]

theorem StreamSt.heard_header : (x.heard c k capture).seq = some k.seq ∧ (x.heard c k capture).unit = x.unitAfter k
    ∧ (x.heard c k capture).ts = some k.ts := by
  unfold StreamSt.heard
  split
  next h =>
    rw [Bool.and_eq_true] at h
    exact ⟨rfl, rfl, of_decide_eq_true h.1⟩
  next => exact ⟨rfl, rfl, rfl⟩

theorem StreamSt.heard_spent (hts : x.ts = some k.ts) (htakes : x.takes = false) : (x.heard c k capture).frames = x.frames := by
  rw [StreamSt.heard, if_pos (by rw [StreamSt.goesOn, htakes, decide_eq_true hts]; rfl)]

/-- A packet of the last timestamp goes into the last frame. -/
theorem StreamSt.heard_goesOn (hts : x.ts = some k.ts) (htakes : x.takes = true) {fs : List VFrame} {f : VFrame} (hframes : x.frames = fs ++ [f]) :
    (x.heard c k capture).takes = (!k.marker) ∧ (x.heard c k capture).frames
      = fs ++ [f.take k x.unit (0 < x.ahead k) (c.rxbuf < x.used + k.payload.length)] := by
  have hon : x.goesOn k = true := decide_eq_true hts
  have hjoined : x.joined c k capture = fs ++ [f] := by rw [StreamSt.joined, if_pos hon, hframes]
  have hplace : x.place k = x.unit := if_pos hon
  have hfull : x.overflows c k capture = decide (c.rxbuf < x.used + k.payload.length) := by
    rw [StreamSt.overflows, hjoined, ← hframes]
  rw [StreamSt.heard, if_neg (by rw [hon, htakes]; decide)]
  refine ⟨rfl, ?_⟩
  dsimp only
  rw [hjoined, onLast_append, hplace, hfull]

/-- A packet of a new timestamp, with none missed, begins the next frame. -/
theorem StreamSt.heard_begins {p : RtpSpan} (hspan : k.span = some p) (hts : x.ts ≠ some k.ts) (hnext : ∀ q, x.seq = some q → k.seq = q + 1)
    (hat : p.first ≤ x.place k) (hfits : x.used + k.payload.length ≤ c.rxbuf) :
    (x.heard c k capture).takes = (!k.marker) ∧ (x.heard c k capture).frames = x.frames
      ++ [{ ts := k.ts, capture := capture, chunks := [(p.first, k.payload)], last := spanAfter p, ended := k.marker }] := by
  have hon : x.goesOn k = false := decide_eq_false hts
  have hahead := StreamSt.ahead_zero hnext
  have hjoined : x.joined c k capture = x.frames ++ [{ ts := k.ts, capture := capture }] := by
    rw [StreamSt.joined, hon, hahead]
    rfl
  have hfull : x.overflows c k capture = false := by
    refine decide_eq_false (Nat.not_lt.mpr ?_)
    have hused : ({ x with frames := x.frames ++ [{ ts := k.ts, capture := capture }] } : StreamSt).used = x.used := by
      simp [StreamSt.used]
    rw [hjoined, hused]
    exact hfits
  rw [StreamSt.heard, hon, if_neg (by simp), hjoined, hfull, hahead]
  refine ⟨rfl, ?_⟩
  dsimp only
  rw [onLast_append, decide_eq_false (Nat.lt_irrefl 0), VFrame.take_joins hspan hat]
  rfl

end

/-! ### RTP_PACKET -/

section
variable {s : State} {n : Fin 32} {c : StreamCfg} {k : RtpPkt} (hruns : s.ingestRuns = true) (hcfg : s.streamCfg n.val = some c)
include hruns hcfg

theorem exec_rtpPacket_ssrc (hcheck : c.ssrcCheck = true) (hssrc : k.ssrc ≠ c.ssrc) : exec (.rtpPacket n k) s = .next s := by
  change execRtpPacket n k s = _
  rw [execRtpPacket, hcfg, hruns]
  exact congrArg Host.Outcome.next (if_neg (by simp [hcheck, hssrc]))

theorem exec_rtpPacket (hkind : c.kind ≠ .meas) (hssrc : c.ssrcCheck = true → k.ssrc = c.ssrc) :
    exec (.rtpPacket n k) s = .next (s.rtpPacket n.val c k) := by
  have hpass : (!c.ssrcCheck || decide (k.ssrc = c.ssrc)) = true := by
    cases hcheck : c.ssrcCheck with
    | false => rfl
    | true => rw [decide_eq_true (hssrc hcheck)]; rfl
  change execRtpPacket n k s = _
  rw [execRtpPacket, hcfg, hruns]
  exact congrArg Host.Outcome.next (if_pos (by rw [hpass, decide_eq_true hkind]; rfl))

end

/-! ### The next unit (R376) -/

theorem VFrame.skip_spec (n : Nat) (f : VFrame) : f.skip n = { f with next := (f.skip n).next }
    ∧ ((f.skip n).next < f.next + n → SMap.get f.damage (f.skip n).next = none) := by
  induction n generalizing f with
  | zero => exact ⟨rfl, fun h => absurd h (Nat.lt_irrefl _)⟩
  | succ n ih =>
    rw [VFrame.skip]
    split
    · obtain ⟨heq, hnone⟩ := ih { f with next := f.next + 1 }
      exact ⟨heq, fun h => hnone (by dsimp only; omega)⟩
    next h => exact ⟨rfl, fun _ => Option.not_isSome_iff_eq_none.mp h⟩

/-- A frame's decode start changes neither what is received of it nor what is damaged. -/
theorem State.startDecode_spec {s : State} {n : Nat} {c : StreamCfg} {f g : VFrame} (h : s.startDecode n c f = some g) :
    g.next = f.next ∧ g.damage = f.damage := by
  unfold State.startDecode at h
  split at h
  · obtain rfl := Option.some.inj h
    exact ⟨rfl, rfl⟩
  · split at h
    · cases h
    · obtain rfl := Option.some.inj h
      exact ⟨rfl, rfl⟩

/-! ### Reference pages (R381, R384) -/

/-- A frame of which no damage, capture time or reference has changed. -/
structure VFrame.Same (f g : VFrame) : Prop where
  damage : g.damage = f.damage
  capture : g.capture = f.capture
  ref : g.ref = f.ref

theorem VFrame.Same.refl (f : VFrame) : f.Same f := ⟨rfl, rfl, rfl⟩

theorem VFrame.Same.trans {f g h : VFrame} (a : f.Same g) (b : g.Same h) : f.Same h :=
  ⟨b.damage.trans a.damage, b.capture.trans a.capture, b.ref.trans a.ref⟩

theorem VFrame.Same.foldl {α : Type} {p : VFrame → α → VFrame} (hp : ∀ f x, VFrame.Same f (p f x)) (l : List α) (f : VFrame) : f.Same (l.foldl p f) :=
  List.foldlRecOn (motive := f.Same) l p (.refl f) fun g hg x _ => hg.trans (hp g x)

/-- A step that reads pages of a frame's reference, and changes neither the frame's damage nor the ingest unit. -/
structure State.ReadsRef (s : State) (f : VFrame) (x : VFrame × State) : Prop where
  frame : s.InIngest [.refPoison] x.2
  ingest : x.2.ingest = s.ingest
  same : f.Same x.1

namespace State.ReadsRef

variable {s : State} {f : VFrame} {x y : VFrame × State}

theorem refl (s : State) (f : VFrame) : s.ReadsRef f (f, s) := ⟨.refl s, rfl, .refl f⟩

theorem trans (h : s.ReadsRef f x) (h' : x.2.ReadsRef x.1 y) : s.ReadsRef f y :=
  ⟨h.frame.trans h'.frame, h'.ingest.trans h.ingest, h.same.trans h'.same⟩

theorem change {g : VFrame} (h : s.ReadsRef f x) (hg : x.1.Same g) : s.ReadsRef f (g, x.2) := ⟨h.frame, h.ingest, h.same.trans hg⟩

end State.ReadsRef

theorem State.fetchPage_readsRef (s : State) (f : VFrame) (a : Nat) : s.ReadsRef f (f, (s.fetchPage a).2) :=
  ⟨.of_fetched (s.fetchPage_onlyFetched a), (congrArg State.ingest (State.Sends.rest (s.fetchPage_onlyFetched a).sends)).trans rfl, .refl f⟩

theorem State.readRefPages_readsRef (l : List Nat) (s : State) (f : VFrame) : s.ReadsRef f (s.readRefPages f l) := by
  induction l generalizing s f with
  | nil => exact .refl s f
  | cons p r ih =>
    rw [State.readRefPages]
    dsimp only
    have hfetch := s.fetchPage_readsRef f (p * 4096)
    split
    · exact hfetch.trans (ih _ _)
    · split
      · exact ih s f
      · have hbump : (s.fetchPage (p * 4096)).2.ReadsRef f ({ f with badPages := f.badPages.ins p }, (s.fetchPage (p * 4096)).2.bump .refPoison) :=
          ⟨.bump _ (List.mem_singleton_self _), State.bump_ingest _ _, ⟨rfl, rfl, rfl⟩⟩
        exact (hfetch.trans hbump).trans (ih _ _)

theorem State.compareSpot_same (s : State) (c : StreamCfg) (key : Nat) (r : RefSt) (sc : Nat) (f : VFrame) (x : Spot) :
    f.Same (s.compareSpot c key r sc f x) := by
  refine VFrame.Same.foldl (fun g i => ?_) _ f
  exact ⟨rfl, rfl, rfl⟩

theorem State.compareUnit_readsRef (s : State) (c : StreamCfg) (f : VFrame) (xs : List Spot) : s.ReadsRef f (s.compareUnit c f xs) := by
  unfold State.compareUnit
  split
  · exact .refl s f
  · exact (State.readRefPages_readsRef _ s f).change (.foldl (fun g x => State.compareSpot_same _ c _ _ _ g x) _ _)

theorem State.concealUnit_readsRef (s : State) (c : StreamCfg) (ref : Option (Nat × RefSt × Nat)) (f : VFrame) (u : Nat) :
    s.ReadsRef f (s.concealUnit c ref f u) := by
  unfold State.concealUnit
  refine (State.readRefPages_readsRef _ s f).change (.foldl (fun g x => ?_) _ _)
  exact ⟨rfl, rfl, rfl⟩

theorem State.concealAll_readsRef (s : State) (c : StreamCfg) (f : VFrame) : s.ReadsRef f (s.concealAll c f) :=
  List.foldlRecOn (motive := s.ReadsRef f) f.damage _ (.refl s f) fun x hx d _ => hx.trans (x.2.concealUnit_readsRef c _ x.1 d.1)

/-! ### Completion (R386, R387, R390) -/

/-- Of a frame the positions that its damage covers. -/
def VFrame.lost (f : VFrame) (c : StreamCfg) : Nat := (f.damage.map (fun d => (c.unitRect d.1).lines * (c.unitRect d.1).cols)).sum

/-- The concealed per mille of a frame (R387). -/
def VFrame.concealed (f : VFrame) (c : StreamCfg) : Nat := (1000 * f.lost c + c.width * c.height - 1) / (c.width * c.height)

/-- The means of a frame's tiles (R381). -/
def VFrame.means (f : VFrame) (c : StreamCfg) : List Word :=
  if f.ref.isNone then [] else
    (List.range c.tiles).flatMap (fun t => (List.range 3).map (fun i => meanFp32 (SMap.getD f.tiles (t * 4 + i) (0, 0))))

/-- The regions of interest it leaves (R378). -/
def VFrame.regions (f : VFrame) (c : StreamCfg) : List Rect := if f.ref.isSome && c.kind = .jxs then findings c f else []

/-- A stream whose oldest frame has completed. -/
def StreamSt.completed (c : StreamCfg) (f : VFrame) (x : StreamSt) : StreamSt :=
  { x.leave with pic := f.pic, means := f.means c, conceal := f.concealed c, noRef := f.ref.isNone, ref := f.ref, roi := f.regions c, done := x.done + 1 }

/-- A frame's damage told of (R387). -/
def State.reportDamage (s : State) (n : Nat) (c : StreamCfg) (f : VFrame) : State :=
  if (extents c.cols f.damage).isEmpty then s else
    (extents c.cols f.damage).foldl (fun s _ => s.bump (.damage n)) (s.event 8 n (damageBody c (f.concealed c) f.capture (extents c.cols f.damage)))

/-- A frame concealed, out of its stream, and told of. -/
def State.concluded (s : State) (n : Nat) (c : StreamCfg) (f : VFrame) : State :=
  ((s.concealAll c f).2.onStream n (StreamSt.completed c (s.concealAll c f).1)).reportDamage n c (s.concealAll c f).1

theorem State.completeFrame_eq (s : State) (n : Nat) (c : StreamCfg) (f : VFrame) :
    s.completeFrame n c f = (s.concluded n c f).fireAll (s.concluded n c f).tide64 n (s.concealAll c f).1.capture := rfl

theorem State.InIngest.event (s : State) (cs : List Ctr) (kind subject : Nat) (body : List Byte) : s.InIngest cs (s.event kind subject body) :=
  .of_sends (State.event_sends kind subject body (.refl s)) fun d _ => by rw [State.count, State.event_counts, State.count]

theorem State.reportDamage_inIngest (s : State) (n : Nat) (c : StreamCfg) (f : VFrame) :
    s.InIngest [.damage n] (s.reportDamage n c f) ∧ (s.reportDamage n c f).ingest = s.ingest := by
  unfold State.reportDamage
  split
  · exact ⟨.refl s, rfl⟩
  · refine ⟨(State.InIngest.event s _ _ _ _).trans (.foldl (fun t _ => .bump t (List.mem_singleton_self _)) _ _), ?_⟩
    exact (sends_foldl _ _ s (fun _ _ h => State.bump_sends _ h) (State.event_sends _ _ _ (.refl s))).ingest

theorem State.concluded_inIngest (s : State) (n : Nat) (c : StreamCfg) (f : VFrame) : s.InIngest [.refPoison, .damage n] (s.concluded n c f) := by
  have hread := (s.concealAll_readsRef c f).frame
  refine (hread.mono ?_).trans ((State.InIngest.onStream _ n _).trans ((State.reportDamage_inIngest _ n c _).1.mono ?_))
  · exact fun d hd => List.mem_cons.mpr (.inl (List.mem_singleton.mp hd))
  · exact fun d hd => List.mem_cons_of_mem _ hd

theorem State.concluded_ingest (s : State) (n : Nat) (c : StreamCfg) (f : VFrame) :
    (s.concluded n c f).ingest = (s.onStream n (StreamSt.completed c (s.concealAll c f).1)).ingest := by
  rw [State.concluded, (State.reportDamage_inIngest _ n c _).2, State.onStream, State.onIngest, (s.concealAll_readsRef c f).ingest]
  rfl

section
variable (s : State) (n : Nat) (c : StreamCfg) (f : VFrame)

theorem State.completeFrame_inIngest : s.InIngest [.refPoison, .damage n, .psetDrop] (s.completeFrame n c f) := by
  have hfire := (State.fireAll_spec (s.concluded n c f) (s.concluded n c f).tide64 n (s.concealAll c f).1.capture).1
  refine ((s.concluded_inIngest n c f).mono ?_).trans (hfire.mono ?_)
  · exact fun d hd => (List.mem_cons.mp hd).elim (fun h => h ▸ List.mem_cons_self) fun h => List.mem_cons_of_mem _ (List.mem_cons.mpr
      (.inl (List.mem_singleton.mp h)))
  · exact fun d hd => List.mem_cons_of_mem _ (List.mem_cons_of_mem _ hd)

theorem State.completeFrame_stream : (s.completeFrame n c f).stream n = (s.stream n).completed c (s.concealAll c f).1 := by
  have hfire := (State.fireAll_spec (s.concluded n c f) (s.concluded n c f).tide64 n (s.concealAll c f).1.capture).2.2.1
  rw [State.completeFrame_eq, State.stream, hfire, s.concluded_ingest, ← State.stream, State.onStream_stream]

/-- A completed frame leaves its stream with its concealed per mille, and with NO_REF where it had no reference (R384, R387). -/
theorem State.completeFrame_marks : ((s.completeFrame n c f).stream n).frames = (s.stream n).frames.drop 1
    ∧ ((s.completeFrame n c f).stream n).done = (s.stream n).done + 1 ∧ ((s.completeFrame n c f).stream n).noRef = f.ref.isNone
    ∧ ((s.completeFrame n c f).stream n).conceal = f.concealed c
    ∧ ((s.completeFrame n c f).stream n).unsupported = (s.stream n).unsupported := by
  obtain ⟨hdamage, -, href⟩ := (s.concealAll_readsRef c f).same
  rw [s.completeFrame_stream]
  refine ⟨rfl, rfl, congrArg Option.isNone href, ?_, rfl⟩
  change (s.concealAll c f).1.concealed c = _
  rw [VFrame.concealed, VFrame.lost, hdamage, VFrame.concealed, VFrame.lost]

theorem State.completeFrame_psets {im : StructImage} (him : s.sec.image = some im) : ∀ x ∈ (s.completeFrame n c f).ingest.psets,
    x ∈ s.ingest.psets ∨ ∃ b ∈ im.psets, b.2.trigger = n ∧ b.2.fired (s.ingest.firing + 1) b.1 f.capture x := by
  have hfire := (State.fireAll_spec (s.concluded n c f) (s.concluded n c f).tide64 n (s.concealAll c f).1.capture).2.2.2 im
    ((congrArg Sec.image (s.concluded_inIngest n c f).sec).trans him)
  rw [(s.concealAll_readsRef c f).same.capture, s.concluded_ingest] at hfire
  rw [State.completeFrame_eq, (s.concealAll_readsRef c f).same.capture]
  exact hfire

theorem State.abandon_inIngest (cause : Nat) : s.InIngest [.late n, .refPoison, .damage n, .psetDrop] (s.abandon n c f cause) :=
  .trans (.bump s List.mem_cons_self) ((State.completeFrame_inIngest _ n c _).mono fun _ hd => List.mem_cons_of_mem _ hd)

/-- A frame abandoned is counted, and leaves its stream as a completed one does (R377). -/
theorem State.abandon_marks (cause : Nat) : ((s.abandon n c f cause).stream n).frames = (s.stream n).frames.drop 1
    ∧ ((s.abandon n c f cause).stream n).done = (s.stream n).done + 1
    ∧ ((s.abandon n c f cause).stream n).unsupported = (s.stream n).unsupported
    ∧ (s.abandon n c f cause).count (.late n) = (s.bump (.late n)).count (.late n) := by
  obtain ⟨hframes, hdone, -, -, hunsupported⟩ := (s.bump (.late n)).completeFrame_marks n c (f.damageRange cause f.next c.units)
  have hstream : (s.bump (.late n)).stream n = s.stream n := State.stream_congr (s.bump_ingest _) n
  rw [hstream] at hframes hdone hunsupported
  refine ⟨hframes, hdone, hunsupported, ((s.bump (.late n)).completeFrame_inIngest n c _).counts _ fun d hd => ?_⟩
  simp only [List.mem_cons, List.not_mem_nil, or_false] at hd
  rcases hd with rfl | rfl | rfl <;> simp only [Ctr.addr] <;> omega

end

/-! ### PRECINCT_DECODE (R364, R373, R374, R376) -/

/-- A frame whose next unit is in error (R374). -/
def VFrame.spoiled (f : VFrame) (u : Nat) : VFrame := { f.damageRange 3 u (u + 1) with next := u + 1 }

/-- A frame whose next unit is decoded. -/
def VFrame.decoded (f : VFrame) (c : StreamCfg) (xs : List Spot) (u : Nat) : VFrame := { f.draw c xs with next := u + 1 }

/-- The next unit of a frame, its decode start and its outcome. -/
def State.decodeNext (s : State) (n : Nat) (c : StreamCfg) (f : VFrame) : State :=
  match s.startDecode n c f with
  | none => s.dropStale n
  | some g =>
    if ((Config.declared c g.chunks).map c.accepts) = some false then
      ((s.note (.ingestStatus n) (· ||| 2 ^ 26)).onStream n (fun x => { x with unsupported := true })).abandon n c g 5
    else if !g.inBudget c (s.nclk + unitCycles c g.roi (c.kind = .raw) f.next) then
      s.setFrame n g (s.nclk + unitCycles c g.roi (c.kind = .raw) f.next)
    else match decodeUnit c g.roi g.chunks f.next with
      | .syntaxError => s.setFrame n (g.spoiled f.next)
          (s.nclk + unitCycles c g.roi (c.kind = .raw) f.next)
      | .spots xs => (s.compareUnit c g xs).2.setFrame n ((s.compareUnit c g xs).1.decoded c xs f.next)
          (s.nclk + unitCycles c g.roi (c.kind = .raw) f.next)

section
variable {s : State} {n : Fin 32} {c : StreamCfg} {f0 : VFrame} {r : List VFrame} (hcfg : s.streamCfg n.val = some c)
  (hframes : (s.stream n.val).frames = f0 :: r)
include hcfg hframes

theorem exec_precinctDecode_waits (h : ((f0.skip c.units).ended = false ∧ (f0.skip c.units).last ≤ (f0.skip c.units).next)
    ∨ (f0.skip c.units).inBudget c s.nclk = false) : exec (.precinctDecode n) s = .next s := by
  change execPrecinctDecode n s = _
  rw [execPrecinctDecode, hcfg, hframes]
  refine congrArg Host.Outcome.next (if_pos ?_)
  rcases h with ⟨hended, hlast⟩ | hbudget
  · rw [hended, decide_eq_false (Nat.not_lt.mpr hlast)]
    simp
  · rw [hbudget]
    simp

variable (hruns : s.ingestRuns = true)
include hruns

theorem exec_precinctDecode (hnext : (f0.skip c.units).next < c.units) (hfree : (s.stream n.val).busy ≤ s.nclk)
    (hwhole : (f0.skip c.units).ended = true ∨ (f0.skip c.units).next < (f0.skip c.units).last) (hbudget : (f0.skip c.units).inBudget c s.nclk = true) :
    exec (.precinctDecode n) s = .next (s.decodeNext n.val c (f0.skip c.units)) := by
  have hwhole : ((f0.skip c.units).ended || decide ((f0.skip c.units).next < (f0.skip c.units).last)) = true := by
    rw [Bool.or_eq_true, decide_eq_true_eq]
    exact hwhole
  change execPrecinctDecode n s = _
  rw [execPrecinctDecode, hcfg, hframes]
  dsimp only
  rw [hruns, hwhole, hbudget, decide_eq_false (Nat.not_le.mpr hnext), decide_eq_false (Nat.not_lt.mpr hfree)]
  rfl

/-! ### DECODE_BUDGET_EXPIRY and VIDEO_FRAME_COMPLETE (R377) -/

theorem exec_decodeBudgetExpiry {at' : Nat} (hstarted : f0.started = some at') (hpassed : s.passed at' c.budget = true)
    (hnext : (f0.skip c.units).next < c.units) : exec (.decodeBudgetExpiry n) s = .next (s.abandon n.val c f0 4) := by
  change execDecodeBudgetExpiry n s = _
  rw [execDecodeBudgetExpiry, hcfg, hframes]
  dsimp only
  rw [hstarted]
  dsimp only
  rw [hruns, hpassed, decide_eq_true hnext]
  rfl

theorem exec_decodeBudgetExpiry_waits {at' : Nat} (hstarted : f0.started = some at') (hpassed : s.passed at' c.budget = false) :
    exec (.decodeBudgetExpiry n) s = .next s := by
  change execDecodeBudgetExpiry n s = _
  rw [execDecodeBudgetExpiry, hcfg, hframes]
  dsimp only
  rw [hstarted]
  dsimp only
  rw [hruns, hpassed]
  rfl

theorem exec_videoFrameComplete (hnext : c.units ≤ (f0.skip c.units).next) (hfree : (s.stream n.val).busy ≤ s.nclk) {g : VFrame}
    (hstart : s.startDecode n.val c (f0.skip c.units) = some g) : exec (.videoFrameComplete n) s = .next (s.completeFrame n.val c g) := by
  change execVideoFrameComplete n s = _
  rw [execVideoFrameComplete, hcfg, hframes]
  dsimp only
  rw [hruns, decide_eq_false (Nat.not_lt.mpr hnext), decide_eq_false (Nat.not_lt.mpr hfree), if_neg (by decide), hstart]

end

/-! ### The outcomes of a unit -/

section
variable (s : State) (n : Nat)

theorem State.setFrame_stream (g : VFrame) (busy : Nat) :
    ((s.setFrame n g busy).stream n).frames = g :: (s.stream n).frames.drop 1 ∧ ((s.setFrame n g busy).stream n).busy = busy
      ∧ s.setFrame n g busy = { s with ingest := { s.ingest with streams := (s.setFrame n g busy).ingest.streams } } := by
  have hself : (s.setFrame n g busy).stream n = _ := s.onStream_stream n _
  rw [hself]
  exact ⟨rfl, rfl, rfl⟩

theorem State.dropStale_spec : ((s.dropStale n).stream n).frames = (s.stream n).frames.drop 1
    ∧ (s.dropStale n).count (.stale n) = (s.bump (.stale n)).count (.stale n) ∧ (s.dropStale n).ingest.psets = s.ingest.psets := by
  refine ⟨?_, rfl, (congrArg Ingest.psets (s.bump_ingest (.stale n)) :)⟩
  rw [State.dropStale, State.onStream_stream, State.stream_congr (s.bump_ingest _)]
  rfl

variable {s n} {c : StreamCfg} {f g : VFrame}

theorem State.decodeNext_stale (hstart : s.startDecode n c f = none) : s.decodeNext n c f = s.dropStale n := by rw [State.decodeNext, hstart]

variable (hstart : s.startDecode n c f = some g)
include hstart

/-- A frame whose headers declare what the stream does not accept is marked, and abandoned (R373). -/
theorem State.decodeNext_unsupported (hdecl : (Config.declared c g.chunks).map c.accepts = some false) :
    ((s.decodeNext n c f).stream n).unsupported = true ∧ ((s.decodeNext n c f).stream n).frames = (s.stream n).frames.drop 1
      ∧ ((s.decodeNext n c f).stream n).done = (s.stream n).done + 1
      ∧ (s.decodeNext n c f).count (.late n) = (s.bump (.late n)).count (.late n) := by
  have hnext : s.decodeNext n c f
      = ((s.note (.ingestStatus n) (· ||| 2 ^ 26)).onStream n (fun x => { x with unsupported := true })).abandon n c g 5 := by
    rw [State.decodeNext, hstart]
    exact if_pos hdecl
  obtain ⟨hframes, hdone, hunsupported, hcount⟩ :=
    ((s.note (.ingestStatus n) (· ||| 2 ^ 26)).onStream n (fun x => { x with unsupported := true })).abandon_marks n c g 5
  rw [State.onStream_stream] at hframes hdone hunsupported
  rw [hnext, hframes, hdone, hunsupported, hcount, State.bump_count_self, State.bump_count_self]
  exact ⟨rfl, rfl, rfl, rfl⟩

variable (hdecl : (Config.declared c g.chunks).map c.accepts ≠ some false) {b : Nat} (hb : b = s.nclk + unitCycles c g.roi (c.kind = .raw) f.next)
include hdecl hb

theorem State.decodeNext_outlasts (hbudget : g.inBudget c b = false) : s.decodeNext n c f = s.setFrame n g b := by
  subst hb
  rw [State.decodeNext, hstart]
  exact (if_neg hdecl).trans (if_pos (by rw [hbudget]; rfl))

variable (hbudget : g.inBudget c b = true)
include hbudget

theorem State.decodeNext_syntaxError (herror : decodeUnit c g.roi g.chunks f.next = .syntaxError) :
    s.decodeNext n c f = s.setFrame n (g.spoiled f.next) b := by
  subst hb
  rw [State.decodeNext, hstart]
  refine (if_neg hdecl).trans ((if_neg (by rw [hbudget]; decide)).trans ?_)
  rw [herror]

theorem State.decodeNext_spots {xs : List Spot} (hspots : decodeUnit c g.roi g.chunks f.next = .spots xs) : s.decodeNext n c f
    = (s.compareUnit c g xs).2.setFrame n ((s.compareUnit c g xs).1.decoded c xs f.next) b := by
  subst hb
  rw [State.decodeNext, hstart]
  refine (if_neg hdecl).trans ((if_neg (by rw [hbudget]; decide)).trans ?_)
  rw [hspots]

end

/-- The unit that is decoded next has no cause of damage. -/
theorem VFrame.skip_next_undamaged {c : StreamCfg} {f0 f : VFrame} (hskip : f = f0.skip c.units) (hnext : f.next < c.units) :
    SMap.get f.damage f.next = none := by
  obtain ⟨heq, hnone⟩ := f0.skip_spec c.units
  have hdamage : f.damage = f0.damage := by rw [hskip, heq]
  rw [hdamage, hskip]
  exact hnone (by rw [← hskip]; omega)

/-- Settles O56: a packet by what its stream makes of it, a unit by the order of its checks, and a frame's end through the step that completes it. -/
theorem videoFramesAndPackets : Obligations.VideoFramesAndPackets := by
  unfold Obligations.VideoFramesAndPackets
  refine ⟨?packets, ?frames⟩
  case packets =>
    rintro s n c k x at' hruns hcfg hkind rfl hat
    have hat : (s.stream n.val).place k = at' := StreamSt.place_eq.trans hat.symm
    refine ⟨exec_rtpPacket_ssrc hruns hcfg, fun hssrc => ⟨fun q hq hold => ?_, fun hnew => ?_⟩⟩
    · rw [exec_rtpPacket hruns hcfg hkind hssrc, State.rtpPacket_old (by rwa [StreamSt.ahead_of_seq hq])]
    obtain ⟨t, ht⟩ : ∃ t, t = s.onStream n.val (StreamSt.heard c k (s.frameCapture n.val c)) := ⟨_, rfl⟩
    have hexec := exec_rtpPacket hruns hcfg hkind hssrc
    rw [State.rtpPacket_heard (StreamSt.ahead_lt hnew), ← ht] at hexec
    have hself : t.stream n.val = (s.stream n.val).heard c k (s.frameCapture n.val c) := ht ▸ s.onStream_stream n.val _
    obtain ⟨hseq, hunit, hts⟩ := (s.stream n.val).heard_header (c := c) (k := k) (capture := s.frameCapture n.val c)
    refine ⟨t, hexec, ht ▸ rfl, fun m hm => ht ▸ s.onStream_stream_ne n.val _ hm, ?_⟩
    rw [hself, hseq, hunit, hts, StreamSt.unitAfter, hat]
    refine ⟨rfl, rfl, rfl, StreamSt.heard_spent, fun p hspan hnext hfirst hfits => ⟨fun hts => ?begins, fun hts htakes fs f hframes => ?joins⟩,
      fun hts htakes fs f hframes => ?same⟩
    case begins => exact StreamSt.heard_begins hspan hts hnext (hat ▸ hfirst) hfits
    case joins =>
      have hplace : at' = (s.stream n.val).unit := hat.symm.trans (if_pos (decide_eq_true hts))
      obtain ⟨htakes', hframes'⟩ := StreamSt.heard_goesOn (c := c) (capture := s.frameCapture n.val c) hts htakes hframes
      rw [StreamSt.ahead_zero hnext, decide_eq_false (Nat.lt_irrefl 0), decide_eq_false (Nat.not_lt.mpr hfits),
        VFrame.take_joins hspan (hplace ▸ hfirst)] at hframes'
      exact ⟨htakes', hframes'⟩
    case same =>
      obtain ⟨-, hframes'⟩ := StreamSt.heard_goesOn (c := c) (capture := s.frameCapture n.val c) hts htakes hframes
      refine ⟨_, hframes', fun p q hspan hq hgap => ?_, fun p hspan hnext hfirst hfull => ?_, fun hspan hnext => ?_⟩
      · rw [decide_eq_true (StreamSt.ahead_pos hq hgap)]
        obtain ⟨hhidden, hkept⟩ := VFrame.take_gap hspan (s.stream n.val).unit (c.rxbuf < (s.stream n.val).used + k.payload.length) f
        exact ⟨hhidden, fun hfits => hkept (decide_eq_false (Nat.not_lt.mpr hfits))⟩
      · rw [StreamSt.ahead_zero hnext, decide_eq_false (Nat.lt_irrefl 0), decide_eq_true hfull]
        exact VFrame.take_full hspan hfirst f
      · rw [StreamSt.ahead_zero hnext, decide_eq_false (Nat.lt_irrefl 0)]
        exact VFrame.take_error hspan _ _ f
  case frames =>
    rintro s n c f0 f r hruns hcfg hframes hskip
    have hrest : (s.stream n.val).frames.drop 1 = r := by rw [hframes]; rfl
    refine ⟨fun hnext hfree hwhole hbudget => ?decodes, fun _ hwaits => exec_precinctDecode_waits hcfg hframes (hskip ▸ hwaits),
      fun at' hstarted hpassed hnext => ?expires, fun at' => exec_decodeBudgetExpiry_waits hcfg hframes hruns, fun hnext hfree g im hstart him => ?completes⟩
    case decodes =>
      have hexec := exec_precinctDecode hcfg hframes hruns (hskip ▸ hnext) hfree (hskip ▸ hwhole) (hskip ▸ hbudget)
      rw [← hskip] at hexec
      refine ⟨fun hstart => ?_, fun g hstart => ⟨fun hdecl => ?_, fun hdecl b hb =>
        ⟨fun hover => ?_, fun hin => ⟨fun herror => ?_, fun xs hspots => ?_⟩⟩⟩⟩
      · rw [State.decodeNext_stale hstart] at hexec
        obtain ⟨hleft, hcount, hpsets⟩ := s.dropStale_spec n.val
        exact ⟨_, hexec, hleft.trans hrest, hcount, hpsets⟩
      · obtain ⟨hunsupported, hleft, hdone, hcount⟩ := State.decodeNext_unsupported hstart hdecl
        exact ⟨_, hexec, hunsupported, hleft.trans hrest, hdone, hcount⟩
      · rw [State.decodeNext_outlasts hstart hdecl hb hover] at hexec
        obtain ⟨hleft, hbusy, honly⟩ := s.setFrame_stream n.val g b
        exact ⟨_, hexec, hrest ▸ hleft, hbusy, honly⟩
      · rw [State.decodeNext_syntaxError hstart hdecl hb hin herror] at hexec
        obtain ⟨hleft, hbusy, honly⟩ := s.setFrame_stream n.val (g.spoiled f.next) b
        obtain ⟨hsame, hdamage⟩ := State.startDecode_spec hstart
        refine ⟨_, g.spoiled f.next, hexec, hrest ▸ hleft, rfl, ?_, hbusy, honly⟩
        exact VFrame.damageRange_inside (Nat.le_refl _) (Nat.lt_succ_self _) hsame.le (hdamage ▸ VFrame.skip_next_undamaged hskip hnext)
      · rw [State.decodeNext_spots hstart hdecl hb hin hspots] at hexec
        have hread := s.compareUnit_readsRef c g xs
        obtain ⟨hleft, hbusy, -⟩ := (s.compareUnit c g xs).2.setFrame_stream n.val ((s.compareUnit c g xs).1.decoded c xs f.next) b
        refine ⟨_, (s.compareUnit c g xs).1.decoded c xs f.next, hexec, ?_, rfl,
          hread.same.damage.trans (State.startDecode_spec hstart).2, hbusy, hread.frame.mem, hread.frame.regs, hread.frame.jobs⟩
        rw [hleft, State.stream_congr hread.ingest, hrest]
    case expires =>
      have hframe := s.abandon_inIngest n.val c f0 4
      obtain ⟨hleft, hdone, -, hcount⟩ := s.abandon_marks n.val c f0 4
      exact ⟨_, exec_decodeBudgetExpiry hcfg hframes hruns hstarted hpassed (hskip ▸ hnext), hleft.trans hrest, hdone, hcount, hframe.mem, hframe.jobs,
        hframe.regs⟩
    case completes =>
      have hframe := s.completeFrame_inIngest n.val c g
      obtain ⟨hleft, hdone, hnoRef, hconceal, -⟩ := s.completeFrame_marks n.val c g
      refine ⟨_, exec_videoFrameComplete hcfg hframes hruns (hskip ▸ hnext) hfree (hskip ▸ hstart), hleft.trans hrest, hdone, hnoRef, hconceal,
        fun x hx => (s.completeFrame_psets n.val c g him x hx).imp_right ?_, hframe.mem, hframe.regs, hframe.jobs, hframe.queues⟩
      rintro ⟨b, hb, htrigger, hfiring, hbinding, hdeadline⟩
      exact ⟨hfiring, b.2, hbinding ▸ hb, htrigger, hdeadline⟩

end Sys2Proof.Machine
end

section
/-!
PROOF. A read of LEDGER_RD_DATA where no ledger device was found (R551): it gives 0, though an erased device's words are all ones.
-/

namespace Sys2Proof.Machine

/-- The machine started, without a ledger device: LEDGER_STATUS.STATE is ABSENT (R551). -/
def noLedger : State := { State.reset with power := { booted := true }, ready := 0xF01FF, ledger := { present := false } }

theorem noLedger_readOk : noLedger.ReadOk .ledgerRdData .spi := ⟨rfl, rfl, rfl⟩

/-- The read gives 0, where a blank device would give all ones at LEDGER_RD_ADDR. -/
theorem noLedger_reads :
    (noLedger.readBy .spi .ledgerRdData).svc.value = 0 ∧ word (flashNat noLedger.ledger.flash (noLedger.rw .ledgerRdAddr).toNat 4) = 0xFFFFFFFF := by
  decide +kernel

/-- Refutes O29: the word at LEDGER_RD_ADDR is what LEDGER_RD_DATA gives only where there is a ledger device. Where none was found (R551) the service
SPI is given 0. -/
theorem not_readsThatLatch : ¬ Obligations.ReadsThatLatch := by
  intro h
  obtain ⟨-, -, hledger⟩ := h noLedger .spi 0
  obtain ⟨t, hexec, -, -, hvalue, -⟩ := hledger noLedger_readOk rfl
  have hread : noLedger.readBy .spi .ledgerRdData = t := Host.Outcome.next.inj hexec
  obtain ⟨hgiven, hblank⟩ := noLedger_reads
  have hzero : (0 : Word) = 0xFFFFFFFF := by
    calc (0 : Word) = t.svc.value := by rw [← hread, hgiven]
      _ = word (flashNat noLedger.ledger.flash (noLedger.rw .ledgerRdAddr).toNat 4) := congrArg SvcResp.value (hvalue rfl)
      _ = 0xFFFFFFFF := hblank
  exact absurd hzero (by decide)

end Sys2Proof.Machine
end

section
/-!
PROOF. Writes of GLB_MODE (R423), log clears (R503) and writes of VU_CTRL (R119): what each register's write changes, between what its message's
checks and its answer send.
-/

namespace Sys2Proof.Machine

/-! ### What sending leaves alone -/

/-- Sending commutes with a change of what sending leaves alone, where the change also gives both states the same pans. -/
theorem State.Sends.mapAll {s t : State} (h : s.Sends t) (g : State → State)
    (hrest : ∀ x : State, g { s with hportA := x.hportA, hportB := x.hportB, bports := x.bports, comps := x.comps, counts := x.counts, pans := x.pans,
                                           sets := x.sets }
      = { g s with hportA := (g x).hportA, hportB := (g x).hportB, bports := (g x).bports, comps := (g x).comps, counts := (g x).counts,
                   pans := (g x).pans,
                   sets := (g x).sets } := by intro; rfl)
    (hpans : (g t).pans = (g s).pans := by rfl) : (g s).Sends (g t) where
  rest := (congrArg g h.rest).trans (hrest t)
  pans p := by
    have hpan : (g t).pan p = (g s).pan p := congrArg (fun m : SMap Pan => m.getD p {}) hpans
    rw [hpan]

theorem State.Sends.strict {s u : State} (h : s.Sends u) : u.strict = s.strict := h.withinStep.strict

theorem State.Sends.ctx {s u : State} (h : s.Sends u) (p c : Nat) : u.ctx p c = s.ctx p c := h.told.ctx p c

theorem State.Sends.panCfg {s u : State} (h : s.Sends u) (p : Nat) : u.panCfg p = s.panCfg p := by rw [State.panCfg, h.sec, State.panCfg]

theorem State.Sends.ctxCat {s u : State} (h : s.Sends u) (p c : Nat) : u.ctxCat p c = s.ctxCat p c := by
  simp only [State.ctxCat, State.degradedEntry, State.catEntry, h.panCfg, h.ctx]

theorem State.Sends.panPaused {s u : State} (h : s.Sends u) (p : Nat) : u.panPaused p = s.panPaused p := by
  simp only [State.panPaused, h.paused, h.ctx]

/-- What blocks a change of STRICT is the same. -/
theorem State.Sends.strictBlock {s u : State} (h : s.Sends u) (b : Bool) : u.strictBlock b = s.strictBlock b := by
  simp only [State.strictBlock, h.ctx, h.ctxCat, h.panCfg, h.panPaused]

theorem State.Sends.log {s u : State} (h : s.Sends u) (l : LogId) : u.log l = s.log l := congrArg (fun m : SMap ErrLog => m.getD (logKey l) {}) h.logs

theorem State.Sends.core {s u : State} (h : s.Sends u) (n : Nat) : u.core n = s.core n := h.told.core n

/-! ### GLB_MODE (R423) -/

theorem Reg.ofAddr_glbMode : Reg.ofAddr (Reg.addr .glbMode) = some .glbMode := by decide +kernel

/-- The mode taken, with slice entries that begin anew. -/
def State.modeTaken (s : State) (on : Bool) : State :=
  { s.setRw .glbMode (word (bitAt 0 on)) with pans := s.pans.map (fun x : Nat × Pan => (x.1, { x.2 with entryOn := false })) }

theorem State.writeMode_same {s : State} {v : Word} (h : v.getLsbD 0 = s.strict) : s.writeMode v = s.wrote := if_pos h

/-- A change that is blocked answers STRICT_FORBIDDEN and sends a MODE EVENT. -/
theorem State.writeMode_blocked {s : State} {v : Word} (h : v.getLsbD 0 ≠ s.strict) {cause p c : Nat}
    (hb : s.strictBlock (v.getLsbD 0) = some (cause, p, c)) :
    s.writeMode v = { note := .strictForbidden, state := s.event 4 (p * 65536 + c) (beBytes 4 cause) } := by
  unfold State.writeMode
  dsimp only
  rw [if_neg h, hb]

theorem State.writeMode_taken {s : State} {v : Word} (h : v.getLsbD 0 ≠ s.strict) (hb : s.strictBlock (v.getLsbD 0) = none) :
    s.writeMode v = (s.modeTaken (v.getLsbD 0)).wrote := by
  unfold State.writeMode
  dsimp only
  rw [if_neg h, hb]
  rfl

/-- A write that changes no mode only sends. -/
theorem State.writeMode_keeps_mode {s : State} {v : Word} (h : v.getLsbD 0 = s.strict ∨ s.strictBlock (v.getLsbD 0) ≠ none) :
    (s.writeMode v).refused = none ∧ s.Sends (s.writeMode v).state := by
  by_cases hsame : v.getLsbD 0 = s.strict
  · rw [State.writeMode_same hsame]
    exact ⟨rfl, .refl s⟩
  · obtain ⟨⟨cause, p, c⟩, hb⟩ := Option.ne_none_iff_exists'.mp (h.resolve_left hsame)
    rw [State.writeMode_blocked hsame hb]
    exact ⟨rfl, State.event_sends _ _ _ (.refl s)⟩

theorem State.modeTaken_strict (s : State) (b : Bool) : (s.modeTaken b).strict = b := by
  have hrw : (s.modeTaken b).rw .glbMode = word (bitAt 0 b) := SMap.getD_put_self _ _ _ _
  rw [State.strict, State.rwField, hrw]
  cases b <;> decide

theorem State.modeTaken_rw_ne (s : State) (b : Bool) {r : Reg} (h : r.addr ≠ Reg.glbMode.addr) : (s.modeTaken b).rw r = s.rw r :=
  s.setRw_rw_ne _ h

theorem State.modeTaken_entryOn (s : State) (b : Bool) (p : Nat) : ((s.modeTaken b).pan p).entryOn = false := by
  have hpan : (s.modeTaken b).pan p = { s.pan p with entryOn := false } := SMap.getD_map s.pans (fun x : Pan => { x with entryOn := false }) p {}
  rw [hpan]

theorem exec_glbModeWrite_keeps {s : State} {src : RegSrc} {v : Word} (ok : s.WriteOk .glbMode v src)
    (h : v.getLsbD 0 = s.strict ∨ s.strictBlock (v.getLsbD 0) ≠ none) : s.Answers (s.writeBy src .glbMode v) := by
  obtain ⟨u, hu, -, hans⟩ := State.writeBy_ok ok Reg.ofAddr_glbMode rfl
  rw [← hu.strict, ← hu.strictBlock] at h
  obtain ⟨hrefused, hsent⟩ := State.writeMode_keeps_mode h
  exact (hu.trans hsent).answers.trans (hans hrefused)

theorem exec_glbModeWrite_takes {s : State} {src : RegSrc} {v : Word} (ok : s.WriteOk .glbMode v src) (h : v.getLsbD 0 ≠ s.strict)
    (hb : s.strictBlock (v.getLsbD 0) = none) :
    ∃ u, s.Sends u ∧ (u.modeTaken (v.getLsbD 0)).Answers (s.writeBy src .glbMode v) := by
  obtain ⟨u, hu, -, hans⟩ := State.writeBy_ok ok Reg.ofAddr_glbMode rfl
  have hwrite : u.writeReg src .glbMode v = (u.modeTaken (v.getLsbD 0)).wrote :=
    State.writeMode_taken (hu.strict ▸ h) (hu.strictBlock _ ▸ hb)
  rw [hwrite] at hans
  exact ⟨u, hu, hans rfl⟩

/-! ### LOG_n clears (R503) -/

theorem State.clearLog_log (s : State) (l : LogId) :
    (s.clearLog l).log l = { buf := ((s.log l).buf ++ (if (s.log l).lateAt = s.nclk then (s.log l).late else [])).take 4 } := SMap.getD_put_self _ _ _ _

theorem State.clearLog_log_ne (s : State) {l l' : LogId} (h : logKey l' ≠ logKey l) : (s.clearLog l).log l' = s.log l' := SMap.getD_put_ne _ _ _ h

theorem exec_logClear {s : State} {src : RegSrc} {l : LogId} (ok : s.WriteOk (.logStatus l) 0x80000000 src) :
    ∃ u, s.Sends u ∧ (u.clearLog l).Answers (s.writeBy src (.logStatus l) 0x80000000) := by
  obtain ⟨u, hu, -, hans⟩ := State.writeBy_ok ok (Reg.ofAddr_logStatus l) rfl
  exact ⟨u, hu, hans rfl⟩

theorem State.Answers.log {s t : State} (h : s.Answers t) (l : LogId) : t.log l = s.log l := congrArg (fun m : SMap ErrLog => m.getD (logKey l) {}) h.logs

/-! ### VU_CTRL (R119) -/

/-- The value that waits for the core's next step boundary. -/
def State.vuPends (s : State) (src : RegSrc) (n : Nat) (v : Word) : State :=
  (s.fields src (.vuCtrl n) v).2.onCore n (fun x => { x with vuPend := some (s.stored (.vuCtrl n) v) })

theorem State.OnlyRsvd.cores {s t : State} (h : s.OnlyRsvd t) : t.cores = s.cores := (congrArg State.cores (State.Sends.rest h)).trans rfl

theorem State.OnlyRsvd.core {s t : State} (h : s.OnlyRsvd t) (n : Nat) : t.core n = s.core n := congrArg (fun m : SMap Core => m.getD n {}) h.cores

theorem State.Answers.core {s t : State} (h : s.Answers t) (n : Nat) : t.core n = s.core n := congrArg (fun m : SMap Core => m.getD n {}) h.cores

theorem State.vuPends_core (s : State) (src : RegSrc) (n : Nat) (v : Word) :
    (s.vuPends src n v).core n = { s.core n with vuPend := some (s.stored (.vuCtrl n) v) } := by
  rw [State.vuPends, State.onCore_core, (s.fields_onlyRsvd src _ v).core]

theorem State.vuPends_core_ne (s : State) (src : RegSrc) {n k : Nat} (h : k ≠ n) (v : Word) : (s.vuPends src n v).core k = s.core k :=
  (SMap.getD_put_ne _ _ _ h).trans ((s.fields_onlyRsvd src _ v).core k)

theorem exec_vuCtrlWrite {s : State} {src : RegSrc} {n : Fin 32} {v : Word} (ok : s.WriteOk (.vuCtrl n.val) v src) :
    ∃ u, s.Sends u ∧ (u.vuPends src n.val v).Answers (s.writeBy src (.vuCtrl n.val) v) := by
  obtain ⟨u, hu, -, hans⟩ := State.writeBy_ok ok (Reg.ofAddr_vuCtrl n.isLt) rfl
  exact ⟨u, hu, hans rfl⟩

/-- Settles O23: each write by what its register's write does, between what the message's checks and its answer send. -/
theorem modeClearAndVuControlWrites : Obligations.ModeClearAndVuControlWrites := by
  refine ⟨fun s src v ok => ⟨_, rfl, exec_glbModeWrite_keeps ok, fun hother hfree => ?mode⟩, fun s src v n l => ⟨fun ok => ?clear, fun ok => ?vu⟩⟩
  case mode =>
    obtain ⟨u, hu, hans⟩ := exec_glbModeWrite_takes ok hother hfree
    have hrw (r : Reg) : (s.writeBy src .glbMode v).rw r = (u.modeTaken (v.getLsbD 0)).rw r := by rw [State.rw, hans.regs, State.rw]
    refine ⟨?_, fun p => ?_, fun r hne => ?_, ?_⟩
    · rw [State.strict, State.rwField, hrw]
      exact u.modeTaken_strict _
    · exact (congrArg Pan.entryOn (State.Sends.pans hans p)).trans (u.modeTaken_entryOn _ p)
    · rw [hrw, u.modeTaken_rw_ne _ hne, State.rw, hu.regs, State.rw]
    · exact (hu.mapAll fun x => { x with regs := s.regs, pans := s.pans, svc := s.svc }).trans
        (State.Sends.mapAll hans fun x => { x with regs := s.regs, pans := s.pans, svc := s.svc })
  case clear =>
    obtain ⟨u, hu, hans⟩ := exec_logClear ok
    refine ⟨_, rfl, ?_, fun l' hne => ?_, ?_⟩
    · rw [hans.log, u.clearLog_log, hu.log, hu.nclk]
    · rw [hans.log, u.clearLog_log_ne hne, hu.log]
    · exact (hu.map fun x => { x with logs := s.logs, svc := s.svc }).trans (State.Sends.map hans fun x => { x with logs := s.logs, svc := s.svc })
  case vu =>
    obtain ⟨u, hu, hans⟩ := exec_vuCtrlWrite ok
    refine ⟨_, rfl, ?_, fun k hne => ?_, ?_⟩
    · rw [hans.core, u.vuPends_core, hu.core, State.stored, hu.cur, State.stored]
    · rw [hans.core, u.vuPends_core_ne src hne, hu.core]
    · have hrsvd := u.fields_onlyRsvd src (.vuCtrl n.val) v
      exact ((hu.answers.onlyRsvd.trans hrsvd).map fun x => { x with cores := s.cores }).trans
        (State.Sends.map hans fun x => { x with
          cores := s.cores, rsvdWrite := s.rsvdWrite, rsvdSrc := s.rsvdSrc, rsvdAddr := s.rsvdAddr, svc := s.svc })

end Sys2Proof.Machine
end

section
/-!
PROOF. Sluices (R414, R415): what a bucket may hold, and the transfer that waits longest for its tokens. The TAP (R585).
-/

namespace Sys2Proof.Machine

/-! ### The level of a bucket -/

theorem State.level_le_depth (s : State) (p : Nat) (b : Bucket) : s.level p b ≤ (s.bucketCfg p b).depth * 1024 * 1000 := by
  unfold State.level
  dsimp only
  split
  · exact Nat.le_refl _
  · exact Nat.min_le_left _ _

theorem State.level_le_earned {s : State} {p : Nat} {b : Bucket} {l at' : Nat} (h : SMap.get (s.pan p).levels (bucketIx b) = some (l, at')) :
    s.level p b ≤ l + (s.bucketCfg p b).rate * (s.nclk - at') * 20 / 11 := by
  unfold State.level
  rw [h]
  exact Nat.min_le_right _ _

/-! ### SLUICE_TOKEN_GRANT -/

/-- The pan after the transfer of `n` bytes that waits longest for a bucket has taken its tokens. -/
def State.tokensTaken (s : State) (p : Nat) (b : Bucket) (n : Nat) : State :=
  s.onPan p (fun x => { x with levels := x.levels.put (bucketIx b) (s.level p b - n * 1000, s.nclk), waitingTok := dropFirst (bucketIx b) x.waitingTok })

/-- Only HOST transfers wait in two ways. -/
theorem waitsFor_of_ne_host {b : Bucket} (h : b ≠ .host) : waitsFor b = fun w => decide (w.1 = bucketIx b) := by
  funext w
  simp [waitsFor, h]

theorem bucketIx_ne_four (b : Bucket) : bucketIx b ≠ 4 := by cases b <;> decide

theorem State.grant_taken {s : State} {p : Nat} {b : Bucket} {w : Nat × Nat}
    (hw : (s.pan p).waitingTok.find? (fun w => w.1 = bucketIx b) = some w) (hl : w.2 * 1000 ≤ s.level p b) :
    (s.grant p b).1 = s.tokensTaken p b w.2 := by
  unfold State.grant
  rw [hw]
  dsimp only
  rw [if_pos hl]
  rfl

theorem State.tokensTaken_sends (s : State) (p : Nat) (b : Bucket) (n : Nat) : s.Sends (s.tokensTaken p b n) :=
  State.onPan_sends p _ (fun _ => rfl) (.refl s)

theorem State.grant_sends (s : State) (p : Nat) (b : Bucket) : s.Sends (s.grant p b).1 := by
  unfold State.grant
  split
  · exact .refl s
  · dsimp only
    split
    · exact s.tokensTaken_sends p b _
    · exact .refl s

theorem State.releaseOn_sends (p : Port) {s0 s : State} (h0 : s0.Sends s) : s0.Sends (s.releaseOn p) :=
  sends_foldl _ _ _ (fun _ _ h => State.giveFrame_sends _ _ h) (State.onHport_sends _ _ h0)

theorem State.releasePaced_sends {s0 s : State} (h0 : s0.Sends s) : s0.Sends s.releasePaced := State.releaseOn_sends _ (State.releaseOn_sends _ h0)

theorem exec_sluiceTokenGrant {s : State} {p : Fin 16} {b : Bucket} {w : Nat × Nat} (hr : s.inReset = false)
    (hw : (s.pan p.val).waitingTok.find? (waitsFor b) = some w) :
    exec (.sluiceTokenGrant p b) s = .next (
      if s.level p.val b < w.2 * 1000 then s
      else if w.1 = 4 then (s.onPan p.val (fun x => { x with waitingTok := dropFirst 4 x.waitingTok })).flushComps
      else if b = .host then (s.grant p.val b).1.releasePaced.flushComps
      else (s.grant p.val b).1) := by
  change execSluiceTokenGrant p b s = _
  unfold execSluiceTokenGrant
  rw [hw]
  dsimp only
  rw [hr, Bool.false_or]
  simp only [decide_eq_true_eq]

theorem exec_sluiceTokenGrant_short {s : State} {p : Fin 16} {b : Bucket} {w : Nat × Nat} (hr : s.inReset = false)
    (hw : (s.pan p.val).waitingTok.find? (waitsFor b) = some w) (hl : s.level p.val b < w.2 * 1000) : exec (.sluiceTokenGrant p b) s = .next s := by
  rw [exec_sluiceTokenGrant hr hw, if_pos hl]

theorem exec_sluiceTokenGrant_taken {s : State} {p : Fin 16} {b : Bucket} {w : Nat × Nat} (hr : s.inReset = false)
    (hw : (s.pan p.val).waitingTok.find? (waitsFor b) = some w) (hl : w.2 * 1000 ≤ s.level p.val b) (hb : b ≠ .host) :
    exec (.sluiceTokenGrant p b) s = .next (s.tokensTaken p.val b w.2) := by
  rw [waitsFor_of_ne_host hb] at hw
  have hix : w.1 = bucketIx b := of_decide_eq_true (List.find?_some (p := fun w : Nat × Nat => decide (w.1 = bucketIx b)) hw)
  rw [exec_sluiceTokenGrant hr (waitsFor_of_ne_host hb ▸ hw), if_neg (Nat.not_lt.mpr hl), if_neg (hix ▸ bucketIx_ne_four b), if_neg hb,
    State.grant_taken hw hl]

/-- A grant of HOST tokens sends the frames and the completions that have got theirs. -/
theorem exec_sluiceTokenGrant_host {s : State} {p : Fin 16} {w : Nat × Nat} (hr : s.inReset = false)
    (hw : (s.pan p.val).waitingTok.find? (waitsFor .host) = some w) (hl : w.2 * 1000 ≤ s.level p.val .host) :
    ∃ t, exec (.sluiceTokenGrant p .host) s = .next t ∧ s.Sends t := by
  refine ⟨_, exec_sluiceTokenGrant hr hw, ?_⟩
  rw [if_neg (Nat.not_lt.mpr hl)]
  split
  · exact State.flushComps_sends (State.onPan_sends _ _ (fun _ => rfl) (.refl s))
  · rw [if_pos rfl]
    exact State.flushComps_sends (State.releasePaced_sends (s.grant_sends _ _))

theorem exec_sluiceTokenGrant_spec (s : State) (p : Fin 16) (b : Bucket) (w : Nat × Nat) (hr : s.inReset = false)
    (hw : (s.pan p.val).waitingTok.find? (waitsFor b) = some w) (hl : w.2 * 1000 ≤ s.level p.val b) :
    ∃ t, exec (.sluiceTokenGrant p b) s = .next t
      ∧ (b ≠ .host → t.pan p.val = { s.pan p.val with
            levels := (s.pan p.val).levels.put (bucketIx b) (s.level p.val b - w.2 * 1000, s.nclk),
            waitingTok := dropFirst (bucketIx b) (s.pan p.val).waitingTok }
          ∧ (∀ q, q ≠ p.val → t.pan q = s.pan q) ∧ t = { s with pans := t.pans })
      ∧ (b = .host → s.Sends t) := by
  by_cases hb : b = .host
  · subst hb
    obtain ⟨t, hexec, hsent⟩ := exec_sluiceTokenGrant_host hr hw hl
    exact ⟨t, hexec, fun h => absurd rfl h, fun _ => hsent⟩
  · exact ⟨_, exec_sluiceTokenGrant_taken hr hw hl hb,
      fun _ => ⟨s.onPan_pan _ _, fun q hq => s.onPan_pan_ne _ _ _ hq, rfl⟩, fun h => absurd h hb⟩

/-! ### The TAP -/

theorem exec_bypass (s : State) : exec .bypass s = .next { s with tap := { instr := .bypass, dr := 0, control := s.tap.control } } := by
  change Host.Outcome.next (s.tapLoad .bypass 0 false) = _
  rw [State.tapLoad, Bool.or_false]

theorem exec_idcode (s : State) : exec .idcode s = .next { s with tap := { instr := .idcode, dr := 0x10C324C7, control := s.tap.control } } := by
  change Host.Outcome.next (s.tapLoad .idcode 0x10C324C7 false) = _
  rw [State.tapLoad, Bool.or_false]

end Sys2Proof.Machine
end

section
/-!
PROOF. Reports (R498-R503): all of them change the logs and else only send. What LOG_RECORD leaves of the logs.
-/

namespace Sys2Proof.Machine

/-! ### Reports -/

/-- Nothing changed but the logs, and what is sent. -/
def State.OnlyReported (s t : State) : Prop := s.Sends { t with logs := s.logs }

namespace State.OnlyReported

variable {s t u : State}

theorem refl (s : State) : s.OnlyReported s := State.Sends.refl s

theorem trans (h : s.OnlyReported t) (h' : t.OnlyReported u) : s.OnlyReported u :=
  State.Sends.trans h (State.Sends.map h' fun x => { x with logs := s.logs })

theorem of_sends (h : s.Sends t) : s.OnlyReported t := State.Sends.map h fun x => { x with logs := s.logs }

theorem withLogs (s : State) (l : SMap ErrLog) : s.OnlyReported { s with logs := l } := State.Sends.refl s

theorem poison (h : s.OnlyReported t) : t.poison = s.poison := (congrArg State.poison (State.Sends.rest h)).trans rfl
theorem mem (h : s.OnlyReported t) : t.mem = s.mem := (congrArg State.mem (State.Sends.rest h)).trans rfl
theorem regs (h : s.OnlyReported t) : t.regs = s.regs := (congrArg State.regs (State.Sends.rest h)).trans rfl
theorem cores (h : s.OnlyReported t) : t.cores = s.cores := (congrArg State.cores (State.Sends.rest h)).trans rfl
theorem regions (h : s.OnlyReported t) : t.regions = s.regions := (congrArg State.regions (State.Sends.rest h)).trans rfl
theorem attrib (h : s.OnlyReported t) : t.attrib = s.attrib := (congrArg State.attrib (State.Sends.rest h)).trans rfl
theorem corrected (h : s.OnlyReported t) : t.corrected = s.corrected := (congrArg State.corrected (State.Sends.rest h)).trans rfl
theorem nclk (h : s.OnlyReported t) : t.nclk = s.nclk := (congrArg State.nclk (State.Sends.rest h)).trans rfl

theorem region (h : s.OnlyReported t) (r : Nat) : t.region r = s.region r := by rw [State.region, h.regions, State.region]

end State.OnlyReported

theorem State.report_onlyReported (s : State) (l : LogId) (cls : EClass) (source unit info detail : Nat) :
    s.OnlyReported (s.report l cls source unit info detail) := s.report_sends l cls source unit info detail

theorem State.coreReport_onlyReported (s : State) (n : Nat) (cls : EClass) (source unit info detail : Nat) :
    s.OnlyReported (s.coreReport n cls source unit info detail) := by
  unfold State.coreReport
  split
  · exact s.report_onlyReported _ _ _ _ _ _
  · exact .refl s

theorem State.regionReport_onlyReported (s : State) (r : Nat) (cls : EClass) (source unit info detail : Nat) :
    s.OnlyReported (s.regionReport r cls source unit info detail) := by
  unfold State.regionReport
  split
  · exact s.report_onlyReported _ _ _ _ _ _
  · exact .refl s

/-! ### Losses (R501) -/

/-- A log with one more report lost. -/
def ErrLog.losing (g : ErrLog) (r : Report) : ErrLog :=
  { g with lost := g.lost.inc (2 ^ 16 - 1), classes := g.classes ||| ((1 : BitVec 4) <<< (fieldOf r.w2 31 30)),
           first := if g.lost.n = 0 then r.time else g.first, last := r.time }

/-- A report lost is counted by the bittern record of its log; the rest is the EVENTs of the loss. -/
theorem State.lose_logs (s : State) (l : LogId) (r : Report) : (s.lose l r).logs = s.logs.put (logKey l) ((s.log l).losing r) := by
  have events : ({ s with logs := s.logs.put (logKey l) ((s.log l).losing r) } : State).Sends (s.lose l r) := by
    have noted {t : State} (h : ({ s with logs := s.logs.put (logKey l) ((s.log l).losing r) } : State).Sends t) (b : Prop) [Decidable b]
        (kind subject : Nat) (body : List Byte) :
        ({ s with logs := s.logs.put (logKey l) ((s.log l).losing r) } : State).Sends (if b then t.event kind subject body else t) := by
      split
      · exact State.event_sends _ _ _ h
      · exact h
    unfold State.lose
    exact noted (noted (State.note_sends _ _ (.refl _)) _ _ _ _) _ _ _ _
  exact events.logs

/-! ### The ERROR EVENT of a report that is lost (R502) -/

/-- A report's copy that waits for the chip log told to send the ERROR EVENT of both. -/
def ErrLog.passEvent (g : ErrLog) (r : Report) : ErrLog := { g with buf := g.buf.map (fun c => if c.copyOf r then { c with event := true } else c) }

theorem map_ite_of_any_eq_false {α : Type} {p : α → Bool} {l : List α} (h : l.any p = false) (f : α → α) : l.map (fun x => if p x then f x else x) = l := by
  refine (List.map_congr_left fun x hx => ?_).trans l.map_id
  have hp : p x = false := Bool.eq_false_of_not_eq_true fun hp => Bool.false_ne_true (h.symm.trans (List.any_eq_true.mpr ⟨x, hx, hp⟩))
  rw [hp]
  rfl

theorem State.eventByCopy_onlyReported (s : State) (r : Report) : s.OnlyReported (s.eventByCopy r) := by
  unfold State.eventByCopy
  dsimp only
  split
  · exact .withLogs s _
  · split
    · exact .of_sends (State.event_sends _ _ _ (.refl s))
    · exact .refl s

theorem State.eventByCopy_log_ne (s : State) (r : Report) {l : LogId} (h : logKey l ≠ logKey .chip) : (s.eventByCopy r).log l = s.log l := by
  unfold State.eventByCopy
  dsimp only
  split
  · exact SMap.getD_put_ne _ _ _ h
  · split
    · exact (State.event_sends _ _ _ (.refl s)).log l
    · rfl

theorem State.eventByCopy_chip (s : State) (r : Report) : (s.eventByCopy r).log .chip = (s.log .chip).passEvent r := by
  unfold State.eventByCopy
  dsimp only
  split
  · exact SMap.getD_put_self _ _ _ _
  next hnone =>
    have hsame : (s.log .chip).passEvent r = s.log .chip := by
      rw [ErrLog.passEvent, map_ite_of_any_eq_false (Bool.eq_false_of_not_eq_true hnone)]
    rw [hsame]
    split
    · exact (State.event_sends _ _ _ (.refl s)).log .chip
    · rfl

/-! ### LOG_RECORD (R500-R502) -/

theorem logKey_eq_chip {l : LogId} : logKey l = logKey .chip ↔ l = .chip := by
  refine ⟨fun h => ?_, congrArg logKey⟩
  cases l with
  | chip => rfl
  | core n => exact absurd h (by simp only [logKey]; omega)
  | region n => exact absurd h (by simp only [logKey]; omega)

/-- A full log that has lost the report at the front of its buffer. -/
def ErrLog.overrun (g : ErrLog) (now : Nat) (r : Report) (rest : List Report) : ErrLog := (({ g with buf := rest } : ErrLog).missed now r).losing r

/-- The report at the front of a log's buffer recorded. -/
def State.recorded (s : State) (l : LogId) (r : Report) (rest : List Report) : State :=
  { s with logs := s.logs.put (logKey l) { s.log l with buf := rest, entries := (s.log l).entries ++ [r] } }

/-- The report at the front of a full log's buffer lost. -/
def State.overrun (s : State) (l : LogId) (r : Report) (rest : List Report) : State :=
  ({ s with logs := s.logs.put (logKey l) (({ s.log l with buf := rest } : ErrLog).missed s.nclk r) }).lose l r

section
variable {s : State} {l : LogId} {r : Report} {rest : List Report} (hr : s.inReset = false) (hbuf : (s.log l).buf = r :: rest)
include hr hbuf

theorem exec_logRecord_room (h : (s.log l).entries.length < logCap l) :
    exec (.logRecord l) s = .next (if r.event then (s.recorded l r rest).errorEvent l (s.log l).entries.length r else s.recorded l r rest) := by
  change execLogRecord l s = _
  unfold execLogRecord
  dsimp only
  rw [hbuf, hr]
  dsimp only
  rw [if_neg Bool.false_ne_true, if_neg (Nat.not_le.mpr h)]
  rfl

theorem exec_logRecord_full (h : logCap l ≤ (s.log l).entries.length) :
    exec (.logRecord l) s = .next (if r.event && l ≠ .chip then (s.overrun l r rest).eventByCopy r else s.overrun l r rest) := by
  change execLogRecord l s = _
  unfold execLogRecord
  dsimp only
  rw [hbuf, hr]
  dsimp only
  rw [if_neg Bool.false_ne_true, if_pos h]
  rfl

end

theorem State.recorded_log (s : State) (l : LogId) (r : Report) (rest : List Report) :
    (s.recorded l r rest).log l = { s.log l with buf := rest, entries := (s.log l).entries ++ [r] } := SMap.getD_put_self _ _ _ _

theorem State.recorded_log_ne (s : State) {l l' : LogId} (r : Report) (rest : List Report) (h : logKey l' ≠ logKey l) :
    (s.recorded l r rest).log l' = s.log l' := SMap.getD_put_ne _ _ _ h

theorem State.overrun_log (s : State) (l : LogId) (r : Report) (rest : List Report) :
    (s.overrun l r rest).log l = (s.log l).overrun s.nclk r rest := by
  rw [State.overrun, State.log, State.lose_logs, SMap.getD_put_self, State.log, SMap.getD_put_self, ErrLog.overrun]

theorem State.overrun_log_ne (s : State) {l l' : LogId} (r : Report) (rest : List Report) (h : logKey l' ≠ logKey l) :
    (s.overrun l r rest).log l' = s.log l' := by
  rw [State.overrun, State.log, State.lose_logs, SMap.getD_put_ne _ _ _ h, SMap.getD_put_ne _ _ _ h, State.log]

theorem State.overrun_onlyReported (s : State) (l : LogId) (r : Report) (rest : List Report) : s.OnlyReported (s.overrun l r rest) :=
  (State.OnlyReported.withLogs s _).trans (State.lose_sends _ l r)

section
variable {s : State} {l : LogId} {r : Report} {rest : List Report} (hr : s.inReset = false) (hbuf : (s.log l).buf = r :: rest)
include hr hbuf

/-- Where an entry is free, the report is recorded behind the others. -/
theorem exec_logRecord_records (h : (s.log l).entries.length < logCap l) : ∃ t, exec (.logRecord l) s = .next t
    ∧ t.log l = { s.log l with buf := rest, entries := (s.log l).entries ++ [r] } ∧ (∀ l', logKey l' ≠ logKey l → t.log l' = s.log l')
    ∧ s.OnlyReported t := by
  refine ⟨_, exec_logRecord_room hr hbuf h, ?_⟩
  have hsent : (s.recorded l r rest).Sends
      (if r.event then (s.recorded l r rest).errorEvent l (s.log l).entries.length r else s.recorded l r rest) := by
    split
    · exact State.event_sends _ _ _ (.refl _)
    · exact .refl _
  exact ⟨(hsent.log l).trans (s.recorded_log l r rest), fun l' hne => (hsent.log l').trans (s.recorded_log_ne r rest hne),
    (State.OnlyReported.withLogs s _).trans (.of_sends hsent)⟩

/-- Where none is free, the report is lost; its ERROR EVENT passes to its copy in the chip log. -/
theorem exec_logRecord_loses (h : logCap l ≤ (s.log l).entries.length) : ∃ t, exec (.logRecord l) s = .next t
    ∧ t.log l = (s.log l).overrun s.nclk r rest
    ∧ (∀ l', logKey l' ≠ logKey l → logKey l' ≠ logKey .chip → t.log l' = s.log l')
    ∧ (logKey l ≠ logKey .chip → t.log .chip = if r.event then (s.log .chip).passEvent r else s.log .chip)
    ∧ s.OnlyReported t := by
  refine ⟨_, exec_logRecord_full hr hbuf h, ?_⟩
  have hframe := s.overrun_onlyReported l r rest
  have hlog := s.overrun_log l r rest
  have hothers (l' : LogId) (hne : logKey l' ≠ logKey l) := s.overrun_log_ne r rest hne
  by_cases hchip : logKey l = logKey .chip
  · rw [decide_eq_false (not_not.mpr (logKey_eq_chip.mp hchip)), Bool.and_false, if_neg Bool.false_ne_true]
    exact ⟨hlog, fun l' hne _ => hothers l' hne, fun h => absurd hchip h, hframe⟩
  · rw [decide_eq_true (p := l ≠ .chip) fun hl => hchip (logKey_eq_chip.mpr hl), Bool.and_true]
    split
    · exact ⟨(State.eventByCopy_log_ne _ r hchip).trans hlog, fun l' hne hne' => (State.eventByCopy_log_ne _ r hne').trans (hothers l' hne),
        fun _ => (State.eventByCopy_chip _ r).trans (congrArg (·.passEvent r) (hothers .chip (Ne.symm hchip))),
        hframe.trans (State.eventByCopy_onlyReported _ r)⟩
    · exact ⟨hlog, fun l' hne _ => hothers l' hne, fun _ => hothers .chip (Ne.symm hchip), hframe⟩

end

end Sys2Proof.Machine
end

section
/-!
PROOF. The harrow (R158-R162): findings in the scratchpads and region memory, and in the chip's own memories.
-/

namespace Sys2Proof.Machine

/-! ### Reads that a report may serve -/

theorem State.Serves.refl (s : State) : s.Serves s := ⟨rfl, fun _ => rfl, fun _ _ => rfl, fun _ => rfl⟩

theorem State.Serves.logs {s t : State} (h : s.Serves t) : t.logs = s.logs := (congrArg State.logs h.rest).trans rfl
theorem State.Serves.attrib {s t : State} (h : s.Serves t) : t.attrib = s.attrib := (congrArg State.attrib h.rest).trans rfl
theorem State.Serves.corrected {s t : State} (h : s.Serves t) : t.corrected = s.corrected := (congrArg State.corrected h.rest).trans rfl
theorem State.Serves.nclk {s t : State} (h : s.Serves t) : t.nclk = s.nclk := (congrArg State.nclk h.rest).trans rfl

/-- Sending after what served reads. -/
theorem State.Serves.sends {s t u : State} (h : s.Serves t) (h' : t.Sends u) : s.Serves u where
  rest := by
    conv_lhs => rw [h'.rest]
    conv_lhs => rw [h.rest]
    rw [h'.heldReads, h'.waits, h'.free, h'.regs, h'.regions, h'.tide]
  pans p := by
    conv_lhs => rw [h'.pans p]
    conv_lhs => rw [h.pans p]
  regs r hr := (congrArg (fun m : SMap Word => m.getD r.addr r.resetWord) h'.regs).trans (h.regs r hr)
  regions r := by
    have hregion : u.region r = t.region r := congrArg (fun m : SMap RegionSt => m.getD r {}) h'.regions
    rw [hregion]
    exact h.regions r

/-- How far the copy of a bank has come is all that changes with it, but for the free value that it takes. -/
theorem State.bankPtr_serves (s : State) (r k : Nat) (g : RegionSt → Nat) :
    s.Serves (({ s with free := k } : State).onRegion r (fun x => { x with bankPtr := g x })) := by
  refine ⟨rfl, fun _ => rfl, fun _ _ => rfl, fun q => ?_⟩
  by_cases h : q = r
  · rw [h, State.onRegion_region]
    rfl
  · rw [State.onRegion_region_ne _ _ _ _ h]
    rfl

theorem State.bankAdvance_serves (s : State) (r : Nat) : s.Serves (s.bankAdvance r) := by
  unfold State.bankAdvance
  split
  · exact s.bankPtr_serves r (s.free + 1) (fun x => x.bankPtr + (Config.freeValue s.free 16).toNat % (12288 - x.bankPtr))
  · exact .refl s

/-- A report to a region's log, once the copy of its failing bank has gone on. -/
theorem State.bankReport_serves (s : State) (r : Nat) (cls : EClass) (source unit info detail : Nat) :
    s.Serves { (s.bankAdvance r).regionReport r cls source unit info detail with logs := s.logs } := by
  have hadvance := s.bankAdvance_serves r
  have hreport := hadvance.sends (State.regionReport_onlyReported (s.bankAdvance r) r cls source unit info detail)
  rw [hadvance.logs] at hreport
  exact hreport

/-- A report to the owner of a scratchpad's word only reports. -/
theorem State.eccReport_core {s : State} {a n : Nat} (h : coreOf a = some n) (cls : EClass) (source syndrome : Nat) :
    s.OnlyReported (s.eccReport a cls source syndrome) := by
  unfold State.eccReport
  rw [h]
  exact s.coreReport_onlyReported _ _ _ _ _ _

theorem State.eccReport_region {s : State} {a : Nat} (hn : coreOf a = none) (ha : a < 0x0A000000) (cls : EClass) (source syndrome : Nat) :
    s.eccReport a cls source syndrome = (s.bankAdvance ((a - 0x08000000) / 0x800000)).regionReport ((a - 0x08000000) / 0x800000) cls source
      ((s.bankAdvance ((a - 0x08000000) / 0x800000)).eccUnit a) syndrome a := by
  unfold State.eccReport
  rw [hn]
  exact if_pos ha

theorem State.eccReport_chip {s : State} {a : Nat} (hn : coreOf a = none) (ha : ¬a < 0x0A000000) (cls : EClass) (source syndrome : Nat) :
    s.eccReport a cls source syndrome = s.report .chip cls source 0xFF syndrome a := by
  unfold State.eccReport
  rw [hn]
  exact if_neg ha

theorem State.eccReport_serves (s : State) (a : Nat) (cls : EClass) (source syndrome : Nat) :
    s.Serves { s.eccReport a cls source syndrome with logs := s.logs } := by
  cases hn : coreOf a with
  | some n => exact (State.Serves.refl s).sends (State.eccReport_core hn cls source syndrome)
  | none =>
    by_cases ha : a < 0x0A000000
    · rw [State.eccReport_region hn ha]
      exact s.bankReport_serves _ _ _ _ _ _
    · rw [State.eccReport_chip hn ha]
      exact (State.Serves.refl s).sends (s.report_onlyReported _ _ _ _ _ _)

/-! ### Corrected words (R158, R512) -/

theorem State.Serves.physKey {s t : State} (h : s.Serves t) (n : Nat) : t.physKey n = s.physKey n := by
  have hmap : (t.region (n / 8)).map = (s.region (n / 8)).map := by rw [h.regions]
  exact congrArg (fun m : List Nat => n / 8 * 16 + m.getD (n % 8) (n % 8)) hmap

theorem State.Serves.bankKey {s t : State} (h : s.Serves t) (a : Nat) : t.bankKey a = s.bankKey a := by
  unfold State.bankKey
  split
  · rw [h.physKey]
  · rfl

/-- The first corrected word of a day is reported and counted towards its bank, which one word does not fail. -/
theorem State.eccCorrected_first {s : State} (h : s.attrib.ecc = []) (a syndrome : Nat) : s.eccCorrected a syndrome
    = { s.eccReport a .ce 0x01 syndrome with attrib := { s.attrib with ecc := [(s.bankKey a, a / 8, s.nclk)] } } := by
  have hserves := s.eccReport_serves a .ce 0x01 syndrome
  have hattrib : (s.eccReport a .ce 0x01 syndrome).attrib = s.attrib := hserves.attrib
  have hnclk : (s.eccReport a .ce 0x01 syndrome).nclk = s.nclk := hserves.nclk
  have hkey : (s.eccReport a .ce 0x01 syndrome).bankKey a = s.bankKey a := hserves.bankKey a
  have hfew (l : List (Nat × Nat × Nat)) (x : Nat × Nat × Nat) (p : Nat × Nat × Nat → Bool) (hl : l = []) : ¬16 ≤ ((l ++ [x]).filter p).length := by
    have hone := List.length_filter_le p (l ++ [x])
    rw [hl] at hone ⊢
    exact Nat.not_le.mpr (Nat.lt_of_le_of_lt hone (show 1 < 16 by decide))
  unfold State.eccCorrected
  dsimp only
  rw [if_neg (hfew _ _ _ (by rw [hattrib, h]; rfl)), hattrib, h, hnclk, hkey]
  rfl

theorem exec_harrowScrub {s : State} {line : Word} (hr : s.inReset = false) (words : List HarrowWord) :
    exec (.harrowScrub line words) s = .next (s.harrow line.toNat words) := by
  change execHarrowScrub line words s = _
  rw [execHarrowScrub, hr, if_neg Bool.false_ne_true]

theorem exec_harrowScrub_corrected {s : State} {line : Word} {w : HarrowWord} (hr : s.inReset = false) (hline : sramLine line.toNat = true)
    (hw : w.uncorrectable = false) (hecc : s.attrib.ecc = []) : ∃ t, exec (.harrowScrub line [w]) s = .next t
      ∧ t.corrected = s.corrected.del ((line.toNat + 8 * (w.word % 8)) / 8)
      ∧ t.attrib = { s.attrib with ecc := [(s.bankKey (line.toNat + 8 * (w.word % 8)), (line.toNat + 8 * (w.word % 8)) / 8, s.nclk)] }
      ∧ s.Serves { t with corrected := s.corrected, attrib := s.attrib, logs := s.logs } := by
  generalize ha : line.toNat + 8 * (w.word % 8) = a
  have hscrub : s.harrow line.toNat [w] = ({ s with corrected := s.corrected.del (a / 8) } : State).eccCorrected a w.syndrome.toNat := by
    rw [State.harrow, if_pos hline, State.scrub, List.foldl_cons, List.foldl_nil]
    dsimp only
    rw [hw, if_neg Bool.false_ne_true, ha]
  have hserves := State.eccReport_serves { s with corrected := s.corrected.del (a / 8) } a .ce 0x01 w.syndrome.toNat
  refine ⟨_, exec_harrowScrub hr [w], ?_⟩
  rw [hscrub, State.eccCorrected_first (s := { s with corrected := s.corrected.del (a / 8) }) hecc]
  refine ⟨hserves.corrected, rfl, ?_, hserves.pans, hserves.regs, hserves.regions⟩
  exact congrArg (fun x : State => { x with corrected := s.corrected, attrib := s.attrib }) hserves.rest

/-! ### Uncorrectable words (R159, R504) -/

/-- A word that holds nothing, in a core that is declared failed already, is poisoned and reported. -/
theorem State.poisonFound_unused {s : State} {a n : Nat} (hunused : s.poisonAt a = .unused) (hn : coreOf a = some n)
    (hdown : (s.region (n / 8)).downs.contains (s.physCore n) = true) (syndrome : Nat) :
    ({ s with poison := s.poison.ins (a / 8) } : State).OnlyReported (s.poisonFound a syndrome) := by
  have hreport := State.eccReport_core (s := { s with poison := s.poison.ins (a / 8) }) hn .ucm 0x02 syndrome
  have hat : ({ s with poison := s.poison.ins (a / 8) } : State).poisonAt a = .unused := hunused
  unfold State.poisonFound
  dsimp only
  rw [hat]
  dsimp only
  generalize ({ s with poison := s.poison.ins (a / 8) } : State).eccReport a .ucm 0x02 syndrome = t at hreport
  have hregion (r : Nat) : t.region r = s.region r := hreport.region r
  have hphys : t.physCore n = s.physCore n := congrArg (fun x : RegionSt => x.map.getD (n % 8) (n % 8)) (hregion (n / 8))
  have hmeets : t.bankMeets a = t := by
    unfold State.bankMeets
    rw [hn]
    dsimp only
    rw [State.coreFailed, hregion, hphys, if_pos hdown]
  rw [hmeets]
  exact hreport

theorem exec_harrowScrub_poisoned {s : State} {line : Word} {w : HarrowWord} (hr : s.inReset = false) (hline : sramLine line.toNat = true)
    (hw : w.uncorrectable = true) {n : Nat} (hunused : s.poisonAt (line.toNat + 8 * (w.word % 8)) = .unused)
    (hn : coreOf (line.toNat + 8 * (w.word % 8)) = some n) (hdown : (s.region (n / 8)).downs.contains (s.physCore n) = true) :
    ∃ t, exec (.harrowScrub line [w]) s = .next t ∧ t.poison = s.poison.ins ((line.toNat + 8 * (w.word % 8)) / 8)
      ∧ s.Sends { t with poison := s.poison, logs := s.logs } := by
  have hscrub : s.harrow line.toNat [w] = s.poisonFound (line.toNat + 8 * (w.word % 8)) w.syndrome.toNat := by
    rw [State.harrow, if_pos hline, State.scrub, List.foldl_cons, List.foldl_nil]
    dsimp only
    rw [hw, if_pos rfl]
  have hfound := State.poisonFound_unused hunused hn hdown w.syndrome.toNat
  exact ⟨_, exec_harrowScrub hr [w], by rw [hscrub]; exact hfound.poison,
    by rw [hscrub]; exact State.Sends.map hfound fun x => { x with poison := s.poison }⟩

/-! ### The chip's own memories (R148) -/

theorem State.scrubChip_spec (s : State) (m : ChipMem) (a : Nat) (w : HarrowWord) :
    (s.scrubChip m a w).poison = (if w.uncorrectable then s.poison.ins (a / 8) else s.poison) ∧ (s.scrubChip m a w).mem = s.mem
      ∧ (s.scrubChip m a w).regs = s.regs ∧ (s.scrubChip m a w).cores = s.cores := by
  have hreport (t : State) (cls : EClass) (source unit info detail : Nat) := t.report_onlyReported .chip cls source unit info detail
  unfold State.scrubChip
  extract_lets n unit
  dsimp only
  clear_value n unit
  generalize (s.takeFree 32).1.toNat = detail
  have hfree (y : NSet) := hreport { (s.takeFree 32).2 with poison := y }
  cases w.uncorrectable with
  | false =>
    have h := hfree s.poison .ce 0x01 unit w.syndrome.toNat detail
    exact ⟨h.poison, h.mem, h.regs, h.cores⟩
  | true =>
    cases n with
    | some n =>
      have h := hfree (s.poison.ins (a / 8)) .ucu 0x02 unit w.syndrome.toNat detail
      exact ⟨h.poison, h.mem, h.regs, h.cores⟩
    | none =>
      have h := hfree (s.poison.ins (a / 8)) .ucm 0x02 unit w.syndrome.toNat detail
      exact ⟨h.poison, h.mem, h.regs, h.cores⟩

theorem exec_harrowScrub_chip {s : State} {line : Word} {w : HarrowWord} (hr : s.inReset = false) (hline : sramLine line.toNat = false)
    (hchip : (chipMem line.toNat).isSome = true) : ∃ t, exec (.harrowScrub line [w]) s = .next t
      ∧ t.poison = (if w.uncorrectable then s.poison.ins ((line.toNat + 8 * (w.word % 8)) / 8) else s.poison) ∧ t.mem = s.mem ∧ t.regs = s.regs
      ∧ t.cores = s.cores := by
  obtain ⟨m, hm⟩ := Option.isSome_iff_exists.mp hchip
  have hscrub : s.harrow line.toNat [w] = s.scrubChip m (line.toNat + 8 * (w.word % 8)) w := by
    rw [State.harrow, hline, if_neg Bool.false_ne_true, hm]
    rfl
  exact ⟨_, exec_harrowScrub hr [w], hscrub ▸ s.scrubChip_spec m _ w⟩

/-! ### HARROW_REWRITE (R162) -/

theorem exec_harrowRewrite {s : State} (hr : s.inReset = false) {x : Nat} {r : NSet} (h : s.corrected = x :: r) :
    exec .harrowRewrite s = .next { s with corrected := r } := by
  change execHarrowRewrite s = _
  rw [execHarrowRewrite, hr, if_neg Bool.false_ne_true, h]
  rfl

end Sys2Proof.Machine
end

section
/-!
PROOF. The ends of copies (R141, R513), and O60.
-/

namespace Sys2Proof.Machine

/-! ### The words of bad lines -/

theorem NSet.has_foldl_ins (l : List Nat) (m : NSet) (w : Nat) : (l.foldl NSet.ins m).has w = true ↔ m.has w = true ∨ w ∈ l := by
  induction l generalizing m with
  | nil => simp
  | cons k r ih =>
    rw [List.foldl_cons, ih, NSet.has_iff, NSet.mem_ins, ← NSet.has_iff, List.mem_cons]
    tauto

/-- The words of the lines that read uncorrectable, of a copy of `size` lines, poisoned. -/
theorem NSet.has_poisoned (bad : List Nat) (size : Nat) (words : Nat → List Nat) (m : NSet) (w : Nat) :
    (((bad.filter (fun l => l < size)).flatMap words).foldl NSet.ins m).has w = true
      ↔ m.has w = true ∨ ∃ l ∈ bad, l < size ∧ w ∈ words l := by
  rw [NSet.has_foldl_ins, List.mem_flatMap]
  simp only [List.mem_filter, decide_eq_true_eq, and_assoc]

/-! ### BANK_COPY_DONE (R141) -/

/-- The bank's copy ended: the spare bank in its place, its count of corrected words dropped, the words of the bad lines poisoned. -/
def State.bankReplaced (s : State) (r b : Nat) (bad : List Nat) : State :=
  ({ s with attrib := { s.attrib with ecc := s.attrib.ecc.filter (fun e => e.1 ≠ 65536 + r * 8 + b) },
            poison := ((bad.filter (fun l => l < 12288)).flatMap (bankWords r b)).foldl NSet.ins s.poison } : State).onRegion r
    (fun x => { x with bankCopy := none, replaced := some b, bankPtr := 0 })

theorem exec_bankCopyDone {s : State} {r : Fin 4} {bad : List Nat} {b : Nat} (hr : s.inReset = false)
    (hb : (s.region r.val).bankCopy = some b) :
    exec (.bankCopyDone ⟨r, bad⟩) s = .next ((s.bankReplaced r.val b bad).regionReport r.val .ucm 0x0C (0xF0 + b) 0 0) := by
  change execBankCopyDone ⟨r, bad⟩ s = _
  unfold execBankCopyDone
  dsimp only
  rw [hb, hr]
  dsimp only
  rw [if_neg Bool.false_ne_true]
  rfl

theorem exec_bankCopyDone_spec {s : State} {r : Fin 4} {bad : List Nat} {b : Nat} (hr : s.inReset = false)
    (hb : (s.region r.val).bankCopy = some b) : ∃ t, exec (.bankCopyDone ⟨r, bad⟩) s = .next t
      ∧ t.region r.val = { s.region r.val with bankCopy := none, replaced := some b, bankPtr := 0 } ∧ (∀ q, q ≠ r.val → t.region q = s.region q)
      ∧ (∀ w, t.poison.has w = true ↔ s.poison.has w = true ∨ ∃ l ∈ bad, l < 12288 ∧ w ∈ bankWords r.val b l)
      ∧ s.Sends { t with regions := s.regions, attrib := s.attrib, logs := s.logs, poison := s.poison } := by
  have hreport := (s.bankReplaced r.val b bad).regionReport_onlyReported r.val .ucm 0x0C (0xF0 + b) 0 0
  refine ⟨_, exec_bankCopyDone hr hb, ?_, fun q hne => ?_, fun w => ?_, ?_⟩
  · rw [hreport.region]
    exact State.onRegion_region _ _ _
  · rw [hreport.region]
    exact State.onRegion_region_ne _ _ _ _ hne
  · rw [hreport.poison]
    exact NSet.has_poisoned bad 12288 (bankWords r.val b) s.poison w
  · exact State.Sends.map hreport fun x => { x with regions := s.regions, attrib := s.attrib, poison := s.poison }

/-! ### CORE_COPY_DONE (R513) -/

/-- The core's copy ended: its pointer past the last line, the words of the bad lines poisoned. -/
def State.coreCopied (s : State) (r i : Nat) (bad : List Nat) : State :=
  { s.onRegion r (fun x => { x with copyEnded := true, copyPtr := 65535 }) with
    poison := ((bad.filter (fun l => l < 65536)).flatMap (coreWords (r * 8 + i))).foldl NSet.ins s.poison }

/-- A core of the region moved to the spare, its copy ended. -/
def State.coreMoved (s : State) (r i : Nat) : State :=
  s.onRegion r (fun x => { x with map := x.map.set i 8, spareUsed := true, copyCore := none, copyEnded := false })

theorem State.coreCopied_region (s : State) (r i : Nat) (bad : List Nat) :
    (s.coreCopied r i bad).region r = { s.region r with copyEnded := true, copyPtr := 65535 } :=
  State.onRegion_region s r (fun x => { x with copyEnded := true, copyPtr := 65535 })

theorem State.coreCopied_region_ne (s : State) {r q : Nat} (i : Nat) (bad : List Nat) (h : q ≠ r) :
    (s.coreCopied r i bad).region q = s.region q :=
  State.onRegion_region_ne s r (fun x => { x with copyEnded := true, copyPtr := 65535 }) q h

theorem exec_coreCopyDone {s : State} {r : Fin 4} {bad : List Nat} {i : Nat} (hr : s.inReset = false)
    (hi : (s.region r.val).copyCore = some i) :
    exec (.coreCopyDone ⟨r, bad⟩) s = .next (
      if (s.pansOf (r.val * 8 + i)).isEmpty then (s.coreCopied r.val i bad).moveCore r.val else s.coreCopied r.val i bad) := by
  change execCoreCopyDone ⟨r, bad⟩ s = _
  unfold execCoreCopyDone
  dsimp only
  rw [hi, hr]
  dsimp only
  rw [if_neg Bool.false_ne_true]
  rfl

/-- A core whose copy has ended moves to the spare, with a report. -/
theorem State.moveCore_ended {s : State} {r i : Nat} (hi : (s.region r).copyCore = some i) (hended : (s.region r).copyEnded = true) :
    s.moveCore r = (s.coreMoved r i).regionReport r .ucm 0x0A ((s.region r).map.getD i i * 16 + 15) 0 0 := by
  unfold State.moveCore
  dsimp only
  rw [hi]
  exact if_pos hended

theorem exec_coreCopyDone_spec {s : State} {r : Fin 4} {bad : List Nat} {i : Nat} (hr : s.inReset = false)
    (hi : (s.region r.val).copyCore = some i) : ∃ t, exec (.coreCopyDone ⟨r, bad⟩) s = .next t
      ∧ (∀ w, t.poison.has w = true ↔ s.poison.has w = true ∨ ∃ l ∈ bad, l < 65536 ∧ w ∈ coreWords (r.val * 8 + i) l)
      ∧ ((s.pansOf (r.val * 8 + i)).isEmpty = false →
          t.region r.val = { s.region r.val with copyEnded := true, copyPtr := 65535 } ∧ (∀ q, q ≠ r.val → t.region q = s.region q)
          ∧ t = { s with regions := t.regions, poison := t.poison })
      ∧ ((s.pansOf (r.val * 8 + i)).isEmpty = true → i < (s.region r.val).map.length →
          (t.region r.val).map[i]? = some 8 ∧ (∀ j, j ≠ i → (t.region r.val).map[j]? = (s.region r.val).map[j]?)
          ∧ (t.region r.val).spareUsed = true ∧ (t.region r.val).copyCore = none
          ∧ s.Sends { t with regions := s.regions, logs := s.logs, poison := s.poison }) := by
  have hpoison (w : Nat) := NSet.has_poisoned bad 65536 (coreWords (r.val * 8 + i)) s.poison w
  have hcopied := s.coreCopied_region r.val i bad
  refine ⟨_, exec_coreCopyDone hr hi, ?_⟩
  cases hpans : (s.pansOf (r.val * 8 + i)).isEmpty with
  | false =>
    rw [if_neg Bool.false_ne_true]
    exact ⟨hpoison, fun _ => ⟨hcopied, fun q hne => s.coreCopied_region_ne i bad hne, rfl⟩, fun h => absurd h Bool.false_ne_true⟩
  | true =>
    rw [if_pos rfl, State.moveCore_ended (i := i) (by rw [hcopied]; exact hi) (by rw [hcopied])]
    have hreport := ((s.coreCopied r.val i bad).coreMoved r.val i).regionReport_onlyReported r.val .ucm 0x0A
      (((s.coreCopied r.val i bad).region r.val).map.getD i i * 16 + 15) 0 0
    have hmoved : ((s.coreCopied r.val i bad).coreMoved r.val i).region r.val = { s.region r.val with
        map := (s.region r.val).map.set i 8, spareUsed := true, copyCore := none, copyEnded := false, copyPtr := 65535 } := by
      rw [State.coreMoved, State.onRegion_region, hcopied]
    refine ⟨fun w => by rw [hreport.poison]; exact hpoison w, fun h => absurd h.symm Bool.false_ne_true, fun _ hlt => ?_⟩
    rw [hreport.region, hmoved]
    exact ⟨List.getElem?_set_self hlt, fun j hne => List.getElem?_set_ne hne.symm, rfl, rfl,
      State.Sends.map hreport fun x => { x with regions := s.regions, poison := s.poison }⟩

/-! ### O60 -/

/-- The copy of a report that is lost sends the ERROR EVENT, where the report was to send it. -/
theorem ErrLog.passEvent_eq (g : ErrLog) (r : Report) : { g with buf := g.buf.map (fun c => if r.event && c.copyOf r then { c with event := true } else c) }
    = if r.event then g.passEvent r else g := by
  cases r.event with
  | true => rfl
  | false =>
    have hsame : g.buf.map (fun c => if false && c.copyOf r then { c with event := true } else c) = g.buf := g.buf.map_id
    rw [hsame]
    rfl

/-- Settles O60, by the rules of each command: the sluices, the harrow, the ends of copies, the logs and the TAP. -/
theorem sparesLogsAndTap : Obligations.SparesLogsAndTap := by
  refine ⟨⟨fun s p b => ⟨s.level_le_depth p b, fun l at' h => State.level_le_earned h⟩,
      fun s p b w hr hw => ⟨exec_sluiceTokenGrant_short hr hw, exec_sluiceTokenGrant_spec s p b w hr hw⟩⟩,
    fun s line w a hr ha => ?harrow, fun s r bad hr => ⟨fun b => exec_bankCopyDone_spec hr, fun i => exec_coreCopyDone_spec hr⟩,
    fun s l r rest hr hbuf => ?log, fun s => ⟨exec_bypass s, exec_idcode s, ⟨_, rfl, rfl, Bool.or_false _, rfl⟩, fun x hx => ?boundary⟩⟩
  case harrow =>
    subst ha
    exact ⟨fun hline => ⟨fun hw hecc => exec_harrowScrub_corrected hr hline hw hecc,
        fun hw hunused ⟨_, hn, hdown⟩ => exec_harrowScrub_poisoned hr hline hw hunused hn hdown⟩,
      fun hline hchip => exec_harrowScrub_chip hr hline hchip, fun x r h => exec_harrowRewrite hr h⟩
  case log =>
    by_cases hroom : (s.log l).entries.length < logCap l
    · obtain ⟨t, hexec, hlog, hothers, hframe⟩ := exec_logRecord_records hr hbuf hroom
      exact ⟨t, hexec, by rw [hlog], fun l' hne _ => hothers l' hne, fun _ => ⟨hlog, hothers⟩, fun h => absurd hroom (Nat.not_lt.mpr h), hframe⟩
    · obtain ⟨t, hexec, hlog, hothers, hchip, hframe⟩ := exec_logRecord_loses hr hbuf (Nat.not_lt.mp hroom)
      exact ⟨t, hexec, by rw [hlog]; rfl, hothers, fun h => absurd h hroom, fun _ => ⟨by rw [hlog]; rfl, by rw [hlog]; rfl, by rw [hlog]; rfl,
          by rw [hlog]; rfl, fun hne => (hchip hne).trans (ErrLog.passEvent_eq _ r).symm⟩, hframe⟩
  case boundary =>
    have hscan : exec x.1 s = .next (s.tapScan x.2 true) := by
      simp only [List.mem_cons, List.not_mem_nil, or_false] at hx
      obtain rfl | rfl | rfl := hx <;> rfl
    exact ⟨_, hscan, rfl, Bool.or_true _, rfl⟩

end Sys2Proof.Machine
end

section
/-!
PROOF. What leaves one context as it was while other contexts of the machine run, stop and reach their boundaries (R262, R405, R410): nothing
touches a context but what is done to that context itself, since an instance's slots are vacated in the context that holds it.
-/

namespace Sys2Proof.Machine

/-- A context is as it was, every instance is in the context where one with its number was, and the pans are paused as they were. -/
structure State.Apart (p c : Nat) (s t : State) : Prop where
  ctx : t.ctx p c = s.ctx p c
  jobs : ∀ j ∈ t.jobs, ∃ k ∈ s.jobs, k.id = j.id ∧ k.ctx = j.ctx
  paused : ∀ q, (t.pan q).paused = (s.pan q).paused

namespace State.Apart

variable {p c : Nat} {s t u : State}

theorem of_jobs (hc : t.ctx p c = s.ctx p c) (hp : ∀ q, (t.pan q).paused = (s.pan q).paused) (hj : t.jobs = s.jobs) : s.Apart p c t :=
  ⟨hc, fun j h => ⟨j, hj ▸ h, rfl, rfl⟩, hp⟩

/-- The pans changed no more than their sluices. -/
theorem of_sluices (hp : ∀ q, t.pan q = { s.pan q with levels := (t.pan q).levels, waitingTok := (t.pan q).waitingTok, asked := (t.pan q).asked })
    (hj : t.jobs = s.jobs) : s.Apart p c t := of_jobs (by rw [State.ctx, hp p, State.ctx]) (fun q => by rw [hp q]) hj

theorem of_pans (hp : t.pans = s.pans) (hj : t.jobs = s.jobs) : s.Apart p c t :=
  have hpan (q : Nat) : t.pan q = s.pan q := congrArg (fun m : SMap Pan => m.getD q {}) hp
  of_jobs (by rw [State.ctx, hpan, State.ctx]) (fun q => congrArg Pan.paused (hpan q)) hj

theorem refl (s : State) : s.Apart p c s := of_pans rfl rfl

theorem trans (h : s.Apart p c t) (h' : t.Apart p c u) : s.Apart p c u where
  ctx := h'.ctx.trans h.ctx
  jobs j hj := by
    obtain ⟨k, hk, hid, hctx⟩ := h'.jobs j hj
    obtain ⟨l, hl, hid', hctx'⟩ := h.jobs k hk
    exact ⟨l, hl, hid'.trans hid, hctx'.trans hctx⟩
  paused q := (h'.paused q).trans (h.paused q)

theorem foldl {α : Type} {f : State → α → State} (hf : ∀ (s : State) x, s.Apart p c (f s x)) (l : List α) (s : State) :
    s.Apart p c (l.foldl f s) :=
  List.foldlRecOn (motive := s.Apart p c) l f (refl s) fun t ht x _ => ht.trans (hf t x)

theorem ite {b : Prop} [Decidable b] (h : s.Apart p c t) (h' : s.Apart p c u) : s.Apart p c (if b then t else u) := by
  split
  · exact h
  · exact h'

end State.Apart

section
variable {p c : Nat} {s t : State}

theorem State.Sends.apart (h : s.Sends t) : s.Apart p c t := .of_sluices h.pans h.jobs

theorem State.OnlyBuffered.apart (h : s.OnlyBuffered t) : s.Apart p c t := .of_pans h.pans h.within.jobs

theorem State.OnlyCharged.apart (h : s.OnlyCharged t) : s.Apart p c t := .of_sluices h.pans h.withinStep.jobs

theorem State.OnlyReported.apart (h : s.OnlyReported t) : s.Apart p c t :=
  have hsent : s.Sends { t with logs := s.logs } := h
  .of_sluices hsent.pans hsent.jobs

end

section
variable {p c p' c' : Nat} (s : State)

theorem State.onPan_paused (q : Nat) {f : Pan → Pan} (hf : ∀ x, (f x).paused = x.paused) (r : Nat) :
    ((s.onPan q f).pan r).paused = (s.pan r).paused := by
  by_cases h : r = q
  · rw [h, State.onPan_pan, hf]
  · rw [State.onPan_pan_ne _ _ _ _ h]

theorem State.onPan_apart (q : Nat) {f : Pan → Pan} (hc : ∀ x, (f x).ctxs = x.ctxs) (hp : ∀ x, (f x).paused = x.paused) :
    s.Apart p c (s.onPan q f) := .of_jobs (State.onPan_ctx hc p c) (s.onPan_paused q hp) rfl

theorem State.onCtx_apart (hne : ¬(p = p' ∧ c = c')) (f : Ctx → Ctx) : s.Apart p c (s.onCtx p' c' f) :=
  .of_jobs (s.onCtx_ctx_ne p' c' f hne) (s.onPan_paused p' fun _ => rfl) rfl

theorem State.onJob_apart (id : Nat) {f : Job → Job} (hid : ∀ j, (f j).id = j.id) (hctx : ∀ j, (f j).ctx = j.ctx) : s.Apart p c (s.onJob id f) := by
  refine ⟨rfl, fun j hj => ?_, fun _ => rfl⟩
  obtain ⟨k, hk, rfl⟩ := List.mem_map.mp hj
  refine ⟨k, hk, ?_⟩
  split
  · exact ⟨(hid k).symm, (hctx k).symm⟩
  · exact ⟨rfl, rfl⟩

theorem State.dropJob_apart (id : Nat) : s.Apart p c (s.dropJob id) := ⟨rfl, fun j hj => ⟨j, (List.mem_filter.mp hj).1, rfl, rfl⟩, fun _ => rfl⟩

theorem State.onCore_apart (n : Nat) (f : Core → Core) : s.Apart p c (s.onCore n f) := .of_pans rfl rfl

/-! ### Reports and EVENTs -/

theorem State.bump_apart (x : Ctr) : s.Apart p c (s.bump x) := (State.bump_sends x (.refl s)).apart

theorem State.event_apart (kind subject : Nat) (body : List Byte) : s.Apart p c (s.event kind subject body) :=
  (State.event_sends kind subject body (.refl s)).apart

theorem State.seqReport_apart (n : Nat) (cls : EClass) (code desc : Nat) : s.Apart p c (s.seqReport n cls code desc) := by
  unfold State.seqReport
  split
  · exact (s.report_onlyReported _ _ _ _ _ _).apart
  · exact .refl s

theorem State.slotReport_apart (core source : Nat) (cls : EClass) (j : Job) (g unit : Nat) : s.Apart p c (s.slotReport core source cls j g unit) := by
  unfold State.slotReport
  split
  · exact (s.report_onlyReported _ _ _ _ _ _).apart
  · exact .refl s

/-! ### Kills -/

theorem State.payOwed_apart (hne : ¬(p = p' ∧ c = c')) (cls : EClass) : s.Apart p c (s.payOwed p' c' cls) :=
  
  (s.onCtx_apart hne _).trans (.foldl (fun t (r : Nat × Nat × Nat) => t.seqReport_apart r.1 cls r.2.1 r.2.2) _ _)

theorem State.halt_apart (hne : ¬(p = p' ∧ c = c')) (n : Nat) (f : StepFault) (desc : Nat) : s.Apart p c (s.halt p' c' n f desc) := by
  have hhalted : s.Apart p c (s.onCtx p' c' (fun x => { x with st := .halted, haltFault := f.code, refault := 0 })) := s.onCtx_apart hne _
  exact ((hhalted.trans (State.payOwed_apart _ hne .ucu)).trans (State.seqReport_apart _ n .ucu f.code desc)).trans (State.event_apart _ _ _ _)

theorem State.judge_apart (hne : ¬(p = p' ∧ c = c')) (n : Nat) (f : StepFault) (desc refault : Nat) :
    s.Apart p c (s.judge p' c' n f desc refault) := by
  cases f with
  | descriptor | address | trap | overrun => exact s.halt_apart hne n _ desc
  | preempt => exact s.seqReport_apart _ _ _ _
  | slotTimeout | schedule | barrierTimeout => exact .ite (s.halt_apart hne n _ desc) (s.onCtx_apart hne _)

theorem State.killCores_apart (q d n : Nat) (f : StepFault) (desc : Nat) : s.Apart p c (s.killCores q d n f desc) := by
  have hstop (t : State) (k : Nat) : t.Apart p c (t.stopCore k) := .trans (t.flushCore_onlyBuffered k).apart (.of_pans rfl rfl)
  have hstopped : s.Apart p c ((s.ctx q d).ranks.dedup.foldl (fun s k => (s.stopCore k).bump (.seqKills k)) s) :=
    .foldl (fun t k => (hstop t k).trans (State.bump_apart _ _)) _ s
  unfold State.killCores
  generalize (s.ctx q d).ranks.dedup.foldl (fun s k => (s.stopCore k).bump (.seqKills k)) s = t at *
  have hrecorded : t.Apart p c ((t.note (.seqStatus n) (· ||| 2 ^ 31)).onCore n (fun k => k.record f desc)) := .of_pans rfl rfl
  have hcleared (u : State) : u.Apart p c ((u.dropDirty q d).emptyShare q d) := .of_pans rfl rfl
  have hdropped (u : State) (tag : BitVec 4) : u.Apart p c (u.dropReplies q d tag) := by
    have hxacts (l : List Xact) : u.Apart p c { u with xacts := l } := .of_pans rfl rfl
    exact (hxacts _).trans (.foldl (fun v _ => v.bump_apart _) _ _)
  exact ((hstopped.trans hrecorded).trans (hcleared _)).trans (hdropped _ _)

theorem State.kill_apart (hne : ¬(p = p' ∧ c = c')) (n : Nat) (f : StepFault) (desc : Nat) : s.Apart p c (s.kill p' c' n f desc) := by
  cases hlive : (s.ctx p' c').live with
  | false =>
    rw [State.kill, hlive]
    exact .refl s
  | true =>
    have hstep : s.Apart p c (s.killStep p' c' n f desc) := (s.killCores_apart p' c' n f desc).trans (State.onCtx_apart _ hne _)
    rw [State.kill_of_live hlive]
    exact .ite (hstep.trans (State.onCtx_apart _ hne _)) (hstep.trans (State.judge_apart _ hne _ _ _ _))

/-! ### Full/empty accesses tried again -/

theorem State.turnTo_apart (n rank : Nat) : s.Apart p c (s.turnTo n rank) := by
  unfold State.turnTo
  split
  · exact .refl s
  · exact s.onCore_apart n _

theorem State.passTurn_apart (n : Nat) : s.Apart p c (s.passTurn n) := by
  unfold State.passTurn
  dsimp only
  refine .ite (.refl s) ?_
  split
  · exact s.turnTo_apart n _
  · refine .ite (.refl s) ?_
    split
    · exact s.turnTo_apart n _
    · exact .refl s

theorem State.push_apart (n q d : Nat) (op : OutOp) : s.Apart p c (s.push n q d op) :=
  have h := s.push_pushed n q d op
  .of_sluices h.pans ((congrArg State.jobs h.frame).trans rfl)

theorem State.mark_apart (line : Nat) (w : Bool) : s.Apart p c (s.mark line w) := .of_pans rfl rfl

theorem State.feGrant_apart (n : Nat) (write : Bool) (x : Option Nat × Nat × Nat) : s.Apart p c (s.feGrant n write x) :=
  .trans ((s.flushLine_onlyBuffered _).trans (State.store_onlyBuffered _ n false x.2.2 _ _)).apart (State.mark_apart _ _ write)

end

section
variable {p c : Nat}

theorem State.feRows_apart (n : Nat) (write : Bool) (items : List (Option Nat × Nat × Nat)) (bad : List (Option Nat)) (s : State) :
    s.Apart p c (s.feRows n write items bad).1 := by
  induction items generalizing bad s with
  | nil => exact .refl s
  | cons x r ih =>
    rw [State.feRows_cons]
    split
    · exact .refl s
    · exact (s.feGrant_apart n write x).trans (ih _ _)

/-- A full/empty access that is tried is outstanding afterwards or goes on waiting: its core does not end its step by it. -/
theorem State.feTry_apart (s : State) (n q d : Nat) (write : Bool) (items : List (Option Nat × Nat × Nat)) (bad : List (Option Nat)) (op : OutOp)
    (since : Nat) : s.Apart p c ((s.feTry n q d write items bad op since).passEnd n) := by
  have hrows : s.Apart p c (s.feRows n write items bad).1 := State.feRows_apart n write items bad s
  unfold State.feTry
  generalize s.feRows n write items bad = x at *
  obtain ⟨t, rest, bads⟩ := x
  dsimp only
  split
  · rw [State.passEnd_of_ops (State.push_pushed _ _ _ _ _).ops_ne_nil]
    exact (hrows.trans (State.onCore_apart t n _)).trans (State.push_apart _ n q d _)
  · rw [State.passEnd_of_wait (by rw [State.onCore_core]; exact Option.some_ne_none _)]
    exact hrows.trans (State.onCore_apart t n _)

theorem State.feAgain_apart (s : State) (k : Nat) : s.Apart p c (s.feAgain k) := by
  unfold State.feAgain
  split
  · exact .ite (s.feTry_apart _ _ _ _ _ _ _ _) (.refl s)
  · exact .refl s

theorem State.feRetry_apart (s : State) : s.Apart p c s.feRetry := by
  have turn (k : Nat) (t : State) (x : Turn) : t.Apart p c (((t.turnTo k x.rank).feAgain k).passTurn k) :=
    ((t.turnTo_apart k x.rank).trans (State.feAgain_apart _ k)).trans (State.passTurn_apart _ k)
  refine .foldl (fun t k => ?_) _ s
  exact (t.feAgain_apart k).trans (.foldl (turn k) _ _)

end

section
variable {p c p' c' : Nat} (s : State)

/-! ### The end of the step's full/empty accesses -/

theorem State.grantRows_apart (write : Bool) (rows : List (Option Nat × Nat × Nat)) {t : State} (h : s.grantRows write rows = some t) :
    s.Apart p c t := by
  induction rows generalizing s with
  | nil => exact Option.some.inj h ▸ .refl s
  | cons x r ih =>
    rw [State.grantRows_cons] at h
    split at h
    · cases h
    · exact (s.mark_apart _ _).trans (ih _ h)

theorem foldlM_apart {α ε : Type} {f : State → α → Except ε State} (hf : ∀ (s : State) x t, f s x = .ok t → s.Apart p c t) (l : List α)
    {t : State} (h : l.foldlM f s = .ok t) : s.Apart p c t := by
  induction l generalizing s with
  | nil => exact Except.ok.inj h ▸ .refl s
  | cons x l ih =>
    rw [List.foldlM_cons] at h
    cases hx : f s x with
    | error e => rw [hx] at h; cases h
    | ok u => rw [hx] at h; exact (hf s x u hx).trans (ih u h)

theorem State.endFe_apart (hne : ¬(p = p' ∧ c = c')) : s.Apart p c (s.endFe p' c') := by
  unfold State.endFe
  split
  · split
    next t ht =>
      refine foldlM_apart s (fun s x t hx => ?_) _ ht
      split at hx
      next hgranted => exact Except.ok.inj hx ▸ s.grantRows_apart _ _ hgranted
      next => cases hx
    next n i _ => exact (s.onCtx_apart hne _).trans (State.kill_apart _ hne n _ i)
  · exact .refl s

/-! ### The commit and the windows -/

theorem State.commitLines_apart (q d : Nat) (x : Nat × Nat) : s.Apart p c (s.commitLines q d x) := by
  refine .foldl (fun t a => .ite ?_ (.refl t)) _ s
  exact .of_pans rfl rfl

theorem State.putPage_apart (ch page : Nat) (bs : List Byte) (bad : Bool) : s.Apart p c (s.putPage ch page bs bad) := by
  have hpoked : s.Apart p c (s.poke (pageAddr ch page) bs bad) := (s.poke_onlyBuffered _ _ _).apart
  have hcached (t : State) : t.Apart p c (t.cacheLine ch page) := .ite (.refl t) (.of_pans rfl rfl)
  have hchecked (t : State) (f : Hbus → Hbus) : t.Apart p c (t.onChan ch f) := .of_pans rfl rfl
  exact (hpoked.trans (hcached _)).trans (hchecked _ _)

theorem State.moveWrite_apart (core : Nat) (w : Nat × List Byte × Bool) : s.Apart p c (s.moveWrite core w) :=
  .ite (.foldl (fun t _ => .foldl (fun u _ => u.putPage_apart _ _ _ _) _ t) _ s)
    (.foldl (fun t (x : OutWrite) => (t.store_onlyBuffered core false x.addr x.bytes _).apart) _ s)

theorem State.doDeferred_apart (q core : Nat) (m : Deferred) (rows : List (Nat × List Byte × Bool)) : s.Apart p c (s.doDeferred q core m rows) := by
  refine .trans ?_ (.foldl (fun t w => t.moveWrite_apart core w) rows _)
  exact .ite (s.chargeBy_onlyCharged _ _ _ _).apart (.foldl (fun t _ => (t.chargeSpan_onlyCharged q core _).apart) _ s)

theorem State.commitPhase_apart (hne : ¬(p = p' ∧ c = c')) (commits : List Nat) : s.Apart p c (s.commitPhase p' c' commits) := by
  unfold State.commitPhase
  extract_lets x done due moved kept freed
  have hmoved : s.Apart p c moved := by
    refine .foldl (fun t e => .trans ?_ (State.onCore_apart _ _ _)) _ s
    exact .foldl (fun u (m : Deferred × List (Nat × List Byte × Bool)) => u.doDeferred_apart p' e.1 m.1 m.2) _ t
  have hkept : s.Apart p c kept := hmoved.trans (.foldl (fun t y => t.commitLines_apart p' c' y) _ _)
  have hfreed : s.Apart p c freed := hkept.trans (.of_pans rfl rfl)
  exact hfreed.trans (State.onCtx_apart _ hne _)

theorem State.applyWrite_apart (x : Staged) : s.Apart p c (s.applyWrite x) := by
  cases hx : x.body with
  | write d => exact (s.poke_onlyBuffered x.addr d false).apart.trans (State.applyWrite_sends hx).1.apart
  | read n =>
    rw [State.applyWrite, hx]
    exact .refl s

theorem State.applyRead_apart (x : Staged) : s.Apart p c (s.applyRead x) := by
  unfold State.applyRead
  split
  · exact .refl s
  · exact (State.sendPaced_sends _ _ _ (.refl s)).apart

theorem State.windowPhase_apart (q : Nat) : s.Apart p c (s.windowPhase q) := by
  have hstaged (l : List Staged) : s.Apart p c { s with staged := l } := .of_pans rfl rfl
  exact ((hstaged _).trans (.foldl State.applyWrite_apart _ _)).trans (.foldl State.applyRead_apart _ _)

/-! ### Completions of instances -/

theorem State.attribute_apart (unit : Nat) : s.Apart p c (s.attribute unit) := .of_pans rfl rfl

theorem State.certBars_apart (core : Nat) (j : Job) (g : Nat) (cls : EClass) : s.Apart p c (s.certBars core j g cls) :=
  .foldl (fun t _ => (t.slotReport_apart _ _ _ _ _ _).trans (State.attribute_apart _ _)) _ s

theorem State.endEpisode_apart (q : Nat) (j : Job) (cls : EClass) : s.Apart p c (s.endEpisode q j cls) := by
  unfold State.endEpisode
  split
  · exact .refl s
  · refine .trans ?_ (State.onJob_apart _ _ (fun _ => rfl) fun _ => rfl)
    exact .ite (s.certBars_apart _ _ _ _) (.ite (s.slotReport_apart _ _ _ _ _ _) (.refl s))

theorem State.handoff_apart (queue : Nat) (q : QueueCfg) (x : List Val) : s.Apart p c (s.handoff queue q x) := by
  refine .foldl (fun t b => ?_) _ s
  split
  · exact .refl t
  next w _ =>
    have hheld (f : LoopSt → LoopSt) : t.Apart p c (t.onLoop b.loop f) := .of_pans rfl rfl
    have hset (u : State) (n : Nat) (v : Word) : u.Apart p c (u.loopSet n v) := .of_pans rfl rfl
    exact .ite ((hheld _).trans (hset _ _ _)) (hheld _)

theorem State.putComp_apart (q : Nat) (gen : BitVec 16) (payload : List Byte) : s.Apart p c (s.putComp q gen payload) :=
  have hcounted : s.Apart p c { s with nextComp := s.nextComp + 1 } := .of_pans rfl rfl
  hcounted.trans (s.putComp_sends q gen payload).apart

theorem State.completeFrom_apart (q : QueueCfg) (j : Job) (out : Leaving) (status how : Nat) (flags : BitVec 16) :
    s.Apart p c (s.completeFrom q j out status how flags) := by
  unfold State.completeFrom
  split
  · exact .refl s
  · dsimp only
    have hput (bytes : List Byte) : s.Apart p c ((s.countComp status how).putComp j.queue j.gen bytes) :=
      (s.countComp_sends status how).apart.trans (State.putComp_apart _ _ _ _)
    exact .ite ((hput _).trans (State.handoff_apart _ _ _ _)) (hput _)

theorem State.keepPrior_apart (q : QueueCfg) (j : Job) (committed : Bool) : s.Apart p c (s.keepPrior q j committed) := by
  unfold State.keepPrior
  dsimp only
  refine .ite ?_ (.refl s)
  split
  · exact .of_pans rfl rfl
  · exact .refl s

theorem State.vacate_apart (hne : ¬(p = p' ∧ c = c')) (g : Nat) : s.Apart p c (s.vacate p' c' g) := .foldl (fun t _ => t.onCtx_apart hne _) _ s

theorem State.vacated_apart (hne : ¬(p = p' ∧ c = c')) (slots : List Nat) (id : Nat) :
    s.Apart p c ((slots.foldl (fun s g => s.vacate p' c' g) s).dropJob id) :=
  .trans (.foldl (fun t g => t.vacate_apart hne g) _ s) (State.dropJob_apart _ _)

theorem State.leavePhase_apart (hne : ¬(p = p' ∧ c = c')) (old : State) {f : Fate} (hj : ∀ j ∈ s.jobs, j.id = f.job.id → j.ctx = c') :
    s.Apart p c (s.leavePhase p' old f) := by
  unfold State.leavePhase
  split
  next qc j _ hfound =>
    have hctx : j.ctx = c' := hj j (List.mem_of_find?_eq_some hfound)
      (of_decide_eq_true (List.find?_some (p := fun k : Job => decide (k.id = f.job.id)) hfound))
    extract_lets j' parted
    have hctx' : j'.ctx = c' := hctx
    have hparted : s.Apart p c parted := by
      unfold parted
      rw [hctx']
      split
      · exact (s.vacate_apart hne _).trans (State.onJob_apart _ _ (fun _ => rfl) fun _ => rfl)
      · exact .refl s
    clear_value parted j'
    rw [hctx']
    split
    · exact ((hparted.trans (State.keepPrior_apart _ _ _ _)).trans (State.completeFrom_apart _ _ _ _ _ _ _)).trans (State.vacated_apart _ hne _ _)
    · exact .ite (hparted.trans (State.vacated_apart _ hne _ _)) hparted
  next => exact .refl s

theorem State.idle_apart (q d : Nat) : s.Apart p c (s.idle q d) := .ite (.foldl (fun t n => t.onCore_apart n _) _ s) (.refl s)

end

section
variable {p c p' c' : Nat}

/-- The instances that leave at a boundary of another context are vacated there. -/
theorem State.leavePhases_apart (hne : ¬(p = p' ∧ c = c')) (old : State) (l : List Fate) (s : State)
    (hj : ∀ f ∈ l, ∀ j ∈ s.jobs, j.id = f.job.id → j.ctx = c') : s.Apart p c (l.foldl (fun s f => s.leavePhase p' old f) s) := by
  induction l generalizing s with
  | nil => exact .refl s
  | cons f l ih =>
    have hleft := s.leavePhase_apart hne old (hj f List.mem_cons_self)
    refine hleft.trans (ih _ fun g hg j hmem hid => ?_)
    obtain ⟨k, hk, hkid, hkctx⟩ := hleft.jobs j hmem
    exact hkctx ▸ hj g (List.mem_cons_of_mem _ hg) k hk (hkid.trans hid)

end

end Sys2Proof.Machine
end

section
/-!
PROOF. An index that holds no context and loads none, as the contexts around it are stopped, unloaded and reloaded (R405, R410-R417, R510-R516).
-/

namespace Sys2Proof.Machine

/-! ### The fates of a boundary's instances -/

theorem State.fate_job (s : State) (p te : Nat) (j : Job) : (s.fate p te j).job = j := by
  obtain ⟨hjob, -⟩ := s.fateCommit_stays p j
  by_cases hst : j.st = .harvested
  · rw [State.fate_harvested hst]
  cases hcorrupt : s.corrupted p j with
  | true => rw [State.fate_corrupt hst hcorrupt]
  | false =>
    cases hleft : j.leftBefore te with
    | true => rw [State.fate_left hst hcorrupt hleft]
    | false =>
      rw [State.fate_running hst hcorrupt hleft]
      repeat' split
      · rfl
      all_goals exact hjob

section
variable {p c p' c' : Nat} (s : State)

/-- A fate sets every instance of its number to one in its own context, and leaves the others where they are. -/
theorem State.applyFate_sets (q : Nat) (f : Fate) : ∃ u k, s.Apart p c u ∧ k.id = f.job.id ∧ k.ctx = f.job.ctx
    ∧ (u.onJob f.job.id (fun _ => k)).Apart p c (s.applyFate q f) := by
  unfold State.applyFate
  extract_lets j guard g core run j' counted noted still guarded reported
  have hcounted : s.Apart p c counted := .ite (s.bump_apart _) (.refl s)
  have hj' : j'.id = j.id ∧ j'.ctx = j.ctx := by
    unfold j'
    split
    · exact ⟨rfl, rfl⟩
    · exact ⟨rfl, rfl⟩
  refine ⟨counted, { j' with prev := f.prev, mismatch := f.mismatch || (j.mismatch && f.commits.isEmpty) }, hcounted, hj'.1, hj'.2, ?_⟩
  have hnoted : noted.Apart p c noted := .refl noted
  change noted.Apart p c _
  clear_value noted
  have hguarded : noted.Apart p c guarded := .ite hnoted (noted.certBars_apart _ _ _ _)
  have hreported : noted.Apart p c reported := by
    unfold reported
    split
    · exact (noted.slotReport_apart _ _ _ _ _ _).trans (State.attribute_apart _ _)
    · exact .ite (noted.slotReport_apart _ _ _ _ _ _) hnoted
  clear_value guarded reported
  refine .ite (.ite ?pair (.ite ?repro ?fails)) (.ite ?ended hreported)
  case pair => exact hguarded.trans (State.endEpisode_apart _ _ _ _)
  case repro => exact (noted.bump_apart _).trans (State.onJob_apart _ _ (fun _ => rfl) fun _ => rfl)
  case fails => exact noted.endEpisode_apart _ _ _
  case ended => exact (hreported.trans (State.endEpisode_apart _ _ _ _)).trans (State.onJob_apart _ _ (fun _ => rfl) fun _ => rfl)

theorem State.applyFate_rest (q : Nat) (f : Fate) (p c : Nat) : (s.applyFate q f).ctx p c = s.ctx p c
    ∧ ∀ r, ((s.applyFate q f).pan r).paused = (s.pan r).paused := by
  obtain ⟨u, k, hu, -, -, hset⟩ := s.applyFate_sets (p := p) (c := c) q f
  exact ⟨hset.ctx.trans hu.ctx, fun r => (hset.paused r).trans (hu.paused r)⟩

/-- Instances of some numbers are all in one context, and so are those of a fate's own once it is applied there. -/
theorem State.applyFate_gathers (q : Nat) {f : Fate} (hf : f.job.ctx = c') {I : Nat → Prop} (h : ∀ j ∈ s.jobs, I j.id → j.ctx = c') :
    ∀ j ∈ (s.applyFate q f).jobs, I j.id ∨ f.job.id = j.id → j.ctx = c' := by
  intro j hj hid
  obtain ⟨u, k, hu, hkid, hkctx, hset⟩ := s.applyFate_sets (p := 0) (c := 0) q f
  obtain ⟨i, hi, hiid, hictx⟩ := hset.jobs j hj
  obtain ⟨m, hm, rfl⟩ := List.mem_map.mp hi
  rw [← hictx]
  split
  · exact hkctx.trans hf
  next hother =>
    rw [if_neg hother] at hiid
    obtain ⟨n, hn, hnid, hnctx⟩ := hu.jobs m hm
    refine hnctx ▸ h n hn (hid.elim (fun hI => ?_) fun hsame => absurd (hiid.trans hsame.symm) hother)
    rwa [hnid, hiid]

end

section
variable {p c p' c' : Nat}

theorem State.applyFates_gather (q : Nat) (fs : List Fate) (hfs : ∀ f ∈ fs, f.job.ctx = c') {I : Nat → Prop} (s : State)
    (h : ∀ j ∈ s.jobs, I j.id → j.ctx = c') :
    ∀ j ∈ (fs.foldl (fun s f => s.applyFate q f) s).jobs, (I j.id ∨ ∃ f ∈ fs, f.job.id = j.id) → j.ctx = c' := by
  induction fs generalizing I s with
  | nil => exact fun j hj hid => h j hj (hid.elim id fun ⟨_, hf, _⟩ => absurd hf List.not_mem_nil)
  | cons f fs ih =>
    intro j hj hid
    refine ih (I := fun i => I i ∨ f.job.id = i) (fun g hg => hfs g (List.mem_cons_of_mem _ hg)) _
      (s.applyFate_gathers q (hfs f List.mem_cons_self) h) j hj ?_
    rcases hid with hI | ⟨g, hg, hgid⟩
    · exact .inl (.inl hI)
    · rcases List.mem_cons.mp hg with rfl | hg
      · exact .inl (.inr hgid)
      · exact .inr ⟨g, hg, hgid⟩

end

/-! ### An index that holds no context -/

/-- Where an index of a pan holds no context and loads none, it is as it was, and the pans are paused as they were. -/
structure State.Passes (p c : Nat) (s t : State) : Prop where
  ctx : (s.ctx p c).kept = false → t.ctx p c = s.ctx p c
  paused : ∀ q, (t.pan q).paused = (s.pan q).paused

namespace State.Passes

variable {p c : Nat} {s t u : State}

theorem refl (s : State) : s.Passes p c s := ⟨fun _ => rfl, fun _ => rfl⟩

theorem trans (h : s.Passes p c t) (h' : t.Passes p c u) : s.Passes p c u :=
  ⟨fun hk => (h'.ctx (h.ctx hk ▸ hk)).trans (h.ctx hk), fun q => (h'.paused q).trans (h.paused q)⟩

theorem foldl {α : Type} {f : State → α → State} (hf : ∀ (s : State) x, s.Passes p c (f s x)) (l : List α) (s : State) :
    s.Passes p c (l.foldl f s) :=
  List.foldlRecOn (motive := s.Passes p c) l f (refl s) fun t ht x _ => ht.trans (hf t x)

theorem ite {b : Prop} [Decidable b] (h : s.Passes p c t) (h' : s.Passes p c u) : s.Passes p c (if b then t else u) := by
  split
  · exact h
  · exact h'

end State.Passes

theorem State.Apart.passes {p c : Nat} {s t : State} (h : s.Apart p c t) : s.Passes p c t := ⟨fun _ => h.ctx, h.paused⟩

/-- A boundary leaves every other context as it was. -/
theorem State.boundary_passes {p c p' c' : Nat} (s : State) (hne : ¬(p = p' ∧ c = c')) (te : Nat) : s.Passes p c (s.boundary p' c' te) := by
  unfold State.boundary
  extract_lets fe js fs fated old committed windowed out left
  have hfs : ∀ f ∈ fs, f.job.ctx = c' := by
    intro f hf
    obtain ⟨j, hj, rfl⟩ := List.mem_map.mp hf
    have hin := (List.mem_filter.mp ((sortBy_perm _ _).mem_iff.mp hj)).2
    simp only [Bool.and_eq_true, decide_eq_true_eq] at hin
    rw [State.fate_job]
    exact hin.1.2
  have hfated : fe.Passes p c fated := .foldl (fun t f => have h := t.applyFate_rest p' f p c; ⟨fun _ => h.1, h.2⟩) fs fe
  have hgathered : ∀ j ∈ fated.jobs, (∃ f ∈ fs, f.job.id = j.id) → j.ctx = c' := fun j hj hid =>
    State.applyFates_gather (I := fun _ => False) p' fs hfs fe (fun _ _ h => h.elim) j hj (.inr hid)
  have hwindowed : fated.Apart p c windowed := (fated.commitPhase_apart hne _).trans (State.windowPhase_apart _ p')
  have hleft : windowed.Apart p c left := by
    refine (State.leavePhases_apart hne old out windowed fun f hf j hj hid => ?_).trans (State.idle_apart _ p' c')
    obtain ⟨k, hk, hkid, hkctx⟩ := hwindowed.jobs j hj
    exact hkctx ▸ hgathered k hk ⟨f, (sortBy_perm _ _).mem_iff.mp hf, (hkid.trans hid).symm⟩
  have hended := (left.onCtx_apart hne fun x => { x with boundary := false, killed := none, resume := true }).trans (State.feRetry_apart _)
  exact ((s.endFe_apart hne).passes.trans hfated).trans ((hwindowed.trans hleft).trans hended).passes

/-! ### Contexts stopped and unloaded -/

section
variable {p c p' c' : Nat} (s : State)

theorem State.preemptCtx_passes (hne : ¬(p = p' ∧ c = c')) : s.Passes p c (s.preemptCtx p' c') := by
  unfold State.preemptCtx
  extract_lets x counted n killed
  have hcounted : s.Apart p c counted := .foldl (fun t _ => t.bump_apart _) _ s
  have hkilled : s.Apart p c killed := (hcounted.trans (State.kill_apart _ hne n .preempt _)).trans (State.bump_apart _ _)
  exact .ite (.refl s) (hkilled.passes.trans (State.boundary_passes _ hne _))

theorem State.stopCtx_passes (hne : ¬(p = p' ∧ c = c')) : s.Passes p c ((s.preemptCtx p' c').settle p' c') :=
  (s.preemptCtx_passes hne).trans (.ite (State.boundary_passes _ hne _) (.refl _))

theorem State.releaseJobs_apart (q d : Nat) : s.Apart p c (s.releaseJobs q d) := by
  refine .foldl (fun t j => ?_) _ s
  split
  · refine .ite ?_ (t.dropJob_apart _)
    exact ((t.endEpisode_apart _ _ _).trans (State.completeFrom_apart _ _ _ _ _ _ _)).trans (State.dropJob_apart _ _)
  · exact t.dropJob_apart _

theorem State.clearShare_apart (q d : Nat) : s.Apart p c (s.clearShare q d) := by
  have hfreed : s.Apart p c (s.freed q d) := .of_pans rfl rfl
  exact hfreed.trans (State.feRetry_apart _)

/-- What follows an unloading: copies and packs that nothing uses any more, and the CONTEXT EVENT (R312, R450, R548). -/
theorem State.swept_apart (q d : Nat) : s.Apart p c (((s.sweepCopies q).ctxEvent q d 0).sweepModels) := by
  have hcopies : s.Apart p c (s.sweepCopies q) := by
    unfold State.sweepCopies
    exact s.onPan_apart q (fun _ => rfl) fun _ => rfl
  have hmodels (t : State) : t.Apart p c t.sweepModels := .of_pans rfl rfl
  exact (hcopies.trans (State.event_apart _ _ _ _)).trans (hmodels _)

theorem State.unload_passes (hne : ¬(p = p' ∧ c = c')) : s.Passes p c (s.unload p' c') := by
  unfold State.unload
  extract_lets x stopped emptied
  have hstopped : s.Passes p c stopped := (s.stopCtx_passes hne).trans (State.releaseJobs_apart _ p' c').passes
  have hemptied : stopped.Apart p c emptied :=
    ((stopped.clearShare_apart p' c').trans (State.payOwed_apart _ hne .ucu)).trans (State.onCtx_apart _ hne _)
  exact .ite (s.onCtx_apart hne _).passes (.ite (.refl s) ((hstopped.trans hemptied.passes).trans (State.swept_apart _ p' c').passes))

theorem State.startLoad_apart (hne : ¬(p = p' ∧ c = c')) (cat : Nat) (l : LoadPlan) : s.Apart p c (s.startLoad p' c' cat l) := by
  unfold State.startLoad
  extract_lets cored toks charged asked placed
  have hcored : s.Apart p c cored := .foldl (fun t n => t.onCore_apart n _) _ s
  have hcharged : s.Apart p c charged := hcored.trans (State.chargeBy_onlyCharged _ _ _ _ _).apart
  have hasked : charged.Apart p c asked := .of_pans rfl rfl
  exact (hcharged.trans hasked).trans (State.onCtx_apart _ hne _)

theorem State.load_apart (hne : ¬(p = p' ∧ c = c')) (cat : Nat) : s.Apart p c (s.load p' c' cat).2 := by
  unfold State.load
  split
  · exact s.startLoad_apart hne cat _
  · exact .refl s
  · exact .of_pans rfl rfl

theorem State.reload_passes (hne : ¬(p = p' ∧ c = c')) : s.Passes p c (s.reload p' c') :=
  (s.unload_passes hne).trans (State.load_apart _ hne _).passes

/-! ### Cores lost and moved -/

theorem State.onRegion_apart (r : Nat) (f : RegionSt → RegionSt) : s.Apart p c (s.onRegion r f) := .of_pans rfl rfl

/-- The contexts that a loss affects are contexts that are held or loaded. -/
theorem State.degradePan_passes (q region lost : Nat) (affected : Nat → Bool) : s.Passes p c (s.degradePan q region lost affected) := by
  unfold State.degradePan
  extract_lets cfg found cs placed reported marked
  have hplaced : s.Apart p c placed := s.onPan_apart q (fun _ => rfl) fun _ => rfl
  have hmarked : s.Apart p c marked := (hplaced.trans (State.report_onlyReported _ _ _ _ _ _ _).apart).trans (State.onRegion_apart _ _ _)
  have hstep {c : Nat} (t : State) {d : Nat} (hne : ¬(p = q ∧ c = d)) : t.Passes p c (if found.isNone then t.unload q d else t.reload q d) :=
    .ite (t.unload_passes hne) (t.reload_passes hne)
  refine hmarked.passes.trans ⟨fun hk => ?_, fun r => ?_⟩
  · have hcs : ∀ d ∈ cs, ¬(p = q ∧ c = d) := by
      rintro d hd ⟨rfl, rfl⟩
      have hkept := (List.mem_filter.mp (List.mem_filter.mp hd).1).2
      rw [hmarked.ctx] at hk
      exact Bool.false_ne_true (hk.symm.trans hkept)
    exact (List.foldlRecOn (motive := marked.Passes p c) cs _ (.refl marked) fun t ht d hd => ht.trans (hstep t (hcs d hd))).ctx hk
  · exact List.foldlRecOn (motive := fun t : State => (t.pan r).paused = (marked.pan r).paused) cs _ rfl fun t ht d _ =>
      ((hstep (c := d + 1) t fun h => Nat.succ_ne_self d h.2).paused r).trans ht

theorem State.setCoreReady_apart (n : Nat) (v : Bool) : s.Apart p c (s.setCoreReady n v) := by
  have hready (r : BitVec 32) : s.Apart p c { s with coreReady := r } := .of_pans rfl rfl
  exact .ite (.refl s) ((hready _).trans (State.event_apart _ _ _ _))

theorem State.loseCore_passes (r i : Nat) : s.Passes p c (s.loseCore r i) :=
  (s.setCoreReady_apart _ false).passes.trans (.foldl (fun t q => t.degradePan_passes q r _ _) _ _)

theorem State.coreFailed_passes (r phys : Nat) : s.Passes p c (s.coreFailed r phys) := by
  unfold State.coreFailed
  extract_lets x reported
  have hreported : s.Apart p c reported := (s.onRegion_apart _ _).trans (State.regionReport_onlyReported _ _ _ _ _ _ _).apart
  refine .ite (.refl s) ?_
  split
  · exact (hreported.trans (State.onRegion_apart _ _ _)).passes
  · exact .ite (hreported.trans (State.onRegion_apart _ _ _)).passes (hreported.passes.trans (State.loseCore_passes _ _ _))

theorem State.moveCore_apart (r : Nat) : s.Apart p c (s.moveCore r) := by
  unfold State.moveCore
  dsimp only
  split
  · exact .ite ((s.onRegion_apart _ _).trans (State.regionReport_onlyReported _ _ _ _ _ _ _).apart) (.refl s)
  · exact .refl s

theorem State.checkEvents_passes : s.Passes p c s.checkEvents := by
  have hattrib (a : Attrib) : s.Apart p c { s with attrib := a } := .of_pans rfl rfl
  exact (hattrib _).passes.trans (.foldl (fun t k => .ite (t.coreFailed_passes _ _) (.refl t)) _ _)

theorem State.spareColumns_apart (cores : List Nat) : s.Apart p c (s.spareColumns cores) := by
  have hattrib (a : Attrib) : s.Apart p c { s with attrib := a } := .of_pans rfl rfl
  have hspared (t : State) (b : Bist) : t.Apart p c { t with bist := b } := .of_pans rfl rfl
  exact (hattrib _).trans (.foldl (fun t e => (hspared t _).trans (State.coreReport_onlyReported _ _ _ _ _ _ _).apart) _ _)

/-- What happens to units at a boundary leaves an index that holds no context as it was. -/
theorem State.atBoundary_passes (q : Nat) (on : List Nat) : s.Passes p c (s.atBoundary q on) := by
  refine .ite (.refl s) ?_
  refine ((s.spareColumns_apart on).passes.trans ?_).trans (State.checkEvents_passes _)
  refine .foldl (fun t r => ?_) _ _
  split
  · exact .ite (t.moveCore_apart r).passes (.refl t)
  · exact .refl t

/-- An UNLOAD of an index that holds a context, or whose load failed, empties it (R404, R405). -/
theorem State.unloadCtx_empties (h : (s.ctx p c).st = .resident ∨ (s.ctx p c).st = .halted ∨ (s.ctx p c).st = .loadFail) :
    ∃ tag, (s.unloadCtx p c).ctx p c = { tag := tag } := by
  have hempty : ∃ tag, (s.unload p c).ctx p c = { tag := tag } := by
    unfold State.unload
    extract_lets x stopped emptied
    split
    · exact ⟨_, s.onCtx_ctx p c _⟩
    next hloaded =>
      have hholds : x.holds = true := by
        rcases h with h | h | h
        · simp [Ctx.holds, x, h]
        · simp [Ctx.holds, x, h]
        · exact absurd h hloaded
      rw [hholds, Bool.not_true, if_neg Bool.false_ne_true, (State.swept_apart emptied p c).ctx]
      exact ⟨_, State.onCtx_ctx _ p c _⟩
  obtain ⟨tag, htag⟩ := hempty
  refine ⟨tag, ?_⟩
  rw [State.unloadCtx, (State.atBoundary_passes _ p _).ctx (by rw [htag]; rfl), htag]

end

end Sys2Proof.Machine
end

section
/-!
PROOF. Writes of PAN_n_CTX_CMD and PAN_n_CTRL (R402, R405, R417, R420), and O25.
-/

namespace Sys2Proof.Machine

/-! ### Writes that are refused -/

theorem State.afterRefusal_rest (s w : State) : s.Sends { s.afterRefusal w with shortfall := s.shortfall, sec := s.sec }
    ∧ (s.afterRefusal w).sec = { s.sec with pendingImg := (s.afterRefusal w).sec.pendingImg } := ⟨⟨rfl, fun _ => rfl⟩, rfl⟩

/-- A state that differs from one after a refusal by sending and answering alone, once it tells the reason. -/
theorem State.Sends.declines {s u w t : State} {src : RegSrc} {x : Reason} (hu : s.Sends u) (h : (u.afterRefusal w).Answers t) (htold : t.Told src x) :
    s.Declines t src x := by
  obtain ⟨hrest, hsec⟩ := u.afterRefusal_rest w
  refine ⟨?_, by rw [h.sec, hsec, hu.sec], htold⟩
  have hchecked := hu.map fun y => { y with shortfall := s.shortfall, sec := s.sec, svc := s.svc }
  have hrefused := hrest.map fun y => { y with shortfall := s.shortfall, sec := s.sec, svc := s.svc }
  exact (hchecked.trans hrefused).trans (State.Sends.map h fun y => { y with shortfall := s.shortfall, sec := s.sec, svc := s.svc })

theorem State.writeRegs_one (src : RegSrc) (r : Reg) (v : Word) (s : State) :
    (State.writeRegs src [(r, v)] s).refused = (s.writeReg src r v).refused ∧ (State.writeRegs src [(r, v)] s).state = (s.writeReg src r v).state := by
  unfold State.writeRegs
  dsimp only
  cases hw : (s.writeReg src r v).refused with
  | none => exact ⟨rfl, rfl⟩
  | some x => exact ⟨hw, rfl⟩

section
variable {s : State} {r : Reg} {v : Word} {x : Reason}

theorem State.spiWrite_refused (ha : Reg.ofAddr r.addr = some r) (hanswers : s.spiAnswers r.addr = true)
    (hw : (s.writeReg .spi r v).refused = some x) :
    s.spiWrite r.addr v = { s.afterRefusal (s.writeReg .spi r v).state with svc := svcResp x 0 } := by
  obtain ⟨hrefused, hstate⟩ := State.writeRegs_one .spi r v s
  unfold State.spiWrite
  rw [ha]
  dsimp only
  rw [hanswers, Bool.not_true, if_neg Bool.false_ne_true, hrefused, hw, hstate]

theorem State.doWrite_refused {h : SqpHdr} (hw : (s.writeReg (.sqp h) r v).refused = some x) :
    s.doWrite h r.addr 1 [(r, v)] = (s.afterRefusal (s.writeReg (.sqp h) r v).state).nak h x := by
  obtain ⟨hrefused, hstate⟩ := State.writeRegs_one (.sqp h) r v s
  unfold State.doWrite
  dsimp only
  rw [hrefused, hw, hstate]

theorem State.deferredWrites_one (hd : r.deferred = false) (s : State) : s.deferredWrites [(r, v)] = [] := by
  rw [State.deferredWrites, hd, if_neg Bool.false_ne_true, State.deferredWrites]

theorem State.spiWrite_done (ha : Reg.ofAddr r.addr = some r) (hanswers : s.spiAnswers r.addr = true) (hd : r.deferred = false)
    (hw : (s.writeReg .spi r v).refused = none) : (s.writeReg .spi r v).state.Answers (s.spiWrite r.addr v) := by
  obtain ⟨hrefused, hstate⟩ := State.writeRegs_one .spi r v s
  unfold State.spiWrite
  rw [ha]
  dsimp only
  rw [hanswers, Bool.not_true, if_neg Bool.false_ne_true, hrefused, hw, hstate, State.deferredWrites_one hd]
  exact State.Sends.refl _

theorem State.doWrite_done {h : SqpHdr} (hd : r.deferred = false) (hw : (s.writeReg (.sqp h) r v).refused = none) :
    (s.writeReg (.sqp h) r v).state.Answers (s.doWrite h r.addr 1 [(r, v)]) := by
  obtain ⟨hrefused, hstate⟩ := State.writeRegs_one (.sqp h) r v s
  unfold State.doWrite
  dsimp only
  rw [hrefused, hw, hstate, State.deferredWrites_one hd, List.map_nil]
  dsimp only
  rw [List.append_nil]
  exact (State.answerMsg_sends _ _ _ _ _ (.refl _)).answers

end

/-- A write of one register that is let through to it: what the register makes of it is answered, and where it refuses, nothing is written. -/
theorem State.writeBy_answers {s : State} {r : Reg} {v : Word} {src : RegSrc} (ok : s.WriteOk r v src) (ha : Reg.ofAddr r.addr = some r)
    (hd : r.deferred = false) : ∃ u, s.Sends u ∧ (src = .spi → u = s)
      ∧ ((u.writeReg src r v).refused = none → (u.writeReg src r v).state.Answers (s.writeBy src r v))
      ∧ ∀ x, (u.writeReg src r v).refused = some x → s.Declines (s.writeBy src r v) src x := by
  cases src with
  | spi =>
    obtain ⟨hr, hbooted, hanswers⟩ := ok
    have hdone : s.writeBy .spi r v = s.spiWrite r.addr v := by
      rw [State.writeBy, hr, hbooted]
      rfl
    rw [hdone]
    refine ⟨s, .refl s, fun _ => rfl, State.spiWrite_done ha hanswers hd, fun x hw => ?_⟩
    rw [State.spiWrite_refused ha hanswers hw]
    exact (State.Sends.refl s).declines (State.Sends.refl _) rfl
  | sqp h =>
    obtain ⟨hgets, hlength, hright, hmay, hanswers⟩ := ok
    obtain ⟨u, hu, he⟩ := State.received_gets hgets (fun s => s.regWrite h r.addr 1 [v] (lenIs h 12))
    have hdone : s.writeBy (.sqp h) r v = u.doWrite h r.addr 1 [(r, v)] := by
      refine Eq.trans he ?_
      have hone : List.range 1 = [0] := rfl
      simp only [State.regWrite, hone, List.all_cons, List.all_nil, hu.mayWrite, hu.hasRight, hright, Nat.mul_zero, Nat.add_zero,
        List.getElem?_cons_zero, hmay, regsAt, ha, addrsOf, List.map_cons, List.map_nil, hu.sqpAnswers, hanswers, lenIs, hlength, zipRegs]
      rfl
    rw [hdone]
    refine ⟨u, hu, (nomatch ·), State.doWrite_done hd, fun x hw => ?_⟩
    rw [State.doWrite_refused hw]
    obtain ⟨hsent, hreplied⟩ := (State.Sends.refl (u.afterRefusal (u.writeReg (.sqp h) r v).state)).nak_refused h x
    exact hu.declines hsent.answers hreplied

/-! ### Words of PAN_n_CTX_CMD -/

theorem fieldOf_word (k hi lo : Nat) : fieldOf (word k) hi lo = k % 2 ^ 32 / 2 ^ lo % 2 ^ (hi + 1 - lo) := by
  rw [fieldOf, word, BitVec.toNat_ofNat]

theorem fieldOf_loadCmd (cat : BitVec 5) (c : Fin 8) : fieldOf (word (0x40000000 + cat.toNat * 256 + c.val)) 31 30 = 1
    ∧ fieldOf (word (0x40000000 + cat.toNat * 256 + c.val)) 2 0 = c.val
    ∧ fieldOf (word (0x40000000 + cat.toNat * 256 + c.val)) 12 8 = cat.toNat := by
  have hcat := cat.isLt
  have hc := c.isLt
  simp only [fieldOf_word]
  omega

theorem fieldOf_unloadCmd (c : Fin 8) : fieldOf (word (0x80000000 + c.val)) 31 30 = 2 ∧ fieldOf (word (0x80000000 + c.val)) 2 0 = c.val := by
  have hc := c.isLt
  simp only [fieldOf_word]
  omega

section
variable {s : State} {p : Nat} (hp : (s.panCfg p).isSome = true) (src : RegSrc)
include hp

theorem State.writeReg_load (c : Fin 8) (cat : BitVec 5) :
    s.writeReg src (.panCtxCmd p) (word (0x40000000 + cat.toNat * 256 + c.val)) = wroteOr (s.load p c.val cat.toNat) := by
  obtain ⟨hcmd, hctx, hcat⟩ := fieldOf_loadCmd cat c
  have hsome : (s.panCfg p).isNone = false := by rw [Option.isNone_eq_false_iff, hp]
  rw [State.writeReg, State.writeCtxCmd, hsome, if_neg Bool.false_ne_true, hcmd, hctx, hcat]
  rfl

theorem State.writeReg_unload (c : Fin 8) : s.writeReg src (.panCtxCmd p) (word (0x80000000 + c.val)) = (s.unloadCtx p c.val).wrote := by
  obtain ⟨hcmd, hctx⟩ := fieldOf_unloadCmd c
  have hsome : (s.panCfg p).isNone = false := by rw [Option.isNone_eq_false_iff, hp]
  rw [State.writeReg, State.writeCtxCmd, hsome, if_neg Bool.false_ne_true, hcmd, hctx]
  rfl

end

/-! ### LOAD -/

theorem State.load_ok {s : State} {p c cat : Nat} {l : LoadPlan} (h : s.loadPlan p c cat = .ok l) : s.load p c cat = (none, s.startLoad p c cat l) := by
  rw [State.load, h]

theorem State.load_error {s : State} {p c cat : Nat} {r : Reason} {f : Option Shortfall} (h : s.loadPlan p c cat = .error (r, f)) :
    (s.load p c cat).1 = some r := by
  rw [State.load, h]
  cases f with
  | none => rfl
  | some _ => rfl

/-- What a load that starts leaves: memory, registers and instances, and the cores' flags and outstanding operations. -/
structure State.OnlyPlanned (s t : State) : Prop where
  mem : t.mem = s.mem
  regs : t.regs = s.regs
  jobs : t.jobs = s.jobs
  core : ∀ n, (t.core n).vuFlags = (s.core n).vuFlags ∧ (t.core n).ops = (s.core n).ops

theorem State.OnlyPlanned.trans {s t u : State} (h : s.OnlyPlanned t) (h' : t.OnlyPlanned u) : s.OnlyPlanned u :=
  ⟨h'.mem.trans h.mem, h'.regs.trans h.regs, h'.jobs.trans h.jobs,
    fun n => ⟨(h'.core n).1.trans (h.core n).1, (h'.core n).2.trans (h.core n).2⟩⟩

theorem State.OnlyPlanned.of_cores {s t : State} (hm : t.mem = s.mem) (hr : t.regs = s.regs) (hj : t.jobs = s.jobs) (hc : t.cores = s.cores) :
    s.OnlyPlanned t :=
  have hcore (n : Nat) : t.core n = s.core n := congrArg (fun m : SMap Core => m.getD n {}) hc
  ⟨hm, hr, hj, fun n => ⟨congrArg Core.vuFlags (hcore n), congrArg Core.ops (hcore n)⟩⟩

/-- A core that forgets a context it ran keeps its flags and its operations. -/
theorem State.forget_planned (s : State) (n : Nat) (q : Nat × Nat) :
    s.OnlyPlanned (s.onCore n (fun k => if k.run = some q then { k with run := none } else k)) := by
  refine ⟨rfl, rfl, rfl, fun m => ?_⟩
  by_cases h : m = n
  · rw [h, State.onCore_core]
    split
    · exact ⟨rfl, rfl⟩
    · exact ⟨rfl, rfl⟩
  · rw [State.onCore_core_ne _ _ _ _ h]
    exact ⟨rfl, rfl⟩

theorem State.startLoad_planned (s : State) (p c cat : Nat) (l : LoadPlan) : s.OnlyPlanned (s.startLoad p c cat l) := by
  unfold State.startLoad
  extract_lets cored toks charged asked placed
  have hcored : s.OnlyPlanned cored :=
    List.foldlRecOn (motive := s.OnlyPlanned) l.ranks _ (.of_cores rfl rfl rfl rfl) fun t ht n _ => ht.trans (t.forget_planned n (p, c))
  have hframe := (cored.chargeBy_onlyCharged p .hbus 4096 (l.pages.length * 4096)).frame
  have hcharged : cored.OnlyPlanned charged := .of_cores ((congrArg State.mem hframe).trans rfl) ((congrArg State.regs hframe).trans rfl)
    ((congrArg State.jobs hframe).trans rfl) ((congrArg State.cores hframe).trans rfl)
  exact (hcored.trans hcharged).trans (.of_cores rfl rfl rfl rfl)

theorem State.startLoad_ctx (s : State) (p c cat : Nat) (l : LoadPlan) :
    ((s.startLoad p c cat l).ctx p c).st = .loading ∧ ((s.startLoad p c cat l).ctx p c).cat = cat
      ∧ ((s.startLoad p c cat l).ctx p c).ranks = l.ranks ∧ ((s.startLoad p c cat l).ctx p c).streamed = l.streamed := by
  unfold State.startLoad
  extract_lets cored toks charged asked placed
  rw [State.onCtx_ctx]
  exact ⟨rfl, rfl, rfl, rfl⟩

/-! ### PREEMPT and PAUSE -/

theorem State.Sends.pan_ctxs {s t : State} (h : s.Sends t) (p : Nat) : (t.pan p).ctxs = (s.pan p).ctxs := (congrArg Pan.ctxs (h.pans p)).trans rfl

theorem State.Sends.entryOn {s t : State} (h : s.Sends t) (p : Nat) : (t.pan p).entryOn = (s.pan p).entryOn := (congrArg Pan.entryOn (h.pans p)).trans rfl

/-- The current value of PAN_n_CTRL with PREEMPT set: PAUSE as it stands. -/
theorem State.cur_panCtrl_preempt {s : State} {p : Nat} (hp : (s.panCfg p).isSome = true) :
    (s.cur (.panCtrl p) ||| 2).getLsbD 0 = (s.pan p).paused ∧ (s.cur (.panCtrl p) ||| 2).getLsbD 1 = true := by
  rw [State.cur, if_pos hp]
  cases (s.pan p).paused with
  | true => decide
  | false => decide

theorem State.pausePan_same {s : State} {p : Nat} {on : Bool} (h : (s.pan p).paused = on) : s.pausePan p on = s := by
  unfold State.pausePan
  split
  · rfl
  · exact if_pos h

theorem State.writeReg_preempt {s : State} {p : Nat} {v : Word} (src : RegSrc) (hsame : v.getLsbD 0 = (s.pan p).paused) (hv : v.getLsbD 1 = true) :
    s.writeReg src (.panCtrl p) v = wroteOr (s.preemptPan p) := by
  rw [State.writeReg, State.pausePan_same hsame.symm]
  exact if_pos hv

theorem State.preemptPan_reserved {s : State} {p : Nat} {cfg : PanCfg} (hcfg : s.panCfg p = some cfg) (h : cfg.reserved = true) :
    s.preemptPan p = (some .noPermission, s) := by
  unfold State.preemptPan
  rw [hcfg]
  exact if_pos h

theorem State.preemptPan_free {s : State} {p : Nat} {cfg : PanCfg} (hcfg : s.panCfg p = some cfg) (h : cfg.reserved = false) :
    s.preemptPan p = (none, s.closeEntry p) := by
  unfold State.preemptPan
  rw [hcfg]
  exact if_neg (h ▸ Bool.false_ne_true)

/-- The end of an entry pauses no pan and lets none go on. -/
theorem State.endEntry_paused (s : State) (p q : Nat) : ((s.endEntry p).pan q).paused = (s.pan q).paused := by
  have hstopped : ((s.allStopped p).pan q).paused = (s.pan q).paused :=
    List.foldlRecOn (motive := fun t : State => (t.pan q).paused = (s.pan q).paused) _ _ rfl fun t ht d _ =>
      ((t.stopCtx_passes (p := p) (c := d + 1) fun h => Nat.succ_ne_self d h.2).paused q).trans ht
  rw [s.endEntry_eq, State.onPan_paused _ p (f := fun x => { x with entryOn := false }) (fun _ => rfl), hstopped]

theorem State.closeEntry_paused (s : State) (p : Nat) : ((s.closeEntry p).pan p).paused = (s.pan p).paused :=
  have hpasses : (s.endEntry p).Passes p 0 (s.closeEntry p) := State.atBoundary_passes _ p _
  (hpasses.paused p).trans (s.endEntry_paused p p)

theorem State.closeEntry_entryOn (s : State) (p : Nat) : ((s.closeEntry p).pan p).entryOn = false :=
  congrArg (fun x : Nat × Bool × Bool × Nat => x.2.1) (s.closeEntry_entryState p)

theorem State.writeReg_pause (s : State) (src : RegSrc) (p : Nat) (on : Bool) :
    s.writeReg src (.panCtrl p) (word (bitAt 0 on)) = (s.pausePan p on).wrote := by
  rw [State.writeReg]
  cases on with
  | true => rfl
  | false => rfl

theorem State.pausePan_spec {s : State} {p : Nat} (hp : (s.panCfg p).isSome = true) (on : Bool) :
    ((s.pausePan p on).pan p).paused = on ∧ (on = true → ∀ c, (s.pausePan p on).ctx p c = s.ctx p c)
      ∧ (∀ q, q ≠ p → (s.pausePan p on).pan q = s.pan q) ∧ s.pausePan p on = { s with pans := (s.pausePan p on).pans } := by
  by_cases hsame : (s.pan p).paused = on
  · rw [State.pausePan_same hsame]
    exact ⟨hsame, fun _ _ => rfl, fun _ _ => rfl, rfl⟩
  · obtain ⟨cfg, hcfg⟩ := Option.isSome_iff_exists.mp hp
    have hpause : s.pausePan p on = s.onPan p (fun x => { x with
        paused := on, ctxs := if on then x.ctxs else x.ctxs.map (fun e => (e.1, { e.2 with parked := true })) }) := by
      unfold State.pausePan
      rw [hcfg]
      exact if_neg hsame
    rw [hpause]
    refine ⟨by rw [State.onPan_pan], fun hon c => ?_, fun q hne => State.onPan_pan_ne _ _ _ _ hne, rfl⟩
    rw [State.ctx, State.onPan_pan, hon]
    rfl

/-! ### O25 -/

/-- Settles O25, by what each register's write does: an emptied index stays empty at the boundaries that its unloading makes, since it holds no
context, and pauses are left alone there. -/
theorem panCommands : Obligations.PanCommands := by
  refine fun s src p c cat hp => ⟨fun ok => ?load, fun ok hheld => ?unload, fun cfg hcfg ok => ?preempt, fun on ok => ?pause⟩
  case load =>
    obtain ⟨u, hu, hspi, hans, hdecl⟩ := State.writeBy_answers ok (Reg.ofAddr_panCtxCmd p.isLt) rfl
    have hwrite := State.writeReg_load (s := u) (by rw [hu.panCfg, hp]) src c cat
    rw [hwrite] at hans hdecl
    refine ⟨_, u, rfl, hu, hspi, fun l hl => ?_, fun r f hf => hdecl r (State.load_error hf)⟩
    rw [State.load_ok hl] at hans
    have hanswered : (u.startLoad p.val c.val cat.toNat l).Answers (s.writeBy src (.panCtxCmd p.val) (word (0x40000000 + cat.toNat * 256 + c.val))) :=
      hans rfl
    have hctx (d : Nat) := State.Sends.ctx hanswered p.val d
    have hplanned := u.startLoad_planned p.val c.val cat.toNat l
    obtain ⟨hst, hcat, hranks, hstreamed⟩ := u.startLoad_ctx p.val c.val cat.toNat l
    refine ⟨(congrArg Ctx.st (hctx _)).trans hst, (congrArg Ctx.cat (hctx _)).trans hcat, (congrArg Ctx.ranks (hctx _)).trans hranks,
      (congrArg Ctx.streamed (hctx _)).trans hstreamed, fun d hd => ?_, ?_, ?_, ?_, fun n => ?_⟩
    · exact (hctx d).trans ((u.startLoad_apart (fun h => hd h.2) _ l).ctx.trans (hu.ctx _ _))
    · exact hanswered.mem.trans (hplanned.mem.trans hu.mem)
    · exact hanswered.regs.trans (hplanned.regs.trans hu.regs)
    · exact hanswered.jobs.trans (hplanned.jobs.trans hu.jobs)
    · rw [hanswered.core, ← hu.core]
      exact hplanned.core n
  case unload =>
    obtain ⟨u, hu, -, hans⟩ := State.writeBy_ok ok (Reg.ofAddr_panCtxCmd p.isLt) rfl
    rw [State.writeReg_unload (s := u) (by rw [hu.panCfg, hp]) src c] at hans
    have hanswered : (u.unloadCtx p.val c.val).Answers (s.writeBy src (.panCtxCmd p.val) (word (0x80000000 + c.val))) := hans rfl
    rw [← hu.ctx] at hheld
    obtain ⟨tag, htag⟩ := u.unloadCtx_empties hheld
    have hctx := (State.Sends.ctx hanswered p.val c.val).trans htag
    exact ⟨_, rfl, congrArg Ctx.st hctx, congrArg Ctx.slots hctx, congrArg Ctx.ranks hctx, congrArg Ctx.live hctx⟩
  case preempt =>
    obtain ⟨u, hu, -, hans, hdecl⟩ := State.writeBy_answers ok (Reg.ofAddr_panCtrl p.isLt) rfl
    obtain ⟨hpaused, hset⟩ := State.cur_panCtrl_preempt hp
    rw [State.writeReg_preempt src (hpaused.trans (hu.paused _).symm) hset] at hans hdecl
    have hcfg' : u.panCfg p.val = some cfg := by rw [hu.panCfg, hcfg]
    refine ⟨fun hres => ⟨_, rfl, ?_⟩, fun hres => ⟨_, rfl, ?_⟩⟩
    · rw [State.preemptPan_reserved hcfg' hres] at hdecl
      exact hdecl _ rfl
    · rw [State.preemptPan_free hcfg' hres] at hans
      have hanswered := hans rfl
      exact ⟨(State.Sends.entryOn hanswered _).trans (u.closeEntry_entryOn _),
        fun d hd => (congrArg Ctx.live (State.Sends.ctx hanswered _ _)).trans (u.closeEntry_live _ hd),
        (State.Sends.paused hanswered _).trans ((u.closeEntry_paused _).trans (hu.paused _))⟩
  case pause =>
    have hword : (if on then 1 else 0 : Word) = word (bitAt 0 on) := by
      cases on with
      | true => rfl
      | false => rfl
    rw [hword] at ok
    obtain ⟨u, hu, -, hans⟩ := State.writeBy_ok ok (Reg.ofAddr_panCtrl p.isLt) rfl
    rw [State.writeReg_pause] at hans
    have hanswered : (u.pausePan p.val on).Answers (s.writeBy src (.panCtrl p.val) (word (bitAt 0 on))) := hans rfl
    obtain ⟨hpaused, hctxs, hothers, hframe⟩ := State.pausePan_spec (s := u) (by rw [hu.panCfg, hp]) on
    refine ⟨_, rfl, (State.Sends.paused hanswered _).trans hpaused,
      fun hon d => (State.Sends.ctx hanswered _ _).trans ((hctxs hon d).trans (hu.ctx _ _)), fun q hne => ⟨?_, ?_⟩, ?_⟩
    · exact (State.Sends.paused hanswered q).trans ((congrArg Pan.paused (hothers q hne)).trans (hu.paused q))
    · exact (State.Sends.pan_ctxs hanswered q).trans ((congrArg Pan.ctxs (hothers q hne)).trans (hu.pan_ctxs q))
    · have hpause := State.Sends.mapAll hanswered fun x => { x with pans := s.pans, svc := s.svc }
      have hsame : { u.pausePan p.val on with pans := s.pans, svc := s.svc } = { u with pans := s.pans, svc := s.svc } :=
        (congrArg (fun x : State => { x with pans := s.pans, svc := s.svc }) hframe).trans rfl
      rw [hsame] at hpause
      exact (hu.mapAll fun x => { x with pans := s.pans, svc := s.svc }).trans hpause

end Sys2Proof.Machine
end
